-- ==== Sys2Proof/Word.lean ====
section
/-!
DEFINITION. The machine's word types and plain numeric views of them (R8, R10, R11), and the sparse table the state
is written with. Nothing here depends on an instruction.
-/
namespace Sys2Proof

/-- A byte of memory. -/
abbrev Byte := BitVec 8
/-- One instruction word (R48). -/
abbrev IWord := BitVec 32
/-- A general register, a special register, a memory word. -/
abbrev Word := BitVec 64
/-- A vector register's contents (R16). -/
abbrev VWord := BitVec 512
/-- A general register number g0-g15 (R52). -/
abbrev Reg := BitVec 4
/-- A vector register number v0-v7 (R52). -/
abbrev VReg := BitVec 3

/-- `Bits(x, h, l)` of R11, on a natural number. -/
def bitsOf (x h l : Nat) : Nat := (x >>> l) % 2 ^ (h + 1 - l)

/-- `Trunc(x, n)` of R11, on a natural number. -/
def truncN (x n : Nat) : Nat := x % 2 ^ n

/-- `SignExtend(x, n)` of R11: the value of the low `n` bits read as a two's complement integer. -/
def signExt (x n : Nat) : Int :=
  let t := x % 2 ^ n
  if 2 * t < 2 ^ n then (t : Int) else (t : Int) - ((2 ^ n : Nat) : Int)

/-- `Trunc(x, n)` of R11, on a mathematical integer: the non-negative remainder. -/
def truncI (x : Int) (n : Nat) : Nat := (x % ((2 ^ n : Nat) : Int)).toNat

/-- `Sat(x, lo, hi)` of R11. -/
def satI (x lo hi : Int) : Int := if x < lo then lo else if hi < x then hi else x

/-- `1` for true and `0` for false, as comparison results are written. -/
def boolN (b : Bool) : Nat := if b then 1 else 0

/-- A sparse table: keys strictly rising, each key at most once. A key that is not listed holds the default that the
reader names. -/
abbrev Table (α : Type) := List (Nat × α)

/-- The entry of key `k`, or none. -/
def Table.find {α : Type} : Table α → Nat → Option α
  | [], _ => none
  | (j, v) :: t, k => if j = k then some v else Table.find t k

/-- The value of key `k`, `d` where nothing is listed. -/
def Table.get {α : Type} (d : α) (t : Table α) (k : Nat) : α := (Table.find t k).getD d

/-- The table with `v` at `k`, keys kept rising. -/
def Table.set {α : Type} : Table α → Nat → α → Table α
  | [], k, v => [(k, v)]
  | (j, w) :: t, k, v =>
    if k < j then (k, v) :: (j, w) :: t
    else if j = k then (k, v) :: t
    else (j, w) :: Table.set t k v

/-- The table with key `k` no longer listed. -/
def Table.erase {α : Type} (t : Table α) (k : Nat) : Table α := t.filter fun e => e.1 != k

/-- The table with the entry of `k` changed by `f`, which starts from `d` where nothing is listed. -/
def Table.modify {α : Type} (d : α) (t : Table α) (k : Nat) (f : α → α) : Table α :=
  Table.set t k (f (Table.get d t k))

/-- The keys of a table rise strictly. -/
def Table.sorted {α : Type} : Table α → Bool
  | [] => true
  | [_] => true
  | (j, _) :: (k, w) :: t => decide (j < k) && Table.sorted ((k, w) :: t)

/-- A set of numbers kept as a strictly rising list. -/
def insertSorted : List Nat → Nat → List Nat
  | [], k => [k]
  | j :: t, k => if k < j then k :: j :: t else if j = k then j :: t else j :: insertSorted t k

/-- The numbers `lo`, `lo + 1`, … , `n` of them. -/
def natsFrom (lo n : Nat) : List Nat := (List.range n).map (lo + ·)

/-- The largest of a list of numbers, 0 for none. -/
def maxOf (l : List Nat) : Nat := l.foldl max 0

/-- Little-endian bytes of a number (R8): `n` bytes. -/
def leBytes (v : Nat) : Nat → List Nat
  | 0 => []
  | n + 1 => v % 256 :: leBytes (v / 256) n

/-- The number whose little-endian bytes these are (R8). -/
def ofLeBytes : List Nat → Nat
  | [] => 0
  | b :: t => b + 256 * ofLeBytes t

end Sys2Proof
end

