-- ==== Sys2Proof/Config.lean ====
section
/-!
DEFINITION. What is fixed for the part (R1-R7 and the bounds of the chapters), and the free values: the values the
spec leaves open, which have no body here, so that nothing can be proved of them (notes/assumptions names each).
-/
namespace Sys2Proof.Config

/-! ### Organisation (R1, R5, R7) -/

def numSpindles : Nat := 12288
def numClusters : Nat := 768
def numEngines : Nat := 36
def numQueues : Nat := 16384
def meshW : Nat := 128
def meshH : Nat := 96
/-- Spindle number `y·128 + x` (R5). -/
def spX (sp : Nat) : Nat := sp % 128
def spY (sp : Nat) : Nat := sp / 128
def spAt (x y : Nat) : Nat := y * 128 + x
/-- The die of a spindle (R5). -/
def dieOf (sp : Nat) : Nat := (spY sp / 32) * 4 + spX sp / 32
/-- The package cluster number of a spindle (R5). -/
def clusterOf (sp : Nat) : Nat := dieOf sp * 64 + ((spY sp % 32) / 4) * 8 + (spX sp % 32) / 4
/-- The coordinates of the low corner of a package cluster (R1, R5). -/
def clusterX (cl : Nat) : Nat := (cl / 64 % 4) * 32 + (cl % 8) * 4
def clusterY (cl : Nat) : Nat := (cl / 64 / 4) * 32 + (cl % 64 / 8) * 4
/-- The 16 spindles of a package cluster, row-major from its low corner. -/
def clusterSpindles (cl : Nat) : List Nat :=
  (List.range 16).map fun i => spAt (clusterX cl + i % 4) (clusterY cl + i / 4)

/-- A fabric address of the own package without its CHIP field: SPINDLE in bits 40:27, LOCAL in 26:0 (R7). -/
def faOf (sp lcl : Nat) : Nat := sp * 2 ^ 27 + lcl
def faSp (fa : Nat) : Nat := fa / 2 ^ 27 % 2 ^ 14
def faLocal (fa : Nat) : Nat := fa % 2 ^ 27
/-- LOCAL values that exist: the scratchpad and the DRAM slice (R7). -/
def localMapped (l : Nat) : Bool := decide (l < 0x10000) || (decide (0x1000000 ≤ l) && decide (l < 0x4000000))
/-- A fabric address that names memory of the part. -/
def faMapped (fa : Nat) : Bool := decide (faSp fa < numSpindles) && localMapped (faLocal fa)
/-- The 8-byte word that holds a byte. -/
def wordOf (fa : Nat) : Nat := fa / 8 * 8
/-- Bank 0 is the scratchpad, bank 1 the DRAM slice (R129). -/
def bankOf (fa : Nat) : Nat := if faLocal fa < 0x10000 then 0 else 1

/-! ### Bounds stated as values (R402) -/

def nackRetry : Nat := 1024
def waiterRetryCycles : Nat := 256
def waiterSlots : Nat := 64
def batchWrites : Nat := 8
def batchCycles : Nat := 32
def requestTimeoutCycles : Nat := 2 ^ 30
def gustWindow : Nat := 2 ^ 20

/-! ### Free values: no body, so no proof can use one -/

/-- Which line of a full instruction cache a new line replaces: the spec gives no rule (R23, R67). -/
opaque icacheVictim : Nat → Nat
/-- Whether a store changes what a cached instruction line will still give: the line a fetch sees is its old or its new
value (R67). -/
opaque icacheKeepsOld : Nat → Bool
/-- Whether a word of a copy chunk that fails is written all the same: the spec orders no words within a chunk (R308). -/
opaque chunkWord : Nat → Nat → Bool
/-- Which word of an access of several words is performed next, and which of the others wait: the spec orders no words within one
(R160, R161, R165, R196, R270). -/
opaque tearFirst : Nat → Nat
opaque tearLeave : Nat → Nat → Bool
/-- Whether a context goes on with the words left of its access on the same cycle. -/
opaque tearSoon : Nat → Bool
/-- How many of a fenced source's newest messages of a mesh class have not wholly left it, by a free number, the source and the class:
the spec says what becomes of them and not how far an injection has come (R38, R344). -/
opaque cutShort : Nat → Nat → Nat → Nat
/-- Which 64-byte line of a chunk has the check value that disagrees (R345). -/
opaque crcLine : Nat → Nat
/-- Which free entry of the unraveller's table a new activity takes (R317). -/
opaque actEntry : Nat → Nat
/-- Which of several things that may happen next happens: the spec fixes no latency of a message, a walk, a loom step, a chunk or a
dispatcher action (R118, R365). -/
opaque pickTurn : Nat → Nat
/-- Whether a retraining port comes back (R315). -/
opaque retrainOk : Nat → Bool
/-- The silicon stepping of MID (R379). -/
opaque stepping : BitVec 32
/-- The part's serial number (R387). -/
opaque partSerial : Word
/-- The four fused Rosrik root keys and which are revoked (R386), 57 bytes each. -/
opaque rootKeys : List (List Byte)
opaque keyRevoked : Nat → Bool
/-- The device identity's private key, 57 bytes, never readable, and its certificate by a Rosrik root key, kept in flash (R387). -/
opaque identitySeed : List Byte
opaque identityCert : List Byte
/-- The hottest monitor of a die at a cycle, in 1/16 °C (R379). -/
opaque dieTemp : Nat → Nat → BitVec 16
/-- Whether a Bluwailo port trains in bring-up stage 5, by a free number and the port (R378). -/
opaque portTrains : Nat → Nat → Bool
/-- Bytes of a running job's system region whose layout the spec does not give: its save area and its migrant reserve (R340, R36). -/
opaque hiddenByte : Nat → Nat → Byte
/-- The firmware the part was made with, by TYPE (R386): its image's bytes. -/
opaque factoryImage : Nat → List Byte
/-- The fused minimum security version of each TYPE as the part was made (R386). -/
opaque factoryMinSvn : Nat → Nat
end Sys2Proof.Config
end

