-- ==== Sys2Proof/Syntax.lean ====
section
/-!
DEFINITION. The instructions and events of the part, one constructor for each row of the opcode table (R56 and
the chapters that describe each form). Registers are fields of the format (R51); an event carries what names it.
-/
namespace Sys2Proof

/-- An instruction of a context, or an event of the part. -/
inductive Instr where
  -- R72: integer operations, 64-bit or (w) 32-bit
  | add (d a b : Reg) (w : Bool)
  | sub (d a b : Reg) (w : Bool)
  | and_ (d a b : Reg) (w : Bool)
  | or_ (d a b : Reg) (w : Bool)
  | xor (d a b : Reg) (w : Bool)
  | andn (d a b : Reg) (w : Bool)
  | shl (d a b : Reg) (w : Bool)
  | shr (d a b : Reg) (w : Bool)
  | sar (d a b : Reg) (w : Bool)
  | rol (d a b : Reg) (w : Bool)
  | mul (d a b : Reg) (w : Bool)
  | mulhs (d a b : Reg) (w : Bool)
  | mulhn (d a b : Reg) (w : Bool)
  | divs (d a b : Reg) (w : Bool)
  | divn (d a b : Reg) (w : Bool)
  | rems (d a b : Reg) (w : Bool)
  | remn (d a b : Reg) (w : Bool)
  | mins (d a b : Reg) (w : Bool)
  | maxs (d a b : Reg) (w : Bool)
  | minn (d a b : Reg) (w : Bool)
  | maxn (d a b : Reg) (w : Bool)
  | slts (d a b : Reg) (w : Bool)
  | sltn (d a b : Reg) (w : Bool)
  | seq (d a b : Reg) (w : Bool)
  | sne (d a b : Reg) (w : Bool)
  -- R73: immediates, with a 16-bit immediate or a 64-bit literal
  | addi (d a : Reg) (i : BitVec 16)
  | addiLiteral (d a : Reg) (l : Word)
  | andi (d a : Reg) (i : BitVec 16)
  | andiLiteral (d a : Reg) (l : Word)
  | ori (d a : Reg) (i : BitVec 16)
  | oriLiteral (d a : Reg) (l : Word)
  | xori (d a : Reg) (i : BitVec 16)
  | xoriLiteral (d a : Reg) (l : Word)
  | slti (d a : Reg) (i : BitVec 16)
  | sltiLiteral (d a : Reg) (l : Word)
  | movi (d : Reg) (i : BitVec 16)
  | moviLiteral (d : Reg) (l : Word)
  | shli (d a : Reg) (k : BitVec 6)
  | shri (d a : Reg) (k : BitVec 6)
  | sari (d a : Reg) (k : BitVec 6)
  | roli (d a : Reg) (k : BitVec 6)
  -- R74: bit operations
  | popc (d a : Reg)
  | clz (d a : Reg)
  | ctz (d a : Reg)
  | brev (d a : Reg)
  | bswap (d a : Reg)
  | bfxs (d a b : Reg)
  | bfxn (d a b : Reg)
  | bfi (d a b : Reg)
  | sel (d a b c : Reg)
  -- R75, R76: branches, calls and jumps
  | br (disp : BitVec 16)
  | beqz (a : Reg) (disp : BitVec 16)
  | bnez (a : Reg) (disp : BitVec 16)
  | bltz (a : Reg) (disp : BitVec 16)
  | bgez (a : Reg) (disp : BitVec 16)
  | bgtz (a : Reg) (disp : BitVec 16)
  | blez (a : Reg) (disp : BitVec 16)
  | call (disp : BitVec 24)
  | jmpr (a : Reg)
  | callr (a : Reg)
  | ret
  -- R124: loads and stores; sz is the M-format size code
  | ld (d a : Reg) (sz : BitVec 2) (off : BitVec 12)
  | ldLiteral (d a : Reg) (sz : BitVec 2) (l : Word)
  | ldSigned (d a : Reg) (sz : BitVec 2) (off : BitVec 12)
  | ldSignedLiteral (d a : Reg) (sz : BitVec 2) (l : Word)
  | st (d a : Reg) (sz : BitVec 2) (off : BitVec 12)
  | stLiteral (d a : Reg) (sz : BitVec 2) (l : Word)
  -- R126: full/empty forms
  | ldf (d a : Reg) (sz : BitVec 2) (off : BitVec 12)
  | ldfLiteral (d a : Reg) (sz : BitVec 2) (l : Word)
  | lde (d a : Reg) (sz : BitVec 2) (off : BitVec 12)
  | ldeLiteral (d a : Reg) (sz : BitVec 2) (l : Word)
  | feq (d a : Reg) (off : BitVec 12)
  | feqLiteral (d a : Reg) (l : Word)
  | stf (d a : Reg) (sz : BitVec 2) (off : BitVec 12)
  | stfLiteral (d a : Reg) (sz : BitVec 2) (l : Word)
  | stw (d a : Reg) (sz : BitVec 2) (off : BitVec 12)
  | stwLiteral (d a : Reg) (sz : BitVec 2) (l : Word)
  | fec (a : Reg) (off : BitVec 12)
  | fecLiteral (a : Reg) (l : Word)
  -- R131: bank atomics
  | aadd (d a b : Reg) (w : Bool)
  | aand (d a b : Reg) (w : Bool)
  | aor (d a b : Reg) (w : Bool)
  | axor (d a b : Reg) (w : Bool)
  | amins (d a b : Reg) (w : Bool)
  | amaxs (d a b : Reg) (w : Bool)
  | aminn (d a b : Reg) (w : Bool)
  | amaxn (d a b : Reg) (w : Bool)
  | aswap (d a b : Reg) (w : Bool)
  | acas (d a b c : Reg) (w : Bool)
  | afadd (d a b : Reg) (w : Bool)
  | afmin (d a b : Reg) (w : Bool)
  | afmax (d a b : Reg) (w : Bool)
  -- R192: deferred updates; c is the explicit key register, 0 for none
  | dadd (a b c : Reg) (w : Bool)
  | dfadd (a b c : Reg)
  | dmins (a b c : Reg) (w : Bool)
  | dmaxs (a b c : Reg) (w : Bool)
  | dfmin (a b c : Reg)
  | dfmax (a b c : Reg)
  | dor (a b c : Reg) (w : Bool)
  | dstore (a b c : Reg) (sz : BitVec 2)
  -- R133: ordering
  | fence
  | drain
  | waita
  -- R138: channels; n1 is the message length less 1
  | send (a b : Reg) (n1 : BitVec 3)
  | recv (d a : Reg)
  | recvt (d a c : Reg)
  | chq (d a : Reg)
  | chbind (d a b : Reg)
  -- R83: threads
  | spawn (d a b c : Reg)
  | reap (d a : Reg)
  | exit (a : Reg)
  | yield
  | sleep (a : Reg)
  | migr (d a : Reg)
  | ckpt (k : BitVec 12)
  -- R89: groups
  | gbar (a : Reg)
  | garr (a : Reg)
  | gwait (a : Reg)
  | gqry (d a : Reg)
  | ply (a : Reg)
  -- R92: special registers
  | srd (d : Reg) (sr : BitVec 8)
  | swr (sr : BitVec 8) (c : Reg)
  -- R146: subscriptions
  | subon (a b c : Reg)
  | suboff (a : Reg)
  | subq (d a : Reg)
  | subfl
  -- R373: device-side launch
  | launch (d a b : Reg)
  | lqry (d a : Reg)
  -- R103: software traps, resuming, idling
  | trap (n : BitVec 8) (b : Reg)
  | brk (n : BitVec 8)
  | resume (d a : Reg) (mode : BitVec 4)
  | idle
  -- R77: floating point; dbl selects FP64, rf is the rounding field, cf the whole field C
  | fadd (d a b : Reg) (dbl : Bool) (rf : BitVec 2)
  | fsub (d a b : Reg) (dbl : Bool) (rf : BitVec 2)
  | fmul (d a b : Reg) (dbl : Bool) (rf : BitVec 2)
  | ffma (d a b : Reg) (dbl : Bool) (rf : BitVec 2)
  | fdiv (d a b : Reg) (dbl : Bool) (rf : BitVec 2)
  | fsqrt (d a : Reg) (dbl : Bool) (rf : BitVec 2)
  | fmin (d a b : Reg) (dbl : Bool)
  | fmax (d a b : Reg) (dbl : Bool)
  | fminm (d a b : Reg) (dbl : Bool)
  | fmaxm (d a b : Reg) (dbl : Bool)
  | fabs (d a : Reg) (dbl : Bool)
  | fneg (d a : Reg) (dbl : Bool)
  | fceq (d a b : Reg) (dbl : Bool)
  | fclt (d a b : Reg) (dbl : Bool)
  | fcle (d a b : Reg) (dbl : Bool)
  | fcun (d a b : Reg) (dbl : Bool)
  | fcvt (d a : Reg) (k : BitVec 4) (cf : BitVec 4)
  | frnd (d a : Reg) (dbl : Bool) (cf : BitVec 4)
  -- R235: vector arithmetic; im is IMODE (U in bit 0, SAT in bit 1), mg the mask field, rm the rounding field
  | vadd (vd va vb : VReg) (im : BitVec 2) (mg : Reg) (rm : BitVec 2)
  | vsub (vd va vb : VReg) (im : BitVec 2) (mg : Reg) (rm : BitVec 2)
  | vmul (vd va vb : VReg) (im : BitVec 2) (mg : Reg) (rm : BitVec 2)
  | vfma (vd va vb vc : VReg) (mg : Reg) (rm : BitVec 2)
  | vmin (vd va vb : VReg) (u : Bool) (mg : Reg)
  | vmax (vd va vb : VReg) (u : Bool) (mg : Reg)
  | vminm (vd va vb : VReg) (mg : Reg)
  | vmaxm (vd va vb : VReg) (mg : Reg)
  | vabs (vd va : VReg) (sat : Bool) (mg : Reg)
  | vneg (vd va : VReg) (sat : Bool) (mg : Reg)
  | vdiv (vd va vb : VReg) (mg : Reg) (rm : BitVec 2)
  | vsqrt (vd va : VReg) (mg : Reg) (rm : BitVec 2)
  | vrcp (vd va : VReg) (mg : Reg) (rm : BitVec 2)
  | vrsq (vd va : VReg) (mg : Reg) (rm : BitVec 2)
  | vexp2 (vd va : VReg) (mg : Reg) (rm : BitVec 2)
  | vlog2 (vd va : VReg) (mg : Reg) (rm : BitVec 2)
  | vsin (vd va : VReg) (mg : Reg) (rm : BitVec 2)
  | vcos (vd va : VReg) (mg : Reg) (rm : BitVec 2)
  | vand (vd va vb : VReg) (mg : Reg)
  | vor (vd va vb : VReg) (mg : Reg)
  | vxor (vd va vb : VReg) (mg : Reg)
  | vshl (vd va vb : VReg) (mg : Reg)
  | vshr (vd va vb : VReg) (mg : Reg)
  | vsar (vd va vb : VReg) (mg : Reg)
  | vceq (vd va vb : VReg) (mg : Reg)
  | vclt (vd va vb : VReg) (u : Bool) (mg : Reg)
  | vcle (vd va vb : VReg) (u : Bool) (mg : Reg)
  | vsel (vd va vb vc : VReg) (mg : Reg)
  -- R240: vector memory; t is a tag code, off the offset field OFF4
  | vld (v : VReg) (a : Reg) (t : BitVec 4) (mg : Reg) (off : BitVec 4)
  | vst (v : VReg) (a : Reg) (mg : Reg) (off : BitVec 4)
  | vlds (v : VReg) (a b : Reg) (mg : Reg) (t : BitVec 4)
  | vsts (v : VReg) (a b : Reg) (mg : Reg)
  | vldb (v : VReg) (a b : Reg) (f : BitVec 2)
  | vstb (v : VReg) (a b : Reg)
  | vgath (v : VReg) (a : Reg) (t : BitVec 4) (mg : Reg) (vi : VReg)
  | vscat (v : VReg) (a : Reg) (mg : Reg) (vi : VReg)
  | vbcst (v : VReg) (a : Reg) (t : BitVec 4) (mg : Reg) (off : BitVec 4)
  -- R245: vector conversion
  | vcvt (vd va : VReg) (n : Bool) (t : BitVec 4) (mg : Reg) (rm : BitVec 2)
  | vqnt (vd va vb : VReg) (f : BitVec 2) (h : Bool)
  | vdq (vd va : VReg) (blk : BitVec 2) (f16 : Bool) (mg : Reg)
  | vtag (vd va : VReg) (t : BitVec 4)
  | vtagq (vd va : VReg)
  -- R250: permutation, reduction, lane moves; k is a lane index
  | vperm (vd va vb : VReg) (mg : Reg)
  | vreda (vd va : VReg) (im : BitVec 2) (mg : Reg) (rm : BitVec 2)
  | vredx (vd va : VReg) (u : Bool) (mg : Reg)
  | vredn (vd va : VReg) (u : Bool) (mg : Reg)
  | vscan (vd va : VReg) (im : BitVec 2) (mg : Reg) (rm : BitVec 2)
  | vmsk (g : Reg) (va : VReg)
  | vins (vd : VReg) (g : Reg) (k : BitVec 6)
  | vext (g : Reg) (va : VReg) (k : BitVec 6) (sx : Bool)
  | vspl (vd : VReg) (g : Reg) (t : BitVec 4)
  -- R263, R264: the loom
  | lmm (d a b : Reg) (af bf ng : BitVec 4) (kg : BitVec 11) (clear : Bool) (colg : BitVec 4) (m1 : BitVec 8)
  | lmmg (d a b c : Reg) (af bf ng : BitVec 4) (kg : BitVec 11) (clear : Bool) (colg : BitVec 4)
  | lbld (d a b : Reg) (bf ng : BitVec 4) (kg : BitVec 11)
  | laclr (a : Reg) (row : BitVec 8) (colg ncg : BitVec 4)
  | lacp (d a : Reg) (row : BitVec 8) (colg ncg : BitVec 4) (fmt : BitVec 4)
  | lacin (d a : Reg) (row : BitVec 8) (colg ncg : BitVec 4) (fmt : BitVec 4)
  | lstat (d : Reg)
  -- R174: pair tasks
  | pseed (a : Reg)
  | ptake (d a b : Reg)
  | pload (d a : Reg) (sx : Bool) (sz : BitVec 2) (off : BitVec 6) (treeB : Bool)
  | ptest (d a b c : Reg)
  | pfork (a : Reg)
  | pdone
  | pqry (d a : Reg)
  -- R282: layered targets
  | fins (d a b c : Reg)
  | lres (d a b c : Reg)
  | lclr (d a b c : Reg)
  | lcnt (d a b : Reg)
  | lpool (d a : Reg)
  -- R319: activities
  | abegin (d : Reg)
  | apush (a b c : Reg)
  | acommit
  | aabandon
  | aret
  | aqry (d a : Reg)
  | afix (d a : Reg) (mode : BitVec 4)
  -- R302, R303, R310, R311: copies; sr is a staging register code
  | cpset (sr : BitVec 4) (c : Reg)
  | cpseti (sr : BitVec 4) (l : Word)
  | cpgo (d : Reg)
  | cptry (d : Reg)
  | cpq (d a : Reg)
  | cpcan (d a : Reg)
  -- R60: prefix words
  | rel (ord : BitVec 2)
  | far
  -- R64: what decoding does with a unit that is no instruction
  | reservedEncoding
  | instructionFetchFault (va : Word)
  -- Events. m is the id of the message that arrives, sp a spindle number, c a context number, port a direction of a Bluwailo
  -- port: 2p leads out of the package, 2p + 1 into it
  | migrationMessage (m : Nat)
  | migrationAnswer (m : Nat)
  | migrationResend (sp c : Nat)
  | migrantAdmission (sp : Nat)
  | exitNotice (m : Nat)
  | sleepExpiry (sp c : Nat)
  | recvtTimeout (sp c : Nat)
  | remoteReadRequest (m : Nat)
  | remoteWriteRequest (m : Nat)
  | remoteAtomicRequest (m : Nat)
  | syncRequest (m : Nat)
  | waiterRetry (m : Nat)
  | replyArrival (m : Nat)
  | relAck (m : Nat)
  | nackRefusal (m : Nat)
  | requestTimeout (sp c : Nat)
  | pageWalkDone (sp c : Nat)
  | subscriptionRequest (m : Nat)
  | batchCloseTimeout (sp line : Nat)
  | batchApply (m : Nat)
  | batchAck (m : Nat)
  | batchNack (m : Nat)
  | subscriptionRemoval (m : Nat)
  | drainRequest (m : Nat)
  | channelMessage (m : Nat)
  | creditReturn (m : Nat)
  | nackBusyResend (m : Nat)
  | phaseComplete (job grp : Nat)
  | taskDelivery (cl : Nat)
  | skeinAppend (m : Nat)
  | loomQueueEntry (cl : Nat)
  | loomStep (cl : Nat)
  | copyChunk (eng : Nat)
  | peerChunkArrival (m : Nat)
  | chunkAck (m : Nat)
  | copyComplete (eng : Nat)
  | linkDataFlit (port : Nat) (crcOk : Bool)
  | linkRetryFlit (port : Nat)
  | linkIdleFlit (port : Nat)
  | linkAckTimeout (port : Nat)
  | linkRetrainDone (port : Nat) (ok : Bool)
  | unravelStep
  | trapRecordArrival (m : Nat)
  | trapRecordRefused (m : Nat)
  | preemptWindowExpiry (job : Nat)
  | frontToken (m : Nat)
  | jobSwitchOut (job : Nat)
  | correctedError (sp : Nat)
  | hostFill (off : Nat) (v : Word)
  | hostMemWrite (off n : Nat) (v : Word)
  | hostMemRead (off n : Nat)
  | recordTake (q : Nat)
  | dependencyPoll (q : Nat)
  | launchSelect
  | goWordReady (q : Nat)
  | launchStart (q : Nat)
  | launchRequest (m : Nat)
  | launchRetire (job : Nat)
  | layerRequest (m : Nat)
  | invtlb
  | teardown
  | bindq
  | winset
  | pairset
  | contset
  | clearfence
  | stop
  | go
  | stopread
  | peermap
  | route
  | dwmap
  | pstate
  | attest
  | fwload
  | fenceread
  | chipno
  | registerWrite (off n : Nat) (v : Word)
  | powerOn
  | bringupStageDone (ok : Bool)
  | powerWindow (die mw : Nat)
  | marginSample (cl slack : Nat)
  | uncorrectableEccError (fa : Nat)
  deriving DecidableEq, Repr

end Sys2Proof
end

