-- ==== Sys2Proof/Machine/State.lean ====
section
/-!
DEFINITION. The state of one package (chip, spindles, contexts, clusters, dies, engines, links, jobs, dispatcher,
unraveller, management controller) as plain data, and the package right after power is applied. INVENTORY.md lists
every piece with the rule that names it.
-/
namespace Sys2Proof.Machine

/-! ### Memory -/

/-- Bytes by fabric address without CHIP: keys rising, no entry equal to 0, which an unlisted address reads as
(R378 stage 4). -/
abbrev Memory := List Host.Cell

/-- What an unlisted address reads as (R378 stage 4). -/
def Memory.unlisted : Byte := 0

/-- The canonical form: keys strictly rising and no listed byte equal to what an unlisted address reads as. -/
def Memory.wf : Memory → Bool
  | [] => true
  | (_, v) :: [] => v != Memory.unlisted
  | (j, v) :: (k, w) :: t => decide (j < k) && v != Memory.unlisted && Memory.wf ((k, w) :: t)

/-! ### The unit in issue, traps and waits of a context -/

/-- The unit a context last began (R50): its PC, its words so far, its prefixes, and the PC after it. -/
structure UnitRec where
  pc : Word := 0
  words : List IWord := []
  rel : Option (BitVec 2) := none
  far : Bool := false
  next : Word := 0
  deriving DecidableEq, Repr

/-- What a trap record says of a trap (R327, R328), and how its context froze (R104). -/
structure TrapInfo where
  cause : Nat
  addr : Word := 0
  pc : Word := 0
  words : List IWord := []
  lanes : Nat := 0
  cls : Nat := 0
  defer : Bool := false
  thidx : Nat := 0
  fetchFault : Bool := false
  skipPc : Word := 0
  deriving DecidableEq, Repr

/-- The five context states (R17, R18). -/
inductive CtxState where
  | free | ready | parked | departing | frozen
  deriving DecidableEq, Repr

/-- A copy entry of a spindle's copy table (R145): the copy's base, its length, the publisher and its base. -/
structure CopyEntry where
  base : Nat
  len : Nat
  pubSp : Nat
  pubBase : Nat
  pubJob : Nat := 0
  susp : Bool := false
  pfenced : Bool := false
  deriving DecidableEq, Repr

/-- What a parked context does when what it waits for arrives: nothing to finish and the unit issues again, or how the
answer to its request is used. -/
inductive Kont where
  | reissue
  | advance
  | load (d : Reg) (n : Nat) (sx : Bool)
  | atomic (d : Reg) (n : Nat) (flt : Bool)
  | value (d : Reg)
  | gather (word : Nat)
  | subon (e : CopyEntry)
  | suboff (base : Nat)
  | drain (left : Nat) (fenced : Bool)
  | acks (left : Nat)
  | commit (left : Nat)
  | emptied (d : Reg) (id : Nat)
  deriving DecidableEq, Repr

/-- An outstanding REL operation (R120): its token, its word, the register that is pending (R121), its unit's PC and
virtual address for a deferred trap (R123), whether it holds back later memory instructions, and the cycle it was last sent (R329). -/
structure RelOp where
  tok : Nat
  word : Nat
  dest : Option (Reg × Nat × Bool × Bool) := none
  pc : Word := 0
  va : Word := 0
  acq : Bool := false
  sentAt : Nat := 0
  deriving DecidableEq, Repr

/-! ### Pair tasks, deferred updates -/

/-- A pair descriptor (R172). -/
structure PairDesc where
  na : Nat
  nb : Nat
  slot : Nat
  reissued : Bool := false
  root : Bool := false
  deriving DecidableEq, Repr

/-- A skein entry (R194) with what R193 sends; `due` marks an entry of a merge that has begun at its home (R196). -/
structure SkeinEntry where
  fa : Nat
  op : Nat
  sz : Nat
  v : Nat
  key : Nat
  seqn : Nat
  plyg : Nat
  phase : Nat
  anyph : Bool
  due : Bool := false
  deriving DecidableEq, Repr

/-- A buffered deferred update of a held task (R181, R182). -/
structure DupEffect where
  va : Word
  fa : Nat
  op : Nat
  sz : Nat
  v : Nat
  deriving DecidableEq, Repr

/-- The task effects buffer of a context that holds a task (R177, R181). -/
structure TaskBuf where
  desc : PairDesc
  cluster : Nat
  dups : List DupEffect := []
  fork : Option (List PairDesc) := none
  deriving DecidableEq, Repr

/-! ### Copies -/

/-- The copy staging set (R301). -/
structure Staging where
  csrc : Word := 0
  cdst : Word := 0
  cpeer : Word := 0xFF
  clen : Word := 0
  csstr : Word := 0
  cdstr : Word := 0
  crows : Word := 0
  cflag : Word := 0
  cfval : Word := 0
  cseed : Word := 0
  cexp : Word := 0
  cmode : Word := 4
  deriving DecidableEq, Repr

/-- The chain link of a context (R301); id 0 means empty. -/
structure ChainLink where
  id : Nat := 0
  eng : Nat := 0
  check : Nat := 0
  final : Option Nat := none
  failed : Bool := false
  deriving DecidableEq, Repr

/-! ### Contexts -/

/-- A vector access of several words of which some are performed (R165): the loads left (lane, fabric address, bytes), the lanes
loaded, and the stores left (word, with the bytes as offset, value and the bits of the old byte that stay). -/
structure Torn where
  loads : List (Nat × Nat × Nat) := []
  got : List (Nat × Nat) := []
  stores : List (Nat × List (Nat × Nat × Nat)) := []
  deriving DecidableEq, Repr

/-- A mailbox message that its source holds for want of room (R143); for a trap record (R330), what its refusal would send back: the
trapping context, the trap, whether this buddy is the second, and the activity of a COMPFAIL. -/
structure HeldMail where
  ws : List Word
  record : Option (Nat × TrapInfo × Bool × Nat) := none
  deriving DecidableEq, Repr

/-- One hardware context (R16). STATUS (R17) is a view computed from these fields. -/
structure Context where
  pc : Word := 0
  g : Vector Word 16 := Vector.replicate 16 0
  v : Vector VWord 8 := Vector.replicate 8 0
  tag : Vector (BitVec 4) 8 := Vector.replicate 8 0
  side : Vector Word 8 := Vector.replicate 8 0
  st : CtxState := .free
  park : Nat := 0
  pretag : BitVec 32 := 0
  pairtask : Bool := false
  handler : Bool := false
  supv : Bool := false
  thidx : Nat := 0
  cprof : Word := 0
  fstat : Word := 0
  gset : Word := 0
  actid : Word := 0
  plyg : Word := 0
  lprog : Word := 0
  cktab : BitVec 16 := 0xFFFF
  trapv : Word := 0
  cpinj : Word := 0
  winsel : Word := 0
  loomStat : Word := 0
  staging : Staging := {}
  chain : ChainLink := {}
  mailbox : List (List Word) := []
  mailHeld : List HeldMail := []
  task : Option TaskBuf := none
  unit : UnitRec := {}
  kont : Kont := .advance
  tok : Nat := 0
  sentAt : Nat := 0
  bounded : Bool := false
  reqVa : Word := 0
  wakeAt : Option Nat := none
  got : List (Nat × Nat) := []
  again : Bool := false
  readyAt : Nat := 0
  rels : List RelOp := []
  deferred : List TrapInfo := []
  frz : Option TrapInfo := none
  lastIssue : Nat := 0
  held : Bool := false
  ckHeld : Option Nat := none
  waitToks : List Nat := []
  waitAny : Bool := false
  recheck : Bool := false
  born : Nat := 0
  torn : Option Torn := none
  deriving DecidableEq, Repr

/-! ### Spindles -/

/-- A page as a walk finds it: its frame, its size, its kind and its permissions (R107, R108). -/
structure PageEntry where
  frame : Nat
  big : Bool
  kind : Nat
  r : Bool
  w : Bool
  x : Bool
  fgn : Bool
  deriving DecidableEq, Repr

/-- A TLB entry (R110): the job, the first page number (VA 51:16) it covers, the page. -/
structure TlbEntry where
  job : Nat
  vpn : Nat
  page : PageEntry
  deriving DecidableEq, Repr

/-- A waiter at a bank (R127): whose request, which form, its bytes, the data it would store. -/
structure Waiter where
  sp : Nat
  ctx : Nat
  tok : Nat
  op : Nat
  fa : Nat
  n : Nat
  data : Nat
  local_ : Bool
  who : Nat := 0
  deriving DecidableEq, Repr

/-- An open forwarding batch of a published line (R149). -/
structure Batch where
  line : Nat
  opened : Nat
  writes : Nat
  bytes : Nat
  fes : Nat
  writers : List Nat
  deriving DecidableEq, Repr

/-- An entry of a publisher's subscription table (R145): region, subscriber, copy base, state, dirty lines, the open
batches, and the batches sent and not yet acknowledged. -/
structure PubEntry where
  base : Nat
  len : Nat
  subSp : Nat
  copyBase : Nat
  subJob : Nat := 0
  susp : Bool := false
  dirty : List Nat := []
  open_ : List Batch := []
  unacked : List (Nat × Nat × List Nat) := []
  snapTok : Option (Nat × Nat) := none
  deriving DecidableEq, Repr

/-- A plain store of the current ply phase as a bank remembers it for race detection (R163). -/
structure PlainStore where
  word : Nat
  src : Nat
  ctx : Nat
  who : Nat
  born : Nat
  remote : Bool
  logged : Bool
  deriving DecidableEq, Repr

/-- An entry of a trace ring or of a replay list (R163, R164). -/
structure TraceEntry where
  phase : Nat
  ctx : Nat
  src : Nat
  home : Nat
  lcl : Nat
  deriving DecidableEq, Repr

/-- A queued migrant or compensation thread (R34, R36, R325): the context it becomes and its carried load. -/
structure Migrant where
  image : Context
  fa : Nat
  n : Nat
  sx : Bool
  d : Reg
  carries : Bool
  kind : Nat
  job : Nat
  deriving DecidableEq, Repr

/-- One spindle (R12, R16, R28, R36, R110, R112, R129, R145, R163, R194, R330, R334, R347). -/
structure Spindle where
  job : Option Nat := none
  last : Nat := 15
  issuedAt : Nat := 0
  birth : BitVec 16 := 0
  exits : Table Nat := []
  migBuf : List Migrant := []
  migRes : List Migrant := []
  tlb : List TlbEntry := []
  icache : List (Nat × List IWord) := []
  winA : Vector Word 4 := Vector.replicate 4 0
  winB : Vector Word 4 := Vector.replicate 4 0
  pubs : List PubEntry := []
  copies : List CopyEntry := []
  skein : List SkeinEntry := []
  waiters : List Waiter := []
  ring0 : List TraceEntry := []
  ring1 : List TraceEntry := []
  replay : List TraceEntry := []
  plain : List PlainStore := []
  traceLost : Bool := false
  sysbase : Nat := 0x4000000
  gust : List Nat := []
  fenced : Bool := false
  retired : Bool := false
  primary : Nat := 0
  secondary : Nat := 0
  sent : Vector Nat 4 := Vector.replicate 4 0
  rcvd : Vector Nat 4 := Vector.replicate 4 0
  halted : Bool := false
  haltCycle : Nat := 0
  stopSent : Vector Nat 4 := Vector.replicate 4 0
  stopRcvd : Vector Nat 4 := Vector.replicate 4 0
  stopJob : Nat := 0
  stopChans : List (Nat × Bool × Nat × Nat) := []
  frontOn : Bool := false
  frontIn : List (Nat × Nat) := []
  deriving DecidableEq, Repr

/-! ### Clusters -/

/-- A command in a loom's queue (R255): whose, the instruction, the operands D, A, B, C read at issue, the pages of its ranges
as they were translated (VA 63:16 to the page's fabric address), its LMMG table, where it stands, and what its step has read so far
(or written, for LACP): memory words by fabric address and slot bytes. -/
structure LoomCmd where
  key : Nat
  job : Nat
  instr : Instr
  ops : List Nat
  pages : Table Nat
  table : List Word
  zmul : Bool
  entry : Nat := 0
  step : Nat := 0
  begun : Bool := false
  bad : Bool := false
  seen : List (Nat × Nat) := []
  deriving DecidableEq, Repr

/-- A page walk asked for (R110): whose, the virtual address, and whether an instruction fetch asked. -/
structure WalkReq where
  key : Nat
  va : Word
  fetch : Bool
  deriving DecidableEq, Repr

/-- One cluster (R12, R110, R185, R255, R257, R383). -/
structure Cluster where
  pend : List PairDesc := []
  held : List PairDesc := []
  own : List (Nat × List PairDesc) := []
  takers : List Nat := []
  enter : List LoomCmd := []
  queue : List LoomCmd := []
  acc : Table (BitVec 32) := []
  walks : List WalkReq := []
  voff : Nat := 0
  calm : Nat := 0
  deriving DecidableEq, Repr

/-! ### Messages -/

/-- The mesh classes (R118). -/
inductive MeshClass where
  | request | reply | migrate | update
  deriving DecidableEq, Repr

/-- A chunk for a peer package (R313): its engine and command, the package it comes from and the one it is for (R403), the peer mapping's
level-1 table, its destination and words; the 64-byte line whose check value will disagree (R345) and the words that were read
poisoned (R348), if any; the words that are written already, by index. -/
structure PeerChunk where
  eng : Nat
  id : Nat
  own : Nat
  chip : Nat
  root : Nat
  va : Word
  data : List Nat
  eoi : Bool
  crc : Option Nat := none
  bad : List Nat := []
  wrote : List Nat := []
  deriving DecidableEq, Repr

/-- What a message carries (R34, R118, R139, R147-R152, R327, R374). -/
inductive Body where
  | migrate (m : Migrant)
  | migAnswer (code : Nat)
  | read (fa n kind : Nat)
  | fetchLine (line : Nat)
  | write (fa n v kind : Nat)
  | atomic (fa n op b c : Nat)
  | sync (fa n op data : Nat)
  | chq (ch : Nat)
  | query (kind arg : Nat)
  | bindNote (ch : Nat)
  | append (e : SkeinEntry)
  | reply (v : Nat)
  | line (line : Nat) (ws : List IWord)
  | ack
  | nack (cause : Nat) (addr : Word)
  | nackBusy (fa n op data : Nat)
  | subReq (pubBase len copyBase : Nat)
  | subAnswer (code : Nat)
  | batch (line bytes fes feVals : Nat) (data : List Nat) (entry : Nat) (writers : List Nat) (last : Bool)
  | batchAck (entry seqn : Nat)
  | batchNack (entry : Nat)
  | subRemove (pubBase copyBase : Nat)
  | drainReq (pubBase copyBase : Nat)
  | chan (ch : Nat) (ws : List Word)
  | credit (ch : Nat)
  | mail (thidx : Nat) (ws : List Word)
  | chanNack (ch : Nat)
  | exitNotice (thidx status : Nat)
  | trapRec (ws : List Word) (t : TrapInfo) (second : Bool) (act : Nat)
  | trapNack (ws : List Word) (t : TrapInfo) (second : Bool) (act : Nat)
  | layer (op : Nat) (desc ft : Nat) (a b : Nat) (frag : List Nat)
  | launch (ws : List Word) (q fromQ : Nat)
  | peerChunk (c : PeerChunk)
  | peerEmpty (eng id own chip root : Nat) (vas : List Word)
  | chunkAck (eng id : Nat) (va : Word) (fault : Option Word)
  | token
  deriving DecidableEq, Repr

/-- A message of the mesh or of a link: its class, its ends, the context and token of its request, its virtual address
for a trap, the cycle before which a refused one is not sent again; whether it belongs to a REL operation (R120), and whether it is a
recorded store that has arrived ahead of its turn (R163). -/
structure Msg where
  id : Nat
  cls : MeshClass
  src : Nat
  dst : Nat
  job : Nat
  ctx : Nat := 0
  tok : Nat := 0
  va : Word := 0
  who : Nat := 0
  born : Nat := 0
  notBefore : Nat := 0
  postFront : Bool := false
  logged : Bool := false
  rel : Bool := false
  early : Bool := false
  port : Option Nat := none
  body : Body
  deriving DecidableEq, Repr

/-! ### Copy engines and links -/

/-- The chunk that a command is in the midst of: the words read, by index, with their values and whether they were bad (no source, or
poison), and the words written. -/
structure ChunkPart where
  vals : List (Nat × Option Nat × Bool) := []
  wrote : List Nat := []
  deriving DecidableEq, Repr

/-- A copy command in an engine (R303-R311); `acksLeft` counts the acknowledgements of its emptied words that are still to come, which
answer the token `tok`. -/
structure CopyCmd where
  id : Nat
  job : Nat
  key : Nat
  thidx : Nat
  born : Nat := 0
  stg : Staging
  cls : Nat
  row : Nat := 0
  off : Nat := 0
  sums : Nat := 0
  dsums : Nat := 0
  flip : Option Nat := none
  pred : Nat := 0
  fault : Option Word := none
  cancel : Bool := false
  flying : Bool := false
  mute : Bool := false
  emptying : Bool := false
  acksLeft : Nat := 0
  tok : Nat := 0
  part : Option ChunkPart := none
  deriving DecidableEq, Repr

/-- A completed command's record (R310). -/
structure CopyDone where
  id : Nat
  job : Nat
  status : Nat
  final : Nat
  deriving DecidableEq, Repr

/-- One copy engine (R304, R305). -/
structure Engine where
  cmds : List CopyCmd := []
  defs : Vector Nat 4 := Vector.replicate 4 0
  at_ : Nat := 0
  fresh : Bool := true
  serial : Nat := 1
  doneRecs : List CopyDone := []
  deriving DecidableEq, Repr

/-- A flit on a link (R314): its sequence number and the messages whose last flit it is. -/
structure Flit where
  seqn : Nat
  cargo : List Msg
  deriving DecidableEq, Repr

/-- One direction of a Bluwailo port (R314, R315), its sender and its receiver: 2p leads out of the package, 2p + 1 into it.
`queue` waits for the retry buffer, `wire` is in flight, `expect` is the receiver's next sequence number. -/
structure HalfLink where
  up : Bool := false
  queue : List Msg := []
  nextSeq : Nat := 0
  retry : List Flit := []
  wire : List Flit := []
  expect : Nat := 0
  retryFlits : Nat := 0
  resends : Nat := 0
  advanced : Nat := 0
  retrain : Bool := false
  deriving DecidableEq, Repr

/-- A peer package as a party outside: its memory, full/empty bits and poison (R313). -/
structure Peer where
  mem : Memory := []
  fe : List Nat := []
  poison : List Nat := []
  deriving DecidableEq, Repr

/-! ### Jobs -/

/-- A rectangle of spindles (R6). -/
structure Rect where
  x0 : Nat
  y0 : Nat
  w : Nat
  h : Nat
  deriving DecidableEq, Repr

/-- A channel of a launch (R137, R139): its ends, the writer's credits, the buffers at the reader, its counters. -/
structure Chan where
  reader : Nat
  writer : Nat
  credit : Nat := 8
  buf : List (List Word) := []
  nsent : Nat := 0
  narrived : Nat := 0
  deriving DecidableEq, Repr

/-- A tree descriptor as the launch unit read it (R170). -/
structure Tree where
  nodes : Word
  count : Nat
  root : Nat
  deriving DecidableEq, Repr

/-- A thread's latest arrival at a group (R90). -/
structure Arrival where
  grp : Nat
  thidx : Nat
  phase : Nat
  ply : Bool
  at_ : Nat
  tok : Nat
  deriving DecidableEq, Repr

/-- What pre-emption saves of a spindle and its contexts (R340). -/
structure SavedSpindle where
  sp : Nat
  state : Spindle
  ctxs : List (Nat × Context)
  scratch : Memory
  scratchFe : List Nat
  scratchPoison : List Nat
  deriving DecidableEq, Repr

/-- The stages of a job: running, being pre-empted before its front and during it, switched out, its front logs being
delivered before its contexts are released (R339-R342). -/
inductive JobPhase where
  | running | preempting | frontPhase | out | resuming
  deriving DecidableEq, Repr

/-- A launch that has a rectangle (R12, R26, R41, R95, R99, R137, R170, R187, R188, R313, R363); `lostAt` names the fenced spindle at which
a thread was lost (R349). -/
structure Job where
  serial : Nat
  queue : Nat
  slot : Nat
  ser : Nat
  rect : Rect
  prio : Nat := 0
  root : Nat := 0
  entry : Word := 0
  param : Word := 0
  lseed : Word := 0
  cprof : Word := 0
  repeat_ : Bool := false
  replay : Bool := false
  actcls : Bool := false
  debug : Bool := false
  msix : Bool := false
  compl : Word := 0
  queueRoot : Nat := 0
  handlerPc : Word := 0
  live : Word := 0
  traceBuf : Word := 0
  cpol : Nat := 0
  conts : List (Nat × Rect) := []
  groups : Table (List Nat) := []
  phases : Table Nat := []
  arrivals : List Arrival := []
  exited : List Nat := []
  pliesDone : Nat := 0
  merging : List Nat := []
  chans : Table Chan := []
  trees : List (Nat × Tree × Tree) := []
  frontCount : Nat := 0
  frontRes : Nat := 0
  seeded : List Nat := []
  hwm : Nat := 3072
  blocks : Nat := 0
  freeBlk : Nat := 0
  ravelMax : Nat := 0
  peers : Table (Nat × Nat) := []
  slots : Table Byte := []
  detail : Nat := 0
  lostTrace : Bool := false
  lostPairs : Bool := false
  lostFence : Bool := false
  lostAt : Table Nat := []
  killed : Bool := false
  ended : Bool := false
  phase : JobPhase := .running
  preemptAt : Nat := 0
  pwin : Nat := 0
  windowOver : Bool := false
  stopped : Bool := false
  stopPending : Bool := false
  saved : List SavedSpindle := []
  savedClusters : List (Nat × Cluster) := []
  rings : Table (List (Nat × List Word)) := []
  ringHeld : List (Nat × Nat × List Word) := []
  deriving DecidableEq, Repr

/-! ### The dispatcher and the unraveller -/

/-- A record the dispatcher holds for a queue (R362), and how far it has come. -/
structure Held where
  ws : Vector Word 8
  ext : Vector Word 16
  slot : Nat
  ser : Nat
  rect : Option Rect := none
  serial : Nat := 0
  qroot : Nat := 0
  goRoot : Option Nat := none
  goRead : Bool := false
  met : Bool := false
  victims : List Nat := []
  deriving DecidableEq, Repr

/-- What the dispatcher keeps of the last record of a slot (R375). -/
structure SlotRec where
  ser : Nat
  state : Nat
  status : Nat
  job : Nat
  deriving DecidableEq, Repr

/-- One work queue (R355, R362, R366, R375): `launchedAt` is one more than the cycle on which its last LAUNCH was answered (R374), `fast` the slot of a
record that R376 bounds with the token of its LAUNCH, `fastBy` the cycle by which that record is to be taken and started. -/
structure Queue where
  mode : Nat := 0
  ovr : Bool := false
  head : Nat := 0
  tail : Nat := 0
  weight : Nat := 0
  pwin : Nat := 0
  skn : Nat := 0
  mres : Nat := 0
  root : Nat := 0
  held : Option Held := none
  ser : Nat := 1
  credit : Nat := 0
  slots : Table SlotRec := []
  launchedAt : Nat := 0
  fast : Option (Nat × Nat) := none
  fastBy : Nat := 0
  deriving DecidableEq, Repr

/-- The dispatcher (R362, R366, R370). -/
structure Dispatcher where
  queues : Table Queue := []
  last : Vector Nat 8 := Vector.replicate 8 16383
  nextJob : Nat := 1
  preempted : List Nat := []
  returning : List (Nat × List Nat) := []
  pickedAt : Nat := 0
  startedAt : Nat := 0
  deriving DecidableEq, Repr

/-- The states of an activity (R316, R323). -/
inductive ActState where
  | opened | committed | unravelling | halted | unravelled | wedged
  deriving DecidableEq, Repr

/-- A ravel entry (R318). -/
structure RavelEntry where
  seqn : Nat
  arg1 : Word
  arg0 : Word
  sp : Nat
  pcw : Nat
  inArea : Bool
  place : Nat := 0
  deriving DecidableEq, Repr

/-- An activity of the unraveller's table (R316, R317). -/
structure Activity where
  ix : Nat
  gen : Nat
  job : Nat
  owner : Nat
  ownerSp : Nat
  st : ActState := .opened
  entries : List RavelEntry := []
  deriving DecidableEq, Repr

/-- The unraveller (R318, R324). -/
structure Unraveller where
  acts : List Activity := []
  gens : Table Nat := []
  counter : Nat := 0
  drawnAt : Nat := 0
  running : Option (Nat × Nat) := none
  deriving DecidableEq, Repr

/-! ### The management controller -/

/-- A fence report (R350). -/
structure FenceReport where
  cycle : Nat
  rect : Rect
  retire : Bool
  cause : Nat
  sp : Nat
  fa : Nat
  more : Bool
  job : Nat
  deriving DecidableEq, Repr

/-- A vector of the MSI-X table (R352, R365) as PCIe lays one out: message address, message data, vector control. -/
structure MsixEntry where
  addr : Word := 0
  data : BitVec 32 := 0
  ctrl : BitVec 32 := 1
  deriving DecidableEq, Repr

/-- The Trebex controller and the host port (R350, R352, R365, R378-R387, R403); `stageAt` and `cmdAt` are the cycles on which the
bring-up stage and the command began (R378, R385). -/
structure Trebex where
  stage : Nat := 1
  stageAt : Nat := 0
  bootFault : Bool := false
  pstate : Nat := 0
  busy : Bool := false
  cmdAt : Nat := 0
  cmdErr : Bool := false
  cmd : Nat := 0
  marg : Vector Word 4 := Vector.replicate 4 0
  latched : Vector Word 4 := Vector.replicate 4 0
  mresp : Word := 0
  dpwr : Vector Nat 12 := Vector.replicate 12 0
  dtemp : Vector Nat 12 := Vector.replicate 12 0
  dthr : Vector Nat 12 := Vector.replicate 12 0
  fcount : Nat := 0
  reports : List FenceReport := []
  arep : List Byte := []
  chip : Nat := 0
  routes : Table Nat := []
  apertures : Table Nat := []
  contTab : List (Nat × Nat × Rect) := []
  peerTab : List (Nat × Nat × Nat × Nat) := []
  retiredList : List Nat := []
  flash : Table (List Byte) := []
  running : Table (List Byte) := []
  minSvn : Table Nat := []
  msixRaised : List Nat := []
  msixTab : Table MsixEntry := []
  msixPend : List Nat := []
  msixOn : Bool := false
  msixMask : Bool := false
  hostData : Word := 0
  hostPoison : Bool := false
  deriving DecidableEq, Repr

/-! ### The package -/

/-- A hardware upset of the outside world that has not been detected yet: the next instruction a spindle retires fails
its check (R346), the next step of a loom fails its residue (R223), the check value of the next line at the host port
or of an engine's chunk disagrees (R345), a die bridge loses a message, and one that it has lost (R329). -/
inductive Upset where
  | checker (sp : Nat)
  | residue (cl : Nat)
  | hostCrc
  | chunkCrc (eng : Nat)
  | lost (id : Nat)
  | gone (m : Msg)
  deriving DecidableEq, Repr

/-- A CXL.io write of the host to the MSI-X structures (R352, R365): a vector's table entry, or the enable and function-mask bits of
the capability. -/
inductive MsixWrite where
  | entry (v : Nat) (e : MsixEntry)
  | control (on mask : Bool)
  deriving DecidableEq, Repr

/-- Who moves next: an event of the opcode table, the next issue of a spindle, the next cycle, or the host at the MSI-X structures. -/
inductive Turn where
  | event (e : Instr)
  | issue (sp : Nat)
  | tick
  | msix (w : MsixWrite)
  deriving DecidableEq, Repr

/-- The whole package. `cur` is the context (spindle·16 + number) whose instruction is executed; `midUnit` says that
prefix words of its unit have been decoded and the unit goes on. `agenda` says who moves next; `free` is the model's
own counter that feeds the free values. -/
structure State where
  now : Nat
  mem : Memory
  fe : List Nat
  poison : List Nat
  ctxs : Table Context
  spindles : Table Spindle
  clusters : Table Cluster
  engines : Table Engine
  links : Table HalfLink
  peers : Table Peer
  jobs : Table Job
  disp : Dispatcher
  unrav : Unraveller
  trebex : Trebex
  msgs : List Msg
  nextMsg : Nat
  nextTok : Nat
  cur : Nat
  midUnit : Bool
  agenda : List Turn
  upsets : List Upset
  free : Nat
  deriving DecidableEq, Repr

/-- Why a step stops with a fault. The meanings raise only these. -/
inductive Fault where
  /-- Raised by HOST_MEM_WRITE, HOST_MEM_READ and UNCORRECTABLE_ECC_ERROR on a fabric address the part does not have (R7);
  translation rules such addresses out before any access of a thread (R108). Safe: the machine stops where the hardware
  has no such byte. -/
  | noSuchAddress (fa : Nat)
  deriving DecidableEq, Repr

/-- Why an instruction has no meaning. -/
inductive Refusal where
  /-- Raised by exec alone, for a row of the opcode table without a meaning. Safe: the machine stops. -/
  | notModelled (mnemonic : String)
  deriving DecidableEq, Repr

/-- The package right after power is applied: bring-up stage 1 (R378), every table at its reset value (R112, R355,
R366, R379), no launch, no message. Memory lists nothing. -/
def State.reset : State where
  now := 0
  mem := []
  fe := []
  poison := []
  ctxs := []
  spindles := []
  clusters := []
  engines := []
  links := []
  peers := []
  jobs := []
  disp := {}
  unrav := {}
  trebex := {}
  msgs := []
  nextMsg := 1
  nextTok := 1
  cur := 0
  midUnit := false
  agenda := []
  upsets := []
  free := 0

end Sys2Proof.Machine
end

