-- ==== Sys2Proof/Machine/Ops.lean ====
section
/-!
DEFINITION. The named operations over the state: contexts and registers, bytes of memory with their full/empty bits and
poison (R7, R8, R115), messages (R118), the end of waits (R22), forwarding to subscribers (R149), the wake procedures of
R128, mailboxes (R45), the end of a thread (R30, R85), taking a trap (R18, R65, R327-R330) and RESUME (R104).
-/
namespace Sys2Proof.Machine
open Sys2Proof.Config

abbrev Out := Host.Outcome State Fault Refusal

/-! ### Parts of the state by number -/

/-- The spindle and the context number of a context key. -/
def keySp (k : Nat) : Nat := k / 16
def keyCtx (k : Nat) : Nat := k % 16
def keyOf (sp c : Nat) : Nat := sp * 16 + c

def State.ctx (s : State) (k : Nat) : Context := Table.get {} s.ctxs k
def State.setCtx (s : State) (k : Nat) (c : Context) : State := { s with ctxs := Table.set s.ctxs k c }
def State.modCtx (s : State) (k : Nat) (f : Context → Context) : State := s.setCtx k (f (s.ctx k))
def State.me (s : State) : Context := s.ctx s.cur
def State.modMe (s : State) (f : Context → Context) : State := s.modCtx s.cur f
/-- The spindle of the context that executes. -/
def State.here (s : State) : Nat := keySp s.cur

def State.spindle (s : State) (n : Nat) : Spindle := Table.get {} s.spindles n
def State.modSp (s : State) (n : Nat) (f : Spindle → Spindle) : State :=
  { s with spindles := Table.modify {} s.spindles n f }
def State.cluster (s : State) (n : Nat) : Cluster := Table.get {} s.clusters n
def State.modCl (s : State) (n : Nat) (f : Cluster → Cluster) : State :=
  { s with clusters := Table.modify {} s.clusters n f }
def State.engine (s : State) (n : Nat) : Engine := Table.get {} s.engines n
def State.modEng (s : State) (n : Nat) (f : Engine → Engine) : State :=
  { s with engines := Table.modify {} s.engines n f }
def State.link (s : State) (n : Nat) : HalfLink := Table.get {} s.links n
def State.modLink (s : State) (n : Nat) (f : HalfLink → HalfLink) : State :=
  { s with links := Table.modify {} s.links n f }
def State.queue (s : State) (n : Nat) : Queue := Table.get {} s.disp.queues n
def State.modQueue (s : State) (n : Nat) (f : Queue → Queue) : State :=
  { s with disp := { s.disp with queues := Table.modify {} s.disp.queues n f } }

/-- A job that no launch made: what a number without a launch reads as. -/
def Job.blank : Job := { serial := 0, queue := 0, slot := 0, ser := 0, rect := ⟨0, 0, 0, 0⟩ }
def State.job (s : State) (j : Nat) : Job := Table.get Job.blank s.jobs j
def State.modJob (s : State) (j : Nat) (f : Job → Job) : State :=
  match Table.find s.jobs j with
  | some x => { s with jobs := Table.set s.jobs j (f x) }
  | .none => s
/-- The job a spindle runs. -/
def State.jobNoAt (s : State) (sp : Nat) : Nat := (s.spindle sp).job.getD 0
def State.jobAt (s : State) (sp : Nat) : Job := s.job (s.jobNoAt sp)
/-- The job of the context that executes. -/
def State.myJobNo (s : State) : Nat := s.jobNoAt s.here
def State.myJob (s : State) : Job := s.jobAt s.here

/-! ### Rectangles (R6) -/

def Rect.has (r : Rect) (sp : Nat) : Bool :=
  decide (r.x0 ≤ spX sp) && decide (spX sp < r.x0 + r.w) && decide (r.y0 ≤ spY sp) && decide (spY sp < r.y0 + r.h)
def Rect.size (r : Rect) : Nat := r.w * r.h
/-- The spindle index of a spindle within the rectangle. -/
def Rect.index (r : Rect) (sp : Nat) : Nat := (spY sp - r.y0) * r.w + (spX sp - r.x0)
/-- The spindle of an index. -/
def Rect.spindle (r : Rect) (i : Nat) : Nat := spAt (r.x0 + i % r.w) (r.y0 + i / r.w)
def Rect.spindles (r : Rect) : List Nat := (List.range r.size).map r.spindle
def Rect.meets (a b : Rect) : Bool :=
  decide (a.x0 < b.x0 + b.w) && decide (b.x0 < a.x0 + a.w) && decide (a.y0 < b.y0 + b.h) && decide (b.y0 < a.y0 + a.h)
/-- `a` lies inside `b`. -/
def Rect.inside (a b : Rect) : Bool :=
  decide (b.x0 ≤ a.x0) && decide (a.x0 + a.w ≤ b.x0 + b.w) && decide (b.y0 ≤ a.y0) && decide (a.y0 + a.h ≤ b.y0 + b.h)
/-- The package clusters that lie wholly inside. -/
def Rect.wholeClusters (r : Rect) : List Nat :=
  (List.range numClusters).filter fun cl => (clusterSpindles cl).all r.has
/-- The package clusters it touches. -/
def Rect.clusters (r : Rect) : List Nat :=
  (List.range numClusters).filter fun cl => (clusterSpindles cl).any r.has
/-- A job's package clusters in its cluster order, row-major from the low corner (R169). -/
def Rect.clusterAt (r : Rect) (k : Nat) : Nat :=
  clusterOf (spAt (r.x0 + 4 * (k % (r.w / 4))) (r.y0 + 4 * (k / (r.w / 4))))
def Rect.clusterIndex (r : Rect) (sp : Nat) : Nat := (spX sp - r.x0) / 4 + (r.w / 4) * ((spY sp - r.y0) / 4)
def Rect.clusterCount (r : Rect) : Nat := (r.w / 4) * (r.h / 4)

/-! ### Registers of a context -/

def Context.reg (c : Context) (r : Reg) : Word := c.g[r.toFin]
def Context.setReg (c : Context) (r : Reg) (v : Word) : Context := { c with g := c.g.set r.toNat v r.isLt }
/-- A register by a number that may lie beyond g15: writing there does nothing (R140). -/
def Context.setRegN (c : Context) (r : Nat) (v : Word) : Context := if h : r < 16 then { c with g := c.g.set r v h } else c
def Context.regN (c : Context) (r : Nat) : Word := if h : r < 16 then c.g[r] else 0
def Context.vreg (c : Context) (r : VReg) : VWord := c.v[r.toFin]
def Context.vtag (c : Context) (r : VReg) : Nat := (c.tag[r.toFin]).toNat
def Context.vside (c : Context) (r : VReg) : Word := c.side[r.toFin]
/-- Contents, tag and sidecar of a vector register at once. -/
def Context.setV (c : Context) (r : VReg) (v : VWord) (t : Nat) (sd : Word) : Context :=
  { c with v := c.v.set r.toNat v r.isLt, tag := c.tag.set r.toNat (BitVec.ofNat 4 t) r.isLt, side := c.side.set r.toNat sd r.isLt }
/-- Sticky flags (R97) joined to FSTAT. -/
def Context.raise (c : Context) (fl : Nat) : Context := { c with fstat := c.fstat ||| BitVec.ofNat 64 fl }
/-- The unit is done: the PC is the one after it (R50). -/
def Context.advance (c : Context) : Context := { c with pc := c.unit.next, got := [], again := false }

/-- The executing context changes by `f` and goes on after its unit. -/
def State.retire (s : State) (f : Context → Context) : State := s.modMe fun c => (f c).advance
/-- The executing context writes one register and goes on. -/
def State.setG (s : State) (d : Reg) (v : Word) : State := s.retire fun c => c.setReg d v

/-- THIDX of a compensation thread (R325). -/
def compThidx : Nat := 0x3FFFF
/-- A thread of the package: its job and its index. -/
def whoOf (job thidx : Nat) : Nat := job * 2 ^ 18 + thidx
def State.myWho (s : State) : Nat := whoOf s.myJobNo s.me.thidx

/-! ### Bytes of memory -/

/-- One byte: what an unlisted address reads as where nothing is listed. -/
def Memory.read : Memory → Nat → Byte
  | [], _ => Memory.unlisted
  | (a, v) :: t, k => if a = k then v else if k < a then Memory.unlisted else Memory.read t k

/-- One byte written, the canonical form kept. -/
def Memory.write : Memory → Nat → Byte → Memory
  | [], k, b => if b = Memory.unlisted then [] else [(k, b)]
  | (a, v) :: t, k, b =>
    if k < a then (if b = Memory.unlisted then (a, v) :: t else (k, b) :: (a, v) :: t)
    else if a = k then (if b = Memory.unlisted then t else (k, b) :: t)
    else (a, v) :: Memory.write t k b

/-- `Mem(fa, n)` of R11: the bytes little-endian. -/
def Memory.readN (m : Memory) (fa : Nat) : Nat → Nat
  | 0 => 0
  | n + 1 => (m.read fa).toNat + 256 * Memory.readN m (fa + 1) n

/-- `n` bytes of `v` written little-endian. -/
def Memory.writeN (m : Memory) (fa : Nat) : Nat → Nat → Memory
  | 0, _ => m
  | n + 1, v => Memory.writeN (m.write fa (BitVec.ofNat 8 v)) (fa + 1) n (v / 256)

def State.byte (s : State) (fa : Nat) : Byte := s.mem.read fa
def State.read (s : State) (fa n : Nat) : Nat := s.mem.readN fa n
/-- `FEState(fa)` (R11): FULL. -/
def State.full (s : State) (fa : Nat) : Bool := s.fe.contains (wordOf fa)
/-- `SetFE(fa, s)` (R11), without the wake procedures. -/
def State.setFE (s : State) (fa : Nat) (f : Bool) : State :=
  { s with fe := if f then insertSorted s.fe (wordOf fa) else s.fe.filter (· != wordOf fa) }
/-- The words that `n` bytes at `fa` touch. -/
def wordsOf (fa n : Nat) : List Nat := (List.range ((fa % 8 + n + 7) / 8)).map fun i => wordOf fa + 8 * i
/-- A word among these bytes is poisoned (R348). -/
def State.poisoned (s : State) (fa n : Nat) : Bool := (wordsOf fa n).any s.poison.contains
def State.unpoison (s : State) (w : Nat) : State := { s with poison := s.poison.filter (· != w) }
def State.setPoison (s : State) (w : Nat) : State := { s with poison := insertSorted s.poison w }

/-- A range of addresses set to zero, EMPTY and without poison (R378, R385). -/
def State.scrub (s : State) (lo hi : Nat) : State :=
  { s with
    mem := s.mem.filter fun c => c.1 < lo || hi ≤ c.1
    fe := s.fe.filter fun a => a < lo || hi ≤ a
    poison := s.poison.filter fun a => a < lo || hi ≤ a }

/-! ### Messages (R118) -/

def MeshClass.num : MeshClass → Nat
  | .request => 0 | .reply => 1 | .migrate => 2 | .update => 3

/-- Nodes that are no spindles: the dispatcher, the unraveller, the Trebex controller, the copy engines. -/
def nodeDisp : Nat := 12288
def nodeUnrav : Nat := 12289
def nodeTrebex : Nat := 12290
def nodeEngine (e : Nat) : Nat := 12300 + e

/-- Entries of a table of twelve, one a die. -/
def vec12 (v : Vector Nat 12) (i : Nat) : Nat := if h : i < 12 then v[i] else 0
def setVec12 (v : Vector Nat 12) (i n : Nat) : Vector Nat 12 := if h : i < 12 then v.set i n h else v

def Vec4.bump (v : Vector Nat 4) (i : Nat) : Vector Nat 4 := if h : i < 4 then v.set i ((v[i] + 1) % 2 ^ 32) h else v

/-- An end of a mesh message that is a spindle of the message's job: its counters count it (R334). -/
def State.counted (s : State) (m : Msg) (sp : Nat) : Bool := decide (sp < numSpindles) && m.src != m.dst && (s.spindle sp).job == some m.job

/-- A message leaves its source: it takes the next number and counts among the source's sent ones (R334). -/
def State.send (s : State) (m : Msg) : State :=
  let c := s.counted m m.src
  let s := { s with msgs := s.msgs ++ [{ m with id := s.nextMsg }], nextMsg := s.nextMsg + 1 }
  if c then s.modSp m.src fun p => { p with sent := Vec4.bump p.sent m.cls.num } else s

def State.dropMsg (s : State) (id : Nat) : State := { s with msgs := s.msgs.filter fun m => m.id != id }

/-- A store of the same context to the same word was sent before and waits at its bank for its turn (R118, R163). -/
def State.behindOwn (s : State) (m : Msg) (fa : Nat) : Bool :=
  (s.msgs.find? fun x => x.early && x.src == m.src && x.ctx == m.ctx && (match x.body with | .write fb _ _ _ => wordOf fb == wordOf fa | _ => false)).any fun x => x.id < m.id

/-- A recorded store whose turn at its word has not come in a replay launch (R163): an earlier entry of the word is still in
the home's list, or an earlier store of its context waits. -/
def State.replayHeld (s : State) (m : Msg) : Bool :=
  match m.body with
  | .write fa _ _ _ =>
    let jb := s.jobAt (faSp fa)
    jb.replay && jb.rect.has m.src &&
      (let mine := (s.spindle (faSp fa)).replay.filter fun e => e.lcl == faLocal (wordOf fa)
       match mine.findIdx? fun e => e.src == jb.rect.index m.src && e.ctx == m.ctx && e.phase == jb.pliesDone with
       | some i => decide (0 < i) || s.behindOwn m fa
       | none => false)
  | _ => false

/-- The first message of its class, source and destination that nothing sets aside: refused and logged ones, and recorded stores that
have arrived ahead of their turn, hold back no other (R118, R159, R163). -/
def State.headOfFlow (s : State) (m : Msg) : Bool :=
  match s.msgs.find? (fun x => x.cls == m.cls && x.src == m.src && x.dst == m.dst && x.notBefore == 0 && !x.logged &&
      !x.early) with
  | some x => x.id == m.id
  | .none => false

/-- The arrival counts at its destination (R334). -/
def State.received (s : State) (m : Msg) : State :=
  if s.counted m m.dst then s.modSp m.dst fun p => { p with rcvd := Vec4.bump p.rcvd m.cls.num } else s

/-- A message that is sent and arrives within one step counts at both its ends (R334). -/
def State.passed (s : State) (m : Msg) : State :=
  (if s.counted m m.src then s.modSp m.src fun p => { p with sent := Vec4.bump p.sent m.cls.num } else s).received m

/-- Which of several words of one access, chunk, merge or step are performed at this point, by their keys: all of them where the access
can wait no longer; else one that a free value names, with those that another does not leave for later (R160 to R162, R165, R270). -/
def tearTake (forced : Bool) (free : Nat) (keys : List Nat) (k : Nat) : Bool :=
  forced || decide (keys.length ≤ 1) || k == keys.getD (tearFirst free % keys.length) 0 || !tearLeave free k

/-- A fresh token for a request of a context. -/
def State.takeTok (s : State) : Nat × State := (s.nextTok, { s with nextTok := s.nextTok + 1 })

/-- The message that answers another. -/
def Msg.answer (m : Msg) (b : Body) : Msg :=
  { id := 0, cls := .reply, src := m.dst, dst := m.src, job := m.job, ctx := m.ctx, tok := m.tok, va := m.va, who := m.who, rel := m.rel, body := b }
/-- The context a request came from. -/
def Msg.asker (m : Msg) : Nat := keyOf m.src m.ctx

/-! ### Waits and their ends (R22) -/

/-- The executing context parks with a reason, to issue its unit again when the wait ends. -/
def State.parkAgain (s : State) (why : Nat) : State :=
  s.modMe fun c => { c with st := .parked, park := why, kont := .reissue, again := false }

/-- The executing context parks until the REL operations that satisfy `q` have their answers, or with `any_` until one of them has
(R22, R120 to R122); then its unit issues again. -/
def State.parkRel (s : State) (why : Nat) (any_ : Bool) (q : RelOp → Bool) : State :=
  s.modMe fun c => { c with st := .parked, park := why, kont := .reissue, again := false, waitToks := (c.rels.filter q).map (·.tok), waitAny := any_ }
/-- It waits for all of them (PARK 6). -/
def State.parkAll (s : State) : State := s.parkRel 6 false fun _ => true
/-- What a context waits for among its REL operations has come. -/
def Context.relsCome (c : Context) : Bool :=
  !c.waitToks.isEmpty &&
    (if c.waitAny then c.waitToks.any fun t => !(c.rels.any fun o => o.tok == t)
     else c.waitToks.all fun t => !(c.rels.any fun o => o.tok == t))

/-- The executing context parks on a channel, to issue its unit again when the wait ends. -/
def State.parkOn (s : State) (why ch : Nat) : State :=
  s.modMe fun c => { c with st := .parked, park := why, kont := .reissue, got := [(ch, 0)], again := false }

/-- The executing context parks for the answer to a request with a token. -/
def State.parkFor (s : State) (why : Nat) (tok : Nat) (k : Kont) : State :=
  let va := match s.msgs.find? (fun (m : Msg) => m.tok == tok) with | some m => m.va | .none => 0
  s.modMe fun c => { c with st := .parked, park := why, kont := k, tok := tok, sentAt := s.now, bounded := true, reqVa := va, again := false }

/-- A parked context becomes READY, on the next cycle. -/
def Context.woken (c : Context) (now : Nat) : Context :=
  { c with st := .ready, park := 0, tok := 0, bounded := false, wakeAt := .none, waitToks := [], waitAny := false, readyAt := now + 1 }

/-- Its wait has ended: READY, and the unit it waits in goes on. -/
def State.wakeAgain (s : State) (k : Nat) : State :=
  s.modCtx k fun c => if c.st == .parked then { (c.woken s.now) with again := !c.unit.words.isEmpty } else c

/-- A value for a register of `n` bytes: zero- or sign-extended (R124). -/
def extend (v n : Nat) (sx : Bool) : Word := if sx then BitVec.ofInt 64 (signExt v (8 * n)) else BitVec.ofNat 64 (v % 2 ^ (8 * n))
/-- What an atomic writes to g(D) (R132): integer forms sign-extend, FP32 zero-extends. -/
def atomicResult (old n : Nat) (flt : Bool) : Word := extend old n (!flt)

/-! ### Forwarding (R148, R149) -/

def maskBits (lo n : Nat) : Nat := (2 ^ n - 1) * 2 ^ lo

/-- A closed batch as a message of the update class: the line's bytes and FE bits as they stand. -/
def State.sendBatch (s : State) (home : Nat) (e : PubEntry) (line bytes fes : Nat) (opened : Nat) (ws : List Nat) (last : Bool) : State :=
  let data := (List.range 8).map fun i => s.read (line + 8 * i) 8
  let fev := (List.range 8).foldl (fun a i => if s.full (line + 8 * i) then a + 2 ^ i else a) 0
  let id := s.nextMsg
  let (ctx, tok) := e.snapTok.getD (0, 0)
  let s := s.send { id := 0, cls := .update, src := home, dst := e.subSp, job := s.jobNoAt home, ctx := ctx, tok := tok,
                    body := .batch (e.copyBase + (line - e.base)) bytes fes fev data e.base ws last }
  s.modSp home fun p => { p with pubs := p.pubs.map fun x =>
    if x.base == e.base && x.copyBase == e.copyBase then { x with unacked := x.unacked ++ [(id, opened, ws)] } else x }

/-- An open batch closes and is sent. -/
def State.closeBatch (s : State) (home : Nat) (e : PubEntry) (b : Batch) : State :=
  let s := s.modSp home fun p => { p with pubs := p.pubs.map fun x =>
    if x.base == e.base && x.copyBase == e.copyBase then { x with open_ := x.open_.filter fun y => y.line != b.line } else x }
  s.sendBatch home e b.line b.bytes b.fes b.opened b.writers false

/-- Every open batch of a spindle that satisfies `q` closes. -/
def State.closeBatches (s : State) (home : Nat) (q : PubEntry → Batch → Bool) : State :=
  (s.spindle home).pubs.foldl (fun s e => (e.open_.filter (q e)).foldl (fun s b => s.closeBatch home e b) s) s

/-- A publisher's entry is suspended: open batches become dirty lines (R155). -/
def PubEntry.suspend (e : PubEntry) : PubEntry :=
  { e with susp := true, open_ := [], dirty := e.open_.foldl (fun d b => insertSorted d b.line) e.dirty }

/-- A bank write of the bytes of `mask` (bit i for byte i of the line of `fa`), or a change of a word's FE bit, is forwarded to
every entry whose region holds the line. -/
def State.forwardMask (s : State) (fa mask : Nat) (feWord : Bool) (who : Nat) : State :=
  let home := faSp fa
  let line := fa / 64 * 64
  (s.spindle home).pubs.foldl (fun s e =>
    if e.base ≤ line && line < e.base + e.len then
      if e.susp then
        s.modSp home fun p => { p with pubs := p.pubs.map fun x =>
          if x.base == e.base && x.copyBase == e.copyBase then { x with dirty := insertSorted x.dirty line } else x }
      else
        let old := (e.open_.find? fun b => b.line == line).getD { line := line, opened := s.now, writes := 0, bytes := 0, fes := 0, writers := [] }
        let b := { old with
          writes := old.writes + 1, bytes := old.bytes ||| mask,
          fes := old.fes ||| (if feWord then 2 ^ ((fa - line) / 8) else 0),
          writers := insertSorted old.writers who }
        let s := s.modSp home fun p => { p with pubs := p.pubs.map fun x =>
          if x.base == e.base && x.copyBase == e.copyBase then { x with open_ := x.open_.filter (fun y => y.line != line) ++ [b] } else x }
        if batchWrites ≤ b.writes then s.closeBatch home e b else s
    else s) s

/-- The same for `n` bytes from `fa`. -/
def State.forward (s : State) (fa n : Nat) (feWord : Bool) (who : Nat) : State :=
  s.forwardMask fa (maskBits (fa - fa / 64 * 64) n) feWord who

/-- The words that `n` bytes at `fa` cover whole. -/
def wholeWords (fa n : Nat) : List Nat := (wordsOf fa n).filter fun w => decide (fa ≤ w) && decide (w + 8 ≤ fa + n)

/-- Bytes written by a bank (R115), poison cleared by a whole word. -/
def State.putBytes (s : State) (fa n v : Nat) : State :=
  let s := { s with mem := s.mem.writeN fa n v }
  if n < 8 then s else (wholeWords fa n).foldl State.unpoison s

/-- Bytes stored by a bank (R115) and forwarded. FE bits are left. -/
def State.store (s : State) (fa n v who : Nat) : State := (s.putBytes fa n v).forward fa n false who

/-- Bytes of one word and its FE bit written as one bank write (R127), forwarded as one (R149). -/
def State.storeFE (s : State) (fa n v : Nat) (f : Bool) (who : Nat) : State :=
  ((s.putBytes fa n v).setFE fa f).forward fa n true who

/-- Some bytes of one word stored as one bank write: byte offsets with their values, lowest first. A write of all eight clears
poison. -/
def State.storeMasked (s : State) (w : Nat) (bytes : List (Nat × Nat)) (who : Nat) : State :=
  let s := { s with mem := bytes.foldl (fun (m : Memory) (b : Nat × Nat) => m.write (w + b.1) (BitVec.ofNat 8 b.2)) s.mem }
  let s := if bytes.length = 8 then s.unpoison w else s
  s.forwardMask w ((bytes.map fun (b : Nat × Nat) => 2 ^ (w % 64 + b.1)).sum) false who

/-- The FE bit of a word changed by a bank, and forwarded. -/
def State.changeFE (s : State) (fa : Nat) (f : Bool) (who : Nat) : State :=
  (s.setFE fa f).forward (wordOf fa) 0 true who

/-! ### The front's log (R336, R337) -/

/-- Bytes of a message in a front log: its flits of 32 bytes. -/
def Msg.bytes (m : Msg) : Nat :=
  match m.body with
  | .migrate _ => 192
  | .batch .. => 96
  | .line .. => 96
  | .chan _ ws => 32 * ((ws.length + 4) / 4)
  | .trapRec .. => 96
  | .mail .. => 32
  | .launch .. => 96
  | .read .. => 32
  | .reply _ => 32
  | _ => 32

/-- A front log's size (R337). -/
def frontLogBytes : Nat := 65536

/-- The front of a spindle is complete: tokens have arrived on the inputs of every class from every spindle of its job that is not fenced
(R336, R338). -/
def State.frontAt (s : State) (j sp : Nat) : Bool :=
  let live := (s.job j).rect.spindles.filter fun q => !(s.spindle q).fenced
  (s.spindle sp).frontOn && live.all fun q => (List.range 4).all fun c => (s.spindle sp).frontIn.contains (q, c)

/-- The node has seen the token on the message's input, or a message of a node outside the rectangle finds the spindle's front complete:
the message is held (R336, R337). -/
def State.frontHolds (s : State) (m : Msg) : Bool :=
  let p := s.spindle m.dst
  p.frontOn && p.job == some m.job && (match m.body with | .token => false | _ => true) &&
    (if (s.job m.job).rect.has m.src && decide (m.src < numSpindles) && !(s.spindle m.src).fenced then p.frontIn.contains (m.src, m.cls.num)
     else s.frontAt m.job m.dst)

/-- Bytes that a node's log holds. -/
def State.logBytes (s : State) (sp : Nat) : Nat := ((s.msgs.filter fun m => m.logged && m.dst == sp).map Msg.bytes).sum

/-- A message is held in the log and counts as received, or finds the log full and is sent again 1,024 cycles later. -/
def State.logMsg (s : State) (m : Msg) : State :=
  if frontLogBytes < s.logBytes m.dst + m.bytes then
    { s with msgs := s.msgs.map fun x => if x.id == m.id then { x with notBefore := s.now + nackRetry } else x }
  else
    let s := if m.postFront then s else s.received m
    { s with msgs := s.msgs.map fun x => if x.id == m.id then { x with logged := true, postFront := true, early := false } else x }

/-! ### Mailboxes (R45, R143) -/

/-- Channel number of the mailbox (R137). -/
def mailboxNo : Nat := 0xFFF
/-- The context is parked on a channel. -/
def Context.waitsOn (c : Context) (ch : Nat) : Bool := match c.got with | (x, _) :: _ => x == ch | [] => false

/-- A message joins a mailbox of 16; one that finds it full, or others held, is held by its source. -/
def Context.mailed (c : Context) (m : HeldMail) : Context :=
  if c.mailbox.length < 16 && c.mailHeld.isEmpty then { c with mailbox := c.mailbox ++ [m.ws] }
  else { c with mailHeld := c.mailHeld ++ [m] }

/-- A message into a context's mailbox; a context that waits for one goes on. -/
def State.mailTo (s : State) (k : Nat) (m : HeldMail) : State :=
  let s := s.modCtx k fun c => c.mailed m
  if (s.ctx k).park == 3 && (s.ctx k).waitsOn mailboxNo then s.wakeAgain k else s

/-- The oldest message leaves a mailbox, and the oldest held one enters. -/
def Context.takeMail (c : Context) : Context :=
  match c.mailbox with
  | [] => c
  | _ :: t =>
    match c.mailHeld with
    | [] => { c with mailbox := t }
    | h :: r => { c with mailbox := t ++ [h.ws], mailHeld := r }

/-- The key of the context a job's thread occupies, if it lives in one: a context that it is about to leave comes last. -/
def State.findThread (s : State) (j thidx : Nat) : Option Nat :=
  let at_ := fun (gone : Bool) =>
    (s.ctxs.find? fun e => e.2.st != .free && (e.2.st == .departing) == gone && e.2.thidx == thidx && (s.spindle (keySp e.1)).job == some j).map (·.1)
  (at_ false).or (at_ true)

/-- The birth spindle of a thread. -/
def Job.birthSpindle (jb : Job) (thidx : Nat) : Nat := jb.rect.spindle (thidx / 16)
/-- The spindle at which a thread that occupies no context waits for one, or to which it is on its way (R36, R37). -/
def State.movingTo (s : State) (j thidx : Nat) : Option Nat :=
  let mine := fun (g : Migrant) => g.job == j && g.image.thidx == thidx
  ((s.spindles.find? fun e => (e.2.migBuf ++ e.2.migRes).any mine).map (·.1)).or
    ((s.msgs.find? fun m => match m.body with | .migrate g => mine g | _ => false).map (·.dst))
/-- The spindle a thread occupies or moves to; else the fenced one at which it was lost (R349), or its birth spindle (R139). -/
def State.threadSpindle (s : State) (j thidx : Nat) : Nat :=
  match (s.findThread j thidx).map keySp with
  | some sp => sp
  | .none => (s.movingTo j thidx).getD ((Table.find (s.job j).lostAt thidx).getD ((s.job j).birthSpindle thidx))

/-- A thread on its way takes a mailbox message along: its source holds the message until the thread is seated (R45). -/
def Migrant.mailed (m : Migrant) (thidx : Nat) (ws : List Word) : Migrant :=
  if m.image.thidx == thidx then { m with image := m.image.mailed { ws := ws } } else m
def State.mailMoving (s : State) (j thidx : Nat) (ws : List Word) : State :=
  let queued := fun (p : Spindle) => { p with migBuf := p.migBuf.map fun m => m.mailed thidx ws, migRes := p.migRes.map fun m => m.mailed thidx ws }
  let s := s.modJob j fun jb => { jb with saved := jb.saved.map fun v => { v with state := queued v.state } }
  { s with
    msgs := s.msgs.map fun x => match x.body with | .migrate m => if x.job == j then { x with body := .migrate (m.mailed thidx ws) } else x | _ => x
    spindles := s.spindles.map fun e => if e.2.job == some j then (e.1, queued e.2) else e }

/-- A mailbox message from a node that is no spindle reaches its spindle, which counts it (R334). -/
def State.mailIn (s : State) (k : Nat) (ws : List Word) : State :=
  (s.modSp (keySp k) fun p => { p with rcvd := Vec4.bump p.rcvd MeshClass.update.num }).mailTo k { ws := ws }

/-- Entries of a save-area inbound ring (R143). -/
def ringEntries : Nat := 32

/-- A message for the inbound ring of a context whose job is switched out; a full ring refuses it, to be sent again 1,024 cycles later. -/
def State.ringPut (s : State) (j k thidx : Nat) (ws : List Word) : State :=
  s.modJob j fun jb =>
    if (Table.get [] jb.rings k).length < ringEntries then { jb with rings := Table.modify [] jb.rings k fun l => l ++ [(thidx, ws)] }
    else { jb with ringHeld := jb.ringHeld ++ [(s.now + nackRetry, thidx, ws)] }

/-- A message for a mailbox at a spindle whose front is complete goes into the front's log (R336, R337). -/
def State.logMail (s : State) (j sp thidx : Nat) (ws : List Word) : State :=
  let m : Msg := { id := s.nextMsg, cls := .update, src := nodeDisp, dst := sp, job := j, body := .mail thidx ws }
  { s with msgs := s.msgs ++ [m], nextMsg := s.nextMsg + 1 }.logMsg m

/-- A message for the mailbox of a job's thread: into its mailbox, into the log of a front that is complete there, into its ring where
the job is switched out or its front logs are still being delivered (R342), along with it where it migrates, nowhere where the thread
lives no more. -/
def State.mailThread (s : State) (j thidx : Nat) (ws : List Word) : State :=
  let jb := s.job j
  match s.findThread j thidx with
  | some k =>
    if jb.phase == .resuming then s.ringPut j k thidx ws
    else if jb.phase == .frontPhase && s.frontAt j (keySp k) then s.logMail j (keySp k) thidx ws
    else if (s.ctx k).st == .departing then (s.mailIn k ws).mailMoving j thidx ws
    else s.mailIn k ws
  | .none =>
    match (jb.saved.findSome? fun sv => (sv.ctxs.find? fun e => e.2.st != .free && e.2.thidx == thidx).map (·.1)) with
    | some k => s.ringPut j k thidx ws
    | .none => s.mailMoving j thidx ws

/-- The mailbox messages whose time to be sent again has come (R143). -/
def State.ringAgain (s : State) : State :=
  s.jobs.foldl (fun s e => (e.2.ringHeld.filter fun h => decide (h.1 ≤ s.now)).foldl (fun s h =>
    (s.modJob e.1 fun jb => { jb with ringHeld := jb.ringHeld.erase h }).mailThread e.1 h.2.1 h.2.2) s) s

/-! ### Activities abandoned (R316, R322) -/

def actIdOf (a : Activity) : Nat := a.gen * 2 ^ 16 + a.ix
def State.modAct (s : State) (ix : Nat) (f : Activity → Activity) : State :=
  { s with unrav := { s.unrav with acts := s.unrav.acts.map fun a => if a.ix == ix then f a else a } }
def State.act (s : State) (id : Nat) : Option Activity := s.unrav.acts.find? fun a => actIdOf a == id % 2 ^ 32

/-- The notice of an activity that became UNRAVELLED (5) or WEDGED (6). -/
def State.actNotice (s : State) (a : Activity) (code : Nat) : State :=
  s.mailThread a.job a.owner [BitVec.ofNat 64 (2 * 2 ^ 56 + code * 2 ^ 32 + actIdOf a), 0, 0]

/-- An OPEN activity is abandoned: UNRAVELLING, or UNRAVELLED at once when it holds no entry. -/
def State.abandon (s : State) (a : Activity) (ownerSp : Nat) : State :=
  if a.entries.isEmpty then
    (s.modAct a.ix fun a => { a with st := .unravelled, ownerSp := ownerSp }).actNotice a 5
  else s.modAct a.ix fun a => { a with st := .unravelling, ownerSp := ownerSp }

/-- The OPEN activity a thread owns. -/
def State.openAct (s : State) (j thidx : Nat) : Option Activity :=
  s.unrav.acts.find? fun a => a.job == j && a.owner == thidx && a.st == .opened

def State.abandonOwned (s : State) (j thidx sp : Nat) : State :=
  match s.openAct j thidx with | some a => s.abandon a sp | .none => s

/-! ### The end of a thread (R30, R43, R85, R272) -/

/-- A FREE context, whose slot remembers when it last issued. -/
def freeCtx (c : Context) : Context := { lastIssue := c.lastIssue }

/-- A thread of the job still runs or waits somewhere, handler contexts apart. -/
def State.threadsLeft (s : State) (j : Nat) : Bool :=
  s.ctxs.any (fun e => e.2.st != .free && !e.2.handler && (s.spindle (keySp e.1)).job == some j) ||
  s.spindles.any (fun e => (e.2.migBuf ++ e.2.migRes).any fun m => m.job == j) ||
  s.msgs.any (fun m => m.job == j && match m.body with | .migrate _ => true | _ => false)

/-- A handler context of the job is FROZEN: its thread has not exited (R330). -/
def State.handlerFrozen (s : State) (j : Nat) : Bool :=
  s.ctxs.any fun e => e.2.st == .frozen && e.2.handler && (s.spindle (keySp e.1)).job == some j

/-- The launch unit frees the handler contexts once every other thread has exited. -/
def State.freeHandlers (s : State) (j : Nat) : State :=
  if s.threadsLeft j || s.handlerFrozen j then s
  else { s with ctxs := s.ctxs.map fun e =>
    if e.2.handler && (s.spindle (keySp e.1)).job == some j && (e.2.st == .ready || e.2.st == .parked) then (e.1, freeCtx e.2) else e }

/-- An exit status reaches the birth spindle: held for REAP, whose keeper goes on. -/
def State.holdStatus (s : State) (j thidx status : Nat) : State :=
  let b := (s.job j).rect.spindle (thidx / 16)
  let s := s.modSp b fun p => { p with exits := Table.set p.exits (thidx % 16) status }
  let k := keyOf b 0
  if (s.ctx k).park == 11 && (s.ctx k).waitsOn (thidx % 16) then s.wakeAgain k else s

/-- A status on its way home: at once on the birth spindle, by an exit notice from elsewhere, nowhere to a fenced one. -/
def State.sendStatus (s : State) (j thidx sp status : Nat) : State :=
  if thidx == compThidx then s
  else
    let b := (s.job j).rect.spindle (thidx / 16)
    if (s.spindle b).fenced then s
    else if b == sp then s.holdStatus j thidx status
    else s.send { id := 0, cls := .update, src := sp, dst := b, job := j, body := .exitNotice thidx status }

/-- Trap records that wait for room in the mailbox of a handler whose context ends are refused: they go to their next buddies (R330). -/
def State.passRecords (s : State) (k : Nat) (c : Context) : State :=
  c.mailHeld.foldl (fun s h =>
    match h.record with
    | some (from_, t, second, act) =>
      s.send { id := 0, cls := .update, src := keySp k, dst := keySp from_, job := s.jobNoAt (keySp k), ctx := keyCtx from_,
               body := .trapNack h.ws t second act }
    | .none => s) s

/-- A context's thread ends with a status, as by EXIT: its open activity is abandoned, its mailbox discarded, its context
FREE, and it counts as exited at every barrier. -/
def State.endThread (s : State) (k status : Nat) : State :=
  let c := s.ctx k
  let sp := keySp k
  let j := s.jobNoAt sp
  let s := (s.passRecords k c).abandonOwned j c.thidx sp
  let s := s.modJob j fun jb => { jb with exited := if c.thidx == compThidx then jb.exited else insertSorted jb.exited c.thidx }
  let s := s.setCtx k (freeCtx c)
  (s.sendStatus j c.thidx sp status).freeHandlers j

/-- A held task of a killed thread: its buffer and its fork's reserve are discarded and its descriptor becomes pending
again at the head of its bobbin, with REISSUE set (R183). -/
def State.reissueTask (s : State) (j : Nat) (t : TaskBuf) : State :=
  let s := s.modJob j fun jb => { jb with frontRes := jb.frontRes - (t.fork.getD []).length }
  s.modCl t.cluster fun cl => { cl with
    held := cl.held.erase t.desc, pend := { t.desc with reissued := true } :: cl.pend }

/-- A thread is killed as by RESUME mode 2 (R104). -/
def State.kill (s : State) (k status : Nat) : State :=
  let c := s.ctx k
  let j := s.jobNoAt (keySp k)
  let s := match c.task with | some t => if c.pairtask then s.reissueTask j t else s | .none => s
  s.endThread k status

/-! ### Taking a trap (R18, R65, R327-R330) -/

/-- The cause codes of R328. -/
def cILLEGAL : Nat := 0x01
def cPREFIX : Nat := 0x02
def cPRIV : Nat := 0x03
def cALIGN : Nat := 0x04
def cXLATE : Nat := 0x05
def cWINDOW : Nat := 0x06
def cFENCED : Nat := 0x07
def cTAG : Nat := 0x08
def cCOMPAT : Nat := 0x09
def cVLOCAL : Nat := 0x0A
def cSUBWR : Nat := 0x0B
def cCHANNEL : Nat := 0x0C
def cDIVZ : Nat := 0x0D
def cECC : Nat := 0x0E
def cLOOM : Nat := 0x0F
def cCOPY : Nat := 0x10
def cFRONTIER : Nat := 0x11
def cPOOL : Nat := 0x12
def cRAVELFULL : Nat := 0x13
def cCOMPFAIL : Nat := 0x14
def cTIMEOUT : Nat := 0x15
def cSWTRAP : Nat := 0x16
def cBREAK : Nat := 0x17
def cLAUNCH : Nat := 0x18
def cTASKBUF : Nat := 0x19
def cSKEIN : Nat := 0x1A

/-- The eight words of a trap record (R327). -/
def trapWords (k : Nat) (t : TrapInfo) (cause : Nat) : List Word :=
  let w := fun i => (t.words.getD i 0).toNat
  [BitVec.ofNat 64 (cause * 2 ^ 24 + keySp k * 16 + keyCtx k), t.pc, t.addr,
   BitVec.ofNat 64 (w 0 + w 1 * 2 ^ 32), BitVec.ofNat 64 (w 2 + w 3 * 2 ^ 32), BitVec.ofNat 64 (w 4),
   BitVec.ofNat 64 t.lanes,
   BitVec.ofNat 64 (t.cls * 2 ^ 56 + t.words.length * 2 ^ 52 + (if t.defer then 2 ^ 51 else 0) + t.thidx)]

/-- Spindle `b` can take a record of job `j` for a trap of context `k`: not fenced, its context 15 a handler context of
the job, and not the trapping one (R330). -/
def State.takesRecord (s : State) (j b k : Nat) : Bool :=
  !(s.spindle b).fenced && (s.spindle b).job == some j && (s.ctx (keyOf b 15)).handler &&
  (s.ctx (keyOf b 15)).st != .free && keyOf b 15 != k

/-- No buddy takes the record: a COMPFAIL wedges its activity, any other kills the trapping thread. -/
def State.recordLost (s : State) (j k : Nat) (t : TrapInfo) (actId : Option Nat) : State :=
  match actId with
  | some id =>
    match s.act id with
    | some a => (s.modAct a.ix fun a => { a with st := .wedged }).actNotice a 6
    | .none => s
  | .none =>
    let s := s.modJob j fun jb => { jb with detail := if jb.detail == 0 then t.cause else jb.detail }
    s.kill k (0xFFFFFF00 + t.cause)

/-- The record goes to the primary buddy of `sp`, or to the secondary, or is lost; `second` starts at the secondary. -/
def State.deliverRecord (s : State) (j sp k : Nat) (ws : List Word) (t : TrapInfo) (actId : Option Nat) (second : Bool) : State :=
  let p := s.spindle sp
  let go (b : Nat) (snd : Bool) : State :=
    s.send { id := 0, cls := .update, src := keySp k, dst := b, job := j, ctx := keyCtx k,
             body := .trapRec ws t snd (match actId with | some a => a + 1 | .none => 0) }
  if !second && s.takesRecord j p.primary k then go p.primary false
  else if s.takesRecord j p.secondary k then go p.secondary true
  else s.recordLost j k t actId

/-- A record of context `k` that was sent and not accepted goes to the next buddy, or is lost; `act` is one more than the activity's id
where the record is a COMPFAIL, and 0 elsewhere. -/
def State.nextBuddy (s : State) (j k : Nat) (ws : List Word) (t : TrapInfo) (second : Bool) (act : Nat) : State :=
  let id := if act = 0 then .none else some (act - 1)
  let sp := match id with
    | some i => match s.act i with | some a => a.ownerSp | .none => keySp k
    | .none => keySp k
  if second then s.recordLost j k t id else s.deliverRecord j sp k ws t id true

/-- The activity whose compensation runs. -/
def State.runningAct (s : State) : Option Activity :=
  match s.unrav.running with
  | some (ix, _) => s.unrav.acts.find? fun a => a.ix == ix
  | .none => .none

/-- A compensation failed (R324, R326): its record as COMPFAIL goes to the buddies of the spindle the owner occupied, its
activity is HALTED until AFIX, or WEDGED where no handler takes the record. -/
def State.compFailed (s : State) (k : Nat) (t : TrapInfo) : State :=
  match s.runningAct with
  | .none => s
  | some a =>
    let s := { s with unrav := { s.unrav with running := .none } }
    let s := s.modAct a.ix fun a => { a with st := .halted }
    let t' := { t with cause := cCOMPFAIL, cls := t.cause, addr := BitVec.ofNat 64 (actIdOf a), thidx := compThidx }
    s.deliverRecord a.job a.ownerSp k (trapWords k t' cCOMPFAIL) t' (some (actIdOf a)) false

/-- TAKING A TRAP, for every trap of the part: a compensation thread's context is freed and its record goes out as
COMPFAIL; any other context freezes and its record goes to its buddy handler (R18, R330). -/
def State.takeTrap (s : State) (k : Nat) (t : TrapInfo) : State :=
  let c := s.ctx k
  let s := if k == s.cur then { s with midUnit := false } else s
  if c.thidx == compThidx then
    let s := match c.task with | some u => if c.pairtask then s.reissueTask (s.jobNoAt (keySp k)) u else s | .none => s
    let s := s.setCtx k (freeCtx c)
    (s.compFailed k t).freeHandlers (s.jobNoAt (keySp k))
  else
    let t := { t with thidx := c.thidx }
    let s := s.modCtx k fun c => { c with st := .frozen, pc := if t.defer then c.pc else t.pc, park := 0, tok := 0, bounded := false, wakeAt := .none, waitToks := [], waitAny := false, frz := some t,
                                          kont := .advance, got := [], again := false }
    s.deliverRecord (s.jobNoAt (keySp k)) (keySp k) k (trapWords k t t.cause) t .none false

/-- The words of a unit that a record holds: at most five (R65). -/
def UnitRec.info (u : UnitRec) (cause : Nat) (addr : Word) : TrapInfo :=
  { cause := cause, addr := addr, pc := u.pc, words := u.words.take 5, skipPc := u.next }

/-- The executing context traps, precisely, at its unit. -/
def State.trap (s : State) (cause : Nat) (addr : Word) : State :=
  s.takeTrap s.cur (s.me.unit.info cause addr)
def State.trapN (s : State) (cause addr : Nat) : State := s.trap cause (BitVec.ofNat 64 addr)

/-! ### Answers to waits -/

/-- The answer a parked context waits for has come. -/
def State.complete (s : State) (k v : Nat) : State :=
  let c := s.ctx k
  let w := fun (f : Context → Context) => s.modCtx k fun c => ((f c).advance).woken s.now
  match c.kont with
  | .reissue => s.wakeAgain k
  | .advance => w id
  | .load d n sx => w fun c => c.setReg d (extend v n sx)
  | .atomic d n flt => w fun c => c.setReg d (atomicResult v n flt)
  | .value d => w fun c => c.setReg d (BitVec.ofNat 64 v)
  | .gather a => s.modCtx k fun c => { (c.woken s.now) with got := (a, v) :: c.got, again := true }
  | .subon e => (s.modSp (keySp k) fun p => { p with copies := p.copies ++ [e] }).modCtx k fun c => c.advance.woken s.now
  | .suboff b => (s.modSp (keySp k) fun p => { p with copies := p.copies.filter fun e => e.base != b }).modCtx k fun c => c.advance.woken s.now
  | .drain n f =>
    if 1 < n then s.modCtx k fun c => { c with kont := .drain (n - 1) f }
    else if f then s.takeTrap k (c.unit.info cFENCED 0)
    else w id
  | .acks n => if n ≤ 1 then w id else s.modCtx k fun c => { c with kont := .acks (n - 1) }
  | .emptied d id => w fun c => c.setReg d (BitVec.ofNat 64 id)
  | .commit n =>
    if n ≤ 1 then w fun c => { c with pairtask := false, task := .none } else s.modCtx k fun c => { c with kont := .commit (n - 1) }

/-! ### Waiters (R127, R128) -/

/-- The waiters of a word, oldest first, by their form: 0 LDF, 1 LDE, 3 STF. -/
def State.waitersOf (s : State) (w op : Nat) : List Waiter :=
  (s.spindle (faSp w)).waiters.filter fun x => wordOf x.fa == w && x.op == op

def State.dropWaiter (s : State) (x : Waiter) : State :=
  s.modSp (faSp x.fa) fun p => { p with waiters := p.waiters.erase x }

/-! ### RESUME (R104) -/

/-- The target continues at a PC. -/
def State.thaw (s : State) (k : Nat) (pc : Word) : State :=
  s.modCtx k fun c => { c with st := .ready, pc := pc, frz := .none, readyAt := s.now + 1, again := false, kont := .advance }

/-- The same; a handler context that was the last FROZEN one holds back the end of the handlers no more (R330). -/
def State.letGo (s : State) (k : Nat) (pc : Word) : State :=
  if (s.ctx k).handler then (s.thaw k pc).freeHandlers (s.jobNoAt (keySp k)) else s.thaw k pc

/-- RESUME of the context WINSEL selects: the code for g(D), and the state. `skip` is the PC after the unit at a frozen PC,
which mode 1 uses where the trap was a deferred one (R123); a unit that trapped itself recorded its own (R50, R104). -/
def State.resume (s : State) (winsel a : Word) (mode : Nat) (skip : Word) : Nat × State :=
  let snum := bitsOf winsel.toNat 17 4
  let k := keyOf snum (bitsOf winsel.toNat 3 0)
  let c := s.ctx k
  if bitsOf winsel.toNat 63 63 = 0 || !(s.myJob.rect.has snum) then (1, s)
  else if c.st != .frozen then (2, s)
  else
    match c.frz with
    | .none => (2, s)
    | some t =>
      if mode = 0 && a.toNat % 4 != 0 then (3, s)
      else if mode = 1 && t.fetchFault then (4, s)
      else if mode = 0 then (0, s.letGo k a)
      else if mode = 1 then (0, s.letGo k (if t.defer then skip else t.skipPc))
      else (0, s.kill k (a.toNat % 2 ^ 32))

end Sys2Proof.Machine
end

