-- ==== Sys2Proof/Machine/Bobbin.lean ====
section
/-!
DEFINITION. The bobbins of the clusters and the blocks of the frontier reserve (R172, R185-R188): where a group of pair descriptors
is placed, what is written to the reserve, and what finds no room.
-/
namespace Sys2Proof.Machine
open Sys2Proof.Config

def bobbinCap : Nat := 4096
/-- OCC: pending and held descriptors (R185). -/
def Cluster.occ (c : Cluster) : Nat := c.pend.length + c.held.length

/-- A cluster's bobbin takes descriptors: none of its spindles is fenced. -/
def State.bobbinAlive (s : State) (cl : Nat) : Bool := !((clusterSpindles cl).any fun p => (s.spindle p).fenced)

/-- The reserve blocks of a job that hold descriptors. -/
def State.usedBlocks (s : State) (j : Nat) : List Nat := (s.job j).rect.clusters.flatMap fun c => (s.cluster c).own.map (·.1)
/-- The free reserve block that is written next: the lowest one. -/
def State.freeBlock (s : State) (j : Nat) : Nat :=
  let used := s.usedBlocks j
  ((List.range (s.job j).blocks).find? fun b => !used.contains b).getD 0

/-- The 128 pending descriptors nearest the tail go to a free reserve block, this cluster's newest own block. -/
def State.spill (s : State) (j cl : Nat) : State :=
  let b := s.freeBlock j
  let s := s.modJob j fun jb => { jb with freeBlk := jb.freeBlk - 1 }
  s.modCl cl fun c => { c with pend := c.pend.take (c.pend.length - 128), own := c.own ++ [(b, c.pend.drop (c.pend.length - 128))] }

/-- A group enters a bobbin that has room for it: at the tail below the watermark, else at the head (R186). -/
def State.enterGroup (s : State) (j cl : Nat) (ds : List PairDesc) (tail : Bool) : State :=
  s.modCl cl fun c =>
    if tail || c.occ < (s.job j).hwm then { c with pend := c.pend ++ ds } else { c with pend := ds ++ c.pend }

/-- Descriptors that find no room anywhere are lost: COUNT falls, and the launch's status reports it (R191). -/
def State.losePairs (s : State) (j n : Nat) : State :=
  if n = 0 then s else s.modJob j fun jb => { jb with frontCount := jb.frontCount - n, lostPairs := true }

/-- A group placed at a cluster index by the rows of R186, clusters in `dead` and fenced ones passed by; `fuel` bounds the passes
to the next cluster. -/
def State.placeGroup (j : Nat) (tail : Bool) (dead : List Nat) : Nat → State → Nat → List PairDesc → State
  | 0, s, _, ds => s.losePairs j ds.length
  | fuel + 1, s, ix, ds =>
    let r := (s.job j).rect
    let cl := r.clusterAt ix
    let next := (ix + 1) % r.clusterCount
    if ds.isEmpty then s
    else if !s.bobbinAlive cl || dead.contains cl then State.placeGroup j tail dead fuel s next ds
    else if (s.cluster cl).occ + ds.length ≤ bobbinCap then s.enterGroup j cl ds tail
    else if 0 < (s.job j).freeBlk && 128 ≤ (s.cluster cl).pend.length then (s.spill j cl).enterGroup j cl ds tail
    else
      let room := bobbinCap - (s.cluster cl).occ
      State.placeGroup j tail dead fuel (s.enterGroup j cl (ds.take room) tail) next (ds.drop room)

/-- The oldest own block comes back where a PDONE leaves a bobbin below 1,024 (R186). -/
def State.readBack (s : State) (j cl : Nat) : State :=
  match (s.cluster cl).own with
  | b :: rest =>
    if (s.cluster cl).occ < 1024 then
      (s.modJob j fun jb => { jb with freeBlk := jb.freeBlk + 1 }).modCl cl fun c => { c with pend := c.pend ++ b.2, own := rest }
    else s
  | [] => s

/-- A list cut into pieces of 128. -/
def blocksOf : Nat → List PairDesc → List (List PairDesc)
  | 0, _ => []
  | f + 1, l => if l.isEmpty then [] else l.take 128 :: blocksOf f (l.drop 128)

/-- The registers a parked PTAKE names, in its order, take three values, and the context goes on (R177). -/
def Context.taskRegs (c : Context) (now : Nat) (vs : List Nat) : Context :=
  (((c.got.map (·.1)).zip vs).foldl (fun (c : Context) (e : Nat × Nat) => c.setRegN e.1 (BitVec.ofNat 64 e.2)) c).advance.woken now

/-- COUNT of a launch has returned to 0: its SEEDED bits clear and every context parked in PTAKE takes the exhausted result
(R176, R177). -/
def State.exhaust (s : State) (j : Nat) : State :=
  if (s.job j).frontCount != 0 then s
  else
    let s := s.modJob j fun jb => { jb with seeded := [] }
    let mine := fun (k : Nat) => s.jobNoAt (keySp k) == j
    let ks := s.clusters.flatMap fun e => e.2.takers.filter mine
    let s := { s with clusters := s.clusters.map fun e => (e.1, { e.2 with takers := e.2.takers.filter fun k => !mine k }) }
    ks.foldl (fun s k => s.modCtx k fun c => c.taskRegs s.now [2 ^ 64 - 1, 2 ^ 64 - 1, 2 ^ 64 - 1]) s

/-- Children of uncommitted forks of the tasks that contexts of a cluster hold. -/
def State.forksIn (s : State) (cl : Nat) : Nat :=
  ((clusterSpindles cl).map fun p => ((List.range 16).map fun i =>
    match (s.ctx (keyOf p i)).task with | some t => (t.fork.getD []).length | none => 0).sum).sum

/-- The bobbins of the fenced clusters, given by cluster index, are emptied into the surviving ones (R191): each queue, held
descriptors first, then its own blocks, into free reserve blocks that the surviving clusters take in turn by cluster index; what finds
no block goes by the overflow row of R186, from the next cluster index on. -/
def State.rescue (s : State) (j : Nat) (fenced : List Nat) : State :=
  let r := (s.job j).rect
  let ixs := List.range r.clusterCount
  let dead := (ixs.filter fun i => fenced.contains (r.clusterAt i))
  let gone := dead.map r.clusterAt
  let alive := ixs.filter fun i => !gone.contains (r.clusterAt i) && s.bobbinAlive (r.clusterAt i)
  let work := dead.map fun i =>
    let x := s.cluster (r.clusterAt i)
    (i, x.held.map (fun d => { d with reissued := true }) ++ x.pend, x.own.map (·.2))
  let s := s.modJob j fun jb => { jb with
    freeBlk := jb.freeBlk + (work.map fun w => w.2.2.length).sum, frontRes := jb.frontRes - (gone.map s.forksIn).sum }
  let s := gone.foldl (fun s c => s.modCl c fun x => { calm := x.calm, voff := x.voff }) s
  let pieces := work.flatMap fun w => (blocksOf (w.2.1.length + 1) w.2.1 ++ w.2.2).map fun p => (w.1, p)
  let free := if alive.isEmpty then 0 else min (s.job j).freeBlk pieces.length
  -- pieces that find a block, oldest first; each goes before the blocks a surviving cluster already owns
  let placed := ((pieces.take free).zipIdx).foldl (fun (e : State × Table (List (Nat × List PairDesc))) p =>
    let b := e.1.freeBlock j
    let used := e.2.flatMap fun x => x.2.map (·.1)
    let b := if used.contains b then ((List.range (e.1.job j).blocks).find? fun b => !used.contains b && !(e.1.usedBlocks j).contains b).getD 0 else b
    (e.1.modJob j fun jb => { jb with freeBlk := jb.freeBlk - 1 },
     Table.modify [] e.2 (alive.getD (p.2 % alive.length) 0) fun l => l ++ [(b, p.1.2)])) (s, [])
  let s := placed.2.foldl (fun s e => s.modCl (r.clusterAt e.1) fun x => { x with own := e.2 ++ x.own }) placed.1
  ((pieces.drop free).foldl (fun s p => State.placeGroup j false gone (r.clusterCount + 1) s ((p.1 + 1) % r.clusterCount) p.2) s).exhaust j

end Sys2Proof.Machine
end

