-- ==== Sys2Proof/WellFormed.lean ====
section
/-!
DEFINITION. Which terms of Instr stand for an encoding the part defines: the field checks that R53-R57 and each
instruction's description make at decode. A field whose type already bounds it needs no check here.
-/
namespace Sys2Proof

/-- The field C of FCVT and FRND: DIR in 3:2, RF in 1:0; DIR 11 and RF 11 are reserved, and a nonzero DIR needs RF 00
(R77). -/
def convFieldOk (cf : BitVec 4) : Bool :=
  let dir := bitsOf cf.toNat 3 2
  let rf := bitsOf cf.toNat 1 0
  dir != 3 && rf != 3 && (dir == 0 || rf == 0)

/-- A tag code from `lo` to `hi`. -/
def tagIn (t : BitVec 4) (lo hi : Nat) : Bool := decide (lo ≤ t.toNat) && decide (t.toNat ≤ hi)

/-- The loom formats that carry scales: TXB8, TXB4, MX8, MX4 (R258). -/
def loomBlock (f : BitVec 4) : Bool := decide (5 ≤ f.toNat) && decide (f.toNat ≤ 8)

/-- A and B are both S8, or both float codes (R258). -/
def loomPair (af bf : BitVec 4) : Bool :=
  decide (af.toNat ≤ 8) && decide (bf.toNat ≤ 8) && ((af == 4) == (bf == 4))

/-- KG is at most 1,024, and even where a block format is named (R264). -/
def loomDepth (kg : BitVec 11) (block : Bool) : Bool :=
  decide (kg.toNat ≤ 1024) && (!block || kg.toNat % 2 == 0)

/-- The rounding field of a form that rounds: 11 is reserved (R52). -/
def rmOk (rm : BitVec 2) : Bool := rm != 3

/-- A spindle number of the part (R5). -/
def spindleOk (sp : Nat) : Bool := decide (sp < 12288)

/-- The field checks that are made at decode, by instruction; an event is well formed when what it names exists. -/
def Instr.wf : Instr → Bool
  | .ldSigned _ _ sz _ => sz != 3
  | .ldSignedLiteral _ _ sz _ => sz != 3
  | .send _ b n1 => decide (b.toNat + n1.toNat ≤ 15)
  | .resume _ _ mode => decide (mode.toNat ≤ 2)
  | .fadd _ _ _ _ rf => rmOk rf
  | .fsub _ _ _ _ rf => rmOk rf
  | .fmul _ _ _ _ rf => rmOk rf
  | .ffma _ _ _ _ rf => rmOk rf
  | .fdiv _ _ _ _ rf => rmOk rf
  | .fsqrt _ _ _ rf => rmOk rf
  | .fcvt _ _ k cf => decide (k.toNat ≤ 13) && convFieldOk cf
  | .frnd _ _ _ cf => convFieldOk cf
  | .vadd _ _ _ _ _ rm => rmOk rm
  | .vsub _ _ _ _ _ rm => rmOk rm
  | .vmul _ _ _ _ _ rm => rmOk rm
  | .vfma _ _ _ _ _ rm => rmOk rm
  | .vdiv _ _ _ _ rm => rmOk rm
  | .vsqrt _ _ _ rm => rmOk rm
  | .vrcp _ _ _ rm => rmOk rm
  | .vrsq _ _ _ rm => rmOk rm
  | .vexp2 _ _ _ rm => rmOk rm
  | .vlog2 _ _ _ rm => rmOk rm
  | .vsin _ _ _ rm => rmOk rm
  | .vcos _ _ _ rm => rmOk rm
  | .vld _ _ t _ _ => tagIn t 1 10
  | .vlds _ _ _ _ t => tagIn t 1 10
  | .vgath _ _ t _ _ => tagIn t 2 8
  | .vbcst _ _ t _ _ => tagIn t 1 10
  | .vcvt _ _ _ t _ rm => tagIn t 1 10 && rmOk rm
  | .vqnt _ _ _ f h => !h || f == 1 || f == 3
  | .vtag _ _ t => tagIn t 0 14
  | .vreda _ _ _ _ rm => rmOk rm
  | .vscan _ _ _ _ rm => rmOk rm
  | .vspl _ _ t => tagIn t 1 10
  | .lmm _ a _ af bf ng kg _ colg _ =>
    loomPair af bf && loomDepth kg (loomBlock af || loomBlock bf) && decide (colg.toNat + ng.toNat ≤ 15)
      && (loomBlock af || a == 0)
  | .lmmg _ _ b _ af bf ng kg _ colg =>
    loomPair af bf && loomDepth kg (loomBlock af || loomBlock bf) && decide (colg.toNat + ng.toNat ≤ 15)
      && (loomBlock af || b == 0)
  | .lbld _ a _ bf _ kg =>
    decide (bf.toNat ≤ 8) && loomDepth kg (loomBlock bf) && decide (0 < kg.toNat) && (loomBlock bf || a == 0)
  | .laclr _ _ colg ncg => decide (colg.toNat + ncg.toNat ≤ 15)
  | .lacp _ _ _ colg ncg fmt => decide (colg.toNat + ncg.toNat ≤ 15) && decide (fmt.toNat ≤ 6)
  | .lacin _ _ _ colg ncg fmt => decide (colg.toNat + ncg.toNat ≤ 15) && decide (fmt.toNat ≤ 6)
  | .ptake d a b => d != a && d != b && a != b
  | .pload _ _ sx sz off _ => !(sx && sz == 3) && off.toNat % 2 ^ sz.toNat == 0
  | .ptest d _ _ c => d != c
  | .afix _ _ mode => decide (mode.toNat ≤ 2)
  | .cpset sr _ => decide (sr.toNat ≤ 11)
  | .cpseti sr _ => decide (sr.toNat ≤ 11)
  | .migrationResend sp c => spindleOk sp && decide (c < 16)
  | .migrantAdmission sp => spindleOk sp
  | .sleepExpiry sp c => spindleOk sp && decide (c < 16)
  | .recvtTimeout sp c => spindleOk sp && decide (c < 16)
  | .requestTimeout sp c => spindleOk sp && decide (c < 16)
  | .pageWalkDone sp c => spindleOk sp && decide (c < 16)
  | .taskDelivery cl => decide (cl < 768)
  | .loomQueueEntry cl => decide (cl < 768)
  | .loomStep cl => decide (cl < 768)
  | .copyChunk eng => decide (eng < 36)
  | .copyComplete eng => decide (eng < 36)
  | .linkDataFlit port _ => decide (port < 40)
  | .linkRetryFlit port => decide (port < 40)
  | .linkIdleFlit port => decide (port < 40)
  | .linkAckTimeout port => decide (port < 40)
  | .linkRetrainDone port _ => decide (port < 40)
  | .correctedError sp => spindleOk sp
  | .recordTake q => decide (q < 16384)
  | .dependencyPoll q => decide (q < 16384)
  | .goWordReady q => decide (q < 16384)
  | .launchStart q => decide (q < 16384)
  | .powerWindow die _ => decide (die < 12)
  | .marginSample cl _ => decide (cl < 768)
  | _ => true

end Sys2Proof
end

