-- ==== Sys2Proof/Decode.lean ====
section
/-!
DEFINITION. The decoder of one instruction or prefix word with the words its LEN spans (R48-R64), the encoder of the
same tables, and the decoder of a row of the opcode table. What a unit does with a word the decoder refuses is in
Machine/Fetch.lean.
-/
namespace Sys2Proof

/-! ### The fields of a first word (R48, R51) -/

def fLen (w : IWord) : BitVec 2 := w.extractLsb' 30 2
def fMaj (w : IWord) : BitVec 6 := w.extractLsb' 24 6
def fD (w : IWord) : Reg := w.extractLsb' 20 4
def fA (w : IWord) : Reg := w.extractLsb' 16 4
def fB (w : IWord) : Reg := w.extractLsb' 12 4
def fFn (w : IWord) : BitVec 6 := w.extractLsb' 6 6
def fW (w : IWord) : BitVec 2 := w.extractLsb' 4 2
def fC (w : IWord) : Reg := w.extractLsb' 0 4
def fImm (w : IWord) : BitVec 16 := w.extractLsb' 0 16
def fSz (w : IWord) : BitVec 2 := w.extractLsb' 14 2
def fOp (w : IWord) : BitVec 2 := w.extractLsb' 12 2
def fOff (w : IWord) : BitVec 12 := w.extractLsb' 0 12
def fDisp24 (w : IWord) : BitVec 24 := w.extractLsb' 0 24
def vVd (w : IWord) : VReg := w.extractLsb' 21 3
def vVa (w : IWord) : VReg := w.extractLsb' 18 3
def vVb (w : IWord) : VReg := w.extractLsb' 15 3
def vVc (w : IWord) : VReg := w.extractLsb' 12 3
def vMg (w : IWord) : Reg := w.extractLsb' 2 4
def vRm (w : IWord) : BitVec 2 := w.extractLsb' 0 2
def mV (w : IWord) : VReg := w.extractLsb' 21 3
def mA (w : IWord) : Reg := w.extractLsb' 17 4
def mB (w : IWord) : Reg := w.extractLsb' 13 4
def mFn (w : IWord) : BitVec 5 := w.extractLsb' 8 5
def mMg (w : IWord) : Reg := w.extractLsb' 4 4
def mOff (w : IWord) : BitVec 4 := w.extractLsb' 0 4
def xFn (w : IWord) : BitVec 8 := w.extractLsb' 16 8
def xD (w : IWord) : Reg := w.extractLsb' 12 4
def xA (w : IWord) : Reg := w.extractLsb' 8 4
def xB (w : IWord) : Reg := w.extractLsb' 4 4
def xC (w : IWord) : Reg := w.extractLsb' 0 4
def pOrd (w : IWord) : BitVec 2 := w.extractLsb' 18 2
def pZero (w : IWord) : BitVec 18 := w.extractLsb' 0 18

/-- The words a first word's LEN spans (R48). -/
def lenWords (w : IWord) : Nat :=
  match (fLen w).toNat with
  | 0 => 1
  | 1 => 3
  | 2 => 3
  | _ => 5

/-- A 64-bit literal or immediate from its two words, the low half first (R49). -/
def literal (x1 x2 : IWord) : Word := x2 ++ x1

/-- `i` when `b` holds, otherwise the word is refused. -/
def guardI (b : Bool) (i : Instr) : Option Instr := if b then some i else none

/-! ### The majors (R56) -/

/-- MAJ 0x01, IOP (R53, R72). -/
def decIop (w : IWord) : Option Instr :=
  if fC w = 0 && (fW w = 0 || fW w = 1) then
    let d := fD w; let a := fA w; let b := fB w; let n := fW w == 1
    match (fFn w).toNat with
    | 0 => some (.add d a b n) | 1 => some (.sub d a b n) | 2 => some (.and_ d a b n) | 3 => some (.or_ d a b n)
    | 4 => some (.xor d a b n) | 5 => some (.andn d a b n) | 6 => some (.shl d a b n) | 7 => some (.shr d a b n)
    | 8 => some (.sar d a b n) | 9 => some (.rol d a b n) | 10 => some (.mul d a b n) | 11 => some (.mulhs d a b n)
    | 12 => some (.mulhn d a b n) | 13 => some (.divs d a b n) | 14 => some (.divn d a b n)
    | 15 => some (.rems d a b n) | 16 => some (.remn d a b n) | 17 => some (.mins d a b n)
    | 18 => some (.maxs d a b n) | 19 => some (.minn d a b n) | 20 => some (.maxn d a b n)
    | 21 => some (.slts d a b n) | 22 => some (.sltn d a b n) | 23 => some (.seq d a b n) | 24 => some (.sne d a b n)
    | _ => none
  else none

/-- An I-format form with its literal form: LEN 00, or LEN 10 with IMM16 zero (R55, R73). -/
def decImm (short : BitVec 16 → Instr) (long : Word → Instr) (w x1 x2 : IWord) : Option Instr :=
  match (fLen w).toNat with
  | 0 => some (short (fImm w))
  | 2 => guardI (fImm w == 0) (long (literal x1 x2))
  | _ => none

/-- MAJ 0x06, SHI: the amount in IMM16 5:0, IMM16 13:6 zero (R56). -/
def decShi (w : IWord) : Option Instr :=
  let k := w.extractLsb' 0 6
  if w.extractLsb' 6 8 = 0 then
    match (fSz w).toNat with
    | 0 => some (.shli (fD w) (fA w) k) | 1 => some (.shri (fD w) (fA w) k)
    | 2 => some (.sari (fD w) (fA w) k) | _ => some (.roli (fD w) (fA w) k)
  else none

/-- MAJ 0x09, BIT (R74). -/
def decBit (w : IWord) : Option Instr :=
  let d := fD w; let a := fA w; let b := fB w; let c := fC w
  if fW w = 0 then
    match (fFn w).toNat with
    | 0 => guardI (b == 0 && c == 0) (.popc d a) | 1 => guardI (b == 0 && c == 0) (.clz d a)
    | 2 => guardI (b == 0 && c == 0) (.ctz d a) | 3 => guardI (b == 0 && c == 0) (.brev d a)
    | 4 => guardI (b == 0 && c == 0) (.bswap d a) | 5 => guardI (c == 0) (.bfxs d a b)
    | 6 => guardI (c == 0) (.bfxn d a b) | 7 => guardI (c == 0) (.bfi d a b) | 8 => some (.sel d a b c)
    | _ => none
  else none

/-- MAJ 0x0A, BR: A in 23:20, COND in 19:16 (R51, R56). -/
def decBr (w : IWord) : Option Instr :=
  let a := fD w; let disp := fImm w
  match (fA w).toNat with
  | 0 => guardI (a == 0) (.br disp) | 1 => some (.beqz a disp) | 2 => some (.bnez a disp) | 3 => some (.bltz a disp)
  | 4 => some (.bgez a disp) | 5 => some (.bgtz a disp) | 6 => some (.blez a disp) | _ => none

/-- MAJ 0x0C, JMP (R76). -/
def decJmp (w : IWord) : Option Instr :=
  if fD w = 0 && fB w = 0 && fW w = 0 && fC w = 0 then
    match (fFn w).toNat with
    | 0 => some (.jmpr (fA w)) | 1 => some (.callr (fA w)) | 2 => guardI (fA w == 0) .ret | _ => none
  else none

/-- An M-format form with its literal form: LEN 00, or LEN 10 with OFF zero (R55, R59). -/
def decMem (short : BitVec 12 → Instr) (long : Word → Instr) (w x1 x2 : IWord) : Option Instr :=
  match (fLen w).toNat with
  | 0 => some (short (fOff w))
  | 2 => guardI (fOff w == 0) (long (literal x1 x2))
  | _ => none

/-- MAJ 0x0D, LD (R56, R124). -/
def decLd (w x1 x2 : IWord) : Option Instr :=
  match (fOp w).toNat with
  | 0 => decMem (.ld (fD w) (fA w) (fSz w)) (.ldLiteral (fD w) (fA w) (fSz w)) w x1 x2
  | 2 => if fSz w = 3 then none
         else decMem (.ldSigned (fD w) (fA w) (fSz w)) (.ldSignedLiteral (fD w) (fA w) (fSz w)) w x1 x2
  | _ => none

/-- MAJ 0x0E, ST (R56, R124). -/
def decSt (w x1 x2 : IWord) : Option Instr :=
  if fOp w = 0 then decMem (.st (fD w) (fA w) (fSz w)) (.stLiteral (fD w) (fA w) (fSz w)) w x1 x2 else none

/-- MAJ 0x0F, SLD (R126). -/
def decSld (w x1 x2 : IWord) : Option Instr :=
  match (fOp w).toNat with
  | 0 => decMem (.ldf (fD w) (fA w) (fSz w)) (.ldfLiteral (fD w) (fA w) (fSz w)) w x1 x2
  | 1 => decMem (.lde (fD w) (fA w) (fSz w)) (.ldeLiteral (fD w) (fA w) (fSz w)) w x1 x2
  | 2 => if fSz w = 3 then decMem (.feq (fD w) (fA w)) (.feqLiteral (fD w) (fA w)) w x1 x2 else none
  | _ => none

/-- MAJ 0x10, SST (R126). -/
def decSst (w x1 x2 : IWord) : Option Instr :=
  match (fOp w).toNat with
  | 0 => decMem (.stf (fD w) (fA w) (fSz w)) (.stfLiteral (fD w) (fA w) (fSz w)) w x1 x2
  | 1 => decMem (.stw (fD w) (fA w) (fSz w)) (.stwLiteral (fD w) (fA w) (fSz w)) w x1 x2
  | 2 => if fSz w = 3 && fD w = 0 then decMem (.fec (fA w)) (.fecLiteral (fA w)) w x1 x2 else none
  | _ => none

/-- MAJ 0x11, AMO (R53, R131). -/
def decAmo (w : IWord) : Option Instr :=
  let d := fD w; let a := fA w; let b := fB w; let n := fW w == 1; let z := fC w == 0
  if fW w = 0 || fW w = 1 then
    match (fFn w).toNat with
    | 0 => guardI z (.aadd d a b n) | 1 => guardI z (.aand d a b n) | 2 => guardI z (.aor d a b n)
    | 3 => guardI z (.axor d a b n) | 4 => guardI z (.amins d a b n) | 5 => guardI z (.amaxs d a b n)
    | 6 => guardI z (.aminn d a b n) | 7 => guardI z (.amaxn d a b n) | 8 => guardI z (.aswap d a b n)
    | 9 => some (.acas d a b (fC w) n) | 10 => guardI z (.afadd d a b n) | 11 => guardI z (.afmin d a b n)
    | 12 => guardI z (.afmax d a b n) | _ => none
  else none

/-- MAJ 0x12, DUP (R53, R192). -/
def decDup (w : IWord) : Option Instr :=
  let a := fA w; let b := fB w; let c := fC w; let n := fW w == 1; let int := fW w == 0 || fW w == 1
  if fD w = 0 then
    match (fFn w).toNat with
    | 0 => guardI int (.dadd a b c n) | 1 => guardI n (.dfadd a b c) | 2 => guardI int (.dmins a b c n)
    | 3 => guardI int (.dmaxs a b c n) | 4 => guardI n (.dfmin a b c) | 5 => guardI n (.dfmax a b c)
    | 6 => guardI int (.dor a b c n) | 7 => some (.dstore a b c (fW w)) | _ => none
  else none

/-- MAJ 0x13, ORD: every field but FN zero (R133). -/
def decOrd (w : IWord) : Option Instr :=
  if fD w = 0 && fA w = 0 && fB w = 0 && fW w = 0 && fC w = 0 then
    match (fFn w).toNat with
    | 0 => some .fence | 1 => some .drain | 2 => some .waita | _ => none
  else none

/-- MAJ 0x14, CHN (R138). -/
def decChn (w : IWord) : Option Instr :=
  let d := fD w; let a := fA w; let b := fB w; let c := fC w
  if fW w = 0 then
    match (fFn w).toNat with
    | 0 => let n1 : BitVec 3 := w.extractLsb' 0 3
           guardI (d == 0 && w.extractLsb' 3 1 == 0 && decide (b.toNat + n1.toNat ≤ 15)) (.send a b n1)
    | 1 => guardI (b == 0 && c == 0) (.recv d a) | 2 => guardI (b == 0) (.recvt d a c)
    | 3 => guardI (b == 0 && c == 0) (.chq d a) | 4 => guardI (c == 0) (.chbind d a b) | _ => none
  else none

/-- MAJ 0x15, THR (R83); CKPT's number is in bits 23:12. -/
def decThr (w : IWord) : Option Instr :=
  let d := fD w; let a := fA w; let b := fB w; let c := fC w
  if fW w = 0 then
    match (fFn w).toNat with
    | 0 => some (.spawn d a b c) | 1 => guardI (b == 0 && c == 0) (.reap d a)
    | 2 => guardI (d == 0 && b == 0 && c == 0) (.exit a)
    | 3 => guardI (d == 0 && a == 0 && b == 0 && c == 0) .yield
    | 4 => guardI (d == 0 && b == 0 && c == 0) (.sleep a) | 5 => guardI (b == 0 && c == 0) (.migr d a)
    | 6 => guardI (c == 0) (.ckpt (w.extractLsb' 12 12)) | _ => none
  else none

/-- MAJ 0x16, GRP (R89). -/
def decGrp (w : IWord) : Option Instr :=
  let d := fD w; let a := fA w
  if fB w = 0 && fW w = 0 && fC w = 0 then
    match (fFn w).toNat with
    | 0 => guardI (d == 0) (.gbar a) | 1 => guardI (d == 0) (.garr a) | 2 => guardI (d == 0) (.gwait a)
    | 3 => some (.gqry d a) | 4 => guardI (d == 0) (.ply a) | _ => none
  else none

/-- MAJ 0x17, SYS: SRNO in bits 19:12 (R92). -/
def decSys (w : IWord) : Option Instr :=
  let sr : BitVec 8 := w.extractLsb' 12 8
  if fW w = 0 then
    match (fFn w).toNat with
    | 0 => guardI (fC w == 0) (.srd (fD w) sr) | 1 => guardI (fD w == 0) (.swr sr (fC w)) | _ => none
  else none

/-- MAJ 0x18, SUB (R146). -/
def decSub (w : IWord) : Option Instr :=
  let d := fD w; let a := fA w; let b := fB w; let c := fC w
  if fW w = 0 then
    match (fFn w).toNat with
    | 0 => guardI (d == 0) (.subon a b c) | 1 => guardI (d == 0 && b == 0 && c == 0) (.suboff a)
    | 2 => guardI (b == 0 && c == 0) (.subq d a)
    | 3 => guardI (d == 0 && a == 0 && b == 0 && c == 0) .subfl | _ => none
  else none

/-- MAJ 0x19, LCH (R373). -/
def decLch (w : IWord) : Option Instr :=
  if fW w = 0 && fC w = 0 then
    match (fFn w).toNat with
    | 0 => some (.launch (fD w) (fA w) (fB w)) | 1 => guardI (fB w == 0) (.lqry (fD w) (fA w)) | _ => none
  else none

/-- MAJ 0x1A, TRP: the code n in bits 23:16 (R103). -/
def decTrp (w : IWord) : Option Instr :=
  let n : BitVec 8 := w.extractLsb' 16 8; let b := fB w; let c := fC w
  if fW w = 0 then
    match (fFn w).toNat with
    | 0 => guardI (c == 0) (.trap n b) | 1 => guardI (b == 0 && c == 0) (.brk n)
    | 2 => guardI (b == 0 && decide (c.toNat ≤ 2)) (.resume (fD w) (fA w) c)
    | 3 => guardI (n == 0 && b == 0 && c == 0) .idle | _ => none
  else none

/-- MAJ 0x1B, FOP (R53, R77). -/
def decFop (w : IWord) : Option Instr :=
  let d := fD w; let a := fA w; let b := fB w; let c := fC w; let n := fW w == 1
  let rf : BitVec 2 := w.extractLsb' 0 2
  let round := w.extractLsb' 2 2 == 0 && rmOk rf
  if fW w = 0 || fW w = 1 then
    match (fFn w).toNat with
    | 0 => guardI round (.fadd d a b n rf) | 1 => guardI round (.fsub d a b n rf) | 2 => guardI round (.fmul d a b n rf)
    | 3 => guardI round (.ffma d a b n rf) | 4 => guardI round (.fdiv d a b n rf)
    | 5 => guardI (round && b == 0) (.fsqrt d a n rf)
    | 6 => guardI (c == 0) (.fmin d a b n) | 7 => guardI (c == 0) (.fmax d a b n)
    | 8 => guardI (c == 0) (.fminm d a b n) | 9 => guardI (c == 0) (.fmaxm d a b n)
    | 10 => guardI (c == 0 && b == 0) (.fabs d a n) | 11 => guardI (c == 0 && b == 0) (.fneg d a n)
    | 12 => guardI (c == 0) (.fceq d a b n) | 13 => guardI (c == 0) (.fclt d a b n)
    | 14 => guardI (c == 0) (.fcle d a b n) | 15 => guardI (c == 0) (.fcun d a b n)
    | 16 => guardI (!n && decide (b.toNat ≤ 13) && convFieldOk c) (.fcvt d a b c)
    | 17 => guardI (b == 0 && convFieldOk c) (.frnd d a n c) | _ => none
  else none

/-- MAJ 0x20, VAR (R235). IMODE is the field VC, of which bit 2 is zero (R234). -/
def decVar (w : IWord) : Option Instr :=
  let d := vVd w; let a := vVa w; let b := vVb w; let c := vVc w; let mg := vMg w; let rm := vRm w
  let im : BitVec 2 := w.extractLsb' 12 2
  let im2 := w.extractLsb' 14 1 == 0
  let u := w.extractLsb' 12 1 == 1; let sat := w.extractLsb' 13 1 == 1
  let noSat := w.extractLsb' 13 1 == 0; let noU := w.extractLsb' 12 1 == 0
  match (fFn w).toNat with
  | 0 => guardI (im2 && rmOk rm) (.vadd d a b im mg rm) | 1 => guardI (im2 && rmOk rm) (.vsub d a b im mg rm)
  | 2 => guardI (im2 && rmOk rm) (.vmul d a b im mg rm) | 3 => guardI (rmOk rm) (.vfma d a b c mg rm)
  | 4 => guardI (im2 && noSat && rm == 0) (.vmin d a b u mg) | 5 => guardI (im2 && noSat && rm == 0) (.vmax d a b u mg)
  | 6 => guardI (c == 0 && rm == 0) (.vminm d a b mg) | 7 => guardI (c == 0 && rm == 0) (.vmaxm d a b mg)
  | 8 => guardI (b == 0 && im2 && noU && rm == 0) (.vabs d a sat mg)
  | 9 => guardI (b == 0 && im2 && noU && rm == 0) (.vneg d a sat mg)
  | 10 => guardI (c == 0 && rmOk rm) (.vdiv d a b mg rm) | 11 => guardI (b == 0 && c == 0 && rmOk rm) (.vsqrt d a mg rm)
  | 12 => guardI (b == 0 && c == 0 && rmOk rm) (.vrcp d a mg rm) | 13 => guardI (b == 0 && c == 0 && rmOk rm) (.vrsq d a mg rm)
  | 14 => guardI (b == 0 && c == 0 && rmOk rm) (.vexp2 d a mg rm) | 15 => guardI (b == 0 && c == 0 && rmOk rm) (.vlog2 d a mg rm)
  | 16 => guardI (b == 0 && c == 0 && rmOk rm) (.vsin d a mg rm) | 17 => guardI (b == 0 && c == 0 && rmOk rm) (.vcos d a mg rm)
  | 18 => guardI (c == 0 && rm == 0) (.vand d a b mg) | 19 => guardI (c == 0 && rm == 0) (.vor d a b mg)
  | 20 => guardI (c == 0 && rm == 0) (.vxor d a b mg) | 21 => guardI (c == 0 && rm == 0) (.vshl d a b mg)
  | 22 => guardI (c == 0 && rm == 0) (.vshr d a b mg) | 23 => guardI (c == 0 && rm == 0) (.vsar d a b mg)
  | 24 => guardI (c == 0 && rm == 0) (.vceq d a b mg)
  | 25 => guardI (im2 && noSat && rm == 0) (.vclt d a b u mg) | 26 => guardI (im2 && noSat && rm == 0) (.vcle d a b u mg)
  | 27 => guardI (rm == 0) (.vsel d a b c mg) | _ => none

/-- MAJ 0x21, VLS (R240). -/
def decVls (w : IWord) : Option Instr :=
  let v := mV w; let a := mA w; let b := mB w; let mg := mMg w; let o := mOff w
  let vi : VReg := w.extractLsb' 0 3
  let o3 := w.extractLsb' 3 1 == 0
  match (mFn w).toNat with
  | 0 => guardI (tagIn b 1 10) (.vld v a b mg o) | 1 => guardI (b == 0) (.vst v a mg o)
  | 2 => guardI (tagIn o 1 10) (.vlds v a b mg o) | 3 => guardI (o == 0) (.vsts v a b mg)
  | 4 => guardI (w.extractLsb' 2 2 == 0 && mg == 0) (.vldb v a b (w.extractLsb' 0 2))
  | 5 => guardI (o == 0 && mg == 0) (.vstb v a b)
  | 6 => guardI (o3 && tagIn b 2 8) (.vgath v a b mg vi) | 7 => guardI (o3 && b == 0) (.vscat v a mg vi)
  | 8 => guardI (tagIn b 1 10) (.vbcst v a b mg o) | _ => none

/-- MAJ 0x22, VCV (R245). TT is bits 17:12: bit 5 zero, bit 4 N, 3:0 a tag. -/
def decVcv (w : IWord) : Option Instr :=
  let d := vVd w; let a := vVa w; let b := vVb w; let mg := vMg w; let rm := vRm w
  let t : BitVec 4 := w.extractLsb' 12 4; let n := w.extractLsb' 16 1 == 1; let tt5 := w.extractLsb' 17 1 == 0
  let f : BitVec 2 := w.extractLsb' 12 2; let h := w.extractLsb' 14 1 == 1
  match (fFn w).toNat with
  | 0 => guardI (tt5 && tagIn t 1 10 && rmOk rm) (.vcvt d a n t mg rm)
  | 1 => guardI (mg == 0 && rm == 0 && (!h || f == 1 || f == 3)) (.vqnt d a b f h)
  | 2 => guardI (b == 0 && rm == 0) (.vdq d a f h mg)
  | 3 => guardI (tt5 && !n && tagIn t 0 14 && mg == 0 && rm == 0) (.vtag d a t)
  | 4 => guardI (tt5 && !n && t == 0 && mg == 0 && rm == 0) (.vtagq d a) | _ => none

/-- MAJ 0x23, VPR (R250). -/
def decVpr (w : IWord) : Option Instr :=
  let d := vVd w; let a := vVa w; let b := vVb w; let c := vVc w; let mg := vMg w; let rm := vRm w
  let im : BitVec 2 := w.extractLsb' 12 2; let im2 := w.extractLsb' 14 1 == 0
  let u := w.extractLsb' 12 1 == 1; let noSat := w.extractLsb' 13 1 == 0
  let k : BitVec 6 := w.extractLsb' 12 6; let t : BitVec 4 := w.extractLsb' 12 4; let tt := w.extractLsb' 16 2 == 0
  match (fFn w).toNat with
  | 0 => guardI (c == 0 && rm == 0) (.vperm d a b mg) | 1 => guardI (b == 0 && im2 && rmOk rm) (.vreda d a im mg rm)
  | 2 => guardI (b == 0 && im2 && noSat && rm == 0) (.vredx d a u mg)
  | 3 => guardI (b == 0 && im2 && noSat && rm == 0) (.vredn d a u mg)
  | 4 => guardI (b == 0 && im2 && rmOk rm) (.vscan d a im mg rm)
  | 5 => guardI (d == 0 && b == 0 && c == 0 && rm == 0) (.vmsk mg a)
  | 6 => guardI (a == 0 && rm == 0) (.vins d mg k)
  | 7 => guardI (d == 0 && (rm == 0 || rm == 1)) (.vext mg a k (rm == 1))
  | 8 => guardI (a == 0 && tt && tagIn t 1 10 && rm == 0) (.vspl d mg t) | _ => none

/-- MAJ 0x24, LOM (R263, R264). -/
def decLom (w x1 x2 : IWord) : Option Instr :=
  let d := xD w; let a := xA w; let b := xB w; let c := xC w
  let af : BitVec 4 := x1.extractLsb' 28 4; let bf : BitVec 4 := x1.extractLsb' 24 4
  let ng : BitVec 4 := x1.extractLsb' 16 4; let kg : BitVec 11 := x1.extractLsb' 0 11
  let clear := x2.extractLsb' 31 1 == 1; let colg : BitVec 4 := x2.extractLsb' 8 4; let m1 : BitVec 8 := x2.extractLsb' 0 8
  let row : BitVec 8 := x1.extractLsb' 16 8; let acol : BitVec 4 := x1.extractLsb' 8 4; let ncg : BitVec 4 := x1.extractLsb' 0 4
  let fmt : BitVec 4 := x2.extractLsb' 0 4
  let mulZero := x1.extractLsb' 20 4 == 0 && x1.extractLsb' 11 5 == 0
  let accZero := x1.extractLsb' 24 8 == 0 && x1.extractLsb' 12 4 == 0 && x1.extractLsb' 4 4 == 0
  let dep := x2.extractLsb' 12 19 == 0
  match (xFn w).toNat with
  | 0 => let i := Instr.lmm d a b af bf ng kg clear colg m1; guardI (c == 0 && mulZero && dep && i.wf) i
  | 1 => let i := Instr.lmmg d a b c af bf ng kg clear colg; guardI (mulZero && dep && m1 == 0 && i.wf) i
  | 2 => let i := Instr.lbld d a b bf ng kg; guardI (c == 0 && af == 0 && mulZero && x2 == 0 && i.wf) i
  | 3 => let i := Instr.laclr a row acol ncg; guardI (d == 0 && b == 0 && c == 0 && accZero && x2 == 0 && i.wf) i
  | 4 => let i := Instr.lacp d a row acol ncg fmt; guardI (b == 0 && c == 0 && accZero && x2.extractLsb' 4 28 == 0 && i.wf) i
  | 5 => let i := Instr.lacin d a row acol ncg fmt; guardI (b == 0 && c == 0 && accZero && x2.extractLsb' 4 28 == 0 && i.wf) i
  | 6 => guardI (a == 0 && b == 0 && c == 0 && x1 == 0 && x2 == 0) (.lstat d) | _ => none

/-- MAJ 0x25, PAI (R174). -/
def decPai (w x1 x2 : IWord) : Option Instr :=
  let d := xD w; let a := xA w; let b := xB w; let c := xC w; let z := x1 == 0
  if x2 = 0 then
    match (xFn w).toNat with
    | 0 => guardI (z && d == 0 && b == 0 && c == 0) (.pseed a)
    | 1 => let i := Instr.ptake d a b; guardI (z && c == 0 && i.wf) i
    | 2 => let i := Instr.pload d a (x1.extractLsb' 18 1 == 1) (x1.extractLsb' 16 2) (x1.extractLsb' 8 6) (x1.extractLsb' 0 1 == 1)
           guardI (b == 0 && c == 0 && x1.extractLsb' 19 13 == 0 && x1.extractLsb' 14 2 == 0 && x1.extractLsb' 1 7 == 0 && i.wf) i
    | 3 => let i := Instr.ptest d a b c; guardI (z && i.wf) i
    | 4 => guardI (z && d == 0 && b == 0 && c == 0) (.pfork a) | 5 => guardI (z && d == 0 && a == 0 && b == 0 && c == 0) .pdone
    | 6 => guardI (z && b == 0 && c == 0) (.pqry d a) | _ => none
  else none

/-- MAJ 0x26, LYR (R282). -/
def decLyr (w x1 x2 : IWord) : Option Instr :=
  let d := xD w; let a := xA w; let b := xB w; let c := xC w
  if x1 = 0 && x2 = 0 then
    match (xFn w).toNat with
    | 0 => some (.fins d a b c) | 1 => some (.lres d a b c) | 2 => some (.lclr d a b c)
    | 3 => guardI (c == 0) (.lcnt d a b) | 4 => guardI (b == 0 && c == 0) (.lpool d a) | _ => none
  else none

/-- MAJ 0x27, ACT (R319). -/
def decAct (w x1 x2 : IWord) : Option Instr :=
  let d := xD w; let a := xA w; let b := xB w; let c := xC w
  if x1 = 0 && x2 = 0 then
    match (xFn w).toNat with
    | 0 => guardI (a == 0 && b == 0 && c == 0) (.abegin d) | 1 => guardI (d == 0) (.apush a b c)
    | 2 => guardI (d == 0 && a == 0 && b == 0 && c == 0) .acommit | 3 => guardI (d == 0 && a == 0 && b == 0 && c == 0) .aabandon
    | 4 => guardI (d == 0 && a == 0 && b == 0 && c == 0) .aret | 5 => guardI (b == 0 && c == 0) (.aqry d a)
    | 6 => guardI (b == 0 && decide (c.toNat ≤ 2)) (.afix d a c) | _ => none
  else none

/-- MAJ 0x28, CPY: format R with LEN 00, format X with LEN 01 (R57). -/
def decCpy (w x1 x2 : IWord) : Option Instr :=
  match (fLen w).toNat with
  | 0 =>
    if fW w = 0 && fB w = 0 then
      match (fFn w).toNat with
      | 0 => guardI (fA w == 0 && decide ((fD w).toNat ≤ 11)) (.cpset (fD w) (fC w))
      | 2 => guardI (fA w == 0 && fC w == 0) (.cpgo (fD w)) | 3 => guardI (fA w == 0 && fC w == 0) (.cptry (fD w))
      | 4 => guardI (fC w == 0) (.cpq (fD w) (fA w)) | 5 => guardI (fC w == 0) (.cpcan (fD w) (fA w)) | _ => none
    else none
  | 1 => guardI (xFn w == 1 && xA w == 0 && xB w == 0 && xC w == 0 && decide ((xD w).toNat ≤ 11)) (.cpseti (xD w) (literal x1 x2))
  | _ => none

/-- MAJ 0x3E, a prefix word (R60). -/
def decPfx (w : IWord) : Option Instr :=
  if fLen w = 0 && pZero w = 0 then
    match (fD w).toNat with
    | 1 => some (.rel (pOrd w)) | 2 => guardI (pOrd w == 0) .far | _ => none
  else none

/-- A form of one word: LEN 00 only (R55). -/
def lone (w : IWord) (r : Option Instr) : Option Instr := if fLen w = 0 then r else none
/-- A form of three words with two extended words: LEN 01 only (R55). -/
def ext (w : IWord) (r : Option Instr) : Option Instr := if fLen w = 1 then r else none

/-- The instruction of a first word and the two words after it, or none where R64 says ILLEGAL: a reserved major, a
LEN the major does not accept, a reserved code, or a reserved field that is not zero. -/
def decodeInstr (w x1 x2 : IWord) : Option Instr :=
  match (fMaj w).toNat with
  | 0x01 => lone w (decIop w)
  | 0x02 => decImm (.addi (fD w) (fA w)) (.addiLiteral (fD w) (fA w)) w x1 x2
  | 0x03 => decImm (.andi (fD w) (fA w)) (.andiLiteral (fD w) (fA w)) w x1 x2
  | 0x04 => decImm (.ori (fD w) (fA w)) (.oriLiteral (fD w) (fA w)) w x1 x2
  | 0x05 => decImm (.xori (fD w) (fA w)) (.xoriLiteral (fD w) (fA w)) w x1 x2
  | 0x06 => lone w (decShi w)
  | 0x07 => decImm (.slti (fD w) (fA w)) (.sltiLiteral (fD w) (fA w)) w x1 x2
  | 0x08 => if fA w = 0 then decImm (.movi (fD w)) (.moviLiteral (fD w)) w x1 x2 else none
  | 0x09 => lone w (decBit w)
  | 0x0A => lone w (decBr w)
  | 0x0B => lone w (some (.call (fDisp24 w)))
  | 0x0C => lone w (decJmp w)
  | 0x0D => decLd w x1 x2
  | 0x0E => decSt w x1 x2
  | 0x0F => decSld w x1 x2
  | 0x10 => decSst w x1 x2
  | 0x11 => lone w (decAmo w)
  | 0x12 => lone w (decDup w)
  | 0x13 => lone w (decOrd w)
  | 0x14 => lone w (decChn w)
  | 0x15 => lone w (decThr w)
  | 0x16 => lone w (decGrp w)
  | 0x17 => lone w (decSys w)
  | 0x18 => lone w (decSub w)
  | 0x19 => lone w (decLch w)
  | 0x1A => lone w (decTrp w)
  | 0x1B => lone w (decFop w)
  | 0x20 => lone w (decVar w)
  | 0x21 => lone w (decVls w)
  | 0x22 => lone w (decVcv w)
  | 0x23 => lone w (decVpr w)
  | 0x24 => ext w (decLom w x1 x2)
  | 0x25 => ext w (decPai w x1 x2)
  | 0x26 => ext w (decLyr w x1 x2)
  | 0x27 => ext w (decAct w x1 x2)
  | 0x28 => decCpy w x1 x2
  | 0x3E => decPfx w
  | _ => none

/-- The word of four bytes, lowest address first (R8). -/
def wordOfBytes (b : List Byte) : IWord := BitVec.ofNat 32 (ofLeBytes (b.map BitVec.toNat))

/-- The decoder on bytes as they lie in memory: total, and none where the first word is no instruction. Bytes that are
missing read as zero. -/
def decodeBytes (b : List Byte) : Option Instr :=
  decodeInstr (wordOfBytes (b.take 4)) (wordOfBytes ((b.drop 4).take 4)) (wordOfBytes ((b.drop 8).take 4))

/-- The bytes of an instruction whose bits are `w`, numbered with bit 0 the least significant of the first word: five
words, every bit from `nbits` up zero. -/
def tableBytes (nbits w : Nat) : List Byte := (leBytes (w % 2 ^ nbits) 20).map (BitVec.ofNat 8)

/-- The instruction the decoder reads from a row of the opcode table. -/
def decodeTableWord (nbits w : Nat) : Option Instr := decodeBytes (tableBytes nbits w)

/-! ### Which prefixes an instruction accepts (R61) -/

/-- The loads of R61: REL only together with FAR. -/
def Instr.isFarLoad : Instr → Bool
  | .ld .. | .ldLiteral .. | .ldSigned .. | .ldSignedLiteral .. | .ldf .. | .ldfLiteral .. | .lde .. | .ldeLiteral ..
  | .feq .. | .feqLiteral .. => true
  | _ => false

/-- The stores, atomics and deferred updates of R61: REL, and not FAR. -/
def Instr.isRelOp : Instr → Bool
  | .st .. | .stLiteral .. | .stf .. | .stfLiteral .. | .stw .. | .stwLiteral .. | .fec .. | .fecLiteral ..
  | .aadd .. | .aand .. | .aor .. | .axor .. | .amins .. | .amaxs .. | .aminn .. | .amaxn .. | .aswap .. | .acas ..
  | .afadd .. | .afmin .. | .afmax ..
  | .dadd .. | .dfadd .. | .dmins .. | .dmaxs .. | .dfmin .. | .dfmax .. | .dor .. | .dstore .. => true
  | _ => false

/-- `Accepts(i, k)` for the prefixes of a unit together: whether the instruction takes them all (R61, R64). -/
def Instr.accepts (i : Instr) (rel far : Bool) : Bool :=
  if i.isFarLoad then (!rel || far) else if i.isRelOp then !far else !rel && !far

/-- Prefix words are instructions of the table that only a later word completes. -/
def Instr.isPfx : Instr → Bool
  | .rel _ | .far => true
  | _ => false

/-- Supervisor-level at every use (R64, R282). -/
def Instr.supvOnly : Instr → Bool
  | .lpool .. => true
  | _ => false

/-! ### The encoder -/

def packR (maj : BitVec 6) (d a b : Reg) (fn : BitVec 6) (w : BitVec 2) (c : Reg) : IWord :=
  (0 : BitVec 2) ++ maj ++ d ++ a ++ b ++ fn ++ w ++ c
def packI (len : BitVec 2) (maj : BitVec 6) (d a : Reg) (imm : BitVec 16) : IWord := len ++ maj ++ d ++ a ++ imm
def packM (len : BitVec 2) (maj : BitVec 6) (d a : Reg) (sz op : BitVec 2) (off : BitVec 12) : IWord :=
  len ++ maj ++ d ++ a ++ sz ++ op ++ off
def packV (maj : BitVec 6) (vd va vb vc : VReg) (fn : BitVec 6) (mg : Reg) (rm : BitVec 2) : IWord :=
  (0 : BitVec 2) ++ maj ++ vd ++ va ++ vb ++ vc ++ fn ++ mg ++ rm
def packVM (maj : BitVec 6) (v : VReg) (a b : Reg) (fn : BitVec 5) (mg : Reg) (off : BitVec 4) : IWord :=
  (0 : BitVec 2) ++ maj ++ v ++ a ++ b ++ fn ++ mg ++ off
def packX (maj : BitVec 6) (xfn : BitVec 8) (d a b c : Reg) : IWord :=
  (1 : BitVec 2) ++ maj ++ xfn ++ d ++ a ++ b ++ c

def wBit (w : Bool) : BitVec 2 := if w then 1 else 0
def bit1 (b : Bool) : BitVec 1 := if b then 1 else 0

/-- The two words of a literal (R49). -/
def litWords (l : Word) : List IWord := [l.extractLsb' 0 32, l.extractLsb' 32 32]

def encIop (fn : BitVec 6) (d a b : Reg) (w : Bool) : List IWord := [packR 0x01 d a b fn (wBit w) 0]
def encI (maj : BitVec 6) (d a : Reg) (i : BitVec 16) : List IWord := [packI 0 maj d a i]
def encIL (maj : BitVec 6) (d a : Reg) (l : Word) : List IWord := packI 2 maj d a 0 :: litWords l
def encShi (k2 : BitVec 2) (d a : Reg) (k : BitVec 6) : List IWord := [packI 0 0x06 d a (k2 ++ (0 : BitVec 8) ++ k)]
def encM (maj : BitVec 6) (op : BitVec 2) (d a : Reg) (sz : BitVec 2) (off : BitVec 12) : List IWord := [packM 0 maj d a sz op off]
def encML (maj : BitVec 6) (op : BitVec 2) (d a : Reg) (sz : BitVec 2) (l : Word) : List IWord :=
  packM 2 maj d a sz op 0 :: litWords l
def encR (maj fn : BitVec 6) (d a b c : Reg) (w : BitVec 2) : List IWord := [packR maj d a b fn w c]
def encFop (fn : BitVec 6) (d a b : Reg) (dbl : Bool) (c : Reg) : List IWord := [packR 0x1B d a b fn (wBit dbl) c]
def encVar (fn : BitVec 6) (vd va vb vc : VReg) (mg : Reg) (rm : BitVec 2) : List IWord := [packV 0x20 vd va vb vc fn mg rm]
def encX (maj : BitVec 6) (xfn : BitVec 8) (d a b c : Reg) (x1 x2 : IWord) : List IWord := [packX maj xfn d a b c, x1, x2]
/-- IMODE as the field VC (R234). -/
def imVc (im : BitVec 2) : VReg := (0 : BitVec 1) ++ im
def uVc (u : Bool) : VReg := (0 : BitVec 2) ++ bit1 u
def satVc (sat : Bool) : VReg := (0 : BitVec 1) ++ bit1 sat ++ (0 : BitVec 1)
/-- Bits 17:12 as the fields VB and VC (R245, R250). -/
def hiVb (k : BitVec 6) : VReg := k.extractLsb' 3 3
def loVc (k : BitVec 6) : VReg := k.extractLsb' 0 3
def rfC (rf : BitVec 2) : Reg := (0 : BitVec 2) ++ rf
/-- Word 1 of a multiply or LBLD (R264). -/
def loomW1 (af bf ng : BitVec 4) (kg : BitVec 11) : IWord := af ++ bf ++ (0 : BitVec 4) ++ ng ++ (0 : BitVec 5) ++ kg
def loomW2 (clear : Bool) (colg : BitVec 4) (m1 : BitVec 8) : IWord := bit1 clear ++ (0 : BitVec 19) ++ colg ++ m1
def accW1 (row : BitVec 8) (colg ncg : BitVec 4) : IWord := (0 : BitVec 8) ++ row ++ (0 : BitVec 4) ++ colg ++ (0 : BitVec 4) ++ ncg

/-- The words of a well-formed instruction, from the tables of R51-R57 and of each chapter; an event has none. -/
def encode : Instr → List IWord
  | .add d a b w => encIop 0 d a b w | .sub d a b w => encIop 1 d a b w | .and_ d a b w => encIop 2 d a b w
  | .or_ d a b w => encIop 3 d a b w | .xor d a b w => encIop 4 d a b w | .andn d a b w => encIop 5 d a b w
  | .shl d a b w => encIop 6 d a b w | .shr d a b w => encIop 7 d a b w | .sar d a b w => encIop 8 d a b w
  | .rol d a b w => encIop 9 d a b w | .mul d a b w => encIop 10 d a b w | .mulhs d a b w => encIop 11 d a b w
  | .mulhn d a b w => encIop 12 d a b w | .divs d a b w => encIop 13 d a b w | .divn d a b w => encIop 14 d a b w
  | .rems d a b w => encIop 15 d a b w | .remn d a b w => encIop 16 d a b w | .mins d a b w => encIop 17 d a b w
  | .maxs d a b w => encIop 18 d a b w | .minn d a b w => encIop 19 d a b w | .maxn d a b w => encIop 20 d a b w
  | .slts d a b w => encIop 21 d a b w | .sltn d a b w => encIop 22 d a b w | .seq d a b w => encIop 23 d a b w
  | .sne d a b w => encIop 24 d a b w
  | .addi d a i => encI 0x02 d a i | .addiLiteral d a l => encIL 0x02 d a l
  | .andi d a i => encI 0x03 d a i | .andiLiteral d a l => encIL 0x03 d a l
  | .ori d a i => encI 0x04 d a i | .oriLiteral d a l => encIL 0x04 d a l
  | .xori d a i => encI 0x05 d a i | .xoriLiteral d a l => encIL 0x05 d a l
  | .slti d a i => encI 0x07 d a i | .sltiLiteral d a l => encIL 0x07 d a l
  | .movi d i => encI 0x08 d 0 i | .moviLiteral d l => encIL 0x08 d 0 l
  | .shli d a k => encShi 0 d a k | .shri d a k => encShi 1 d a k | .sari d a k => encShi 2 d a k | .roli d a k => encShi 3 d a k
  | .popc d a => encR 0x09 0 d a 0 0 0 | .clz d a => encR 0x09 1 d a 0 0 0 | .ctz d a => encR 0x09 2 d a 0 0 0
  | .brev d a => encR 0x09 3 d a 0 0 0 | .bswap d a => encR 0x09 4 d a 0 0 0 | .bfxs d a b => encR 0x09 5 d a b 0 0
  | .bfxn d a b => encR 0x09 6 d a b 0 0 | .bfi d a b => encR 0x09 7 d a b 0 0 | .sel d a b c => encR 0x09 8 d a b c 0
  | .br disp => encI 0x0A 0 0 disp | .beqz a disp => encI 0x0A a 1 disp | .bnez a disp => encI 0x0A a 2 disp
  | .bltz a disp => encI 0x0A a 3 disp | .bgez a disp => encI 0x0A a 4 disp | .bgtz a disp => encI 0x0A a 5 disp
  | .blez a disp => encI 0x0A a 6 disp
  | .call disp => [(0 : BitVec 2) ++ (0x0B : BitVec 6) ++ disp]
  | .jmpr a => encR 0x0C 0 0 a 0 0 0 | .callr a => encR 0x0C 1 0 a 0 0 0 | .ret => encR 0x0C 2 0 0 0 0 0
  | .ld d a sz off => encM 0x0D 0 d a sz off | .ldLiteral d a sz l => encML 0x0D 0 d a sz l
  | .ldSigned d a sz off => encM 0x0D 2 d a sz off | .ldSignedLiteral d a sz l => encML 0x0D 2 d a sz l
  | .st d a sz off => encM 0x0E 0 d a sz off | .stLiteral d a sz l => encML 0x0E 0 d a sz l
  | .ldf d a sz off => encM 0x0F 0 d a sz off | .ldfLiteral d a sz l => encML 0x0F 0 d a sz l
  | .lde d a sz off => encM 0x0F 1 d a sz off | .ldeLiteral d a sz l => encML 0x0F 1 d a sz l
  | .feq d a off => encM 0x0F 2 d a 3 off | .feqLiteral d a l => encML 0x0F 2 d a 3 l
  | .stf d a sz off => encM 0x10 0 d a sz off | .stfLiteral d a sz l => encML 0x10 0 d a sz l
  | .stw d a sz off => encM 0x10 1 d a sz off | .stwLiteral d a sz l => encML 0x10 1 d a sz l
  | .fec a off => encM 0x10 2 0 a 3 off | .fecLiteral a l => encML 0x10 2 0 a 3 l
  | .aadd d a b w => encR 0x11 0 d a b 0 (wBit w) | .aand d a b w => encR 0x11 1 d a b 0 (wBit w)
  | .aor d a b w => encR 0x11 2 d a b 0 (wBit w) | .axor d a b w => encR 0x11 3 d a b 0 (wBit w)
  | .amins d a b w => encR 0x11 4 d a b 0 (wBit w) | .amaxs d a b w => encR 0x11 5 d a b 0 (wBit w)
  | .aminn d a b w => encR 0x11 6 d a b 0 (wBit w) | .amaxn d a b w => encR 0x11 7 d a b 0 (wBit w)
  | .aswap d a b w => encR 0x11 8 d a b 0 (wBit w) | .acas d a b c w => encR 0x11 9 d a b c (wBit w)
  | .afadd d a b w => encR 0x11 10 d a b 0 (wBit w) | .afmin d a b w => encR 0x11 11 d a b 0 (wBit w)
  | .afmax d a b w => encR 0x11 12 d a b 0 (wBit w)
  | .dadd a b c w => encR 0x12 0 0 a b c (wBit w) | .dfadd a b c => encR 0x12 1 0 a b c 1
  | .dmins a b c w => encR 0x12 2 0 a b c (wBit w) | .dmaxs a b c w => encR 0x12 3 0 a b c (wBit w)
  | .dfmin a b c => encR 0x12 4 0 a b c 1 | .dfmax a b c => encR 0x12 5 0 a b c 1
  | .dor a b c w => encR 0x12 6 0 a b c (wBit w) | .dstore a b c sz => encR 0x12 7 0 a b c sz
  | .fence => encR 0x13 0 0 0 0 0 0 | .drain => encR 0x13 1 0 0 0 0 0 | .waita => encR 0x13 2 0 0 0 0 0
  | .send a b n1 => encR 0x14 0 0 a b ((0 : BitVec 1) ++ n1) 0 | .recv d a => encR 0x14 1 d a 0 0 0
  | .recvt d a c => encR 0x14 2 d a 0 c 0 | .chq d a => encR 0x14 3 d a 0 0 0 | .chbind d a b => encR 0x14 4 d a b 0 0
  | .spawn d a b c => encR 0x15 0 d a b c 0 | .reap d a => encR 0x15 1 d a 0 0 0 | .exit a => encR 0x15 2 0 a 0 0 0
  | .yield => encR 0x15 3 0 0 0 0 0 | .sleep a => encR 0x15 4 0 a 0 0 0 | .migr d a => encR 0x15 5 d a 0 0 0
  | .ckpt k => [(0 : BitVec 2) ++ (0x15 : BitVec 6) ++ k ++ (6 : BitVec 6) ++ (0 : BitVec 6)]
  | .gbar a => encR 0x16 0 0 a 0 0 0 | .garr a => encR 0x16 1 0 a 0 0 0 | .gwait a => encR 0x16 2 0 a 0 0 0
  | .gqry d a => encR 0x16 3 d a 0 0 0 | .ply a => encR 0x16 4 0 a 0 0 0
  | .srd d sr => [(0 : BitVec 2) ++ (0x17 : BitVec 6) ++ d ++ sr ++ (0 : BitVec 6) ++ (0 : BitVec 6)]
  | .swr sr c => [(0 : BitVec 2) ++ (0x17 : BitVec 6) ++ (0 : BitVec 4) ++ sr ++ (1 : BitVec 6) ++ (0 : BitVec 2) ++ c]
  | .subon a b c => encR 0x18 0 0 a b c 0 | .suboff a => encR 0x18 1 0 a 0 0 0 | .subq d a => encR 0x18 2 d a 0 0 0
  | .subfl => encR 0x18 3 0 0 0 0 0
  | .launch d a b => encR 0x19 0 d a b 0 0 | .lqry d a => encR 0x19 1 d a 0 0 0
  | .trap n b => [(0 : BitVec 2) ++ (0x1A : BitVec 6) ++ n ++ b ++ (0 : BitVec 6) ++ (0 : BitVec 6)]
  | .brk n => [(0 : BitVec 2) ++ (0x1A : BitVec 6) ++ n ++ (0 : BitVec 4) ++ (1 : BitVec 6) ++ (0 : BitVec 6)]
  | .resume d a mode => encR 0x1A 2 d a 0 mode 0 | .idle => encR 0x1A 3 0 0 0 0 0
  | .fadd d a b n rf => encFop 0 d a b n (rfC rf) | .fsub d a b n rf => encFop 1 d a b n (rfC rf)
  | .fmul d a b n rf => encFop 2 d a b n (rfC rf) | .ffma d a b n rf => encFop 3 d a b n (rfC rf)
  | .fdiv d a b n rf => encFop 4 d a b n (rfC rf) | .fsqrt d a n rf => encFop 5 d a 0 n (rfC rf)
  | .fmin d a b n => encFop 6 d a b n 0 | .fmax d a b n => encFop 7 d a b n 0 | .fminm d a b n => encFop 8 d a b n 0
  | .fmaxm d a b n => encFop 9 d a b n 0 | .fabs d a n => encFop 10 d a 0 n 0 | .fneg d a n => encFop 11 d a 0 n 0
  | .fceq d a b n => encFop 12 d a b n 0 | .fclt d a b n => encFop 13 d a b n 0 | .fcle d a b n => encFop 14 d a b n 0
  | .fcun d a b n => encFop 15 d a b n 0 | .fcvt d a k cf => encFop 16 d a k false cf | .frnd d a n cf => encFop 17 d a 0 n cf
  | .vadd vd va vb im mg rm => encVar 0 vd va vb (imVc im) mg rm | .vsub vd va vb im mg rm => encVar 1 vd va vb (imVc im) mg rm
  | .vmul vd va vb im mg rm => encVar 2 vd va vb (imVc im) mg rm | .vfma vd va vb vc mg rm => encVar 3 vd va vb vc mg rm
  | .vmin vd va vb u mg => encVar 4 vd va vb (uVc u) mg 0 | .vmax vd va vb u mg => encVar 5 vd va vb (uVc u) mg 0
  | .vminm vd va vb mg => encVar 6 vd va vb 0 mg 0 | .vmaxm vd va vb mg => encVar 7 vd va vb 0 mg 0
  | .vabs vd va sat mg => encVar 8 vd va 0 (satVc sat) mg 0 | .vneg vd va sat mg => encVar 9 vd va 0 (satVc sat) mg 0
  | .vdiv vd va vb mg rm => encVar 10 vd va vb 0 mg rm | .vsqrt vd va mg rm => encVar 11 vd va 0 0 mg rm
  | .vrcp vd va mg rm => encVar 12 vd va 0 0 mg rm | .vrsq vd va mg rm => encVar 13 vd va 0 0 mg rm
  | .vexp2 vd va mg rm => encVar 14 vd va 0 0 mg rm | .vlog2 vd va mg rm => encVar 15 vd va 0 0 mg rm
  | .vsin vd va mg rm => encVar 16 vd va 0 0 mg rm | .vcos vd va mg rm => encVar 17 vd va 0 0 mg rm
  | .vand vd va vb mg => encVar 18 vd va vb 0 mg 0 | .vor vd va vb mg => encVar 19 vd va vb 0 mg 0
  | .vxor vd va vb mg => encVar 20 vd va vb 0 mg 0 | .vshl vd va vb mg => encVar 21 vd va vb 0 mg 0
  | .vshr vd va vb mg => encVar 22 vd va vb 0 mg 0 | .vsar vd va vb mg => encVar 23 vd va vb 0 mg 0
  | .vceq vd va vb mg => encVar 24 vd va vb 0 mg 0 | .vclt vd va vb u mg => encVar 25 vd va vb (uVc u) mg 0
  | .vcle vd va vb u mg => encVar 26 vd va vb (uVc u) mg 0 | .vsel vd va vb vc mg => encVar 27 vd va vb vc mg 0
  | .vld v a t mg off => [packVM 0x21 v a t 0 mg off] | .vst v a mg off => [packVM 0x21 v a 0 1 mg off]
  | .vlds v a b mg t => [packVM 0x21 v a b 2 mg t] | .vsts v a b mg => [packVM 0x21 v a b 3 mg 0]
  | .vldb v a b f => [packVM 0x21 v a b 4 0 ((0 : BitVec 2) ++ f)] | .vstb v a b => [packVM 0x21 v a b 5 0 0]
  | .vgath v a t mg vi => [packVM 0x21 v a t 6 mg ((0 : BitVec 1) ++ vi)]
  | .vscat v a mg vi => [packVM 0x21 v a 0 7 mg ((0 : BitVec 1) ++ vi)] | .vbcst v a t mg off => [packVM 0x21 v a t 8 mg off]
  | .vcvt vd va n t mg rm => let k := (0 : BitVec 1) ++ bit1 n ++ t; [packV 0x22 vd va (hiVb k) (loVc k) 0 mg rm]
  | .vqnt vd va vb f h => [packV 0x22 vd va vb (bit1 h ++ f) 1 0 0]
  | .vdq vd va blk f16 mg => [packV 0x22 vd va 0 (bit1 f16 ++ blk) 2 mg 0]
  | .vtag vd va t => let k := (0 : BitVec 2) ++ t; [packV 0x22 vd va (hiVb k) (loVc k) 3 0 0]
  | .vtagq vd va => [packV 0x22 vd va 0 0 4 0 0]
  | .vperm vd va vb mg => [packV 0x23 vd va vb 0 0 mg 0] | .vreda vd va im mg rm => [packV 0x23 vd va 0 (imVc im) 1 mg rm]
  | .vredx vd va u mg => [packV 0x23 vd va 0 (uVc u) 2 mg 0] | .vredn vd va u mg => [packV 0x23 vd va 0 (uVc u) 3 mg 0]
  | .vscan vd va im mg rm => [packV 0x23 vd va 0 (imVc im) 4 mg rm] | .vmsk g va => [packV 0x23 0 va 0 0 5 g 0]
  | .vins vd g k => [packV 0x23 vd 0 (hiVb k) (loVc k) 6 g 0]
  | .vext g va k sx => [packV 0x23 0 va (hiVb k) (loVc k) 7 g (wBit sx)]
  | .vspl vd g t => let k := (0 : BitVec 2) ++ t; [packV 0x23 vd 0 (hiVb k) (loVc k) 8 g 0]
  | .lmm d a b af bf ng kg clear colg m1 => encX 0x24 0 d a b 0 (loomW1 af bf ng kg) (loomW2 clear colg m1)
  | .lmmg d a b c af bf ng kg clear colg => encX 0x24 1 d a b c (loomW1 af bf ng kg) (loomW2 clear colg 0)
  | .lbld d a b bf ng kg => encX 0x24 2 d a b 0 (loomW1 0 bf ng kg) 0
  | .laclr a row colg ncg => encX 0x24 3 0 a 0 0 (accW1 row colg ncg) 0
  | .lacp d a row colg ncg fmt => encX 0x24 4 d a 0 0 (accW1 row colg ncg) ((0 : BitVec 28) ++ fmt)
  | .lacin d a row colg ncg fmt => encX 0x24 5 d a 0 0 (accW1 row colg ncg) ((0 : BitVec 28) ++ fmt)
  | .lstat d => encX 0x24 6 d 0 0 0 0 0
  | .pseed a => encX 0x25 0 0 a 0 0 0 0 | .ptake d a b => encX 0x25 1 d a b 0 0 0
  | .pload d a sx sz off treeB =>
    encX 0x25 2 d a 0 0 ((0 : BitVec 13) ++ bit1 sx ++ sz ++ (0 : BitVec 2) ++ off ++ (0 : BitVec 7) ++ bit1 treeB) 0
  | .ptest d a b c => encX 0x25 3 d a b c 0 0 | .pfork a => encX 0x25 4 0 a 0 0 0 0 | .pdone => encX 0x25 5 0 0 0 0 0 0
  | .pqry d a => encX 0x25 6 d a 0 0 0 0
  | .fins d a b c => encX 0x26 0 d a b c 0 0 | .lres d a b c => encX 0x26 1 d a b c 0 0 | .lclr d a b c => encX 0x26 2 d a b c 0 0
  | .lcnt d a b => encX 0x26 3 d a b 0 0 0 | .lpool d a => encX 0x26 4 d a 0 0 0 0
  | .abegin d => encX 0x27 0 d 0 0 0 0 0 | .apush a b c => encX 0x27 1 0 a b c 0 0 | .acommit => encX 0x27 2 0 0 0 0 0 0
  | .aabandon => encX 0x27 3 0 0 0 0 0 0 | .aret => encX 0x27 4 0 0 0 0 0 0 | .aqry d a => encX 0x27 5 d a 0 0 0 0
  | .afix d a mode => encX 0x27 6 d a 0 mode 0 0
  | .cpset sr c => encR 0x28 0 sr 0 0 c 0
  | .cpseti sr l => packX 0x28 1 sr 0 0 0 :: litWords l
  | .cpgo d => encR 0x28 2 d 0 0 0 0 | .cptry d => encR 0x28 3 d 0 0 0 0 | .cpq d a => encR 0x28 4 d a 0 0 0
  | .cpcan d a => encR 0x28 5 d a 0 0 0
  | .rel ord => [(0 : BitVec 2) ++ (0x3E : BitVec 6) ++ (1 : BitVec 4) ++ ord ++ (0 : BitVec 18)]
  | .far => [(0 : BitVec 2) ++ (0x3E : BitVec 6) ++ (2 : BitVec 4) ++ (0 : BitVec 2) ++ (0 : BitVec 18)]
  | _ => []

/-- The decoder on a list of words, as the encoder writes them; words that are missing read as zero. -/
def decodeWords : List IWord → Option Instr
  | [] => none
  | w :: x => decodeInstr w (x.getD 0 0) (x.getD 1 0)

end Sys2Proof
end

