-- ==== Sys2Proof/Machine/Float.lean ====
section
/-!
DEFINITION. Floating formats as exact values and back (R10, R205-R207), rounding (R11), and the transcendental functions of
R238. A finite value is (-1)^neg · m · 2^e; where a result is no dyadic number its last bit is kept odd, so that it
rounds in every mode as the exact value does.
-/
namespace Sys2Proof.Machine

/-! ### Values -/

/-- A value as pseudocode takes it (R10): a NaN with its signalling mark, an infinity, or a finite dyadic number. -/
inductive Fl where
  | nan (sig : Bool)
  | inf (neg : Bool)
  | fin (neg : Bool) (m : Nat) (e : Int)
  deriving DecidableEq, Repr

def Fl.isNaN : Fl → Bool | .nan _ => true | _ => false
def Fl.isSNaN : Fl → Bool | .nan s => s | _ => false
def Fl.isInf : Fl → Bool | .inf _ => true | _ => false
def Fl.isZero : Fl → Bool | .fin _ 0 _ => true | _ => false
def Fl.isFin : Fl → Bool | .fin .. => true | _ => false
/-- `Sign(x)` of R11. -/
def Fl.neg : Fl → Bool | .nan _ => false | .inf n => n | .fin n _ _ => n
def Fl.zero (n : Bool) : Fl := .fin n 0 0
def Fl.one : Fl := .fin false 1 0
def Fl.negate : Fl → Fl
  | .nan s => .nan s | .inf n => .inf (!n) | .fin n m e => .fin (!n) m e
def Fl.abs : Fl → Fl
  | .nan s => .nan s | .inf _ => .inf false | .fin _ m e => .fin false m e
/-- An integer as a value. -/
def Fl.ofInt (i : Int) : Fl := .fin (decide (i < 0)) i.natAbs 0

/-- The four rounding modes by CPROF.RM's codes (R96): 0 RNE, 1 RTZ, 2 RDN, 3 RUP. -/
abbrev Rnd := Nat

/-! ### Formats (R205) -/

/-- A floating format: exponent bits, mantissa bits, and which special codes it has. -/
structure Fmt where
  eb : Nat
  mb : Nat
  /-- 0: IEEE specials; 1: E4M3's single NaN and no infinity; 2: E5M2, whose NaNs are all quiet. -/
  special : Nat := 0
  deriving DecidableEq, Repr

def fp64 : Fmt := { eb := 11, mb := 52 }
def fp32 : Fmt := { eb := 8, mb := 23 }
def fp16 : Fmt := { eb := 5, mb := 10 }
def bf16 : Fmt := { eb := 8, mb := 7 }
def e4m3 : Fmt := { eb := 4, mb := 3, special := 1 }
def e5m2 : Fmt := { eb := 5, mb := 2, special := 2 }

def Fmt.bits (f : Fmt) : Nat := f.eb + f.mb + 1
def Fmt.bias (f : Fmt) : Nat := 2 ^ (f.eb - 1) - 1
/-- The exponent of the smallest normal number. -/
def Fmt.emin (f : Fmt) : Int := 1 - (f.bias : Int)
/-- The magnitude code of the largest finite value. -/
def Fmt.maxFin (f : Fmt) : Nat := if f.special = 1 then 0x7E else (2 ^ f.eb - 1) * 2 ^ f.mb - 1
def Fmt.infCode (f : Fmt) : Nat := (2 ^ f.eb - 1) * 2 ^ f.mb
/-- `CanonicalNaN(F)` (R11, R205). -/
def Fmt.nan (f : Fmt) : Nat :=
  if f.special = 1 then 0x7F else if f.special = 2 then 0x7E else f.infCode + 2 ^ (f.mb - 1)

/-- The value of a code (R205). -/
def Fmt.decode (f : Fmt) (bits : Nat) : Fl :=
  let x := bits % 2 ^ f.bits
  let neg := x / 2 ^ (f.eb + f.mb) == 1
  let mag := x % 2 ^ (f.eb + f.mb)
  let e := mag / 2 ^ f.mb
  let m := mag % 2 ^ f.mb
  if f.special = 1 && mag == 0x7F then .nan false
  else if f.special != 1 && e == 2 ^ f.eb - 1 then
    if m == 0 then .inf neg else .nan (f.special == 0 && m < 2 ^ (f.mb - 1))
  else if e == 0 then .fin neg m (f.emin - (f.mb : Int))
  else .fin neg (2 ^ f.mb + m) ((e : Int) - (f.bias : Int) - (f.mb : Int))

/-- A code with a sign. -/
def Fmt.withSign (f : Fmt) (neg : Bool) (mag : Nat) : Nat := (if neg then 2 ^ (f.eb + f.mb) else 0) + mag

/-- A code is a subnormal: exponent field 0 and mantissa not 0. -/
def Fmt.isSub (f : Fmt) (bits : Nat) : Bool :=
  let mag := bits % 2 ^ (f.eb + f.mb)
  mag != 0 && mag < 2 ^ f.mb

/-- `m · 2^e` as a multiple of `2^q`, rounded by `rm` for the sign `neg`: the multiple, and whether it is inexact. -/
def quantize (rm : Rnd) (neg : Bool) (m : Nat) (e q : Int) : Nat × Bool :=
  if q ≤ e then (m <<< (e - q).toNat, false)
  else
    let k := (q - e).toNat
    let n := m >>> k
    let r := m - n <<< k
    if r = 0 then (n, false)
    else
      let half := 1 <<< (k - 1)
      let up :=
        match rm with
        | 0 => decide (half < r) || (r == half && n % 2 == 1)
        | 1 => false
        | 2 => neg
        | _ => !neg
      (if up then n + 1 else n, true)

/-- Sticky flags as FSTAT bits (R97). -/
def flNX : Nat := 1
def flUF : Nat := 2
def flOF : Nat := 4
def flDZ : Nat := 8
def flNV : Nat := 16
def flSAT : Nat := 32
def flSUBERR : Nat := 64

/-- `Round(x, F, m)` of R11 with the flags of R79: the code, and OF, UF and NX. Subnormal results are kept; a NaN gives the
canonical NaN. -/
def Fmt.round (f : Fmt) (rm : Rnd) : Fl → Nat × Nat
  | .nan _ => (f.nan, 0)
  | .inf n => (f.withSign n (if f.special = 1 then f.maxFin else f.infCode), 0)
  | .fin n m e =>
    if m = 0 then (f.withSign n 0, 0)
    else
      let ex : Int := (Nat.log2 m : Int) + e
      let q := max ex f.emin - (f.mb : Int)
      let (k, inx) := quantize rm n m e q
      -- the exponent field and mantissa of k · 2^q in one number
      let mag := if k < 2 ^ f.mb then k else k - 2 ^ f.mb + ((q + (f.mb : Int) + (f.bias : Int)).toNat) * 2 ^ f.mb
      let tiny := decide (ex < f.emin) &&
        (let (k', _) := quantize rm n m e (ex - (f.mb : Int))
         decide (k' < 2 ^ (f.mb + 1)) || decide (ex + 1 < f.emin))
      if f.maxFin < mag then
        let toInf := match rm with | 0 => true | 1 => false | 2 => n | _ => !n
        (f.withSign n (if toInf && f.special != 1 then f.infCode else f.maxFin), flOF + flNX)
      else (f.withSign n mag, if inx then (if tiny then flUF + flNX else flNX) else 0)

/-- `RoundSat(x, F)` of R11: nearest even, and the largest finite value where a finite value would exceed it. -/
def Fmt.roundSat (f : Fmt) : Fl → Nat
  | .fin n m e =>
    let r := f.round 0 (.fin n m e)
    if r.2 &&& flOF = 0 then r.1 else f.withSign n f.maxFin
  | x => (f.round 0 x).1

/-- Into E4M3 or E5M2 (R206): the code and the flags that VCVT alone sets. -/
def Fmt.narrow (f : Fmt) : Fl → Nat × Nat
  | .nan s => (f.nan, if s then flNV else 0)
  | .inf n => (f.withSign n (if f.special = 1 then f.maxFin else f.infCode), if f.special = 1 then flNX else 0)
  | x => (f.roundSat x, (f.round 0 x).2)

/-! ### Exact operations (R10): NV and DZ with the value -/

/-- A sum of two finite values. -/
def addFin (rm : Rnd) (an : Bool) (am : Nat) (ae : Int) (bn : Bool) (bm : Nat) (be : Int) : Fl :=
  if am = 0 && bm = 0 then
    .zero (if an == bn then an else rm == 2)
  else
    let q := if am = 0 then be else if bm = 0 then ae else min ae be
    let x : Int := (if an then -1 else 1) * ((am <<< (ae - q).toNat : Nat) : Int)
    let y : Int := (if bn then -1 else 1) * ((bm <<< (be - q).toNat : Nat) : Int)
    let x := if am = 0 then 0 else x
    let y := if bm = 0 then 0 else y
    let t := x + y
    if t = 0 then .zero (rm == 2) else .fin (decide (t < 0)) t.natAbs q

/-- a + b with IEEE 754's invalid cases: the value, and NV. -/
def Fl.add (rm : Rnd) (a b : Fl) : Fl × Nat :=
  match a, b with
  | .nan s, .nan t => (.nan false, if s || t then flNV else 0)
  | .nan s, _ => (.nan false, if s then flNV else 0)
  | _, .nan t => (.nan false, if t then flNV else 0)
  | .inf x, .inf y => if x == y then (.inf x, 0) else (.nan false, flNV)
  | .inf x, _ => (.inf x, 0)
  | _, .inf y => (.inf y, 0)
  | .fin n m e, .fin n' m' e' => (addFin rm n m e n' m' e', 0)

/-- a × b. -/
def Fl.mul (a b : Fl) : Fl × Nat :=
  match a, b with
  | .nan s, .nan t => (.nan false, if s || t then flNV else 0)
  | .nan s, _ => (.nan false, if s then flNV else 0)
  | _, .nan t => (.nan false, if t then flNV else 0)
  | .inf x, .inf y => (.inf (x != y), 0)
  | .inf x, .fin n m _ => if m = 0 then (.nan false, flNV) else (.inf (x != n), 0)
  | .fin n m _, .inf y => if m = 0 then (.nan false, flNV) else (.inf (n != y), 0)
  | .fin n m e, .fin n' m' e' => (.fin (n != n') (m * m') (e + e'), 0)

/-- A quotient of naturals with `extra` bits below its integer part and an odd last bit where it is not exact. -/
def divOdd (a b extra : Nat) : Nat :=
  let n := a <<< extra
  let q := n / b
  if n % b = 0 then q <<< 1 else (q <<< 1) + 1

/-- a ÷ b, with DZ. -/
def Fl.div (a b : Fl) : Fl × Nat :=
  match a, b with
  | .nan s, .nan t => (.nan false, if s || t then flNV else 0)
  | .nan s, _ => (.nan false, if s then flNV else 0)
  | _, .nan t => (.nan false, if t then flNV else 0)
  | .inf _, .inf _ => (.nan false, flNV)
  | .inf x, .fin n _ _ => (.inf (x != n), 0)
  | .fin n _ _, .inf y => (.zero (n != y), 0)
  | .fin n m e, .fin n' m' e' =>
    if m' = 0 then (if m = 0 then (.nan false, flNV) else (.inf (n != n'), flDZ))
    else if m = 0 then (.zero (n != n'), 0)
    else
      let k := Nat.log2 m' + 130
      (.fin (n != n') (divOdd m m' k) (e - e' - (k : Int) - 1), 0)

/-- The integer square root by Newton's method, `fuel` steps down from a start at or above the root. -/
def isqrtAux (n : Nat) : Nat → Nat → Nat
  | 0, x => x
  | fuel + 1, x => let y := (x + n / x) / 2; if y < x then isqrtAux n fuel y else x

/-- The integer square root. -/
def isqrt (n : Nat) : Nat := if n = 0 then 0 else isqrtAux n (Nat.log2 n + 2) (2 ^ (Nat.log2 n / 2 + 1))

/-- √a; √(−0) = −0. -/
def Fl.sqrt : Fl → Fl × Nat
  | .nan s => (.nan false, if s then flNV else 0)
  | .inf n => if n then (.nan false, flNV) else (.inf false, 0)
  | .fin n m e =>
    if m = 0 then (.zero n, 0)
    else if n then (.nan false, flNV)
    else
      -- an even exponent and at least 140 bits before the root
      let k := 140 + (if (e - 140) % 2 = 0 then 0 else 1)
      let x := m <<< k
      let r := isqrt x
      (.fin false (if r * r = x then r <<< 1 else (r <<< 1) + 1) ((e - (k : Int)) / 2 - 1), 0)

/-- Comparison of two values that are no NaN: less, equal, greater as −1, 0, 1; −0 equals +0. -/
def Fl.cmp (a b : Fl) : Int :=
  match a, b with
  | .nan _, _ => 0
  | _, .nan _ => 0
  | .inf x, .inf y => if x == y then 0 else if x then -1 else 1
  | .inf x, _ => if x then -1 else 1
  | _, .inf y => if y then 1 else -1
  | .fin n m e, .fin n' m' e' =>
    let q := min e e'
    let x : Int := (if n then -1 else 1) * ((m <<< (e - q).toNat : Nat) : Int)
    let y : Int := (if n' then -1 else 1) * ((m' <<< (e' - q).toNat : Nat) : Int)
    if x < y then -1 else if x = y then 0 else 1

/-- The integer nearest a finite value by `rm`, and whether it is inexact. -/
def Fl.toInt (rm : Rnd) : Fl → Int × Bool
  | .fin n m e => let (k, i) := quantize rm n m e 0; (if n then -(k : Int) else (k : Int), i)
  | _ => (0, false)

/-- 2^k times a value. -/
def Fl.scale (x : Fl) (k : Int) : Fl := match x with | .fin n m e => .fin n m (e + k) | y => y

/-! ### RoundMag (R207) and other grids -/

/-- `RoundMag(v, G)` on a grid given by its non-negative codes' values, code 0 first and rising: the nearest, ties to the
code whose lowest bit is clear, the largest where `v` lies above. `v` is not negative. -/
def roundGrid (grid : List Fl) (v : Fl) : Nat :=
  let rec go : List Fl → Nat → Nat
    | [], i => i - 1
    | g :: t, i =>
      match t with
      | [] => i
      | h :: _ =>
        -- the midpoint of g and h against v
        let mid := (Fl.add 0 g h).1.scale (-1)
        let c := v.cmp mid
        if c < 0 then i else if c = 0 then (if i % 2 = 0 then i else i + 1) else go t (i + 1)
  go grid 0

/-! ### The FP32 functions of R238, in fixed point with `2^fixBits` as one -/

def fixBits : Nat := 448
def fixOne : Nat := 1 <<< fixBits
def fixMul (a b : Nat) : Nat := (a * b) >>> fixBits

/-- Σ z^(2k+1) / (2k+1), `n` terms: the inverse hyperbolic tangent of z in [0, 1/3]. -/
def atanhSeries (n : Nat) (z : Nat) : Nat :=
  let z2 := fixMul z z
  let rec go : Nat → Nat → Nat → Nat → Nat
    | 0, _, _, acc => acc
    | f + 1, p, k, acc => go f (fixMul p z2) (k + 2) (acc + p / k)
  go n z 1 0

/-- The natural logarithm of 2. -/
def fixLn2 : Nat := 2 * atanhSeries 150 (fixOne / 3)

/-- Σ x^k / k!, for x in [0, 1). -/
def expSeries (x : Nat) : Nat :=
  let rec go : Nat → Nat → Nat → Nat → Nat
    | 0, _, _, acc => acc
    | f + 1, p, k, acc => let p' := fixMul p x / k; go f p' (k + 1) (acc + p')
  go 110 fixOne 1 fixOne

/-- π by Machin's formula: 16·atan(1/5) − 4·atan(1/239). -/
def fixPi : Nat :=
  let atanInv (d terms : Nat) : Int :=
    (List.range terms).foldl (fun acc k =>
      let t : Int := ((fixOne / (d ^ (2 * k + 1) * (2 * k + 1)) : Nat) : Int)
      if k % 2 = 0 then acc + t else acc - t) 0
  (16 * atanInv 5 110 - 4 * atanInv 239 40).toNat

/-- sin and cos of an angle in [0, π/4], in fixed point. -/
def sinSeries (x : Nat) : Nat :=
  let x2 := fixMul x x
  let rec go : Nat → Nat → Nat → Int → Int
    | 0, _, _, acc => acc
    | f + 1, p, k, acc =>
      let p' := fixMul p x2 / ((k + 1) * (k + 2))
      go f p' (k + 2) (if (k / 2) % 2 = 0 then acc - (p' : Int) else acc + (p' : Int))
  (go 60 x 1 (x : Int)).toNat
def cosSeries (x : Nat) : Nat :=
  let x2 := fixMul x x
  let rec go : Nat → Nat → Nat → Int → Int
    | 0, _, _, acc => acc
    | f + 1, p, k, acc =>
      let p' := fixMul p x2 / ((k + 1) * (k + 2))
      go f p' (k + 2) (if (k / 2) % 2 = 0 then acc - (p' : Int) else acc + (p' : Int))
  (go 60 fixOne 0 (fixOne : Int)).toNat

/-- A fixed-point approximation of a number that is no dyadic number: its last bit odd. -/
def oddFix (neg : Bool) (x : Nat) (e : Int) : Fl := .fin neg (2 * (x >>> 8) + 1) (e - (fixBits : Int) + 7)

/-- 2^x of a finite value; the result beyond FP32's range stands for itself by a value that overflows or underflows alike. -/
def Fl.exp2 : Fl → Fl
  | .fin n m e =>
    if m = 0 then .one
    else
      -- floor and fraction of x in fixed point; |x| above 1,000 acts as 1,000
      let big := decide (10 < (Nat.log2 m : Int) + e)
      if big then (if n then .fin false 3 (-1000) else .fin false 3 1000)
      else
        let mag : Nat := if 0 ≤ e + (fixBits : Int) then m <<< (e + (fixBits : Int)).toNat else m >>> (-(e + (fixBits : Int))).toNat
        let x : Int := if n then -(mag : Int) else (mag : Int)
        let i := x / (fixOne : Int)
        let f := (x % (fixOne : Int)).toNat
        if f = 0 then .fin false 1 i else oddFix false (expSeries (fixMul f fixLn2)) i
  | x => x

/-- log₂ of a finite positive value. -/
def Fl.log2 : Fl → Fl
  | .fin _ m e =>
    let l := Nat.log2 m
    -- y = m / 2^l in [1, 2), halved above √2
    let y := (m <<< fixBits) >>> l
    let ex : Int := (l : Int) + e
    if m = 1 <<< l then Fl.ofInt ex
    else
      let high := decide (2 * fixOne < fixMul y y)
      -- z = (y − 1)/(y + 1), or of y/2 where y is above √2, there negative
      let num : Nat := if high then 2 * fixOne - y else y - fixOne
      let den : Nat := if high then 2 * fixOne + y else y + fixOne
      let at_ := 2 * atanhSeries 90 ((num <<< fixBits) / den)
      let lg : Int := (((at_ <<< fixBits) / fixLn2 : Nat) : Int)
      let t : Int := (if high then ex + 1 else ex) * (fixOne : Int) + (if high then -lg else lg)
      oddFix (decide (t < 0)) t.natAbs 0
  | x => x

/-- sin 2πx (`co` = false) or cos 2πx (`co` = true) of a finite value. -/
def Fl.sinCos2pi (co : Bool) : Fl → Fl
  | .fin n m e =>
    -- the fraction of |x|: t · 2^e with 0 ≤ t < 2^−e
    let t : Nat := if 0 ≤ e then 0 else m % 2 ^ (-e).toNat
    let w : Nat := if 0 ≤ e then 0 else (-e).toNat
    -- eighths of a turn
    let oct := (8 * t) / 2 ^ w
    let rest := 8 * t - oct * 2 ^ w
    if rest = 0 && oct % 2 = 0 then
      match (if co then (oct / 2 + 1) % 4 else oct / 2) with
      | 0 => .zero (if co then false else n)
      | 1 => .fin (if co then false else n) 1 0
      | 2 => .zero (if co then false else n)
      | _ => .fin (if co then true else !n) 1 0
    else
      -- the angle within its octant, or from the octant's end where the octant is odd
      let part := if oct % 2 = 0 then rest else 2 ^ w - rest
      let a := (part * fixPi) >>> (w + 2)
      let useCos := if co then (oct == 0 || oct == 3 || oct == 4 || oct == 7) else (oct == 1 || oct == 2 || oct == 5 || oct == 6)
      let v := if useCos then cosSeries a else sinSeries a
      let neg := if co then (decide (2 ≤ oct) && decide (oct ≤ 5)) else (n != decide (4 ≤ oct))
      oddFix neg v 0
  | x => x

end Sys2Proof.Machine
end

