-- ==== Sys2Proof/Machine/Blocks.lean ====
section
/-!
DEFINITION. Format tags and lanes of vector registers (R218, R219, R232), the block formats (R208-R212) and quantisation
(R213-R215), and the alias window's blocks (R216, R217).
-/
namespace Sys2Proof.Machine

/-! ### Tags (R218) -/

/-- Bits per lane of a tag; 0 for EMPTY and the reserved tag. -/
def tagWidth (t : Nat) : Nat :=
  match t with
  | 1 => 8 | 2 => 16 | 3 => 32 | 4 => 64 | 5 => 16 | 6 => 16 | 7 => 32 | 8 => 64 | 9 => 8 | 10 => 8
  | 11 => 8 | 12 => 4 | 13 => 8 | 14 => 4 | _ => 0
/-- Lanes of a tag. -/
def tagLanes (t : Nat) : Nat := if tagWidth t = 0 then 0 else 512 / tagWidth t
def tagIsInt (t : Nat) : Bool := decide (1 ≤ t) && decide (t ≤ 4)
def tagIsFlt (t : Nat) : Bool := decide (5 ≤ t) && decide (t ≤ 8)
def tagIsScal (t : Nat) : Bool := decide (1 ≤ t) && decide (t ≤ 10)
def tagIsBlock (t : Nat) : Bool := decide (11 ≤ t) && decide (t ≤ 14)
/-- The floating format of a tag. -/
def tagFmt (t : Nat) : Fmt :=
  match t with
  | 5 => fp16 | 6 => bf16 | 7 => fp32 | 8 => fp64 | 9 => e4m3 | _ => e5m2
/-- The integer tag of a lane width. -/
def intTagOf (w : Nat) : Nat := if w = 8 then 1 else if w = 16 then 2 else if w = 32 then 3 else 4
/-- Blocks of a block tag. -/
def tagBlocks (t : Nat) : Nat := tagLanes t / 32

/-! ### Lanes -/

def laneOf (v w i : Nat) : Nat := (v >>> (w * i)) % 2 ^ w
/-- A register's 512 bits from its lanes, lane 0 first. -/
def packLanes (w : Nat) : List Nat → Nat
  | [] => 0
  | x :: t => x % 2 ^ w + (packLanes w t <<< w)
def lanesOf (v w n : Nat) : List Nat := (List.range n).map (laneOf v w)

/-- Whether lane `i` of `lanes` is active under a mask register's value, `none` where MG = 0 (R232). -/
def laneActive (mask : Option Nat) (lanes i : Nat) : Bool :=
  match mask with
  | none => true
  | some m => (m >>> (if lanes = 64 then i / 2 else if lanes = 128 then i / 4 else i)) % 2 == 1

/-! ### Block formats: 0 TXB8, 1 TXB4, 2 MX8, 3 MX4 (R208) -/

abbrev BlkFmt := Nat
def blkTag (f : BlkFmt) : Nat := 11 + f
def tagBlk (t : Nat) : BlkFmt := t - 11
def blkElemBits (f : BlkFmt) : Nat := if f = 1 || f = 3 then 4 else 8
/-- Scale bits of one block. -/
def blkScaleBits (f : BlkFmt) : Nat := if f ≤ 1 then 16 else 8
/-- Sidecar bits that a tag's block scales fill; the others are 0 (R219). -/
def tagSide (t : Nat) : Nat := if tagIsBlock t then tagBlocks t * blkScaleBits (tagBlk t) else 0

/-- `Val(c)` of a TXB scale code; none for the NaN codes (R209). -/
def txbScale (c : Nat) : Option Fl :=
  let e := c / 8; let m := c % 8
  if e = 31 then none else if e = 0 then some (.fin false m (-17)) else some (.fin false (8 + m) ((e : Int) - 18))

/-- The magnitude of a TXB8 magnitude code 0-61 (R210). -/
def txb8Mag (c : Nat) : Fl :=
  let e := c / 8; let m := c % 8
  if e = 0 then .fin false m (-5) else .fin false (8 + m) ((e : Int) - 6)
/-- The magnitude of a TXB4 magnitude code 0-3 (R210). -/
def txb4Mag (c : Nat) : Fl := .fin false c (-1)
/-- The magnitude of an MX4 magnitude code 0-7 (R211): half units 0, 1, 2, 3, 4, 6, 8, 12. -/
def mx4Mag (c : Nat) : Fl := .fin false ([0, 1, 2, 3, 4, 6, 8, 12].getD c 0) (-1)

/-- The finite non-negative grid of an element format (R207). -/
def blkGrid (f : BlkFmt) : List Fl :=
  match f with
  | 0 => (List.range 62).map txb8Mag
  | 1 => (List.range 4).map txb4Mag
  | 2 => (List.range 0x7F).map e4m3.decode
  | _ => (List.range 8).map mx4Mag

/-- The value of a block element under its block's scales (R212); the scales of a TXB block are A in the low byte and B in
the high byte. -/
def blkValue (f : BlkFmt) (scales code : Nat) : Fl :=
  if f ≤ 1 then
    let sel := if f = 0 then bitsOf code 7 7 else bitsOf code 3 3
    let neg := (if f = 0 then bitsOf code 6 6 else bitsOf code 2 2) == 1
    let mag := if f = 0 then bitsOf code 5 0 else bitsOf code 1 0
    let sc := txbScale (if sel = 1 then scales / 256 % 256 else scales % 256)
    match sc with
    | none => .nan false
    | some v =>
      if f = 0 && mag == 63 then .nan false
      else if f = 0 && mag == 62 then (if v.isZero then .nan false else .inf neg)
      else if v.isZero then .zero neg
      else let r := mul0' v (if f = 0 then txb8Mag mag else txb4Mag mag); if neg then r.negate else r
  else
    let s := scales % 256
    let e : Fl := if f = 2 then e4m3.decode code else if bitsOf code 3 3 = 1 then (mx4Mag (bitsOf code 2 0)).negate else mx4Mag (bitsOf code 2 0)
    if s = 255 then .nan false else if e.isNaN then .nan false else e.scale ((s : Int) - 127)
where
  mul0' (a b : Fl) : Fl := (a.mul b).1

/-! ### Quantisation -/

/-- The largest of non-negative values. -/
def maxFl (l : List Fl) : Fl := l.foldl (fun a x => if a.cmp x < 0 then x else a) (.zero false)

/-- `ScaleUp(v)` (R213). -/
def scaleUp (v : Fl) : Nat :=
  if v.isZero then 0
  else ((natsFrom 1 0xF7).find? fun c => match txbScale c with | some s => 0 ≤ s.cmp v | none => false).getD 0xF7

/-- v / mm, with mm 26 or 1.5. -/
def overMax (f : BlkFmt) (v : Fl) : Fl := (v.div (if f = 0 then .fin false 26 0 else .fin false 3 (-1))).1

/-- An element code from its selector, sign and magnitude (R210). -/
def txbCode (f : BlkFmt) (sel : Bool) (neg : Bool) (mag : Nat) : Nat :=
  if f = 0 then (if sel then 128 else 0) + (if neg then 64 else 0) + mag
  else (if sel then 8 else 0) + (if neg then 4 else 0) + mag

/-- `QuantTXB` (R214): the scales (A in the low byte, B in the high byte) and the 32 element codes. -/
def quantTxb (x : List Fl) (f : BlkFmt) : Nat × List Nat :=
  let nf := x.any fun v => !v.isFin
  if f = 1 && nf then (0xF8, x.map fun _ => 0)
  else
    let mags := (x.filter Fl.isFin).map Fl.abs
    let a0 := scaleUp (overMax f (maxFl mags))
    let a := if a0 = 0 && nf then 1 else a0
    let va := (txbScale a).getD (.zero false)
    let th := va.scale (if f = 0 then -2 else -1)
    let b := scaleUp (overMax f (maxFl (mags.filter fun v => v.cmp th < 0)))
    let vb := (txbScale b).getD (.zero false)
    let elem (v : Fl) : Nat :=
      match v with
      | .nan _ => 0x3F
      | .inf n => txbCode f false n 62
      | .fin n _ _ =>
        let sel := b != 0 && v.abs.cmp th < 0
        let s := if sel then vb else va
        let q := if s.isZero then 0 else roundGrid (blkGrid f) (v.abs.div s).1
        txbCode f (sel && q != 0) n q
    (a + 256 * b, x.map elem)

/-- `floor(log2(v))` of a positive value. -/
def floorLog2 (v : Fl) : Int := match v with | .fin _ m e => (Nat.log2 m : Int) + e | _ => 0

/-- `QuantMX` (R215): the scale and the 32 element codes. -/
def quantMx (x : List Fl) (f : BlkFmt) : Nat × List Nat :=
  if x.any fun v => !v.isFin then (0xFF, x.map fun _ => 0)
  else
    let am := maxFl (x.map Fl.abs)
    let em : Int := if f = 2 then 8 else 2
    let c : Nat := if am.isZero then 0 else (satI (floorLog2 am - em + 127) 0 254).toNat
    (c, x.map fun v => (if v.neg then (if f = 2 then 128 else 8) else 0) + roundGrid (blkGrid f) (v.abs.scale (127 - (c : Int))))

def quantBlk (x : List Fl) (f : BlkFmt) : Nat × List Nat := if f ≤ 1 then quantTxb x f else quantMx x f

/-- BF16 of a block value as an alias page reads it (R217), and FP16 of VDQ (R248). -/
def blkTo (t : Fmt) (v : Fl) : Nat := t.roundSat v

end Sys2Proof.Machine
end

