-- ==== Sys2Proof/Machine/Translate.lean ====
section
/-!
DEFINITION. Translation (R106-R111, R331), window registers (R112-R114), homes and copy regions (R115, R151), and the blocks of
the alias window (R216, R217).
-/
namespace Sys2Proof.Machine
open Sys2Proof.Config

/-! ### The tables (R107, R108) -/

/-- What differs between the tables of a job, of a queue (R361) and of a peer mapping (R313): the rectangle that homes must lie in,
the first address of a home's system region, and, where no rectangle is tested, whether foreign entries are walked. -/
structure WalkRules where
  mem : Memory
  rect : Option Rect
  sysOf : Nat → Nat
  foreign : Bool := false

/-- One entry below level 3, checked: the next table. -/
def nextTable (r : WalkRules) (e : Nat) : Option Nat :=
  let sp := bitsOf e 55 42
  if bitsOf e 63 63 = 1 && bitsOf e 62 56 = 0 && bitsOf e 29 0 = 0 && decide (sp < numSpindles) &&
      (match r.rect with | some b => b.has sp | none => true) then
    some (faOf sp (bitsOf e 41 30 * 2 ^ 15))
  else none

/-- A level-3 entry, checked: the page it maps. -/
def leafPage (r : WalkRules) (e : Nat) : Option PageEntry :=
  let sp := bitsOf e 55 42
  let l := bitsOf e 41 30 * 2 ^ 15
  let kind := bitsOf e 61 60
  let big := bitsOf e 59 59 == 1
  let fgn := bitsOf e 29 29 == 1
  let x := bitsOf e 56 56 == 1
  let size := if big then 2 ^ 22 else 2 ^ 16
  let frameOk := if big then bitsOf e 36 30 == 0 else bitsOf e 30 30 == 0
  let fgnOk := match r.rect with
    | some b => if fgn then kind == 0 && !x && !b.has sp else b.has sp
    | none => !fgn || (r.foreign && kind == 0 && !x)
  let sysOk := fgn || l < 0x1000000 || decide (l + size ≤ r.sysOf sp)
  if bitsOf e 63 62 = 3 && bitsOf e 28 0 = 0 && kind != 3 && frameOk && fgnOk && decide (sp < numSpindles) && localMapped l &&
      !(big && decide (l < 0x1000000)) && sysOk then
    some { frame := faOf sp l, big := big, kind := kind, r := bitsOf e 58 58 == 1, w := bitsOf e 57 57 == 1, x := x, fgn := fgn }
  else none

/-- The walk of R108: the page of a virtual address, or none where it traps XLATE. -/
def walkTables (r : WalkRules) (root : Nat) (va : Word) : Option PageEntry :=
  let a := va.toNat
  if a / 2 ^ 52 != 0 then none
  else
    let e1 := r.mem.readN (root + 8 * bitsOf a 51 40) 8
    match nextTable r e1 with
    | none => none
    | some t2 =>
      match nextTable r (r.mem.readN (t2 + 8 * bitsOf a 39 28) 8) with
      | none => none
      | some t3 => leafPage r (r.mem.readN (t3 + 8 * bitsOf a 27 16) 8)

/-- The fabric address of a virtual address in a page. -/
def PageEntry.fa (p : PageEntry) (va : Word) : Nat := p.frame + va.toNat % (if p.big then 2 ^ 22 else 2 ^ 16)

/-- The rules of a job's own tables. -/
def State.jobRules (s : State) (j : Nat) : WalkRules :=
  { mem := s.mem, rect := some (s.job j).rect, sysOf := fun sp => (s.spindle sp).sysbase }
/-- The CHIP field of a fabric address (R7) names this package. -/
def State.ownChip (s : State) (fa : Nat) : Bool := fa / 2 ^ 41 == s.trebex.chip
/-- A page of a job's space, by its tables; a root in another package has none here. -/
def State.walkJob (s : State) (j : Nat) (va : Word) : Option PageEntry :=
  if s.ownChip (s.job j).root then walkTables (s.jobRules j) ((s.job j).root % 2 ^ 41) va else none
/-- A page of the space of a level-1 table of this package, in which no rectangle test applies: a queue's (R361), with foreign entries,
or a peer mapping's (R313), without. -/
def State.walkRoot (s : State) (foreign : Bool) (root : Nat) (va : Word) : Option PageEntry :=
  if s.ownChip root then
    walkTables { mem := s.mem, rect := none, sysOf := fun sp => (s.spindle sp).sysbase, foreign := foreign } (root % 2 ^ 41) va
  else none

/-! ### The TLB (R110) -/

/-- The permissions an access needs (R109). -/
structure Need where
  r : Bool := false
  w : Bool := false
  x : Bool := false
  alias_ : Bool := false

def needR : Need := { r := true }
def needW : Need := { w := true }
def needRW : Need := { r := true, w := true }
def needX : Need := { x := true }

/-- A TLB entry covers a virtual address for a job. -/
def TlbEntry.hits (t : TlbEntry) (j : Nat) (va : Word) : Bool :=
  t.job == j && (if t.page.big then t.vpn / 64 == va.toNat / 2 ^ 22 else t.vpn == va.toNat / 2 ^ 16)

def State.tlbFind (s : State) (sp j : Nat) (va : Word) : Option PageEntry :=
  ((s.spindle sp).tlb.find? fun t => t.hits j va).map (·.page)

/-- The hit entry becomes the most recently used. -/
def State.tlbTouch (s : State) (sp j : Nat) (va : Word) : State :=
  match (s.spindle sp).tlb.find? fun t => t.hits j va with
  | some t => s.modSp sp fun p => { p with tlb := t :: p.tlb.erase t }
  | none => s

/-- A new entry replaces the least recently used of 64. -/
def State.tlbInsert (s : State) (sp j : Nat) (va : Word) (pg : PageEntry) : State :=
  s.modSp sp fun p => { p with tlb := ({ job := j, vpn := va.toNat / 2 ^ 16, page := pg } :: p.tlb.filter fun t => !t.hits j va).take 64 }

/-- The permissions hold (R109): on alias pages only the accesses that say so. -/
def Need.ok (n : Need) (p : PageEntry) : Bool :=
  (!n.r || p.r) && (!n.w || p.w) && (!n.x || p.x) && (p.kind == 0 || n.alias_)

/-- What a check before an access gives: its result, a trap with its address, or a page that the TLB does not hold. -/
inductive Chk (α : Type) where
  | ok (a : α)
  | trap (cause : Nat) (addr : Word)
  | walk (va : Word)
  deriving DecidableEq, Repr

def Chk.bind {α β : Type} (c : Chk α) (f : α → Chk β) : Chk β :=
  match c with | .ok a => f a | .trap x y => .trap x y | .walk v => .walk v

/-- A list of checks in order: the first that does not succeed decides. -/
def Chk.all {α β : Type} (f : α → Chk β) : List α → Chk (List β)
  | [] => .ok []
  | a :: t => (f a).bind fun b => (Chk.all f t).bind fun r => .ok (b :: r)

/-- The condition, or a trap. -/
def Chk.need (b : Bool) (cause : Nat) (addr : Word) : Chk Unit := if b then .ok () else .trap cause addr

/-- A virtual address of a handler context that reaches the context window (R331). -/
def Context.inWindow (c : Context) (va : Word) : Bool := c.handler && va.toNat / 2 ^ 16 == c.trapv.toNat / 2 ^ 16

/-- `Home(va)` (R11) for the executing context, with the permissions an access needs: the fabric address and the page. -/
def State.xlate (s : State) (va : Word) (n : Need) : Chk (Nat × PageEntry) :=
  if !n.x && s.me.inWindow va then .trap cILLEGAL va
  else if va.toNat / 2 ^ 52 != 0 then .trap cXLATE va
  else
    match s.tlbFind s.here s.myJobNo va with
    | none => .walk va
    | some p => if n.ok p then .ok (p.fa va, p) else .trap cXLATE va

/-- A page walk is asked of the cluster's walker, and the context parks with PARK 1 (R110). -/
def State.parkWalk (s : State) (va : Word) (fetch : Bool) : State :=
  (s.modCl (clusterOf s.here) fun c => { c with walks := c.walks ++ [{ key := s.cur, va := va, fetch := fetch }] }).parkAgain 1

/-- The outcome of an instruction's checks: what it does when they succeed, its trap, or the wait for a walk. -/
def State.onChk {α : Type} (s : State) (c : Chk α) (f : α → State) : State :=
  match c with
  | .ok a => f a
  | .trap cause addr => s.trap cause addr
  | .walk va => s.parkWalk va false

/-! ### Copy regions, windows, refusals (R112-R114, R151) -/

/-- A byte range meets a copy region of a spindle. -/
def State.inCopyRegion (s : State) (fa n : Nat) : Bool :=
  (s.spindle (faSp fa)).copies.any fun e => decide (fa < e.base + e.len) && decide (e.base < fa + n)

def vec4 (v : Vector Word 4) (i : Nat) : Word := if h : i < 4 then v[i] else 0

/-- The kinds of R113: 0 READ, 1 WRITE, 2 BOTH, 3 MIGR. -/
def admits (a b : Word) (src first last kind : Nat) : Bool :=
  let a := a.toNat; let b := b.toNat
  bitsOf a 63 63 == 1 && decide (bitsOf a 46 26 ≤ first / 64) && decide (last / 64 ≤ bitsOf a 20 0) &&
  decide (bitsOf b 27 21 ≤ spX src) && decide (spX src ≤ bitsOf b 13 7) &&
  decide (bitsOf b 20 14 ≤ spY src) && decide (spY src ≤ bitsOf b 6 0) &&
  (match kind with
   | 0 => bitsOf a 62 62 == 1
   | 1 => bitsOf a 61 61 == 1
   | 2 => bitsOf a 62 62 == 1 && bitsOf a 61 61 == 1
   | _ => bitsOf a 60 60 == 1)

/-- `Admit` of R113 at home `dst`: from inside the rectangle of the job it runs always; from outside by a window, and never
into its system region (R372). -/
def State.windowOk (s : State) (dst src fa n kind : Nat) : Bool :=
  let p := s.spindle dst
  let inside := match p.job with | some j => (s.job j).rect.has src | none => false
  let first := faLocal fa; let last := first + n - 1
  inside ||
    (decide (last < p.sysbase) &&
      (List.range 4).any fun w => admits (vec4 p.winA w) (vec4 p.winB w) src first last kind)

/-- Why a home refuses a request, if it does: FENCED, then WINDOW. -/
def State.refuses (s : State) (dst src fa n kind : Nat) : Option Nat :=
  if (s.spindle dst).fenced then some cFENCED
  else if !s.windowOk dst src fa n kind then some cWINDOW
  else none

/-! ### Alias pages (R216, R217) -/

/-- The kind of an alias access as a message carries it: 1 MXA8, 2 MXA4, with 4 added for a 4 MiB page; 0 is NORMAL. -/
def PageEntry.akind (p : PageEntry) : Nat := if p.kind = 0 then 0 else p.kind + (if p.big then 4 else 0)

/-- Block format, element base, element bytes and scale address of the block at a virtual position of an alias frame. -/
def aliasBlock (akind fa : Nat) : BlkFmt × Nat × Nat × Nat :=
  let p := if 4 ≤ akind then 2 ^ 22 else 2 ^ 16
  let o := fa % p
  let f := fa - o
  let j := o / 64
  if akind % 4 = 1 then (2, f + 32 * j, 32, f + p / 2 + j) else (3, f + 16 * j, 16, f + p / 4 + j)

/-- The 32 exact values of a block in memory. -/
def State.aliasValues (s : State) (akind fa : Nat) : List Fl :=
  let (bf, eb, en, sa) := aliasBlock akind fa
  let el := s.read eb en
  let sc := s.read sa 1
  (List.range 32).map fun i => blkValue bf sc (laneOf el (blkElemBits bf) i)

/-- A block written to memory. -/
def State.aliasPut (s : State) (akind fa : Nat) (y : List Fl) (who : Nat) : State :=
  let (bf, eb, en, sa) := aliasBlock akind fa
  let (sc, cs) := quantMx y bf
  (s.store eb en (packLanes (blkElemBits bf) cs) who).store sa 1 sc who

/-- A read of `n` bytes of an alias page: each element as RoundSat(value, BF16). -/
def State.aliasRead (s : State) (akind fa n : Nat) : Nat :=
  let y := s.aliasValues akind fa
  packLanes 16 ((List.range (n / 2)).map fun i => blkTo bf16 (y.getD (fa % 64 / 2 + i) (.zero false)))

/-- A write of `n` bytes of an alias page: the block's other elements are quantised again with it. -/
def State.aliasWrite (s : State) (akind fa n v who : Nat) : State :=
  let y := s.aliasValues akind fa
  let i0 := fa % 64 / 2
  s.aliasPut akind fa
    ((List.range 32).map fun i =>
      if i0 ≤ i && i < i0 + n / 2 then bf16.decode (laneOf v 16 (i - i0)) else y.getD i (.zero false)) who

/-- The bytes an alias access reaches hold a poisoned word. -/
def State.aliasPoisoned (s : State) (akind fa : Nat) : Bool :=
  let (_, eb, en, sa) := aliasBlock akind fa
  s.poisoned eb en || s.poisoned sa 1

/-- A plain read or write of a page by its kind. -/
def State.pageRead (s : State) (akind fa n : Nat) : Nat := if akind = 0 then s.read fa n else s.aliasRead akind fa n
def State.pageWrite (s : State) (akind fa n v who : Nat) : State :=
  if akind = 0 then s.store fa n v who else s.aliasWrite akind fa n v who
/-- Poison that an access consumes: any poisoned word it reads; a write consumes where it covers less than the word. -/
def State.pagePoison (s : State) (akind fa n : Nat) (write : Bool) : Bool :=
  if akind = 0 then !(write && n == 8) && s.poisoned fa n else s.aliasPoisoned akind fa

/-! ### The unit at a PC, for RESUME's skip of a deferred trap (R50, R104) -/

/-- The word of code at a virtual address of a job, read by its tables. -/
def State.codeWord (s : State) (j : Nat) (va : Word) : Option IWord :=
  match s.walkJob j va with
  | some p => if p.x then some (BitVec.ofNat 32 (s.read (p.fa va) 4)) else none
  | none => none

/-- The PC after the unit at `pc`: its prefix words and its instruction; a word that cannot be fetched counts as one. -/
def State.unitAfter (s : State) (j : Nat) (pc : Word) : Nat → Word
  | 0 => pc + 4
  | fuel + 1 =>
    match s.codeWord j pc with
    | none => pc + 4
    | some w => if fMaj w = 0x3E && fLen w = 0 then s.unitAfter j (pc + 4) fuel else pc + BitVec.ofNat 64 (4 * lenWords w)

end Sys2Proof.Machine
end

