-- ==== Sys2Proof/Machine/Fence.lean ====
section
/-!
DEFINITION. Refusing a message (R113, R114, R123, R129, R144, R156), gust counters (R347), containment rectangles and fencing
(R349), the consumption of poison (R348), and the wake procedures of the waiters at a bank (R127, R128).
-/
namespace Sys2Proof.Machine
open Sys2Proof.Config

/-! ### The answer that refuses a message -/

/-- The migration answers: ACCEPT, NACK busy, NACK for a fence, NACK for a window (R35). -/
def migAccept : Nat := 0
def migBusy : Nat := 1
def migFence : Nat := 2
def migWindow : Nat := 3

/-- What a message is answered with where its home refuses it for `cause`; none where nobody waits for it. -/
def Msg.refusal (m : Msg) (cause : Nat) : Option Msg :=
  let a := fun b => some (m.answer b)
  match m.body with
  | .migrate _ => a (.migAnswer (if cause == cFENCED then migFence else migWindow))
  | .read .. | .fetchLine _ | .write .. | .atomic .. | .sync .. | .chq _ | .query .. | .bindNote _ | .append _ | .layer ..
  | .drainReq .. | .subRemove .. => a (.nack cause m.va)
  | .subReq .. => a (.subAnswer (if cause == cFENCED then 1 else 2))
  | .batch _ _ _ _ _ e _ _ => some { m.answer (.batchNack e) with cls := .update }
  | .chan ch _ => a (.chanNack ch)
  | .trapRec ws t snd act => some { m.answer (.trapNack ws t snd act) with cls := .update }
  | _ => none

/-- A COMPFAIL record, or its refusal, that no spindle is left to take: the record goes to the next buddy of its owner's spindle (R330). -/
def State.reroute (s : State) (m : Msg) : State :=
  match m.body with
  | .trapRec ws t second act => if act = 0 then s else s.nextBuddy m.job (keyOf m.src m.ctx) ws t second act
  | .trapNack ws t second act => if act = 0 then s else s.nextBuddy m.job (keyOf m.dst m.ctx) ws t second act
  | _ => s

/-- The home refuses the message: its answer is sent, or the message is absorbed. -/
def State.refuseMsg (s : State) (m : Msg) (cause : Nat) : State :=
  match m.refusal cause with
  | some r => s.send r
  | none => s.reroute m

/-! ### Contexts that wait in FENCE (R135) -/

/-- A batch with changes of `who` is open or not yet acknowledged somewhere. -/
def State.batchesOf (s : State) (who : Nat) : Bool :=
  s.spindles.any (fun e => e.2.pubs.any fun x =>
    x.open_.any (fun b => b.writers.contains who) || x.unacked.any fun u => u.2.2.contains who) ||
  s.msgs.any fun m => match m.body with | .batch _ _ _ _ _ _ ws _ => ws.contains who | _ => false

/-- A context that waits in FENCE goes on once no batch that carries a change of its thread is left (R135). -/
def State.wakeFences (s : State) : State :=
  (s.ctxs.filter fun e => e.2.st == .parked && e.2.park == 2 && e.2.kont == .reissue && e.2.tok == 0 && e.2.waitToks.isEmpty &&
      !s.batchesOf (whoOf (s.jobNoAt (keySp e.1)) e.2.thidx)).foldl (fun s e => s.wakeAgain e.1) s

/-! ### Fencing (R349) -/

/-- The containment rectangle of a spindle: by its job's table, by default the job's rectangle, and its cluster's where it
belongs to no job. -/
def State.containRect (s : State) (sp : Nat) : Rect :=
  match (s.spindle sp).job with
  | some j =>
    let jb := s.job j
    match jb.conts.find? fun e => e.2.has sp with
    | some e => e.2
    | none => jb.rect
  | none => let cl := clusterOf sp; ⟨clusterX cl, clusterY cl, 4, 4⟩

/-- The contexts inside end: each thread counts as exited with status 0xFFFF_FF07, and stays at the spindle it was lost at, for its
writers (R144). -/
def State.loseThread (s : State) (r : Rect) (k : Nat) (c : Context) : State :=
  let sp := keySp k
  let j := s.jobNoAt sp
  let s := (s.passRecords k c).setCtx k (freeCtx c)
  if c.thidx == compThidx then
    s.compFailed k { cause := cFENCED, pc := c.unit.pc, words := c.unit.words.take 5 }
  else
    let s := s.abandonOwned j c.thidx sp
    let s := s.modJob j fun jb => { jb with exited := insertSorted jb.exited c.thidx, lostFence := true, lostAt := Table.set jb.lostAt c.thidx sp }
    let b := (s.job j).rect.spindle (c.thidx / 16)
    if r.has b then s else s.holdStatus j c.thidx 0xFFFFFF07

/-- A queued migrant inside is lost like a thread. -/
def State.loseMigrant (s : State) (r : Rect) (sp : Nat) (m : Migrant) : State :=
  s.loseThread r (keyOf sp 1) { m.image with lastIssue := (s.ctx (keyOf sp 1)).lastIssue }

/-- The reset of one fenced spindle; its window registers, its pairing entry and its system region's base are not its own. -/
def Spindle.reset (p : Spindle) : Spindle :=
  { winA := p.winA, winB := p.winB, primary := p.primary, secondary := p.secondary, sysbase := p.sysbase, retired := p.retired,
    issuedAt := p.issuedAt, gust := p.gust, fenced := true }

/-- A message of a source inside a rectangle that is fenced has not wholly left it (R38, R344): the source still holds it to send it
again, or it is among the newest of its class that a free number says are cut short or still behind the one cut. -/
def State.notLeft (s : State) (r : Rect) (m : Msg) : Bool :=
  decide (m.src < numSpindles) && r.has m.src && !(s.spindle m.src).fenced && !m.logged && m.port.isNone &&
    (m.notBefore != 0 ||
      decide ((s.msgs.filter fun x => x.src == m.src && x.cls == m.cls && decide (m.id < x.id)).length < cutShort s.free m.src m.cls.num))

/-- The messages that a fence of a rectangle cuts short, by their numbers. -/
def State.cutBy (s : State) (r : Rect) : List Nat := (s.msgs.filter (s.notLeft r)).map (·.id)

/-- A departing context whose message has wholly left lives on at its home (R38). -/
def State.livesOn (s : State) (r : Rect) (cut : List Nat) (k : Nat) (c : Context) : Bool :=
  c.st == .departing &&
    !(s.msgs.any fun m => m.ctx == keyCtx k && (match m.body with
      | .migrate _ => m.src == keySp k && (cut.contains m.id || r.has m.dst)
      | .migAnswer code => m.dst == keySp k && code != migAccept
      | _ => false))

/-- What pre-emption saved of a job's spindles, changed by `f`. -/
def Job.mapSaved (jb : Job) (f : Nat → Spindle → Spindle) : Job :=
  { jb with saved := jb.saved.map fun v => { v with state := f v.sp v.state } }

/-- Subscriptions across the border of a fenced rectangle (R156): a publisher's entries for subscribers inside go, and copies of a
publisher inside are marked. -/
def Spindle.dropSubs (r : Rect) (p : Spindle) : Spindle :=
  { p with pubs := p.pubs.filter (fun x => !r.has x.subSp),
           copies := p.copies.map fun x => if r.has x.pubSp then { x with pfenced := true } else x }
/-- A publisher that loses an entry so has SUBERR set in its context 0. -/
def State.fenceSubs (s : State) (r : Rect) : State :=
  let hit := fun (p : Spindle) => p.pubs.any fun x => r.has x.subSp
  let s := s.spindles.foldl (fun s e =>
    if r.has e.1 then s
    else
      let s := s.modSp e.1 (Spindle.dropSubs r)
      if hit e.2 then s.modCtx (keyOf e.1 0) fun c => c.raise flSUBERR else s) s
  { s with jobs := s.jobs.map fun e => (e.1, { e.2 with saved := e.2.saved.map fun v => if r.has v.sp then v else
      { v with state := v.state.dropSubs r,
               ctxs := if hit v.state then v.ctxs.map fun x => if keyCtx x.1 = 0 then (x.1, x.2.raise flSUBERR) else x else v.ctxs } }) }

/-- Waiters at the banks (R130, R349): sources inside are discarded everywhere; sources outside that wait inside are answered for a
fence, with the address of their request. -/
def State.fenceWaiters (s : State) (r : Rect) : State :=
  s.spindles.foldl (fun s e =>
    if r.has e.1 then
      (e.2.waiters.filter fun w => !r.has w.sp).foldl (fun s w =>
        let va := (s.ctx (keyOf w.sp w.ctx)).reqVa
        s.send { id := 0, cls := .reply, src := e.1, dst := w.sp, job := w.who / 2 ^ 18, ctx := w.ctx, tok := w.tok, va := va,
                 body := .nack cFENCED va }) s
    else s.modSp e.1 fun p => { p with waiters := p.waiters.filter fun w => !r.has w.sp }) s

/-- A message that has left a rectangle which is now fenced, as its receiver takes it: what answers a request becomes a refusal for the
fence, for the request is still outstanding (R329); an ACCEPT stands (R38), and the busy answer to a migrant goes, whose message is
refused itself; a snapshot's batch ends no SUBON. -/
def Msg.leaving (m : Msg) : Option Msg :=
  match m.body with
  | .reply _ | .line .. | .ack | .nackBusy .. | .nack .. => some { m with body := .nack cFENCED m.va, notBefore := 0 }
  | .subAnswer _ => some { m with body := .subAnswer 1 }
  | .migAnswer code => if code = migAccept then some m else if code = migBusy then none else some { m with body := .migAnswer migFence }
  | .batch line bytes fes fev data e ws _ => some { m with ctx := 0, tok := 0, body := .batch line bytes fes fev data e ws false }
  | _ => some m

/-- It answers a request, so that a fence of its source is an answer too (R329). -/
def Body.answers : Body → Bool
  | .reply _ | .line .. | .ack | .nackBusy .. | .nack .. | .subAnswer _ | .migAnswer _ => true
  | _ => false

/-- A message leads from or to a spindle inside. -/
def Msg.from_ (m : Msg) (r : Rect) : Bool := decide (m.src < numSpindles) && r.has m.src
def Msg.into (m : Msg) (r : Rect) : Bool := decide (m.dst < numSpindles) && r.has m.dst

/-- Messages across the border (R344, R349): those cut short are discarded, answers among them apart, and so are those inside; those into
the rectangle are refused; those out of it are as their receivers take them. A COMPFAIL record that is discarded goes to the next buddy. -/
def State.fenceMsgs (s : State) (r : Rect) (cut : List Nat) : State :=
  let dies := fun (m : Msg) => (cut.contains m.id && !m.body.answers) || (m.into r && r.has m.src)
  let dead := s.msgs.filter dies
  let s := { s with msgs := s.msgs.filter (fun m => !dies m), free := s.free + 1 }
  let into := s.msgs.filter (·.into r)
  let kept := (s.msgs.filter fun m => !m.into r).filterMap fun m => if m.from_ r then m.leaving else some m
  let s := into.foldl (fun s m => s.refuseMsg m cFENCED) { s with msgs := kept }
  dead.foldl State.reroute s

/-- Requests whose message, or whose answer, a die bridge has lost are outstanding: those into the rectangle are answered for the fence
(R329). -/
def State.fenceLost (s : State) (r : Rect) : State :=
  s.upsets.foldl (fun s u =>
    match u with
    | .gone m =>
      let s := if m.into r || m.from_ r then { s with upsets := s.upsets.erase (.gone m) } else s
      if m.into r && !r.has m.src then s.refuseMsg m cFENCED
      else if m.from_ r && !r.has m.dst && m.body.answers then
        match m.leaving with | some x => s.send x | none => s
      else s
    | _ => s) s

/-- The buffers of the channels of a job whose reader's spindle is inside are lost (R139, R349). -/
def State.fenceChans (s : State) (r : Rect) (j : Nat) : State :=
  let lost := fun (c : Chan) => r.has (s.threadSpindle j c.reader)
  s.modJob j fun jb => { jb with chans := jb.chans.map fun e => (e.1, if lost e.2 then { e.2 with buf := [] } else e.2) }

/-- SUBONs that wait outside for a snapshot of a publisher inside are answered for the fence (R329). -/
def State.fenceSnapshots (s : State) (r : Rect) : State :=
  (s.spindles.filter fun e => r.has e.1).foldl (fun s e => e.2.pubs.foldl (fun s x =>
    match x.snapTok with
    | some (c, tok) =>
      let k := keyOf x.subSp c
      if !r.has x.subSp && (s.ctx k).st == .parked && (s.ctx k).tok == tok && tok != 0 then
        s.send { id := 0, cls := .reply, src := e.1, dst := x.subSp, job := x.subJob, ctx := c, tok := tok, va := (s.ctx k).reqVa,
                 body := .subAnswer 1 }
      else s
    | none => s) s) s

/-- A containment rectangle is fenced: every effect of R349's table, at once, with its report. -/
def State.fence (s : State) (r : Rect) (cause sp fa : Nat) (retire : Bool) : State :=
  let sps := r.spindles.filter fun p => !(s.spindle p).fenced
  let jobsHit := (s.jobs.filter fun e => e.2.phase != .out && e.2.rect.meets r &&
    sps.any fun p => (s.spindle p).job == some e.1).map (·.1)
  let whole := r.clusters.filter fun c => (clusterSpindles c).all r.has
  let cut := s.cutBy r
  -- pair tasks of the clusters inside
  let s := jobsHit.foldl (fun s j => if (s.job j).trees.isEmpty then s else s.rescue j (whole.filter fun c => (clusterSpindles c).all (s.job j).rect.has)) s
  -- threads and queued migrants inside, with the channel buffers
  let keys := (s.ctxs.filter fun e => e.2.st != .free && r.has (keySp e.1) && !(s.spindle (keySp e.1)).fenced)
  let on := keys.map fun e => (e.1, e.2, s.livesOn r cut e.1 e.2)
  let s := sps.foldl (fun s p => s.modSp p fun x => { x with fenced := true }) s
  let s := on.foldl (fun s e => if e.2.2 then s.setCtx e.1 (freeCtx e.2.1) else s.loseThread r e.1 e.2.1) s
  let s := sps.foldl (fun s p => ((s.spindle p).migBuf ++ (s.spindle p).migRes).foldl (fun s m => s.loseMigrant r p m) s) s
  let s := jobsHit.foldl (fun s j => s.fenceChans r j) s
  let s := (s.fenceWaiters r).fenceSnapshots r
  -- loom commands of the clusters touched whose issuers are inside
  let s := r.clusters.foldl (fun s c => s.modCl c fun x =>
    { x with enter := x.enter.filter (fun q => !r.has (keySp q.key)), queue := x.queue.filter (fun q => !r.has (keySp q.key)),
             takers := x.takers.filter (fun k => !r.has (keySp k)), walks := x.walks.filter (fun k => !r.has (keySp k.key)) }) s
  let s := whole.foldl (fun s c => s.modCl c fun x => { x with acc := [] }) s
  let s := s.fenceSubs r
  -- copies issued inside
  let s := s.engines.foldl (fun s e => s.modEng e.1 fun g =>
    { g with cmds := g.cmds.map fun c => if r.has (keySp c.key) then
        { c with cancel := true, mute := true, emptying := c.emptying && !jobsHit.contains c.job } else c }) s
  -- the spindles
  let s := sps.foldl (fun s p => s.modSp p Spindle.reset) s
  let s := (s.fenceMsgs r cut).fenceLost r
  -- the jobs and the report
  let s := jobsHit.foldl (fun s j =>
    let jb := s.job j
    let gone := jb.rect.spindles.all fun p => (s.spindle p).fenced
    (s.modJob j fun jb => { jb with lostFence := true, ended := jb.ended || gone }).freeHandlers j) s
  let rep : FenceReport := { cycle := s.now, rect := r, retire := retire, cause := cause, sp := sp, fa := fa,
                             more := decide (1 < jobsHit.length), job := jobsHit.headD 0 }
  let s := (if r.has s.here then { s with midUnit := false } else s).wakeFences
  { s with trebex := { s.trebex with fcount := (s.trebex.fcount + 1) % 2 ^ 32, reports := (s.trebex.reports ++ [rep]).drop (s.trebex.reports.length + 1 - 256) } }

/-- A gust event counts at a spindle; when the count reaches three within 2^20 cycles its containment rectangle is fenced (R347). -/
def State.gustEvent (s : State) (sp : Nat) : State :=
  let l := (s.spindle sp).gust.filter (fun t => decide (s.now < t + gustWindow)) ++ [s.now]
  let s := s.modSp sp fun p => { p with gust := l }
  if l.length = 3 && !(s.spindle sp).fenced then s.fence (s.containRect sp) 0x01 sp 0 false else s

/-- Poison among `n` bytes at `fa` is consumed at a spindle: its containment rectangle is fenced, and the access is not performed
(R348). -/
def State.consume (s : State) (sp fa n : Nat) : State :=
  s.fence (s.containRect sp) cECC sp (((wordsOf fa n).find? s.poison.contains).getD (wordOf fa)) false

/-- The same for an access of a page by its kind: the word of the block that is poisoned (R217). -/
def State.consumePage (s : State) (sp akind fa n : Nat) : State :=
  if akind = 0 then s.consume sp fa n
  else
    let (_, eb, en, sa) := aliasBlock akind fa
    if s.poisoned eb en then s.consume sp eb en else s.consume sp sa 1

/-! ### The wake procedures (R127, R128) -/

/-- A served waiter receives its value or acknowledgement. -/
def State.serve (s : State) (x : Waiter) (v : Nat) : State :=
  let s := s.dropWaiter x
  if x.local_ then
    let k := keyOf x.sp x.ctx
    if (s.ctx k).tok == x.tok && (s.ctx k).st == .parked then s.complete k v else s
  else s.send { id := 0, cls := .reply, src := faSp x.fa, dst := x.sp, job := x.who / 2 ^ 18, ctx := x.ctx, tok := x.tok,
                va := (s.ctx (keyOf x.sp x.ctx)).reqVa, body := if x.op == 3 then .ack else .reply v }

/-- Serving the waiter would consume poison (R348): it reads a poisoned word, or writes part of one. -/
def State.waiterPoison (s : State) (x : Waiter) : Bool := s.poisoned x.fa x.n && (x.op != 3 || x.n != 8)

/-- A waiter is answered with a refusal: a precise trap of a local one (R151). -/
def State.refuseWaiter (s : State) (x : Waiter) (cause : Nat) : State :=
  let s := s.dropWaiter x
  let k := keyOf x.sp x.ctx
  if x.local_ then
    if (s.ctx k).tok == x.tok && (s.ctx k).st == .parked then s.takeTrap k ((s.ctx k).unit.info cause (s.ctx k).reqVa) else s
  else s.send { id := 0, cls := .reply, src := faSp x.fa, dst := x.sp, job := x.who / 2 ^ 18, ctx := x.ctx, tok := x.tok,
                va := (s.ctx k).reqVa, body := .nack cause (s.ctx k).reqVa }

/-- `Fill` and `Empty` of R128 on a word as it stands: a FULL word serves every LDF waiter and then one LDE, an EMPTY word
one STF, each in turn; a form that writes what has become a copy region since it came is refused (R151). `fuel` bounds the chain by the
number of waiters. -/
def State.settleAux : Nat → State → Nat → State
  | 0, s, _ => s
  | fuel + 1, s, w =>
    let next := if s.full w then s.waitersOf w 0 ++ s.waitersOf w 1 else s.waitersOf w 3
    match next with
    | [] => s
    | x :: _ =>
      if x.op != 0 && s.inCopyRegion x.fa x.n then State.settleAux fuel (s.refuseWaiter x cSUBWR) w
      else if s.waiterPoison x then State.settleAux fuel ((s.dropWaiter x).consume x.sp x.fa x.n) w
      else if x.op == 0 then State.settleAux fuel (s.serve x (s.read x.fa x.n)) w
      else if x.op == 1 then State.settleAux fuel ((s.serve x (s.read x.fa x.n)).changeFE w false x.who) w
      else State.settleAux fuel ((s.storeFE x.fa x.n x.data true x.who).serve x 0) w

/-- The wake procedure of a word that has just become FULL or EMPTY. -/
def State.settle (s : State) (w : Nat) : State := State.settleAux ((s.spindle (faSp w)).waiters.length + 1) s w

/-- A word becomes FULL by a bank write, `Fill` following where it was EMPTY. -/
def State.fill (s : State) (fa who : Nat) : State :=
  if s.full fa then s.changeFE fa true who else (s.changeFE fa true who).settle (wordOf fa)
/-- Bytes of a word stored and the word set FULL by one bank write, `Fill` following where it was EMPTY. -/
def State.storeFill (s : State) (fa n v who : Nat) : State :=
  if s.full fa then s.storeFE fa n v true who else (s.storeFE fa n v true who).settle (wordOf fa)
/-- A word becomes EMPTY, `Empty` following where it was FULL (FEC of R127). -/
def State.empty (s : State) (fa who : Nat) : State :=
  if s.full fa then (s.changeFE fa false who).settle (wordOf fa) else s

end Sys2Proof.Machine
end

