-- ==== Sys2Proof/Machine/Flags.lean ====
section
/-!
DEFINITION. The compatibility profile's fields (R96, R225), the sticky flags of FSTAT (R97) and the results, flags and
compatibility events of the floating forms, scalar and lane (R77-R82, R226-R229, R236, R238).
-/
namespace Sys2Proof.Machine

/-! ### CPROF (R96) -/

def cpRM (cp : Nat) : Rnd := bitsOf cp 1 0
def cpDEN (cp : Nat) : Nat := bitsOf cp 3 2
def cpZMUL (cp : Nat) : Bool := bitsOf cp 4 4 == 1
def cpNANMM (cp : Nat) : Nat := bitsOf cp 6 5
def cpRCPX (cp : Nat) : Bool := bitsOf cp 7 7 == 1
def cpCVTW (cp : Nat) : Bool := bitsOf cp 8 8 == 1
def cpDIVZ (cp : Nat) : Bool := bitsOf cp 21 21 == 1
/-- TRAPMASK bits 16-20, as bits of a mask by their number. -/
def cpMask (cp : Nat) : Nat := cp &&& 0x1F0000
/-- A value that SWR of CPROF refuses (R96). -/
def cprofBad (v : Nat) : Bool :=
  v / 2 ^ 22 != 0 || bitsOf v 15 9 != 0 || cpDEN v == 3 || cpNANMM v == 3
/-- `EffRM(rf)` of R11 for a field that decoding has accepted. -/
def effRM (cp : Nat) (rf : Nat) : Rnd := match rf with | 0 => cpRM cp | 1 => 0 | _ => 1

/-! ### A floating result -/

/-- A code with the sticky flags it sets and the events of R79 it raises, events as a mask by bit number. -/
structure FpRes where
  bits : Nat
  flags : Nat := 0
  events : Nat := 0
  deriving DecidableEq, Repr

def evNaN : Nat := 2 ^ 16
def evDen : Nat := 2 ^ 17
def evInf : Nat := 2 ^ 18
def evCvt : Nat := 2 ^ 19
def evZmul : Nat := 2 ^ 20

/-- The lowest-numbered event of a mask (R79). -/
def lowestEvent (m : Nat) : Option Nat := [16, 17, 18, 19, 20].find? fun b => m / 2 ^ b % 2 == 1

/-- DEN = 01 flushes a subnormal operand to a zero of its sign (R78). -/
def flushIn (cp : Nat) (f : Fmt) (x : Nat) : Nat :=
  if cpDEN cp == 1 && f.isSub x then f.withSign ((f.decode x).neg) 0 else x % 2 ^ f.bits

/-- DEN = 01 or 10 flushes a subnormal result, setting UF and NX (R78). -/
def flushOut (cp : Nat) (f : Fmt) (r : Nat × Nat) : Nat × Nat :=
  if (cpDEN cp == 1 || cpDEN cp == 2) && f.isSub r.1 then
    (f.withSign ((f.decode r.1).neg) 0, r.2 ||| (flUF + flNX))
  else r

/-- The denormal-input event of a list of operands (R79). -/
def denEvent (f : Fmt) (xs : List Nat) : Nat := if xs.any f.isSub then evDen else 0

/-- NaN-produced and infinity-produced events (R79). -/
def prodEvents (f : Fmt) (res : Nat) (ops : List Fl) : Nat :=
  (if (f.decode res).isNaN && !ops.any Fl.isNaN then evNaN else 0) +
  (if (f.decode res).isInf && !ops.any Fl.isInf then evInf else 0)

/-- The six operations of R78. -/
inductive FpOp where
  | add | sub | mul | fma | div | sqrt
  deriving DecidableEq, Repr

/-- The product of R78 with ZMUL: the value, NV, and the event of TRAPMASK bit 20. -/
def zmulProd (cp : Nat) (a b : Fl) : Fl × Nat × Nat :=
  if cpZMUL cp && (a.isZero || b.isZero) then
    (.zero false, 0, if (a.isInf || a.isNaN || b.isInf || b.isNaN) then evZmul else 0)
  else let r := a.mul b; (r.1, r.2, 0)

/-- The exact result of R77's table, with NV and DZ, and the event of bit 20. -/
def fpExact (op : FpOp) (cp : Nat) (rm : Rnd) (a b c : Fl) : Fl × Nat × Nat :=
  match op with
  | .add => let r := Fl.add rm a b; (r.1, r.2, 0)
  | .sub => let r := Fl.add rm a b.negate; (r.1, r.2, 0)
  | .mul => zmulProd cp a b
  | .fma => let p := zmulProd cp a b; let r := Fl.add rm p.1 c; (r.1, p.2.1 ||| r.2, p.2.2)
  | .div => let r := a.div b; (r.1, r.2, 0)
  | .sqrt => let r := a.sqrt; (r.1, r.2, 0)

/-- FADD to FSQRT (R78, R79), and the lanes of VADD to VSQRT (R236); unused operands repeat `a`. -/
def fpArith (op : FpOp) (f : Fmt) (cp : Nat) (rm : Rnd) (a b c : Nat) : FpRes :=
  let ops := match op with | .sqrt => [a] | .fma => [a, b, c] | _ => [a, b]
  let x := f.decode (flushIn cp f a); let y := f.decode (flushIn cp f b); let z := f.decode (flushIn cp f c)
  let (v, fl, ez) := fpExact op cp rm x y z
  let r := flushOut cp f (f.round rm v)
  { bits := r.1, flags := fl ||| r.2,
    events := denEvent f ops ||| prodEvents f r.1 (ops.map f.decode) ||| ez }

/-- The order of R80 on two numbers: −0 below +0. -/
def ltZero (a b : Fl) : Bool := a.cmp b < 0 || (a.cmp b == 0 && a.isZero && b.isZero && a.neg && !b.neg)

/-- FMIN, FMAX, FMINM, FMAXM (R80): `mx` for the larger, `mag` for the forms by magnitude. -/
def fpMinMax (f : Fmt) (cp : Nat) (mx mag : Bool) (a b : Nat) : FpRes :=
  let a' := flushIn cp f a; let b' := flushIn cp f b
  let x := f.decode a'; let y := f.decode b'
  let nv := if cpNANMM cp != 2 && (x.isSNaN || y.isSNaN) then flNV else 0
  let pick : Bool := -- a is chosen, both being numbers, by their values
    if cpNANMM cp == 2 then (if mx then y.cmp x < 0 else x.cmp y < 0)
    else (if mx then !ltZero x y else !ltZero y x)
  let pickMag : Bool :=
    if mag then
      let c := x.abs.cmp y.abs
      if c == 0 then pick else if mx then 0 < c else c < 0
    else pick
  let res :=
    if x.isNaN || y.isNaN then
      match cpNANMM cp with
      | 0 => f.nan
      | 1 => if x.isNaN then (if y.isNaN then f.nan else b') else a'
      | _ => b'
    else if pickMag then a' else b'
  { bits := res, flags := nv, events := denEvent f [a, b] }

/-- The relations of R81. -/
inductive FpRel where
  | eq | lt | le | un
  deriving DecidableEq, Repr

/-- FCEQ, FCLT, FCLE, FCUN (R81): 1 or 0. -/
def fpCmp (r : FpRel) (f : Fmt) (cp : Nat) (a b : Nat) : FpRes :=
  let x := f.decode (flushIn cp f a); let y := f.decode (flushIn cp f b)
  let un := x.isNaN || y.isNaN
  let v := match r with
    | .eq => !un && x.cmp y == 0 | .lt => !un && x.cmp y < 0 | .le => !un && x.cmp y ≤ 0 | .un => un
  let quiet := match r with | .eq => true | .un => true | _ => false
  { bits := boolN v, flags := if (if quiet then x.isSNaN || y.isSNaN else un) then flNV else 0,
    events := denEvent f [a, b] }

/-- Float to float (R82): widening is exact and flushes nothing, narrowing rounds and flushes as R78. -/
def fpToFp (f t : Fmt) (cp : Nat) (rm : Rnd) (a : Nat) : FpRes :=
  let x := f.decode (if f.mb < t.mb then a else flushIn cp f a)
  let r := flushOut cp t (t.round rm x)
  { bits := r.1, flags := r.2 ||| (if x.isSNaN then flNV else 0),
    events := denEvent f [a] ||| prodEvents t r.1 [f.decode a] }

/-- Integer to float (R82). -/
def intToFp (t : Fmt) (cp : Nat) (rm : Rnd) (i : Int) : FpRes :=
  let r := flushOut cp t (t.round rm (Fl.ofInt i))
  { bits := r.1, flags := r.2, events := prodEvents t r.1 [Fl.ofInt i] }

/-- Float to an integer of width `w`, signed or not (R82): the pattern of `w` bits. -/
def fpToInt (f : Fmt) (cp : Nat) (rm : Rnd) (w : Nat) (sgn : Bool) (a : Nat) : FpRes :=
  let x := f.decode (flushIn cp f a)
  let lo : Int := if sgn then -((2 ^ (w - 1) : Nat) : Int) else 0
  let hi : Int := if sgn then ((2 ^ (w - 1) : Nat) : Int) - 1 else ((2 ^ w : Nat) : Int) - 1
  let den := denEvent f [a]
  match x with
  | .nan _ => { bits := if cpCVTW cp then 2 ^ (w - 1) else 0, flags := flNV, events := den ||| evCvt }
  | .inf n =>
    { bits := if cpCVTW cp then 2 ^ (w - 1) else truncI (if n then lo else hi) w, flags := flNV, events := den ||| evCvt }
  | .fin .. =>
    let (i, inx) := x.toInt rm
    if lo ≤ i && i ≤ hi then { bits := truncI i w, flags := if inx then flNX else 0, events := den }
    else { bits := if cpCVTW cp then truncI i w else truncI (if i < 0 then lo else hi) w, flags := flNV, events := den ||| evCvt }

/-- FRND (R82). -/
def fpRnd (f : Fmt) (cp : Nat) (rm : Rnd) (a : Nat) : FpRes :=
  let a' := flushIn cp f a
  let x := f.decode a'
  let den := denEvent f [a]
  match x with
  | .nan s => { bits := f.nan, flags := if s then flNV else 0, events := den }
  | .inf _ => { bits := a', events := den }
  | .fin n _ _ => { bits := (f.round rm (.fin n (x.toInt rm).1.natAbs 0)).1, events := den }

/-! ### The FP32 functions (R227, R228, R238) -/

/-- The six functions of R238. -/
inductive FpFun where
  | rcp | rsq | exp2 | log2 | sin | cos
  deriving DecidableEq, Repr

/-- The unbiased exponent of a normal FP32 code. -/
def fp32Exp (x : Nat) : Int := (bitsOf x 30 23 : Int) - 127

/-- One step of FP32 arithmetic by RNE. -/
def rne32 (v : Fl) : Fl := fp32.decode (fp32.round 0 v).1
def add0 (a b : Fl) : Fl := (Fl.add 0 a b).1
def mul0 (a b : Fl) : Fl := (a.mul b).1

/-- `RcpLegacy` (R227). -/
def rcpLegacy (x : Nat) : Nat × Nat :=
  let v := fp32.decode x
  if v.isNaN then (0x7FC00000, 0)
  else if v.isZero || fp32.isSub x then (fp32.withSign v.neg fp32.infCode, flDZ)
  else if v.isInf then (fp32.withSign v.neg 0, 0)
  else
    let i := bitsOf x 22 11
    let y0 : Fl := .fin v.neg (2 ^ 37 / (8192 + 2 * i + 1)) (-24 - fp32Exp x)
    let h := rne32 (add0 .one (mul0 v y0).negate)
    let y := (fp32.round 0 (add0 y0 (mul0 y0 h))).1
    (if y % 2 ^ 31 < 0x00800000 then fp32.withSign v.neg 0 else y, 0)

/-- `RsqLegacy` (R228). -/
def rsqLegacy (x : Nat) : Nat × Nat :=
  let v := fp32.decode x
  if v.isNaN then (0x7FC00000, 0)
  else if v.isZero || fp32.isSub x then (fp32.withSign v.neg fp32.infCode, flDZ)
  else if v.neg then (0x7FC00000, flNV)
  else if v.isInf then (0, 0)
  else
    let e := fp32Exp x
    let p := (e % 2).toNat
    let jj := bitsOf x 22 12
    -- u = un / 4096; the root of u scaled so that floor(2^24 / sqrt u) is an integer division
    let un := (4096 + 2 * jj + 1) * 2 ^ p
    let fl := isqrt (2 ^ 48 * 4096 / un)
    let y0 : Fl := .fin false fl (-24 - (e - (p : Int)) / 2)
    let t := rne32 (mul0 y0 y0)
    let h := rne32 (add0 .one (mul0 v t).negate)
    ((fp32.round 0 (add0 y0 (mul0 (rne32 (y0.scale (-1))) h))).1, 0)

/-- The exact value of a function at a number, with its NV and DZ (R238's table). -/
def fpFunExact (g : FpFun) (x : Fl) : Fl × Nat :=
  match x with
  | .nan s => (.nan false, if s then flNV else 0)
  | .inf n =>
    match g with
    | .rcp => (.zero n, 0)
    | .rsq => if n then (.nan false, flNV) else (.zero false, 0)
    | .exp2 => if n then (.zero false, 0) else (.inf false, 0)
    | .log2 => if n then (.nan false, flNV) else (.inf false, 0)
    | _ => (.nan false, flNV)
  | .fin n m _ =>
    match g with
    | .rcp => Fl.div .one x
    | .rsq =>
      if m = 0 then (.inf n, flDZ) else if n then (.nan false, flNV)
      else -- 1/√x = √(1/x) with bits to spare for one rounding
        (((Fl.div .one x).1).sqrt)
    | .exp2 => (x.exp2, 0)
    | .log2 => if m = 0 then (.inf true, flDZ) else if n then (.nan false, flNV) else (x.log2, 0)
    | .sin => (x.sinCos2pi false, 0)
    | .cos => (x.sinCos2pi true, 0)

/-- A lane of VRCP to VCOS (R238), with R227 and R228 under CPROF.RCPX. -/
def fpFun (g : FpFun) (cp : Nat) (rm : Rnd) (a : Nat) : FpRes :=
  let a' := flushIn cp fp32 a
  let x := fp32.decode a'
  let r :=
    if cpRCPX cp && g == .rcp then rcpLegacy a' else if cpRCPX cp && g == .rsq then rsqLegacy a'
    else let (v, fl) := fpFunExact g x; let r := flushOut cp fp32 (fp32.round rm v); (r.1, fl ||| r.2)
  { bits := r.1, flags := r.2, events := denEvent fp32 [a] ||| prodEvents fp32 r.1 [fp32.decode a] }

/-! ### Arithmetic that no profile reaches (R225) -/

/-- `RoundFP32(x + y)` with a canonical NaN, as the ply and the loom add (R195, R221). -/
def addRne (f : Fmt) (a b : Nat) : Nat := (f.round 0 (Fl.add 0 (f.decode a) (f.decode b)).1).1

/-- IEEE 754-2019 minimum or maximum: −0 below +0, a NaN gives the canonical NaN (R132, R195). -/
def minMaxIeee (f : Fmt) (mx : Bool) (a b : Nat) : Nat := (fpMinMax f 0 mx false a b).bits

end Sys2Proof.Machine
end

