-- ==== Sys2Proof/Machine/Operands.lean ====
section
/-!
DEFINITION. Operand forms and results: the integer forms (R72, R73), the bit forms (R74), branch targets (R58, R75, R76), the
scalar floating operands and results (R77, R79, R82), effective addresses (R59), masks (R232), and the general registers a unit
touches (R121).
-/
namespace Sys2Proof.Machine
open Sys2Proof.Config

/-! ### Integer forms (R72) -/

/-- The operands of an IOP form: the width, the signed and the unsigned values, and the shift amount. -/
structure IopIn where
  n : Nat
  sa : Int
  sb : Int
  ua : Nat
  ub : Nat
  k : Nat

def iopIn (w : Bool) (a b : Word) : IopIn :=
  let n := if w then 32 else 64
  { n := n, sa := signExt a.toNat n, sb := signExt b.toNat n, ua := truncN a.toNat n, ub := truncN b.toNat n,
    k := truncN b.toNat (if w then 5 else 6) }

/-- `Trunc(SignExtend(r, n), 64)`: what an IOP form writes. -/
def iopOut (w : Bool) (r : Int) : Word :=
  let n := if w then 32 else 64
  BitVec.ofInt 64 (signExt (truncI r n) n)

/-- The executing context writes `g(D)` with a function of `g(A)` and `g(B)`. -/
def State.iop (s : State) (d a b : Reg) (w : Bool) (f : IopIn → Int) : State :=
  s.setG d (iopOut w (f (iopIn w (s.me.reg a) (s.me.reg b))))

/-- A division form: `z` is the result for a zero divisor, which traps DIVZ where CPROF says so. -/
def State.iopDiv (s : State) (d a b : Reg) (w : Bool) (z f : IopIn → Int) : State :=
  if (iopIn w (s.me.reg a) (s.me.reg b)).ub = 0 then
    if cpDIVZ s.me.cprof.toNat then s.trap cDIVZ 0 else s.iop d a b w z
  else s.iop d a b w f

/-- `|sa| div |sb|`, negated when exactly one is negative. -/
def divTrunc (a b : Int) : Int :=
  let q : Int := (a.natAbs / b.natAbs : Nat)
  if decide (a < 0) != decide (b < 0) then -q else q

/-- A rotation of `ua` left by `k` in `n` bits. -/
def rolNat (n ua k : Nat) : Nat := (ua <<< k) ||| (ua >>> (n - k))

/-! ### Bit forms (R74) -/

def popCount (n : Nat) (x : Nat) : Nat := ((List.range n).map fun i => (x >>> i) % 2).sum
def clz64 (x : Nat) : Nat := if x = 0 then 64 else 63 - Nat.log2 x
def ctz64 (x : Nat) : Nat := ((List.range 64).find? fun i => (x >>> i) % 2 == 1).getD 64
def brev64 (x : Nat) : Nat := ((List.range 64).map fun i => ((x >>> i) % 2) <<< (63 - i)).sum
def bswap64 (x : Nat) : Nat := ofLeBytes (leBytes x 8).reverse
/-- Position and width of a field as `b` gives them. -/
def fieldPos (b : Nat) : Nat × Nat := (bitsOf b 5 0, bitsOf b 13 8 + 1)
def bfi64 (d a b : Nat) : Nat :=
  let (l, w) := fieldPos b
  let m := truncN ((2 ^ w - 1) <<< l) 64
  (d &&& (2 ^ 64 - 1 - m)) ||| (truncN (a <<< l) 64 &&& m)

/-! ### Branches (R58, R75, R76) -/

/-- The executing context goes on at `t`. -/
def State.goTo (s : State) (t : Word) : State := s.modMe fun c => { c with pc := t, got := [], again := false }
/-- `u + 4 × displacement`, in 64 bits. -/
def branchTarget (u : Word) (disp : Int) : Word := u + BitVec.ofInt 64 (4 * disp)
/-- A conditional branch on the signed value of a register. -/
def State.branch (s : State) (taken : Bool) (disp : BitVec 16) : State :=
  if taken then s.goTo (branchTarget s.me.unit.pc disp.toInt) else s.retire id
/-- A jump to a register's value: ALIGN before any write where it is no multiple of 4. -/
def State.jump (s : State) (t : Word) (f : Context → Context) : State :=
  if t.toNat % 4 != 0 then s.trap cALIGN t else (s.modMe f).goTo t
/-- g14, which calls write (R16). -/
def linkReg : Reg := 14

/-! ### Scalar floating operands and results (R77, R79) -/

def fopFmt (dbl : Bool) : Fmt := if dbl then fp64 else fp32
/-- The executing context writes a floating result, or traps COMPAT for the lowest enabled event (R79). -/
def State.fopWrite (s : State) (d : Reg) (r : FpRes) (v : Word) : State :=
  match lowestEvent (r.events &&& cpMask s.me.cprof.toNat) with
  | some b => s.takeTrap s.cur { s.me.unit.info cCOMPAT 0 with cls := b, lanes := 1 }
  | none => s.retire fun c => (c.raise r.flags).setReg d v
/-- A two-operand form whose result fills the format's bits. -/
def State.fop (s : State) (d a b : Reg) (f : Nat → Nat → Nat → FpRes) : State :=
  let r := f s.me.cprof.toNat (s.me.reg a).toNat (s.me.reg b).toNat
  s.fopWrite d r (BitVec.ofNat 64 r.bits)
/-- FADD to FSQRT: the third operand is the old `g(D)` (R77). -/
def State.fopArith (s : State) (op : FpOp) (d a b : Reg) (dbl : Bool) (rf : BitVec 2) : State :=
  s.fop d a b fun cp x y => fpArith op (fopFmt dbl) cp (effRM cp rf.toNat) x y (s.me.reg d).toNat

/-- The rounding mode of FCVT and FRND: DIR, else EffRM (R77, R82). -/
def convRM (cp : Nat) (cf : BitVec 4) : Rnd :=
  match bitsOf cf.toNat 3 2 with | 1 => 2 | 2 => 3 | _ => effRM cp (bitsOf cf.toNat 1 0)

/-- FCVT by its code (R82): the result and the register it gives. -/
def fcvt (k : Nat) (cp : Nat) (rm : Rnd) (a : Nat) : FpRes × Word :=
  let raw := fun (r : FpRes) => (r, BitVec.ofNat 64 r.bits)
  let sx := fun (r : FpRes) => (r, BitVec.ofInt 64 (signExt r.bits 32))
  match k with
  | 0 => raw (fpToFp fp32 fp64 cp rm a)
  | 1 => raw (fpToFp fp64 fp32 cp rm a)
  | 2 => raw (fpToInt fp32 cp rm 64 true a)
  | 3 => raw (fpToInt fp64 cp rm 64 true a)
  | 4 => raw (fpToInt fp32 cp rm 64 false a)
  | 5 => raw (fpToInt fp64 cp rm 64 false a)
  | 6 => sx (fpToInt fp32 cp rm 32 true a)
  | 7 => sx (fpToInt fp64 cp rm 32 true a)
  | 8 => raw (fpToInt fp32 cp rm 32 false a)
  | 9 => raw (fpToInt fp64 cp rm 32 false a)
  | 10 => raw (intToFp fp32 cp rm (signExt a 64))
  | 11 => raw (intToFp fp64 cp rm (signExt a 64))
  | 12 => raw (intToFp fp32 cp rm (a : Int))
  | _ => raw (intToFp fp64 cp rm (a : Int))

/-! ### Addresses and masks -/

/-- The effective address of an M-format access (R59). -/
def eaOff (base : Word) (off : BitVec 12) : Word := base + BitVec.ofInt 64 off.toInt
def eaLit (base lit : Word) : Word := base + lit
/-- Bytes of a size code (R52). -/
def szBytes (sz : BitVec 2) : Nat := 2 ^ sz.toNat
/-- Bytes of an AMO or DUP form by its W bit (R53). -/
def wBytes (w : Bool) : Nat := if w then 4 else 8

/-- The mask of an MG field: none where it is 0, else the register it names (R52, R232). -/
def Context.maskOf (c : Context) (mg : Reg) : Option Nat := if mg = 0 then none else some (c.reg mg).toNat

/-! ### General registers that a unit reads or writes (R121) -/

def mgRegs (mg : Reg) : List Reg := if mg = 0 then [] else [mg]

/-- The general registers an instruction reads or writes; the deferred-update forms read their key register where C names
one. Unlisted instructions touch none. -/
def Instr.regsUsed : Instr → List Reg
  | .add d a b _ | .sub d a b _ | .and_ d a b _ | .or_ d a b _ | .xor d a b _ | .andn d a b _ | .shl d a b _ | .shr d a b _
  | .sar d a b _ | .rol d a b _ | .mul d a b _ | .mulhs d a b _ | .mulhn d a b _ | .divs d a b _ | .divn d a b _
  | .rems d a b _ | .remn d a b _ | .mins d a b _ | .maxs d a b _ | .minn d a b _ | .maxn d a b _ | .slts d a b _
  | .sltn d a b _ | .seq d a b _ | .sne d a b _ => [d, a, b]
  | .addi d a _ | .addiLiteral d a _ | .andi d a _ | .andiLiteral d a _ | .ori d a _ | .oriLiteral d a _ | .xori d a _
  | .xoriLiteral d a _ | .slti d a _ | .sltiLiteral d a _ | .shli d a _ | .shri d a _ | .sari d a _ | .roli d a _ => [d, a]
  | .movi d _ | .moviLiteral d _ => [d]
  | .popc d a | .clz d a | .ctz d a | .brev d a | .bswap d a => [d, a]
  | .bfxs d a b | .bfxn d a b | .bfi d a b => [d, a, b]
  | .sel d a b c => [d, a, b, c]
  | .beqz a _ | .bnez a _ | .bltz a _ | .bgez a _ | .bgtz a _ | .blez a _ | .jmpr a => [a]
  | .call _ | .ret => [linkReg]
  | .callr a => [a, linkReg]
  | .ld d a _ _ | .ldLiteral d a _ _ | .ldSigned d a _ _ | .ldSignedLiteral d a _ _ | .st d a _ _ | .stLiteral d a _ _
  | .ldf d a _ _ | .ldfLiteral d a _ _ | .lde d a _ _ | .ldeLiteral d a _ _ | .stf d a _ _ | .stfLiteral d a _ _
  | .stw d a _ _ | .stwLiteral d a _ _ => [d, a]
  | .feq d a _ | .feqLiteral d a _ => [d, a]
  | .fec a _ | .fecLiteral a _ => [a]
  | .aadd d a b _ | .aand d a b _ | .aor d a b _ | .axor d a b _ | .amins d a b _ | .amaxs d a b _ | .aminn d a b _
  | .amaxn d a b _ | .aswap d a b _ | .afadd d a b _ | .afmin d a b _ | .afmax d a b _ => [d, a, b]
  | .acas d a b c _ => [d, a, b, c]
  | .dadd a b c _ | .dmins a b c _ | .dmaxs a b c _ | .dor a b c _ => a :: b :: mgRegs c
  | .dfadd a b c | .dfmin a b c | .dfmax a b c => a :: b :: mgRegs c
  | .dstore a b c _ => a :: b :: mgRegs c
  | .send a b n1 => a :: ((List.range (n1.toNat + 1)).map fun i => b + BitVec.ofNat 4 i)
  | .recv d a => [d, a]
  | .recvt d a c => [d, a, c]
  | .chq d a | .reap d a | .migr d a | .gqry d a | .subq d a | .lqry d a | .resume d a _ => [d, a]
  | .chbind d a b | .launch d a b => [d, a, b]
  | .spawn d a b c => [d, a, b, c]
  | .exit a | .sleep a | .gbar a | .garr a | .gwait a | .ply a | .suboff a => [a]
  | .srd d _ => [d]
  | .swr _ c => [c]
  | .subon a b c => [a, b, c]
  | .trap _ b => [b]
  | .fadd d a b _ _ | .fsub d a b _ _ | .fmul d a b _ _ | .ffma d a b _ _ | .fdiv d a b _ _ => [d, a, b]
  | .fsqrt d a _ _ => [d, a]
  | .fmin d a b _ | .fmax d a b _ | .fminm d a b _ | .fmaxm d a b _ | .fceq d a b _ | .fclt d a b _ | .fcle d a b _
  | .fcun d a b _ => [d, a, b]
  | .fabs d a _ | .fneg d a _ => [d, a]
  | .fcvt d a _ _ | .frnd d a _ _ => [d, a]
  | .vadd _ _ _ _ mg _ | .vsub _ _ _ _ mg _ | .vmul _ _ _ _ mg _ | .vfma _ _ _ _ mg _ => mgRegs mg
  | .vmin _ _ _ _ mg | .vmax _ _ _ _ mg => mgRegs mg
  | .vminm _ _ _ mg | .vmaxm _ _ _ mg => mgRegs mg
  | .vabs _ _ _ mg | .vneg _ _ _ mg => mgRegs mg
  | .vdiv _ _ _ mg _ => mgRegs mg
  | .vsqrt _ _ mg _ | .vrcp _ _ mg _ | .vrsq _ _ mg _ | .vexp2 _ _ mg _ | .vlog2 _ _ mg _ | .vsin _ _ mg _
  | .vcos _ _ mg _ => mgRegs mg
  | .vand _ _ _ mg | .vor _ _ _ mg | .vxor _ _ _ mg | .vshl _ _ _ mg | .vshr _ _ _ mg | .vsar _ _ _ mg
  | .vceq _ _ _ mg | .vperm _ _ _ mg => mgRegs mg
  | .vclt _ _ _ _ mg | .vcle _ _ _ _ mg => mgRegs mg
  | .vsel _ _ _ _ mg => mgRegs mg
  | .vld _ a _ mg _ | .vbcst _ a _ mg _ => a :: mgRegs mg
  | .vst _ a mg _ => a :: mgRegs mg
  | .vlds _ a b mg _ => a :: b :: mgRegs mg
  | .vsts _ a b mg => a :: b :: mgRegs mg
  | .vldb _ a b _ => [a, b]
  | .vstb _ a b => [a, b]
  | .vgath _ a _ mg _ => a :: mgRegs mg
  | .vscat _ a mg _ => a :: mgRegs mg
  | .vcvt _ _ _ _ mg _ => mgRegs mg
  | .vdq _ _ _ _ mg => mgRegs mg
  | .vreda _ _ _ mg _ | .vscan _ _ _ mg _ => mgRegs mg
  | .vredx _ _ _ mg | .vredn _ _ _ mg => mgRegs mg
  | .vmsk g _ => [g]
  | .vins _ g _ => [g]
  | .vext g _ _ _ => [g]
  | .vspl _ g _ => [g]
  | .lmm d a b _ _ _ _ _ _ _ => [d, a, b]
  | .lmmg d a b c _ _ _ _ _ _ => [d, a, b, c]
  | .lbld d a b _ _ _ => [d, a, b]
  | .laclr a _ _ _ => [a]
  | .lacp d a _ _ _ _ | .lacin d a _ _ _ _ => [d, a]
  | .lstat d => [d]
  | .pseed a | .pfork a => [a]
  | .ptake d a b => [d, a, b]
  | .pload d a _ _ _ _ => [d, a]
  | .ptest d a b c => [d, a, b, c]
  | .pqry d a => [d, a]
  | .fins d a b c | .lres d a b c | .lclr d a b c => [d, a, b, c]
  | .lcnt d a b => [d, a, b]
  | .lpool d a => [d, a]
  | .abegin d => [d]
  | .apush a b c => [a, b, c]
  | .aqry d a | .afix d a _ => [d, a]
  | .cpset _ c => [c]
  | .cpgo d | .cptry d => [d]
  | .cpq d a | .cpcan d a => [d, a]
  | _ => []

end Sys2Proof.Machine
end

