-- ==== Sys2Proof/Machine/Registers.lean ====
section
/-!
DEFINITION. The registers of a context as software sees them: STATUS (R17), pinning (R40), the special registers (R92-R102), the copy
staging set (R296, R301), and the window image of a context (R331, R332).
-/
namespace Sys2Proof.Machine
open Sys2Proof.Config

/-! ### Pinning (R40) -/

/-- The thread owns an end of a channel of its job. -/
def Job.ownsChannel (jb : Job) (thidx : Nat) : Bool :=
  jb.chans.any fun e => e.2.reader == thidx || e.2.writer == thidx

/-- COMPL of CMODE includes the mailbox, or the flag (R296). -/
def Staging.toMailbox (g : Staging) : Bool := bitsOf g.cmode.toNat 2 2 == 1
def Staging.toFlag (g : Staging) : Bool := bitsOf g.cmode.toNat 3 3 == 1

/-- The context has a copy outstanding whose completion goes to its mailbox. -/
def State.copyPending (s : State) (k : Nat) : Bool :=
  s.engines.any fun e => e.2.cmds.any fun c =>
    c.key == k && c.born == (s.ctx k).born && c.stg.toMailbox && !c.mute && some c.job == (s.spindle (keySp k)).job

/-- A context that never migrates now (R40). -/
def State.pinned (s : State) (k : Nat) : Bool :=
  let c := s.ctx k
  keyCtx k == 0 || c.handler || c.pairtask || c.thidx == compThidx || !c.mailbox.isEmpty || !c.mailHeld.isEmpty ||
  (s.jobAt (keySp k)).ownsChannel c.thidx || s.copyPending k

/-! ### STATUS (R17) -/

def CtxState.num : CtxState → Nat
  | .free => 0 | .ready => 1 | .parked => 2 | .departing => 3 | .frozen => 4

/-- STATUS of a context. -/
def State.status (s : State) (k : Nat) : Word :=
  let c := s.ctx k
  if c.st == .free then 0
  else BitVec.ofNat 64
    (c.pretag.toNat * 2 ^ 32 + c.rels.length * 2 ^ 12 + boolN (s.pinned k) * 2 ^ 11 + boolN c.pairtask * 2 ^ 10 +
     boolN c.handler * 2 ^ 9 + boolN c.supv * 2 ^ 8 + c.park * 2 ^ 4 + c.st.num)

/-! ### Group memberships (R42, R98) -/

/-- GSET of a thread: the groups that list it, at most four, ascending, each with its valid bit. -/
def gsetOf (jb : Job) (thidx : Nat) : Word :=
  let gs := ((jb.groups.filter fun e => e.2.contains thidx).map (·.1)).take 4
  BitVec.ofNat 64 ((gs.zipIdx.map fun e => (256 + e.1) * 2 ^ (16 * e.2)).sum)
/-- A GSET holds a group. -/
def gsetHas (gset : Word) (g : Nat) : Bool :=
  (List.range 4).any fun i => bitsOf gset.toNat (16 * i + 8) (16 * i + 8) == 1 && bitsOf gset.toNat (16 * i + 7) (16 * i) == g

/-! ### Special registers (R92-R102) -/

/-- SPNXY of a spindle (R94). -/
def spnxy (chip sp : Nat) : Word :=
  BitVec.ofNat 64 (chip * 2 ^ 42 + sp * 2 ^ 28 + dieOf sp * 2 ^ 24 + clusterOf sp * 2 ^ 14 + spY sp * 2 ^ 7 + spX sp)
/-- JOBNO of a job (R95). -/
def Job.jobno (jb : Job) : Word := BitVec.ofNat 64 (jb.queue * 2 ^ 32 + jb.serial % 2 ^ 32)
/-- RQCLS of a job (R99). -/
def Job.rqcls (jb : Job) : Word :=
  BitVec.ofNat 64 (boolN jb.debug * 8 + boolN jb.actcls * 4 + boolN jb.replay * 2 + boolN jb.repeat_)

/-- Reading a special register of the executing context; none for a number above 0x11. -/
def State.readSr (s : State) (sr : Nat) : Option Word :=
  let c := s.me
  let jb := s.myJob
  match sr with
  | 0x00 => some (BitVec.ofNat 64 s.now)
  | 0x01 => some (BitVec.ofNat 64 c.thidx)
  | 0x02 => some (spnxy s.trebex.chip s.here)
  | 0x03 => some (BitVec.ofNat 64 (keyCtx s.cur))
  | 0x04 => some jb.jobno
  | 0x05 => some jb.lseed
  | 0x06 => some c.cprof
  | 0x07 => some c.fstat
  | 0x08 => some c.gset
  | 0x09 => some jb.param
  | 0x0A => some jb.rqcls
  | 0x0B => some c.lprog
  | 0x0C => some c.actid
  | 0x0D => some (c.cktab.zeroExtend 64)
  | 0x0E => some c.plyg
  | 0x0F => some c.trapv
  | 0x10 => some c.cpinj
  | 0x11 => some c.winsel
  | _ => none

/-- SWR finds the register read-only. -/
def srReadOnly (sr : Nat) : Bool := [0x00, 0x01, 0x02, 0x03, 0x04, 0x05, 0x08, 0x09, 0x0A, 0x0D].contains sr
/-- SRD needs supervisor level. -/
def srReadSup (sr : Nat) : Bool := sr == 0x0F || sr == 0x11
/-- SWR needs supervisor level, for the executing context's job. -/
def Job.srWriteSup (jb : Job) (sr : Nat) : Bool :=
  sr == 0x0B || sr == 0x0F || sr == 0x11 || (sr == 0x0E && decide (0 < jb.pliesDone)) || (sr == 0x10 && !jb.debug)

/-- A value that sets a reserved bit of CPINJ, or arms it for no command (R101). -/
def cpinjBad (v : Nat) : Bool := bitsOf v 62 48 != 0 || (bitsOf v 63 63 == 1 && bitsOf v 47 32 == 0)

/-- A value that SWR refuses for a writable register. -/
def srBad (sr v : Nat) : Bool :=
  match sr with
  | 0x06 => cprofBad v
  | 0x07 => v / 2 ^ 7 != 0
  | 0x0B => bitsOf v 62 48 != 0
  | 0x0C => v / 2 ^ 32 != 0
  | 0x0E => v / 2 ^ 8 != 0
  | 0x0F => bitsOf v 63 52 != 0 || bitsOf v 15 0 != 0
  | 0x10 => cpinjBad v
  | 0x11 => bitsOf v 62 18 != 0
  | _ => false

/-- A writable register takes a value. -/
def Context.writeSr (c : Context) (sr : Nat) (v : Word) : Context :=
  match sr with
  | 0x06 => { c with cprof := v }
  | 0x07 => { c with fstat := v }
  | 0x0B => { c with lprog := v }
  | 0x0C => { c with actid := v }
  | 0x0E => { c with plyg := v }
  | 0x0F => { c with trapv := v }
  | 0x10 => { c with cpinj := v }
  | 0x11 => { c with winsel := v }
  | _ => c

/-! ### The staging set (R296, R301) -/

/-- A value that sets a reserved bit or code of a staging register. -/
def stageBad (code v : Nat) : Bool :=
  match code with
  | 2 => v / 2 ^ 8 != 0
  | 3 | 9 | 10 => v / 2 ^ 32 != 0
  | 6 => v / 2 ^ 16 != 0
  | 11 => v / 2 ^ 9 != 0 || bitsOf v 5 4 == 3 || bitsOf v 3 2 == 0
  | _ => false

def Staging.get (g : Staging) (code : Nat) : Word :=
  match code with
  | 0 => g.csrc | 1 => g.cdst | 2 => g.cpeer | 3 => g.clen | 4 => g.csstr | 5 => g.cdstr | 6 => g.crows | 7 => g.cflag
  | 8 => g.cfval | 9 => g.cseed | 10 => g.cexp | _ => g.cmode

def Staging.put (g : Staging) (code : Nat) (v : Word) : Staging :=
  match code with
  | 0 => { g with csrc := v } | 1 => { g with cdst := v } | 2 => { g with cpeer := v } | 3 => { g with clen := v }
  | 4 => { g with csstr := v } | 5 => { g with cdstr := v } | 6 => { g with crows := v } | 7 => { g with cflag := v }
  | 8 => { g with cfval := v } | 9 => { g with cseed := v } | 10 => { g with cexp := v } | _ => { g with cmode := v }

/-! ### The window image of a context (R331, R332) -/

/-- The word at an offset of the window of context `k`: offsets not listed read as zero. -/
def State.windowRead (s : State) (k off : Nat) : Word :=
  let c := s.ctx k
  if off = 0x000 then c.pc
  else if off = 0x008 then s.status k
  else if 0x010 ≤ off && off ≤ 0x088 then c.regN ((off - 0x010) / 8)
  else if off = 0x090 then BitVec.ofNat 64 (packLanes 4 (c.tag.toList.map (·.toNat)))
  else if 0x0A0 ≤ off && off ≤ 0x0D8 then (c.side.toList).getD ((off - 0x0A0) / 8) 0
  else if 0x100 ≤ off && off ≤ 0x2F8 then
    BitVec.ofNat 64 (laneOf ((c.v.toList.getD ((off - 0x100) / 64) 0).toNat) 64 ((off - 0x100) % 64 / 8))
  else if 0x380 ≤ off && off ≤ 0x3D8 then c.staging.get ((off - 0x380) / 8)
  else
    match off with
    | 0x300 => c.cprof
    | 0x308 => c.fstat
    | 0x310 => c.gset
    | 0x318 => BitVec.ofNat 64 c.thidx
    | 0x320 => c.actid
    | 0x328 => c.plyg
    | 0x330 => c.lprog
    | 0x338 => c.cktab.zeroExtend 64
    | 0x340 => c.loomStat
    | 0x348 => c.cpinj
    | 0x3E0 => BitVec.ofNat 64 (c.chain.id + c.chain.check * 2 ^ 32 + boolN c.chain.final.isSome * 2 ^ 34)
    | 0x3E8 => BitVec.ofNat 64 (c.chain.final.getD 0)
    | _ => 0

/-- The context with a word of its window image replaced; none where the store is refused: an offset that is read-only or
not listed, or a reserved bit or combination. A tag of 15 is stored as 0; sidecar bits that a register's tag leaves at 0 are reserved,
and a new tag leaves those it uses (R219). -/
def Context.windowWrite (c : Context) (off : Nat) (v : Word) : Option Context :=
  let n := v.toNat
  if off = 0x000 then (if n % 4 = 0 then some { c with pc := v } else none)
  else if 0x010 ≤ off && off ≤ 0x088 then some (c.setRegN ((off - 0x010) / 8) v)
  else if off = 0x090 then
    if n / 2 ^ 32 != 0 then none
    else
      let t := fun (i : Nat) => let x := bitsOf n (4 * i + 3) (4 * i); if x = 15 then 0 else x
      some { c with tag := Vector.ofFn fun i => BitVec.ofNat 4 (t i.val),
                    side := Vector.ofFn fun i => BitVec.ofNat 64 ((c.side[i]).toNat % 2 ^ tagSide (t i.val)) }
  else if 0x0A0 ≤ off && off ≤ 0x0D8 then
    let i := (off - 0x0A0) / 8
    if h : i < 8 then (if n / 2 ^ tagSide (c.tag[i]).toNat != 0 then none else some { c with side := c.side.set i v h }) else none
  else if 0x100 ≤ off && off ≤ 0x2F8 then
    let i := (off - 0x100) / 64; let j := (off - 0x100) % 64 / 8
    some (if h : i < 8 then
      let old := lanesOf (c.v[i]).toNat 64 8
      { c with v := c.v.set i (BitVec.ofNat 512 (packLanes 64 (old.set j n))) h } else c)
  else if 0x380 ≤ off && off ≤ 0x3D8 then
    let code := (off - 0x380) / 8
    if stageBad code n then none else some { c with staging := c.staging.put code v }
  else
    let sr := fun k => if srBad k n then none else some (c.writeSr k v)
    match off with
    | 0x300 => sr 0x06
    | 0x308 => sr 0x07
    | 0x320 => sr 0x0C
    | 0x328 => sr 0x0E
    | 0x330 => sr 0x0B
    | 0x340 => if bitsOf n 55 48 != 0 then none else some { c with loomStat := v }
    | 0x348 => sr 0x10
    | _ => none

/-- A window read or store at the selected spindle: its value, or none where it traps ILLEGAL. -/
def State.windowLoad (s : State) (k off : Nat) : Option Word :=
  if (s.ctx k).st == .frozen then some (s.windowRead k off) else none
def State.windowStore (s : State) (k off : Nat) (v : Word) : Option State :=
  if (s.ctx k).st == .frozen then ((s.ctx k).windowWrite off v).map (s.setCtx k) else none

end Sys2Proof.Machine
end

