-- ==== Sys2Proof/Machine/Access.lean ====
section
/-!
DEFINITION. How a scalar memory access reaches its home (R115-R132): the waits before it, the local bank's work, the remote
request, migration (R33, R34), the bank's synchronising forms (R127-R129), atomics (R132), the record of races (R163) and the
context window of a handler (R331, R332).
-/
namespace Sys2Proof.Machine
open Sys2Proof.Config

/-! ### Waits before an access (R120, R122) -/

/-- The context has an outstanding REL operation on the word. -/
def Context.relOn (c : Context) (fa : Nat) : Bool := c.rels.any fun r => r.word == wordOf fa
/-- The unit carries REL with release (ORD bit 1). -/
def Context.relRelease (c : Context) : Bool := match c.unit.rel with | some o => o.toNat / 2 == 1 | none => false
/-- The unit carries REL with acquire (ORD bit 0). -/
def Context.relAcquire (c : Context) : Bool := match c.unit.rel with | some o => o.toNat % 2 == 1 | none => false

/-- The access must wait with PARK 6: it reads a word with an outstanding REL operation (R122), its release waits for the earlier
ones, or a remote REL operation finds eight outstanding (R120). -/
def State.mustWait (s : State) (fa : Nat) (reads : Bool) : Bool :=
  let c := s.me
  (reads && c.relOn fa) || (c.relRelease && !c.rels.isEmpty) ||
  (c.unit.rel.isSome && faSp fa != s.here && decide (8 ≤ c.rels.length))
/-- It waits: for every operation, for those on its word, or for the count to fall. -/
def State.parkWait (s : State) (fa : Nat) (reads : Bool) : State :=
  let c := s.me
  if c.relRelease && !c.rels.isEmpty then s.parkAll
  else if reads && c.relOn fa then s.parkRel 6 false fun o => o.word == wordOf fa
  else s.parkRel 6 true fun _ => true

/-- A recorded store under REL that arrives ahead of its turn parks its context, which has passed its unit, with PARK 2 until it is
performed (R163). -/
def State.parkReplay (s : State) (k tok : Nat) : State :=
  s.modCtx k fun c => { c with st := .parked, park := 2, kont := .reissue, unit := { pc := c.pc }, waitToks := [tok], waitAny := false, again := false }
/-- A store under REL of a context that has arrived ahead of its turn and still waits for it. -/
def State.aheadOf (s : State) (k : Nat) : Option Nat :=
  (s.msgs.find? fun m => m.early && m.asker == k && ((s.ctx k).rels.any fun o => o.tok == m.tok) && s.replayHeld m).map (·.tok)

/-- A request goes to the home of `fa`: its context parks for the answer, or under REL goes on with the operation outstanding. -/
def State.requestVia (s : State) (cls : MeshClass) (why : Nat) (va : Word) (fa : Nat) (body : Body) (k : Kont)
    (dest : Option (Reg × Nat × Bool × Bool)) : State :=
  let (tok, s') := s.takeTok
  let s' := s'.send { id := 0, cls := cls, src := s.here, dst := faSp fa, job := s.myJobNo, ctx := keyCtx s.cur, tok := tok,
                      va := va, who := s.myWho, born := s.me.born, rel := s.me.unit.rel.isSome, body := body }
  match s.me.unit.rel with
  | some _ =>
    s'.retire fun c => { c with rels := c.rels ++
      [{ tok := tok, word := wordOf fa, dest := dest, pc := c.unit.pc, va := va, acq := c.relAcquire, sentAt := s.now }] }
  | none => s'.parkFor why tok k
/-- A request of the request class. -/
def State.request (s : State) (why : Nat) (va : Word) (fa : Nat) (body : Body) (k : Kont) (dest : Option (Reg × Nat × Bool × Bool)) : State :=
  s.requestVia .request why va fa body k dest

/-! ### Races between plain stores (R163) -/

/-- A plain store at its home in a repeatable launch: every remote plain store of the job to a word that another thread, of whatever
job and though of the same index, also stored in the same ply phase is traced, up to 1,024 entries in its bank's ring. -/
def State.noteStore (s : State) (fa src ctx who born : Nat) (remote : Bool) : State :=
  let home := faSp fa
  let jb := s.jobAt home
  if jb.repeat_ then
    let w := wordOf fa
    let new : PlainStore := { word := w, src := src, ctx := ctx, who := who, born := born, remote := remote && jb.rect.has src, logged := false }
    let l := (s.spindle home).plain ++ [new]
    let raced := l.any fun p => p.word == w && (p.who != who || p.born != born)
    let todo := if raced then l.filter fun p => p.word == w && p.remote && !p.logged else []
    let l := if raced then l.map fun p => if p.word == w && p.remote then { p with logged := true } else p else l
    let ents := todo.map fun p => ({ phase := jb.pliesDone, ctx := p.ctx, src := jb.rect.index p.src, home := jb.rect.index home,
                                     lcl := faLocal w } : TraceEntry)
    s.modSp home fun p =>
      let ring := if bankOf fa = 0 then p.ring0 else p.ring1
      let ring' := (ring ++ ents).take 1024
      let lost := p.traceLost || decide (1024 < ring.length + ents.length)
      if bankOf fa = 0 then { p with plain := l, ring0 := ring', traceLost := lost }
      else { p with plain := l, ring1 := ring', traceLost := lost }
  else s

/-- A recorded store of a spindle of the rectangle has been performed: its entry leaves the replay list. -/
def State.replayDone (s : State) (fa src ctx : Nat) : State :=
  let home := faSp fa
  let jb := s.jobAt home
  if jb.replay && jb.rect.has src then
    let mine := (s.spindle home).replay.find? fun e =>
      e.lcl == faLocal (wordOf fa) && e.src == jb.rect.index src && e.ctx == ctx && e.phase == jb.pliesDone
    match mine with
    | some e => s.modSp home fun p => { p with replay := p.replay.erase e }
    | none => s
  else s

/-! ### Copy regions under a page's kind (R151) -/

/-- The bytes an access of a page writes meet a copy region. -/
def State.hitsCopy (s : State) (akind fa n : Nat) : Bool :=
  if akind = 0 then s.inCopyRegion fa n
  else
    let (_, eb, en, sa) := aliasBlock akind fa
    s.inCopyRegion eb en || s.inCopyRegion sa 1

/-! ### Migration (R33, R34) -/

/-- The context that a migration message describes: what R34 carries, everything else as admission sets it (R37). -/
def migrantImage (c : Context) : Context :=
  { pc := c.unit.next, g := c.g, supv := c.supv, thidx := c.thidx, cprof := c.cprof, gset := c.gset, actid := c.actid,
    plyg := c.plyg, fstat := c.fstat &&& 0xFF, born := c.born, pretag := BitVec.ofNat 32 (packLanes 4 (c.tag.toList.map (·.toNat))) }

/-- The executing context begins its migration to the home of a load. -/
def State.migrate (s : State) (va : Word) (fa akind n : Nat) (sx : Bool) (d : Reg) : State :=
  if !s.me.rels.isEmpty then s.parkAll
  else
    let (tok, s') := s.takeTok
    let m : Migrant := { image := migrantImage s.me, fa := fa, n := n, sx := sx, d := d, carries := true, kind := akind, job := s.myJobNo }
    let s' := s'.send { id := 0, cls := .migrate, src := s.here, dst := faSp fa, job := s.myJobNo, ctx := keyCtx s.cur, tok := tok,
                        va := va, who := s.myWho, body := .migrate m }
    s'.modMe fun c => { c with st := .departing, park := 13, tok := tok, again := false }

/-! ### Plain loads and stores -/

/-- A load performed in place. -/
def State.loadHere (s : State) (d : Reg) (fa akind n : Nat) (sx : Bool) : State :=
  if s.pagePoison akind fa n false then s.consumePage s.here akind fa n
  else s.setG d (extend (s.pageRead akind fa n) n sx)

/-- A load by the path of R116, its page found. -/
def State.loadAt (s : State) (d : Reg) (va : Word) (fa akind n : Nat) (sx : Bool) : State :=
  if s.mustWait fa true then s.parkWait fa true
  else if faSp fa = s.here then s.loadHere d fa akind n sx
  else if s.me.unit.far || s.pinned s.cur then
    s.request 1 va fa (.read fa n akind) (.load d n sx) (some (d, n, sx, false))
  else s.migrate va fa akind n sx d

/-- A store performed in place: the home's bank writes, FE bits are left. -/
def State.storeHere (s : State) (va : Word) (fa akind n v : Nat) : State :=
  if s.hitsCopy akind fa n then s.trap cSUBWR va
  else if s.pagePoison akind fa n true then s.consumePage s.here akind fa n
  else ((s.noteStore fa s.here (keyCtx s.cur) s.myWho s.me.born false).pageWrite akind fa n v s.myWho).retire id

/-- A store by the path of R116, its page found. -/
def State.storeAt (s : State) (va : Word) (fa akind n v : Nat) : State :=
  if s.mustWait fa false then s.parkWait fa false
  else if faSp fa = s.here then s.storeHere va fa akind n v
  else s.request 2 va fa (.write fa n v akind) .advance none

/-! ### The context window of a handler (R331, R332) -/

/-- The context that WINSEL selects. -/
def winTarget (winsel : Word) : Nat := keyOf (bitsOf winsel.toNat 17 4) (bitsOf winsel.toNat 3 0)

/-- WINSEL selects a context of a spindle of the job. -/
def State.winValid (s : State) : Bool :=
  bitsOf s.me.winsel.toNat 63 63 == 1 && s.myJob.rect.has (keySp (winTarget s.me.winsel))

/-- LD of 64 bits in the window: performed at the selected context's spindle, as a remote read where that is another one. -/
def State.windowLd (s : State) (d : Reg) (va : Word) : State :=
  let k := winTarget s.me.winsel
  let off := va.toNat % 2 ^ 16
  if !s.winValid then s.trap cILLEGAL va
  else if s.mustWait (faOf (keySp k) 0) false then s.parkWait (faOf (keySp k) 0) false
  else if keySp k = s.here then
    match s.windowLoad k off with | some v => s.setG d v | none => s.trap cILLEGAL va
  else s.request 1 va (faOf (keySp k) 0) (.read (keyCtx k * 2 ^ 16 + off) 8 3) (.load d 8 false) (some (d, 8, false, false))

/-- ST of 64 bits in the window. -/
def State.windowSt (s : State) (d : Reg) (va : Word) : State :=
  let k := winTarget s.me.winsel
  let off := va.toNat % 2 ^ 16
  if !s.winValid then s.trap cILLEGAL va
  else if s.mustWait (faOf (keySp k) 0) false then s.parkWait (faOf (keySp k) 0) false
  else if keySp k = s.here then
    match s.windowStore k off (s.me.reg d) with | some s' => s'.retire id | none => s.trap cILLEGAL va
  else s.request 2 va (faOf (keySp k) 0) (.write (keyCtx k * 2 ^ 16 + off) 8 (s.me.reg d).toNat 3) .advance none

/-! ### LD and ST (R124, R125) -/

/-- Alias pages take LD and ST of 2, 4 and 8 bytes (R109). -/
def plainNeed (n : Need) (bytes : Nat) : Need := { n with alias_ := decide (2 ≤ bytes) }

/-- The executing context's found page becomes the most recently used of its TLB. -/
def State.touch (s : State) (va : Word) : State := s.tlbTouch s.here s.myJobNo va

/-- LD at an effective address. -/
def State.ld (s : State) (d : Reg) (ea : Word) (n : Nat) (sx : Bool) : State :=
  if ea.toNat % n != 0 then s.trap cALIGN ea
  else if s.me.inWindow ea && n == 8 then s.windowLd d ea
  else s.onChk (s.xlate ea (plainNeed needR n)) fun p => (s.touch ea).loadAt d ea p.1 p.2.akind n sx

/-- ST at an effective address. -/
def State.st (s : State) (d : Reg) (ea : Word) (n : Nat) : State :=
  if ea.toNat % n != 0 then s.trap cALIGN ea
  else if s.me.inWindow ea && n == 8 then s.windowSt d ea
  else s.onChk (s.xlate ea (plainNeed needW n)) fun p =>
    (s.touch ea).storeAt ea p.1 p.2.akind n ((s.me.reg d).toNat % 2 ^ (8 * n))

/-! ### Synchronising forms at the bank (R127-R129) -/

/-- The codes of the forms: 0 LDF, 1 LDE, 2 FEQ, 3 STF, 4 STW, 5 FEC. -/
def opLDF : Nat := 0
def opLDE : Nat := 1
def opFEQ : Nat := 2
def opSTF : Nat := 3
def opSTW : Nat := 4
def opFEC : Nat := 5
/-- The form writes its word or its FE bit: it is refused in a copy region (R151). -/
def syncWrites (op : Nat) : Bool := op == opLDE || decide (opSTF ≤ op)

/-- What the bank answers: a value, an acknowledgement, nothing yet, or NACK busy. -/
inductive SyncAns where
  | value (v : Nat)
  | done
  | wait
  | busy
  deriving DecidableEq, Repr

/-- Waiters of the bank that holds `fa` (R129). -/
def State.waitersIn (s : State) (fa : Nat) : Nat :=
  ((s.spindle (faSp fa)).waiters.filter fun x => bankOf x.fa == bankOf fa).length

/-- The request waits, or finds its bank's table full. -/
def State.enqueue (s : State) (x : Waiter) : SyncAns × State :=
  if waiterSlots ≤ s.waitersIn x.fa then (.busy, s)
  else (.wait, s.modSp (faSp x.fa) fun p => { p with waiters := p.waiters ++ [x] })

/-- One form performed at the home bank (R127): the answer and the state, wake procedures run. -/
def State.bankSync (s : State) (x : Waiter) (who : Nat) : SyncAns × State :=
  let full := s.full x.fa
  match x.op with
  | 0 => if full then (.value (s.read x.fa x.n), s) else s.enqueue x
  | 1 => if full then (.value (s.read x.fa x.n), s.empty x.fa who) else s.enqueue x
  | 2 => (.value (boolN full), s)
  | 3 => if full then s.enqueue x else (.done, s.storeFill x.fa x.n x.data who)
  | 4 => (.done, s.storeFill x.fa x.n x.data who)
  | _ => (.done, s.empty x.fa who)

/-- The form would consume poison: a read of a FULL poisoned word, FEQ of one, or a write of part of one (R348). -/
def State.syncPoison (s : State) (x : Waiter) : Bool :=
  s.poisoned x.fa x.n &&
  (match x.op with
   | 0 => s.full x.fa | 1 => s.full x.fa | 2 => true
   | 3 => !s.full x.fa && x.n != 8 | 4 => x.n != 8 | _ => false)

/-- A synchronising form at its page, local or remote. -/
def State.syncAt (s : State) (op : Nat) (d : Reg) (va : Word) (fa n data : Nat) : State :=
  let loads := decide (op ≤ opFEQ)
  if s.mustWait fa loads then s.parkWait fa loads
  else if faSp fa = s.here then
    let (tok, s') := s.takeTok
    let x : Waiter := { sp := s.here, ctx := keyCtx s.cur, tok := tok, op := op, fa := fa, n := n, data := data, local_ := true, who := s.myWho }
    let k : Kont := if loads then .load d n false else .advance
    if syncWrites op && s.inCopyRegion fa n then s.trap cSUBWR va
    else if s.syncPoison x then s.consume s.here fa n
    else
      match s'.bankSync x s.myWho with
      | (.value v, t) => t.setG d (extend v n false)
      | (.done, t) => t.retire id
      | (.wait, t) => (t.parkFor 5 tok k).modMe fun c => { c with reqVa := va }
      | (.busy, t) =>
        -- the local request is retried like a remote one
        (t.send { id := 0, cls := .reply, src := s.here, dst := s.here, job := s.myJobNo, ctx := keyCtx s.cur, tok := tok, va := va,
                  who := s.myWho, notBefore := s.now + waiterRetryCycles, body := .nackBusy fa n op data }).parkFor 5 tok k
  else
    s.request (if loads then 1 else 2) va fa (.sync fa n op data) (if loads then .load d n false else .advance)
      (if loads then some (d, n, false, false) else none)

/-- The permissions of a synchronising form (R109). -/
def syncNeed (op : Nat) : Need := if op = opLDE then needRW else if op ≤ opFEQ then needR else needW

/-- A synchronising form at an effective address (R126). -/
def State.sync (s : State) (op : Nat) (d : Reg) (ea : Word) (n data : Nat) : State :=
  if ea.toNat % n != 0 then s.trap cALIGN ea
  else s.onChk (s.xlate ea (syncNeed op)) fun p => (s.touch ea).syncAt op d ea p.1 n (data % 2 ^ (8 * n))

/-! ### Bank atomics (R131, R132) -/

/-- The value an atomic writes, by its function code; none where ACAS does not match. -/
def atomicNew (op n old b c : Nat) : Option Nat :=
  let w := 8 * n
  let f := if n = 8 then fp64 else fp32
  match op with
  | 0 => some ((old + b) % 2 ^ w)
  | 1 => some (old &&& b)
  | 2 => some (old ||| b)
  | 3 => some (old ^^^ b)
  | 4 => some (if signExt b w < signExt old w then b else old)
  | 5 => some (if signExt old w < signExt b w then b else old)
  | 6 => some (min old b)
  | 7 => some (max old b)
  | 8 => some b
  | 9 => if old = c then some b else none
  | 10 => some (addRne f old b)
  | 11 => some (minMaxIeee f false old b)
  | _ => some (minMaxIeee f true old b)

/-- One atomic at the home bank, indivisibly: the old value, and the state. -/
def State.bankAtomic (s : State) (fa n op b c who : Nat) : Nat × State :=
  let old := s.read fa n
  (old, match atomicNew op n old b c with | some v => s.store fa n v who | none => s)

/-- An atomic form (R132). -/
def State.amo (s : State) (op : Nat) (d a b c : Reg) (w : Bool) : State :=
  let n := wBytes w
  let ea := s.me.reg a
  let flt := decide (10 ≤ op)
  let bv := (s.me.reg b).toNat % 2 ^ (8 * n)
  let cv := (s.me.reg c).toNat % 2 ^ (8 * n)
  if ea.toNat % n != 0 then s.trap cALIGN ea
  else s.onChk (s.xlate ea needRW) fun p =>
    let fa := p.1
    let s := s.touch ea
    if s.mustWait fa true then s.parkWait fa true
    else if faSp fa = s.here then
      if s.inCopyRegion fa n then s.trap cSUBWR ea
      else if s.poisoned fa n then s.consume s.here fa n
      else
        let (old, t) := s.bankAtomic fa n op bv cv s.myWho
        t.setG d (atomicResult old n flt)
    else s.request 2 ea fa (.atomic fa n op bv cv) (.atomic d n flt) (some (d, n, !flt, true))

end Sys2Proof.Machine
end

