-- ==== Sys2Proof/Machine/Admit.lean ====
section
/-!
DEFINITION. Admission of migrants and compensation threads (R36, R37, R325), where threads live (R27, R139), and the stop tree
(R333, R334).
-/
namespace Sys2Proof.Machine
open Sys2Proof.Config

/-! ### Admission (R36, R37) -/

/-- The lowest-numbered FREE context from 1 to 15 that satisfies `q`. -/
def State.freeSlot (s : State) (sp : Nat) (q : Nat → Bool) : Option Nat :=
  (natsFrom 1 15).find? fun c => (s.ctx (keyOf sp c)).st == .free && q c

/-- The job's pre-emption has begun: contexts are held, and admitted ones at admission (R339). -/
def Job.holding (jb : Job) : Bool := jb.phase != .running

/-- A queued thread enters a context, and its carried load is performed at the carried address. -/
def State.seat (s : State) (sp c : Nat) (m : Migrant) : State :=
  let k := keyOf sp c
  let s := s.modCtx k fun old =>
    { m.image with st := .ready, lastIssue := old.lastIssue, readyAt := s.now + 1, held := (s.jobAt sp).holding }
  if !m.carries then s
  else if s.pagePoison m.kind m.fa m.n false then s.consumePage sp m.kind m.fa m.n
  else s.modCtx k fun x => x.setReg m.d (extend (s.pageRead m.kind m.fa m.n) m.n m.sx)

/-- A migrant buffer refills from the head of the reserve (R36). -/
def Spindle.refill (p : Spindle) : Spindle :=
  let n := 16 - p.migBuf.length
  { p with migBuf := p.migBuf ++ p.migRes.take n, migRes := p.migRes.drop n }

/-- A FREE context admits the head of the migrant buffer, which refills from the head of the reserve. -/
def State.admitHead (s : State) (sp : Nat) : State :=
  match (s.spindle sp).migBuf, s.freeSlot sp (fun _ => true) with
  | m :: t, some c =>
    (s.modSp sp fun p => { p with migBuf := t }.refill).seat sp c m
  | _, _ => s

/-- Every FREE context admits, while threads wait (R32). -/
def State.admitAllAux : Nat → State → Nat → State
  | 0, s, _ => s
  | f + 1, s, sp => State.admitAllAux f (s.admitHead sp) sp
def State.admitAll (s : State) (sp : Nat) : State := State.admitAllAux 15 s sp

/-- The entries of a spindle's migrant reserve: MRES of the job's queue (R36, R355). -/
def State.reserveSize (s : State) (sp : Nat) : Nat :=
  let n := (s.queue (s.jobAt sp).queue).mres
  if n = 0 then 256 else n

/-- An arrival: admitted at once, queued, or refused busy (none). -/
def State.arriveThread (s : State) (sp : Nat) (m : Migrant) : Option State :=
  let p := s.spindle sp
  if p.migBuf.isEmpty && p.migRes.isEmpty && (s.freeSlot sp (fun _ => true)).isSome then
    match s.freeSlot sp (fun _ => true) with
    | some c => some (s.seat sp c m)
    | none => none
  else if p.migRes.isEmpty && decide (p.migBuf.length < 16) then some (s.modSp sp fun p => { p with migBuf := p.migBuf ++ [m] })
  else if p.migRes.length < s.reserveSize sp then some (s.modSp sp fun p => { p with migRes := p.migRes ++ [m] })
  else none

/-! ### Where a thread is (R27, R139) -/

/-- A thread index of the launch (R27). -/
def Job.indexOk (jb : Job) (thidx : Nat) : Bool := decide (thidx < 16 * jb.rect.size)

/-! ### The stop tree (R333, R334) -/

/-- The channel entries of a spindle's stop record: writer entries, then reader entries, each in ascending channel order. -/
def State.stopEntries (s : State) (j sp : Nat) : List (Nat × Bool × Nat × Nat) :=
  let cs := (s.job j).chans
  (cs.filter fun e => s.threadSpindle j e.2.writer == sp).map (fun e => (e.1, false, e.2.nsent % 2 ^ 32, 0)) ++
  (cs.filter fun e => s.threadSpindle j e.2.reader == sp).map (fun e => (e.1, true, e.2.narrived % 2 ^ 32, e.2.buf.length))

/-- Every spindle of the job halts, and records its counters; a stop during a pre-emption is held. -/
def State.haltJob (s : State) (j : Nat) : State :=
  if (s.job j).phase != .running then s.modJob j fun jb => { jb with stopPending := true }
  else if (s.job j).stopped then s
  else
    let t := s.modJob j fun jb => { jb with stopped := true }
    (s.job j).rect.spindles.foldl (fun t sp =>
      if (s.spindle sp).fenced then t
      else t.modSp sp fun p => { p with
        halted := true, haltCycle := s.now, stopSent := p.sent, stopRcvd := p.rcvd, stopJob := (s.job j).serial % 2 ^ 32,
        stopChans := s.stopEntries j sp }) t

/-- Every spindle of the job goes on; of a job that is switched out, every saved one does when the job resumes. -/
def State.goJob (s : State) (j : Nat) : State :=
  let t := s.modJob j fun jb => { (jb.mapSaved fun _ p => { p with halted := false }) with stopped := false, stopPending := false }
  (s.job j).rect.spindles.foldl (fun t sp =>
    if (s.spindle sp).job == some j then t.modSp sp fun p => { p with halted := false } else t) t

end Sys2Proof.Machine
end

