-- ==== Sys2Proof/Machine/Activity.lean ====
section
/-!
DEFINITION. Activities (R316-R326): the table, ravel entries, the meanings of the ACT instructions, and the unraveller's step.
-/
namespace Sys2Proof.Machine
open Sys2Proof.Config

def ActState.num : ActState → Nat
  | .opened => 1 | .committed => 2 | .unravelling => 3 | .halted => 4 | .unravelled => 5 | .wedged => 6

/-! ### ABEGIN (R317, R320) -/

/-- The table entries that hold no activity. -/
def Unraveller.freeIx (u : Unraveller) (n : Nat) : Bool := !(u.acts.any fun a => a.ix == n)
/-- The first free entry from `n` on, circularly. -/
def Unraveller.pick (u : Unraveller) (n : Nat) : Option Nat :=
  ((natsFrom (n % 65536) (65536 - n % 65536)) ++ List.range (n % 65536)).find? u.freeIx

/-- A new activity of the executing thread; which free entry it takes is a free value. -/
def State.actOpen (s : State) (d : Reg) (ix : Nat) : State :=
  let g := Table.get 0 s.unrav.gens ix % 65535 + 1
  let a : Activity := { ix := ix, gen := g, job := s.myJobNo, owner := s.me.thidx, ownerSp := s.here }
  let s := { s with unrav := { s.unrav with acts := s.unrav.acts ++ [a], gens := Table.set s.unrav.gens ix g }, free := s.free + 1 }
  let id := BitVec.ofNat 64 (actIdOf a)
  s.retire fun c => { (c.setReg d id) with actid := id }

/-- ABEGIN. -/
def State.abegin (s : State) (d : Reg) : State :=
  let j := s.myJobNo
  if !s.myJob.actcls || (s.openAct j s.me.thidx).isSome || s.me.thidx == compThidx then s.trap cILLEGAL 0
  else if 4096 ≤ (s.unrav.acts.filter fun a => a.job == j).length then s.setG d 0
  else match s.unrav.pick (actEntry s.free) with
    | some ix => s.actOpen d ix
    | none => s.setG d 0
def execAbegin (d : Reg) (s : State) : Out := .next (s.abegin d)

/-! ### APUSH (R318, R321) -/

/-- The owned activity that ACTID names. -/
def State.owned (s : State) : Option Activity :=
  match s.openAct s.myJobNo s.me.thidx with
  | some a => if actIdOf a == s.me.actid.toNat then some a else none
  | none => none

/-- Entries of a die's ravel store, and of a job's ravel area. -/
def State.storeUsed (s : State) (die : Nat) : Nat :=
  (s.unrav.acts.map fun a => (a.entries.filter fun e => !e.inArea && dieOf e.sp == die).length).sum
def State.areaUsed (s : State) (j : Nat) : Nat :=
  ((s.unrav.acts.filter fun a => a.job == j).map fun a => (a.entries.filter (·.inArea)).length).sum

/-- The lowest place of a job's ravel area that no entry holds. -/
def State.areaPlace (s : State) (j : Nat) : Nat :=
  let used := (s.unrav.acts.filter fun a => a.job == j).flatMap fun a => (a.entries.filter (·.inArea)).map (·.place)
  ((List.range (used.length + 1)).find? fun i => !used.contains i).getD 0

/-- The counter draws at most one number a cycle and stops at 2^48 - 1. -/
def ravelLast : Nat := 2 ^ 48 - 1

/-- APUSH: where the counter has drawn in this cycle, the unit issues again on the next. -/
def State.apush (s : State) (a b c : Reg) : State :=
  match s.owned with
  | none => s.trap cILLEGAL 0
  | some act =>
    let full := decide (8192 ≤ s.storeUsed (dieOf s.here))
    if (s.me.reg a).toNat % 4 != 0 then s.trap cALIGN (s.me.reg a)
    else if 65535 ≤ act.entries.length || ravelLast ≤ s.unrav.counter || (full && decide (s.myJob.ravelMax ≤ s.areaUsed s.myJobNo)) then
      s.trap cRAVELFULL 0
    else if 0 < s.unrav.counter && s.unrav.drawnAt == s.now then s.modMe fun c => { c with again := true, readyAt := s.now + 1 }
    else
      let n := s.unrav.counter + 1
      let e : RavelEntry := { seqn := n, arg1 := s.me.reg c, arg0 := s.me.reg b, sp := s.here, pcw := bitsOf (s.me.reg a).toNat 51 2, inArea := full,
                              place := if full then s.areaPlace s.myJobNo else 0 }
      let s := { s with unrav := { s.unrav with counter := n, drawnAt := s.now } }
      (s.modAct act.ix fun x => { x with entries := x.entries ++ [e] }).retire id
def execApush (a b c : Reg) (s : State) : Out := .next (s.apush a b c)

/-! ### ACOMMIT, AABANDON, AQRY (R322, R323) -/

/-- ACOMMIT. -/
def State.acommit (s : State) : State :=
  match s.owned with
  | none => s.trap cILLEGAL 0
  | some a => (s.modAct a.ix fun x => { x with st := .committed, entries := [] }).retire fun c => { c with actid := 0 }
def execAcommit (s : State) : Out := .next s.acommit

/-- AABANDON. -/
def State.aabandon (s : State) : State :=
  match s.owned with
  | none => s.trap cILLEGAL 0
  | some a => (s.abandon a s.here).retire fun c => { c with actid := 0 }
def execAabandon (s : State) : Out := .next s.aabandon

/-- AQRY. -/
def State.aqry (s : State) (d a : Reg) : State :=
  match (if (s.me.reg a).toNat < 2 ^ 32 then s.act (s.me.reg a).toNat else none) with
  | some x =>
    if x.job == s.myJobNo then s.setG d (BitVec.ofNat 64 (x.st.num * 2 ^ 61 + x.entries.length * 2 ^ 32 + x.owner))
    else s.setG d 0
  | none => s.setG d 0
def execAqry (d a : Reg) (s : State) : Out := .next (s.aqry d a)

/-! ### The unraveller (R324-R326) -/

/-- The entry of a halted or running activity with the highest sequence number. -/
def Activity.top (a : Activity) : Option RavelEntry :=
  a.entries.foldl (fun b e => match b with | some x => if x.seqn < e.seqn then some e else b | none => some e) none
def Activity.drop (a : Activity) (n : Nat) : Activity := { a with entries := a.entries.filter fun e => e.seqn != n }

/-- An entry is removed; an activity without entries is UNRAVELLED, and says so. -/
def State.popEntry (s : State) (a : Activity) (n : Nat) : State :=
  let b := a.drop n
  let st := if b.entries.isEmpty then ActState.unravelled else .unravelling
  let s := s.modAct a.ix fun _ => { b with st := st }
  if b.entries.isEmpty then s.actNotice b 5 else s

/-- ARET (R325): it ends its thread as EXIT does (R85). -/
def State.aret (s : State) : State :=
  if s.me.thidx != compThidx || s.me.pairtask then s.trap cILLEGAL 0
  else if !s.me.rels.isEmpty then s.parkAll
  else
    let k := s.cur
    let j := s.myJobNo
    let run := s.unrav.running
    let s := { s with unrav := { s.unrav with running := none } }
    let s := s.setCtx k (freeCtx (s.ctx k))
    let s := match run with
      | some (ix, n) => match s.unrav.acts.find? (fun (a : Activity) => a.ix == ix) with | some a => s.popEntry a n | none => s
      | none => s
    s.freeHandlers j
def execAret (s : State) : Out := .next s.aret

/-- AFIX (R326). -/
def State.afix (s : State) (d a : Reg) (mode : Nat) : State :=
  if !s.me.handler then s.trap cPRIV 0
  else
    match (if (s.me.reg a).toNat < 2 ^ 32 then s.act (s.me.reg a).toNat else none) with
    | some x =>
      if x.job != s.myJobNo || x.st != .halted then s.setG d 1
      else
        let s := match mode with
          | 0 => match x.top with | some e => s.popEntry x e.seqn | none => s.popEntry x 0
          | 1 => s.modAct x.ix fun y => { y with st := .unravelling }
          | _ => (s.modAct x.ix fun y => { y with st := .wedged }).actNotice x 6
        s.setG d 0
    | none => s.setG d 1
def execAfix (d a : Reg) (mode : BitVec 4) (s : State) : Out := .next (s.afix d a mode.toNat)

/-- The entries the unraveller may run: each UNRAVELLING activity of a job that is not switched out, with its latest entry. -/
def State.ravelReady (s : State) : List (Activity × RavelEntry) :=
  s.unrav.acts.filterMap fun a =>
    if a.st == .unravelling && (s.job a.job).phase != .out then a.top.map fun e => (a, e) else none

/-- The entry of the highest sequence number. -/
def latest : List (Activity × RavelEntry) → Option (Activity × RavelEntry)
  | [] => none
  | x :: t => match latest t with | some y => if x.2.seqn < y.2.seqn then some y else some x | none => some x

/-- A compensation thread as R325 starts it. -/
def compImage (jb : Job) (e : RavelEntry) : Context :=
  { pc := BitVec.ofNat 64 (4 * e.pcw), g := ((Vector.replicate 16 (0 : Word)).set 1 e.arg0).set 2 e.arg1, thidx := compThidx, cprof := jb.cprof }

/-- UNRAVEL_STEP's work: a compensation starts, or its entry counts as one that trapped FENCED; while the entry's job is between
its front and its resumption the unraveller waits. -/
def State.unravel (s : State) : State :=
  match latest s.ravelReady with
  | none => s
  | some (a, e) =>
    if !((s.job a.job).phase == .running || (s.job a.job).phase == .preempting) then s else
    let s := { s with unrav := { s.unrav with running := some (a.ix, e.seqn) } }
    if (s.spindle e.sp).fenced then
      s.compFailed (keyOf e.sp 0) { cause := cFENCED, pc := BitVec.ofNat 64 (4 * e.pcw) }
    else
      let (tok, s) := s.takeTok
      let m : Migrant := { image := { compImage (s.job a.job) e with born := tok }, fa := 0, n := 0, sx := false, d := 0, carries := false, kind := 0, job := a.job }
      match s.arriveThread e.sp m with
      | some t => t
      | none => { s with unrav := { s.unrav with running := none } }

end Sys2Proof.Machine
end

