-- ==== Sys2Proof/Machine/Atomic.lean ====
section
/-!
DEFINITION. The meanings of the bank atomics (R131, R132), numbered by their function codes.
-/
namespace Sys2Proof.Machine

/-- AADD (R132). -/
def execAadd (d a b : Reg) (w : Bool) (s : State) : Out := .next (s.amo 0 d a b 0 w)
/-- AAND (R132). -/
def execAand (d a b : Reg) (w : Bool) (s : State) : Out := .next (s.amo 1 d a b 0 w)
/-- AOR (R132). -/
def execAor (d a b : Reg) (w : Bool) (s : State) : Out := .next (s.amo 2 d a b 0 w)
/-- AXOR (R132). -/
def execAxor (d a b : Reg) (w : Bool) (s : State) : Out := .next (s.amo 3 d a b 0 w)
/-- AMINS (R132). -/
def execAmins (d a b : Reg) (w : Bool) (s : State) : Out := .next (s.amo 4 d a b 0 w)
/-- AMAXS (R132). -/
def execAmaxs (d a b : Reg) (w : Bool) (s : State) : Out := .next (s.amo 5 d a b 0 w)
/-- AMINN (R132). -/
def execAminn (d a b : Reg) (w : Bool) (s : State) : Out := .next (s.amo 6 d a b 0 w)
/-- AMAXN (R132). -/
def execAmaxn (d a b : Reg) (w : Bool) (s : State) : Out := .next (s.amo 7 d a b 0 w)
/-- ASWAP (R132). -/
def execAswap (d a b : Reg) (w : Bool) (s : State) : Out := .next (s.amo 8 d a b 0 w)
/-- ACAS (R132): g(C) is the comparand. -/
def execAcas (d a b c : Reg) (w : Bool) (s : State) : Out := .next (s.amo 9 d a b c w)
/-- AFADD (R132). -/
def execAfadd (d a b : Reg) (w : Bool) (s : State) : Out := .next (s.amo 10 d a b 0 w)
/-- AFMIN (R132). -/
def execAfmin (d a b : Reg) (w : Bool) (s : State) : Out := .next (s.amo 11 d a b 0 w)
/-- AFMAX (R132). -/
def execAfmax (d a b : Reg) (w : Bool) (s : State) : Out := .next (s.amo 12 d a b 0 w)

end Sys2Proof.Machine
end

