-- ==== Sys2Proof/Machine/Branch.lean ====
section
/-!
DEFINITION. The meanings of branches, calls and jumps (R75, R76). They never fault on their target's mapping.
-/
namespace Sys2Proof.Machine

/-- B (R75). -/
def execBr (disp : BitVec 16) (s : State) : Out := .next (s.branch true disp)
/-- BEQZ (R75). -/
def execBeqz (a : Reg) (disp : BitVec 16) (s : State) : Out := .next (s.branch (s.me.reg a == 0) disp)
/-- BNEZ (R75). -/
def execBnez (a : Reg) (disp : BitVec 16) (s : State) : Out := .next (s.branch (s.me.reg a != 0) disp)
/-- BLTZ (R75). -/
def execBltz (a : Reg) (disp : BitVec 16) (s : State) : Out := .next (s.branch (decide ((s.me.reg a).toInt < 0)) disp)
/-- BGEZ (R75). -/
def execBgez (a : Reg) (disp : BitVec 16) (s : State) : Out := .next (s.branch (decide (0 ≤ (s.me.reg a).toInt)) disp)
/-- BGTZ (R75). -/
def execBgtz (a : Reg) (disp : BitVec 16) (s : State) : Out := .next (s.branch (decide (0 < (s.me.reg a).toInt)) disp)
/-- BLEZ (R75). -/
def execBlez (a : Reg) (disp : BitVec 16) (s : State) : Out := .next (s.branch (decide ((s.me.reg a).toInt ≤ 0)) disp)

/-- CALL (R76): g14 takes the address of the next unit. -/
def execCall (disp : BitVec 24) (s : State) : Out :=
  let u := s.me.unit.pc
  .next ((s.modMe fun c => c.setReg linkReg (u + 4)).goTo (branchTarget u disp.toInt))
/-- JMPR (R76). -/
def execJmpr (a : Reg) (s : State) : Out := .next (s.jump (s.me.reg a) id)
/-- CALLR (R76): the target is read before g14 is written. -/
def execCallr (a : Reg) (s : State) : Out :=
  .next (s.jump (s.me.reg a) fun c => c.setReg linkReg (c.unit.pc + 4))
/-- RET (R76). -/
def execRet (s : State) : Out := .next (s.jump (s.me.reg linkReg) id)

end Sys2Proof.Machine
end

