-- ==== Sys2Proof/Machine/Channel.lean ====
section
/-!
DEFINITION. The meanings of the channel instructions (R137-R142).
-/
namespace Sys2Proof.Machine
open Sys2Proof.Config

/-- A declared channel of a job. -/
def Job.chan (jb : Job) (ch : Nat) : Option Chan := if ch < mailboxNo then Table.find jb.chans ch else .none
/-- A channel of a job changed. -/
def State.modChan (s : State) (j ch : Nat) (f : Chan → Chan) : State :=
  s.modJob j fun jb => match Table.find jb.chans ch with | some c => { jb with chans := Table.set jb.chans ch (f c) } | .none => jb

/-- A general register is pending for a REL load or atomic (R121). -/
def Context.pendingReg (c : Context) (r : Nat) : Bool :=
  c.rels.any fun o => match o.dest with | some (d, _) => d.toNat == r | none => false

/-- SEND (R139). -/
def State.sendOp (s : State) (a b : Reg) (n : Nat) : State :=
  let ch := (s.me.reg a).toNat
  match s.myJob.chan ch with
  | none => s.trap cCHANNEL (s.me.reg a)
  | some c =>
    if c.writer != s.me.thidx then s.trap cCHANNEL (s.me.reg a)
    else if !s.me.rels.isEmpty then s.parkAll
    else if c.credit = 0 then s.parkOn 4 ch
    else
      let ws := (List.range n).map fun i => s.me.regN (b.toNat + i)
      let t := s.modChan s.myJobNo ch fun c => { c with credit := c.credit - 1, nsent := c.nsent + 1 }
      -- the message keeps the unit's PC for a deferred trap (R123, R144)
      (t.send { id := 0, cls := .request, src := s.here, dst := s.threadSpindle s.myJobNo c.reader, job := s.myJobNo,
                ctx := keyCtx s.cur, va := s.me.unit.pc, who := s.myWho, body := .chan ch ws }).retire id
def execSend (a b : Reg) (n1 : BitVec 3) (s : State) : Out := .next (s.sendOp a b (n1.toNat + 1))

/-- The message of words goes to the registers from g(D) on; a number beyond g15 takes nothing. -/
def Context.takeWords (c : Context) (d : Reg) (ws : List Word) : Context :=
  (ws.zipIdx).foldl (fun c e => c.setRegN (d.toNat + e.2) e.1) c

/-- A credit returns to the writer's spindle when a message leaves the buffers. -/
def State.returnCredit (s : State) (ch : Nat) (c : Chan) : State :=
  s.send { id := 0, cls := .reply, src := s.here, dst := s.threadSpindle s.myJobNo c.writer, job := s.myJobNo, body := .credit ch }

/-- The oldest message of a channel or of the mailbox; none where the context may not read there. -/
def State.inbox (s : State) (ch : Nat) : Option (List (List Word)) :=
  if ch = mailboxNo then some s.me.mailbox
  else match s.myJob.chan ch with | some c => if c.reader == s.me.thidx then some c.buf else none | none => none

/-- RECV and RECVT once a message is there; `cnt` is RECVT's count register. -/
def State.takeMsg (s : State) (ch : Nat) (d : Reg) (ws : List Word) (cnt : Option Reg) : State :=
  if (List.range ws.length).any fun i => s.me.pendingReg (d.toNat + i) then
    s.parkRel 1 false fun o => match o.dest with | some (r, _) => (List.range ws.length).any fun i => r.toNat == d.toNat + i | none => false
  else
    let t :=
      if ch = mailboxNo then s.modMe Context.takeMail
      else
        let t := s.modChan s.myJobNo ch fun c => { c with buf := c.buf.drop 1 }
        match s.myJob.chan ch with | some c => t.returnCredit ch c | none => t
    t.retire fun c =>
      let c := c.takeWords d ws
      match cnt with | some r => c.setReg r (BitVec.ofNat 64 ws.length) | none => c

/-- RECV (R140). -/
def State.recv (s : State) (d a : Reg) : State :=
  let ch := (s.me.reg a).toNat
  match s.inbox ch with
  | none => s.trap cCHANNEL (s.me.reg a)
  | some [] => s.parkOn 3 ch
  | some (ws :: _) => s.takeMsg ch d ws none
def execRecv (d a : Reg) (s : State) : Out := .next (s.recv d a)

/-- RECVT (R140): the timeout is counted from the issue cycle. -/
def State.recvt (s : State) (d a c : Reg) : State :=
  let ch := (s.me.reg a).toNat
  match s.inbox ch with
  | none => s.trap cCHANNEL (s.me.reg a)
  | some [] =>
    let at_ := s.me.lastIssue + (s.me.reg c).toNat
    if at_ ≤ s.now then s.setG c 0
    else (s.parkOn 3 ch).modMe fun x => { x with wakeAt := some at_ }
  | some (ws :: _) => s.takeMsg ch d ws (some c)
def execRecvt (d a c : Reg) (s : State) : Out := .next (s.recvt d a c)

/-- The word CHQ writes, for a thread of a job (R141); the mailbox is the executing context's own. -/
def State.chqWord (s : State) (j ch thidx : Nat) : Nat :=
  match (s.job j).chan ch with
  | none => 0
  | some c =>
    let wr := c.writer == thidx
    2 ^ 63 + boolN wr * 2 ^ 62 + boolN (c.reader == thidx) * 2 ^ 61 + (if wr then c.credit * 2 ^ 20 else 0) +
      (c.buf.headD []).length * 2 ^ 12 + c.buf.length
def mailWord (c : Context) : Nat := 2 ^ 63 + 2 ^ 61 + 2 ^ 60 + (c.mailbox.headD []).length * 2 ^ 12 + c.mailbox.length

/-- CHQ (R141): the count of a reader elsewhere is read with a remote read. -/
def State.chq (s : State) (d a : Reg) : State :=
  let ch := (s.me.reg a).toNat
  if ch = mailboxNo then s.setG d (BitVec.ofNat 64 (mailWord s.me))
  else
    match s.myJob.chan ch with
    | none => s.setG d 0
    | some c =>
      let home := s.threadSpindle s.myJobNo c.reader
      if home = s.here then s.setG d (BitVec.ofNat 64 (s.chqWord s.myJobNo ch s.me.thidx))
      else (s.request 1 0 (faOf home 0) (.chq ch) (.value d) none).modMe fun c => { c with got := [(ch, 0)] }
def execChq (d a : Reg) (s : State) : Out := .next (s.chq d a)

/-- The context is parked in SEND, RECV, RECVT or CHQ on a channel, whatever it waits for there. -/
def Context.inChannelOp (c : Context) (ch : Nat) : Bool :=
  c.st == .parked && (match decodeWords c.unit.words with
    | some (.send a _ _) | some (.recv _ a) | some (.recvt _ a _) | some (.chq _ a) => (c.reg a).toNat == ch
    | _ => false)
/-- An endpoint thread is parked in SEND, RECV, RECVT or CHQ on the channel. -/
def State.endpointWaits (s : State) (j ch : Nat) (c : Chan) : Bool :=
  [c.writer, c.reader].any fun th => match s.findThread j th with | some k => (s.ctx k).inChannelOp ch | none => false

/-- CHBIND (R142): the entry is rewritten, and the spindles of the old and new endpoints acknowledge. -/
def State.chbind (s : State) (d a b : Reg) : State :=
  let ch := (s.me.reg a).toNat
  let v := (s.me.reg b).toNat
  let w := bitsOf v 17 0; let r := bitsOf v 49 32
  let jb := s.myJob
  if keyCtx s.cur != 0 then s.trap cPRIV 0
  else
    match jb.chan ch with
    | none => s.trap cCHANNEL (s.me.reg a)
    | some c =>
      if v / 2 ^ 50 != 0 || bitsOf v 31 18 != 0 || !jb.indexOk w || !jb.indexOk r then s.trap cILLEGAL 0
      else if c.credit != 8 then s.setG d 1
      else if s.endpointWaits s.myJobNo ch c then s.setG d 2
      else
        let j := s.myJobNo
        let ends := ([c.writer, c.reader, w, r].map (s.threadSpindle j)).eraseDups.filter fun sp => sp != s.here && !(s.spindle sp).fenced
        let t := s.modChan j ch fun c => { c with writer := w, reader := r }
        let t := t.modMe fun x => x.setReg d 0
        if ends.isEmpty then t.retire id
        else
          let (tok, t) := t.takeTok
          let t := ends.foldl (fun t sp => t.send
            { id := 0, cls := .request, src := s.here, dst := sp, job := j, ctx := keyCtx s.cur, tok := tok, who := s.myWho,
              body := .bindNote ch }) t
          t.parkFor 2 tok (.acks ends.length)
def execChbind (d a b : Reg) (s : State) : Out := .next (s.chbind d a b)

end Sys2Proof.Machine
end

