-- ==== Sys2Proof/Machine/Links.lean ====
section
/-!
DEFINITION. Sending over Bluwailo links (R314, R315): a message is cut into DATA flits, which the sender keeps until they are
acknowledged.
-/
namespace Sys2Proof.Machine
open Sys2Proof.Config

/-- Flits in a retry buffer (R315). -/
def retryFlitsMax : Nat := 512
/-- A peer package as a node that messages name. -/
def nodePeer (chip : Nat) : Nat := 13000 + chip

/-- DATA flits of a message: seven mesh flits of 32 bytes each. -/
def Msg.dataFlits (m : Msg) : Nat :=
  match m.body with
  | .peerChunk c => ((c.data.length + 3) / 4 + 1 + 6) / 7
  | _ => 1

/-- The DATA flits of a message, its last one delivering it. -/
def Msg.flits (m : Msg) (seqn : Nat) : List Flit :=
  (List.range m.dataFlits).map fun i => { seqn := (seqn + i) % 4096, cargo := if i + 1 = m.dataFlits then [m] else [] }

/-- Queued messages are sent while the retry buffer has room. -/
def HalfLink.pumpAux : Nat → HalfLink → HalfLink
  | 0, l => l
  | f + 1, l =>
    match l.queue with
    | [] => l
    | m :: t =>
      if l.up && !l.retrain && decide (l.retry.length + m.dataFlits ≤ retryFlitsMax) then
        let fs := m.flits l.nextSeq
        HalfLink.pumpAux f { l with queue := t, nextSeq := (l.nextSeq + fs.length) % 4096, retry := l.retry ++ fs, wire := l.wire ++ fs }
      else l
def HalfLink.pump (l : HalfLink) : HalfLink := HalfLink.pumpAux l.queue.length l

/-- A message enters a port direction, in the order sent (R313). -/
def State.linkSend (s : State) (h : Nat) (m : Msg) : State :=
  let m := { m with id := s.nextMsg }
  { (s.modLink h fun l => (({ l with queue := l.queue ++ [m], advanced := if l.retry.isEmpty then s.now else l.advanced }).pump)) with
    nextMsg := s.nextMsg + 1 }


end Sys2Proof.Machine
end

