-- ==== Sys2Proof/Machine/Copy.lean ====
section
/-!
DEFINITION. Copies (R296-R313): check values, addresses of a command's payload at home and at a peer, the completion of a command,
and the meanings of the CPY instructions. Chunks and completions are events.
-/
namespace Sys2Proof.Machine
open Sys2Proof.Config

/-! ### Check values (R11, R297) -/

/-- `WSum32` over 32-bit words. -/
def wsum32 (seed : Nat) (ws : List Nat) : Nat :=
  ws.foldl (fun s w => let t := s + w; if 2 ^ 32 ≤ t then t - 2 ^ 32 + 1 else t) seed

/-- One byte into a CRC-32C register. -/
def crcByte (r b : Nat) : Nat :=
  (List.range 8).foldl (fun x _ => if x % 2 = 1 then (x / 2) ^^^ 0x82F63B78 else x / 2) (r ^^^ b)
/-- `Crc32c` of R11. -/
def crc32c (seed : Nat) (bs : List Nat) : Nat := (bs.foldl crcByte (2 ^ 32 - 1 - seed)) ^^^ (2 ^ 32 - 1)

/-- The running check value over 8-byte words, by the CHECK code. -/
def checkStep (check seed : Nat) (ws : List Nat) : Nat :=
  match check with
  | 1 => wsum32 seed (ws.flatMap fun w => [w % 2 ^ 32, w / 2 ^ 32 % 2 ^ 32])
  | 2 => crc32c seed (ws.flatMap fun w => leBytes w 8)
  | _ => seed

/-! ### CMODE (R296) -/

def Staging.cls (g : Staging) : Nat := bitsOf g.cmode.toNat 1 0
def Staging.check (g : Staging) : Nat := bitsOf g.cmode.toNat 5 4
def Staging.chain (g : Staging) : Bool := bitsOf g.cmode.toNat 6 6 == 1
def Staging.last (g : Staging) : Bool := bitsOf g.cmode.toNat 7 7 == 1
def Staging.eoi (g : Staging) : Bool := bitsOf g.cmode.toNat 8 8 == 1
def Staging.rows (g : Staging) : Nat := max 1 g.crows.toNat

/-! ### A command's payload (R306) -/

def CopyCmd.clen (c : CopyCmd) : Nat := c.stg.clen.toNat
/-- Chunks are left to send. -/
def CopyCmd.more (c : CopyCmd) : Bool := decide (c.row < c.stg.rows) && c.fault.isNone && !c.cancel
def CopyCmd.chunkLen (c : CopyCmd) : Nat := min 2048 (c.clen - c.off)
/-- Payload bytes still to move. -/
def CopyCmd.bytesLeft (c : CopyCmd) : Nat := if c.more then (c.stg.rows - c.row) * c.clen - c.off else 0
/-- The start of a row, truncated to 64 bits. -/
def rowVa (base stride : Word) (row off : Nat) : Word := base + BitVec.ofNat 64 row * stride + BitVec.ofNat 64 off
def CopyCmd.srcVa (c : CopyCmd) : Word := rowVa c.stg.csrc c.stg.csstr c.row c.off
def CopyCmd.dstVa (c : CopyCmd) : Word := rowVa c.stg.cdst c.stg.cdstr c.row c.off
/-- After its chunk. -/
def CopyCmd.next (c : CopyCmd) : CopyCmd :=
  if c.clen ≤ c.off + c.chunkLen then { c with row := c.row + 1, off := 0 } else { c with off := c.off + c.chunkLen }

/-- Chunks are left after the one that it is in the midst of, if it is (R311). -/
def CopyCmd.chunksLeft (c : CopyCmd) : Bool := if c.part.isSome then c.next.more else c.more

/-- A word of a page that a command reaches: the fabric address and the page's kind. -/
abbrev CopyWord := Nat × Nat

/-- A word on the issuing package, or none where the command faults there (R308); the issuing spindle is judged. -/
def State.copyHere (s : State) (j sp : Nat) (va : Word) (need : Need) (kind : Nat) : Option CopyWord :=
  match s.walkJob j va with
  | none => none
  | some p =>
    let fa := p.fa va
    if !need.ok p || (s.refuses (faSp fa) sp fa 8 kind).isSome || (need.w && s.hitsCopy p.akind fa 8) then none else some (fa, p.akind)
def State.copySrc (s : State) (c : CopyCmd) (va : Word) : Option CopyWord := s.copyHere c.job (keySp c.key) va { r := true, alias_ := true } 0
def State.copyDst (s : State) (c : CopyCmd) (va : Word) : Option CopyWord := s.copyHere c.job (keySp c.key) va { w := true, alias_ := !c.stg.eoi } 1

/-! ### A peer package (R313) -/

def State.peer (s : State) (chip : Nat) : Peer := Table.get {} s.peers chip
def State.modPeer (s : State) (chip : Nat) (f : Peer → Peer) : State := { s with peers := Table.modify {} s.peers chip f }
/-- The peer mapping a command writes through: package and level-1 table. -/
def State.peerOf (s : State) (c : CopyCmd) : Option (Nat × Nat) := Table.find (s.job c.job).peers c.stg.cpeer.toNat
/-- A word at a peer; what the peer's own homes refuse is not known here. -/
def Peer.word (p : Peer) (chip root : Nat) (va : Word) (eoi : Bool) : Option CopyWord :=
  if root / 2 ^ 41 != chip then none
  else
    match walkTables { mem := p.mem, rect := none, sysOf := fun _ => 0x4000000 } (root % 2 ^ 41) va with
    | some g => if g.w && (g.kind == 0 || !eoi) then some (g.fa va, g.akind) else none
    | none => none
/-- A command's destination word, at home or at its peer. -/
def State.copyTo (s : State) (c : CopyCmd) (va : Word) : Option CopyWord :=
  if c.stg.cpeer = 0xFF then s.copyDst c va
  else match s.peerOf c with | some (chip, root) => (s.peer chip).word chip root va c.stg.eoi | none => none

/-! ### Bank writes of an engine -/

/-- Words written in ascending order; eight of one line of an alias page are a whole-block write (R308). -/
def State.putCopyAux (who : Nat) (eoi : Bool) : Nat → State → List (CopyWord × Nat) → State
  | 0, s, _ => s
  | _, s, [] => s
  | f + 1, s, ((fa, k), v) :: t =>
    if k = 0 then
      State.putCopyAux who eoi f (if eoi then s.storeFill fa 8 v who else s.store fa 8 v who) t
    else
      let line := ((fa, k), v) :: t.take 7
      if fa % 64 = 0 && line.length = 8 && line.zipIdx.all fun e => e.1.1.1 == fa + 8 * e.2 then
        let ws := line.map (·.2)
        let s := s.aliasPut k fa ((List.range 32).map fun i => bf16.decode (laneOf (ws.getD (i / 4) 0) 16 (i % 4))) who
        State.putCopyAux who eoi f s (t.drop 7)
      else State.putCopyAux who eoi f (s.aliasWrite k fa 8 v who) t
def State.putCopy (s : State) (who : Nat) (eoi : Bool) (l : List (CopyWord × Nat)) : State := State.putCopyAux who eoi l.length s l

/-! ### Commands in an engine (R303-R311) -/

def CopyCmd.engine (c : CopyCmd) : Nat := c.id / 2 ^ 26
def State.modCmd (s : State) (e id : Nat) (f : CopyCmd → CopyCmd) : State :=
  s.modEng e fun g => { g with cmds := g.cmds.map fun c => if c.id == id then f c else c }
def Engine.inClass (g : Engine) (cls : Nat) : Nat := (g.cmds.filter fun c => c.cls == cls).length
def Engine.load (g : Engine) : Nat := (g.cmds.map CopyCmd.bytesLeft).sum
/-- The engines of a spindle's die. -/
def dieEngines (sp : Nat) : List Nat := [3 * dieOf sp, 3 * dieOf sp + 1, 3 * dieOf sp + 2]

/-- The engine with the fewest payload bytes to move, the first of equal ones. -/
def State.leastEngine (s : State) (best : Nat) : List Nat → Nat
  | [] => best
  | e :: t => if (s.engine e).load < (s.engine best).load then s.leastEngine e t else s.leastEngine best t

/-- The register code of the first check of R303 that fails. -/
def State.copyCheck (s : State) : Option Nat :=
  let g := s.me.staging
  let l := s.me.chain
  let al := fun (w : Word) => w.toNat % 8 == 0
  if g.clen.toNat % 8 != 0 || g.clen == 0 then some 3
  else if !al g.csrc then some 0
  else if !al g.cdst then some 1
  else if 2 ≤ g.crows.toNat && !al g.csstr then some 4
  else if 2 ≤ g.crows.toNat && !al g.cdstr then some 5
  else if g.toFlag && !al g.cflag then some 7
  else if g.cpeer != 0xFF && (Table.find s.myJob.peers g.cpeer.toNat).isNone then some 2
  else if g.check == 0 && (g.chain || g.last) then some 11
  else if g.chain && (l.id == 0 || l.check != g.check) then some 11
  else none

/-- CPINJ after a launch, and the payload bit it inverts (R101). -/
def cpinjStep (v : Word) : Word × Option Nat :=
  let n := v.toNat
  if bitsOf n 63 63 = 0 then (v, none)
  else if bitsOf n 47 32 ≤ 1 then (BitVec.ofNat 64 (bitsOf n 31 0), some (bitsOf n 31 0))
  else (v - BitVec.ofNat 64 (2 ^ 32), none)

/-- The destination words, in payload order. -/
def CopyCmd.dstWords (c : CopyCmd) : List Word :=
  (List.range c.stg.rows).flatMap fun r => (List.range (c.clen / 8)).map fun i => rowVa c.stg.cdst c.stg.cdstr r (8 * i)

/-- A fault at a destination address counts where it comes before the command's own in payload order (R303). -/
def CopyCmd.faultAt (c : CopyCmd) (va : Word) : CopyCmd :=
  { c with fault := match c.fault with
      | some old => some (if c.dstWords.findIdx (· == va) < c.dstWords.findIdx (· == old) then va else old)
      | none => some va }

/-- Words of the issuing package set EMPTY under EOI, in payload order, up to the first without a translation that may be written: one
of the issuing spindle at once, one homed elsewhere by a request as FEC's (R127), all of them with one token. How many requests have
left, and where it stopped. -/
def State.emptyHere (s : State) (c : CopyCmd) (tok : Nat) : List Word → Nat → State × Nat × Option Word
  | [], n => (s, n, none)
  | va :: t, n =>
    match s.walkJob c.job va with
    | none => (s, n, some va)
    | some p =>
      let fa := p.fa va
      if !needW.ok p then (s, n, some va)
      else if faSp fa = s.here then
        if s.inCopyRegion fa 8 then (s, n, some va) else (s.empty fa s.myWho).emptyHere c tok t n
      else
        (s.send { id := 0, cls := .request, src := s.here, dst := faSp fa, job := c.job, ctx := keyCtx s.cur, tok := tok, va := va,
                  who := s.myWho, body := .sync fa 8 5 0 }).emptyHere c tok t (n + 1)

/-- The destination words cut into runs of at most 256, one message each for a peer. -/
def wordRuns : Nat → List Word → List (List Word)
  | 0, _ => []
  | f + 1, l => if l.isEmpty then [] else l.take 256 :: wordRuns f (l.drop 256)

/-- The same at a peer, the token going along: over the port that leads there, which is down or not named where the command faults at once. -/
def State.emptyAway (s : State) (c : CopyCmd) (tok chip root : Nat) : State × Nat × Option Word :=
  match Table.find s.trebex.routes chip with
  | some port =>
    if !(s.link (2 * port)).up then (s, 0, some c.stg.cdst)
    else
      let runs := wordRuns c.dstWords.length c.dstWords
      let msg := fun (ws : List Word) => ({
        id := 0, cls := .request, src := nodeEngine c.engine, dst := nodePeer chip, job := c.job, tok := tok, port := some (2 * port),
        body := .peerEmpty c.engine c.id s.trebex.chip chip root ws } : Msg)
      (runs.foldl (fun s ws => s.linkSend (2 * port) (msg ws)) s, runs.length, none)
  | none => (s, 0, some c.stg.cdst)

/-- EMPTY-ON-ISSUE (R303): every destination word is set EMPTY, and the context waits with PARK 2 for what was sent elsewhere. -/
def State.emptyWords (s : State) (c : CopyCmd) (d : Reg) : State :=
  let (tok, s) := s.takeTok
  let (t, n, bad) := match (if c.stg.cpeer = 0xFF then none else s.peerOf c) with
    | some (chip, root) => s.emptyAway c tok chip root
    | none => s.emptyHere c tok c.dstWords 0
  let t := t.modCmd c.engine c.id fun x => { x with fault := bad, emptying := n != 0, acksLeft := n, tok := tok }
  if n = 0 then t.setG d (BitVec.ofNat 64 c.id) else t.parkFor 2 tok (.emptied d c.id)

/-- A context that waits for the words of a command goes on. -/
def Context.emptied (id now : Nat) (x : Context) : Context :=
  match x.kont with
  | .emptied d i => if i == id && x.st == .parked then ((x.setReg d (BitVec.ofNat 64 id)).advance).woken now else x
  | _ => x

/-- One more of the acknowledgements that a command waits for, or the loss of its request: the command takes the fault. With the last one
its words are all EMPTY, whether its context still waits or not, and one that waits goes on, in the save area too. -/
def State.emptyAck (s : State) (eng id : Nat) (fault : Option Word) : State :=
  match (s.engine eng).cmds.find? fun c => c.id == id with
  | none => s
  | some c =>
    let s := match fault with | some va => s.modCmd eng id fun c => c.faultAt va | none => s
    if 1 < c.acksLeft then s.modCmd eng id fun c => { c with acksLeft := c.acksLeft - 1 }
    else
      let s := s.modCmd eng id fun c => { c with emptying := false, acksLeft := 0 }
      let on := fun (e : Nat × Context) => if e.1 == c.key then (e.1, e.2.emptied id s.now) else e
      if (s.job c.job).phase == .out then
        s.modJob c.job fun jb => { jb with saved := jb.saved.map fun v => { v with ctxs := v.ctxs.map on } }
      else s.modCtx c.key (Context.emptied id s.now)

/-- The record of a completed command that an engine still holds. -/
def Engine.done (g : Engine) (j id : Nat) : Option CopyDone := g.doneRecs.find? fun r => r.id == id && r.job == j
def Engine.cmd (g : Engine) (j id : Nat) : Option CopyCmd := g.cmds.find? fun c => c.id == id && c.job == j

/-- The command enters an engine's queue. -/
def State.copyLaunch (s : State) (d : Reg) (e : Nat) : State :=
  let c := s.me
  let g := s.engine e
  let id := e * 2 ^ 26 + g.serial
  let j := s.myJobNo
  let (inj, flip) := cpinjStep c.cpinj
  let prev := c.chain.id
  let waits := c.staging.chain && (g.cmd j prev).isSome
  let bad := c.staging.chain && c.chain.failed
  let seed := if c.staging.chain then c.chain.final.getD 0 else c.staging.cseed.toNat
  let cmd : CopyCmd := { id := id, job := j, key := s.cur, thidx := c.thidx, born := c.born, stg := c.staging, cls := c.staging.cls, sums := seed, dsums := seed,
                         flip := flip, pred := if waits then prev else 0, cancel := bad }
  let s := s.modEng e fun g => { g with serial := if g.serial = 2 ^ 26 - 1 then 1 else g.serial + 1, cmds := g.cmds ++ [cmd] }
  let s := s.modMe fun x => { x with cpinj := inj, chain := { id := id, eng := e, check := c.staging.check } }
  if c.staging.eoi then s.emptyWords cmd d else s.setG d (BitVec.ofNat 64 id)

/-- CPGO, and CPTRY with `try_`. -/
def State.copyGo (s : State) (d : Reg) (try_ : Bool) : State :=
  match s.copyCheck with
  | some code => s.trapN cCOPY code
  | none =>
    let g := s.me.staging
    let es := if g.chain then [s.me.chain.eng] else dieEngines s.here
    match es.filter fun e => decide ((s.engine e).inClass g.cls < 32) with
    | [] => if try_ then s.setG d 0 else s.parkAgain 8
    | e :: t => s.copyLaunch d (s.leastEngine e t)

/-- CPGO (R303). -/
def execCpgo (d : Reg) (s : State) : Out := .next (s.copyGo d false)
/-- CPTRY (R303). -/
def execCptry (d : Reg) (s : State) : Out := .next (s.copyGo d true)

/-- CPSET and CPSETI (R302). -/
def State.stageSet (s : State) (code : Nat) (v : Word) : State :=
  if stageBad code v.toNat then s.trap cILLEGAL 0 else s.retire fun c => { c with staging := c.staging.put code v }
/-- CPSET (R302). -/
def execCpset (sr : BitVec 4) (c : Reg) (s : State) : Out := .next (s.stageSet sr.toNat (s.me.reg c))
/-- CPSETI (R302). -/
def execCpseti (sr : BitVec 4) (l : Word) (s : State) : Out := .next (s.stageSet sr.toNat l)

/-! ### CPQ and CPCAN (R310, R311) -/

/-- The word CPQ writes. -/
def Engine.query (g : Engine) (j id : Nat) : Nat :=
  match g.cmd j id with
  | some c => 2 ^ 63 + (if c.emptying then 1 else if 0 < c.row || 0 < c.off || c.flying || c.part.isSome then 2 else 0) * 2 ^ 60
  | none =>
    match g.done j id with
    | some r => 2 ^ 63 + 3 * 2 ^ 60 + r.status * 2 ^ 32 + r.final
    | none => 0

/-- CPCAN at the engine: its code, and the state. -/
def State.copyCancel (s : State) (e j id : Nat) : Nat × State :=
  match (s.engine e).cmd j id with
  | some c => if c.chunksLeft then (0, s.modCmd e id fun c => { c with cancel := true }) else if c.cancel then (0, s) else (1, s)
  | none => if ((s.engine e).done j id).isSome then (1, s) else (2, s)

/-- The engine an id names, at once on the own die, else by a query that the context parks for. -/
def State.copyAsk (s : State) (d : Reg) (id kind : Nat) (unknown : Nat) (here : Nat → State) : State :=
  let e := id / 2 ^ 26
  if numEngines ≤ e then s.setG d (BitVec.ofNat 64 unknown)
  else if (dieEngines s.here).contains e then here e
  else
    let (tok, t) := s.takeTok
    (t.send { id := 0, cls := .request, src := s.here, dst := nodeEngine e, job := s.myJobNo, ctx := keyCtx s.cur, tok := tok, who := s.myWho,
              body := .query kind id }).parkFor 1 tok (.value d)

/-- CPQ. -/
def State.cpq (s : State) (d a : Reg) : State :=
  let id := (s.me.reg a).toNat
  s.copyAsk d id 2 0 fun e => s.setG d (BitVec.ofNat 64 ((s.engine e).query s.myJobNo id))
def execCpq (d a : Reg) (s : State) : Out := .next (s.cpq d a)
/-- CPCAN. -/
def State.cpcan (s : State) (d a : Reg) : State :=
  let id := (s.me.reg a).toNat
  s.copyAsk d id 3 2 fun e =>
    let (code, t) := s.copyCancel e s.myJobNo id
    t.setG d (BitVec.ofNat 64 code)
def execCpcan (d a : Reg) (s : State) : Out := .next (s.cpcan d a)

end Sys2Proof.Machine
end

