-- ==== Sys2Proof/Machine/Group.lean ====
section
/-!
DEFINITION. The meanings of the group instructions (R89-R91): arrivals, waits and queries. Phases complete by an event.
-/
namespace Sys2Proof.Machine

/-- PH(g) of a job. -/
def Job.ph (jb : Job) (g : Nat) : Nat := Table.get 0 jb.phases g
/-- A thread's latest arrival at a group. -/
def Job.arrival (jb : Job) (g thidx : Nat) : Option Arrival := jb.arrivals.find? fun a => a.grp == g && a.thidx == thidx
/-- The thread has arrived at phase PH(g). -/
def Job.arrivedNow (jb : Job) (g thidx : Nat) : Bool :=
  match jb.arrival g thidx with | some a => a.phase == jb.ph g | none => false
/-- The members of a group. -/
def Job.members (jb : Job) (g : Nat) : List Nat := Table.get [] jb.groups g

/-- GBAR, GARR, GWAIT and PLY refuse a group above 255 or not in GSET (R89). -/
def State.groupBad (s : State) (g : Nat) : Bool := decide (255 < g) || !gsetHas s.me.gset g

/-- The executing thread's arrival at phase PH(g) is recorded against its index. -/
def State.arrive (s : State) (g : Nat) (ply : Bool) : State :=
  let th := s.me.thidx
  let tok := s.nextTok
  s.modJob s.myJobNo fun jb =>
    let new : Arrival := { grp := g, thidx := th, phase := jb.ph g, ply := ply, at_ := s.now, tok := tok }
    { jb with arrivals := (jb.arrivals.filter fun a => !(a.grp == g && a.thidx == th)) ++ [new] }

/-- The second half of GBAR and PLY, and GWAIT: PARK 10 while the latest arrival's phase has not completed. -/
def State.gwaitAt (s : State) (g : Nat) : State :=
  if s.myJob.arrivedNow g s.me.thidx then
    s.modMe fun c => { c with st := .parked, park := 10, kont := .advance, got := [(g, s.myJob.ph g)], again := false }
  else s.retire id

/-- GBAR and PLY. -/
def State.gbar (s : State) (a : Reg) (ply : Bool) : State :=
  let g := (s.me.reg a).toNat
  if s.groupBad g || s.myJob.arrivedNow g s.me.thidx then s.trap cILLEGAL 0
  else (s.arrive g ply).gwaitAt g

/-- GBAR (R90). -/
def execGbar (a : Reg) (s : State) : Out := .next (s.gbar a false)
/-- GARR (R90). -/
def State.garr (s : State) (a : Reg) : State :=
  let g := (s.me.reg a).toNat
  if s.groupBad g || s.myJob.arrivedNow g s.me.thidx then s.trap cILLEGAL 0
  else (s.arrive g false).retire id
def execGarr (a : Reg) (s : State) : Out := .next (s.garr a)
/-- GWAIT (R90). -/
def State.gwait (s : State) (a : Reg) : State :=
  let g := (s.me.reg a).toNat
  if s.groupBad g then s.trap cILLEGAL 0 else s.gwaitAt g
def execGwait (a : Reg) (s : State) : Out := .next (s.gwait a)

/-- Members that have arrived at phase PH(g), exited ones included. -/
def Job.arrivedCount (jb : Job) (g : Nat) : Nat :=
  ((jb.members g).filter fun th => jb.exited.contains th || jb.arrivedNow g th).length
/-- GQRY (R91). -/
def State.gqry (s : State) (d a : Reg) : State :=
  let g := (s.me.reg a).toNat
  let jb := s.myJob
  if 255 < g then s.trap cILLEGAL 0
  else s.setG d (BitVec.ofNat 64
    (boolN (jb.arrivedNow g s.me.thidx) * 2 ^ 63 + jb.arrivedCount g * 2 ^ 32 + jb.ph g % 2 ^ 32))
def execGqry (d a : Reg) (s : State) : Out := .next (s.gqry d a)
/-- PLY (R90); it traps ILLEGAL while a pair task is held (R181). -/
def execPly (a : Reg) (s : State) : Out := .next (if s.me.pairtask then s.trap cILLEGAL 0 else s.gbar a true)

end Sys2Proof.Machine
end

