-- ==== Sys2Proof/Machine/Deferred.lean ====
section
/-!
DEFINITION. Deferred updates: the append (R193), skeins (R194), what an entry does (R195), the merge of a ply phase (R196), and the
meanings of the DUP forms (R192). The forms are numbered by their function codes.
-/
namespace Sys2Proof.Machine
open Sys2Proof.Config

/-! ### Skeins (R194) -/

/-- Entries a skein holds: SKN of the job's queue in MiB, 32 bytes each. -/
def State.skeinSize (s : State) (sp : Nat) : Nat :=
  let n := (s.queue (s.jobAt sp).queue).skn
  (if n = 0 then 2 else n) * 2 ^ 20 / 32

/-- Why the skein at the home of `fa` refuses an append of `n` bytes from `src`, `extra` entries being reserved already: FENCED
or WINDOW, SUBWR, SKEIN. -/
def State.appendRefusal (s : State) (src fa n extra : Nat) : Option Nat :=
  let h := faSp fa
  match s.refuses h src fa n 1 with
  | some c => some c
  | none =>
    if s.inCopyRegion fa n then some cSUBWR
    else if s.skeinSize h ≤ (s.spindle h).skein.length + extra then some cSKEIN
    else none

/-- An accepted entry. -/
def State.append (s : State) (e : SkeinEntry) : State := s.modSp (faSp e.fa) fun p => { p with skein := p.skein ++ [e] }

/-! ### Applying entries (R195) -/

/-- Who makes the writes that no thread makes. -/
def noWho : Nat := 2 ^ 60

/-- The new value of the covered bytes. -/
def entryValue (op n m v : Nat) : Nat :=
  let w := 8 * n
  match op with
  | 0 => (m + v) % 2 ^ w
  | 1 => addRne fp32 m v
  | 2 => if signExt v w < signExt m w then v else m
  | 3 => if signExt m w < signExt v w then v else m
  | 4 => minMaxIeee fp32 false m v
  | 5 => minMaxIeee fp32 true m v
  | 6 => m ||| v
  | _ => v

/-- An entry applied by its home's bank; a write of part of a poisoned word consumes the poison (R348). -/
def State.applyEntry (s : State) (e : SkeinEntry) : State :=
  let n := 2 ^ e.sz
  if (s.spindle (faSp e.fa)).fenced then s
  else if n != 8 && s.poisoned e.fa n then s.consume (faSp e.fa) e.fa n
  else s.store e.fa n (entryValue e.op n (s.read e.fa n) e.v) noWho

/-- The order of R196: word address, key, sequence; ties stay in acceptance order (R197). -/
def entryLe (a b : SkeinEntry) : Bool :=
  let wa := a.fa / 8; let wb := b.fa / 8
  decide (wa < wb) || (wa == wb && (decide (a.key < b.key) || (a.key == b.key && decide (a.seqn ≤ b.seqn))))

def insertEntry (e : SkeinEntry) : List SkeinEntry → List SkeinEntry
  | [] => [e]
  | x :: t => if entryLe x e then x :: insertEntry e t else e :: x :: t

/-- Entries sorted for the merge. -/
def sortEntries (l : List SkeinEntry) : List SkeinEntry := l.foldl (fun acc e => insertEntry e acc) []

/-- The entry belongs to the merge of ply phase `p` of group `g`. -/
def SkeinEntry.mergesIn (e : SkeinEntry) (g p : Nat) : Bool := e.plyg == g && (decide (e.phase ≤ p) || e.anyph)

/-- The merge of ply phase `p` of group `g` begins at every spindle of the job's rectangle together: its entries are those of now. -/
def State.beginMerge (s : State) (j g p : Nat) : State :=
  let mark := fun (e : SkeinEntry) => if e.mergesIn g p then { e with due := true } else e
  let s := (s.job j).rect.spindles.foldl (fun s sp => s.modSp sp fun x => { x with skein := x.skein.map mark }) s
  s.modJob j fun jb => { jb with merging := g :: jb.merging }

/-- Entries of a group's merge that a spindle has not applied yet, in the order of R196. -/
def State.dueAt (s : State) (g sp : Nat) : List SkeinEntry := sortEntries ((s.spindle sp).skein.filter fun e => e.due && e.plyg == g)
/-- A merge has entries left. -/
def State.mergeLeft (s : State) (j g : Nat) : Bool := (s.job j).rect.spindles.any fun sp => !(s.dueAt g sp).isEmpty

/-- An entry is applied and leaves its skein. -/
def State.mergeEntry (s : State) (e : SkeinEntry) : State :=
  (s.modSp (faSp e.fa) fun x => { x with skein := x.skein.erase e }).applyEntry e

/-- A merge moves on: of the spindles with entries left, those that a free value names apply the next one in the order of R196, so that
another thread reads a word after some prefix of its entries, and a spindle's words in that order (R162). -/
def State.mergeStep (s : State) (j g : Nat) : State :=
  let es := (s.job j).rect.spindles.filterMap fun sp => (s.dueAt g sp).head?
  let pick := tearTake false s.free (es.map fun e => faSp e.fa)
  { ((es.filter fun e => pick (faSp e.fa)).foldl State.mergeEntry s) with free := s.free + 1 }

/-! ### The append (R193) -/

/-- PHASE and ANYPH of an append by a context now. -/
def State.appendPhase (s : State) (c : Context) (j : Nat) : Nat × Bool :=
  let g := c.plyg.toNat
  let jb := s.job j
  if gsetHas c.gset g then (if jb.arrivedNow g c.thidx then jb.ph g + 1 else jb.ph g, false) else (0, true)

/-- An append at its page: buffered by a held task, else sent to the skein of its home. -/
def State.dupAt (s : State) (op sz : Nat) (ea : Word) (fa v : Nat) (keyReg : Reg) : State :=
  let c := s.me
  let n := 2 ^ sz
  if c.pairtask then
    match c.task with
    | some t =>
      if 64 ≤ t.dups.length + (if t.fork.isSome then 1 else 0) then s.trap cTASKBUF 0
      else s.retire fun c => { c with task := some { t with dups := t.dups ++ [{ va := ea, fa := fa, op := op, sz := sz, v := v }] } }
    | none => s.retire id
  else
    let (ph, any) := s.appendPhase c s.myJobNo
    let e : SkeinEntry :=
      { fa := fa, op := op, sz := sz, v := v,
        key := if keyReg = 0 then c.thidx * 2 ^ 32 + bitsOf c.lastIssue 63 32 else (c.reg keyReg).toNat,
        seqn := if keyReg = 0 then bitsOf c.lastIssue 31 0 else 0,
        plyg := c.plyg.toNat, phase := ph, anyph := any }
    if s.mustWait fa false then s.parkWait fa false
    else if faSp fa = s.here then
      match s.appendRefusal s.here fa n 0 with
      | some cause => s.trap cause ea
      | none => (s.append e).retire id
    else s.requestVia .update 2 ea fa (.append e) .advance none

/-- A DUP form with operands of `2 ^ sz` bytes. -/
def State.dup (s : State) (op sz : Nat) (a b c : Reg) : State :=
  let ea := s.me.reg a
  let n := 2 ^ sz
  if c != 0 && s.me.pairtask then s.trap cILLEGAL 0
  else if ea.toNat % n != 0 then s.trap cALIGN ea
  else s.onChk (s.xlate ea needW) fun p => (s.touch ea).dupAt op sz ea p.1 ((s.me.reg b).toNat % 2 ^ (8 * n)) c

def wSz (w : Bool) : Nat := if w then 2 else 3

/-- DADD (R192). -/
def execDadd (a b c : Reg) (w : Bool) (s : State) : Out := .next (s.dup 0 (wSz w) a b c)
/-- DFADD (R192). -/
def execDfadd (a b c : Reg) (s : State) : Out := .next (s.dup 1 2 a b c)
/-- DMINS (R192). -/
def execDmins (a b c : Reg) (w : Bool) (s : State) : Out := .next (s.dup 2 (wSz w) a b c)
/-- DMAXS (R192). -/
def execDmaxs (a b c : Reg) (w : Bool) (s : State) : Out := .next (s.dup 3 (wSz w) a b c)
/-- DFMIN (R192). -/
def execDfmin (a b c : Reg) (s : State) : Out := .next (s.dup 4 2 a b c)
/-- DFMAX (R192). -/
def execDfmax (a b c : Reg) (s : State) : Out := .next (s.dup 5 2 a b c)
/-- DOR (R192). -/
def execDor (a b c : Reg) (w : Bool) (s : State) : Out := .next (s.dup 6 (wSz w) a b c)
/-- DSTORE (R192). -/
def execDstore (a b c : Reg) (sz : BitVec 2) (s : State) : Out := .next (s.dup 7 sz.toNat a b c)

end Sys2Proof.Machine
end

