-- ==== Sys2Proof/Machine/FloatOps.lean ====
section
/-!
DEFINITION. The meanings of the scalar floating-point instructions (R77-R82).
-/
namespace Sys2Proof.Machine

/-- FADD (R78). -/
def execFadd (d a b : Reg) (dbl : Bool) (rf : BitVec 2) (s : State) : Out := .next (s.fopArith .add d a b dbl rf)
/-- FSUB (R78). -/
def execFsub (d a b : Reg) (dbl : Bool) (rf : BitVec 2) (s : State) : Out := .next (s.fopArith .sub d a b dbl rf)
/-- FMUL (R78). -/
def execFmul (d a b : Reg) (dbl : Bool) (rf : BitVec 2) (s : State) : Out := .next (s.fopArith .mul d a b dbl rf)
/-- FFMA (R78). -/
def execFfma (d a b : Reg) (dbl : Bool) (rf : BitVec 2) (s : State) : Out := .next (s.fopArith .fma d a b dbl rf)
/-- FDIV (R78). -/
def execFdiv (d a b : Reg) (dbl : Bool) (rf : BitVec 2) (s : State) : Out := .next (s.fopArith .div d a b dbl rf)
/-- FSQRT (R78). -/
def execFsqrt (d a : Reg) (dbl : Bool) (rf : BitVec 2) (s : State) : Out := .next (s.fopArith .sqrt d a a dbl rf)
/-- FMIN (R80). -/
def execFmin (d a b : Reg) (dbl : Bool) (s : State) : Out :=
  .next (s.fop d a b fun cp x y => fpMinMax (fopFmt dbl) cp false false x y)
/-- FMAX (R80). -/
def execFmax (d a b : Reg) (dbl : Bool) (s : State) : Out :=
  .next (s.fop d a b fun cp x y => fpMinMax (fopFmt dbl) cp true false x y)
/-- FMINM (R80). -/
def execFminm (d a b : Reg) (dbl : Bool) (s : State) : Out :=
  .next (s.fop d a b fun cp x y => fpMinMax (fopFmt dbl) cp false true x y)
/-- FMAXM (R80). -/
def execFmaxm (d a b : Reg) (dbl : Bool) (s : State) : Out :=
  .next (s.fop d a b fun cp x y => fpMinMax (fopFmt dbl) cp true true x y)
/-- The sign bit of a format and its bits, for FABS and FNEG. -/
def signBit (dbl : Bool) : Nat := if dbl then 2 ^ 63 else 2 ^ 31
/-- FABS (R77): the sign bit cleared, nothing else. -/
def execFabs (d a : Reg) (dbl : Bool) (s : State) : Out :=
  .next (s.setG d (BitVec.ofNat 64 ((s.me.reg a).toNat % signBit dbl)))
/-- FNEG (R77): the sign bit inverted, nothing else. -/
def execFneg (d a : Reg) (dbl : Bool) (s : State) : Out :=
  .next (s.setG d (BitVec.ofNat 64 (((s.me.reg a).toNat % (2 * signBit dbl)) ^^^ signBit dbl)))
/-- FCEQ (R81). -/
def execFceq (d a b : Reg) (dbl : Bool) (s : State) : Out :=
  .next (s.fop d a b fun cp x y => fpCmp .eq (fopFmt dbl) cp x y)
/-- FCLT (R81). -/
def execFclt (d a b : Reg) (dbl : Bool) (s : State) : Out :=
  .next (s.fop d a b fun cp x y => fpCmp .lt (fopFmt dbl) cp x y)
/-- FCLE (R81). -/
def execFcle (d a b : Reg) (dbl : Bool) (s : State) : Out :=
  .next (s.fop d a b fun cp x y => fpCmp .le (fopFmt dbl) cp x y)
/-- FCUN (R81). -/
def execFcun (d a b : Reg) (dbl : Bool) (s : State) : Out :=
  .next (s.fop d a b fun cp x y => fpCmp .un (fopFmt dbl) cp x y)
/-- FCVT (R82). -/
def execFcvt (d a : Reg) (k : BitVec 4) (cf : BitVec 4) (s : State) : Out :=
  let cp := s.me.cprof.toNat
  let r := fcvt k.toNat cp (convRM cp cf) (s.me.reg a).toNat
  .next (s.fopWrite d r.1 r.2)
/-- FRND (R82). -/
def execFrnd (d a : Reg) (dbl : Bool) (cf : BitVec 4) (s : State) : Out :=
  .next (s.fop d a a fun cp x _ => fpRnd (fopFmt dbl) cp (convRM cp cf) x)

end Sys2Proof.Machine
end

