-- ==== Sys2Proof/Machine/Integer.lean ====
section
/-!
DEFINITION. The meanings of the integer instructions: IOP (R72), immediates and literals (R73), BIT (R74).
-/
namespace Sys2Proof.Machine

/-! ### IOP (R72) -/

/-- ADD (R72). -/
def execAdd (d a b : Reg) (w : Bool) (s : State) : Out := .next (s.iop d a b w fun x => x.sa + x.sb)
/-- SUB (R72). -/
def execSub (d a b : Reg) (w : Bool) (s : State) : Out := .next (s.iop d a b w fun x => x.sa - x.sb)
/-- AND (R72). -/
def execAnd (d a b : Reg) (w : Bool) (s : State) : Out := .next (s.iop d a b w fun x => (x.ua &&& x.ub : Nat))
/-- OR (R72). -/
def execOr (d a b : Reg) (w : Bool) (s : State) : Out := .next (s.iop d a b w fun x => (x.ua ||| x.ub : Nat))
/-- XOR (R72). -/
def execXor (d a b : Reg) (w : Bool) (s : State) : Out := .next (s.iop d a b w fun x => (x.ua ^^^ x.ub : Nat))
/-- ANDN (R72). -/
def execAndn (d a b : Reg) (w : Bool) (s : State) : Out := .next (s.iop d a b w fun x => (x.ua &&& (2 ^ x.n - 1 - x.ub) : Nat))
/-- SHL (R72). -/
def execShl (d a b : Reg) (w : Bool) (s : State) : Out := .next (s.iop d a b w fun x => (x.ua <<< x.k : Nat))
/-- SHR (R72). -/
def execShr (d a b : Reg) (w : Bool) (s : State) : Out := .next (s.iop d a b w fun x => (x.ua >>> x.k : Nat))
/-- SAR (R72). -/
def execSar (d a b : Reg) (w : Bool) (s : State) : Out := .next (s.iop d a b w fun x => x.sa / ((2 ^ x.k : Nat) : Int))
/-- ROL (R72). -/
def execRol (d a b : Reg) (w : Bool) (s : State) : Out := .next (s.iop d a b w fun x => (rolNat x.n x.ua x.k : Nat))
/-- MUL (R72). -/
def execMul (d a b : Reg) (w : Bool) (s : State) : Out := .next (s.iop d a b w fun x => x.sa * x.sb)
/-- MULHS (R72). -/
def execMulhs (d a b : Reg) (w : Bool) (s : State) : Out := .next (s.iop d a b w fun x => x.sa * x.sb / ((2 ^ x.n : Nat) : Int))
/-- MULHN (R72). -/
def execMulhn (d a b : Reg) (w : Bool) (s : State) : Out := .next (s.iop d a b w fun x => (x.ua * x.ub / 2 ^ x.n : Nat))

/-- DIVS (R72): DIVZ, or a stated result, for a zero divisor. -/
def execDivs (d a b : Reg) (w : Bool) (s : State) : Out :=
  .next (s.iopDiv d a b w (fun _ => -1) fun x => divTrunc x.sa x.sb)
/-- DIVN (R72): DIVZ, or a stated result, for a zero divisor. -/
def execDivn (d a b : Reg) (w : Bool) (s : State) : Out :=
  .next (s.iopDiv d a b w (fun x => (2 ^ x.n - 1 : Nat)) fun x => (x.ua / x.ub : Nat))
/-- REMS (R72): DIVZ, or a stated result, for a zero divisor. -/
def execRems (d a b : Reg) (w : Bool) (s : State) : Out :=
  .next (s.iopDiv d a b w (fun x => x.sa) fun x => x.sa - x.sb * divTrunc x.sa x.sb)
/-- REMN (R72): DIVZ, or a stated result, for a zero divisor. -/
def execRemn (d a b : Reg) (w : Bool) (s : State) : Out :=
  .next (s.iopDiv d a b w (fun x => (x.ua : Int)) fun x => (x.ua % x.ub : Nat))

/-- MINS (R72). -/
def execMins (d a b : Reg) (w : Bool) (s : State) : Out := .next (s.iop d a b w fun x => if x.sb < x.sa then x.sb else x.sa)
/-- MAXS (R72). -/
def execMaxs (d a b : Reg) (w : Bool) (s : State) : Out := .next (s.iop d a b w fun x => if x.sa < x.sb then x.sb else x.sa)
/-- MINN (R72). -/
def execMinn (d a b : Reg) (w : Bool) (s : State) : Out := .next (s.iop d a b w fun x => (min x.ua x.ub : Nat))
/-- MAXN (R72). -/
def execMaxn (d a b : Reg) (w : Bool) (s : State) : Out := .next (s.iop d a b w fun x => (max x.ua x.ub : Nat))
/-- SLTS (R72). -/
def execSlts (d a b : Reg) (w : Bool) (s : State) : Out := .next (s.iop d a b w fun x => (boolN (decide (x.sa < x.sb)) : Nat))
/-- SLTN (R72). -/
def execSltn (d a b : Reg) (w : Bool) (s : State) : Out := .next (s.iop d a b w fun x => (boolN (decide (x.ua < x.ub)) : Nat))
/-- SEQ (R72). -/
def execSeq (d a b : Reg) (w : Bool) (s : State) : Out := .next (s.iop d a b w fun x => (boolN (decide (x.ua = x.ub)) : Nat))
/-- SNE (R72). -/
def execSne (d a b : Reg) (w : Bool) (s : State) : Out := .next (s.iop d a b w fun x => (boolN (decide (x.ua ≠ x.ub)) : Nat))

/-! ### Immediates: IMM16 sign- or zero-extended, or a literal (R73) -/

/-- ADDI (R73). -/
def execAddi (d a : Reg) (i : BitVec 16) (s : State) : Out := .next (s.setG d (s.me.reg a + (i.signExtend 64)))
/-- ADDI with a literal (R73). -/
def execAddiLiteral (d a : Reg) (l : Word) (s : State) : Out := .next (s.setG d (s.me.reg a + l))
/-- ANDI (R73). -/
def execAndi (d a : Reg) (i : BitVec 16) (s : State) : Out := .next (s.setG d (s.me.reg a &&& (i.zeroExtend 64)))
/-- ANDI with a literal (R73). -/
def execAndiLiteral (d a : Reg) (l : Word) (s : State) : Out := .next (s.setG d (s.me.reg a &&& l))
/-- ORI (R73). -/
def execOri (d a : Reg) (i : BitVec 16) (s : State) : Out := .next (s.setG d (s.me.reg a ||| (i.zeroExtend 64)))
/-- ORI with a literal (R73). -/
def execOriLiteral (d a : Reg) (l : Word) (s : State) : Out := .next (s.setG d (s.me.reg a ||| l))
/-- XORI (R73). -/
def execXori (d a : Reg) (i : BitVec 16) (s : State) : Out := .next (s.setG d (s.me.reg a ^^^ (i.zeroExtend 64)))
/-- XORI with a literal (R73). -/
def execXoriLiteral (d a : Reg) (l : Word) (s : State) : Out := .next (s.setG d (s.me.reg a ^^^ l))
/-- SLTI (R73). -/
def execSlti (d a : Reg) (i : BitVec 16) (s : State) : Out := .next (s.setG d (BitVec.ofNat 64 (boolN ((s.me.reg a).slt (i.signExtend 64)))))
/-- SLTI with a literal (R73). -/
def execSltiLiteral (d a : Reg) (l : Word) (s : State) : Out := .next (s.setG d (BitVec.ofNat 64 (boolN ((s.me.reg a).slt l))))
/-- MOVI (R73). -/
def execMovi (d : Reg) (i : BitVec 16) (s : State) : Out := .next (s.setG d (i.signExtend 64))
/-- MOVI with a literal (R73). -/
def execMoviLiteral (d : Reg) (l : Word) (s : State) : Out := .next (s.setG d l)
/-- SHLI (R73). -/
def execShli (d a : Reg) (k : BitVec 6) (s : State) : Out := .next (s.setG d (s.me.reg a <<< k.toNat))
/-- SHRI (R73). -/
def execShri (d a : Reg) (k : BitVec 6) (s : State) : Out := .next (s.setG d (s.me.reg a >>> k.toNat))
/-- SARI (R73). -/
def execSari (d a : Reg) (k : BitVec 6) (s : State) : Out := .next (s.setG d ((s.me.reg a).sshiftRight k.toNat))
/-- ROLI (R73). -/
def execRoli (d a : Reg) (k : BitVec 6) (s : State) : Out :=
  .next (s.setG d (BitVec.ofNat 64 (rolNat 64 (s.me.reg a).toNat k.toNat)))

/-! ### BIT (R74) -/

/-- The executing context writes `g(D)` with a number that is a function of `g(A)`. -/
def State.bitOp (s : State) (d a : Reg) (f : Nat → Nat) : State := s.setG d (BitVec.ofNat 64 (f (s.me.reg a).toNat))

/-- POPC (R74). -/
def execPopc (d a : Reg) (s : State) : Out := .next (s.bitOp d a (popCount 64))
/-- CLZ (R74). -/
def execClz (d a : Reg) (s : State) : Out := .next (s.bitOp d a clz64)
/-- CTZ (R74). -/
def execCtz (d a : Reg) (s : State) : Out := .next (s.bitOp d a ctz64)
/-- BREV (R74). -/
def execBrev (d a : Reg) (s : State) : Out := .next (s.bitOp d a brev64)
/-- BSWAP (R74). -/
def execBswap (d a : Reg) (s : State) : Out := .next (s.bitOp d a bswap64)
/-- BFXS (R74): the field sign-extended from its width; zeros are read above bit 63. -/
def execBfxs (d a b : Reg) (s : State) : Out :=
  let (l, w) := fieldPos (s.me.reg b).toNat
  .next (s.setG d (BitVec.ofInt 64 (signExt ((s.me.reg a).toNat >>> l) w)))
/-- BFXN (R74). -/
def execBfxn (d a b : Reg) (s : State) : Out :=
  let (l, w) := fieldPos (s.me.reg b).toNat
  .next (s.setG d (BitVec.ofNat 64 (truncN ((s.me.reg a).toNat >>> l) w)))
/-- BFI (R74). -/
def execBfi (d a b : Reg) (s : State) : Out :=
  .next (s.setG d (BitVec.ofNat 64 (bfi64 (s.me.reg d).toNat (s.me.reg a).toNat (s.me.reg b).toNat)))
/-- SEL (R74). -/
def execSel (d a b c : Reg) (s : State) : Out :=
  .next (s.setG d (if s.me.reg c = 0 then s.me.reg b else s.me.reg a))

end Sys2Proof.Machine
end

