-- ==== Sys2Proof/Machine/Launch.lean ====
section
/-!
DEFINITION. The meanings of device-side launch (R373-R375), and the meanings of prefix words (R60, R64) and of the units that are no
instructions (R64).
-/
namespace Sys2Proof.Machine
open Sys2Proof.Config

/-- The record goes to the dispatcher (R374). -/
def State.launchSend (s : State) (d : Reg) (a : Word) (q : Nat) (bytes : Nat) : State :=
  let (tok, t) := s.takeTok
  (t.send { id := 0, cls := .request, src := s.here, dst := nodeDisp, job := s.myJobNo, ctx := keyCtx s.cur, tok := tok, va := a,
            who := s.myWho,
            body := .launch ((List.range 8).map fun i => BitVec.ofNat 64 (bytes / 2 ^ (64 * i))) q s.myJob.queue }).parkFor 2 tok (.value d)

/-- LAUNCH (R374). -/
def State.launch (s : State) (d a b : Reg) : State :=
  let va := s.me.reg a
  let q := (s.me.reg b).toNat
  if va.toNat % 64 != 0 then s.trap cALIGN va
  else if 16383 < q then s.trap cLAUNCH va
  else if !s.me.rels.isEmpty then s.parkAll
  else
    s.onChk (s.xlate va needR) fun p =>
      let s := s.touch va
      let fa := p.1
      if faSp fa = s.here then
        if s.poisoned fa 64 then s.consume s.here fa 64
        else s.launchSend d va q (s.read fa 64)
      else
        match s.me.got.find? fun e => e.1 == fa with
        | some e => s.launchSend d va q e.2
        | none => s.request 1 va fa (.read fa 64 0) (.gather fa) none
def execLaunch (d a b : Reg) (s : State) : Out := .next (s.launch d a b)

/-- LQRY (R375): the dispatcher answers. -/
def State.lqry (s : State) (d a : Reg) : State :=
  let (tok, t) := s.takeTok
  (t.send { id := 0, cls := .request, src := s.here, dst := nodeDisp, job := s.myJobNo, ctx := keyCtx s.cur, tok := tok, who := s.myWho,
            body := .query 0 (s.me.reg a).toNat }).parkFor 1 tok (.value d)
def execLqry (d a : Reg) (s : State) : Out := .next (s.lqry d a)

/-! ### Prefix words (R60-R63) -/

/-- A prefix word has been decoded: the unit goes on with its next word, which begins after it; the PC stays at the unit's first
word until the unit issues (R50). -/
def State.prefixWord (s : State) (f : UnitRec → UnitRec) : State :=
  { (s.modMe fun c => { c with unit := f c.unit }) with midUnit := true }

/-- REL (R60). -/
def execRel (ord : BitVec 2) (s : State) : Out := .next (s.prefixWord fun u => { u with rel := some ord })
/-- FAR (R60). -/
def execFar (s : State) : Out := .next (s.prefixWord fun u => { u with far := true })

/-! ### Units that are no instructions (R64) -/

/-- A reserved encoding traps ILLEGAL, its address zero. -/
def execReservedEncoding (s : State) : Out := .next (s.trap cILLEGAL 0)

/-- A unit whose word has no execute mapping traps XLATE at the unit's PC, its record without unit words, and RESUME's mode 1 cannot
skip it (R64, R65, R104). -/
def execInstructionFetchFault (va : Word) (s : State) : Out :=
  .next (s.takeTrap s.cur { s.me.unit.info cXLATE va with words := [], fetchFault := true })

end Sys2Proof.Machine
end

