-- ==== Sys2Proof/Machine/Layer.lean ====
section
/-!
DEFINITION. Layered targets (R275-R293): the issuer's part of the five instructions, and what the target's home performs. An
operation runs on the state as it goes and is dropped whole where an address or a check fails, so that a trap leaves no effect.
-/
namespace Sys2Proof.Machine
open Sys2Proof.Config

/-! ### Access at the home (R275, R283) -/

/-- Why an operation is not performed: a trap at the issuer, or poison that it would consume. -/
inductive LyrErr where
  | trap (cause : Nat) (addr : Word)
  | poison (fa n : Nat)
  deriving DecidableEq, Repr

/-- Whose operation runs where: the issuer's job, whose tables translate, the target's home, who writes; whether copy regions are
judged, and the bytes that the operation is known to write, which are judged where it first reaches them (R275). -/
structure LyrEnv where
  job : Nat
  home : Nat
  who : Nat
  judged : Bool := false
  plan : List (Word × Nat) := []

/-- The state as the operation goes, and the bytes it has written. -/
structure LyrRun where
  s : State
  log : List (Word × Nat) := []

/-- The operation will write some of these bytes. -/
def LyrEnv.writes (e : LyrEnv) (va : Word) (n : Nat) : Bool :=
  e.plan.any fun x => decide (va.toNat < x.1.toNat + x.2) && decide (x.1.toNat < va.toNat + n)

/-- Of `n` bytes that the operation reaches at `va`, the first one that it writes into a copy region; of bytes homed elsewhere, whose first one
fails in any case, that one alone. -/
def LyrEnv.copyByte (e : LyrEnv) (r : LyrRun) (va : Word) (fa n : Nat) (wr : Bool) : Option Nat :=
  if e.judged && r.s.inCopyRegion fa n then
    (List.range (if faSp fa = e.home then n else 1)).find? fun b =>
      (wr || e.writes (va + BitVec.ofNat 64 b) 1) && r.s.inCopyRegion (fa + b) 1
  else none

/-- The fabric address of `n` bytes the home reaches, judged byte by byte: translation and permission, SUBWR, the home; then poison. `rd` asks for R, `uses`
says that their contents are read. -/
def LyrEnv.fa (e : LyrEnv) (r : LyrRun) (va : Word) (n : Nat) (rd wr uses : Bool) : Except LyrErr Nat :=
  match r.s.walkJob e.job va with
  | none => .error (.trap cXLATE va)
  | some p =>
    let fa := p.fa va
    if p.kind != 0 || !p.w || (rd && !p.r) then .error (.trap cXLATE va)
    else
      match e.copyByte r va fa n wr with
      | some b => .error (.trap cSUBWR (va + BitVec.ofNat 64 b))
      | none =>
        if e.judged && faSp fa != e.home then .error (.trap cILLEGAL va)
        else if e.judged && r.s.poisoned fa n && (uses || n % 8 != 0) then .error (.poison fa n)
        else .ok fa

/-- A read of `n` bytes. -/
def LyrEnv.read (e : LyrEnv) (r : LyrRun) (va : Word) (n : Nat) : Except LyrErr Nat := do
  let fa ← e.fa r va n true false true
  return r.s.read fa n

/-- A write of `n` bytes; the output alone needs no R. A run that is not judged goes on past an address that has no page. -/
def LyrEnv.write (e : LyrEnv) (r : LyrRun) (va : Word) (n v : Nat) (rd : Bool := true) : Except LyrErr LyrRun :=
  match e.fa r va n rd true false with
  | .ok fa => .ok { s := r.s.store fa n v e.who, log := r.log ++ [(va, n)] }
  | .error x => if e.judged then .error x else .ok { r with log := r.log ++ [(va, n)] }

def addN (va : Word) (n : Nat) : Word := va + BitVec.ofNat 64 n

/-! ### The descriptor (R276, R277) -/

structure LyrDesc where
  va : Word
  heads : Word
  pool : Word
  out : Word
  w : Nat
  h : Nat
  pages : Nat
  layers : Nat
  rule : Nat
  ofmt : Nat
  moe : Bool
  deriving DecidableEq, Repr

def LyrDesc.outSize (d : LyrDesc) : Nat := 4 * 2 ^ d.ofmt

/-- The descriptor's 64 bytes as one number, read and checked. -/
def lyrDesc (va : Word) (v : Nat) : Except LyrErr LyrDesc :=
  let byte := fun i n => v / 256 ^ i % 256 ^ n
  let d : LyrDesc :=
    { va := va, heads := BitVec.ofNat 64 (byte 0 8), pool := BitVec.ofNat 64 (byte 8 8), out := BitVec.ofNat 64 (byte 16 8),
      w := byte 24 2, h := byte 26 2, pages := byte 28 2, layers := byte 30 1, rule := byte 31 1, ofmt := byte 32 1,
      moe := byte 33 1 % 2 == 1 }
  if v / 256 ^ 34 != 0 || decide (1 < byte 33 1) || decide (2 < d.ofmt) || decide (2 < d.rule) || d.layers == 0 || decide (8 < d.layers) ||
      d.pages == 0 || decide (4096 < d.pages) || d.w == 0 || d.h == 0 || d.heads.toNat % 4 != 0 || d.pool.toNat % 65536 != 0 ||
      d.out.toNat % d.outSize != 0 then .error (.trap cILLEGAL va)
  else .ok d

def LyrDesc.headVa (d : LyrDesc) (p : Nat) : Word := addN d.heads (4 * p)
def LyrDesc.nodeVa (d : LyrDesc) (ix : Nat) : Word := addN d.pool (16 * ix)
def noNode : Nat := 0xFFFFFF

/-! ### Nodes and lists (R278-R281) -/

structure LyrNode where
  ix : Nat
  depth : Nat
  col : Nat
  next : Nat
  flags : Nat
  deriving DecidableEq, Repr

def lyrNode (ix v : Nat) : LyrNode :=
  { ix := ix, depth := v % 2 ^ 32, col := v / 2 ^ 32 % 2 ^ 64, next := v / 2 ^ 96 % 2 ^ 24, flags := v / 2 ^ 120 % 256 }
/-- Channel `i` of a colour: R, G, B, A. -/
def channel (col i : Nat) : Nat := col / 2 ^ (16 * i) % 2 ^ 16

/-- The chain of `n` nodes from `ix`, checked against the pool; `bad` is the trap of a failing list check. -/
def LyrEnv.chain (e : LyrEnv) (s : LyrRun) (d : LyrDesc) (bad : LyrErr) : Nat → Nat → Except LyrErr (List LyrNode)
  | 0, ix => if ix = noNode then .ok [] else .error bad
  | n + 1, ix =>
    if 4096 * d.pages ≤ ix || ix % 4096 < 32 || ix == noNode then .error bad
    else do
      let v ← e.read s (d.nodeVa ix) 16
      let x := lyrNode ix v
      let t ← e.chain s d bad n x.next
      return x :: t

/-- The list of a pixel from its head word (R281). -/
def LyrEnv.list (e : LyrEnv) (s : LyrRun) (d : LyrDesc) (p head : Nat) : Except LyrErr (List LyrNode) :=
  let bad := LyrErr.trap cILLEGAL (d.headVa p)
  let n := head / 2 ^ 24
  if d.layers < n then .error bad else e.chain s d bad n (head % 2 ^ 24)

/-! ### The pool (R280) -/

/-- The lowest free slot of a bitmap word, slots that are never allocated apart; `w` numbers the words of the pool. -/
def freeBit (w v : Nat) : Option Nat :=
  (List.range 64).find? fun b => v / 2 ^ b % 2 == 1 && !(w % 64 == 0 && decide (b < 32)) && !(w == 64 * 4096 - 1 && b == 63)

def LyrDesc.mapVa (d : LyrDesc) (w : Nat) : Word := addN d.pool (65536 * (w / 64) + 8 * (w % 64))

/-- The lowest free node, the bitmap words read in order; `n` words from `w` are left. -/
def LyrEnv.seek (e : LyrEnv) (s : LyrRun) (d : LyrDesc) : Nat → Nat → Except LyrErr (Option Nat)
  | 0, _ => .ok none
  | n + 1, w => do
    let v ← e.read s (d.mapVa w) 8
    match freeBit w v with
    | some b => return some (4096 * (w / 64) + 64 * (w % 64) + b)
    | none => e.seek s d n (w + 1)

def LyrEnv.lowest (e : LyrEnv) (s : LyrRun) (d : LyrDesc) : Except LyrErr (Option Nat) := e.seek s d (64 * d.pages) 0

/-- The bitmap bit of a node becomes `f`. -/
def LyrEnv.mark (e : LyrEnv) (s : LyrRun) (d : LyrDesc) (ix : Nat) (f : Bool) : Except LyrErr LyrRun := do
  let va := d.mapVa (64 * (ix / 4096) + ix % 4096 / 64)
  let v ← e.read s va 8
  let b := 2 ^ (ix % 64)
  e.write s va 8 (if f then v ||| b else v - (v &&& b))

/-! ### MergeClosest (R288) -/

/-- Δ of two neighbouring depths; none stands for +∞. -/
def depthGap (near far : Nat) : Option Fl :=
  let a := fp32.decode near; let b := fp32.decode far
  if a.isNaN || b.isNaN then none
  else if a.isInf || b.isInf then (if a.isInf && b.isInf && a.neg == b.neg then some (.zero false) else none)
  else some (add0 b a.negate)

def gapLess (a b : Option Fl) : Bool :=
  match a, b with
  | some x, some y => x.cmp y < 0
  | some _, none => true
  | none, _ => false

/-- The position of the pair with the smallest Δ, the first of equal ones. -/
def closest (l : List LyrNode) : Nat :=
  let gaps := (l.zip (l.drop 1)).map fun e => depthGap e.1.depth e.2.depth
  (gaps.zipIdx.foldl (fun (best : Option (Option Fl × Nat)) (g : Option Fl × Nat) =>
    match best with | none => some g | some b => if gapLess g.1 b.1 then some g else some b) none).map (·.2) |>.getD 0

/-- The merged colour of a near and a far node. -/
def mergeColour (rule near far : Nat) : Nat :=
  let f := fun i => fp16.decode (channel near i)
  let g := fun i => fp16.decode (channel far i)
  packLanes 16 ((List.range 4).map fun i =>
    match rule with
    | 0 => channel near i
    | 1 => fp16.roundSat (add0 (f i) (mul0 (add0 .one (f 3).negate) (g i)))
    | _ => fp16.roundSat (add0 (f i) (g i)))

/-- One pair of a list is merged. -/
def LyrEnv.mergeClosest (e : LyrEnv) (s : LyrRun) (d : LyrDesc) (l : List LyrNode) : Except LyrErr (List LyrNode × LyrRun) := do
  let i := closest l
  match l[i]?, l[i + 1]? with
  | some near, some far =>
    let new := { near with col := mergeColour d.rule near.col far.col, next := far.next, flags := near.flags ||| 1 }
    let s ← e.write s (addN (d.nodeVa near.ix) 4) 12 (new.col + new.next * 2 ^ 64 + new.flags * 2 ^ 88)
    let s ← e.mark s d far.ix true
    return (l.take i ++ [new] ++ l.drop (i + 2), s)
  | _, _ => return (l, s)

/-! ### The forms at the home -/

/-- The last node whose depth is not above `z`, by position; a NaN depth never counts (R287). -/
def linkPos (l : List LyrNode) (z : Nat) : Nat :=
  let fz := fp32.decode z
  l.zipIdx.foldl (fun a e => let x := fp32.decode e.1.depth; if !x.isNaN && x.cmp fz ≤ 0 then e.2 + 1 else a) 0

/-- A node `x` is written and linked into a list. -/
def LyrEnv.link (e : LyrEnv) (s : LyrRun) (d : LyrDesc) (l : List LyrNode) (x z col : Nat) : Except LyrErr (List LyrNode × LyrRun) := do
  let s ← e.mark s d x false
  let i := linkPos l z
  let next := match l[i]? with | some y => y.ix | none => noNode
  let node : LyrNode := { ix := x, depth := z, col := col, next := next, flags := 0 }
  let s ← e.write s (d.nodeVa x) 16 (z + col * 2 ^ 32 + next * 2 ^ 96)
  match i, l[i - 1]? with
  | i' + 1, some prev =>
    let s ← e.write s (addN (d.nodeVa prev.ix) 12) 3 x
    return (l.take i' ++ [{ prev with next := x }, node] ++ l.drop (i' + 1), s)
  | _, _ => return (node :: l, s)

/-- The head word of a list. -/
def headOf (l : List LyrNode) : Nat := l.length * 2 ^ 24 + (match l with | x :: _ => x.ix | [] => noNode)

/-- FINS (R286, R287): the record's bytes 0-11 are one number. -/
def LyrEnv.fins (e : LyrEnv) (s : LyrRun) (d : LyrDesc) (p rec : Nat) : Except LyrErr (Nat × LyrRun) := do
  let z := rec % 2 ^ 32; let col := rec / 2 ^ 32
  if d.w * d.h ≤ p then .error (.trap cILLEGAL d.va)
  else do
    let head ← e.read s (d.headVa p) 4
    let l ← e.list s d p head
    if (fp32.decode z).isNaN then return (l.length * 256 + 4, s)
    else
      let free ← e.lowest s d
      let put : List LyrNode → LyrRun → Nat → Nat → Except LyrErr (Nat × LyrRun) := fun l s x code => do
        let (l, s) ← e.link s d l x z col
        let (l, s, code) ← if d.layers < l.length then do
            let (l, s) ← e.mergeClosest s d l
            pure (l, s, 1)
          else pure (l, s, code)
        let s ← e.write s (d.headVa p) 4 (headOf l)
        return (l.length * 256 + code, s)
      match free with
      | some x => put l s x 0
      | none =>
        if !d.moe then .error (.trap cPOOL d.va)
        else if l.length < 2 then return (l.length * 256 + 3, s)
        else
          let (l, s) ← e.mergeClosest s d l
          match ← e.lowest s d with
          | some x => put l s x 2
          | none => .error (.trap cPOOL d.va)

/-- One channel of `Comp` (R290). -/
def compChannel (rule : Nat) (first : Bool) (acc : List Nat) (col i : Nat) : Nat :=
  let a := fp32.decode (acc.getD i 0); let aa := fp32.decode (acc.getD 3 0)
  let c := fp16.decode (channel col i)
  match rule with
  | 0 => if first then (fp32.round 0 c).1 else acc.getD i 0
  | 1 => (fp32.round 0 (add0 a (mul0 (add0 .one aa.negate) c))).1
  | _ => (fp32.round 0 (add0 a c)).1

/-- A list composited front to back: four FP32 codes. -/
def composite (rule : Nat) (l : List LyrNode) : List Nat :=
  (l.zipIdx).foldl (fun acc e => (List.range 4).map (compChannel rule (e.2 == 0) acc e.1.col)) [0, 0, 0, 0]

/-- A channel in an output format. -/
def outChannel (ofmt c : Nat) : Nat :=
  let x := fp32.decode c
  match ofmt with
  | 0 => if x.isNaN || x.cmp (.zero false) ≤ 0 then 0 else if 0 ≤ x.cmp .one then 255 else (((mul0 x (.fin false 255 0)).toInt 0).1).toNat
  | 1 => fp16.roundSat x
  | _ => c

/-- The lists of a span, heads first and then chains, in pixel order. -/
def LyrEnv.heads (e : LyrEnv) (s : LyrRun) (d : LyrDesc) : List Nat → Except LyrErr (List (Nat × Nat))
  | [] => .ok []
  | p :: t => do
    let h ← e.read s (d.headVa p) 4
    let r ← e.heads s d t
    return (p, h) :: r
def LyrEnv.lists (e : LyrEnv) (s : LyrRun) (d : LyrDesc) : List (Nat × Nat) → Except LyrErr (List (Nat × List LyrNode))
  | [] => .ok []
  | (p, h) :: t => do
    let l ← e.list s d p h
    let r ← e.lists s d t
    return (p, l) :: r

/-- The nodes of lists become free. -/
def LyrEnv.freeAll (e : LyrEnv) (d : LyrDesc) : List LyrNode → LyrRun → Except LyrErr LyrRun
  | [], s => .ok s
  | x :: t, s => do
    let s ← e.mark s d x.ix true
    e.freeAll d t s

/-- The addresses that a span reaches after its lists, in the order of R275: the bitmap words of its nodes, then its outputs. -/
def LyrEnv.spanOk (e : LyrEnv) (s : LyrRun) (d : LyrDesc) (out : Bool) (ls : List (Nat × List LyrNode)) : Except LyrErr Unit := do
  for x in ls.flatMap (·.2) do
    let _ ← e.fa s (d.mapVa (64 * (x.ix / 4096) + x.ix % 4096 / 64)) 8 true true true
  if out then
    for p in ls do
      let _ ← e.fa s (addN d.out (d.outSize * p.1)) d.outSize false true false

/-- The list of a pixel at its turn, which an earlier output may have changed; one that is broken so is taken as it was checked. -/
def LyrEnv.listNow (e : LyrEnv) (s : LyrRun) (d : LyrDesc) (p : Nat) (l : List LyrNode) : List LyrNode :=
  match (do let h ← e.read s (d.headVa p) 4; e.list s d p h : Except LyrErr (List LyrNode)) with
  | .ok l => l
  | .error _ => l

/-- Pixel by pixel: the output, the bits of the list's nodes, the head (R290); and how many nodes became free. -/
def LyrEnv.finish (e : LyrEnv) (d : LyrDesc) (out : Bool) : List (Nat × List LyrNode) → LyrRun → Except LyrErr (Nat × LyrRun)
  | [], s => .ok (0, s)
  | (p, l) :: t, s => do
    let l := e.listNow s d p l
    let bits := 8 * d.outSize / 4
    let s ← if out then
        e.write s (addN d.out (d.outSize * p)) d.outSize (packLanes bits ((composite d.rule l).map (outChannel d.ofmt))) false
      else pure s
    let s ← e.freeAll d l s
    let s ← e.write s (d.headVa p) 4 0xFFFFFF
    let (n, s) ← e.finish d out t s
    return (l.length + n, s)

/-- LRES and LCLR (R290). -/
def LyrEnv.resolve (e : LyrEnv) (s : LyrRun) (d : LyrDesc) (f c : Nat) (out : Bool) : Except LyrErr (Nat × LyrRun) := do
  if c = 0 then return (0, s)
  else if d.w * d.h < f + c then .error (.trap cILLEGAL (d.headVa f))
  else
    let hs ← e.heads s d (natsFrom f c)
    let ls ← e.lists s d hs
    e.spanOk s d out ls
    e.finish d out ls s

/-- LCNT (R291). -/
def LyrEnv.count (e : LyrEnv) (s : LyrRun) (d : LyrDesc) (p : Nat) : Except LyrErr (Nat × LyrRun) := do
  if d.w * d.h ≤ p then .error (.trap cILLEGAL d.va)
  else
    let head ← e.read s (d.headVa p) 4
    let l ← e.list s d p head
    return (l.length, s)

/-- The page that LPOOL would add is mapped with kind NORMAL, R and W at the target's home (R292). -/
def LyrEnv.pageThere (e : LyrEnv) (s : LyrRun) (va : Word) : Option Nat :=
  match s.s.walkJob e.job va with
  | some p => if p.kind == 0 && p.r && p.w && faSp (p.fa va) == e.home then some (p.fa va) else none
  | none => none

/-- LPOOL (R292). -/
def LyrEnv.grow (e : LyrEnv) (s : LyrRun) (d : LyrDesc) : Except LyrErr (Nat × LyrRun) := do
  match ← e.lowest s d with
  | some _ => return (1, s)
  | none =>
    let k := d.pages
    if k = 4096 then return (2, s)
    else
      match e.pageThere s (addN d.pool (65536 * k)) with
      | none => return (2, s)
      | some fa =>
        let word := fun (i : Nat) => if i = 0 then 0xFFFFFFFF00000000 else if k = 4095 && i = 63 then 2 ^ 63 - 1 else 2 ^ 64 - 1
        match if e.judged then (List.range 64).find? fun i => s.s.inCopyRegion (fa + 8 * i) 8 else none with
        | some i => .error (.trap cSUBWR (addN d.pool (65536 * k + 8 * i)))
        | none =>
        let s := { s with s := (List.range 64).foldl (fun s i => s.store (fa + 8 * i) 8 (word i) e.who) s.s }
        let s ← e.write s (addN d.va 28) 2 (k + 1)
        return (0, s)

/-- One form on a descriptor. -/
def LyrEnv.form (e : LyrEnv) (s : State) (op : Nat) (desc : Word) (a b : Nat) (frag : List Nat) : Except LyrErr (Nat × LyrRun) := do
  let r : LyrRun := { s := s }
  let v ← e.read r desc 64
  let d ← lyrDesc desc v
  match op with
  | 0 => e.fins r d a (frag.headD 0)
  | 1 => e.resolve r d a b true
  | 2 => e.resolve r d a b false
  | 3 => e.count r d a
  | _ => e.grow r d

/-- The head words that an operation writes if it comes to an end: of FINS, unless its depth is a NaN, and of LRES and LCLR. -/
def LyrEnv.headWrites (e : LyrEnv) (s : State) (op : Nat) (desc : Word) (a b : Nat) (frag : List Nat) : List (Word × Nat) :=
  match (do let v ← e.read { s := s } desc 64; lyrDesc desc v : Except LyrErr LyrDesc) with
  | .error _ => []
  | .ok d =>
    let n := match op with | 0 => if (fp32.decode (frag.headD 0 % 2 ^ 32)).isNaN then 0 else 1 | 1 | 2 => b | _ => 0
    if d.w * d.h < a + n then [] else (natsFrom a n).map fun p => (d.headVa p, 4)

/-- The bytes that an operation writes, by a run that judges neither copy regions nor homes. Where such a run ends at an address that
has no page, the head words, reached before it, are those known to be written (DESIGN CHOICE, log 80). -/
def LyrEnv.planOf (e : LyrEnv) (s : State) (op : Nat) (desc : Word) (a b : Nat) (frag : List Nat) : List (Word × Nat) :=
  match e.form s op desc a b frag with
  | .ok r => r.2.log
  | .error (.trap c _) => if c = cXLATE then e.headWrites s op desc a b frag else []
  | .error _ => []

/-- One layer operation at its home, indivisibly (R283, R284): its answer, or why it has none. A first run finds the bytes that the
operation writes; the second judges each byte where it is first reached (R275). -/
def LyrEnv.perform (e : LyrEnv) (s : State) (op : Nat) (desc : Word) (a b : Nat) (frag : List Nat) : Except LyrErr (Nat × State) := do
  let plan := e.planOf s op desc a b frag
  let r ← { e with judged := true, plan := plan }.form s op desc a b frag
  return (r.1, r.2.s)

/-! ### The issuer's part (R283) -/

/-- The request goes to the target's home, and the context parks for the answer, at home too. -/
def State.lyrSend (s : State) (op : Nat) (d : Reg) (t : Word) (ft a b : Nat) (frag : List Nat) : State :=
  let (tok, u) := s.takeTok
  (u.send { id := 0, cls := .request, src := s.here, dst := faSp ft, job := s.myJobNo, ctx := keyCtx s.cur, tok := tok, va := t,
            who := s.myWho, body := .layer op t.toNat ft a b frag }).parkFor 2 tok (.value d)

/-- The descriptor's alignment and translation. -/
def State.lyrHome (s : State) (t : Word) : Chk (Nat × PageEntry) :=
  (Chk.need (t.toNat % 64 == 0) cALIGN t).bind fun _ => s.xlate t needRW

/-- LRES, LCLR, LCNT and LPOOL. -/
def State.lyr (s : State) (op : Nat) (d a : Reg) (p q : Nat) : State :=
  let t := s.me.reg a
  s.onChk (s.lyrHome t) fun h => (s.touch t).lyrSend op d t h.1 p q []

/-- The fragment record is read, from its own bank or by a remote read. -/
def State.finsAt (s : State) (d : Reg) (t r : Word) (ft fr p : Nat) : State :=
  if s.mustWait fr true || s.me.relOn (fr + 8) then s.parkRel 6 false fun o => o.word == wordOf fr || o.word == wordOf (fr + 8)
  else if faSp fr = s.here then
    if s.poisoned fr 12 then s.consume s.here fr 12
    else s.lyrSend 0 d t ft p 0 [s.read fr 12]
  else
    match s.me.got.find? fun e => e.1 == fr with
    | some e => s.lyrSend 0 d t ft p 0 [e.2]
    | none => s.request 1 r fr (.read fr 12 0) (.gather fr) none

/-- FINS at the issuer. -/
def State.fins (s : State) (d a b c : Reg) : State :=
  let t := s.me.reg a; let r := s.me.reg c
  s.onChk ((s.lyrHome t).bind fun h => (Chk.need (r.toNat % 16 == 0) cALIGN r).bind fun _ =>
      (s.xlate r needR).bind fun x => .ok (h.1, x)) fun v =>
    ((s.touch t).touch r).finsAt d t r v.1 v.2.1 (s.me.reg b).toNat
def execFins (d a b c : Reg) (s : State) : Out := .next (s.fins d a b c)
/-- LRES (R290). -/
def execLres (d a b c : Reg) (s : State) : Out := .next (s.lyr 1 d a (s.me.reg b).toNat (s.me.reg c).toNat)
/-- LCLR (R290). -/
def execLclr (d a b c : Reg) (s : State) : Out := .next (s.lyr 2 d a (s.me.reg b).toNat (s.me.reg c).toNat)
/-- LCNT (R291). -/
def execLcnt (d a b : Reg) (s : State) : Out := .next (s.lyr 3 d a (s.me.reg b).toNat 0)
/-- LPOOL (R292). -/
def execLpool (d a : Reg) (s : State) : Out := .next (s.lyr 4 d a 0 0)

end Sys2Proof.Machine
end

