-- ==== Sys2Proof/Machine/Lanes.lean ====
section
/-!
DEFINITION. How vector forms execute: tag checks (R220, R233), lane results with masks, flags and compatibility events (R226, R229,
R233), integer lanes (R234, R237), reductions (R252, R253).
-/
namespace Sys2Proof.Machine

/-! ### Tag checks -/

/-- The lowest-numbered register of a list. -/
def lowestReg : List VReg → Option VReg
  | [] => none
  | r :: t => match lowestReg t with | some q => some (if q.toNat < r.toNat then q else r) | none => some r

/-- Source registers that must carry one tag out of a set, `va` naming it: the lowest offending one, outside the set, or with another
tag than `va` where that one is in it. -/
def Context.badTags (c : Context) (ok : Nat → Bool) (va : VReg) (others : List VReg) : Option VReg :=
  lowestReg ((va :: others).filter fun r => !ok (c.vtag r) || (ok (c.vtag va) && c.vtag r != c.vtag va))

/-- The executing context traps TAG for a register: its number and its tag (R220). -/
def State.tagTrap (s : State) (r : VReg) : State := s.trapN cTAG (s.me.vtag r * 16 + r.toNat)

def tagIntOrFlt (t : Nat) : Bool := tagIsInt t || tagIsFlt t

/-! ### Lane results -/

/-- The lanes of an old register that an inactive lane keeps: its old bits under the same tag, else 0. -/
def Context.keptLane (c : Context) (vd : VReg) (rt i : Nat) : Nat :=
  if c.vtag vd = rt then laneOf (c.vreg vd).toNat (tagWidth rt) i else 0

/-- The executing context traps COMPAT for the lowest enabled event of its lanes, with the lanes that raised it (R229), or goes
on with `f`. -/
def State.laneEvents (s : State) (evs : List (Nat × Nat)) (f : State → State) : State :=
  let all := evs.foldl (fun a e => a ||| e.2) 0
  match lowestEvent (all &&& cpMask s.me.cprof.toNat) with
  | some b =>
    let ls := (evs.filter fun e => e.2 / 2 ^ b % 2 == 1).map (·.1)
    s.takeTrap s.cur { s.me.unit.info cCOMPAT 0 with cls := b, lanes := (ls.eraseDups.map (2 ^ ·)).sum % 2 ^ 32 }
  | none => f s

/-- VD takes the results of its active lanes, tag `rt` and no sidecar (R233). -/
def State.writeLanes (s : State) (vd : VReg) (rt : Nat) (mask : Option Nat) (f : Nat → FpRes) : State :=
  let n := tagLanes rt
  let act := (List.range n).filter (laneActive mask n)
  let res := act.map fun i => (i, f i)
  s.laneEvents (res.map fun r => (r.1, r.2.events)) fun s =>
    s.retire fun c =>
      let fl := res.foldl (fun a r => a ||| r.2.flags) 0
      let bits := (List.range n).map fun i =>
        match res.find? (fun r => r.1 == i) with | some r => r.2.bits | none => c.keptLane vd rt i
      (c.raise fl).setV vd (BitVec.ofNat 512 (packLanes (tagWidth rt) bits)) rt 0

/-- Lane `i` of a vector register under its tag. -/
def Context.lane (c : Context) (r : VReg) (i : Nat) : Nat := laneOf (c.vreg r).toNat (tagWidth (c.vtag r)) i

/-! ### Integer lanes (R234, R237) -/

/-- The value of a lane read by U. -/
def laneInt (u : Bool) (n x : Nat) : Int := if u then ((x % 2 ^ n : Nat) : Int) else signExt x n

/-- A result narrowed to its lane, clamped where SAT is set. -/
def laneOut (u sat : Bool) (n : Nat) (t : Int) : FpRes :=
  let lo : Int := if u then 0 else -((2 ^ (n - 1) : Nat) : Int)
  let hi : Int := if u then ((2 ^ n : Nat) : Int) - 1 else ((2 ^ (n - 1) : Nat) : Int) - 1
  if sat then let v := satI t lo hi; { bits := truncI v n, flags := if v = t then 0 else flSAT }
  else { bits := truncI t n }

def imU (im : BitVec 2) : Bool := im.getLsbD 0
def imSat (im : BitVec 2) : Bool := im.getLsbD 1

/-- RM must be 00 with integer operands and IMODE 0 with float ones (R234). -/
def modeClash (t : Nat) (im : BitVec 2) (rm : BitVec 2) : Bool := if tagIsInt t then rm != 0 else im != 0

/-- The three forms VADD, VSUB and VMUL on integers. -/
def intOp3 (op : FpOp) (x y : Int) : Int := match op with | .add => x + y | .sub => x - y | _ => x * y

/-- An integer or float lane of VADD, VSUB, VMUL and of a node of VREDA. -/
def laneArith (op : FpOp) (t cp : Nat) (im rm : BitVec 2) (a b : Nat) : FpRes :=
  if tagIsInt t then
    let n := tagWidth t
    laneOut (imU im) (imSat im) n (intOp3 op (laneInt (imU im) n a) (laneInt (imU im) n b))
  else fpArith op (tagFmt t) cp (effRM cp rm.toNat) a b a

/-- An integer or float lane of VMIN and VMAX. -/
def laneMinMax (mx : Bool) (t cp : Nat) (u : Bool) (a b : Nat) : FpRes :=
  if tagIsInt t then
    let n := tagWidth t
    let x := laneInt u n a; let y := laneInt u n b
    laneOut u false n (if mx then (if x < y then y else x) else (if y < x then y else x))
  else fpMinMax (tagFmt t) cp mx false a b

/-- A lane of a comparison: all ones or zero. -/
def laneCmp (r : FpRel) (t cp : Nat) (u : Bool) (a b : Nat) : FpRes :=
  let n := tagWidth t
  if tagIsInt t then
    let x := laneInt u n a; let y := laneInt u n b
    let v := match r with | .eq => decide (a = b) | .lt => decide (x < y) | _ => decide (x ≤ y)
    { bits := if v then 2 ^ n - 1 else 0 }
  else
    let q := fpCmp r (tagFmt t) cp a b
    { q with bits := if q.bits = 1 then 2 ^ n - 1 else 0 }

/-! ### Reductions (R252, R253) -/

/-- What a reduction of no lane gives: +0 or 0 for sums; canonical NaN, or the extreme integer, for the larger and smaller. -/
def emptyMinMax (mx : Bool) (t : Nat) (u : Bool) : Nat :=
  if tagIsInt t then
    let n := tagWidth t
    if mx then (if u then 0 else 2 ^ (n - 1)) else (if u then 2 ^ n - 1 else 2 ^ (n - 1) - 1)
  else (tagFmt t).nan

/-- A partial result of a reduction: the lane it starts at, its bits, the flags so far, the events with their lanes. -/
structure RedAcc where
  lane : Nat
  bits : Nat
  flags : Nat := 0
  events : List (Nat × Nat) := []

/-- Two nodes joined by the operation; its events count at the lower lane. -/
def redJoin (op : Nat → Nat → FpRes) (x y : RedAcc) : RedAcc :=
  let r := op x.bits y.bits
  { lane := x.lane, bits := r.bits, flags := x.flags ||| y.flags ||| r.flags,
    events := x.events ++ y.events ++ [(x.lane, r.events)] }

/-- One level of the tree: neighbours joined, an absent child passes the other through. -/
def redLevel (op : Nat → Nat → FpRes) : List (Option RedAcc) → List (Option RedAcc)
  | x :: y :: t =>
    (match x, y with
     | some a, some b => some (redJoin op a b)
     | some a, none => some a
     | none, b => b) :: redLevel op t
  | l => l

/-- The tree of R252 over the lanes of a register. -/
def redTree (op : Nat → Nat → FpRes) : Nat → List (Option RedAcc) → Option RedAcc
  | 0, l => match l with | x :: _ => x | [] => none
  | f + 1, l => redTree op f (redLevel op l)

/-- The lanes of a register that take part. -/
def Context.redLanes (c : Context) (va : VReg) (mask : Option Nat) : List (Option RedAcc) :=
  let n := tagLanes (c.vtag va)
  (List.range n).map fun i => if laneActive mask n i then some { lane := i, bits := c.lane va i } else none

/-- A reduction into lane 0 of VD, every other lane 0 (R252). -/
def State.reduce (s : State) (vd va : VReg) (mask : Option Nat) (op : Nat → Nat → FpRes) (empty : Nat) : State :=
  let t := s.me.vtag va
  match redTree op 6 (s.me.redLanes va mask) with
  | none => s.retire fun c => c.setV vd (BitVec.ofNat 512 empty) t 0
  | some r => s.laneEvents r.events fun s => s.retire fun c => (c.raise r.flags).setV vd (BitVec.ofNat 512 r.bits) t 0

/-- Running results in ascending lane order (R253): each lane's bits, the flags, the events. -/
def scanLanes (op : Nat → Nat → FpRes) (empty : Nat) : Option RedAcc → List (Nat × Option RedAcc) → List Nat × Nat × List (Nat × Nat)
  | _, [] => ([], 0, [])
  | run, (i, x) :: t =>
    let (run', fl, ev) : Option RedAcc × Nat × List (Nat × Nat) :=
      match x, run with
      | none, r => (r, 0, [])
      | some a, none => (some a, 0, [])
      | some a, some r => let q := op r.bits a.bits; (some { lane := i, bits := q.bits }, q.flags, [(i, q.events)])
    let rest := scanLanes op empty run' t
    ((match run' with | some r => r.bits | none => empty) :: rest.1, fl ||| rest.2.1, ev ++ rest.2.2)

end Sys2Proof.Machine
end

