-- ==== Sys2Proof/Machine/VectorMem.lean ====
section
/-!
DEFINITION. The meanings of the vector memory forms (R240-R244), performed as word accesses (R165).
-/
namespace Sys2Proof.Machine
open Sys2Proof.Config

/-- One access of a vector form: the lane that makes it, its address, its bytes, and the alignment it needs. -/
structure LaneAcc where
  lane : Nat
  va : Word
  n : Nat
  aligned : Bool

/-- The checks of R241, each over all accesses before the next: ALIGN, XLATE, VLOCAL, and SUBWR for stores. The result is the
fabric address of each access. -/
def State.vlsCheck (s : State) (accs : List LaneAcc) (need : Need) : Chk (List (LaneAcc × Nat)) :=
  match accs.find? fun a => !a.aligned with
  | some a => .trap cALIGN a.va
  | none =>
    (Chk.all (fun a => (s.xlate a.va need).bind fun p => .ok (a, p.1)) accs).bind fun l =>
      match l.find? fun e => faSp e.2 != s.here with
      | some e => .trap cVLOCAL e.1.va
      | none =>
        if need.w then
          match l.find? fun e => s.inCopyRegion e.2 e.1.n with
          | some e => .trap cSUBWR e.1.va
          | none => .ok l
        else .ok l

/-- The pages of the accesses become the most recently used. -/
def State.touchAll (s : State) (accs : List LaneAcc) : State := accs.foldl (fun s a => s.touch a.va) s

/-! ### Word accesses in no fixed order (R165) -/

/-- The access can wait no longer: its results are due for the context's next instruction, eight cycles after its issue (R19, R20). -/
def State.late (s : State) : Bool := decide (s.me.lastIssue + 7 ≤ s.now)
/-- Which words of the executing context's access are performed at this point. -/
def State.tearing (s : State) (keys : List Nat) : Nat → Bool := tearTake s.late s.free keys
/-- The free value of that choice is used up. -/
def State.tearUsed (s : State) (keys : List Nat) : State :=
  if s.late || decide (keys.length ≤ 1) then s else { s with free := s.free + 1 }
/-- The access has no word left. -/
def State.tearDone (s : State) : State := if s.me.torn.isSome then s.modMe fun c => { c with torn := none } else s
/-- Words are left: the context goes on with them, on this cycle or the next. -/
def State.tearOn (s : State) (t : Torn) : State :=
  s.modMe fun c => { c with torn := some t, again := true, readyAt := if tearSoon s.free then c.readyAt else s.now + 1 }

/-- The words of the loads `left` (lane, address, bytes), some or all of them; `f` ends the access with every lane's value. Poison read is
consumed (R348). -/
def State.loadGo (s : State) (left : List (Nat × Nat × Nat)) (got : List (Nat × Nat)) (f : State → List (Nat × Nat) → State) : State :=
  let keys := (left.map fun e => wordOf e.2.1).eraseDups
  let now := left.filter fun e => s.tearing keys (wordOf e.2.1)
  let rest := left.filter fun e => !s.tearing keys (wordOf e.2.1)
  match now.find? fun e => s.poisoned e.2.1 e.2.2 with
  | some e => s.consume s.here e.2.1 e.2.2
  | none =>
    let got := got ++ now.map fun e => (e.1, s.read e.2.1 e.2.2)
    if rest.isEmpty then f (s.tearUsed keys).tearDone got else (s.tearUsed keys).tearOn { loads := rest, got := got }

/-- A load form: checks, then the words, then the register; an access of which words are performed goes on. -/
def State.vload (s : State) (accs : List LaneAcc) (f : State → List (Nat × Nat) → State) : State :=
  match s.me.torn with
  | some t => s.loadGo t.loads t.got f
  | none => s.onChk (s.vlsCheck accs needR) fun l => (s.touchAll accs).loadGo (l.map fun e => (e.1.lane, e.2, e.1.n)) [] f

/-- Bytes of accesses with their values, one entry a byte, a later access replacing an earlier one. -/
def byteTable (l : List (Nat × Nat × Nat)) : Table Nat :=
  l.foldl (fun t e => (List.range e.2.1).foldl (fun t i => Table.set t (e.1 + i) (e.2.2 / 256 ^ i % 256)) t) []

/-- The words that stored bytes touch, and the bytes of one of them. -/
def wordsTouched (bs : Table Nat) : List Nat := bs.foldl (fun acc b => insertSorted acc (wordOf b.1)) []
def bytesIn (bs : Table Nat) (w : Nat) : List (Nat × Nat) := (bs.filter fun b => wordOf b.1 == w).map fun b => (b.1 - w, b.2)

/-- A word to be stored: its address, and its bytes as offset, value and the bits of the old byte that stay. -/
abbrev WordStore := Nat × List (Nat × Nat × Nat)
/-- The words of stored bytes; `keep` gives the bits of a byte that stay. -/
def wordStores (bs : Table Nat) (keep : Nat → Nat) : List WordStore :=
  (wordsTouched bs).map fun w => (w, (bytesIn bs w).map fun b => (b.1, b.2, keep (w + b.1)))

/-- The store leaves something of its word. -/
def WordStore.inPart (e : WordStore) : Bool := decide (e.2.length < 8) || e.2.any fun b => b.2.2 != 0
/-- A poisoned word that would be written in part, which consumes the poison (R348). -/
def State.partPoison (s : State) (l : List WordStore) : Option Nat := (l.find? fun e => e.inPart && s.poison.contains e.1).map (·.1)

/-- A byte to be stored, with what stays of the old one. -/
def State.keptByte (s : State) (w : Nat) (b : Nat × Nat × Nat) : Nat × Nat :=
  (b.1, if b.2.2 = 0 then b.2.1 else b.2.1 ||| ((s.byte (w + b.1)).toNat &&& b.2.2))
/-- Words stored with one bank write each (R165). -/
def State.putWords (s : State) (l : List WordStore) (who : Nat) : State :=
  l.foldl (fun s e => s.storeMasked e.1 (e.2.map (s.keptByte e.1)) who) s

/-- The words that the executing context's access has left to store, some or all of them; each counts as a plain store for races (R163). -/
def State.storeGo (s : State) (left : List WordStore) : State :=
  let keys := left.map (·.1)
  let now := left.filter fun e => s.tearing keys e.1
  let rest := left.filter fun e => !s.tearing keys e.1
  match s.partPoison now with
  | some w => s.consume s.here w 8
  | none =>
    let t := now.foldl (fun t e => t.noteStore e.1 s.here (keyCtx s.cur) s.myWho s.me.born false) (s.tearUsed keys)
    let t := t.putWords now s.myWho
    if rest.isEmpty then t.tearDone.retire id else t.tearOn { stores := rest }

/-- Stores of the executing context, as address, bytes, value. -/
def State.storeWords (s : State) (l : List (Nat × Nat × Nat)) (keep : Nat → Nat) : State := s.storeGo (wordStores (byteTable l) keep)

/-- A store form: checks, then the words; an access of which words are performed goes on. `keep` gives the bits of a lane's byte that
stay. -/
def State.vstoreKeep (s : State) (accs : List LaneAcc) (val keep : Nat → Nat) : State :=
  match s.me.torn with
  | some t => s.storeGo t.stores
  | none =>
    s.onChk (s.vlsCheck accs needW) fun l =>
      (s.touchAll accs).storeWords (l.map fun e => (e.2, e.1.n, val e.1.lane)) fun fa =>
        match l.find? fun e => e.2 == fa with | some e => keep e.1.lane | none => 0
/-- A store form of whole bytes. -/
def State.vstore (s : State) (accs : List LaneAcc) (val : Nat → Nat) : State := s.vstoreKeep accs val fun _ => 0

/-- The register of a load form: active lanes from memory, the others as R233 says. -/
def State.loadLanes (s : State) (v : VReg) (t : Nat) (got : List (Nat × Nat)) : State :=
  s.retire fun c =>
    let bits := (List.range (tagLanes t)).map fun i =>
      match got.find? (fun g => g.1 == i) with | some g => g.2 | none => c.keptLane v t i
    c.setV v (BitVec.ofNat 512 (packLanes (tagWidth t) bits)) t 0

/-- The active lanes of a tag under a mask field. -/
def Context.active (c : Context) (t : Nat) (mg : Reg) : List Nat := (List.range (tagLanes t)).filter (laneActive (c.maskOf mg) (tagLanes t))

def off4 (off : BitVec 4) : Word := BitVec.ofNat 64 (64 * off.toNat)

/-- Contiguous accesses from `e`: a lane of 4 bits shares its byte with its neighbour. -/
def contiguous (e : Word) (t : Nat) (lanes : List Nat) : List LaneAcc :=
  lanes.map fun i => { lane := i, va := e + BitVec.ofNat 64 (i * tagWidth t / 8), n := max 1 (tagWidth t / 8), aligned := e.toNat % 8 == 0 }

/-- VLD (R242). -/
def execVld (v : VReg) (a : Reg) (t : BitVec 4) (mg : Reg) (off : BitVec 4) (s : State) : Out :=
  let t := t.toNat
  .next (s.vload (contiguous (s.me.reg a + off4 off) t (s.me.active t mg)) fun s got => s.loadLanes v t got)

/-- The byte of a 4-bit lane: the active half lanes, and the bits that the others leave. -/
def nibbleByte (c : Context) (v : VReg) (act : List Nat) (i : Nat) : Nat :=
  (if act.contains (i / 2 * 2) then c.lane v (i / 2 * 2) else 0) + 16 * (if act.contains (i / 2 * 2 + 1) then c.lane v (i / 2 * 2 + 1) else 0)
def nibbleKeep (act : List Nat) (i : Nat) : Nat :=
  (if act.contains (i / 2 * 2) then 0 else 0x0F) + (if act.contains (i / 2 * 2 + 1) then 0 else 0xF0)

/-- VST (R242): the bits of the lanes, element bytes only for a block register. -/
def State.vst (s : State) (v : VReg) (a mg : Reg) (off : BitVec 4) : State :=
  let c := s.me
  let t := c.vtag v
  if t = 0 then s.tagTrap v
  else
    let act := c.active t mg
    let accs := contiguous (c.reg a + off4 off) t act
    if tagWidth t != 4 then s.vstore accs (c.lane v)
    else s.vstoreKeep accs (nibbleByte c v act) (nibbleKeep act)
def execVst (v : VReg) (a mg : Reg) (off : BitVec 4) (s : State) : Out := .next (s.vst v a mg off)

/-- Strided accesses. -/
def strided (base stride : Word) (t : Nat) (lanes : List Nat) : List LaneAcc :=
  lanes.map fun (i : Nat) =>
    let va := base + BitVec.ofInt 64 ((i : Int) * stride.toInt)
    { lane := i, va := va, n := tagWidth t / 8, aligned := va.toNat % (tagWidth t / 8) == 0 }

/-- VLDS (R242). -/
def execVlds (v : VReg) (a b : Reg) (mg : Reg) (t : BitVec 4) (s : State) : Out :=
  let t := t.toNat
  .next (s.vload (strided (s.me.reg a) (s.me.reg b) t (s.me.active t mg)) fun s got => s.loadLanes v t got)
/-- VSTS (R242): a byte that lanes share keeps the value of the highest one. -/
def execVsts (v : VReg) (a b : Reg) (mg : Reg) (s : State) : Out :=
  let c := s.me
  let t := c.vtag v
  .next (if tagIsScal t then s.vstore (strided (c.reg a) (c.reg b) t (c.active t mg)) (c.lane v) else s.tagTrap v)

/-- VBCST (R242): one element for every active lane, read once; without an active lane nothing is read. -/
def execVbcst (v : VReg) (a : Reg) (t : BitVec 4) (mg : Reg) (off : BitVec 4) (s : State) : Out :=
  let t := t.toNat
  let e := s.me.reg a + off4 off
  let act := s.me.active t mg
  let n := tagWidth t / 8
  let accs : List LaneAcc := (act.take 1).map fun i => { lane := i, va := e, n := n, aligned := e.toNat % n == 0 }
  .next (s.vload accs fun s got => s.loadLanes v t (act.map fun i => (i, (got.headD (0, 0)).2)))

/-- Scale bytes of a register of a block format (R244). -/
def blkScaleLen (f : Nat) : Nat := match f with | 0 => 4 | 1 => 8 | 2 => 2 | _ => 4

/-- The accesses of VLDB and VSTB: eight words of elements, then the scales. -/
def blockAccs (a b : Word) (f : Nat) : List LaneAcc :=
  ((List.range 8).map fun i => ({ lane := i, va := a + BitVec.ofNat 64 (8 * i), n := 8, aligned := a.toNat % 8 == 0 } : LaneAcc)) ++
  [{ lane := 8, va := b, n := blkScaleLen f, aligned := b.toNat % blkScaleLen f == 0 }]

/-- VLDB (R244). -/
def execVldb (v : VReg) (a b : Reg) (f : BitVec 2) (s : State) : Out :=
  let f := f.toNat
  .next (s.vload (blockAccs (s.me.reg a) (s.me.reg b) f) fun s got =>
    let val := fun (i : Nat) => ((got.find? fun g => g.1 == i).map (·.2)).getD 0
    s.retire fun c => c.setV v (BitVec.ofNat 512 (packLanes 64 ((List.range 8).map val))) (blkTag f) (BitVec.ofNat 64 (val 8)))
/-- VSTB (R244). -/
def execVstb (v : VReg) (a b : Reg) (s : State) : Out :=
  let c := s.me
  let t := c.vtag v
  .next (if tagIsBlock t then
    s.vstore (blockAccs (c.reg a) (c.reg b) (tagBlk t)) fun i =>
      if i < 8 then laneOf (c.vreg v).toNat 64 i else (c.vside v).toNat % 2 ^ (8 * blkScaleLen (tagBlk t))
  else s.tagTrap v)

/-- Indexed accesses: the offsets are the lanes of a register, in elements (R243). -/
def Context.indexed (c : Context) (base : Word) (vi : VReg) (t : Nat) (lanes : List Nat) : List LaneAcc :=
  let n := tagWidth t / 8
  lanes.map fun i =>
    let va := base + BitVec.ofNat 64 (c.lane vi i * n)
    { lane := i, va := va, n := n, aligned := va.toNat % n == 0 }
/-- The index register has an integer tag of the data's lane width. -/
def Context.indexOk (c : Context) (vi : VReg) (t : Nat) : Bool :=
  tagIsInt (c.vtag vi) && c.vtag vi != 1 && tagWidth (c.vtag vi) == tagWidth t

/-- VGATH (R243). -/
def execVgath (v : VReg) (a : Reg) (t : BitVec 4) (mg : Reg) (vi : VReg) (s : State) : Out :=
  let t := t.toNat
  .next (if s.me.indexOk vi t then
    s.vload (s.me.indexed (s.me.reg a) vi t (s.me.active t mg)) fun s got => s.loadLanes v t got
  else s.tagTrap vi)
/-- VSCAT (R243). -/
def execVscat (v : VReg) (a : Reg) (mg : Reg) (vi : VReg) (s : State) : Out :=
  let c := s.me
  let t := c.vtag v
  let vOk := decide (2 ≤ t) && decide (t ≤ 8)
  let iOk := tagIsInt (c.vtag vi) && c.vtag vi != 1
  let bad := (if vOk then [] else [v]) ++ (if iOk then [] else [vi])
  .next (match lowestReg bad with
    | some r => s.tagTrap r
    | none =>
      if c.indexOk vi t then s.vstore (c.indexed (c.reg a) vi t (c.active t mg)) (c.lane v) else s.tagTrap vi)

end Sys2Proof.Machine
end

