-- ==== Sys2Proof/Machine/Loom.lean ====
section
/-!
DEFINITION. The loom (R221-R223, R255-R270): operands in memory and in the slices, the checks before the first step, one step of each
form, completion, and the meanings of the LOM forms, which enter the cluster's queue and park their context.
-/
namespace Sys2Proof.Machine
open Sys2Proof.Config

/-! ### Formats and sizes (R258, R259) -/

def loomBits (f : Nat) : Nat := if f ≤ 1 then 16 else if f = 6 || f = 8 then 4 else 8
def loomScaleBytes (f : Nat) : Nat := if f = 5 || f = 6 then 2 else if f = 7 || f = 8 then 1 else 0
/-- Element and scale bytes of a row or column of K elements. -/
def loomEB (f k : Nat) : Nat := k * loomBits f / 8
def loomSB (f k : Nat) : Nat := k / 32 * loomScaleBytes f
/-- A column's footprint in a slice. -/
def loomFP (f k : Nat) : Nat := 512 * ((loomEB f k + loomSB f k + 511) / 512)
/-- Slots a tile uses. -/
def loomSlots (f k n : Nat) : Nat := loomFP f k / 512 * (if n ≤ 128 then 1 else 2)

/-- The value of element `k` of a row or column whose element and scale bytes are given by offset (R205, R212). -/
def loomValue (f : Nat) (el sc : Nat → Nat) (k : Nat) : Fl :=
  let code := if f ≤ 1 then el (2 * k) + 256 * el (2 * k + 1)
    else if loomBits f = 4 then el (k / 2) / 16 ^ (k % 2) % 16 else el k
  match f with
  | 0 => bf16.decode code
  | 1 => fp16.decode code
  | 2 => e4m3.decode code
  | 3 => e5m2.decode code
  | 4 => Fl.ofInt (signExt code 8)
  | _ =>
    let b := k / 32
    blkValue (f - 5) (if f ≤ 6 then sc (2 * b) + 256 * sc (2 * b + 1) else sc b) code

/-! ### The sum of a group (R221, R222) -/

def loomProd (zmul : Bool) (a b : Fl) : Fl := if zmul && (a.isZero || b.isZero) then .zero false else (a.mul b).1
/-- S: the exact sum, −0 only where every product is −0. -/
def groupSum (zmul : Bool) (a b : List Fl) : Fl :=
  ((a.zip b).map fun p => loomProd zmul p.1 p.2).foldl (fun x y => (Fl.add 0 x y).1) (.zero true)
/-- The accumulator word after one group of floats. -/
def accFloat (c : Nat) (s : Fl) : Nat := (fp32.round 0 (Fl.add 0 (fp32.decode c) s).1).1
/-- The accumulator word after one group of S8, and whether it saturated. -/
def accInt (c : Nat) (s : Int) : Nat × Bool :=
  let t := signExt c 32 + s
  let v := satI t (-(2 ^ 31)) (2 ^ 31 - 1)
  (truncI v 32, v != t)
def flInt : Fl → Int | .fin n m e => (if n then -1 else 1) * ((m : Int) * 2 ^ e.toNat) | _ => 0

/-! ### Slices (R256) and accumulators (R257) -/

/-- Slots of a job's window on a die: 64 for each of the die's clusters wholly inside its rectangle. -/
def Job.slotWindow (jb : Job) (die : Nat) : Nat := 64 * (jb.rect.wholeClusters.filter fun cl => cl / 64 == die).length
/-- The key of a byte of a job's slot window. -/
def slotKey (die col byte : Nat) : Nat := (die * 128 + col) * 2 ^ 21 + byte
def Job.slotByte (jb : Job) (die col byte : Nat) : Nat := (Table.get 0 jb.slots (slotKey die col byte)).toNat
def accKey (row col : Nat) : Nat := row * 256 + col
def Cluster.accWord (c : Cluster) (row col : Nat) : Nat := (Table.get 0 c.acc (accKey row col)).toNat
/-- A word of the store; zero is not listed. -/
def Cluster.setAcc (c : Cluster) (row col v : Nat) : Cluster :=
  { c with acc := if v % 2 ^ 32 = 0 then Table.erase c.acc (accKey row col) else Table.set c.acc (accKey row col) (BitVec.ofNat 32 v) }

/-! ### Ranges and their checks (R262) -/

/-- A range of virtual bytes an instruction touches: which LMMG entry it belongs to, and its length. -/
structure LoomRange where
  va : Word
  len : Nat
  entry : Nat := 0

/-- Pages of 64 KiB that the range touches. -/
def LoomRange.pageCount (r : LoomRange) : Nat :=
  if r.len = 0 then 0 else (r.va.toNat % 2 ^ 16 + r.len - 1) / 2 ^ 16 + 1
/-- The first byte of the range in each page it touches. -/
def LoomRange.starts (r : LoomRange) : List Word :=
  (List.range r.pageCount).map fun i =>
    if i = 0 then r.va else BitVec.ofNat 64 ((r.va.toNat / 2 ^ 16 + i) * 2 ^ 16)

/-- A translation for the loom: from the TLB or at once from the tables. -/
def State.pageNow (s : State) (sp : Nat) (va : Word) (need : Need) : Option PageEntry :=
  let j := s.jobNoAt sp
  if (s.me).inWindow va then none
  else
    let p := match s.tlbFind sp j va with | some p => some p | none => s.walkJob j va
    match p with | some p => if need.ok p then some p else none | none => none

/-- What a check of an instruction's ranges finds first: its cause, address, LMMG entry and LOOM reason. -/
structure LoomFault where
  cause : Nat
  addr : Word := 0
  entry : Nat := 0
  reason : Nat := 0
  deriving DecidableEq, Repr

/-- The first of `n` pages from an address on that gives no translation, at its first byte in the range. -/
def State.firstUnmapped (s : State) (need : Need) : Nat → Word → Option Word
  | 0, _ => none
  | n + 1, va =>
    if (s.pageNow s.here va need).isNone then some va
    else s.firstUnmapped need n (BitVec.ofNat 64 ((va.toNat / 2 ^ 16 + 1) * 2 ^ 16))

/-- XLATE over the ranges in order. -/
def State.loomXlate (s : State) (rs : List LoomRange) (need : Need) : Option LoomFault :=
  rs.findSome? fun r => (s.firstUnmapped need r.pageCount r.va).map fun va =>
    if (s.me).inWindow va then { cause := cILLEGAL, addr := va, entry := r.entry } else { cause := cXLATE, addr := va, entry := r.entry }

/-- The pages of the ranges. -/
def State.loomPages (s : State) (rs : List LoomRange) : Table Nat :=
  rs.foldl (fun t r => r.starts.foldl (fun t va =>
    match s.pageNow s.here va {} with
    | some p => Table.set t (va.toNat / 2 ^ 16) (p.fa (BitVec.ofNat 64 (va.toNat / 2 ^ 16 * 2 ^ 16)))
    | none => t) t) []

/-- The fabric address of a byte through translated pages. -/
def pageFa (pages : Table Nat) (va : Word) : Nat := Table.get 0 pages (va.toNat / 2 ^ 16) + va.toNat % 2 ^ 16

/-- The parts of a range within one page each: address and length. -/
def LoomRange.parts (r : LoomRange) : List (Word × Nat) :=
  r.starts.map fun va => (va, min (2 ^ 16 - va.toNat % 2 ^ 16) (r.len - (va.toNat - r.va.toNat)))

/-- The reads of a range, cut at 64-byte lines, which is as finely as windows, copy regions and homes tell addresses apart (R112,
R145). -/
def LoomRange.pieces (r : LoomRange) : List (Word × Nat) :=
  if r.len = 0 then []
  else
    let a := r.va.toNat
    (List.range ((a % 64 + r.len - 1) / 64 + 1)).map fun i =>
      let lo := if i = 0 then a else (a / 64 + i) * 64
      (BitVec.ofNat 64 lo, min ((a / 64 + i + 1) * 64) (a + r.len) - lo)

/-- A refusal of a remote read, each judged by itself: WINDOW or FENCED at the first address refused. -/
def State.loomRefused (s : State) (rs : List LoomRange) (pages : Table Nat) : Option LoomFault :=
  rs.findSome? fun r => r.pieces.findSome? fun p =>
    let fa := pageFa pages p.1
    if faSp fa = s.here then none
    else (s.refuses (faSp fa) s.here fa p.2 0).map fun c => { cause := c, addr := p.1, entry := r.entry }

/-- A byte outside the scratchpads of the issuing cluster: reason 2. -/
def State.loomOutside (s : State) (rs : List LoomRange) (pages : Table Nat) : Option LoomFault :=
  rs.findSome? fun r => r.parts.findSome? fun p =>
    let fa := pageFa pages p.1
    if clusterOf (faSp fa) = clusterOf s.here && faLocal fa < 0x10000 then none
    else some { cause := cLOOM, addr := p.1, entry := r.entry, reason := 2 }

/-- The job's rectangle does not contain the whole issuing cluster: reason 1. -/
def State.loomCut (s : State) : Option LoomFault :=
  if (clusterSpindles (clusterOf s.here)).all s.myJob.rect.has then none else some { cause := cLOOM, reason := 1 }

def loomWhen (b : Bool) (reason entry : Nat) : Option LoomFault :=
  if b then some { cause := cLOOM, reason := reason, entry := entry } else none

/-- The first fault of a list of checks. -/
def firstFault (l : List (Option LoomFault)) : Option LoomFault := l.findSome? id

/-- The trap of a failed check; a LOOM trap leaves its reason and entry in the loom status (R261). -/
def State.loomTrap (s : State) (f : LoomFault) : State :=
  let s := if f.cause = cLOOM then
    s.modMe fun c => { c with loomStat := BitVec.ofNat 64 (f.reason * 2 ^ 56 + f.entry % 2 ^ 16 * 2 ^ 32 + bitsOf c.loomStat.toNat 31 0) }
    else s
  s.trap f.cause f.addr

/-! ### The shape of an instruction -/

/-- One multiply: its rows, first A row, slot, first accumulator row. -/
structure LoomJob where
  m : Nat
  first : Nat
  slot : Nat
  accRow : Nat

/-- A group table entry (R203). -/
def tableEntry (w : Word) : LoomJob :=
  let n := w.toNat
  { m := bitsOf n 31 16, first := bitsOf n 15 0, slot := bitsOf n 47 32, accRow := bitsOf n 63 48 }

/-- Bytes of an LACP or LACIN memory format (R268). -/
def accFmtBytes (f : Nat) : Nat := match f with | 0 => 4 | 5 => 4 | 1 => 2 | 2 => 2 | _ => 1

/-- The multiplies of a command: one for LMM, the table's for LMMG. -/
def LoomCmd.jobs (c : LoomCmd) : List LoomJob :=
  match c.instr with
  | .lmm _ _ _ _ _ _ _ _ _ m1 =>
    let p := c.ops.getD 2 0
    [{ m := m1.toNat + 1, first := 0, slot := bitsOf p 11 0, accRow := bitsOf p 23 16 }]
  | .lmmg .. => c.table.map tableEntry
  | _ => []

/-- The fields of a multiply's words: AF, BF, N, K, CLEAR, COLG. -/
def mulFields : Instr → Nat × Nat × Nat × Nat × Bool × Nat
  | .lmm _ _ _ af bf ng kg cl colg _ => (af.toNat, bf.toNat, 16 * (ng.toNat + 1), 16 * kg.toNat, cl, colg.toNat)
  | .lmmg _ _ _ _ af bf ng kg cl colg => (af.toNat, bf.toNat, 16 * (ng.toNat + 1), 16 * kg.toNat, cl, colg.toNat)
  | _ => (0, 0, 0, 0, false, 0)

/-- Steps of the command's entry `e` (R260). -/
def LoomCmd.steps (c : LoomCmd) (e : Nat) : Nat :=
  match c.instr with
  | .lmm .. | .lmmg .. =>
    let (_, _, n, k, _, _) := mulFields c.instr
    match c.jobs[e]? with | some j => (j.m + 15) / 16 * (n / 16) * (k / 16) | none => 0
  | .lbld _ _ _ _ ng _ => 16 * (ng.toNat + 1)
  | .laclr .. | .lacp .. | .lacin .. => c.ops.getD 1 0
  | _ => 0

/-- Entries of the command. -/
def LoomCmd.entries (c : LoomCmd) : Nat := match c.instr with | .lmmg .. => c.table.length | _ => 1

/-! ### Steps -/

/-- What a step has seen of a word of memory, by its address, or of a slot byte, by its key above all addresses. -/
def LoomCmd.saw (c : LoomCmd) (key : Nat) : Option Nat := (c.seen.find? fun e => e.1 == key).map (·.2)
def slotSeen (key : Nat) : Nat := 2 ^ 60 + key
/-- A byte of memory through the command's pages: of a word that the step has read, as it was then (R161). -/
def State.cmdByte (s : State) (c : LoomCmd) (va : Word) : Nat :=
  let fa := pageFa c.pages va
  match c.saw (wordOf fa) with
  | some v => v / 256 ^ (fa % 8) % 256
  | none => (s.byte fa).toNat
/-- A slot byte, likewise (R270). -/
def State.cmdSlot (s : State) (c : LoomCmd) (col byte : Nat) : Nat :=
  let die := dieOf (keySp c.key)
  (c.saw (slotSeen (slotKey die col byte))).getD ((s.job c.job).slotByte die col byte)
def vaAdd (base off : Nat) : Word := BitVec.ofNat 64 (base + off)

/-- The bytes that step `st` of entry `e` reads from memory, as ranges. -/
def LoomCmd.reads (c : LoomCmd) (e st : Nat) : List LoomRange :=
  match c.instr with
  | .lmm .. | .lmmg .. =>
    let (af, _, n, k, _, _) := mulFields c.instr
    let (el, sc) := match c.instr with | .lmm .. => (c.ops.getD 0 0, c.ops.getD 1 0) | _ => (c.ops.getD 1 0, c.ops.getD 2 0)
    match c.jobs[e]? with
    | none => []
    | some j =>
      let rb := st / ((n / 16) * (k / 16)); let g := st % (k / 16)
      (List.range (min 16 (j.m - 16 * rb))).flatMap fun i =>
        let r := j.first + 16 * rb + i
        { va := vaAdd el (r * loomEB af k + g * (2 * loomBits af)), len := 2 * loomBits af } ::
          (if loomScaleBytes af = 0 then [] else
            [{ va := vaAdd sc (r * loomSB af k + g / 2 * loomScaleBytes af), len := loomScaleBytes af }])
  | .lbld _ _ _ bf _ kg =>
    let k := 16 * kg.toNat; let f := bf.toNat
    [{ va := vaAdd (c.ops.getD 0 0) (st * loomEB f k), len := loomEB f k },
     { va := vaAdd (c.ops.getD 1 0) (st * loomSB f k), len := loomSB f k }]
  | .lacin _ _ _ _ ncg fmt =>
    let w := 16 * (ncg.toNat + 1) * accFmtBytes fmt.toNat
    [{ va := vaAdd (c.ops.getD 0 0) (st * w), len := w }]
  | _ => []

/-- The clear at the start of an entry. -/
def LoomCmd.clear (c : LoomCmd) (e : Nat) (cl : Cluster) : Cluster :=
  let (_, _, n, _, clr, colg) := mulFields c.instr
  match c.jobs[e]? with
  | some j =>
    if clr && j.m != 0 then { cl with acc := cl.acc.filter fun w =>
      !(decide (j.accRow ≤ w.1 / 256) && decide (w.1 / 256 < j.accRow + j.m) && decide (16 * colg ≤ w.1 % 256) && decide (w.1 % 256 < 16 * colg + n)) }
    else cl
  | none => cl

/-- One step of a multiply: the words of its block, and whether a S8 sum saturated. -/
def State.mulStep (s : State) (c : LoomCmd) (e st : Nat) : List (Nat × Nat × Nat) × Bool :=
  let (af, bf, n, k, _, colg) := mulFields c.instr
  let (el, sc) := match c.instr with | .lmm .. => (c.ops.getD 0 0, c.ops.getD 1 0) | _ => (c.ops.getD 1 0, c.ops.getD 2 0)
  let cl := clusterOf (keySp c.key)
  match c.jobs[e]? with
  | none => ([], false)
  | some j =>
    let rb := st / ((n / 16) * (k / 16)); let cg := st / (k / 16) % (n / 16); let g := st % (k / 16)
    let ks := natsFrom (16 * g) 16
    let aRow := fun i => ks.map (loomValue af (fun o => s.cmdByte c (vaAdd el ((j.first + i) * loomEB af k + o)))
      (fun o => s.cmdByte c (vaAdd sc ((j.first + i) * loomSB af k + o))))
    let fp := loomFP bf k
    let bCol := fun col =>
      let base := 512 * j.slot + (if 128 ≤ col then fp else 0)
      ks.map (loomValue bf (fun o => s.cmdSlot c (col % 128) (base + o)) (fun o => s.cmdSlot c (col % 128) (base + loomEB bf k + o)))
    let rows := (List.range (min 16 (j.m - 16 * rb))).map fun i => (16 * rb + i, aRow (16 * rb + i))
    let cols := (List.range 16).map fun i => (16 * cg + i, bCol (16 * cg + i))
    let out := rows.flatMap fun r => cols.map fun q =>
      let row := j.accRow + r.1; let col := 16 * colg + q.1
      let old := (s.cluster cl).accWord row col
      if af = 4 then
        let v := accInt old (((r.2.zip q.2).map fun p => flInt p.1 * flInt p.2).foldl (· + ·) 0)
        (row, col, v.1, v.2)
      else (row, col, accFloat old (groupSum c.zmul r.2 q.2), false)
    (out.map fun o => (o.1, o.2.1, o.2.2.1), out.any fun o => o.2.2.2)

/-- An accumulator word in a memory format (R268), and whether it was clamped. -/
def accToMem (fmt w : Nat) : Nat × Bool :=
  let x := fp32.decode w
  match fmt with
  | 1 => ((bf16.round 0 x).1, false)
  | 2 => ((fp16.round 0 x).1, false)
  | 3 => ((e4m3.narrow x).1, false)
  | 4 => ((e5m2.narrow x).1, false)
  | 6 => let i := signExt w 32; let v := satI i (-128) 127; (truncI v 8, v != i)
  | _ => (w, false)
/-- A memory element as an accumulator word. -/
def memToAcc (fmt v : Nat) : Nat :=
  match fmt with
  | 1 => (fp32.round 0 (bf16.decode v)).1
  | 2 => (fp32.round 0 (fp16.decode v)).1
  | 3 => (fp32.round 0 (e4m3.decode v)).1
  | 4 => (fp32.round 0 (e5m2.decode v)).1
  | 6 => truncI (signExt v 8) 32
  | _ => v

/-- The words step `st` of LACP writes, those apart that it has written, and whether an element was clamped. -/
def State.acpWords (s : State) (c : LoomCmd) (row colg ncg fmt st : Nat) : List WordStore × Bool :=
  let n := 16 * (ncg + 1); let b := accFmtBytes fmt
  let cl := s.cluster (clusterOf (keySp c.key))
  let vals := (List.range n).map fun j => (j, accToMem fmt (cl.accWord (row + st) (16 * colg + j)))
  ((wordStores (byteTable (vals.map fun v => (pageFa c.pages (vaAdd (c.ops.getD 0 0) ((st * n + v.1) * b)), b, v.2.1))) fun _ => 0).filter
    (fun w => (c.saw w.1).isNone), vals.any fun v => v.2.2)

/-- The issuer's identity for forwarding. -/
def State.cmdWho (s : State) (c : LoomCmd) : Nat := whoOf c.job (s.ctx c.key).thidx

/-- The effect of step `st` of entry `e`, its reads sound. -/
def State.loomEffect (s : State) (c : LoomCmd) (e st : Nat) : State :=
  let cl := clusterOf (keySp c.key)
  let sat := fun (b : Bool) (s : State) => if b then s.modCtx c.key fun x => x.raise flSAT else s
  match c.instr with
  | .lmm .. | .lmmg .. =>
    let r := s.mulStep c e st
    sat r.2 (s.modCl cl fun x => r.1.foldl (fun x w => x.setAcc w.1 w.2.1 w.2.2) x)
  | .lbld _ _ _ bf _ kg =>
    let k := 16 * kg.toNat; let f := bf.toNat
    let die := dieOf (keySp c.key)
    let base := 512 * bitsOf (c.ops.getD 2 0) 11 0 + (if 128 ≤ st then loomFP f k else 0)
    let el := (List.range (loomEB f k)).map fun o => (base + o, s.cmdByte c (vaAdd (c.ops.getD 0 0) (st * loomEB f k + o)))
    let sc := (List.range (loomSB f k)).map fun o => (base + loomEB f k + o, s.cmdByte c (vaAdd (c.ops.getD 1 0) (st * loomSB f k + o)))
    s.modJob c.job fun jb => { jb with slots := (el ++ sc).foldl (fun t b =>
      let key := slotKey die (st % 128) b.1
      if b.2 = 0 then Table.erase t key else Table.set t key (BitVec.ofNat 8 b.2)) jb.slots }
  | .laclr _ row colg ncg =>
    s.modCl cl fun x => (List.range (16 * (ncg.toNat + 1))).foldl (fun x j => x.setAcc (row.toNat + st) (16 * colg.toNat + j) 0) x
  | .lacp _ _ row colg ncg fmt =>
    let r := s.acpWords c row.toNat colg.toNat ncg.toNat fmt.toNat st
    sat r.2 (s.putWords r.1 (s.cmdWho c))
  | .lacin _ _ row colg ncg fmt =>
    let n := 16 * (ncg.toNat + 1); let b := accFmtBytes fmt.toNat
    let vals := (List.range n).map fun j =>
      memToAcc fmt.toNat (ofLeBytes ((List.range b).map fun o => s.cmdByte c (vaAdd (c.ops.getD 0 0) ((st * n + j) * b + o))))
    s.modCl cl fun x => (vals.zipIdx).foldl (fun x v => x.setAcc (row.toNat + st) (16 * colg.toNat + v.2) v.1) x
  | _ => s

/-- The bytes that step `st` of LACP writes, as a range. -/
def LoomCmd.writes (c : LoomCmd) (st : Nat) : List LoomRange :=
  match c.instr with
  | .lacp _ _ _ _ ncg fmt =>
    let w := 16 * (ncg.toNat + 1) * accFmtBytes fmt.toNat
    [{ va := vaAdd (c.ops.getD 0 0) (st * w), len := w }]
  | _ => []

/-- Poison that the step would consume: the bytes that hold it. -/
def State.stepPoison (s : State) (c : LoomCmd) (e st : Nat) : Option (Nat × Nat) :=
  match (c.reads e st).findSome? fun r => r.parts.findSome? fun p =>
      if s.poisoned (pageFa c.pages p.1) p.2 then some (pageFa c.pages p.1, p.2) else none with
  | some x => some x
  | none =>
    match c.instr with
    | .lacp _ _ row colg ncg fmt => (s.partPoison (s.acpWords c row.toNat colg.toNat ncg.toNat fmt.toNat st).1).map fun w => (w, 8)
    | _ => none
/-- The first access of the step that is refused as it arrives: its page is no longer mapped (R111), its home is fenced, or no window
admits it any more (R349, R384), or it writes what has become a copy region (R151). -/
def State.stepRefused (s : State) (c : LoomCmd) (e st : Nat) : Option (Nat × Word) :=
  let judge := fun (kind : Nat) (r : LoomRange) => r.pieces.findSome? fun p =>
    if (Table.find c.pages (p.1.toNat / 2 ^ 16)).isNone then some (cXLATE, p.1)
    else
      let fa := pageFa c.pages p.1
      match s.refuses (faSp fa) (keySp c.key) fa p.2 kind with
      | some cause => some (cause, p.1)
      | none => if kind = 1 && s.inCopyRegion fa p.2 then some (cSUBWR, p.1) else none
  match (c.reads e st).findSome? (judge 0) with
  | some x => some x
  | none => (c.writes st).findSome? (judge 1)

/-- The slot bytes that step `st` of entry `e` reads: of each column of its block, the bytes that hold the group's elements and their
scale. -/
def LoomCmd.slotReads (c : LoomCmd) (e st : Nat) : List (Nat × Nat) :=
  match c.instr with
  | .lmm .. | .lmmg .. =>
    let (_, bf, n, k, _, _) := mulFields c.instr
    match c.jobs[e]? with
    | none => []
    | some j =>
      let cg := st / (k / 16) % (n / 16); let g := st % (k / 16)
      (List.range 16).flatMap fun i =>
        let col := 16 * cg + i
        let base := 512 * j.slot + (if 128 ≤ col then loomFP bf k else 0)
        ((natsFrom (base + g * (2 * loomBits bf)) (2 * loomBits bf)) ++
          natsFrom (base + loomEB bf k + g / 2 * loomScaleBytes bf) (loomScaleBytes bf)).map fun b => (col % 128, b)
  | _ => []

/-- What step `st` of entry `e` has left to read, a value each: words of memory and slot bytes, or words that LACP has left to write. -/
def State.stepLeft (s : State) (c : LoomCmd) (e st : Nat) : List (Nat × Nat) :=
  let words := ((c.reads e st).flatMap fun r => r.pieces.flatMap fun p => wordsOf (pageFa c.pages p.1) p.2).eraseDups
  let slots := (c.slotReads e st).map fun b => (slotSeen (slotKey (dieOf (keySp c.key)) b.1 b.2), s.cmdSlot c b.1 b.2)
  let puts := match c.instr with
    | .lacp _ _ row colg ncg fmt => (s.acpWords c row.toNat colg.toNat ncg.toNat fmt.toNat st).1.map fun w => (w.1, 0)
    | _ => []
  ((words.map fun w => (w, s.read w 8)) ++ slots ++ puts).filter fun x => (c.saw x.1).isNone

/-- Some of what a step has left is done: words and slot bytes are read, and LACP's words written. -/
def State.stepSome (s : State) (c : LoomCmd) (e st : Nat) (pick : Nat → Bool) : State × LoomCmd :=
  let t := match c.instr with
    | .lacp _ _ row colg ncg fmt =>
      s.putWords ((s.acpWords c row.toNat colg.toNat ncg.toNat fmt.toNat st).1.filter fun w => pick w.1) (s.cmdWho c)
    | _ => s
  (t, { c with seen := c.seen ++ (s.stepLeft c e st).filter fun x => pick x.1 })

/-- Multiplies alone form group sums, whose residues are checked (R223). -/
def LoomCmd.sums (c : LoomCmd) : Bool := match c.instr with | .lmm .. | .lmmg .. => true | _ => false

/-! ### Completion (R260, R261) -/

/-- DONE counts one more entry. -/
def bumpDone (w : Word) : Word :=
  BitVec.ofNat 64 (w.toNat / 2 ^ 32 * 2 ^ 32 + (bitsOf w.toNat 31 0 + 1) % 2 ^ 32)

/-- The command leaves the queue. -/
def State.loomPop (s : State) (cl : Nat) : State := s.modCl cl fun x => { x with queue := x.queue.drop 1 }

/-- The command has completed: LPROG and the reason are 0, and its context goes on. -/
def State.loomDone (s : State) (cl : Nat) (c : LoomCmd) : State :=
  let s := s.loomPop cl
  let s := s.modCtx c.key fun x => { x with lprog := 0, loomStat := BitVec.ofNat 64 (x.loomStat.toNat % 2 ^ 56) }
  if (s.ctx c.key).park == 7 then s.complete c.key 0 else s

/-- LPROG naming a step (R100). -/
def lprogAt (e st : Nat) : Word := BitVec.ofNat 64 (2 ^ 63 + e % 2 ^ 16 * 2 ^ 32 + st)

/-- A command of the queue traps. -/
def State.loomAbort (s : State) (cl : Nat) (c : LoomCmd) (t : TrapInfo) : State := (s.loomPop cl).takeTrap c.key t

/-- The head of the queue after a performed step or a finished entry. -/
def State.loomPut (s : State) (cl : Nat) (c : LoomCmd) : State :=
  s.modCl cl fun x => { x with queue := match x.queue with | _ :: t => c :: t | [] => [] }

/-- The running instruction of a cluster goes on with its step (R260), with its start, its residue check and its end: the step's words are
reached in no fixed order, and its writes come once all of them are read. -/
def State.loomStep (s : State) (cl : Nat) : State :=
  match (s.cluster cl).queue with
  | [] => s
  | c :: _ =>
    -- the start of an entry: its clear
    let s := if c.begun then s else s.modCl cl (c.clear c.entry)
    let c := { c with begun := true }
    if c.entries ≤ c.entry then s.loomDone cl c
    else if c.steps c.entry ≤ c.step then
      -- an entry without a step left
      let s := match c.instr with | .lmmg .. => s.modCtx c.key fun x => { x with loomStat := bumpDone x.loomStat } | _ => s
      let c := { c with entry := c.entry + 1, step := 0, begun := false }
      if c.entries ≤ c.entry then s.loomDone cl c else s.loomPut cl c
    else
      let sp := keySp c.key
      match s.stepRefused c c.entry c.step with
      | some (cause, va) =>
        (s.modCtx c.key fun x => { x with lprog := lprogAt c.entry c.step }).loomAbort cl c ((s.ctx c.key).unit.info cause va)
      | none =>
        match s.stepPoison c c.entry c.step with
        | some (fa, n) => s.consume sp fa n
        | none =>
          if c.sums && s.upsets.contains (.residue cl) then
            -- the writes are not made; a second mismatch on the step ends the instruction (R223, reason 7)
            let s := { s with upsets := s.upsets.erase (.residue cl) }
            if c.bad then
              let s := s.modCtx c.key fun x => { x with
                lprog := lprogAt c.entry c.step,
                loomStat := BitVec.ofNat 64 (7 * 2 ^ 56 + c.entry % 2 ^ 16 * 2 ^ 32 + bitsOf x.loomStat.toNat 31 0) }
              let s := s.loomAbort cl c ((s.ctx c.key).unit.info cLOOM 0)
              s.gustEvent sp
            else (s.loomPut cl { c with bad := true, seen := [] }).gustEvent sp
          else
          let left := s.stepLeft c c.entry c.step
          let pick := tearTake false s.free (left.map (·.1))
          let s := if left.length ≤ 1 then s else { s with free := s.free + 1 }
          if !(left.all fun x => pick x.1) then
            -- words are left, which other accesses may come before (R161, R270)
            let r := s.stepSome c c.entry c.step pick
            r.1.loomPut cl r.2
          else
            let s := s.loomEffect c c.entry c.step
            let c := { c with step := c.step + 1, bad := false, seen := [] }
            if c.step < c.steps c.entry then s.loomPut cl c
            else
              let s := match c.instr with | .lmmg .. => s.modCtx c.key fun x => { x with loomStat := bumpDone x.loomStat } | _ => s
              let c := { c with entry := c.entry + 1, step := 0, begun := false }
              if c.entries ≤ c.entry then s.loomDone cl c else s.loomPut cl c

/-! ### Issue -/

/-- A checked instruction goes to its cluster's queue, and its context parks with PARK 7; with LPROG.VALID it begins at its entry
and step, its start already made (R260). -/
def State.loomEnter (s : State) (i : Instr) (ops : List Nat) (pages : Table Nat) (table : List Word) : State :=
  let lp := s.me.lprog.toNat
  let valid := bitsOf lp 63 63 == 1
  let cmd : LoomCmd :=
    { key := s.cur, job := s.myJobNo, instr := i, ops := ops, pages := pages, table := table, zmul := cpZMUL s.me.cprof.toNat,
      entry := if valid then bitsOf lp 47 32 else 0, step := if valid then bitsOf lp 31 0 else 0, begun := valid }
  let s := match i with
    | .lmmg .. => if valid then s else s.modMe fun c => { c with loomStat := BitVec.ofNat 64 (c.loomStat.toNat / 2 ^ 32 * 2 ^ 32) }
    | _ => s
  (s.modCl (clusterOf s.here) fun x => { x with enter := x.enter ++ [cmd] }).modMe fun c =>
    { c with st := .parked, park := 7, kont := .advance, again := false }

/-- A queued form: RELCNT first (R161), then its checks in R262's order, then the queue. -/
def State.loomIssue (s : State) (i : Instr) (ops : List Nat) (ranges : List LoomRange) (need : Need) (align : Option LoomFault)
    (copy : Bool) (remote : List LoomRange) (inside : List LoomRange) (rest : List (Option LoomFault)) (table : List Word) : State :=
  if !s.me.rels.isEmpty then s.parkAll
  else
    match align with
    | some f => s.loomTrap f
    | none =>
      match s.loomXlate ranges need with
      | some f => s.loomTrap f
      | none =>
        let pages := s.loomPages ranges
        let sub := if copy then
            ranges.findSome? fun r => r.pieces.findSome? fun p =>
              if s.inCopyRegion (pageFa pages p.1) p.2 then some { cause := cSUBWR, addr := p.1 } else none
          else none
        match firstFault ([sub, s.loomRefused remote pages, s.loomCut, s.loomOutside inside pages] ++ rest) with
        | some f => s.loomTrap f
        | none => s.loomEnter i ops pages table

/-- The ranges of A that a multiply reads. -/
def aRanges (af k el sc : Nat) (j : LoomJob) (entry : Nat) : List LoomRange :=
  if j.m = 0 then []
  else [{ va := vaAdd el (j.first * loomEB af k), len := j.m * loomEB af k, entry := entry },
        { va := vaAdd sc (j.first * loomSB af k), len := j.m * loomSB af k, entry := entry }]

/-- Whether a tile leaves the job's slot window. -/
def State.slotsBad (s : State) (bf k n slot : Nat) : Bool :=
  let used := loomSlots bf k n
  used != 0 && decide (s.myJob.slotWindow (dieOf s.here) < slot + used)

/-- LMM (R265). -/
def State.lmm (s : State) (i : Instr) (d a b : Reg) : State :=
  let (af, bf, n, k, _, _) := mulFields i
  let el := (s.me.reg d).toNat; let sc := (s.me.reg a).toNat; let p := (s.me.reg b).toNat
  let cmd : LoomCmd := { key := 0, job := 0, instr := i, ops := [el, sc, p], pages := [], table := [], zmul := false }
  let j := cmd.jobs.headD ⟨0, 0, 0, 0⟩
  let rs := aRanges af k el sc j 0
  s.loomIssue i [el, sc, p] rs needR none false [] rs
    [loomWhen (decide (256 < j.accRow + j.m)) 3 0, loomWhen (s.slotsBad bf k n j.slot) 4 0,
     loomWhen (bitsOf p 15 12 != 0 || p / 2 ^ 24 != 0) 5 0] []
def execLmm (d a b : Reg) (af bf ng : BitVec 4) (kg : BitVec 11) (clear : Bool) (colg : BitVec 4) (m1 : BitVec 8) (s : State) : Out :=
  .next (s.lmm (.lmm d a b af bf ng kg clear colg m1) d a b)

/-- The words left of a group table, some or all of them, read in no fixed order while others may write them (R161): a word's index,
address and length. `f` judges the table once all are read. Poison is consumed where no home refuses what is left (R348). -/
def State.tableGo (s : State) (left : List (Nat × Nat × Nat)) (got : List (Nat × Nat)) (f : State → List Word → State) : State :=
  let pick := tearTake false s.free (left.map (·.1))
  let now := left.filter fun e => pick e.1
  let rest := left.filter fun e => !pick e.1
  let open_ := left.all fun e => (s.refuses (faSp e.2.1) s.here e.2.1 8 0).isNone
  match now.find? fun e => open_ && s.poisoned e.2.1 e.2.2 with
  | some e => s.consume s.here e.2.1 e.2.2
  | none =>
    let got := got ++ now.map fun e => (e.1, s.read e.2.1 e.2.2)
    let s := if left.length ≤ 1 then s else { s with free := s.free + 1 }
    if rest.isEmpty then f s.tearDone ((List.range got.length).map fun x => BitVec.ofNat 64 (((got.find? fun e => e.1 == x).map (·.2)).getD 0))
    else s.tearOn { loads := rest, got := got }

/-- The checks of an LMMG whose table is read. -/
def State.lmmgJudge (s : State) (i : Instr) (tr : LoomRange) (el sc cnt : Nat) (table : List Word) : State :=
  let (af, bf, n, k, _, _) := mulFields i
  let js := (table.map tableEntry).zipIdx
  let rs := js.flatMap fun e => aRanges af k el sc e.1 e.2
  let each := fun (reason : Nat) (bad : LoomJob → Bool) =>
    (js.find? fun e => e.1.m != 0 && bad e.1).map fun e => ({ cause := cLOOM, reason := reason, entry := e.2 } : LoomFault)
  s.loomIssue i [tr.va.toNat, el, sc, cnt] (tr :: rs) needR none false [tr] rs
    [each 3 fun j => decide (256 < j.accRow + j.m), each 4 fun j => s.slotsBad bf k n j.slot,
     each 5 fun j => decide (256 < j.m), loomWhen (decide (4096 < cnt)) 6 0] table

/-- LMMG (R266): the table is read once, after the checks of its own range and before any other, its words one by one (R161). -/
def State.lmmg (s : State) (i : Instr) (d a b c : Reg) : State :=
  let tb := s.me.reg d; let cnt := (s.me.reg c).toNat
  let tr : LoomRange := { va := tb, len := 8 * cnt }
  let judge := fun (s : State) => s.lmmgJudge i tr (s.me.reg a).toNat (s.me.reg b).toNat cnt
  match s.me.torn with
  | some t => s.tableGo t.loads t.got judge
  | none =>
    if !s.me.rels.isEmpty then s.parkAll
    else if tb.toNat % 8 != 0 then s.loomTrap { cause := cALIGN, addr := tb }
    else
      match s.loomXlate [tr] needR with
      | some f => s.loomTrap f
      | none =>
        if cnt = 0 && s.loomCut.isNone then
          s.retire fun c => { c with lprog := 0, loomStat := BitVec.ofNat 64 (c.loomStat.toNat % 2 ^ 56 / 2 ^ 32 * 2 ^ 32) }
        else
          let tpages := s.loomPages [tr]
          s.tableGo ((List.range cnt).map fun x => (x, pageFa tpages (tb + BitVec.ofNat 64 (8 * x)), 8)) [] judge
def execLmmg (d a b c : Reg) (af bf ng : BitVec 4) (kg : BitVec 11) (clear : Bool) (colg : BitVec 4) (s : State) : Out :=
  .next (s.lmmg (.lmmg d a b c af bf ng kg clear colg) d a b c)

/-- LBLD (R267). -/
def State.lbld (s : State) (i : Instr) (d a b : Reg) (bf ng kg : Nat) : State :=
  let n := 16 * (ng + 1); let k := 16 * kg
  let el := s.me.reg d; let sc := s.me.reg a; let p := (s.me.reg b).toNat
  let rs : List LoomRange := [{ va := el, len := n * loomEB bf k }, { va := sc, len := n * loomSB bf k }]
  s.loomIssue i [el.toNat, sc.toNat, p] rs needR none false rs []
    [loomWhen (s.slotsBad bf k n (bitsOf p 11 0)) 4 0, loomWhen (p / 2 ^ 12 != 0) 5 0] []
def execLbld (d a b : Reg) (bf ng : BitVec 4) (kg : BitVec 11) (s : State) : Out :=
  .next (s.lbld (.lbld d a b bf ng kg) d a b bf.toNat ng.toNat kg.toNat)

/-- LACLR, LACP and LACIN: rows in g(A), memory at `base` where the form touches it. -/
def State.lacc (s : State) (i : Instr) (a : Reg) (row ncg : Nat) (mem : Option (Word × Nat)) (need : Need) : State :=
  let rows := (s.me.reg a).toNat
  let w := 16 * (ncg + 1)
  let rs : List LoomRange := match mem with | some (base, b) => [{ va := base, len := rows * w * b }] | none => []
  let align := match mem with
    | some (base, b) => if base.toNat % b != 0 then some { cause := cALIGN, addr := base } else none
    | none => none
  s.loomIssue i [match mem with | some (base, _) => base.toNat | none => 0, rows] rs need align need.w [] rs
    [loomWhen (decide (256 < row + rows)) 3 0] []
/-- LACLR (R268). -/
def execLaclr (a : Reg) (row : BitVec 8) (colg ncg : BitVec 4) (s : State) : Out :=
  .next (s.lacc (.laclr a row colg ncg) a row.toNat ncg.toNat none {})
/-- LACP (R268). -/
def execLacp (d a : Reg) (row : BitVec 8) (colg ncg : BitVec 4) (fmt : BitVec 4) (s : State) : Out :=
  .next (s.lacc (.lacp d a row colg ncg fmt) a row.toNat ncg.toNat (some (s.me.reg d, accFmtBytes fmt.toNat)) needW)
/-- LACIN (R268). -/
def execLacin (d a : Reg) (row : BitVec 8) (colg ncg : BitVec 4) (fmt : BitVec 4) (s : State) : Out :=
  .next (s.lacc (.lacin d a row colg ncg fmt) a row.toNat ncg.toNat (some (s.me.reg d, accFmtBytes fmt.toNat)) needR)

/-- LSTAT (R269): it never parks. -/
def execLstat (d : Reg) (s : State) : Out := .next (s.setG d s.me.loomStat)

end Sys2Proof.Machine
end

