-- ==== Sys2Proof/Machine/Memory.lean ====
section
/-!
DEFINITION. The meanings of LD and ST (R124, R125), the full/empty forms (R126, R127) and the bank atomics (R131, R132).
-/
namespace Sys2Proof.Machine

/-! ### LD and ST -/

/-- LD zero-extending (R124). -/
def execLd (d a : Reg) (sz : BitVec 2) (off : BitVec 12) (s : State) : Out :=
  .next (s.ld d (eaOff (s.me.reg a) off) (szBytes sz) false)
/-- LD zero-extending with a literal offset (R124). -/
def execLdLiteral (d a : Reg) (sz : BitVec 2) (l : Word) (s : State) : Out :=
  .next (s.ld d (eaLit (s.me.reg a) l) (szBytes sz) false)
/-- LD sign-extending (R124). -/
def execLdSigned (d a : Reg) (sz : BitVec 2) (off : BitVec 12) (s : State) : Out :=
  .next (s.ld d (eaOff (s.me.reg a) off) (szBytes sz) true)
/-- LD sign-extending with a literal offset (R124). -/
def execLdSignedLiteral (d a : Reg) (sz : BitVec 2) (l : Word) (s : State) : Out :=
  .next (s.ld d (eaLit (s.me.reg a) l) (szBytes sz) true)
/-- ST (R124). -/
def execSt (d a : Reg) (sz : BitVec 2) (off : BitVec 12) (s : State) : Out :=
  .next (s.st d (eaOff (s.me.reg a) off) (szBytes sz))
/-- ST with a literal offset (R124). -/
def execStLiteral (d a : Reg) (sz : BitVec 2) (l : Word) (s : State) : Out :=
  .next (s.st d (eaLit (s.me.reg a) l) (szBytes sz))

/-! ### Full/empty forms -/

/-- LDF (R127). -/
def execLdf (d a : Reg) (sz : BitVec 2) (off : BitVec 12) (s : State) : Out :=
  .next (s.sync opLDF d (eaOff (s.me.reg a) off) (szBytes sz) 0)
/-- LDF with a literal offset (R127). -/
def execLdfLiteral (d a : Reg) (sz : BitVec 2) (l : Word) (s : State) : Out :=
  .next (s.sync opLDF d (eaLit (s.me.reg a) l) (szBytes sz) 0)
/-- LDE (R127). -/
def execLde (d a : Reg) (sz : BitVec 2) (off : BitVec 12) (s : State) : Out :=
  .next (s.sync opLDE d (eaOff (s.me.reg a) off) (szBytes sz) 0)
/-- LDE with a literal offset (R127). -/
def execLdeLiteral (d a : Reg) (sz : BitVec 2) (l : Word) (s : State) : Out :=
  .next (s.sync opLDE d (eaLit (s.me.reg a) l) (szBytes sz) 0)
/-- FEQ (R127). -/
def execFeq (d a : Reg) (off : BitVec 12) (s : State) : Out :=
  .next (s.sync opFEQ d (eaOff (s.me.reg a) off) 8 0)
/-- FEQ with a literal offset (R127). -/
def execFeqLiteral (d a : Reg) (l : Word) (s : State) : Out :=
  .next (s.sync opFEQ d (eaLit (s.me.reg a) l) 8 0)
/-- STF (R127). -/
def execStf (d a : Reg) (sz : BitVec 2) (off : BitVec 12) (s : State) : Out :=
  .next (s.sync opSTF d (eaOff (s.me.reg a) off) (szBytes sz) (s.me.reg d).toNat)
/-- STF with a literal offset (R127). -/
def execStfLiteral (d a : Reg) (sz : BitVec 2) (l : Word) (s : State) : Out :=
  .next (s.sync opSTF d (eaLit (s.me.reg a) l) (szBytes sz) (s.me.reg d).toNat)
/-- STW (R127). -/
def execStw (d a : Reg) (sz : BitVec 2) (off : BitVec 12) (s : State) : Out :=
  .next (s.sync opSTW d (eaOff (s.me.reg a) off) (szBytes sz) (s.me.reg d).toNat)
/-- STW with a literal offset (R127). -/
def execStwLiteral (d a : Reg) (sz : BitVec 2) (l : Word) (s : State) : Out :=
  .next (s.sync opSTW d (eaLit (s.me.reg a) l) (szBytes sz) (s.me.reg d).toNat)
/-- FEC (R127). -/
def execFec (a : Reg) (off : BitVec 12) (s : State) : Out :=
  .next (s.sync opFEC 0 (eaOff (s.me.reg a) off) 8 0)
/-- FEC with a literal offset (R127). -/
def execFecLiteral (a : Reg) (l : Word) (s : State) : Out :=
  .next (s.sync opFEC 0 (eaLit (s.me.reg a) l) 8 0)

end Sys2Proof.Machine
end

