-- ==== Sys2Proof/Machine/Order.lean ====
section
/-!
DEFINITION. The meanings of FENCE, DRAIN and WAITA (R133-R136).
-/
namespace Sys2Proof.Machine
open Sys2Proof.Config

/-- Every open batch that carries a change of `who` closes. -/
def State.closeFor (s : State) (who : Nat) : State :=
  s.spindles.foldl (fun t e => t.closeBatches e.1 fun _ b => b.writers.contains who) s

/-- FENCE (R135). -/
def State.fenceOp (s : State) : State :=
  if !s.me.rels.isEmpty then s.parkAll
  else
    let t := s.closeFor s.myWho
    if t.batchesOf s.myWho then t.parkAgain 2 else t.retire id
def execFence (s : State) : Out := .next s.fenceOp

/-- DRAIN (R136): a request for every copy entry whose publisher is not fenced, and a trap FENCED at the end where one is. -/
def State.drainOp (s : State) : State :=
  let es := (s.spindle s.here).copies
  let live := es.filter fun e => !e.pfenced
  let lost := decide (live.length < es.length)
  if live.isEmpty then (if lost then s.trap cFENCED 0 else s.retire id)
  else
    let (tok, t) := s.takeTok
    let t := live.foldl (fun t e => t.send
      { id := 0, cls := .request, src := s.here, dst := e.pubSp, job := s.myJobNo, ctx := keyCtx s.cur, tok := tok, who := s.myWho,
        body := .drainReq e.pubBase e.base }) t
    t.parkFor 2 tok (.drain live.length lost)
def execDrain (s : State) : Out := .next s.drainOp

/-- WAITA (R134). -/
def execWaita (s : State) : Out := .next (if s.me.rels.isEmpty then s.retire id else s.parkAll)

end Sys2Proof.Machine
end

