-- ==== Sys2Proof/Machine/Pair.lean ====
section
/-!
DEFINITION. The meanings of the pair-task instructions (R170-R191): node records, bobbins, placement and the task effects buffer.
-/
namespace Sys2Proof.Machine
open Sys2Proof.Config

/-! ### Keys and trees (R170-R172) -/

/-- The key of a pair descriptor. -/
def PairDesc.key (d : PairDesc) : Nat := d.slot * 2 ^ 62 + d.na * 2 ^ 31 + d.nb
def keySlot (k : Nat) : Nat := bitsOf k 63 62
def keyA (k : Nat) : Nat := bitsOf k 61 31
def keyB (k : Nat) : Nat := bitsOf k 30 0

/-- The trees of a slot that the launch names. -/
def Job.slotTrees (jb : Job) (s : Nat) : Option (Tree × Tree) := (jb.trees.find? fun e => e.1 == s).map (·.2)
/-- The launch names no tree pairs. -/
def Job.noTrees (jb : Job) : Bool := jb.trees.isEmpty
/-- The tree pair of a key's slot, or ILLEGAL (R175). -/
def State.keyTrees (s : State) (k : Nat) : Chk (Tree × Tree) :=
  match s.myJob.slotTrees (keySlot k) with
  | some t => .ok t
  | none => .trap cILLEGAL 0
/-- The address of node record `i`. -/
def Tree.recAt (t : Tree) (i : Nat) : Word := t.nodes + BitVec.ofNat 64 (64 * i)

/-! ### Node records (R175) -/

/-- One field of a node record that an instruction reads: the record's address, and the fabric address of the record. -/
structure NodeRead where
  va : Word
  fa : Nat
  off : Nat
  n : Nat

/-- The record of a node, checked: its index, its translation. -/
def State.nodeRec (s : State) (t : Tree) (i off n : Nat) : Chk NodeRead :=
  if t.count ≤ i then .trap cILLEGAL (t.recAt i)
  else (s.xlate (t.recAt i) needR).bind fun p => .ok { va := t.recAt i, fa := p.1 + off, off := off, n := n }

/-- The value of a record's field, once it has been read: from the local bank, or as its remote read answered. -/
def State.nodeVal (s : State) (r : NodeRead) : Nat :=
  if faSp r.fa = s.here then s.read r.fa r.n
  else ((s.me.got.find? fun e => e.1 == r.fa).map (·.2)).getD 0

/-- The records are read: a remote one that has not come is asked for, and the unit goes on when it has; poison is consumed
(R348). -/
def State.withNodes (s : State) (rs : List NodeRead) (f : State → State) : State :=
  let s := rs.foldl (fun s r => s.touch r.va) s
  let on := fun (o : RelOp) => rs.any fun r => o.word == wordOf r.fa || o.word == wordOf (r.fa + (r.n - 1))
  if s.me.rels.any on then s.parkRel 6 false on
  else
    match rs.find? (fun r => faSp r.fa != s.here && !s.me.got.any fun e => e.1 == r.fa) with
    | some r => s.request 1 r.va r.fa (.read r.fa r.n 0) (.gather r.fa) none
    | none =>
      match rs.find? (fun r => faSp r.fa == s.here && s.poisoned r.fa r.n) with
      | some r => s.consume s.here r.fa r.n
      | none => f s

/-! ### Bobbins and placement (R185-R189) -/

/-- `SplitMix64Fin` and `PlaceCluster` of R11. -/
def splitMix64Fin (z : Nat) : Nat :=
  let z := z % 2 ^ 64
  let z := (z ^^^ (z >>> 30)) * 0xBF58476D1CE4E5B9 % 2 ^ 64
  let z := (z ^^^ (z >>> 27)) * 0x94D049BB133111EB % 2 ^ 64
  z ^^^ (z >>> 31)
def placeCluster (key seed c : Nat) : Nat := splitMix64Fin (key + seed * 0x9E3779B97F4A7C15) * c / 2 ^ 64

/-- LIMIT (R188). -/
def Job.limit (jb : Job) : Nat := 4096 * (jb.rect.clusterCount - 1) + 128 * jb.blocks

/-- Cluster indices of the own cluster's neighbours in the rectangle's cluster grid, ascending. -/
def Rect.clusterNeighbours (r : Rect) (ix : Nat) : List Nat :=
  let w := r.w / 4; let h := r.h / 4
  (if 0 < ix / w then [ix - w] else []) ++ (if 0 < ix % w then [ix - 1] else []) ++
  (if ix % w + 1 < w then [ix + 1] else []) ++ (if ix / w + 1 < h then [ix + w] else [])

/-- The cluster of the smallest occupancy, the first of equal ones. -/
def State.leastOcc (s : State) (r : Rect) (best : Nat) : List Nat → Nat
  | [] => best
  | ix :: t =>
    if (s.cluster (r.clusterAt ix)).occ < (s.cluster (r.clusterAt best)).occ && s.bobbinAlive (r.clusterAt ix) then s.leastOcc r ix t
    else s.leastOcc r best t

/-- The cluster index a fork's children go to in free mode (R189). -/
def State.freeChoice (s : State) (j sp : Nat) : Nat :=
  let jb := s.job j
  let own := jb.rect.clusterIndex sp
  if (s.cluster (jb.rect.clusterAt own)).occ < jb.hwm then own
  else s.leastOcc jb.rect own (jb.rect.clusterNeighbours own)

/-- Children cut into groups by their cluster, groups in the order of their first child, each in child order (R186). -/
def groupByCluster : List (Nat × PairDesc) → List (Nat × List PairDesc)
  | [] => []
  | (ix, d) :: t =>
    let g := groupByCluster t
    (ix, d :: ((g.find? fun e => e.1 == ix).map (·.2)).getD []) :: g.filter fun e => e.1 != ix

/-- The groups of forked children and the cluster index each goes to (R189). -/
def State.childGroups (s : State) (j sp : Nat) (ds : List PairDesc) : List (Nat × List PairDesc) :=
  let jb := s.job j
  if ds.isEmpty then []
  else if jb.repeat_ then groupByCluster (ds.map fun d => (placeCluster d.key jb.lseed.toNat jb.rect.clusterCount, d))
  else [(s.freeChoice j sp, ds)]

/-- Forked children are placed (R186, R189). -/
def State.placeChildren (s : State) (j sp : Nat) (ds : List PairDesc) : State :=
  (s.childGroups j sp ds).foldl (fun t e => State.placeGroup j false [] ((s.job j).rect.clusterCount + 1) t e.1 e.2) s

/-! ### PSEED, PTAKE -/

/-- PSEED (R176). -/
def State.pseed (s : State) (a : Reg) : State :=
  let k := (s.me.reg a).toNat
  let jb := s.myJob
  if jb.noTrees || s.me.pairtask || decide (3 < k) then s.trap cILLEGAL 0
  else
    match jb.slotTrees k with
    | none => s.trap cILLEGAL 0
    | some (ta, tb) =>
      if jb.seeded.contains k then s.trap cILLEGAL 0
      else if jb.limit < jb.frontCount + jb.frontRes + 1 then s.trap cFRONTIER 0
      else
        let j := s.myJobNo
        let s := s.modJob j fun jb => { jb with seeded := insertSorted jb.seeded k, frontCount := jb.frontCount + 1 }
        (State.placeGroup j true [] (jb.rect.clusterCount + 1) s (jb.rect.clusterIndex s.here)
          [{ na := ta.root, nb := tb.root, slot := k, root := true }]).retire id
def execPseed (a : Reg) (s : State) : Out := .next (s.pseed a)

/-- PTAKE (R177): it parks until a task is delivered or COUNT is 0. -/
def State.ptake (s : State) (d a b : Reg) : State :=
  let ones : Word := BitVec.allOnes 64
  if s.myJob.noTrees || s.me.pairtask then s.trap cILLEGAL 0
  else if s.myJob.frontCount = 0 then s.retire fun c => ((c.setReg d ones).setReg a ones).setReg b ones
  else
    let cl := clusterOf s.here
    let s := s.modCl cl fun c => { c with takers := c.takers ++ [s.cur] }
    s.modMe fun c => { c with st := .parked, park := 9, kont := .advance, got := [(d.toNat, 0), (a.toNat, 0), (b.toNat, 0)], again := false }
def execPtake (d a b : Reg) (s : State) : Out := .next (s.ptake d a b)

/-- A bobbin delivers its head descriptor to the earliest parked PTAKE, which goes on (R177). -/
def State.deliverTask (s : State) (cl : Nat) : State :=
  match (s.cluster cl).pend, (s.cluster cl).takers with
  | p :: ps, k :: ks =>
    let s := s.modCl cl fun c => { c with pend := ps, held := c.held ++ [p], takers := ks }
    s.modCtx k fun c =>
      { (c.taskRegs s.now [p.key, p.na, p.nb]) with pairtask := true, task := some { desc := p, cluster := cl } }
  | _, _ => s

/-! ### PLOAD, PTEST, PFORK -/

/-- PLOAD (R178). -/
def State.pload (s : State) (d a : Reg) (sx : Bool) (sz : BitVec 2) (off : BitVec 6) (treeB : Bool) : State :=
  let k := (s.me.reg a).toNat
  let n := szBytes sz
  if s.myJob.noTrees then s.trap cILLEGAL 0
  else
    s.onChk ((s.keyTrees k).bind fun t =>
        s.nodeRec (if treeB then t.2 else t.1) (if treeB then keyB k else keyA k) off.toNat n) fun r =>
      s.withNodes [r] fun s => s.setG d (extend (s.nodeVal r) n sx)
def execPload (d a : Reg) (sx : Bool) (sz : BitVec 2) (off : BitVec 6) (treeB : Bool) (s : State) : Out :=
  .next (s.pload d a sx sz off treeB)

/-- Arithmetic on FP32 codes under RNE (R179). -/
def sub32 (a b : Nat) : Nat := addRne fp32 a (b ^^^ 2 ^ 31)
def mul32 (a b : Nat) : Nat := (fp32.round 0 (mul0 (fp32.decode a) (fp32.decode b))).1
def sqrt32 (a : Nat) : Nat := (fp32.round 0 (fp32.decode a).sqrt.1).1
/-- Fields of 4 bytes of a record read from offset 0: CX, CY, CZ, RADIUS. -/
def field32 (v i : Nat) : Nat := v / 2 ^ (32 * i) % 2 ^ 32

/-- The distance and the verdict of the acceptance test of two records (R179). -/
def pairTest (na nb theta : Nat) : Nat × Bool :=
  let dx := sub32 (field32 na 0) (field32 nb 0)
  let dy := sub32 (field32 na 1) (field32 nb 1)
  let dz := sub32 (field32 na 2) (field32 nb 2)
  let q := mul32 dx dx
  let q := addRne fp32 q (mul32 dy dy)
  let q := addRne fp32 q (mul32 dz dz)
  let d := sqrt32 q
  let r := addRne fp32 (field32 na 3) (field32 nb 3)
  let t := mul32 theta d
  let fd := fp32.decode d; let fr := fp32.decode r; let ft := fp32.decode t
  (d, !fd.isZero && !fd.isNaN && !fr.isNaN && !ft.isNaN && fr.cmp ft < 0)

/-- The records of both nodes of a key. -/
def State.pairRecs (s : State) (k off n : Nat) : Chk ((Tree × Tree) × NodeRead × NodeRead) :=
  (s.keyTrees k).bind fun t =>
    (s.nodeRec t.1 (keyA k) off n).bind fun ra => (s.nodeRec t.2 (keyB k) off n).bind fun rb => .ok (t, ra, rb)

/-- PTEST (R179). -/
def State.ptest (s : State) (d a b c : Reg) : State :=
  let k := (s.me.reg a).toNat
  if s.myJob.noTrees then s.trap cILLEGAL 0
  else
    s.onChk (s.pairRecs k 0 16) fun r =>
      s.withNodes [r.2.1, r.2.2] fun s =>
        let (dist, ok) := pairTest (s.nodeVal r.2.1) (s.nodeVal r.2.2) (bitsOf (s.me.reg b).toNat 31 0)
        s.retire fun x => (x.setReg d (BitVec.ofNat 64 (boolN ok))).setReg c (BitVec.ofNat 64 dist)
def execPtest (d a b c : Reg) (s : State) : Out := .next (s.ptest d a b c)

/-- The fork of a held task from its two records, read from RADIUS on: RADIUS, FIRST, NCHILD (R180). -/
def State.pforkAt (s : State) (t : TaskBuf) (trees : Tree × Tree) (va vb : Nat) : State :=
  let jb := s.myJob
  let ka := va / 2 ^ 64 % 256; let kb := vb / 2 ^ 64 % 256
  let la := ka == 0; let lb := kb == 0
  let fa := fp32.decode (field32 va 0); let fb := fp32.decode (field32 vb 0)
  let splitb := la || (!lb && !fa.isNaN && !fb.isNaN && fa.cmp fb < 0)
  let f := if splitb then field32 vb 1 else field32 va 1
  let n := if splitb then kb else ka
  let count := if splitb then trees.2.count else trees.1.count
  if la && lb then s.trap cILLEGAL 0
  else if !(n == 2 || n == 4 || n == 8) || decide (count < f + n) then s.trap cILLEGAL 0
  else if 64 ≤ t.dups.length then s.trap cTASKBUF 0
  else if jb.limit < jb.frontCount + jb.frontRes + n then s.trap cFRONTIER 0
  else
    let kids := (List.range n).map fun i =>
      if splitb then { na := t.desc.na, nb := f + i, slot := t.desc.slot } else ({ na := f + i, nb := t.desc.nb, slot := t.desc.slot } : PairDesc)
    let s := s.modJob s.myJobNo fun jb => { jb with frontRes := jb.frontRes + n }
    s.retire fun c => { c with task := some { t with fork := some kids } }

/-- PFORK (R180). -/
def State.pfork (s : State) (a : Reg) : State :=
  let k := (s.me.reg a).toNat
  if s.myJob.noTrees || !s.me.pairtask then s.trap cILLEGAL 0
  else
    match s.me.task with
    | none => s.trap cILLEGAL 0
    | some t =>
      if k != t.desc.key || t.fork.isSome then s.trap cILLEGAL 0
      else
        s.onChk (s.pairRecs k 12 9) fun r =>
          s.withNodes [r.2.1, r.2.2] fun s => s.pforkAt t r.1 (s.nodeVal r.2.1) (s.nodeVal r.2.2)
def execPfork (a : Reg) (s : State) : Out := .next (s.pfork a)

/-! ### PDONE (R182) -/

/-- The first buffered entry whose home refuses it, with its cause, room being reserved entry by entry. -/
def State.firstRefused (s : State) (src : Nat) (taken : List Nat) : List DupEffect → Option (Nat × Word)
  | [] => none
  | e :: t =>
    let h := faSp e.fa
    match s.appendRefusal src e.fa (2 ^ e.sz) (taken.count h) with
    | some cause => some (cause, e.va)
    | none => State.firstRefused s src (h :: taken) t

/-- The homes and clusters elsewhere whose acknowledgements a commit waits for: of each append to another spindle, and of each group of
children for another cluster. -/
def State.commitAcks (s : State) (t : TaskBuf) : List Nat :=
  let r := s.myJob.rect
  ((t.dups.map fun e => faSp e.fa).filter fun h => h != s.here) ++
    (((s.childGroups s.myJobNo s.here (t.fork.getD [])).filter fun g => r.clusterAt g.1 != clusterOf s.here).map fun g =>
      (clusterSpindles (r.clusterAt g.1)).headD 0)

/-- The commit: the appends, the children, the held descriptor, the counters. -/
def State.commitEffects (s : State) (t : TaskBuf) : State :=
  let j := s.myJobNo
  let c := s.me
  let (ph, any) := s.appendPhase c j
  let kids := t.fork.getD []
  let here := s.here
  let s := (t.dups.zipIdx).foldl (fun s e =>
    let x : SkeinEntry := { fa := e.1.fa, op := e.1.op, sz := e.1.sz, v := e.1.v, key := t.desc.key, seqn := e.2, plyg := c.plyg.toNat,
                            phase := ph, anyph := any }
    (s.append x).passed { id := 0, cls := .update, src := here, dst := faSp e.1.fa, job := j, body := .append x }) s
  let s := s.placeChildren j s.here kids
  let s := s.modCl t.cluster fun x => { x with held := x.held.erase t.desc }
  let s := s.modJob j fun jb => { jb with frontCount := jb.frontCount + kids.length - 1, frontRes := jb.frontRes - kids.length }
  (s.readBack j t.cluster).exhaust j

/-- The commit as one step, and the wait with PARK 2 for what was sent elsewhere; the task ends when all of it is acknowledged. -/
def State.commitTask (s : State) (t : TaskBuf) : State :=
  let acks := s.commitAcks t
  let u := s.commitEffects t
  if acks.isEmpty then u.retire fun c => { c with pairtask := false, task := none }
  else
    let (tok, u) := u.takeTok
    let u := acks.foldl (fun u h => u.send
      { id := 0, cls := .reply, src := h, dst := s.here, job := s.myJobNo, ctx := keyCtx s.cur, tok := tok, who := s.myWho, body := .ack }) u
    (u.modMe fun c => { c with task := none }).parkFor 2 tok (.commit acks.length)

/-- PDONE: room is reserved for every buffered update, then the task commits in one step. -/
def State.pdone (s : State) : State :=
  if s.myJob.noTrees || !s.me.pairtask then s.trap cILLEGAL 0
  else
    match s.me.task with
    | none => s.trap cILLEGAL 0
    | some t =>
      match s.firstRefused s.here [] t.dups with
      | some (cause, va) => s.trap cause va
      | none => s.commitTask t
def execPdone (s : State) : Out := .next s.pdone

/-! ### PQRY (R184) -/

/-- Selector 0: the bobbin of a cluster. -/
def State.bobbinWord (s : State) (jb : Job) (cl : Nat) : Nat :=
  let c := s.cluster cl
  2 ^ 63 + boolN (decide (jb.hwm ≤ c.occ)) * 2 ^ 62 + c.own.length * 2 ^ 32 + c.held.length * 2 ^ 16 + c.occ
/-- Selector 1: the launch's frontier counters. -/
def Job.frontierWord (jb : Job) : Nat :=
  2 ^ 63 + (jb.seeded.map fun i => 2 ^ (59 + i)).sum + jb.freeBlk * 2 ^ 40 + jb.frontCount % 2 ^ 40

/-- PQRY. -/
def State.pqry (s : State) (d a : Reg) : State :=
  let sel := (s.me.reg a).toNat
  if 1 < sel then s.trap cILLEGAL 0
  else if s.myJob.noTrees then s.setG d 0
  else if sel = 0 then s.setG d (BitVec.ofNat 64 (s.bobbinWord s.myJob (clusterOf s.here)))
  else
    let (tok, t) := s.takeTok
    (t.send { id := 0, cls := .request, src := s.here, dst := nodeDisp, job := s.myJobNo, ctx := keyCtx s.cur, tok := tok, who := s.myWho,
              body := .query 1 s.myJobNo }).parkFor 1 tok (.value d)
def execPqry (d a : Reg) (s : State) : Out := .next (s.pqry d a)

end Sys2Proof.Machine
end

