-- ==== Sys2Proof/Machine/Arrive.lean ====
section
/-!
DEFINITION. How a message arrives (R118): who may arrive next, the refusal by a fenced home (R349), the front's log (R336, R337), the
counters (R334), and what an answer does at its context (R22, R120-R123).
-/
namespace Sys2Proof.Machine
open Sys2Proof.Config

/-! ### Arrival -/

/-- While a job resumes, its front logs are delivered before any other message of it (R342). -/
def State.logFirst (s : State) (m : Msg) : Bool :=
  m.postFront || (s.job m.job).phase != .resuming || !(s.msgs.any fun x => x.job == m.job && x.postFront)

/-- The message of an id that may arrive now; a recorded store that has arrived ahead of its turn waits at its bank, until its turn has
come or a front takes it into its log (R163, R336). -/
def State.arriving (s : State) (id : Nat) (q : Body → Bool) : Option Msg :=
  match s.msgs.find? fun m => m.id == id with
  | some m =>
    if q m.body && m.notBefore == 0 && !m.logged && m.port.isNone && s.logFirst m &&
      (if m.early then !s.replayHeld m || s.frontHolds m else s.headOfFlow m) then some m else none
  | none => none

/-- A recorded store arrives ahead of its turn: it waits, and its context parks where it was sent under REL and no unit goes on (R163). -/
def State.tooEarly (s : State) (m : Msg) : State :=
  let s := { s with msgs := s.msgs.map fun x => if x.id == m.id then { x with early := true } else x }
  let c := s.ctx m.asker
  if c.st == .ready && !c.again && c.rels.any (fun o => o.tok == m.tok) then s.parkReplay m.asker m.tok else s

/-- A message arrives: refused for a fence, held by a front, set aside till its turn, or taken. One that may not arrive leaves the state. -/
def State.onArrive (s : State) (id : Nat) (q : Body → Bool) (f : Msg → State → State) : State :=
  match s.arriving id q with
  | none => s
  | some m =>
    if decide (m.dst < numSpindles) && (s.spindle m.dst).fenced then (s.dropMsg id).refuseMsg m cFENCED
    else if s.frontHolds m then s.logMsg m
    else if s.replayHeld m then s.tooEarly m
    else f m ((if m.postFront then s else s.received m).dropMsg id)

/-! ### What an answer does at its context -/

/-- The context a message names. -/
def Msg.key (m : Msg) : Nat := keyOf m.dst m.ctx
/-- The context is parked for this answer. -/
def State.awaits (s : State) (m : Msg) : Bool := (s.ctx m.key).st == .parked && (s.ctx m.key).tok == m.tok && m.tok != 0
/-- The answer belongs to an outstanding REL operation. -/
def State.relOf (s : State) (m : Msg) : Option RelOp := (s.ctx m.key).rels.find? fun o => o.tok == m.tok

/-- A context that waits for REL operations, or for a pending register, goes on once what it waits for has come (R22). -/
def State.wakeRel (s : State) (k : Nat) : State :=
  if (s.ctx k).st == .parked && (s.ctx k).relsCome then s.wakeAgain k else s

/-- A REL operation has its answer: it counts no more, and a pending register takes its value (R120, R121). -/
def State.relDone (s : State) (k : Nat) (o : RelOp) (v : Option Nat) : State :=
  let s := s.modCtx k fun c =>
    let c := { c with rels := c.rels.filter fun x => x.tok != o.tok }
    match o.dest, v with
    | some (d, n, sx, _), some v => c.setReg d (extend v n sx)
    | _, _ => c
  s.wakeRel k

/-- A REL operation was refused: a deferred trap (R123). -/
def State.relRefused (s : State) (k : Nat) (o : RelOp) (cause : Nat) : State :=
  (s.modCtx k fun c => { c with deferred := c.deferred ++ [{ cause := cause, addr := o.va, pc := o.pc, defer := true }] }).relDone k o none

/-- The value an answer brings. -/
def Body.value : Body → Nat
  | .reply v => v
  | _ => 0

end Sys2Proof.Machine
end

