-- ==== Sys2Proof/Machine/Subscription.lean ====
section
/-!
DEFINITION. The meanings of the subscription instructions (R145-R147, R152-R154).
-/
namespace Sys2Proof.Machine
open Sys2Proof.Config

/-- Two byte ranges meet. -/
def rangesMeet (a n b m : Nat) : Bool := decide (a < b + m) && decide (b < a + n)
/-- A range meets a copy region or a published region of a spindle. -/
def State.regionTaken (s : State) (sp fa n : Nat) : Bool :=
  (s.spindle sp).copies.any (fun e => rangesMeet fa n e.base e.len) || (s.spindle sp).pubs.any fun e => rangesMeet fa n e.base e.len

/-- SUBON's operands once their addresses are found (R147): the checks and the request. -/
def State.subonAt (s : State) (l p : Word) (n fl fp : Nat) : State :=
  if faSp fl != s.here || decide (0x10000 < faLocal fl + n) then s.trap cILLEGAL 0
  else if faSp fp == s.here || decide (0x10000 < faLocal fp + n) then s.trap cILLEGAL 0
  else if s.regionTaken s.here fl n then s.trap cILLEGAL 0
  else if 16 ≤ (s.spindle s.here).copies.length then s.trap cCHANNEL l
  else
    let (tok, t) := s.takeTok
    let t := t.send { id := 0, cls := .request, src := s.here, dst := faSp fp, job := s.myJobNo, ctx := keyCtx s.cur, tok := tok,
                      va := p, who := s.myWho, body := .subReq fp n fl }
    t.parkFor 2 tok (.subon { base := fl, len := n, pubSp := faSp fp, pubBase := fp, pubJob := s.jobNoAt (faSp fp) })

/-- SUBON (R147). -/
def State.subon (s : State) (a b c : Reg) : State :=
  let l := s.me.reg a; let p := s.me.reg b; let n := (s.me.reg c).toNat
  if l.toNat % 64 != 0 then s.trap cALIGN l
  else if p.toNat % 64 != 0 then s.trap cALIGN p
  else if n == 0 || n % 64 != 0 || decide (16384 < n) then s.trap cILLEGAL 0
  else
    let last := BitVec.ofNat 64 (n - 1)
    s.onChk ((s.xlate l needR).bind fun fl => (s.xlate (l + last) needR).bind fun _ =>
             (s.xlate p needR).bind fun fp => (s.xlate (p + last) needR).bind fun _ => .ok (fl.1, fp.1))
      fun r => ((s.touch l).touch p).subonAt l p n r.1 r.2
def execSubon (a b c : Reg) (s : State) : Out := .next (s.subon a b c)

/-- The copy entry of the executing spindle whose base is `fa`. -/
def State.copyEntry (s : State) (fa : Nat) : Option CopyEntry := (s.spindle s.here).copies.find? fun e => e.base == fa

/-- SUBOFF (R152). -/
def State.suboff (s : State) (a : Reg) : State :=
  let l := s.me.reg a
  s.onChk (s.xlate l needR) fun p =>
    let s := s.touch l
    match s.copyEntry p.1 with
    | none => s.trap cILLEGAL 0
    | some e =>
      if e.pfenced then (s.modSp s.here fun p => { p with copies := p.copies.filter fun x => x.base != e.base }).retire id
      else
        let (tok, t) := s.takeTok
        let t := t.send { id := 0, cls := .request, src := s.here, dst := e.pubSp, job := s.myJobNo, ctx := keyCtx s.cur, tok := tok,
                          va := l, who := s.myWho, body := .subRemove e.pubBase e.base }
        t.parkFor 2 tok (.suboff e.base)
def execSuboff (a : Reg) (s : State) : Out := .next (s.suboff a)

/-- SUBQ (R153). -/
def State.subq (s : State) (d a : Reg) : State :=
  let l := s.me.reg a
  s.onChk (s.xlate l needR) fun p =>
    let s := s.touch l
    match s.copyEntry p.1 with
    | none => s.setG d 0
    | some e => s.setG d (BitVec.ofNat 64 (2 ^ 63 + boolN e.susp * 2 ^ 62 + boolN e.pfenced * 2 ^ 61 + e.pubSp * 2 ^ 30 + e.len))
def execSubq (d a : Reg) (s : State) : Out := .next (s.subq d a)

/-- SUBFL (R154). -/
def execSubfl (s : State) : Out := .next ((s.closeBatches s.here fun _ _ => true).retire id)

end Sys2Proof.Machine
end

