-- ==== Sys2Proof/Machine/BankEvents.lean ====
section
/-!
DEFINITION. The events of subscriptions (R148-R156), of the loom (R255, R260), and of memory's errors (R347, R348).
-/
namespace Sys2Proof.Machine
open Sys2Proof.Config

/-! ### Subscriptions -/

/-- The publisher's entries an event names. -/
def State.modPub (s : State) (sp base copy : Nat) (f : PubEntry → PubEntry) : State :=
  s.modSp sp fun p => { p with pubs := p.pubs.map fun e => if e.base == base && e.copyBase == copy then f e else e }

/-- The snapshot: every line in ascending order, with full masks (R148). -/
def State.snapshot (s : State) (sp : Nat) (e : PubEntry) : State :=
  let n := e.len / 64
  (List.range n).foldl (fun s i => s.sendBatch sp e (e.base + 64 * i) (2 ^ 64 - 1) 0xFF s.now [] (i + 1 == n)) s

/-- A subscription asked of a publisher (R147, R148). -/
def State.subIn (s : State) (m : Msg) : State :=
  match m.body with
  | .subReq base len copy =>
    let p := s.spindle m.dst
    let ans := fun (t : State) code => t.send (m.answer (.subAnswer code))
    if !s.windowOk m.dst m.src base len 0 then ans s 2
    else if p.copies.any fun e => rangesMeet base len e.base e.len then ans s 4
    else if 16 ≤ p.pubs.length then ans s 3
    else
      let e : PubEntry := { base := base, len := len, subSp := m.src, subJob := m.job, copyBase := copy, snapTok := some (m.ctx, m.tok) }
      (s.modSp m.dst fun p => { p with pubs := p.pubs ++ [e] }).snapshot m.dst e
  | _ => s
def execSubscriptionRequest (m : Nat) (s : State) : Out :=
  .next (s.onArrive m (fun b => match b with | .subReq .. => true | _ => false) fun x s => s.subIn x)

/-- A batch closes 32 cycles after it opened (R149). -/
def execBatchCloseTimeout (sp line : Nat) (s : State) : Out :=
  .next (s.closeBatches sp fun _ b => b.line == line && decide (b.opened + batchCycles ≤ s.now))

/-- One word of a batch written by the subscriber's bank: its masked bytes, then its FE bit (R150). -/
def State.batchWord (s : State) (w bytes : Nat) (fe : Option Bool) (v who : Nat) : State :=
  let bs := ((List.range 8).filter fun i => bytes / 2 ^ i % 2 == 1).map fun i => (i, v / 256 ^ i % 256)
  let s := if bs.isEmpty then s else s.storeMasked w bs who
  match fe with
  | some true => s.fill w who
  | some false => s.empty w who
  | none => s

/-- The word of a batch's line of which the batch would write a part while it is poisoned (R348). -/
def State.batchPoison (s : State) (line bytes : Nat) : Option Nat :=
  ((List.range 8).find? fun i =>
    let b := bytes / 2 ^ (8 * i) % 256
    b != 0 && b != 255 && s.poisoned (line + 8 * i) 8).map fun i => line + 8 * i

/-- A batch applied as one operation, and acknowledged; the last of a snapshot ends its SUBON. One that would write part of a poisoned
word consumes the poison and is not applied (R348). -/
def State.batchIn (s : State) (m : Msg) : State :=
  match m.body with
  | .batch line bytes fes fev data entry ws last =>
    match s.batchPoison line bytes with
    | some w => (s.consume m.dst w 8).wakeFences
    | none =>
    let s := (List.range 8).foldl (fun s i =>
      s.batchWord (line + 8 * i) (bytes / 2 ^ (8 * i) % 256)
        (if fes / 2 ^ i % 2 = 1 then some (fev / 2 ^ i % 2 == 1) else none) (data.getD i 0) (ws.headD (2 ^ 60))) s
    let s := s.send { m.answer (.batchAck entry m.id) with cls := .update }
    let s := if last && s.awaits m then s.complete m.key 0 else s
    s.wakeFences
  | _ => s
def execBatchApply (m : Nat) (s : State) : Out :=
  .next (s.onArrive m (fun b => match b with | .batch .. => true | _ => false) fun x s => s.batchIn x)

/-- The publisher receives a batch's acknowledgement (R150). -/
def State.batchAcked (s : State) (m : Msg) : State :=
  match m.body with
  | .batchAck _ id =>
    (s.modSp m.dst fun p => { p with pubs := p.pubs.map fun e => { e with unacked := e.unacked.filter fun u => u.1 != id } }).wakeFences
  | _ => s
def execBatchAck (m : Nat) (s : State) : Out :=
  .next (s.onArrive m (fun b => match b with | .batchAck .. => true | _ => false) fun x s => s.batchAcked x)

/-- A batch refused by a fenced subscriber: the entry goes, and SUBERR is set (R156). -/
def State.batchRefused (s : State) (m : Msg) : State :=
  match m.body with
  | .batchNack entry =>
    let hit := (s.spindle m.dst).pubs.any fun e => e.base == entry && e.subSp == m.src
    let s := s.modSp m.dst fun p => { p with pubs := p.pubs.filter fun e => !(e.base == entry && e.subSp == m.src) }
    (if hit then s.modCtx (keyOf m.dst 0) fun c => c.raise flSUBERR else s).wakeFences
  | _ => s
def execBatchNack (m : Nat) (s : State) : Out :=
  .next (s.onArrive m (fun b => match b with | .batchNack _ => true | _ => false) fun x s => s.batchRefused x)

/-- The open batches of one entry close. -/
def State.closeEntry (s : State) (sp base copy : Nat) : State := s.closeBatches sp fun e _ => e.base == base && e.copyBase == copy

/-- A publisher's entry for a subscriber is freed: in its spindle's table, and in the table saved of a job that is switched out
(R152, R155). -/
def State.freePub (s : State) (sp base copy subSp subJob : Nat) : State :=
  let keep := fun (e : PubEntry) => !(e.base == base && e.copyBase == copy && e.subSp == subSp && e.subJob == subJob)
  let cut := fun (p : Spindle) => { p with pubs := p.pubs.filter keep }
  let s := s.modSp sp cut
  { s with jobs := s.jobs.map fun e => (e.1, e.2.mapSaved fun n p => if n == sp then cut p else p) }

/-- A dirty line of an entry that is saved with its publisher, as a batch with full masks. -/
def SavedSpindle.batchOf (v : SavedSpindle) (j : Nat) (e : PubEntry) (line : Nat) : Msg :=
  let fev := (List.range 8).foldl (fun a i => if v.scratchFe.contains (line + 8 * i) then a + 2 ^ i else a) 0
  { id := 0, cls := .update, src := v.sp, dst := e.subSp, job := j,
    body := .batch (e.copyBase + (line - e.base)) (2 ^ 64 - 1) 0xFF fev ((List.range 8).map fun i => v.scratch.readN (line + 8 * i) 8)
      e.base [] false }
/-- What is pending for an entry saved with its publisher, whose job is switched out, is sent (R136, R152). -/
def State.flushSaved (s : State) (sp base copy : Nat) : State :=
  let it := fun (v : SavedSpindle) (e : PubEntry) => v.sp == sp && e.base == base && e.copyBase == copy
  let out := s.jobs.flatMap fun j => j.2.saved.flatMap fun v => (v.state.pubs.filter (it v)).flatMap fun e => e.dirty.map (v.batchOf j.1 e)
  let clear := fun (v : SavedSpindle) =>
    { v with state := { v.state with pubs := v.state.pubs.map fun e => if it v e then { e with dirty := [] } else e } }
  out.foldl State.send { s with jobs := s.jobs.map fun j => (j.1, { j.2 with saved := j.2.saved.map clear }) }

/-- SUBOFF at the publisher: pending batches are sent, the entry freed, the answer follows them (R152). -/
def State.subOut (s : State) (m : Msg) : State :=
  match m.body with
  | .subRemove base copy =>
    let s := ((s.closeEntry m.dst base copy).flushSaved m.dst base copy).freePub m.dst base copy m.src m.job
    s.send { m.answer .ack with cls := .update }
  | _ => s
def execSubscriptionRemoval (m : Nat) (s : State) : Out :=
  .next (s.onArrive m (fun b => match b with | .subRemove .. => true | _ => false) fun x s => s.subOut x)

/-- A drain request: pending batches close, the answer follows them (R136). -/
def State.drainIn (s : State) (m : Msg) : State :=
  match m.body with
  | .drainReq base copy => ((s.closeEntry m.dst base copy).flushSaved m.dst base copy).send { m.answer .ack with cls := .update }
  | _ => s
def execDrainRequest (m : Nat) (s : State) : Out :=
  .next (s.onArrive m (fun b => match b with | .drainReq .. => true | _ => false) fun x s => s.drainIn x)

/-! ### The loom -/

/-- A command enters its cluster's queue of eight (R255). -/
def execLoomQueueEntry (cl : Nat) (s : State) : Out :=
  .next (match (s.cluster cl).enter with
    | c :: t => if (s.cluster cl).queue.length < 8 then s.modCl cl fun x => { x with enter := t, queue := x.queue ++ [c] } else s
    | [] => s)

/-- A loom may go on: its command's job runs, or the command is in the midst of a step, and its die is not throttled on this cycle (R260,
R333, R339, R382). -/
def State.loomReady (s : State) (cl : Nat) (x : Cluster) : Bool :=
  match x.queue with
  | c :: _ =>
    let jb := s.job c.job
    ((!jb.stopped && (jb.phase == .running || jb.phase == .preempting)) || !c.seen.isEmpty) && decide (vec12 s.trebex.dthr (cl / 64) ≤ s.now % 16)
  | [] => false

/-- The loom performs a step (R260), where it may. -/
def execLoomStep (cl : Nat) (s : State) : Out := .next (if s.loomReady cl (s.cluster cl) then s.loomStep cl else s)

/-! ### Memory's errors -/

/-- A corrected error counts at its spindle (R347). -/
def execCorrectedError (sp : Nat) (s : State) : Out := .next (s.gustEvent sp)

/-- A word that its ECC cannot correct is poisoned (R348); an address that the part does not have faults. -/
def execUncorrectableEccError (fa : Nat) (s : State) : Out :=
  if faMapped fa then .next (s.setPoison (wordOf fa)) else .fault (.noSuchAddress fa)

end Sys2Proof.Machine
end

