-- ==== Sys2Proof/Machine/LinkEvents.lean ====
section
/-!
DEFINITION. The events of a Bluwailo port direction (R314, R315): go-back-N, retraining and lost chunks. In STANDBY the ports are idle
(R381).
-/
namespace Sys2Proof.Machine
open Sys2Proof.Config

/-- Resends of a flit before the port retrains (R315). -/
def resendMax : Nat := 16
/-- Cycles without an ACK before a resend (R315). -/
def ackCycles : Nat := 4096

/-- Every unacknowledged flit is sent again, from the oldest; after sixteen times the port retrains. -/
def HalfLink.resend (l : HalfLink) (now : Nat) : HalfLink :=
  let n := l.resends + 1
  if resendMax < n then { l with resends := n, retrain := true, wire := [], advanced := now }
  else { l with resends := n, wire := l.retry, advanced := now }

/-- The sender learns the next sequence number its receiver expects. -/
def HalfLink.acked (l : HalfLink) (now : Nat) : HalfLink :=
  let keep := l.retry.dropWhile fun f => f.seqn != l.expect
  let keep := if l.retry.any fun f => f.seqn == l.expect then keep else []
  if keep.length < l.retry.length then { l with retry := keep, resends := 0, advanced := now } else l

/-- A DATA flit arrives: the next expected one whose CRC holds is accepted and delivers its messages, any other is discarded and
answered by RETRY (R315). -/
def State.dataFlit (s : State) (h : Nat) (crcOk : Bool) : State :=
  if s.trebex.pstate = 1 then s
  else
  match (s.link h).wire with
  | [] => s
  | f :: t =>
    if crcOk && f.seqn == (s.link h).expect then
      let s := s.modLink h fun l => { l with wire := t, expect := (l.expect + 1) % 4096 }
      { s with msgs := s.msgs ++ f.cargo.map fun m => { m with port := none } }
    else s.modLink h fun l => { l with wire := t, retryFlits := l.retryFlits + 1 }
def execLinkDataFlit (port : Nat) (crcOk : Bool) (s : State) : Out := .next (s.dataFlit port crcOk)

/-- A RETRY flit reaches the sender: what it acknowledges is dropped, the rest resent (R315). -/
def State.retryFlit (s : State) (h : Nat) : State :=
  if (s.link h).retryFlits = 0 || s.trebex.pstate = 1 then s
  else s.modLink h fun l => (({ l with retryFlits := l.retryFlits - 1 }).acked s.now).resend s.now
def execLinkRetryFlit (port : Nat) (s : State) : Out := .next (s.retryFlit port)

/-- An IDLE flit brings the receiver's acknowledgement (R314); what waited is sent. -/
def execLinkIdleFlit (port : Nat) (s : State) : Out :=
  .next (if s.trebex.pstate = 1 then s else s.modLink port fun l => (l.acked s.now).pump)

/-- 4,096 cycles without an advance of ACK (R315). -/
def execLinkAckTimeout (port : Nat) (s : State) : Out :=
  .next (s.modLink port fun l => if s.trebex.pstate != 1 && !l.retry.isEmpty && !l.retrain && decide (l.advanced + ackCycles ≤ s.now) then l.resend s.now else l)

/-- An acknowledgement of a peer, for a chunk or for a run of emptied words. -/
def State.chunkAnswer (s : State) (eng id : Nat) (fault : Option Word) : State :=
  if (s.engine eng).cmds.any fun c => c.id == id && c.emptying then s.emptyAck eng id fault
  else s.modCmd eng id fun c => { c with flying := false, fault := if c.fault.isSome then c.fault else fault }

/-- A copy whose chunk was lost ends FAULT at the chunk's destination address (R315). -/
def State.chunkLost (s : State) (m : Msg) : State :=
  match m.body with
  | .peerChunk c => s.chunkAnswer c.eng c.id (some c.va)
  | .peerEmpty eng id _ _ _ vas => s.chunkAnswer eng id vas.head?
  | .chunkAck eng id va _ => s.chunkAnswer eng id (some va)
  | _ => s

/-- A direction of a port that is down holds nothing. -/
def HalfLink.dead (l : HalfLink) : HalfLink :=
  { l with up := false, retrain := false, retry := [], wire := [], queue := [], retryFlits := 0 }

/-- Retraining ends: the direction resends, or the port is down, both ways, and its messages are lost (R315). -/
def State.retrainEnd (s : State) (h : Nat) (ok : Bool) : State :=
  let l := s.link h
  if !l.retrain || s.trebex.pstate = 1 then s
  else if ok then s.modLink h fun l => ({ l with retrain := false, resends := 0, wire := l.retry, advanced := s.now }).pump
  else
    let both := [h / 2 * 2, h / 2 * 2 + 1]
    let lost := both.flatMap fun d => ((s.link d).retry.flatMap (·.cargo)) ++ (s.link d).queue
    lost.foldl State.chunkLost (both.foldl (fun s d => s.modLink d HalfLink.dead) s)
def execLinkRetrainDone (port : Nat) (ok : Bool) (s : State) : Out := .next (s.retrainEnd port ok)

end Sys2Proof.Machine
end

