-- ==== Sys2Proof/Machine/CopyEvents.lean ====
section
/-!
DEFINITION. The events of copy engines (R305-R309, R312, R313) and of the unraveller (R324).
-/
namespace Sys2Proof.Machine
open Sys2Proof.Config

/-! ### Choosing a chunk (R305) -/

/-- A command may begin a chunk: its predecessor has completed, its job is not switched out or halted. -/
def State.copyEligible (s : State) (c : CopyCmd) : Bool :=
  c.pred == 0 && !c.emptying && !(s.job c.job).stopped && (match (s.job c.job).phase with | .running | .preempting => true | _ => false)

/-- The oldest eligible entry of a class queue with chunks left. -/
def State.queueHead (s : State) (g : Engine) (q : Nat) : Option CopyCmd := g.cmds.find? fun c => c.cls == q && c.more && s.copyEligible c

/-- The quanta of deficit round-robin. -/
def quantum (q : Nat) : Nat := match q with | 0 => 16384 | 1 => 8192 | 2 => 4096 | _ => 2048

def defAt (v : Vector Nat 4) (q : Nat) : Nat := if h : q < 4 then v[q] else 0
def defSet (v : Vector Nat 4) (q n : Nat) : Vector Nat 4 := if h : q < 4 then v.set q n h else v

/-- The round passes a queue that holds no eligible entry, whose deficit becomes 0, and stands at the next. -/
def State.passQueue (s : State) : Nat → Engine → Engine
  | 0, g => g
  | f + 1, g =>
    if (s.queueHead g g.at_).isSome then g
    else s.passQueue f { g with defs := defSet g.defs g.at_ 0, at_ := (g.at_ + 1) % 4, fresh := true }
/-- Every engine's round stands at a queue with an eligible entry, if it has one. -/
def State.passQueues (s : State) : State := { s with engines := s.engines.map fun e => (e.1, s.passQueue 4 e.2) }

/-- The round goes on until a queue sends: the command whose chunk is next, and the engine with that chunk paid for. -/
def State.drr (s : State) : Nat → Engine → Option (CopyCmd × Engine)
  | 0, _ => none
  | f + 1, g =>
    let q := g.at_
    let on := fun (g : Engine) => { g with at_ := (q + 1) % 4, fresh := true }
    match s.queueHead g q with
    | none => s.drr f (on { g with defs := defSet g.defs q 0 })
    | some c =>
      let d := defAt g.defs q + if g.fresh then quantum q else 0
      if c.chunkLen ≤ d then some (c, { g with defs := defSet g.defs q (d - c.chunkLen), fresh := false })
      else s.drr f (on { g with defs := defSet g.defs q d })

/-! ### A chunk (R306, R308) -/

/-- One word of a chunk whose words are all read: its addresses, where it leads, its value, whether it has no source or is poisoned,
whether it is written already. -/
structure ChunkWord where
  ix : Nat
  sva : Word
  dva : Word
  dst : Option CopyWord
  val : Nat
  noSrc : Bool
  poison : Bool
  done : Bool

def ChunkWord.srcBad (w : ChunkWord) : Bool := w.noSrc || w.poison

/-- The addresses of a word of a command's next chunk. -/
def CopyCmd.srcAt (c : CopyCmd) (i : Nat) : Word := c.srcVa + BitVec.ofNat 64 (8 * i)
def CopyCmd.dstAt (c : CopyCmd) (i : Nat) : Word := c.dstVa + BitVec.ofNat 64 (8 * i)

/-- A word of a command's next chunk is read (R306): its value, where it has a source, and whether it is poisoned. -/
def State.readChunk (s : State) (c : CopyCmd) (i : Nat) : Nat × Option Nat × Bool :=
  match s.copySrc c (c.srcAt i) with
  | some (fa, k) => (i, some (s.pageRead k fa 8), s.pagePoison k fa 8 false)
  | none => (i, none, false)

/-- The words of a command's chunk, as they were read. -/
def State.chunkWords (s : State) (c : CopyCmd) (p : ChunkPart) : List ChunkWord :=
  (List.range (c.chunkLen / 8)).map fun i =>
    let v := ((p.vals.find? fun v => v.1 == i).map (·.2)).getD (none, false)
    { ix := i, sva := c.srcAt i, dva := c.dstAt i, dst := s.copyTo c (c.dstAt i), val := v.1.getD 0, noSrc := v.1.isNone, poison := v.2,
      done := p.wrote.contains i }

/-- FADDR of the first chunk that fails: its first failing source word, else its first failing destination word. -/
def chunkFault (ws : List ChunkWord) : Option Word :=
  match ws.find? ChunkWord.srcBad with
  | some w => some w.sva
  | none => (ws.find? fun w => w.dst.isNone && !w.done).map (·.dva)

/-- The payload with the armed inversion, which falls after the source check value (R101, R297). -/
def CopyCmd.flipped (c : CopyCmd) (vals : List Nat) : List Nat :=
  match c.flip with
  | none => vals
  | some bit =>
    let start := 8 * (c.row * c.clen + c.off)
    if start ≤ bit && bit < start + 64 * vals.length then
      let i := (bit - start) / 64
      vals.set i (vals.getD i 0 ^^^ 2 ^ ((bit - start) % 64))
    else vals

/-- The words of a failing chunk that are written: which of them is a free value. -/
def State.chunkSome (s : State) (ws : List ChunkWord) (vals : List Nat) : List (CopyWord × Nat) :=
  (ws.zip vals).filterMap fun e => match e.1.dst with
    | some d => if !e.1.srcBad && !e.1.done && chunkWord s.free e.1.ix then some (d, e.2) else none
    | none => none

/-- Poison where a copy writes: the word, or the words of an alias block (R348). -/
def State.poisonAt (s : State) (w : CopyWord) : State :=
  if w.2 = 0 then s.setPoison (wordOf w.1)
  else
    let (_, eb, en, sa) := aliasBlock w.2 w.1
    (wordsOf eb en ++ wordsOf sa 1).foldl State.setPoison s

/-- The 64-byte line of a chunk whose check value disagrees: which of them is a free value. -/
def State.badLine (s : State) (vas : List Word) : Option Nat :=
  let ls := (vas.map fun v => v.toNat / 64).eraseDups
  ls[crcLine s.free % ls.length]?

/-- What is written at once: a word by itself, or the words of one line of an alias page (R308). -/
def CopyWord.unit (w : CopyWord) : Nat := if w.2 = 0 then w.1 else w.1 / 64 * 64

/-- The command's chunk ends. -/
def CopyCmd.chunkOver (c : CopyCmd) : CopyCmd := { c with part := none }

/-- A chunk that is read, written on the issuing package: some of its words, in no fixed order (R160); with the last of them the command
is past the chunk. -/
def State.chunkHere (s : State) (e : Nat) (c : CopyCmd) (p : ChunkPart) : State :=
  let ws := s.chunkWords c p
  let raw := ws.map (·.val)
  let vals := c.flipped raw
  let who := whoOf c.job c.thidx
  let k := c.stg.check
  match chunkFault ws with
  | some va =>
    let t := s.putCopy who c.stg.eoi (if ws.any (·.noSrc) then [] else s.chunkSome ws vals)
    let t := (ws.filter (·.poison)).foldl (fun t w => match w.dst with | some d => t.poisonAt d | none => t) t
    { (t.modCmd e c.id fun x => { x.chunkOver with fault := some va }) with free := s.free + 1 }
  | none =>
    if p.wrote.isEmpty && s.upsets.contains (.chunkCrc e) then
      -- the check value of a line disagrees at its home: none of it is written, its words are poisoned (R345)
      let line := s.badLine (ws.map (·.dva))
      let hit := fun (w : ChunkWord) => some (w.dva.toNat / 64) == line
      let good := (ws.zip vals).filter fun x => !hit x.1
      let u : State := { s with upsets := s.upsets.erase (.chunkCrc e) }
      let t := u.putCopy who c.stg.eoi (s.chunkSome (good.map (·.1)) (good.map (·.2)))
      let t := (ws.filter hit).foldl (fun t w => match w.dst with | some d => t.poisonAt d | none => t) t
      { (t.modCmd e c.id fun x => { x.chunkOver with fault := (ws.find? hit).map (·.dva) }) with free := s.free + 1 }
    else
      let todo := (ws.zip vals).filterMap fun x => if x.1.done then none else x.1.dst.map fun d => (x.1.ix, d, x.2)
      let pick := tearTake false s.free (todo.map fun x => x.2.1.unit).eraseDups
      let now := todo.filter fun x => pick x.2.1.unit
      let t := { (s.putCopy who c.stg.eoi (now.map (·.2))) with free := s.free + 1 }
      t.modCmd e c.id fun x =>
        if now.length < todo.length then { x with part := some { p with wrote := p.wrote ++ now.map (·.1) } }
        else { x.next with sums := checkStep k x.sums raw, dsums := checkStep k x.dsums vals, part := none }

/-- A chunk that is read, sent to a peer: it is in flight until it is acknowledged. One whose source words are poisoned goes too, for its
words to be poisoned there (R348). -/
def State.chunkAway (s : State) (e : Nat) (c : CopyCmd) (p : ChunkPart) (chip root : Nat) : State :=
  let ws := s.chunkWords c p
  let raw := ws.map (·.val)
  let vals := c.flipped raw
  let bad := (ws.filter (·.poison)).map (·.ix)
  match ws.find? (·.noSrc), Table.find s.trebex.routes chip with
  | some _, _ => s.modCmd e c.id fun x => { x.chunkOver with fault := (ws.find? ChunkWord.srcBad).map (·.sva) }
  | none, none => s.modCmd e c.id fun x => { x.chunkOver with fault := some c.dstVa }
  | none, some port =>
    if !(s.link (2 * port)).up then s.modCmd e c.id fun x => { x.chunkOver with fault := some c.dstVa }
    else
      let crc := if bad.isEmpty && s.upsets.contains (.chunkCrc e) then s.badLine (ws.map (·.dva)) else none
      let s := if crc.isSome then { s with upsets := s.upsets.erase (.chunkCrc e), free := s.free + 1 } else s
      let s := s.modCmd e c.id fun x =>
        if bad.isEmpty then { x.next with sums := checkStep c.stg.check x.sums raw, dsums := checkStep c.stg.check x.dsums vals, flying := true,
                                          part := none }
        else { x.chunkOver with fault := (ws.find? ChunkWord.srcBad).map (·.sva), flying := true }
      let pc : PeerChunk := { eng := e, id := c.id, own := s.trebex.chip, chip := chip, root := root, va := c.dstVa, data := vals,
                              eoi := c.stg.eoi, crc := crc, bad := bad }
      s.linkSend (2 * port) { id := 0, cls := .request, src := nodeEngine e, dst := nodePeer chip, job := c.job, port := some (2 * port),
                              body := .peerChunk pc }

/-- A chunk goes on: words that are not read yet are read, in no fixed order; once all are, it is written here or sent to its peer. -/
def State.chunkGo (s : State) (e : Nat) (c : CopyCmd) : State :=
  let p := c.part.getD {}
  let left := (List.range (c.chunkLen / 8)).filter fun i => !(p.vals.any fun v => v.1 == i)
  let now := left.filter (tearTake false s.free left)
  let p := { p with vals := p.vals ++ now.map (s.readChunk c) }
  let s := { (s.modCmd e c.id fun x => { x with part := some p }) with free := s.free + 1 }
  if now.length < left.length then s
  else if c.stg.cpeer = 0xFF then s.chunkHere e c p
  else match s.peerOf c with
    | some (chip, root) => s.chunkAway e c p chip root
    | none => s.modCmd e c.id fun x => { x.chunkOver with fault := some c.dstVa }

/-- An engine goes on with the chunk that it is in the midst of, or begins the next one. -/
def State.copyChunk (s : State) (e : Nat) : State :=
  match (s.engine e).cmds.find? fun c => c.part.isSome with
  | some c => s.chunkGo e c
  | none =>
    match s.drr 9 (s.engine e) with
    | none => s
    | some (c, g) =>
      if c.flying then s
      else
        let s := s.modEng e fun _ => g
        if c.stg.cpeer != 0xFF && (s.peerOf c).isNone then s.modCmd e c.id fun x => { x with fault := some c.dstVa } else s.chunkGo e c
def execCopyChunk (eng : Nat) (s : State) : Out := .next (s.copyChunk eng)

/-! ### A chunk at a peer, and at this package as a peer's peer (R313) -/

/-- A word under a peer's mapping on this package. -/
def State.wordHere (s : State) (root : Nat) (va : Word) (eoi : Bool) : Option CopyWord :=
  match s.walkRoot false root va with
  | some g =>
    let fa := g.fa va
    if g.w && (g.kind == 0 || !eoi) && !(s.spindle (faSp fa)).fenced && !s.hitsCopy g.akind fa 8 then some (fa, g.akind) else none
  | none => none

/-- A word of an arriving chunk: its index, address, where it leads, its value. -/
structure ArrivedWord where
  ix : Nat
  va : Word
  dst : Option CopyWord
  val : Nat

/-- The words of a chunk at the package it names. -/
def PeerChunk.words (c : PeerChunk) (at_ : Word → Option CopyWord) : List ArrivedWord :=
  c.data.zipIdx.map fun e => let a := c.va + BitVec.ofNat 64 (8 * e.2); { ix := e.2, va := a, dst := at_ a, val := e.1 }

/-- The word was read poisoned, or lies in the line whose check value disagrees. -/
def PeerChunk.spoils (c : PeerChunk) (w : ArrivedWord) : Bool := c.bad.contains w.ix || some (w.va.toNat / 64) == c.crc

/-- The address at which a chunk faults: where its check value disagrees, its first word of that line; else its first word that may
not be written. -/
def PeerChunk.faultOf (c : PeerChunk) (l : List ArrivedWord) : Option Word :=
  match l.find? (fun w => w.dst.isNone) with
  | some w => some w.va
  | none => (l.find? fun w => some (w.va.toNat / 64) == c.crc).map (·.va)

/-- A word of the chunk may not be written, or is spoilt. -/
def PeerChunk.fails (c : PeerChunk) (l : List ArrivedWord) : Bool := l.any fun w => w.dst.isNone || c.spoils w
/-- The words that are written: all, or a free choice of a failing chunk's. -/
def State.arrivedSome (s : State) (c : PeerChunk) (l : List ArrivedWord) : List (CopyWord × Nat) :=
  l.filterMap fun w => match w.dst with
    | some d => if !c.spoils w && (!c.fails l || chunkWord s.free w.ix) then some (d, w.val) else none
    | none => none

/-- Of the words of a sound chunk for this package, those that are written now (R160). -/
def State.arrivedNow (s : State) (l : List ArrivedWord) : List ArrivedWord :=
  let unit := fun (w : ArrivedWord) => (w.dst.map CopyWord.unit).getD 0
  let pick := tearTake false s.free (l.map unit).eraseDups
  l.filter fun w => pick (unit w)

/-- The words of a chunk that become poisoned. -/
def State.arrivedPoison (s : State) (c : PeerChunk) (l : List ArrivedWord) : State :=
  (l.filter c.spoils).foldl (fun s w => match w.dst with | some d => s.poisonAt d | none => s) s

/-- A peer's memory as a package of its own, changed, and put back. -/
def State.atPeer (s : State) (chip : Nat) (f : State → State) : State :=
  let p := s.peer chip
  let t := f { State.reset with mem := p.mem, fe := p.fe, poison := p.poison }
  s.modPeer chip fun _ => { mem := t.mem, fe := t.fe, poison := t.poison }

/-- Who writes for a peer. -/
def noPeerWho : Nat := 2 ^ 60

/-- An answer over the link a message came by. -/
def State.peerAnswer (s : State) (m : Msg) (own : Bool) (chip : Nat) (b : Body) : State :=
  let ack : Msg := { id := 0, cls := .reply, src := m.dst, dst := m.src, job := m.job, tok := m.tok, body := b }
  match Table.find s.trebex.routes (if own then m.src - nodePeer 0 else chip) with
  | some port => let h := if own then 2 * port else 2 * port + 1; s.linkSend h { ack with port := some h }
  | none => s.send ack

/-- The message is for this package, as a peer's peer. -/
def State.forUs (s : State) (m : Msg) (chip : Nat) : Bool := chip == s.trebex.chip && m.dst != nodePeer chip

/-- A chunk is written at the package it names and acknowledged; a run of words is set EMPTY there (R303). -/
def State.peerIn (s : State) (m : Msg) : State :=
  match m.body with
  | .peerChunk c =>
    let own := s.forUs m c.chip
    let l := (c.words fun a => if own then s.wordHere c.root a c.eoi else (s.peer c.chip).word c.chip c.root a c.eoi).filter fun w =>
      !c.wrote.contains w.ix
    let now := s.arrivedNow l
    if own && !c.fails l && decide (now.length < l.length) then
      -- some words are written, and the chunk stays first of its flow
      let t := s.putCopy noPeerWho c.eoi (s.arrivedSome c now)
      { t with free := s.free + 1, msgs := { m with body := .peerChunk { c with wrote := c.wrote ++ now.map (·.ix) } } :: t.msgs }
    else
    let f := fun (t : State) => (t.putCopy noPeerWho c.eoi (s.arrivedSome c l)).arrivedPoison c l
    let t := { (if own then f s else s.atPeer c.chip f) with free := s.free + 1 }
    t.peerAnswer m own c.chip (.chunkAck c.eng c.id c.va (c.faultOf l))
  | .peerEmpty eng id _ chip root vas =>
    let own := s.forUs m chip
    let l := vas.map fun a => (a, if own then s.wordHere root a true else (s.peer chip).word chip root a true)
    let good := (l.takeWhile fun e => e.2.isSome).filterMap (·.2)
    let f := fun (t : State) => good.foldl (fun t w => t.empty w.1 noPeerWho) t
    let t := if own then f s else s.atPeer chip f
    t.peerAnswer m own chip (.chunkAck eng id (vas.headD 0) ((l.find? fun e => e.2.isNone).map (·.1)))
  | _ => s
def execPeerChunkArrival (m : Nat) (s : State) : Out :=
  .next (if s.trebex.pstate = 1 then s
    else s.onArrive m (fun b => match b with | .peerChunk .. | .peerEmpty .. => true | _ => false) fun x s => s.peerIn x)

/-- An acknowledgement reaches the engine. -/
def execChunkAck (m : Nat) (s : State) : Out :=
  .next (s.onArrive m (fun b => match b with | .chunkAck .. => true | _ => false) fun x s =>
    match x.body with
    | .chunkAck eng id _ fault => s.chunkAnswer eng id fault
    | _ => s)

/-! ### Completion (R307, R309, R310) -/

/-- The command's status and FADDR before its flag. -/
def CopyCmd.status (c : CopyCmd) : Nat × Word :=
  if c.cancel then (3, 0)
  else match c.fault with
    | some va => (2, va)
    | none => if c.stg.check != 0 && (c.dsums != c.sums || (c.stg.last && c.dsums != c.stg.cexp.toNat)) then (1, 0) else (0, 0)

/-- The home of a flag word may be written (R309): translated with W, in no fenced rectangle, in no copy region, and admitted where the
page is another job's. What is saved of a switched-out job's spindles stands for them. -/
def State.flagHome (s : State) (c : CopyCmd) : Option Nat :=
  match s.walkJob c.job c.stg.cflag with
  | none => none
  | some p =>
    let fa := p.fa c.stg.cflag
    let jb := s.job c.job
    let inside := jb.rect.has (faSp fa)
    let copies := match jb.saved.find? (fun v => v.sp == faSp fa) with | some v => v.state.copies | none => (s.spindle (faSp fa)).copies
    if !needW.ok p || (s.spindle (faSp fa)).fenced || (!inside && !s.windowOk (faSp fa) (keySp c.key) fa 8 1) ||
        (copies.any fun e => decide (fa < e.base + e.len) && decide (e.base < fa + 8)) then none
    else some fa

/-- A write into a published region of a saved spindle: its lines become dirty, to be sent when the job resumes (R149, R155). -/
def Spindle.dirtied (p : Spindle) (fa : Nat) : Spindle :=
  { p with pubs := p.pubs.map fun e =>
      if e.base ≤ fa && fa < e.base + e.len then { e.suspend with dirty := insertSorted e.suspend.dirty (fa / 64 * 64) } else e }

/-- A flag word set to a value and FULL: at its bank, or in the save area for a scratchpad word of a job that is switched out (R312). -/
def State.fillFlag (s : State) (c : CopyCmd) (fa : Nat) : State :=
  let jb := s.job c.job
  let put := fun (v : SavedSpindle) =>
    { v with scratch := v.scratch.writeN fa 8 c.stg.cfval.toNat, scratchFe := insertSorted v.scratchFe (wordOf fa),
             scratchPoison := v.scratchPoison.filter (· != wordOf fa), state := v.state.dirtied fa }
  let at_ := fun (v : SavedSpindle) => if v.sp == faSp fa then put v else v
  if jb.phase == .out && decide (faLocal fa < 0x10000) && jb.rect.has (faSp fa) then
    s.modJob c.job fun jb => { jb with saved := jb.saved.map at_ }
  else s.storeFill fa 8 c.stg.cfval.toNat (whoOf c.job c.thidx)

/-- The flag is filled, or changes the status. -/
def State.copyFlag (s : State) (c : CopyCmd) (st : Nat × Word) : (Nat × Word) × State :=
  if !c.stg.toFlag then (st, s)
  else
    match s.flagHome c with
    | some fa => (st, s.fillFlag c fa)
    | none => (if st.1 ≤ 1 then (2, c.stg.cflag) else st, s)

/-- The message of R298. -/
def copyMail (id st final : Nat) (faddr : Word) : List Word :=
  [BitVec.ofNat 64 (2 ^ 56 + st * 2 ^ 32 + id), BitVec.ofNat 64 final, if st = 2 then faddr else 0]

/-- A completion for the issuing context, which another thread may hold by now (R85, R312). -/
def State.mailCopy (s : State) (c : CopyCmd) (ws : List Word) : State :=
  let x := s.ctx c.key
  let mine := fun (x : Context) => x.st != .free && x.born == c.born && x.thidx == c.thidx
  let jb := s.job c.job
  if jb.phase == .out then
    if jb.saved.any (fun v => v.ctxs.any fun e => e.1 == c.key && mine e.2) then s.mailThread c.job c.thidx ws else s
  else if mine x && (s.spindle (keySp c.key)).job == some c.job then s.mailThread c.job c.thidx ws
  else s

/-- What a predecessor's end means for a command: it is cancelled with it, or goes on from its final check value. -/
def CopyCmd.follow (id st final : Nat) (x : CopyCmd) : CopyCmd :=
  if x.pred != id then x
  else if 2 ≤ st then { x with pred := 0, cancel := true }
  else { x with pred := 0, sums := final, dsums := final }

/-- The command leaves its queue, its record stays among the last 64 (R310). -/
def Engine.finish (g : Engine) (c : CopyCmd) (st final : Nat) : Engine :=
  let cmds := (g.cmds.filter fun (x : CopyCmd) => x.id != c.id).map (CopyCmd.follow c.id st final)
  let r : CopyDone := { id := c.id, job := c.job, status := st, final := final }
  { g with cmds := cmds, doneRecs := (g.doneRecs ++ [r]).drop (g.doneRecs.length + 1 - 64) }

/-- A context waits with PARK 8 for an entry of a class queue of engine `e`, which has one free (R22, R303). -/
def State.waitsSlot (s : State) (e cls k : Nat) (x : Context) : Bool :=
  x.st == .parked && x.park == 8 && x.staging.cls == cls && decide ((s.engine e).inClass cls < 32) &&
    (if x.staging.chain then [x.chain.eng] else dieEngines (keySp k)).contains e

/-- A finished command completes: its flag, its message, its record, its successor, a free entry. -/
def State.copyEnd (s : State) (e : Nat) (c : CopyCmd) : State :=
  let (st, t) := s.copyFlag c c.status
  let final := if c.stg.check != 0 && st.1 ≤ 1 then c.dsums else 0
  let t := if c.stg.toMailbox && !c.mute then t.mailCopy c (copyMail c.id st.1 final st.2) else t
  let t := t.modEng e fun g => g.finish c st.1 final
  let link := fun (x : Context) =>
    if x.chain.id == c.id && x.born == c.born then { x with chain := { x.chain with final := some final, failed := decide (2 ≤ st.1) } } else x
  let t :=
    if (s.job c.job).phase == .out then
      t.modJob c.job fun jb => { jb with saved := jb.saved.map fun v => { v with ctxs := v.ctxs.map fun x => (x.1, link x.2) } }
    else t.modCtx c.key link
  (t.ctxs.filter fun x => t.waitsSlot e c.cls x.1 x.2).foldl (fun t x => t.wakeAgain x.1) t

/-- A command that has ended: nothing of it is left to send or in flight. -/
def Engine.finished (g : Engine) : Option CopyCmd :=
  g.cmds.find? fun c => !c.more && !c.flying && c.part.isNone && !c.emptying && (c.cancel || c.pred == 0)

def execCopyComplete (eng : Nat) (s : State) : Out :=
  .next (match (s.engine eng).finished with | some c => s.copyEnd eng c | none => s)

/-! ### The unraveller -/

/-- The unraveller starts the compensation of the latest pending entry (R324). -/
def execUnravelStep (s : State) : Out := .next (if s.unrav.running.isSome then s else s.unravel)

end Sys2Proof.Machine
end

