-- ==== Sys2Proof/Machine/Crypto.lean ====
section
/-!
DEFINITION. SHAKE256 (FIPS 202), and pure Ed448 signatures (RFC 8032): firmware images are verified with them (R386), attestation reports
hashed and signed (R387).
-/
namespace Sys2Proof.Machine

/-! ### SHAKE256 -/

/-- A lane of 64 bits turned left. -/
def turnLane (k v : Nat) : Nat := let w := v <<< (k % 64); w % 2 ^ 64 ||| w >>> 64

/-- The state of FIPS 202's register behind the round constants after `n` steps from 1. -/
def rcRegister : Nat → Nat
  | 0 => 1
  | n + 1 =>
    let r := 2 * rcRegister n
    if 256 ≤ r then r ^^^ 0x171 else r
/-- The constant of round `k`: bit 2^j - 1 is the register's output at step j + 7k, for j from 0 to 6. -/
def roundWord (k : Nat) : Nat := ((List.range 7).map fun j => rcRegister (7 * k + j) % 2 * 2 ^ (2 ^ j - 1)).foldl (· + ·) 0

/-- Lanes stand in a list, lane (x, y) at x + 5y. The steps rho and pi move the lanes apart from (0, 0) along one closed walk; this is the
walk's place after `n` moves. -/
def walkPlace : Nat → Nat
  | 0 => 1
  | n + 1 => let p := walkPlace n; p / 5 + 5 * ((2 * (p % 5) + 3 * (p / 5)) % 5)

/-- Theta: every lane takes the parity of the column to its left and, turned by one, of the column to its right. -/
def mixColumns (l : List Nat) : List Nat :=
  let parity := fun (x : Nat) => (List.range 5).foldl (fun p y => p ^^^ l.getD (x % 5 + 5 * y) 0) 0
  l.mapIdx fun i v => v ^^^ parity (i + 4) ^^^ turnLane 1 (parity (i + 1))

/-- Rho and pi: the lane at each place of the walk goes to the next one, turned by the triangular number of its move. -/
def walkLanes (l : List Nat) : List Nat :=
  (List.range 24).foldl (fun t n => t.set (walkPlace (n + 1)) (turnLane ((n + 1) * (n + 2) / 2) (l.getD (walkPlace n) 0))) l

/-- Chi on one row of five lanes. -/
def bendRow (r : List Nat) : List Nat :=
  r.mapIdx fun x v => v ^^^ (r.getD ((x + 2) % 5) 0 &&& (r.getD ((x + 1) % 5) 0 ^^^ (2 ^ 64 - 1)))

/-- A round: theta, rho and pi, chi row by row, iota. -/
def keccakRound (l : List Nat) (k : Nat) : List Nat :=
  let m := walkLanes (mixColumns l)
  match (List.range 5).flatMap fun y => bendRow ((m.drop (5 * y)).take 5) with
  | v :: t => (v ^^^ roundWord k) :: t
  | [] => []

/-- Keccak-f[1600]. -/
def keccak (l : List Nat) : List Nat := (List.range 24).foldl keccakRound l

/-- The bytes of a block that SHAKE256 takes and gives at a time. -/
def spongeRate : Nat := 136

/-- A message with its suffix 1111, padded with 10*1 to whole blocks. -/
def padded (m : List Nat) : List Nat :=
  let z := spongeRate - 1 - m.length % spongeRate
  m ++ (if z = 0 then [0x9F] else 0x1F :: List.replicate (z - 1) 0 ++ [0x80])

/-- `n` blocks taken in, each joined to the first lanes. -/
def soak : Nat → List Nat → List Nat → List Nat
  | 0, l, _ => l
  | n + 1, l, m => soak n (keccak (l.mapIdx fun i v => if i < spongeRate / 8 then v ^^^ ofLeBytes ((m.drop (8 * i)).take 8) else v)) (m.drop spongeRate)

/-- `n` blocks given out. -/
def wring : Nat → List Nat → List Nat
  | 0, _ => []
  | n + 1, l => (l.take (spongeRate / 8)).flatMap (leBytes · 8) ++ wring n (keccak l)

/-- `n` bytes of SHAKE256 output. -/
def shake256 (m : List Nat) (n : Nat) : List Nat :=
  (wring (n / spongeRate + 1) (soak (m.length / spongeRate + 1) (List.replicate 25 0) (padded m))).take n

/-! ### The curve -/

def edP : Nat := 2 ^ 448 - 2 ^ 224 - 1
/-- d = -39081. -/
def edD : Nat := edP - 39081
/-- The order of the base point. -/
def edL : Nat := 2 ^ 446 - 0x8335dc163bb124b65129c96fde933d8d723a70aadc873d6d54a7bb0d
def edBx : Nat := 224580040295924300187604334099896036246789641632564134246125461686950415467406032909029192869357953282578032075146446173674602635247710
def edBy : Nat := 298819210078481492676017930443930673437544040154080242095928241372331506189835876003536878655418784733982303233503462500531545062832660

/-- A power modulo p of an exponent of at most `f` bits. -/
def powP : Nat → Nat → Nat → Nat
  | 0, _, _ => 1
  | f + 1, b, e => if e % 2 = 1 then b * powP f (b * b % edP) (e / 2) % edP else powP f (b * b % edP) (e / 2)

/-- A point in projective coordinates. -/
structure EdPoint where
  x : Nat
  y : Nat
  z : Nat
  deriving DecidableEq, Repr

def EdPoint.zero : EdPoint := ⟨0, 1, 1⟩

def EdPoint.add (p q : EdPoint) : EdPoint :=
  let a := p.z * q.z % edP
  let b := a * a % edP
  let c := p.x * q.x % edP
  let d := p.y * q.y % edP
  let e := edD * (c * d % edP) % edP
  let f := (b + edP - e) % edP
  let g := (b + e) % edP
  let h := (p.x + p.y) * (q.x + q.y) % edP
  ⟨a * f % edP * ((h + 2 * edP - c - d) % edP) % edP, a * g % edP * ((d + edP - c) % edP) % edP, f * g % edP⟩

/-- A multiple of a point by a number of at most `f` bits. -/
def EdPoint.mul : Nat → EdPoint → Nat → EdPoint
  | 0, _, _ => .zero
  | f + 1, p, n => let q := EdPoint.mul f (p.add p) (n / 2); if n % 2 = 1 then q.add p else q

def EdPoint.same (p q : EdPoint) : Bool := p.x * q.z % edP == q.x * p.z % edP && p.y * q.z % edP == q.y * p.z % edP

/-- A point from its 57 bytes; none where they encode none. -/
def edDecode (bs : List Nat) : Option EdPoint :=
  let n := ofLeBytes bs
  let sign := n / 2 ^ 455
  let y := n % 2 ^ 455
  if edP ≤ y then none
  else
    let u := (y * y + edP - 1) % edP
    let v := (edD * (y * y % edP) + edP - 1) % edP
    let u3v := u * u % edP * u % edP * v % edP
    let x := u3v * powP 448 (u3v * (u * u % edP) % edP * (v * v % edP) % edP) ((edP - 3) / 4) % edP
    if v * (x * x % edP) % edP != u then none
    else if x = 0 && sign = 1 then none
    else some ⟨if x % 2 = sign then x else edP - x, y, 1⟩

/-- The 57 bytes of a point: y, and the lowest bit of x above it. -/
def EdPoint.encode (p : EdPoint) : List Nat :=
  let zi := powP 448 p.z (edP - 2)
  leBytes (p.y * zi % edP + p.x * zi % edP % 2 * 2 ^ 455) 57

/-- RFC 8032's dom4 without a context. -/
def edDom : List Nat := [0x53, 0x69, 0x67, 0x45, 0x64, 0x34, 0x34, 0x38, 0, 0]
def edBase : EdPoint := ⟨edBx, edBy, 1⟩

/-- The secret scalar of a private key of 57 bytes: its hash's first half, pruned. -/
def edScalar (seed : List Nat) : Nat := ofLeBytes ((shake256 seed 114).take 57) % 2 ^ 447 / 4 * 4 + 2 ^ 447
/-- The public key of a private key. -/
def ed448Public (seed : List Nat) : List Nat := (EdPoint.mul 448 edBase (edScalar seed)).encode
/-- The signature of a message by a private key: pure Ed448 with an empty context. -/
def ed448Sign (seed msg : List Nat) : List Nat :=
  let r := ofLeBytes (shake256 (edDom ++ (shake256 seed 114).drop 57 ++ msg) 114) % edL
  let rp := (EdPoint.mul 446 edBase r).encode
  let k := ofLeBytes (shake256 (edDom ++ rp ++ ed448Public seed ++ msg) 114) % edL
  rp ++ leBytes ((r + k * edScalar seed) % edL) 57

/-- The signature is valid for the message under the key: pure Ed448 with an empty context. -/
def ed448Verify (key sig msg : List Nat) : Bool :=
  let r := sig.take 57
  let n := ofLeBytes (sig.drop 57)
  match edDecode key, edDecode r with
  | some a, some rp =>
    let k := ofLeBytes (shake256 (edDom ++ r ++ key ++ msg) 114) % edL
    decide (n < edL) && (EdPoint.mul 446 edBase n).same (rp.add (a.mul 446 k))
  | _, _ => false

end Sys2Proof.Machine
end

