-- ==== Sys2Proof/Machine/Front.lean ====
section
/-!
DEFINITION. Pre-emption (R339-R342) and the front (R336-R338): the notice and the holds, the tokens, what is withdrawn (R130, R260), what
is saved, and resumption; with the dispatcher's watch over jobs in these stages.
-/
namespace Sys2Proof.Machine
open Sys2Proof.Config

/-! ### The contexts of a job -/

/-- The job's spindles that are not fenced. -/
def State.liveSpindles (s : State) (j : Nat) : List Nat := (s.job j).rect.spindles.filter fun sp => (s.spindle sp).job == some j

/-- Every context of the job changes by `f`. -/
def State.mapJobCtx (s : State) (j : Nat) (f : Context → Context) : State :=
  { s with ctxs := s.ctxs.map fun e => if e.2.st != .free && s.jobNoAt (keySp e.1) == j && (s.spindle (keySp e.1)).job.isSome then (e.1, f e.2) else e }

/-- A context of the job satisfies `q`. -/
def State.anyJobCtx (s : State) (j : Nat) (q : Context → Bool) : Bool :=
  s.ctxs.any fun e => e.2.st != .free && (s.spindle (keySp e.1)).job == some j && q e.2

/-- A context whose wait was withdrawn issues its unit again from its PC (R130, R260, R342). -/
def Context.reissue (c : Context) (now : Nat) : Context := { (c.woken now) with again := false, got := [], kont := .advance }

/-! ### Notice and holds (R339) -/

/-- A pre-emption of a running job begins. -/
def State.preempt (s : State) (j : Nat) : State :=
  if (s.job j).phase != .running then s
  else
    let w := (s.queue (s.job j).queue).pwin
    s.modJob j fun jb => { jb with phase := .preempting, preemptAt := s.now, pwin := 1750 * (if w = 0 then 100 else w), windowOver := false }

/-- Contexts that are parked, frozen or departing are held from then on. -/
def State.holdParked (s : State) (j : Nat) : State :=
  s.mapJobCtx j fun c => if c.st == .ready then c else { c with held := true }

/-- The pre-emption window ends: every context is held after its current unit. -/
def State.windowEnd (s : State) (j : Nat) : State :=
  if (s.job j).phase == .preempting && decide ((s.job j).preemptAt + (s.job j).pwin ≤ s.now) then
    (s.modJob j fun jb => { jb with windowOver := true }).mapJobCtx j fun c => { c with held := true }
  else s
def execPreemptWindowExpiry (job : Nat) (s : State) : Out := .next (s.windowEnd job)

/-! ### What is withdrawn -/

/-- The issuer of a withdrawn loom command; the running instruction leaves its entry and next step in LPROG. -/
def State.withdrawLoom (s : State) (cl : Nat) (running : Bool) (c : LoomCmd) : State :=
  let mid := running && (c.begun || 0 < c.entry)
  let s := if mid && !c.begun then s.modCl cl (c.clear c.entry) else s
  s.modCtx c.key fun x => { (x.reissue s.now) with lprog := if mid then lprogAt c.entry c.step else x.lprog }

/-- The looms give up the job's commands. -/
def State.stopLooms (s : State) (j : Nat) : State :=
  let mine := fun (c : LoomCmd) => c.job == j
  s.clusters.foldl (fun (s : State) (e : Nat × Cluster) =>
    let s := match e.2.queue with
      | c :: _ => if mine c then s.withdrawLoom e.1 true c else s
      | [] => s
    let s := ((e.2.queue.drop 1 ++ e.2.enter).filter mine).foldl (fun (s : State) c => s.withdrawLoom e.1 false c) s
    s.modCl e.1 fun x => { x with queue := x.queue.filter (fun c => !mine c), enter := x.enter.filter fun c => !mine c }) s

/-- Walks asked by the job's contexts are given up, and the waits that a copy engine or a batch would end are begun again. -/
def State.stopWaits (s : State) (j : Nat) : State :=
  let mine := fun (k : Nat) => (s.spindle (keySp k)).job == some j
  let ks := s.clusters.flatMap fun e => (e.2.walks.filter fun w => mine w.key).map (·.key)
  let t := { s with clusters := s.clusters.map fun (e : Nat × Cluster) => (e.1, { e.2 with walks := e.2.walks.filter fun w => !mine w.key }) }
  let s := ks.foldl (fun (s : State) k => s.modCtx k fun c => if c.st == .parked then c.reissue s.now else c) t
  s.mapJobCtx j fun c =>
    if c.st == .parked && (c.park == 8 || (c.park == 2 && c.kont == .reissue && c.tok == 0 && c.waitToks.isEmpty)) then c.reissue s.now else c

/-- Waiter entries of the job's contexts are withdrawn unserved at every bank (R130); one of a REL operation is asked again when the
job resumes. -/
def State.withdrawWaiters (s : State) (j : Nat) : State :=
  let mine := fun (w : Waiter) => w.who / 2 ^ 18 == j
  let ws := s.spindles.flatMap fun e => e.2.waiters.filter mine
  let s := { s with spindles := s.spindles.map fun e => (e.1, { e.2 with waiters := e.2.waiters.filter fun w => !mine w }) }
  ws.foldl (fun s w =>
    let k := keyOf w.sp w.ctx
    let c := s.ctx k
    if c.st == .parked && c.tok == w.tok then s.modCtx k fun c => c.reissue s.now
    else
      match c.rels.find? fun o => o.tok == w.tok with
      | some o =>
        let m : Msg := { id := s.nextMsg, cls := .request, src := w.sp, dst := faSp w.fa, job := j, ctx := w.ctx, tok := w.tok, va := o.va,
                         who := whoOf j c.thidx, logged := true, postFront := true, body := .sync w.fa w.n w.op w.data }
        { s with msgs := s.msgs ++ [m], nextMsg := s.nextMsg + 1 }
      | none => s) s

/-! ### The front (R336-R338) -/

def meshClasses : List MeshClass := [.request, .reply, .migrate, .update]

/-- A node starts: it sends a token to every node, in every class. -/
def State.startNode (s : State) (j sp : Nat) : State :=
  if (s.spindle sp).frontOn then s
  else
    let s := s.modSp sp fun p => { p with frontOn := true, frontIn := [] }
    (s.liveSpindles j).foldl (fun s d => meshClasses.foldl (fun s c =>
      { s with msgs := s.msgs ++ [{ id := s.nextMsg, cls := c, src := sp, dst := d, job := j, body := .token }], nextMsg := s.nextMsg + 1 }) s) s

/-- A spindle's tables where job `j` is switched out: entries that other jobs publish to it, and copies of what it publishes. -/
def Spindle.suspendFor (j : Nat) (own : Bool) (p : Spindle) : Spindle :=
  if own then p
  else { p with pubs := p.pubs.map (fun x => if x.subJob == j then x.suspend else x),
                copies := p.copies.map fun x => if x.pubJob == j then { x with susp := true } else x }
/-- Subscriptions between the job and others suspend, those in the saved tables of jobs that are switched out too (R155, R339). -/
def State.suspendSubs (s : State) (j : Nat) : State :=
  { s with spindles := s.spindles.map (fun e => (e.1, e.2.suspendFor j (e.2.job == some j))),
           jobs := s.jobs.map fun e => (e.1, e.2.mapSaved fun _ p => p.suspendFor j (e.1 == j)) }

/-- Every context is held, the engines stop, subscriptions suspend, and the dispatcher starts the front at every spindle. -/
def State.startFront (s : State) (j : Nat) : State :=
  let s := s.modJob j fun jb => { jb with phase := .frontPhase }
  let s := ((s.stopLooms j).stopWaits j).suspendSubs j
  (s.liveSpindles j).foldl (fun s sp => s.startNode j sp) s

/-- A token arrives on an input: the node starts if it has not, and later messages of the input are held. -/
def State.tokenIn (s : State) (m : Msg) : State :=
  if (s.spindle m.dst).job != some m.job then s
  else (s.startNode m.job m.dst).modSp m.dst fun p => { p with frontIn := (m.src, m.cls.num) :: p.frontIn }
def execFrontToken (m : Nat) (s : State) : Out :=
  .next (s.onArrive m (fun b => match b with | .token => true | _ => false) fun x s => s.tokenIn x)

/-- The front of every node of the job is complete: a fenced source counts as having sent its tokens. -/
def State.frontDone (s : State) (j : Nat) : Bool := (s.liveSpindles j).all (s.frontAt j)

/-- Something of the job is in flight: a message that no log holds, a batch for one of its copies, or a batch that is open. -/
def State.inFlight (s : State) (j : Nat) : Bool :=
  (s.msgs.any fun m => (m.job == j && !m.logged) ||
    ((match m.body with | .batch .. => true | _ => false) && !m.logged && (s.spindle m.dst).job == some j)) ||
  s.spindles.any fun e => e.2.job == some j && e.2.pubs.any fun x => !x.open_.isEmpty

/-! ### What is saved of the scratchpad (R341) -/

/-- The ranges of a live-table entry, in bytes: FIRST and LAST granule, empty where FIRST > LAST. -/
def liveRanges (e : Nat) : List (Nat × Nat) :=
  (List.range 4).filterMap fun i =>
    let r := bitsOf e (16 * i + 15) (16 * i)
    if r / 256 ≤ r % 256 then some (256 * (r / 256), 256 * (r % 256) + 256) else none

/-- The entry of a checkpoint in the job's live table. -/
def State.liveEntry (s : State) (j k : Nat) : Option Nat :=
  let va := (s.job j).live + BitVec.ofNat 64 (8 * k)
  match s.walkJob j va with
  | some p => if p.r then some (s.pageRead p.akind (p.fa va) 8) else none
  | none => none

/-- The byte ranges of a spindle's scratchpad that pre-emption saves. -/
def State.saveRanges (s : State) (j sp : Nat) : List (Nat × Nat) :=
  let cs := (List.range 16).map fun c => s.ctx (keyOf sp c)
  let cs := cs.filter fun c => c.st != .free
  let reached := cs.filterMap (·.ckHeld)
  let ents := reached.map fun k => s.liveEntry j k
  if (s.job j).live = 0 || !(cs.all fun c => c.ckHeld.isSome || (c.handler && c.park == 3 && c.waitsOn mailboxNo)) || ents.any (·.isNone) then
    [(0, 0x10000)]
  else
    ents.flatMap (fun e => liveRanges (e.getD 0)) ++
    (s.spindle sp).copies.map (fun e => (faLocal e.base, faLocal e.base + e.len)) ++
    (s.spindle sp).pubs.map fun e => (faLocal e.base, faLocal e.base + e.len)

/-- A fabric address lies in saved ranges of a spindle's scratchpad. -/
def inRanges (sp : Nat) (rs : List (Nat × Nat)) (fa : Nat) : Bool :=
  faSp fa == sp && rs.any fun r => decide (r.1 ≤ faLocal fa) && decide (faLocal fa < r.2)

/-! ### Switching out (R340) -/

/-- Cycle counts of a saved context are kept as distances: those of SLEEP and RECVT until the context is released. -/
def Context.freeze (c : Context) (now : Nat) : Context :=
  { c with wakeAt := c.wakeAt.map (· - now), sentAt := now - c.sentAt, rels := c.rels.map fun o => { o with sentAt := now - o.sentAt } }
def Context.unfreeze (c : Context) (now : Nat) : Context :=
  { c with sentAt := now - c.sentAt, rels := c.rels.map fun o => { o with sentAt := now - o.sentAt }, readyAt := now }
/-- A held context is released when its job resumes. -/
def Context.released (c : Context) (now : Nat) : Context := { c with held := false, ckHeld := none, wakeAt := c.wakeAt.map (· + now) }

/-- One spindle saved. Waiters of other jobs at its bank stay there (R130 withdraws the job's own). -/
def State.saveSpindle (s : State) (j sp : Nat) : SavedSpindle :=
  let rs := s.saveRanges j sp
  { sp := sp, state := { s.spindle sp with waiters := [] },
    ctxs := (s.ctxs.filter fun e => keySp e.1 == sp).map fun e => (e.1, e.2.freeze s.now),
    scratch := s.mem.filter fun c => inRanges sp rs c.1,
    scratchFe := s.fe.filter (inRanges sp rs), scratchPoison := s.poison.filter (inRanges sp rs) }

/-- The base of the system region where no launch holds the spindle. -/
def noSysbase : Nat := 0x4000000

/-- A spindle without a job: what belongs to the spindle itself stays. -/
def Spindle.release (p : Spindle) : Spindle :=
  { winA := p.winA, winB := p.winB, primary := p.primary, secondary := p.secondary, sysbase := noSysbase, retired := p.retired,
    fenced := p.fenced, issuedAt := p.issuedAt, gust := p.gust, waiters := p.waiters, haltCycle := p.haltCycle, stopSent := p.stopSent,
    stopRcvd := p.stopRcvd, stopJob := p.stopJob, stopChans := p.stopChans, last := p.last }

/-- Its contexts become FREE. -/
def State.clearCtxs (s : State) (sp : Nat) : State :=
  { s with ctxs := s.ctxs.map fun e => if keySp e.1 == sp then (e.1, freeCtx e.2) else e }

/-- The state LQRY reports of a launch's record changes (R375). -/
def State.slotState (s : State) (j st : Nat) : State :=
  let jb := s.job j
  s.modQueue jb.queue fun x => match Table.find x.slots jb.slot with
    | some r => if r.ser == jb.ser then { x with slots := Table.set x.slots jb.slot { r with state := st } } else x
    | none => x

/-- The job is switched out: its state is saved, and its rectangle is free. -/
def State.switchOut (s : State) (j : Nat) : State :=
  let s := (s.stopWaits j).withdrawWaiters j
  let sps := s.liveSpindles j
  let cls := (s.job j).rect.wholeClusters
  let saved := sps.map (s.saveSpindle j)
  let sc := cls.map fun c => (c, s.cluster c)
  let s := s.suspendSubs j
  let s := { s with spindles := s.spindles.map fun (e : Nat × Spindle) => if sps.contains e.1 then (e.1, e.2.release) else e }
  let s := sps.foldl State.clearCtxs s
  let s := cls.foldl (fun s c => s.modCl c fun x => { x with pend := [], held := [], own := [], takers := [], acc := [] }) s
  let s := (s.slotState j 4).modJob j fun jb => { jb with phase := .out, saved := saved, savedClusters := sc }
  { s with disp := { s.disp with preempted := s.disp.preempted ++ [j] } }

/-- JOB_SWITCH_OUT's condition: the front is complete everywhere and nothing of the job is in flight. -/
def State.canSwitchOut (s : State) (j : Nat) : Bool := (s.job j).phase == .frontPhase && s.frontDone j && !s.inFlight j
def execJobSwitchOut (job : Nat) (s : State) : Out := .next (if s.canSwitchOut job then s.switchOut job else s)

/-! ### Resumption (R342) -/

/-- A spindle restored: what belongs to the spindle itself is as it stands now, its TLB and its instruction cache are empty. -/
def Spindle.restore (p : Spindle) (v : Spindle) : Spindle :=
  { v with winA := p.winA, winB := p.winB, issuedAt := p.issuedAt, gust := p.gust, fenced := p.fenced, retired := p.retired, tlb := [],
           icache := [], frontOn := false, frontIn := [], waiters := p.waiters }

/-- One saved spindle restored, with its scratchpad: every word not saved is zero and EMPTY. -/
def State.restoreSpindle (s : State) (sv : SavedSpindle) : State :=
  let s := s.modSp sv.sp fun p => p.restore sv.state
  let s := sv.ctxs.foldl (fun s e => s.setCtx e.1 (e.2.unfreeze s.now)) s
  let s := s.scrub (faOf sv.sp 0) (faOf sv.sp 0x10000)
  { s with mem := sv.scratch.foldl (fun (m : Memory) (c : Host.Cell) => m.write c.1 c.2) s.mem,
           fe := sv.scratchFe.foldl insertSorted s.fe, poison := sv.scratchPoison.foldl insertSorted s.poison }

/-- A suspended entry sends its dirty lines in ascending order with full masks, and forwards again (R155). -/
def State.unsuspend (s : State) (sp : Nat) (e : PubEntry) : State :=
  let s := s.modSp sp fun p => { p with pubs := p.pubs.map fun x => if x.base == e.base && x.copyBase == e.copyBase then { x with susp := false, dirty := [] } else x }
  e.dirty.foldl (fun s l => s.sendBatch sp { e with susp := false } l (2 ^ 64 - 1) 0xFF s.now [] false) s

/-- Subscriptions whose other end's job is not switched out go on: copies of what the job publishes, in the saved tables too, and
entries between the job and others (R155). -/
def State.resumeSubs (s : State) (j : Nat) : State :=
  let on := fun (p : Spindle) => { p with copies := p.copies.map fun (x : CopyEntry) => if x.pubJob == j then { x with susp := false } else x }
  let s : State := { s with
    spindles := s.spindles.map fun (e : Nat × Spindle) => (e.1, on e.2), jobs := s.jobs.map fun (e : Nat × Job) => (e.1, e.2.mapSaved fun _ p => on p) }
  s.spindles.foldl (fun (s : State) (e : Nat × Spindle) =>
    (e.2.pubs.filter fun (x : PubEntry) => x.susp && (x.subJob == j || e.2.job == some j) && (s.job x.subJob).phase != .out).foldl
      (fun (s : State) x => s.unsuspend e.1 x) s) s

/-- The job is restored on its rectangle and its front logs go on their way; its contexts are still held. -/
def State.restoreJob (s : State) (j : Nat) : State :=
  let jb := s.job j
  let s := jb.saved.foldl State.restoreSpindle s
  let s := jb.savedClusters.foldl (fun s e => s.modCl e.1 fun x =>
    { x with pend := e.2.pend, held := e.2.held, own := e.2.own, takers := e.2.takers, acc := e.2.acc }) s
  let s := (s.slotState j 3).modJob j fun jb => { jb with phase := .resuming, saved := [], savedClusters := [] }
  let s := { s with msgs := s.msgs.map fun (m : Msg) => if m.job == j && m.logged then { m with logged := false } else m,
                    disp := { s.disp with preempted := s.disp.preempted.erase j, returning := s.disp.returning.filter fun r => r.1 != j } }
  s.resumeSubs j

/-- Every thread of a job is killed, handler contexts and a compensation apart (R377). -/
def State.killJob (s : State) (j : Nat) : State :=
  let s := s.modJob j fun jb => { jb with killed := true }
  let stays := fun (m : Migrant) => m.image.thidx == compThidx
  let lost := (s.liveSpindles j).flatMap fun sp => ((s.spindle sp).migBuf ++ (s.spindle sp).migRes).filter fun m => !stays m
  let s := (s.liveSpindles j).foldl (fun (s : State) sp =>
    s.modSp sp fun p => { p with migBuf := p.migBuf.filter stays, migRes := p.migRes.filter stays }.refill) s
  let s := { s with msgs := s.msgs.filter fun m => !(m.job == j && (match m.body with | .migrate _ => true | _ => false)) }
  let s := lost.foldl (fun (s : State) m =>
    (s.abandonOwned j m.image.thidx ((s.job j).rect.spindle (m.image.thidx / 16))).modJob j fun jb =>
      { jb with exited := insertSorted jb.exited m.image.thidx }) s
  let ks := (s.ctxs.filter fun e => e.2.st != .free && (s.spindle (keySp e.1)).job == some j && !e.2.handler && e.2.thidx != compThidx).map (·.1)
  -- what waits on behalf of the killed contexts ends with them
  let s := s.stopLooms j
  let s := { s with clusters := s.clusters.map fun (e : Nat × Cluster) =>
    (e.1, { e.2 with walks := e.2.walks.filter (fun w => !ks.contains w.key), takers := e.2.takers.filter fun k => !ks.contains k }) }
  let s := { s with spindles := s.spindles.map fun (e : Nat × Spindle) =>
    (e.1, { e.2 with waiters := e.2.waiters.filter fun w => !ks.contains (keyOf w.sp w.ctx) }) }
  (ks.foldl (fun (s : State) k => s.kill k 0) s).freeHandlers j

/-- The inbound rings' messages join the mailboxes in the order in which they came (R143). -/
def State.emptyRings (s : State) (j : Nat) : State :=
  (s.job j).rings.foldl (fun s e => e.2.foldl (fun s w => s.mailThread j w.1 w.2) s) (s.modJob j fun jb => { jb with rings := [] })

/-- The front logs are delivered: what the inbound rings hold follows, every held context is released, a held stop takes effect, a
killed job's contexts end (R342). -/
def State.release (s : State) (j : Nat) : State :=
  let stop := (s.job j).stopPending
  let s := (s.modJob j fun jb => { jb with phase := .running, stopPending := false }).emptyRings j
  let s := s.mapJobCtx j fun c => c.released s.now
  let s := if stop then s.haltJob j else s
  if (s.job j).killed then s.killJob j else s

/-! ### The dispatcher's watch -/

/-- Something of the job is half done: an access, a chunk, a merge or a loom step of which words are performed (R165, R260, R308, R312). -/
def State.midway (s : State) (j : Nat) : Bool :=
  s.anyJobCtx j (·.torn.isSome) || s.engines.any (fun e => e.2.cmds.any fun c => c.job == j && c.part.isSome) ||
  !(s.job j).merging.isEmpty || s.clusters.any fun e => match e.2.queue with | c :: _ => c.job == j && !c.seen.isEmpty | [] => false

/-- A job in a stage of pre-emption moves on where its stage is done. -/
def State.watchJob (s : State) (j : Nat) : State :=
  if (s.job j).ended then s else
  match (s.job j).phase with
  | .preempting =>
    let s := s.holdParked j
    if s.midUnit && s.myJobNo == j || s.anyJobCtx j (fun c => !c.held) || s.midway j then s else s.startFront j
  | .resuming => if s.msgs.any fun m => m.job == j && m.postFront then s else s.release j
  | _ => s

/-- The messages that a die bridge loses are gone; what they asked for or answered is outstanding (R329). -/
def State.loseMsgs (s : State) : State :=
  if s.upsets.isEmpty then s
  else
    let lost := fun (m : Msg) => s.upsets.contains (.lost m.id)
    { s with msgs := s.msgs.filter (fun m => !lost m),
             upsets := s.upsets.filter (fun u => match u with | .lost id => !(s.msgs.any fun m => m.id == id) | _ => true) ++
               (s.msgs.filter lost).map .gone }

/-- Every job that is not simply running, what is lost on the way, and the rounds of the engines. -/
def State.watch (s : State) : State :=
  let s := s.loseMsgs.passQueues
  (s.jobs.filter fun (e : Nat × Job) => e.2.phase != .running).foldl (fun s (e : Nat × Job) => s.watchJob e.1) s

end Sys2Proof.Machine
end

