-- ==== Sys2Proof/Machine/Queues.lean ====
section
/-!
DEFINITION. Work queues and records (R354-R363): rings, the queue's address space, the fields of a record, taking and checking one,
dependency words, completion words and MSI-X (R364, R365).
-/
namespace Sys2Proof.Machine
open Sys2Proof.Config

/-! ### The state of the package -/

/-- The package is READY and powered (R378, R381). -/
def State.running (s : State) : Bool := s.trebex.stage == 6 && s.trebex.pstate == 0
/-- CXL.mem is served: READY, in RUN or STANDBY. -/
def State.hostServed (s : State) : Bool := s.trebex.stage == 6 && s.trebex.pstate != 2 && !s.trebex.bootFault

/-! ### Rings (R354) -/

/-- Fabric address of record `r` of queue `q`. -/
def ringFa (q r : Nat) : Nat := faOf (spAt (q / 16 % 32) (q / 16 / 32)) (0x3FF0000 + 4096 * (q % 16) + 64 * r)
/-- The dispatcher and the host port as the writers of a store. -/
def unitWho : Nat := 2 ^ 60

/-- MODE of a queue (R355). -/
def modeHOST : Nat := 1
def modeDEVICE : Nat := 2
def modeDEAD : Nat := 3

/-! ### The queue's address space (R361) -/

/-- The fabric address and kind of a virtual address in the space of a level-1 table, where no rectangle test applies. -/
def State.rootPage (s : State) (root : Nat) (va : Word) (n : Need) : Option (Nat × Nat) :=
  match s.walkRoot true root va with
  | some p => if n.ok p then some (p.fa va, p.akind) else none
  | none => none

/-- An 8-byte word read as plain data. -/
def State.rootWord (s : State) (root : Nat) (va : Word) : Option Word :=
  if va.toNat % 8 != 0 then none else (s.rootPage root va needR).map fun p => BitVec.ofNat 64 (s.pageRead p.2 p.1 8)
/-- A word filled by one bank write: 8 bytes, FULL, calling Fill; nothing where it does not translate. -/
def State.rootFill (s : State) (root : Nat) (va v : Word) : State :=
  match s.rootPage root va needW with
  | some (fa, _) => s.storeFill fa 8 v.toNat unitWho
  | none => s

/-! ### A record's fields (R358-R360) -/

def Held.word (h : Held) (i : Nat) : Word := if x : i < 8 then h.ws[i] else 0
def Held.extWord (h : Held) (i : Nat) : Word := if x : i < 16 then h.ext[i] else 0
def Held.hd (h : Held) (hi lo : Nat) : Nat := bitsOf (h.word 0).toNat hi lo
def Held.prio (h : Held) : Nat := h.hd 63 61
def Held.place (h : Held) : Nat := h.hd 56 55
def Held.runReg (h : Held) : Bool := h.hd 54 54 == 1
def Held.msix (h : Held) : Bool := h.hd 53 53 == 1
def Held.cpol (h : Held) : Nat := h.hd 52 51
def Held.w (h : Held) : Nat := h.hd 36 30 + 1
def Held.h (h : Held) : Nat := h.hd 29 23 + 1
def Held.cprof (h : Held) : Nat := h.hd 21 0
def Held.dep (h : Held) (i : Nat) : Word := h.word (4 + i)
def Held.compl (h : Held) : Word := h.word 6
def Held.chtab (h : Held) : Word := h.extWord 0
def Held.grtab (h : Held) : Word := h.extWord 1
def Held.live (h : Held) : Word := h.extWord 2
def Held.handler (h : Held) : Word := h.extWord 3
def Held.treeTab (h : Held) : Word := h.extWord 4
def Held.sizes (h : Held) (hi lo : Nat) : Nat := bitsOf (h.extWord 5).toNat hi lo
def Held.placew (h : Held) : Word := h.extWord 6
def Held.gow (h : Held) : Word := h.extWord 7
def Held.trace (h : Held) : Word := h.extWord 8
/-- The rectangle must be made of whole clusters (R169, R362). -/
def Held.fours (h : Held) : Bool := h.cpol == 1 || h.treeTab != 0

/-! ### Placement (R367) -/

/-- A rectangle that lies on the package and, with sides that are multiples of 4, at such a corner. -/
def Rect.shapeOk (r : Rect) : Bool :=
  decide (0 < r.w) && decide (0 < r.h) && decide (r.x0 + r.w ≤ meshW) && decide (r.y0 + r.h ≤ meshH) &&
  !(r.w % 4 == 0 && r.h % 4 == 0 && (r.x0 % 4 != 0 || r.y0 % 4 != 0))

/-- The rectangle fits, where `free` says which spindles may be taken. -/
def Rect.fits (free : Nat → Bool) (r : Rect) : Bool := r.shapeOk && r.spindles.all free

/-- The fitting corner with the lowest y0, then the lowest x0. -/
def lowestCorner (free : Nat → Bool) (w h : Nat) : Option Rect :=
  (List.range meshH).findSome? fun y => (List.range meshW).findSome? fun x => let r : Rect := ⟨x, y, w, h⟩; if r.fits free then some r else none

/-- Shapes by descending area, then descending width: the first with a fitting corner. -/
def largestShape (free : Nat → Bool) (w h : Nat) (four : Bool) : Option Rect :=
  (List.range (w * h)).findSome? fun i =>
    let a := w * h - i
    (List.range w).findSome? fun k =>
      let x := w - k
      if a % x = 0 && a / x ≤ h && (!four || x % 4 = 0 && a / x % 4 = 0) then lowestCorner free x (a / x) else none

/-- The rectangle R367 gives a record. -/
def Held.placed (h : Held) (free : Nat → Bool) : Option Rect :=
  match h.place with
  | 0 => lowestCorner free h.w h.h
  | 1 => let r : Rect := ⟨h.hd 50 44, h.hd 43 37, h.w, h.h⟩; if r.fits free then some r else none
  | _ => largestShape free h.w h.h h.fours

/-- The rules of R367 place the record on an empty package: the shape alone decides. -/
def Held.placeable (h : Held) : Bool :=
  match h.place with
  | 0 => decide (h.w ≤ meshW) && decide (h.h ≤ meshH)
  | 1 => (⟨h.hd 50 44, h.hd 43 37, h.w, h.h⟩ : Rect).shapeOk
  | _ => true

/-! ### Checks when a record is taken (R362) -/

/-- Reasons 1 to 5, the lowest that holds; 0 for none. -/
def State.takeReason (s : State) (h : Held) (extBad : Bool) : Nat :=
  let a4 := fun (v : Word) => v.toNat % 4 == 0
  let a8 := fun (v : Word) => v.toNat % 8 == 0
  let a64 := fun (v : Word) => v.toNat % 64 == 0
  let ok := fun (v : Word) (n : Need) => v = 0 || (s.rootPage h.qroot v n).isSome
  let hwm := h.sizes 47 42; let fr := h.sizes 63 48
  if h.place = 3 || h.cpol = 3 || h.hd 22 22 = 1 || (h.hd 59 59 = 1 && h.hd 60 60 = 0) || cprofBad h.cprof then 1
  else if !h.placeable || (h.fours && (if h.place = 2 then decide (h.w < 4) || decide (h.h < 4) else h.w % 4 != 0 || h.h % 4 != 0)) then 2
  else if !(a4 (h.word 1) && a4 h.handler && a8 (h.dep 0) && a8 (h.dep 1) && a8 h.compl && a64 (h.word 7) && a8 h.placew && a8 h.gow && a64 h.trace) then 3
  else if extBad || !(ok (h.dep 0) needR && ok (h.dep 1) needR && ok h.compl needW && ok h.placew needW && ok h.gow needR) then 4
  else if h.sizes 31 0 != 0 || (List.range 7).any (fun i => h.extWord (9 + i) != 0) || (hwm != 0 && hwm < 18) || (fr != 0 && fr < 32) ||
      (h.trace != 0 && h.hd 60 60 = 0) then 5
  else 0

/-! ### Completion (R363-R365) -/

/-- The completion word. -/
def complWord (status detail flags job : Nat) : Word := BitVec.ofNat 64 (0xC5 * 2 ^ 56 + status * 2 ^ 48 + detail * 2 ^ 40 + flags + job % 2 ^ 32)

/-- The slot's last record (R375). -/
def State.setSlot (s : State) (q slot : Nat) (r : SlotRec) : State := s.modQueue q fun x => { x with slots := Table.set x.slots slot r }

/-- An MSI-X vector's message is sent: MSI-X is enabled, and neither the function nor the vector is masked. -/
def Trebex.msixOpen (t : Trebex) (v : Nat) : Bool := t.msixOn && !t.msixMask && !(Table.get {} t.msixTab v).ctrl.getLsbD 0
/-- A vector is raised (R365): its message goes out, or, masked, it is pending. -/
def Trebex.raiseMsix (t : Trebex) (v : Nat) : Trebex :=
  if t.msixOpen v then { t with msixRaised := t.msixRaised ++ [v] }
  else if t.msixOn then { t with msixPend := insertSorted t.msixPend v }
  else t
/-- Pending vectors that are no longer masked send their messages. -/
def Trebex.msixDrain (t : Trebex) : Trebex :=
  { t with msixRaised := t.msixRaised ++ t.msixPend.filter t.msixOpen, msixPend := t.msixPend.filter fun v => !t.msixOpen v }
/-- A host write to the MSI-X structures. -/
def Trebex.msixWrite (t : Trebex) : MsixWrite → Trebex
  | .entry v e => if v < 1024 then { t with msixTab := Table.set t.msixTab v e }.msixDrain else t
  | .control on mask => { t with msixOn := on, msixMask := mask }.msixDrain

/-- Steps 2 and 3 of R364: COMPL is filled, then MSI-X is raised. -/
def State.complete2 (s : State) (q slot ser root : Nat) (compl : Word) (msix : Bool) (status detail flags job : Nat) : State :=
  let s := if compl = 0 || compl.toNat % 8 != 0 then s else s.rootFill root compl (complWord status detail flags job)
  let s := if msix then { s with trebex := s.trebex.raiseMsix (q / 16) } else s
  s.setSlot q slot { ser := ser, state := 5, status := status, job := job }

/-- CONTSET and PEERMAP entries of a launch that has not started are forgotten with it. -/
def State.dropPending (s : State) (j : Nat) : State :=
  { s with trebex := { s.trebex with contTab := s.trebex.contTab.filter (fun e => e.1 != j), peerTab := s.trebex.peerTab.filter fun e => e.1 != j } }

/-- A record that never starts completes at once; its reservation is freed. -/
def State.completeHeld (s : State) (q : Nat) (h : Held) (status detail : Nat) : State :=
  let s := (s.modQueue q fun x => { x with held := none, fast := none }).dropPending h.serial
  s.complete2 q h.slot h.ser h.qroot h.compl h.msix status detail 0 h.serial

/-! ### Dependencies (R363) -/

inductive DepState where
  | met | waiting | failed | fault
  deriving DecidableEq, Repr

/-- One dependency word. -/
def State.depWord (s : State) (h : Held) (va : Word) : DepState :=
  if va = 0 then .met
  else
    match s.rootPage h.qroot va needR with
    | none => .fault
    | some (fa, _) =>
      if !s.full fa then .waiting
      else
        let v := s.read fa 8
        if bitsOf v 63 56 = 0xC5 && bitsOf v 55 48 != 0 && !h.runReg then .failed else .met

/-- The dispatcher tests a held record's dependency words. -/
def State.pollQueue (s : State) (q : Nat) : State :=
  match (s.queue q).held with
  | none => s
  | some h =>
    if h.met || !s.running then s
    else
      match s.depWord h (h.dep 0), s.depWord h (h.dep 1) with
      | .failed, _ => s.completeHeld q h 1 0
      | _, .failed => s.completeHeld q h 1 0
      | .fault, _ => s.completeHeld q h 3 4
      | _, .fault => s.completeHeld q h 3 4
      | .met, .met => s.modQueue q fun x => { x with held := some { h with met := true } }
      | _, _ => s
def execDependencyPoll (q : Nat) (s : State) : Out := .next (s.pollQueue q)

/-! ### Taking (R362) -/

/-- The ring slot taken next: HEADIX where its word 0 is FULL; of a dead queue the first FULL one from there in ring order (R377). -/
def State.takeSlot (s : State) (q : Nat) : Option Nat :=
  let x := s.queue q
  if x.mode = modeDEAD then ((List.range 64).map fun i => (x.head + i) % 64).find? fun r => s.full (ringFa q r)
  else if s.full (ringFa q x.head) then some x.head else none
/-- The queue's next record can be taken. -/
def State.canTake (s : State) (q : Nat) : Bool :=
  s.running && (s.queue q).held.isNone && (s.queue q).mode != 0 && (s.takeSlot q).isSome

/-- The serial after one: 0 is skipped. -/
def nextSer (n : Nat) : Nat := if 4095 ≤ n then 1 else n + 1

/-- The extension block, or none where it does not translate. -/
def State.readExt (s : State) (root : Nat) (va : Word) : Option (Vector Word 16) :=
  if va = 0 then some (Vector.replicate 16 0)
  else if va.toNat % 64 != 0 then none
  else if (List.range 16).all (fun i => (s.rootWord root (va + BitVec.ofNat 64 (8 * i))).isSome) then
    some (Vector.ofFn fun (i : Fin 16) => (s.rootWord root (va + BitVec.ofNat 64 (8 * i.val))).getD 0)
  else none

/-- The record is copied, its word 0 emptied, HEADIX and SER advance; then its checks, and its dependencies. -/
def State.takeRecord (s : State) (q slot : Nat) : State :=
  let x := s.queue q
  let fa := ringFa q slot
  let ws : Vector Word 8 := Vector.ofFn fun (i : Fin 8) => BitVec.ofNat 64 (s.read (fa + 8 * i.val) 8)
  let ext := s.readExt x.root ws[7]
  let h : Held := { ws := ws, ext := ext.getD (Vector.replicate 16 0), slot := slot, ser := x.ser, qroot := x.root }
  let s := (s.empty fa unitWho).modQueue q fun x => { x with head := (slot + 1) % 64, ser := nextSer x.ser }
  let s := s.setSlot q h.slot { ser := h.ser, state := 2, status := 0, job := 0 }
  if x.mode = modeDEAD then s.completeHeld q h 1 0
  else
    match s.takeReason h ext.isNone with
    | 0 => (s.modQueue q fun x => { x with held := some h }).pollQueue q
    | r => s.completeHeld q h 3 r
def execRecordTake (q : Nat) (s : State) : Out :=
  .next (match s.canTake q, s.takeSlot q with | true, some r => s.takeRecord q r | _, _ => s)

end Sys2Proof.Machine
end

