-- ==== Sys2Proof/Machine/LaunchUnit.lean ====
section
/-!
DEFINITION. Choosing a launch (R366-R369), system regions (R372), starting it (R371, R26, R272, R41, R137, R170, R163), its end (R364),
and device-side launches at the dispatcher (R374, R376).
-/
namespace Sys2Proof.Machine
open Sys2Proof.Config

/-! ### System regions (R372) -/

/-- Items of `total` that lie at index `i` of `n` when item j lies at j mod n. -/
def shareOf (total n i : Nat) : Nat := if i < total % n then total / n + 1 else total / n

/-- Blocks of the frontier reserve, and runs of the ravel area. -/
def Held.blocks (h : Held) (r : Rect) : Nat := if h.sizes 63 48 = 0 then 32 * r.clusterCount else h.sizes 63 48
def Held.ravelEntries (h : Held) : Nat := if h.sizes 41 32 = 0 then 4096 else 1024 * h.sizes 41 32
def Held.ravelRuns (h : Held) : Nat := h.ravelEntries / 64

/-- The size of the system region of a spindle of the rectangle. -/
def Held.regionSize (h : Held) (x : Queue) (r : Rect) (sp : Nat) : Nat :=
  let n := r.size; let i := r.index sp
  (if dieOf sp = 0 then 0x10000 else 0) + (if h.prio < 7 then 0x80000 else 0) + (if x.skn = 0 then 2 else x.skn) * 2 ^ 20 +
  192 * (if x.mres = 0 then 256 else x.mres) + (if h.hd 60 60 = 1 then 0x8000 else 0) +
  (if h.treeTab != 0 then 2048 * shareOf (h.blocks r) n i else 0) + (if h.hd 58 58 = 1 then 2048 * shareOf h.ravelRuns n i else 0)
/-- SYSBASE: the region's lowest byte. -/
def Held.sysbase (h : Held) (x : Queue) (r : Rect) (sp : Nat) : Nat := (0x4000000 - h.regionSize x r sp) / 0x10000 * 0x10000
/-- At least 8 MiB of every slice stays below SYSBASE. -/
def Held.regionsFit (h : Held) (x : Queue) (r : Rect) : Bool := r.spindles.all fun sp => decide (0x1800000 ≤ h.sysbase x r sp)

/-! ### Free spindles (R367, R368) -/

/-- Rectangles reserved for records and for returning jobs. -/
def State.reserved (s : State) : List Rect :=
  (s.disp.queues.filterMap fun e => e.2.held.bind (·.rect)) ++ s.disp.returning.map fun e => (s.job e.1).rect

/-- The spindle may be taken; with `below`, those of running jobs of lower priority count as free. -/
def State.spFree (s : State) (res : List Rect) (below : Option Nat) (sp : Nat) : Bool :=
  let p := s.spindle sp
  !p.fenced && !p.retired && !(res.any fun r => r.has sp) &&
  (match p.job with
   | none => true
   | some j => match below with
     | some lv => (s.job j).phase == .running && decide ((s.job j).prio < lv)
     | none => false)

/-- The running jobs that a rectangle overlaps. -/
def State.victims (s : State) (r : Rect) : List Nat := (s.jobs.filter fun e => e.2.phase == .running && e.2.rect.meets r).map (·.1)

/-! ### Reservation (R369) -/

/-- The serial after one: 0 modulo 2^32 names no launch. -/
def nextJobNo (n : Nat) : Nat := if (n + 1) % 2 ^ 32 = 0 then n + 2 else n + 1

/-- The placement word. -/
def placeWord (j : Nat) (r : Rect) : Word :=
  BitVec.ofNat 64 (j % 2 ^ 32 * 2 ^ 32 + r.x0 * 2 ^ 25 + r.y0 * 2 ^ 18 + (r.w - 1) * 2 ^ 11 + (r.h - 1) * 2 ^ 4)

/-- A rectangle is reserved for a record: its serial, the regions' check, PLACEW, then the jobs to pre-empt. -/
def State.reserve (s : State) (q : Nat) (h : Held) (r : Rect) : State :=
  let j := s.disp.nextJob
  let s := { s with disp := { s.disp with nextJob := nextJobNo j } }
  let vs := s.victims r
  let h := { h with rect := some r, serial := j, goRead := h.gow = 0, victims := vs }
  if !h.regionsFit (s.queue q) r then s.completeHeld q h 3 5
  else
    let s := s.modQueue q fun x => { x with held := some h }
    let s := s.setSlot q h.slot { ser := h.ser, state := 2, status := 0, job := j }
    let s := if h.placew = 0 then s else s.rootFill h.qroot h.placew (placeWord j r)
    vs.foldl State.preempt s

/-! ### The choice (R366) -/

/-- The record is a candidate: its dependencies are met and it is not placed yet, be it that the jobs it pre-empts are still on the
rectangle it has reserved (R368). -/
def Held.waits (h : Held) : Bool := h.met && (h.rect.isNone || !h.victims.isEmpty)
/-- The queues whose held record is a candidate of a level. -/
def State.candQueues (s : State) (p : Nat) : List Nat :=
  (s.disp.queues.filter fun e => match e.2.held with | some h => h.waits && h.prio == p | none => false).map (·.1)
/-- The pre-empted jobs of a level, killed ones first, then the earliest pre-empted. -/
def State.candJobs (s : State) (p : Nat) : List Nat :=
  let l := s.disp.preempted.filter fun j => (s.job j).prio == p
  l.filter (fun j => (s.job j).killed) ++ l.filter fun j => !(s.job j).killed
/-- The highest level with a candidate. -/
def State.topLevel (s : State) : Option Nat :=
  (List.range 8).findSome? fun i => if (s.candJobs (7 - i)).isEmpty && (s.candQueues (7 - i)).isEmpty then none else some (7 - i)

def last8 (v : Vector Nat 8) (p : Nat) : Nat := if h : p < 8 then v[p] else 0
def setLast8 (v : Vector Nat 8) (p n : Nat) : Vector Nat 8 := if h : p < 8 then v.set p n h else v

/-- Weighted round-robin: the queue chosen, and the credits it is chosen under. -/
def State.chooseQueue (s : State) (p : Nat) (qs : List Nat) : Option (Nat × List (Nat × Nat)) :=
  let cr := qs.map fun q => (q, (s.queue q).credit)
  let cr := if cr.all (fun e => e.2 == 0) then qs.map fun q => (q, (s.queue q).weight) else cr
  let on := cr.filter fun e => 0 < e.2
  let l := last8 s.disp.last p
  match on.find? (fun e => l < e.1), on with
  | some e, _ => some (e.1, cr)
  | none, e :: _ => some (e.1, cr)
  | none, [] => none

/-- The chosen record's queue has had its turn. -/
def State.turnTaken (s : State) (p q : Nat) (cr : List (Nat × Nat)) : State :=
  let s := cr.foldl (fun (s : State) e => s.modQueue e.1 fun x => { x with credit := if e.1 = q then e.2 - 1 else e.2 }) s
  { s with disp := { s.disp with last := setLast8 s.disp.last p q } }

/-- A job is off the package. -/
def State.gone (s : State) (j : Nat) : Bool := match Table.find s.jobs j with | some jb => jb.phase == .out | none => true
/-- A reserved rectangle is cleared: the jobs that were pre-empted for it are off it. -/
def State.cleared (s : State) (r : Rect) (victims : List Nat) : Bool :=
  victims.all s.gone && r.spindles.all fun sp => (s.spindle sp).job.isNone
def State.fencedAny (s : State) (r : Rect) : Bool := r.spindles.any fun sp => (s.spindle sp).fenced

/-- A record gives up the rectangle it has reserved, and is placed anew. -/
def State.unplace (s : State) (q : Nat) (h : Held) : State :=
  (s.dropPending h.serial).modQueue q fun x => { x with held := some { h with rect := none, goRead := false, goRoot := none, victims := [] } }

/-- The chosen record is placed and its queue has had its turn; or a rectangle is reserved for it by pre-emption, and it keeps its turn until
that is cleared; or it stays held. -/
def State.placeRecord (s : State) (p q : Nat) (cr : List (Nat × Nat)) : State :=
  match (s.queue q).held with
  | none => s
  | some h =>
    match h.rect with
    | some r =>
      if s.fencedAny r then s.unplace q h
      else if s.cleared r h.victims then (s.turnTaken p q cr).modQueue q fun x => { x with held := some { h with victims := [] } }
      else s
    | none =>
      let res := s.reserved
      match h.placed (s.spFree res none), h.placed (s.spFree res (some p)) with
      | some r, _ => (s.turnTaken p q cr).reserve q h r
      | none, some r => s.reserve q h r
      | none, none => s

/-- A pre-empted job resumes: a launch like any other as to R366's one a cycle. -/
def State.startJob (s : State) (j : Nat) : State :=
  if s.disp.startedAt == s.now + 1 then s else { s with disp := { s.disp with startedAt := s.now + 1 } }.restoreJob j

/-- The chosen pre-empted job resumes on its rectangle, or has it cleared by pre-emption, or waits. -/
def State.placeJob (s : State) (p j : Nat) : State :=
  let r := (s.job j).rect
  match Table.find s.disp.returning j with
  | some vs => if s.cleared r vs && !s.fencedAny r then s.startJob j else s
  | none =>
    let res := s.reserved
    if r.spindles.all (s.spFree res none) then s.startJob j
    else if r.spindles.all (s.spFree res (some p)) then
      let vs := s.victims r
      vs.foldl State.preempt { s with disp := { s.disp with returning := s.disp.returning ++ [(j, vs)] } }
    else s

/-- LAUNCH_SELECT, at most once a cycle. -/
def State.launchSelect (s : State) : State :=
  if !s.running || s.disp.pickedAt == s.now + 1 then s
  else
    let s := { s with disp := { s.disp with pickedAt := s.now + 1 } }
    match s.topLevel with
    | none => s
    | some p =>
      match s.candJobs p with
      | j :: _ => s.placeJob p j
      | [] => match s.chooseQueue p (s.candQueues p) with | some (q, cr) => s.placeRecord p q cr | none => s
def execLaunchSelect (s : State) : Out := .next s.launchSelect

/-! ### The go word (R369) -/

/-- The go word of a reserved record is FULL: its root, or reason 9. -/
def State.readGo (s : State) (q : Nat) : State :=
  match (s.queue q).held with
  | none => s
  | some h =>
    match h.rect with
    | none => s
    | some r =>
      if h.goRead then s
      else
        match s.rootPage h.qroot h.gow needR with
        | none => s.completeHeld q h 3 4
        | some (fa, _) =>
          if !s.full fa then s
          else
            let v := s.read fa 8
            let rv := bitsOf v 63 63 == 1
            if bitsOf v 62 49 != 0 || bitsOf v 14 0 != 0 || (rv && !(r.has (bitsOf v 40 27) && bitsOf v 48 41 == s.trebex.chip)) then
              s.completeHeld q h 3 9
            else s.modQueue q fun x => { x with held := some { h with goRead := true, goRoot := if rv then some (bitsOf v 48 0) else none } }
def execGoWordReady (q : Nat) (s : State) : Out := .next (if s.running then s.readGo q else s)

/-! ### Reading the tables of a launch (R41, R137, R170, R341, R398) -/

/-- A naturally aligned read of a job's space by the launch unit. -/
def State.jobData (s : State) (j : Nat) (va : Word) (n : Nat) : Option Nat :=
  if va.toNat % n != 0 then none
  else match s.walkJob j va with
    | some p => if needR.ok p then some (s.pageRead p.akind (p.fa va) n) else none
    | none => none

/-- `n` values of `b` bytes from an address on. -/
def State.jobArray (s : State) (j b : Nat) : Nat → Word → Option (List Nat)
  | 0, _ => some []
  | k + 1, va =>
    match s.jobData j va b with
    | none => none
    | some v => (s.jobArray j b k (va + BitVec.ofNat 64 b)).map (v :: ·)

/-- The member lists of the group table, from entry `g` on. -/
def State.groupRows (s : State) (j : Nat) (base : Word) : Nat → List Nat → Option (Table (List Nat))
  | _, [] => some []
  | g, e :: t =>
    match s.jobArray j 4 (e % 2 ^ 32) (base + BitVec.ofNat 64 (e / 2 ^ 32)) with
    | none => none
    | some ms => (s.groupRows j base (g + 1) t).map fun r => if ms.isEmpty then r else (g, ms.foldl insertSorted []) :: r

/-- The group table: none where reason 6 holds. -/
def State.readGroups (s : State) (j : Nat) (base : Word) : Option (Table (List Nat)) :=
  if base = 0 then some []
  else
    match s.jobArray j 8 256 base with
    | none => none
    | some es =>
      match s.groupRows j base 0 es with
      | none => none
      | some gs =>
        let all := gs.flatMap (·.2)
        if all.all fun th => decide (th < 16 * (s.job j).rect.size) && decide ((all.filter (· == th)).length ≤ 4) then some gs else none

/-- The channel table: none where reason 7 holds. -/
def State.readChans (s : State) (j : Nat) (base : Word) : Option (Table Chan) :=
  if base = 0 then some []
  else
    match s.jobArray j 8 4096 base with
    | none => none
    | some es =>
      let n := 16 * (s.job j).rect.size
      let on := (es.zipIdx.filter fun e => bitsOf e.1 63 63 == 1)
      if on.all fun e => e.2 != 4095 && bitsOf e.1 62 50 == 0 && bitsOf e.1 31 18 == 0 && decide (bitsOf e.1 49 32 < n) && decide (bitsOf e.1 17 0 < n) then
        some (on.map fun e => (e.2, { reader := bitsOf e.1 49 32, writer := bitsOf e.1 17 0 }))
      else none

/-- A tree descriptor (R170): none where it is refused. -/
def State.readTree (s : State) (j : Nat) (va : Word) : Option Tree :=
  if va.toNat % 64 != 0 then none
  else
    match s.jobArray j 8 8 va with
    | none => none
    | some ws =>
      let nodes := ws.getD 0 0; let cnt := ws.getD 1 0 % 2 ^ 32; let root := ws.getD 1 0 / 2 ^ 32
      if (ws.drop 3).all (· == 0) && cnt < 2 ^ 31 && root < cnt && nodes % 64 = 0 then some { nodes := BitVec.ofNat 64 nodes, count := cnt, root := root } else none

/-- The slots of the slot block, from slot `i` on. -/
def State.treeRows (s : State) (j : Nat) : Nat → List Nat → Option (List (Nat × Tree × Tree))
  | i, a :: b :: t =>
    if a = 0 && b = 0 then s.treeRows j (i + 1) t
    else
      match s.readTree j (BitVec.ofNat 64 a), s.readTree j (BitVec.ofNat 64 b) with
      | some x, some y => (s.treeRows j (i + 1) t).map ((i, x, y) :: ·)
      | _, _ => none
  | _, _ => some []

/-- The tree pairs: none where reason 8 holds. -/
def State.readTrees (s : State) (j : Nat) (base : Word) : Option (List (Nat × Tree × Tree)) :=
  if base = 0 then some []
  else if base.toNat % 64 != 0 then none
  else match s.jobArray j 8 8 base with | some ws => s.treeRows j 0 ws | none => none

/-- The live table is readable. -/
def State.liveOk (s : State) (j : Nat) (base : Word) : Bool := base = 0 || (s.jobArray j 8 4096 base).isSome

/-! ### Trace buffers (R163, R164) -/

/-- Every 64-byte piece of a range of the queue's space has these permissions. -/
def State.rootRange (s : State) (root : Nat) (n : Need) : Nat → Word → Bool
  | 0, _ => true
  | k + 1, va => (s.rootPage root va n).isSome && s.rootRange root n k (va + 64)

/-- An entry of a trace buffer. -/
def traceEntry (w0 w1 : Nat) : TraceEntry :=
  { phase := w0 / 2 ^ 32, ctx := bitsOf w0 31 28, src := bitsOf w0 27 14, home := bitsOf w0 13 0, lcl := bitsOf w1 26 0 }
def TraceEntry.word0 (e : TraceEntry) : Nat := e.phase % 2 ^ 32 * 2 ^ 32 + e.ctx * 2 ^ 28 + e.src * 2 ^ 14 + e.home

/-- The entries a replay launch loads; none where reason 10 holds. -/
def State.readTrace (s : State) (root : Nat) (va : Word) (r : Rect) : Option (List TraceEntry) :=
  let w := fun (i : Nat) => (s.rootWord root (va + BitVec.ofNat 64 (8 * i))).map (·.toNat)
  match w 0, w 1 with
  | some cnt, some shape =>
    if shape != r.h * 2 ^ 32 + r.w || !(s.rootRange root needR ((cnt + 3) / 4 + 1) va) then none
    else
      let es := (List.range cnt).map fun i => traceEntry ((w (8 + 2 * i)).getD 0) ((w (9 + 2 * i)).getD 0)
      if es.all fun e => decide (e.src < r.size) && decide (e.home < r.size) then some es else none
  | _, _ => none

/-- The trace buffer of a launch: readable and writable for its capacity, and under REPLAY its entries. -/
def State.traceIn (s : State) (h : Held) (r : Rect) : Option (List TraceEntry) :=
  if h.trace = 0 then some []
  else
    match s.rootWord h.qroot (h.trace + 16) with
    | none => none
    | some cap =>
      if !(s.rootRange h.qroot needRW ((cap.toNat + 3) / 4 + 1) h.trace) then none
      else if h.hd 59 59 = 1 then s.readTrace h.qroot h.trace r else some []

/-- At retirement every ring goes into the trace buffer, grouped by home, behind its header; CAP stays the program's. -/
def State.writeTrace (s : State) (j : Nat) : State :=
  let jb := s.job j
  if !jb.repeat_ || jb.traceBuf = 0 then s
  else
    let es := jb.rect.spindles.flatMap fun sp => (s.spindle sp).ring0 ++ (s.spindle sp).ring1
    let lost := jb.lostTrace || jb.rect.spindles.any fun sp => (s.spindle sp).traceLost
    let cap := ((s.rootWord jb.queueRoot (jb.traceBuf + 16)).getD 0).toNat
    let put := fun (s : State) (i v : Nat) =>
      match s.rootPage jb.queueRoot (jb.traceBuf + BitVec.ofNat 64 (8 * i)) needRW with
      | some (fa, k) => s.pageWrite k fa 8 v unitWho
      | none => s
    let head := [min es.length cap, jb.rect.h * 2 ^ 32 + jb.rect.w, cap, boolN (lost || decide (cap < es.length)), 0, 0, 0, 0]
    let s := head.zipIdx.foldl (fun (s : State) (e : Nat × Nat) => if e.2 = 2 then s else put s e.2 e.1) s
    ((es.take cap).zipIdx).foldl (fun (s : State) (e : TraceEntry × Nat) => put (put s (8 + 2 * e.2) e.1.word0) (9 + 2 * e.2) e.1.lcl) s

/-! ### Starting (R371) -/

/-- The containment rectangles by CPOL: the whole, each cluster, each die's part. -/
def contsBy (cpol : Nat) (r : Rect) : List (Nat × Rect) :=
  match cpol with
  | 1 => (r.clusters.map fun c => ({ x0 := clusterX c, y0 := clusterY c, w := 4, h := 4 } : Rect)).zipIdx.map fun e => (e.2, e.1)
  | 2 =>
    let cut := fun (d : Nat) =>
      let x0 := max r.x0 (d % 4 * 32); let y0 := max r.y0 (d / 4 * 32)
      ({ x0 := x0, y0 := y0, w := min (r.x0 + r.w) (d % 4 * 32 + 32) - x0, h := min (r.y0 + r.h) (d / 4 * 32 + 32) - y0 } : Rect)
    (((List.range 12).map cut).filter fun c => 0 < c.w && 0 < c.h).zipIdx.map fun e => (e.2, e.1)
  | _ => [(0, r)]

/-- The launch of a record, before its tables are read. -/
def State.newJob (s : State) (q : Nat) (h : Held) (r : Rect) : Job :=
  let mine := s.trebex.contTab.filter fun e => e.1 == h.serial
  { serial := h.serial, queue := q, slot := h.slot, ser := h.ser, rect := r, prio := h.prio, root := h.goRoot.getD h.qroot, entry := h.word 1,
    param := h.word 2, lseed := h.word 3, cprof := BitVec.ofNat 64 h.cprof, repeat_ := h.hd 60 60 == 1, replay := h.hd 59 59 == 1,
    actcls := h.hd 58 58 == 1, debug := h.hd 57 57 == 1, msix := h.msix, compl := h.compl, queueRoot := h.qroot, handlerPc := h.handler,
    live := h.live, traceBuf := h.trace, cpol := h.cpol,
    conts := if mine.isEmpty then contsBy h.cpol r else mine.map (·.2),
    hwm := if h.sizes 47 42 = 0 then 3072 else 64 * h.sizes 47 42, blocks := if h.treeTab = 0 then 0 else h.blocks r, freeBlk := if h.treeTab = 0 then 0 else h.blocks r,
    ravelMax := if h.hd 58 58 = 1 then h.ravelEntries else 0,
    peers := (s.trebex.peerTab.filter fun e => e.1 == h.serial).foldl (fun t e => Table.set t e.2.1 e.2.2) [] }

/-- A spindle set up for a launch: pairing (R330), system region, empty caches and tables (R371). -/
def Spindle.launch (p : Spindle) (j sysbase buddy1 buddy2 : Nat) (handler : Bool) (replay : List TraceEntry) : Spindle :=
  { winA := p.winA, winB := p.winB, retired := p.retired, fenced := p.fenced, issuedAt := p.issuedAt, gust := p.gust, waiters := p.waiters,
    job := some j, last := 15, birth := if handler then 0x8001 else 1, sysbase := sysbase, primary := buddy1, secondary := buddy2,
    replay := replay, haltCycle := p.haltCycle, stopSent := p.stopSent, stopRcvd := p.stopRcvd, stopJob := p.stopJob, stopChans := p.stopChans }

/-- Context 0 or 15 as a launch starts it (R26, R272). -/
def startImage (jb : Job) (ix c : Nat) (pc : Word) : Context :=
  { pc := pc,
    g := (((Vector.replicate 16 (0 : Word)).set 1 jb.param).set 2 (BitVec.ofNat 64 ix)).set 3 (BitVec.ofNat 64 (jb.rect.h * 2 ^ 32 + jb.rect.w)),
    st := .ready, handler := c == 15, supv := c == 15, thidx := 16 * ix + c, cprof := jb.cprof, gset := gsetOf jb (16 * ix + c) }

/-- The spindle of index `i` of the rectangle, with its fresh contexts. -/
def State.startSpindle (s : State) (jb : Job) (base : Nat → Nat) (tr : List TraceEntry) (i : Nat) : State :=
  let r := jb.rect; let n := r.size; let sp := r.spindle i
  let h := jb.handlerPc != 0
  let b1 := if i ^^^ 1 < n then i ^^^ 1 else i
  let s := s.modSp sp fun p => p.launch jb.serial (base sp) (r.spindle b1) (r.spindle ((i + 2) % n)) h (tr.filter fun e => e.home == i)
  let fresh := fun (c : Context) => ({ c with lastIssue := s.now - 8, readyAt := s.now + 1 } : Context)
  (List.range 16).foldl (fun (s : State) c => s.setCtx (keyOf sp c)
    (if c = 0 then fresh (startImage jb i 0 jb.entry)
     else if c = 15 && h then fresh (startImage jb i 15 jb.handlerPc)
     else { lastIssue := s.now - 8 })) s

/-- The accumulator stores of the rectangle's clusters are cleared, and the bobbins of its whole clusters are empty. -/
def State.startClusters (s : State) (r : Rect) : State :=
  let s := r.clusters.foldl (fun (s : State) c => s.modCl c fun x => { x with acc := [] }) s
  r.wholeClusters.foldl (fun (s : State) c => s.modCl c fun x => { x with pend := [], held := [], own := [], takers := [] }) s

/-- The launch's checks 6, 7, 8 and 10: its tables, or the reason it is refused for. -/
def State.startTables (s : State) (h : Held) (jb : Job) : Except Nat (Job × List TraceEntry) :=
  match s.readGroups jb.serial h.grtab with
  | none => .error 6
  | some gs =>
    match s.readChans jb.serial h.chtab with
    | none => .error 7
    | some cs =>
      match s.readTrees jb.serial h.treeTab with
      | none => .error 8
      | some ts =>
        match s.liveOk jb.serial h.live, s.traceIn h jb.rect with
        | true, some tr => .ok ({ jb with groups := gs, chans := cs, trees := ts }, tr)
        | _, _ => .error 10

/-- A record starts: or it completes REFUSED, its rectangle freed. -/
def State.startRecord (s : State) (q : Nat) (h : Held) (r : Rect) : State :=
  let jb := s.newJob q h r
  let x := s.queue q
  -- the tables are read with the job's rectangle and system regions in force
  let view := r.spindles.foldl (fun (t : State) sp => t.modSp sp fun p => { p with job := some h.serial, sysbase := h.sysbase x r sp })
    { s with jobs := Table.set s.jobs h.serial jb }
  match view.startTables h jb with
  | .error reason => s.completeHeld q h 3 reason
  | .ok (jb, tr) =>
    let s := { s with jobs := Table.set s.jobs h.serial jb }
    let s := { s with disp := { s.disp with startedAt := s.now + 1 } }
    let s := ((s.modQueue q fun x => { x with held := none, fast := none }).dropPending h.serial).setSlot q h.slot
      { ser := h.ser, state := 3, status := 0, job := h.serial }
    (List.range r.size).foldl (fun (s : State) i => s.startSpindle jb (h.sysbase x r) tr i) (s.startClusters r)

/-- A placed record can start, at most one a cycle: its go word is read, and no candidate of a higher level exists (R366). -/
def State.canStart (s : State) (q : Nat) : Option (Held × Rect) :=
  match (s.queue q).held with
  | none => none
  | some h =>
    match h.rect with
    | none => none
    | some r => if s.running && s.disp.startedAt != s.now + 1 && h.goRead && h.victims.isEmpty && !(s.topLevel.any fun p => decide (h.prio < p)) && s.cleared r [] then some (h, r) else none

/-- LAUNCH_START; a reserved rectangle that was fenced meanwhile is given up, and the record is placed anew. -/
def State.launchStart (s : State) (q : Nat) : State :=
  match s.canStart q with
  | none => s
  | some (h, r) =>
    if s.fencedAny r then s.unplace q h
    else s.startRecord q h r
def execLaunchStart (q : Nat) (s : State) : Out := .next (s.launchStart q)

/-! ### The end of a launch (R364) -/

/-- A request that its home performs as a write. -/
def Body.writes : Body → Bool
  | .write .. | .atomic .. | .sync .. | .layer .. => true
  | _ => false

/-- Every thread has exited, no activity is left unravelling or halted, every copy and loom instruction has completed, and every write
of the job is performed (R364). -/
def State.canRetire (s : State) (j : Nat) : Bool :=
  match Table.find s.jobs j with
  | none => false
  | some jb =>
    (jb.phase == .running || jb.phase == .preempting || jb.ended && jb.phase != .out) && !s.threadsLeft j &&
    !(s.unrav.acts.any fun a => a.job == j && (a.st == .unravelling || a.st == .halted)) &&
    !(s.engines.any fun e => e.2.cmds.any fun c => c.job == j) &&
    !(s.clusters.any fun e => (e.2.enter ++ e.2.queue).any fun c => c.job == j) &&
    !(s.msgs.any fun m => m.job == j && m.body.writes && !s.replayHeld m)

/-- What the job leaves behind is dropped: contexts, subscriptions, waiters, buffers, skeins, activities, messages. -/
def State.dropJob (s : State) (j : Nat) : State :=
  let r := (s.job j).rect
  let sps := s.liveSpindles j
  let s := sps.foldl State.clearCtxs s
  let cut := fun (p : Spindle) => { p with pubs := p.pubs.filter (fun (x : PubEntry) => x.subJob != j), waiters := p.waiters.filter fun w => w.who / 2 ^ 18 != j }
  let s := { s with spindles := s.spindles.map fun (e : Nat × Spindle) => (e.1, cut (if sps.contains e.1 then e.2.release else e.2)),
                    jobs := s.jobs.map fun e => (e.1, e.2.mapSaved fun _ p => cut p) }
  let s := r.wholeClusters.foldl (fun (s : State) c => s.modCl c fun x => { x with pend := [], held := [], own := [], takers := [] }) s
  let s := { s with unrav := { s.unrav with acts := s.unrav.acts.filter fun a => a.job != j } }
  let s := { s with upsets := s.upsets.filter fun u => match u with | .gone m => m.job != j | _ => true,
                    msgs := s.msgs.filter fun m => m.job != j || ((match m.body with | .batch .. => true | _ => false) && !r.has m.dst) }
  { s with disp := { s.disp with preempted := s.disp.preempted.erase j, returning := s.disp.returning.filter fun e => e.1 != j } }

/-- LAUNCH_RETIRE: trace, clean-up, completion, MSI-X, and the rectangle is free. -/
def State.retireJob (s : State) (j : Nat) : State :=
  let jb := s.job j
  let lost := jb.lostTrace || jb.rect.spindles.any fun sp => (s.spindle sp).job == some j && (s.spindle sp).traceLost
  let s := (s.writeTrace j).dropJob j
  let status := if jb.ended then 4 else if jb.killed then 2 else 0
  let flags := boolN lost * 2 ^ 35 + boolN jb.lostPairs * 2 ^ 34 + boolN jb.lostFence * 2 ^ 33
  let s := s.complete2 jb.queue jb.slot jb.ser jb.queueRoot jb.compl jb.msix status jb.detail flags jb.serial
  { s with jobs := Table.erase s.jobs j }
def execLaunchRetire (job : Nat) (s : State) : Out := .next (if s.canRetire job then s.retireJob job else s)

/-! ### LAUNCH at the dispatcher (R374) -/

/-- The ring slots between HEADIX and TAILIX that are FULL, which are taken before a new record. -/
def Queue.ahead (x : Queue) : Nat := (x.tail + 64 - x.head) % 64
def serAfter : Nat → Nat → Nat
  | 0, n => n
  | k + 1, n => serAfter k (nextSer n)

/-- The refusal raises LAUNCH at the issuer, with the record's address. -/
def State.refuseLaunch (s : State) (m : Msg) : State := s.send (m.answer (.nack cLAUNCH m.va))

/-- R376 bounds the start of a record enqueued for a launch from spindle `sp`: its queue holds nothing else, it waits for nothing, has no
handler and no tree pairs, no candidate of its priority or above is held, and it finds free spindles on the issuer's die. -/
def State.fastLaunch (s : State) (q sp : Nat) (h : Held) : Bool :=
  let x := s.queue q
  x.held.isNone && !((List.range 64).any fun r => r != x.tail && s.full (ringFa q r)) &&
  h.dep 0 = 0 && h.dep 1 = 0 && h.placew = 0 && h.gow = 0 && h.handler = 0 && h.treeTab = 0 &&
  !(s.disp.queues.any fun e => match e.2.held with | some o => o.met && decide (h.prio ≤ o.prio) | none => false) &&
  !(s.disp.preempted.any fun j => decide (h.prio ≤ (s.job j).prio)) &&
  (match h.placed (s.spFree s.reserved none) with | some r => r.spindles.all (fun x => dieOf x == dieOf sp) | none => false)

/-- The dispatcher enqueues a record, or refuses it. A tear-down of its queue that is accepted on the same cycle waits for that, whatever
the answer is (R374). -/
def State.launchIn (s : State) (m : Msg) : State :=
  match m.body with
  | .launch ws q fromQ =>
    let x := s.queue q
    let fa := ringFa q x.tail
    let s := if x.mode = modeDEAD then s else s.modQueue q fun x => { x with launchedAt := s.now + 1 }
    if x.mode = modeDEAD then s.send (m.answer (.reply (2 ^ 56)))
    else if x.mode != modeDEVICE || q / 16 != fromQ / 16 then s.refuseLaunch m
    else if s.full fa then s.send (m.answer (.reply (2 * 2 ^ 56)))
    else
      let ser := serAfter x.ahead x.ser
      let s := (ws.drop 1).zipIdx.foldl (fun (s : State) (e : Word × Nat) => s.store (fa + 8 + 8 * e.2) 8 e.1.toNat unitWho) s
      let s := s.storeFill fa 8 (ws.headD 0).toNat unitWho
      let fast := match ws with
        | [w0, w1, w2, w3, w4, w5, w6, w7] =>
          let ext := s.readExt x.root w7
          ext.isSome && s.fastLaunch q m.src
            { ws := #v[w0, w1, w2, w3, w4, w5, w6, w7], ext := ext.getD (Vector.replicate 16 0), slot := x.tail, ser := ser, qroot := x.root }
        | _ => false
      let s := (s.modQueue q fun x => { x with
        tail := (x.tail + 1) % 64,
        fast := if fast then some (x.tail, m.tok) else x.fast, fastBy := if fast then 0 else x.fastBy }).setSlot q x.tail { ser := ser, state := 1, status := 0, job := 0 }
      s.send (m.answer (.reply (q * 2 ^ 18 + x.tail * 2 ^ 12 + ser)))
  | _ => s
def execLaunchRequest (m : Nat) (s : State) : Out :=
  .next (s.onArrive m (fun b => match b with | .launch .. => true | _ => false) fun x s => s.launchIn x)

end Sys2Proof.Machine
end

