-- ==== Sys2Proof/Machine/HostPort.lean ====
section
/-!
DEFINITION. The host port: how a running job's system region stands in DRAM (R172, R187, R194, R318, R163, R372), fills (R356), and the
host's accesses of device memory (R345, R348, R353, R380).
-/
namespace Sys2Proof.Machine
open Sys2Proof.Config

/-! ### The system region as bytes (R372) -/

/-- A byte of a number laid out little-endian. -/
def byteAt (v i : Nat) : Byte := BitVec.ofNat 8 (v / 256 ^ i)

/-- A pair descriptor's 16 bytes (R172), VALID set. -/
def PairDesc.record (d : PairDesc) : Nat :=
  (2 ^ 7 + boolN d.reissued * 2 + boolN d.root) * 2 ^ 72 + d.slot % 4 * 2 ^ 64 + d.nb % 2 ^ 32 * 2 ^ 32 + d.na % 2 ^ 32
/-- A skein entry's 32 bytes (R194); its destination is in package `chip`. -/
def SkeinEntry.record (e : SkeinEntry) (chip : Nat) : Nat :=
  e.phase % 2 ^ 32 * 2 ^ 224 + e.seqn % 2 ^ 32 * 2 ^ 192 + e.key % 2 ^ 64 * 2 ^ 128 + e.v % 2 ^ 64 * 2 ^ 64 +
  (e.plyg % 256 * 2 ^ 56 + boolN e.anyph * 2 ^ 55 + e.sz % 4 * 2 ^ 53 + e.op % 16 * 2 ^ 49 + chip * 2 ^ 41 + e.fa % 2 ^ 41)
/-- A ravel entry's 32 bytes (R318). -/
def RavelEntry.record (e : RavelEntry) (ix : Nat) : Nat :=
  (ix % 2 ^ 16 * 2 ^ 48 + e.seqn % 2 ^ 48) * 2 ^ 192 + e.arg1.toNat * 2 ^ 128 + e.arg0.toNat * 2 ^ 64 + e.sp % 2 ^ 14 * 2 ^ 50 + e.pcw % 2 ^ 50
/-- A trace entry's 16 bytes (R164). -/
def TraceEntry.record (e : TraceEntry) : Nat := e.lcl * 2 ^ 64 + e.word0

/-- Where the items of a spindle's system region begin, from the top of the slice down: save area, skein, migrant reserve, trace ring,
share of the frontier reserve, share of the ravel area, and the end below the last. -/
def State.regionAt (s : State) (jb : Job) (sp : Nat) : List Nat :=
  let x := s.queue jb.queue
  let n := jb.rect.size; let i := jb.rect.index sp
  let sizes := [if jb.prio < 7 then 0x80000 else 0, (if x.skn = 0 then 2 else x.skn) * 2 ^ 20, 192 * (if x.mres = 0 then 256 else x.mres),
    if jb.repeat_ then 0x8000 else 0, 2048 * shareOf jb.blocks n i, 2048 * shareOf (jb.ravelMax / 64) n i]
  (List.range 6).map fun k => 0x4000000 - (if dieOf sp = 0 then 0x10000 else 0) - ((sizes.take (k + 1)).foldl (· + ·) 0)

/-- The descriptors of reserve block `b`. -/
def State.blockDescs (s : State) (jb : Job) (b : Nat) : List PairDesc :=
  ((jb.rect.clusters.flatMap fun c => (s.cluster c).own).find? fun e => e.1 == b).elim [] (·.2)
/-- The ravel entry at a place of a job's ravel area, with its activity's index. -/
def State.ravelPlace (s : State) (j p : Nat) : Option (RavelEntry × Nat) :=
  (s.unrav.acts.filter fun a => a.job == j).findSome? fun a => (a.entries.find? fun e => e.inArea && e.place == p).map fun e => (e, a.ix)

/-- A byte of a system region that does not come from memory's plain bytes: an entry of the skein, of the trace ring, a descriptor of a
reserve block or an entry of the ravel area; in the save area and the migrant reserve a free value. -/
def State.regionByte (s : State) (j sp l : Nat) : Option Byte :=
  let jb := s.job j
  let p := s.spindle sp
  match s.regionAt jb sp with
  | [save, skein, mig, trace, front, ravel] =>
    if 0x4000000 - (if dieOf sp = 0 then 0x10000 else 0) ≤ l then none
    else if save ≤ l then some (hiddenByte s.free (faOf sp l))
    else if skein ≤ l then (p.skein[(l - skein) / 32]?).map fun e => byteAt (e.record s.trebex.chip) ((l - skein) % 32)
    else if mig ≤ l then some (hiddenByte s.free (faOf sp l))
    else if trace ≤ l then
      let o := l - trace
      ((if o < 0x4000 then p.ring0 else p.ring1)[o % 0x4000 / 16]?).map fun e => byteAt e.record (o % 16)
    else if front ≤ l then
      let o := l - front
      some (((s.blockDescs jb (o / 2048 * jb.rect.size + jb.rect.index sp))[o % 2048 / 16]?).elim 0 fun d => byteAt d.record (o % 16))
    else if ravel ≤ l then
      let o := l - ravel
      (s.ravelPlace j ((o / 2048 * jb.rect.size + jb.rect.index sp) * 64 + o % 2048 / 32)).map fun e => byteAt (e.1.record e.2) (o % 32)
    else none
  | _ => none

/-- A byte as the host reads it: of the system region of a running job, or of memory. -/
def State.hostByte (s : State) (fa : Nat) : Byte :=
  match (s.spindle (faSp fa)).job with
  | some j =>
    if faLocal fa < 0x1000000 || faLocal fa < (s.spindle (faSp fa)).sysbase then s.byte fa
    else (s.regionByte j (faSp fa) (faLocal fa)).getD (s.byte fa)
  | none => s.byte fa
/-- `n` bytes as the host reads them, little-endian. -/
def State.hostView (s : State) (fa : Nat) : Nat → Nat
  | 0 => 0
  | n + 1 => (s.hostByte fa).toNat + 256 * s.hostView (fa + 1) n

/-! ### Fills (R356) -/

/-- The end-to-end check of a line that the host wrote disagrees (R345): its words are poisoned and not written, and the host is told. -/
def State.hostMismatch (s : State) (fa n : Nat) : State :=
  let s := { s with upsets := s.upsets.erase .hostCrc, trebex := { s.trebex with hostPoison := true } }
  (wordsOf fa n).foldl State.setPoison s

/-- A fill of word 0 of a record (R356). -/
def State.hostFill (s : State) (off : Nat) (v : Word) : State :=
  let o := off - 0x4000000
  let q := o / 4096; let fa := ringFa q (o % 4096 / 64)
  if !s.hostServed || off < 0x4000000 || 0x8000000 ≤ off || o % 64 != 0 then s
  else if (s.queue q).mode != modeHOST && (s.queue q).mode != modeDEAD then s
  else if s.full fa then s.modQueue q fun x => { x with ovr := true }
  else if s.upsets.contains .hostCrc then s.hostMismatch fa 8
  else s.storeFill fa 8 v.toNat unitWho
def execHostFill (off : Nat) (v : Word) (s : State) : Out := .next (s.hostFill off v)

/-! ### Host reads and writes of the HDM range (R353, R380) -/

/-- The fabric address of a byte of the HDM range: the queue region, or an aperture that maps an address of this package. -/
def State.hdmFa (s : State) (off : Nat) : Option Nat :=
  if off < 0x4000000 then some (ringFa (off / 4096) (off % 4096 / 64) + off % 64)
  else if off < 0x8000000 then none
  else
    match Table.find s.trebex.apertures ((off - 0x8000000) / 2 ^ 20) with
    | some a => if s.ownChip a then some (a % 2 ^ 41 + off % 2 ^ 20) else none
    | none => none

/-- The bytes of a host access, which lie within one 64-byte line: its first address, or none where it is dropped. -/
def State.hostBytes (s : State) (off n : Nat) : Option Nat := if off % 64 + n ≤ 64 && 0 < n && n ≤ 8 then s.hdmFa off else none

/-- A host write (R353): a plain write, checked end to end (R345); one of a part of a poisoned word is not performed (R348). -/
def State.hostWrite (s : State) (fa n : Nat) (v : Word) : State :=
  if s.upsets.contains .hostCrc then s.hostMismatch fa n
  else if (wordsOf fa n).any fun w => s.poison.contains w && !(wholeWords fa n).contains w then
    { s with trebex := { s.trebex with hostPoison := true } }
  else { (s.store fa n (v.toNat % 2 ^ (8 * n)) unitWho) with trebex := { s.trebex with hostPoison := false } }

/-- An 8-byte write of a fill word is a fill; an address that the part does not have faults; any other access outside the mapped range is
dropped. -/
def execHostMemWrite (off n : Nat) (v : Word) (s : State) : Out :=
  if !s.hostServed then .next s
  else if 0x4000000 ≤ off && off < 0x8000000 && n = 8 then .next (s.hostFill off v)
  else
    match s.hostBytes off n with
    | none => .next s
    | some fa => if faMapped fa then .next (s.hostWrite fa n v) else .fault (.noSuchAddress fa)

/-- What the host reads: the data, and whether it carries data poison. -/
def State.hostAnswer (s : State) (v : Nat) (bad : Bool) : State := { s with trebex := { s.trebex with hostData := BitVec.ofNat 64 v, hostPoison := bad } }

/-- A host read (R353): a read of the fill window's word 0 gives FULL. -/
def execHostMemRead (off n : Nat) (s : State) : Out :=
  if !s.hostServed then .next (s.hostAnswer 0 false)
  else if 0x4000000 ≤ off && off < 0x8000000 then
    let o := off - 0x4000000
    .next (s.hostAnswer (if n = 8 && o % 64 = 0 then boolN (s.full (ringFa (o / 4096) (o % 4096 / 64))) else 0) false)
  else
    match s.hostBytes off n with
    | none => .next (s.hostAnswer 0 false)
    | some fa =>
      if !faMapped fa then .fault (.noSuchAddress fa)
      else if s.upsets.contains .hostCrc then .next ({ s with upsets := s.upsets.erase .hostCrc }.hostAnswer (s.hostView fa n) true)
      else .next (s.hostAnswer (s.hostView fa n) (s.poisoned fa n))

end Sys2Proof.Machine
end

