-- ==== Sys2Proof/Machine/Management.lean ====
section
/-!
DEFINITION. The Trebex controller: bring-up (R378), management registers and commands (R379, R380, R384, R403), power (R381, R382),
margins (R383), clearing fences (R385), firmware (R386) and attestation (R387).
-/
namespace Sys2Proof.Machine
open Sys2Proof.Config

def State.modTx (s : State) (f : Trebex → Trebex) : State := { s with trebex := f s.trebex }

/-! ### Management registers (R379) -/

/-- The codes of the commands. -/
def cmdListed (code : Nat) : Bool := decide (1 ≤ code) && decide (code ≤ 0x12)

/-- MRESP's status codes. -/
def mOK : Nat := 0
def mBADARG : Nat := 1
def mREFUSED : Nat := 2
def mSIGFAIL : Nat := 3
def mNOTFOUND : Nat := 4

/-- A command ends: MRESP, then BUSY is 0. -/
def State.respond (s : State) (mst res : Nat) : State :=
  s.modTx fun t => { t with mresp := BitVec.ofNat 64 (mst * 2 ^ 56 + res % 2 ^ 56), busy := false }

/-- A register as a read of `n` bytes returns it: only 8-byte accesses reach one, others read 0. -/
def State.mgmtRead (s : State) (off n : Nat) : Word :=
  let t := s.trebex
  let v : Nat :=
    if n != 8 then 0
    else if off = 0x000 then 0x5A17 * 2 ^ 48 + 0x0D12 * 2 ^ 32 + stepping.toNat
    else if off = 0x008 then boolN t.busy * 2 ^ 63 + boolN t.cmdErr * 2 ^ 62 + boolN t.bootFault * 2 ^ 61 + t.pstate * 2 ^ 56 + t.stage * 2 ^ 52
    else if off = 0x010 then t.cmd
    else if 0x018 ≤ off && off ≤ 0x030 && off % 8 = 0 then (vec4 t.marg ((off - 0x018) / 8)).toNat
    else if off = 0x038 then t.mresp.toNat
    else if 0x100 ≤ off && off ≤ 0x158 && off % 8 = 0 then vec12 t.dpwr ((off - 0x100) / 8)
    else if 0x200 ≤ off && off ≤ 0x258 && off % 8 = 0 then vec12 t.dtemp ((off - 0x200) / 8)
    else if 0x300 ≤ off && off ≤ 0x358 && off % 8 = 0 then vec12 t.dthr ((off - 0x300) / 8)
    else if off = 0x400 then t.fcount
    else if 0x800 ≤ off && off ≤ 0x9F8 && off % 8 = 0 then ofLeBytes (((t.arep.drop (off - 0x800)).take 8).map (·.toNat))
    else 0
  BitVec.ofNat 64 v

/-- A write of MCMD: dropped while a command runs; else the command starts with the arguments as they stand, or completes BADARG. -/
def State.command (s : State) (v : Word) : State :=
  if s.trebex.busy then s.modTx fun t => { t with cmdErr := true }
  else
    let s := s.modTx fun t => { t with busy := true, cmdAt := s.now, cmd := v.toNat % 2 ^ 16, latched := t.marg }
    if v.toNat < 2 ^ 16 && cmdListed v.toNat then s else s.respond mBADARG 0

/-- A write of a management register: 8 bytes, or it is dropped; the other registers are read-only. -/
def State.regWrite (s : State) (off n : Nat) (v : Word) : State :=
  if n != 8 then s
  else if off = 0x010 then s.command v
  else if 0x018 ≤ off && off ≤ 0x030 && off % 8 = 0 then
    s.modTx fun t => { t with marg := if h : (off - 0x018) / 8 < 4 then t.marg.set ((off - 0x018) / 8) v h else t.marg }
  else s
def execRegisterWrite (off n : Nat) (v : Word) (s : State) : Out := .next (s.regWrite off n v)

/-! ### Running a command (R380) -/

/-- What a command gives: a status and a result, and the state. -/
abbrev CmdOut := Nat × Nat × State

/-- The running command of this code, with its arguments. -/
def State.runCmd (s : State) (code : Nat) (f : Nat → Nat → Nat → Nat → State → CmdOut) : State :=
  if s.trebex.busy && s.trebex.cmd == code then
    let a := fun (i : Nat) => (vec4 s.trebex.latched i).toNat
    let r := f (a 0) (a 1) (a 2) (a 3) s
    r.2.2.respond r.1 r.2.1
  else s

/-- A command of one result. -/
def cmdDone (s : State) : CmdOut := (mOK, 0, s)
def cmdBad (s : State) : CmdOut := (mBADARG, 0, s)

/-- The launch that has a JOB serial: started, or with a reserved rectangle. -/
def State.jobOf (s : State) (arg : Nat) : Option Nat := (s.jobs.find? fun e => e.1 % 2 ^ 32 == arg && arg != 0).map (·.1)
def State.heldOf (s : State) (arg : Nat) : Option Held :=
  s.disp.queues.findSome? fun e => e.2.held.bind fun h => if h.rect.isSome && h.serial % 2 ^ 32 == arg && arg != 0 then some h else none

/-- A rectangle given by its corners in 7-bit fields from bit 0 up, and one that lies in the mesh. -/
def cornersAt (v : Nat) : Option Rect :=
  let x0 := bitsOf v 6 0; let y0 := bitsOf v 13 7; let x1 := bitsOf v 20 14; let y1 := bitsOf v 27 21
  if v / 2 ^ 28 = 0 && x0 ≤ x1 && y0 ≤ y1 then some ⟨x0, y0, x1 + 1 - x0, y1 + 1 - y0⟩ else none
def cornerRect (v : Nat) : Option Rect := (cornersAt v).filter fun r => r.y0 + r.h ≤ meshH

/-- The pages that a queued loom command of the job translated at its issue, those of the named range found again in the tables: a page
that is no longer mapped with the permission it needs is none (R111). -/
def State.loomRewalk (s : State) (j lo hi : Nat) (c : LoomCmd) : LoomCmd :=
  if c.job != j then c
  else
    let need := match c.instr with | .lacp .. => needW | _ => needR
    { c with pages := c.pages.filterMap fun e =>
      if e.1 / 64 < lo / 2 ^ 22 || hi / 2 ^ 22 < e.1 / 64 then some e
      else
        let va : Word := BitVec.ofNat 64 (e.1 * 2 ^ 16)
        match s.walkJob j va with
        | some p => if need.ok p then some (e.1, p.fa va) else none
        | none => none }

/-- INVTLB (R111): the job's entries whose page meets first VA to last VA, and what queued loom commands hold of these pages. Walks read the
tables when they end, and every other access asks the TLB. -/
def State.invtlb (s : State) (a0 a1 a2 a3 : Nat) : CmdOut :=
  if a0 / 2 ^ 32 != 0 || a3 != 0 then cmdBad s
  else
    match s.jobOf a0 with
    | none => (mNOTFOUND, 0, s)
    | some j =>
      let hit := fun (t : TlbEntry) =>
        let lo := if t.page.big then t.vpn / 64 * 2 ^ 22 else t.vpn * 2 ^ 16
        let hi := lo + (if t.page.big then 2 ^ 22 else 2 ^ 16)
        t.job == j && decide (lo ≤ a2) && decide (a1 < hi)
      cmdDone { s with
        spindles := s.spindles.map fun e => (e.1, { e.2 with tlb := e.2.tlb.filter fun t => !hit t })
        clusters := s.clusters.map fun e => (e.1, { e.2 with
          enter := e.2.enter.map (s.loomRewalk j a1 a2), queue := e.2.queue.map (s.loomRewalk j a1 a2) }) }
def execInvtlb (s : State) : Out := .next (s.runCmd 0x01 fun a b c d t => t.invtlb a b c d)

/-- The ring records of a dead queue, from HEADIX in order: each FULL one completes CANCELLED. -/
def State.cancelRing (s : State) (q : Nat) : Nat → State
  | 0 => s
  | k + 1 => match s.takeSlot q with | some r => (s.takeRecord q r).cancelRing q k | none => s

/-- TEARDOWN (R377). -/
def State.teardown (s : State) (a0 a1 a2 a3 : Nat) : CmdOut :=
  if numQueues ≤ a0 || 1 < a1 || a2 != 0 || a3 != 0 then cmdBad s
  else
    let s := s.modQueue a0 fun x => { x with mode := modeDEAD }
    let s := match (s.queue a0).held with | some h => s.completeHeld a0 h 1 0 | none => s
    let s := s.cancelRing a0 64
    if a1 = 0 then cmdDone s
    else
      let js := (s.jobs.filter fun e => e.2.queue == a0).map (·.1)
      cmdDone (js.foldl (fun (s : State) j =>
        if (s.job j).phase == .out then s.modJob j fun jb => { jb with killed := true } else s.killJob j) s)
/-- A LAUNCH into the queue has been served on this cycle: the tear-down is accepted on a later one (R374, R377). -/
def State.teardownWaits (s : State) : Bool := s.running && (s.queue (vec4 s.trebex.latched 0).toNat).launchedAt == s.now + 1
def execTeardown (s : State) : Out :=
  .next (if s.teardownWaits then s else s.runCmd 0x02 fun a b c d t => t.teardown a b c d)

/-- BINDQ (R355, R366): a weight of 0 is refused, read-only fields and reserved bits are zero. -/
def State.bindq (s : State) (a0 a1 a2 a3 : Nat) : CmdOut :=
  if numQueues ≤ a0 || a3 != 0 || bitsOf a1 61 49 != 0 || bitsOf a1 19 0 != 0 || bitsOf a1 48 41 = 0 || a2 / 2 ^ 49 != 0 || a2 % 2 ^ 15 != 0 then cmdBad s
  else
    cmdDone (s.modQueue a0 fun x => { x with
      mode := bitsOf a1 63 62, ovr := false, head := 0, tail := 0, weight := bitsOf a1 48 41, pwin := bitsOf a1 40 33, skn := bitsOf a1 32 28,
      mres := 64 * bitsOf a1 27 20, root := a2, credit := 0, fast := none })
def execBindq (s : State) : Out := .next (s.runCmd 0x03 fun a b c d t => t.bindq a b c d)

/-- WINSET (R112). -/
def State.winset (s : State) (a0 a1 a2 a3 : Nat) : CmdOut :=
  let sp := bitsOf a0 13 0; let w := bitsOf a0 17 16
  if numSpindles ≤ sp || a0 / 2 ^ 18 != 0 || bitsOf a0 15 14 != 0 || bitsOf a1 59 47 != 0 || bitsOf a1 25 21 != 0 || a2 / 2 ^ 28 != 0 || a3 != 0 then cmdBad s
  else
    let put := fun (v : Vector Word 4) (x : Nat) => if h : w < 4 then v.set w (BitVec.ofNat 64 x) h else v
    cmdDone (s.modSp sp fun p => { p with winA := put p.winA a1, winB := put p.winB a2 })
def execWinset (s : State) : Out := .next (s.runCmd 0x04 fun a b c d t => t.winset a b c d)

/-- PAIRSET (R330). -/
def State.pairset (s : State) (a0 a1 a2 a3 : Nat) : CmdOut :=
  if numSpindles ≤ a0 || numSpindles ≤ a1 || numSpindles ≤ a2 || a3 != 0 then cmdBad s
  else cmdDone (s.modSp a0 fun p => { p with primary := a1, secondary := a2 })
def execPairset (s : State) : Out := .next (s.runCmd 0x05 fun a b c d t => t.pairset a b c d)

/-- A containment entry put into a list. -/
def setCont (l : List (Nat × Rect)) (n : Nat) (r : Rect) : List (Nat × Rect) := (l.filter fun e => e.1 != n) ++ [(n, r)]

/-- An entry may stand beside the others: inside the job's rectangle, apart from them, of whole clusters where the launch needs it. -/
def contOk (rect : Rect) (fours : Bool) (others : List (Nat × Rect)) (n : Nat) (r : Rect) : Bool :=
  r.inside rect && !(others.any fun e => e.1 != n && e.2.meets r) &&
  (!fours || (r.x0 % 4 == 0 && r.y0 % 4 == 0 && r.w % 4 == 0 && r.h % 4 == 0))

/-- CONTSET (R384): a rectangle that does not lie in the mesh lies outside the job's. -/
def State.contset (s : State) (a0 a1 a2 a3 : Nat) : CmdOut :=
  if a0 / 2 ^ 32 != 0 || 63 < a1 || a3 != 0 then cmdBad s
  else
    match cornersAt a2, s.jobOf a0, s.heldOf a0 with
    | none, _, _ => cmdBad s
    | some r, some j, _ =>
      let jb := s.job j
      if jb.phase == .out && contOk jb.rect (!jb.trees.isEmpty) jb.conts a1 r then cmdDone (s.modJob j fun x => { x with conts := setCont x.conts a1 r })
      else (mREFUSED, 0, s)
    | some r, none, some h =>
      let l := (s.trebex.contTab.filter fun e => e.1 == h.serial).map (·.2)
      if contOk (h.rect.getD ⟨0, 0, 0, 0⟩) (h.treeTab != 0) l a1 r then
        cmdDone (s.modTx fun t => { t with contTab := (t.contTab.filter fun e => !(e.1 == h.serial && e.2.1 == a1)) ++ [(h.serial, a1, r)] })
      else (mREFUSED, 0, s)
    | some _, none, none => (mNOTFOUND, 0, s)
def execContset (s : State) : Out := .next (s.runCmd 0x06 fun a b c d t => t.contset a b c d)

/-- The fenced spindles of a rectangle, and those that a cleared fence returns: the others are of retired clusters. -/
def State.fencedIn (s : State) (r : Rect) : List Nat := r.spindles.filter fun sp => (s.spindle sp).fenced
def State.returned (s : State) (r : Rect) : List Nat := (s.fencedIn r).filter fun sp => !(s.spindle sp).retired

/-- One fenced spindle of a cleared rectangle: its memory scrubbed, its counters cleared, and its fence unless it is retired. -/
def State.unfence (s : State) (sp : Nat) : State :=
  ((s.scrub (faOf sp 0) (faOf sp (2 ^ 27))).modSp sp fun p => { p with fenced := p.retired, gust := [] }).clearCtxs sp

/-- CLEARFENCE (R385). -/
def State.clearfence (s : State) (a0 a1 a2 a3 : Nat) : CmdOut :=
  match cornerRect a0 with
  | none => cmdBad s
  | some r =>
    if a1 != 0 || a2 != 0 || a3 != 0 then cmdBad s
    else if s.jobs.any fun e => e.2.rect.meets r then (mREFUSED, 0, s)
    else
      let sps := s.fencedIn r
      let back := s.returned r
      let cls := r.clusters.filter fun c => (clusterSpindles c).any sps.contains
      if sps.isEmpty then (mNOTFOUND, 0, s)
      else
        (mOK, (cls.filter fun c => (clusterSpindles c).any back.contains).length,
         cls.foldl (fun (s : State) c => s.modCl c fun x => { x with acc := [] }) (sps.foldl State.unfence s))
def execClearfence (s : State) : Out := .next (s.runCmd 0x07 fun a b c d t => t.clearfence a b c d)

/-- STOP and GO (R333). -/
def State.stopGo (s : State) (halt : Bool) (a0 a1 a2 a3 : Nat) : CmdOut :=
  if a0 / 2 ^ 32 != 0 || a1 != 0 || a2 != 0 || a3 != 0 then cmdBad s
  else
    match s.jobOf a0 with
    | none => (mNOTFOUND, 0, s)
    | some j => cmdDone (if halt then s.haltJob j else s.goJob j)
def execStop (s : State) : Out := .next (s.runCmd 0x08 fun a b c d t => t.stopGo true a b c d)
def execGo (s : State) : Out := .next (s.runCmd 0x09 fun a b c d t => t.stopGo false a b c d)

/-- Words stored from a device-memory address on, which must be mapped and aligned; none where it is not. -/
def State.devWords (s : State) (addr : Nat) (ws : List Nat) : Option State :=
  let fas := (List.range ws.length).map fun i => s.hdmFa (addr + 8 * i)
  if addr % 8 = 0 && 0x8000000 ≤ addr && fas.all (fun f => match f with | some fa => faMapped fa | none => false) then
    some ((fas.zip ws).foldl (fun (s : State) e => match e.1 with | some fa => s.store fa 8 e.2 unitWho | none => s) s)
  else none

/-- The stop record of a spindle, with the channel entries from `first` on (R335). -/
def Spindle.stopRecord (p : Spindle) (sp first : Nat) : List Nat :=
  let es := (p.stopChans.drop first).take 504
  [p.haltCycle, boolN p.halted * 2 ^ 63 + sp * 2 ^ 32 + p.stopJob % 2 ^ 32] ++
  ((p.stopRcvd.toList.zip p.stopSent.toList).map fun e => e.1 * 2 ^ 32 + e.2) ++ [es.length, 0] ++
  (es.map fun e => e.2.2.1 * 2 ^ 32 + e.2.2.2 * 2 ^ 16 + boolN e.2.1 * 2 ^ 15 + e.1) ++ List.replicate (504 - es.length) 0

/-- STOPREAD (R334, R335). -/
def State.stopread (s : State) (a0 a1 a2 a3 : Nat) : CmdOut :=
  if numSpindles ≤ a0 || a3 != 0 then cmdBad s
  else
    let p := s.spindle a0
    match s.devWords a1 (p.stopRecord a0 a2) with
    | some t => (mOK, p.stopChans.length, t)
    | none => cmdBad s
def execStopread (s : State) : Out := .next (s.runCmd 0x0A fun a b c d t => t.stopread a b c d)

/-- PEERMAP (R313); a level-1 table whose CHIP is not the peer's number maps nothing. -/
def State.peermap (s : State) (a0 a1 a2 a3 : Nat) : CmdOut :=
  if a0 / 2 ^ 32 != 0 || 15 < a1 || 255 < a2 || a3 / 2 ^ 49 != 0 || a3 % 2 ^ 15 != 0 then cmdBad s
  else
    match s.jobOf a0, s.heldOf a0 with
    | some j, _ => cmdDone (s.modJob j fun x => { x with peers := Table.set x.peers a1 (a2, a3) })
    | none, some h =>
      cmdDone (s.modTx fun t => { t with peerTab := (t.peerTab.filter fun e => !(e.1 == h.serial && e.2.1 == a1)) ++ [(h.serial, a1, a2, a3)] })
    | none, none => (mNOTFOUND, 0, s)
def execPeermap (s : State) : Out := .next (s.runCmd 0x0B fun a b c d t => t.peermap a b c d)

/-- ROUTE (R313). -/
def State.route (s : State) (a0 a1 a2 a3 : Nat) : CmdOut :=
  if 255 < a0 || 19 < a1 || a2 != 0 || a3 != 0 then cmdBad s
  else cmdDone (s.modTx fun t => { t with routes := Table.set t.routes a0 a1 })
def execRoute (s : State) : Out := .next (s.runCmd 0x0C fun a b c d t => t.route a b c d)

/-- DWMAP (R353, R380): an entry whose bit 63 is 0 maps nothing, and neither does one whose CHIP names another package. -/
def State.dwmap (s : State) (a0 a1 a2 a3 : Nat) : CmdOut :=
  if 4095 < a0 || bitsOf a1 62 49 != 0 || a1 % 2 ^ 20 != 0 || a2 != 0 || a3 != 0 then cmdBad s
  else
    cmdDone (s.modTx fun t => { t with apertures := if bitsOf a1 63 63 = 1 then Table.set t.apertures a0 (a1 % 2 ^ 49) else Table.erase t.apertures a0 })
def execDwmap (s : State) : Out := .next (s.runCmd 0x0D fun a b c d t => t.dwmap a b c d)

/-! ### Power (R381, R382) -/

/-- Work keeps the package from OFF: a held record, or a filled one in a queue of mode HOST or DEVICE. -/
def State.queuesBusy (s : State) : Bool :=
  s.disp.queues.any fun e => e.2.held.isSome ||
    ((e.2.mode == modeHOST || e.2.mode == modeDEVICE) && (List.range 64).any fun r => s.full (ringFa e.1 r))

/-- Every domain but the Trebex controller and the host port loses its power and with it its state; the margin plan and the
retirement list are in flash. MSTATE shows stage 1, the one stage that is not run again. -/
def State.powerOff (s : State) : State :=
  { State.reset with
    now := s.now, clusters := s.clusters.map fun e => (e.1, { voff := e.2.voff, calm := e.2.calm }), peers := s.peers, nextMsg := s.nextMsg, nextTok := s.nextTok,
    agenda := s.agenda, upsets := s.upsets.filter (fun u => match u with | .gone _ => false | _ => true), free := s.free, trebex := { s.trebex with pstate := 2, stage := 1, chip := 0, contTab := [], peerTab := [] } }

/-- PSTATE (R381). -/
def State.setPower (s : State) (a0 a1 a2 a3 : Nat) : CmdOut :=
  if 2 < a0 || a1 != 0 || a2 != 0 || a3 != 0 then cmdBad s
  else
    match s.trebex.pstate, a0 with
    | 0, 1 => if s.jobs.isEmpty then cmdDone (s.modTx fun t => { t with pstate := 1 }) else (mREFUSED, 0, s)
    | 1, 0 => cmdDone (s.modTx fun t => { t with pstate := 0 })
    | 2, 1 => (mREFUSED, 0, s)
    | 2, 0 => cmdDone (s.modTx fun t => { t with pstate := 0, stage := 2, bootFault := false })
    | 2, 2 => cmdDone s
    | _, 2 => if s.jobs.isEmpty && !s.queuesBusy then cmdDone s.powerOff else (mREFUSED, 0, s)
    | _, _ => cmdDone s
def execPstate (s : State) : Out := .next (s.runCmd 0x0E fun a b c d t => t.setPower a b c d)

/-- POWER_WINDOW (R379, R382): a die's power over the last 1 ms, its throttle level, and its hottest monitor as it stands then. -/
def State.powerWindow (s : State) (die mw : Nat) : State :=
  if 12 ≤ die then s
  else
    let l := vec12 s.trebex.dthr die
    let l' := if 820000 < mw then min 8 (l + 1) else if mw ≤ 780000 then l - 1 else l
    s.modTx fun t => { t with
      dpwr := setVec12 t.dpwr die (mw % 2 ^ 32), dthr := setVec12 t.dthr die l', dtemp := setVec12 t.dtemp die (dieTemp s.now die).toNat }
def execPowerWindow (die mw : Nat) (s : State) : Out := .next (s.powerWindow die mw)

/-! ### Margins (R383) -/

/-- A cluster is retired: its containment rectangles are fenced with a retirement mark, and the list in flash names it. -/
def State.retireCluster (s : State) (cl : Nat) : State :=
  let s := (clusterSpindles cl).foldl (fun (s : State) sp =>
    if (s.spindle sp).fenced then s else s.fence (s.containRect sp) cECC sp 0 true) s
  let s := (clusterSpindles cl).foldl (fun (s : State) sp => s.modSp sp fun p => { p with retired := true, fenced := true }) s
  s.modTx fun t => { t with retiredList := insertSorted t.retiredList cl }

/-- MARGIN_SAMPLE with the cluster's lowest slack in ps. `calm` is 1 after an hourly sample of 60 ps or more, 2 while the cluster is
sampled every second. -/
def State.marginSample (s : State) (cl slack : Nat) : State :=
  let x := s.cluster cl
  if numClusters ≤ cl then s
  else if slack < 36 then
    if x.voff = 15 then s.retireCluster cl else s.modCl cl fun c => { c with voff := c.voff + 1, calm := 2 }
  else if x.calm = 2 then s.modCl cl fun c => { c with calm := 0 }
  else if slack < 60 then s.modCl cl fun c => { c with calm := 0 }
  else if x.calm = 1 then s.modCl cl fun c => { c with voff := c.voff - 1 }
  else s.modCl cl fun c => { c with calm := 1 }
def execMarginSample (cl slack : Nat) (s : State) : Out := .next (s.marginSample cl slack)

/-! ### Firmware (R386) and attestation (R387) -/

def imgBytes (l : List Byte) (lo n : Nat) : List Nat := ((l.drop lo).take n).map (·.toNat)
def imgField (l : List Byte) (lo n : Nat) : Nat := ofLeBytes (imgBytes l lo n)

/-- The fused minimum security version of a TYPE as it stands. -/
def State.minSvn (s : State) (ty : Nat) : Nat := (Table.find s.trebex.minSvn ty).getD (factoryMinSvn ty)
/-- The image in flash, or the one the part was made with. -/
def State.flashImage (s : State) (ty : Nat) : List Byte := (Table.find s.trebex.flash ty).getD (factoryImage ty)

/-- The image is valid. -/
def State.imageValid (s : State) (l : List Byte) : Bool :=
  let key := imgBytes l 16 57
  decide (256 ≤ l.length) && imgField l 0 4 == 0x41475846 && decide (imgField l 4 2 ≤ 3) && imgField l 6 2 == 0 &&
  imgField l 12 4 == l.length - 256 && (imgBytes l 187 69).all (· == 0) && decide (s.minSvn (imgField l 4 2) ≤ imgField l 8 4) &&
  ((rootKeys.take 4).zipIdx.any fun k => k.1.map (·.toNat) == key && !keyRevoked k.2) &&
  ed448Verify key (imgBytes l 73 114) (shake256 (imgBytes l 0 16 ++ imgBytes l 256 (l.length - 256)) 64)

/-- Bytes from a device-memory address on, or none where one is not mapped. -/
def State.devBytes (s : State) (addr : Nat) : Nat → Option (List Byte)
  | 0 => some []
  | n + 1 =>
    match (if 0x8000000 ≤ addr then s.hdmFa addr else none) with
    | some fa => if faMapped fa then (s.devBytes (addr + 1) n).map (s.hostByte fa :: ·) else none
    | none => none

/-- FWLOAD. -/
def State.fwload (s : State) (a0 a1 a2 a3 : Nat) : CmdOut :=
  if a2 != 0 || a3 != 0 then cmdBad s
  else
    match s.devBytes a0 a1 with
    | none => cmdBad s
    | some l => if s.imageValid l then cmdDone (s.modTx fun t => { t with flash := Table.set t.flash (imgField l 4 2) l }) else (mSIGFAIL, 0, s)
def execFwload (s : State) : Out := .next (s.runCmd 0x10 fun a b c d t => t.fwload a b c d)

def toBytes (l : List Nat) : List Byte := l.map fun v => BitVec.ofNat 8 v

/-- Bytes 319:0 of an attestation report. -/
def State.reportBody (s : State) (a0 a1 a2 a3 : Nat) : List Nat :=
  let imgs := (List.range 4).map fun ty => Table.get [] s.trebex.running ty
  ([a0, a1, a2, a3].flatMap fun v => leBytes v 8) ++ (imgs.flatMap fun l => shake256 (l.map (·.toNat)) 64) ++
  (imgs.flatMap fun l => leBytes (imgField l 8 4) 4) ++ leBytes partSerial.toNat 8 ++ leBytes s.trebex.fcount 4 ++
  leBytes s.trebex.retiredList.length 2 ++ [0, 0]

/-- The public identity key, which flash holds with its certificate (R387). -/
def identityPublic : List Nat := ed448Public (identitySeed.map (·.toNat))

/-- ATTEST: the report, signed by the identity key. -/
def State.attest (s : State) (a0 a1 a2 a3 : Nat) : CmdOut :=
  let body := s.reportBody a0 a1 a2 a3
  let sig := ed448Sign (identitySeed.map (·.toNat)) (shake256 body 64)
  cmdDone (s.modTx fun t => { t with arep := toBytes (body ++ sig ++ List.replicate 78 0) })
def execAttest (s : State) : Out := .next (s.runCmd 0x0F fun a b c d t => t.attest a b c d)

/-- The eight words of a fence report (R350). -/
def FenceReport.words (r : FenceReport) (chip : Nat) : List Nat :=
  [r.cycle, (r.rect.y0 + r.rect.h - 1) * 2 ^ 21 + (r.rect.x0 + r.rect.w - 1) * 2 ^ 14 + r.rect.y0 * 2 ^ 7 + r.rect.x0,
   boolN r.retire * 256 + r.cause, r.sp, (if r.cause = cECC && !r.retire then chip * 2 ^ 41 + r.fa else 0), boolN r.more * 2 ^ 32 + r.job % 2 ^ 32, 0, 0]

/-- FENCEREAD (R350). -/
def State.fenceread (s : State) (a0 a1 a2 a3 : Nat) : CmdOut :=
  let t := s.trebex
  if a2 != 0 || a3 != 0 then cmdBad s
  else if t.fcount ≤ a0 || a0 < t.fcount - t.reports.length then (mNOTFOUND, 0, s)
  else
    match t.reports[a0 - (t.fcount - t.reports.length)]? with
    | none => (mNOTFOUND, 0, s)
    | some r => match s.devWords a1 (r.words t.chip) with | some u => cmdDone u | none => cmdBad s
def execFenceread (s : State) : Out := .next (s.runCmd 0x11 fun a b c d t => t.fenceread a b c d)

/-- CHIPNO (R403). -/
def State.chipno (s : State) (a0 a1 a2 a3 : Nat) : CmdOut :=
  if 255 < a0 || a1 != 0 || a2 != 0 || a3 != 0 then cmdBad s
  else if s.trebex.stage != 6 || !s.jobs.isEmpty || s.disp.queues.any (fun e => e.2.held.isSome) then (mREFUSED, 0, s)
  else cmdDone (s.modTx fun t => { t with chip := a0 })
def execChipno (s : State) : Out := .next (s.runCmd 0x12 fun a b c d t => t.chipno a b c d)

/-! ### Bring-up (R378) -/

/-- Power is applied: stage 1. What flash, the fuses and the outside world hold stays. -/
def State.powerUp (s : State) : State :=
  { State.reset with
    clusters := s.clusters.map fun e => (e.1, { voff := e.2.voff, calm := e.2.calm }), peers := s.peers, nextMsg := s.nextMsg, nextTok := s.nextTok,
    agenda := s.agenda, upsets := s.upsets.filter (fun u => match u with | .gone _ => false | _ => true), free := s.free,
    trebex := { flash := s.trebex.flash, minSvn := s.trebex.minSvn, retiredList := s.trebex.retiredList } }
def execPowerOn (s : State) : Out := .next s.powerUp

/-- An image of a TYPE runs from this bring-up on. -/
def Trebex.runImage (t : Trebex) (ty : Nat) (l : List Byte) : Trebex := { t with running := Table.set t.running ty l }

/-- Stage 4: memory zero and EMPTY, every table of R384 at its reset value. -/
def State.zeroAll (s : State) : State :=
  let s := { s with mem := [], fe := [], poison := [] }
  let s := { s with spindles := s.spindles.map fun (e : Nat × Spindle) => (e.1, ({ fenced := e.2.fenced, retired := e.2.retired } : Spindle)) }
  let s := { s with clusters := s.clusters.map fun (e : Nat × Cluster) => (e.1, ({ voff := e.2.voff, calm := e.2.calm } : Cluster)) }
  let s := { s with disp := { s.disp with queues := [] } }
  s.modTx fun t => { t with contTab := [], peerTab := [], routes := [], apertures := [] }

/-- The first successful boot of an image whose SVN exceeds the fused minimum raises that minimum. -/
def State.raiseMin (s : State) : State :=
  (List.range 4).foldl (fun (s : State) ty =>
    let v := imgField (Table.get [] s.trebex.running ty) 8 4
    if s.minSvn ty < v then s.modTx fun t => { t with minSvn := Table.set t.minSvn ty v } else s) s

/-- The images of these TYPEs are in flash and valid: no other runs (R386). -/
def State.imagesOk (s : State) (tys : List Nat) : Bool :=
  tys.all fun ty => s.imageValid (s.flashImage ty) && imgField (s.flashImage ty) 4 2 == ty
/-- The images that a stage verifies are valid. -/
def State.stageOk (s : State) (stage : Nat) : Bool :=
  match stage with
  | 1 => s.imagesOk [0]
  | 3 => s.imagesOk [1, 2, 3]
  | _ => true

/-- A stage's work, done well; a port that does not train is down and stops nothing. -/
def State.stageWork (s : State) (stage : Nat) : State :=
  match stage with
  | 1 => s.modTx fun t => t.runImage 0 (s.flashImage 0)
  | 2 => { s with now := 0 }
  | 3 =>
    let s := s.modTx fun t => ((t.runImage 1 (s.flashImage 1)).runImage 2 (s.flashImage 2)).runImage 3 (s.flashImage 3)
    s.trebex.retiredList.foldl (fun (s : State) cl =>
      (clusterSpindles cl).foldl (fun (s : State) sp => s.modSp sp fun p => { p with retired := true, fenced := true }) s) s
  | 4 => s.zeroAll
  | 5 => ({ s with links := (List.range 40).map fun i => (i, { up := portTrains s.free (i / 2) }), free := s.free + 1 }).raiseMin
  | _ => s

/-- BRINGUP_STAGE_DONE: the next stage, or the package stops in this one: where its work failed, `ok` being false, or an image that it
verifies is not valid. In OFF no stage runs. -/
def State.stageDone (s : State) (ok : Bool) : State :=
  let t := s.trebex
  if 6 ≤ t.stage || t.stage = 0 || t.bootFault || t.pstate = 2 then s
  else if !(ok && s.stageOk t.stage) then s.modTx fun t => { t with bootFault := true }
  else
    let s := s.stageWork t.stage
    s.modTx fun x => { x with stage := t.stage + 1, stageAt := s.now }
def execBringupStageDone (ok : Bool) (s : State) : Out := .next (s.stageDone ok)

end Sys2Proof.Machine
end

