-- ==== Sys2Proof/Machine/Fetch.lean ====
section
/-!
DEFINITION. Fetching and decoding a unit (R50, R60-R67), and what stands between a decoded instruction and its effect: PREFIX and PRIV
(R63, R64), an acquire that is outstanding (R120), a pending register (R121), a deferred trap (R123), the checker (R346).
-/
namespace Sys2Proof.Machine
open Sys2Proof.Config

/-- What comes of a fetch: the words and the state, no mapping at an address, an address in the context window (R332), or the context
waits. -/
inductive Fetch (α : Type) where
  | ok (a : α) (s : State)
  | fault (va : Word) (s : State)
  | refused (va : Word) (s : State)
  | wait (s : State)

/-- A fetch that has its words goes on. -/
def Fetch.bind {α β : Type} (x : Fetch α) (f : α → State → Fetch β) : Fetch β :=
  match x with | .ok a s => f a s | .fault v s => .fault v s | .refused v s => .refused v s | .wait s => .wait s

/-! ### The instruction cache (R23, R67) -/

/-- Lines of the 16 KiB cache. -/
def icacheLines : Nat := 256
/-- The 16 words of a line of memory. -/
def State.lineWords (s : State) (line : Nat) : List IWord := (List.range 16).map fun i => BitVec.ofNat 32 (s.read (line + 4 * i) 4)

/-- A line enters a spindle's cache; of a full cache a free value says which line goes. -/
def State.cacheLine (s : State) (sp line : Nat) (ws : List IWord) : State :=
  let l := ((s.spindle sp).icache.filter fun e => e.1 != line)
  let l := if l.length < icacheLines then l else l.eraseIdx (icacheVictim s.free % icacheLines)
  { (s.modSp sp fun p => { p with icache := l ++ [(line, ws)] }) with free := s.free + 1 }

/-- A unit in fetch waits: it is fetched again from its first word. -/
def State.dropUnit (s : State) : State :=
  { (s.modMe fun c => { c with unit := { pc := c.pc } }) with midUnit := false }

/-- A fetched line. -/
def State.cachedLine (s : State) (fa : Nat) : Option (List IWord) :=
  ((s.spindle s.here).icache.find? fun e => e.1 == fa / 64 * 64).map (·.2)

/-- A line that the spindle does not hold is asked of its home, and the context waits with PARK 1 until it arrives (R23). -/
def State.missLine (s : State) (va : Word) (fa : Nat) : State :=
  let (tok, t) := s.dropUnit.takeTok
  (t.send { id := 0, cls := .request, src := s.here, dst := faSp fa, job := s.myJobNo, ctx := keyCtx s.cur, tok := tok, va := va,
            who := s.myWho, body := .fetchLine (fa / 64 * 64) }).parkFor 1 tok .reissue

/-- One word of code (R64): of a cached line that a store has changed, a free value says whether it still gives its old words or is
fetched anew (R67). -/
def State.fetchWord (s : State) (va : Word) : Fetch IWord :=
  if s.me.inWindow va then .refused va s
  else if va.toNat / 2 ^ 52 != 0 then .fault va s
  else
    match s.tlbFind s.here s.myJobNo va with
    | none => .wait (s.dropUnit.parkWalk va true)
    | some p =>
      if !needX.ok p then .fault va s
      else
        let fa := p.fa va
        let s := s.touch va
        match s.cachedLine fa with
        | some l =>
          if l = s.lineWords (fa / 64 * 64) then .ok (l.getD (fa % 64 / 4) 0) s
          else if icacheKeepsOld s.free then .ok (l.getD (fa % 64 / 4) 0) { s with free := s.free + 1 }
          else .wait ({ s with free := s.free + 1 }.missLine va fa)
        | none => .wait (s.missLine va fa)

/-- `n` words of code from an address on. -/
def State.fetchWords : Nat → State → Word → Fetch (List IWord)
  | 0, s, _ => .ok [] s
  | n + 1, s, va => (s.fetchWord va).bind fun w s => (State.fetchWords n s (va + 4)).bind fun ws s => .ok (w :: ws) s

/-- The next word of a unit and every word that its LEN spans. -/
def State.fetchInstr (s : State) (va : Word) : Fetch (List IWord) :=
  (s.fetchWord va).bind fun w s => (State.fetchWords (lenWords w - 1) s (va + 4)).bind fun ws s => .ok (w :: ws) s

/-! ### Between decoding and the effect -/

/-- The memory instructions of R120. -/
def Instr.isMemory : Instr → Bool
  | .ld .. | .ldLiteral .. | .ldSigned .. | .ldSignedLiteral .. | .st .. | .stLiteral .. | .ldf .. | .ldfLiteral .. | .lde ..
  | .ldeLiteral .. | .feq .. | .feqLiteral .. | .stf .. | .stfLiteral .. | .stw .. | .stwLiteral .. | .fec .. | .fecLiteral .. => true
  | .aadd .. | .aand .. | .aor .. | .axor .. | .amins .. | .amaxs .. | .aminn .. | .amaxn .. | .aswap .. | .acas .. | .afadd ..
  | .afmin .. | .afmax .. => true
  | .dadd .. | .dfadd .. | .dmins .. | .dmaxs .. | .dfmin .. | .dfmax .. | .dor .. | .dstore .. => true
  | .vld .. | .vst .. | .vlds .. | .vsts .. | .vldb .. | .vstb .. | .vgath .. | .vscat .. | .vbcst .. => true
  | .lmm .. | .lmmg .. | .lbld .. | .laclr .. | .lacp .. | .lacin .. | .lstat .. => true
  | .send .. | .recv .. | .recvt .. | .chq .. | .chbind .. => true
  | .migr .. | .cpgo .. | .cptry .. => true
  | _ => false

/-- What a step does with the executing context's unit: run an instruction, or leave it in a state it has reached. -/
inductive Fetched where
  | run (i : Instr) (s : State)
  | stay (s : State)

/-- The checker finds a mismatch: the instruction issues again, and a second mismatch on its re-issue fences (R346). -/
def State.checkerFault (s : State) : State :=
  let sp := s.here
  let again := s.me.recheck
  let s := { s with upsets := s.upsets.erase (.checker sp), midUnit := false }
  let s := s.modMe fun c => { c with unit := { pc := c.pc }, readyAt := s.now + 1, recheck := !again, torn := none }
  let s := s.gustEvent sp
  if again && !(s.spindle sp).fenced then s.fence (s.containRect sp) 2 sp 0 false else s

/-- A register of an instruction is the destination of an outstanding REL operation (R121). -/
def RelOp.pends (rs : List Reg) (o : RelOp) : Bool := match o.dest with | some (d, _) => rs.contains d | none => false

/-- The decoded instruction of a unit, its checks passed. -/
def State.admitInstr (s : State) (i : Instr) : Fetched :=
  let c := s.me
  if Instr.isMemory i && c.rels.any (·.acq) then .stay { (s.parkRel 6 false (·.acq)) with midUnit := false }
  else if c.rels.any (RelOp.pends (Instr.regsUsed i)) then .stay { (s.parkRel 1 false (RelOp.pends (Instr.regsUsed i))) with midUnit := false }
  else if s.upsets.contains (.checker s.here) then .stay s.checkerFault
  else .run i { (if c.recheck then s.modMe fun c => { c with recheck := false } else s) with midUnit := false }

/-- Prefix words of the unit so far. -/
def UnitRec.prefixes (u : UnitRec) : Nat := boolN u.rel.isSome + boolN u.far

/-- The word just fetched, of one word, is a second FAR prefix whose ORD is not zero: its kind repeats before its ORD is judged (R63,
R64). -/
def UnitRec.farAgain (u : UnitRec) : Bool :=
  u.far && u.words.length == u.prefixes + 1 &&
    (match u.words.getLast? with | some w => w.toNat / 2 ^ 20 == 0x3E2 && w.toNat % 2 ^ 18 == 0 | none => false)
/-- The unit traps PREFIX at the prefix word that it has just fetched (R63). -/
def State.prefixTwice (s : State) : State :=
  let u := s.me.unit
  s.takeTrap s.cur { (u.info cPREFIX 0) with pc := u.next - 4, skipPc := u.next }

/-- A decoded word of a unit (R63, R64): a prefix word, a legal instruction, or neither. -/
def State.judge (s : State) (d : Option Instr) : Fetched :=
  let u := s.me.unit
  match d with
  | none => if u.farAgain then .stay s.prefixTwice else .run .reservedEncoding { s with midUnit := false }
  | some (.rel o) =>
    if u.rel.isSome then .stay s.prefixTwice else .run (.rel o) s
  | some .far =>
    if u.far then .stay s.prefixTwice else .run .far s
  | some i =>
    if !i.accepts u.rel.isSome u.far then .stay (s.trap cPREFIX 0)
    else if i.supvOnly && !s.me.supv then .stay (s.trap cPRIV 0)
    else s.admitInstr i

/-- The next word of the unit of the executing context, which its fetched words precede. -/
def State.unitWord (s : State) : Fetched :=
  let u := s.me.unit
  let va := u.pc + BitVec.ofNat 64 (4 * u.words.length)
  match s.fetchInstr va with
  | .wait s => .stay s
  | .fault a s => .run (.instructionFetchFault a) { s with midUnit := false }
  | .refused a s => .stay (s.takeTrap s.cur { (u.info cILLEGAL a) with fetchFault := true })
  | .ok ws s =>
    let s := s.modMe fun c => { c with unit := { c.unit with words := u.words ++ ws, next := va + BitVec.ofNat 64 (4 * ws.length) } }
    s.judge (decodeWords ws)

/-- A unit begins at the context's PC. -/
def State.beginUnit (s : State) : Fetched :=
  (s.modMe fun c => { c with unit := { pc := c.pc }, got := [], again := false, kont := .advance, torn := none }).unitWord

/-- A deferred trap is taken before the next instruction, at its PC (R123). -/
def State.takeDeferred (s : State) (t : TrapInfo) : State :=
  (s.modMe fun c => { c with deferred := c.deferred.drop 1 }).takeTrap s.cur t

/-- A context issues its next unit, or the unit it waited in goes on. An issue counts at the spindle (R19); a unit whose fetch waited
issues anew; a deferred trap waits for the end of an access of which words are performed (R165), and a store ahead of its turn keeps the
next unit from issuing (R163). -/
def State.turnOf (s : State) (k : Nat) : Fetched :=
  let s := { s with cur := k, midUnit := false }
  let c := s.me
  match (if c.torn.isSome then [] else c.deferred) with
  | t :: _ => .stay (s.takeDeferred t)
  | [] =>
    if c.again then
      let s := s.modMe fun c => { c with again := false }
      s.admitInstr ((decodeWords (c.unit.words.drop c.unit.prefixes)).getD .reservedEncoding)
    else
      match s.aheadOf k with
      | some tok => .stay (s.parkReplay k tok)
      | none =>
      let s := s.modSp (keySp k) fun p => { p with last := keyCtx k, issuedAt := s.now + 1 }
      (s.modMe fun c => { c with lastIssue := s.now }).beginUnit

end Sys2Proof.Machine
end

