-- ==== Sys2Proof/Machine/NetEvents.lean ====
section
/-!
DEFINITION. The events of contexts and messages: migration (R34-R38), exits, sleep and timeouts, answers and refusals (R114, R120-R123,
R329), page walks (R110), channels (R139), barriers (R90, R196), and resending (R35, R129, R143). An event whose condition does not
hold leaves the state.
-/
namespace Sys2Proof.Machine
open Sys2Proof.Config

/-! ### Migration -/

/-- A home receives a migration message (R35); one answered busy stays with its source, to be sent again. -/
def State.migrateIn (s : State) (m : Msg) : State :=
  match m.body with
  | .migrate g =>
    if !s.windowOk m.dst m.src g.fa g.n 3 then s.refuseMsg m cWINDOW
    else
      match s.arriveThread m.dst { g with job := s.jobNoAt m.dst } with
      | some t => t.send (m.answer (.migAnswer migAccept))
      | none => { s with msgs := s.msgs ++ [{ m with notBefore := s.now + 2 ^ 40, postFront := false }] }.send (m.answer (.migAnswer migBusy))
  | _ => s
def execMigrationMessage (m : Nat) (s : State) : Out :=
  .next (s.onArrive m (fun b => match b with | .migrate _ => true | _ => false) fun x s => s.migrateIn x)

/-- The source's own copy of a migration message that was answered busy, whose time has come. -/
def State.heldMigrant (s : State) (sp c : Nat) : Option Msg :=
  s.msgs.find? fun m => (match m.body with | .migrate _ => true | _ => false) && m.src == sp && m.ctx == c && m.notBefore != 0 &&
    decide (m.notBefore ≤ s.now)

/-- The answer to a departing thread (R18, R35, R38). -/
def State.migrateAnswer (s : State) (m : Msg) (code : Nat) : State :=
  let k := m.key
  if (s.ctx k).st != .departing || (s.ctx k).tok != m.tok then s
  else if code = migAccept then (s.setCtx k (freeCtx (s.ctx k))).freeHandlers (s.jobNoAt m.dst)
  else if code = migBusy then
    { s with msgs := s.msgs.map fun (x : Msg) => if x.tok == m.tok && x.src == m.dst && x.notBefore != 0 then { x with notBefore := s.now + nackRetry } else x }
  else s.takeTrap k ((s.ctx k).unit.info (if code = migFence then cFENCED else cWINDOW) m.va)
def execMigrationAnswer (m : Nat) (s : State) : Out :=
  .next (s.onArrive m (fun b => match b with | .migAnswer _ => true | _ => false) fun x s =>
    match x.body with | .migAnswer code => s.migrateAnswer x code | _ => s)

/-- A migration message is sent again 1,024 cycles after NACK busy (R35). -/
def State.migrateAgain (s : State) (sp c : Nat) : State :=
  match s.heldMigrant sp c with
  | some m => (s.dropMsg m.id).send { m with notBefore := 0 }
  | none => s
def execMigrationResend (sp c : Nat) (s : State) : Out := .next (s.migrateAgain sp c)

/-- A freed context admits the oldest queued thread (R37). -/
def execMigrantAdmission (sp : Nat) (s : State) : Out := .next (s.admitHead sp)

/-- An exit notice reaches the birth spindle (R30). -/
def execExitNotice (m : Nat) (s : State) : Out :=
  .next (s.onArrive m (fun b => match b with | .exitNotice .. => true | _ => false) fun x s =>
    match x.body with | .exitNotice th st => s.holdStatus x.job th st | _ => s)

/-! ### Time -/

/-- The counts of SLEEP and RECVT go on: not while a job's front logs are being delivered, when what remained is kept (R342). -/
def State.counts (s : State) (k : Nat) : Bool := (s.jobAt (keySp k)).phase != .resuming

/-- SLEEP ends (R86). -/
def State.sleepEnd (s : State) (sp c : Nat) : State :=
  let k := keyOf sp c
  match (s.ctx k).wakeAt with
  | some t => if (s.ctx k).park == 12 && s.counts k && decide (t ≤ s.now + 1) then s.complete k 0 else s
  | none => s
def execSleepExpiry (sp c : Nat) (s : State) : Out := .next (s.sleepEnd sp c)

/-- RECVT's timeout writes 0 to its count register (R140). -/
def State.recvtEnd (s : State) (sp c : Nat) : State :=
  let k := keyOf sp c
  match (s.ctx k).wakeAt, decodeWords (s.ctx k).unit.words with
  | some t, some (.recvt _ _ r) =>
    if (s.ctx k).park == 3 && s.counts k && decide (t ≤ s.now) then s.modCtx k fun x => ((x.setReg r 0).advance).woken s.now else s
  | _, _ => s
def execRecvtTimeout (sp c : Nat) (s : State) : Out := .next (s.recvtEnd sp c)

/-- The tokens of the requests, REL operations among them, whose answers a context with PARK 1 or PARK 2 has awaited for 2^30 cycles
since they were last sent (R329). -/
def Context.overdue (c : Context) (now : Nat) : List Nat :=
  if c.st == .parked && (c.park == 1 || c.park == 2) then
    (if c.bounded && decide (c.sentAt + requestTimeoutCycles ≤ now) then [c.tok] else []) ++
      (c.rels.filter fun o => c.waitToks.contains o.tok && decide (o.sentAt + requestTimeoutCycles ≤ now)).map (·.tok)
  else []

/-- A request or its answer is still on its way, on the mesh or on a link, or the request waits at a bank: no message of it is lost. -/
def State.onWay (s : State) (tok : Nat) : Bool :=
  s.msgs.any (fun m => m.tok == tok) || s.spindles.any (fun e => e.2.waiters.any fun w => w.tok == tok) ||
  s.links.any fun e => e.2.queue.any (fun m => m.tok == tok) || e.2.retry.any fun f => f.cargo.any fun m => m.tok == tok

/-- The end of a wait whose answer never comes, apart from its trap: a REL operation is outstanding no more, a commit has been made, a
copy command that waits for its words' acknowledgements ends FAULT. -/
def State.giveUp (s : State) (k tok : Nat) : State :=
  let s := s.modCtx k fun c => { c with rels := c.rels.filter fun o => o.tok != tok }
  match (s.ctx k).kont with
  | .commit _ => s.modCtx k fun c => { c with pairtask := false, task := none }
  | .emptied _ id => s.modCmd (id / 2 ^ 26) id fun x => { x.faultAt (s.ctx k).reqVa with emptying := false, acksLeft := 0 }
  | _ => s

/-- A request whose message was lost traps TIMEOUT 2^30 cycles after its last send (R329). -/
def State.requestEnd (s : State) (sp c : Nat) : State :=
  let k := keyOf sp c
  let x := s.ctx k
  match (x.overdue s.now).find? fun tok => !s.onWay tok with
  | none => s
  | some tok =>
    let t := s.giveUp k tok
    match x.rels.find? fun o => o.tok == tok with
    | some o => t.takeTrap k (x.unit.info cTIMEOUT o.va)
    | none => t.takeTrap k { x.unit.info cTIMEOUT x.reqVa with fetchFault := x.unit.words.isEmpty }
def execRequestTimeout (sp c : Nat) (s : State) : Out := .next (s.requestEnd sp c)

/-! ### Page walks (R110) -/

/-- The walks that a cluster's walker runs. -/
def walkSlots : Nat := 16

/-- A walk of a context completes: its page enters the TLB and the unit goes on, or XLATE. -/
def State.walkEnd (s : State) (sp c : Nat) : State :=
  let k := keyOf sp c
  let cl := clusterOf sp
  match ((s.cluster cl).walks.take walkSlots).find? (fun w => w.key == k) with
  | none => s
  | some w =>
    let s := s.modCl cl fun x => { x with walks := x.walks.erase w }
    let j := s.jobNoAt sp
    match s.walkJob j w.va with
    | some p => (s.tlbInsert sp j w.va p).wakeAgain k
    | none => s.takeTrap k { (s.ctx k).unit.info cXLATE w.va with fetchFault := w.fetch }
def execPageWalkDone (sp c : Nat) (s : State) : Out := .next (s.walkEnd sp c)

/-! ### Requests at their home -/

/-- A read answered at its home, or at the unit it asks. -/
def State.readIn (s : State) (m : Msg) : State :=
  let nack := fun (t : State) cause => t.refuseMsg m cause
  match m.body with
  | .read fa n kind =>
    if kind = 3 then
      match s.windowLoad (keyOf m.dst (fa / 2 ^ 16)) (fa % 2 ^ 16) with
      | some v => s.send (m.answer (.reply v.toNat))
      | none => nack s cILLEGAL
    else
      match s.refuses m.dst m.src fa n 0 with
      | some cause => nack s cause
      | none =>
        if s.pagePoison kind fa n false then s.consumePage m.src kind fa n
        else s.send (m.answer (.reply (s.pageRead kind fa n)))
  | .fetchLine line =>
    match s.refuses m.dst m.src line 64 0 with
    | some cause => nack s cause
    | none =>
      if s.poisoned line 64 then s.consume m.src line 64
      else s.send (m.answer (.line line ((List.range 16).map fun i => BitVec.ofNat 32 (s.read (line + 4 * i) 4))))
  | .chq ch => s.send (m.answer (.reply (s.chqWord m.job ch (m.who % 2 ^ 18))))
  | .bindNote _ => s.send (m.answer .ack)
  | .query kind arg =>
    match kind with
    | 0 =>
      -- LQRY at the dispatcher (R375)
      let q := bitsOf arg 31 18
      let rec_ := Table.get { ser := 0, state := 0, status := 0, job := 0 } (s.queue q).slots (bitsOf arg 17 12)
      let known := arg / 2 ^ 32 == 0 && bitsOf arg 11 0 != 0 && rec_.ser == bitsOf arg 11 0 && q / 16 == (s.job m.job).queue / 16
      s.send (m.answer (.reply (if known then rec_.state * 2 ^ 61 + (if rec_.state = 5 then rec_.status * 2 ^ 48 else 0) + rec_.job % 2 ^ 32 else 0)))
    | 1 => s.send (m.answer (.reply (s.job m.job).frontierWord))
    | 2 => s.send (m.answer (.reply ((s.engine (m.dst - nodeEngine 0)).query m.job arg)))
    | _ =>
      let (code, t) := s.copyCancel (m.dst - nodeEngine 0) m.job arg
      t.send (m.answer (.reply code))
  | _ => s
def execRemoteReadRequest (m : Nat) (s : State) : Out :=
  .next (s.onArrive m (fun b => match b with | .read .. | .fetchLine _ | .chq _ | .bindNote _ | .query .. => true | _ => false)
    fun x s => s.readIn x)

/-- A store performed at its home (R116). -/
def State.writeIn (s : State) (m : Msg) : State :=
  match m.body with
  | .write fa n v kind =>
    if kind = 3 then
      match s.windowStore (keyOf m.dst (fa / 2 ^ 16)) (fa % 2 ^ 16) (BitVec.ofNat 64 v) with
      | some t => t.send (m.answer .ack)
      | none => s.refuseMsg m cILLEGAL
    else
      match s.refuses m.dst m.src fa n 1 with
      | some cause => s.refuseMsg m cause
      | none =>
        if s.hitsCopy kind fa n then s.refuseMsg m cSUBWR
        else if s.pagePoison kind fa n true then s.consumePage m.src kind fa n
        else (((s.noteStore fa m.src m.ctx m.who m.born true).pageWrite kind fa n v m.who).replayDone fa m.src m.ctx).send (m.answer .ack)
  | _ => s
def execRemoteWriteRequest (m : Nat) (s : State) : Out :=
  .next (s.onArrive m (fun b => match b with | .write .. => true | _ => false) fun x s => s.writeIn x)

/-- An atomic performed at its home, indivisibly (R132). -/
def State.atomicIn (s : State) (m : Msg) : State :=
  match m.body with
  | .atomic fa n op b c =>
    match s.refuses m.dst m.src fa n 2 with
    | some cause => s.refuseMsg m cause
    | none =>
      if s.inCopyRegion fa n then s.refuseMsg m cSUBWR
      else if s.poisoned fa n then s.consume m.src fa n
      else
        let (old, t) := s.bankAtomic fa n op b c m.who
        t.send (m.answer (.reply old))
  | _ => s
def execRemoteAtomicRequest (m : Nat) (s : State) : Out :=
  .next (s.onArrive m (fun b => match b with | .atomic .. => true | _ => false) fun x s => s.atomicIn x)

/-- The kind of a synchronising form (R113). -/
def syncKind (op : Nat) : Nat := if op = opLDE then 2 else if op ≤ opFEQ then 0 else 1

/-- A request that waits in a waiter table never times out (R329). -/
def State.unbound (s : State) (k tok : Nat) : State := s.modCtx k fun c => if c.tok == tok then { c with bounded := false } else c

/-- What a bank answers a synchronising form: a message, or for a local form, which is here because its bank was busy before, the end of
its context's wait (R22, R127). -/
def State.syncAnswer (s : State) (m : Msg) (b : Body) : State :=
  if m.src == m.dst then (if s.awaits (m.answer b) then s.complete m.asker b.value else s) else s.send (m.answer b)
/-- Its refusal. -/
def State.syncRefusal (s : State) (m : Msg) (cause : Nat) : State :=
  if m.src == m.dst then (if s.awaits (m.answer .ack) then s.takeTrap m.asker ((s.ctx m.asker).unit.info cause m.va) else s)
  else s.refuseMsg m cause

/-- A synchronising form performed at its home (R127). -/
def State.syncIn (s : State) (m : Msg) : State :=
  match m.body with
  | .sync fa n op data =>
    match s.refuses m.dst m.src fa n (syncKind op) with
    | some cause => s.syncRefusal m cause
    | none =>
      let x : Waiter := { sp := m.src, ctx := m.ctx, tok := m.tok, op := op, fa := fa, n := n, data := data, local_ := m.src == m.dst, who := m.who }
      if syncWrites op && s.inCopyRegion fa n then s.syncRefusal m cSUBWR
      else if s.syncPoison x then s.consume m.src fa n
      else
        match s.bankSync x m.who with
        | (.value v, t) => t.syncAnswer m (.reply v)
        | (.done, t) => t.syncAnswer m .ack
        | (.wait, t) => t.unbound m.asker m.tok
        | (.busy, t) => t.send { m.answer (.nackBusy fa n op data) with notBefore := s.now + waiterRetryCycles }
  | _ => s
def execSyncRequest (m : Nat) (s : State) : Out :=
  .next (s.onArrive m (fun b => match b with | .sync .. => true | _ => false) fun x s => s.syncIn x)

/-- The context that waits for the answer to a message counts its time anew, and so does a REL operation of it (R329). -/
def State.restartTime (s : State) (k tok : Nat) : State :=
  if tok = 0 then s
  else s.modCtx k fun c => { c with sentAt := if c.tok == tok then s.now else c.sentAt,
                                    rels := c.rels.map fun o => if o.tok == tok then { o with sentAt := s.now } else o }

/-- A request that found its waiter table full is sent again (R129), its time counted anew (R329); a local one goes to its bank at
once. One of a REL operation is sent again though its thread is gone (R46, R120). -/
def State.waiterAgain (s : State) (id : Nat) : State :=
  match s.msgs.find? fun m => m.id == id with
  | some m =>
    match m.body with
    | .nackBusy fa n op data =>
      if s.now < m.notBefore || m.logged || !s.logFirst m then s
      else if s.frontHolds m then s.logMsg m
      else
        let s := (if m.postFront then s else s.received m).dropMsg id
        if s.awaits m || (s.relOf m).isSome || m.rel then
          let again : Msg := { id := 0, cls := .request, src := m.dst, dst := m.src, job := m.job, ctx := m.ctx, tok := m.tok, va := m.va,
                               who := m.who, rel := m.rel, body := .sync fa n op data }
          let s := (s.restartTime m.key m.tok).modCtx m.key fun c => if c.tok == m.tok then { c with bounded := true } else c
          if m.src == m.dst then s.syncIn again else s.send again
        else s
    | _ => s
  | none => s
def execWaiterRetry (m : Nat) (s : State) : Out := .next (s.waiterAgain m)

/-- An append at a skein (R193). -/
def State.appendIn (s : State) (m : Msg) : State :=
  match m.body with
  | .append e =>
    match s.appendRefusal m.src e.fa (2 ^ e.sz) 0 with
    | some cause => s.refuseMsg m cause
    | none => (s.append e).send (m.answer .ack)
  | _ => s
def execSkeinAppend (m : Nat) (s : State) : Out :=
  .next (s.onArrive m (fun b => match b with | .append _ => true | _ => false) fun x s => s.appendIn x)

/-- A layer operation at its target's home (R283). -/
def State.layerIn (s : State) (m : Msg) : State :=
  match m.body with
  | .layer op desc ft a b frag =>
    match s.refuses m.dst m.src ft 64 2 with
    | some cause => s.refuseMsg m cause
    | none =>
      match LyrEnv.perform { job := m.job, home := m.dst, who := m.who } s op (BitVec.ofNat 64 desc) a b frag with
      | .ok (v, t) => t.send (m.answer (.reply v))
      | .error (.trap cause addr) => s.send (m.answer (.nack cause addr))
      | .error (.poison fa n) => s.consume m.src fa n
  | _ => s
def execLayerRequest (m : Nat) (s : State) : Out :=
  .next (s.onArrive m (fun b => match b with | .layer .. => true | _ => false) fun x s => s.layerIn x)

/-! ### Answers -/

/-- The last cycle within 17 from `now` on which a die may issue, though its throttle level rises by one meanwhile (R376, R382). -/
def lastIssueBy (now level : Nat) : Nat :=
  let t := now + 17
  if min 8 (level + 1) ≤ t % 16 then t else t - t % 16 - 1

/-- A LAUNCH of spindle `sp` retires on its answer: from then on R376's 17 cycles run for the record it enqueued. The keepers take their
first turn on the last cycle on which their die may issue; the two before it are for the start and the choice. -/
def State.fastClock (s : State) (sp tok : Nat) : State :=
  let by_ := lastIssueBy s.now (vec12 s.trebex.dthr (dieOf sp)) - 3
  let mark := fun (x : Queue) => if x.fast.any (fun f => f.2 == tok) then { x with fastBy := by_ } else x
  { s with disp := { s.disp with queues := s.disp.queues.map fun e => (e.1, mark e.2) } }

/-- The copy command whose emptied words a token's acknowledgements are for (R303). -/
def State.emptier (s : State) (tok : Nat) : Option CopyCmd :=
  if tok = 0 then none else s.engines.findSome? fun e => e.2.cmds.find? fun c => c.emptying && c.tok == tok

/-- A reply or an acknowledgement reaches its context (R22), or the command it is for. -/
def State.replyIn (s : State) (m : Msg) : State :=
  match s.emptier m.tok with
  | some c => s.emptyAck c.engine c.id none
  | none =>
  let s := match m.body with | .line l ws => if s.awaits m then s.cacheLine m.dst l ws else s | _ => s
  let s := if m.src == nodeDisp then s.fastClock m.dst m.tok else s
  if s.awaits m then s.complete m.key m.body.value else s
def execReplyArrival (m : Nat) (s : State) : Out :=
  .next (s.onArrive m (fun b => match b with | .reply _ | .ack | .line .. => true | _ => false) fun x s =>
    match s.relOf x with | some o => s.relDone x.key o (some x.body.value) | none => s.replyIn x)

/-- The acknowledgement of a REL operation (R120). -/
def execRelAck (m : Nat) (s : State) : Out :=
  .next (s.onArrive m (fun b => match b with | .reply _ | .ack => true | _ => false) fun x s =>
    match s.relOf x with | some o => s.relDone x.key o (some x.body.value) | none => s.replyIn x)

/-- The copy base a parked SUBON names. -/
def Context.subBase (c : Context) : Word :=
  match decodeWords c.unit.words with | some (.subon a _ _) => c.reg a | _ => 0

/-- A refusal reaches the context that waits for the answer: its precise trap, or an answer like any other where the form goes on. -/
def State.refusedWait (s : State) (k cause : Nat) (addr : Word) : State :=
  let c := s.ctx k
  match c.kont with
  | .acks _ | .suboff _ | .commit _ => s.complete k 0
  | .drain n f => (s.modCtx k fun c => { c with kont := .drain n (f || cause == cFENCED) }).complete k 0
  | _ => s.takeTrap k { c.unit.info cause addr with fetchFault := c.unit.words.isEmpty }

/-- What a refusal says: its cause and address (R114, R123, R147). -/
def State.refusalOf (s : State) (m : Msg) : Option (Nat × Word) :=
  match m.body with
  | .nack cause addr => some (cause, addr)
  | .subAnswer code =>
    match code with
    | 1 => some (cFENCED, m.va)
    | 2 => some (cWINDOW, m.va)
    | 3 => some (cCHANNEL, (s.ctx m.key).subBase)
    | _ => some (cILLEGAL, 0)
  | _ => none

/-- A refusal reaches its sender. -/
def State.nackIn (s : State) (m : Msg) : State :=
  match m.body with
  | .chanNack _ =>
    -- SEND to a fenced reader: a deferred trap at the writer (R144)
    if (s.ctx m.key).st != .free && whoOf m.job (s.ctx m.key).thidx == m.who then
      s.modCtx m.key fun c => { c with deferred := c.deferred ++ [{ cause := cFENCED, addr := 0, pc := m.va, defer := true }] }
    else s
  | _ =>
    match s.refusalOf m, s.relOf m with
    | some (cause, _), some o => s.relRefused m.key o cause
    | some (cause, addr), none =>
      match s.emptier m.tok with
      | some c => s.emptyAck c.engine c.id (some addr)
      | none => if s.awaits m then s.refusedWait m.key cause addr else s
    | none, _ => s
def execNackRefusal (m : Nat) (s : State) : Out :=
  .next (s.onArrive m (fun b => match b with | .nack .. | .subAnswer _ | .chanNack _ => true | _ => false) fun x s => s.nackIn x)

/-! ### Channels -/

/-- A channel message enters the reader's buffers (R139). -/
def State.chanIn (s : State) (m : Msg) : State :=
  match m.body with
  | .chan ch ws =>
    let s := s.modChan m.job ch fun c => { c with buf := c.buf ++ [ws], narrived := c.narrived + 1 }
    match (s.job m.job).chan ch with
    | some c =>
      match s.findThread m.job c.reader with
      | some k => if (s.ctx k).park == 3 && (s.ctx k).waitsOn ch then s.wakeAgain k else s
      | none => s
    | none => s
  | .mail thidx ws =>
    -- a mailbox message that a front held
    match s.findThread m.job thidx with
    | some k => s.mailTo k { ws := ws }
    | none => s.mailMoving m.job thidx ws
  | _ => s
def execChannelMessage (m : Nat) (s : State) : Out :=
  .next (s.onArrive m (fun b => match b with | .chan .. | .mail .. => true | _ => false) fun x s => s.chanIn x)

/-- A credit returns to the writer's spindle (R139). -/
def State.creditIn (s : State) (m : Msg) : State :=
  match m.body with
  | .credit ch =>
    let s := s.modChan m.job ch fun c => { c with credit := c.credit + 1 }
    match (s.job m.job).chan ch with
    | some c =>
      match s.findThread m.job c.writer with
      | some k => if (s.ctx k).park == 4 && (s.ctx k).waitsOn ch then s.wakeAgain k else s
      | none => s
    | none => s
  | _ => s
def execCreditReturn (m : Nat) (s : State) : Out :=
  .next (s.onArrive m (fun b => match b with | .credit _ => true | _ => false) fun x s => s.creditIn x)

/-- A refused message is sent again after 1,024 cycles (R143, R337), its time counted anew. -/
def State.sendAgain (s : State) (id : Nat) : State :=
  let s := match s.msgs.find? fun m => m.id == id && m.notBefore != 0 && decide (m.notBefore ≤ s.now) with
    | some m => s.restartTime m.asker m.tok
    | none => s
  { s with msgs := s.msgs.map fun m =>
    if m.id == id && m.notBefore != 0 && decide (m.notBefore ≤ s.now) && (match m.body with | .migrate _ | .nackBusy .. => false | _ => true)
    then { m with notBefore := 0 } else m }
def execNackBusyResend (m : Nat) (s : State) : Out := .next (s.sendAgain m)

/-! ### Barriers and plies (R90, R196) -/

/-- The members of a group that live and have arrived at its phase. -/
def Job.arrivalsNow (jb : Job) (g : Nat) : List Arrival :=
  jb.arrivals.filter fun a => a.grp == g && a.phase == jb.ph g && (jb.members g).contains a.thidx

/-- Every member has arrived or exited, and some member has arrived. -/
def Job.phaseFull (jb : Job) (g : Nat) : Bool :=
  !(jb.arrivalsNow g).isEmpty && (jb.members g).all fun th => jb.exited.contains th || jb.arrivedNow g th

/-- An operation on memory that has not been performed yet. -/
def Body.pending : Body → Bool
  | .read .. | .write .. | .atomic .. | .sync .. | .append _ | .nackBusy .. => true
  | _ => false

/-- A REL operation that a member issued before it arrived, or before it ended without arriving, has not been applied (R46). -/
def State.relLeft (s : State) (j g : Nat) : Bool :=
  let jb := s.job j
  ((jb.arrivalsNow g).any fun a =>
    match s.findThread j a.thidx with
    | some k => (s.ctx k).rels.any fun o => decide (o.tok < a.tok)
    | none => false) ||
  (jb.members g).any fun th => jb.exited.contains th &&
    (let before := fun (tok : Nat) => match (jb.arrivalsNow g).find? fun a => a.thidx == th with | some a => decide (tok < a.tok) | none => true
     s.msgs.any (fun m => m.who == whoOf j th && m.body.pending && before m.tok) ||
       s.spindles.any fun e => e.2.waiters.any fun w => w.who == whoOf j th && before w.tok)

/-- A subscription update that a member made before it arrived, or before it exited without arriving, is not acknowledged (R46). -/
def State.updateLeft (s : State) (j g : Nat) : Bool :=
  let jb := s.job j
  let left := fun (th : Nat) (upTo : Option Nat) => s.spindles.any fun e => e.2.pubs.any fun x => x.unacked.any fun u =>
    (match upTo with | some t => decide (u.2.1 ≤ t) | none => true) && u.2.2.contains (whoOf j th)
  ((jb.arrivalsNow g).any fun a => left a.thidx (some a.at_)) ||
    (jb.members g).any fun th => jb.exited.contains th && !jb.arrivedNow g th && left th none

/-- The open batches of the job's spindles close (R149). -/
def State.closeJob (s : State) (j : Nat) : State :=
  (s.spindles.filter fun (e : Nat × Spindle) => e.2.job == some j).foldl (fun s (e : Nat × Spindle) => s.closeBatches e.1 fun _ _ => true) s

/-- A member has arrived at the group's phase by PLY. -/
def Job.plies (jb : Job) (g : Nat) : Bool := (jb.arrivalsNow g).any (·.ply)

/-- The phase completes, its merge done where a member arrived by PLY; its waiters go on. -/
def State.phaseDone (s : State) (j g : Nat) : State :=
  let jb := s.job j
  let p := jb.ph g
  let s := if jb.plies g then
      let s := s.closeJob j
      let s := s.modJob j fun jb => { jb with pliesDone := jb.pliesDone + 1, merging := jb.merging.filter (· != g) }
      { s with spindles := s.spindles.map fun e => if e.2.job == some j then (e.1, { e.2 with plain := [] }) else e }
    else s
  let s := s.modJob j fun jb => { jb with phases := Table.set jb.phases g (p + 1) }
  { s with ctxs := s.ctxs.map fun e =>
    if e.2.st == .parked && e.2.park == 10 && e.2.got == [(g, p)] && s.jobNoAt (keySp e.1) == j then (e.1, e.2.advance.woken s.now) else e }

/-- The merge of a ply phase has begun and moves on; once nothing of it is left, the phase completes (R196). -/
def State.mergeOn (s : State) (j g : Nat) : State :=
  let t := s.mergeStep j g
  if t.mergeLeft j g then t else t.phaseDone j g

/-- A barrier phase completes once its members and their updates are done (R46, R90), and the merge of a ply phase too: that of a job
which is switched out waits for its resume (R201, R343). -/
def State.phaseComplete (s : State) (j g : Nat) : State :=
  if (s.job j).phase != .running && (s.job j).phase != .preempting then s
  else if (s.job j).merging.contains g then s.mergeOn j g
  else if !(s.job j).phaseFull g || s.relLeft j g then s
  else
    let s := s.closeJob j
    if s.updateLeft j g then s
    else if (s.job j).plies g then
      let t := s.beginMerge j g ((s.job j).ph g)
      if t.mergeLeft j g then t else t.phaseDone j g
    else s.phaseDone j g
def execPhaseComplete (job grp : Nat) (s : State) : Out := .next (s.phaseComplete job grp)

/-- A bobbin delivers (R177). -/
def execTaskDelivery (cl : Nat) (s : State) : Out := .next (s.deliverTask cl)

/-! ### Trap records (R330) -/

/-- A record arrives at a buddy: into its handler's mailbox, or refused. -/
def State.recordIn (s : State) (m : Msg) : State :=
  match m.body with
  | .trapRec ws t second act =>
    if s.takesRecord m.job m.dst m.asker then s.mailTo (keyOf m.dst 15) { ws := ws, record := some (m.asker, t, second, act) }
    else s.refuseMsg m 0
  | _ => s
def execTrapRecordArrival (m : Nat) (s : State) : Out :=
  .next (s.onArrive m (fun b => match b with | .trapRec .. => true | _ => false) fun x s => s.recordIn x)

/-- A refused record goes to the next buddy, or is lost. -/
def State.recordBack (s : State) (m : Msg) : State :=
  match m.body with
  | .trapNack ws t second act => s.nextBuddy m.job m.key ws t second act
  | _ => s
def execTrapRecordRefused (m : Nat) (s : State) : Out :=
  .next (s.onArrive m (fun b => match b with | .trapNack .. => true | _ => false) fun x s => s.recordBack x)

end Sys2Proof.Machine
end

