-- ==== Sys2Proof/Machine/Schedule.lean ====
section
/-!
DEFINITION. Who moves next: the issue rule of a spindle (R19, R333, R382), the events that are due or may happen, and the next cycle.
-/
namespace Sys2Proof.Machine
open Sys2Proof.Config

/-! ### Issue (R19) -/

/-- The spindle runs a job, and is not halted or throttled on this cycle. -/
def State.mayRun (s : State) (sp : Nat) : Bool :=
  let p := s.spindle sp
  s.running && p.job.isSome && !p.halted && decide (vec12 s.trebex.dthr (dieOf sp) ≤ s.now % 16)
/-- The spindle may issue on this cycle: it may run, and has not issued yet. -/
def State.mayIssue (s : State) (sp : Nat) : Bool := s.mayRun sp && (s.spindle sp).issuedAt != s.now + 1

/-- A context is READY and nothing holds it. -/
def Context.free_ (c : Context) (now : Nat) : Bool := c.st == .ready && !c.held && decide (c.readyAt ≤ now)
/-- A candidate of R19. -/
def Context.cand (c : Context) (now : Nat) : Bool := c.free_ now && !c.again && decide (c.lastIssue + 8 ≤ now)

/-- The context a spindle issues from: the first candidate after the last one, circularly. -/
def State.pick (s : State) (sp : Nat) : Option Nat :=
  if s.mayIssue sp then
    (((List.range 16).map fun i => keyOf sp (((s.spindle sp).last + i + 1) % 16)).find? fun k => (s.ctx k).cand s.now)
  else none

/-- Contexts that go on with their unit: those whose wait has ended, on a cycle on which their spindle may issue at all, and those that
have words of an access left, which nothing holds back (R165). -/
def State.goingOn (s : State) : List Nat :=
  (s.ctxs.filter fun e => e.2.again && e.2.st == .ready && decide (e.2.readyAt ≤ s.now) &&
    (e.2.torn.isSome || (!e.2.held && s.mayRun (keySp e.1)))).map (·.1)

/-- The turns of contexts on this cycle. -/
def State.turns (s : State) : List Nat := (s.spindles.filterMap fun e => s.pick e.1) ++ s.goingOn

/-- The next cycle: CYCLE runs from stage 3 on, and not in STANDBY (R378, R381). -/
def State.tick (s : State) : State := if s.trebex.pstate == 1 || s.trebex.stage ≤ 2 then s else { s with now := (s.now + 1) % 2 ^ 64 }

/-! ### Events that are due -/

abbrev Act := State → Out

/-- What one context has due. -/
def State.ctxDue (s : State) (k : Nat) (c : Context) : List Act :=
  match c.wakeAt with
  | some t =>
    if !s.counts k then []
    else if c.park == 12 && decide (t ≤ s.now + 1) then [execSleepExpiry (keySp k) (keyCtx k)]
    else if c.park == 3 && decide (t ≤ s.now) then [execRecvtTimeout (keySp k) (keyCtx k)]
    else []
  | none => if (c.overdue s.now).any fun tok => !s.onWay tok then [execRequestTimeout (keySp k) (keyCtx k)] else []

/-- A message set aside whose time has come; a retry that a front has taken into its log waits for its end, and one behind the log's entries
for them (R46, R336). -/
def State.msgDue (s : State) (m : Msg) : List Act :=
  if m.notBefore = 0 || s.now < m.notBefore then []
  else
    match m.body with
    | .nackBusy .. => if !m.logged && s.logFirst m then [execWaiterRetry m.id] else []
    | .migrate _ => [execMigrationResend m.src m.ctx]
    | _ => [execNackBusyResend m.id]

/-- What one spindle has due: batches to close, threads to let in. -/
def State.spDue (s : State) (sp : Nat) (p : Spindle) : List Act :=
  ((p.pubs.flatMap fun e => e.open_.filter fun b => decide (b.opened + batchCycles ≤ s.now)).map fun b => execBatchCloseTimeout sp b.line) ++
  (if !p.migBuf.isEmpty && (s.freeSlot sp fun _ => true).isSome then [execMigrantAdmission sp] else [])

/-- R376's time for a queue's launch has come: its record is taken, and started once it is placed. -/
def State.fastDue (s : State) (q : Nat) (x : Queue) : List Act :=
  match x.fast with
  | some f =>
    if x.fastBy = 0 || s.now < x.fastBy then []
    else
      match x.held with
      | some h => if h.slot = f.1 && (s.canStart q).isSome then [execLaunchStart q] else []
      | none => if s.canTake q && s.takeSlot q == some f.1 then [execRecordTake q] else []
  | none => []

/-- What the dispatcher has due for a queue. -/
def State.queueDue (s : State) (q : Nat) (x : Queue) : List Act :=
  (match x.held with
  | some h =>
    if !h.met && s.running && !(s.depWord h (h.dep 0) == .waiting && s.depWord h (h.dep 1) != .failed) &&
        !(s.depWord h (h.dep 1) == .waiting && s.depWord h (h.dep 0) != .failed) then [execDependencyPoll q] else []
  | none => []) ++ s.fastDue q x

/-- What one job has due. -/
def State.jobDue (s : State) (j : Nat) (jb : Job) : List Act :=
  (if jb.phase == .preempting && !jb.windowOver && decide (jb.preemptAt + jb.pwin ≤ s.now) then [execPreemptWindowExpiry j] else []) ++
  (if s.canSwitchOut j then [execJobSwitchOut j] else []) ++
  (if jb.ringHeld.any fun h => decide (h.1 ≤ s.now) then [fun t => .next t.ringAgain] else [])

/-! ### Arrivals -/

/-- The arrival of a message. -/
def State.arrival (s : State) (m : Msg) : Act :=
  match m.body with
  | .migrate _ => execMigrationMessage m.id
  | .migAnswer _ => execMigrationAnswer m.id
  | .read .. | .fetchLine _ | .chq _ | .query .. | .bindNote _ => execRemoteReadRequest m.id
  | .write .. => execRemoteWriteRequest m.id
  | .atomic .. => execRemoteAtomicRequest m.id
  | .sync .. => execSyncRequest m.id
  | .append _ => execSkeinAppend m.id
  | .reply _ | .ack | .line .. => if (s.relOf m).isSome then execRelAck m.id else execReplyArrival m.id
  | .nack .. | .subAnswer _ | .chanNack _ => execNackRefusal m.id
  | .nackBusy .. => execWaiterRetry m.id
  | .subReq .. => execSubscriptionRequest m.id
  | .batch .. => execBatchApply m.id
  | .batchAck .. => execBatchAck m.id
  | .batchNack _ => execBatchNack m.id
  | .subRemove .. => execSubscriptionRemoval m.id
  | .drainReq .. => execDrainRequest m.id
  | .chan .. | .mail .. => execChannelMessage m.id
  | .credit _ => execCreditReturn m.id
  | .exitNotice .. => execExitNotice m.id
  | .trapRec .. => execTrapRecordArrival m.id
  | .trapNack .. => execTrapRecordRefused m.id
  | .layer .. => execLayerRequest m.id
  | .launch .. => execLaunchRequest m.id
  | .peerChunk .. | .peerEmpty .. => execPeerChunkArrival m.id
  | .chunkAck .. => execChunkAck m.id
  | .token => execFrontToken m.id

/-- Messages that may arrive. -/
def State.arrivals (s : State) : List Act := (s.msgs.filter fun m => (s.arriving m.id fun _ => true).isSome).map s.arrival

/-- A request that has waited 2^30 cycles though no message of it is lost has its next message arrive before the cycle ends, or the one
that stands before it in its flow (R14, R329). -/
def State.hurried (s : State) : List Act :=
  match s.ctxs.flatMap fun e => e.2.overdue s.now with
  | [] => []
  | toks =>
    let late := s.msgs.filter fun m => toks.contains m.tok
    (s.msgs.filter fun m => (late.any fun x => x.cls == m.cls && x.src == m.src && x.dst == m.dst) && (s.arriving m.id fun _ => true).isSome).map
      s.arrival

/-- The most cycles that a bring-up stage takes from stage 3 on, where CYCLE runs: 2, 8 and 3 s at 1.75 GHz (R378). -/
def stageCycles : Nat → Option Nat
  | 3 => some 3500000000
  | 4 => some 14000000000
  | 5 => some 5250000000
  | _ => none
/-- The most cycles that CLEARFENCE takes for a cluster: 100 ms (R385). -/
def clearCycles : Nat := 175000000

/-- What the controller has due: the end of a bring-up stage and of a clearing at their bounds (R378, R385, R402). The return from STANDBY is
over before a cycle counts (R381). -/
def State.trebexDue (s : State) : List Act :=
  let t := s.trebex
  (match stageCycles t.stage with
   | some n => if !t.bootFault && t.pstate != 2 && decide (t.stageAt + n ≤ s.now) then [execBringupStageDone true] else []
   | none => []) ++
  (if t.busy && t.cmd == 7 then
    match cornerRect (vec4 t.latched 0).toNat with
    | some r => if t.cmdAt + clearCycles * r.clusters.length ≤ s.now then [execClearfence] else []
    | none => []
   else [])

/-- Everything due before the cycle ends. -/
def State.due (s : State) : List Act :=
  s.ctxs.flatMap (fun e => s.ctxDue e.1 e.2) ++ s.hurried ++ s.msgs.flatMap s.msgDue ++ s.spindles.flatMap (fun e => s.spDue e.1 e.2) ++
  (s.links.flatMap fun e => if !e.2.retry.isEmpty && !e.2.retrain && decide (e.2.advanced + ackCycles ≤ s.now) then [execLinkAckTimeout e.1] else []) ++
  s.disp.queues.flatMap (fun e => s.queueDue e.1 e.2) ++ s.jobs.flatMap (fun e => s.jobDue e.1 e.2) ++
  s.trebexDue ++ (if s.running && s.disp.pickedAt != s.now + 1 && s.topLevel.isSome then [execLaunchSelect] else [])

/-! ### Events that may happen -/

/-- What may happen at a cluster. -/
def State.clusterActs (s : State) (cl : Nat) (x : Cluster) : List Act :=
  ((x.walks.take walkSlots).map fun w => execPageWalkDone (keySp w.key) (keyCtx w.key)) ++
  (if !x.enter.isEmpty && decide (x.queue.length < 8) then [execLoomQueueEntry cl] else []) ++
  (if s.loomReady cl x then [execLoomStep cl] else []) ++
  (if !x.pend.isEmpty && !x.takers.isEmpty then [execTaskDelivery cl] else [])

/-- What may happen at an engine. -/
def State.engineActs (s : State) (e : Nat) (g : Engine) : List Act :=
  (if g.cmds.any fun c => c.part.isSome || (c.more && !c.flying && s.copyEligible c) then [execCopyChunk e] else []) ++
  (if g.finished.isSome then [execCopyComplete e] else [])

/-- What may happen at a port direction: nothing in STANDBY, in which ports are idle (R381). -/
def State.linkActs (s : State) (h : Nat) (l : HalfLink) : List Act :=
  if s.trebex.pstate = 1 then []
  else
  (if l.wire.isEmpty then [] else [execLinkDataFlit h true]) ++ (if l.retryFlits = 0 then [] else [execLinkRetryFlit h]) ++
  (if (l.acked s.now).pump != l then [execLinkIdleFlit h] else []) ++ (if l.retrain then [execLinkRetrainDone h (retrainOk s.free)] else [])

/-- What may happen to a job: the phases its groups can complete, its end. -/
def State.jobActs (s : State) (j : Nat) (jb : Job) : List Act :=
  (if jb.phase == .running || jb.phase == .preempting then
    ((jb.groups.map (·.1)).filter fun g => jb.merging.contains g || (jb.phaseFull g && !s.relLeft j g)).map fun g => execPhaseComplete j g
   else []) ++
  (if s.running && s.canRetire j then [execLaunchRetire j] else [])

/-- What may happen to a queue: its next record, its go word, its launch. -/
def State.queueActs (s : State) (q : Nat) (x : Queue) : List Act :=
  (if s.canTake q then [execRecordTake q] else []) ++
  (match x.held with
   | some h => if s.running && h.rect.isSome && !h.goRead &&
       (match s.rootPage h.qroot h.gow needR with | some (fa, _) => s.full fa | none => true) then [execGoWordReady q] else []
   | none => []) ++
  (if (s.canStart q).isSome then [execLaunchStart q] else [])

/-- The running management command. -/
def State.mgmtActs (s : State) : List Act :=
  if !s.trebex.busy then []
  else
    match s.trebex.cmd with
    | 0x01 => [execInvtlb] | 0x02 => if s.teardownWaits then [] else [execTeardown]
    | 0x03 => [execBindq] | 0x04 => [execWinset] | 0x05 => [execPairset]
    | 0x06 => [execContset] | 0x07 => [execClearfence] | 0x08 => [execStop] | 0x09 => [execGo] | 0x0A => [execStopread]
    | 0x0B => [execPeermap] | 0x0C => [execRoute] | 0x0D => [execDwmap] | 0x0E => [execPstate] | 0x0F => [execAttest]
    | 0x10 => [execFwload] | 0x11 => [execFenceread] | 0x12 => [execChipno] | _ => []

/-- Everything that may happen next apart from turns of contexts. -/
def State.mayHappen (s : State) : List Act :=
  s.arrivals ++ s.clusters.flatMap (fun e => s.clusterActs e.1 e.2) ++ s.engines.flatMap (fun e => s.engineActs e.1 e.2) ++
  s.links.flatMap (fun e => s.linkActs e.1 e.2) ++ s.jobs.flatMap (fun e => s.jobActs e.1 e.2) ++
  s.disp.queues.flatMap (fun e => s.queueActs e.1 e.2) ++
  (if s.unrav.running.isNone && !s.ravelReady.isEmpty && s.unravel != s then [execUnravelStep] else []) ++ s.mgmtActs ++
  (if decide (s.trebex.stage < 6) && !s.trebex.bootFault && s.trebex.pstate != 2 then [execBringupStageDone true] else [])

/-! ### The choice -/

/-- A row of the opcode table that is an event and no word of a program. -/
def Instr.isEvent : Instr → Bool
  | .migrationMessage .. | .migrationAnswer .. | .migrationResend .. | .migrantAdmission .. | .exitNotice .. | .sleepExpiry ..
  | .recvtTimeout .. | .remoteReadRequest .. | .remoteWriteRequest .. | .remoteAtomicRequest .. | .syncRequest .. | .waiterRetry ..
  | .replyArrival .. | .relAck .. | .nackRefusal .. | .requestTimeout .. | .pageWalkDone .. | .subscriptionRequest ..
  | .batchCloseTimeout .. | .batchApply .. | .batchAck .. | .batchNack .. | .subscriptionRemoval .. | .drainRequest ..
  | .channelMessage .. | .creditReturn .. | .nackBusyResend .. | .phaseComplete .. | .taskDelivery .. | .skeinAppend ..
  | .loomQueueEntry .. | .loomStep .. | .copyChunk .. | .peerChunkArrival .. | .chunkAck .. | .copyComplete .. | .linkDataFlit ..
  | .linkRetryFlit .. | .linkIdleFlit .. | .linkAckTimeout .. | .linkRetrainDone .. | .unravelStep .. | .trapRecordArrival ..
  | .trapRecordRefused .. | .preemptWindowExpiry .. | .frontToken .. | .jobSwitchOut .. | .correctedError .. | .hostFill ..
  | .hostMemWrite .. | .hostMemRead .. | .recordTake .. | .dependencyPoll .. | .launchSelect .. | .goWordReady .. | .launchStart ..
  | .launchRequest .. | .launchRetire .. | .layerRequest .. | .invtlb .. | .teardown .. | .bindq .. | .winset .. | .pairset ..
  | .contset .. | .clearfence .. | .stop .. | .go .. | .stopread .. | .peermap .. | .route .. | .dwmap .. | .pstate .. | .attest ..
  | .fwload .. | .fenceread .. | .chipno .. | .registerWrite .. | .powerOn .. | .bringupStageDone .. | .powerWindow ..
  | .marginSample .. | .uncorrectableEccError .. => true
  | _ => false

/-- One way to move on. -/
inductive Move where
  | act (f : Act)
  | turn (k : Nat)
  | cycle

/-- The ways to move on: what is due comes first; the next cycle only where no context has a turn left on this one. -/
def State.moves (s : State) : List Move :=
  match s.due with
  | [] =>
    let ts := s.turns
    ts.map Move.turn ++ s.mayHappen.map Move.act ++ (if ts.isEmpty && decide (2 < s.trebex.stage) then [Move.cycle] else [])
  | l => l.map Move.act

/-- The move made: the only one, or the one a free value names; none leaves the next cycle. -/
def State.chooseMove (s : State) : Move × State :=
  match s.moves with
  | [] => (.cycle, s)
  | [m] => (m, s)
  | l => (l.getD (pickTurn s.free % l.length) .cycle, { s with free := s.free + 1 })

end Sys2Proof.Machine
end

