-- ==== Sys2Proof/Machine/Special.lean ====
section
/-!
DEFINITION. The meanings of SRD and SWR (R92): the register's number, its direction, the level, then the value.
-/
namespace Sys2Proof.Machine

/-- SRD (R92). -/
def State.srd (s : State) (d : Reg) (sr : Nat) : State :=
  match s.readSr sr with
  | none => s.trap cILLEGAL 0
  | some v => if srReadSup sr && !s.me.supv then s.trap cPRIV 0 else s.setG d v
def execSrd (d : Reg) (sr : BitVec 8) (s : State) : Out := .next (s.srd d sr.toNat)

/-- SWR (R92). -/
def State.swr (s : State) (sr : Nat) (v : Word) : State :=
  if 0x11 < sr || srReadOnly sr then s.trap cILLEGAL 0
  else if s.myJob.srWriteSup sr && !s.me.supv then s.trap cPRIV 0
  else if srBad sr v.toNat then s.trap cILLEGAL 0
  else s.retire fun c => c.writeSr sr v
def execSwr (sr : BitVec 8) (c : Reg) (s : State) : Out := .next (s.swr sr.toNat (s.me.reg c))

end Sys2Proof.Machine
end

