-- ==== Sys2Proof/Machine/Thread.lean ====
section
/-!
DEFINITION. The meanings of the thread instructions (R25, R28-R31, R83-R88).
-/
namespace Sys2Proof.Machine
open Sys2Proof.Config

/-! ### SPAWN and REAP -/

/-- A child as SPAWN starts it (R29). -/
def childImage (jb : Job) (keeper : Context) (thidx : Nat) (pc g1 g2 : Word) : Context :=
  { pc := pc, g := ((Vector.replicate 16 (0 : Word)).set 1 g1).set 2 g2, st := .ready, thidx := thidx, cprof := keeper.cprof,
    gset := gsetOf jb thidx }

/-- The child is started in the lowest context that is FREE with its birth-map bit clear. -/
def State.spawnHere (s : State) (d : Reg) (pc g1 g2 : Word) : State :=
  let sp := s.here
  match s.freeSlot sp (fun c => !(s.spindle sp).birth.getLsbD c) with
  | none => s.setG d 0
  | some c =>
    let jb := s.myJob
    let child := childImage jb s.me (16 * jb.rect.index sp + c) pc g1 g2
    let s := s.modSp sp fun p => { p with birth := p.birth ||| BitVec.ofNat 16 (2 ^ c), exits := Table.erase p.exits c }
    let s := s.modJob s.myJobNo fun jb => { jb with lostAt := Table.erase jb.lostAt (16 * jb.rect.index sp + c) }
    let (born, s) := s.takeTok
    let s := s.modCtx (keyOf sp c) fun old => { child with lastIssue := old.lastIssue, readyAt := s.now + 1, held := jb.holding, born := born }
    s.setG d (BitVec.ofNat 64 c)

/-- SPAWN (R29, R84): migrants that wait are admitted first (R32). -/
def State.spawn (s : State) (d a b c : Reg) : State :=
  if keyCtx s.cur != 0 then s.trap cILLEGAL 0
  else if (s.me.reg a).toNat % 4 != 0 then s.trap cALIGN (s.me.reg a)
  else (s.admitAll s.here).spawnHere d (s.me.reg a) (s.me.reg b) (s.me.reg c)
def execSpawn (d a b c : Reg) (s : State) : Out := .next (s.spawn d a b c)

/-- REAP (R30, R31, R84). -/
def State.reap (s : State) (d a : Reg) : State :=
  let c := (s.me.reg a).toNat
  let p := s.spindle s.here
  if keyCtx s.cur != 0 || c == 0 || decide (15 < c) || !p.birth.getLsbD c || (c == 15 && s.myJob.handlerPc != 0) then s.trap cILLEGAL 0
  else
    match Table.find p.exits c with
    | some st =>
      (s.modSp s.here fun p => { p with exits := Table.erase p.exits c, birth := p.birth &&& BitVec.ofNat 16 (2 ^ 16 - 1 - 2 ^ c) }).setG d
        (BitVec.ofNat 64 (st % 2 ^ 32))
    | none => s.parkOn 11 c
def execReap (d a : Reg) (s : State) : Out := .next (s.reap d a)

/-! ### EXIT, YIELD, SLEEP, MIGR, CKPT -/

/-- EXIT (R85); a compensation thread ends with ARET alone (R325). -/
def State.exit (s : State) (a : Reg) : State :=
  if s.me.pairtask || s.me.thidx == compThidx then s.trap cILLEGAL 0
  else if !s.me.rels.isEmpty then s.parkAll
  else s.endThread s.cur ((s.me.reg a).toNat % 2 ^ 32)
def execExit (a : Reg) (s : State) : Out := .next (s.exit a)

/-- YIELD (R24): LastIssue of the context becomes the current cycle plus 8. -/
def execYield (s : State) : Out := .next (s.retire fun c => { c with lastIssue := s.now + 8 })

/-- SLEEP (R86): PARK 12 until cycle t + n. -/
def State.sleep (s : State) (a : Reg) : State :=
  let n := (s.me.reg a).toNat
  if n = 0 then s.retire id
  else s.modMe fun c => { c with st := .parked, park := 12, kont := .advance, wakeAt := some (s.now + n), again := false }
def execSleep (a : Reg) (s : State) : Out := .next (s.sleep a)

/-- MIGR (R87). -/
def State.migr (s : State) (d a : Reg) : State :=
  let va := s.me.reg a &&& ~~~(7 : Word)
  s.onChk (s.xlate va needR) fun p =>
    let s := s.touch va
    let fa := p.1
    if s.pinned s.cur then s.retire id
    else if s.mustWait fa true then s.parkWait fa true
    else if faSp fa = s.here then s.loadHere d fa 0 8 false
    else s.migrate va fa 0 8 false d
def execMigr (d a : Reg) (s : State) : Out := .next (s.migr d a)

/-- CKPT (R88): in a pre-emption that has begun, the context issues nothing more until the job is switched out. -/
def execCkpt (k : BitVec 12) (s : State) : Out :=
  .next (s.retire fun c =>
    let c := { c with cktab := k.zeroExtend 16 }
    if s.myJob.holding then { c with held := true, ckHeld := some k.toNat } else c)

end Sys2Proof.Machine
end

