-- ==== Sys2Proof/Machine/TrapOps.lean ====
section
/-!
DEFINITION. The meanings of TRAP, BRK, RESUME and IDLE (R103, R104).
-/
namespace Sys2Proof.Machine

/-- TRAP (R103): SWTRAP with g(B) as the record's address. -/
def execTrap (_n : BitVec 8) (b : Reg) (s : State) : Out := .next (s.trap cSWTRAP (s.me.reg b))

/-- BRK (R103): BREAK; in a debug launch the stop tree also halts the job. -/
def State.brk (s : State) : State :=
  let j := s.myJobNo
  let dbg := s.myJob.debug
  let t := s.trap cBREAK 0
  if dbg then t.haltJob j else t
def execBrk (_n : BitVec 8) (s : State) : Out := .next s.brk

/-- RESUME (R104): privileged by STATUS.HANDLER; the code goes to g(D). -/
def State.resumeOp (s : State) (d a : Reg) (mode : Nat) : State :=
  if !s.me.handler then s.trap cPRIV 0
  else
    let k := winTarget s.me.winsel
    let r := s.resume s.me.winsel (s.me.reg a) mode (s.unitAfter s.myJobNo (s.ctx k).pc 3)
    -- the last other thread's end frees this context too (R272)
    if r.2.me.st == .free then r.2 else r.2.setG d (BitVec.ofNat 64 r.1)
def execResume (d a : Reg) (mode : BitVec 4) (s : State) : Out := .next (s.resumeOp d a mode.toNat)

/-- IDLE (R103): PARK 3 until the mailbox holds a message; nothing is read. -/
def execIdle (s : State) : Out := .next (if s.me.mailbox.isEmpty then s.parkOn 3 mailboxNo else s.retire id)

end Sys2Proof.Machine
end

