-- ==== Sys2Proof/Machine/Vector.lean ====
section
/-!
DEFINITION. The meanings of the vector arithmetic forms (R235-R239).
-/
namespace Sys2Proof.Machine

/-- A form of one or two sources under one tag out of a set, its result tag a function of that tag, its lanes a function of the
tag, CPROF and the source lanes; `clash` is a breach of R234. -/
def State.vform (s : State) (vd va : VReg) (others : List VReg) (mg : Reg) (ok : Nat → Bool) (clash : Nat → Bool) (rt : Nat → Nat)
    (f : Nat → Nat → Nat → Nat → FpRes) : State :=
  let c := s.me
  match c.badTags ok va others with
  | some r => s.tagTrap r
  | none =>
    let t := c.vtag va
    if clash t then s.tagTrap ((lowestReg (va :: others)).getD va)
    else
      let vb := others.headD va
      s.writeLanes vd (rt t) (c.maskOf mg) fun i => f t c.cprof.toNat (c.lane va i) (c.lane vb i)

def noClash (_ : Nat) : Bool := false

/-- VADD, VSUB, VMUL. -/
def State.varith (s : State) (op : FpOp) (vd va vb : VReg) (im : BitVec 2) (mg : Reg) (rm : BitVec 2) : State :=
  s.vform vd va [vb] mg tagIntOrFlt (fun t => modeClash t im rm) id fun t cp a b => laneArith op t cp im rm a b

/-- VADD (R235-R237). -/
def execVadd (vd va vb : VReg) (im : BitVec 2) (mg : Reg) (rm : BitVec 2) (s : State) : Out := .next (s.varith .add vd va vb im mg rm)
/-- VSUB (R235-R237). -/
def execVsub (vd va vb : VReg) (im : BitVec 2) (mg : Reg) (rm : BitVec 2) (s : State) : Out := .next (s.varith .sub vd va vb im mg rm)
/-- VMUL (R235-R237). -/
def execVmul (vd va vb : VReg) (im : BitVec 2) (mg : Reg) (rm : BitVec 2) (s : State) : Out := .next (s.varith .mul vd va vb im mg rm)
/-- VFMA (R236): one rounding. -/
def execVfma (vd va vb vc : VReg) (mg : Reg) (rm : BitVec 2) (s : State) : Out :=
  .next (match s.me.badTags tagIsFlt va [vb, vc] with
    | some r => s.tagTrap r
    | none =>
      let c := s.me
      let t := c.vtag va
      s.writeLanes vd t (c.maskOf mg) fun i =>
        fpArith .fma (tagFmt t) c.cprof.toNat (effRM c.cprof.toNat rm.toNat) (c.lane va i) (c.lane vb i) (c.lane vc i))

/-- VMIN and VMAX. -/
def State.vminmax (s : State) (mx : Bool) (vd va vb : VReg) (u : Bool) (mg : Reg) : State :=
  s.vform vd va [vb] mg tagIntOrFlt (fun t => !tagIsInt t && u) id fun t cp a b => laneMinMax mx t cp u a b
/-- VMIN (R236, R237). -/
def execVmin (vd va vb : VReg) (u : Bool) (mg : Reg) (s : State) : Out := .next (s.vminmax false vd va vb u mg)
/-- VMAX (R236, R237). -/
def execVmax (vd va vb : VReg) (u : Bool) (mg : Reg) (s : State) : Out := .next (s.vminmax true vd va vb u mg)
/-- VMINM (R236). -/
def execVminm (vd va vb : VReg) (mg : Reg) (s : State) : Out :=
  .next (s.vform vd va [vb] mg tagIsFlt noClash id fun t cp a b => fpMinMax (tagFmt t) cp false true a b)
/-- VMAXM (R236). -/
def execVmaxm (vd va vb : VReg) (mg : Reg) (s : State) : Out :=
  .next (s.vform vd va [vb] mg tagIsFlt noClash id fun t cp a b => fpMinMax (tagFmt t) cp true true a b)

/-- The lanes of VABS and VNEG: the sign bit alone on floats. -/
def laneAbsNeg (neg sat : Bool) (t a : Nat) : FpRes :=
  let n := tagWidth t
  if tagIsInt t then
    let x := signExt a n
    laneOut false sat n (if neg then -x else (x.natAbs : Int))
  else { bits := if neg then a ^^^ 2 ^ (n - 1) else a % 2 ^ (n - 1) }
/-- VABS (R236, R237). -/
def execVabs (vd va : VReg) (sat : Bool) (mg : Reg) (s : State) : Out :=
  .next (s.vform vd va [] mg tagIntOrFlt (fun t => !tagIsInt t && sat) id fun t _ a _ => laneAbsNeg false sat t a)
/-- VNEG (R236, R237). -/
def execVneg (vd va : VReg) (sat : Bool) (mg : Reg) (s : State) : Out :=
  .next (s.vform vd va [] mg tagIntOrFlt (fun t => !tagIsInt t && sat) id fun t _ a _ => laneAbsNeg true sat t a)

/-- VDIV (R236). -/
def execVdiv (vd va vb : VReg) (mg : Reg) (rm : BitVec 2) (s : State) : Out :=
  .next (s.vform vd va [vb] mg tagIsFlt noClash id fun t cp a b => fpArith .div (tagFmt t) cp (effRM cp rm.toNat) a b a)
/-- VSQRT (R236). -/
def execVsqrt (vd va : VReg) (mg : Reg) (rm : BitVec 2) (s : State) : Out :=
  .next (s.vform vd va [] mg tagIsFlt noClash id fun t cp a _ => fpArith .sqrt (tagFmt t) cp (effRM cp rm.toNat) a a a)

/-- One of the six FP32 functions (R238). -/
def State.vfun (s : State) (g : FpFun) (vd va : VReg) (mg : Reg) (rm : BitVec 2) : State :=
  s.vform vd va [] mg (fun t => t == 7) noClash id fun _ cp a _ => fpFun g cp (effRM cp rm.toNat) a
/-- VRCP (R238). -/
def execVrcp (vd va : VReg) (mg : Reg) (rm : BitVec 2) (s : State) : Out := .next (s.vfun .rcp vd va mg rm)
/-- VRSQ (R238). -/
def execVrsq (vd va : VReg) (mg : Reg) (rm : BitVec 2) (s : State) : Out := .next (s.vfun .rsq vd va mg rm)
/-- VEXP2 (R238). -/
def execVexp2 (vd va : VReg) (mg : Reg) (rm : BitVec 2) (s : State) : Out := .next (s.vfun .exp2 vd va mg rm)
/-- VLOG2 (R238). -/
def execVlog2 (vd va : VReg) (mg : Reg) (rm : BitVec 2) (s : State) : Out := .next (s.vfun .log2 vd va mg rm)
/-- VSIN (R238). -/
def execVsin (vd va : VReg) (mg : Reg) (rm : BitVec 2) (s : State) : Out := .next (s.vfun .sin vd va mg rm)
/-- VCOS (R238). -/
def execVcos (vd va : VReg) (mg : Reg) (rm : BitVec 2) (s : State) : Out := .next (s.vfun .cos vd va mg rm)

/-- A bitwise or shift form: lanes as bit patterns, no flag, no event (R239). -/
def State.vbits (s : State) (vd va vb : VReg) (mg : Reg) (ok : Nat → Bool) (f : Nat → Nat → Nat → Nat) : State :=
  s.vform vd va [vb] mg ok noClash id fun t _ a b => { bits := f (tagWidth t) a b }
/-- VAND (R239). -/
def execVand (vd va vb : VReg) (mg : Reg) (s : State) : Out := .next (s.vbits vd va vb mg tagIsScal fun _ a b => a &&& b)
/-- VOR (R239). -/
def execVor (vd va vb : VReg) (mg : Reg) (s : State) : Out := .next (s.vbits vd va vb mg tagIsScal fun _ a b => a ||| b)
/-- VXOR (R239). -/
def execVxor (vd va vb : VReg) (mg : Reg) (s : State) : Out := .next (s.vbits vd va vb mg tagIsScal fun _ a b => a ^^^ b)
/-- VSHL (R239). -/
def execVshl (vd va vb : VReg) (mg : Reg) (s : State) : Out := .next (s.vbits vd va vb mg tagIsInt fun n a b => a <<< (b % n))
/-- VSHR (R239). -/
def execVshr (vd va vb : VReg) (mg : Reg) (s : State) : Out := .next (s.vbits vd va vb mg tagIsInt fun n a b => a >>> (b % n))
/-- VSAR (R239). -/
def execVsar (vd va vb : VReg) (mg : Reg) (s : State) : Out := .next (s.vbits vd va vb mg tagIsInt fun n a b => truncI (signExt a n / ((2 ^ (b % n) : Nat) : Int)) n)

/-- A comparison: its result has the integer tag of the lane width (R235). -/
def State.vcmp (s : State) (r : FpRel) (vd va vb : VReg) (u : Bool) (mg : Reg) : State :=
  s.vform vd va [vb] mg tagIntOrFlt (fun t => !tagIsInt t && u) (fun t => intTagOf (tagWidth t)) fun t cp a b => laneCmp r t cp u a b
/-- VCEQ (R236, R237). -/
def execVceq (vd va vb : VReg) (mg : Reg) (s : State) : Out := .next (s.vcmp .eq vd va vb false mg)
/-- VCLT (R236, R237). -/
def execVclt (vd va vb : VReg) (u : Bool) (mg : Reg) (s : State) : Out := .next (s.vcmp .lt vd va vb u mg)
/-- VCLE (R236, R237). -/
def execVcle (vd va vb : VReg) (u : Bool) (mg : Reg) (s : State) : Out := .next (s.vcmp .le vd va vb u mg)

/-- The sources of VSEL: VA and VB one tag of 1-10, VC the integer tag of VA's lane width (R235). -/
def Context.vselBad (c : Context) (va vb vc : VReg) : Option VReg :=
  let okA := tagIsScal (c.vtag va)
  lowestReg (([va, vb].filter fun r => !tagIsScal (c.vtag r) || (okA && c.vtag r != c.vtag va)) ++
    (if !tagIsInt (c.vtag vc) || (okA && tagWidth (c.vtag vc) != tagWidth (c.vtag va)) then [vc] else []))
/-- VSEL (R239). -/
def execVsel (vd va vb vc : VReg) (mg : Reg) (s : State) : Out :=
  .next (match s.me.vselBad va vb vc with
    | some r => s.tagTrap r
    | none =>
      let c := s.me
      s.writeLanes vd (c.vtag va) (c.maskOf mg) fun i =>
        { bits := if c.lane vc i != 0 then c.lane va i else c.lane vb i })

end Sys2Proof.Machine
end

