-- ==== Sys2Proof/Machine/VectorConv.lean ====
section
/-!
DEFINITION. The meanings of the conversion, quantisation and tag forms (R245-R249).
-/
namespace Sys2Proof.Machine

/-! ### VCVT (R246) -/

/-- CPROF with DEN cleared: E4M3 and E5M2 operands are never flushed. -/
def noDen (cp : Nat) : Nat := cp - bitsOf cp 3 2 * 4

/-- A lane from a float tag. -/
def cvtFromFloat (ts tt cp : Nat) (rm : Rnd) (n : Bool) (a : Nat) : FpRes :=
  let f := tagFmt ts
  let wide := tagIsFlt ts
  let x := f.decode (if wide then flushIn cp f a else a)
  let den := if wide then denEvent f [a] else 0
  let sn := if x.isSNaN then flNV else 0
  if tagIsFlt tt then
    let t := tagFmt tt
    let r := flushOut cp t (t.round rm x)
    { bits := r.1, flags := r.2 ||| sn, events := den ||| prodEvents t r.1 [f.decode a] }
  else if tagIsInt tt then
    let r := fpToInt f (if wide then cp else noDen cp) rm (tagWidth tt) (!n) a
    { r with events := if wide then r.events else r.events - (r.events &&& evDen) }
  else let r := (tagFmt tt).narrow x; { bits := r.1, flags := r.2, events := den }

/-- A lane from an integer tag. -/
def cvtFromInt (ts tt cp : Nat) (rm : Rnd) (n : Bool) (a : Nat) : FpRes :=
  let i := laneInt n (tagWidth ts) a
  if tagIsFlt tt then intToFp (tagFmt tt) cp rm i
  else if tagIsInt tt then laneOut n true (tagWidth tt) i
  else let r := (tagFmt tt).narrow (Fl.ofInt i); { bits := r.1, flags := r.2 }

/-- A lane of VCVT: under an equal tag it is copied, a float NaN made canonical. -/
def cvtLane (ts tt cp : Nat) (rm : Rnd) (n : Bool) (a : Nat) : FpRes :=
  if ts = tt then
    if tagIsInt ts then { bits := a }
    else
      let f := tagFmt ts
      let x := f.decode a
      { bits := if x.isNaN then f.nan else a, flags := if x.isSNaN then flNV else 0,
        events := if tagIsFlt ts then denEvent f [a] else 0 }
  else if tagIsInt ts then cvtFromInt ts tt cp rm n a
  else cvtFromFloat ts tt cp rm n a

/-- VCVT (R246): the lane tag is the target; target lanes beyond VA's are 0 whatever the mask. -/
def State.vcvt (s : State) (vd va : VReg) (n : Bool) (tt : Nat) (mg : Reg) (rm : BitVec 2) : State :=
  let c := s.me
  let ts := c.vtag va
  if !tagIsScal ts then s.tagTrap va
  else
    let lt := tagLanes tt
    let l := min (tagLanes ts) lt
    let cp := c.cprof.toNat
    let act := (List.range l).filter (laneActive (c.maskOf mg) lt)
    let res := act.map fun i => (i, cvtLane ts tt cp (effRM cp rm.toNat) n (c.lane va i))
    s.laneEvents (res.map fun r => (r.1, r.2.events)) fun s =>
      s.retire fun c =>
        let bits := (List.range lt).map fun i =>
          if l ≤ i then 0
          else match res.find? (fun r => r.1 == i) with | some r => r.2.bits | none => c.keptLane vd tt i
        (c.raise (res.foldl (fun a r => a ||| r.2.flags) 0)).setV vd (BitVec.ofNat 512 (packLanes (tagWidth tt) bits)) tt 0
def execVcvt (vd va : VReg) (n : Bool) (t : BitVec 4) (mg : Reg) (rm : BitVec 2) (s : State) : Out := .next (s.vcvt vd va n t.toNat mg rm)

/-! ### VQNT and VDQ (R247, R248) -/

/-- The 32 exact values of an FP16 or BF16 register. -/
def Context.values32 (c : Context) (v : VReg) : List Fl := (List.range 32).map fun i => (tagFmt (c.vtag v)).decode (c.lane v i)

/-- A register with two blocks replaced from block `b0`: the elements, then the scales. -/
def putBlocks (f : BlkFmt) (b0 : Nat) (old side : Nat) (q : List (Nat × List Nat)) : Nat × Nat :=
  let w := blkElemBits f
  let lanes := (lanesOf old w (512 / w)).zipIdx.map fun e =>
    match q[e.2 / 32 - b0]? with
    | some x => if b0 ≤ e.2 / 32 then x.2.getD (e.2 % 32) 0 else e.1
    | none => e.1
  let sb := blkScaleBits f
  let nb := 512 / w / 32
  let scales := (lanesOf side sb nb).zipIdx.map fun e =>
    match q[e.2 - b0]? with
    | some x => if b0 ≤ e.2 then x.1 else e.1
    | none => e.1
  (packLanes w lanes, packLanes sb scales)

/-- VQNT (R247). -/
def State.vqnt (s : State) (vd va vb : VReg) (f : Nat) (h : Bool) : State :=
  let c := s.me
  match lowestReg ([va, vb].filter fun r => c.vtag r != 5 && c.vtag r != 6) with
  | some r => s.tagTrap r
  | none =>
    let keep := c.vtag vd == blkTag f
    let old := if keep then (c.vreg vd).toNat else 0
    let side := if keep then (c.vside vd).toNat else 0
    let r := putBlocks f (if h then 2 else 0) old side [quantBlk (c.values32 va) f, quantBlk (c.values32 vb) f]
    s.retire fun c => c.setV vd (BitVec.ofNat 512 r.1) (blkTag f) (BitVec.ofNat 64 r.2)
def execVqnt (vd va vb : VReg) (f : BitVec 2) (h : Bool) (s : State) : Out := .next (s.vqnt vd va vb f.toNat h)

/-- VDQ (R248): no flag, no profile. -/
def State.vdq (s : State) (vd va : VReg) (blk : Nat) (f16 : Bool) (mg : Reg) : State :=
  let c := s.me
  let t := c.vtag va
  if !tagIsBlock t || decide (tagBlocks t ≤ blk) then s.tagTrap va
  else
    let rt := if f16 then 5 else 6
    let f := tagBlk t
    let sb := blkScaleBits f
    let sc := laneOf (c.vside va).toNat sb blk
    s.writeLanes vd rt (c.maskOf mg) fun i => { bits := blkTo (tagFmt rt) (blkValue f sc (c.lane va (32 * blk + i))) }
def execVdq (vd va : VReg) (blk : BitVec 2) (f16 : Bool) (mg : Reg) (s : State) : Out := .next (s.vdq vd va blk.toNat f16 mg)

/-! ### VTAG and VTAGQ (R249) -/

/-- VTAG (R249). -/
def State.vtagSet (s : State) (vd va : VReg) (t : Nat) : State :=
  let c := s.me
  if c.vtag va = 0 then s.tagTrap va
  else if t = 0 then s.retire fun c => c.setV vd 0 0 0
  else s.retire fun c => c.setV vd (c.vreg va) t (BitVec.ofNat 64 ((c.vside va).toNat % 2 ^ tagSide t))
def execVtag (vd va : VReg) (t : BitVec 4) (s : State) : Out := .next (s.vtagSet vd va t.toNat)

/-- VTAGQ (R249): the tags in lane 0, VA's sidecar in lane 1. -/
def execVtagq (vd va : VReg) (s : State) : Out :=
  .next (s.retire fun c =>
    let tags := packLanes 4 (c.tag.toList.map (·.toNat))
    c.setV vd (BitVec.ofNat 512 (packLanes 64 [tags, (c.vside va).toNat])) 4 0)

end Sys2Proof.Machine
end

