-- ==== Sys2Proof/Machine/VectorPerm.lean ====
section
/-!
DEFINITION. The meanings of the permutation, reduction and lane-move forms (R250-R254).
-/
namespace Sys2Proof.Machine

/-- VPERM (R251). -/
def State.vperm (s : State) (vd va vb : VReg) (mg : Reg) : State :=
  let c := s.me
  let bad := (if tagIsScal (c.vtag va) then [] else [va]) ++ (if tagIsInt (c.vtag vb) then [] else [vb])
  match lowestReg bad with
  | some r => s.tagTrap r
  | none =>
    if tagWidth (c.vtag vb) != tagWidth (c.vtag va) then s.tagTrap vb
    else
      let t := c.vtag va
      s.writeLanes vd t (c.maskOf mg) fun i => { bits := c.lane va (c.lane vb i % tagLanes t) }
def execVperm (vd va vb : VReg) (mg : Reg) (s : State) : Out := .next (s.vperm vd va vb mg)

/-- The tag checks of the reductions: INT or FLT, and the fields that the tag allows. -/
def State.redCheck (s : State) (va : VReg) (clash : Nat → Bool) (f : Nat → State) : State :=
  let t := s.me.vtag va
  if !tagIntOrFlt t || clash t then s.tagTrap va else f t

/-- VREDA (R252). -/
def execVreda (vd va : VReg) (im : BitVec 2) (mg : Reg) (rm : BitVec 2) (s : State) : Out :=
  let c := s.me
  .next (s.redCheck va (fun t => modeClash t im rm) fun t =>
    s.reduce vd va (c.maskOf mg) (laneArith .add t c.cprof.toNat im rm) 0)

/-- VREDX and VREDN. -/
def State.vredMinMax (s : State) (mx : Bool) (vd va : VReg) (u : Bool) (mg : Reg) : State :=
  let c := s.me
  s.redCheck va (fun t => !tagIsInt t && u) fun t =>
    s.reduce vd va (c.maskOf mg) (laneMinMax mx t c.cprof.toNat u) (emptyMinMax mx t u)
/-- VREDX (R252). -/
def execVredx (vd va : VReg) (u : Bool) (mg : Reg) (s : State) : Out := .next (s.vredMinMax true vd va u mg)
/-- VREDN (R252). -/
def execVredn (vd va : VReg) (u : Bool) (mg : Reg) (s : State) : Out := .next (s.vredMinMax false vd va u mg)

/-- VSCAN (R253): every lane of VD is written. -/
def execVscan (vd va : VReg) (im : BitVec 2) (mg : Reg) (rm : BitVec 2) (s : State) : Out :=
  let c := s.me
  .next (s.redCheck va (fun t => modeClash t im rm) fun t =>
    let lanes := (c.redLanes va (c.maskOf mg)).zipIdx.map fun e => (e.2, e.1)
    let r := scanLanes (laneArith .add t c.cprof.toNat im rm) 0 none lanes
    s.laneEvents r.2.2 fun s => s.retire fun c =>
      (c.raise r.2.1).setV vd (BitVec.ofNat 512 (packLanes (tagWidth t) r.1)) t 0)

/-! ### Lane moves (R254) -/

/-- VMSK (R254). -/
def State.vmsk (s : State) (g : Reg) (va : VReg) : State :=
  let c := s.me
  let t := c.vtag va
  if !tagIsScal t then s.tagTrap va
  else
    let n := tagLanes t
    let per := if n = 64 then 2 else 1
    let bit := fun b => (List.range per).any fun j => c.lane va (b * per + j) != 0
    s.setG g (BitVec.ofNat 64 (((List.range (n / per)).map fun b => if bit b then 2 ^ b else 0).sum))
def execVmsk (g : Reg) (va : VReg) (s : State) : Out := .next (s.vmsk g va)

/-- VINS (R254). -/
def State.vins (s : State) (vd : VReg) (g : Reg) (k : Nat) : State :=
  let c := s.me
  let t := c.vtag vd
  if !tagIsScal t || decide (tagLanes t ≤ k) then s.tagTrap vd
  else
    let w := tagWidth t
    let lanes := (lanesOf (c.vreg vd).toNat w (tagLanes t)).set k ((c.reg g).toNat % 2 ^ w)
    s.retire fun c => c.setV vd (BitVec.ofNat 512 (packLanes w lanes)) t (c.vside vd)
def execVins (vd : VReg) (g : Reg) (k : BitVec 6) (s : State) : Out := .next (s.vins vd g k.toNat)

/-- VEXT (R254). -/
def State.vext (s : State) (g : Reg) (va : VReg) (k : Nat) (sx : Bool) : State :=
  let c := s.me
  let t := c.vtag va
  if !tagIsScal t || decide (tagLanes t ≤ k) then s.tagTrap va
  else
    let x := c.lane va k
    s.setG g (if sx then BitVec.ofInt 64 (signExt x (tagWidth t)) else BitVec.ofNat 64 x)
def execVext (g : Reg) (va : VReg) (k : BitVec 6) (sx : Bool) (s : State) : Out := .next (s.vext g va k.toNat sx)

/-- VSPL (R254). -/
def execVspl (vd : VReg) (g : Reg) (t : BitVec 4) (s : State) : Out :=
  let t := t.toNat
  .next (s.retire fun c =>
    c.setV vd (BitVec.ofNat 512 (packLanes (tagWidth t) ((List.range (tagLanes t)).map fun _ => (c.reg g).toNat))) t 0)

end Sys2Proof.Machine
end

