-- ==== Sys2Proof/Machine/Dispatch.lean ====
section
/-!
DEFINITION. The dispatch of one instruction or event to its meaning, one arm per constructor.
-/
namespace Sys2Proof.Machine

def exec (i : Instr) (s : State) : Host.Outcome State Fault Refusal :=
  match i with
  | .add d a b w => Sys2Proof.Machine.execAdd d a b w s
  | .sub d a b w => Sys2Proof.Machine.execSub d a b w s
  | .and_ d a b w => Sys2Proof.Machine.execAnd d a b w s
  | .or_ d a b w => Sys2Proof.Machine.execOr d a b w s
  | .xor d a b w => Sys2Proof.Machine.execXor d a b w s
  | .andn d a b w => Sys2Proof.Machine.execAndn d a b w s
  | .shl d a b w => Sys2Proof.Machine.execShl d a b w s
  | .shr d a b w => Sys2Proof.Machine.execShr d a b w s
  | .sar d a b w => Sys2Proof.Machine.execSar d a b w s
  | .rol d a b w => Sys2Proof.Machine.execRol d a b w s
  | .mul d a b w => Sys2Proof.Machine.execMul d a b w s
  | .mulhs d a b w => Sys2Proof.Machine.execMulhs d a b w s
  | .mulhn d a b w => Sys2Proof.Machine.execMulhn d a b w s
  | .divs d a b w => Sys2Proof.Machine.execDivs d a b w s
  | .divn d a b w => Sys2Proof.Machine.execDivn d a b w s
  | .rems d a b w => Sys2Proof.Machine.execRems d a b w s
  | .remn d a b w => Sys2Proof.Machine.execRemn d a b w s
  | .mins d a b w => Sys2Proof.Machine.execMins d a b w s
  | .maxs d a b w => Sys2Proof.Machine.execMaxs d a b w s
  | .minn d a b w => Sys2Proof.Machine.execMinn d a b w s
  | .maxn d a b w => Sys2Proof.Machine.execMaxn d a b w s
  | .slts d a b w => Sys2Proof.Machine.execSlts d a b w s
  | .sltn d a b w => Sys2Proof.Machine.execSltn d a b w s
  | .seq d a b w => Sys2Proof.Machine.execSeq d a b w s
  | .sne d a b w => Sys2Proof.Machine.execSne d a b w s
  | .addi d a imm => Sys2Proof.Machine.execAddi d a imm s
  | .addiLiteral d a l => Sys2Proof.Machine.execAddiLiteral d a l s
  | .andi d a imm => Sys2Proof.Machine.execAndi d a imm s
  | .andiLiteral d a l => Sys2Proof.Machine.execAndiLiteral d a l s
  | .ori d a imm => Sys2Proof.Machine.execOri d a imm s
  | .oriLiteral d a l => Sys2Proof.Machine.execOriLiteral d a l s
  | .xori d a imm => Sys2Proof.Machine.execXori d a imm s
  | .xoriLiteral d a l => Sys2Proof.Machine.execXoriLiteral d a l s
  | .slti d a imm => Sys2Proof.Machine.execSlti d a imm s
  | .sltiLiteral d a l => Sys2Proof.Machine.execSltiLiteral d a l s
  | .movi d imm => Sys2Proof.Machine.execMovi d imm s
  | .moviLiteral d l => Sys2Proof.Machine.execMoviLiteral d l s
  | .shli d a k => Sys2Proof.Machine.execShli d a k s
  | .shri d a k => Sys2Proof.Machine.execShri d a k s
  | .sari d a k => Sys2Proof.Machine.execSari d a k s
  | .roli d a k => Sys2Proof.Machine.execRoli d a k s
  | .popc d a => Sys2Proof.Machine.execPopc d a s
  | .clz d a => Sys2Proof.Machine.execClz d a s
  | .ctz d a => Sys2Proof.Machine.execCtz d a s
  | .brev d a => Sys2Proof.Machine.execBrev d a s
  | .bswap d a => Sys2Proof.Machine.execBswap d a s
  | .bfxs d a b => Sys2Proof.Machine.execBfxs d a b s
  | .bfxn d a b => Sys2Proof.Machine.execBfxn d a b s
  | .bfi d a b => Sys2Proof.Machine.execBfi d a b s
  | .sel d a b c => Sys2Proof.Machine.execSel d a b c s
  | .br disp => Sys2Proof.Machine.execBr disp s
  | .beqz a disp => Sys2Proof.Machine.execBeqz a disp s
  | .bnez a disp => Sys2Proof.Machine.execBnez a disp s
  | .bltz a disp => Sys2Proof.Machine.execBltz a disp s
  | .bgez a disp => Sys2Proof.Machine.execBgez a disp s
  | .bgtz a disp => Sys2Proof.Machine.execBgtz a disp s
  | .blez a disp => Sys2Proof.Machine.execBlez a disp s
  | .call disp => Sys2Proof.Machine.execCall disp s
  | .jmpr a => Sys2Proof.Machine.execJmpr a s
  | .callr a => Sys2Proof.Machine.execCallr a s
  | .ret => Sys2Proof.Machine.execRet s
  | .ld d a sz off => Sys2Proof.Machine.execLd d a sz off s
  | .ldLiteral d a sz l => Sys2Proof.Machine.execLdLiteral d a sz l s
  | .ldSigned d a sz off => Sys2Proof.Machine.execLdSigned d a sz off s
  | .ldSignedLiteral d a sz l => Sys2Proof.Machine.execLdSignedLiteral d a sz l s
  | .st d a sz off => Sys2Proof.Machine.execSt d a sz off s
  | .stLiteral d a sz l => Sys2Proof.Machine.execStLiteral d a sz l s
  | .ldf d a sz off => Sys2Proof.Machine.execLdf d a sz off s
  | .ldfLiteral d a sz l => Sys2Proof.Machine.execLdfLiteral d a sz l s
  | .lde d a sz off => Sys2Proof.Machine.execLde d a sz off s
  | .ldeLiteral d a sz l => Sys2Proof.Machine.execLdeLiteral d a sz l s
  | .feq d a off => Sys2Proof.Machine.execFeq d a off s
  | .feqLiteral d a l => Sys2Proof.Machine.execFeqLiteral d a l s
  | .stf d a sz off => Sys2Proof.Machine.execStf d a sz off s
  | .stfLiteral d a sz l => Sys2Proof.Machine.execStfLiteral d a sz l s
  | .stw d a sz off => Sys2Proof.Machine.execStw d a sz off s
  | .stwLiteral d a sz l => Sys2Proof.Machine.execStwLiteral d a sz l s
  | .fec a off => Sys2Proof.Machine.execFec a off s
  | .fecLiteral a l => Sys2Proof.Machine.execFecLiteral a l s
  | .aadd d a b w => Sys2Proof.Machine.execAadd d a b w s
  | .aand d a b w => Sys2Proof.Machine.execAand d a b w s
  | .aor d a b w => Sys2Proof.Machine.execAor d a b w s
  | .axor d a b w => Sys2Proof.Machine.execAxor d a b w s
  | .amins d a b w => Sys2Proof.Machine.execAmins d a b w s
  | .amaxs d a b w => Sys2Proof.Machine.execAmaxs d a b w s
  | .aminn d a b w => Sys2Proof.Machine.execAminn d a b w s
  | .amaxn d a b w => Sys2Proof.Machine.execAmaxn d a b w s
  | .aswap d a b w => Sys2Proof.Machine.execAswap d a b w s
  | .acas d a b c w => Sys2Proof.Machine.execAcas d a b c w s
  | .afadd d a b w => Sys2Proof.Machine.execAfadd d a b w s
  | .afmin d a b w => Sys2Proof.Machine.execAfmin d a b w s
  | .afmax d a b w => Sys2Proof.Machine.execAfmax d a b w s
  | .dadd a b c w => Sys2Proof.Machine.execDadd a b c w s
  | .dfadd a b c => Sys2Proof.Machine.execDfadd a b c s
  | .dmins a b c w => Sys2Proof.Machine.execDmins a b c w s
  | .dmaxs a b c w => Sys2Proof.Machine.execDmaxs a b c w s
  | .dfmin a b c => Sys2Proof.Machine.execDfmin a b c s
  | .dfmax a b c => Sys2Proof.Machine.execDfmax a b c s
  | .dor a b c w => Sys2Proof.Machine.execDor a b c w s
  | .dstore a b c sz => Sys2Proof.Machine.execDstore a b c sz s
  | .fence => Sys2Proof.Machine.execFence s
  | .drain => Sys2Proof.Machine.execDrain s
  | .waita => Sys2Proof.Machine.execWaita s
  | .send a b n1 => Sys2Proof.Machine.execSend a b n1 s
  | .recv d a => Sys2Proof.Machine.execRecv d a s
  | .recvt d a c => Sys2Proof.Machine.execRecvt d a c s
  | .chq d a => Sys2Proof.Machine.execChq d a s
  | .chbind d a b => Sys2Proof.Machine.execChbind d a b s
  | .spawn d a b c => Sys2Proof.Machine.execSpawn d a b c s
  | .reap d a => Sys2Proof.Machine.execReap d a s
  | .exit a => Sys2Proof.Machine.execExit a s
  | .yield => Sys2Proof.Machine.execYield s
  | .sleep a => Sys2Proof.Machine.execSleep a s
  | .migr d a => Sys2Proof.Machine.execMigr d a s
  | .ckpt k => Sys2Proof.Machine.execCkpt k s
  | .gbar a => Sys2Proof.Machine.execGbar a s
  | .garr a => Sys2Proof.Machine.execGarr a s
  | .gwait a => Sys2Proof.Machine.execGwait a s
  | .gqry d a => Sys2Proof.Machine.execGqry d a s
  | .ply a => Sys2Proof.Machine.execPly a s
  | .srd d sr => Sys2Proof.Machine.execSrd d sr s
  | .swr sr c => Sys2Proof.Machine.execSwr sr c s
  | .subon a b c => Sys2Proof.Machine.execSubon a b c s
  | .suboff a => Sys2Proof.Machine.execSuboff a s
  | .subq d a => Sys2Proof.Machine.execSubq d a s
  | .subfl => Sys2Proof.Machine.execSubfl s
  | .launch d a b => Sys2Proof.Machine.execLaunch d a b s
  | .lqry d a => Sys2Proof.Machine.execLqry d a s
  | .trap n b => Sys2Proof.Machine.execTrap n b s
  | .brk n => Sys2Proof.Machine.execBrk n s
  | .resume d a mode => Sys2Proof.Machine.execResume d a mode s
  | .idle => Sys2Proof.Machine.execIdle s
  | .fadd d a b dbl rf => Sys2Proof.Machine.execFadd d a b dbl rf s
  | .fsub d a b dbl rf => Sys2Proof.Machine.execFsub d a b dbl rf s
  | .fmul d a b dbl rf => Sys2Proof.Machine.execFmul d a b dbl rf s
  | .ffma d a b dbl rf => Sys2Proof.Machine.execFfma d a b dbl rf s
  | .fdiv d a b dbl rf => Sys2Proof.Machine.execFdiv d a b dbl rf s
  | .fsqrt d a dbl rf => Sys2Proof.Machine.execFsqrt d a dbl rf s
  | .fmin d a b dbl => Sys2Proof.Machine.execFmin d a b dbl s
  | .fmax d a b dbl => Sys2Proof.Machine.execFmax d a b dbl s
  | .fminm d a b dbl => Sys2Proof.Machine.execFminm d a b dbl s
  | .fmaxm d a b dbl => Sys2Proof.Machine.execFmaxm d a b dbl s
  | .fabs d a dbl => Sys2Proof.Machine.execFabs d a dbl s
  | .fneg d a dbl => Sys2Proof.Machine.execFneg d a dbl s
  | .fceq d a b dbl => Sys2Proof.Machine.execFceq d a b dbl s
  | .fclt d a b dbl => Sys2Proof.Machine.execFclt d a b dbl s
  | .fcle d a b dbl => Sys2Proof.Machine.execFcle d a b dbl s
  | .fcun d a b dbl => Sys2Proof.Machine.execFcun d a b dbl s
  | .fcvt d a k cf => Sys2Proof.Machine.execFcvt d a k cf s
  | .frnd d a dbl cf => Sys2Proof.Machine.execFrnd d a dbl cf s
  | .vadd vd va vb im mg rm => Sys2Proof.Machine.execVadd vd va vb im mg rm s
  | .vsub vd va vb im mg rm => Sys2Proof.Machine.execVsub vd va vb im mg rm s
  | .vmul vd va vb im mg rm => Sys2Proof.Machine.execVmul vd va vb im mg rm s
  | .vfma vd va vb vc mg rm => Sys2Proof.Machine.execVfma vd va vb vc mg rm s
  | .vmin vd va vb u mg => Sys2Proof.Machine.execVmin vd va vb u mg s
  | .vmax vd va vb u mg => Sys2Proof.Machine.execVmax vd va vb u mg s
  | .vminm vd va vb mg => Sys2Proof.Machine.execVminm vd va vb mg s
  | .vmaxm vd va vb mg => Sys2Proof.Machine.execVmaxm vd va vb mg s
  | .vabs vd va sat mg => Sys2Proof.Machine.execVabs vd va sat mg s
  | .vneg vd va sat mg => Sys2Proof.Machine.execVneg vd va sat mg s
  | .vdiv vd va vb mg rm => Sys2Proof.Machine.execVdiv vd va vb mg rm s
  | .vsqrt vd va mg rm => Sys2Proof.Machine.execVsqrt vd va mg rm s
  | .vrcp vd va mg rm => Sys2Proof.Machine.execVrcp vd va mg rm s
  | .vrsq vd va mg rm => Sys2Proof.Machine.execVrsq vd va mg rm s
  | .vexp2 vd va mg rm => Sys2Proof.Machine.execVexp2 vd va mg rm s
  | .vlog2 vd va mg rm => Sys2Proof.Machine.execVlog2 vd va mg rm s
  | .vsin vd va mg rm => Sys2Proof.Machine.execVsin vd va mg rm s
  | .vcos vd va mg rm => Sys2Proof.Machine.execVcos vd va mg rm s
  | .vand vd va vb mg => Sys2Proof.Machine.execVand vd va vb mg s
  | .vor vd va vb mg => Sys2Proof.Machine.execVor vd va vb mg s
  | .vxor vd va vb mg => Sys2Proof.Machine.execVxor vd va vb mg s
  | .vshl vd va vb mg => Sys2Proof.Machine.execVshl vd va vb mg s
  | .vshr vd va vb mg => Sys2Proof.Machine.execVshr vd va vb mg s
  | .vsar vd va vb mg => Sys2Proof.Machine.execVsar vd va vb mg s
  | .vceq vd va vb mg => Sys2Proof.Machine.execVceq vd va vb mg s
  | .vclt vd va vb u mg => Sys2Proof.Machine.execVclt vd va vb u mg s
  | .vcle vd va vb u mg => Sys2Proof.Machine.execVcle vd va vb u mg s
  | .vsel vd va vb vc mg => Sys2Proof.Machine.execVsel vd va vb vc mg s
  | .vld v a t mg off => Sys2Proof.Machine.execVld v a t mg off s
  | .vst v a mg off => Sys2Proof.Machine.execVst v a mg off s
  | .vlds v a b mg t => Sys2Proof.Machine.execVlds v a b mg t s
  | .vsts v a b mg => Sys2Proof.Machine.execVsts v a b mg s
  | .vldb v a b f => Sys2Proof.Machine.execVldb v a b f s
  | .vstb v a b => Sys2Proof.Machine.execVstb v a b s
  | .vgath v a t mg vi => Sys2Proof.Machine.execVgath v a t mg vi s
  | .vscat v a mg vi => Sys2Proof.Machine.execVscat v a mg vi s
  | .vbcst v a t mg off => Sys2Proof.Machine.execVbcst v a t mg off s
  | .vcvt vd va n t mg rm => Sys2Proof.Machine.execVcvt vd va n t mg rm s
  | .vqnt vd va vb f h => Sys2Proof.Machine.execVqnt vd va vb f h s
  | .vdq vd va blk f16 mg => Sys2Proof.Machine.execVdq vd va blk f16 mg s
  | .vtag vd va t => Sys2Proof.Machine.execVtag vd va t s
  | .vtagq vd va => Sys2Proof.Machine.execVtagq vd va s
  | .vperm vd va vb mg => Sys2Proof.Machine.execVperm vd va vb mg s
  | .vreda vd va im mg rm => Sys2Proof.Machine.execVreda vd va im mg rm s
  | .vredx vd va u mg => Sys2Proof.Machine.execVredx vd va u mg s
  | .vredn vd va u mg => Sys2Proof.Machine.execVredn vd va u mg s
  | .vscan vd va im mg rm => Sys2Proof.Machine.execVscan vd va im mg rm s
  | .vmsk g va => Sys2Proof.Machine.execVmsk g va s
  | .vins vd g k => Sys2Proof.Machine.execVins vd g k s
  | .vext g va k sx => Sys2Proof.Machine.execVext g va k sx s
  | .vspl vd g t => Sys2Proof.Machine.execVspl vd g t s
  | .lmm d a b af bf ng kg clear colg m1 => Sys2Proof.Machine.execLmm d a b af bf ng kg clear colg m1 s
  | .lmmg d a b c af bf ng kg clear colg => Sys2Proof.Machine.execLmmg d a b c af bf ng kg clear colg s
  | .lbld d a b bf ng kg => Sys2Proof.Machine.execLbld d a b bf ng kg s
  | .laclr a row colg ncg => Sys2Proof.Machine.execLaclr a row colg ncg s
  | .lacp d a row colg ncg fmt => Sys2Proof.Machine.execLacp d a row colg ncg fmt s
  | .lacin d a row colg ncg fmt => Sys2Proof.Machine.execLacin d a row colg ncg fmt s
  | .lstat d => Sys2Proof.Machine.execLstat d s
  | .pseed a => Sys2Proof.Machine.execPseed a s
  | .ptake d a b => Sys2Proof.Machine.execPtake d a b s
  | .pload d a sx sz off treeB => Sys2Proof.Machine.execPload d a sx sz off treeB s
  | .ptest d a b c => Sys2Proof.Machine.execPtest d a b c s
  | .pfork a => Sys2Proof.Machine.execPfork a s
  | .pdone => Sys2Proof.Machine.execPdone s
  | .pqry d a => Sys2Proof.Machine.execPqry d a s
  | .fins d a b c => Sys2Proof.Machine.execFins d a b c s
  | .lres d a b c => Sys2Proof.Machine.execLres d a b c s
  | .lclr d a b c => Sys2Proof.Machine.execLclr d a b c s
  | .lcnt d a b => Sys2Proof.Machine.execLcnt d a b s
  | .lpool d a => Sys2Proof.Machine.execLpool d a s
  | .abegin d => Sys2Proof.Machine.execAbegin d s
  | .apush a b c => Sys2Proof.Machine.execApush a b c s
  | .acommit => Sys2Proof.Machine.execAcommit s
  | .aabandon => Sys2Proof.Machine.execAabandon s
  | .aret => Sys2Proof.Machine.execAret s
  | .aqry d a => Sys2Proof.Machine.execAqry d a s
  | .afix d a mode => Sys2Proof.Machine.execAfix d a mode s
  | .cpset sr c => Sys2Proof.Machine.execCpset sr c s
  | .cpseti sr l => Sys2Proof.Machine.execCpseti sr l s
  | .cpgo d => Sys2Proof.Machine.execCpgo d s
  | .cptry d => Sys2Proof.Machine.execCptry d s
  | .cpq d a => Sys2Proof.Machine.execCpq d a s
  | .cpcan d a => Sys2Proof.Machine.execCpcan d a s
  | .rel ord => Sys2Proof.Machine.execRel ord s
  | .far => Sys2Proof.Machine.execFar s
  | .reservedEncoding => Sys2Proof.Machine.execReservedEncoding s
  | .instructionFetchFault va => Sys2Proof.Machine.execInstructionFetchFault va s
  | .migrationMessage m => Sys2Proof.Machine.execMigrationMessage m s
  | .migrationAnswer m => Sys2Proof.Machine.execMigrationAnswer m s
  | .migrationResend sp c => Sys2Proof.Machine.execMigrationResend sp c s
  | .migrantAdmission sp => Sys2Proof.Machine.execMigrantAdmission sp s
  | .exitNotice m => Sys2Proof.Machine.execExitNotice m s
  | .sleepExpiry sp c => Sys2Proof.Machine.execSleepExpiry sp c s
  | .recvtTimeout sp c => Sys2Proof.Machine.execRecvtTimeout sp c s
  | .remoteReadRequest m => Sys2Proof.Machine.execRemoteReadRequest m s
  | .remoteWriteRequest m => Sys2Proof.Machine.execRemoteWriteRequest m s
  | .remoteAtomicRequest m => Sys2Proof.Machine.execRemoteAtomicRequest m s
  | .syncRequest m => Sys2Proof.Machine.execSyncRequest m s
  | .waiterRetry m => Sys2Proof.Machine.execWaiterRetry m s
  | .replyArrival m => Sys2Proof.Machine.execReplyArrival m s
  | .relAck m => Sys2Proof.Machine.execRelAck m s
  | .nackRefusal m => Sys2Proof.Machine.execNackRefusal m s
  | .requestTimeout sp c => Sys2Proof.Machine.execRequestTimeout sp c s
  | .pageWalkDone sp c => Sys2Proof.Machine.execPageWalkDone sp c s
  | .subscriptionRequest m => Sys2Proof.Machine.execSubscriptionRequest m s
  | .batchCloseTimeout sp line => Sys2Proof.Machine.execBatchCloseTimeout sp line s
  | .batchApply m => Sys2Proof.Machine.execBatchApply m s
  | .batchAck m => Sys2Proof.Machine.execBatchAck m s
  | .batchNack m => Sys2Proof.Machine.execBatchNack m s
  | .subscriptionRemoval m => Sys2Proof.Machine.execSubscriptionRemoval m s
  | .drainRequest m => Sys2Proof.Machine.execDrainRequest m s
  | .channelMessage m => Sys2Proof.Machine.execChannelMessage m s
  | .creditReturn m => Sys2Proof.Machine.execCreditReturn m s
  | .nackBusyResend m => Sys2Proof.Machine.execNackBusyResend m s
  | .phaseComplete job grp => Sys2Proof.Machine.execPhaseComplete job grp s
  | .taskDelivery cl => Sys2Proof.Machine.execTaskDelivery cl s
  | .skeinAppend m => Sys2Proof.Machine.execSkeinAppend m s
  | .loomQueueEntry cl => Sys2Proof.Machine.execLoomQueueEntry cl s
  | .loomStep cl => Sys2Proof.Machine.execLoomStep cl s
  | .copyChunk eng => Sys2Proof.Machine.execCopyChunk eng s
  | .peerChunkArrival m => Sys2Proof.Machine.execPeerChunkArrival m s
  | .chunkAck m => Sys2Proof.Machine.execChunkAck m s
  | .copyComplete eng => Sys2Proof.Machine.execCopyComplete eng s
  | .linkDataFlit port crcOk => Sys2Proof.Machine.execLinkDataFlit port crcOk s
  | .linkRetryFlit port => Sys2Proof.Machine.execLinkRetryFlit port s
  | .linkIdleFlit port => Sys2Proof.Machine.execLinkIdleFlit port s
  | .linkAckTimeout port => Sys2Proof.Machine.execLinkAckTimeout port s
  | .linkRetrainDone port ok => Sys2Proof.Machine.execLinkRetrainDone port ok s
  | .unravelStep => Sys2Proof.Machine.execUnravelStep s
  | .trapRecordArrival m => Sys2Proof.Machine.execTrapRecordArrival m s
  | .trapRecordRefused m => Sys2Proof.Machine.execTrapRecordRefused m s
  | .preemptWindowExpiry job => Sys2Proof.Machine.execPreemptWindowExpiry job s
  | .frontToken m => Sys2Proof.Machine.execFrontToken m s
  | .jobSwitchOut job => Sys2Proof.Machine.execJobSwitchOut job s
  | .correctedError sp => Sys2Proof.Machine.execCorrectedError sp s
  | .hostFill off v => Sys2Proof.Machine.execHostFill off v s
  | .hostMemWrite off n v => Sys2Proof.Machine.execHostMemWrite off n v s
  | .hostMemRead off n => Sys2Proof.Machine.execHostMemRead off n s
  | .recordTake q => Sys2Proof.Machine.execRecordTake q s
  | .dependencyPoll q => Sys2Proof.Machine.execDependencyPoll q s
  | .launchSelect => Sys2Proof.Machine.execLaunchSelect s
  | .goWordReady q => Sys2Proof.Machine.execGoWordReady q s
  | .launchStart q => Sys2Proof.Machine.execLaunchStart q s
  | .launchRequest m => Sys2Proof.Machine.execLaunchRequest m s
  | .launchRetire job => Sys2Proof.Machine.execLaunchRetire job s
  | .layerRequest m => Sys2Proof.Machine.execLayerRequest m s
  | .invtlb => Sys2Proof.Machine.execInvtlb s
  | .teardown => Sys2Proof.Machine.execTeardown s
  | .bindq => Sys2Proof.Machine.execBindq s
  | .winset => Sys2Proof.Machine.execWinset s
  | .pairset => Sys2Proof.Machine.execPairset s
  | .contset => Sys2Proof.Machine.execContset s
  | .clearfence => Sys2Proof.Machine.execClearfence s
  | .stop => Sys2Proof.Machine.execStop s
  | .go => Sys2Proof.Machine.execGo s
  | .stopread => Sys2Proof.Machine.execStopread s
  | .peermap => Sys2Proof.Machine.execPeermap s
  | .route => Sys2Proof.Machine.execRoute s
  | .dwmap => Sys2Proof.Machine.execDwmap s
  | .pstate => Sys2Proof.Machine.execPstate s
  | .attest => Sys2Proof.Machine.execAttest s
  | .fwload => Sys2Proof.Machine.execFwload s
  | .fenceread => Sys2Proof.Machine.execFenceread s
  | .chipno => Sys2Proof.Machine.execChipno s
  | .registerWrite off n v => Sys2Proof.Machine.execRegisterWrite off n v s
  | .powerOn => Sys2Proof.Machine.execPowerOn s
  | .bringupStageDone ok => Sys2Proof.Machine.execBringupStageDone ok s
  | .powerWindow die mw => Sys2Proof.Machine.execPowerWindow die mw s
  | .marginSample cl slack => Sys2Proof.Machine.execMarginSample cl slack s
  | .uncorrectableEccError fa => Sys2Proof.Machine.execUncorrectableEccError fa s

end Sys2Proof.Machine
end

