-- ==== Sys2Proof/Machine/Step.lean ====
section
/-!
DEFINITION. One step of the package, and where a word is put so that the next step runs it.
-/
namespace Sys2Proof.Machine
open Sys2Proof.Config

/-- What comes of a context's turn: its instruction runs, or it has waited or trapped before that. -/
def Fetched.go : Fetched → Host.Outcome State Fault Refusal
  | .run i s => exec i s
  | .stay s => .next s

/-- The turn that the agenda names: an event of the opcode table, an issue of a spindle, the next cycle where nothing is left to do on this
one (R402), a host write to the MSI-X
structures (R352). -/
def State.take (s : State) : Turn → Host.Outcome State Fault Refusal
  | .event e => if Instr.isEvent e then exec e s else .next s
  | .issue sp => match s.pick sp with | some k => (s.turnOf k).go | none => .next s
  | .tick => if s.turns.isEmpty && s.due.isEmpty then .next s.tick else .next s
  | .msix w => .next { s with trebex := s.trebex.msixWrite w }

/-- A move of the scheduler. -/
def Move.go (m : Move) (s : State) : Host.Outcome State Fault Refusal :=
  match m with
  | .act f => f s
  | .turn k => (s.turnOf k).go
  | .cycle => .next s.tick

/-- The step with jobs in stages of pre-emption seen to: a unit whose prefix words are decoded goes on; else the agenda's first turn;
else a move of the scheduler. -/
def State.stepped (s : State) : Host.Outcome State Fault Refusal :=
  if s.midUnit then s.unitWord.go
  else
    match s.agenda with
    | t :: rest => State.take { s with agenda := rest } t
    | [] => let (m, t) := s.chooseMove; m.go t

/-- One step of the package. -/
def step (s : State) : Host.Outcome State Fault Refusal := s.watch.stepped

/-! ### Where a word is put -/

/-- The spindle, the job and the frame of code that `withFetchWord` uses. -/
def testSp : Nat := 0
def testFrame : Nat := faOf testSp 0x1000000
/-- The job that spindle 0 runs, or one of its own. -/
def State.testJob (s : State) : Nat := (s.spindle testSp).job.getD 1

/-- A page of code for the page of a virtual address. -/
def testPage (j : Nat) (va : Word) (frame : Nat) : TlbEntry :=
  { job := j, vpn := va.toNat / 2 ^ 16, page := { frame := frame, big := false, kind := 0, r := true, w := true, x := true, fgn := false } }

/-- A line of code as a cache holds it. -/
def lineOf (m : Memory) (line : Nat) : List IWord := (List.range 16).map fun i => BitVec.ofNat 32 (m.readN (line + 4 * i) 4)

/-- The bytes of an instruction at the PC of spindle 0's context 0, whose turn is next: its page and the one after it are mapped for
code, and the context is READY. -/
def State.withFetchWord (s : State) (nbits w : Nat) : State :=
  let j := s.testJob
  let pc : Word := BitVec.ofNat 64 ((s.ctx 0).pc.toNat % 2 ^ 48)
  let fa := testFrame + pc.toNat % 2 ^ 16
  let job : Job := match Table.find s.jobs j with
    | some jb => { jb with phase := .running }
    | none => { Job.blank with serial := j, rect := ⟨0, 0, 1, 1⟩ }
  let mem := s.mem.writeN fa 12 (w % 2 ^ nbits % 2 ^ 96)
  let ln := fa / 64 * 64; let ln2 := (fa + 19) / 64 * 64
  { s with
    now := max s.now 8
    mem := mem
    poison := []
    jobs := Table.set s.jobs j job
    ctxs := Table.set s.ctxs 0 { s.ctx 0 with
      pc := pc, st := .ready, park := 0, held := false, again := false, readyAt := 0, lastIssue := 0, deferred := [], rels := [], recheck := false,
      torn := none,
      handler := (s.ctx 0).handler && (s.ctx 0).trapv.toNat / 2 ^ 16 != pc.toNat / 2 ^ 16,
      thidx := if (s.ctx 0).thidx = compThidx then 0 else (s.ctx 0).thidx }
    spindles := Table.set s.spindles testSp { s.spindle testSp with
      job := some j, last := 15, issuedAt := 0, halted := false,
      icache := if ln = ln2 then [(ln, lineOf mem ln)] else [(ln, lineOf mem ln), (ln2, lineOf mem ln2)],
      tlb := [testPage j pc testFrame, testPage j (pc + 16) (if (pc + 16).toNat / 2 ^ 16 = pc.toNat / 2 ^ 16 then testFrame else testFrame + 2 ^ 16)] }
    trebex := { s.trebex with stage := 6, pstate := 0, bootFault := false, dthr := setVec12 s.trebex.dthr 0 0 }
    upsets := s.upsets.filter fun u => u != .checker testSp
    midUnit := false
    agenda := [.issue testSp] }

end Sys2Proof.Machine
end

