-- ==== Sys2Proof/Safety.lean ====
section
/-!
DEFINITION. What a safe run is and what an instruction leaves alone, in the terms that statements use.
-/
namespace Sys2Proof.Machine

/-- `t` is reached from `s` by some steps, none of which stops. -/
inductive Reaches : State → State → Prop where
  | refl (s : State) : Reaches s s
  | step (s t u : State) : Reaches s t → step t = .next u → Reaches s u

/-- The package can go on from a state. -/
def Runs (s : State) : Prop := ∃ t, step s = .next t

/-! ### Frames -/

/-- Nothing but the executing context differs: every other context, every byte of memory, every full/empty bit, every spindle,
message, job and unit of the package is as before. -/
structure OnlyMe (s t : State) : Prop where
  rest : { t with ctxs := s.ctxs } = s
  contexts : ∀ k, k ≠ s.cur → t.ctx k = s.ctx k
  bytes : ∀ a, t.byte a = s.byte a

/-- The executing context goes on after its unit, and of its registers g(d) alone is written, with `v`: the other general registers,
the vector registers with their tags and sidecars, FSTAT and every special register are as before. -/
structure WroteReg (s t : State) (d : Reg) (v : Word) : Prop where
  others : OnlyMe s t
  value : t.me.reg d = v
  regs : ∀ r, r ≠ d → t.me.reg r = s.me.reg r
  pc : t.me.pc = s.me.unit.next
  rest : { t.me with g := s.me.g, pc := s.me.pc, got := s.me.got, again := s.me.again } = s.me

/-- The executing context goes on at `pc`, and nothing else of the package changes. -/
structure WentTo (s t : State) (pc : Word) : Prop where
  others : OnlyMe s t
  pc : t.me.pc = pc
  rest : { t.me with pc := s.me.pc, got := s.me.got, again := s.me.again } = s.me

/-- A floating form: g(d) takes `v`, the sticky flags `fl` join FSTAT, and nothing else changes. -/
structure WroteFlags (s t : State) (d : Reg) (v : Word) (fl : Nat) : Prop where
  others : OnlyMe s t
  value : t.me.reg d = v
  regs : ∀ r, r ≠ d → t.me.reg r = s.me.reg r
  flags : t.me.fstat = s.me.fstat ||| BitVec.ofNat 64 fl
  pc : t.me.pc = s.me.unit.next
  rest : { t.me with g := s.me.g, fstat := s.me.fstat, pc := s.me.pc, got := s.me.got, again := s.me.again } = s.me

/-- A vector form: v(d) takes a value, a tag and a sidecar, the sticky flags `fl` join FSTAT, and nothing else changes. -/
structure WroteVec (s t : State) (d : VReg) (v : VWord) (tag : Nat) (side : Word) (fl : Nat) : Prop where
  others : OnlyMe s t
  value : t.me.vreg d = v
  tag : t.me.vtag d = tag
  side : t.me.vside d = side
  regs : ∀ r, r ≠ d → t.me.vreg r = s.me.vreg r ∧ t.me.vtag r = s.me.vtag r ∧ t.me.vside r = s.me.vside r
  flags : t.me.fstat = s.me.fstat ||| BitVec.ofNat 64 fl
  pc : t.me.pc = s.me.unit.next
  rest : { t.me with v := s.me.v, tag := s.me.tag, side := s.me.side, fstat := s.me.fstat, pc := s.me.pc, got := s.me.got,
                     again := s.me.again } = s.me

/-- A vector form told lane by lane: v(d) takes tag `rt` and an empty sidecar, its lane i the bits that `val` gives it, cut to the
lane's width; a sticky flag joins FSTAT where `fl` names it; nothing else changes. -/
structure WroteLanes (s t : State) (d : VReg) (rt : Nat) (val : Nat → Nat) (fl : Nat → Prop) : Prop where
  others : OnlyMe s t
  lanes : ∀ i, i < tagLanes rt → laneOf (t.me.vreg d).toNat (tagWidth rt) i = val i % 2 ^ tagWidth rt
  tag : t.me.vtag d = rt
  side : t.me.vside d = 0
  regs : ∀ r, r ≠ d → t.me.vreg r = s.me.vreg r ∧ t.me.vtag r = s.me.vtag r ∧ t.me.vside r = s.me.vside r
  flags : ∀ b, b < 64 → (t.me.fstat.getLsbD b = true ↔ s.me.fstat.getLsbD b = true ∨ fl b)
  pc : t.me.pc = s.me.unit.next
  rest : { t.me with v := s.me.v, tag := s.me.tag, side := s.me.side, fstat := s.me.fstat, pc := s.me.pc, got := s.me.got,
                     again := s.me.again } = s.me

/-- The executing context, no compensation thread, froze on a trap: its PC is the unit's, its registers are as they were, and its
record, which says `r` and the thread, is on its way to a buddy of the spindle (R18, R327, R330). -/
structure TrappedAs (s t : State) (r : TrapInfo) : Prop where
  state : t.me.st = .frozen
  pc : t.me.pc = s.me.unit.pc
  record : t.me.frz = some { r with thidx := s.me.thidx }
  regs : ∀ r, t.me.reg r = s.me.reg r
  vregs : t.me.v = s.me.v ∧ t.me.tag = s.me.tag ∧ t.me.side = s.me.side
  fstat : t.me.fstat = s.me.fstat
  sent : ∃ m ∈ t.msgs, m.src = s.here ∧ (m.dst = (s.spindle s.here).primary ∨ m.dst = (s.spindle s.here).secondary) ∧
    ∃ second, m.body = .trapRec (trapWords s.cur { r with thidx := s.me.thidx } r.cause) { r with thidx := s.me.thidx } second 0
  contexts : ∀ k, k ≠ s.cur → t.ctx k = s.ctx k
  bytes : ∀ a, t.byte a = s.byte a
  full : t.fe = s.fe

/-- The same for a trap whose record says no more than the cause and the address. -/
abbrev Trapped (s t : State) (cause : Nat) (addr : Word) : Prop := TrappedAs s t (s.me.unit.info cause addr)

/-- A trap of the executing context has a handler: the primary or the secondary buddy of its spindle takes records of its job (R330),
and the thread is no compensation thread. -/
def State.Handled (s : State) : Prop :=
  s.me.thidx ≠ compThidx ∧
  (s.takesRecord s.myJobNo (s.spindle s.here).primary s.cur = true ∨ s.takesRecord s.myJobNo (s.spindle s.here).secondary s.cur = true)

/-! ### Memory -/

/-- The executing context's spindle alone differs besides the context: its TLB's order (R110). Every byte, full/empty bit, message, job
and unit is as before. -/
structure OnlyTlb (s t : State) : Prop where
  rest : { t with ctxs := s.ctxs, spindles := s.spindles } = s
  contexts : ∀ k, k ≠ s.cur → t.ctx k = s.ctx k
  spindles : ∀ n, n ≠ s.here → t.spindle n = s.spindle n
  here : { t.spindle s.here with tlb := (s.spindle s.here).tlb } = s.spindle s.here
  bytes : ∀ a, t.byte a = s.byte a

/-- The executing context takes `v` in g(d) and goes on after its unit; every other register, and every other context, is as before.
What happens to memory is said beside it. -/
structure GotReg (s t : State) (d : Reg) (v : Word) : Prop where
  contexts : ∀ k, k ≠ s.cur → t.ctx k = s.ctx k
  value : t.me.reg d = v
  regs : ∀ r, r ≠ d → t.me.reg r = s.me.reg r
  pc : t.me.pc = s.me.unit.next
  rest : { t.me with g := s.me.g, pc := s.me.pc, got := s.me.got, again := s.me.again } = s.me

/-- A load: g(d) takes `v`, the context goes on after its unit, and nothing else changes but the order of its TLB. -/
structure Loaded (s t : State) (d : Reg) (v : Word) : Prop where
  others : OnlyTlb s t
  got : GotReg s t d v

/-- No byte, full/empty bit or poison mark of memory differs. -/
structure SameMemory (s t : State) : Prop where
  bytes : ∀ a, t.byte a = s.byte a
  full : ∀ a, t.full a = s.full a
  poison : t.poison = s.poison

/-- Memory after a store of `n` bytes of `v` at `fa`: those bytes hold it, little-endian, and every other byte is as before. -/
structure Bytes (s t : State) (fa n v : Nat) : Prop where
  inside : ∀ i, i < n → t.byte (fa + i) = BitVec.ofNat 8 (v / 256 ^ i)
  outside : ∀ a, a < fa ∨ fa + n ≤ a → t.byte a = s.byte a

/-- The full/empty bit of the word of `fa` is `b`, and every other word's is as before. -/
structure FeAt (s t : State) (fa : Nat) (b : Bool) : Prop where
  word : t.full fa = b
  others : ∀ a, Config.wordOf a ≠ Config.wordOf fa → t.full a = s.full a

/-- The executing context's registers and everything of it but its PC are as before, it goes on after its unit, and so is every
other context. -/
structure WentOn (s t : State) : Prop where
  contexts : ∀ k, k ≠ s.cur → t.ctx k = s.ctx k
  pc : t.me.pc = s.me.unit.next
  rest : { t.me with pc := s.me.pc, got := s.me.got, again := s.me.again } = s.me

end Sys2Proof.Machine
end

