-- ==== Sys2Proof/Certificates/Slice0/Obligations.lean ====
section
/-!
DEFINITION. The statements for the provers: what each family of instructions and events does and leaves alone, what a step runs, what
decoding reads, and what every step keeps.
-/
open Sys2Proof Sys2Proof.Machine Sys2Proof.Config

namespace Sys2Proof.Claims

/-! ### Terms of the statements -/

/-- The instruction completes: it writes `v` to g(d), goes on after its unit, and changes nothing else. -/
def Gives (i : Instr) (s : State) (d : Reg) (v : Word) : Prop := ∃ t, exec i s = .next t ∧ WroteReg s t d v

/-- The instruction completes at `pc` and changes nothing else. -/
def GoesTo (i : Instr) (s : State) (pc : Word) : Prop := ∃ t, exec i s = .next t ∧ WentTo s t pc

/-- The instruction traps: its context freezes at its unit with the cause and the address, its registers as they were. -/
def Traps (i : Instr) (s : State) (cause : Nat) (addr : Word) : Prop := ∃ t, exec i s = .next t ∧ Trapped s t cause addr

/-- An operation of 64 bits, or of 32 bits on the low halves with the result sign-extended (R72). -/
def inWidth (w : Bool) (f : (n : Nat) → BitVec n → BitVec n → BitVec n) (x y : Word) : Word :=
  if w then (f 32 (x.setWidth 32) (y.setWidth 32)).signExtend 64 else f 64 x y

/-- A comparison of 64 bits, or of the low halves, as the number 1 or 0 (R72). -/
def cmpWidth (w : Bool) (f : (n : Nat) → BitVec n → BitVec n → Bool) (x y : Word) : Word :=
  if (if w then f 32 (x.setWidth 32) (y.setWidth 32) else f 64 x y) then 1 else 0

/-- The shift amount of a form of `n` bits: 6 bits of the operand, or 5 (R72). -/
def shiftBy {n : Nat} (y : BitVec n) : Nat := y.toNat % n

/-- Words whose major is listed, and that decode, are exactly the encoding of their instruction; with `one`, their LEN is 00. -/
def WordsAreWhole (majs : List (BitVec 6)) (one : Bool) : Prop :=
  ∀ w x1 x2 i, fMaj w ∈ majs → decodeInstr w x1 x2 = some i → encode i = [w, x1, x2].take (lenWords w) ∧ (one = true → fLen w = 0)

end Sys2Proof.Claims

open Sys2Proof.Claims

/-! ### Integer instructions, branches and jumps -/

namespace Sys2Proof.Claims

/-- R72: the IOP forms that do not divide, in both widths: the result is the operation on bit vectors of the form's width, wrapped, a 32-bit result
sign-extended; nothing but g(D) and the PC changes. -/
def IntegerFormsCompute : Prop :=
  ∀ (s : State) (d a b : Reg) (w : Bool), let x := s.me.reg a; let y := s.me.reg b
    Gives (.add d a b w) s d (inWidth w (fun _ x y => x + y) x y) ∧
    Gives (.sub d a b w) s d (inWidth w (fun _ x y => x - y) x y) ∧
    Gives (.and_ d a b w) s d (inWidth w (fun _ x y => x &&& y) x y) ∧
    Gives (.or_ d a b w) s d (inWidth w (fun _ x y => x ||| y) x y) ∧
    Gives (.xor d a b w) s d (inWidth w (fun _ x y => x ^^^ y) x y) ∧
    Gives (.andn d a b w) s d (inWidth w (fun _ x y => x &&& ~~~y) x y) ∧
    Gives (.shl d a b w) s d (inWidth w (fun _ x y => x <<< shiftBy y) x y) ∧
    Gives (.shr d a b w) s d (inWidth w (fun _ x y => x >>> shiftBy y) x y) ∧
    Gives (.sar d a b w) s d (inWidth w (fun _ x y => x.sshiftRight (shiftBy y)) x y) ∧
    Gives (.rol d a b w) s d (inWidth w (fun _ x y => x.rotateLeft (shiftBy y)) x y) ∧
    Gives (.mul d a b w) s d (inWidth w (fun _ x y => x * y) x y) ∧
    Gives (.mulhs d a b w) s d (inWidth w (fun n x y => BitVec.ofInt n (x.toInt * y.toInt / 2 ^ n)) x y) ∧
    Gives (.mulhn d a b w) s d (inWidth w (fun n x y => BitVec.ofNat n (x.toNat * y.toNat / 2 ^ n)) x y) ∧
    Gives (.mins d a b w) s d (inWidth w (fun _ x y => if y.slt x then y else x) x y) ∧
    Gives (.maxs d a b w) s d (inWidth w (fun _ x y => if x.slt y then y else x) x y) ∧
    Gives (.minn d a b w) s d (inWidth w (fun _ x y => if y.ult x then y else x) x y) ∧
    Gives (.maxn d a b w) s d (inWidth w (fun _ x y => if x.ult y then y else x) x y) ∧
    Gives (.slts d a b w) s d (cmpWidth w (fun _ x y => x.slt y) x y) ∧
    Gives (.sltn d a b w) s d (cmpWidth w (fun _ x y => x.ult y) x y) ∧
    Gives (.seq d a b w) s d (cmpWidth w (fun _ x y => x == y) x y) ∧
    Gives (.sne d a b w) s d (cmpWidth w (fun _ x y => x != y) x y)

/-- R72: the division forms. A divisor that is not zero gives the quotient rounded towards zero and its remainder, signed or unsigned, the minimum
integer by −1 wrapping; a zero divisor gives the stated results where CPROF bit 21 is 0, and where it is 1 the form traps DIVZ with a zero address
and writes nothing. -/
def DivisionFormsDivideOrTrap : Prop :=
  ∀ (s : State) (d a b : Reg) (w : Bool), let x := s.me.reg a; let y := s.me.reg b
    let zero := (if w then y.setWidth 32 = 0 else y = 0)
    (¬ zero ∨ s.me.cprof.getLsbD 21 = false →
      Gives (.divs d a b w) s d (inWidth w (fun _ x y => if y = 0 then -1 else x.sdiv y) x y) ∧
      Gives (.divn d a b w) s d (inWidth w (fun _ x y => if y = 0 then -1 else x.udiv y) x y) ∧
      Gives (.rems d a b w) s d (inWidth w (fun _ x y => if y = 0 then x else x.srem y) x y) ∧
      Gives (.remn d a b w) s d (inWidth w (fun _ x y => if y = 0 then x else x.umod y) x y)) ∧
    (zero → s.me.cprof.getLsbD 21 = true → s.Handled →
      Traps (.divs d a b w) s cDIVZ 0 ∧ Traps (.divn d a b w) s cDIVZ 0 ∧ Traps (.rems d a b w) s cDIVZ 0 ∧
      Traps (.remn d a b w) s cDIVZ 0)

/-- R72, R53, R55: every IOP word has LEN 00, zero in C and a W of 00 or 01: a word that decodes is exactly its instruction's encoding. -/
def IopWordsAreWhole : Prop :=
  WordsAreWhole [0x01] true

end Sys2Proof.Claims

/-- The IOP forms compute in their width; division by zero gives its results or traps DIVZ. -/
def Obligations.IntegerFormsComputeInTheirWidth : Prop :=
  IntegerFormsCompute ∧ DivisionFormsDivideOrTrap ∧ IopWordsAreWhole

namespace Sys2Proof.Claims

/-- R73: the immediate forms, with IMM16 extended as the form says or a 64-bit literal, and the shifts by IMM16 5:0. -/
def ImmediatesAreExtended : Prop :=
  ∀ (s : State) (d a : Reg) (i : BitVec 16) (l : Word) (k : BitVec 6), let x := s.me.reg a
    let sx := BitVec.ofInt 64 i.toInt; let zx := BitVec.ofNat 64 i.toNat
    Gives (.addi d a i) s d (x + sx) ∧ Gives (.addiLiteral d a l) s d (x + l) ∧
    Gives (.andi d a i) s d (x &&& zx) ∧ Gives (.andiLiteral d a l) s d (x &&& l) ∧
    Gives (.ori d a i) s d (x ||| zx) ∧ Gives (.oriLiteral d a l) s d (x ||| l) ∧
    Gives (.xori d a i) s d (x ^^^ zx) ∧ Gives (.xoriLiteral d a l) s d (x ^^^ l) ∧
    Gives (.slti d a i) s d (if x.toInt < i.toInt then 1 else 0) ∧ Gives (.sltiLiteral d a l) s d (if x.toInt < l.toInt then 1 else 0) ∧
    Gives (.movi d i) s d sx ∧ Gives (.moviLiteral d l) s d l ∧
    Gives (.shli d a k) s d (x <<< k.toNat) ∧ Gives (.shri d a k) s d (x >>> k.toNat) ∧
    Gives (.sari d a k) s d (x.sshiftRight k.toNat) ∧ Gives (.roli d a k) s d (x.rotateLeft k.toNat)

/-- R73: a word of the immediate majors that decodes is exactly its instruction's encoding, with the two literal words where its LEN is 10; a
literal's IMM16 is zero, and so is A in MOVI; the shifts take LEN 00. -/
def ImmediateWordsAreWhole : Prop :=
  WordsAreWhole [0x02, 0x03, 0x04, 0x05, 0x07, 0x08] false ∧ WordsAreWhole [0x06] true

end Sys2Proof.Claims

/-- The immediate forms use their extension or literal; the shifts their 6-bit amount. -/
def Obligations.ImmediateFormsUseTheirExtension : Prop :=
  ImmediatesAreExtended ∧ ImmediateWordsAreWhole

namespace Sys2Proof.Claims

/-- R74: the bit forms, each told bit by bit: POPC counts the ones, CLZ and CTZ give the place of the highest and lowest one, BREV and BSWAP move
bits and bytes, BFXS and BFXN take the field of g(B)'s position and width, BFI puts one in, SEL chooses. -/
def BitFormsCompute : Prop :=
  ∀ (s : State) (d a b c : Reg), let x := s.me.reg a; let y := s.me.reg b; let l := y.toNat % 64; let w := y.toNat / 256 % 64 + 1
    Gives (.popc d a) s d (BitVec.ofNat 64 ((List.range 64).countP fun i => x.getLsbD i)) ∧
    (∃ v, Gives (.clz d a) s d v ∧ (x = 0 → v = 64) ∧
      ∀ i, i < 64 → x.getLsbD i = true → (∀ j, i < j → x.getLsbD j = false) → v = BitVec.ofNat 64 (63 - i)) ∧
    (∃ v, Gives (.ctz d a) s d v ∧ (x = 0 → v = 64) ∧
      ∀ i, i < 64 → x.getLsbD i = true → (∀ j, j < i → x.getLsbD j = false) → v = BitVec.ofNat 64 i) ∧
    (∃ v, Gives (.brev d a) s d v ∧ ∀ i, i < 64 → v.getLsbD i = x.getLsbD (63 - i)) ∧
    (∃ v, Gives (.bswap d a) s d v ∧ ∀ i, i < 8 → v.extractLsb' (8 * i) 8 = x.extractLsb' (8 * (7 - i)) 8) ∧
    (∃ v, Gives (.bfxs d a b) s d v ∧ ∀ i, i < 64 → v.getLsbD i = x.getLsbD (l + min i (w - 1))) ∧
    (∃ v, Gives (.bfxn d a b) s d v ∧ ∀ i, i < 64 → v.getLsbD i = (decide (i < w) && x.getLsbD (l + i))) ∧
    (∃ v, Gives (.bfi d a b) s d v ∧
      ∀ i, i < 64 → v.getLsbD i = if l ≤ i ∧ i < l + w then x.getLsbD (i - l) else (s.me.reg d).getLsbD i) ∧
    Gives (.sel d a b c) s d (if s.me.reg c = 0 then y else x)

/-- R74: the BIT words that decode have LEN 00, W 00, and zero in every field that their form does not list. -/
def BitWordsAreWhole : Prop :=
  WordsAreWhole [0x09] true

end Sys2Proof.Claims

/-- The bit forms, told bit by bit. -/
def Obligations.BitFormsTellEveryBit : Prop :=
  BitFormsCompute ∧ BitWordsAreWhole

namespace Sys2Proof.Claims

/-- R75: a branch goes to PC + 4 times its displacement where its condition on the signed value of g(A) holds, else to PC + 4, the end of its
one-word unit, and changes nothing else. -/
def BranchesGoWhereTheirConditionSays : Prop :=
  ∀ (s : State) (a : Reg) (disp : BitVec 16), let v := (s.me.reg a).toInt; let u := s.me.unit.pc
    let dest := fun taken : Prop => fun pc => (taken → pc = u + BitVec.ofInt 64 (4 * disp.toInt)) ∧ (¬ taken → pc = u + 4)
    s.me.unit.next = u + 4 →
    (∃ pc, GoesTo (.br disp) s pc ∧ dest True pc) ∧
    (∃ pc, GoesTo (.beqz a disp) s pc ∧ dest (v = 0) pc) ∧
    (∃ pc, GoesTo (.bnez a disp) s pc ∧ dest (v ≠ 0) pc) ∧
    (∃ pc, GoesTo (.bltz a disp) s pc ∧ dest (v < 0) pc) ∧
    (∃ pc, GoesTo (.bgez a disp) s pc ∧ dest (0 ≤ v) pc) ∧
    (∃ pc, GoesTo (.bgtz a disp) s pc ∧ dest (0 < v) pc) ∧
    (∃ pc, GoesTo (.blez a disp) s pc ∧ dest (v ≤ 0) pc)

/-- A call: g14 takes the unit's PC + 4, the context goes on at `pc`, and nothing else changes. -/
def Calls (i : Instr) (s : State) (pc : Word) : Prop :=
  ∃ t, exec i s = .next t ∧ OnlyMe s t ∧ t.me.pc = pc ∧ t.me.reg 14 = s.me.unit.pc + 4 ∧ (∀ r, r ≠ 14 → t.me.reg r = s.me.reg r) ∧
    { t.me with g := s.me.g, pc := s.me.pc, got := s.me.got, again := s.me.again } = s.me

/-- R76: CALL, CALLR, JMPR and RET go to their targets, the calls with g14 at the unit after theirs, CALLR's target read before; a target that is no
multiple of 4 traps ALIGN with the target as the address before any write. -/
def CallsAndJumpsGoToAlignedTargets : Prop :=
  ∀ (s : State) (a : Reg) (disp : BitVec 24), let t := s.me.reg a; let r := s.me.reg 14
    Calls (.call disp) s (s.me.unit.pc + BitVec.ofInt 64 (4 * disp.toInt)) ∧
    (t.toNat % 4 = 0 → GoesTo (.jmpr a) s t ∧ Calls (.callr a) s t) ∧
    (r.toNat % 4 = 0 → GoesTo .ret s r) ∧
    (t.toNat % 4 ≠ 0 → s.Handled → Traps (.jmpr a) s cALIGN t ∧ Traps (.callr a) s cALIGN t) ∧
    (r.toNat % 4 ≠ 0 → s.Handled → Traps .ret s cALIGN r)

/-- R75, R76: the BR, CALL and JMP words that decode have LEN 00 and are exactly their instruction's encoding; none takes a prefix. -/
def BranchWordsAreWhole : Prop :=
  WordsAreWhole [0x0A, 0x0B, 0x0C] true ∧ ∀ w x1 x2 i r f, fMaj w ∈ [0x0A, 0x0B, 0x0C] → decodeInstr w x1 x2 = some i →
    (r || f) = true → i.accepts r f = false

end Sys2Proof.Claims

/-- Branches, calls and jumps go to their targets; misaligned targets trap ALIGN before any write. -/
def Obligations.BranchesCallsAndJumps : Prop :=
  BranchesGoWhereTheirConditionSays ∧ CallsAndJumpsGoToAlignedTargets ∧ BranchWordsAreWhole

namespace Sys2Proof.Claims

/-! ### Terms of the floating statements -/

/-- The instruction traps, and its record says `r`. -/
def TrapsAs (i : Instr) (s : State) (r : TrapInfo) : Prop := ∃ t, exec i s = .next t ∧ TrappedAs s t r

/-- An event of R79 that CPROF.TRAPMASK enables is raised by a result. -/
def Raises (s : State) (r : FpRes) (b : Nat) : Prop := r.events.testBit b = true ∧ s.me.cprof.getLsbD b = true

/-- A scalar floating form (R79): it writes `v` and joins its flags to FSTAT where it raises no enabled event; else it traps COMPAT with the lowest
one as its class and lane mask 1, writing neither. -/
def FloatGives (i : Instr) (s : State) (d : Reg) (r : FpRes) (v : Word) : Prop :=
  ((∀ b, 16 ≤ b → b ≤ 20 → ¬ Raises s r b) → ∃ t, exec i s = .next t ∧ WroteFlags s t d v r.flags) ∧
  (∀ b, 16 ≤ b → b ≤ 20 → Raises s r b → (∀ e, 16 ≤ e → e < b → ¬ Raises s r e) → s.Handled →
    TrapsAs i s { s.me.unit.info cCOMPAT 0 with cls := b, lanes := 1 })

/-- The rational number that a finite value stands for; 0 for the others. -/
def valueOf : Fl → ℚ
  | .fin n m e => (if n then -1 else 1) * m * (2 : ℚ) ^ e
  | _ => 0

/-- A number lies below another, the infinities at the ends. -/
def Below : Fl → Fl → Prop
  | .inf n, .inf k => n = true ∧ k = false
  | .inf n, .fin .. => n = true
  | .fin .., .inf k => k = false
  | .fin n m e, .fin n' m' e' => valueOf (.fin n m e) < valueOf (.fin n' m' e')
  | _, _ => False

/-- An operand as R78 and R81 take it: under DEN = 01 a subnormal is a zero of its sign. -/
def operand (f : Fmt) (cp x : Nat) : Fl :=
  let v := f.decode x
  if cpDEN cp = 1 ∧ v.isFin = true ∧ valueOf v ≠ 0 ∧ |valueOf v| < (2 : ℚ) ^ f.emin then .zero v.neg else v

/-- The integer `i` is the number `q` rounded by a mode: to nearest with ties to even, towards zero, down, up. -/
def RoundsTo (rm : Rnd) (q : ℚ) (i : Int) : Prop :=
  |q - i| < 1 ∧ (rm = 0 → 2 * |q - i| ≤ 1 ∧ (2 * |q - i| = 1 → i % 2 = 0)) ∧ (rm = 1 → |(i : ℚ)| ≤ |q|) ∧
  (rm = 2 → (i : ℚ) ≤ q) ∧ (rm = 3 → q ≤ i)

/-- `y` is a code of a finite number of the format. -/
def FiniteCode (f : Fmt) (y : Nat) : Prop := y < 2 ^ f.bits ∧ (f.decode y).isFin = true

/-- R11: `r` is the code of a real number rounded once: of the format's finite numbers the nearest, ties to the even code, the nearest not larger in
magnitude, not above, or not below it, by the mode; an infinity only past them, from half a step past the largest under RNE. -/
def RoundsReal (f : Fmt) (rm : Rnd) (q : ℝ) (r : Nat) : Prop :=
  let d := f.decode r; let at_ := fun y => ((valueOf (f.decode y) : ℚ) : ℝ)
  let top := at_ f.maxFin; let half := top + (2 : ℝ) ^ ((f.bias : Int) - f.mb - 1)
  d.isNaN = false ∧ (d.isFin = true → FiniteCode f r) ∧
  (rm = 0 → (d.isInf = true ↔ half ≤ |q|) ∧ (|q| < half → ∀ y, FiniteCode f y → |q - at_ r| ≤ |q - at_ y| ∧
    (|q - at_ r| = |q - at_ y| → at_ y ≠ at_ r → r % 2 = 0))) ∧
  (rm = 1 → d.isFin = true ∧ |at_ r| ≤ |q| ∧ ∀ y, FiniteCode f y → |at_ y| ≤ |q| → |at_ y| ≤ |at_ r|) ∧
  (rm = 2 → (d.isInf = true ↔ q < -top) ∧ (-top ≤ q → at_ r ≤ q ∧ ∀ y, FiniteCode f y → at_ y ≤ q → at_ y ≤ at_ r)) ∧
  (rm = 3 → (d.isInf = true ↔ top < q) ∧ (q ≤ top → q ≤ at_ r ∧ ∀ y, FiniteCode f y → q ≤ at_ y → at_ r ≤ at_ y))

/-- R206, R207: `r` is the code of the finite number of a format that is nearest a value, ties to the even code, with the value's sign; past the
largest, the largest. -/
def Nearest (f : Fmt) (v : Fl) (r : Nat) : Prop :=
  FiniteCode f r ∧ (f.decode r).neg = v.neg ∧ ∀ y, FiniteCode f y →
    |valueOf v - valueOf (f.decode r)| ≤ |valueOf v - valueOf (f.decode y)| ∧
    (|valueOf v - valueOf (f.decode r)| = |valueOf v - valueOf (f.decode y)| → valueOf (f.decode y) ≠ valueOf (f.decode r) → r % 2 = 0)

end Sys2Proof.Claims

/-! ### Scalar floating point -/

namespace Sys2Proof.Claims

/-- R77, R78, R79: FADD to FSQRT write the low bits of their result with the rest zero, join their flags, or trap COMPAT. -/
def FloatArithmeticWritesOrTrapsCompat : Prop :=
  ∀ (s : State) (d a b : Reg) (dbl : Bool) (rf : BitVec 2), rf ≠ 3 →
    let f := fopFmt dbl; let cp := s.me.cprof.toNat; let rm := effRM cp rf.toNat
    let x := (s.me.reg a).toNat % 2 ^ f.bits; let y := (s.me.reg b).toNat % 2 ^ f.bits; let z := (s.me.reg d).toNat % 2 ^ f.bits
    let go := fun i r => FloatGives i s d r (BitVec.ofNat 64 r.bits) ∧ r.bits < 2 ^ f.bits
    go (.fadd d a b dbl rf) (fpArith .add f cp rm x y z) ∧ go (.fsub d a b dbl rf) (fpArith .sub f cp rm x y z) ∧
    go (.fmul d a b dbl rf) (fpArith .mul f cp rm x y z) ∧ go (.ffma d a b dbl rf) (fpArith .fma f cp rm x y z) ∧
    go (.fdiv d a b dbl rf) (fpArith .div f cp rm x y z) ∧ go (.fsqrt d a dbl rf) (fpArith .sqrt f cp rm x x x)

/-- R78: with DEN = 00 and ZMUL = 0, a sum, difference, product or fused product of finite operands is the exact rational value, rounded once to the
format: the code and the flags are those of rounding that value. -/
def ExactValuesAreRoundedOnce : Prop :=
  ∀ (f : Fmt) (cp x y z : Nat) (rm : Rnd), f = fp16 ∨ f = bf16 ∨ f = fp32 ∨ f = fp64 → cpDEN cp = 0 → cpZMUL cp = false →
    (f.decode x).isFin = true → (f.decode y).isFin = true → (f.decode z).isFin = true →
    let exact := fun (op : FpOp) (q : ℚ) => ∃ v : Fl, v.isFin = true ∧ valueOf v = q ∧
      (fpArith op f cp rm x y z).bits = (f.round rm v).1 ∧ (fpArith op f cp rm x y z).flags = (f.round rm v).2
    let a := valueOf (f.decode x); let b := valueOf (f.decode y); let c := valueOf (f.decode z)
    exact .add (a + b) ∧ exact .sub (a - b) ∧ exact .mul (a * b) ∧ exact .fma (a * b + c)

/-- R78: with DEN = 00, FDIV and FSQRT round the exact quotient and the exact root once, NX telling whether the value changed; a quotient has the
sign of its operands, and the root of a zero is that zero. A number over zero is an infinity with DZ; 0 / 0, ∞ / ∞, the root of a negative number and
a NaN operand give the canonical NaN. -/
def QuotientsAndRootsAreRounded : Prop :=
  ∀ (f : Fmt) (cp x y : Nat) (rm : Rnd), f = fp16 ∨ f = bf16 ∨ f = fp32 ∨ f = fp64 → cpDEN cp = 0 → rm < 4 →
    let a := f.decode x; let b := f.decode y; let sign := (a.neg != b.neg)
    let q := fpArith .div f cp rm x y x; let d := f.decode q.bits; let r := fpArith .sqrt f cp rm x x x; let e := f.decode r.bits
    (a.isFin → b.isFin → valueOf b ≠ 0 → RoundsReal f rm ((valueOf a / valueOf b : ℚ) : ℝ) q.bits ∧ d.neg = sign ∧
      (q.flags.testBit 0 = true ↔ d.isInf = true ∨ valueOf d ≠ valueOf a / valueOf b)) ∧
    (a.isFin → valueOf a ≠ 0 → b.isFin → valueOf b = 0 → d = .inf sign ∧ q.flags = flDZ) ∧
    (a.isFin → valueOf a = 0 → b.isFin → valueOf b = 0 → q.bits = f.nan ∧ q.flags = flNV) ∧
    (a.isInf → b.isInf → q.bits = f.nan ∧ q.flags = flNV) ∧ (a.isNaN ∨ b.isNaN → q.bits = f.nan) ∧
    (a.isInf → b.isFin → d = .inf sign ∧ q.flags = 0) ∧ (a.isFin → b.isInf → d.isFin = true ∧ valueOf d = 0 ∧ d.neg = sign ∧ q.flags = 0) ∧
    (a.isFin → 0 ≤ valueOf a → RoundsReal f rm (Real.sqrt ((valueOf a : ℚ) : ℝ)) r.bits ∧ e.neg = a.neg ∧
      (r.flags.testBit 0 = true ↔ valueOf e ^ 2 ≠ valueOf a)) ∧
    (valueOf a < 0 ∨ a = .inf true → r.bits = f.nan ∧ r.flags = flNV) ∧ (a.isNaN → r.bits = f.nan) ∧
    (a = .inf false → e = .inf false ∧ r.flags = 0)

/-- R78: with DEN = 00 and ZMUL = 0, an exact zero of finite operands: a sum of zeros of one sign has it, any other exact zero sum is −0 under RDN
and else +0; a zero product has the sign of its operands. -/
def ExactZerosTakeTheirSign : Prop :=
  ∀ (f : Fmt) (cp x y z : Nat) (rm : Rnd), f = fp16 ∨ f = bf16 ∨ f = fp32 ∨ f = fp64 → cpDEN cp = 0 → cpZMUL cp = false →
    (f.decode x).isFin = true → (f.decode y).isFin = true → (f.decode z).isFin = true →
    let a := f.decode x; let b := f.decode y; let c := f.decode z
    let zero := fun (op : FpOp) (n : Bool) => (fpArith op f cp rm x y z).bits = f.withSign n 0 ∧ (fpArith op f cp rm x y z).flags = 0
    let sum := fun (n k : Bool) => if n = k then n else decide (rm = 2)
    (valueOf a + valueOf b = 0 → zero .add (sum a.neg b.neg)) ∧ (valueOf a - valueOf b = 0 → zero .sub (sum a.neg (!b.neg))) ∧
    (valueOf a * valueOf b = 0 → zero .mul (a.neg != b.neg)) ∧
    (valueOf a * valueOf b + valueOf c = 0 → zero .fma (sum (a.neg != b.neg) c.neg))

/-- R10, R11, R205: in each floating format, a code that is no NaN is the rounding of its own value, in every mode and without a flag; a code that is
a NaN rounds to the canonical NaN. -/
def RoundingKeepsRepresentableValues : Prop :=
  ∀ (f : Fmt) (rm : Rnd) (x : Nat), f = fp16 ∨ f = bf16 ∨ f = fp32 ∨ f = fp64 ∨ f = e4m3 ∨ f = e5m2 → x < 2 ^ f.bits →
    f.round rm (f.decode x) = if (f.decode x).isNaN then (f.nan, 0) else (x, 0)

/-- R80, R81: the minimum, maximum and comparison forms. FABS and FNEG clear and invert the sign bit and nothing else, without a flag or an event. -/
def FloatSelectionAndComparison : Prop :=
  ∀ (s : State) (d a b : Reg) (dbl : Bool), let f := fopFmt dbl; let cp := s.me.cprof.toNat
    let x := (s.me.reg a).toNat % 2 ^ f.bits; let y := (s.me.reg b).toNat % 2 ^ f.bits
    let go := fun i r => FloatGives i s d r (BitVec.ofNat 64 r.bits)
    go (.fmin d a b dbl) (fpMinMax f cp false false x y) ∧ go (.fmax d a b dbl) (fpMinMax f cp true false x y) ∧
    go (.fminm d a b dbl) (fpMinMax f cp false true x y) ∧ go (.fmaxm d a b dbl) (fpMinMax f cp true true x y) ∧
    go (.fceq d a b dbl) (fpCmp .eq f cp x y) ∧ go (.fclt d a b dbl) (fpCmp .lt f cp x y) ∧
    go (.fcle d a b dbl) (fpCmp .le f cp x y) ∧ go (.fcun d a b dbl) (fpCmp .un f cp x y) ∧
    Gives (.fabs d a dbl) s d (BitVec.ofNat 64 (x % 2 ^ (f.bits - 1))) ∧
    Gives (.fneg d a dbl) s d (BitVec.ofNat 64 (if x < 2 ^ (f.bits - 1) then x + 2 ^ (f.bits - 1) else x - 2 ^ (f.bits - 1)))

/-- R80, R226: FMIN, FMAX, FMINM and FMAXM, and the lanes of the vector forms, for every pair of codes of a format (DEN = 00): the table of NaN
operands; of two numbers the smaller or larger by value, or for the forms by magnitude the one of smaller or larger magnitude; −0 below +0, in both
orders, and b in the legacy mode; of equal magnitudes the result of FMIN or FMAX. That this last holds in the legacy mode too, where the table only
names the comparison, is the model's reading (log entry 75). -/
def MinimumAndMaximumFollowNanmm : Prop :=
  ∀ (f : Fmt) (cp x y : Nat) (mx mag : Bool), f = fp16 ∨ f = bf16 ∨ f = fp32 ∨ f = fp64 → cpDEN cp = 0 → x < 2 ^ f.bits → y < 2 ^ f.bits →
    let r := fpMinMax f cp mx mag x y; let a := f.decode x; let b := f.decode y; let nx := a.isNaN; let ny := b.isNaN
    let minus := f.withSign true 0
    (cpNANMM cp = 0 → nx ∨ ny → r.bits = f.nan) ∧
    (cpNANMM cp = 1 → nx → ny → r.bits = f.nan) ∧ (cpNANMM cp = 1 → nx → ¬ ny → r.bits = y) ∧ (cpNANMM cp = 1 → ¬ nx → ny → r.bits = x) ∧
    (cpNANMM cp = 2 → (nx ∨ ny → r.bits = y) ∧ r.flags = 0) ∧
    (¬ nx → ¬ ny → r.bits = x ∨ r.bits = y) ∧
    (mag = false → (Below a b → r.bits = if mx then y else x) ∧ (Below b a → r.bits = if mx then x else y)) ∧
    (mag = true → (Below a.abs b.abs → r.bits = if mx then y else x) ∧ (Below b.abs a.abs → r.bits = if mx then x else y) ∧
      (¬ nx → ¬ ny → ¬ Below a.abs b.abs → ¬ Below b.abs a.abs → r.bits = (fpMinMax f cp mx false x y).bits)) ∧
    (cpNANMM cp ≠ 2 → (x = minus → y = 0 → r.bits = if mx then y else x) ∧ (x = 0 → y = minus → r.bits = if mx then x else y)) ∧
    (cpNANMM cp = 2 → (x = minus ∧ y = 0) ∨ (x = 0 ∧ y = minus) → r.bits = y) ∧
    (cpNANMM cp ≠ 2 → (r.flags = flNV ↔ a.isSNaN ∨ b.isSNaN) ∧ (r.flags = 0 ∨ r.flags = flNV))

/-- R81, R236: the comparisons of two codes of a format: 1 where the relation holds and 0 otherwise, −0 equal to +0, subnormal operands zeros under
DEN = 01; a NaN is equal to, below and at most nothing, and unordered to everything; FCLT and FCLE set NV for any NaN, FCEQ and FCUN for a signalling
one. -/
def ComparisonsFollowTheirTable : Prop :=
  ∀ (f : Fmt) (cp x y : Nat), f = fp16 ∨ f = bf16 ∨ f = fp32 ∨ f = fp64 → x < 2 ^ f.bits → y < 2 ^ f.bits →
    let a := operand f cp x; let b := operand f cp y; let un := a.isNaN = true ∨ b.isNaN = true
    let tells := fun rel (p : Prop) => ((fpCmp rel f cp x y).bits = 1 ↔ p) ∧ ((fpCmp rel f cp x y).bits = 0 ↔ ¬ p)
    let flags := fun rel (p : Prop) => ((fpCmp rel f cp x y).flags = flNV ↔ p) ∧ ((fpCmp rel f cp x y).flags = 0 ↔ ¬ p)
    let sig := a.isSNaN = true ∨ b.isSNaN = true
    tells .eq (¬ un ∧ ¬ Below a b ∧ ¬ Below b a) ∧ tells .lt (¬ un ∧ Below a b) ∧ tells .le (¬ un ∧ ¬ Below b a) ∧ tells .un un ∧
    flags .eq sig ∧ flags .un sig ∧ flags .lt un ∧ flags .le un

/-- R82: FCVT by its 14 codes and FRND, rounding by DIR or by EffRM. A 32-bit signed result is sign-extended in its register. -/
def ConversionsWriteOrTrapCompat : Prop :=
  ∀ (s : State) (d a : Reg) (k cf : BitVec 4) (dbl : Bool), k.toNat ≤ 13 → convFieldOk cf = true →
    let cp := s.me.cprof.toNat; let x := (s.me.reg a).toNat
    let rm := if cf.toNat = 4 then 2 else if cf.toNat = 8 then 3 else effRM cp cf.toNat
    let frm := if k.toNat % 2 = 0 then fp32 else fp64
    let raw := fun r => FloatGives (.fcvt d a k cf) s d r (BitVec.ofNat 64 r.bits)
    (k = 0 → raw (fpToFp fp32 fp64 cp rm x)) ∧ (k = 1 → raw (fpToFp fp64 fp32 cp rm x)) ∧
    (k = 2 ∨ k = 3 → raw (fpToInt frm cp rm 64 true x)) ∧ (k = 4 ∨ k = 5 → raw (fpToInt frm cp rm 64 false x)) ∧
    (k = 6 ∨ k = 7 → let r := fpToInt frm cp rm 32 true x
      FloatGives (.fcvt d a k cf) s d r ((BitVec.ofNat 32 r.bits).signExtend 64)) ∧
    (k = 8 ∨ k = 9 → raw (fpToInt frm cp rm 32 false x)) ∧
    (k = 10 ∨ k = 11 → raw (intToFp frm cp rm (s.me.reg a).toInt)) ∧ (k = 12 ∨ k = 13 → raw (intToFp frm cp rm (x : Int))) ∧
    (let r := fpRnd (fopFmt dbl) cp rm x; FloatGives (.frnd d a dbl cf) s d r (BitVec.ofNat 64 r.bits))

end Sys2Proof.Claims

/-- The scalar float forms write their result and flags, or trap COMPAT. -/
def Obligations.FloatFormsWriteOrTrapCompat : Prop :=
  FloatArithmeticWritesOrTrapsCompat ∧ FloatSelectionAndComparison ∧ ConversionsWriteOrTrapCompat

namespace Sys2Proof.Claims

/-- R82's table: a float operand that is finite and not flushed gives the integer that its rounding is, where the range holds it; else the end of the
range by its sign, or the low bits under CVTW, with NV. An infinity and a NaN give the table's values, with NV; a subnormal under DEN = 01 gives 0
with no flag. -/
def FloatToIntegerFollowsTheTable : Prop :=
  ∀ (f : Fmt) (cp x w : Nat) (rm : Rnd) (sgn : Bool), f = fp32 ∨ f = fp64 → w = 32 ∨ w = 64 →
    let r := fpToInt f cp rm w sgn x; let i := ((f.decode x).toInt rm).1
    let lo : Int := if sgn then -2 ^ (w - 1) else 0; let hi : Int := if sgn then 2 ^ (w - 1) - 1 else 2 ^ w - 1
    let pat : Int → Nat := fun v => (v % 2 ^ w).toNat
    (operand f cp x ≠ f.decode x → r.bits = 0 ∧ r.flags = 0) ∧ (operand f cp x = f.decode x →
    ((f.decode x).isNaN → r.bits = (if cpCVTW cp then 2 ^ (w - 1) else 0) ∧ r.flags = flNV) ∧
    (∀ n, f.decode x = .inf n → r.bits = (if cpCVTW cp then 2 ^ (w - 1) else pat (if n then lo else hi)) ∧ r.flags = flNV) ∧
    ((f.decode x).isFin → lo ≤ i → i ≤ hi → r.bits = pat i ∧ (r.flags = 0 ↔ valueOf (f.decode x) = i) ∧ (r.flags = 0 ∨ r.flags = flNX)) ∧
    ((f.decode x).isFin → i < lo ∨ hi < i →
      r.bits = pat (if cpCVTW cp then i else if i < 0 then lo else hi) ∧ r.flags = flNV) ∧
    ((f.decode x).isFin → rm < 4 → RoundsTo rm (valueOf (f.decode x)) i))

/-- R82: an integer becomes the float that its exact value rounds to, with NX where the value changes and no other flag. -/
def IntegerToFloatRoundsTheValue : Prop :=
  ∀ (f : Fmt) (cp : Nat) (rm : Rnd) (i : Int), f = fp32 ∨ f = fp64 → -2 ^ 63 ≤ i → i < 2 ^ 64 → let r := intToFp f cp rm i
    (∃ v : Fl, v.isFin = true ∧ valueOf v = i ∧ r.bits = (f.round rm v).1) ∧ FiniteCode f r.bits ∧
    r.flags = if valueOf (f.decode r.bits) = i then 0 else flNX

/-- R82: from float to float: a NaN gives the canonical NaN and an infinity its like; widening keeps the value, under every DEN, without a flag;
narrowing gives what the operand, flushed under DEN = 01, rounds to, a subnormal result of DEN = 01 or 10 being a zero of its sign. -/
def FloatToFloatKeepsOrRounds : Prop :=
  ∀ (cp x : Nat) (rm : Rnd),
    (x < 2 ^ 32 → let r := fpToFp fp32 fp64 cp rm x; let v := fp32.decode x
      (v.isNaN → r.bits = fp64.nan) ∧ (∀ n, v = .inf n → fp64.decode r.bits = .inf n) ∧
      (v.isFin → (fp64.decode r.bits).isFin = true ∧ valueOf (fp64.decode r.bits) = valueOf v ∧ (fp64.decode r.bits).neg = v.neg ∧ r.flags = 0)) ∧
    (x < 2 ^ 64 → let r := fpToFp fp64 fp32 cp rm x; let v := operand fp64 cp x; let y := (fp32.round rm v).1
      (v.isNaN → r.bits = fp32.nan) ∧ (∀ n, v = .inf n → fp32.decode r.bits = .inf n) ∧
      (v.isFin → (cpDEN cp = 0 ∨ fp32.isSub y = false → r.bits = y ∧ r.flags = (fp32.round rm v).2) ∧
        (cpDEN cp = 1 ∨ cpDEN cp = 2 → fp32.isSub y = true → r.bits = fp32.withSign v.neg 0)))

/-- R82: FRND: a NaN gives the canonical NaN, with NV where it signals; an infinity and a zero pass; any other number gives the integer that it
rounds to, with its sign, and no flag; subnormal operands are zeros under DEN = 01. -/
def FrndGivesTheIntegralValue : Prop :=
  ∀ (f : Fmt) (cp x : Nat) (rm : Rnd), f = fp32 ∨ f = fp64 → x < 2 ^ f.bits → rm < 4 → let r := fpRnd f cp rm x; let v := operand f cp x
    (v.isNaN → r.bits = f.nan ∧ r.flags = if v.isSNaN then flNV else 0) ∧
    (¬ v.isNaN → r.flags = 0 ∧ (f.decode r.bits).neg = v.neg) ∧ (∀ n, v = .inf n → f.decode r.bits = .inf n) ∧
    (v.isFin → FiniteCode f r.bits ∧ ∃ i : Int, valueOf (f.decode r.bits) = i ∧ RoundsTo rm (valueOf v) i)

end Sys2Proof.Claims

/-- Minimum, maximum, comparison, conversion and FRND follow the tables of R80 to R82. -/
def Obligations.MinimaAndConversionsFollowTheirTables : Prop :=
  MinimumAndMaximumFollowNanmm ∧ ComparisonsFollowTheirTable ∧ FloatToIntegerFollowsTheTable ∧ IntegerToFloatRoundsTheValue ∧ FloatToFloatKeepsOrRounds ∧ FrndGivesTheIntegralValue

namespace Sys2Proof.Claims

/-- R11: rounding a finite number to a format of IEEE 754: of the format's finite numbers the nearest, ties to the even code, the nearest not larger
in magnitude, not above, or not below it, by the mode; an infinity only past them, from half a step past the largest under RNE; the sign is kept; NX
where the value changes. -/
def RoundingFindsTheNeighbour : Prop :=
  ∀ (f : Fmt) (v : Fl) (rm : Rnd), f = fp16 ∨ f = bf16 ∨ f = fp32 ∨ f = fp64 → v.isFin = true → rm < 4 →
    let q := valueOf v; let r := (f.round rm v).1; let d := f.decode r; let at_ := fun y => valueOf (f.decode y)
    let top := at_ f.maxFin; let half := top + (2 : ℚ) ^ ((f.bias : Int) - f.mb - 1)
    d.neg = v.neg ∧ d.isNaN = false ∧
    (rm = 0 → (d.isInf = true ↔ half ≤ |q|) ∧ (|q| < half → ∀ y, FiniteCode f y → |q - at_ r| ≤ |q - at_ y| ∧
      (|q - at_ r| = |q - at_ y| → at_ y ≠ at_ r → r % 2 = 0))) ∧
    (rm = 1 → d.isFin = true ∧ |at_ r| ≤ |q| ∧ ∀ y, FiniteCode f y → |at_ y| ≤ |q| → |at_ y| ≤ |at_ r|) ∧
    (rm = 2 → (d.isInf = true ↔ q < -top) ∧ (-top ≤ q → at_ r ≤ q ∧ ∀ y, FiniteCode f y → at_ y ≤ q → at_ y ≤ at_ r)) ∧
    (rm = 3 → (d.isInf = true ↔ top < q) ∧ (q ≤ top → q ≤ at_ r ∧ ∀ y, FiniteCode f y → q ≤ at_ y → at_ r ≤ at_ y)) ∧
    ((f.round rm v).2.testBit 0 = true ↔ d.isInf = true ∨ at_ r ≠ q)

end Sys2Proof.Claims

/-- Float arithmetic is the exact value rounded once; representable values are kept. -/
def Obligations.FloatArithmeticRoundsTheExactValue : Prop :=
  ExactValuesAreRoundedOnce ∧ QuotientsAndRootsAreRounded ∧ ExactZerosTakeTheirSign ∧ RoundingKeepsRepresentableValues ∧ RoundingFindsTheNeighbour

namespace Sys2Proof.Claims

/-! ### Terms of the vector statements -/

/-- Lane `i` of a tag's register is active under the mask field (R232). -/
def Active (s : State) (rt : Nat) (mg : Reg) (i : Nat) : Prop := i < tagLanes rt ∧ laneActive (s.me.maskOf mg) (tagLanes rt) i = true

/-- A lane form (R229, R233), `f` giving the result of each active lane: where no active lane raises an enabled event, v(d) takes tag `rt`, the
results in its active lanes and in the others their old bits under the same tag or 0, with the flags of the active lanes; else it traps COMPAT for
the lowest enabled event, with the lanes that raised it, and writes nothing. -/
def LanesGive (i : Instr) (s : State) (d : VReg) (rt : Nat) (mg : Reg) (f : Nat → FpRes) : Prop :=
  ((∀ j b, Active s rt mg j → 16 ≤ b → b ≤ 20 → ¬ Raises s (f j) b) → ∃ t, exec i s = .next t ∧
    WroteLanes s t d rt (fun j => if laneActive (s.me.maskOf mg) (tagLanes rt) j then (f j).bits else s.me.keptLane d rt j)
      (fun b => ∃ j, Active s rt mg j ∧ (f j).flags.testBit b = true)) ∧
  (∀ b, 16 ≤ b → b ≤ 20 → (∃ j, Active s rt mg j ∧ Raises s (f j) b) →
    (∀ e j, 16 ≤ e → e < b → Active s rt mg j → ¬ Raises s (f j) e) → s.Handled → tagLanes rt ≤ 32 →
    ∃ m, m < 2 ^ 32 ∧ (∀ j, m.testBit j = true ↔ Active s rt mg j ∧ Raises s (f j) b) ∧
      TrapsAs i s { s.me.unit.info cCOMPAT 0 with cls := b, lanes := m })

/-- The form traps TAG, with the register and its tag as the address (R220). -/
def TagTraps (i : Instr) (s : State) (r : VReg) : Prop := Traps i s cTAG (BitVec.ofNat 64 (s.me.vtag r * 16 + r.toNat))

/-- A source of a form offends whose sources carry VA's tag out of a set: its tag is outside the set, or is not VA's where that is in it (R220,
R235). -/
def Offends (s : State) (ok : Nat → Bool) (va q : VReg) : Prop :=
  ok (s.me.vtag q) = false ∨ (ok (s.me.vtag va) = true ∧ s.me.vtag q ≠ s.me.vtag va)

/-- `r` is the lowest-numbered source that offends (R220). -/
def FirstBad (s : State) (ok : Nat → Bool) (va : VReg) (l : List VReg) (r : VReg) : Prop :=
  r ∈ va :: l ∧ Offends s ok va r ∧ ∀ q ∈ va :: l, Offends s ok va q → r.toNat ≤ q.toNat

end Sys2Proof.Claims

/-! ### Vector arithmetic -/

namespace Sys2Proof.Claims

/-- R234, R236, R237: the integer lanes of the arithmetic forms. A lane read by U is a number; the result is the exact sum, difference, product,
extreme or absolute value, wrapped, or clamped under SAT with its flag; a comparison gives all ones or zero. -/
def IntegerLanesCompute : Prop :=
  ∀ (s : State) (vd va vb : VReg) (u sat : Bool) (mg : Reg), let t := s.me.vtag va; let n := tagWidth t
    1 ≤ t → t ≤ 4 → s.me.vtag vb = t →
    let x := fun i => laneInt u n (s.me.lane va i); let y := fun i => laneInt u n (s.me.lane vb i)
    let a := fun i => laneInt false n (s.me.lane va i)
    let im : BitVec 2 := BitVec.ofNat 2 (boolN u + 2 * boolN sat)
    let mask := fun (p : Prop) [Decidable p] => ({ bits := if p then 2 ^ n - 1 else 0 } : FpRes)
    let go := fun i f => LanesGive i s vd t mg f
    go (.vadd vd va vb im mg 0) (fun i => laneOut u sat n (x i + y i)) ∧
    go (.vsub vd va vb im mg 0) (fun i => laneOut u sat n (x i - y i)) ∧
    go (.vmul vd va vb im mg 0) (fun i => laneOut u sat n (x i * y i)) ∧
    go (.vmin vd va vb u mg) (fun i => laneOut u false n (min (x i) (y i))) ∧
    go (.vmax vd va vb u mg) (fun i => laneOut u false n (max (x i) (y i))) ∧
    go (.vabs vd va sat mg) (fun i => laneOut false sat n |a i|) ∧
    go (.vneg vd va sat mg) (fun i => laneOut false sat n (-a i)) ∧
    go (.vceq vd va vb mg) (fun i => mask (a i = laneInt false n (s.me.lane vb i))) ∧
    go (.vclt vd va vb u mg) (fun i => mask (x i < y i)) ∧
    go (.vcle vd va vb u mg) (fun i => mask (x i ≤ y i))

/-- R236, R238: the float lanes, each lane as the scalar form of its format, with CPROF and the flags and events of R79. -/
def FloatLanesCompute : Prop :=
  ∀ (s : State) (vd va vb vc : VReg) (mg : Reg) (rm : BitVec 2), rm ≠ 3 → let t := s.me.vtag va
    5 ≤ t → t ≤ 8 → s.me.vtag vb = t → s.me.vtag vc = t →
    let cp := s.me.cprof.toNat; let f := tagFmt t; let m := effRM cp rm.toNat
    let x := fun i => s.me.lane va i; let y := fun i => s.me.lane vb i; let z := fun i => s.me.lane vc i
    let rt := intTagOf (tagWidth t)
    let mask := fun (r : FpRes) => { r with bits := if r.bits = 1 then 2 ^ tagWidth t - 1 else 0 }
    let go := fun i g => LanesGive i s vd t mg g
    go (.vadd vd va vb 0 mg rm) (fun i => fpArith .add f cp m (x i) (y i) (x i)) ∧
    go (.vsub vd va vb 0 mg rm) (fun i => fpArith .sub f cp m (x i) (y i) (x i)) ∧
    go (.vmul vd va vb 0 mg rm) (fun i => fpArith .mul f cp m (x i) (y i) (x i)) ∧
    go (.vfma vd va vb vc mg rm) (fun i => fpArith .fma f cp m (x i) (y i) (z i)) ∧
    go (.vdiv vd va vb mg rm) (fun i => fpArith .div f cp m (x i) (y i) (x i)) ∧
    go (.vsqrt vd va mg rm) (fun i => fpArith .sqrt f cp m (x i) (x i) (x i)) ∧
    go (.vmin vd va vb false mg) (fun i => fpMinMax f cp false false (x i) (y i)) ∧
    go (.vmax vd va vb false mg) (fun i => fpMinMax f cp true false (x i) (y i)) ∧
    go (.vminm vd va vb mg) (fun i => fpMinMax f cp false true (x i) (y i)) ∧
    go (.vmaxm vd va vb mg) (fun i => fpMinMax f cp true true (x i) (y i)) ∧
    go (.vabs vd va false mg) (fun i => { bits := x i % 2 ^ (f.bits - 1) }) ∧
    go (.vneg vd va false mg) (fun i => { bits := x i ^^^ 2 ^ (f.bits - 1) }) ∧
    LanesGive (.vceq vd va vb mg) s vd rt mg (fun i => mask (fpCmp .eq f cp (x i) (y i))) ∧
    LanesGive (.vclt vd va vb false mg) s vd rt mg (fun i => mask (fpCmp .lt f cp (x i) (y i))) ∧
    LanesGive (.vcle vd va vb false mg) s vd rt mg (fun i => mask (fpCmp .le f cp (x i) (y i))) ∧
    (t = 7 → let fn := fun i g => LanesGive i s vd 7 mg (fun j => fpFun g cp m (x j))
      fn (.vrcp vd va mg rm) .rcp ∧ fn (.vrsq vd va mg rm) .rsq ∧ fn (.vexp2 vd va mg rm) .exp2 ∧ fn (.vlog2 vd va mg rm) .log2 ∧
      fn (.vsin vd va mg rm) .sin ∧ fn (.vcos vd va mg rm) .cos)

/-- R238: the six functions, RCPX being 0. The special operands give their table's results and flags; VRCP and VRSQ of other numbers are 1/x and 1/√x
rounded once; VEXP2 of an integer and VLOG2 of a power of two are exact, and so are VSIN and VCOS of quarters, their zeros with the sign of x and +0.
Told with DEN = 00, or 01 for flushed operands. The rounding of the other values of the last four is not told here. -/
def FunctionsFollowTheirTable : Prop :=
  ∀ (cp x : Nat) (rm : Rnd), x < 2 ^ 32 → cpDEN cp ≤ 1 → cpRCPX cp = false → rm < 4 →
    let v := operand fp32 cp x; let r := fun g => fpFun g cp rm x; let d := fun g => fp32.decode (r g).bits; let z := valueOf v
    let bad := fun g => (r g).bits = fp32.nan ∧ (r g).flags = flNV
    let is := fun g (i : Int) => valueOf (d g) = i ∧ (d g).isFin = true ∧ (r g).flags = 0
    (v.isNaN → ∀ g, (r g).bits = fp32.nan ∧ (r g).flags = if v.isSNaN then flNV else 0) ∧
    (v.isFin → z = 0 → (∀ g ∈ [FpFun.rcp, .rsq], d g = .inf v.neg ∧ (r g).flags = flDZ) ∧ is .exp2 1 ∧ d .log2 = .inf true ∧ (r .log2).flags = flDZ ∧
      is .sin 0 ∧ (d .sin).neg = v.neg ∧ is .cos 1) ∧
    (∀ s, v = .inf s → is .rcp 0 ∧ (d .rcp).neg = s ∧ bad .sin ∧ bad .cos ∧
      (s = false → is .rsq 0 ∧ d .exp2 = .inf false ∧ d .log2 = .inf false ∧ ∀ g ∈ [FpFun.exp2, .log2], (r g).flags = 0) ∧
      (s = true → bad .rsq ∧ is .exp2 0 ∧ bad .log2)) ∧
    (z < 0 → bad .rsq ∧ bad .log2) ∧
    (v.isFin → z ≠ 0 → cpDEN cp = 0 → RoundsReal fp32 rm ((1 / z : ℚ) : ℝ) (r .rcp).bits ∧ (d .rcp).neg = v.neg) ∧
    (0 < z → RoundsReal fp32 rm (1 / Real.sqrt ((z : ℚ) : ℝ)) (r .rsq).bits) ∧
    (∀ i : Int, v.isFin → z = i → -126 ≤ i → i ≤ 127 → valueOf (d .exp2) = (2 : ℚ) ^ i ∧ (r .exp2).flags = 0) ∧
    (∀ i : Int, z = (2 : ℚ) ^ i → is .log2 i ∧ (d .log2).neg = decide (i < 0)) ∧
    (∀ i : Int, v.isFin → 4 * z = i →
      (i % 4 = 0 → is .sin 0 ∧ (d .sin).neg = v.neg ∧ is .cos 1) ∧ (i % 4 = 1 → is .sin 1 ∧ is .cos 0 ∧ (d .cos).neg = false) ∧
      (i % 4 = 2 → is .sin 0 ∧ (d .sin).neg = v.neg ∧ is .cos (-1)) ∧ (i % 4 = 3 → is .sin (-1) ∧ is .cos 0 ∧ (d .cos).neg = false))

/-- R78, R79, R80, R226: what DEN, ZMUL and the events add, for every operation. Under DEN = 01 a subnormal operand counts as a zero of its sign, and
under 01 and 10 a nonzero subnormal result becomes one, with UF and NX; under ZMUL a product with a zero factor is +0 and sets no flag, and a fused
product adds the addend to it; else the result is that of DEN = 00 and ZMUL = 0. The events are R79's. -/
def FlushingAndZeroProducts : Prop :=
  ∀ (f : Fmt) (cp cp' x y z : Nat) (rm : Rnd) (op : FpOp), f = fp16 ∨ f = bf16 ∨ f = fp32 ∨ f = fp64 → x < 2 ^ f.bits → y < 2 ^ f.bits → z < 2 ^ f.bits →
    rm < 4 → cpDEN cp' = 0 → cpZMUL cp' = false → cpRCPX cp' = false → cpNANMM cp' = cpNANMM cp →
    let sub := fun (d : Fl) => d.isFin = true ∧ valueOf d ≠ 0 ∧ |valueOf d| < (2 : ℚ) ^ f.emin
    let fl := fun c => if operand f cp c = f.decode c then c else f.withSign (f.decode c).neg 0
    let zero := fun c => (operand f cp c).isFin = true ∧ valueOf (operand f cp c) = 0
    let flushes := cpDEN cp = 1 ∨ cpDEN cp = 2
    let out := fun (r q : FpRes) => let d := f.decode q.bits
      (¬ flushes ∨ ¬ sub d → r.bits = q.bits ∧ r.flags = q.flags) ∧
      (flushes → sub d → r.bits = f.withSign d.neg 0 ∧ r.flags = q.flags ||| (flUF + flNX))
    let tells := fun (r : FpRes) (ops : List Nat) (ez : Prop) => let d := f.decode r.bits
      (r.events.testBit 16 = true ↔ d.isNaN = true ∧ ∀ c ∈ ops, (f.decode c).isNaN = false) ∧
      (r.events.testBit 17 = true ↔ ∃ c ∈ ops, sub (f.decode c)) ∧
      (r.events.testBit 18 = true ↔ d.isInf = true ∧ ∀ c ∈ ops, (f.decode c).isInf = false) ∧
      r.events.testBit 19 = false ∧ (r.events.testBit 20 = true ↔ ez)
    let ops := match op with | .sqrt => [x] | .fma => [x, y, z] | _ => [x, y]
    let zp := cpZMUL cp = true ∧ (op = .mul ∨ op = .fma) ∧ (zero x ∨ zero y); let r := fpArith op f cp rm x y z
    (¬ zp → out r (fpArith op f cp' rm (fl x) (fl y) (fl z))) ∧ (zp → op = .mul → r.bits = 0 ∧ r.flags = 0) ∧
    (zp → op = .fma → out r (fpArith .add f cp' rm 0 (fl z) 0)) ∧
    tells r ops (zp ∧ ∃ c ∈ [x, y], (f.decode c).isFin = false) ∧
    (∀ mx mag, let m := fpMinMax f cp mx mag x y; let q := fpMinMax f cp' mx mag (fl x) (fl y)
      m.bits = q.bits ∧ m.flags = q.flags ∧ (m.events = 0 ∨ m.events = 2 ^ 17) ∧ (m.events.testBit 17 = true ↔ ∃ c ∈ [x, y], sub (f.decode c))) ∧
    (f = fp32 → ∀ g, let e := fpFun g cp rm x
      tells e [x] False ∧ (cpRCPX cp = false ∨ g ∉ [FpFun.rcp, .rsq] → out e (fpFun g cp' rm (fl x))))

/-- R227, R228: VRCP and VRSQ under RCPX: their special operands, and the steps of RcpLegacy and RsqLegacy on the others, for a significand 1 +
m/2^23 and an unbiased exponent e, each rounding by RNE; flushed operands are zeros. -/
def LegacyEstimatesFollowTheirSteps : Prop :=
  ∀ (cp x : Nat) (rm : Rnd), x < 2 ^ 32 → cpRCPX cp = true →
    let v := operand fp32 cp x; let q := valueOf v; let rcp := fpFun .rcp cp rm x; let rsq := fpFun .rsq cp rm x
    let at_ := fun c => valueOf (fp32.decode c); let near := fun (q : ℚ) c => RoundsReal fp32 0 (q : ℝ) c
    let low := (2 : ℚ) ^ (-126 : Int); let gives := fun (r : FpRes) b fl => r.bits = b ∧ r.flags = fl
    (v.isNaN → gives rcp 0x7FC00000 0 ∧ gives rsq 0x7FC00000 0) ∧
    (v.isFin → |q| < low → let b := 0x7F800000 + if v.neg then 2 ^ 31 else 0; gives rcp b flDZ ∧ gives rsq b flDZ) ∧
    (∀ s, v = .inf s → gives rcp (if s then 2 ^ 31 else 0) 0 ∧ (s = false → gives rsq 0 0) ∧ (s = true → gives rsq 0x7FC00000 flNV)) ∧
    (v.isFin → q ≤ -low → gives rsq 0x7FC00000 flNV) ∧
    ∀ (m : Nat) (e : Int), m < 2 ^ 23 → v.isFin → low ≤ |q| → |q| = (1 + (m : ℚ) / 2 ^ 23) * 2 ^ e →
      (let y0 := (if v.neg then -1 else 1) * ((2 ^ 37 / (8192 + 2 * (m / 2 ^ 11) + 1) : Nat) : ℚ) * 2 ^ (-24 - e)
        ∃ h y, near (1 - q * y0) h ∧ near (y0 + y0 * at_ h) y ∧ (|at_ y| < low → gives rcp (if v.neg then 2 ^ 31 else 0) 0) ∧
          (low ≤ |at_ y| → gives rcp y 0)) ∧
      (v.neg = false → let p := e % 2; let u := (1 + (2 * (m / 2 ^ 12 : Nat) + 1 : ℚ) / 4096) * 2 ^ p
        ∃ k : Nat, (k : ℚ) ^ 2 * u ≤ 2 ^ 48 ∧ 2 ^ 48 < ((k : ℚ) + 1) ^ 2 * u ∧ let y0 := (k : ℚ) * 2 ^ (-24 - (e - p) / 2)
          ∃ t h y0h y, near (y0 * y0) t ∧ near (1 - q * at_ t) h ∧ near (y0 / 2) y0h ∧ near (y0 + at_ y0h * at_ h) y ∧ gives rsq y 0)

end Sys2Proof.Claims

/-- R239: the bitwise forms on tags 1 to 10, the shifts on integer tags, and VSEL, with no flag and no event. -/
def Obligations.VectorBitLanes : Prop :=
  ∀ (s : State) (vd va vb vc : VReg) (mg : Reg), let t := s.me.vtag va; let n := tagWidth t
    1 ≤ t → t ≤ 10 → s.me.vtag vb = t →
    let x := fun i => s.me.lane va i; let y := fun i => s.me.lane vb i
    let go := fun i (g : Nat → Nat) => LanesGive i s vd t mg (fun j => { bits := g j })
    go (.vand vd va vb mg) (fun i => x i &&& y i) ∧ go (.vor vd va vb mg) (fun i => x i ||| y i) ∧
    go (.vxor vd va vb mg) (fun i => x i ^^^ y i) ∧
    (t ≤ 4 → go (.vshl vd va vb mg) (fun i => x i * 2 ^ (y i % n)) ∧ go (.vshr vd va vb mg) (fun i => x i / 2 ^ (y i % n)) ∧
      go (.vsar vd va vb mg) (fun i => ((BitVec.ofNat n (x i)).sshiftRight (y i % n)).toNat)) ∧
    (1 ≤ s.me.vtag vc → s.me.vtag vc ≤ 4 → tagWidth (s.me.vtag vc) = n →
      go (.vsel vd va vb vc mg) (fun i => if s.me.lane vc i = 0 then y i else x i))

/-- R220, R234, R235: a source whose tag is outside its form's list, or not VA's, traps TAG before anything changes, reporting the lowest-numbered
one; so does a field that the operands' tags do not allow. Which register is named is the model's reading (log 95): where VA's own tag is outside the
set, an unlike tag in it offends not, and a field's breach names the lower-numbered source. VSEL's mask carries an integer tag of VA's lane width. -/
def Obligations.VectorTagsAreCheckedFirst : Prop :=
  ∀ (s : State) (vd va vb vc : VReg) (im rm : BitVec 2) (u sat : Bool) (mg : Reg) (r : VReg), s.Handled →
    let bad := fun (ok : Nat → Bool) (l : List VReg) (is : List Instr) => FirstBad s ok va l r → ∀ i ∈ is, TagTraps i s r
    let t := s.me.vtag va; let like := s.me.vtag vb = t; let low := if va.toNat ≤ vb.toNat then va else vb
    let offAB := fun q => (q = va ∨ q = vb) ∧ Offends s tagIsScal va q
    let offC := fun q => q = vc ∧ (tagIsInt (s.me.vtag vc) = false ∨ (tagIsScal t = true ∧ tagWidth (s.me.vtag vc) ≠ tagWidth t))
    bad tagIntOrFlt [vb] [.vadd vd va vb im mg rm, .vsub vd va vb im mg rm, .vmul vd va vb im mg rm, .vmin vd va vb u mg,
      .vmax vd va vb u mg, .vceq vd va vb mg, .vclt vd va vb u mg, .vcle vd va vb u mg] ∧
    bad tagIsFlt [vb] [.vminm vd va vb mg, .vmaxm vd va vb mg, .vdiv vd va vb mg rm] ∧
    bad tagIsFlt [vb, vc] [.vfma vd va vb vc mg rm] ∧
    bad tagIsFlt [] [.vsqrt vd va mg rm] ∧ bad tagIntOrFlt [] [.vabs vd va sat mg, .vneg vd va sat mg] ∧
    bad (fun t => t == 7) [] [.vrcp vd va mg rm, .vrsq vd va mg rm, .vexp2 vd va mg rm, .vlog2 vd va mg rm, .vsin vd va mg rm,
      .vcos vd va mg rm] ∧
    bad tagIsScal [vb] [.vand vd va vb mg, .vor vd va vb mg, .vxor vd va vb mg] ∧
    bad tagIsInt [vb] [.vshl vd va vb mg, .vshr vd va vb mg, .vsar vd va vb mg] ∧
    (offAB r ∨ offC r → (∀ q, offAB q ∨ offC q → r.toNat ≤ q.toNat) → TagTraps (.vsel vd va vb vc mg) s r) ∧
    (tagIsInt t = true → like → rm ≠ 0 → ∀ i ∈ [Instr.vadd vd va vb im mg rm, .vsub vd va vb im mg rm, .vmul vd va vb im mg rm], TagTraps i s low) ∧
    (tagIsFlt t = true → like →
      (im ≠ 0 → ∀ i ∈ [Instr.vadd vd va vb im mg rm, .vsub vd va vb im mg rm, .vmul vd va vb im mg rm], TagTraps i s low) ∧
      (∀ i ∈ [Instr.vmin vd va vb true mg, .vmax vd va vb true mg, .vclt vd va vb true mg, .vcle vd va vb true mg], TagTraps i s low) ∧
      ∀ i ∈ [Instr.vabs vd va true mg, .vneg vd va true mg], TagTraps i s va)

/-! ### Vector conversions, permutations, reductions and lane moves -/

namespace Sys2Proof.Claims

/-- R246: VCVT converts lanes below both registers' counts where they are active, keeps inactive ones by R233, and writes 0 above. A source outside
tags 1 to 10 traps TAG. -/
def VcvtWritesItsLanes : Prop :=
  ∀ (s : State) (vd va : VReg) (n : Bool) (tt : BitVec 4) (mg : Reg) (rm : BitVec 2), tagIn tt 1 10 = true → rm ≠ 3 →
    let ts := s.me.vtag va; let rt := tt.toNat; let l := min (tagLanes ts) (tagLanes rt)
    let cp := s.me.cprof.toNat; let g := fun i => cvtLane ts rt cp (effRM cp rm.toNat) n (s.me.lane va i)
    let act := fun i => i < l ∧ laneActive (s.me.maskOf mg) (tagLanes rt) i = true
    (tagIsScal ts = true → (∀ i b, act i → 16 ≤ b → b ≤ 20 → ¬ Raises s (g i) b) → ∃ t, exec (.vcvt vd va n tt mg rm) s = .next t ∧
      WroteLanes s t vd rt (fun i => if l ≤ i then 0 else if laneActive (s.me.maskOf mg) (tagLanes rt) i then (g i).bits
        else s.me.keptLane vd rt i) (fun b => ∃ i, act i ∧ (g i).flags.testBit b = true)) ∧
    (tagIsScal ts = true → s.Handled → (∃ i b, act i ∧ 16 ≤ b ∧ b ≤ 20 ∧ Raises s (g i) b) →
      ∃ b m, TrapsAs (.vcvt vd va n tt mg rm) s { s.me.unit.info cCOMPAT 0 with cls := b, lanes := m } ∧
        (∃ i, act i ∧ Raises s (g i) b) ∧ ∀ i e, act i → 16 ≤ e → e < b → ¬ Raises s (g i) e) ∧
    (tagIsScal ts = false → s.Handled → TagTraps (.vcvt vd va n tt mg rm) s va)

/-- R246's integer rows: an integer lane narrows or widens with saturation into the target's range, and sets SAT where clamped. -/
def VcvtBetweenIntegersSaturates : Prop :=
  ∀ (ts tt cp a : Nat) (rm : Rnd) (n : Bool), 1 ≤ ts → ts ≤ 4 → 1 ≤ tt → tt ≤ 4 → ts ≠ tt → a < 2 ^ tagWidth ts →
    let v : Int := if n then a else if a < 2 ^ (tagWidth ts - 1) then a else a - 2 ^ tagWidth ts
    let lo : Int := if n then 0 else -2 ^ (tagWidth tt - 1)
    let hi : Int := if n then 2 ^ tagWidth tt - 1 else 2 ^ (tagWidth tt - 1) - 1
    let r := cvtLane ts tt cp rm n a
    ((r.bits : Int) = max lo (min v hi) % 2 ^ tagWidth tt) ∧ (r.flags = if lo ≤ v ∧ v ≤ hi then 0 else flSAT) ∧ r.events = 0

/-- R205, R206, R246: VCVT's lanes from and into floats. A NaN gives the canonical NaN; into FP16, BF16, FP32 and FP64 an infinity stays one and a
number is rounded by the mode, with the flushing of DEN; into E4M3 and E5M2 a number gives the nearest finite one, an infinity 448 or an infinity;
into integers a number gives the integer that its rounding is, where N's range holds it, else the range's end, or the low bits under CVTW, with NV;
an integer becomes the float that its value rounds to. An equal tag copies. That CPROF.RM acts into integers too is the model's reading (log 110). -/
def LanesConvertToAndFromFloats : Prop :=
  ∀ (ts tt cp x : Nat) (rm : Rnd) (n : Bool), 1 ≤ ts → ts ≤ 10 → 1 ≤ tt → tt ≤ 10 → x < 2 ^ tagWidth ts → rm < 4 →
    let f := tagFmt ts; let t := tagFmt tt; let w := tagWidth tt; let r := cvtLane ts tt cp rm n x
    let v := if ts ≤ 8 then operand f cp x else f.decode x
    let i : Int := if n then x else if x < 2 ^ (tagWidth ts - 1) then x else x - 2 ^ tagWidth ts
    let lo : Int := if n then 0 else -2 ^ (w - 1); let hi : Int := if n then 2 ^ w - 1 else 2 ^ (w - 1) - 1
    let pat : Int → Nat := fun k => (k % 2 ^ w).toNat
    let rounds := fun (v : Fl) => let y := (t.round rm v).1
      (cpDEN cp = 0 ∨ t.isSub y = false → r.bits = y ∧ r.flags = (t.round rm v).2) ∧
      (cpDEN cp = 1 ∨ cpDEN cp = 2 → t.isSub y = true → r.bits = t.withSign v.neg 0)
    (tt = ts → (5 ≤ ts → (f.decode x).isNaN → r.bits = f.nan) ∧ (ts ≤ 4 ∨ (f.decode x).isNaN = false → r.bits = x ∧ r.flags = 0)) ∧
    (5 ≤ ts → tt ≠ ts → 5 ≤ tt →
      (v.isNaN → r.bits = t.nan) ∧ (tt ≤ 8 → (∀ s, v = .inf s → t.decode r.bits = .inf s) ∧ (v.isFin → rounds v)) ∧
      (9 ≤ tt → (∀ s, v = .inf s → r.bits = t.withSign s (if tt = 9 then t.maxFin else t.infCode)) ∧ (v.isFin → Nearest t v r.bits))) ∧
    (5 ≤ ts → tt ≤ 4 → (v.isNaN → r.bits = (if cpCVTW cp then 2 ^ (w - 1) else 0) ∧ r.flags = flNV) ∧
      (∀ s, v = .inf s → r.bits = (if cpCVTW cp then 2 ^ (w - 1) else pat (if s then lo else hi)) ∧ r.flags = flNV) ∧
      (v.isFin → ∃ k : Int, RoundsTo rm (valueOf v) k ∧
        (lo ≤ k → k ≤ hi → r.bits = pat k ∧ (r.flags = 0 ↔ valueOf v = k) ∧ (r.flags = 0 ∨ r.flags = flNX)) ∧
        (k < lo ∨ hi < k → r.bits = pat (if cpCVTW cp then k else if k < 0 then lo else hi) ∧ r.flags = flNV))) ∧
    (ts ≤ 4 → 5 ≤ tt → ∃ u : Fl, u.isFin = true ∧ valueOf u = i ∧ u.neg = decide (i < 0) ∧ (tt ≤ 8 → rounds u) ∧ (9 ≤ tt → Nearest t u r.bits))

end Sys2Proof.Claims

/-- VCVT converts active lanes; between integers it saturates. -/
def Obligations.VcvtConvertsActiveLanes : Prop :=
  VcvtWritesItsLanes ∧ VcvtBetweenIntegersSaturates ∧ LanesConvertToAndFromFloats

namespace Sys2Proof.Claims

/-- R209, R210, R213, R214: a TXB block of values: scale A is the smallest code that is not below the largest finite magnitude over 26 (TXB8) or 1.5
(TXB4), scale B the same for those below a fraction of A; an element below it takes B, and the nearest magnitude of its scale, ties to the even code,
a zero always under A. TXB8 keeps infinities and NaNs as codes; in TXB4 one of them makes scale A a NaN and every code 0. -/
def TxbBlocksAreQuantised : Prop :=
  ∀ (x : List Fl) (txb8 : Bool), let r := quantTxb x (if txb8 then 0 else 1); let nf := ∃ v ∈ x, v.isFin = false
    let mm : ℚ := if txb8 then 26 else 3 / 2; let fr : ℚ := if txb8 then 1 / 4 else 1 / 2; let size := if txb8 then 62 else 4
    let scale := fun (c : Nat) => if c / 8 = 0 then (c : ℚ) * 2 ^ (-17 : Int) else ((8 + c % 8 : ℕ) : ℚ) * 2 ^ ((c / 8 : Int) - 18)
    let grid := fun (c : Nat) => if txb8 then (if c / 8 = 0 then (c : ℚ) / 32 else ((8 + c % 8 : ℕ) : ℚ) * 2 ^ ((c / 8 : Int) - 6)) else (c : ℚ) / 2
    let up := fun (q : ℚ) (c : Nat) => (q = 0 → c = 0) ∧
      (q ≠ 0 → 1 ≤ c ∧ c ≤ 0xF7 ∧ (∀ k, 1 ≤ k → k < c → scale k < q) ∧ (q ≤ scale c ∨ c = 0xF7))
    (txb8 = false → nf → r = (0xF8, x.map fun _ => 0)) ∧
    (txb8 = true ∨ ¬ nf → ∃ a b, r.1 = a + 256 * b ∧ a < 256 ∧ r.2.length = x.length ∧ let th := fr * scale a
      (∀ m, 0 ≤ m → m = 0 ∨ (∃ v ∈ x, v.isFin = true ∧ |valueOf v| = m) → (∀ v ∈ x, v.isFin = true → |valueOf v| ≤ m) →
        ∃ c, up (m / mm) c ∧ (c = 0 → nf → a = 1) ∧ (c ≠ 0 ∨ ¬ nf → a = c)) ∧
      (∀ m, 0 ≤ m → m = 0 ∨ (∃ v ∈ x, v.isFin = true ∧ |valueOf v| = m ∧ m < th) →
        (∀ v ∈ x, v.isFin = true → |valueOf v| < th → |valueOf v| ≤ m) → up (m / mm) b) ∧
      ∀ (i : Nat) (v : Fl), x[i]? = some v → (v.isNaN → r.2[i]? = some 0x3F) ∧ (∀ s, v = .inf s → r.2[i]? = some (62 + if s then 64 else 0)) ∧
        (v.isFin → ∃ g, g < size ∧ let sel := b ≠ 0 ∧ |valueOf v| < th; let sign := if v.neg then (if txb8 then 64 else 4) else 0
          let fits := fun (s : ℚ) => (s = 0 → g = 0) ∧ (s ≠ 0 → ∀ y, y < size → let q := |valueOf v| / s
            |q - grid g| ≤ |q - grid y| ∧ (|q - grid g| = |q - grid y| → y ≠ g → g % 2 = 0))
          (sel → fits (scale b)) ∧ (¬ sel → fits (scale a)) ∧
          (sel → g ≠ 0 → r.2[i]? = some (g + sign + if txb8 then 128 else 8)) ∧ (¬ sel ∨ g = 0 → r.2[i]? = some (g + sign))))

/-- R247, R248, R249: VQNT quantises two registers into blocks; VDQ expands a block; VTAG and VTAGQ set and read tags. Sources outside the lists trap
TAG. -/
def TagsAndBlocksAreSet : Prop :=
  ∀ (s : State) (vd va vb : VReg) (f blk : BitVec 2) (h f16 : Bool) (mg : Reg) (tt : BitVec 4),
    let wide := fun r => s.me.vtag r = 5 ∨ s.me.vtag r = 6
    (h = true → f.toNat % 2 = 1) → tagIn tt 0 14 = true →
    (wide va → wide vb →
      let keep := s.me.vtag vd = 11 + f.toNat
      let q := putBlocks f.toNat (if h then 2 else 0) (if keep then (s.me.vreg vd).toNat else 0) (if keep then (s.me.vside vd).toNat else 0)
        [quantBlk (s.me.values32 va) f.toNat, quantBlk (s.me.values32 vb) f.toNat]
      ∃ t, exec (.vqnt vd va vb f h) s = .next t ∧
        WroteVec s t vd (BitVec.ofNat 512 q.1) (11 + f.toNat) (BitVec.ofNat 64 q.2) 0) ∧
    (∀ r ∈ [va, vb], ¬ wide r → (∀ q ∈ [va, vb], ¬ wide q → r.toNat ≤ q.toNat) → s.Handled → TagTraps (.vqnt vd va vb f h) s r) ∧
    (tagIsBlock (s.me.vtag va) = true → blk.toNat < tagBlocks (s.me.vtag va) →
      let rt := if f16 then 5 else 6; let b := tagBlk (s.me.vtag va)
      let sc := laneOf (s.me.vside va).toNat (blkScaleBits b) blk.toNat
      LanesGive (.vdq vd va blk f16 mg) s vd rt mg
        (fun i => { bits := blkTo (tagFmt rt) (blkValue b sc (s.me.lane va (32 * blk.toNat + i))) })) ∧
    (tagIsBlock (s.me.vtag va) = false ∨ tagBlocks (s.me.vtag va) ≤ blk.toNat → s.Handled → TagTraps (.vdq vd va blk f16 mg) s va) ∧
    (s.me.vtag va ≠ 0 → ∃ t, exec (.vtag vd va tt) s = .next t ∧
      WroteVec s t vd (if tt = 0 then 0 else s.me.vreg va) tt.toNat (if 11 ≤ tt.toNat then s.me.vside va else 0) 0) ∧
    (s.me.vtag va = 0 → s.Handled → TagTraps (.vtag vd va tt) s va) ∧
    (∃ t v, exec (.vtagq vd va) s = .next t ∧ WroteVec s t vd v 4 0 0 ∧
      (∀ r : VReg, laneOf v.toNat 4 r.toNat = s.me.vtag r) ∧ laneOf v.toNat 64 1 = (s.me.vside va).toNat ∧
      laneOf v.toNat 32 1 = 0 ∧ ∀ i, 2 ≤ i → i < 8 → laneOf v.toNat 64 i = 0)

end Sys2Proof.Claims

/-- VQNT, VDQ, VTAG and VTAGQ. -/
def Obligations.VectorTagAndBlockForms : Prop :=
  TagsAndBlocksAreSet ∧ TxbBlocksAreQuantised

/-- R251, R254: VPERM picks lanes by index; VMSK, VINS, VEXT and VSPL move lanes to and from general registers; a tag or a lane number outside the
register traps TAG (R220, R235), VPERM naming the lower-numbered of the sources whose tags breach its row; that a lane width other than VA's is held
against VB, and only where VA's tag is in its set, is the model's reading (log 95). -/
def Obligations.LanesMoveByIndex : Prop :=
  ∀ (s : State) (vd va vb : VReg) (g mg : Reg) (k : BitVec 6) (sx : Bool) (tt : BitVec 4), tagIn tt 1 10 = true →
    let t := s.me.vtag va; let w := tagWidth t; let n := tagLanes t
    (tagIsScal t = true → tagIsInt (s.me.vtag vb) = true → tagWidth (s.me.vtag vb) = w →
      LanesGive (.vperm vd va vb mg) s vd t mg (fun i => { bits := s.me.lane va (s.me.lane vb i % n) })) ∧
    (let offA := tagIsScal t = false; let offB := tagIsInt (s.me.vtag vb) = false ∨ (tagIsScal t = true ∧ tagWidth (s.me.vtag vb) ≠ w)
      s.Handled → (offA → (offB → va.toNat ≤ vb.toNat) → TagTraps (.vperm vd va vb mg) s va) ∧
        (offB → (offA → vb.toNat ≤ va.toNat) → TagTraps (.vperm vd va vb mg) s vb)) ∧
    (tagIsScal t = true → ∃ v, Gives (.vmsk g va) s g v ∧ ∀ b, b < 64 →
      (v.getLsbD b = true ↔ ∃ i, i < n ∧ i / (if n = 64 then 2 else 1) = b ∧ s.me.lane va i ≠ 0)) ∧
    (tagIsScal t = true → k.toNat < n → Gives (.vext g va k sx) s g
      (if sx then (BitVec.ofNat w (s.me.lane va k.toNat)).signExtend 64 else BitVec.ofNat 64 (s.me.lane va k.toNat))) ∧
    (tagIsScal t = true → k.toNat < n → ∃ t', exec (.vins va g k) s = .next t' ∧ WroteVec s t' va (t'.me.vreg va) t (s.me.vside va) 0 ∧
      ∀ i, i < n → t'.me.lane va i = if i = k.toNat then (s.me.reg g).toNat % 2 ^ w else s.me.lane va i) ∧
    (∃ t', exec (.vspl vd g tt) s = .next t' ∧ WroteLanes s t' vd tt.toNat (fun _ => (s.me.reg g).toNat) (fun _ => False)) ∧
    (s.Handled → tagIsScal t = false →
      TagTraps (.vmsk g va) s va ∧ TagTraps (.vext g va k sx) s va ∧ TagTraps (.vins va g k) s va) ∧
    (s.Handled → tagIsScal t = true → n ≤ k.toNat → TagTraps (.vext g va k sx) s va ∧ TagTraps (.vins va g k) s va)

namespace Sys2Proof.Claims

/-- A reduction gave `v` in lane 0 of v(d), every other lane being 0, under VA's tag. -/
def ReducesTo (i : Instr) (s : State) (d va : VReg) (v : Nat) (fl : Nat → Prop) : Prop :=
  ∃ t, exec i s = .next t ∧ WroteLanes s t d (s.me.vtag va) (fun j => if j = 0 then v else 0) fl

/-- The two-operand arithmetic forms of R78. -/
def fpArithTwo (op : FpOp) (f : Fmt) (cp : Nat) (rm : Rnd) (a b : Nat) : FpRes := fpArith op f cp rm a b a

/-- R252's n(k, j) over integers: a node of two present children joins them, a node of one passes it on. -/
def treeNode (op : Int → Int → Int) (leaf : Nat → Option Int) : Nat → Nat → Option Int
  | 0, j => leaf j
  | k + 1, j => match treeNode op leaf k (2 * j), treeNode op leaf k (2 * j + 1) with
    | some x, some y => some (op x y)
    | some x, none => some x
    | none, y => y

/-- R253's running result over lanes, lowest first. -/
def running (op : Int → Int → Int) (val : Nat → Int) : List Nat → Option Int
  | [] => none
  | j :: l => some (l.foldl (fun a i => op a (val i)) (val j))

/-- The active lanes of a register below `k`, lowest first. -/
def activeBelow (s : State) (va : VReg) (mg : Reg) (k : Nat) : List Nat :=
  (List.range k).filter fun i => laneActive (s.me.maskOf mg) (tagLanes (s.me.vtag va)) i

/-- R252, R253 on integers: VREDA gives the sum of the active lanes, wrapped; VREDX and VREDN the greatest and least by U; of no lane, 0 or the
extreme value; VSCAN the running sums, wrapped, in every lane. Under SAT each node of the tree and each step of the scan is clamped into the range of
U, and the flag SAT tells that an exact sum lay outside it. -/
def IntegerReductions : Prop :=
  ∀ (s : State) (vd va : VReg) (u : Bool) (mg : Reg), let t := s.me.vtag va; let w := tagWidth t; let n := tagLanes t
    1 ≤ t → t ≤ 4 → let act := activeBelow s va mg; let im : BitVec 2 := if u then 1 else 0
    let val := fun i => laneInt u w (s.me.lane va i)
    ReducesTo (.vreda vd va im mg 0) s vd va (((act n).map (s.me.lane va)).sum % 2 ^ w) (fun _ => False) ∧
    (∃ j, (∀ i ∈ act n, val i ≤ val j) ∧ (act n ≠ [] → j ∈ act n) ∧
      ReducesTo (.vredx vd va u mg) s vd va (if act n = [] then (if u then 0 else 2 ^ (w - 1)) else s.me.lane va j) (fun _ => False)) ∧
    (∃ j, (∀ i ∈ act n, val j ≤ val i) ∧ (act n ≠ [] → j ∈ act n) ∧
      ReducesTo (.vredn vd va u mg) s vd va (if act n = [] then (if u then 2 ^ w - 1 else 2 ^ (w - 1) - 1) else s.me.lane va j) (fun _ => False)) ∧
    (∃ t', exec (.vscan vd va im mg 0) s = .next t' ∧
      WroteLanes s t' vd t (fun i => ((act (i + 1)).map (s.me.lane va)).sum % 2 ^ w) (fun _ => False)) ∧
    let lo : Int := if u then 0 else -2 ^ (w - 1); let hi : Int := if u then 2 ^ w - 1 else 2 ^ (w - 1) - 1
    let add := fun x y => max lo (min (x + y) hi); let beyond := fun x => x < lo ∨ hi < x; let ims : BitVec 2 := if u then 3 else 2
    let node := treeNode add fun i => if i ∈ act n then some (val i) else none
    let pat := fun (r : Option Int) => (r.getD 0 % 2 ^ w).toNat
    ReducesTo (.vreda vd va ims mg 0) s vd va (pat (node (Nat.log2 n) 0))
      (fun b => flSAT.testBit b = true ∧ ∃ k j x y, node k (2 * j) = some x ∧ node k (2 * j + 1) = some y ∧ beyond (x + y)) ∧
    ∃ t', exec (.vscan vd va ims mg 0) s = .next t' ∧
      WroteLanes s t' vd t (fun i => pat (running add val (act (i + 1))))
        (fun b => flSAT.testBit b = true ∧ ∃ i ∈ act n, ∃ r, running add val (act i) = some r ∧ beyond (r + val i))

end Sys2Proof.Claims

/-- Integer vector lanes: arithmetic, comparison, reduction and scan. -/
def Obligations.VectorIntegerLanes : Prop :=
  IntegerLanesCompute ∧ IntegerReductions

namespace Sys2Proof.Claims

/-- R252, R253 on floats, no event being enabled: the fixed tree over the active lanes with the flags of its nodes; of no lane +0 or a canonical NaN;
VSCAN rounds each step. Tags outside the lists trap TAG. -/
def FloatReductions : Prop :=
  ∀ (s : State) (vd va : VReg) (mg : Reg) (rm : BitVec 2) (u : Bool), rm ≠ 3 → let t := s.me.vtag va; let cp := s.me.cprof.toNat
    let tree := fun i op empty => ∃ t', exec i s = .next t' ∧ match redTree op 6 (s.me.redLanes va (s.me.maskOf mg)) with
      | none => WroteVec s t' vd (BitVec.ofNat 512 empty) t 0 0
      | some r => WroteVec s t' vd (BitVec.ofNat 512 r.bits) t 0 r.flags
    (5 ≤ t → t ≤ 8 → cpMask cp = 0 →
      tree (.vreda vd va 0 mg rm) (fpArithTwo .add (tagFmt t) cp (effRM cp rm.toNat)) 0 ∧
      tree (.vredx vd va false mg) (fpMinMax (tagFmt t) cp true false) (tagFmt t).nan ∧
      tree (.vredn vd va false mg) (fpMinMax (tagFmt t) cp false false) (tagFmt t).nan ∧
      ∃ t' fl, exec (.vscan vd va 0 mg rm) s = .next t' ∧ WroteLanes s t' vd t (fun i =>
        match activeBelow s va mg (i + 1) with
        | [] => 0
        | j :: l => (l.map (s.me.lane va)).foldl (fun a b => (fpArithTwo .add (tagFmt t) cp (effRM cp rm.toNat) a b).bits) (s.me.lane va j)) fl) ∧
    (s.Handled → tagIntOrFlt t = false → TagTraps (.vreda vd va 0 mg rm) s va ∧ TagTraps (.vredx vd va u mg) s va ∧
      TagTraps (.vredn vd va u mg) s va ∧ TagTraps (.vscan vd va 0 mg rm) s va)

end Sys2Proof.Claims

/-- Float vector lanes: arithmetic, comparison, functions, reduction and scan. -/
def Obligations.VectorFloatLanes : Prop :=
  FloatLanesCompute ∧ FunctionsFollowTheirTable ∧ FlushingAndZeroProducts ∧ LegacyEstimatesFollowTheirSteps ∧ FloatReductions

namespace Sys2Proof.Claims

/-! ### Terms of the memory statements -/

/-- An aligned access of `n` bytes at `ea` finds its page in the TLB, of kind NORMAL and with the permissions it needs, at the fabric address `fa` of
the executing spindle; the context has no REL operation outstanding and its unit no REL prefix. -/
structure Own (s : State) (ea : Word) (need : Need) (n fa : Nat) : Prop where
  aligned : ea.toNat % n = 0
  page : ∃ p, s.xlate ea need = .ok (fa, p) ∧ p.kind = 0 ∧ p.frame % 8 = 0
  home : faSp fa = s.here
  rels : s.me.rels = [] ∧ s.me.unit.rel = none

/-- The same at another spindle. -/
structure Away (s : State) (ea : Word) (need : Need) (n fa : Nat) : Prop where
  aligned : ea.toNat % n = 0
  page : ∃ p, s.xlate ea need = .ok (fa, p) ∧ p.kind = 0 ∧ p.frame % 8 = 0
  home : faSp fa ≠ s.here
  rels : s.me.rels = [] ∧ s.me.unit.rel = none

/-- `n` bytes as a register takes them: zero- or sign-extended (R124). -/
def widen (sx : Bool) (n v : Nat) : Word := if sx then (BitVec.ofNat (8 * n) v).signExtend 64 else (BitVec.ofNat (8 * n) v).setWidth 64

/-- The effective addresses of R59. -/
def eaShort (s : State) (a : Reg) (off : BitVec 12) : Word := s.me.reg a + off.signExtend 64
def eaLong (s : State) (a : Reg) (l : Word) : Word := s.me.reg a + l

/-- The low `n` bytes of a register. -/
def lowBytes (s : State) (r : Reg) (n : Nat) : Nat := (s.me.reg r).toNat % 256 ^ n

/-- No waiter waits at the word of `fa` (R127). -/
def NoWaiter (s : State) (fa : Nat) : Prop := ∀ x ∈ (s.spindle (faSp fa)).waiters, wordOf x.fa ≠ wordOf fa

/-- A store of `v` at `fa`: its bytes, no full/empty bit, and the poison of a word that it covers whole (R115, R124). -/
structure Stored (s t : State) (fa n v : Nat) : Prop where
  on : WentOn s t
  bytes : Bytes s t fa n v
  full : ∀ a, t.full a = s.full a
  poison : ∀ a, t.poison.contains a = (s.poison.contains a && !(n == 8 && a == fa))

/-- The context waits with a PARK reason, its registers as they were and its PC at its unit; no byte or full/empty bit differs. -/
structure Waits (s t : State) (why : Nat) : Prop where
  state : t.me.st = .parked
  reason : t.me.park = why
  regs : t.me.g = s.me.g ∧ t.me.v = s.me.v ∧ t.me.tag = s.me.tag ∧ t.me.side = s.me.side ∧ t.me.fstat = s.me.fstat
  pc : t.me.pc = s.me.pc
  contexts : ∀ k, k ≠ s.cur → t.ctx k = s.ctx k
  memory : SameMemory s t

/-- A request of the executing context: its class, its home, its context and a fresh token (R116, R118). -/
def Asks (s t : State) (cls : MeshClass) (dst : Nat) (b : Body) : Prop :=
  ∃ m, t.msgs = s.msgs ++ [m] ∧ m.cls = cls ∧ m.src = s.here ∧ m.dst = dst ∧ m.job = s.myJobNo ∧ m.ctx = keyCtx s.cur ∧
    m.tok = s.nextTok ∧ m.body = b

end Sys2Proof.Claims

/-! ### Translation, loads, stores and full/empty forms -/

/-- R7, R107, R108: a walk reads three entries, at the root and at each next table, indexed by VA 51:40, 39:28 and 27:16; it gives no page where an
address has a bit above 51 or an entry is not valid, and any page it gives lies at a mapped frame of a spindle of the part, on a page boundary, so
that every access to it lies in mapped memory. -/
def Obligations.WalksGiveMappedAlignedPages : Prop :=
  ∀ (r : WalkRules) (root : Nat) (va : Word) (p : PageEntry),
    let e1 := r.mem.readN (root + 8 * (va.toNat / 2 ^ 40 % 2 ^ 12)) 8
    (walkTables r root va = some p → va.toNat < 2 ^ 52 ∧ e1.testBit 63 = true ∧
      p.frame % (if p.big then 2 ^ 22 else 2 ^ 16) = 0 ∧ faMapped (p.fa va) = true ∧ p.kind < 3 ∧
      ∃ t2 t3, nextTable r e1 = some t2 ∧ nextTable r (r.mem.readN (t2 + 8 * (va.toNat / 2 ^ 28 % 2 ^ 12)) 8) = some t3 ∧
        leafPage r (r.mem.readN (t3 + 8 * (va.toNat / 2 ^ 16 % 2 ^ 12)) 8) = some p) ∧
    (2 ^ 52 ≤ va.toNat → walkTables r root va = none) ∧ (e1.testBit 63 = false → walkTables r root va = none)

namespace Sys2Proof.Claims

/-- R8, R11: a read of `n` bytes is their little-endian number. -/
def MemoryReadsLittleEndian : Prop :=
  ∀ (s : State) (fa n : Nat), s.read fa n = ∑ i ∈ Finset.range n, (s.byte (fa + i)).toNat * 256 ^ i

/-- R124: LD at the own spindle writes the bytes, zero- or sign-extended, and changes nothing else but the TLB's order. -/
def PlainLoadsReadTheirBytes : Prop :=
  ∀ (s : State) (d a : Reg) (sz : BitVec 2) (off : BitVec 12) (l : Word) (fa : Nat), let n := 2 ^ sz.toNat
    let go := fun i ea sx => Own s ea needR n fa → s.poisoned fa n = false → ∃ t, exec i s = .next t ∧ Loaded s t d (widen sx n (s.read fa n))
    go (.ld d a sz off) (eaShort s a off) false ∧ go (.ldLiteral d a sz l) (eaLong s a l) false ∧
    (sz ≠ 3 → go (.ldSigned d a sz off) (eaShort s a off) true ∧ go (.ldSignedLiteral d a sz l) (eaLong s a l) true)

end Sys2Proof.Claims

/-- A load at the own spindle gives its bytes, little-endian and extended. -/
def Obligations.LoadsReadOwnMemory : Prop :=
  MemoryReadsLittleEndian ∧ PlainLoadsReadTheirBytes

namespace Sys2Proof.Claims

/-- R124, R115: ST at the own spindle stores the low bytes of g(D) at its effective address, outside a copy region, and nothing else. -/
def PlainStoresWriteTheirBytes : Prop :=
  ∀ (s : State) (d a : Reg) (sz : BitVec 2) (off : BitVec 12) (l : Word) (fa : Nat), let n := 2 ^ sz.toNat
    s.mem.wf = true → s.inCopyRegion fa n = false → (n = 8 ∨ s.poisoned fa n = false) →
    let go := fun i ea => Own s ea needW n fa → ∃ t, exec i s = .next t ∧ Stored s t fa n (lowBytes s d n)
    go (.st d a sz off) (eaShort s a off) ∧ go (.stLiteral d a sz l) (eaLong s a l)

/-- The bytes of a page. -/
def pageSize (p : PageEntry) : Nat := if p.big then 2 ^ 22 else 2 ^ 16

/-- An aligned access of `n` bytes at `ea` finds an alias page of the executing spindle, of kind MXA8 or MXA4, with the permissions it needs, at a
frame aligned to its size; the context has no REL operation outstanding and its unit no REL prefix. -/
structure OwnAlias (s : State) (ea : Word) (need : Need) (n : Nat) (p : PageEntry) : Prop where
  aligned : ea.toNat % n = 0
  page : s.xlate ea { need with alias_ := true } = .ok (p.frame + ea.toNat % pageSize p, p)
  kind : p.kind = 1 ∨ p.kind = 2
  frame : p.frame % pageSize p = 0
  home : faSp p.frame = s.here
  rels : s.me.rels = [] ∧ s.me.unit.rel = none

/-- R216: of the block at a virtual address of an alias page, its element bits, its element bytes and its scale byte. -/
def elemBits (p : PageEntry) : Nat := if p.kind = 1 then 8 else 4
def elemsAt (p : PageEntry) (ea : Word) : Nat := p.frame + 4 * elemBits p * (ea.toNat % pageSize p / 64)
def scaleAt (p : PageEntry) (ea : Word) : Nat := p.frame + pageSize p / (if p.kind = 1 then 2 else 4) + ea.toNat % pageSize p / 64

/-- Element code `i` of the block, and its value under the block's scale (R212). -/
def elemCode (s : State) (p : PageEntry) (ea : Word) (i : Nat) : Nat :=
  s.read (elemsAt p ea) (4 * elemBits p) / 2 ^ (elemBits p * i) % 2 ^ elemBits p
def elemValue (s : State) (p : PageEntry) (ea : Word) (i : Nat) : Fl := blkValue (1 + p.kind) (s.read (scaleAt p ea) 1) (elemCode s p ea i)

/-- No byte that the block holds is poisoned or in a copy region. -/
def CleanBlock (s : State) (p : PageEntry) (ea : Word) : Prop :=
  s.poisoned (elemsAt p ea) (4 * elemBits p) = false ∧ s.poisoned (scaleAt p ea) 1 = false ∧
  s.inCopyRegion (elemsAt p ea) (4 * elemBits p) = false ∧ s.inCopyRegion (scaleAt p ea) 1 = false

/-- R109, R125, R216, R217: on pages of kind MXA8 and MXA4, LD of 2, 4 or 8 bytes gives the elements at its address as RoundSat(value, BF16); ST of
2, 4 or 8 bytes quantises the whole block again, the elements it covers taken as BF16 and the others at their values, and changes no other byte and
no full/empty bit; a byte access, a full/empty form, an atomic and a deferred update trap XLATE. -/
def AliasPagesHoldBlocks : Prop :=
  ∀ (s : State) (d a b : Reg) (sz : BitVec 2) (off : BitVec 12) (p : PageEntry), let n := 2 ^ sz.toNat; let ea := eaShort s a off
    let i0 := ea.toNat % 64 / 2
    (sz ≠ 0 → OwnAlias s ea needR n p → CleanBlock s p ea → ∃ v, v < 256 ^ n ∧
      (∀ i, 2 * i < n → v / 2 ^ (16 * i) % 2 ^ 16 = bf16.roundSat (elemValue s p ea (i0 + i))) ∧
      (∃ t, exec (.ld d a sz off) s = .next t ∧ Loaded s t d (widen false n v)) ∧
      (sz ≠ 3 → ∃ t, exec (.ldSigned d a sz off) s = .next t ∧ Loaded s t d (widen true n v))) ∧
    (sz ≠ 0 → OwnAlias s ea needW n p → CleanBlock s p ea → s.mem.wf = true → ∃ t, exec (.st d a sz off) s = .next t ∧ WentOn s t ∧
      (∀ x, t.full x = s.full x) ∧
      (∀ x, (x < elemsAt p ea ∨ elemsAt p ea + 4 * elemBits p ≤ x) → x ≠ scaleAt p ea → t.byte x = s.byte x) ∧
      let q := quantMx ((List.range 32).map fun i => if i0 ≤ i ∧ i < i0 + n / 2 then
        bf16.decode ((s.me.reg d).toNat / 2 ^ (16 * (i - i0)) % 2 ^ 16) else elemValue s p ea i) (1 + p.kind)
      t.read (scaleAt p ea) 1 = q.1 ∧ ∀ i, i < 32 → elemCode t p ea i = q.2.getD i 0) ∧
    (s.Handled → (OwnAlias s ea needR n p → Traps (.ldf d a sz off) s cXLATE ea ∧ (sz = 0 → Traps (.ld d a sz off) s cXLATE ea) ∧
        (sz = 3 → Traps (.feq d a off) s cXLATE ea)) ∧
      (OwnAlias s ea needW n p → Traps (.stf d a sz off) s cXLATE ea ∧ Traps (.stw d a sz off) s cXLATE ea ∧
        (sz = 0 → Traps (.st d a sz off) s cXLATE ea) ∧ (sz = 3 → Traps (.fec a off) s cXLATE ea) ∧
        (off = 0 → Traps (.dstore a b 0 sz) s cXLATE ea)) ∧
      (OwnAlias s ea needRW n p → Traps (.lde d a sz off) s cXLATE ea ∧ (off = 0 → sz = 3 → Traps (.aadd d a b false) s cXLATE ea)))

/-- R215: the MX block of values: with a NaN or an infinity the scale is 0xFF and every code 0; else the scale follows from the power of two of the
largest magnitude and each code is the sign and the nearest magnitude of the element format, ties to the even code. -/
def BlocksAreQuantised : Prop :=
  ∀ (x : List Fl) (mx8 : Bool), let f := if mx8 then 2 else 3; let r := quantMx x f; let em : Int := if mx8 then 8 else 2
    let size := if mx8 then 0x7F else 8; let sign := if mx8 then 128 else 8
    let grid : Nat → ℚ := fun g => if mx8 then valueOf (e4m3.decode g) else ([0, 1 / 2, 1, 3 / 2, 2, 3, 4, 6] : List ℚ).getD g 0
    ((∃ v ∈ x, v.isFin = false) → r = (0xFF, x.map fun _ => 0)) ∧
    ((∀ v ∈ x, v.isFin = true) → r.2.length = x.length ∧ ((∀ v ∈ x, valueOf v = 0) → r.1 = 0) ∧
      (∀ am k, (∃ v ∈ x, |valueOf v| = am) → (∀ v ∈ x, |valueOf v| ≤ am) → (2 : ℚ) ^ k ≤ am → am < (2 : ℚ) ^ (k + 1) →
        (r.1 : Int) = max 0 (min 254 (k - em + 127))) ∧
      ∀ (i : Nat) (v : Fl), x[i]? = some v → ∃ g, g < size ∧ r.2[i]? = some (g + if v.neg then sign else 0) ∧
        let q := |valueOf v| / (2 : ℚ) ^ ((r.1 : Int) - 127)
        ∀ y, y < size → |q - grid g| ≤ |q - grid y| ∧ (|q - grid g| = |q - grid y| → y ≠ g → g % 2 = 0))

end Sys2Proof.Claims

/-- A store at the own spindle writes its bytes and nothing else; alias pages hold quantised blocks. -/
def Obligations.StoresWriteOwnMemory : Prop :=
  PlainStoresWriteTheirBytes ∧ AliasPagesHoldBlocks ∧ BlocksAreQuantised

namespace Sys2Proof.Claims

/-- R123, R124, R151: an access off its alignment traps ALIGN, one without a mapping or a permission traps XLATE, one that the TLB does not hold
waits for a walk with PARK 1, a store into a copy region traps SUBWR; each before any effect, the address reported. -/
def ScalarAccessChecksComeFirst : Prop :=
  ∀ (s : State) (d a b c : Reg) (sz : BitVec 2) (off : BitVec 12) (l : Word) (w : Bool) (addr : Word) (fa : Nat),
    let n := 2 ^ sz.toNat; let m := if w then 4 else 8; let e := eaShort s a off; let el := eaLong s a l
    let bad := fun i (ea : Word) n => ea.toNat % n ≠ 0 → s.Handled → Traps i s cALIGN ea
    (bad (.ld d a sz off) e n ∧ bad (.ldLiteral d a sz l) el n ∧ bad (.ldSigned d a sz off) e n ∧ bad (.st d a sz off) e n ∧
      bad (.stLiteral d a sz l) el n ∧ bad (.ldf d a sz off) e n ∧ bad (.lde d a sz off) e n ∧ bad (.stf d a sz off) e n ∧
      bad (.stw d a sz off) e n ∧ bad (.feq d a off) e 8 ∧ bad (.fec a off) e 8 ∧ bad (.aadd d a b w) (s.me.reg a) m ∧
      bad (.acas d a b c w) (s.me.reg a) m ∧ bad (.dstore a b 0 sz) (s.me.reg a) n) ∧
    (e.toNat % n = 0 → s.me.inWindow e = false → s.Handled →
      (s.xlate e (plainNeed needR n) = .trap cXLATE addr → addr = e ∧ Traps (.ld d a sz off) s cXLATE e) ∧
      (s.xlate e (plainNeed needW n) = .trap cXLATE addr → addr = e ∧ Traps (.st d a sz off) s cXLATE e) ∧
      (s.xlate e needR = .trap cXLATE addr → addr = e ∧ Traps (.ldf d a sz off) s cXLATE e) ∧
      (s.xlate e needRW = .trap cXLATE addr → addr = e ∧ Traps (.lde d a sz off) s cXLATE e)) ∧
    (e.toNat % n = 0 → s.me.inWindow e = false → s.xlate e needR = .walk addr →
      ∃ t, exec (.ld d a sz off) s = .next t ∧ Waits s t 1 ∧ addr = e ∧
        ({ key := s.cur, va := e, fetch := false } : WalkReq) ∈ (t.cluster (clusterOf s.here)).walks) ∧
    (Own s e needW n fa → s.inCopyRegion fa n = true → (s.touch e).Handled →
      ∃ t, exec (.st d a sz off) s = .next t ∧ Trapped (s.touch e) t cSUBWR e)

/-- R126, R127: the full/empty forms at the own spindle where they need not wait and nobody waits: LDF and LDE read a FULL word, LDE leaves it EMPTY;
FEQ reads the bit; STF fills an EMPTY word, STW any; FEC empties it. -/
def FullEmptyFormsAreServed : Prop :=
  ∀ (s : State) (d a : Reg) (sz : BitVec 2) (off : BitVec 12) (l : Word) (fa : Nat), let n := 2 ^ sz.toNat
    s.mem.wf = true → s.inCopyRegion fa 8 = false → s.poisoned fa 8 = false → NoWaiter s fa →
    let e := eaShort s a off; let el := eaLong s a l
    let readF := fun i ea => Own s ea needR n fa → s.full fa = true →
      ∃ t, exec i s = .next t ∧ GotReg s t d (widen false n (s.read fa n)) ∧ SameMemory s t
    let readE := fun i ea => Own s ea needRW n fa → s.full fa = true →
      ∃ t, exec i s = .next t ∧ GotReg s t d (widen false n (s.read fa n)) ∧ (∀ x, t.byte x = s.byte x) ∧ FeAt s t fa false
    let query := fun i ea => Own s ea needR 8 fa →
      ∃ t, exec i s = .next t ∧ GotReg s t d (if s.full fa then 1 else 0) ∧ SameMemory s t
    let write := fun i ea (p : Prop) => Own s ea needW n fa → p →
      ∃ t, exec i s = .next t ∧ WentOn s t ∧ Bytes s t fa n (lowBytes s d n) ∧ FeAt s t fa true
    let clear := fun i ea => Own s ea needW 8 fa →
      ∃ t, exec i s = .next t ∧ WentOn s t ∧ (∀ x, t.byte x = s.byte x) ∧ FeAt s t fa false
    readF (.ldf d a sz off) e ∧ readF (.ldfLiteral d a sz l) el ∧ readE (.lde d a sz off) e ∧ readE (.ldeLiteral d a sz l) el ∧
    query (.feq d a off) e ∧ query (.feqLiteral d a l) el ∧
    write (.stf d a sz off) e (s.full fa = false) ∧ write (.stfLiteral d a sz l) el (s.full fa = false) ∧
    write (.stw d a sz off) e True ∧ write (.stwLiteral d a sz l) el True ∧ clear (.fec a off) e ∧ clear (.fecLiteral a l) el

/-- R127, R129: LDF and LDE of an EMPTY word and STF of a FULL one wait with PARK 5, one more waiter at the bank, where its table has room; no memory
changes. -/
def FullEmptyFormsWaitAtTheBank : Prop :=
  ∀ (s : State) (d a : Reg) (sz : BitVec 2) (off : BitVec 12) (fa : Nat), let n := 2 ^ sz.toNat; let e := eaShort s a off
    s.inCopyRegion fa n = false → s.poisoned fa n = false → s.waitersIn fa < waiterSlots →
    let waits := fun i need op data => Own s e need n fa → ∃ t, exec i s = .next t ∧ Waits s t 5 ∧
      (t.spindle s.here).waiters = (s.spindle s.here).waiters ++
        [{ sp := s.here, ctx := keyCtx s.cur, tok := s.nextTok, op := op, fa := fa, n := n, data := data, local_ := true, who := s.myWho }]
    (s.full fa = false → waits (.ldf d a sz off) needR opLDF 0 ∧ waits (.lde d a sz off) needRW opLDE 0) ∧
    (s.full fa = true → waits (.stf d a sz off) needW opSTF (lowBytes s d n))

/-- R127, R128: what the waiter of a word learns when an instruction of the own spindle changes the word. STW or STF at an EMPTY word: an LDF or LDE
that waits there is answered with the bytes as the store left them, a context of the spindle going on with them in its register, a remote one by a
reply message; LDE leaves the word EMPTY again. LDE or FEC at a FULL word: an STF that waits is let in, its data stored, the word FULL again. Told
for one waiter at the spindle. -/
def ChangedWordsAnswerTheirWaiter : Prop :=
  ∀ (s : State) (d a r : Reg) (sz : BitVec 2) (off : BitVec 12) (l : Word) (fa : Nat) (x : Waiter), let n := 2 ^ sz.toNat
    let e := eaShort s a off; let el := eaLong s a l; let k := keyOf x.sp x.ctx
    s.mem.wf = true → s.inCopyRegion (wordOf fa) 8 = false → s.poisoned (wordOf fa) 8 = false → (s.spindle s.here).waiters = [x] → wordOf x.fa = wordOf fa →
    x.fa % 8 + x.n ≤ 8 → k ≠ s.cur →
    let parked := (s.ctx k).st = .parked ∧ (s.ctx k).tok = x.tok
    let mine := fun (t : State) => t.me.pc = s.me.unit.next ∧ t.me.g = s.me.g ∧ (t.spindle s.here).waiters = [] ∧
      ∀ q, q ≠ s.cur → q ≠ k → t.ctx q = s.ctx q
    let answered := fun (t : State) =>
      (x.local_ = true → parked → (s.ctx k).kont = .load r x.n false → (t.ctx k).st = .ready ∧ (t.ctx k).pc = (s.ctx k).unit.next ∧
        (t.ctx k).g = ((s.ctx k).setReg r (widen false x.n (t.read x.fa x.n))).g) ∧
      (x.local_ = false → t.ctx k = s.ctx k ∧ ∃ m ∈ t.msgs, m.body = .reply (t.read x.fa x.n) ∧ m.cls = .reply ∧ m.src = s.here ∧ m.dst = x.sp ∧
        m.ctx = x.ctx ∧ m.tok = x.tok)
    let fills := fun i ea => Own s ea needW n fa → s.full fa = false → x.op = opLDF ∨ x.op = opLDE → x.n ∈ [1, 2, 4, 8] →
      ∃ t, exec i s = .next t ∧ mine t ∧ Bytes s t fa n (lowBytes s d n) ∧ FeAt s t fa (x.op == opLDF) ∧ answered t
    let letIn := fun (t : State) => Bytes s t x.fa x.n x.data ∧ FeAt s t fa true ∧
      (x.local_ = true → parked → (s.ctx k).kont = .advance → (t.ctx k).st = .ready ∧ (t.ctx k).pc = (s.ctx k).unit.next ∧ (t.ctx k).g = (s.ctx k).g) ∧
      (x.local_ = false → ∃ m ∈ t.msgs, m.body = .ack ∧ m.dst = x.sp ∧ m.ctx = x.ctx ∧ m.tok = x.tok)
    fills (.stw d a sz off) e ∧ fills (.stwLiteral d a sz l) el ∧ fills (.stf d a sz off) e ∧ fills (.stfLiteral d a sz l) el ∧
    (s.full fa = true → x.op = opSTF →
      (Own s e needW 8 fa → ∃ t, exec (.fec a off) s = .next t ∧ mine t ∧ letIn t) ∧
      (Own s e needRW n fa → ∃ t, exec (.lde d a sz off) s = .next t ∧ t.me.reg d = widen false n (s.read fa n) ∧ t.me.pc = s.me.unit.next ∧ letIn t))

end Sys2Proof.Claims

/-- The full/empty forms at the own bank: served, waiting, woken. -/
def Obligations.FullEmptyFormsAtTheOwnBank : Prop :=
  FullEmptyFormsAreServed ∧ FullEmptyFormsWaitAtTheBank ∧ ChangedWordsAnswerTheirWaiter

namespace Sys2Proof.Claims

/-- R131, R132: the bank atomics at the own spindle, indivisibly: g(D) takes the old value, sign-extended for integer forms and zero-extended for
float ones; the operand's width in bytes takes the new one; ACAS stores only where its comparand matches. -/
def AtomicsGiveTheOldValue : Prop :=
  ∀ (s : State) (d a b c : Reg) (w : Bool) (fa : Nat), let n := if w then 4 else 8; let old := s.read fa n; let v := lowBytes s b n
    s.mem.wf = true → s.inCopyRegion fa n = false → s.poisoned fa n = false → Own s (s.me.reg a) needRW n fa →
    let f := if w then fp32 else fp64
    let x := BitVec.ofNat (8 * n) old; let y := BitVec.ofNat (8 * n) v
    let go := fun i sx (new : Nat) => ∃ t, exec i s = .next t ∧ GotReg s t d (widen sx n old) ∧ Bytes s t fa n new ∧ ∀ a, t.full a = s.full a
    go (.aadd d a b w) true (x + y).toNat ∧ go (.aand d a b w) true (x &&& y).toNat ∧ go (.aor d a b w) true (x ||| y).toNat ∧
    go (.axor d a b w) true (x ^^^ y).toNat ∧ go (.amins d a b w) true (if y.slt x then v else old) ∧
    go (.amaxs d a b w) true (if x.slt y then v else old) ∧ go (.aminn d a b w) true (min old v) ∧ go (.amaxn d a b w) true (max old v) ∧
    go (.aswap d a b w) true v ∧ go (.acas d a b c w) true (if old = lowBytes s c n then v else old) ∧
    go (.afadd d a b w) false (addRne f old v) ∧ go (.afmin d a b w) false (minMaxIeee f false old v) ∧
    go (.afmax d a b w) false (minMaxIeee f true old v)

/-- R132, R195: the float atomics: AFADD rounds the exact sum once to nearest, with the canonical NaN for a NaN operand and for the sum of unlike
infinities; AFMIN and AFMAX take the smaller and the larger by value, −0 below +0, and the canonical NaN for a NaN. -/
def FloatAtomicsFollowIeee : Prop :=
  ∀ (f : Fmt) (x y : Nat), f = fp32 ∨ f = fp64 → x < 2 ^ f.bits → y < 2 ^ f.bits → let a := f.decode x; let b := f.decode y; let s := addRne f x y
    let lo := minMaxIeee f false x y; let hi := minMaxIeee f true x y; let minus := f.withSign true 0
    (a.isNaN ∨ b.isNaN → s = f.nan ∧ lo = f.nan ∧ hi = f.nan) ∧ (a.isInf → b.isInf → a ≠ b → s = f.nan) ∧
    (a.isInf → b.isFin ∨ b = a → s = x) ∧ (b.isInf → a.isFin → s = y) ∧
    (a.isFin → b.isFin → (∃ v : Fl, v.isFin = true ∧ valueOf v = valueOf a + valueOf b ∧ s = (f.round 0 v).1) ∧
      (valueOf a + valueOf b = 0 → s = f.withSign (a.neg && b.neg) 0)) ∧
    (Below a b → lo = x ∧ hi = y) ∧ (Below b a → lo = y ∧ hi = x) ∧ (x = y → a.isNaN = false → lo = x ∧ hi = x) ∧
    (x = minus → y = 0 → lo = x ∧ hi = y) ∧ (x = 0 → y = minus → lo = y ∧ hi = x)

end Sys2Proof.Claims

/-- The bank atomics at the own spindle. -/
def Obligations.AtomicsAtTheOwnBank : Prop :=
  AtomicsGiveTheOldValue ∧ FloatAtomicsFollowIeee

namespace Sys2Proof.Claims

/-- R116, R118, R120: an access at another spindle asks its home, one message with a fresh token, and waits with PARK 1 for a value and 2 for an
acknowledgement; under REL the context goes on with one operation more outstanding. -/
def RequestsLeaveForTheirHome : Prop :=
  ∀ (s : State) (d a b c : Reg) (sz : BitVec 2) (off : BitVec 12) (w : Bool) (fa : Nat), let n := 2 ^ sz.toNat; let m := if w then 4 else 8
    let e := eaShort s a off
    let asks := fun i cls why b => ∃ t, exec i s = .next t ∧ Waits s t why ∧ Asks s t cls (faSp fa) b ∧ t.me.tok = s.nextTok
    (Away s e needR n fa → s.me.unit.far = true ∨ s.pinned s.cur = true → asks (.ld d a sz off) .request 1 (.read fa n 0)) ∧
    (Away s e needW n fa → asks (.st d a sz off) .request 2 (.write fa n (lowBytes s d n) 0) ∧
      asks (.stf d a sz off) .request 2 (.sync fa n opSTF (lowBytes s d n))) ∧
    (Away s e needR n fa → asks (.ldf d a sz off) .request 1 (.sync fa n opLDF 0)) ∧
    (Away s (s.me.reg a) needRW m fa → asks (.acas d a b c w) .request 2 (.atomic fa m 9 (lowBytes s b m) (lowBytes s c m))) ∧
    (∀ o, e.toNat % n = 0 → (∃ p, s.xlate e needW = .ok (fa, p) ∧ p.kind = 0) → faSp fa ≠ s.here → s.me.rels = [] →
      s.me.unit.rel = some o → ∃ t, exec (.st d a sz off) s = .next t ∧ Asks s t .request (faSp fa) (.write fa n (lowBytes s d n) 0) ∧
        t.me.st = s.me.st ∧ t.me.pc = s.me.unit.next ∧ t.me.g = s.me.g ∧
        t.me.rels = [{ tok := s.nextTok, word := wordOf fa, pc := s.me.unit.pc, va := e, acq := o.getLsbD 0, sentAt := s.now }] ∧ SameMemory s t)

/-- R33, R34: a plain load at another spindle by a context that is not pinned and carries no FAR departs: one message of the migrate class with its
registers, its load and its tags; the context is DEPARTING, and nothing else changes. -/
def RemoteLoadsMigrate : Prop :=
  ∀ (s : State) (d a : Reg) (sz : BitVec 2) (off : BitVec 12) (fa : Nat), let n := 2 ^ sz.toNat; let e := eaShort s a off
    Away s e needR n fa → s.me.unit.far = false → s.pinned s.cur = false →
    ∃ t m, exec (.ld d a sz off) s = .next t ∧ t.me.st = .departing ∧ t.me.park = 13 ∧ t.me.g = s.me.g ∧ SameMemory s t ∧
      (∀ k, k ≠ s.cur → t.ctx k = s.ctx k) ∧ Asks s t .migrate (faSp fa) (.migrate m) ∧
      m.fa = fa ∧ m.n = n ∧ m.sx = false ∧ m.d = d ∧ m.carries = true ∧ m.job = s.myJobNo ∧
      m.image.pc = s.me.unit.next ∧ m.image.g = s.me.g ∧ m.image.thidx = s.me.thidx ∧ m.image.cprof = s.me.cprof ∧
      m.image.gset = s.me.gset ∧ m.image.actid = s.me.actid ∧ m.image.plyg = s.me.plyg ∧
      m.image.tag = Vector.replicate 8 0 ∧ ∀ r : VReg, laneOf m.image.pretag.toNat 4 r.toNat = s.me.vtag r

end Sys2Proof.Claims

/-! ### Deferred updates -/

namespace Sys2Proof.Claims

/-- R192, R193, R194: a deferred update homed at the own spindle appends one entry to its skein, with the address, the operation, the value, the key
and the ply phase; memory is as before. -/
def UpdatesAppendOneEntry : Prop :=
  ∀ (s : State) (a b c : Reg) (w : Bool) (sz : BitVec 2) (fa : Nat), s.me.pairtask = false → (s.spindle s.here).fenced = false →
    (s.spindle s.here).job = some s.myJobNo → s.myJob.rect.has s.here = true →
    (s.spindle s.here).skein.length < s.skeinSize s.here →
    let key := if c = 0 then s.me.thidx * 2 ^ 32 + s.me.lastIssue / 2 ^ 32 % 2 ^ 32 else (s.me.reg c).toNat
    let seqn := if c = 0 then s.me.lastIssue % 2 ^ 32 else 0
    let ph := s.appendPhase s.me s.myJobNo
    let go := fun i op k => Own s (s.me.reg a) needW (2 ^ k) fa → s.inCopyRegion fa (2 ^ k) = false →
      ∃ t, exec i s = .next t ∧ WentOn s t ∧ SameMemory s t ∧ (t.spindle s.here).skein = (s.spindle s.here).skein ++
        [{ fa := fa, op := op, sz := k, v := lowBytes s b (2 ^ k), key := key, seqn := seqn, plyg := s.me.plyg.toNat, phase := ph.1, anyph := ph.2 }]
    let k := if w then 2 else 3
    go (.dadd a b c w) 0 k ∧ go (.dfadd a b c) 1 2 ∧ go (.dmins a b c w) 2 k ∧ go (.dmaxs a b c w) 3 k ∧ go (.dfmin a b c) 4 2 ∧
    go (.dfmax a b c) 5 2 ∧ go (.dor a b c w) 6 k ∧ go (.dstore a b c sz) 7 sz.toNat

/-- R181, R192: in a context that holds a pair task a deferred update without a key joins the task's effects, at most 64, where one more traps
TASKBUF; with a key register it traps ILLEGAL. Nothing is appended. -/
def PairTasksBufferDeferredUpdates : Prop :=
  ∀ (s : State) (a b c : Reg) (sz : BitVec 2) (fa : Nat) (u : TaskBuf), s.me.pairtask = true → s.me.task = some u →
    let ea := s.me.reg a; let k := sz.toNat
    ((∃ p, s.xlate ea needW = .ok (fa, p)) → ea.toNat % 2 ^ k = 0 → u.dups.length + boolN u.fork.isSome < 64 →
      ∃ t, exec (.dstore a b 0 sz) s = .next t ∧ SameMemory s t ∧ (∀ n, (t.spindle n).skein = (s.spindle n).skein) ∧ t.msgs = s.msgs ∧
        t.me.task = some { u with dups := u.dups ++ [{ va := ea, fa := fa, op := 7, sz := k, v := lowBytes s b (2 ^ k) }] } ∧
        t.me.pc = s.me.unit.next ∧ t.me.g = s.me.g) ∧
    ((∃ p, s.xlate ea needW = .ok (fa, p)) → ea.toNat % 2 ^ k = 0 → 64 ≤ u.dups.length + boolN u.fork.isSome → (s.touch ea).Handled →
      ∃ t, exec (.dstore a b 0 sz) s = .next t ∧ Trapped (s.touch ea) t cTASKBUF 0) ∧
    (c ≠ 0 → s.Handled → Traps (.dstore a b c sz) s cILLEGAL 0)

/-- R195: a skein entry is applied: the bytes that it covers take the operation of their old value and its own, and nothing else of memory changes.
Sums and signed comparisons are of the covered width; a float sum is the exact one rounded to nearest; of two floats the smaller or larger by value
with −0 below +0; a NaN operand, or the sum of unlike infinities, gives the canonical NaN. -/
def Applied (s t : State) (e : SkeinEntry) : Prop :=
  let n := 2 ^ e.sz; let old := s.read e.fa n; let x := BitVec.ofNat (8 * n) old; let y := BitVec.ofNat (8 * n) e.v
  let a := fp32.decode old; let b := fp32.decode e.v; let gives := Bytes s t e.fa n; let minus := 0x80000000
  let least := fun lo hi => (a.isNaN ∨ b.isNaN → gives fp32.nan) ∧ (Below a b → gives lo) ∧ (Below b a → gives hi) ∧
    (old = minus → e.v = 0 → gives lo) ∧ (old = 0 → e.v = minus → gives hi)
  (e.op = 0 → gives (x + y).toNat) ∧
  (e.op = 1 → n = 4 → (a.isNaN ∨ b.isNaN ∨ (a.isInf ∧ b.isInf ∧ a.neg ≠ b.neg) → gives fp32.nan) ∧
    (a.isInf → b.isFin ∨ b = a → gives old) ∧ (b.isInf → a.isFin → gives e.v) ∧
    (a.isFin → b.isFin → ∃ v : Fl, v.isFin = true ∧ valueOf v = valueOf a + valueOf b ∧ gives (fp32.round 0 v).1)) ∧
  (e.op = 2 → gives (if y.slt x then e.v else old)) ∧ (e.op = 3 → gives (if x.slt y then e.v else old)) ∧
  (e.op = 4 → n = 4 → least old e.v) ∧ (e.op = 5 → n = 4 → least e.v old) ∧
  (e.op = 6 → gives (x ||| y).toNat) ∧ (e.op = 7 → gives e.v)

/-- R162, R195, R196, R201: the merge of a ply phase that has begun (its entries are marked due) goes on by events that apply a spindle's entries in
the order of word address, then key, then sequence, whatever the order of their acceptance: of two entries one event applies the first and leaves the
second, so that another thread may read memory in between; the last entry applied, the phase completes. In a job that is switched out nothing of it
happens. Told for one entry and for two. Which spindles apply their next entry at an event is a free value (log 13). -/
def MergeAppliesAnEntry : Prop :=
  ∀ (s : State) (e f : SkeinEntry) (j sp : Nat) (jb : Job), let g := e.plyg; let i := Instr.phaseComplete j g
    (Table.find s.jobs j = some jb → jb.phase ≠ .running → jb.phase ≠ .preempting → exec i s = .next s) ∧
    (Table.find s.jobs j = some jb → jb.phase = .running ∨ jb.phase = .preempting → g ∈ jb.merging → jb.rect.spindles.count sp = 1 →
    (∀ q ∈ jb.rect.spindles, q ≠ sp → ∀ x ∈ (s.spindle q).skein, ¬ (x.due = true ∧ x.plyg = g)) →
    s.mem.wf = true → faSp e.fa = sp → (s.spindle sp).fenced = false → e.v < 256 ^ (2 ^ e.sz) → s.poisoned e.fa (2 ^ e.sz) = false → e.due = true →
    ((s.spindle sp).skein = [e] → ∃ t, exec i s = .next t ∧ (t.spindle sp).skein = [] ∧ Applied s t e ∧
      Table.find (t.job j).phases g = some (jb.ph g + 1)) ∧
    ((s.spindle sp).skein = [e, f] ∨ (s.spindle sp).skein = [f, e] → f.due = true → f.plyg = g →
      wordOf e.fa < wordOf f.fa ∨ (wordOf f.fa = wordOf e.fa ∧ (e.key < f.key ∨ (e.key = f.key ∧ e.seqn < f.seqn))) →
      ∃ t, exec i s = .next t ∧ (t.spindle sp).skein = [f] ∧ Applied s t e ∧ Table.find t.jobs j = some jb ∧ t.ctxs = s.ctxs))

end Sys2Proof.Claims

/-- Deferred updates append one entry, join a task, and are applied by the merge. -/
def Obligations.DeferredUpdatesAppendOneEntry : Prop :=
  UpdatesAppendOneEntry ∧ PairTasksBufferDeferredUpdates ∧ MergeAppliesAnEntry

/-! ### Vector memory -/

namespace Sys2Proof.Claims

/-- Every address from `va` on, `n` bytes, is in one found page of kind NORMAL at the own spindle, at `fa`. -/
def OwnBytes (s : State) (need : Need) (va : Word) (fa : Nat) : Prop :=
  ∃ p, s.xlate va need = .ok (fa, p) ∧ p.kind = 0 ∧ faSp fa = s.here

/-- A vector load at the own spindle: v(d) takes tag `rt`, its active lanes the bytes at their addresses, the others what R233 keeps; nothing else
changes but the order of the TLB. -/
def LoadsLanes (i : Instr) (s : State) (d : VReg) (rt : Nat) (mg : Reg) (at_ : Nat → Nat) : Prop :=
  ∃ t, exec i s = .next t ∧ OnlyTlb s t ∧
    (∀ j, j < tagLanes rt → laneOf (t.me.vreg d).toNat (tagWidth rt) j =
      if laneActive (s.me.maskOf mg) (tagLanes rt) j then s.read (at_ j) (tagWidth rt / 8) else s.me.keptLane d rt j) ∧
    t.me.vtag d = rt ∧ t.me.vside d = 0 ∧
    (∀ r, r ≠ d → t.me.vreg r = s.me.vreg r ∧ t.me.vtag r = s.me.vtag r ∧ t.me.vside r = s.me.vside r) ∧
    t.me.pc = s.me.unit.next ∧
    { t.me with v := s.me.v, tag := s.me.tag, side := s.me.side, pc := s.me.pc, got := s.me.got, again := s.me.again } = s.me

/-- A store of some lanes: each active lane's bytes hold it, and every byte that no active lane covers is as before. -/
def StoresLanes (i : Instr) (s : State) (lanes : List Nat) (at_ : Nat → Nat) (n : Nat) (val : Nat → Nat) : Prop :=
  ∃ t, exec i s = .next t ∧ WentOn s t ∧ (∀ a, t.full a = s.full a) ∧
    (∀ j ∈ lanes, ∀ b, b < n → (∀ j' ∈ lanes, j < j' → at_ j + b < at_ j' ∨ at_ j' + n ≤ at_ j + b) →
      t.byte (at_ j + b) = BitVec.ofNat 8 (val j / 256 ^ b)) ∧
    ∀ a, (∀ j ∈ lanes, a < at_ j ∨ at_ j + n ≤ a) → t.byte a = s.byte a

/-- No access of the context is half done, and the cycle has come on which the results of its unit are due for its next one (R19, R20): what is left
of a vector access is performed at once. Before that cycle a free value says which words an event performs (log 13). -/
def AtOnce (s : State) : Prop := s.me.torn = none ∧ s.me.lastIssue + 7 ≤ s.now

/-- The context goes on with what is left of its access, on this cycle or the next: its PC, its registers and everything else of it are as before. -/
def GoesOn (s t : State) (u : Torn) : Prop :=
  ∃ r, r ≤ max s.me.readyAt (s.now + 1) ∧ t.me = { s.me with torn := some u, again := true, readyAt := r }

/-- R165: an event of a load performs some of its words, each at its own place in time: with the last of them the register is written; before, what
was read is kept and the other lanes' addresses stay to be read. -/
def LoadsSomeWords (i : Instr) (s : State) (d : VReg) (rt : Nat) (lanes : List Nat) (at_ : Nat → Nat) : Prop :=
  ∃ t, exec i s = .next t ∧ SameMemory s t ∧ (∀ k, k ≠ s.cur → t.ctx k = s.ctx k) ∧ let n := tagWidth rt / 8
    ((t.me.torn = none ∧ t.me.pc = s.me.unit.next ∧ t.me.vtag d = rt ∧
        ∀ j ∈ lanes, laneOf (t.me.vreg d).toNat (tagWidth rt) j = s.read (at_ j) n) ∨
      ∃ u, GoesOn s t u ∧ u.loads ≠ [] ∧ u.got ≠ [] ∧ ∀ j ∈ lanes, (j, s.read (at_ j) n) ∈ u.got ∨ (j, at_ j, n) ∈ u.loads)

/-- R165: an event of a load that has words left, on the cycle on which they are due: the lanes read before keep their values, the others are read. -/
def LoadsTheRest (i : Instr) (s : State) (d : VReg) (rt : Nat) (mg : Reg) (lanes : List Nat) : Prop :=
  ∀ u, s.me.torn = some u → s.me.lastIssue + 7 ≤ s.now → (u.got.map (·.1) ++ u.loads.map (·.1)).Perm lanes →
    (∀ x ∈ u.loads, s.poisoned x.2.1 x.2.2 = false) → ∃ t, exec i s = .next t ∧ SameMemory s t ∧ (∀ k, k ≠ s.cur → t.ctx k = s.ctx k) ∧
      t.me.torn = none ∧ t.me.pc = s.me.unit.next ∧ t.me.g = s.me.g ∧ t.me.vtag d = rt ∧ let lane := laneOf (t.me.vreg d).toNat (tagWidth rt)
      (∀ x ∈ u.got, lane x.1 = x.2 % 2 ^ tagWidth rt) ∧ (∀ x ∈ u.loads, lane x.1 = s.read x.2.1 x.2.2 % 2 ^ tagWidth rt) ∧
      ∀ j, j < tagLanes rt → j ∉ lanes → laneActive (s.me.maskOf mg) (tagLanes rt) j = false → lane j = s.me.keptLane d rt j

/-- The byte at an address once all lanes are stored: the highest lane that covers it wins. -/
def byteStored (s : State) (lanes : List Nat) (at_ n : Nat → Nat) (val : Nat → Nat) (a : Nat) : Byte :=
  match lanes.reverse.find? fun j => decide (at_ j ≤ a) && decide (a < at_ j + n j) with
  | some j => BitVec.ofNat 8 (val j / 256 ^ (a - at_ j))
  | none => s.byte a

/-- R165: an event of a store performs some of its words, each whole: with the last of them the unit ends; before, the others stay to be stored. -/
def StoresSomeWords (i : Instr) (s : State) (lanes : List Nat) (at_ n : Nat → Nat) (val : Nat → Nat) : Prop :=
  ∃ t, exec i s = .next t ∧ (∀ a, t.full a = s.full a) ∧ (∀ k, k ≠ s.cur → t.ctx k = s.ctx k) ∧ let new := byteStored s lanes at_ n val
    ((t.me.torn = none ∧ t.me.pc = s.me.unit.next ∧ t.me.g = s.me.g ∧ ∀ a, t.byte a = new a) ∨
      ∃ u, GoesOn s t u ∧ u.stores ≠ [] ∧ ∀ w, w % 8 = 0 →
        ((∃ e ∈ u.stores, e.1 = w) → ∀ b, b < 8 → t.byte (w + b) = s.byte (w + b)) ∧
        ((∀ e ∈ u.stores, e.1 ≠ w) → ∀ b, b < 8 → t.byte (w + b) = new (w + b)))

/-- R165: an event of a store that has words left, on the cycle on which they are due: each is stored, its bytes with what stays of the old ones. -/
def StoresTheRest (i : Instr) (s : State) : Prop :=
  ∀ u, s.me.torn = some u → s.me.lastIssue + 7 ≤ s.now → u.stores.Pairwise (fun e f => e.1 ≠ f.1) →
    (∀ e ∈ u.stores, e.1 % 8 = 0 ∧ s.poison.contains e.1 = false ∧ e.2.Pairwise (fun x y => x.1 ≠ y.1) ∧ ∀ x ∈ e.2, x.1 < 8) →
    ∃ t, exec i s = .next t ∧ (∀ a, t.full a = s.full a) ∧ (∀ k, k ≠ s.cur → t.ctx k = s.ctx k) ∧ t.me.torn = none ∧ t.me.pc = s.me.unit.next ∧
      t.me.g = s.me.g ∧ (∀ e ∈ u.stores, ∀ x ∈ e.2, t.byte (e.1 + x.1) = BitVec.ofNat 8 (x.2.1 % 256) ||| (s.byte (e.1 + x.1) &&& BitVec.ofNat 8 x.2.2)) ∧
      ∀ a, (∀ e ∈ u.stores, ∀ x ∈ e.2, a ≠ e.1 + x.1) → t.byte a = s.byte a

/-- Word `x.1` of a block register, or its sidecar where that is 8, holds `x.2` (R244). -/
def BlockHolds (t : State) (v : VReg) (x : Nat × Nat) : Prop :=
  if x.1 < 8 then laneOf (t.me.vreg v).toNat 64 x.1 = x.2 % 2 ^ 64 else (t.me.vside v).toNat = x.2 % 2 ^ 64

/-- The active lanes of a tag under a mask field. -/
def activeLanes (s : State) (rt : Nat) (mg : Reg) : List Nat := (List.range (tagLanes rt)).filter fun j => laneActive (s.me.maskOf mg) (tagLanes rt) j

/-- R240 to R244: the vector loads, every active lane's bytes being aligned, mapped and without poison at the own spindle: contiguous, strided,
indexed, one element for all, and a block register with its scales, all words at once on the cycle on which the results are due. R165: before that
cycle the words are performed in no fixed order, by one event or by several: VLD, VLDS, VGATH and VLDB are told so, VBCST having but one. -/
def VectorLoadsReadOwnMemory : Prop :=
  ∀ (s : State) (v vi : VReg) (a b mg : Reg) (tt off : BitVec 4) (f : BitVec 2) (fa : Nat → Nat),
    let t := tt.toNat; let n := tagWidth t / 8; let act := activeLanes s t mg; let e := s.me.reg a + BitVec.ofNat 64 (64 * off.toNat)
    let ok := fun (va : Nat → Word) => ∀ j ∈ act, (va j).toNat % n = 0 ∧ OwnBytes s needR (va j) (fa j) ∧ s.poisoned (fa j) n = false
    let loads := fun i => (AtOnce s → LoadsLanes i s v t mg fa) ∧ (s.me.torn = none → LoadsSomeWords i s v t act fa)
    (tagIn tt 1 10 = true → e.toNat % 8 = 0 → ok (fun j => e + BitVec.ofNat 64 (j * n)) → loads (.vld v a tt mg off)) ∧
    (tagIn tt 1 10 = true → ok (fun j => s.me.reg a + BitVec.ofNat 64 j * s.me.reg b) → loads (.vlds v a b mg tt)) ∧
    (tagIn tt 1 10 = true → LoadsTheRest (.vld v a tt mg off) s v t mg act ∧ LoadsTheRest (.vlds v a b mg tt) s v t mg act) ∧
    (tagIn tt 1 10 = true → s.me.torn = none → ok (fun _ => e) → (∀ j k, fa j = fa k) → LoadsLanes (.vbcst v a tt mg off) s v t mg fa) ∧
    (tagIn tt 2 8 = true → tagIsInt (s.me.vtag vi) = true → tagWidth (s.me.vtag vi) = 8 * n →
      (ok (fun j => s.me.reg a + BitVec.ofNat 64 (s.me.lane vi j * n)) → loads (.vgath v a tt mg vi)) ∧
      LoadsTheRest (.vgath v a tt mg vi) s v t mg act) ∧
    (let k := blkScaleLen f.toNat
     AtOnce s → (s.me.reg a).toNat % 8 = 0 → (s.me.reg b).toNat % k = 0 →
     (∀ j, j < 8 → OwnBytes s needR (s.me.reg a + BitVec.ofNat 64 (8 * j)) (fa j) ∧ s.poisoned (fa j) 8 = false) →
     OwnBytes s needR (s.me.reg b) (fa 8) → s.poisoned (fa 8) k = false →
     ∃ t x, exec (.vldb v a b f) s = .next t ∧ OnlyTlb s t ∧ t.me.vreg v = x ∧ (∀ j, j < 8 → laneOf x.toNat 64 j = s.read (fa j) 8) ∧
       t.me.vtag v = 11 + f.toNat ∧ t.me.vside v = BitVec.ofNat 64 (s.read (fa 8) k) ∧ t.me.pc = s.me.unit.next ∧ t.me.g = s.me.g) ∧
    (let k := blkScaleLen f.toNat; let size := fun j => if j < 8 then 8 else k; let i := Instr.vldb v a b f
     let done := fun (t : State) => t.me.torn = none ∧ t.me.vtag v = 11 + f.toNat ∧ t.me.pc = s.me.unit.next ∧ t.me.g = s.me.g
     (s.me.torn = none → (s.me.reg a).toNat % 8 = 0 → (s.me.reg b).toNat % k = 0 →
      (∀ j, j < 9 → OwnBytes s needR (if j < 8 then s.me.reg a + BitVec.ofNat 64 (8 * j) else s.me.reg b) (fa j) ∧ s.poisoned (fa j) (size j) = false) →
      ∃ t, exec i s = .next t ∧ SameMemory s t ∧ (∀ k, k ≠ s.cur → t.ctx k = s.ctx k) ∧ let word := fun j => (j, s.read (fa j) (size j))
        ((done t ∧ ∀ j, j < 9 → BlockHolds t v (word j)) ∨ ∃ u, GoesOn s t u ∧ u.loads ≠ [] ∧ u.got ≠ [] ∧
          ∀ j, j < 9 → word j ∈ u.got ∨ (j, fa j, size j) ∈ u.loads)) ∧
     (∀ u, s.me.torn = some u → s.me.lastIssue + 7 ≤ s.now → (u.got.map (·.1) ++ u.loads.map (·.1)).Perm (List.range 9) →
      (∀ x ∈ u.loads, s.poisoned x.2.1 x.2.2 = false) → ∃ t, exec i s = .next t ∧ SameMemory s t ∧ (∀ k, k ≠ s.cur → t.ctx k = s.ctx k) ∧
        done t ∧ (∀ x ∈ u.got, BlockHolds t v x) ∧ ∀ x ∈ u.loads, BlockHolds t v (x.1, s.read x.2.1 x.2.2)))

/-- R240 to R244: the vector stores, every active lane's bytes being aligned and mapped at the own spindle, outside copy regions and without poison
in their words: each byte takes the value of the highest active lane that covers it, and no other byte changes, all words at once on the cycle on
which the results are due. R165: before that cycle the words are performed in no fixed order, each whole, by one event or by several. A block
register's VST writes its element bytes alone, two elements sharing a byte where they have 4 bits; VSTB writes its scale bytes too. -/
def VectorStoresWriteOwnMemory : Prop :=
  ∀ (s : State) (v vi : VReg) (a b mg : Reg) (off : BitVec 4) (fa : Nat → Nat), s.mem.wf = true →
    let t := s.me.vtag v; let n := tagWidth t / 8; let act := activeLanes s t mg; let e := s.me.reg a + BitVec.ofNat 64 (64 * off.toNat)
    let clean := fun j n => s.poisoned (fa j) n = false ∧ s.inCopyRegion (fa j) n = false
    let ok := fun (va : Nat → Word) => ∀ j ∈ act, (va j).toNat % n = 0 ∧ OwnBytes s needW (va j) (fa j) ∧ clean j n
    let go := fun i => (AtOnce s → StoresLanes i s act fa n (s.me.lane v)) ∧ (s.me.torn = none → StoresSomeWords i s act fa (fun _ => n) (s.me.lane v))
    (tagIsScal t = true ∨ t = 11 ∨ t = 13 → e.toNat % 8 = 0 → ok (fun j => e + BitVec.ofNat 64 (j * n)) → go (.vst v a mg off)) ∧
    (tagIsScal t = true → ok (fun j => s.me.reg a + BitVec.ofNat 64 j * s.me.reg b) → go (.vsts v a b mg)) ∧
    (t = 12 ∨ t = 14 → e.toNat % 8 = 0 →
      (∀ j ∈ act, OwnBytes s needW (e + BitVec.ofNat 64 (j / 2)) (fa (j / 2)) ∧ clean (j / 2) 1 ∧ ∀ j' ∈ act, fa (j / 2) = fa (j' / 2) → j / 2 = j' / 2) →
      let half := fun j k => if k ∈ act then s.me.lane v k else (s.byte (fa (j / 2))).toNat / 16 ^ (k % 2) % 16
      let val := fun j => half j (j / 2 * 2) + 16 * half j (j / 2 * 2 + 1); let i := Instr.vst v a mg off
      (AtOnce s → StoresLanes i s act (fun j => fa (j / 2)) 1 val) ∧
      (s.me.torn = none → StoresSomeWords i s act (fun j => fa (j / 2)) (fun _ => 1) val)) ∧
    (t ≠ 0 → StoresTheRest (.vst v a mg off) s) ∧ (tagIsScal t = true → StoresTheRest (.vsts v a b mg) s) ∧
    (tagIsBlock t = true → StoresTheRest (.vstb v a b) s) ∧
    (2 ≤ t → t ≤ 8 → tagIsInt (s.me.vtag vi) = true → tagWidth (s.me.vtag vi) = 8 * n →
      (ok (fun j => s.me.reg a + BitVec.ofNat 64 (s.me.lane vi j * n)) → go (.vscat v a mg vi)) ∧ StoresTheRest (.vscat v a mg vi) s) ∧
    (tagIsBlock t = true → s.me.torn = none → let k := blkScaleLen (t - 11)
     (s.me.reg a).toNat % 8 = 0 → (s.me.reg b).toNat % k = 0 →
     (∀ j, j < 8 → OwnBytes s needW (s.me.reg a + BitVec.ofNat 64 (8 * j)) (fa 0 + 8 * j) ∧ clean 0 64) →
     OwnBytes s needW (s.me.reg b) (fa 1) → clean 1 k → fa 0 + 64 ≤ fa 1 ∨ fa 1 + k ≤ fa 0 →
     (AtOnce s → ∃ t', exec (.vstb v a b) s = .next t' ∧ WentOn s t' ∧
       (∀ x, x < 64 → t'.byte (fa 0 + x) = (s.me.vreg v).extractLsb' (8 * x) 8) ∧
       (∀ x, x < k → t'.byte (fa 1 + x) = (s.me.vside v).extractLsb' (8 * x) 8) ∧
       ∀ x, (x < fa 0 ∨ fa 0 + 64 ≤ x) → (x < fa 1 ∨ fa 1 + k ≤ x) → t'.byte x = s.byte x) ∧
     StoresSomeWords (.vstb v a b) s (List.range 9) (fun j => if j < 8 then fa 0 + 8 * j else fa 1) (fun j => if j < 8 then 8 else k)
       (fun j => if j < 8 then laneOf (s.me.vreg v).toNat 64 j else (s.me.vside v).toNat))

end Sys2Proof.Claims

/-- Vector loads and stores at the own spindle. -/
def Obligations.VectorMemoryAtTheOwnSpindle : Prop :=
  VectorLoadsReadOwnMemory ∧ VectorStoresWriteOwnMemory

namespace Sys2Proof.Claims

/-- R241: a vector access is checked before any effect, over all active lanes: a lane off its alignment traps ALIGN, one without a page XLATE, one at
another spindle VLOCAL, a store into a copy region SUBWR, each with the lowest such lane's address. Told for a form with one active lane, VBCST, and
for VSTS with lane 0 alone active. -/
def VectorAccessChecksComeFirst : Prop :=
  ∀ (s : State) (v : VReg) (a b mg : Reg) (tt off : BitVec 4) (fa : Nat) (p : PageEntry), s.Handled → s.me.torn = none → tagIn tt 1 10 = true →
    let t := tt.toNat; let n := tagWidth t / 8; let e := s.me.reg a + BitVec.ofNat 64 (64 * off.toNat); let i := Instr.vbcst v a tt mg off
    let x := s.me.reg a; let j := Instr.vsts v a b mg; let m := tagWidth (s.me.vtag v) / 8
    (activeLanes s t mg ≠ [] →
      (e.toNat % n ≠ 0 → Traps i s cALIGN e) ∧
      (e.toNat % n = 0 → s.me.inWindow e = false → s.xlate e needR = .trap cXLATE e → Traps i s cXLATE e) ∧
      (e.toNat % n = 0 → s.xlate e needR = .ok (fa, p) → faSp fa ≠ s.here → Traps i s cVLOCAL e)) ∧
    (tagIsScal (s.me.vtag v) = true → activeLanes s (s.me.vtag v) mg = [0] →
      (x.toNat % m ≠ 0 → Traps j s cALIGN x) ∧
      (x.toNat % m = 0 → s.xlate x needW = .ok (fa, p) → faSp fa ≠ s.here → Traps j s cVLOCAL x) ∧
      (x.toNat % m = 0 → s.xlate x needW = .ok (fa, p) → faSp fa = s.here → s.inCopyRegion fa m = true → Traps j s cSUBWR x)) ∧
    (tagIsScal (s.me.vtag v) = false → TagTraps j s v) ∧ (s.me.vtag v = 0 → TagTraps (.vst v a mg off) s v) ∧
    (tagIsBlock (s.me.vtag v) = false → TagTraps (.vstb v a b) s v)

end Sys2Proof.Claims

/-- Memory accesses are checked before any effect, scalar and vector. -/
def Obligations.AccessChecksComeFirst : Prop :=
  ScalarAccessChecksComeFirst ∧ VectorAccessChecksComeFirst

namespace Sys2Proof.Claims

/-- The instruction completes and changes the executing context alone, by `f`, its PC moving to the next unit. -/
def Becomes (i : Instr) (s : State) (f : Context → Context) : Prop :=
  ∃ t, exec i s = .next t ∧ OnlyMe s t ∧ t.me = { f s.me with pc := s.me.unit.next, got := [], again := false }

/-- The instruction leaves its context waiting with a PARK reason, no memory changing. -/
def Parks (i : Instr) (s : State) (why : Nat) : Prop := ∃ t, exec i s = .next t ∧ Waits s t why

/-- A batch of the line `line` goes from a publisher to the subscriber of an entry, its data the line's words as they stand. -/
def BatchSent (s t : State) (home : Nat) (e : PubEntry) (line bytes fes : Nat) (last : Bool) : Prop :=
  ∃ x ∈ t.msgs, ∃ fev data ws, x.cls = .update ∧ x.src = home ∧ x.dst = e.subSp ∧
    x.body = .batch (e.copyBase + (line - e.base)) bytes fes fev data e.base ws last ∧
    ∀ i, i < 8 → data.getD i 0 = s.read (line + 8 * i) 8 ∧ fev.testBit i = s.full (line + 8 * i)

end Sys2Proof.Claims

/-! ### Threads -/

namespace Sys2Proof.Claims

/-- R29, R84: SPAWN on the keeper context, no migrant waiting: the lowest FREE context whose birth bit is clear starts at g(A) with g1 and g2 from
g(B) and g(C), everything else zero or EMPTY, its index by the rectangle, its CPROF the keeper's; without one, g(D) is 0. It traps ILLEGAL elsewhere
and ALIGN on an odd address. -/
def SpawnStartsAChild : Prop :=
  ∀ (s : State) (d a b c : Reg), let sp := s.here; let pc := s.me.reg a
    let idle := keyCtx s.cur = 0 ∧ pc.toNat % 4 = 0 ∧ (s.spindle sp).migBuf = []
    let free := fun k => (s.ctx (keyOf sp k)).st = .free ∧ (s.spindle sp).birth.getLsbD k = false
    (∀ k, idle → 1 ≤ k → k ≤ 15 → free k → (∀ j, 1 ≤ j → j < k → ¬ free j) → ∃ t, exec (.spawn d a b c) s = .next t ∧
      t.me = { (s.me.setReg d (BitVec.ofNat 64 k)) with pc := s.me.unit.next, got := [], again := false } ∧
      (let x := t.ctx (keyOf sp k)
       x.st = .ready ∧ x.pc = pc ∧ x.reg 1 = s.me.reg b ∧ x.reg 2 = s.me.reg c ∧ (∀ r, r ≠ 1 → r ≠ 2 → x.reg r = 0) ∧
       x.tag = Vector.replicate 8 0 ∧ x.v = Vector.replicate 8 0 ∧ x.thidx = 16 * s.myJob.rect.index sp + k ∧ x.cprof = s.me.cprof ∧
       x.fstat = 0 ∧ x.supv = false ∧ x.gset = gsetOf s.myJob x.thidx ∧ x.mailbox = [] ∧ x.actid = 0 ∧ x.plyg = 0) ∧
      (∀ j, j < 16 → (t.spindle sp).birth.getLsbD j = ((s.spindle sp).birth.getLsbD j || j == k)) ∧
      (∀ n, n ≠ s.cur → n ≠ keyOf sp k → t.ctx n = s.ctx n) ∧ SameMemory s t) ∧
    (idle → (∀ j, 1 ≤ j → j ≤ 15 → ¬ free j) → Gives (.spawn d a b c) s d 0) ∧
    (keyCtx s.cur ≠ 0 → s.Handled → Traps (.spawn d a b c) s cILLEGAL 0) ∧
    (keyCtx s.cur = 0 → pc.toNat % 4 ≠ 0 → s.Handled → Traps (.spawn d a b c) s cALIGN pc)

/-- R30, R31, R84: REAP of a context of the birth map takes the held status and clears its bit, waits with PARK 11 while none is held, and traps
ILLEGAL off the keeper context or for a context that was never born; context 15 of a launch with a handler is no context to reap (R272). -/
def ReapTakesAStatus : Prop :=
  ∀ (s : State) (d a : Reg) (st : Nat), let c := (s.me.reg a).toNat; let p := s.spindle s.here
    let ok := keyCtx s.cur = 0 ∧ 1 ≤ c ∧ c ≤ 15 ∧ p.birth.getLsbD c = true ∧ ¬ (c = 15 ∧ s.myJob.handlerPc ≠ 0)
    (ok → Table.find p.exits c = some st → ∃ t, exec (.reap d a) s = .next t ∧ GotReg s t d (BitVec.ofNat 64 (st % 2 ^ 32)) ∧
      SameMemory s t ∧ (∀ j, j < 16 → (t.spindle s.here).birth.getLsbD j = (p.birth.getLsbD j && j != c)) ∧
      (t.spindle s.here).exits = Table.erase p.exits c) ∧
    (ok → Table.find p.exits c = none → Parks (.reap d a) s 11) ∧
    (¬ ok → s.Handled → Traps (.reap d a) s cILLEGAL 0)

/-- R85, R30: EXIT frees its context, counts its thread as exited and holds the status at its birth spindle, or sends it there by an exit notice; it
traps ILLEGAL while a pair task is held. That the words of a freed context all take their defaults is the model's choice (log 107). -/
def ExitFreesItsContext : Prop :=
  ∀ (s : State) (a : Reg) (jb : Job), let st := (s.me.reg a).toNat % 2 ^ 32; let j := s.myJobNo; let b := jb.rect.spindle (s.me.thidx / 16)
    (s.me.pairtask = false → s.me.thidx ≠ compThidx → s.me.rels = [] → s.openAct j s.me.thidx = none → Table.find s.jobs j = some jb →
      ∃ t, exec (.exit a) s = .next t ∧ t.me = { lastIssue := s.me.lastIssue } ∧ s.me.thidx ∈ (t.job j).exited ∧ SameMemory s t ∧
        ((s.spindle b).fenced = false → b = s.here → Table.find (t.spindle b).exits (s.me.thidx % 16) = some st) ∧
        ((s.spindle b).fenced = false → b ≠ s.here → ∃ m ∈ t.msgs, m.dst = b ∧ m.body = .exitNotice s.me.thidx st)) ∧
    (s.me.pairtask = true → s.Handled → Traps (.exit a) s cILLEGAL 0)

end Sys2Proof.Claims

/-- SPAWN, REAP and EXIT. -/
def Obligations.ThreadsAreBornReapedAndEnd : Prop :=
  SpawnStartsAChild ∧ ReapTakesAStatus ∧ ExitFreesItsContext

/-- R24, R86, R88: YIELD moves LastIssue 8 cycles on; SLEEP of 0 goes on and of n waits with PARK 12 until n cycles have passed; CKPT notes its
checkpoint number, and in a pre-emption that has begun issues no more. -/
def Obligations.YieldSleepAndCheckpoint : Prop :=
  ∀ (s : State) (a : Reg) (k : BitVec 12), let n := (s.me.reg a).toNat
    Becomes .yield s (fun c => { c with lastIssue := s.now + 8 }) ∧
    (n = 0 → Becomes (.sleep a) s id) ∧
    (n ≠ 0 → ∃ t, exec (.sleep a) s = .next t ∧ Waits s t 12 ∧ t.me.wakeAt = some (s.now + n)) ∧
    (s.myJob.phase = .running → Becomes (.ckpt k) s (fun c => { c with cktab := k.setWidth 16 })) ∧
    (s.myJob.phase ≠ .running → Becomes (.ckpt k) s (fun c => { c with cktab := k.setWidth 16, held := true, ckHeld := some k.toNat }))

namespace Sys2Proof.Claims

/-- R40, R87: MIGR reads the 8 bytes at its address rounded down where it need not move, goes on unchanged where the context is pinned, whichever
spindle the address is at, and departs for another spindle otherwise. -/
def MigrMovesItsThread : Prop :=
  ∀ (s : State) (d a : Reg) (fa : Nat), let va := s.me.reg a &&& ~~~(7 : Word)
    (s.pinned s.cur = false → Own s va needR 8 fa → s.poisoned fa 8 = false →
      ∃ t, exec (.migr d a) s = .next t ∧ Loaded s t d (BitVec.ofNat 64 (s.read fa 8))) ∧
    (s.pinned s.cur = true → Own s va needR 8 fa ∨ Away s va needR 8 fa → ∃ t, exec (.migr d a) s = .next t ∧ OnlyTlb s t ∧ WentOn s t) ∧
    (s.pinned s.cur = false → Away s va needR 8 fa → ∃ t m, exec (.migr d a) s = .next t ∧ t.me.st = .departing ∧
      Asks s t .migrate (faSp fa) (.migrate m) ∧ m.image.pc = s.me.unit.next ∧ m.image.g = s.me.g ∧ m.d = d ∧ m.fa = fa ∧ m.n = 8)

end Sys2Proof.Claims

/-- Accesses at another spindle ask its home, or move the thread there. -/
def Obligations.RemoteAccessesAskTheirHome : Prop :=
  RequestsLeaveForTheirHome ∧ RemoteLoadsMigrate ∧ MigrMovesItsThread

/-! ### Channels and mailboxes -/

namespace Sys2Proof.Claims

/-- R138, R139: SEND by the writer with a credit left spends it and sends the message of g(B) and the registers after it to the reader's spindle;
without a credit it waits with PARK 4; on a channel that is not declared or not its own it traps CHANNEL. -/
def SendSpendsACredit : Prop :=
  ∀ (s : State) (a b : Reg) (n1 : BitVec 3) (c : Chan), b.toNat + n1.toNat ≤ 15 → let ch := (s.me.reg a).toNat; let i := Instr.send a b n1
    (s.myJob.chan ch = some c → c.writer = s.me.thidx → s.me.rels = [] → 0 < c.credit → ∃ t ws, exec i s = .next t ∧ WentOn s t ∧
      SameMemory s t ∧ t.myJob.chan ch = some { c with credit := c.credit - 1, nsent := c.nsent + 1 } ∧
      ws.length = n1.toNat + 1 ∧ (∀ k : Reg, k.toNat ≤ n1.toNat → ws[k.toNat]? = some (s.me.reg (b + k))) ∧
      ∃ m ∈ t.msgs, m.body = .chan ch ws ∧ m.src = s.here ∧ m.dst = s.threadSpindle s.myJobNo c.reader ∧ m.cls = .request) ∧
    (s.myJob.chan ch = some c → c.writer = s.me.thidx → s.me.rels = [] → c.credit = 0 → Parks i s 4) ∧
    (s.myJob.chan ch = some c → c.writer = s.me.thidx → s.me.rels ≠ [] → Parks i s 6) ∧
    (s.Handled → s.myJob.chan ch = none ∨ (s.myJob.chan ch = some c ∧ c.writer ≠ s.me.thidx) → Traps i s cCHANNEL (s.me.reg a))

/-- R45, R140: RECV and RECVT take the oldest message of the context's mailbox or of a channel it reads: its words go to g(D) and the registers after
it, past g15 to none; the message leaves and, from a channel, a credit returns to the writer. RECVT does the same and then writes the number of words
to g(C), over a word there. An empty one is waited for with PARK 3; RECVT whose time has run out writes 0. -/
def ReceivesTakeTheOldestMessage : Prop :=
  ∀ (s : State) (d a c : Reg) (ws : List Word) (rest : List (List Word)) (x : Chan), let ch := (s.me.reg a).toNat
    let word := fun (r : Reg) => if d.toNat ≤ r.toNat then (ws[r.toNat - d.toNat]?).getD (s.me.reg r) else s.me.reg r
    let plain := fun (t : State) => ∀ r : Reg, t.me.reg r = word r
    let counts := fun (t : State) => ∀ r : Reg, t.me.reg r = if r = c then BitVec.ofNat 64 ws.length else word r
    let other := fun (t : State) => (∀ k, k ≠ s.cur → t.ctx k = s.ctx k) ∧ SameMemory s t ∧ t.me.pc = s.me.unit.next
    s.me.rels = [] →
    (ch = mailboxNo → s.me.mailbox = ws :: rest →
      let takes := fun i (regs : State → Prop) => ∃ t, exec i s = .next t ∧ other t ∧ regs t ∧
        t.me.mailbox = rest ++ (s.me.mailHeld.take 1).map (·.ws) ∧ t.me.mailHeld = s.me.mailHeld.drop 1
      takes (.recv d a) plain ∧ takes (.recvt d a c) counts) ∧
    (s.myJob.chan ch = some x → x.reader = s.me.thidx → x.buf = ws :: rest →
      let takes := fun i (regs : State → Prop) => ∃ t, exec i s = .next t ∧ other t ∧ regs t ∧ t.myJob.chan ch = some { x with buf := rest } ∧
        ∃ m ∈ t.msgs, m.body = .credit ch ∧ m.cls = .reply ∧ m.src = s.here ∧ m.dst = s.threadSpindle s.myJobNo x.writer
      takes (.recv d a) plain ∧ takes (.recvt d a c) counts) ∧
    (s.inbox ch = some [] → Parks (.recv d a) s 3 ∧
      (s.now < s.me.lastIssue + (s.me.reg c).toNat → ∃ t, exec (.recvt d a c) s = .next t ∧ Waits s t 3 ∧
        t.me.wakeAt = some (s.me.lastIssue + (s.me.reg c).toNat)) ∧
      (s.me.lastIssue + (s.me.reg c).toNat ≤ s.now → Gives (.recvt d a c) s c 0)) ∧
    (s.Handled → s.inbox ch = none → Traps (.recv d a) s cCHANNEL (s.me.reg a) ∧ Traps (.recvt d a c) s cCHANNEL (s.me.reg a))

/-- R141, R142: CHQ writes 0 for a channel that is not declared, and for the mailbox its counts; for a channel whose reader lives at the own spindle
its ends, credits and counts; a reader elsewhere is asked with a remote read, with PARK 1. CHBIND gives a quiet channel new ends, at once where all
ends are at the own spindle, and waits with PARK 2 for the others, each of which is told; it answers 1 while messages are on their way and 2 while an
end waits, and traps PRIV off the keeper context. That it asks nothing of a fenced spindle is the model's choice (log 108). -/
def ChannelQueriesAndBinding : Prop :=
  ∀ (s : State) (d a b : Reg) (c : Chan), let ch := (s.me.reg a).toNat; let v := (s.me.reg b).toNat
    let w := v % 2 ^ 18; let r := v / 2 ^ 32 % 2 ^ 18; let bind := Instr.chbind d a b
    (ch ≠ mailboxNo → s.myJob.chan ch = none → Gives (.chq d a) s d 0) ∧
    (ch = mailboxNo → Gives (.chq d a) s d (BitVec.ofNat 64
      (2 ^ 63 + 2 ^ 61 + 2 ^ 60 + (s.me.mailbox.headD []).length * 2 ^ 12 + s.me.mailbox.length))) ∧
    (s.myJob.chan ch = some c → s.threadSpindle s.myJobNo c.reader = s.here → Gives (.chq d a) s d (BitVec.ofNat 64
      (2 ^ 63 + boolN (c.writer == s.me.thidx) * 2 ^ 62 + boolN (c.reader == s.me.thidx) * 2 ^ 61 +
        (if c.writer = s.me.thidx then c.credit * 2 ^ 20 else 0) + (c.buf.headD []).length * 2 ^ 12 + c.buf.length))) ∧
    (s.myJob.chan ch = some c → s.threadSpindle s.myJobNo c.reader ≠ s.here → s.me.unit.rel = none → ∃ t, exec (.chq d a) s = .next t ∧ Waits s t 1 ∧
      ∃ m, t.msgs = s.msgs ++ [m] ∧ m.body = .chq ch ∧ m.cls = .request ∧ m.src = s.here ∧ m.ctx = keyCtx s.cur ∧ m.tok = s.nextTok) ∧
    (keyCtx s.cur = 0 → s.myJob.chan ch = some c → v < 2 ^ 50 → v / 2 ^ 18 % 2 ^ 14 = 0 → s.myJob.indexOk w = true → s.myJob.indexOk r = true →
      (c.credit ≠ 8 → Gives bind s d 1) ∧
      (c.credit = 8 → s.endpointWaits s.myJobNo ch c = true → Gives bind s d 2) ∧
      (c.credit = 8 → s.endpointWaits s.myJobNo ch c = false →
        (∀ th ∈ [c.writer, c.reader, w, r], s.threadSpindle s.myJobNo th = s.here) →
        ∃ t, exec bind s = .next t ∧ GotReg s t d 0 ∧ SameMemory s t ∧ t.myJob.chan ch = some { c with writer := w, reader := r }) ∧
      (let ends := fun sp => sp ≠ s.here ∧ (s.spindle sp).fenced = false ∧ ∃ th ∈ [c.writer, c.reader, w, r], s.threadSpindle s.myJobNo th = sp
       ∀ sp, c.credit = 8 → s.endpointWaits s.myJobNo ch c = false → ends sp → ∃ t, exec bind s = .next t ∧ SameMemory s t ∧
        t.me.st = .parked ∧ t.me.park = 2 ∧ t.me.pc = s.me.pc ∧ t.myJob.chan ch = some { c with writer := w, reader := r } ∧
        ∃ m ∈ t.msgs, m.body = .bindNote ch ∧ m.src = s.here ∧ m.dst = sp ∧ m.ctx = keyCtx s.cur ∧ m.tok = s.nextTok)) ∧
    (s.Handled → keyCtx s.cur ≠ 0 → Traps bind s cPRIV 0) ∧
    (s.Handled → keyCtx s.cur = 0 → s.myJob.chan ch = none → Traps bind s cCHANNEL (s.me.reg a))

end Sys2Proof.Claims

/-- SEND, RECV, RECVT, CHQ and CHBIND. -/
def Obligations.ChannelFormsAtTheirSpindle : Prop :=
  SendSpendsACredit ∧ ReceivesTakeTheOldestMessage ∧ ChannelQueriesAndBinding

/-! ### Groups -/

/-- R89, R90, R91: GBAR and PLY arrive at the phase of a group of the context and wait with PARK 10; GARR arrives and goes on; GWAIT waits where its
thread has arrived and goes on otherwise; GQRY counts. A group that is not the context's, or a second arrival, traps ILLEGAL. -/
def Obligations.GroupFormsArriveAndWait : Prop :=
  ∀ (s : State) (d a : Reg) (jb : Job), let g := (s.me.reg a).toNat; let th := s.me.thidx
    Table.find s.jobs s.myJobNo = some jb →
    let mine := g ≤ 255 ∧ gsetHas s.me.gset g = true; let here := jb.arrivedNow g th = true
    let arrived := fun (t : State) ply => (t.job s.myJobNo).arrival g th =
      some { grp := g, thidx := th, phase := jb.ph g, ply := ply, at_ := s.now, tok := s.nextTok }
    (mine → ¬ here →
      (∃ t, exec (.gbar a) s = .next t ∧ Waits s t 10 ∧ arrived t false) ∧
      (s.me.pairtask = false → ∃ t, exec (.ply a) s = .next t ∧ Waits s t 10 ∧ arrived t true) ∧
      (∃ t, exec (.garr a) s = .next t ∧ WentOn s t ∧ SameMemory s t ∧ arrived t false) ∧
      (∃ t, exec (.gwait a) s = .next t ∧ WentTo s t s.me.unit.next)) ∧
    (mine → here → Parks (.gwait a) s 10) ∧
    (g ≤ 255 → Gives (.gqry d a) s d (BitVec.ofNat 64 (boolN (jb.arrivedNow g th) * 2 ^ 63 +
      ((jb.members g).filter fun x => x ∈ jb.exited ∨ jb.arrivedNow g x = true).length * 2 ^ 32 + jb.ph g % 2 ^ 32))) ∧
    (s.Handled → ¬ mine ∨ here → Traps (.gbar a) s cILLEGAL 0 ∧ Traps (.garr a) s cILLEGAL 0 ∧ Traps (.ply a) s cILLEGAL 0) ∧
    (s.Handled → ¬ mine → Traps (.gwait a) s cILLEGAL 0) ∧ (s.Handled → 255 < g → Traps (.gqry d a) s cILLEGAL 0)

/-! ### Special registers -/

namespace Sys2Proof.Claims

/-- R92 to R102: SRD by its number: the cycle, the thread's index, the spindle, the context, the job's words, and the context's own registers; TRAPV
and WINSEL need supervisor level, a number above 0x11 traps ILLEGAL. -/
def SpecialRegistersRead : Prop :=
  ∀ (s : State) (d : Reg) (sr : BitVec 8), let c := s.me; let jb := s.myJob; let sp := s.here
    let go := fun (n : Nat) (v : Word) => sr.toNat = n → Gives (.srd d sr) s d v
    go 0x00 (BitVec.ofNat 64 s.now) ∧ go 0x01 (BitVec.ofNat 64 c.thidx) ∧
    go 0x02 (BitVec.ofNat 64 (s.trebex.chip * 2 ^ 42 + sp * 2 ^ 28 + dieOf sp * 2 ^ 24 + clusterOf sp * 2 ^ 14 + sp / 128 * 2 ^ 7 + sp % 128)) ∧
    go 0x03 (BitVec.ofNat 64 (s.cur % 16)) ∧ go 0x04 (BitVec.ofNat 64 (jb.queue * 2 ^ 32 + jb.serial % 2 ^ 32)) ∧ go 0x05 jb.lseed ∧
    go 0x06 c.cprof ∧ go 0x07 c.fstat ∧ go 0x08 c.gset ∧ go 0x09 jb.param ∧
    go 0x0A (BitVec.ofNat 64 (boolN jb.debug * 8 + boolN jb.actcls * 4 + boolN jb.replay * 2 + boolN jb.repeat_)) ∧
    go 0x0B c.lprog ∧ go 0x0C c.actid ∧ go 0x0D (c.cktab.setWidth 64) ∧ go 0x0E c.plyg ∧ go 0x10 c.cpinj ∧
    (c.supv = true → go 0x0F c.trapv ∧ go 0x11 c.winsel) ∧
    (s.Handled → sr.toNat = 0x0F ∨ sr.toNat = 0x11 → c.supv = false → Traps (.srd d sr) s cPRIV 0) ∧
    (s.Handled → 0x11 < sr.toNat → Traps (.srd d sr) s cILLEGAL 0)

/-- R92, R96 to R102: SWR of each writable register with a value that sets no reserved bit writes it and nothing else; LPROG, TRAPV and WINSEL need
supervisor level, PLYG does once a ply phase has completed, and CPINJ outside a debug launch; a read-only number, one above 0x11, or a reserved bit
traps ILLEGAL. -/
def SpecialRegistersWrite : Prop :=
  ∀ (s : State) (c : Reg) (sr : BitVec 8), let v := s.me.reg c; let x := v.toNat; let i := Instr.swr sr c; let sup := s.me.supv = true
    let go := fun (n : Nat) (may ok : Prop) (f : Context → Context) => sr.toNat = n →
      (may → ok → Becomes i s f) ∧ (s.Handled → ¬ may → Traps i s cPRIV 0) ∧ (s.Handled → may → ¬ ok → Traps i s cILLEGAL 0)
    go 0x06 True (x < 2 ^ 22 ∧ x / 2 ^ 9 % 2 ^ 7 = 0 ∧ x / 4 % 4 ≠ 3 ∧ x / 32 % 4 ≠ 3) (fun c => { c with cprof := v }) ∧
    go 0x07 True (x < 2 ^ 7) (fun c => { c with fstat := v }) ∧
    go 0x0B sup (x / 2 ^ 48 % 2 ^ 15 = 0) (fun c => { c with lprog := v }) ∧
    go 0x0C True (x < 2 ^ 32) (fun c => { c with actid := v }) ∧
    go 0x0E (s.myJob.pliesDone = 0 ∨ sup) (x < 2 ^ 8) (fun c => { c with plyg := v }) ∧
    go 0x0F sup (x < 2 ^ 52 ∧ x % 2 ^ 16 = 0) (fun c => { c with trapv := v }) ∧
    go 0x10 (s.myJob.debug = true ∨ sup) (x / 2 ^ 48 % 2 ^ 15 = 0 ∧ (x / 2 ^ 63 = 0 ∨ x / 2 ^ 32 % 2 ^ 16 ≠ 0)) (fun c => { c with cpinj := v }) ∧
    go 0x11 sup (x / 2 ^ 18 % 2 ^ 45 = 0) (fun c => { c with winsel := v }) ∧
    (s.Handled → sr.toNat ∈ [0x00, 0x01, 0x02, 0x03, 0x04, 0x05, 0x08, 0x09, 0x0A, 0x0D] ∨ 0x11 < sr.toNat → Traps i s cILLEGAL 0)

end Sys2Proof.Claims

/-- SRD and SWR of every special register. -/
def Obligations.SpecialRegistersReadAndWrite : Prop :=
  SpecialRegistersRead ∧ SpecialRegistersWrite

/-! ### Subscriptions, launches, ordering -/

/-- R145 to R147, R152 to R154: SUBON asks the publisher's spindle for its region and waits with PARK 2 for the answer that makes the copy entry;
SUBOFF drops an entry whose publisher is fenced, else asks the publisher; SUBQ tells an entry; SUBFL sends every open batch. -/
def Obligations.SubscriptionForms : Prop :=
  ∀ (s : State) (d a b c : Reg) (fl fp fb : Nat) (e : CopyEntry), let l := s.me.reg a; let p := s.me.reg b; let n := (s.me.reg c).toNat
    let last := BitVec.ofNat 64 (n - 1)
    let readable := fun (va : Word) (fa : Nat) => ∃ g, s.xlate va needR = .ok (fa, g) ∧ g.kind = 0
    (readable l fl → readable p fp → readable (l + last) (fl + n - 1) → readable (p + last) (fp + n - 1) → l.toNat % 64 = 0 → p.toNat % 64 = 0 →
      n % 64 = 0 → 0 < n → n ≤ 16384 → faSp fl = s.here → faSp fp ≠ s.here → faLocal fl + n ≤ 0x10000 → faLocal fp + n ≤ 0x10000 →
      s.regionTaken s.here fl n = false → (s.spindle s.here).copies.length < 16 →
      ∃ t, exec (.subon a b c) s = .next t ∧ Waits s t 2 ∧ Asks s t .request (faSp fp) (.subReq fp n fl) ∧
        t.me.kont = .subon { base := fl, len := n, pubSp := faSp fp, pubBase := fp, pubJob := s.jobNoAt (faSp fp) }) ∧
    (readable l fb → s.copyEntry fb = some e →
      (e.pfenced = true → ∃ t, exec (.suboff a) s = .next t ∧ WentOn s t ∧ SameMemory s t ∧
        (t.spindle s.here).copies = (s.spindle s.here).copies.filter fun x => x.base != e.base) ∧
      (e.pfenced = false → ∃ t, exec (.suboff a) s = .next t ∧ Waits s t 2 ∧ Asks s t .request e.pubSp (.subRemove e.pubBase e.base)) ∧
      (∃ t, exec (.subq d a) s = .next t ∧ Loaded s t d
        (BitVec.ofNat 64 (2 ^ 63 + boolN e.susp * 2 ^ 62 + boolN e.pfenced * 2 ^ 61 + e.pubSp * 2 ^ 30 + e.len)))) ∧
    (readable l fb → s.copyEntry fb = none → ∃ t, exec (.subq d a) s = .next t ∧ Loaded s t d 0) ∧
    (∃ t, exec .subfl s = .next t ∧ WentOn s t ∧ SameMemory s t ∧ (∀ x ∈ (t.spindle s.here).pubs, x.open_ = []) ∧
      ∀ x ∈ (s.spindle s.here).pubs, ∀ b ∈ x.open_, BatchSent s t s.here x b.line b.bytes b.fes false) ∧
    (s.Handled → l.toNat % 64 ≠ 0 → Traps (.subon a b c) s cALIGN l)

/-- R133 to R136: FENCE goes on once no REL operation is outstanding and no forwarded write of the thread is unacknowledged; WAITA once no REL
operation is outstanding, and until then waits with PARK 6, as FENCE does. DRAIN goes on where its spindle has no copy; otherwise it sends one
request for each copy entry whose publisher is not fenced, and waits for all the answers with PARK 2, to trap FENCED after them where an entry's
publisher is fenced; where every one is, it traps FENCED at once. -/
def Obligations.OrderingForms : Prop :=
  ∀ (s : State), let done := s.me.rels = []; let copies := (s.spindle s.here).copies; let asked := copies.filter fun e => !e.pfenced
    (done → s.batchesOf s.myWho = false → GoesTo .fence s s.me.unit.next) ∧
    (done → s.batchesOf s.myWho = true → Parks .fence s 2) ∧ (¬ done → Parks .fence s 6) ∧
    (done → GoesTo .waita s s.me.unit.next) ∧ (¬ done → Parks .waita s 6) ∧
    (copies = [] → GoesTo .drain s s.me.unit.next) ∧
    (asked ≠ [] → ∃ t ms, exec .drain s = .next t ∧ Waits s t 2 ∧ t.msgs = s.msgs ++ ms ∧
      List.Forall₂ (fun (e : CopyEntry) (m : Msg) => m.body = .drainReq e.pubBase e.base ∧ m.cls = .request ∧ m.src = s.here ∧ m.dst = e.pubSp ∧
        m.job = s.myJobNo ∧ m.ctx = keyCtx s.cur ∧ m.tok = s.nextTok) asked ms ∧
      t.me.tok = s.nextTok ∧ t.me.kont = .drain asked.length (copies.any fun e => e.pfenced)) ∧
    (copies ≠ [] → asked = [] → s.Handled → Traps .drain s cFENCED 0)

/-- R373 to R375: LAUNCH of a record at the own spindle sends its 64 bytes and the queue to the dispatcher and waits with PARK 2 for the result; LQRY
asks the dispatcher and waits with PARK 1; LAUNCH traps ALIGN off a 64-byte boundary and LAUNCH for a queue above 16,383. -/
def Obligations.DeviceSideLaunchAsksTheDispatcher : Prop :=
  ∀ (s : State) (d a b : Reg) (fa : Nat), let va := s.me.reg a; let q := (s.me.reg b).toNat
    (Own s va needR 64 fa → s.poisoned fa 64 = false → q ≤ 16383 → ∃ t ws, exec (.launch d a b) s = .next t ∧ Waits s t 2 ∧
      Asks s t .request nodeDisp (.launch ws q s.myJob.queue) ∧ t.me.kont = .value d ∧ ws.length = 8 ∧
      ∀ k, k < 8 → ws[k]? = some (BitVec.ofNat 64 (s.read (fa + 8 * k) 8))) ∧
    (∃ t, exec (.lqry d a) s = .next t ∧ Waits s t 1 ∧ Asks s t .request nodeDisp (.query 0 (s.me.reg a).toNat) ∧ t.me.kont = .value d) ∧
    (s.Handled → va.toNat % 64 ≠ 0 → Traps (.launch d a b) s cALIGN va) ∧
    (s.Handled → va.toNat % 64 = 0 → 16383 < q → Traps (.launch d a b) s cLAUNCH va)

/-! ### Software traps, handlers, and units that are no instructions -/

namespace Sys2Proof.Claims

/-- R103, R64: TRAP traps SWTRAP with g(B) as its address and BRK BREAK, which in a debug launch also halts the job; IDLE goes on where the mailbox
holds a message and waits with PARK 3 otherwise; a reserved encoding traps ILLEGAL; a unit that cannot be fetched traps XLATE with the address, and
its record says that it cannot be skipped and holds no words of the unit (log 78). -/
def SoftwareTrapsFreezeTheirThread : Prop :=
  ∀ (s : State) (n : BitVec 8) (b : Reg) (va : Word), s.Handled →
    Traps (.trap n b) s cSWTRAP (s.me.reg b) ∧ (s.myJob.debug = false → Traps (.brk n) s cBREAK 0) ∧
    (s.myJob.debug = true → s.myJob.phase = .running → s.myJob.stopped = false → ∃ t, exec (.brk n) s = .next t ∧ Trapped s t cBREAK 0 ∧
      ∀ sp ∈ s.myJob.rect.spindles, (s.spindle sp).fenced = false → (t.spindle sp).halted = true) ∧
    (s.me.mailbox ≠ [] → GoesTo .idle s s.me.unit.next) ∧ (s.me.mailbox = [] → Parks .idle s 3) ∧
    Traps .reservedEncoding s cILLEGAL 0 ∧
    TrapsAs (.instructionFetchFault va) s { s.me.unit.info cXLATE va with words := [], fetchFault := true }

/-- R104: RESUME by a handler of another, frozen context of its job: mode 0 continues it at g(A), mode 1 after its unit, with g(D) 0; the target is
READY and its trap is gone. It answers 1 where WINSEL selects nothing, 2 where the target is not frozen, 3 where mode 0's address is no multiple of
4, 4 where mode 1 cannot skip the trap of a fetch; outside a handler it traps PRIV. Mode 2 ends the thread. A frozen handler context that goes on
where no other thread is left and no handler is frozen ends with all of them (R272, R330). That 4 is answered for every trap of a fetch, where the
rule names XLATE, is the model's choice (log 87). -/
def ResumeActsOnItsTarget : Prop :=
  ∀ (s : State) (d a : Reg) (r : TrapInfo), let k := winTarget s.me.winsel; let c := s.ctx k; let i := fun m => Instr.resume d a m
    let sel := s.me.winsel.getLsbD 63 = true ∧ s.myJob.rect.has (keySp k) = true
    s.me.handler = true → s.me.st ≠ .free →
    (sel → c.st = .frozen → c.frz = some r → k ≠ s.cur → c.handler = true → s.me.st = .ready → Table.sorted s.ctxs = true → r.fetchFault = false →
      r.defer = false → (s.spindle (keySp k)).job = some s.myJobNo → (s.spindle s.here).job = some s.myJobNo → s.threadsLeft s.myJobNo = false →
      (∀ e ∈ s.ctxs, e.1 ≠ k → e.2.st = .frozen → e.2.handler = true → (s.spindle (keySp e.1)).job ≠ some s.myJobNo) →
      ∃ t, exec (i 1) s = .next t ∧ SameMemory s t ∧ (t.ctx k).st = .free ∧ t.me.st = .free) ∧
    (sel → c.st = .frozen → c.frz = some r → k ≠ s.cur → (c.handler = true → s.threadsLeft (s.jobNoAt (keySp k)) = true) →
      let thaws := fun m pc => ∃ t, exec (i m) s = .next t ∧ t.ctx k =
          { c with st := .ready, pc := pc, frz := none, readyAt := s.now + 1, again := false, kont := .advance } ∧
        t.me = { (s.me.setReg d 0) with pc := s.me.unit.next, got := [], again := false } ∧ SameMemory s t ∧
        ∀ j, j ≠ s.cur → j ≠ k → t.ctx j = s.ctx j
      ((s.me.reg a).toNat % 4 = 0 → thaws 0 (s.me.reg a)) ∧ ((s.me.reg a).toNat % 4 ≠ 0 → Gives (i 0) s d 3) ∧
      (r.fetchFault = false → r.defer = false → thaws 1 r.skipPc) ∧ (r.fetchFault = true → Gives (i 1) s d 4) ∧
      (s.me.st = .ready → c.thidx ≠ compThidx → ∃ t, exec (i 2) s = .next t ∧ (t.ctx k).st = .free)) ∧
    (¬ sel → ∀ m, m < 3 → Gives (i m) s d 1) ∧ (sel → c.st ≠ .frozen → ∀ m, m < 3 → Gives (i m) s d 2)

/-- R17, R301, R331: the word `v` at offset `o` of the window image of context `k`. -/
def WindowShows (s : State) (k o : Nat) (v : Word) : Prop :=
  let c := s.ctx k; let g := c.staging; let at_ := fun x (w : Word) => o = x → v = w
  at_ 0 c.pc ∧
  (o = 8 → c.park = 0 → c.rels.length ≤ 8 → v.toNat = 4 + boolN c.supv * 2 ^ 8 + boolN c.handler * 2 ^ 9 + boolN c.pairtask * 2 ^ 10 +
    boolN (s.pinned k) * 2 ^ 11 + c.rels.length * 2 ^ 12 + c.pretag.toNat * 2 ^ 32) ∧
  (∀ r : Reg, at_ (0x10 + 8 * r.toNat) (c.reg r)) ∧ (o = 0x90 → v.toNat < 2 ^ 32 ∧ ∀ i : Fin 8, v.extractLsb' (4 * i) 4 = c.tag[i]) ∧
  (∀ i : Fin 8, at_ (0xA0 + 8 * i) c.side[i]) ∧
  (∀ (i : Fin 8) j, j < 8 → at_ (0x100 + 64 * i + 8 * j) ((c.v[i]).extractLsb' (64 * j) 64)) ∧
  at_ 0x300 c.cprof ∧ at_ 0x308 c.fstat ∧ at_ 0x310 c.gset ∧ at_ 0x318 (BitVec.ofNat 64 c.thidx) ∧ at_ 0x320 c.actid ∧ at_ 0x328 c.plyg ∧
  at_ 0x330 c.lprog ∧ at_ 0x338 (c.cktab.setWidth 64) ∧ at_ 0x340 c.loomStat ∧ at_ 0x348 c.cpinj ∧
  (∀ i, i < 12 → at_ (0x380 + 8 * i)
    ([g.csrc, g.cdst, g.cpeer, g.clen, g.csstr, g.cdstr, g.crows, g.cflag, g.cfval, g.cseed, g.cexp, g.cmode].getD i 0)) ∧
  at_ 0x3E0 (BitVec.ofNat 64 (c.chain.id + c.chain.check * 2 ^ 32 + boolN c.chain.final.isSome * 2 ^ 34)) ∧
  (∀ f, c.chain.final = some f → at_ 0x3E8 (BitVec.ofNat 64 f)) ∧
  (o % 8 = 0 → o = 0x98 ∨ (0xE0 ≤ o ∧ o < 0x100) ∨ (0x350 ≤ o ∧ o < 0x380) ∨ 0x3F0 ≤ o → v = 0)

/-- R332: the stores that the window takes: no read-only or unlisted offset, no reserved bit or combination, no PC off a multiple of 4. That the
sidecar bits that a register's tag leaves at zero (R219) are reserved here is the model's choice (log 79). -/
def WindowTakes (c : Context) (o : Nat) (v : Word) : Prop :=
  let n := v.toNat; let sides := [0, 0, 0, 0, 0, 0, 0, 0, 0, 0, 0, 32, 64, 16, 32, 0]
  (o = 0 ∧ n % 4 = 0) ∨ (0x10 ≤ o ∧ o ≤ 0x88) ∨ (o = 0x90 ∧ n < 2 ^ 32) ∨
  (∃ i : Fin 8, o = 0xA0 + 8 * i ∧ n < 2 ^ (sides.getD (c.tag[i]).toNat 0)) ∨ (0x100 ≤ o ∧ o < 0x300) ∨
  (o = 0x300 ∧ n < 2 ^ 22 ∧ n / 2 ^ 9 % 2 ^ 7 = 0 ∧ n / 4 % 4 ≠ 3 ∧ n / 32 % 4 ≠ 3) ∨ (o = 0x308 ∧ n < 2 ^ 7) ∨ (o = 0x320 ∧ n < 2 ^ 32) ∨
  (o = 0x328 ∧ n < 2 ^ 8) ∨ (o = 0x330 ∧ n / 2 ^ 48 % 2 ^ 15 = 0) ∨ (o = 0x340 ∧ n / 2 ^ 48 % 2 ^ 8 = 0) ∨
  (o = 0x348 ∧ n / 2 ^ 48 % 2 ^ 15 = 0 ∧ (n / 2 ^ 63 = 0 ∨ n / 2 ^ 32 % 2 ^ 16 ≠ 0)) ∨
  (∃ i, i < 12 ∧ o = 0x380 + 8 * i ∧ (i = 2 → n < 2 ^ 8) ∧ (i = 3 ∨ i = 9 ∨ i = 10 → n < 2 ^ 32) ∧ (i = 6 → n < 2 ^ 16) ∧
    (i = 11 → n < 2 ^ 9 ∧ n / 16 % 4 ≠ 3 ∧ n / 4 % 4 ≠ 0))

/-- The context after a store of its window: the word at its offset is the one stored, a tag of 15 as 0; every other word of the image, and
everything beside the image, is as before, but that new tags keep the sidecar bits they use (log 79). -/
structure WindowStored (s t : State) (k o : Nat) (v : Word) : Prop where
  word : o ≠ 0x90 → WindowShows t k o v
  tags : o = 0x90 → ∀ i : Fin 8, let x := v.extractLsb' (4 * i) 4; ((t.ctx k).tag)[i] = (if x = 15 then 0 else x)
  rest : ∀ x w, x ≠ o → (o = 0x90 → x < 0xA0 ∨ 0xD8 < x) → WindowShows s k x w → WindowShows t k x w
  beside : ∃ pc g tag side vs cprof fstat actid plyg lprog stat inj stg, t.ctx k = { s.ctx k with
    pc := pc, g := g, tag := tag, side := side, v := vs, cprof := cprof, fstat := fstat, actid := actid, plyg := plyg, lprog := lprog,
    loomStat := stat, cpinj := inj, staging := stg }

/-- R331, R332: in a handler context LD and ST of 64 bits at TRAPV.BASE reach the window image of the frozen context that WINSEL selects, at its
spindle, by a remote request where that is another one. Any other access there traps ILLEGAL, and so does one while WINSEL selects no context or one
that is not frozen, and a store to a read-only or unlisted offset or of a reserved bit. -/
def HandlersReachTheWindow : Prop :=
  ∀ (s : State) (d a : Reg) (off : BitVec 12), let ea := eaShort s a off; let k := winTarget s.me.winsel; let c := s.ctx k; let o := ea.toNat % 2 ^ 16
    let sel := s.me.winsel.getLsbD 63 = true ∧ s.myJob.rect.has (keySp k) = true; let ld := Instr.ld d a 3 off; let st := Instr.st d a 3 off
    s.me.handler = true → ea.toNat / 2 ^ 16 = s.me.trapv.toNat / 2 ^ 16 → s.me.rels = [] → s.me.unit.rel = none → k ≠ s.cur →
    let no := fun i => s.Handled → Traps i s cILLEGAL ea
    (∀ sz : BitVec 2, sz ≠ 3 → ea.toNat % 2 ^ sz.toNat = 0 → no (.ld d a sz off) ∧ no (.st d a sz off)) ∧
    (ea.toNat % 8 = 0 →
      no (.ldf d a 3 off) ∧ no (.lde d a 3 off) ∧ no (.feq d a off) ∧ no (.stf d a 3 off) ∧ no (.stw d a 3 off) ∧ no (.fec a off) ∧
      (¬ sel → no ld ∧ no st) ∧ (sel → keySp k = s.here → c.st ≠ .frozen → no ld ∧ no st) ∧
      (sel → keySp k = s.here → c.st = .frozen →
        (∃ v, Gives ld s d v ∧ WindowShows s k o v) ∧
        (WindowTakes c o (s.me.reg d) → ∃ t, exec st s = .next t ∧ WindowStored s t k o (s.me.reg d) ∧ SameMemory s t ∧ t.msgs = s.msgs ∧
          t.me.pc = s.me.unit.next ∧ t.me.g = s.me.g ∧ ∀ q, q ≠ k → q ≠ s.cur → t.ctx q = s.ctx q) ∧
        (¬ WindowTakes c o (s.me.reg d) → no st)) ∧
      (sel → keySp k ≠ s.here →
        (∃ t, exec ld s = .next t ∧ Waits s t 1 ∧ Asks s t .request (keySp k) (.read (keyCtx k * 2 ^ 16 + o) 8 3)) ∧
        ∃ t, exec st s = .next t ∧ Waits s t 2 ∧ Asks s t .request (keySp k) (.write (keyCtx k * 2 ^ 16 + o) 8 (s.me.reg d).toNat 3)))

/-- R104: RESUME outside a handler context traps PRIV. -/
def ResumeIsPrivileged : Prop :=
  ∀ (s : State) (d a : Reg) (m : BitVec 4), s.me.handler = false → s.Handled → Traps (.resume d a m) s cPRIV 0

end Sys2Proof.Claims

/-- RESUME by a handler, its refusals, and the context window. -/
def Obligations.ResumeThawsAFrozenContext : Prop :=
  ResumeActsOnItsTarget ∧ HandlersReachTheWindow ∧ ResumeIsPrivileged

namespace Sys2Proof.Claims

/-- R60 to R63: a prefix word marks the unit in progress and the unit goes on with its next word, nothing else changing. -/
def PrefixWordsMarkTheUnit : Prop :=
  ∀ (s : State) (o : BitVec 2), let goes := fun i (u : UnitRec) => ∃ t, exec i s = .next t ∧ t.midUnit = true ∧ t.me = { s.me with unit := u } ∧
      (∀ k, k ≠ s.cur → t.ctx k = s.ctx k) ∧ SameMemory s t
    goes (.rel o) { s.me.unit with rel := some o } ∧ goes .far { s.me.unit with far := true }

end Sys2Proof.Claims

/-- TRAP, BRK, IDLE, reserved encodings, fetch faults and prefix words. -/
def Obligations.SoftwareTrapsAndReservedUnits : Prop :=
  SoftwareTrapsFreezeTheirThread ∧ PrefixWordsMarkTheUnit

/-! ### The loom -/

namespace Sys2Proof.Claims

/-- A loom form enters its cluster's queue whole and its context waits with PARK 7; no memory changes. -/
def EntersLoom (i : Instr) (s : State) (ops : List Nat) (table : List Word) : Prop :=
  ∃ t c, exec i s = .next t ∧ Waits s t 7 ∧
    (t.cluster (clusterOf s.here)).enter = (s.cluster (clusterOf s.here)).enter ++ [c] ∧
    c.key = s.cur ∧ c.job = s.myJobNo ∧ c.instr = i ∧ c.ops = ops ∧ c.table = table ∧ c.zmul = s.me.cprof.getLsbD 4 ∧ c.seen = [] ∧
    (s.me.lprog.getLsbD 63 = false → c.entry = 0 ∧ c.step = 0 ∧ c.begun = false) ∧
    (s.me.lprog.getLsbD 63 = true → c.entry = s.me.lprog.toNat / 2 ^ 32 % 2 ^ 16 ∧ c.step = s.me.lprog.toNat % 2 ^ 32 ∧ c.begun = true)

/-- The job's rectangle holds the whole cluster of the executing spindle. -/
def WholeCluster (s : State) : Prop := (clusterSpindles (clusterOf s.here)).all s.myJob.rect.has = true

/-- The ranges are mapped with a permission and lie in scratchpads of the executing cluster. -/
def InCluster (s : State) (rs : List LoomRange) (need : Need) : Prop :=
  s.loomXlate rs need = none ∧ s.loomOutside rs (s.loomPages rs) = none

/-- R255, R260 to R269: each loom form whose ranges, rows, slots and reserved bits pass R262's checks goes to its cluster's queue, from its first
step or from the one LPROG names; LSTAT reads the loom status at once. -/
def LoomFormsEnterTheQueue : Prop :=
  ∀ (s : State) (d a b c : Reg) (af bf ng : BitVec 4) (kg : BitVec 11) (cl : Bool) (colg ncg fmt : BitVec 4) (m1 row : BitVec 8) (w : Word),
    s.me.rels = [] → WholeCluster s →
    let x := (s.me.reg d).toNat; let y := (s.me.reg a).toNat; let z := (s.me.reg b).toNat; let cnt := (s.me.reg c).toNat
    let n := 16 * (ng.toNat + 1); let k := 16 * kg.toNat
    let j : LoomJob := { m := m1.toNat + 1, first := 0, slot := z % 2 ^ 12, accRow := z / 2 ^ 16 % 2 ^ 8 }
    let g := tableEntry w
    let tr : LoomRange := { va := s.me.reg d, len := 8 }
    (InCluster s (aRanges af.toNat k x y j 0) needR → j.accRow + j.m ≤ 256 → s.slotsBad bf.toNat k n j.slot = false →
      z < 2 ^ 24 → z / 2 ^ 12 % 2 ^ 4 = 0 → EntersLoom (.lmm d a b af bf ng kg cl colg m1) s [x, y, z] []) ∧
    (cnt = 1 → x % 8 = 0 → s.loomXlate [tr] needR = none → s.poisoned (pageFa (s.loomPages [tr]) tr.va) 8 = false →
      w = BitVec.ofNat 64 (s.read (pageFa (s.loomPages [tr]) tr.va) 8) →
      s.loomXlate (tr :: aRanges af.toNat k y z g 0) needR = none →
      s.loomRefused [tr] (s.loomPages (tr :: aRanges af.toNat k y z g 0)) = none →
      s.loomOutside (aRanges af.toNat k y z g 0) (s.loomPages (tr :: aRanges af.toNat k y z g 0)) = none →
      g.accRow + g.m ≤ 256 → s.slotsBad bf.toNat k n g.slot = false → g.m ≤ 256 →
      EntersLoom (.lmmg d a b c af bf ng kg cl colg) s [x, y, z, cnt] [w]) ∧
    (let rs : List LoomRange := [{ va := s.me.reg d, len := n * loomEB bf.toNat k }, { va := s.me.reg a, len := n * loomSB bf.toNat k }]
     s.loomXlate rs needR = none → s.loomRefused rs (s.loomPages rs) = none → s.slotsBad bf.toNat k n z = false → z < 2 ^ 12 →
     EntersLoom (.lbld d a b bf ng kg) s [x, y, z] []) ∧
    (row.toNat + y ≤ 256 → EntersLoom (.laclr a row colg ncg) s [0, y] [] ∧
      (let rs : List LoomRange := [{ va := s.me.reg d, len := y * (16 * (ncg.toNat + 1)) * accFmtBytes fmt.toNat }]
       x % accFmtBytes fmt.toNat = 0 →
       (InCluster s rs needR → EntersLoom (.lacin d a row colg ncg fmt) s [x, y] []) ∧
       (InCluster s rs needW → (∀ n l, s.inCopyRegion n l = false) → EntersLoom (.lacp d a row colg ncg fmt) s [x, y] []))) ∧
    Gives (.lstat d) s d s.me.loomStat

/-- R221, R222: the sum of a group of finite products is exact, and a S8 accumulator word is its exact sum saturated. -/
def LoomSumsAreExact : Prop :=
  (∀ (a b : List Fl), (∀ x ∈ a, x.isFin = true) → (∀ x ∈ b, x.isFin = true) → a.length = b.length →
    (groupSum false a b).isFin = true ∧ valueOf (groupSum false a b) = ((a.zip b).map fun p => valueOf p.1 * valueOf p.2).sum) ∧
  (∀ (c : BitVec 32) (i : Int), let v := max (-2 ^ 31) (min (c.toInt + i) (2 ^ 31 - 1))
    (accInt c.toNat i).1 = (BitVec.ofInt 32 v).toNat ∧ ((accInt c.toNat i).2 = true ↔ c.toInt + i ≠ v))

/-- R262: a loom form that fails a check traps LOOM before it enters, its reason in the loom status: 1 outside a whole cluster, 3 for a row past 255. -/
def LoomRefusesBadShapes : Prop :=
  ∀ (s : State) (a : Reg) (row : BitVec 8) (colg ncg : BitVec 4), s.me.rels = [] → s.Handled →
    let i := Instr.laclr a row colg ncg
    let traps := fun reason => ∃ t, exec i s = .next t ∧ t.me.frz.map (·.cause) = some cLOOM ∧ t.me.st = .frozen ∧
      t.me.loomStat.toNat / 2 ^ 56 = reason ∧ ∀ n, t.cluster n = s.cluster n
    (¬ WholeCluster s → traps 1) ∧ (WholeCluster s → 256 < row.toNat + (s.me.reg a).toNat → traps 3)

end Sys2Proof.Claims

/-- R221, R222, R255, R260 to R269: the loom's forms enter their cluster's queue; their sums are exact; bad shapes trap. -/
def Obligations.LoomFormsQueueTheirSteps : Prop := LoomFormsEnterTheQueue ∧ LoomSumsAreExact ∧ LoomRefusesBadShapes

/-! ### Pair tasks -/

namespace Sys2Proof.Claims

/-- R174, R176, R177, R184: PSEED puts the root pair of a declared slot at the tail of the cluster's bobbin and counts it; PTAKE with no pair left
writes all ones, and otherwise waits with PARK 9 for one; PQRY tells the bobbin. -/
def PairTasksAreSeededAndTaken : Prop :=
  ∀ (s : State) (d a b : Reg) (jb : Job) (ta tb : Tree), let k := (s.me.reg a).toNat; let cl := clusterOf s.here
    Table.find s.jobs s.myJobNo = some jb → jb.noTrees = false →
    (s.me.pairtask = false → k ≤ 3 → jb.slotTrees k = some (ta, tb) → k ∉ jb.seeded → jb.frontCount + jb.frontRes + 1 ≤ jb.limit →
      jb.rect.clusterAt (jb.rect.clusterIndex s.here) = cl → s.bobbinAlive cl = true → (s.cluster cl).occ < bobbinCap →
      ∃ t, exec (.pseed a) s = .next t ∧ WentOn s t ∧ SameMemory s t ∧ (t.job s.myJobNo).frontCount = jb.frontCount + 1 ∧
        k ∈ (t.job s.myJobNo).seeded ∧
        (t.cluster cl).pend = (s.cluster cl).pend ++ [{ na := ta.root, nb := tb.root, slot := k, root := true }]) ∧
    (d ≠ a → d ≠ b → a ≠ b → s.me.pairtask = false →
      (jb.frontCount = 0 → ∃ t, exec (.ptake d a b) s = .next t ∧ OnlyMe s t ∧ t.me.pc = s.me.unit.next ∧
        (∀ r, r = d ∨ r = a ∨ r = b → t.me.reg r = BitVec.allOnes 64) ∧ (∀ r, r ≠ d → r ≠ a → r ≠ b → t.me.reg r = s.me.reg r)) ∧
      (jb.frontCount ≠ 0 → ∃ t, exec (.ptake d a b) s = .next t ∧ Waits s t 9 ∧
        (t.cluster cl).takers = (s.cluster cl).takers ++ [s.cur] ∧ t.me.got.map (·.1) = [d.toNat, a.toNat, b.toNat])) ∧
    (k = 0 → Gives (.pqry d a) s d (BitVec.ofNat 64 (2 ^ 63 + boolN (decide (jb.hwm ≤ (s.cluster cl).pend.length + (s.cluster cl).held.length)) * 2 ^ 62 +
      (s.cluster cl).own.length * 2 ^ 32 + (s.cluster cl).held.length * 2 ^ 16 + ((s.cluster cl).pend.length + (s.cluster cl).held.length)))) ∧
    (k = 1 → ∃ t, exec (.pqry d a) s = .next t ∧ Waits s t 1 ∧ Asks s t .request nodeDisp (.query 1 s.myJobNo)) ∧
    (s.Handled → 1 < k → Traps (.pqry d a) s cILLEGAL 0) ∧ (s.Handled → s.me.pairtask = true → Traps (.pseed a) s cILLEGAL 0 ∧
      Traps (.ptake d a b) s cILLEGAL 0)

/-- The record of a node of a tree: its address is mapped and readable, homed at the own spindle without poison, and no REL operation is outstanding. -/
def OwnRecord (s : State) (t : Tree) (i fa : Nat) : Prop :=
  i < t.count ∧ Own s (t.nodes + BitVec.ofNat 64 (64 * i)) needR 1 fa ∧ s.poisoned fa 64 = false

/-- R175, R178, R179: PLOAD reads a field of a node's record and PTEST judges two records; a node at or past its tree's count traps ILLEGAL with the
record's address. -/
def NodeRecordsAreRead : Prop :=
  ∀ (s : State) (d a b c : Reg) (sx : Bool) (sz : BitVec 2) (off : BitVec 6) (treeB : Bool) (ta tb : Tree) (fa fb : Nat),
    let k := (s.me.reg a).toNat; let n := 2 ^ sz.toNat; let na := k / 2 ^ 31 % 2 ^ 31; let nb := k % 2 ^ 31
    s.myJob.noTrees = false → s.myJob.slotTrees (k / 2 ^ 62) = some (ta, tb) → off.toNat % n = 0 →
    (OwnRecord s (if treeB then tb else ta) (if treeB then nb else na) fa → fa % 64 = 0 → ∃ t, exec (.pload d a sx sz off treeB) s = .next t ∧
      Loaded s t d (widen sx n (s.read (fa + off.toNat) n))) ∧
    (d ≠ c → OwnRecord s ta na fa → OwnRecord s tb nb fb → fa % 64 = 0 → fb % 64 = 0 →
      let r := pairTest (s.read fa 16) (s.read fb 16) ((s.me.reg b).toNat % 2 ^ 32)
      ∃ t, exec (.ptest d a b c) s = .next t ∧ OnlyTlb s t ∧ t.me.pc = s.me.unit.next ∧ t.me.reg d = (if r.2 then 1 else 0) ∧
        t.me.reg c = BitVec.ofNat 64 r.1 ∧ ∀ x, x ≠ d → x ≠ c → t.me.reg x = s.me.reg x) ∧
    (s.Handled → ta.count ≤ na → Traps (.ptest d a b c) s cILLEGAL (ta.nodes + BitVec.ofNat 64 (64 * na)))

/-- R180, R182: PFORK of the held pair splits node a, or node b where a is a leaf or where neither is one and a's radius is the smaller: its two,
four or eight children are kept in the task's buffer with their places reserved. Two leaves, another number of children or children past the tree
trap ILLEGAL, a full buffer TASKBUF, and a full frontier FRONTIER. PDONE of a task without effects retires the pair, and reads the oldest own block
back where it leaves the bobbin below 1,024 (R186); it commits a buffered update to its skein with the pair's key, and waits with PARK 2 where that
skein is another spindle's. -/
def PairTasksForkAndCommit : Prop :=
  ∀ (s : State) (a : Reg) (jb : Job) (u : TaskBuf) (ta tb : Tree) (fa fb : Nat),
    let k := (s.me.reg a).toNat; let va := s.read (fa + 12) 9; let vb := s.read (fb + 12) 9; let na := k / 2 ^ 31 % 2 ^ 31; let nb := k % 2 ^ 31
    Table.find s.jobs s.myJobNo = some jb → jb.noTrees = false → s.me.pairtask = true → s.me.task = some u → u.fork = none →
    (k = u.desc.key → jb.slotTrees (k / 2 ^ 62) = some (ta, tb) → OwnRecord s ta na fa → OwnRecord s tb nb fb → fa % 64 = 0 → fb % 64 = 0 →
      let leafA := va / 2 ^ 64 % 256 = 0; let leafB := vb / 2 ^ 64 % 256 = 0
      let u' := (s.touch (ta.nodes + BitVec.ofNat 64 (64 * na))).touch (tb.nodes + BitVec.ofNat 64 (64 * nb))
      let traps := fun cause => u'.Handled → ∃ t, exec (.pfork a) s = .next t ∧ Trapped u' t cause 0
      let splits := fun (w count : Nat) (kid : Nat → PairDesc) => let n := w / 2 ^ 64 % 256; let f := w / 2 ^ 32 % 2 ^ 32
        (¬ n ∈ [2, 4, 8] ∨ count < f + n → traps cILLEGAL) ∧ (n ∈ [2, 4, 8] → f + n ≤ count →
          (64 ≤ u.dups.length → traps cTASKBUF) ∧ (u.dups.length < 64 → jb.limit < jb.frontCount + jb.frontRes + n → traps cFRONTIER) ∧
          (u.dups.length < 64 → jb.frontCount + jb.frontRes + n ≤ jb.limit → ∃ t, exec (.pfork a) s = .next t ∧ SameMemory s t ∧
            t.me.pc = s.me.unit.next ∧ t.me.g = s.me.g ∧ (t.job s.myJobNo).frontRes = jb.frontRes + n ∧
            t.me.task = some { u with fork := some ((List.range n).map fun i => kid (f + i)) }))
      let second := leafA ∨ (¬ leafB ∧ Below (fp32.decode (va % 2 ^ 32)) (fp32.decode (vb % 2 ^ 32)))
      (leafA → leafB → traps cILLEGAL) ∧
      (¬ (leafA ∧ leafB) → ¬ second → splits va ta.count fun i => { na := i, nb := u.desc.nb, slot := u.desc.slot }) ∧
      (¬ (leafA ∧ leafB) → second → splits vb tb.count fun i => { na := u.desc.na, nb := i, slot := u.desc.slot })) ∧
    (s.Handled → k ≠ u.desc.key → Traps (.pfork a) s cILLEGAL 0) ∧
    (u.dups = [] → jb.frontCount = 2 → (s.cluster u.cluster).own = [] →
      ∃ t, exec .pdone s = .next t ∧ SameMemory s t ∧ t.me.pairtask = false ∧ t.me.task = none ∧ t.me.pc = s.me.unit.next ∧ t.me.g = s.me.g ∧
        (t.job s.myJobNo).frontCount = 1 ∧ (t.cluster u.cluster).held = (s.cluster u.cluster).held.erase u.desc) ∧
    (∀ b rest, let c := s.cluster u.cluster
      u.dups = [] → 2 ≤ jb.frontCount → c.own = b :: rest → c.pend.length + (c.held.erase u.desc).length < 1024 → ∃ t, exec .pdone s = .next t ∧
        t.me.task = none ∧ (t.cluster u.cluster).pend = c.pend ++ b.2 ∧ (t.cluster u.cluster).own = rest ∧ (t.job s.myJobNo).freeBlk = jb.freeBlk + 1) ∧
    (∀ e, u.dups = [e] → jb.frontCount = 2 → (s.cluster u.cluster).own = [] → s.appendRefusal s.here e.fa (2 ^ e.sz) 0 = none →
      ∃ t x, exec .pdone s = .next t ∧ (t.spindle (faSp e.fa)).skein = (s.spindle (faSp e.fa)).skein ++ [x] ∧ x.fa = e.fa ∧ x.op = e.op ∧
        x.v = e.v ∧ x.key = u.desc.key ∧ x.seqn = 0 ∧ SameMemory s t ∧
        (faSp e.fa = s.here → t.me.pairtask = false ∧ t.me.task = none ∧ t.me.pc = s.me.unit.next ∧ t.me.g = s.me.g) ∧
        (faSp e.fa ≠ s.here → Waits s t 2 ∧ t.me.kont = .commit 1 ∧ t.me.pairtask = true))

/-- Two indices of a rectangle's cluster grid lie side by side, or one above the other. -/
def Adjacent (r : Rect) (i k : Nat) : Prop := i < r.clusterCount ∧ let w := r.w / 4
  (i / w = k / w ∧ (i + 1 = k ∨ k + 1 = i)) ∨ i + w = k ∨ k + w = i

/-- R189, free mode: the own cluster below the watermark, else the least occupied of it and its neighbours, on a tie the own one, then the lowest
index. That a neighbour with a fenced spindle is passed by is the model's choice (log 135). -/
def FreeChoice (s : State) (jb : Job) (own i : Nat) : Prop :=
  let o := fun i => (s.cluster (jb.rect.clusterAt i)).pend.length + (s.cluster (jb.rect.clusterAt i)).held.length
  let cand := fun y => y = own ∨ (Adjacent jb.rect y own ∧ s.bobbinAlive (jb.rect.clusterAt y) = true)
  (o own < jb.hwm → i = own) ∧
  (jb.hwm ≤ o own → cand i ∧ ∀ y, cand y → o i ≤ o y ∧ (o i = o y → i = own ∨ (y ≠ own ∧ i ≤ y)))

/-- R182, R186, R189: PDONE of a task that forked two, four or eight children. Each goes to its cluster, by its key in repeatable mode and as one
group in free mode; the children of one cluster enter its queue in order, at the tail below the watermark and at the head from it on. A bobbin
without room writes its last 128 pending descriptors to a free reserve block first; where none is free, what does not fit goes to the next cluster.
The descriptor is no longer held, COUNT and RES follow, and the task ends, at once where every child lies in the own cluster and else after a wait
with PARK 2. -/
def ForksArePlaced : Prop :=
  ∀ (s : State) (jb : Job) (u : TaskBuf) (kids : List PairDesc) (dest : PairDesc → Nat), Table.find s.jobs s.myJobNo = some jb → jb.noTrees = false →
    s.me.pairtask = true → s.me.task = some u → u.fork = some kids → u.dups = [] → kids.length ∈ [2, 4, 8] → 1 ≤ jb.frontCount →
    let r := jb.rect; let own := r.clusterIndex s.here; let at_ := fun k => r.clusterAt (dest k); let n := kids.length
    let occ := fun c => (s.cluster c).pend.length + (s.cluster c).held.length; let grp := fun c => kids.filter fun k => at_ k == c
    let enter := fun c (q g : List PairDesc) => if q.length + (s.cluster c).held.length < jb.hwm then q ++ g else g ++ q
    own < r.clusterCount → (jb.repeat_ = true → ∀ k ∈ kids, dest k = placeCluster k.key jb.lseed.toNat r.clusterCount) →
    (jb.repeat_ = false → ∃ i, FreeChoice s jb own i ∧ ∀ k ∈ kids, dest k = i) →
    (∀ k ∈ kids, s.bobbinAlive (at_ k) = true ∧ ∀ k' ∈ kids, at_ k = at_ k' → dest k = dest k') →
    let after := fun (t : State) => SameMemory s t ∧ (t.job s.myJobNo).frontCount = jb.frontCount + n - 1 ∧ (t.job s.myJobNo).frontRes = jb.frontRes - n ∧
      t.me.task = none ∧ (t.cluster u.cluster).held = (s.cluster u.cluster).held.erase u.desc
    ((s.cluster u.cluster).own = [] → (∀ k ∈ kids, occ (at_ k) + (grp (at_ k)).length ≤ 4096) → ∃ t, exec .pdone s = .next t ∧ after t ∧
      (∀ c, (t.cluster c).pend = if grp c = [] then (s.cluster c).pend else enter c (s.cluster c).pend (grp c)) ∧
      let away := ((kids.map at_).dedup.filter (· ≠ clusterOf s.here)).length
      (away = 0 → t.me.pairtask = false ∧ t.me.pc = s.me.unit.next ∧ t.me.g = s.me.g) ∧
      (away ≠ 0 → Waits s t 2 ∧ t.me.kont = .commit away ∧ t.me.pairtask = true)) ∧
    ∀ i, (∀ k ∈ kids, dest k = i) → let c := r.clusterAt i; let p := (s.cluster c).pend; let first := p.take (p.length - 128)
      4096 < occ c + n → (s.cluster u.cluster).own = [] ∨ u.cluster = c →
      (1 ≤ jb.freeBlk → 128 ≤ p.length → ∃ t b, exec .pdone s = .next t ∧ after t ∧ (t.cluster c).own = (s.cluster c).own ++ [(b, p.drop (p.length - 128))] ∧
        (t.cluster c).pend = enter c first kids ∧ (t.job s.myJobNo).freeBlk = jb.freeBlk - 1 ∧
        let unused := fun y => y < jb.blocks ∧ ∀ x ∈ r.clusters, ∀ e ∈ (s.cluster x).own, e.1 ≠ y
        (∃ y, unused y) → unused b) ∧
      (jb.freeBlk = 0 → (s.cluster u.cluster).own = [] → let c' := r.clusterAt ((i + 1) % r.clusterCount); let room := 4096 - occ c
        c' ≠ c → s.bobbinAlive c' = true → occ c' + (n - room) ≤ 4096 → ∃ t, exec .pdone s = .next t ∧ after t ∧
          (t.cluster c).pend = enter c p (kids.take room) ∧ (t.cluster c').pend = enter c' (s.cluster c').pend (kids.drop room))

end Sys2Proof.Claims

/-- R174 to R189: the pair-task forms. -/
def Obligations.PairTaskForms : Prop := PairTasksAreSeededAndTaken ∧ NodeRecordsAreRead ∧ PairTasksForkAndCommit ∧ ForksArePlaced

/-! ### Layered targets -/

namespace Sys2Proof.Claims

/-- R282, R283, R286, R290 to R292: the issuer's part of the five layer instructions: the descriptor and the fragment record are checked, and one
request goes to the descriptor's home, at the own spindle too, the context waiting with PARK 2 for the value of g(D). -/
def LayerFormsAsk : Prop :=
  ∀ (s : State) (d a b c : Reg) (ft fr : Nat) (p : PageEntry), let t := s.me.reg a; let r := s.me.reg c
    let x := (s.me.reg b).toNat; let y := (s.me.reg c).toNat
    let asks := fun i op a b frag => ∃ u, exec i s = .next u ∧ Waits s u 2 ∧ Asks s u .request (faSp ft) (.layer op t.toNat ft a b frag) ∧
      u.me.kont = .value d
    (t.toNat % 64 = 0 → s.xlate t needRW = .ok (ft, p) →
      asks (.lres d a b c) 1 x y [] ∧ asks (.lclr d a b c) 2 x y [] ∧ asks (.lcnt d a b) 3 x 0 [] ∧ asks (.lpool d a) 4 0 0 [] ∧
      (Own s r needR 16 fr → s.poisoned fr 12 = false → asks (.fins d a b c) 0 x 0 [s.read fr 12])) ∧
    (s.Handled → t.toNat % 64 ≠ 0 → Traps (.lres d a b c) s cALIGN t ∧ Traps (.lclr d a b c) s cALIGN t ∧ Traps (.lcnt d a b) s cALIGN t ∧
      Traps (.lpool d a) s cALIGN t ∧ Traps (.fins d a b c) s cALIGN t) ∧
    (s.Handled → t.toNat % 64 = 0 → s.xlate t needRW = .ok (ft, p) → r.toNat % 16 ≠ 0 → Traps (.fins d a b c) s cALIGN r)

end Sys2Proof.Claims

/-! ### Activities -/

namespace Sys2Proof.Claims

/-- R316: the notice of an activity that became UNRAVELLED (5) or WEDGED (6) is in the mailbox of its owner, where that has room. -/
def Noticed (s t : State) (y : Activity) (code : Nat) : Prop :=
  ∀ k, s.findThread y.job y.owner = some k → (s.job y.job).phase = .running → (s.ctx k).st ≠ .departing → (s.ctx k).handler = false →
    (s.ctx k).mailbox.length < 16 → (s.ctx k).mailHeld = [] →
    (t.ctx k).mailbox = (s.ctx k).mailbox ++ [[BitVec.ofNat 64 (2 * 2 ^ 56 + code * 2 ^ 32 + actIdOf y), 0, 0]]

end Sys2Proof.Claims

/-- R316 to R323, R325, R326: ABEGIN opens an activity of its thread; APUSH adds a ravel entry under the next number; ACOMMIT commits and forgets the
entries; AABANDON hands them to the unraveller; AQRY tells an activity's state; AFIX skips the entry of a halted one, runs it again or wedges it;
ARET ends a compensation, whose entry goes. An activity whose last entry goes is UNRAVELLED, and its owner gets the notice. That its freed context's
words take their defaults is the model's choice (log 107). -/
def Obligations.ActivityForms : Prop :=
  ∀ (s : State) (d a b c : Reg) (x : Activity), let j := s.myJobNo; let th := s.me.thidx
    let changed := fun (t : State) (f : Activity → Activity) => t.unrav.acts = s.unrav.acts.map fun y => if y.ix == x.ix then f y else y
    (s.myJob.actcls = true → s.openAct j th = none → th ≠ compThidx → (s.unrav.acts.filter fun y => y.job == j).length < 4096 →
      (∀ n, (s.unrav.pick n).isSome) → ∃ t y, exec (.abegin d) s = .next t ∧ SameMemory s t ∧ t.unrav.acts = s.unrav.acts ++ [y] ∧
        y.job = j ∧ y.owner = th ∧ y.ownerSp = s.here ∧ y.st = .opened ∧ y.entries = [] ∧ t.me.reg d = BitVec.ofNat 64 (actIdOf y) ∧
        t.me.actid = BitVec.ofNat 64 (actIdOf y) ∧ t.me.pc = s.me.unit.next ∧ ∀ r, r ≠ d → t.me.reg r = s.me.reg r) ∧
    (s.owned = some x → (s.me.reg a).toNat % 4 = 0 → x.entries.length < 65535 → s.unrav.counter < ravelLast → s.storeUsed (dieOf s.here) < 8192 →
      (s.unrav.counter = 0 ∨ s.unrav.drawnAt ≠ s.now) → ∃ t, exec (.apush a b c) s = .next t ∧ WentOn s t ∧ SameMemory s t ∧
        t.unrav.counter = s.unrav.counter + 1 ∧ changed t fun y => { y with entries := y.entries ++
          [{ seqn := s.unrav.counter + 1, arg1 := s.me.reg c, arg0 := s.me.reg b, sp := s.here, pcw := (s.me.reg a).toNat / 4 % 2 ^ 50, inArea := false }] }) ∧
    (s.owned = some x →
      (∃ t, exec .acommit s = .next t ∧ SameMemory s t ∧ t.me.actid = 0 ∧ t.me.g = s.me.g ∧ t.me.pc = s.me.unit.next ∧
        changed t fun y => { y with st := .committed, entries := [] }) ∧
      (x.entries ≠ [] → ∃ t, exec .aabandon s = .next t ∧ SameMemory s t ∧ t.me.actid = 0 ∧ t.me.g = s.me.g ∧ t.me.pc = s.me.unit.next ∧
        changed t fun y => { y with st := .unravelling, ownerSp := s.here }) ∧
      (x.entries = [] → ∃ t, exec .aabandon s = .next t ∧ SameMemory s t ∧ t.me.actid = 0 ∧ t.me.g = s.me.g ∧ t.me.pc = s.me.unit.next ∧
        changed t (fun y => { y with st := .unravelled, ownerSp := s.here }) ∧ Noticed s t x 5)) ∧
    (s.Handled → s.owned = none → Traps (.apush a b c) s cILLEGAL 0 ∧ Traps .acommit s cILLEGAL 0 ∧ Traps .aabandon s cILLEGAL 0) ∧
    ((s.me.reg a).toNat < 2 ^ 32 → s.act (s.me.reg a).toNat = some x → x.job = j →
      Gives (.aqry d a) s d (BitVec.ofNat 64 (x.st.num * 2 ^ 61 + x.entries.length * 2 ^ 32 + x.owner)) ∧
      (s.me.handler = true → x.st = .halted →
        let settled := fun (t : State) => SameMemory s t ∧ t.me.pc = s.me.unit.next ∧ t.me.reg d = 0 ∧ ∀ r, r ≠ d → t.me.reg r = s.me.reg r
        (∀ e ∈ x.entries, (∀ y ∈ x.entries, y.seqn ≤ e.seqn) → let l := x.entries.filter fun y => y.seqn != e.seqn
          ∃ t, exec (.afix d a 0) s = .next t ∧ settled t ∧
            (l ≠ [] → changed t fun _ => { x with entries := l, st := .unravelling }) ∧
            (l = [] → changed t (fun _ => { x with entries := [], st := .unravelled }) ∧ Noticed s t x 5)) ∧
        (∃ t, exec (.afix d a 1) s = .next t ∧ GotReg s t d 0 ∧ SameMemory s t ∧ changed t fun y => { y with st := .unravelling }) ∧
        ∃ t, exec (.afix d a 2) s = .next t ∧ settled t ∧ changed t (fun y => { y with st := .wedged }) ∧ Noticed s t x 6)) ∧
    ((s.me.reg a).toNat < 2 ^ 32 → s.act (s.me.reg a).toNat = some x → x.job ≠ j ∨ x.st ≠ .halted → s.me.handler = true →
      Gives (.afix d a 0) s d 1 ∧ Gives (.afix d a 1) s d 1 ∧ Gives (.afix d a 2) s d 1) ∧
    ((s.me.reg a).toNat < 2 ^ 32 → s.act (s.me.reg a).toNat = none → Gives (.aqry d a) s d 0 ∧
      (s.me.handler = true → Gives (.afix d a 0) s d 1)) ∧
    (s.Handled → s.me.handler = false → Traps (.afix d a 0) s cPRIV 0) ∧
    (∀ n, th = compThidx → s.me.pairtask = false → s.me.rels = [] → s.unrav.running = some (x.ix, n) → (s.unrav.acts.find? fun y => y.ix == x.ix) = some x →
      let l := x.entries.filter fun e => e.seqn != n
      let ends := fun (t : State) => t.me = { lastIssue := s.me.lastIssue } ∧ SameMemory s t ∧ t.unrav.running = none
      (l ≠ [] → ∃ t, exec .aret s = .next t ∧ ends t ∧ changed t fun _ => { x with entries := l, st := .unravelling }) ∧
      (l = [] → x.owner ≠ compThidx → ∃ t, exec .aret s = .next t ∧ ends t ∧
        changed t (fun _ => { x with entries := [], st := .unravelled }) ∧ Noticed s t x 5)) ∧
    (s.Handled → th ≠ compThidx → Traps .aret s cILLEGAL 0)

/-! ### Copies -/

namespace Sys2Proof.Claims

/-- A command that CPGO or CPTRY launches on engine `e`: its queue ends with it, and the chain link names it. Its seed is CSEED, or for a chained one
the final value of its predecessor, for which it waits while that is queued (R303, R307); CPINJ counts down, and the command that takes NCMD from 1
to 0 gets its bit (R101). -/
structure Launched (s t : State) (e : Nat) (y : CopyCmd) : Prop where
  queue : (t.engine e).cmds = (s.engine e).cmds ++ [y]
  id : y.id = e * 2 ^ 26 + (s.engine e).serial
  owner : y.job = s.myJobNo ∧ y.key = s.cur ∧ y.thidx = s.me.thidx
  set_ : y.stg = s.me.staging ∧ y.cls = s.me.staging.cmode.toNat % 4 ∧ y.row = 0 ∧ y.off = 0
  link : t.me.chain = { id := y.id, eng := e, check := s.me.staging.check }
  plain : s.me.staging.chain = false → y.pred = 0 ∧ y.cancel = false ∧ y.sums = s.me.staging.cseed.toNat
  chained : s.me.staging.chain = true → y.cancel = s.me.chain.failed ∧
    ((∃ x ∈ (s.engine e).cmds, x.id = s.me.chain.id ∧ x.job = s.myJobNo) → y.pred = s.me.chain.id) ∧
    ((∀ x ∈ (s.engine e).cmds, x.id = s.me.chain.id → x.job ≠ s.myJobNo) → y.pred = 0 ∧ ∀ f, s.me.chain.final = some f → y.sums = f)
  unarmed : s.me.cpinj.getLsbD 63 = false → t.me.cpinj = s.me.cpinj ∧ y.flip = none
  counts : s.me.cpinj.getLsbD 63 = true → let n := s.me.cpinj.toNat / 2 ^ 32 % 2 ^ 16
    (n = 1 → y.flip = some (s.me.cpinj.toNat % 2 ^ 32) ∧ t.me.cpinj = s.me.cpinj &&& 0xFFFFFFFF) ∧
    (2 ≤ n → y.flip = none ∧ t.me.cpinj = s.me.cpinj - 2 ^ 32)

/-- A destination word of the issuing package that EMPTY-ON-ISSUE may set EMPTY, and one that ends the command at issue (R303). -/
def MayEmpty (s : State) (va : Word) (fa : Nat) : Prop :=
  (∃ p, s.walkJob s.myJobNo va = some p ∧ p.fa va = fa ∧ needW.ok p = true) ∧ s.inCopyRegion fa 8 = false ∧ NoWaiter s fa
def MayNotEmpty (s : State) (va : Word) : Prop :=
  s.walkJob s.myJobNo va = none ∨
  ∃ p, s.walkJob s.myJobNo va = some p ∧ (needW.ok p = false ∨ (faSp (p.fa va) = s.here ∧ s.inCopyRegion (p.fa va) 8 = true))

end Sys2Proof.Claims

/-- R101, R296, R301 to R303, R307, R310, R311: CPSET and CPSETI write a staging register whose reserved bits are clear; CPGO and CPTRY of a sound
staging set enter the least loaded engine of the die that has room in the class, or the one of the chain link, and give the command's id, CPTRY
giving 0 and CPGO waiting with PARK 8 where none has. Under EMPTY-ON-ISSUE the destination words are EMPTY first: the own spindle's at once, others
by requests for which the context waits with PARK 2, a peer's by messages over its link; a word that may not be written ends the command FAULT with
its address. CPQ and CPCAN tell and cancel a command of the own die. That a peer is asked by runs of 256 words is the model's choice (log 98). -/
def Obligations.CopyForms : Prop :=
  ∀ (s : State) (d a c : Reg) (sr : BitVec 4) (l : Word) (x : CopyCmd) (e : Nat), sr.toNat ≤ 11 →
    let g := s.me.staging; let id := (s.me.reg a).toNat; let room := fun e => (s.engine e).inClass g.cls < 32
    (stageBad sr.toNat (s.me.reg c).toNat = false → Becomes (.cpset sr c) s (fun y => { y with staging := y.staging.put sr.toNat (s.me.reg c) })) ∧
    (stageBad sr.toNat l.toNat = false → Becomes (.cpseti sr l) s (fun y => { y with staging := y.staging.put sr.toNat l })) ∧
    (s.Handled → stageBad sr.toNat l.toNat = true → Traps (.cpseti sr l) s cILLEGAL 0) ∧
    let cand := fun k => if g.chain = true then k = s.me.chain.eng else k ∈ dieEngines s.here
    (s.copyCheck = none → cand e → room e →
      (∀ k, cand k → room k → (s.engine e).load ≤ (s.engine k).load ∧ ((s.engine k).load = (s.engine e).load → e ≤ k)) →
      let words := (List.range (max 1 g.crows.toNat)).flatMap fun r => (List.range (g.clen.toNat / 8)).map fun i =>
        g.cdst + BitVec.ofNat 64 r * g.cdstr + BitVec.ofNat 64 (8 * i)
      let goes := fun (after : State → CopyCmd → Prop) => ∀ i ∈ [Instr.cpgo d, .cptry d], ∃ t y, exec i s = .next t ∧ Launched s t e y ∧
        (∀ a, t.byte a = s.byte a) ∧ after t y
      let on := fun (t : State) (y : CopyCmd) => t.me.reg d = BitVec.ofNat 64 y.id ∧ t.me.pc = s.me.unit.next ∧ (∀ r, r ≠ d → t.me.reg r = s.me.reg r) ∧
        y.emptying = false
      let waits := fun (t : State) (y : CopyCmd) n => Waits s t 2 ∧ t.me.kont = .emptied d y.id ∧ t.me.tok = y.tok ∧ y.emptying = true ∧ y.acksLeft = n ∧ y.fault = none
      (g.eoi = false → goes fun t y => SameMemory s t ∧ on t y ∧ y.fault = none) ∧
      (g.eoi = true → g.cpeer = 0xFF → ∀ at_ : Word → Nat,
        (∀ pre rest, words = pre ++ rest → (∀ va ∈ pre, MayEmpty s va (at_ va) ∧ faSp (at_ va) = s.here) → (∀ va ∈ rest.head?, MayNotEmpty s va) →
          goes fun t y => on t y ∧ y.fault = rest.head? ∧ (∀ va ∈ pre, t.full (at_ va) = false) ∧
            ∀ x, (∀ va ∈ pre, wordOf (at_ va) ≠ wordOf x) → t.full x = s.full x) ∧
        (words ≠ [] → (∀ va ∈ words, MayEmpty s va (at_ va) ∧ faSp (at_ va) ≠ s.here) → goes fun t y => waits t y words.length ∧
          ∃ ms, t.msgs = s.msgs ++ ms ∧ ms.map (fun m => (m.dst, m.body)) = words.map fun va => (faSp (at_ va), .sync (at_ va) 8 5 0))) ∧
      (g.eoi = true → g.cpeer ≠ 0xFF → ∀ chip root, Table.find s.myJob.peers g.cpeer.toNat = some (chip, root) →
        (Table.find s.trebex.routes chip = none → goes fun t y => on t y ∧ y.fault = some g.cdst) ∧
        ∀ port, Table.find s.trebex.routes chip = some port →
          ((s.link (2 * port)).up = false → goes fun t y => on t y ∧ y.fault = some g.cdst) ∧
          ((s.link (2 * port)).up = true → words ≠ [] → goes fun t y => waits t y ((words.length + 255) / 256)))) ∧
    (s.copyCheck = none → (∀ k, cand k → ¬ room k) → Parks (.cpgo d) s 8 ∧ Gives (.cptry d) s d 0) ∧
    (∀ code, s.Handled → s.copyCheck = some code → Traps (.cpgo d) s cCOPY (BitVec.ofNat 64 code) ∧
      Traps (.cptry d) s cCOPY (BitVec.ofNat 64 code)) ∧
    (id / 2 ^ 26 ∈ dieEngines s.here → id / 2 ^ 26 < numEngines → (s.engine (id / 2 ^ 26)).cmd s.myJobNo id = some x →
      Gives (.cpq d a) s d (BitVec.ofNat 64 (2 ^ 63 + (if x.emptying = true then 1 else if 0 < x.row ∨ 0 < x.off ∨ x.flying = true ∨ x.part.isSome = true then 2 else 0) * 2 ^ 60)) ∧
      (x.chunksLeft = true → ∃ t, exec (.cpcan d a) s = .next t ∧ GotReg s t d 0 ∧ SameMemory s t ∧
        ∀ y ∈ (t.engine (id / 2 ^ 26)).cmds, y.id = id → y.cancel = true)) ∧
    (numEngines ≤ id / 2 ^ 26 → Gives (.cpq d a) s d 0 ∧ Gives (.cpcan d a) s d 2)

/-! ### Messages and their answers -/

namespace Sys2Proof.Claims

/-- The message may arrive now: it is the one of its number, nothing sets it aside, and it is the first of its flow, or a recorded store that waited
at its bank for its turn (R118, R163, R342). -/
structure MayArrive (s : State) (m : Msg) : Prop where
  first : s.msgs.find? (fun x => x.id == m.id) = some m
  due : m.notBefore = 0 ∧ m.logged = false ∧ m.port = none ∧ m.postFront = false
  turn : (m.early = true ∨ s.headOfFlow m = true) ∧ s.replayHeld m = false ∧ (s.job m.job).phase ≠ .resuming

/-- It is taken: its destination is not fenced (R349), and no front holds it (R336). -/
structure Arriving (s : State) (m : Msg) : Prop where
  may : MayArrive s m
  opened : ¬ (m.dst < numSpindles ∧ (s.spindle m.dst).fenced = true)
  front : s.frontHolds m = false

/-- Nothing but messages in flight and the counters of messages (R334) differs. -/
structure OnlyMessages (s t : State) : Prop where
  rest : { t with msgs := s.msgs, nextMsg := s.nextMsg, spindles := s.spindles } = s
  spindles : ∀ n, { t.spindle n with sent := (s.spindle n).sent, rcvd := (s.spindle n).rcvd } = s.spindle n

/-- The messages without the one that arrived. -/
def without (s : State) (m : Msg) : List Msg := s.msgs.filter fun x => x.id != m.id

/-- The message is answered, by one message. -/
def Answered (s t : State) (m : Msg) (b : Body) : Prop := t.msgs = without s m ++ [{ m.answer b with id := s.nextMsg }]

/-- A message with this body goes back to the sender's context. -/
def Replied (t : State) (m : Msg) (b : Body) : Prop :=
  ∃ x ∈ t.msgs, x.body = b ∧ x.src = m.dst ∧ x.dst = m.src ∧ x.ctx = m.ctx ∧ x.tok = m.tok ∧ x.job = m.job

/-- The event is answered and changes nothing else. -/
def JustAnswers (i : Instr) (s : State) (m : Msg) (b : Body) : Prop := ∃ t, exec i s = .next t ∧ OnlyMessages s t ∧ Answered s t m b

/-- R116, R124, R132, R193: a read, a store, an atomic and an append are performed at their home, which answers with the value, the acknowledgement
or the old value; stores leave every full/empty bit. -/
def PlainRequestsAreServed : Prop :=
  ∀ (s : State) (m : Msg) (fa n v op b c : Nat) (e : SkeinEntry), Arriving s m → s.mem.wf = true →
    (m.body = .read fa n 0 → s.refuses m.dst m.src fa n 0 = none → s.poisoned fa n = false →
      JustAnswers (.remoteReadRequest m.id) s m (.reply (s.read fa n))) ∧
    (m.body = .write fa n v 0 → s.refuses m.dst m.src fa n 1 = none → s.inCopyRegion fa n = false → s.poisoned fa n = false →
      ∃ t, exec (.remoteWriteRequest m.id) s = .next t ∧ Bytes s t fa n v ∧ (∀ a, t.full a = s.full a) ∧ t.ctxs = s.ctxs ∧ Replied t m .ack) ∧
    (m.body = .atomic fa n op b c → s.refuses m.dst m.src fa n 2 = none → s.inCopyRegion fa n = false → s.poisoned fa n = false →
      ∃ t, exec (.remoteAtomicRequest m.id) s = .next t ∧ (∀ a, t.full a = s.full a) ∧ t.ctxs = s.ctxs ∧ Replied t m (.reply (s.read fa n)) ∧
        (∀ x, atomicNew op n (s.read fa n) b c = some x → Bytes s t fa n x) ∧
        (atomicNew op n (s.read fa n) b c = none → ∀ a, t.byte a = s.byte a)) ∧
    (m.body = .append e → s.appendRefusal m.src e.fa (2 ^ e.sz) 0 = none →
      ∃ t, exec (.skeinAppend m.id) s = .next t ∧ SameMemory s t ∧ t.ctxs = s.ctxs ∧ Replied t m .ack ∧
        (t.spindle (faSp e.fa)).skein = (s.spindle (faSp e.fa)).skein ++ [e])

/-- R163: a recorded store that comes to its bank ahead of its turn is not performed: it waits there and holds back no other message, and its
context, where it went on under REL, parks with PARK 2 for it, before its next unit. Once its turn has come it arrives like any other (`MayArrive`).
That the wait begins at the bank is the model's reading (log 130). -/
def RecordedStoresWaitForTheirTurn : Prop :=
  ∀ (s : State) (m : Msg) (fa n v : Nat), s.msgs.find? (fun x => x.id == m.id) = some m → m.body = .write fa n v 0 →
    m.notBefore = 0 → m.logged = false → m.port = none → m.postFront = false → (s.job m.job).phase ≠ .resuming → s.frontHolds m = false →
    ¬ (m.dst < numSpindles ∧ (s.spindle m.dst).fenced = true) → s.replayHeld m = true →
    let i := Instr.remoteWriteRequest m.id; let k := m.asker; let c := s.ctx k; let ready := c.st = .ready ∧ c.again = false ∧ ∃ o ∈ c.rels, o.tok = m.tok
    (m.early = true → exec i s = .next s) ∧
    (m.early = false → s.headOfFlow m = true → ∃ t, exec i s = .next t ∧ SameMemory s t ∧
      t.msgs = s.msgs.map (fun x => if x.id = m.id then { x with early := true } else x) ∧ (∀ q, q ≠ k → t.ctx q = s.ctx q) ∧
      (ready → (t.ctx k).st = .parked ∧ (t.ctx k).park = 2 ∧ (t.ctx k).waitToks = [m.tok] ∧ (t.ctx k).pc = c.pc ∧ (t.ctx k).g = c.g ∧
        (t.ctx k).rels = c.rels) ∧ (¬ ready → t.ctxs = s.ctxs))

/-- R113, R114, R123, R349: a home refuses a request that its fence or its windows do not let in: the answer says the cause and the request's virtual
address, and nothing is performed. -/
def RefusedRequestsDoNothing : Prop :=
  ∀ (s : State) (m : Msg) (fa n v op b c cause : Nat) (e : SkeinEntry),
    (Arriving s m → let no := Body.nack cause m.va
      (m.body = .read fa n 0 → s.refuses m.dst m.src fa n 0 = some cause → JustAnswers (.remoteReadRequest m.id) s m no) ∧
      (m.body = .write fa n v 0 → s.refuses m.dst m.src fa n 1 = some cause → JustAnswers (.remoteWriteRequest m.id) s m no) ∧
      (m.body = .atomic fa n op b c → s.refuses m.dst m.src fa n 2 = some cause → JustAnswers (.remoteAtomicRequest m.id) s m no) ∧
      (m.src ≠ m.dst → m.body = .sync fa n op v → s.refuses m.dst m.src fa n (syncKind op) = some cause → JustAnswers (.syncRequest m.id) s m no) ∧
      (m.body = .append e → s.appendRefusal m.src e.fa (2 ^ e.sz) 0 = some cause → JustAnswers (.skeinAppend m.id) s m no)) ∧
    (MayArrive s m → m.dst < numSpindles → (s.spindle m.dst).fenced = true → let no := Body.nack cFENCED m.va
      (m.body = .read fa n 0 → JustAnswers (.remoteReadRequest m.id) s m no) ∧ (m.body = .write fa n v 0 → JustAnswers (.remoteWriteRequest m.id) s m no))

/-- R127, R128, R129, R329: the full/empty forms at their home: one that need not wait is answered at once; one that must joins the waiters of its
bank and never times out; one that finds the table full is sent again 256 cycles later. A form at the own bank sends no request; it is told where it
tries again. -/
def FullEmptyRequestsAreServed : Prop :=
  ∀ (s : State) (m : Msg) (fa n op data : Nat), Arriving s m → m.src ≠ m.dst → s.mem.wf = true → m.body = .sync fa n op data →
    s.refuses m.dst m.src fa n (syncKind op) = none → s.inCopyRegion fa n = false → s.poisoned fa n = false →
    let i := Instr.syncRequest m.id; let f := s.full fa
    let done := fun b (e : State → Prop) => ∃ t, exec i s = .next t ∧ t.ctxs = s.ctxs ∧ Replied t m b ∧ e t
    let waits := (op ≤ 1 ∧ f = false) ∨ (op = 3 ∧ f = true)
    (op = 0 → f = true → JustAnswers i s m (.reply (s.read fa n))) ∧
    (op = 2 → JustAnswers i s m (.reply (if f then 1 else 0))) ∧
    (NoWaiter s fa → (op = 1 → f = true → done (.reply (s.read fa n)) fun t => (∀ a, t.byte a = s.byte a) ∧ FeAt s t fa false) ∧
      ((op = 3 ∧ f = false) ∨ op = 4 → done .ack fun t => Bytes s t fa n data ∧ FeAt s t fa true) ∧
      (op = 5 → done .ack fun t => (∀ a, t.byte a = s.byte a) ∧ FeAt s t fa false)) ∧
    (waits → s.waitersIn fa < waiterSlots → ∃ t, exec i s = .next t ∧ SameMemory s t ∧ t.msgs = without s m ∧
      (t.spindle (faSp fa)).waiters = (s.spindle (faSp fa)).waiters ++
        [{ sp := m.src, ctx := m.ctx, tok := m.tok, op := op, fa := fa, n := n, data := data, local_ := false, who := m.who }] ∧
      ((s.ctx m.asker).tok = m.tok → (t.ctx m.asker).bounded = false)) ∧
    (waits → waiterSlots ≤ s.waitersIn fa → ∃ t, exec i s = .next t ∧ OnlyMessages s t ∧
      t.msgs = without s m ++ [{ m.answer (.nackBusy fa n op data) with id := s.nextMsg, notBefore := s.now + 256 }])

/-- A context's wait ends: it is READY on the next cycle at the PC after its unit, its registers what `f` makes of them; no other context and no byte
of memory differs. -/
structure WaitEnds (s t : State) (k : Nat) (f : Context → Context) : Prop where
  ready : (t.ctx k).st = .ready ∧ (t.ctx k).park = 0 ∧ (t.ctx k).tok = 0 ∧ (t.ctx k).readyAt = s.now + 1
  pc : (t.ctx k).pc = (s.ctx k).unit.next
  regs : (t.ctx k).g = (f (s.ctx k)).g
  rest : (t.ctx k).v = (s.ctx k).v ∧ (t.ctx k).tag = (s.ctx k).tag ∧ (t.ctx k).side = (s.ctx k).side ∧ (t.ctx k).fstat = (s.ctx k).fstat ∧
    (t.ctx k).thidx = (s.ctx k).thidx
  others : ∀ x, x ≠ k → t.ctx x = s.ctx x
  memory : SameMemory s t

/-- A context freezes on a trap with a cause and an address at its unit, its registers as they were (R18). -/
structure Freezes (s t : State) (k cause : Nat) (addr : Word) : Prop where
  state : (t.ctx k).st = .frozen
  record : ∃ r, (t.ctx k).frz = some r ∧ r.cause = cause ∧ r.addr = addr ∧ r.pc = (s.ctx k).unit.pc
  pc : (t.ctx k).pc = (s.ctx k).unit.pc
  regs : (t.ctx k).g = (s.ctx k).g ∧ (t.ctx k).v = (s.ctx k).v ∧ (t.ctx k).tag = (s.ctx k).tag ∧ (t.ctx k).fstat = (s.ctx k).fstat
  others : ∀ x, x ≠ k → t.ctx x = s.ctx x
  memory : SameMemory s t

/-- A trap of a context has a handler: it runs no compensation, and a buddy of its spindle takes records of its job. -/
def HandledAt (s : State) (k : Nat) : Prop :=
  (s.ctx k).thidx ≠ compThidx ∧
  (s.takesRecord (s.jobNoAt (keySp k)) (s.spindle (keySp k)).primary k = true ∨ s.takesRecord (s.jobNoAt (keySp k)) (s.spindle (keySp k)).secondary k = true)

/-- R22, R46, R127, R129, R329: the request that found its waiter table full is sent again once its time has come, its own time counted anew; that of
a REL operation though its thread is gone, and any other whose context waits no more is dropped. A form at the own bank tries again there: it is
answered, refused or waits like one that comes first. -/
def BusyRequestsAreSentAgain : Prop :=
  ∀ (s : State) (m : Msg) (fa n op data : Nat), s.msgs.find? (fun x => x.id == m.id) = some m → m.body = .nackBusy fa n op data →
    m.notBefore ≤ s.now → m.logged = false → s.logFirst m = true → s.frontHolds m = false → m.tok ≠ 0 →
    let i := Instr.waiterRetry m.id; let k := m.key; let c := s.ctx k
    (s.awaits m = false → s.relOf m = none → m.rel = false → ∃ t, exec i s = .next t ∧ OnlyMessages s t ∧ t.msgs = without s m) ∧
    (m.src ≠ m.dst → s.awaits m = true ∨ (s.relOf m).isSome = true ∨ m.rel = true → ∃ t, exec i s = .next t ∧ SameMemory s t ∧
      t.msgs = without s m ++ [{ id := s.nextMsg, cls := .request, src := m.dst, dst := m.src, job := m.job, ctx := m.ctx, tok := m.tok, va := m.va,
                                 who := m.who, rel := m.rel, body := .sync fa n op data }] ∧
      { t.ctx k with sentAt := c.sentAt, bounded := c.bounded, rels := c.rels } = c ∧
      (c.tok = m.tok → (t.ctx k).sentAt = s.now ∧ (t.ctx k).bounded = true) ∧
      (t.ctx k).rels = c.rels.map (fun o => if o.tok = m.tok then { o with sentAt := s.now } else o) ∧ ∀ q, q ≠ k → t.ctx q = s.ctx q) ∧
    (m.src = m.dst → s.awaits m = true → let j := syncKind op
      (∀ cause, s.refuses m.src m.dst fa n j = some cause → HandledAt s k → ∃ t, exec i s = .next t ∧ Freezes s t k cause m.va) ∧
      (s.refuses m.src m.dst fa n j = none → s.inCopyRegion fa n = false → s.poisoned fa n = false →
        (∀ d sx, op = 0 → s.full fa = true → n ∈ [1, 2, 4, 8] → c.kont = .load d n sx → ∃ t, exec i s = .next t ∧
          WaitEnds s t k fun c => c.setReg d (widen sx n (s.read fa n))) ∧
        (s.full fa = false → op ≤ 1 → s.waitersIn fa < waiterSlots → ∃ t, exec i s = .next t ∧ SameMemory s t ∧ (t.ctx k).st = .parked ∧
          (t.ctx k).bounded = false ∧ (t.spindle (faSp fa)).waiters = (s.spindle (faSp fa)).waiters ++
            [{ sp := m.dst, ctx := m.ctx, tok := m.tok, op := op, fa := fa, n := n, data := data, local_ := true, who := m.who }])))

end Sys2Proof.Claims

/-- R113 to R116, R124, R127 to R129, R132, R193, R329, R349: what a request does at its home, served, waiting or refused. -/
def Obligations.HomesServeRequests : Prop :=
  PlainRequestsAreServed ∧ RecordedStoresWaitForTheirTurn ∧ RefusedRequestsDoNothing ∧ FullEmptyRequestsAreServed ∧ BusyRequestsAreSentAgain

/-! ### Layer operations at their target's home -/

namespace Sys2Proof.Claims

/-- R275, R283: pieces of memory that a layer operation of the message may reach, `at_` giving the fabric address of each: homed at the message's
destination on a NORMAL page with R and W, in no copy region, not poisoned; two different pieces share no byte, and none holds a page table of the
job. -/
structure Pieces (s : State) (m : Msg) (at_ : Word → Nat) (l : List (Word × Nat)) : Prop where
  reached : ∀ x ∈ l, ∃ p, s.walkJob m.job x.1 = some p ∧ p.kind = 0 ∧ p.r = true ∧ p.w = true ∧ p.fa x.1 = at_ x.1 ∧ p.frame % 65536 = 0 ∧
    faSp (at_ x.1) = m.dst ∧ s.inCopyRegion (at_ x.1) x.2 = false ∧ s.poisoned (at_ x.1) x.2 = false
  tables : ∀ mem : Memory, (∀ b, (∀ x ∈ l, b < at_ x.1 ∨ at_ x.1 + x.2 ≤ b) → mem.read b = s.mem.read b) →
    ∀ va, State.walkJob { s with mem := mem } m.job va = s.walkJob m.job va
  apart : ∀ x ∈ l, ∀ y ∈ l, x = y ∨ at_ x.1 + x.2 ≤ at_ y.1 ∨ at_ y.1 + y.2 ≤ at_ x.1

/-- R278, R279: node index `ix` of the pool holds a depth, four colour channels and flags, and names `next`. -/
def NodeIs (s : State) (d : LyrDesc) (at_ : Word → Nat) (x : LyrNode) (next : Nat) : Prop :=
  s.read (at_ (d.nodeVa x.ix)) 16 = x.depth + x.col * 2 ^ 32 + next * 2 ^ 96 + x.flags * 2 ^ 120 ∧ x.depth < 2 ^ 32 ∧ x.col < 2 ^ 64 ∧
  x.flags < 256 ∧ x.ix < 4096 * d.pages ∧ 32 ≤ x.ix % 4096 ∧ x.ix ≠ 0xFFFFFF

/-- The first node's index, or that of no node. -/
def firstOf : List LyrNode → Nat
  | [] => 0xFFFFFF
  | x :: _ => x.ix

/-- The nodes stand in the pool, each naming the next. -/
def Chained (s : State) (d : LyrDesc) (at_ : Word → Nat) : List LyrNode → Prop
  | [] => True
  | x :: l => NodeIs s d at_ x (firstOf l) ∧ Chained s d at_ l

/-- R278, R281: the list of pixel `p`, nearest first. -/
def ListIs (s : State) (d : LyrDesc) (at_ : Word → Nat) (p : Nat) (l : List LyrNode) : Prop :=
  l.length ≤ d.layers ∧ s.read (at_ (d.headVa p)) 4 = l.length * 2 ^ 24 + firstOf l ∧ Chained s d at_ l

/-- R280: the bitmap bit of a node, and what makes it free. -/
def bitSet (s : State) (d : LyrDesc) (at_ : Word → Nat) (ix : Nat) : Bool := (s.read (at_ (d.mapVa (ix / 64))) 8).testBit (ix % 64)
def FreeNode (s : State) (d : LyrDesc) (at_ : Word → Nat) (ix : Nat) : Prop :=
  ix < 4096 * d.pages ∧ 32 ≤ ix % 4096 ∧ ix ≠ 0xFFFFFF ∧ bitSet s d at_ ix = true

/-- The pieces of a descriptor, of `n` pixels' heads from `p` on, of nodes with their bitmap words, and of the first `w` bitmap words. -/
def lyrPieces (d : LyrDesc) (p n : Nat) (l : List LyrNode) (w : Nat) : List (Word × Nat) :=
  (d.va, 64) :: (List.range n).map (fun i => (d.headVa (p + i), 4)) ++ l.map (fun x => (d.nodeVa x.ix, 16)) ++
    l.map (fun x => (d.mapVa (x.ix / 64), 8)) ++ (List.range w).map fun i => (d.mapVa i, 8)

/-- No byte outside the pieces, no full/empty bit and no context differs. -/
def OnlyPieces (s t : State) (at_ : Word → Nat) (l : List (Word × Nat)) : Prop :=
  (∀ b, (∀ x ∈ l, b < at_ x.1 ∨ at_ x.1 + x.2 ≤ b) → t.byte b = s.byte b) ∧ (∀ b, t.full b = s.full b) ∧ t.ctxs = s.ctxs

/-- R287: a node's depth is not above another's; a NaN never counts. -/
def NotAbove (x : LyrNode) (z : Nat) : Prop := (fp32.decode x.depth).isNaN = false ∧ ¬ Below (fp32.decode z) (fp32.decode x.depth)

/-- R287: a list with a new node after the last one whose depth is not above its own. -/
def PutInto (l : List LyrNode) (x : LyrNode) (l' : List LyrNode) : Prop :=
  ∃ a b, l = a ++ b ∧ l' = a ++ x :: b ∧ (∀ y ∈ a.getLast?, NotAbove y x.depth) ∧ ∀ y ∈ b, ¬ NotAbove y x.depth

/-- R288: the difference of two neighbouring depths; ⊤ stands for +∞. -/
def depthStep (near far : Nat) : WithTop ℚ :=
  let a := fp32.decode near; let b := fp32.decode far
  if a.isNaN || b.isNaN then ⊤ else if a.isInf || b.isInf then (if a = b then 0 else ⊤) else ((valueOf b - valueOf a : ℚ) : WithTop ℚ)

/-- R288: MergeClosest: of the adjacent pairs the first with the least difference becomes one node with the near one's depth, FLAGS bit 0, and the
colour of the rule, told for finite channels and for NaN ones; the far node goes. -/
def Merged (rule : Nat) (l l' : List LyrNode) (gone : LyrNode) : Prop :=
  ∃ a near b new, l = a ++ near :: gone :: b ∧ l' = a ++ new :: b ∧ new.ix = near.ix ∧ new.depth = near.depth ∧ new.flags = near.flags ||| 1 ∧
    (∀ (i : Nat) (y y' : LyrNode), l[i]? = some y → l[i + 1]? = some y' → depthStep near.depth gone.depth ≤ depthStep y.depth y'.depth ∧
      (i < a.length → depthStep near.depth gone.depth < depthStep y.depth y'.depth)) ∧
    (rule = 0 → new.col = near.col) ∧ (rule = 1 ∨ rule = 2 → ∀ i, i < 4 →
      let f := fp16.decode (channel near.col i); let g := fp16.decode (channel gone.col i); let α := fp16.decode (channel near.col 3)
      (f.isNaN ∨ g.isNaN ∨ (rule = 1 ∧ α.isNaN) → channel new.col i = fp16.nan) ∧
      (f.isFin → g.isFin → α.isFin → ∃ v : Fl, v.isFin = true ∧ channel new.col i = fp16.roundSat v ∧
        valueOf v = if rule = 1 then valueOf f + (1 - valueOf α) * valueOf g else valueOf f + valueOf g))

/-- A layer request that its home takes, its descriptor as it stands. -/
structure LayerCall (s : State) (m : Msg) (at_ : Word → Nat) (d : LyrDesc) (op a b : Nat) (frag : List Nat) : Prop where
  arrives : Arriving s m
  body : ∃ desc ft, m.body = .layer op desc ft a b frag ∧ d.va = BitVec.ofNat 64 desc ∧ s.refuses m.dst m.src ft 64 2 = none
  desc : d.va.toNat % 64 = 0 ∧ lyrDesc d.va (s.read (at_ d.va) 64) = .ok d
  form : s.mem.wf = true

/-- R283, R284, R287, R289: FINS: the fragment's node takes the lowest free index and enters its pixel's list, with code 0; where that passes L, the
closest pair is merged and its far node freed, with code 1; where no node is free and MOE is set, a pair is merged first and the freed node taken,
with code 2, or the fragment is dropped with code 3 for a list of less than two; without MOE it traps POOL; a NaN depth is dropped with code 4. That
rule 0 keeps the near colour for NaN and infinite channels too is the model's reading (log 76). -/
def FinsInsertsItsFragment : Prop :=
  ∀ (s : State) (m : Msg) (at_ : Word → Nat) (d : LyrDesc) (p z col x : Nat) (l : List LyrNode), LayerCall s m at_ d 0 p 0 [z + col * 2 ^ 32] →
    z < 2 ^ 32 → col < 2 ^ 64 → p < d.w * d.h → ListIs s d at_ p l → let i := Instr.layerRequest m.id
    let node : LyrNode := { ix := x, depth := z, col := col, next := 0, flags := 0 }
    let put := fun n code (l' : List LyrNode) (set : Nat → Prop) => ∃ t, exec i s = .next t ∧ Replied t m (.reply (n * 256 + code)) ∧
      ListIs t d at_ p l' ∧ (∀ y, y / 64 ≤ x / 64 ∨ (∃ k ∈ l, y / 64 = k.ix / 64) → (bitSet t d at_ y = true ↔ set y)) ∧
      OnlyPieces s t at_ (lyrPieces d p 1 (node :: l) 0)
    let all := 64 * d.pages; let none_ := ∀ y, ¬ FreeNode s d at_ y; let num := (fp32.decode z).isNaN = false
    (num → FreeNode s d at_ x → (∀ y, y < x → ¬ FreeNode s d at_ y) → (∀ k ∈ l, k.ix ≠ x) → Pieces s m at_ (lyrPieces d p 1 (node :: l) (x / 64)) →
      (l.length < d.layers → ∃ l', PutInto l node l' ∧ put (l.length + 1) 0 l' fun y => bitSet s d at_ y = true ∧ y ≠ x) ∧
      (l.length = d.layers → ∃ l1 l' gone, PutInto l node l1 ∧ Merged d.rule l1 l' gone ∧
        put l.length 1 l' fun y => (bitSet s d at_ y = true ∧ y ≠ x) ∨ y = gone.ix)) ∧
    (num → none_ → Pieces s m at_ (lyrPieces d p 1 l all) →
      (d.moe = false → JustAnswers i s m (.nack cPOOL d.va)) ∧
      (d.moe = true → l.length < 2 → JustAnswers i s m (.reply (l.length * 256 + 3))) ∧
      (d.moe = true → 2 ≤ l.length → ∃ l1 l' gone, Merged d.rule l l1 gone ∧
        (x = gone.ix → PutInto l1 node l' ∧ put l.length 2 l' fun y => bitSet s d at_ y = true ∧ y ≠ x))) ∧
    (¬ num → Pieces s m at_ (lyrPieces d p 1 l 0) → JustAnswers i s m (.reply (l.length * 256 + 4)))

/-- R283, R284, R290: LRES and LCLR of one pixel or more: LRES writes each pixel's composited list to its output; both free every node of the lists,
leave the empty head, and answer with the nodes freed; a span past the end traps ILLEGAL, and none of no pixel does anything. -/
def SpansAreResolvedAndCleared : Prop :=
  ∀ (s : State) (m : Msg) (at_ : Word → Nat) (d : LyrDesc) (res : Bool) (f n : Nat) (l : Nat → List LyrNode),
    LayerCall s m at_ d (if res then 1 else 2) f n [] → let i := Instr.layerRequest m.id; let ps := (List.range n).map (f + ·)
    let out := fun p => (addN d.out (d.outSize * p), d.outSize)
    let ls := lyrPieces d f n (ps.flatMap l) 0 ++ if res then ps.map out else []
    (0 < n → f + n ≤ d.w * d.h → (∀ p ∈ ps, ListIs s d at_ p (l p)) → Pieces s m at_ ls → ∃ t, exec i s = .next t ∧
      Replied t m (.reply ((ps.map fun p => (l p).length).sum)) ∧ OnlyPieces s t at_ ls ∧ (∀ p ∈ ps, t.read (at_ (d.headVa p)) 4 = 0xFFFFFF) ∧
      (∀ p ∈ ps, ∀ k ∈ l p, t.read (at_ (d.nodeVa k.ix)) 16 = s.read (at_ (d.nodeVa k.ix)) 16 ∧
        ∀ y, y / 64 = k.ix / 64 → (bitSet t d at_ y = true ↔ bitSet s d at_ y = true ∨ ∃ q ∈ ps, ∃ j ∈ l q, y = j.ix)) ∧
      (res = true → ∀ p ∈ ps, ∀ c, c < 4 → t.read (at_ (out p).1 + c * (d.outSize / 4)) (d.outSize / 4) =
        outChannel d.ofmt ((composite d.rule (l p)).getD c 0))) ∧
    (Pieces s m at_ [(d.va, 64)] → (n = 0 → JustAnswers i s m (.reply 0)) ∧
      (0 < n → d.w * d.h < f + n → JustAnswers i s m (.nack cILLEGAL (d.headVa f))))

/-- R290: Comp and the output formats. An empty list is transparent black; each node joins the channels before it by the rule, exactly and rounded
once; RGBA8 takes the nearest of 255 steps, the ends beyond them and 0 for a NaN; RGBA16F rounds with saturation; RGBA32F keeps the channel. -/
def CompositingFollowsItsRule : Prop :=
  ∀ (rule : Nat) (l : List LyrNode) (x : LyrNode) (c : Nat), rule ≤ 2 → c < 4 → composite rule [] = [0, 0, 0, 0] ∧
    let acc := composite rule l; let r := (composite rule (l ++ [x])).getD c 0
    let a := fp32.decode (acc.getD c 0); let α := fp32.decode (acc.getD 3 0); let k := fp16.decode (channel x.col c)
    let rounds := fun q => ∃ v : Fl, v.isFin = true ∧ valueOf v = q ∧ r = (fp32.round 0 v).1
    (rule = 0 → (l = [] → (k.isNaN → r = fp32.nan) ∧ (k.isFin → rounds (valueOf k))) ∧ (l ≠ [] → r = acc.getD c 0)) ∧
    (rule = 1 → (a.isNaN ∨ α.isNaN ∨ k.isNaN → r = fp32.nan) ∧ (a.isFin → α.isFin → k.isFin → rounds (valueOf a + (1 - valueOf α) * valueOf k))) ∧
    (rule = 2 → (a.isNaN ∨ k.isNaN → r = fp32.nan) ∧ (a.isFin → k.isFin → rounds (valueOf a + valueOf k))) ∧
    ∀ y, let w := fp32.decode y; outChannel 2 y = y ∧ outChannel 1 y = fp16.roundSat w ∧ (w.isNaN → outChannel 0 y = 0) ∧
      (w.isFin → (valueOf w ≤ 0 → outChannel 0 y = 0) ∧ (1 ≤ valueOf w → outChannel 0 y = 255) ∧
        (0 < valueOf w → valueOf w < 1 → RoundsTo 0 (255 * valueOf w) (outChannel 0 y)))

/-- R292: LPOOL: 1 where a node is free; 2 where the pool has 4,096 pages or the next page has no NORMAL mapping with R and W at the home; else it
writes the next page's bitmap, every slot free but the 32 it stands in and the last of all, and counts the page. -/
def PoolsGrowByOnePage : Prop :=
  ∀ (s : State) (m : Msg) (at_ : Word → Nat) (d : LyrDesc) (x : Nat), LayerCall s m at_ d 4 0 0 [] →
    let i := Instr.layerRequest m.id; let va := addN d.pool (65536 * d.pages); let none_ := ∀ y, ¬ FreeNode s d at_ y
    let there := fun (p : PageEntry) => p.kind = 0 ∧ p.r = true ∧ p.w = true ∧ faSp (p.fa va) = m.dst
    (FreeNode s d at_ x → (∀ y, y < x → ¬ FreeNode s d at_ y) → Pieces s m at_ (lyrPieces d 0 0 [] (x / 64 + 1)) → JustAnswers i s m (.reply 1)) ∧
    (none_ → Pieces s m at_ (lyrPieces d 0 0 [] (64 * d.pages)) →
      (d.pages = 4096 ∨ (∀ p, s.walkJob m.job va = some p → ¬ there p) → JustAnswers i s m (.reply 2))) ∧
    (none_ → d.pages < 4096 → Pieces s m at_ ((va, 512) :: lyrPieces d 0 0 [] (64 * d.pages)) → let fa := at_ va
      ∃ t, exec i s = .next t ∧ Replied t m (.reply 0) ∧ t.read (at_ d.va + 28) 2 = d.pages + 1 ∧
        (∀ k, k < 4096 → ((t.read (fa + 8 * (k / 64)) 8).testBit (k % 64) = true ↔ 32 ≤ k ∧ ¬ (d.pages = 4095 ∧ k = 4095))) ∧
        (∀ y, y < fa ∨ fa + 512 ≤ y → y < at_ d.va + 28 ∨ at_ d.va + 30 ≤ y → t.byte y = s.byte y) ∧ (∀ y, t.full y = s.full y) ∧ t.ctxs = s.ctxs)

/-- R277, R281, R283, R284, R291: LCNT tells the layers of a pixel. A layer operation that its home turns down traps at its issuer with none of its
effect: a field of the descriptor or a pixel number out of range, and a head of more layers than the target has, ILLEGAL; a descriptor that no page
maps, XLATE. -/
def LayerChecksComeFirst : Prop :=
  ∀ (s : State) (m : Msg) (at_ : Word → Nat) (d : LyrDesc) (op p b : Nat) (frag : List Nat) (l : List LyrNode), let i := Instr.layerRequest m.id
    (LayerCall s m at_ d 3 p 0 [] → p < d.w * d.h → ListIs s d at_ p l → Pieces s m at_ (lyrPieces d p 1 l 0) →
      JustAnswers i s m (.reply l.length)) ∧
    (LayerCall s m at_ d op p b frag → op = 0 ∨ op = 3 →
      (Pieces s m at_ [(d.va, 64)] → d.w * d.h ≤ p → JustAnswers i s m (.nack cILLEGAL d.va)) ∧
      (Pieces s m at_ (lyrPieces d p 1 [] 0) → p < d.w * d.h → d.layers < s.read (at_ (d.headVa p)) 4 / 2 ^ 24 →
        JustAnswers i s m (.nack cILLEGAL (d.headVa p)))) ∧
    (∀ desc ft, Arriving s m → m.body = .layer op desc ft p b frag → s.refuses m.dst m.src ft 64 2 = none → let va := BitVec.ofNat 64 desc
      (s.walkJob m.job va = none → JustAnswers i s m (.nack cXLATE va)) ∧
      (Pieces s m at_ [(va, 64)] → lyrDesc va (s.read (at_ va) 64) = .error (.trap cILLEGAL va) → JustAnswers i s m (.nack cILLEGAL va)) ∧
      ∀ cause addr, ({ job := m.job, home := m.dst, who := m.who } : LyrEnv).perform s op va p b frag = .error (.trap cause addr) →
        JustAnswers i s m (.nack cause addr))

end Sys2Proof.Claims

/-- The layer forms ask their target's home, which performs them. -/
def Obligations.LayerFormsAskTheirTarget : Prop :=
  LayerFormsAsk ∧ FinsInsertsItsFragment ∧ SpansAreResolvedAndCleared ∧ CompositingFollowsItsRule ∧ PoolsGrowByOnePage ∧ LayerChecksComeFirst

namespace Sys2Proof.Claims

/-- R22, R116, R120, R121, R124, R132, R136, R303: an answer ends the wait of its context, a loaded value extended as the form says; one for a REL
operation takes it off the outstanding ones and fills its pending register. DRAIN waits for the last of its answers, and traps FENCED after it where
a publisher was fenced; CPGO with EMPTY-ON-ISSUE goes on with the id once every word is acknowledged. -/
def AnswersEndWaits : Prop :=
  ∀ (s : State) (m : Msg) (v n : Nat) (d : Reg) (sx : Bool), Arriving s m → let k := m.key; let c := s.ctx k
    (s.relOf m = none → s.awaits m = true → s.emptier m.tok = none →
      (n ∈ [1, 2, 4, 8] → v < 256 ^ n → m.body = .reply v → ∃ t, exec (.replyArrival m.id) s = .next t ∧
        (c.kont = .load d n sx → WaitEnds s t k fun c => c.setReg d (widen sx n v)) ∧
        (c.kont = .atomic d n sx → WaitEnds s t k fun c => c.setReg d (widen (!sx) n v)) ∧
        (c.kont = .value d → WaitEnds s t k fun c => c.setReg d (BitVec.ofNat 64 v))) ∧
      (m.body = .ack → c.kont = .advance → ∃ t, exec (.replyArrival m.id) s = .next t ∧ WaitEnds s t k id) ∧
      (∀ q f, m.body = .ack → c.kont = .drain q f → ∃ t, exec (.replyArrival m.id) s = .next t ∧
        (1 < q → t.ctx k = { c with kont := .drain (q - 1) f } ∧ SameMemory s t ∧ ∀ x, x ≠ k → t.ctx x = s.ctx x) ∧
        (q = 1 → f = false → WaitEnds s t k id) ∧ (q = 1 → f = true → HandledAt s k → Freezes s t k cFENCED 0))) ∧
    (∀ x, m.body = .ack → s.emptier m.tok = some x → (s.engine x.engine).cmds.find? (fun y => y.id == x.id) = some x → x.acksLeft = 1 →
      (s.job x.job).phase ≠ .out → (s.ctx x.key).st = .parked → (s.ctx x.key).kont = .emptied d x.id → ∃ t, exec (.replyArrival m.id) s = .next t ∧
        WaitEnds s t x.key (fun c => c.setReg d (BitVec.ofNat 64 x.id)) ∧ ∀ y ∈ (t.engine x.engine).cmds, y.id = x.id → y.emptying = false) ∧
    (∀ o, s.relOf m = some o → (m.body = .reply v ∨ (m.body = .ack ∧ o.dest = none)) → ∃ t, exec (.relAck m.id) s = .next t ∧
      (t.ctx k).rels = c.rels.filter (fun x => x.tok != o.tok) ∧ SameMemory s t ∧ (∀ x, x ≠ k → t.ctx x = s.ctx x) ∧
      (o.dest = none → (t.ctx k).g = c.g) ∧
      (∀ w, n ∈ [1, 2, 4, 8] → v < 256 ^ n → o.dest = some (d, n, sx, w) → (t.ctx k).g = (c.setReg d (widen sx n v)).g))

/-- R114, R123, R143, R182, R329: a refusal makes its context trap precisely, or leaves a deferred trap where the operation was a REL one; one after
the commit of PDONE is no trap. A message that was refused is sent again once its time has come, the time limit of a context that waits for its
answer starting anew. A request, a REL operation among them, of which no message is on its way any more traps TIMEOUT 2^30 cycles after it was last
sent; that one whose message is still on its way does not is the model's reading (log 109). -/
def RefusalsTrap : Prop :=
  ∀ (s : State) (m : Msg) (cause : Nat) (addr : Word), let k := m.key; let c := s.ctx k
    (Arriving s m → m.body = .nack cause addr →
      (s.relOf m = none → s.awaits m = true → s.emptier m.tok = none →
        (c.kont = .commit 1 → ∃ t, exec (.nackRefusal m.id) s = .next t ∧ WaitEnds s t k id ∧ (t.ctx k).pairtask = false ∧ (t.ctx k).task = none) ∧
        (HandledAt s k → (c.kont = .advance ∨ (∃ d n sx, c.kont = .load d n sx) ∨ ∃ d, c.kont = .value d) →
        ∃ t, exec (.nackRefusal m.id) s = .next t ∧ Freezes s t k cause addr)) ∧
      (∀ o, s.relOf m = some o → ∃ t, exec (.nackRefusal m.id) s = .next t ∧ SameMemory s t ∧ (∀ x, x ≠ k → t.ctx x = s.ctx x) ∧
        (t.ctx k).deferred = c.deferred ++ [{ cause := cause, addr := o.va, pc := o.pc, defer := true }] ∧
        (t.ctx k).rels = c.rels.filter (fun x => x.tok != o.tok) ∧ (t.ctx k).g = c.g)) ∧
    (s.msgs.find? (fun x => x.id == m.id) = some m → m.notBefore ≠ 0 → m.notBefore ≤ s.now → (∀ g, m.body ≠ .migrate g) →
      (∀ a b c d, m.body ≠ .nackBusy a b c d) → ∃ t, exec (.nackBusyResend m.id) s = .next t ∧ { t with msgs := s.msgs, ctxs := s.ctxs } = s ∧
        { m with notBefore := 0 } ∈ t.msgs ∧ t.msgs.map (·.id) = s.msgs.map (·.id) ∧ (∀ x ∈ s.msgs, x.id ≠ m.id → x ∈ t.msgs) ∧
        (∀ q, { t.ctx q with sentAt := (s.ctx q).sentAt, rels := (s.ctx q).rels } = s.ctx q ∧ (q ≠ m.asker → t.ctx q = s.ctx q)) ∧
        (m.tok ≠ 0 → ((s.ctx m.asker).tok = m.tok → (t.ctx m.asker).sentAt = s.now) ∧
          (t.ctx m.asker).rels = (s.ctx m.asker).rels.map fun o => if o.tok = m.tok then { o with sentAt := s.now } else o)) ∧
    (∀ sp n, n < 16 → let q := keyOf sp n; let x := s.ctx q
      let i := Instr.requestTimeout sp n
      x.st = .parked → x.park = 1 ∨ x.park = 2 → HandledAt s q →
      (x.bounded = true → x.waitToks = [] → (∀ o ∈ x.rels, o.tok ≠ x.tok) →
        (x.sentAt + 2 ^ 30 ≤ s.now → s.onWay x.tok = false → ∃ t, exec i s = .next t ∧ Freezes s t q cTIMEOUT x.reqVa) ∧
        (s.now < x.sentAt + 2 ^ 30 ∨ s.onWay x.tok = true → exec i s = .next s)) ∧
      (∀ o, x.bounded = false → x.rels = [o] → x.waitToks = [o.tok] →
        (o.sentAt + 2 ^ 30 ≤ s.now → s.onWay o.tok = false → ∃ t, exec i s = .next t ∧ Freezes s t q cTIMEOUT o.va ∧ (t.ctx q).rels = []) ∧
        (s.now < o.sentAt + 2 ^ 30 ∨ s.onWay o.tok = true → exec i s = .next s)))

/-- R108, R110: the end of a page walk puts the page that the tables hold at the head of the spindle's TLB and lets the unit issue again, or traps
XLATE at the address that was asked for. -/
def WalksFillTheTlb : Prop :=
  ∀ (s : State) (sp n : Nat) (w : WalkReq), n < 16 → let k := keyOf sp n; let cl := clusterOf sp; let c := s.ctx k
    ((s.cluster cl).walks.take walkSlots).find? (fun x => x.key == k) = some w →
    (∀ p, s.walkJob (s.jobNoAt sp) w.va = some p → c.st = .parked → ∃ t, exec (.pageWalkDone sp n) s = .next t ∧ SameMemory s t ∧
      (∃ l, (t.spindle sp).tlb = { job := s.jobNoAt sp, vpn := w.va.toNat / 2 ^ 16, page := p } :: l ∧ l.length ≤ 63) ∧
      (t.cluster cl).walks = (s.cluster cl).walks.erase w ∧ (t.ctx k).st = .ready ∧ (t.ctx k).pc = c.pc ∧ (t.ctx k).g = c.g ∧
      ∀ x, x ≠ k → t.ctx x = s.ctx x) ∧
    (s.walkJob (s.jobNoAt sp) w.va = none → HandledAt s k → ∃ t, exec (.pageWalkDone sp n) s = .next t ∧ Freezes s t k cXLATE w.va)

/-- R86, R140, R342: SLEEP ends at its cycle, RECVT's timeout writes 0 to its count register; neither while the front logs of a job that resumes are
being delivered. -/
def TimedWaitsEnd : Prop :=
  ∀ (s : State) (sp n c : Nat) (d : Reg), n < 16 → let k := keyOf sp n; let x := s.ctx k
    (x.park = 12 → x.kont = .advance → x.wakeAt = some c →
      (c ≤ s.now + 1 → s.counts k = true → ∃ t, exec (.sleepExpiry sp n) s = .next t ∧ WaitEnds s t k id) ∧
      (s.now + 1 < c ∨ s.counts k = false → exec (.sleepExpiry sp n) s = .next s)) ∧
    (∀ a b, x.park = 3 → x.wakeAt = some c → decodeWords x.unit.words = some (.recvt a b d) →
      (c ≤ s.now → s.counts k = true → ∃ t, exec (.recvtTimeout sp n) s = .next t ∧ WaitEnds s t k fun x => x.setReg d 0) ∧
      (s.now < c ∨ s.counts k = false → exec (.recvtTimeout sp n) s = .next s))

end Sys2Proof.Claims

/-- R22, R86, R108, R110, R114, R116, R120 to R124, R132, R136, R140, R143, R182, R303, R329, R342: how the wait of a context ends. -/
def Obligations.WaitsEndAsTheirAnswersSay : Prop := AnswersEndWaits ∧ RefusalsTrap ∧ WalksFillTheTlb ∧ TimedWaitsEnd

namespace Sys2Proof.Claims

/-- R34 to R38: a migration message finds a FREE context of its home, where no other thread waits: the thread goes on there with what it carries, its
load performed, and the answer is ACCEPT; with no place left, the answer is NACK busy and the message is kept. That the context is the
lowest-numbered FREE one is the model's choice (log 83), that a kept thread takes the home's job is another (log 84), and that its source holds a
refused message aside is a third (log 30). -/
def MigrantsArrive : Prop :=
  ∀ (s : State) (m : Msg) (g : Migrant) (n : Nat), Arriving s m → m.body = .migrate g → g.carries = true → g.kind = 0 →
    s.windowOk m.dst m.src g.fa g.n 3 = true → s.poisoned g.fa g.n = false → g.n ∈ [1, 2, 4, 8] →
    let p := s.spindle m.dst; let k := keyOf m.dst n
    let free := fun i => (s.ctx (keyOf m.dst i)).st = .free
    (p.migBuf = [] → p.migRes = [] → 1 ≤ n → n ≤ 15 → free n → (∀ i, 1 ≤ i → i < n → ¬ free i) → ∃ t, exec (.migrationMessage m.id) s = .next t ∧
      (t.ctx k).st = .ready ∧ (t.ctx k).pc = g.image.pc ∧ (t.ctx k).g = (g.image.setReg g.d (widen g.sx g.n (s.read g.fa g.n))).g ∧
      (t.ctx k).thidx = g.image.thidx ∧ (t.ctx k).pretag = g.image.pretag ∧ (∀ x, x ≠ k → t.ctx x = s.ctx x) ∧ SameMemory s t ∧
      Answered s t m (.migAnswer migAccept)) ∧
    (p.migRes = [] → p.migBuf.length < 16 → (p.migBuf ≠ [] ∨ ∀ i, 1 ≤ i → i ≤ 15 → ¬ free i) → ∃ t, exec (.migrationMessage m.id) s = .next t ∧
      (t.spindle m.dst).migBuf = p.migBuf ++ [{ g with job := s.jobNoAt m.dst }] ∧ SameMemory s t ∧ t.ctxs = s.ctxs ∧
      Answered s t m (.migAnswer migAccept)) ∧
    (p.migRes ≠ [] → s.reserveSize m.dst ≤ p.migRes.length → ∃ t, exec (.migrationMessage m.id) s = .next t ∧ SameMemory s t ∧ t.ctxs = s.ctxs ∧
      Replied t m (.migAnswer migBusy) ∧ ∃ x ∈ t.msgs, x.body = .migrate g ∧ s.now < x.notBefore)

/-- R35, R38: the answer to a departing thread: ACCEPT frees its context, whose words take their defaults (log 107); NACK for a window or a fence
traps it; NACK busy sends the message again 1,024 cycles later. -/
def DepartingThreadsLearn : Prop :=
  ∀ (s : State) (m : Msg) (code : Nat), Arriving s m → m.body = .migAnswer code → let k := m.key; let c := s.ctx k
    c.st = .departing → c.tok = m.tok →
    (code = migAccept → s.ctxs.any (fun e => e.1 != k && e.2.st != .free && !e.2.handler &&
        (s.spindle (keySp e.1)).job == some (s.jobNoAt m.dst)) = true → ∃ t, exec (.migrationAnswer m.id) s = .next t ∧
      t.ctx k = { lastIssue := c.lastIssue } ∧ (∀ x, x ≠ k → t.ctx x = s.ctx x) ∧ SameMemory s t) ∧
    (HandledAt s k → (code = migFence → ∃ t, exec (.migrationAnswer m.id) s = .next t ∧ Freezes s t k cFENCED m.va) ∧
      (code = migWindow → ∃ t, exec (.migrationAnswer m.id) s = .next t ∧ Freezes s t k cWINDOW m.va)) ∧
    (code = migBusy → ∃ t, exec (.migrationAnswer m.id) s = .next t ∧ t.ctxs = s.ctxs ∧ SameMemory s t ∧
      ∀ x ∈ s.msgs, x.id ≠ m.id → x.tok = m.tok → x.src = m.dst → x.notBefore ≠ 0 → { x with notBefore := s.now + 1024 } ∈ t.msgs)

/-- R35: the kept message goes out again once its time has come, and not before. -/
def MigrantsAreSentAgain : Prop :=
  ∀ (s : State) (sp n : Nat) (m : Msg), let kept := fun (x : Msg) => (∃ g, x.body = .migrate g) ∧ x.src = sp ∧ x.ctx = n ∧ x.notBefore ≠ 0
    (m ∈ s.msgs → kept m → m.notBefore ≤ s.now → (∀ x ∈ s.msgs, kept x → x.notBefore ≤ s.now → x = m) →
      ∃ t, exec (.migrationResend sp n) s = .next t ∧ OnlyMessages s t ∧ t.msgs = without s m ++ [{ m with id := s.nextMsg, notBefore := 0 }]) ∧
    ((∀ x ∈ s.msgs, kept x → s.now < x.notBefore) → exec (.migrationResend sp n) s = .next s)

/-- R37: a context that is FREE, the lowest-numbered one (log 83), admits the thread that has waited longest, whose load is performed. -/
def WaitingThreadsAreAdmitted : Prop :=
  ∀ (s : State) (sp n : Nat) (g : Migrant) (l : List Migrant), (s.spindle sp).migBuf = g :: l → (s.spindle sp).migRes = [] →
    g.carries = true → g.kind = 0 → s.poisoned g.fa g.n = false → g.n ∈ [1, 2, 4, 8] → 1 ≤ n → n ≤ 15 →
    let free := fun i => (s.ctx (keyOf sp i)).st = .free; let k := keyOf sp n
    free n → (∀ i, 1 ≤ i → i < n → ¬ free i) → ∃ t, exec (.migrantAdmission sp) s = .next t ∧ (t.spindle sp).migBuf = l ∧
      (t.ctx k).st = .ready ∧ (t.ctx k).pc = g.image.pc ∧ (t.ctx k).g = (g.image.setReg g.d (widen g.sx g.n (s.read g.fa g.n))).g ∧
      (∀ x, x ≠ k → t.ctx x = s.ctx x) ∧ SameMemory s t

/-- R30: an exit notice leaves the status at the birth spindle, for REAP; the keeper goes on if it waits for that thread. -/
def ExitNoticesAreKept : Prop :=
  ∀ (s : State) (m : Msg) (th st : Nat), Arriving s m → m.body = .exitNotice th st → let b := (s.job m.job).rect.spindle (th / 16)
    ∃ t, exec (.exitNotice m.id) s = .next t ∧ Table.find (t.spindle b).exits (th % 16) = some st ∧ SameMemory s t ∧ t.msgs = without s m ∧
      (∀ x, x ≠ keyOf b 0 → t.ctx x = s.ctx x) ∧ ((s.ctx (keyOf b 0)).park = 11 → (s.ctx (keyOf b 0)).st = .parked → (s.ctx (keyOf b 0)).waitsOn (th % 16) = true →
        (t.ctx (keyOf b 0)).st = .ready) ∧
      ((s.ctx (keyOf b 0)).waitsOn (th % 16) = false → t.ctx (keyOf b 0) = s.ctx (keyOf b 0))

end Sys2Proof.Claims

/-- R30, R34 to R38: migration at both ends, and exit notices. Which FREE context a migrant enters, whose job a kept one takes, how a refused message
is held and what a freed context's words become are the model's choices (logs 83, 84, 30, 107). -/
def Obligations.ThreadsArriveAndLeave : Prop :=
  MigrantsArrive ∧ DepartingThreadsLearn ∧ MigrantsAreSentAgain ∧ WaitingThreadsAreAdmitted ∧ ExitNoticesAreKept

/-! ### Subscriptions, channels, barriers, tasks and the loom, as their messages and steps arrive -/

namespace Sys2Proof.Claims

/-- R147, R148: a publisher takes a subscription that its windows admit and sends every line of the region with full masks, in order; it answers
WINDOW, ILLEGAL or CHANNEL otherwise. That an overlap with a copy region is answered ILLEGAL even where the table is full is the model's choice (log
111). -/
def PublishersSubscribe : Prop :=
  ∀ (s : State) (m : Msg) (base len copy : Nat), Arriving s m → m.body = .subReq base len copy → let i := Instr.subscriptionRequest m.id
    let p := s.spindle m.dst; let ok := s.windowOk m.dst m.src base len 0
    let clash := p.copies.any fun e => rangesMeet base len e.base e.len
    (ok = false → JustAnswers i s m (.subAnswer 2)) ∧ (ok = true → clash = true → JustAnswers i s m (.subAnswer 4)) ∧
    (ok = true → clash = false → 16 ≤ p.pubs.length → JustAnswers i s m (.subAnswer 3)) ∧
    (ok = true → clash = false → p.pubs.length < 16 → ∃ t, exec i s = .next t ∧ SameMemory s t ∧ t.ctxs = s.ctxs ∧
      (∃ e ∈ (t.spindle m.dst).pubs, e.base = base ∧ e.len = len ∧ e.subSp = m.src ∧ e.copyBase = copy ∧ e.susp = false) ∧
      ∀ l, l < len / 64 → BatchSent s t m.dst { base := base, len := len, subSp := m.src, copyBase := copy } (base + 64 * l) (2 ^ 64 - 1) 0xFF
        (l + 1 == len / 64))

/-- R149: an open batch is sent 32 cycles after it opened, not before; it is open no more. -/
def BatchesCloseInTime : Prop :=
  ∀ (s : State) (sp line : Nat), let i := Instr.batchCloseTimeout sp line
    ((∀ e ∈ (s.spindle sp).pubs, ∀ b ∈ e.open_, b.line = line → s.now < b.opened + 32) → exec i s = .next s) ∧
    (∀ e ∈ (s.spindle sp).pubs, ∀ b ∈ e.open_, b.line = line → b.opened + 32 ≤ s.now → ∃ t, exec i s = .next t ∧ SameMemory s t ∧ t.ctxs = s.ctxs ∧
      BatchSent s t sp e line b.bytes b.fes false ∧
      ∀ x ∈ (t.spindle sp).pubs, ∀ y ∈ x.open_, y.line = line → s.now < y.opened + 32)

/-- R150: a batch is applied at the subscriber's bank: the bytes and the full/empty bits that its masks name take the values it carries, every other
byte and bit is as before; it is acknowledged. Told where no word of the line is poisoned. -/
def BatchesAreApplied : Prop :=
  ∀ (s : State) (m : Msg) (line bytes fes fev : Nat) (data : List Nat) (entry : Nat) (ws : List Nat) (last : Bool), Arriving s m →
    m.body = .batch line bytes fes fev data entry ws last → s.mem.wf = true → line % 64 = 0 → (∀ i, i < 8 → NoWaiter s (line + 8 * i)) →
    (∀ i, i < 8 → s.poison.contains (line + 8 * i) = false) →
    ∃ t, exec (.batchApply m.id) s = .next t ∧ Replied t m (.batchAck entry m.id) ∧
      (∀ i j, i < 8 → j < 8 → t.byte (line + 8 * i + j) =
        if bytes.testBit (8 * i + j) then BitVec.ofNat 8 (data.getD i 0 / 256 ^ j) else s.byte (line + 8 * i + j)) ∧
      (∀ a, a < line ∨ line + 64 ≤ a → t.byte a = s.byte a ∧ t.full a = s.full a) ∧
      (∀ i, i < 8 → t.full (line + 8 * i) = if fes.testBit i then fev.testBit i else s.full (line + 8 * i))

/-- R135, R150, R156: an acknowledgement ends its batch and lets FENCE test again; a refusal by a fenced subscriber removes the entry and sets SUBERR
in context 0 of the publisher. -/
def BatchAnswersAreTaken : Prop :=
  ∀ (s : State) (m : Msg) (entry id : Nat), Arriving s m → let p := s.spindle m.dst
    (m.body = .batchAck entry id → ∃ t, exec (.batchAck m.id) s = .next t ∧ SameMemory s t ∧ t.msgs = without s m ∧
      (t.spindle m.dst).pubs = p.pubs.map (fun e => { e with unacked := e.unacked.filter fun u => u.1 != id }) ∧
      ∀ k c, Table.find s.ctxs k = some c → c.st = .parked → c.park = 2 → c.kont = .reissue → c.tok = 0 → c.waitToks = [] →
        t.batchesOf (whoOf (s.jobNoAt (keySp k)) c.thidx) = false → (t.ctx k).st = .ready) ∧
    (m.body = .batchNack entry → ∃ t, exec (.batchNack m.id) s = .next t ∧ SameMemory s t ∧
      (t.spindle m.dst).pubs = p.pubs.filter (fun e => !(e.base == entry && e.subSp == m.src)) ∧
      ((∃ e ∈ p.pubs, e.base = entry ∧ e.subSp = m.src) →
        (t.ctx (keyOf m.dst 0)).fstat = (s.ctx (keyOf m.dst 0)).fstat ||| BitVec.ofNat 64 flSUBERR))

/-- R136, R152: SUBOFF and a drain at the publisher: the entry's open batches are sent, the answer follows them; SUBOFF frees the entry, in the table
saved of a job that is switched out as well. -/
def PublishersDrain : Prop :=
  ∀ (s : State) (m : Msg) (base copy : Nat), Arriving s m → let mine := fun (e : PubEntry) => e.base = base ∧ e.copyBase = copy
    let sent := fun (t : State) => ∀ e ∈ (s.spindle m.dst).pubs, mine e → ∀ b ∈ e.open_, BatchSent s t m.dst e b.line b.bytes b.fes false
    (m.body = .subRemove base copy → ∃ t, exec (.subscriptionRemoval m.id) s = .next t ∧ SameMemory s t ∧ t.ctxs = s.ctxs ∧ Replied t m .ack ∧
      sent t ∧ (∀ e ∈ (t.spindle m.dst).pubs, mine e → e.subSp = m.src → e.subJob ≠ m.job) ∧
      ∀ j jb, Table.find t.jobs j = some jb → ∀ x ∈ jb.saved, x.sp = m.dst → ∀ e ∈ x.state.pubs, mine e → e.subSp = m.src → e.subJob ≠ m.job) ∧
    (m.body = .drainReq base copy → ∃ t, exec (.drainRequest m.id) s = .next t ∧ SameMemory s t ∧ t.ctxs = s.ctxs ∧ Replied t m .ack ∧
      sent t ∧ ∀ e ∈ (t.spindle m.dst).pubs, mine e → e.open_ = [])

end Sys2Proof.Claims

/-- R135, R136, R147 to R150, R152, R156: subscriptions at both ends. That a publisher answers an overlap before a full table is the model's choice
(log 111). -/
def Obligations.SubscriptionsForwardTheirLines : Prop :=
  PublishersSubscribe ∧ BatchesCloseInTime ∧ BatchesAreApplied ∧ BatchAnswersAreTaken ∧ PublishersDrain

namespace Sys2Proof.Claims

/-- R139: a message enters the reader's buffers and wakes a reader that waits on the channel; a credit returns to the writer and wakes one that waits
for it. -/
def ChannelsCarryMessagesAndCredits : Prop :=
  ∀ (s : State) (m : Msg) (ch : Nat) (ws : List Word) (jb : Job) (c : Chan), Arriving s m → Table.find s.jobs m.job = some jb → ch < 0xFFF →
    Table.find jb.chans ch = some c →
    let after := fun (i : Instr) (new : Chan) (who why : Nat) => ∃ t, exec i s = .next t ∧ SameMemory s t ∧ t.msgs = without s m ∧
      Table.find (t.job m.job).chans ch = some new ∧ (∀ x, x ≠ ch → Table.find (t.job m.job).chans x = Table.find jb.chans x) ∧
      (∀ k, s.findThread m.job who = some k → (s.ctx k).park = why → (s.ctx k).waitsOn ch = true → (s.ctx k).st = .parked → (t.ctx k).st = .ready) ∧
      ∀ k, s.findThread m.job who ≠ some k → t.ctx k = s.ctx k
    (m.body = .chan ch ws → after (.channelMessage m.id) { c with buf := c.buf ++ [ws], narrived := c.narrived + 1 } c.reader 3) ∧
    (m.body = .credit ch → after (.creditReturn m.id) { c with credit := c.credit + 1 } c.writer 4)

/-- R46, R90, R196: a phase completes once every member has arrived or exited, no REL operation and no update from before is outstanding: the phase
number rises by one and the members that wait for it go on; until then nothing happens. That a phase with nobody arrived does not complete, and that
an index started anew counts as exited, are the model's choices (logs 85, 82). -/
def PhasesComplete : Prop :=
  ∀ (s : State) (j g : Nat) (jb : Job), Table.find s.jobs j = some jb → let i := Instr.phaseComplete j g
    jb.phase = .running ∨ jb.phase = .preempting → g ∉ jb.merging → (jb.phaseFull g = false → exec i s = .next s) ∧ (s.relLeft j g = true → exec i s = .next s) ∧
    (jb.phaseFull g = true → s.relLeft j g = false → (s.closeJob j).updateLeft j g = false → (jb.arrivalsNow g).any (·.ply) = false →
      ∃ t, exec i s = .next t ∧ SameMemory s t ∧ Table.find (t.job j).phases g = some (jb.ph g + 1) ∧
        ∀ k c, Table.find s.ctxs k = some c →
          ((c.st = .parked ∧ c.park = 10 ∧ c.got = [(g, jb.ph g)] ∧ s.jobNoAt (keySp k) = j) →
            (t.ctx k).st = .ready ∧ (t.ctx k).pc = c.unit.next ∧ (t.ctx k).g = c.g) ∧
          (¬ (c.st = .parked ∧ c.park = 10 ∧ c.got = [(g, jb.ph g)] ∧ s.jobNoAt (keySp k) = j) → t.ctx k = c))

/-- R90, R162, R195, R196: a phase at which a member arrived by PLY completes with its merge. The merge begins at every spindle of the rectangle
together: the entries of the group for this phase or an earlier one, or for any, are marked due, and nothing is applied yet; where none is, the phase
completes at once. An event that applies the last entry due completes it: the phase number and the count of plies rise by one, and the waiters go on.
Told where no word is poisoned. Logs 82 and 85 hold here too. -/
def PlyPhasesMerge : Prop :=
  ∀ (s : State) (j g : Nat) (jb : Job), Table.find s.jobs j = some jb → jb.phase = .running ∨ jb.phase = .preempting → s.poison = [] → s.mem.wf = true →
    let mine := fun (x : SkeinEntry) => x.plyg = g ∧ (x.phase ≤ jb.ph g ∨ x.anyph = true); let i := Instr.phaseComplete j g
    let due := fun (x : SkeinEntry) => x.due = true ∧ x.plyg = g
    let waits := fun k (c : Context) => c.st = .parked ∧ c.park = 10 ∧ c.got = [(g, jb.ph g)] ∧ s.jobNoAt (keySp k) = j
    let completes := fun (t : State) => Table.find (t.job j).phases g = some (jb.ph g + 1) ∧ (t.job j).pliesDone = jb.pliesDone + 1 ∧
      g ∉ (t.job j).merging ∧ ∀ k c, Table.find s.ctxs k = some c →
        (waits k c → (t.ctx k).st = .ready ∧ (t.ctx k).pc = c.unit.next ∧ (t.ctx k).g = c.g) ∧ (¬ waits k c → t.ctx k = c)
    (g ∉ jb.merging → jb.phaseFull g = true → s.relLeft j g = false → (s.closeJob j).updateLeft j g = false → (jb.arrivalsNow g).any (·.ply) = true →
      ∃ t, exec i s = .next t ∧ SameMemory s t ∧
        (∀ sp ∈ jb.rect.spindles, (t.spindle sp).skein = (s.spindle sp).skein.map fun x => if mine x then { x with due := true } else x) ∧
        ((∃ sp ∈ jb.rect.spindles, ∃ x ∈ (s.spindle sp).skein, mine x) → g ∈ (t.job j).merging ∧ (t.job j).phases = jb.phases ∧ t.ctxs = s.ctxs) ∧
        ((∀ sp ∈ jb.rect.spindles, ∀ x ∈ (s.spindle sp).skein, ¬ mine x ∧ ¬ due x) → completes t)) ∧
    (∀ h e, g ∈ jb.merging → jb.rect.spindles.count h = 1 → (∀ sp ∈ jb.rect.spindles, sp ≠ h → ∀ x ∈ (s.spindle sp).skein, ¬ due x) →
      (s.spindle h).skein = [e] → due e → faSp e.fa = h → (s.spindle h).fenced = false → e.v < 256 ^ (2 ^ e.sz) →
      ∃ t, exec i s = .next t ∧ Applied s t e ∧ (t.spindle h).skein = [] ∧ completes t)

/-- R177: a bobbin's oldest pair goes to the PTAKE that has waited longest: its registers take the key and the two nodes, and it holds the task. -/
def TasksAreDelivered : Prop :=
  ∀ (s : State) (cl k : Nat) (p : PairDesc) (ps : List PairDesc) (ks : List Nat) (d a b : Reg) (x y z : Nat), d ≠ a → d ≠ b → a ≠ b →
    (s.cluster cl).pend = p :: ps → (s.cluster cl).takers = k :: ks → (s.ctx k).got = [(d.toNat, x), (a.toNat, y), (b.toNat, z)] →
    ∃ t, exec (.taskDelivery cl) s = .next t ∧ SameMemory s t ∧ (t.ctx k).st = .ready ∧ (t.ctx k).pc = (s.ctx k).unit.next ∧
      (t.ctx k).reg d = BitVec.ofNat 64 p.key ∧ (t.ctx k).reg a = BitVec.ofNat 64 p.na ∧ (t.ctx k).reg b = BitVec.ofNat 64 p.nb ∧
      (∀ r, r ≠ d → r ≠ a → r ≠ b → (t.ctx k).reg r = (s.ctx k).reg r) ∧ (t.ctx k).pairtask = true ∧
      (t.ctx k).task = some { desc := p, cluster := cl } ∧ (∀ q, q ≠ k → t.ctx q = s.ctx q) ∧
      (t.cluster cl).pend = ps ∧ (t.cluster cl).takers = ks ∧ (t.cluster cl).held = (s.cluster cl).held ++ [p]

end Sys2Proof.Claims

/-- Channel messages, barrier phases and task deliveries wake their waiters. -/
def Obligations.ChannelsPhasesAndTasksWakeTheirWaiters : Prop :=
  ChannelsCarryMessagesAndCredits ∧ PhasesComplete ∧ PlyPhasesMerge ∧ TasksAreDelivered

namespace Sys2Proof.Claims

/-- R255: a command enters the queue of eight in order, or stays outside while it is full. -/
def LoomQueuesHoldEight : Prop :=
  ∀ (s : State) (cl : Nat) (c : LoomCmd) (l : List LoomCmd), (s.cluster cl).enter = c :: l →
    ((s.cluster cl).queue.length < 8 → ∃ t, exec (.loomQueueEntry cl) s = .next t ∧ { t with clusters := s.clusters } = s ∧
      t.cluster cl = { s.cluster cl with enter := l, queue := (s.cluster cl).queue ++ [c] }) ∧
    (8 ≤ (s.cluster cl).queue.length → exec (.loomQueueEntry cl) s = .next s)

/-- A loom's command is at a step: it is the head of the queue, its entry has begun and a step is left; its job runs, or it is in the midst of the
step, and its die is not throttled on this cycle (R333, R339, R382). -/
structure StepNext (s : State) (cl : Nat) (c : LoomCmd) (l : List LoomCmd) : Prop where
  head : (s.cluster cl).queue = c :: l
  begun : c.begun = true
  left : c.entry < c.entries ∧ c.step < c.steps c.entry
  runs : ((s.job c.job).stopped = false ∧ ((s.job c.job).phase = .running ∨ (s.job c.job).phase = .preempting)) ∨ c.seen ≠ []
  power : vec12 s.trebex.dthr (cl / 64) ≤ s.now % 16
  waits : (s.ctx c.key).kont = .advance

/-- The words of memory, the slot bytes and, for LACP, the words to write that the step has left are reached now; which ones are is a free value
(R161, R270). -/
def reached (s : State) (c : LoomCmd) (x : Nat) : Bool := tearTake false s.free ((s.stepLeft c c.entry c.step).map (·.1)) x

/-- The step goes on: every access of it is admitted, no byte that it consumes is poisoned, and no residue upset waits for a multiply. -/
structure StepGoes (s : State) (cl : Nat) (c : LoomCmd) (l : List LoomCmd) : Prop where
  next : StepNext s cl c l
  admitted : s.stepRefused c c.entry c.step = none
  clean : s.stepPoison c c.entry c.step = none
  sound : c.sums = true → s.upsets.contains (.residue cl) = false

/-- The step is made: it goes on, and all that it has left is reached now. -/
structure StepReady (s : State) (cl : Nat) (c : LoomCmd) (l : List LoomCmd) : Prop where
  goes : StepGoes s cl c l
  last : ∀ x ∈ s.stepLeft c c.entry c.step, reached s c x.1 = true

/-- R161, R260, R268, R270: a step that has words left afterwards reaches some of them, one at least: what was read of a word or a slot byte then is
what the step uses, whatever is written there before it ends; LACP writes some of its words. No accumulator and no context changes. -/
def StepsReachTheirWords : Prop :=
  (∀ (s : State) (cl : Nat) (c : LoomCmd) (l : List LoomCmd), StepGoes s cl c l → let left := s.stepLeft c c.entry c.step
    let now := left.filter fun x => reached s c x.1
    (∀ x ∈ left, reached s c x.1 = true) ∨ ∃ t, exec (.loomStep cl) s = .next t ∧ t.ctxs = s.ctxs ∧ now ≠ [] ∧
      (t.cluster cl).queue = { c with seen := c.seen ++ now } :: l ∧ (∀ q, (t.cluster q).acc = (s.cluster q).acc) ∧ (∀ a, t.full a = s.full a) ∧
      (¬ (c.instr matches .lacp ..) → SameMemory s t) ∧ ∀ a, (∀ x ∈ now, a < x.1 ∨ x.1 + 8 ≤ a) → t.byte a = s.byte a) ∧
  (∀ (s : State) (c : LoomCmd) (va : Word), let w := wordOf (pageFa c.pages va)
    (∀ x, c.seen.find? (fun e => e.1 == w) = some x → s.cmdByte c va = x.2 / 256 ^ (pageFa c.pages va % 8) % 256) ∧
    ((∀ x ∈ c.seen, x.1 ≠ w) → s.cmdByte c va = (s.byte (pageFa c.pages va)).toNat))

/-- The command counts a finished entry of a group table in DONE, bits 31:0 of its context's loom status (R261). -/
def Counted (s t : State) (c : LoomCmd) : Prop :=
  (t.ctx c.key).loomStat.toNat % 2 ^ 32 = ((s.ctx c.key).loomStat.toNat + if (c.instr matches .lmmg ..) then 1 else 0) % 2 ^ 32

/-- R260, R261: after a step the command stands at the next one, or at the start of the table's next entry, counted as done; after the last step it
leaves the queue and its context goes on, LPROG and the reason of its status 0. Other contexts are as before. -/
def LoomMovesOn : Prop :=
  ∀ (s : State) (cl : Nat) (c : LoomCmd) (l : List LoomCmd), StepReady s cl c l → ∃ t, exec (.loomStep cl) s = .next t ∧
    (∀ k, k ≠ c.key → t.ctx k = s.ctx k) ∧ (t.ctx c.key).g = (s.ctx c.key).g ∧
    (c.step + 1 < c.steps c.entry → (t.cluster cl).queue = { c with step := c.step + 1, bad := false, seen := [] } :: l ∧
      (t.ctx c.key).st = (s.ctx c.key).st ∧ (t.ctx c.key).pc = (s.ctx c.key).pc ∧ (t.ctx c.key).loomStat = (s.ctx c.key).loomStat) ∧
    (c.step + 1 = c.steps c.entry → Counted s t c ∧
      (c.entry + 1 < c.entries → (t.cluster cl).queue = { c with entry := c.entry + 1, step := 0, begun := false, bad := false, seen := [] } :: l ∧
        (t.ctx c.key).st = (s.ctx c.key).st ∧ (t.ctx c.key).pc = (s.ctx c.key).pc) ∧
      (c.entry + 1 = c.entries → (s.ctx c.key).park = 7 → (t.cluster cl).queue = l ∧
        (t.ctx c.key).st = .ready ∧ (t.ctx c.key).pc = (s.ctx c.key).unit.next ∧ (t.ctx c.key).lprog = 0 ∧
        (t.ctx c.key).loomStat.toNat / 2 ^ 56 = 0))

/-- The multiply `j` that a command makes now, and where its elements and scales begin: all of LMM, its position from g(B), or the entry of LMMG's
table (R203, R265, R266). -/
def Multiplies (c : LoomCmd) (j : LoomJob) (el sc : Nat) (af bf ng : BitVec 4) (kg : BitVec 11) (g : BitVec 4) : Prop :=
  (∃ d a b z m1, c.instr = .lmm d a b af bf ng kg z g m1 ∧ el = c.ops.getD 0 0 ∧ sc = c.ops.getD 1 0 ∧ c.entry = 0 ∧
    j = { m := m1.toNat + 1, first := 0, slot := c.ops.getD 2 0 % 2 ^ 12, accRow := c.ops.getD 2 0 / 2 ^ 16 % 2 ^ 8 }) ∨
  (∃ d a b x z w, c.instr = .lmmg d a b x af bf ng kg z g ∧ el = c.ops.getD 1 0 ∧ sc = c.ops.getD 2 0 ∧ c.table[c.entry]? = some w ∧
    j = { m := w.toNat / 2 ^ 16 % 2 ^ 16, first := w.toNat % 2 ^ 16, slot := w.toNat / 2 ^ 32 % 2 ^ 16, accRow := w.toNat / 2 ^ 48 })

/-- R221, R222, R260, R265, R266: one step of LMM or LMMG adds the group's sum of products to each word of a block of up to 16 rows and 16 columns,
each word rounded, or saturated with SAT set; every other word is as before. The bytes are as the step reached them. -/
def MultipliesCompute : Prop :=
  ∀ (s : State) (cl : Nat) (c : LoomCmd) (l : List LoomCmd) (j : LoomJob) (el sc : Nat) (af bf ng : BitVec 4) (kg : BitVec 11) (g : BitVec 4),
    StepReady s cl c l → clusterOf (keySp c.key) = cl → Multiplies c j el sc af bf ng kg g → g.toNat + ng.toNat < 16 → j.accRow + j.m ≤ 256 →
    let old := fun r q => (s.cluster cl).accWord r q
    let n := 16 * (ng.toNat + 1); let k := 16 * kg.toNat
    let rb := c.step / ((n / 16) * (k / 16)); let cg := c.step / (k / 16) % (n / 16); let ks := natsFrom (16 * (c.step % (k / 16))) 16
    let elem := fun i => ks.map (loomValue af.toNat (fun o => s.cmdByte c (vaAdd el ((j.first + i) * loomEB af.toNat k + o)))
      (fun o => s.cmdByte c (vaAdd sc ((j.first + i) * loomSB af.toNat k + o))))
    let weight := fun q => let base := 512 * j.slot + (if 128 ≤ q then loomFP bf.toNat k else 0)
      let byte := s.cmdSlot c (q % 128)
      ks.map (loomValue bf.toNat (fun o => byte (base + o)) (fun o => byte (base + loomEB bf.toNat k + o)))
    let whole := fun i q => ((elem (16 * rb + i)).zip (weight (16 * cg + q))).map fun p => flInt p.1 * flInt p.2
    let inBlock := fun i q => i < min 16 (j.m - 16 * rb) ∧ q < 16
    let x := fun i => j.accRow + (16 * rb + i); let y := fun q => 16 * g.toNat + (16 * cg + q)
    ∃ t, exec (.loomStep cl) s = .next t ∧ SameMemory s t ∧
      (∀ i q, inBlock i q →
        (af ≠ 4 → (t.cluster cl).accWord (x i) (y q) =
          accFloat (old (x i) (y q)) (groupSum c.zmul (elem (16 * rb + i)) (weight (16 * cg + q))) % 2 ^ 32) ∧
        (af = 4 → let sum := BitVec.toInt (BitVec.ofNat 32 (old (x i) (y q))) + (whole i q).sum
          BitVec.toInt (BitVec.ofNat 32 ((t.cluster cl).accWord (x i) (y q))) = max (-(2 ^ 31)) (min (2 ^ 31 - 1) sum) ∧
          (sum < -(2 ^ 31) ∨ 2 ^ 31 - 1 < sum → (t.ctx c.key).fstat = (s.ctx c.key).fstat ||| BitVec.ofNat 64 flSAT))) ∧
      ∀ a b, a < 256 → b < 256 → (¬ ∃ i q, inBlock i q ∧ a = x i ∧ b = y q) → (t.cluster cl).accWord a b = old a b

/-- R259, R267: one step of LBLD writes the element bytes and then the scale bytes of its column to the column's slots; every other slot byte of the
job, every accumulator word and every byte of memory is as before. -/
def ColumnsAreLoaded : Prop :=
  ∀ (s : State) (cl : Nat) (c : LoomCmd) (l : List LoomCmd) (jb : Job) (d a b : Reg) (bf ng : BitVec 4) (kg : BitVec 11),
    StepReady s cl c l → Table.find s.jobs c.job = some jb → c.instr = .lbld d a b bf ng kg →
    let k := 16 * kg.toNat; let f := bf.toNat; let col := c.step % 128; let die := dieOf (keySp c.key)
    let base := 512 * (c.ops.getD 2 0 % 2 ^ 12) + (if 128 ≤ c.step then loomFP f k else 0)
    base + loomEB f k + loomSB f k ≤ 2 ^ 21 → ∃ t, exec (.loomStep cl) s = .next t ∧ SameMemory s t ∧
      (∀ o, o < loomEB f k → (t.job c.job).slotByte die col (base + o) = s.cmdByte c (vaAdd (c.ops.getD 0 0) (c.step * loomEB f k + o))) ∧
      (∀ o, o < loomSB f k → (t.job c.job).slotByte die col (base + loomEB f k + o) =
        s.cmdByte c (vaAdd (c.ops.getD 1 0) (c.step * loomSB f k + o))) ∧
      (∀ e x y, x < 128 → y < 2 ^ 21 → ¬ (e = die ∧ x = col ∧ base ≤ y ∧ y < base + loomEB f k + loomSB f k) →
        (t.job c.job).slotByte e x y = jb.slotByte e x y) ∧
      ∀ q x y, (t.cluster q).accWord x y = (s.cluster q).accWord x y

/-- R268: an accumulator word as an element of memory by FMT. -/
def AsElement (fmt : BitVec 4) (w v : Nat) : Prop :=
  (fmt = 0 ∨ fmt = 5 → v = w) ∧ (fmt = 1 → v = (bf16.round 0 (fp32.decode w)).1) ∧ (fmt = 2 → v = (fp16.round 0 (fp32.decode w)).1) ∧
  (fmt = 3 → v = (e4m3.narrow (fp32.decode w)).1) ∧ (fmt = 4 → v = (e5m2.narrow (fp32.decode w)).1) ∧
  (fmt = 6 → BitVec.toInt (BitVec.ofNat 8 v) = max (-128) (min 127 (BitVec.toInt (BitVec.ofNat 32 w))))
/-- R268: an element of memory as an accumulator word by FMT. -/
def AsWord (fmt : BitVec 4) (v w : Nat) : Prop :=
  (fmt = 0 ∨ fmt = 5 → w = v) ∧ (fmt = 1 → w = (fp32.round 0 (bf16.decode v)).1) ∧ (fmt = 2 → w = (fp32.round 0 (fp16.decode v)).1) ∧
  (fmt = 3 → w = (fp32.round 0 (e4m3.decode v)).1) ∧ (fmt = 4 → w = (fp32.round 0 (e5m2.decode v)).1) ∧
  (fmt = 6 → BitVec.ofNat 32 w = (BitVec.ofNat 8 v).signExtend 32)

/-- R268: one step of LACLR clears the words of a row; one of LACP writes the row to memory in its format, and one of LACIN reads it; every other
word and byte is as before. Memory is told of where the row lies in one page. -/
def RowsAreCopied : Prop :=
  ∀ (s : State) (cl : Nat) (c : LoomCmd) (l : List LoomCmd) (d a : Reg) (r : BitVec 8) (g n fmt : BitVec 4), StepReady s cl c l →
    clusterOf (keySp c.key) = cl → g.toNat + n.toNat < 16 → r.toNat + c.step < 256 → s.mem.wf = true →
    let w := 16 * (n.toNat + 1); let size := if fmt = 0 ∨ fmt = 5 then 4 else if fmt = 1 ∨ fmt = 2 then 2 else 1
    let row := r.toNat + c.step; let old := (s.cluster cl).accWord
    let va := BitVec.ofNat 64 (c.ops.getD 0 0 + c.step * w * size); let fa := pageFa c.pages va
    let inRow := fun x y => x = row ∧ 16 * g.toNat ≤ y ∧ y < 16 * g.toNat + w
    (c.instr = .laclr a r g n → ∃ t, exec (.loomStep cl) s = .next t ∧ SameMemory s t ∧
      ∀ x y, x < 256 → y < 256 → (inRow x y → (t.cluster cl).accWord x y = 0) ∧ (¬ inRow x y → (t.cluster cl).accWord x y = old x y)) ∧
    (c.instr = .lacp d a r g n fmt → fmt.toNat ≤ 6 → va.toNat % 2 ^ 16 + w * size ≤ 2 ^ 16 → ∃ t, exec (.loomStep cl) s = .next t ∧
      (∀ i, i < w → ((∀ b, b < size → c.saw (wordOf (fa + i * size + b)) = none) →
          AsElement fmt (old row (16 * g.toNat + i)) (t.read (fa + i * size) size)) ∧
        (fmt = 6 → let v := BitVec.toInt (BitVec.ofNat 32 (old row (16 * g.toNat + i)))
          v < -128 ∨ 127 < v → (t.ctx c.key).fstat = (s.ctx c.key).fstat ||| BitVec.ofNat 64 flSAT)) ∧
      (∀ x, x < fa ∨ fa + w * size ≤ x → t.byte x = s.byte x) ∧ (∀ x, t.full x = s.full x) ∧ ∀ x y, (t.cluster cl).accWord x y = old x y) ∧
    (c.instr = .lacin d a r g n fmt → fmt.toNat ≤ 6 → va.toNat % 2 ^ 16 + w * size ≤ 2 ^ 16 → ∃ t, exec (.loomStep cl) s = .next t ∧
      SameMemory s t ∧ (∀ i, i < w → AsWord fmt (((List.range size).map fun b => s.cmdByte c (va + BitVec.ofNat 64 (i * size + b)) * 256 ^ b).sum)
        ((t.cluster cl).accWord row (16 * g.toNat + i))) ∧
      ∀ x y, x < 256 → y < 256 → ¬ inRow x y → (t.cluster cl).accWord x y = old x y)

/-- R223, R260, R261: a multiply's step whose residue check fails writes nothing and is made again; failing a second time it traps LOOM, reason 7. A
step with an access that is refused traps with the refusal's cause and address. LPROG names the step after a LOOM trap (R223) and after a refusal: of
the latter that is the model's choice (log 74). A stopped job's command begins no step, and a throttled die's goes on with none. -/
def LoomStepsFail : Prop :=
  ∀ (s : State) (cl : Nat) (c : LoomCmd) (l : List LoomCmd), (s.cluster cl).queue = c :: l →
    (((s.job c.job).stopped = true ∧ c.seen = []) ∨ s.now % 16 < vec12 s.trebex.dthr (cl / 64) → exec (.loomStep cl) s = .next s) ∧
    (StepNext s cl c l → let mismatch := s.stepRefused c c.entry c.step = none ∧ s.stepPoison c c.entry c.step = none ∧ c.sums = true ∧
        s.upsets.contains (.residue cl) = true ∧
        ((s.spindle (keySp c.key)).gust.filter fun x => decide (s.now < x + gustWindow)).length < 2
      (mismatch → c.bad = false → ∃ t, exec (.loomStep cl) s = .next t ∧ SameMemory s t ∧ t.ctxs = s.ctxs ∧
        t.cluster cl = { s.cluster cl with queue := { c with bad := true, seen := [] } :: l }) ∧
      (mismatch → c.bad = true → HandledAt s c.key → ∃ t, exec (.loomStep cl) s = .next t ∧ SameMemory s t ∧
        (t.ctx c.key).st = .frozen ∧ (t.ctx c.key).frz.map (fun r => r.cause) = some cLOOM ∧ (t.ctx c.key).lprog = lprogAt c.entry c.step ∧
        (t.ctx c.key).loomStat.toNat / 2 ^ 56 = 7 ∧ (t.cluster cl).queue = l ∧ (t.cluster cl).acc = (s.cluster cl).acc) ∧
      ∀ cause va, s.stepRefused c c.entry c.step = some (cause, va) → HandledAt s c.key → ∃ t, exec (.loomStep cl) s = .next t ∧ SameMemory s t ∧
        (t.ctx c.key).st = .frozen ∧ (t.ctx c.key).frz.map (fun r => (r.cause, r.addr)) = some (cause, va) ∧
        (t.ctx c.key).lprog = lprogAt c.entry c.step ∧ (t.cluster cl).queue = l ∧ (t.cluster cl).acc = (s.cluster cl).acc)

end Sys2Proof.Claims

/-- R161, R221 to R223, R255, R260, R261, R265 to R268, R270: the queue and the steps of a loom. Which words of a step an event reaches is a free
value (log 91). -/
def Obligations.LoomStepsFollowTheQueue : Prop :=
  LoomQueuesHoldEight ∧ StepsReachTheirWords ∧ LoomMovesOn ∧ MultipliesCompute ∧ ColumnsAreLoaded ∧ RowsAreCopied ∧ LoomStepsFail

/-! ### Copy engines and links, as they move -/

namespace Sys2Proof.Claims

/-- The command whose chunk an engine goes on with: the one in the midst of a chunk, else the one whose turn it is (R305). -/
def Chooses (s : State) (e : Nat) (c : CopyCmd) : Prop :=
  (s.engine e).cmds.find? (fun x => x.part.isSome) = some c ∨
    ((∀ x ∈ (s.engine e).cmds, x.part = none) ∧ c.flying = false ∧ ∃ g, s.drr 9 (s.engine e) = some (c, g))

/-- Word `i` of a chunk as it was read, if it has been: its value, none where it had no source, and whether it was poisoned. -/
def partWord (p : ChunkPart) (i : Nat) : Option (Option Nat × Bool) := (p.vals.find? fun v => v.1 == i).map (·.2)

/-- A command of an engine whose next chunk is `n` words from `fa` on, each readable, whole and clean, on a NORMAL page; `p` is what has been done of
it. -/
structure ChunkFrom (s : State) (e : Nat) (c : CopyCmd) (p : ChunkPart) (n fa : Nat) : Prop where
  next : Chooses s e c
  part : p = c.part.getD {}
  ready : c.stg.eoi = false ∧ c.flip = none
  size : c.chunkLen = 8 * n ∧ 0 < n
  source : ∀ i, i < n → s.copySrc c (c.srcVa + BitVec.ofNat 64 (8 * i)) = some (fa + 8 * i, 0)
  clean : s.poisoned fa (8 * n) = false ∧ fa % 8 = 0
  good : ∀ v ∈ p.vals, v.1 < n ∧ ∃ x, v.2 = (some x, false)

/-- Some of the words that are left of a chunk have been read since, each as it stands. -/
def ReadOn (s : State) (p q : ChunkPart) (n fa : Nat) : Prop :=
  ∃ new, q.vals = p.vals ++ new ∧ ∀ v ∈ new, v.1 < n ∧ partWord p v.1 = none ∧ v.2 = (some (s.read (fa + 8 * v.1) 8), false)

/-- Every word of a chunk has been read; the words. -/
def AllRead (q : ChunkPart) (n : Nat) : Prop := ∀ i, i < n → partWord q i ≠ none
def chunkVals (q : ChunkPart) (n : Nat) : List Nat := (List.range n).map fun i => ((partWord q i).bind (·.1)).getD 0

/-- The command after a chunk: its place and its check values move on. -/
def afterChunk (c : CopyCmd) (vals : List Nat) (away : Bool) : CopyCmd :=
  { c.next with sums := checkStep c.stg.check c.sums vals, dsums := checkStep c.stg.check c.dsums vals, flying := away, part := none }

/-- R160, R305, R306, R308: a chunk within the package is copied from its source to its destination, each of its words read and then written at a
time of its own, none written before all are read; an event does some of what is left, and which words is a free value (log 13). The last word
written, the chunk is counted. A chunk with a source word that may not be read writes nothing and ends its command FAULT there. -/
def ChunksAreCopied : Prop :=
  ∀ (s : State) (e : Nat) (c : CopyCmd) (p : ChunkPart) (n fa fb : Nat), let i := Instr.copyChunk e
    ((∀ x ∈ (s.engine e).cmds, x.part = none) → s.drr 9 (s.engine e) = none → exec i s = .next s) ∧
    (ChunkFrom s e c p n fa → c.stg.cpeer = 0xFF → s.upsets.contains (.chunkCrc e) = false → s.mem.wf = true →
      (∀ i, i < n → s.copyTo c (c.dstVa + BitVec.ofNat 64 (8 * i)) = some (fb + 8 * i, 0)) → ∃ t q put, exec i s = .next t ∧
        t.ctxs = s.ctxs ∧ (∀ a, t.full a = s.full a) ∧ ReadOn s p q n fa ∧ q.wrote = p.wrote ++ put ∧ (∀ k ∈ put, k < n) ∧
        (put ≠ [] → AllRead q n) ∧ (∀ k a, k < n → a < 8 → t.byte (fb + 8 * k + a) =
          if k ∈ put then BitVec.ofNat 8 ((chunkVals q n).getD k 0 / 256 ^ a) else s.byte (fb + 8 * k + a)) ∧
        (∀ a, a < fb ∨ fb + 8 * n ≤ a → t.byte a = s.byte a) ∧
        (({ c with part := some q } ∈ (t.engine e).cmds ∧ p.vals.length + p.wrote.length < q.vals.length + q.wrote.length ∧ 1 < n) ∨
          ((∀ k, k < n → k ∈ q.wrote) ∧ AllRead q n ∧ afterChunk c (chunkVals q n) false ∈ (t.engine e).cmds))) ∧
    (∀ x, Chooses s e c → p = c.part.getD {} → c.stg.cpeer = 0xFF → c.chunkLen = 8 * n → AllRead p n → x < n → partWord p x = some (none, false) →
      (∀ y, y < x → ∃ a, partWord p y = some (some a, false)) → ∃ t, exec i s = .next t ∧ (∀ a, t.byte a = s.byte a) ∧ t.ctxs = s.ctxs ∧
        { c with part := none, fault := some (c.srcVa + BitVec.ofNat 64 (8 * x)) } ∈ (t.engine e).cmds)

/-- A message waits at a port's sender, or is kept there until it is acknowledged. -/
def OnLink (t : State) (h : Nat) (b : Body) : Prop := ∃ m, m.body = b ∧ (m ∈ (t.link h).queue ∨ ∃ f ∈ (t.link h).retry, m ∈ f.cargo)

/-- A chunk for a peer, whole and with sound check values. -/
def soundChunk (eng id own chip root : Nat) (va : Word) (data : List Nat) : Body :=
  .peerChunk { eng := eng, id := id, own := own, chip := chip, root := root, va := va, data := data, eoi := false, crc := none, bad := [], wrote := [] }

/-- R313, R315, R403: a chunk for a peer is read word by word and then leaves by the port of its route, both packages' numbers in it; at the package
it names it is written under that mapping and acknowledged, and the acknowledgement lets the command go on or ends it FAULT. That a peer's memory is
written wherever its table maps with W is the model's choice (log 19). -/
def ChunksCrossPackages : Prop :=
  (∀ (s : State) (e : Nat) (c : CopyCmd) (p : ChunkPart) (n fa chip root port : Nat), ChunkFrom s e c p n fa → c.stg.cpeer ≠ 0xFF →
    s.peerOf c = some (chip, root) → Table.find s.trebex.routes chip = some port → (s.link (2 * port)).up = true → s.upsets.contains (.chunkCrc e) = false →
    ∃ t q, exec (.copyChunk e) s = .next t ∧ SameMemory s t ∧ t.ctxs = s.ctxs ∧ ReadOn s p q n fa ∧
      (({ c with part := some { q with wrote := p.wrote } } ∈ (t.engine e).cmds ∧ p.vals.length < q.vals.length ∧ 1 < n) ∨
        (AllRead q n ∧ afterChunk c (chunkVals q n) true ∈ (t.engine e).cmds ∧
          OnLink t (2 * port) (soundChunk e c.id s.trebex.chip chip root c.dstVa (chunkVals q n))))) ∧
  (∀ (s : State) (m : Msg) (eng id own chip root fb : Nat) (va : Word) (data : List Nat), Arriving s m → s.trebex.pstate ≠ 1 →
    m.body = soundChunk eng id own chip root va data → (chip ≠ s.trebex.chip ∨ m.dst = nodePeer chip) → (s.peer chip).mem.wf = true →
    (∀ i, i < data.length → (s.peer chip).word chip root (va + BitVec.ofNat 64 (8 * i)) false = some (fb + 8 * i, 0)) →
    ∃ t, exec (.peerChunkArrival m.id) s = .next t ∧ SameMemory s t ∧ t.ctxs = s.ctxs ∧
      (∀ i j, i < data.length → j < 8 → (t.peer chip).mem.read (fb + 8 * i + j) = BitVec.ofNat 8 (data.getD i 0 / 256 ^ j)) ∧
      (∀ a, a < fb ∨ fb + 8 * data.length ≤ a → (t.peer chip).mem.read a = (s.peer chip).mem.read a) ∧
      ((∃ x ∈ t.msgs, x.body = .chunkAck eng id va none) ∨ ∃ h, OnLink t h (.chunkAck eng id va none))) ∧
  (∀ (s : State) (m : Msg) (eng id : Nat) (va : Word) (f : Option Word) (c : CopyCmd), Arriving s m → m.body = .chunkAck eng id va f →
    c ∈ (s.engine eng).cmds → c.id = id → (∀ x ∈ (s.engine eng).cmds, x.id = id → x.emptying = false) → ∃ t, exec (.chunkAck m.id) s = .next t ∧ SameMemory s t ∧ t.ctxs = s.ctxs ∧
      { c with flying := false, fault := c.fault.or f } ∈ (t.engine eng).cmds)

/-- R309, R310, R312: a flag that may be written takes its value and FULL before the record, for a job that runs; one that may not makes the status
of a command that would end well FAULT. -/
def FlagsAreFilled : Prop :=
  ∀ (s : State) (e : Nat) (c : CopyCmd), (s.engine e).finished = some c → c.stg.toFlag = true → c.cancel = false → c.fault = none → c.stg.check = 0 →
    (∀ fa, s.flagHome c = some fa → (s.job c.job).phase ≠ .out → s.mem.wf = true → fa % 8 = 0 → NoWaiter s fa →
      ∃ t, exec (.copyComplete e) s = .next t ∧ Bytes s t fa 8 c.stg.cfval.toNat ∧ t.full fa = true ∧
        { id := c.id, job := c.job, status := 0, final := 0 } ∈ (t.engine e).doneRecs) ∧
    (s.flagHome c = none → ∃ t, exec (.copyComplete e) s = .next t ∧ SameMemory s t ∧
      { id := c.id, job := c.job, status := 2, final := 0 } ∈ (t.engine e).doneRecs)

/-- R22, R297, R298, R303, R307, R309 to R312: a command with nothing left ends: cancelled 3, faulted 2, a check value that differs 1, else 0. Its
record stays, it leaves its queue, a command chained to it goes on from its value or is cancelled, its message reaches the mailbox of its thread, and
the contexts that wait with PARK 8 for an entry of its class and engine, and no others, go on. -/
def CopiesEnd : Prop :=
  ∀ (s : State) (e : Nat) (c : CopyCmd),
    ((s.engine e).finished = none → exec (.copyComplete e) s = .next s) ∧
    ((s.engine e).finished = some c → c.stg.toFlag = false →
      let bad := c.stg.check ≠ 0 ∧ (c.dsums ≠ c.sums ∨ (c.stg.last = true ∧ c.dsums ≠ c.stg.cexp.toNat))
      ∃ t st, exec (.copyComplete e) s = .next t ∧ SameMemory s t ∧
        (c.cancel = true → st = 3) ∧ (c.cancel = false → c.fault.isSome = true → st = 2) ∧ (c.cancel = false → c.fault = none → bad → st = 1) ∧
        (c.cancel = false → c.fault = none → ¬ bad → st = 0) ∧
        (∃ f, { id := c.id, job := c.job, status := st, final := f } ∈ (t.engine e).doneRecs ∧ (c.stg.check ≠ 0 → st ≤ 1 → f = c.dsums) ∧
          (∀ x ∈ (s.engine e).cmds, x.id ≠ c.id → x.pred = c.id →
            (if 2 ≤ st then { x with pred := 0, cancel := true } else { x with pred := 0, sums := f, dsums := f }) ∈ (t.engine e).cmds) ∧
          (c.stg.toMailbox = true → c.mute = false → (s.ctx c.key).st ≠ .free → (s.ctx c.key).thidx = c.thidx →
            (s.ctx c.key).born = c.born → (s.job c.job).phase = .running ∨ (s.job c.job).phase = .preempting →
            s.findThread c.job c.thidx = some c.key → (s.ctx c.key).st ≠ .departing →
            (s.spindle (keySp c.key)).job = some c.job → (s.ctx c.key).mailbox.length < 16 → (s.ctx c.key).mailHeld = [] →
            (t.ctx c.key).mailbox = (s.ctx c.key).mailbox ++ [[BitVec.ofNat 64 (2 ^ 56 + st * 2 ^ 32 + c.id), BitVec.ofNat 64 f,
              if st = 2 then c.fault.getD 0 else 0]])) ∧
        (∀ x ∈ (t.engine e).cmds, x.id ≠ c.id) ∧
        ∀ k x, Table.find s.ctxs k = some x → x.st = .parked → x.park = 8 → k ≠ c.key →
          (c.stg.toMailbox = true → s.findThread c.job c.thidx ≠ some k) →
          let mine := x.staging.cls = c.cls ∧ (if x.staging.chain then x.chain.eng = e else e ∈ dieEngines (keySp k))
          (mine → (t.engine e).inClass c.cls < 32 → (t.ctx k).st = .ready ∧ (t.ctx k).pc = x.pc ∧ (t.ctx k).g = x.g) ∧ (¬ mine → t.ctx k = x))

/-- R314, R315, R381: a DATA flit that is the next expected one and whole is accepted once, and delivers what it carries; any other is discarded and
answered by RETRY. In STANDBY no flit moves. -/
def FlitsAreAcceptedInOrder : Prop :=
  ∀ (s : State) (h : Nat) (f : Flit) (l : List Flit) (ok : Bool), (s.link h).wire = f :: l → let x := s.link h
    (s.trebex.pstate = 1 → exec (.linkDataFlit h ok) s = .next s) ∧
    (s.trebex.pstate ≠ 1 → ∃ t, exec (.linkDataFlit h ok) s = .next t ∧ SameMemory s t ∧ t.ctxs = s.ctxs ∧
      (ok = true → f.seqn = x.expect → t.msgs = s.msgs ++ f.cargo.map (fun m => { m with port := none }) ∧
        t.link h = { x with wire := l, expect := (x.expect + 1) % 4096 }) ∧
      (ok = false ∨ f.seqn ≠ x.expect → t.msgs = s.msgs ∧ t.link h = { x with wire := l, retryFlits := x.retryFlits + 1 }))

/-- R314, R315: RETRY, IDLE and a time without progress at the sender: what the receiver has accepted is dropped, the rest is sent again from the
oldest; after sixteen times the port retrains instead. In STANDBY nothing happens (R381). -/
def SendersGoBack : Prop :=
  ∀ (s : State) (h : Nat) (old rest : List Flit), let x := s.link h
    (s.trebex.pstate = 1 → (∀ i ∈ [Instr.linkRetryFlit h, .linkIdleFlit h], exec i s = .next s) ∧
      ∃ t, exec (.linkAckTimeout h) s = .next t ∧ { t with links := s.links } = s ∧ ∀ p, t.link p = s.link p) ∧ (s.trebex.pstate ≠ 1 →
    x.retry = old ++ rest → (∀ f ∈ old, f.seqn ≠ x.expect) → (∀ f, rest.head? = some f → f.seqn = x.expect) →
    let other := fun (t : State) => { t with links := s.links } = s
    let n := (if old = [] then x.resends else 0) + 1
    let again := fun (y : HalfLink) (r : List Flit) (n : Nat) => y.retry = r ∧ y.advanced = s.now ∧
      (n ≤ 16 → y.wire = r ∧ y.retrain = x.retrain ∧ y.resends = n) ∧ (16 < n → y.wire = [] ∧ y.retrain = true)
    (x.retryFlits ≠ 0 → ∃ t, exec (.linkRetryFlit h) s = .next t ∧ other t ∧ again (t.link h) rest n ∧ (t.link h).retryFlits = x.retryFlits - 1) ∧
    (x.retryFlits = 0 → exec (.linkRetryFlit h) s = .next s) ∧
    (x.queue = [] → ∃ t, exec (.linkIdleFlit h) s = .next t ∧ other t ∧ (t.link h).retry = rest ∧ (t.link h).wire = x.wire) ∧
    (∃ t, exec (.linkAckTimeout h) s = .next t ∧ other t ∧
      (x.retry ≠ [] → x.retrain = false → x.advanced + 4096 ≤ s.now → again (t.link h) x.retry (x.resends + 1)) ∧
      (x.retry = [] ∨ x.retrain = true ∨ s.now < x.advanced + 4096 → t.link h = x)))

/-- A message concerns a command of a copy engine: its chunk, its run of emptied words, or the answer to one. -/
def Names (m : Msg) (e id : Nat) : Prop :=
  (∃ pc, m.body = .peerChunk pc ∧ pc.eng = e ∧ pc.id = id) ∨ (∃ o r q vas, m.body = .peerEmpty e id o r q vas) ∨ ∃ va f, m.body = .chunkAck e id va f

/-- R315, R381: retraining ends: the direction sends again what is not acknowledged, or the port is down, both ways, and what it held is lost; a copy
whose chunk was lost ends FAULT at the chunk's address. In STANDBY nothing happens. -/
def RetrainingEnds : Prop :=
  ∀ (s : State) (h : Nat) (ok : Bool), let x := s.link h
    let lost := fun (m : Msg) => ∃ d, d / 2 = h / 2 ∧ (m ∈ (s.link d).queue ∨ ∃ f ∈ (s.link d).retry, m ∈ f.cargo)
    (x.retrain = false ∨ s.trebex.pstate = 1 → exec (.linkRetrainDone h ok) s = .next s) ∧
    (x.retrain = true → s.trebex.pstate ≠ 1 → ∃ t, exec (.linkRetrainDone h ok) s = .next t ∧ SameMemory s t ∧
      (∀ k, (∀ d i, (s.ctx k).kont ≠ .emptied d i) → t.ctx k = s.ctx k) ∧ (∀ d, d / 2 ≠ h / 2 → t.link d = s.link d) ∧
      (ok = true → (t.link h).retrain = false ∧ (t.link h).resends = 0 ∧
        (x.queue = [] → (t.link h).wire = x.retry ∧ (t.link h).retry = x.retry)) ∧
      (ok = false → (∀ d, d / 2 = h / 2 → (t.link d).up = false ∧ (t.link d).retrain = false ∧ (t.link d).retry = [] ∧ (t.link d).wire = [] ∧
          (t.link d).queue = []) ∧
        ∀ m pc, lost m → m.body = .peerChunk pc → (∀ y, lost y → Names y pc.eng pc.id → y = m) →
          ∀ c ∈ (s.engine pc.eng).cmds, c.id = pc.id → (∀ y ∈ (s.engine pc.eng).cmds, y.id = pc.id → y.emptying = false) →
            { c with flying := false, fault := c.fault.or (some pc.va) } ∈ (t.engine pc.eng).cmds))

end Sys2Proof.Claims

/-- R22, R160, R297, R298, R303, R305 to R313: the chunks of a copy and its end. Which words of a chunk an event moves is a free value (log 13); that
a peer's memory is written wherever the peer's table maps with W is the model's choice (log 19). -/
def Obligations.CopiesMoveAndEnd : Prop := ChunksAreCopied ∧ ChunksCrossPackages ∧ FlagsAreFilled ∧ CopiesEnd

/-- R314, R315: the flits of a link: accepted once in order, kept until acknowledged, sent again, lost with their port. That a flit delivers whole
messages, and that its sender learns at once which number its receiver expects next, is the model's reading (log 18); whether a flit is whole and how
a retraining ends stand in the instruction (log 15). -/
def Obligations.LinksDeliverInOrder : Prop := FlitsAreAcceptedInOrder ∧ SendersGoBack ∧ RetrainingEnds

/-! ### Compensation, trap records, pre-emption, errors -/

namespace Sys2Proof.Claims

/-- R324, R325: of the activities that unravel, the entry with the highest number starts: a thread at its PC on its spindle, with g1 and g2 from the
entry and everything else zero; while one compensation runs no other starts. That it starts in the lowest-numbered FREE context is the model's choice
(log 83). -/
def CompensationsStart : Prop :=
  ∀ (s : State) (a : Activity) (e : RavelEntry) (n : Nat), let k := keyOf e.sp n
    let free := fun i => (s.ctx (keyOf e.sp i)).st = .free
    (s.unrav.running.isSome = true ∨ s.ravelReady = [] → exec .unravelStep s = .next s) ∧
    (s.unrav.running = none → (a, e) ∈ s.ravelReady → (∀ x ∈ s.ravelReady, x = (a, e) ∨ x.2.seqn < e.seqn) → (s.job a.job).phase = .running → (s.spindle e.sp).fenced = false →
      (s.spindle e.sp).migBuf = [] → (s.spindle e.sp).migRes = [] → 1 ≤ n → n ≤ 15 → free n → (∀ i, 1 ≤ i → i < n → ¬ free i) →
      ∃ t, exec .unravelStep s = .next t ∧ SameMemory s t ∧ t.unrav = { s.unrav with running := some (a.ix, e.seqn) } ∧
        (t.ctx k).st = .ready ∧ (t.ctx k).pc = BitVec.ofNat 64 (4 * e.pcw) ∧ (t.ctx k).thidx = compThidx ∧ (t.ctx k).cprof = (s.job a.job).cprof ∧
        (∀ r : Reg, (t.ctx k).reg r = if r = 1 then e.arg0 else if r = 2 then e.arg1 else 0) ∧ ∀ x, x ≠ k → t.ctx x = s.ctx x)

/-- R327, R330: a record enters the mailbox of a handler of its job, or is refused to its sender, which tries the secondary buddy; a trap that nobody
takes ends its thread. -/
def RecordsReachTheirHandlers : Prop :=
  ∀ (s : State) (m : Msg) (ws : List Word) (r : TrapInfo) (second : Bool) (act : Nat), Arriving s m →
    (m.body = .trapRec ws r second act → let k := keyOf m.dst 15
      (s.takesRecord m.job m.dst m.asker = true → (s.ctx k).mailbox.length < 16 → (s.ctx k).mailHeld = [] →
        ∃ t, exec (.trapRecordArrival m.id) s = .next t ∧ SameMemory s t ∧ (t.ctx k).mailbox = (s.ctx k).mailbox ++ [ws] ∧ (t.ctx k).g = (s.ctx k).g ∧
          (∀ x, x ≠ k → t.ctx x = s.ctx x) ∧
          ((s.ctx k).st = .parked → (s.ctx k).park = 3 → (s.ctx k).waitsOn 0xFFF = true → (t.ctx k).st = .ready)) ∧
      (s.takesRecord m.job m.dst m.asker = false → ∃ t, exec (.trapRecordArrival m.id) s = .next t ∧ OnlyMessages s t ∧
        Replied t m (.trapNack ws r second act))) ∧
    (m.body = .trapNack ws r second 0 →
      (second = false → m.ctx < 16 → s.takesRecord m.job (s.spindle m.dst).secondary m.key = true → ∃ t, exec (.trapRecordRefused m.id) s = .next t ∧
        OnlyMessages s t ∧ ∃ x ∈ t.msgs, x.dst = (s.spindle m.dst).secondary ∧ x.body = .trapRec ws r true 0) ∧
      (second = true → m.ctx < 16 → ∃ t, exec (.trapRecordRefused m.id) s = .next t ∧ SameMemory s t ∧
        t.ctx m.key = { lastIssue := (s.ctx m.key).lastIssue }))

/-- R330: a trap whose record no handler takes ends its thread, with the cause in its status. Told for TRAP by a thread that owns no open activity. -/
def UntakenTrapsEndTheirThread : Prop :=
  ∀ (s : State) (n : BitVec 8) (b : Reg) (jb : Job), let j := s.myJobNo; let sp := jb.rect.spindle (s.me.thidx / 16)
    s.me.thidx ≠ compThidx → s.takesRecord j (s.spindle s.here).primary s.cur = false →
    s.takesRecord j (s.spindle s.here).secondary s.cur = false → s.openAct j s.me.thidx = none → Table.find s.jobs j = some jb →
      ∃ t, exec (.trap n b) s = .next t ∧ t.me = { lastIssue := s.me.lastIssue } ∧ s.me.thidx ∈ (t.job j).exited ∧ SameMemory s t ∧
        ((s.spindle sp).fenced = false → sp = s.here →
          Table.find (t.spindle sp).exits (s.me.thidx % 16) = some (0xFFFFFF00 + cSWTRAP))

/-- R336, R338: a token starts its node, which sends a token on its outputs, and marks its input. The model folds the routers into their spindles: an
input is a source and a class, and the tokens go to every live spindle of the job in every class (log 38). -/
def TokensSpread : Prop :=
  ∀ (s : State) (m : Msg), Arriving s m → m.body = .token →
    ((s.spindle m.dst).job = some m.job → ∃ t, exec (.frontToken m.id) s = .next t ∧ SameMemory s t ∧ t.ctxs = s.ctxs ∧
      (t.spindle m.dst).frontOn = true ∧ (m.src, m.cls.num) ∈ (t.spindle m.dst).frontIn ∧
      ((s.spindle m.dst).frontOn = false → ∀ d ∈ s.liveSpindles m.job, ∀ c, ∃ x ∈ t.msgs, x.cls = c ∧ x.src = m.dst ∧ x.dst = d ∧ x.job = m.job ∧
        x.body = .token)) ∧
    ((s.spindle m.dst).job ≠ some m.job → ∃ t, exec (.frontToken m.id) s = .next t ∧ OnlyMessages s t ∧ t.msgs = without s m)

/-- The row of the opcode table by which a message arrives. -/
def ArrivesBy (m : Msg) (i : Instr) : Prop :=
  match m.body with
  | .migrate _ => i = .migrationMessage m.id
  | .migAnswer _ => i = .migrationAnswer m.id
  | .read .. | .fetchLine _ | .chq _ | .query .. | .bindNote _ => i = .remoteReadRequest m.id
  | .write .. => i = .remoteWriteRequest m.id
  | .atomic .. => i = .remoteAtomicRequest m.id
  | .sync .. => i = .syncRequest m.id
  | .append _ => i = .skeinAppend m.id
  | .reply _ | .ack | .line .. => i = .replyArrival m.id
  | .nack .. | .subAnswer _ | .chanNack _ => i = .nackRefusal m.id
  | .nackBusy .. => i = .waiterRetry m.id
  | .subReq .. => i = .subscriptionRequest m.id
  | .batch .. => i = .batchApply m.id
  | .batchAck .. => i = .batchAck m.id
  | .batchNack _ => i = .batchNack m.id
  | .subRemove .. => i = .subscriptionRemoval m.id
  | .drainReq .. => i = .drainRequest m.id
  | .chan .. | .mail .. => i = .channelMessage m.id
  | .credit _ => i = .creditReturn m.id
  | .exitNotice .. => i = .exitNotice m.id
  | .trapRec .. => i = .trapRecordArrival m.id
  | .trapNack .. => i = .trapRecordRefused m.id
  | .layer .. => i = .layerRequest m.id
  | .launch .. => i = .launchRequest m.id
  | .peerChunk .. | .peerEmpty .. => i = .peerChunkArrival m.id
  | .chunkAck .. => i = .chunkAck m.id
  | .token => i = .frontToken m.id

/-- R336, R337: a message of the job that arrives on an input after its token is not handled: it is held in the spindle's log and counts as received,
or finds the log of 64 KiB full and is sent again 1,024 cycles later. How much of the log a message takes is the model's reading (log 35). A message
of a node outside the rectangle, which has no input with a token, is held so once the spindle's front is complete: the model's choice (log 38). -/
def FrontsHoldLaterMessages : Prop :=
  ∀ (s : State) (m : Msg), let p := s.spindle m.dst; let jb := s.job m.job
    let inside := jb.rect.has m.src = true ∧ m.src < numSpindles ∧ (s.spindle m.src).fenced = false
    let again := ∃ fa n op d, m.body = .nackBusy fa n op d
    let set := fun (t : State) (f : Msg → Msg) => t.msgs = s.msgs.map fun x => if x.id = m.id then f x else x
    (s.msgs.find? fun x => x.id == m.id) = some m → m.logged = false → m.postFront = false → jb.phase ≠ .resuming →
    (again → m.notBefore ≤ s.now) →
    (¬ again → m.notBefore = 0 ∧ m.port = none ∧ (m.early = true ∨ s.headOfFlow m = true) ∧
      ¬ (m.dst < numSpindles ∧ p.fenced = true) ∧ ∀ c, m.body = .peerChunk c → s.trebex.pstate ≠ 1) →
    m.body ≠ .token → (∀ e i o r q vas, m.body = .peerEmpty e i o r q vas → s.trebex.pstate ≠ 1) →
    p.frontOn = true → p.job = some m.job → (inside → (m.src, m.cls.num) ∈ p.frontIn) → (¬ inside → s.frontAt m.job m.dst = true) →
    ∀ i, ArrivesBy m i → ∃ t, exec i s = .next t ∧ OnlyMessages s t ∧
      (s.logBytes m.dst + m.bytes ≤ 2 ^ 16 → set t (fun x => { x with logged := true, postFront := true, early := false }) ∧
        (m.src ≠ m.dst → m.dst < numSpindles → (t.spindle m.dst).rcvd = Vec4.bump p.rcvd m.cls.num)) ∧
      (2 ^ 16 < s.logBytes m.dst + m.bytes → set t fun x => { x with notBefore := s.now + 1024 })

/-- R339, R340: the window's end holds every context of the job; a job whose front is complete and of which nothing is in flight is switched out: its
spindles and contexts are free, and every context is saved with its registers. -/
def JobsLeaveTheirRectangles : Prop :=
  ∀ (s : State) (j : Nat) (jb : Job), Table.find s.jobs j = some jb →
    (jb.phase = .preempting → jb.preemptAt + jb.pwin ≤ s.now → ∃ t, exec (.preemptWindowExpiry j) s = .next t ∧ SameMemory s t ∧
      (t.job j).windowOver = true ∧ ∀ k c, Table.find s.ctxs k = some c → c.st ≠ .free → (s.spindle (keySp k)).job = some j →
        t.ctx k = { c with held := true }) ∧
    (jb.phase ≠ .preempting ∨ s.now < jb.preemptAt + jb.pwin → exec (.preemptWindowExpiry j) s = .next s) ∧
    (s.canSwitchOut j = false → exec (.jobSwitchOut j) s = .next s) ∧
    (s.canSwitchOut j = true → ∃ t, exec (.jobSwitchOut j) s = .next t ∧ SameMemory s t ∧ (t.job j).phase = .out ∧ j ∈ t.disp.preempted ∧
      (t.job j).saved.map (·.sp) = s.liveSpindles j ∧ ∀ sp ∈ s.liveSpindles j, ∀ n, n < 16 → let k := keyOf sp n
        (t.ctx k).st = .free ∧ ∀ c, Table.find s.ctxs k = some c → ∃ v ∈ (t.job j).saved, v.sp = sp ∧
          ∃ x, (k, x) ∈ v.ctxs ∧ x.g = c.g ∧ x.v = c.v ∧ x.tag = c.tag ∧ x.fstat = c.fstat ∧ x.thidx = c.thidx)

/-- R347, R348, R349: a corrected error counts at its spindle, and the one at which the count within 2^20 cycles reaches three fences its containment
rectangle, with a report, unless it is fenced; a word that cannot be corrected is poisoned. An error at an address that the part does not have stops:
the model's choice (log 21). -/
def ErrorsAreContained : Prop :=
  ∀ (s : State) (sp fa : Nat), let l := (s.spindle sp).gust.filter (fun x => decide (s.now < x + 2 ^ 20)); let r := s.containRect sp
    (l.length ≠ 2 ∨ (s.spindle sp).fenced = true → ∃ t, exec (.correctedError sp) s = .next t ∧ { t with spindles := s.spindles } = s ∧
      t.spindle sp = { s.spindle sp with gust := l ++ [s.now] } ∧ ∀ x, x ≠ sp → t.spindle x = s.spindle x) ∧
    (l.length = 2 → (s.spindle sp).fenced = false → ∃ t, exec (.correctedError sp) s = .next t ∧ SameMemory s t ∧ (∀ p ∈ r.spindles, (t.spindle p).fenced = true) ∧
      (∀ k c, Table.find s.ctxs k = some c → keySp k ∈ r.spindles → r.has (keySp k) = true → (s.spindle (keySp k)).fenced = false → (t.ctx k).st = .free) ∧
      ∃ x ∈ t.trebex.reports, x.rect = r ∧ x.sp = sp ∧ x.cause = 1 ∧ x.cycle = s.now) ∧
    (faMapped fa = true → ∃ t, exec (.uncorrectableEccError fa) s = .next t ∧ { t with poison := s.poison } = s ∧
      ∀ a, t.poison.contains a = (s.poison.contains a || a == wordOf fa)) ∧
    (faMapped fa = false → exec (.uncorrectableEccError fa) s = .fault (.noSuchAddress fa))

end Sys2Proof.Claims

/-- R324, R325, R327, R330: compensations start, and trap records reach their handlers. The context a compensation starts in (log 83) and the
defaults that a freed context's words take (log 107) are the model's choices. -/
def Obligations.CompensationsAndTrapRecords : Prop := CompensationsStart ∧ RecordsReachTheirHandlers ∧ UntakenTrapsEndTheirThread

/-- R336 to R340: the front and the switch-out of a job. That an input of the front is a source and a class, a token going to every live spindle, and
what holds messages from outside the rectangle, are the model's choices (log 38); so is the space a message takes in a log (log 35). -/
def Obligations.PreemptionSavesItsJob : Prop := TokensSpread ∧ FrontsHoldLaterMessages ∧ JobsLeaveTheirRectangles

/-- R347 to R349: errors are counted, fenced and poisoned. An error at an address that the part does not have is no event of it and stops (log 21). -/
def Obligations.ErrorsAreContainedWhereTheyOccur : Prop := ErrorsAreContained

/-! ### The host, the work queues and the dispatcher -/

namespace Sys2Proof.Claims

/-- R345, R353, R356: a fill of word 0 of a record that is EMPTY stores it and makes it FULL, or, its end-to-end check failing, poisons the word; of
one that is FULL it is lost and sets OVR; any other write of the fill window is dropped; that one into a FULL word of an UNBOUND or DEVICE queue
leaves OVR as it is, the model's reading (log 61). An 8-byte host write there is a fill. -/
def FillsEnterRings : Prop :=
  ∀ (s : State) (off : Nat) (v : Word), let o := off - 0x4000000; let q := o / 4096; let fa := ringFa q (o % 4096 / 64)
    let ok := s.hostServed = true ∧ 0x4000000 ≤ off ∧ off < 0x8000000 ∧ o % 64 = 0 ∧ ((s.queue q).mode = modeHOST ∨ (s.queue q).mode = modeDEAD)
    let sound := s.upsets.contains .hostCrc = false
    (ok → s.full fa = false → sound → NoWaiter s fa → s.mem.wf = true → ∃ t, exec (.hostFill off v) s = .next t ∧ Bytes s t fa 8 v.toNat ∧
      FeAt s t fa true ∧ t.ctxs = s.ctxs ∧ t.disp = s.disp) ∧
    (ok → s.full fa = false → ¬ sound → ∃ t, exec (.hostFill off v) s = .next t ∧ (∀ a, t.byte a = s.byte a) ∧ (∀ a, t.full a = s.full a) ∧
      t.poison.contains fa = true ∧ t.trebex.hostPoison = true ∧ t.ctxs = s.ctxs ∧ t.disp = s.disp) ∧
    (ok → s.full fa = true → ∃ t, exec (.hostFill off v) s = .next t ∧ SameMemory s t ∧ t.ctxs = s.ctxs ∧
      t.queue q = { s.queue q with ovr := true } ∧ ∀ x, x ≠ q → t.queue x = s.queue x) ∧
    (¬ ok → exec (.hostFill off v) s = .next s) ∧
    (0x4000000 ≤ off → off < 0x8000000 → s.hostServed = true → exec (.hostMemWrite off 8 v) s = exec (.hostFill off v) s ∧
      ∀ n, n ≠ 8 → exec (.hostMemWrite off n v) s = .next s)

/-- R345, R348, R353, R380: a host write and a host read of mapped device memory, up to 8 bytes within a line: no full/empty bit changes, a read
changes nothing; one that maps nothing is dropped, and one of an address that the part does not have stops. A write that would change part of a
poisoned word is not made. The model's choices: an access lies within one 64-byte line (log 86), no part of a poisoned word is written (log 63), an
address that the part does not have stops (log 21), a write in a copy region is made (log 90), and only an access that is made is checked (log 105). -/
def HostAccessesMemory : Prop :=
  ∀ (s : State) (off n : Nat) (v : Word), s.hostServed = true → off < 0x4000000 ∨ 0x8000000 ≤ off →
    (s.hostBytes off n = none → exec (.hostMemWrite off n v) s = .next s) ∧
    (∀ fa, s.hostBytes off n = some fa → faMapped fa = false → exec (.hostMemWrite off n v) s = .fault (.noSuchAddress fa)) ∧
    (∀ fa, s.hostBytes off n = some fa → faMapped fa = true → s.upsets.contains .hostCrc = false →
      let spoiled := ∃ w, w % 8 = 0 ∧ s.poison.contains w = true ∧ w < fa + n ∧ fa < w + 8 ∧ ¬ (fa ≤ w ∧ w + 8 ≤ fa + n)
      (s.mem.wf = true → ¬ spoiled → ∃ t, exec (.hostMemWrite off n v) s = .next t ∧ Bytes s t fa n v.toNat ∧
        (∀ a, t.full a = s.full a) ∧ t.ctxs = s.ctxs) ∧
      (spoiled → ∃ t, exec (.hostMemWrite off n v) s = .next t ∧ { t with trebex := s.trebex } = s ∧ t.trebex.hostPoison = true) ∧
      (∃ t, exec (.hostMemRead off n) s = .next t ∧ { t with trebex := s.trebex } = s ∧ t.trebex.hostPoison = s.poisoned fa n ∧
        ((∀ i, i < n → (s.spindle (faSp (fa + i))).job = none ∨ faLocal (fa + i) < (s.spindle (faSp (fa + i))).sysbase) →
          t.trebex.hostData = BitVec.ofNat 64 (s.read fa n))))

/-- R353: a host read of word 0 of a record in the fill window tells whether it is FULL. -/
def FillWindowReads : Prop :=
  ∀ (s : State) (off : Nat), let o := off - 0x4000000
    s.hostServed = true → 0x4000000 ≤ off → off < 0x8000000 → o % 64 = 0 → ∃ t, exec (.hostMemRead off 8) s = .next t ∧
      { t with trebex := s.trebex } = s ∧ t.trebex.hostData = if s.full (ringFa (o / 4096) (o % 4096 / 64)) then 1 else 0

/-- R172, R187, R194, R318, R372, R380: what the host reads where a running job's system region keeps its skein, the blocks of its frontier reserve
and its ravel entries: the words of each record, laid out as the rules say. Where the items of the region begin (`regionAt`, R372) is the model's
reading of the region's order from the top of the slice down (log 41). -/
def RegionsShowTheirRecords : Prop :=
  ∀ (s : State) (off fa j save skein mig trace front ravel k w : Nat), let sp := faSp fa; let l := faLocal fa; let jb := s.job j
    s.hostServed = true → off < 0x4000000 ∨ 0x8000000 ≤ off → s.hostBytes off 8 = some fa → faMapped fa = true → s.upsets.contains .hostCrc = false →
    (s.spindle sp).job = some j → s.regionAt jb sp = [save, skein, mig, trace, front, ravel] → (s.spindle sp).sysbase ≤ l → 0x1000000 ≤ l →
    save ≤ 0x3FF0000 → skein ≤ save → mig ≤ skein → trace ≤ mig → front ≤ trace → ravel ≤ front → s.trebex.chip < 2 ^ 8 →
    let shows := fun (v : Nat) => ∃ t, exec (.hostMemRead off 8) s = .next t ∧ { t with trebex := s.trebex } = s ∧ t.trebex.hostData = BitVec.ofNat 64 v
    (∀ e, (s.spindle sp).skein[k]? = some e → w < 4 → l = skein + 32 * k + 8 * w → l + 8 ≤ save → shows (
      if w = 0 then e.plyg % 2 ^ 8 * 2 ^ 56 + (if e.anyph then 1 else 0) * 2 ^ 55 + e.sz % 4 * 2 ^ 53 + e.op % 16 * 2 ^ 49 + s.trebex.chip * 2 ^ 41 +
          e.fa % 2 ^ 41
      else if w = 1 then e.v else if w = 2 then e.key else e.phase % 2 ^ 32 * 2 ^ 32 + e.seqn % 2 ^ 32)) ∧
    (∀ b d, b % jb.rect.size = jb.rect.index sp → (s.blockDescs jb b)[k]? = some d → k < 128 → w < 2 →
      l = front + 2048 * (b / jb.rect.size) + 16 * k + 8 * w → l + 8 ≤ trace → shows (
      if w = 0 then d.nb % 2 ^ 32 * 2 ^ 32 + d.na % 2 ^ 32
      else (2 ^ 7 + (if d.reissued then 2 else 0) + if d.root then 1 else 0) * 2 ^ 8 + d.slot % 4)) ∧
    (∀ b e ix, b % jb.rect.size = jb.rect.index sp → k < 64 → s.ravelPlace j (64 * b + k) = some (e, ix) → w < 4 →
      l = ravel + 2048 * (b / jb.rect.size) + 32 * k + 8 * w → l + 8 ≤ front → shows (
      if w = 0 then e.sp % 2 ^ 14 * 2 ^ 50 + e.pcw % 2 ^ 50 else if w = 1 then e.arg0.toNat else if w = 2 then e.arg1.toNat
      else ix % 2 ^ 16 * 2 ^ 48 + e.seqn % 2 ^ 48))

/-- A record's slot says that it has completed with a status (R375). -/
def Completed (t : State) (q slot ser status job : Nat) : Prop :=
  Table.find (t.queue q).slots slot = some { ser := ser, state := 5, status := status, job := job }

/-- The record of a queue ends without a launch: it is held no more, its slot says so, and COMPL, where it has one that translates, holds the
completion word and is FULL. -/
def RecordEnds (s t : State) (q : Nat) (h : Held) (status detail : Nat) : Prop :=
  (t.queue q).held = none ∧ Completed t q h.slot h.ser status h.serial ∧
  (h.compl = 0 → (∀ a, t.byte a = s.byte a) ∧ t.ctxs = s.ctxs) ∧
  ∀ fb c, h.compl ≠ 0 → h.compl.toNat % 8 = 0 → s.rootPage h.qroot h.compl needW = some (fb, c) → NoWaiter s fb → s.mem.wf = true →
    Bytes s t fb 8 (complWord status detail 0 h.serial).toNat ∧ t.full fb = true ∧ t.ctxs = s.ctxs

/-- R362, R377: the dispatcher takes the record at HEADIX, or of a dead queue the first from there on: its word 0 becomes EMPTY, HEADIX and SER
advance; a record without a dependency is ready, one that breaks a rule completes REFUSED, one of a dead queue CANCELLED. Three things are the
model's reading: SER is the record's before it advances (log 48), of several reasons the lowest is told (log 49), and a dead queue is taken past its
EMPTY slots, SER advancing (log 104). -/
def RecordsAreTaken : Prop :=
  ∀ (s : State) (q slot : Nat), let x := s.queue q; let fa := ringFa q slot
    let ws : Vector Word 8 := Vector.ofFn fun i => BitVec.ofNat 64 (s.read (fa + 8 * i.val) 8)
    let ext := s.readExt x.root ws[7]
    let h : Held := { ws := ws, ext := ext.getD (Vector.replicate 16 0), slot := slot, ser := x.ser, qroot := x.root }
    (s.canTake q = false → exec (.recordTake q) s = .next s) ∧
    (x.mode ≠ modeDEAD → s.takeSlot q = some slot → slot = x.head ∧ s.full fa = true) ∧
    (s.canTake q = true → s.takeSlot q = some slot → NoWaiter s fa → ∃ t, exec (.recordTake q) s = .next t ∧
      (t.queue q).head = (slot + 1) % 64 ∧ (t.queue q).ser = nextSer x.ser ∧ (h.compl = 0 → FeAt s t fa false) ∧
      (x.mode = modeDEAD → RecordEnds s t q h 1 0) ∧
      (x.mode ≠ modeDEAD → s.takeReason h ext.isNone ≠ 0 → RecordEnds s t q h 3 (s.takeReason h ext.isNone)) ∧
      (x.mode ≠ modeDEAD → s.takeReason h ext.isNone = 0 → h.dep 0 = 0 → h.dep 1 = 0 → (t.queue q).held = some { h with met := true } ∧
        (∀ a, t.byte a = s.byte a) ∧ FeAt s t fa false ∧ t.ctxs = s.ctxs ∧
        Table.find (t.queue q).slots slot = some { ser := x.ser, state := 2, status := 0, job := 0 }))

/-- R363: a held record whose dependency word is not FULL waits; FULL, it is met, unless it is a completion word with a status other than OK and the
record does not run regardless: then the record completes CANCELLED, and COMPL is filled with its completion word. -/
def DependenciesAreTested : Prop :=
  ∀ (s : State) (q : Nat) (h : Held) (fa k : Nat), (s.queue q).held = some h → s.running = true → h.met = false → h.dep 0 = 0 → h.dep 1 ≠ 0 →
    s.rootPage h.qroot (h.dep 1) needR = some (fa, k) → let v := s.read fa 8
    let failed := v / 2 ^ 56 % 2 ^ 8 = 0xC5 ∧ v / 2 ^ 48 % 2 ^ 8 ≠ 0 ∧ h.runReg = false
    (s.full fa = false → exec (.dependencyPoll q) s = .next s) ∧
    (s.full fa = true → ¬ failed → ∃ t, exec (.dependencyPoll q) s = .next t ∧ { t with disp := s.disp } = s ∧
      t.queue q = { s.queue q with held := some { h with met := true } }) ∧
    (s.full fa = true → failed → ∃ t, exec (.dependencyPoll q) s = .next t ∧ RecordEnds s t q h 1 0)

/-- R367: the corner that a record without a place takes is the fitting one with the lowest y, then the lowest x. -/
def CornersAreLowest : Prop :=
  ∀ (free : Nat → Bool) (w h : Nat) (r : Rect), lowestCorner free w h = some r →
    r.w = w ∧ r.h = h ∧ r.fits free = true ∧ ∀ x y, x < meshW → (y < r.y0 ∨ (y = r.y0 ∧ x < r.x0)) → (⟨x, y, w, h⟩ : Rect).fits free = false

/-- R366: the record that queue `q` holds is the one that the dispatcher takes: its dependencies are met, no other queue's record of its level and
nothing of a higher one is a candidate. -/
structure Chosen (s : State) (q : Nat) (h : Held) : Prop where
  may : s.running = true ∧ s.disp.pickedAt ≠ s.now + 1
  held : (s.queue q).held = some h ∧ h.met = true ∧ h.prio ≤ 7 ∧ 0 < (s.queue q).weight
  jobs : ∀ j ∈ s.disp.preempted, (s.job j).prio < h.prio
  only : (∀ p, h.prio < p → p ≤ 7 → s.candQueues p = []) ∧ s.candQueues h.prio = [q]

/-- The queue's turn is over: LAST is the queue, and its credit, renewed where it was 0, is one less. -/
def TurnOver (s t : State) (q p : Nat) : Prop :=
  t.disp.last.toList[p]? = some q ∧ (t.queue q).credit = (if (s.queue q).credit = 0 then (s.queue q).weight else (s.queue q).credit) - 1

/-- R366 to R369: the choice of the dispatcher, once a cycle. The chosen record is placed in free spindles: it takes a JOB serial, its rectangle is
reserved, and its queue's turn is over. Where only the jobs of lower levels are in the way, those are pre-empted for it and it keeps its turn; it is
placed once they are off the package. Where it cannot be placed at all nothing happens. That the choice is made once a cycle (log 53), and that a
record which waits for its victims stays a candidate while one that waits for its go word is none (log 122), are the model's. -/
def RecordsAreChosen : Prop :=
  ∀ (s : State) (q : Nat) (h : Held) (r : Rect), let i := Instr.launchSelect; let none_ := exec i s = .next { s with disp := { s.disp with pickedAt := s.now + 1 } }
    let gets := fun (t : State) vs => (t.queue q).held = some { h with rect := some r, serial := s.disp.nextJob, goRead := decide (h.gow = 0), victims := vs } ∧
      t.disp.nextJob = nextJobNo s.disp.nextJob ∧ Table.find (t.queue q).slots h.slot = some { ser := h.ser, state := 2, status := 0, job := s.disp.nextJob }
    let res := s.reserved
    (s.running = true → s.disp.pickedAt = s.now + 1 → exec i s = .next s) ∧
    (s.running = true → s.disp.pickedAt ≠ s.now + 1 → s.disp.preempted = [] →
      (∀ e ∈ s.disp.queues, ∀ k, e.2.held = some k → k.met = false ∨ (k.rect ≠ none ∧ k.victims = [])) → none_) ∧
    (Chosen s q h →
      (h.rect = none → h.placed (s.spFree res none) = some r → s.victims r = [] → h.regionsFit (s.queue q) r = true → h.placew = 0 →
        ∃ t, exec i s = .next t ∧ SameMemory s t ∧ t.ctxs = s.ctxs ∧ gets t [] ∧ TurnOver s t q h.prio) ∧
      (h.rect = none → h.placed (s.spFree res none) = none → h.placed (s.spFree res (some h.prio)) = none → none_) ∧
      (h.rect = none → h.placed (s.spFree res none) = none → h.placed (s.spFree res (some h.prio)) = some r → h.regionsFit (s.queue q) r = true →
        h.placew = 0 → ∃ t, exec i s = .next t ∧ SameMemory s t ∧ t.ctxs = s.ctxs ∧ gets t (s.victims r) ∧ t.disp.last = s.disp.last ∧
          (t.queue q).credit = (s.queue q).credit ∧ ∀ j ∈ s.victims r, (s.job j).phase = .running → (t.job j).phase = .preempting) ∧
      (h.rect = some r → (∀ sp ∈ r.spindles, (s.spindle sp).fenced = false) →
        ((∃ j ∈ h.victims, s.gone j = false) → none_) ∧
        ((∀ j ∈ h.victims, s.gone j = true) → (∀ sp ∈ r.spindles, (s.spindle sp).job = none) → ∃ t, exec i s = .next t ∧ SameMemory s t ∧
          t.ctxs = s.ctxs ∧ (t.queue q).held = some { h with victims := [] } ∧ TurnOver s t q h.prio)))

/-- R369: the go word of a reserved record: while EMPTY the record waits; FULL, it gives the launch its root, or the queue's; a word that breaks a
rule ends the record REFUSED, its ROOT bits too where RV is 0: the model's reading (log 56). -/
def GoWordsAreRead : Prop :=
  ∀ (s : State) (q : Nat) (h : Held) (r : Rect) (fa k : Nat), s.running = true → (s.queue q).held = some h → h.rect = some r → h.goRead = false →
    s.rootPage h.qroot h.gow needR = some (fa, k) → let v := s.read fa 8; let i := Instr.goWordReady q
    let bad := v / 2 ^ 49 % 2 ^ 14 ≠ 0 ∨ v % 2 ^ 15 ≠ 0 ∨ (v.testBit 63 = true ∧ ¬ (r.has (v / 2 ^ 27 % 2 ^ 14) = true ∧ v / 2 ^ 41 % 2 ^ 8 = s.trebex.chip))
    (s.full fa = false → exec i s = .next s) ∧
    (s.full fa = true → ¬ bad → ∃ t, exec i s = .next t ∧ { t with disp := s.disp } = s ∧ t.queue q =
      { s.queue q with held := some { h with goRead := true, goRoot := if v.testBit 63 then some (v % 2 ^ 49) else none } }) ∧
    (s.full fa = true → bad → ∃ t, exec i s = .next t ∧ RecordEnds s t q h 3 9)

/-- R26, R29, R366, R371: a launch starts: on every spindle of its rectangle context 0 is READY at the entry, with g1 the parameter, g2 the spindle's
index and g3 the rectangle's sides, context 15 is its handler's where it has one, and every other context is FREE. None starts while a candidate of a
higher level exists: for a record that is placed already that is the model's reading (log 122). -/
def LaunchesStart : Prop :=
  ∀ (s : State) (q : Nat) (h : Held) (r : Rect), let i := Instr.launchStart q
    (s.canStart q = none → exec i s = .next s) ∧
    ((s.queue q).held = some h → (∃ e ∈ s.disp.queues, ∃ k, e.2.held = some k ∧ k.met = true ∧ (k.rect = none ∨ k.victims ≠ []) ∧ h.prio < k.prio) →
      exec i s = .next s) ∧
    (s.canStart q = some (h, r) → r.shapeOk = true → (∀ sp ∈ r.spindles, (s.spindle sp).fenced = false) →
      h.grtab = 0 → h.chtab = 0 → h.treeTab = 0 → h.live = 0 → h.trace = 0 → ∃ t, exec i s = .next t ∧ SameMemory s t ∧ t.msgs = s.msgs ∧
        (∃ jb, Table.find t.jobs h.serial = some jb ∧ jb.rect = r ∧ jb.entry = h.word 1 ∧ jb.param = h.word 2 ∧ jb.lseed = h.word 3 ∧ jb.prio = h.prio ∧
          jb.phase = .running) ∧
        (t.queue q).held = none ∧ Table.find (t.queue q).slots h.slot = some { ser := h.ser, state := 3, status := 0, job := h.serial } ∧
        ∀ n, n < r.size → let sp := r.spindle n; let c := fun k => t.ctx (keyOf sp k)
          (t.spindle sp).job = some h.serial ∧ (t.spindle sp).tlb = [] ∧ (t.spindle sp).icache = [] ∧ (t.spindle sp).skein = [] ∧
          (c 0).st = .ready ∧ (c 0).pc = h.word 1 ∧ (c 0).thidx = 16 * n ∧ (c 0).handler = false ∧ (c 0).cprof = BitVec.ofNat 64 h.cprof ∧
          (∀ x : Reg, (c 0).reg x = if x = 1 then h.word 2 else if x = 2 then BitVec.ofNat 64 n
            else if x = 3 then BitVec.ofNat 64 (r.h * 2 ^ 32 + r.w) else 0) ∧
          (∀ k, 1 ≤ k → k ≤ 14 → (c k).st = .free) ∧ (h.handler = 0 → (c 15).st = .free) ∧
          (h.handler ≠ 0 → (c 15).st = .ready ∧ (c 15).pc = h.handler ∧ (c 15).handler = true ∧ (c 15).supv = true))

/-- R374: a device-side launch at the dispatcher: the record enters the ring at TAILIX and is FULL, and the answer names it; a dead queue and a full
slot are told, a queue of another rectangle or mode raises LAUNCH. The queue keeps the cycle of any answer but that of a dead queue, on which no
tear-down of it is accepted. -/
def DeviceLaunchesEnterRings : Prop :=
  ∀ (s : State) (m : Msg) (ws : List Word) (q from_ : Nat), Arriving s m → m.body = .launch ws q from_ → let i := Instr.launchRequest m.id
    let x := s.queue q; let fa := ringFa q x.tail
    (x.mode = modeDEAD → JustAnswers i s m (.reply (2 ^ 56))) ∧
    let answers := fun b => ∃ t, exec i s = .next t ∧ Answered s t m b ∧ t.queue q = { x with launchedAt := s.now + 1 } ∧
      (∀ n, n ≠ q → t.queue n = s.queue n) ∧ OnlyMessages s { t with disp := s.disp }
    (x.mode ≠ modeDEAD → (x.mode ≠ modeDEVICE ∨ q / 16 ≠ from_ / 16) → answers (.nack cLAUNCH m.va)) ∧
    (x.mode = modeDEVICE → q / 16 = from_ / 16 → s.full fa = true → answers (.reply (2 * 2 ^ 56))) ∧
    (x.mode = modeDEVICE → q / 16 = from_ / 16 → s.full fa = false → NoWaiter s fa → s.mem.wf = true → ws.length = 8 →
      ∃ t, exec i s = .next t ∧ t.ctxs = s.ctxs ∧ (∀ n, n < 8 → t.read (fa + 8 * n) 8 = (ws.getD n 0).toNat) ∧
        (∀ a, a < fa ∨ fa + 64 ≤ a → t.byte a = s.byte a) ∧ FeAt s t fa true ∧ (t.queue q).tail = (x.tail + 1) % 64 ∧
        Replied t m (.reply (q * 2 ^ 18 + x.tail * 2 ^ 12 + serAfter x.ahead x.ser)))

/-- R364, R375: a launch all of whose work is done retires: its status by how it ended, its completion word filled, its spindles and contexts free,
its number forgotten. That ENDED goes before KILLED, and that before OK, is the model's reading (log 57); so are the defaults that the contexts'
words take (log 107). -/
def LaunchesRetire : Prop :=
  ∀ (s : State) (j : Nat) (jb : Job), Table.find s.jobs j = some jb → let i := Instr.launchRetire j
    let status := if jb.ended then 4 else if jb.killed then 2 else 0
    (s.canRetire j = false → exec i s = .next s) ∧
    (s.canRetire j = true → jb.repeat_ = false → ∃ t, exec i s = .next t ∧ Table.find t.jobs j = none ∧
      Completed t jb.queue jb.slot jb.ser status jb.serial ∧
      (∀ sp ∈ s.liveSpindles j, (t.spindle sp).job = none ∧ ∀ n, n < 16 → (t.ctx (keyOf sp n)).st = .free) ∧
      (∀ fb k, s.mem.wf = true → NoWaiter s fb → (∀ sp, (s.spindle sp).sysbase ≤ 0x4000000) → jb.compl ≠ 0 → jb.compl.toNat % 8 = 0 →
        s.rootPage jb.queueRoot jb.compl needW = some (fb, k) →
          let lost := jb.lostTrace = true ∨ ∃ sp ∈ jb.rect.spindles, (s.spindle sp).job = some j ∧ (s.spindle sp).traceLost = true
          Bytes s t fb 8 (complWord status jb.detail ((if lost then 1 else 0) * 2 ^ 35 + (if jb.lostPairs then 1 else 0) * 2 ^ 34 + (if jb.lostFence then 1 else 0) * 2 ^ 33)
            jb.serial).toNat ∧ FeAt s t fb true))

end Sys2Proof.Claims

/-- R172, R187, R194, R318, R345, R348, R353, R356, R372, R380: the host's fills, writes and reads. The model's choices: which lost fills set OVR
(log 61), an access lies within one line (log 86), no part of a poisoned word is written (log 63), an address that the part does not have stops (log
21), a write in a copy region is made (log 90), only accesses that are made are checked (log 105), and where the items of a system region begin (log
41). -/
def Obligations.HostReachesQueuesAndMemory : Prop := FillsEnterRings ∧ HostAccessesMemory ∧ FillWindowReads ∧ RegionsShowTheirRecords

/-- R361 to R363, R374: records enter rings, are taken, checked and held until their dependencies are met. Logs 48, 49 and 104 tell what of it is the
model's reading. -/
def Obligations.RecordsAreTakenAndTested : Prop := RecordsAreTaken ∧ DependenciesAreTested ∧ DeviceLaunchesEnterRings

/-- R26, R29, R364, R366 to R369, R371, R375: the choice, the start and the end of a launch. Logs 53, 56 and 57 tell what of it is the model's
reading. -/
def Obligations.LaunchesAreChosenStartedAndRetired : Prop := CornersAreLowest ∧ RecordsAreChosen ∧ GoWordsAreRead ∧ LaunchesStart ∧ LaunchesRetire

/-! ### The Trebex controller -/

namespace Sys2Proof.Claims

/-- The command of a code runs, with these arguments latched. -/
def Commanded (s : State) (code a0 a1 a2 a3 : Nat) : Prop :=
  s.trebex.busy = true ∧ s.trebex.cmd = code ∧ s.trebex.latched.toList.map (·.toNat) = [a0, a1, a2, a3]

/-- The command ends with a status and a result in MRESP, and BUSY is 0. -/
def Responds (i : Instr) (s : State) (status res : Nat) (e : State → Prop) : Prop :=
  ∃ t, exec i s = .next t ∧ t.trebex.mresp = BitVec.ofNat 64 (status * 2 ^ 56 + res) ∧ t.trebex.busy = false ∧ e t

/-- The command ends with a status and changes nothing but the controller's own registers. -/
def Refuses (i : Instr) (s : State) (status : Nat) : Prop :=
  Responds i s status 0 fun t => { t with trebex := s.trebex } = s ∧ t.trebex = { s.trebex with mresp := t.trebex.mresp, busy := false }

/-- R379, R380: 8-byte writes of MCMD and MARG0 to MARG3: MCMD starts a listed command, is dropped with CMDERR while one runs, and completes an
unlisted one BADARG; every other write is dropped. -/
def RegisterWritesStartCommands : Prop :=
  ∀ (s : State) (off n : Nat) (v : Word), let i := Instr.registerWrite off n v; let x := s.trebex
    let only := fun (t : State) => { t with trebex := s.trebex } = s
    (n ≠ 8 → exec i s = .next s) ∧ (n = 8 → off ≠ 0x10 → ¬ (0x18 ≤ off ∧ off ≤ 0x30 ∧ off % 8 = 0) → exec i s = .next s) ∧
    (n = 8 → off = 0x10 →
      (x.busy = true → ∃ t, exec i s = .next t ∧ only t ∧ t.trebex = { x with cmdErr := true }) ∧
      (x.busy = false → 1 ≤ v.toNat → v.toNat ≤ 0x12 → ∃ t, exec i s = .next t ∧ only t ∧
        t.trebex = { x with busy := true, cmdAt := s.now, cmd := v.toNat, latched := x.marg }) ∧
      (x.busy = false → v.toNat = 0 ∨ 0x12 < v.toNat → Responds i s 1 0 only)) ∧
    (∀ k : Fin 4, n = 8 → off = 0x18 + 8 * k.val → ∃ t, exec i s = .next t ∧ only t ∧ t.trebex = { x with marg := x.marg.set k v }) ∧
    ∀ p ∈ [(0x01, Instr.invtlb), (0x02, .teardown), (0x03, .bindq), (0x04, .winset), (0x05, .pairset), (0x06, .contset), (0x07, .clearfence),
        (0x08, .stop), (0x09, .go), (0x0A, .stopread), (0x0B, .peermap), (0x0C, .route), (0x0D, .dwmap), (0x0E, .pstate), (0x0F, .attest),
        (0x10, .fwload), (0x11, .fenceread), (0x12, .chipno)],
      (x.busy = false ∨ x.cmd ≠ p.1 → exec p.2 s = .next s)

/-- R112, R313, R330, R353, R355, R403: the commands that set a table write their entry, all of it; an argument out of range completes BADARG with no
effect, and an absent launch NOTFOUND (log 65). -/
def TablesAreSet : Prop :=
  ∀ (s : State) (a0 a1 a2 a3 : Nat),
    let ok := fun i (e : State → Prop) => Responds i s 0 0 fun t => t.ctxs = s.ctxs ∧ SameMemory s t ∧ t.msgs = s.msgs ∧ e t
    (Commanded s 0x04 a0 a1 a2 a3 → let sp := a0 % 2 ^ 14
      (∀ w : Fin 4, a0 = sp + 2 ^ 16 * w.val → sp < numSpindles → a1 / 2 ^ 47 % 2 ^ 13 = 0 → a1 / 2 ^ 21 % 2 ^ 5 = 0 → a2 < 2 ^ 28 → a3 = 0 →
        ok .winset fun t => (∀ x, x ≠ sp → t.spindle x = s.spindle x) ∧ t.spindle sp = { s.spindle sp with
          winA := (s.spindle sp).winA.set w (BitVec.ofNat 64 a1), winB := (s.spindle sp).winB.set w (BitVec.ofNat 64 a2) }) ∧
      (a3 ≠ 0 ∨ 2 ^ 28 ≤ a2 ∨ numSpindles ≤ sp → Refuses .winset s 1)) ∧
    (Commanded s 0x05 a0 a1 a2 a3 →
      (a0 < numSpindles → a1 < numSpindles → a2 < numSpindles → a3 = 0 → ok .pairset fun t => (∀ x, x ≠ a0 → t.spindle x = s.spindle x) ∧
        t.spindle a0 = { s.spindle a0 with primary := a1, secondary := a2 }) ∧
      (numSpindles ≤ a0 ∨ numSpindles ≤ a1 ∨ numSpindles ≤ a2 ∨ a3 ≠ 0 → Refuses .pairset s 1)) ∧
    (Commanded s 0x03 a0 a1 a2 a3 →
      (a0 < numQueues → a3 = 0 → a1 / 2 ^ 49 % 2 ^ 13 = 0 → a1 % 2 ^ 20 = 0 → a1 / 2 ^ 41 % 2 ^ 8 ≠ 0 → a2 < 2 ^ 49 → a2 % 2 ^ 15 = 0 → ok .bindq fun t =>
        (∀ x, x ≠ a0 → t.queue x = s.queue x) ∧
        t.queue a0 = { s.queue a0 with
          mode := a1 / 2 ^ 62 % 4, ovr := false, head := 0, tail := 0,
          weight := a1 / 2 ^ 41 % 2 ^ 8, pwin := a1 / 2 ^ 33 % 2 ^ 8, skn := a1 / 2 ^ 28 % 2 ^ 5, mres := 64 * (a1 / 2 ^ 20 % 2 ^ 8), root := a2, credit := 0, fast := none }) ∧
      (numQueues ≤ a0 ∨ a3 ≠ 0 ∨ a1 / 2 ^ 41 % 2 ^ 8 = 0 → Refuses .bindq s 1)) ∧
    (Commanded s 0x0C a0 a1 a2 a3 → (a0 ≤ 255 → a1 ≤ 19 → a2 = 0 → a3 = 0 → ok .route fun t =>
        t.trebex.routes = Table.set s.trebex.routes a0 a1) ∧ (255 < a0 ∨ 19 < a1 ∨ a2 ≠ 0 ∨ a3 ≠ 0 → Refuses .route s 1)) ∧
    (Commanded s 0x0D a0 a1 a2 a3 → (a0 ≤ 4095 → a1 / 2 ^ 49 % 2 ^ 14 = 0 → a1 % 2 ^ 20 = 0 → a2 = 0 → a3 = 0 → ok .dwmap fun t =>
        Table.find t.trebex.apertures a0 = (if a1.testBit 63 then some (a1 % 2 ^ 49) else none) ∧
        ∀ x, x ≠ a0 → Table.find t.trebex.apertures x = Table.find s.trebex.apertures x) ∧ (4095 < a0 ∨ a2 ≠ 0 ∨ a3 ≠ 0 → Refuses .dwmap s 1)) ∧
    (Commanded s 0x0B a0 a1 a2 a3 → a0 < 2 ^ 32 → a1 ≤ 15 → a2 ≤ 255 → a3 < 2 ^ 49 → a3 % 2 ^ 15 = 0 →
      (∀ j, s.jobOf a0 = some j → ok .peermap fun t => (t.job j).peers = Table.set (s.job j).peers a1 (a2, a3)) ∧
      (s.jobOf a0 = none → s.heldOf a0 = none → Refuses .peermap s 4)) ∧
    (Commanded s 0x12 a0 a1 a2 a3 → a0 ≤ 255 → a1 = 0 → a2 = 0 → a3 = 0 →
      (s.trebex.stage = 6 → s.jobs = [] → (∀ e ∈ s.disp.queues, e.2.held = none) → ok .chipno fun t => t.trebex.chip = a0) ∧ (s.jobs ≠ [] ∨ s.trebex.stage ≠ 6 → Refuses .chipno s 2))

/-- R384: the rectangle whose corners an argument names, seven bits a coordinate, whether or not it lies in the mesh. -/
def Corners (v : Nat) (r : Rect) : Prop :=
  ∃ x0 y0 x1 y1, v = x0 + 2 ^ 7 * y0 + 2 ^ 14 * x1 + 2 ^ 21 * y1 ∧ x0 ≤ x1 ∧ y0 ≤ y1 ∧ x1 < 2 ^ 7 ∧ y1 < 2 ^ 7 ∧
    r = ⟨x0, y0, x1 + 1 - x0, y1 + 1 - y0⟩

/-- R384, R385: a containment rectangle of a switched-out launch is set where it may stand, and refused elsewhere, outside the mesh too; CLEARFENCE
zeroes and gives back the fenced spindles of a rectangle that no launch holds, but for retired clusters, and answers how many clusters returned.
NOTFOUND where nothing is fenced, and the retired clusters, are the model's reading (log 68). -/
def FencesAreSetAndCleared : Prop :=
  ∀ (s : State) (a0 a1 a2 a3 : Nat) (r : Rect),
    (Commanded s 0x06 a0 a1 a2 a3 → a0 < 2 ^ 32 → a1 ≤ 63 → a3 = 0 → Corners a2 r →
      (∀ j, s.jobOf a0 = some j → let jb := s.job j
        (jb.phase = .out → contOk jb.rect (!jb.trees.isEmpty) jb.conts a1 r = true → Responds .contset s 0 0 fun t => SameMemory s t ∧ t.ctxs = s.ctxs ∧
          (t.job j).conts = jb.conts.filter (fun e => e.1 != a1) ++ [(a1, r)]) ∧ (jb.phase ≠ .out → Refuses .contset s 2) ∧
        (contOk jb.rect (!jb.trees.isEmpty) jb.conts a1 r = false → Refuses .contset s 2)) ∧
      (s.jobOf a0 = none → s.heldOf a0 = none → Refuses .contset s 4)) ∧
    (Commanded s 0x07 a0 a1 a2 a3 → s.mem.wf = true → a1 = 0 → a2 = 0 → a3 = 0 → Corners a0 r → r.y0 + r.h ≤ 96 →
      ((∃ e ∈ s.jobs, e.2.rect.meets r = true) → Refuses .clearfence s 2) ∧
      ((∀ e ∈ s.jobs, e.2.rect.meets r = false) →
        ((∀ sp ∈ r.spindles, (s.spindle sp).fenced = false) → Refuses .clearfence s 4) ∧
        ∀ sp ∈ r.spindles, (s.spindle sp).fenced = true →
          let back := fun cl => (clusterSpindles cl).any fun x => r.spindles.contains x && (s.spindle x).fenced && !(s.spindle x).retired
          Responds .clearfence s 0 (r.clusters.filter back).length fun t =>
          (t.spindle sp).fenced = (s.spindle sp).retired ∧ (t.spindle sp).gust = [] ∧ (t.cluster (clusterOf sp)).acc = [] ∧
          (∀ a, faOf sp 0 ≤ a → a < faOf sp (2 ^ 27) → t.byte a = 0 ∧ t.poison.contains a = false ∧ t.fe.contains a = false) ∧
          ∀ x a, x ∉ r.spindles → faOf x 0 ≤ a → a < faOf x (2 ^ 27) → t.byte a = s.byte a))

/-- A queued loom command of the job after INVTLB: a page that the range meets leads where the tables say now. -/
def PagesFound (s : State) (j lo hi : Nat) (c d : LoomCmd) : Prop :=
  (c.job ≠ j → d = c) ∧ { d with pages := c.pages } = c ∧
  ∀ v fa, (v, fa) ∈ d.pages → ∃ old, (v, old) ∈ c.pages ∧ (v / 64 < lo / 2 ^ 22 ∨ hi / 2 ^ 22 < v / 64 → fa = old) ∧
    (c.job = j → lo / 2 ^ 22 ≤ v / 64 → v / 64 ≤ hi / 2 ^ 22 → ∃ p, s.walkJob j (BitVec.ofNat 64 (v * 2 ^ 16)) = some p ∧
      fa = p.fa (BitVec.ofNat 64 (v * 2 ^ 16)))

/-- R111, R333, R377: INVTLB drops the job's pages that meet the range and no other; STOP halts every spindle of a running launch and GO lets them,
or its saved ones, go on; TEARDOWN makes its queue dead and ends its held record and its ring's CANCELLED. That TEARDOWN is put off (log 104), INVTLB
of queued loom commands (log 106), and NOTFOUND without a launch (log 65) are the model's reading. -/
def LaunchesAreManaged : Prop :=
  ∀ (s : State) (a0 a1 a2 a3 j : Nat), let jb := s.job j
    (Commanded s 0x01 a0 a1 a2 a3 → a0 < 2 ^ 32 → a3 = 0 →
      (s.jobOf a0 = some j → Responds .invtlb s 0 0 fun t => { t with trebex := s.trebex, spindles := s.spindles, clusters := s.clusters } = s ∧
        (∀ cl, let x := s.cluster cl; let y := t.cluster cl
          { y with enter := x.enter, queue := x.queue } = x ∧ List.Forall₂ (PagesFound s j a1 a2) (x.enter ++ x.queue) (y.enter ++ y.queue)) ∧ ∀ sp,
        { t.spindle sp with tlb := (s.spindle sp).tlb } = s.spindle sp ∧
        ∀ x, x ∈ (t.spindle sp).tlb ↔ x ∈ (s.spindle sp).tlb ∧ ¬ (x.job = j ∧
          (let n := if x.page.big then 64 else 1; x.vpn / n * n * 2 ^ 16 ≤ a2 ∧ a1 < (x.vpn / n + 1) * n * 2 ^ 16))) ∧
      (s.jobOf a0 = none → Refuses .invtlb s 4)) ∧
    (Commanded s 0x08 a0 a1 a2 a3 → a0 < 2 ^ 32 → a1 = 0 → a2 = 0 → a3 = 0 → s.jobOf a0 = some j → jb.phase = .running → jb.stopped = false →
      Responds .stop s 0 0 fun t => SameMemory s t ∧ t.ctxs = s.ctxs ∧ (t.job j).stopped = true ∧ ∀ sp ∈ jb.rect.spindles, (s.spindle sp).fenced = false →
        (t.spindle sp).halted = true ∧ (t.spindle sp).haltCycle = s.now ∧ (t.spindle sp).stopSent = (s.spindle sp).sent ∧
        (t.spindle sp).stopRcvd = (s.spindle sp).rcvd) ∧
    (Commanded s 0x09 a0 a1 a2 a3 → a0 < 2 ^ 32 → a1 = 0 → a2 = 0 → a3 = 0 →
      (s.jobOf a0 = some j → Responds .go s 0 0 fun t => SameMemory s t ∧ t.ctxs = s.ctxs ∧ (t.job j).stopped = false ∧
        (∀ v ∈ (t.job j).saved, v.state.halted = false) ∧ ∀ sp, ((s.spindle sp).job = some j → sp ∈ jb.rect.spindles → (t.spindle sp).halted = false) ∧
          ((s.spindle sp).job ≠ some j → t.spindle sp = s.spindle sp)) ∧ (s.jobOf a0 = none → Refuses .go s 4)) ∧
    (Commanded s 0x02 a0 a1 a2 a3 → a0 < numQueues → a1 = 0 → a2 = 0 → a3 = 0 → let x := s.queue a0; let full := fun n => s.full (ringFa a0 n) = true
      (s.running = true → x.launchedAt = s.now + 1 → exec .teardown s = .next s) ∧
      (x.launchedAt ≠ s.now + 1 → (∀ n, n < 64 → ¬ full n) → x.head < 64 →
        (x.held = none → Responds .teardown s 0 0 fun t => SameMemory s t ∧ t.ctxs = s.ctxs ∧ t.jobs = s.jobs ∧ t.queue a0 = { x with mode := modeDEAD }) ∧
        ∀ h, x.held = some h → (h.compl = 0 ∨ h.compl.toNat % 8 = 0) → (∀ fb c, s.rootPage h.qroot h.compl needW = some (fb, c) →
          ∀ n, n < 64 → fb ≠ ringFa a0 n) → Responds .teardown s 0 0 fun t => RecordEnds s t a0 h 1 0 ∧ (t.queue a0).mode = modeDEAD ∧ t.jobs = s.jobs) ∧
      (x.launchedAt ≠ s.now + 1 → x.held = none → x.head < 64 →
        (∀ n, n < 64 → full n → NoWaiter s (ringFa a0 n) ∧ s.read (ringFa a0 n + 48) 8 = 0) → Responds .teardown s 0 0 fun t =>
          (t.queue a0).mode = modeDEAD ∧ (t.queue a0).held = none ∧ t.jobs = s.jobs ∧ (∀ a, t.byte a = s.byte a) ∧ ∀ n, n < 64 →
            t.full (ringFa a0 n) = false ∧ (full n → ∃ r, Table.find (t.queue a0).slots n = some r ∧ r.state = 5 ∧ r.status = 1)))

/-- R334, R335, R350: STOPREAD and FENCEREAD store their record at a device-memory address; one that is not mapped completes BADARG, and a report no
longer kept NOTFOUND. That the address goes through an aperture is the model's reading (log 66). -/
def RecordsAreRead : Prop :=
  ∀ (s : State) (a0 a1 a2 a3 fa : Nat),
    let wide := fun n => a1 % 8 = 0 ∧ 0x8000000 ≤ a1 ∧ ∀ i, i < n → s.hdmFa (a1 + 8 * i) = some (fa + 8 * i) ∧
      faMapped (fa + 8 * i) = true
    let stores := fun (l : List Nat) (t : State) => t.ctxs = s.ctxs ∧ (∀ i, i < l.length → t.read (fa + 8 * i) 8 = l.getD i 0 % 2 ^ 64) ∧
      (∀ a, a < fa ∨ fa + 8 * l.length ≤ a → t.byte a = s.byte a) ∧ ∀ a, t.full a = s.full a
    s.mem.wf = true →
    (Commanded s 0x0A a0 a1 a2 a3 → a0 < numSpindles → a3 = 0 → let l := (s.spindle a0).stopRecord a0 a2
      (wide l.length → Responds .stopread s 0 ((s.spindle a0).stopChans.length % 2 ^ 56) (stores l)) ∧
      (a1 % 8 ≠ 0 ∨ a1 < 0x8000000 ∨ (∃ i, i < l.length ∧ s.hdmFa (a1 + 8 * i) = none) → Refuses .stopread s 1)) ∧
    (Commanded s 0x11 a0 a1 a2 a3 → a2 = 0 → a3 = 0 → let first := s.trebex.fcount - s.trebex.reports.length
      (∀ r, a0 < s.trebex.fcount → first ≤ a0 → s.trebex.reports[a0 - first]? = some r → wide 8 →
        Responds .fenceread s 0 0 (stores (r.words s.trebex.chip))) ∧
      (s.trebex.fcount ≤ a0 ∨ a0 < first → Refuses .fenceread s 4) ∧
      (∀ r, a0 < s.trebex.fcount → first ≤ a0 → s.trebex.reports[a0 - first]? = some r →
        a1 % 8 ≠ 0 ∨ a1 < 0x8000000 ∨ (∃ i, i < 8 ∧ s.hdmFa (a1 + 8 * i) = none) → Refuses .fenceread s 1))

/-- R386, R387: FWLOAD puts a valid image into flash and refuses any other with SIGFAIL; ATTEST leaves a report of 512 bytes: the nonce and what the
rule lists, the identity key's signature of its digest, and zeros. The part's key is a free value (log 16); SIGFAIL for a bad magic or type is the
model's reading (log 72), as are addresses through an aperture (log 66). -/
def FirmwareAndAttestation : Prop :=
  ∀ (s : State) (a0 a1 a2 a3 : Nat),
    (Commanded s 0x10 a0 a1 a2 a3 → a2 = 0 → a3 = 0 →
      (∀ l, s.devBytes a0 a1 = some l →
        (s.imageValid l = true → Responds .fwload s 0 0 fun t => { t with trebex := s.trebex } = s ∧
          t.trebex.flash = Table.set s.trebex.flash (imgField l 4 2) l ∧ t.trebex.running = s.trebex.running) ∧
        (s.imageValid l = false → Refuses .fwload s 3)) ∧ (s.devBytes a0 a1 = none → Refuses .fwload s 1)) ∧
    (Commanded s 0x0F a0 a1 a2 a3 → Responds .attest s 0 0 fun t => { t with trebex := s.trebex } = s ∧ t.trebex.arep.take 32 =
      toBytes ([a0, a1, a2, a3].flatMap fun v => leBytes v 8) ∧ let body := s.reportBody a0 a1 a2 a3
      t.trebex.arep = toBytes (body ++ ed448Sign (identitySeed.map (·.toNat)) (shake256 body 64) ++ List.replicate 78 0))

end Sys2Proof.Claims

/-- R111, R112, R313, R330, R333 to R335, R350, R353, R355, R377, R379, R380, R384 to R387, R403: the management registers and commands. -/
def Obligations.CommandsDoWhatTheyName : Prop :=
  RegisterWritesStartCommands ∧ TablesAreSet ∧ FencesAreSetAndCleared ∧ LaunchesAreManaged ∧ RecordsAreRead ∧ FirmwareAndAttestation

namespace Sys2Proof.Claims

/-- R381: PSTATE between RUN and STANDBY with no launch, to OFF with no work either, from OFF back through bring-up, after a stage that failed too.
PSTATE to the state the package is in, and what OFF leaves, are the model's reading (log 69). -/
def PowerStatesChange : Prop :=
  ∀ (s : State) (a0 : Nat), Commanded s 0x0E a0 0 0 0 → let x := s.trebex
    let sets := fun p => Responds .pstate s 0 0 fun t => { t with trebex := s.trebex } = s ∧ t.trebex.pstate = p ∧ t.trebex.stage = x.stage
    (2 < a0 → Refuses .pstate s 1) ∧ (x.pstate = 0 → a0 = 1 → s.jobs = [] → sets 1) ∧ (x.pstate = 1 → a0 = 0 → sets 0) ∧
    (x.pstate ≤ 1 → a0 = x.pstate + 1 → s.jobs ≠ [] → Refuses .pstate s 2) ∧ (x.pstate = 2 → a0 = 1 → Refuses .pstate s 2) ∧
    (x.pstate = 2 → a0 = 0 → Responds .pstate s 0 0 fun t => { t with trebex := s.trebex } = s ∧ t.trebex.pstate = 0 ∧ t.trebex.stage = 2 ∧
      t.trebex.bootFault = false) ∧
    (x.pstate ≤ 1 → a0 = 2 → s.jobs = [] → s.queuesBusy = false → Responds .pstate s 0 0 fun t => t.trebex.pstate = 2 ∧ t.trebex.stage = 1 ∧ t.trebex.chip = 0 ∧ t.mem = [] ∧ t.fe = [] ∧
      t.spindles = [] ∧ t.ctxs = [] ∧ t.trebex.flash = x.flash ∧ t.trebex.retiredList = x.retiredList)

/-- R378, R386: power-on begins bring-up at its first stage with nothing in memory; a stage done well leads to the next, one that fails, or whose
images are not valid, stops the package there; the images that a stage verifies run from then on, the retired clusters are fenced, and the stage that
zeroes memory leaves no byte, no FULL word and no table; READY stays READY, and in OFF no stage runs. Which stage verifies which image, and that a
stage's outcome stands in the instruction, are the model's reading (log 70); that memory lists nothing before stage 4 is its choice (log 1). -/
def BringUpGoesByStages : Prop :=
  ∀ (s : State) (ok : Bool), let x := s.trebex; let i := Instr.bringupStageDone ok
    let checks := fun ty => x.stage = 1 ∧ ty = 0 ∨ x.stage = 3 ∧ 1 ≤ ty ∧ ty ≤ 3
    let valid := ∀ ty, checks ty → s.imageValid (s.flashImage ty) = true ∧ imgField (s.flashImage ty) 4 2 = ty
    (∃ t, exec .powerOn s = .next t ∧ t.trebex.stage = 1 ∧ t.trebex.bootFault = false ∧ t.trebex.busy = false ∧ t.mem = [] ∧ t.fe = [] ∧ t.poison = [] ∧
      t.ctxs = [] ∧ t.jobs = [] ∧ t.msgs = [] ∧ t.now = 0 ∧ t.trebex.flash = x.flash ∧ t.trebex.minSvn = x.minSvn) ∧
    (6 ≤ x.stage ∨ x.bootFault = true ∨ x.pstate = 2 → exec i s = .next s) ∧
    (1 ≤ x.stage → x.stage ≤ 5 → x.bootFault = false → x.pstate ≠ 2 →
      (ok = false ∨ ¬ valid → ∃ t, exec i s = .next t ∧ { t with trebex := s.trebex } = s ∧ t.trebex = { x with bootFault := true }) ∧
      (ok = true → valid → ∃ t, exec i s = .next t ∧ t.trebex.stage = x.stage + 1 ∧ t.trebex.bootFault = false ∧ t.ctxs = s.ctxs ∧ t.jobs = s.jobs ∧
        (∀ ty, checks ty → Table.find t.trebex.running ty = some (s.flashImage ty)) ∧ (x.stage = 2 → t.now = 0) ∧
        (x.stage = 3 → ∀ cl ∈ x.retiredList, ∀ sp ∈ clusterSpindles cl, (t.spindle sp).fenced = true ∧ (t.spindle sp).retired = true) ∧
        (x.stage ≠ 4 → SameMemory s t) ∧
        (x.stage = 4 → t.mem = [] ∧ t.fe = [] ∧ t.poison = [] ∧ t.disp.queues = [] ∧ t.trebex.routes = [] ∧ t.trebex.apertures = [])))

/-- R382, R383: a window of 1 ms sets a die's power register and moves its throttle level by one; a margin sample raises a cluster's voltage by one
step below 36 ps, and lowers it after a second hour at 60 ps or more. How the hours are counted is the model's reading (log 71). -/
def PowerAndMarginsAreWatched : Prop :=
  ∀ (s : State) (d : Fin 12) (mw cl slack : Nat), let l := s.trebex.dthr[d]; let c := s.cluster cl
    (∃ t, exec (.powerWindow d mw) s = .next t ∧ { t with trebex := s.trebex } = s ∧ t.trebex.dpwr = s.trebex.dpwr.set d (mw % 2 ^ 32) ∧
      t.trebex.dthr[d] = (if 820000 < mw then min 8 (l + 1) else if mw ≤ 780000 then l - 1 else l) ∧
      ∀ e : Fin 12, e ≠ d → t.trebex.dthr[e] = s.trebex.dthr[e]) ∧
    (∀ n, 12 ≤ n → exec (.powerWindow n mw) s = .next s) ∧ (numClusters ≤ cl → exec (.marginSample cl slack) s = .next s) ∧
    (cl < numClusters →
      let sets := fun (f : Cluster) => ∃ t, exec (.marginSample cl slack) s = .next t ∧ { t with clusters := s.clusters } = s ∧
        t.cluster cl = f ∧ ∀ x, x ≠ cl → t.cluster x = s.cluster x
      (slack < 36 → c.voff ≠ 15 → sets { c with voff := c.voff + 1, calm := 2 }) ∧
      (36 ≤ slack → c.calm = 2 ∨ slack < 60 → sets { c with calm := 0 }) ∧
      (60 ≤ slack → c.calm = 1 → sets { c with voff := c.voff - 1 }) ∧ (60 ≤ slack → c.calm = 0 → sets { c with calm := 1 }))

end Sys2Proof.Claims

/-- R378, R381 to R383: power, bring-up, throttling and margins. Logs 1, 69, 70 and 71 tell what of it is the model's. -/
def Obligations.PowerAndBringUp : Prop := PowerStatesChange ∧ BringUpGoesByStages ∧ PowerAndMarginsAreWatched

/-! ### The step, the encodings, and what every step keeps -/

namespace Sys2Proof.Claims

/-- The next turn is that of context `k` of spindle `sp`, whose unit is fetched whole from one page of code, outside any context window: its lines
are in the instruction cache as they stand in memory, and the words `ws` stand at its PC. Nothing of the context is outstanding, no job is being
pre-empted, the checker finds no fault and no message is lost. -/
structure AtUnit (s : State) (rest : List Turn) (sp k : Nat) (p : PageEntry) (ws : List IWord) : Prop where
  quiet : ∀ e ∈ s.jobs, e.2.phase = .running
  turn : s.midUnit = false ∧ s.agenda = .issue sp :: rest ∧ s.pick sp = some k
  clear : (s.ctx k).deferred = [] ∧ (s.ctx k).rels = [] ∧ (s.ctx k).recheck = false ∧ s.upsets.contains (.checker sp) = false ∧ ∀ id, Upset.lost id ∉ s.upsets
  page : s.tlbFind sp (s.jobNoAt sp) (s.ctx k).pc = some p ∧ needX.ok p = true ∧ p.frame % 64 = 0
  place : (s.ctx k).pc.toNat % 4 = 0 ∧ (s.ctx k).pc.toNat < 2 ^ 52 ∧ (s.ctx k).pc.toNat % 2 ^ 16 + 4 * ws.length ≤ 2 ^ 16
  length : ∃ w, ws.head? = some w ∧ ws.length = lenWords w
  words : ∀ i, i < ws.length → let fa := p.fa (s.ctx k).pc + 4 * i; let line := fa / 64 * 64
    ws[i]? = some (BitVec.ofNat 32 (s.read fa 4)) ∧ (s.ctx k).inWindow ((s.ctx k).pc + BitVec.ofNat 64 (4 * i)) = false ∧
    (s.spindle sp).icache.find? (fun e => e.1 == line) = some (line, (List.range 16).map fun n => BitVec.ofNat 32 (s.read (line + 4 * n) 4))

/-- The state in which the unit of `AtUnit` is executed: context `k` executes, its unit is decoded, it counts as the spindle's last issue; memory,
messages, jobs and every other context and spindle are as before. -/
structure Executes (s u : State) (rest : List Turn) (sp k : Nat) (ws : List IWord) : Prop where
  who : u.cur = k ∧ u.agenda = rest ∧ u.midUnit = false
  me : u.me = { s.ctx k with
    unit := { pc := (s.ctx k).pc, words := ws, next := if ws.isEmpty then 0 else (s.ctx k).pc + BitVec.ofNat 64 (4 * ws.length) }
    got := [], again := false, kont := .advance, torn := none, lastIssue := s.now }
  others : ∀ x, x ≠ k → u.ctx x = s.ctx x
  memory : u.mem = s.mem ∧ u.fe = s.fe ∧ u.poison = s.poison
  package : u.msgs = s.msgs ∧ u.jobs = s.jobs ∧ u.now = s.now ∧ u.disp = s.disp ∧ u.trebex = s.trebex ∧ u.clusters = s.clusters
  spindle : (u.spindle sp).last = keyCtx k ∧ (u.spindle sp).issuedAt = s.now + 1 ∧ (u.spindle sp).job = (s.spindle sp).job ∧
    ∀ x, x ≠ sp → u.spindle x = s.spindle x

end Sys2Proof.Claims

/-- R19, R23, R50, R60, R63, R64, R332: one step fetches the words at the PC of the context whose turn it is and runs the instruction that they
decode to; words without a meaning run the row for a reserved encoding, a PC without a page of code the row for a fetch fault; a PC in the context
window traps ILLEGAL, and a line that the cache does not hold is asked of its home; an instruction of supervisor contexts traps PRIV in any other;
and an event of the agenda runs as its row says, the engines' rounds having passed the queues that hold nothing to send (R305). -/
def Obligations.StepRunsTheDecodedInstruction : Prop :=
  (∀ (s : State) (rest : List Turn) (sp k : Nat) (p : PageEntry) (ws : List IWord), AtUnit s rest sp k p ws →
    (∀ i, decodeWords ws = some i → (∀ o, i ≠ .rel o) → i ≠ .far → i.accepts false false = true →
      ((i.supvOnly = false ∨ (s.ctx k).supv = true) → ∃ u, step s = exec i u ∧ Executes s u rest sp k ws) ∧
      (i.supvOnly = true → (s.ctx k).supv = false → HandledAt s k → ∃ t, step s = .next t ∧ (t.ctx k).st = .frozen ∧
        (t.ctx k).frz.map (·.cause) = some cPRIV ∧ (t.ctx k).pc = (s.ctx k).pc ∧ (t.ctx k).g = (s.ctx k).g)) ∧
    (decodeWords ws = none → ∃ u, step s = exec .reservedEncoding u ∧ Executes s u rest sp k ws)) ∧
  (∀ (s : State) (rest : List Turn) (sp k : Nat), (∀ e ∈ s.jobs, e.2.phase = .running) → (∀ id, Upset.lost id ∉ s.upsets) → s.midUnit = false →
    s.agenda = .issue sp :: rest → s.pick sp = some k → (s.ctx k).deferred = [] → s.aheadOf k = none → (s.ctx k).pc.toNat < 2 ^ 52 → let pc := (s.ctx k).pc
    ((s.ctx k).inWindow pc = true → HandledAt s k → ∃ t, step s = .next t ∧ (t.ctx k).st = .frozen ∧
      (t.ctx k).frz.map (fun r => (r.cause, r.addr)) = some (cILLEGAL, pc) ∧ (t.ctx k).pc = pc ∧ (t.ctx k).g = (s.ctx k).g) ∧
    ∀ p, (s.ctx k).inWindow pc = false → s.tlbFind sp (s.jobNoAt sp) pc = some p →
      (needX.ok p = false → ∃ u, step s = exec (.instructionFetchFault pc) u ∧ Executes s u rest sp k []) ∧
      (needX.ok p = true → ((s.spindle sp).icache.find? fun e => e.1 == p.fa pc / 64 * 64) = none → ∃ t, step s = .next t ∧
        (t.ctx k).st = .parked ∧ (t.ctx k).park = 1 ∧ (t.ctx k).pc = pc ∧ (t.ctx k).g = (s.ctx k).g ∧
        ∃ m ∈ t.msgs, m.src = sp ∧ m.dst = faSp (p.fa pc) ∧ m.body = .fetchLine (p.fa pc / 64 * 64) ∧ m.ctx = keyCtx k ∧ m.tok = (t.ctx k).tok)) ∧
  (∀ (s : State) (e : Instr) (rest : List Turn), (∀ x ∈ s.jobs, x.2.phase = .running) → (∀ id, Upset.lost id ∉ s.upsets) → s.midUnit = false → s.agenda = .event e :: rest →
    Instr.isEvent e = true → step s = exec e { s.passQueues with agenda := rest })

/-- R60 to R66: words written out from the encodings decode to the instructions that they stand for. -/
def Obligations.WrittenWordsDecode : Prop :=
  decodeWords [0x01414010#32] = some (.add 4 1 4 true) ∧ decodeWords [0x88300000#32, 0x23456789#32, 1#32] = some (.moviLiteral 3 0x123456789) ∧
  decodeWords [0x06424003#32] = some (.shri 4 2 3) ∧ decodeWords [0x0A42FFF9#32] = some (.bnez 4 0xFFF9) ∧ decodeWords [0x0B000064#32] = some (.call 100) ∧
  decodeWords [0x0D54AFF8#32] = some (.ldSigned 5 4 2 0xFF8) ∧ decodeWords [0x8D54C000#32, 0x12345#32, 0#32] = some (.ldLiteral 5 4 3 0x12345) ∧
  decodeWords [0x0E7187FC#32] = some (.st 7 1 2 0x7FC) ∧ decodeWords [0x0F63D010#32] = some (.lde 6 3 3 16) ∧ decodeWords [0x1002E008#32] = some (.fec 2 8) ∧
  decodeWords [0x11567248#32] = some (.acas 5 6 7 8 false) ∧ decodeWords [0x1208305C#32] = some (.dfadd 8 3 12) ∧ decodeWords [0x13000080#32] = some .waita ∧
  decodeWords [0x14830089#32] = some (.recvt 8 3 9) ∧ decodeWords [0x15DB500A#32] = some (.spawn 13 11 5 10) ∧ decodeWords [0x160C0100#32] = some (.ply 12) ∧
  decodeWords [0x17006044#32] = some (.swr 6 4) ∧ decodeWords [0x18076008#32] = some (.subon 7 6 8) ∧ decodeWords [0x1AB30080#32] = some (.resume 11 3 0) ∧
  decodeWords [0x1B8230D2#32] = some (.ffma 8 2 3 true 2) ∧ decodeWords [0x20298000#32] = some (.vadd 1 2 3 0 0 0) ∧
  decodeWords [0x64002340#32, 0x55000004#32, 0x8000001F#32] = some (.lmm 2 3 4 5 5 0 4 true 0 31) ∧
  decodeWords [0x6502A400#32, 0x1401#32, 0#32] = some (.pload 10 4 false 0 20 true) ∧ decodeWords [0x66008376#32, 0#32, 0#32] = some (.fins 8 3 7 6) ∧
  decodeWords [0x67010B9C#32, 0#32, 0#32] = some (.apush 11 9 12) ∧ decodeWords [0x6801B000#32, 4#32, 0#32] = some (.cpseti 11 4) ∧
  decodeWords [0x3E140000#32] = some (.rel 1) ∧ decodeWords [0x3E200000#32] = some .far ∧ decodeWords [0x01414020#32] = none ∧
  decodeWords [0x0A300009#32] = none ∧ decodeWords [0x0D54E000#32] = none ∧ decodeWords [0x3E240000#32] = none

/-- R60 to R66: every well-formed instruction that has an encoding is read back from its words, every operand at every value. -/
def Obligations.EncodingsAreReadBack : Prop := ∀ i : Instr, i.wf = true → encode i ≠ [] → decodeWords (encode i) = some i

/-- R51, R53, R55 to R57, R60, R64: every word that decodes is exactly the encoding of its instruction, with the words after it that its LEN spans:
no bit of it is ignored, and every field that its form does not list is zero. -/
def Obligations.WordsAreWrittenBack : Prop :=
  ∀ w x1 x2 i, decodeInstr w x1 x2 = some i → encode i = [w, x1, x2].take (lenWords w)

namespace Sys2Proof.Claims

/-- Memory, and the memory of every peer package, is in its canonical form: addresses rise strictly, and no listed byte is what an unlisted one reads
as. -/
def MemoryCanonical (s : State) : Prop := s.mem.wf = true ∧ ∀ e ∈ s.peers, e.2.mem.wf = true

end Sys2Proof.Claims

/-- R7, R8, R115: every step from a state whose memories are in canonical form ends in such a state: equal memories are equal data after any
instruction, event or choice of turn. -/
def Obligations.EveryStepKeepsMemoryCanonical : Prop := ∀ s t : State, MemoryCanonical s → step s = .next t → MemoryCanonical t

/-- R112, R355, R366, R378, R379, R384: right after power is applied the package is in bring-up stage 1 in RUN, CYCLE is 0, no byte is listed, every
word is EMPTY, no window admits anything, every queue is unbound with SER 1, LAST is 16383 at every level, no launch has a number, no fence stands;
and its memories are in canonical form. That no byte is listed and every word EMPTY before stage 4 (log 1), that contexts are FREE (log 2), that
spindles run no job (log 3) and the first JOB number (log 5) are the model's choices. The values of registers that the spec gives no reset value for
are not named here. -/
def Obligations.ResetLeavesTheStatedValues : Prop :=
  let s := State.reset
  MemoryCanonical s ∧ s.trebex.stage = 1 ∧ s.trebex.bootFault = false ∧ s.trebex.pstate = 0 ∧ s.trebex.busy = false ∧ s.now = 0 ∧
    (∀ a, s.byte a = 0 ∧ s.full a = false) ∧ s.jobs = [] ∧ s.msgs = [] ∧ s.trebex.fcount = 0 ∧
    (∀ sp, (s.spindle sp).winA = Vector.replicate 4 0 ∧ (s.spindle sp).fenced = false ∧ (s.spindle sp).job = none) ∧
    (∀ k, (s.ctx k).st = .free) ∧ (∀ q, (s.queue q).mode = 0 ∧ (s.queue q).ser = 1 ∧ (s.queue q).head = 0 ∧ (s.queue q).tail = 0) ∧
    s.disp.last = Vector.replicate 8 16383 ∧ s.disp.nextJob = 1
end

