-- ==== Sys2Proof/Laws/Encoding.lean ====
section
/-!
SUPPORT. What each field of a packed word reads as, and what each field of an extended word reads as.
-/
namespace Sys2Proof.Laws
open Sys2Proof

theorem app_toNat {n m : Nat} (x : BitVec n) (y : BitVec m) : (x ++ y).toNat = x.toNat * 2 ^ m + y.toNat := by
  rw [BitVec.toNat_append, Nat.shiftLeft_eq, Nat.mul_comm, ← Nat.two_pow_add_eq_or_of_lt y.isLt]

/-! ### packR -/

theorem packR_toNat (maj : BitVec 6) (d : BitVec 4) (a : BitVec 4) (b : BitVec 4) (fn : BitVec 6) (w : BitVec 2) (c : BitVec 4) :
    (packR maj d a b fn w c).toNat = maj.toNat * 2 ^ 24 + d.toNat * 2 ^ 20 + a.toNat * 2 ^ 16 + b.toNat * 2 ^ 12 + fn.toNat * 2 ^ 6 + w.toNat * 2 ^ 4 + c.toNat * 2 ^ 0 := by
  unfold packR
  repeat erw [app_toNat]
  simp
  omega

@[simp] theorem fLen_packR (maj : BitVec 6) (d : BitVec 4) (a : BitVec 4) (b : BitVec 4) (fn : BitVec 6) (w : BitVec 2) (c : BitVec 4) :
    fLen (packR maj d a b fn w c) = 0 := by
  apply BitVec.eq_of_toNat_eq
  simp only [fLen, BitVec.extractLsb'_toNat, packR_toNat, Nat.shiftRight_eq_div_pow]
  simp
  try omega
@[simp] theorem fMaj_packR (maj : BitVec 6) (d : BitVec 4) (a : BitVec 4) (b : BitVec 4) (fn : BitVec 6) (w : BitVec 2) (c : BitVec 4) :
    fMaj (packR maj d a b fn w c) = maj := by
  apply BitVec.eq_of_toNat_eq
  simp only [fMaj, BitVec.extractLsb'_toNat, packR_toNat, Nat.shiftRight_eq_div_pow]
  omega
@[simp] theorem fD_packR (maj : BitVec 6) (d : BitVec 4) (a : BitVec 4) (b : BitVec 4) (fn : BitVec 6) (w : BitVec 2) (c : BitVec 4) :
    fD (packR maj d a b fn w c) = d := by
  apply BitVec.eq_of_toNat_eq
  simp only [fD, BitVec.extractLsb'_toNat, packR_toNat, Nat.shiftRight_eq_div_pow]
  omega
@[simp] theorem fA_packR (maj : BitVec 6) (d : BitVec 4) (a : BitVec 4) (b : BitVec 4) (fn : BitVec 6) (w : BitVec 2) (c : BitVec 4) :
    fA (packR maj d a b fn w c) = a := by
  apply BitVec.eq_of_toNat_eq
  simp only [fA, BitVec.extractLsb'_toNat, packR_toNat, Nat.shiftRight_eq_div_pow]
  omega
@[simp] theorem fB_packR (maj : BitVec 6) (d : BitVec 4) (a : BitVec 4) (b : BitVec 4) (fn : BitVec 6) (w : BitVec 2) (c : BitVec 4) :
    fB (packR maj d a b fn w c) = b := by
  apply BitVec.eq_of_toNat_eq
  simp only [fB, BitVec.extractLsb'_toNat, packR_toNat, Nat.shiftRight_eq_div_pow]
  omega
@[simp] theorem fFn_packR (maj : BitVec 6) (d : BitVec 4) (a : BitVec 4) (b : BitVec 4) (fn : BitVec 6) (w : BitVec 2) (c : BitVec 4) :
    fFn (packR maj d a b fn w c) = fn := by
  apply BitVec.eq_of_toNat_eq
  simp only [fFn, BitVec.extractLsb'_toNat, packR_toNat, Nat.shiftRight_eq_div_pow]
  omega
@[simp] theorem fW_packR (maj : BitVec 6) (d : BitVec 4) (a : BitVec 4) (b : BitVec 4) (fn : BitVec 6) (w : BitVec 2) (c : BitVec 4) :
    fW (packR maj d a b fn w c) = w := by
  apply BitVec.eq_of_toNat_eq
  simp only [fW, BitVec.extractLsb'_toNat, packR_toNat, Nat.shiftRight_eq_div_pow]
  omega
@[simp] theorem fC_packR (maj : BitVec 6) (d : BitVec 4) (a : BitVec 4) (b : BitVec 4) (fn : BitVec 6) (w : BitVec 2) (c : BitVec 4) :
    fC (packR maj d a b fn w c) = c := by
  apply BitVec.eq_of_toNat_eq
  simp only [fC, BitVec.extractLsb'_toNat, packR_toNat, Nat.shiftRight_eq_div_pow]
  omega

@[simp] theorem extract_0_2_packR (maj : BitVec 6) (d : BitVec 4) (a : BitVec 4) (b : BitVec 4) (fn : BitVec 6) (w : BitVec 2) (c : BitVec 4) :
    (packR maj d a b fn w c).extractLsb' 0 2 = c.extractLsb' 0 2 := by
  apply BitVec.eq_of_toNat_eq
  simp only [BitVec.extractLsb'_toNat, packR_toNat, Nat.shiftRight_eq_div_pow]
  omega
@[simp] theorem extract_2_2_packR (maj : BitVec 6) (d : BitVec 4) (a : BitVec 4) (b : BitVec 4) (fn : BitVec 6) (w : BitVec 2) (c : BitVec 4) :
    (packR maj d a b fn w c).extractLsb' 2 2 = c.extractLsb' 2 2 := by
  apply BitVec.eq_of_toNat_eq
  simp only [BitVec.extractLsb'_toNat, packR_toNat, Nat.shiftRight_eq_div_pow]
  omega
@[simp] theorem extract_0_3_packR (maj : BitVec 6) (d : BitVec 4) (a : BitVec 4) (b : BitVec 4) (fn : BitVec 6) (w : BitVec 2) (c : BitVec 4) :
    (packR maj d a b fn w c).extractLsb' 0 3 = c.extractLsb' 0 3 := by
  apply BitVec.eq_of_toNat_eq
  simp only [BitVec.extractLsb'_toNat, packR_toNat, Nat.shiftRight_eq_div_pow]
  omega
@[simp] theorem extract_3_1_packR (maj : BitVec 6) (d : BitVec 4) (a : BitVec 4) (b : BitVec 4) (fn : BitVec 6) (w : BitVec 2) (c : BitVec 4) :
    (packR maj d a b fn w c).extractLsb' 3 1 = c.extractLsb' 3 1 := by
  apply BitVec.eq_of_toNat_eq
  simp only [BitVec.extractLsb'_toNat, packR_toNat, Nat.shiftRight_eq_div_pow]
  omega

/-! ### packI -/

theorem packI_toNat (len : BitVec 2) (maj : BitVec 6) (d : BitVec 4) (a : BitVec 4) (imm : BitVec 16) :
    (packI len maj d a imm).toNat = len.toNat * 2 ^ 30 + maj.toNat * 2 ^ 24 + d.toNat * 2 ^ 20 + a.toNat * 2 ^ 16 + imm.toNat * 2 ^ 0 := by
  unfold packI
  repeat erw [app_toNat]
  simp
  omega

@[simp] theorem fLen_packI (len : BitVec 2) (maj : BitVec 6) (d : BitVec 4) (a : BitVec 4) (imm : BitVec 16) :
    fLen (packI len maj d a imm) = len := by
  apply BitVec.eq_of_toNat_eq
  simp only [fLen, BitVec.extractLsb'_toNat, packI_toNat, Nat.shiftRight_eq_div_pow]
  omega
@[simp] theorem fMaj_packI (len : BitVec 2) (maj : BitVec 6) (d : BitVec 4) (a : BitVec 4) (imm : BitVec 16) :
    fMaj (packI len maj d a imm) = maj := by
  apply BitVec.eq_of_toNat_eq
  simp only [fMaj, BitVec.extractLsb'_toNat, packI_toNat, Nat.shiftRight_eq_div_pow]
  omega
@[simp] theorem fD_packI (len : BitVec 2) (maj : BitVec 6) (d : BitVec 4) (a : BitVec 4) (imm : BitVec 16) :
    fD (packI len maj d a imm) = d := by
  apply BitVec.eq_of_toNat_eq
  simp only [fD, BitVec.extractLsb'_toNat, packI_toNat, Nat.shiftRight_eq_div_pow]
  omega
@[simp] theorem fA_packI (len : BitVec 2) (maj : BitVec 6) (d : BitVec 4) (a : BitVec 4) (imm : BitVec 16) :
    fA (packI len maj d a imm) = a := by
  apply BitVec.eq_of_toNat_eq
  simp only [fA, BitVec.extractLsb'_toNat, packI_toNat, Nat.shiftRight_eq_div_pow]
  omega
@[simp] theorem fImm_packI (len : BitVec 2) (maj : BitVec 6) (d : BitVec 4) (a : BitVec 4) (imm : BitVec 16) :
    fImm (packI len maj d a imm) = imm := by
  apply BitVec.eq_of_toNat_eq
  simp only [fImm, BitVec.extractLsb'_toNat, packI_toNat, Nat.shiftRight_eq_div_pow]
  omega

@[simp] theorem extract_0_6_packI (len : BitVec 2) (maj : BitVec 6) (d : BitVec 4) (a : BitVec 4) (imm : BitVec 16) :
    (packI len maj d a imm).extractLsb' 0 6 = imm.extractLsb' 0 6 := by
  apply BitVec.eq_of_toNat_eq
  simp only [BitVec.extractLsb'_toNat, packI_toNat, Nat.shiftRight_eq_div_pow]
  omega
@[simp] theorem extract_6_8_packI (len : BitVec 2) (maj : BitVec 6) (d : BitVec 4) (a : BitVec 4) (imm : BitVec 16) :
    (packI len maj d a imm).extractLsb' 6 8 = imm.extractLsb' 6 8 := by
  apply BitVec.eq_of_toNat_eq
  simp only [BitVec.extractLsb'_toNat, packI_toNat, Nat.shiftRight_eq_div_pow]
  omega
@[simp] theorem fSz_packI (len : BitVec 2) (maj : BitVec 6) (d : BitVec 4) (a : BitVec 4) (imm : BitVec 16) :
    fSz (packI len maj d a imm) = imm.extractLsb' 14 2 := by
  apply BitVec.eq_of_toNat_eq
  simp only [fSz, BitVec.extractLsb'_toNat, packI_toNat, Nat.shiftRight_eq_div_pow]
  omega

/-! ### packM -/

theorem packM_toNat (len : BitVec 2) (maj : BitVec 6) (d : BitVec 4) (a : BitVec 4) (sz : BitVec 2) (op : BitVec 2) (off : BitVec 12) :
    (packM len maj d a sz op off).toNat = len.toNat * 2 ^ 30 + maj.toNat * 2 ^ 24 + d.toNat * 2 ^ 20 + a.toNat * 2 ^ 16 + sz.toNat * 2 ^ 14 + op.toNat * 2 ^ 12 + off.toNat * 2 ^ 0 := by
  unfold packM
  repeat erw [app_toNat]
  simp
  omega

@[simp] theorem fLen_packM (len : BitVec 2) (maj : BitVec 6) (d : BitVec 4) (a : BitVec 4) (sz : BitVec 2) (op : BitVec 2) (off : BitVec 12) :
    fLen (packM len maj d a sz op off) = len := by
  apply BitVec.eq_of_toNat_eq
  simp only [fLen, BitVec.extractLsb'_toNat, packM_toNat, Nat.shiftRight_eq_div_pow]
  omega
@[simp] theorem fMaj_packM (len : BitVec 2) (maj : BitVec 6) (d : BitVec 4) (a : BitVec 4) (sz : BitVec 2) (op : BitVec 2) (off : BitVec 12) :
    fMaj (packM len maj d a sz op off) = maj := by
  apply BitVec.eq_of_toNat_eq
  simp only [fMaj, BitVec.extractLsb'_toNat, packM_toNat, Nat.shiftRight_eq_div_pow]
  omega
@[simp] theorem fD_packM (len : BitVec 2) (maj : BitVec 6) (d : BitVec 4) (a : BitVec 4) (sz : BitVec 2) (op : BitVec 2) (off : BitVec 12) :
    fD (packM len maj d a sz op off) = d := by
  apply BitVec.eq_of_toNat_eq
  simp only [fD, BitVec.extractLsb'_toNat, packM_toNat, Nat.shiftRight_eq_div_pow]
  omega
@[simp] theorem fA_packM (len : BitVec 2) (maj : BitVec 6) (d : BitVec 4) (a : BitVec 4) (sz : BitVec 2) (op : BitVec 2) (off : BitVec 12) :
    fA (packM len maj d a sz op off) = a := by
  apply BitVec.eq_of_toNat_eq
  simp only [fA, BitVec.extractLsb'_toNat, packM_toNat, Nat.shiftRight_eq_div_pow]
  omega
@[simp] theorem fSz_packM (len : BitVec 2) (maj : BitVec 6) (d : BitVec 4) (a : BitVec 4) (sz : BitVec 2) (op : BitVec 2) (off : BitVec 12) :
    fSz (packM len maj d a sz op off) = sz := by
  apply BitVec.eq_of_toNat_eq
  simp only [fSz, BitVec.extractLsb'_toNat, packM_toNat, Nat.shiftRight_eq_div_pow]
  omega
@[simp] theorem fOp_packM (len : BitVec 2) (maj : BitVec 6) (d : BitVec 4) (a : BitVec 4) (sz : BitVec 2) (op : BitVec 2) (off : BitVec 12) :
    fOp (packM len maj d a sz op off) = op := by
  apply BitVec.eq_of_toNat_eq
  simp only [fOp, BitVec.extractLsb'_toNat, packM_toNat, Nat.shiftRight_eq_div_pow]
  omega
@[simp] theorem fOff_packM (len : BitVec 2) (maj : BitVec 6) (d : BitVec 4) (a : BitVec 4) (sz : BitVec 2) (op : BitVec 2) (off : BitVec 12) :
    fOff (packM len maj d a sz op off) = off := by
  apply BitVec.eq_of_toNat_eq
  simp only [fOff, BitVec.extractLsb'_toNat, packM_toNat, Nat.shiftRight_eq_div_pow]
  omega


/-! ### packV -/

theorem packV_toNat (maj : BitVec 6) (vd : BitVec 3) (va : BitVec 3) (vb : BitVec 3) (vc : BitVec 3) (fn : BitVec 6) (mg : BitVec 4) (rm : BitVec 2) :
    (packV maj vd va vb vc fn mg rm).toNat = maj.toNat * 2 ^ 24 + vd.toNat * 2 ^ 21 + va.toNat * 2 ^ 18 + vb.toNat * 2 ^ 15 + vc.toNat * 2 ^ 12 + fn.toNat * 2 ^ 6 + mg.toNat * 2 ^ 2 + rm.toNat * 2 ^ 0 := by
  unfold packV
  repeat erw [app_toNat]
  simp
  omega

@[simp] theorem fLen_packV (maj : BitVec 6) (vd : BitVec 3) (va : BitVec 3) (vb : BitVec 3) (vc : BitVec 3) (fn : BitVec 6) (mg : BitVec 4) (rm : BitVec 2) :
    fLen (packV maj vd va vb vc fn mg rm) = 0 := by
  apply BitVec.eq_of_toNat_eq
  simp only [fLen, BitVec.extractLsb'_toNat, packV_toNat, Nat.shiftRight_eq_div_pow]
  simp
  try omega
@[simp] theorem fMaj_packV (maj : BitVec 6) (vd : BitVec 3) (va : BitVec 3) (vb : BitVec 3) (vc : BitVec 3) (fn : BitVec 6) (mg : BitVec 4) (rm : BitVec 2) :
    fMaj (packV maj vd va vb vc fn mg rm) = maj := by
  apply BitVec.eq_of_toNat_eq
  simp only [fMaj, BitVec.extractLsb'_toNat, packV_toNat, Nat.shiftRight_eq_div_pow]
  omega
@[simp] theorem vVd_packV (maj : BitVec 6) (vd : BitVec 3) (va : BitVec 3) (vb : BitVec 3) (vc : BitVec 3) (fn : BitVec 6) (mg : BitVec 4) (rm : BitVec 2) :
    vVd (packV maj vd va vb vc fn mg rm) = vd := by
  apply BitVec.eq_of_toNat_eq
  simp only [vVd, BitVec.extractLsb'_toNat, packV_toNat, Nat.shiftRight_eq_div_pow]
  omega
@[simp] theorem vVa_packV (maj : BitVec 6) (vd : BitVec 3) (va : BitVec 3) (vb : BitVec 3) (vc : BitVec 3) (fn : BitVec 6) (mg : BitVec 4) (rm : BitVec 2) :
    vVa (packV maj vd va vb vc fn mg rm) = va := by
  apply BitVec.eq_of_toNat_eq
  simp only [vVa, BitVec.extractLsb'_toNat, packV_toNat, Nat.shiftRight_eq_div_pow]
  omega
@[simp] theorem vVb_packV (maj : BitVec 6) (vd : BitVec 3) (va : BitVec 3) (vb : BitVec 3) (vc : BitVec 3) (fn : BitVec 6) (mg : BitVec 4) (rm : BitVec 2) :
    vVb (packV maj vd va vb vc fn mg rm) = vb := by
  apply BitVec.eq_of_toNat_eq
  simp only [vVb, BitVec.extractLsb'_toNat, packV_toNat, Nat.shiftRight_eq_div_pow]
  omega
@[simp] theorem vVc_packV (maj : BitVec 6) (vd : BitVec 3) (va : BitVec 3) (vb : BitVec 3) (vc : BitVec 3) (fn : BitVec 6) (mg : BitVec 4) (rm : BitVec 2) :
    vVc (packV maj vd va vb vc fn mg rm) = vc := by
  apply BitVec.eq_of_toNat_eq
  simp only [vVc, BitVec.extractLsb'_toNat, packV_toNat, Nat.shiftRight_eq_div_pow]
  omega
@[simp] theorem fFn_packV (maj : BitVec 6) (vd : BitVec 3) (va : BitVec 3) (vb : BitVec 3) (vc : BitVec 3) (fn : BitVec 6) (mg : BitVec 4) (rm : BitVec 2) :
    fFn (packV maj vd va vb vc fn mg rm) = fn := by
  apply BitVec.eq_of_toNat_eq
  simp only [fFn, BitVec.extractLsb'_toNat, packV_toNat, Nat.shiftRight_eq_div_pow]
  omega
@[simp] theorem vMg_packV (maj : BitVec 6) (vd : BitVec 3) (va : BitVec 3) (vb : BitVec 3) (vc : BitVec 3) (fn : BitVec 6) (mg : BitVec 4) (rm : BitVec 2) :
    vMg (packV maj vd va vb vc fn mg rm) = mg := by
  apply BitVec.eq_of_toNat_eq
  simp only [vMg, BitVec.extractLsb'_toNat, packV_toNat, Nat.shiftRight_eq_div_pow]
  omega
@[simp] theorem vRm_packV (maj : BitVec 6) (vd : BitVec 3) (va : BitVec 3) (vb : BitVec 3) (vc : BitVec 3) (fn : BitVec 6) (mg : BitVec 4) (rm : BitVec 2) :
    vRm (packV maj vd va vb vc fn mg rm) = rm := by
  apply BitVec.eq_of_toNat_eq
  simp only [vRm, BitVec.extractLsb'_toNat, packV_toNat, Nat.shiftRight_eq_div_pow]
  omega

@[simp] theorem extract_12_2_packV (maj : BitVec 6) (vd : BitVec 3) (va : BitVec 3) (vb : BitVec 3) (vc : BitVec 3) (fn : BitVec 6) (mg : BitVec 4) (rm : BitVec 2) :
    (packV maj vd va vb vc fn mg rm).extractLsb' 12 2 = vc.extractLsb' 0 2 := by
  apply BitVec.eq_of_toNat_eq
  simp only [BitVec.extractLsb'_toNat, packV_toNat, Nat.shiftRight_eq_div_pow]
  omega
@[simp] theorem extract_14_1_packV (maj : BitVec 6) (vd : BitVec 3) (va : BitVec 3) (vb : BitVec 3) (vc : BitVec 3) (fn : BitVec 6) (mg : BitVec 4) (rm : BitVec 2) :
    (packV maj vd va vb vc fn mg rm).extractLsb' 14 1 = vc.extractLsb' 2 1 := by
  apply BitVec.eq_of_toNat_eq
  simp only [BitVec.extractLsb'_toNat, packV_toNat, Nat.shiftRight_eq_div_pow]
  omega
@[simp] theorem extract_12_1_packV (maj : BitVec 6) (vd : BitVec 3) (va : BitVec 3) (vb : BitVec 3) (vc : BitVec 3) (fn : BitVec 6) (mg : BitVec 4) (rm : BitVec 2) :
    (packV maj vd va vb vc fn mg rm).extractLsb' 12 1 = vc.extractLsb' 0 1 := by
  apply BitVec.eq_of_toNat_eq
  simp only [BitVec.extractLsb'_toNat, packV_toNat, Nat.shiftRight_eq_div_pow]
  omega
@[simp] theorem extract_13_1_packV (maj : BitVec 6) (vd : BitVec 3) (va : BitVec 3) (vb : BitVec 3) (vc : BitVec 3) (fn : BitVec 6) (mg : BitVec 4) (rm : BitVec 2) :
    (packV maj vd va vb vc fn mg rm).extractLsb' 13 1 = vc.extractLsb' 1 1 := by
  apply BitVec.eq_of_toNat_eq
  simp only [BitVec.extractLsb'_toNat, packV_toNat, Nat.shiftRight_eq_div_pow]
  omega
@[simp] theorem extract_12_6_packV (maj : BitVec 6) (vd : BitVec 3) (va : BitVec 3) (vb : BitVec 3) (vc : BitVec 3) (fn : BitVec 6) (mg : BitVec 4) (rm : BitVec 2) :
    (packV maj vd va vb vc fn mg rm).extractLsb' 12 6 = (vb ++ vc : BitVec 6).extractLsb' 0 6 := by
  apply BitVec.eq_of_toNat_eq
  simp only [BitVec.extractLsb'_toNat, packV_toNat, app_toNat, Nat.shiftRight_eq_div_pow]
  omega
@[simp] theorem extract_12_4_packV (maj : BitVec 6) (vd : BitVec 3) (va : BitVec 3) (vb : BitVec 3) (vc : BitVec 3) (fn : BitVec 6) (mg : BitVec 4) (rm : BitVec 2) :
    (packV maj vd va vb vc fn mg rm).extractLsb' 12 4 = (vb ++ vc : BitVec 6).extractLsb' 0 4 := by
  apply BitVec.eq_of_toNat_eq
  simp only [BitVec.extractLsb'_toNat, packV_toNat, app_toNat, Nat.shiftRight_eq_div_pow]
  omega
@[simp] theorem extract_16_1_packV (maj : BitVec 6) (vd : BitVec 3) (va : BitVec 3) (vb : BitVec 3) (vc : BitVec 3) (fn : BitVec 6) (mg : BitVec 4) (rm : BitVec 2) :
    (packV maj vd va vb vc fn mg rm).extractLsb' 16 1 = (vb ++ vc : BitVec 6).extractLsb' 4 1 := by
  apply BitVec.eq_of_toNat_eq
  simp only [BitVec.extractLsb'_toNat, packV_toNat, app_toNat, Nat.shiftRight_eq_div_pow]
  omega
@[simp] theorem extract_17_1_packV (maj : BitVec 6) (vd : BitVec 3) (va : BitVec 3) (vb : BitVec 3) (vc : BitVec 3) (fn : BitVec 6) (mg : BitVec 4) (rm : BitVec 2) :
    (packV maj vd va vb vc fn mg rm).extractLsb' 17 1 = (vb ++ vc : BitVec 6).extractLsb' 5 1 := by
  apply BitVec.eq_of_toNat_eq
  simp only [BitVec.extractLsb'_toNat, packV_toNat, app_toNat, Nat.shiftRight_eq_div_pow]
  omega
@[simp] theorem extract_16_2_packV (maj : BitVec 6) (vd : BitVec 3) (va : BitVec 3) (vb : BitVec 3) (vc : BitVec 3) (fn : BitVec 6) (mg : BitVec 4) (rm : BitVec 2) :
    (packV maj vd va vb vc fn mg rm).extractLsb' 16 2 = (vb ++ vc : BitVec 6).extractLsb' 4 2 := by
  apply BitVec.eq_of_toNat_eq
  simp only [BitVec.extractLsb'_toNat, packV_toNat, app_toNat, Nat.shiftRight_eq_div_pow]
  omega

/-! ### packVM -/

theorem packVM_toNat (maj : BitVec 6) (v : BitVec 3) (a : BitVec 4) (b : BitVec 4) (fn : BitVec 5) (mg : BitVec 4) (off : BitVec 4) :
    (packVM maj v a b fn mg off).toNat = maj.toNat * 2 ^ 24 + v.toNat * 2 ^ 21 + a.toNat * 2 ^ 17 + b.toNat * 2 ^ 13 + fn.toNat * 2 ^ 8 + mg.toNat * 2 ^ 4 + off.toNat * 2 ^ 0 := by
  unfold packVM
  repeat erw [app_toNat]
  simp
  omega

@[simp] theorem fLen_packVM (maj : BitVec 6) (v : BitVec 3) (a : BitVec 4) (b : BitVec 4) (fn : BitVec 5) (mg : BitVec 4) (off : BitVec 4) :
    fLen (packVM maj v a b fn mg off) = 0 := by
  apply BitVec.eq_of_toNat_eq
  simp only [fLen, BitVec.extractLsb'_toNat, packVM_toNat, Nat.shiftRight_eq_div_pow]
  simp
  try omega
@[simp] theorem fMaj_packVM (maj : BitVec 6) (v : BitVec 3) (a : BitVec 4) (b : BitVec 4) (fn : BitVec 5) (mg : BitVec 4) (off : BitVec 4) :
    fMaj (packVM maj v a b fn mg off) = maj := by
  apply BitVec.eq_of_toNat_eq
  simp only [fMaj, BitVec.extractLsb'_toNat, packVM_toNat, Nat.shiftRight_eq_div_pow]
  omega
@[simp] theorem mV_packVM (maj : BitVec 6) (v : BitVec 3) (a : BitVec 4) (b : BitVec 4) (fn : BitVec 5) (mg : BitVec 4) (off : BitVec 4) :
    mV (packVM maj v a b fn mg off) = v := by
  apply BitVec.eq_of_toNat_eq
  simp only [mV, BitVec.extractLsb'_toNat, packVM_toNat, Nat.shiftRight_eq_div_pow]
  omega
@[simp] theorem mA_packVM (maj : BitVec 6) (v : BitVec 3) (a : BitVec 4) (b : BitVec 4) (fn : BitVec 5) (mg : BitVec 4) (off : BitVec 4) :
    mA (packVM maj v a b fn mg off) = a := by
  apply BitVec.eq_of_toNat_eq
  simp only [mA, BitVec.extractLsb'_toNat, packVM_toNat, Nat.shiftRight_eq_div_pow]
  omega
@[simp] theorem mB_packVM (maj : BitVec 6) (v : BitVec 3) (a : BitVec 4) (b : BitVec 4) (fn : BitVec 5) (mg : BitVec 4) (off : BitVec 4) :
    mB (packVM maj v a b fn mg off) = b := by
  apply BitVec.eq_of_toNat_eq
  simp only [mB, BitVec.extractLsb'_toNat, packVM_toNat, Nat.shiftRight_eq_div_pow]
  omega
@[simp] theorem mFn_packVM (maj : BitVec 6) (v : BitVec 3) (a : BitVec 4) (b : BitVec 4) (fn : BitVec 5) (mg : BitVec 4) (off : BitVec 4) :
    mFn (packVM maj v a b fn mg off) = fn := by
  apply BitVec.eq_of_toNat_eq
  simp only [mFn, BitVec.extractLsb'_toNat, packVM_toNat, Nat.shiftRight_eq_div_pow]
  omega
@[simp] theorem mMg_packVM (maj : BitVec 6) (v : BitVec 3) (a : BitVec 4) (b : BitVec 4) (fn : BitVec 5) (mg : BitVec 4) (off : BitVec 4) :
    mMg (packVM maj v a b fn mg off) = mg := by
  apply BitVec.eq_of_toNat_eq
  simp only [mMg, BitVec.extractLsb'_toNat, packVM_toNat, Nat.shiftRight_eq_div_pow]
  omega
@[simp] theorem mOff_packVM (maj : BitVec 6) (v : BitVec 3) (a : BitVec 4) (b : BitVec 4) (fn : BitVec 5) (mg : BitVec 4) (off : BitVec 4) :
    mOff (packVM maj v a b fn mg off) = off := by
  apply BitVec.eq_of_toNat_eq
  simp only [mOff, BitVec.extractLsb'_toNat, packVM_toNat, Nat.shiftRight_eq_div_pow]
  omega

@[simp] theorem extract_0_3_packVM (maj : BitVec 6) (v : BitVec 3) (a : BitVec 4) (b : BitVec 4) (fn : BitVec 5) (mg : BitVec 4) (off : BitVec 4) :
    (packVM maj v a b fn mg off).extractLsb' 0 3 = off.extractLsb' 0 3 := by
  apply BitVec.eq_of_toNat_eq
  simp only [BitVec.extractLsb'_toNat, packVM_toNat, Nat.shiftRight_eq_div_pow]
  omega
@[simp] theorem extract_3_1_packVM (maj : BitVec 6) (v : BitVec 3) (a : BitVec 4) (b : BitVec 4) (fn : BitVec 5) (mg : BitVec 4) (off : BitVec 4) :
    (packVM maj v a b fn mg off).extractLsb' 3 1 = off.extractLsb' 3 1 := by
  apply BitVec.eq_of_toNat_eq
  simp only [BitVec.extractLsb'_toNat, packVM_toNat, Nat.shiftRight_eq_div_pow]
  omega
@[simp] theorem extract_2_2_packVM (maj : BitVec 6) (v : BitVec 3) (a : BitVec 4) (b : BitVec 4) (fn : BitVec 5) (mg : BitVec 4) (off : BitVec 4) :
    (packVM maj v a b fn mg off).extractLsb' 2 2 = off.extractLsb' 2 2 := by
  apply BitVec.eq_of_toNat_eq
  simp only [BitVec.extractLsb'_toNat, packVM_toNat, Nat.shiftRight_eq_div_pow]
  omega
@[simp] theorem extract_0_2_packVM (maj : BitVec 6) (v : BitVec 3) (a : BitVec 4) (b : BitVec 4) (fn : BitVec 5) (mg : BitVec 4) (off : BitVec 4) :
    (packVM maj v a b fn mg off).extractLsb' 0 2 = off.extractLsb' 0 2 := by
  apply BitVec.eq_of_toNat_eq
  simp only [BitVec.extractLsb'_toNat, packVM_toNat, Nat.shiftRight_eq_div_pow]
  omega

/-! ### packX -/

theorem packX_toNat (maj : BitVec 6) (xfn : BitVec 8) (d : BitVec 4) (a : BitVec 4) (b : BitVec 4) (c : BitVec 4) :
    (packX maj xfn d a b c).toNat = 1 * 2 ^ 30 + maj.toNat * 2 ^ 24 + xfn.toNat * 2 ^ 16 + d.toNat * 2 ^ 12 + a.toNat * 2 ^ 8 + b.toNat * 2 ^ 4 + c.toNat * 2 ^ 0 := by
  unfold packX
  repeat erw [app_toNat]
  simp
  omega

@[simp] theorem fLen_packX (maj : BitVec 6) (xfn : BitVec 8) (d : BitVec 4) (a : BitVec 4) (b : BitVec 4) (c : BitVec 4) :
    fLen (packX maj xfn d a b c) = 1 := by
  apply BitVec.eq_of_toNat_eq
  simp only [fLen, BitVec.extractLsb'_toNat, packX_toNat, Nat.shiftRight_eq_div_pow]
  simp
  try omega
@[simp] theorem fMaj_packX (maj : BitVec 6) (xfn : BitVec 8) (d : BitVec 4) (a : BitVec 4) (b : BitVec 4) (c : BitVec 4) :
    fMaj (packX maj xfn d a b c) = maj := by
  apply BitVec.eq_of_toNat_eq
  simp only [fMaj, BitVec.extractLsb'_toNat, packX_toNat, Nat.shiftRight_eq_div_pow]
  omega
@[simp] theorem xFn_packX (maj : BitVec 6) (xfn : BitVec 8) (d : BitVec 4) (a : BitVec 4) (b : BitVec 4) (c : BitVec 4) :
    xFn (packX maj xfn d a b c) = xfn := by
  apply BitVec.eq_of_toNat_eq
  simp only [xFn, BitVec.extractLsb'_toNat, packX_toNat, Nat.shiftRight_eq_div_pow]
  omega
@[simp] theorem xD_packX (maj : BitVec 6) (xfn : BitVec 8) (d : BitVec 4) (a : BitVec 4) (b : BitVec 4) (c : BitVec 4) :
    xD (packX maj xfn d a b c) = d := by
  apply BitVec.eq_of_toNat_eq
  simp only [xD, BitVec.extractLsb'_toNat, packX_toNat, Nat.shiftRight_eq_div_pow]
  omega
@[simp] theorem xA_packX (maj : BitVec 6) (xfn : BitVec 8) (d : BitVec 4) (a : BitVec 4) (b : BitVec 4) (c : BitVec 4) :
    xA (packX maj xfn d a b c) = a := by
  apply BitVec.eq_of_toNat_eq
  simp only [xA, BitVec.extractLsb'_toNat, packX_toNat, Nat.shiftRight_eq_div_pow]
  omega
@[simp] theorem xB_packX (maj : BitVec 6) (xfn : BitVec 8) (d : BitVec 4) (a : BitVec 4) (b : BitVec 4) (c : BitVec 4) :
    xB (packX maj xfn d a b c) = b := by
  apply BitVec.eq_of_toNat_eq
  simp only [xB, BitVec.extractLsb'_toNat, packX_toNat, Nat.shiftRight_eq_div_pow]
  omega
@[simp] theorem xC_packX (maj : BitVec 6) (xfn : BitVec 8) (d : BitVec 4) (a : BitVec 4) (b : BitVec 4) (c : BitVec 4) :
    xC (packX maj xfn d a b c) = c := by
  apply BitVec.eq_of_toNat_eq
  simp only [xC, BitVec.extractLsb'_toNat, packX_toNat, Nat.shiftRight_eq_div_pow]
  omega


/-! ### callWord -/

theorem callWord_toNat (disp : BitVec 24) :
    ((0 : BitVec 2) ++ (11 : BitVec 6) ++ disp : IWord).toNat = 11 * 2 ^ 24 + disp.toNat * 2 ^ 0 := by
  repeat erw [app_toNat]
  simp
  try omega

@[simp] theorem fLen_callWord (disp : BitVec 24) :
    fLen ((0 : BitVec 2) ++ (11 : BitVec 6) ++ disp : IWord) = 0 := by
  apply BitVec.eq_of_toNat_eq
  simp only [fLen, BitVec.extractLsb'_toNat, callWord_toNat, Nat.shiftRight_eq_div_pow]
  simp
  try omega
@[simp] theorem fMaj_callWord (disp : BitVec 24) :
    fMaj ((0 : BitVec 2) ++ (11 : BitVec 6) ++ disp : IWord) = 0x0B := by
  apply BitVec.eq_of_toNat_eq
  simp only [fMaj, BitVec.extractLsb'_toNat, callWord_toNat, Nat.shiftRight_eq_div_pow]
  simp
  try omega
@[simp] theorem fDisp24_callWord (disp : BitVec 24) :
    fDisp24 ((0 : BitVec 2) ++ (11 : BitVec 6) ++ disp : IWord) = disp := by
  apply BitVec.eq_of_toNat_eq
  simp only [fDisp24, BitVec.extractLsb'_toNat, callWord_toNat, Nat.shiftRight_eq_div_pow]
  omega

/-! ### ckptWord -/

theorem ckptWord_toNat (k : BitVec 12) :
    ((0 : BitVec 2) ++ (21 : BitVec 6) ++ k ++ (6 : BitVec 6) ++ (0 : BitVec 6) : IWord).toNat = 21 * 2 ^ 24 + k.toNat * 2 ^ 12 + 6 * 2 ^ 6 := by
  repeat erw [app_toNat]
  simp
  try omega

@[simp] theorem fLen_ckptWord (k : BitVec 12) :
    fLen ((0 : BitVec 2) ++ (21 : BitVec 6) ++ k ++ (6 : BitVec 6) ++ (0 : BitVec 6) : IWord) = 0 := by
  apply BitVec.eq_of_toNat_eq
  simp only [fLen, BitVec.extractLsb'_toNat, ckptWord_toNat, Nat.shiftRight_eq_div_pow]
  simp
  try omega
@[simp] theorem fMaj_ckptWord (k : BitVec 12) :
    fMaj ((0 : BitVec 2) ++ (21 : BitVec 6) ++ k ++ (6 : BitVec 6) ++ (0 : BitVec 6) : IWord) = 0x15 := by
  apply BitVec.eq_of_toNat_eq
  simp only [fMaj, BitVec.extractLsb'_toNat, ckptWord_toNat, Nat.shiftRight_eq_div_pow]
  simp
  try omega
@[simp] theorem fFn_ckptWord (k : BitVec 12) :
    fFn ((0 : BitVec 2) ++ (21 : BitVec 6) ++ k ++ (6 : BitVec 6) ++ (0 : BitVec 6) : IWord) = 6 := by
  apply BitVec.eq_of_toNat_eq
  simp only [fFn, BitVec.extractLsb'_toNat, ckptWord_toNat, Nat.shiftRight_eq_div_pow]
  simp
  try omega
@[simp] theorem fW_ckptWord (k : BitVec 12) :
    fW ((0 : BitVec 2) ++ (21 : BitVec 6) ++ k ++ (6 : BitVec 6) ++ (0 : BitVec 6) : IWord) = 0 := by
  apply BitVec.eq_of_toNat_eq
  simp only [fW, BitVec.extractLsb'_toNat, ckptWord_toNat, Nat.shiftRight_eq_div_pow]
  simp
  try omega
@[simp] theorem fC_ckptWord (k : BitVec 12) :
    fC ((0 : BitVec 2) ++ (21 : BitVec 6) ++ k ++ (6 : BitVec 6) ++ (0 : BitVec 6) : IWord) = 0 := by
  apply BitVec.eq_of_toNat_eq
  simp only [fC, BitVec.extractLsb'_toNat, ckptWord_toNat, Nat.shiftRight_eq_div_pow]
  simp
  try omega
@[simp] theorem extract_12_12_ckptWord (k : BitVec 12) :
    ((0 : BitVec 2) ++ (21 : BitVec 6) ++ k ++ (6 : BitVec 6) ++ (0 : BitVec 6) : IWord).extractLsb' 12 12 = k := by
  apply BitVec.eq_of_toNat_eq
  simp only [BitVec.extractLsb'_toNat, ckptWord_toNat, Nat.shiftRight_eq_div_pow]
  omega

/-! ### srdWord -/

theorem srdWord_toNat (d : BitVec 4) (sr : BitVec 8) :
    ((0 : BitVec 2) ++ (23 : BitVec 6) ++ d ++ sr ++ (0 : BitVec 6) ++ (0 : BitVec 6) : IWord).toNat = 23 * 2 ^ 24 + d.toNat * 2 ^ 20 + sr.toNat * 2 ^ 12 := by
  repeat erw [app_toNat]
  simp
  try omega

@[simp] theorem fLen_srdWord (d : BitVec 4) (sr : BitVec 8) :
    fLen ((0 : BitVec 2) ++ (23 : BitVec 6) ++ d ++ sr ++ (0 : BitVec 6) ++ (0 : BitVec 6) : IWord) = 0 := by
  apply BitVec.eq_of_toNat_eq
  simp only [fLen, BitVec.extractLsb'_toNat, srdWord_toNat, Nat.shiftRight_eq_div_pow]
  simp
  try omega
@[simp] theorem fMaj_srdWord (d : BitVec 4) (sr : BitVec 8) :
    fMaj ((0 : BitVec 2) ++ (23 : BitVec 6) ++ d ++ sr ++ (0 : BitVec 6) ++ (0 : BitVec 6) : IWord) = 0x17 := by
  apply BitVec.eq_of_toNat_eq
  simp only [fMaj, BitVec.extractLsb'_toNat, srdWord_toNat, Nat.shiftRight_eq_div_pow]
  simp
  try omega
@[simp] theorem fFn_srdWord (d : BitVec 4) (sr : BitVec 8) :
    fFn ((0 : BitVec 2) ++ (23 : BitVec 6) ++ d ++ sr ++ (0 : BitVec 6) ++ (0 : BitVec 6) : IWord) = 0 := by
  apply BitVec.eq_of_toNat_eq
  simp only [fFn, BitVec.extractLsb'_toNat, srdWord_toNat, Nat.shiftRight_eq_div_pow]
  simp
  try omega
@[simp] theorem fW_srdWord (d : BitVec 4) (sr : BitVec 8) :
    fW ((0 : BitVec 2) ++ (23 : BitVec 6) ++ d ++ sr ++ (0 : BitVec 6) ++ (0 : BitVec 6) : IWord) = 0 := by
  apply BitVec.eq_of_toNat_eq
  simp only [fW, BitVec.extractLsb'_toNat, srdWord_toNat, Nat.shiftRight_eq_div_pow]
  simp
  try omega
@[simp] theorem fC_srdWord (d : BitVec 4) (sr : BitVec 8) :
    fC ((0 : BitVec 2) ++ (23 : BitVec 6) ++ d ++ sr ++ (0 : BitVec 6) ++ (0 : BitVec 6) : IWord) = 0 := by
  apply BitVec.eq_of_toNat_eq
  simp only [fC, BitVec.extractLsb'_toNat, srdWord_toNat, Nat.shiftRight_eq_div_pow]
  simp
  try omega
@[simp] theorem fD_srdWord (d : BitVec 4) (sr : BitVec 8) :
    fD ((0 : BitVec 2) ++ (23 : BitVec 6) ++ d ++ sr ++ (0 : BitVec 6) ++ (0 : BitVec 6) : IWord) = d := by
  apply BitVec.eq_of_toNat_eq
  simp only [fD, BitVec.extractLsb'_toNat, srdWord_toNat, Nat.shiftRight_eq_div_pow]
  omega
@[simp] theorem extract_12_8_srdWord (d : BitVec 4) (sr : BitVec 8) :
    ((0 : BitVec 2) ++ (23 : BitVec 6) ++ d ++ sr ++ (0 : BitVec 6) ++ (0 : BitVec 6) : IWord).extractLsb' 12 8 = sr := by
  apply BitVec.eq_of_toNat_eq
  simp only [BitVec.extractLsb'_toNat, srdWord_toNat, Nat.shiftRight_eq_div_pow]
  omega

/-! ### swrWord -/

theorem swrWord_toNat (sr : BitVec 8) (c : BitVec 4) :
    ((0 : BitVec 2) ++ (23 : BitVec 6) ++ (0 : BitVec 4) ++ sr ++ (1 : BitVec 6) ++ (0 : BitVec 2) ++ c : IWord).toNat = 23 * 2 ^ 24 + sr.toNat * 2 ^ 12 + 1 * 2 ^ 6 + c.toNat * 2 ^ 0 := by
  repeat erw [app_toNat]
  simp
  try omega

@[simp] theorem fLen_swrWord (sr : BitVec 8) (c : BitVec 4) :
    fLen ((0 : BitVec 2) ++ (23 : BitVec 6) ++ (0 : BitVec 4) ++ sr ++ (1 : BitVec 6) ++ (0 : BitVec 2) ++ c : IWord) = 0 := by
  apply BitVec.eq_of_toNat_eq
  simp only [fLen, BitVec.extractLsb'_toNat, swrWord_toNat, Nat.shiftRight_eq_div_pow]
  simp
  try omega
@[simp] theorem fMaj_swrWord (sr : BitVec 8) (c : BitVec 4) :
    fMaj ((0 : BitVec 2) ++ (23 : BitVec 6) ++ (0 : BitVec 4) ++ sr ++ (1 : BitVec 6) ++ (0 : BitVec 2) ++ c : IWord) = 0x17 := by
  apply BitVec.eq_of_toNat_eq
  simp only [fMaj, BitVec.extractLsb'_toNat, swrWord_toNat, Nat.shiftRight_eq_div_pow]
  simp
  try omega
@[simp] theorem fFn_swrWord (sr : BitVec 8) (c : BitVec 4) :
    fFn ((0 : BitVec 2) ++ (23 : BitVec 6) ++ (0 : BitVec 4) ++ sr ++ (1 : BitVec 6) ++ (0 : BitVec 2) ++ c : IWord) = 1 := by
  apply BitVec.eq_of_toNat_eq
  simp only [fFn, BitVec.extractLsb'_toNat, swrWord_toNat, Nat.shiftRight_eq_div_pow]
  simp
  try omega
@[simp] theorem fW_swrWord (sr : BitVec 8) (c : BitVec 4) :
    fW ((0 : BitVec 2) ++ (23 : BitVec 6) ++ (0 : BitVec 4) ++ sr ++ (1 : BitVec 6) ++ (0 : BitVec 2) ++ c : IWord) = 0 := by
  apply BitVec.eq_of_toNat_eq
  simp only [fW, BitVec.extractLsb'_toNat, swrWord_toNat, Nat.shiftRight_eq_div_pow]
  simp
  try omega
@[simp] theorem fC_swrWord (sr : BitVec 8) (c : BitVec 4) :
    fC ((0 : BitVec 2) ++ (23 : BitVec 6) ++ (0 : BitVec 4) ++ sr ++ (1 : BitVec 6) ++ (0 : BitVec 2) ++ c : IWord) = c := by
  apply BitVec.eq_of_toNat_eq
  simp only [fC, BitVec.extractLsb'_toNat, swrWord_toNat, Nat.shiftRight_eq_div_pow]
  omega
@[simp] theorem fD_swrWord (sr : BitVec 8) (c : BitVec 4) :
    fD ((0 : BitVec 2) ++ (23 : BitVec 6) ++ (0 : BitVec 4) ++ sr ++ (1 : BitVec 6) ++ (0 : BitVec 2) ++ c : IWord) = 0 := by
  apply BitVec.eq_of_toNat_eq
  simp only [fD, BitVec.extractLsb'_toNat, swrWord_toNat, Nat.shiftRight_eq_div_pow]
  simp
  try omega
@[simp] theorem extract_12_8_swrWord (sr : BitVec 8) (c : BitVec 4) :
    ((0 : BitVec 2) ++ (23 : BitVec 6) ++ (0 : BitVec 4) ++ sr ++ (1 : BitVec 6) ++ (0 : BitVec 2) ++ c : IWord).extractLsb' 12 8 = sr := by
  apply BitVec.eq_of_toNat_eq
  simp only [BitVec.extractLsb'_toNat, swrWord_toNat, Nat.shiftRight_eq_div_pow]
  omega

/-! ### trapWord -/

theorem trapWord_toNat (n : BitVec 8) (b : BitVec 4) :
    ((0 : BitVec 2) ++ (26 : BitVec 6) ++ n ++ b ++ (0 : BitVec 6) ++ (0 : BitVec 6) : IWord).toNat = 26 * 2 ^ 24 + n.toNat * 2 ^ 16 + b.toNat * 2 ^ 12 := by
  repeat erw [app_toNat]
  simp
  try omega

@[simp] theorem fLen_trapWord (n : BitVec 8) (b : BitVec 4) :
    fLen ((0 : BitVec 2) ++ (26 : BitVec 6) ++ n ++ b ++ (0 : BitVec 6) ++ (0 : BitVec 6) : IWord) = 0 := by
  apply BitVec.eq_of_toNat_eq
  simp only [fLen, BitVec.extractLsb'_toNat, trapWord_toNat, Nat.shiftRight_eq_div_pow]
  simp
  try omega
@[simp] theorem fMaj_trapWord (n : BitVec 8) (b : BitVec 4) :
    fMaj ((0 : BitVec 2) ++ (26 : BitVec 6) ++ n ++ b ++ (0 : BitVec 6) ++ (0 : BitVec 6) : IWord) = 0x1A := by
  apply BitVec.eq_of_toNat_eq
  simp only [fMaj, BitVec.extractLsb'_toNat, trapWord_toNat, Nat.shiftRight_eq_div_pow]
  simp
  try omega
@[simp] theorem fFn_trapWord (n : BitVec 8) (b : BitVec 4) :
    fFn ((0 : BitVec 2) ++ (26 : BitVec 6) ++ n ++ b ++ (0 : BitVec 6) ++ (0 : BitVec 6) : IWord) = 0 := by
  apply BitVec.eq_of_toNat_eq
  simp only [fFn, BitVec.extractLsb'_toNat, trapWord_toNat, Nat.shiftRight_eq_div_pow]
  simp
  try omega
@[simp] theorem fW_trapWord (n : BitVec 8) (b : BitVec 4) :
    fW ((0 : BitVec 2) ++ (26 : BitVec 6) ++ n ++ b ++ (0 : BitVec 6) ++ (0 : BitVec 6) : IWord) = 0 := by
  apply BitVec.eq_of_toNat_eq
  simp only [fW, BitVec.extractLsb'_toNat, trapWord_toNat, Nat.shiftRight_eq_div_pow]
  simp
  try omega
@[simp] theorem fC_trapWord (n : BitVec 8) (b : BitVec 4) :
    fC ((0 : BitVec 2) ++ (26 : BitVec 6) ++ n ++ b ++ (0 : BitVec 6) ++ (0 : BitVec 6) : IWord) = 0 := by
  apply BitVec.eq_of_toNat_eq
  simp only [fC, BitVec.extractLsb'_toNat, trapWord_toNat, Nat.shiftRight_eq_div_pow]
  simp
  try omega
@[simp] theorem fB_trapWord (n : BitVec 8) (b : BitVec 4) :
    fB ((0 : BitVec 2) ++ (26 : BitVec 6) ++ n ++ b ++ (0 : BitVec 6) ++ (0 : BitVec 6) : IWord) = b := by
  apply BitVec.eq_of_toNat_eq
  simp only [fB, BitVec.extractLsb'_toNat, trapWord_toNat, Nat.shiftRight_eq_div_pow]
  omega
@[simp] theorem extract_16_8_trapWord (n : BitVec 8) (b : BitVec 4) :
    ((0 : BitVec 2) ++ (26 : BitVec 6) ++ n ++ b ++ (0 : BitVec 6) ++ (0 : BitVec 6) : IWord).extractLsb' 16 8 = n := by
  apply BitVec.eq_of_toNat_eq
  simp only [BitVec.extractLsb'_toNat, trapWord_toNat, Nat.shiftRight_eq_div_pow]
  omega

/-! ### brkWord -/

theorem brkWord_toNat (n : BitVec 8) :
    ((0 : BitVec 2) ++ (26 : BitVec 6) ++ n ++ (0 : BitVec 4) ++ (1 : BitVec 6) ++ (0 : BitVec 6) : IWord).toNat = 26 * 2 ^ 24 + n.toNat * 2 ^ 16 + 1 * 2 ^ 6 := by
  repeat erw [app_toNat]
  simp
  try omega

@[simp] theorem fLen_brkWord (n : BitVec 8) :
    fLen ((0 : BitVec 2) ++ (26 : BitVec 6) ++ n ++ (0 : BitVec 4) ++ (1 : BitVec 6) ++ (0 : BitVec 6) : IWord) = 0 := by
  apply BitVec.eq_of_toNat_eq
  simp only [fLen, BitVec.extractLsb'_toNat, brkWord_toNat, Nat.shiftRight_eq_div_pow]
  simp
  try omega
@[simp] theorem fMaj_brkWord (n : BitVec 8) :
    fMaj ((0 : BitVec 2) ++ (26 : BitVec 6) ++ n ++ (0 : BitVec 4) ++ (1 : BitVec 6) ++ (0 : BitVec 6) : IWord) = 0x1A := by
  apply BitVec.eq_of_toNat_eq
  simp only [fMaj, BitVec.extractLsb'_toNat, brkWord_toNat, Nat.shiftRight_eq_div_pow]
  simp
  try omega
@[simp] theorem fFn_brkWord (n : BitVec 8) :
    fFn ((0 : BitVec 2) ++ (26 : BitVec 6) ++ n ++ (0 : BitVec 4) ++ (1 : BitVec 6) ++ (0 : BitVec 6) : IWord) = 1 := by
  apply BitVec.eq_of_toNat_eq
  simp only [fFn, BitVec.extractLsb'_toNat, brkWord_toNat, Nat.shiftRight_eq_div_pow]
  simp
  try omega
@[simp] theorem fW_brkWord (n : BitVec 8) :
    fW ((0 : BitVec 2) ++ (26 : BitVec 6) ++ n ++ (0 : BitVec 4) ++ (1 : BitVec 6) ++ (0 : BitVec 6) : IWord) = 0 := by
  apply BitVec.eq_of_toNat_eq
  simp only [fW, BitVec.extractLsb'_toNat, brkWord_toNat, Nat.shiftRight_eq_div_pow]
  simp
  try omega
@[simp] theorem fC_brkWord (n : BitVec 8) :
    fC ((0 : BitVec 2) ++ (26 : BitVec 6) ++ n ++ (0 : BitVec 4) ++ (1 : BitVec 6) ++ (0 : BitVec 6) : IWord) = 0 := by
  apply BitVec.eq_of_toNat_eq
  simp only [fC, BitVec.extractLsb'_toNat, brkWord_toNat, Nat.shiftRight_eq_div_pow]
  simp
  try omega
@[simp] theorem fB_brkWord (n : BitVec 8) :
    fB ((0 : BitVec 2) ++ (26 : BitVec 6) ++ n ++ (0 : BitVec 4) ++ (1 : BitVec 6) ++ (0 : BitVec 6) : IWord) = 0 := by
  apply BitVec.eq_of_toNat_eq
  simp only [fB, BitVec.extractLsb'_toNat, brkWord_toNat, Nat.shiftRight_eq_div_pow]
  simp
  try omega
@[simp] theorem extract_16_8_brkWord (n : BitVec 8) :
    ((0 : BitVec 2) ++ (26 : BitVec 6) ++ n ++ (0 : BitVec 4) ++ (1 : BitVec 6) ++ (0 : BitVec 6) : IWord).extractLsb' 16 8 = n := by
  apply BitVec.eq_of_toNat_eq
  simp only [BitVec.extractLsb'_toNat, brkWord_toNat, Nat.shiftRight_eq_div_pow]
  omega

/-! ### relWord -/

theorem relWord_toNat (ord : BitVec 2) :
    ((0 : BitVec 2) ++ (62 : BitVec 6) ++ (1 : BitVec 4) ++ ord ++ (0 : BitVec 18) : IWord).toNat = 62 * 2 ^ 24 + 1 * 2 ^ 20 + ord.toNat * 2 ^ 18 := by
  repeat erw [app_toNat]
  simp
  try omega

@[simp] theorem fLen_relWord (ord : BitVec 2) :
    fLen ((0 : BitVec 2) ++ (62 : BitVec 6) ++ (1 : BitVec 4) ++ ord ++ (0 : BitVec 18) : IWord) = 0 := by
  apply BitVec.eq_of_toNat_eq
  simp only [fLen, BitVec.extractLsb'_toNat, relWord_toNat, Nat.shiftRight_eq_div_pow]
  simp
  try omega
@[simp] theorem fMaj_relWord (ord : BitVec 2) :
    fMaj ((0 : BitVec 2) ++ (62 : BitVec 6) ++ (1 : BitVec 4) ++ ord ++ (0 : BitVec 18) : IWord) = 0x3E := by
  apply BitVec.eq_of_toNat_eq
  simp only [fMaj, BitVec.extractLsb'_toNat, relWord_toNat, Nat.shiftRight_eq_div_pow]
  simp
  try omega
@[simp] theorem fD_relWord (ord : BitVec 2) :
    fD ((0 : BitVec 2) ++ (62 : BitVec 6) ++ (1 : BitVec 4) ++ ord ++ (0 : BitVec 18) : IWord) = 1 := by
  apply BitVec.eq_of_toNat_eq
  simp only [fD, BitVec.extractLsb'_toNat, relWord_toNat, Nat.shiftRight_eq_div_pow]
  simp
  try omega
@[simp] theorem pOrd_relWord (ord : BitVec 2) :
    pOrd ((0 : BitVec 2) ++ (62 : BitVec 6) ++ (1 : BitVec 4) ++ ord ++ (0 : BitVec 18) : IWord) = ord := by
  apply BitVec.eq_of_toNat_eq
  simp only [pOrd, BitVec.extractLsb'_toNat, relWord_toNat, Nat.shiftRight_eq_div_pow]
  omega
@[simp] theorem pZero_relWord (ord : BitVec 2) :
    pZero ((0 : BitVec 2) ++ (62 : BitVec 6) ++ (1 : BitVec 4) ++ ord ++ (0 : BitVec 18) : IWord) = 0 := by
  apply BitVec.eq_of_toNat_eq
  simp only [pZero, BitVec.extractLsb'_toNat, relWord_toNat, Nat.shiftRight_eq_div_pow]
  simp
  try omega

/-! ### loomWord1 -/

theorem loomWord1_toNat (af : BitVec 4) (bf : BitVec 4) (ng : BitVec 4) (kg : BitVec 11) :
    (af ++ bf ++ (0 : BitVec 4) ++ ng ++ (0 : BitVec 5) ++ kg : IWord).toNat = af.toNat * 2 ^ 28 + bf.toNat * 2 ^ 24 + ng.toNat * 2 ^ 16 + kg.toNat * 2 ^ 0 := by
  repeat erw [app_toNat]
  simp
  try omega

@[simp] theorem extract_28_4_loomWord1 (af : BitVec 4) (bf : BitVec 4) (ng : BitVec 4) (kg : BitVec 11) :
    (af ++ bf ++ (0 : BitVec 4) ++ ng ++ (0 : BitVec 5) ++ kg : IWord).extractLsb' 28 4 = af := by
  apply BitVec.eq_of_toNat_eq
  simp only [BitVec.extractLsb'_toNat, loomWord1_toNat, Nat.shiftRight_eq_div_pow]
  omega
@[simp] theorem extract_24_4_loomWord1 (af : BitVec 4) (bf : BitVec 4) (ng : BitVec 4) (kg : BitVec 11) :
    (af ++ bf ++ (0 : BitVec 4) ++ ng ++ (0 : BitVec 5) ++ kg : IWord).extractLsb' 24 4 = bf := by
  apply BitVec.eq_of_toNat_eq
  simp only [BitVec.extractLsb'_toNat, loomWord1_toNat, Nat.shiftRight_eq_div_pow]
  omega
@[simp] theorem extract_16_4_loomWord1 (af : BitVec 4) (bf : BitVec 4) (ng : BitVec 4) (kg : BitVec 11) :
    (af ++ bf ++ (0 : BitVec 4) ++ ng ++ (0 : BitVec 5) ++ kg : IWord).extractLsb' 16 4 = ng := by
  apply BitVec.eq_of_toNat_eq
  simp only [BitVec.extractLsb'_toNat, loomWord1_toNat, Nat.shiftRight_eq_div_pow]
  omega
@[simp] theorem extract_0_11_loomWord1 (af : BitVec 4) (bf : BitVec 4) (ng : BitVec 4) (kg : BitVec 11) :
    (af ++ bf ++ (0 : BitVec 4) ++ ng ++ (0 : BitVec 5) ++ kg : IWord).extractLsb' 0 11 = kg := by
  apply BitVec.eq_of_toNat_eq
  simp only [BitVec.extractLsb'_toNat, loomWord1_toNat, Nat.shiftRight_eq_div_pow]
  omega
@[simp] theorem extract_20_4_loomWord1 (af : BitVec 4) (bf : BitVec 4) (ng : BitVec 4) (kg : BitVec 11) :
    (af ++ bf ++ (0 : BitVec 4) ++ ng ++ (0 : BitVec 5) ++ kg : IWord).extractLsb' 20 4 = 0 := by
  apply BitVec.eq_of_toNat_eq
  simp only [BitVec.extractLsb'_toNat, loomWord1_toNat, Nat.shiftRight_eq_div_pow]
  simp
  try omega
@[simp] theorem extract_11_5_loomWord1 (af : BitVec 4) (bf : BitVec 4) (ng : BitVec 4) (kg : BitVec 11) :
    (af ++ bf ++ (0 : BitVec 4) ++ ng ++ (0 : BitVec 5) ++ kg : IWord).extractLsb' 11 5 = 0 := by
  apply BitVec.eq_of_toNat_eq
  simp only [BitVec.extractLsb'_toNat, loomWord1_toNat, Nat.shiftRight_eq_div_pow]
  simp
  try omega

/-! ### accWord1 -/

theorem accWord1_toNat (row : BitVec 8) (colg : BitVec 4) (ncg : BitVec 4) :
    ((0 : BitVec 8) ++ row ++ (0 : BitVec 4) ++ colg ++ (0 : BitVec 4) ++ ncg : IWord).toNat = row.toNat * 2 ^ 16 + colg.toNat * 2 ^ 8 + ncg.toNat * 2 ^ 0 := by
  repeat erw [app_toNat]
  simp
  try omega

@[simp] theorem extract_24_8_accWord1 (row : BitVec 8) (colg : BitVec 4) (ncg : BitVec 4) :
    ((0 : BitVec 8) ++ row ++ (0 : BitVec 4) ++ colg ++ (0 : BitVec 4) ++ ncg : IWord).extractLsb' 24 8 = 0 := by
  apply BitVec.eq_of_toNat_eq
  simp only [BitVec.extractLsb'_toNat, accWord1_toNat, Nat.shiftRight_eq_div_pow]
  simp
  try omega
@[simp] theorem extract_12_4_accWord1 (row : BitVec 8) (colg : BitVec 4) (ncg : BitVec 4) :
    ((0 : BitVec 8) ++ row ++ (0 : BitVec 4) ++ colg ++ (0 : BitVec 4) ++ ncg : IWord).extractLsb' 12 4 = 0 := by
  apply BitVec.eq_of_toNat_eq
  simp only [BitVec.extractLsb'_toNat, accWord1_toNat, Nat.shiftRight_eq_div_pow]
  simp
  try omega
@[simp] theorem extract_4_4_accWord1 (row : BitVec 8) (colg : BitVec 4) (ncg : BitVec 4) :
    ((0 : BitVec 8) ++ row ++ (0 : BitVec 4) ++ colg ++ (0 : BitVec 4) ++ ncg : IWord).extractLsb' 4 4 = 0 := by
  apply BitVec.eq_of_toNat_eq
  simp only [BitVec.extractLsb'_toNat, accWord1_toNat, Nat.shiftRight_eq_div_pow]
  simp
  try omega
@[simp] theorem extract_16_8_accWord1 (row : BitVec 8) (colg : BitVec 4) (ncg : BitVec 4) :
    ((0 : BitVec 8) ++ row ++ (0 : BitVec 4) ++ colg ++ (0 : BitVec 4) ++ ncg : IWord).extractLsb' 16 8 = row := by
  apply BitVec.eq_of_toNat_eq
  simp only [BitVec.extractLsb'_toNat, accWord1_toNat, Nat.shiftRight_eq_div_pow]
  omega
@[simp] theorem extract_8_4_accWord1 (row : BitVec 8) (colg : BitVec 4) (ncg : BitVec 4) :
    ((0 : BitVec 8) ++ row ++ (0 : BitVec 4) ++ colg ++ (0 : BitVec 4) ++ ncg : IWord).extractLsb' 8 4 = colg := by
  apply BitVec.eq_of_toNat_eq
  simp only [BitVec.extractLsb'_toNat, accWord1_toNat, Nat.shiftRight_eq_div_pow]
  omega
@[simp] theorem extract_0_4_accWord1 (row : BitVec 8) (colg : BitVec 4) (ncg : BitVec 4) :
    ((0 : BitVec 8) ++ row ++ (0 : BitVec 4) ++ colg ++ (0 : BitVec 4) ++ ncg : IWord).extractLsb' 0 4 = ncg := by
  apply BitVec.eq_of_toNat_eq
  simp only [BitVec.extractLsb'_toNat, accWord1_toNat, Nat.shiftRight_eq_div_pow]
  omega

/-! ### fmtWord2 -/

theorem fmtWord2_toNat (fmt : BitVec 4) :
    ((0 : BitVec 28) ++ fmt : IWord).toNat = fmt.toNat * 2 ^ 0 := by
  repeat erw [app_toNat]
  simp
  try omega

@[simp] theorem extract_0_4_fmtWord2 (fmt : BitVec 4) :
    ((0 : BitVec 28) ++ fmt : IWord).extractLsb' 0 4 = fmt := by
  apply BitVec.eq_of_toNat_eq
  simp only [BitVec.extractLsb'_toNat, fmtWord2_toNat, Nat.shiftRight_eq_div_pow]
  omega
@[simp] theorem extract_4_28_fmtWord2 (fmt : BitVec 4) :
    ((0 : BitVec 28) ++ fmt : IWord).extractLsb' 4 28 = 0 := by
  apply BitVec.eq_of_toNat_eq
  simp only [BitVec.extractLsb'_toNat, fmtWord2_toNat, Nat.shiftRight_eq_div_pow]
  simp
  try omega

/-! ### loomWord2 -/

theorem loomWord2_toNat (cb : BitVec 1) (colg : BitVec 4) (m1 : BitVec 8) :
    (cb ++ (0 : BitVec 19) ++ colg ++ m1 : IWord).toNat = cb.toNat * 2 ^ 31 + colg.toNat * 2 ^ 8 + m1.toNat * 2 ^ 0 := by
  repeat erw [app_toNat]
  simp
  try omega

@[simp] theorem extract_31_1_loomWord2 (cb : BitVec 1) (colg : BitVec 4) (m1 : BitVec 8) :
    (cb ++ (0 : BitVec 19) ++ colg ++ m1 : IWord).extractLsb' 31 1 = cb := by
  apply BitVec.eq_of_toNat_eq
  simp only [BitVec.extractLsb'_toNat, loomWord2_toNat, Nat.shiftRight_eq_div_pow]
  omega
@[simp] theorem extract_12_19_loomWord2 (cb : BitVec 1) (colg : BitVec 4) (m1 : BitVec 8) :
    (cb ++ (0 : BitVec 19) ++ colg ++ m1 : IWord).extractLsb' 12 19 = 0 := by
  apply BitVec.eq_of_toNat_eq
  simp only [BitVec.extractLsb'_toNat, loomWord2_toNat, Nat.shiftRight_eq_div_pow]
  simp
  try omega
@[simp] theorem extract_8_4_loomWord2 (cb : BitVec 1) (colg : BitVec 4) (m1 : BitVec 8) :
    (cb ++ (0 : BitVec 19) ++ colg ++ m1 : IWord).extractLsb' 8 4 = colg := by
  apply BitVec.eq_of_toNat_eq
  simp only [BitVec.extractLsb'_toNat, loomWord2_toNat, Nat.shiftRight_eq_div_pow]
  omega
@[simp] theorem extract_0_8_loomWord2 (cb : BitVec 1) (colg : BitVec 4) (m1 : BitVec 8) :
    (cb ++ (0 : BitVec 19) ++ colg ++ m1 : IWord).extractLsb' 0 8 = m1 := by
  apply BitVec.eq_of_toNat_eq
  simp only [BitVec.extractLsb'_toNat, loomWord2_toNat, Nat.shiftRight_eq_div_pow]
  omega

/-! ### loadWord1 -/

theorem loadWord1_toNat (sx : BitVec 1) (sz : BitVec 2) (off : BitVec 6) (tb : BitVec 1) :
    ((0 : BitVec 13) ++ sx ++ sz ++ (0 : BitVec 2) ++ off ++ (0 : BitVec 7) ++ tb : IWord).toNat = sx.toNat * 2 ^ 18 + sz.toNat * 2 ^ 16 + off.toNat * 2 ^ 8 + tb.toNat * 2 ^ 0 := by
  repeat erw [app_toNat]
  simp
  try omega

@[simp] theorem extract_18_1_loadWord1 (sx : BitVec 1) (sz : BitVec 2) (off : BitVec 6) (tb : BitVec 1) :
    ((0 : BitVec 13) ++ sx ++ sz ++ (0 : BitVec 2) ++ off ++ (0 : BitVec 7) ++ tb : IWord).extractLsb' 18 1 = sx := by
  apply BitVec.eq_of_toNat_eq
  simp only [BitVec.extractLsb'_toNat, loadWord1_toNat, Nat.shiftRight_eq_div_pow]
  omega
@[simp] theorem extract_16_2_loadWord1 (sx : BitVec 1) (sz : BitVec 2) (off : BitVec 6) (tb : BitVec 1) :
    ((0 : BitVec 13) ++ sx ++ sz ++ (0 : BitVec 2) ++ off ++ (0 : BitVec 7) ++ tb : IWord).extractLsb' 16 2 = sz := by
  apply BitVec.eq_of_toNat_eq
  simp only [BitVec.extractLsb'_toNat, loadWord1_toNat, Nat.shiftRight_eq_div_pow]
  omega
@[simp] theorem extract_8_6_loadWord1 (sx : BitVec 1) (sz : BitVec 2) (off : BitVec 6) (tb : BitVec 1) :
    ((0 : BitVec 13) ++ sx ++ sz ++ (0 : BitVec 2) ++ off ++ (0 : BitVec 7) ++ tb : IWord).extractLsb' 8 6 = off := by
  apply BitVec.eq_of_toNat_eq
  simp only [BitVec.extractLsb'_toNat, loadWord1_toNat, Nat.shiftRight_eq_div_pow]
  omega
@[simp] theorem extract_0_1_loadWord1 (sx : BitVec 1) (sz : BitVec 2) (off : BitVec 6) (tb : BitVec 1) :
    ((0 : BitVec 13) ++ sx ++ sz ++ (0 : BitVec 2) ++ off ++ (0 : BitVec 7) ++ tb : IWord).extractLsb' 0 1 = tb := by
  apply BitVec.eq_of_toNat_eq
  simp only [BitVec.extractLsb'_toNat, loadWord1_toNat, Nat.shiftRight_eq_div_pow]
  omega
@[simp] theorem extract_19_13_loadWord1 (sx : BitVec 1) (sz : BitVec 2) (off : BitVec 6) (tb : BitVec 1) :
    ((0 : BitVec 13) ++ sx ++ sz ++ (0 : BitVec 2) ++ off ++ (0 : BitVec 7) ++ tb : IWord).extractLsb' 19 13 = 0 := by
  apply BitVec.eq_of_toNat_eq
  simp only [BitVec.extractLsb'_toNat, loadWord1_toNat, Nat.shiftRight_eq_div_pow]
  simp
  try omega
@[simp] theorem extract_14_2_loadWord1 (sx : BitVec 1) (sz : BitVec 2) (off : BitVec 6) (tb : BitVec 1) :
    ((0 : BitVec 13) ++ sx ++ sz ++ (0 : BitVec 2) ++ off ++ (0 : BitVec 7) ++ tb : IWord).extractLsb' 14 2 = 0 := by
  apply BitVec.eq_of_toNat_eq
  simp only [BitVec.extractLsb'_toNat, loadWord1_toNat, Nat.shiftRight_eq_div_pow]
  simp
  try omega
@[simp] theorem extract_1_7_loadWord1 (sx : BitVec 1) (sz : BitVec 2) (off : BitVec 6) (tb : BitVec 1) :
    ((0 : BitVec 13) ++ sx ++ sz ++ (0 : BitVec 2) ++ off ++ (0 : BitVec 7) ++ tb : IWord).extractLsb' 1 7 = 0 := by
  apply BitVec.eq_of_toNat_eq
  simp only [BitVec.extractLsb'_toNat, loadWord1_toNat, Nat.shiftRight_eq_div_pow]
  simp
  try omega

/-! ### Literals -/

@[simp] theorem literal_halves (l : Word) : literal (l.extractLsb' 0 32) (l.extractLsb' 32 32) = l := by
  apply BitVec.eq_of_toNat_eq
  unfold literal
  erw [app_toNat]
  simp only [BitVec.extractLsb'_toNat, Nat.shiftRight_eq_div_pow]
  have := l.isLt
  omega

/-! ### Small fields -/

@[simp] theorem bit1_eq (b : Bool) : (bit1 b == 1) = b := by cases b <;> rfl
@[simp] theorem wBit_eq (b : Bool) : (wBit b == 1) = b := by cases b <;> rfl

@[simp] theorem rfC_lo (rf : BitVec 2) : (rfC rf).extractLsb' 0 2 = rf := by revert rf; decide
@[simp] theorem rfC_hi (rf : BitVec 2) : (rfC rf).extractLsb' 2 2 = 0 := by revert rf; decide
@[simp] theorem imVc_lo (im : BitVec 2) : (imVc im).extractLsb' 0 2 = im := by revert im; decide
@[simp] theorem imVc_hi (im : BitVec 2) : (imVc im).extractLsb' 2 1 = 0 := by revert im; decide
@[simp] theorem uVc_0 (u : Bool) : (uVc u).extractLsb' 0 1 = bit1 u := by revert u; decide
@[simp] theorem uVc_1 (u : Bool) : (uVc u).extractLsb' 1 1 = 0 := by revert u; decide
@[simp] theorem uVc_2 (u : Bool) : (uVc u).extractLsb' 2 1 = 0 := by revert u; decide
@[simp] theorem satVc_0 (u : Bool) : (satVc u).extractLsb' 0 1 = 0 := by revert u; decide
@[simp] theorem satVc_1 (u : Bool) : (satVc u).extractLsb' 1 1 = bit1 u := by revert u; decide
@[simp] theorem satVc_2 (u : Bool) : (satVc u).extractLsb' 2 1 = 0 := by revert u; decide
@[simp] theorem hiVb_loVc (k : BitVec 6) : (hiVb k ++ loVc k : BitVec 6) = k := by revert k; decide
@[simp] theorem ext6 (k : BitVec 6) : k.extractLsb' 0 6 = k := by revert k; decide
@[simp] theorem n1_lo (n : BitVec 3) : ((0 : BitVec 1) ++ n : BitVec 4).extractLsb' 0 3 = n := by revert n; decide
@[simp] theorem n1_hi (n : BitVec 3) : ((0 : BitVec 1) ++ n : BitVec 4).extractLsb' 3 1 = 0 := by revert n; decide
@[simp] theorem f2_lo (f : BitVec 2) : ((0 : BitVec 2) ++ f : BitVec 4).extractLsb' 0 2 = f := by revert f; decide
@[simp] theorem f2_hi (f : BitVec 2) : ((0 : BitVec 2) ++ f : BitVec 4).extractLsb' 2 2 = 0 := by revert f; decide
@[simp] theorem shi_lo (k2 : BitVec 2) (k : BitVec 6) : (k2 ++ (0 : BitVec 8) ++ k : BitVec 16).extractLsb' 0 6 = k := by
  apply BitVec.eq_of_toNat_eq
  simp only [BitVec.extractLsb'_toNat, app_toNat]
  simp
  omega
@[simp] theorem shi_mid (k2 : BitVec 2) (k : BitVec 6) : (k2 ++ (0 : BitVec 8) ++ k : BitVec 16).extractLsb' 6 8 = 0 := by
  apply BitVec.eq_of_toNat_eq
  simp only [BitVec.extractLsb'_toNat, app_toNat, Nat.shiftRight_eq_div_pow]
  simp
  omega
@[simp] theorem shi_hi (k2 : BitVec 2) (k : BitVec 6) : (k2 ++ (0 : BitVec 8) ++ k : BitVec 16).extractLsb' 14 2 = k2 := by
  apply BitVec.eq_of_toNat_eq
  simp only [BitVec.extractLsb'_toNat, app_toNat, Nat.shiftRight_eq_div_pow]
  simp
  omega
@[simp] theorem tt_tag (n : Bool) (t : BitVec 4) : ((0 : BitVec 1) ++ bit1 n ++ t : BitVec 6).extractLsb' 0 4 = t := by revert n t; decide
@[simp] theorem tt_n (n : Bool) (t : BitVec 4) : ((0 : BitVec 1) ++ bit1 n ++ t : BitVec 6).extractLsb' 4 1 = bit1 n := by revert n t; decide
@[simp] theorem tt_5 (n : Bool) (t : BitVec 4) : ((0 : BitVec 1) ++ bit1 n ++ t : BitVec 6).extractLsb' 5 1 = 0 := by revert n t; decide
@[simp] theorem tag_lo (t : BitVec 4) : ((0 : BitVec 2) ++ t : BitVec 6).extractLsb' 0 4 = t := by revert t; decide
@[simp] theorem tag_4 (t : BitVec 4) : ((0 : BitVec 2) ++ t : BitVec 6).extractLsb' 4 1 = 0 := by revert t; decide
@[simp] theorem tag_5 (t : BitVec 4) : ((0 : BitVec 2) ++ t : BitVec 6).extractLsb' 5 1 = 0 := by revert t; decide
@[simp] theorem tag_45 (t : BitVec 4) : ((0 : BitVec 2) ++ t : BitVec 6).extractLsb' 4 2 = 0 := by revert t; decide
@[simp] theorem hf_lo (h : Bool) (f : BitVec 2) : (bit1 h ++ f : BitVec 3).extractLsb' 0 2 = f := by revert h f; decide
@[simp] theorem hf_hi (h : Bool) (f : BitVec 2) : (bit1 h ++ f : BitVec 3).extractLsb' 2 1 = bit1 h := by revert h f; decide
@[simp] theorem loVc_extract (k : BitVec 6) (i n : Nat) (h : i + n ≤ 3) : (loVc k).extractLsb' i n = k.extractLsb' i n := by
  apply BitVec.eq_of_toNat_eq
  simp only [loVc, BitVec.extractLsb'_toNat, Nat.shiftRight_eq_div_pow, pow_zero, Nat.div_one]
  rw [show (2 : Nat) ^ 3 = 2 ^ i * 2 ^ (3 - i) by rw [← pow_add]; congr 1; omega, Nat.mod_mul_right_div_self,
    Nat.mod_mod_of_dvd _ (pow_dvd_pow 2 (by omega))]

/-- A guarded instruction whose guard holds. -/
theorem guardI_true {b : Bool} {i : Instr} (h : b = true) : guardI b i = some i := by rw [h]; rfl

/-! ### The major of a word says which part decodes it -/

theorem decode_major_01 (w x1 x2 : IWord) (h : fMaj w = 1) : decodeInstr w x1 x2 = lone w (decIop w) := by
  unfold decodeInstr; rw [h]; rfl
theorem decode_major_06 (w x1 x2 : IWord) (h : fMaj w = 6) : decodeInstr w x1 x2 = lone w (decShi w) := by
  unfold decodeInstr; rw [h]; rfl
theorem decode_major_09 (w x1 x2 : IWord) (h : fMaj w = 9) : decodeInstr w x1 x2 = lone w (decBit w) := by
  unfold decodeInstr; rw [h]; rfl
theorem decode_major_0a (w x1 x2 : IWord) (h : fMaj w = 10) : decodeInstr w x1 x2 = lone w (decBr w) := by
  unfold decodeInstr; rw [h]; rfl
theorem decode_major_0c (w x1 x2 : IWord) (h : fMaj w = 12) : decodeInstr w x1 x2 = lone w (decJmp w) := by
  unfold decodeInstr; rw [h]; rfl
theorem decode_major_0d (w x1 x2 : IWord) (h : fMaj w = 13) : decodeInstr w x1 x2 = decLd w x1 x2 := by
  unfold decodeInstr; rw [h]; rfl
theorem decode_major_0e (w x1 x2 : IWord) (h : fMaj w = 14) : decodeInstr w x1 x2 = decSt w x1 x2 := by
  unfold decodeInstr; rw [h]; rfl
theorem decode_major_0f (w x1 x2 : IWord) (h : fMaj w = 15) : decodeInstr w x1 x2 = decSld w x1 x2 := by
  unfold decodeInstr; rw [h]; rfl
theorem decode_major_10 (w x1 x2 : IWord) (h : fMaj w = 16) : decodeInstr w x1 x2 = decSst w x1 x2 := by
  unfold decodeInstr; rw [h]; rfl
theorem decode_major_11 (w x1 x2 : IWord) (h : fMaj w = 17) : decodeInstr w x1 x2 = lone w (decAmo w) := by
  unfold decodeInstr; rw [h]; rfl
theorem decode_major_12 (w x1 x2 : IWord) (h : fMaj w = 18) : decodeInstr w x1 x2 = lone w (decDup w) := by
  unfold decodeInstr; rw [h]; rfl
theorem decode_major_13 (w x1 x2 : IWord) (h : fMaj w = 19) : decodeInstr w x1 x2 = lone w (decOrd w) := by
  unfold decodeInstr; rw [h]; rfl
theorem decode_major_14 (w x1 x2 : IWord) (h : fMaj w = 20) : decodeInstr w x1 x2 = lone w (decChn w) := by
  unfold decodeInstr; rw [h]; rfl
theorem decode_major_15 (w x1 x2 : IWord) (h : fMaj w = 21) : decodeInstr w x1 x2 = lone w (decThr w) := by
  unfold decodeInstr; rw [h]; rfl
theorem decode_major_16 (w x1 x2 : IWord) (h : fMaj w = 22) : decodeInstr w x1 x2 = lone w (decGrp w) := by
  unfold decodeInstr; rw [h]; rfl
theorem decode_major_17 (w x1 x2 : IWord) (h : fMaj w = 23) : decodeInstr w x1 x2 = lone w (decSys w) := by
  unfold decodeInstr; rw [h]; rfl
theorem decode_major_18 (w x1 x2 : IWord) (h : fMaj w = 24) : decodeInstr w x1 x2 = lone w (decSub w) := by
  unfold decodeInstr; rw [h]; rfl
theorem decode_major_19 (w x1 x2 : IWord) (h : fMaj w = 25) : decodeInstr w x1 x2 = lone w (decLch w) := by
  unfold decodeInstr; rw [h]; rfl
theorem decode_major_1a (w x1 x2 : IWord) (h : fMaj w = 26) : decodeInstr w x1 x2 = lone w (decTrp w) := by
  unfold decodeInstr; rw [h]; rfl
theorem decode_major_1b (w x1 x2 : IWord) (h : fMaj w = 27) : decodeInstr w x1 x2 = lone w (decFop w) := by
  unfold decodeInstr; rw [h]; rfl
theorem decode_major_20 (w x1 x2 : IWord) (h : fMaj w = 32) : decodeInstr w x1 x2 = lone w (decVar w) := by
  unfold decodeInstr; rw [h]; rfl
theorem decode_major_21 (w x1 x2 : IWord) (h : fMaj w = 33) : decodeInstr w x1 x2 = lone w (decVls w) := by
  unfold decodeInstr; rw [h]; rfl
theorem decode_major_22 (w x1 x2 : IWord) (h : fMaj w = 34) : decodeInstr w x1 x2 = lone w (decVcv w) := by
  unfold decodeInstr; rw [h]; rfl
theorem decode_major_23 (w x1 x2 : IWord) (h : fMaj w = 35) : decodeInstr w x1 x2 = lone w (decVpr w) := by
  unfold decodeInstr; rw [h]; rfl
theorem decode_major_24 (w x1 x2 : IWord) (h : fMaj w = 36) : decodeInstr w x1 x2 = ext w (decLom w x1 x2) := by
  unfold decodeInstr; rw [h]; rfl
theorem decode_major_25 (w x1 x2 : IWord) (h : fMaj w = 37) : decodeInstr w x1 x2 = ext w (decPai w x1 x2) := by
  unfold decodeInstr; rw [h]; rfl
theorem decode_major_26 (w x1 x2 : IWord) (h : fMaj w = 38) : decodeInstr w x1 x2 = ext w (decLyr w x1 x2) := by
  unfold decodeInstr; rw [h]; rfl
theorem decode_major_27 (w x1 x2 : IWord) (h : fMaj w = 39) : decodeInstr w x1 x2 = ext w (decAct w x1 x2) := by
  unfold decodeInstr; rw [h]; rfl
theorem decode_major_28 (w x1 x2 : IWord) (h : fMaj w = 40) : decodeInstr w x1 x2 = decCpy w x1 x2 := by
  unfold decodeInstr; rw [h]; rfl
theorem decode_major_3e (w x1 x2 : IWord) (h : fMaj w = 62) : decodeInstr w x1 x2 = decPfx w := by
  unfold decodeInstr; rw [h]; rfl
theorem decode_major_0b (w x1 x2 : IWord) (h : fMaj w = 11) : decodeInstr w x1 x2 = lone w (some (.call (fDisp24 w))) := by
  unfold decodeInstr; rw [h]; rfl
theorem decode_major_02 (w x1 x2 : IWord) (h : fMaj w = 2) :
    decodeInstr w x1 x2 = decImm (.addi (fD w) (fA w)) (.addiLiteral (fD w) (fA w)) w x1 x2 := by
  unfold decodeInstr; rw [h]; rfl
theorem decode_major_03 (w x1 x2 : IWord) (h : fMaj w = 3) :
    decodeInstr w x1 x2 = decImm (.andi (fD w) (fA w)) (.andiLiteral (fD w) (fA w)) w x1 x2 := by
  unfold decodeInstr; rw [h]; rfl
theorem decode_major_04 (w x1 x2 : IWord) (h : fMaj w = 4) :
    decodeInstr w x1 x2 = decImm (.ori (fD w) (fA w)) (.oriLiteral (fD w) (fA w)) w x1 x2 := by
  unfold decodeInstr; rw [h]; rfl
theorem decode_major_05 (w x1 x2 : IWord) (h : fMaj w = 5) :
    decodeInstr w x1 x2 = decImm (.xori (fD w) (fA w)) (.xoriLiteral (fD w) (fA w)) w x1 x2 := by
  unfold decodeInstr; rw [h]; rfl
theorem decode_major_07 (w x1 x2 : IWord) (h : fMaj w = 7) :
    decodeInstr w x1 x2 = decImm (.slti (fD w) (fA w)) (.sltiLiteral (fD w) (fA w)) w x1 x2 := by
  unfold decodeInstr; rw [h]; rfl
theorem decode_major_08 (w x1 x2 : IWord) (h : fMaj w = 8) :
    decodeInstr w x1 x2 = if fA w = 0 then decImm (.movi (fD w)) (.moviLiteral (fD w)) w x1 x2 else none := by
  unfold decodeInstr; rw [h]; rfl

end Sys2Proof.Laws
end

