-- ==== Sys2Proof/Laws/Memory.lean ====
section
/-!
SUPPORT. Memory keeps its canonical form, a read gives what was written, and a write leaves every other byte alone.
-/
namespace Sys2Proof.Laws
open Sys2Proof Sys2Proof.Machine

/-- The canonical form of the tail. -/
theorem wf_tail {e : Nat × Byte} {m : Memory} (h : Memory.wf (e :: m) = true) : Memory.wf m = true := by
  cases m with
  | nil => rfl
  | cons x t => obtain ⟨j, v⟩ := e; obtain ⟨k, w⟩ := x; simp only [Memory.wf, Bool.and_eq_true] at h; exact h.2

theorem wf_head {j : Nat} {v : Byte} {m : Memory} (h : Memory.wf ((j, v) :: m) = true) : v ≠ Memory.unlisted := by
  cases m with
  | nil => simpa [Memory.wf] using h
  | cons x t => obtain ⟨k, w⟩ := x; simp only [Memory.wf, Bool.and_eq_true, bne_iff_ne] at h; exact h.1.2

/-- Every listed address is greater than the first. -/
theorem wf_lt {j : Nat} {v : Byte} {m : Memory} (h : Memory.wf ((j, v) :: m) = true) : ∀ c ∈ m, j < c.1 := by
  induction m generalizing j v with
  | nil => simp
  | cons x t ih =>
    obtain ⟨k, w⟩ := x
    have hk : j < k := by simp only [Memory.wf, Bool.and_eq_true, decide_eq_true_eq] at h; exact h.1.1
    intro c hc
    rcases List.mem_cons.mp hc with rfl | hc
    · exact hk
    · exact lt_trans hk (ih (wf_tail h) c hc)

theorem wf_cons {j : Nat} {v : Byte} {m : Memory} (hv : v ≠ Memory.unlisted) (hm : Memory.wf m = true) (hlt : ∀ c ∈ m, j < c.1) :
    Memory.wf ((j, v) :: m) = true := by
  cases m with
  | nil => simpa [Memory.wf] using hv
  | cons x t =>
    obtain ⟨k, w⟩ := x
    have := hlt (k, w) (by simp)
    simp only [Memory.wf, Bool.and_eq_true, decide_eq_true_eq, bne_iff_ne]
    exact ⟨⟨this, hv⟩, hm⟩

theorem mem_write {m : Memory} {k : Nat} {b : Byte} : ∀ c ∈ Memory.write m k b, c.1 = k ∨ c ∈ m := by
  induction m with
  | nil => intro c hc; simp only [Memory.write] at hc; split at hc <;> simp_all
  | cons e t ih =>
    obtain ⟨a, v⟩ := e
    intro c hc
    simp only [Memory.write] at hc
    split at hc
    · split at hc
      · exact .inr hc
      · rcases List.mem_cons.mp hc with rfl | hc
        · exact .inl rfl
        · exact .inr hc
    · split at hc
      · split at hc
        · exact .inr (List.mem_cons_of_mem _ hc)
        · rcases List.mem_cons.mp hc with rfl | hc
          · exact .inl rfl
          · exact .inr (List.mem_cons_of_mem _ hc)
      · rcases List.mem_cons.mp hc with rfl | hc
        · exact .inr (by simp)
        · rcases ih c hc with h | h
          · exact .inl h
          · exact .inr (List.mem_cons_of_mem _ h)

/-- A write of one byte keeps the canonical form. -/
theorem wf_write {m : Memory} (h : Memory.wf m = true) (k : Nat) (b : Byte) : Memory.wf (Memory.write m k b) = true := by
  induction m with
  | nil =>
    simp only [Memory.write]
    split
    · rfl
    · simpa [Memory.wf] using ‹_›
  | cons e t ih =>
    obtain ⟨a, v⟩ := e
    simp only [Memory.write]
    split
    · rename_i hlt
      split
      · exact h
      · rename_i hb
        refine wf_cons hb h ?_
        intro c hc
        rcases List.mem_cons.mp hc with rfl | hc
        · exact hlt
        · exact lt_trans hlt (wf_lt h c hc)
    · split
      · rename_i heq
        subst heq
        split
        · exact wf_tail h
        · rename_i hb; exact wf_cons hb (wf_tail h) (wf_lt h)
      · rename_i h1 h2
        refine wf_cons (wf_head h) (ih (wf_tail h)) ?_
        intro c hc
        rcases mem_write c hc with hk | hc
        · rw [hk]; omega
        · exact wf_lt h c hc

/-- `n` bytes written keep the canonical form. -/
theorem wf_writeN {m : Memory} (h : Memory.wf m = true) (fa n v : Nat) : Memory.wf (Memory.writeN m fa n v) = true := by
  induction n generalizing m fa v with
  | zero => exact h
  | succ n ih => exact ih (wf_write h _ _) _ _

/-- A part of a memory in canonical form is in canonical form. -/
theorem wf_filter {m : Memory} (h : Memory.wf m = true) (p : Nat × Byte → Bool) : Memory.wf (m.filter p) = true := by
  induction m with
  | nil => rfl
  | cons e t ih =>
    obtain ⟨a, v⟩ := e
    simp only [List.filter]
    split
    · exact wf_cons (wf_head h) (ih (wf_tail h)) fun c hc => wf_lt h c (List.mem_of_mem_filter hc)
    · exact ih (wf_tail h)

/-- Bytes written one after another keep the canonical form. -/
theorem wf_writes {α : Type} (l : List α) (at_ : α → Nat) (val : α → Byte) {m : Memory} (h : Memory.wf m = true) :
    Memory.wf (l.foldl (fun m x => Memory.write m (at_ x) (val x)) m) = true := by
  induction l generalizing m with
  | nil => exact h
  | cons x l ih => exact ih (wf_write h _ _)

theorem read_of_lt {m : Memory} {k : Nat} (h : ∀ c ∈ m, k < c.1) : Memory.read m k = Memory.unlisted := by
  cases m with
  | nil => rfl
  | cons e t =>
    obtain ⟨a, v⟩ := e
    have := h (a, v) (by simp)
    have h1 : a ≠ k := by simp at this; omega
    simp only [Memory.read, h1, if_false]
    simp at this
    simp [this]

/-- The byte written is read. -/
theorem read_write_same {m : Memory} (h : Memory.wf m = true) (k : Nat) (b : Byte) : Memory.read (Memory.write m k b) k = b := by
  induction m with
  | nil =>
    simp only [Memory.write]
    split
    · simp [Memory.read, *]
    · simp [Memory.read]
  | cons e t ih =>
    obtain ⟨a, v⟩ := e
    simp only [Memory.write]
    split
    · rename_i hlt
      split
      · rename_i hb
        have h1 : a ≠ k := by omega
        simp [Memory.read, h1, hlt, hb]
      · simp [Memory.read]
    · split
      · rename_i heq
        subst heq
        split
        · rename_i hb; rw [hb]; exact read_of_lt (wf_lt h)
        · simp [Memory.read]
      · rename_i h1 h2
        simp [Memory.read, h1, h2, ih (wf_tail h)]

/-- Every other byte is left alone. -/
theorem read_write_ne {m : Memory} (h : Memory.wf m = true) {k j : Nat} (hj : j ≠ k) (b : Byte) :
    Memory.read (Memory.write m k b) j = Memory.read m j := by
  induction m with
  | nil =>
    simp only [Memory.write]
    split
    · rfl
    · simp [Memory.read, hj.symm]
  | cons e t ih =>
    obtain ⟨a, v⟩ := e
    simp only [Memory.write]
    split
    · rename_i hlt
      split
      · rfl
      · simp only [Memory.read, hj.symm, if_false]
        by_cases hjk : j < k
        · have h1 : a ≠ j := by omega
          have h2 : j < a := by omega
          simp [hjk, h1, h2]
        · simp [hjk]
    · split
      · rename_i heq
        subst heq
        split
        · rename_i hb
          simp only [Memory.read, hj.symm, if_false]
          by_cases hja : j < a
          · simp [hja]; exact read_of_lt fun c hc => lt_trans hja (wf_lt h c hc)
          · simp [hja]
        · simp [Memory.read, hj.symm]
      · simp [Memory.read, ih (wf_tail h)]

theorem read_write {m : Memory} (h : Memory.wf m = true) (k j : Nat) (b : Byte) :
    Memory.read (Memory.write m k b) j = if j = k then b else Memory.read m j := by
  split
  · rename_i e; subst e; exact read_write_same h j b
  · rename_i e; exact read_write_ne h e b

/-- Bytes outside the `n` written are left alone. -/
theorem read_writeN_out {m : Memory} (h : Memory.wf m = true) (fa n v : Nat) {j : Nat} (hj : j < fa ∨ fa + n ≤ j) :
    Memory.read (Memory.writeN m fa n v) j = Memory.read m j := by
  induction n generalizing m fa v with
  | zero => rfl
  | succ n ih =>
    simp only [Memory.writeN]
    rw [ih (wf_write h _ _) _ _ (by omega), read_write_ne h (by omega)]

/-- Byte `i` of what was written. -/
theorem read_writeN_in {m : Memory} (h : Memory.wf m = true) (fa n v i : Nat) (hi : i < n) :
    Memory.read (Memory.writeN m fa n v) (fa + i) = BitVec.ofNat 8 (v / 256 ^ i) := by
  induction n generalizing m fa v i with
  | zero => omega
  | succ n ih =>
    simp only [Memory.writeN]
    cases i with
    | zero =>
      rw [read_writeN_out (wf_write h _ _) _ _ _ (by omega)]
      simp [read_write_same h]
    | succ i =>
      have : fa + (i + 1) = fa + 1 + i := by omega
      rw [this, ih (wf_write h _ _) _ _ i (by omega), Nat.div_div_eq_div_mul, pow_succ, Nat.mul_comm]

/-- `n` bytes written are read back as the low `8·n` bits. -/
theorem readN_writeN {m : Memory} (h : Memory.wf m = true) (fa n v : Nat) :
    Memory.readN (Memory.writeN m fa n v) fa n = v % 256 ^ n := by
  induction n generalizing m fa v with
  | zero => simp [Memory.readN, Nat.mod_one]
  | succ n ih =>
    have h0 : Memory.read (Memory.writeN m fa (n + 1) v) fa = BitVec.ofNat 8 v := by
      have := read_writeN_in h fa (n + 1) v 0 (by omega); simpa using this
    simp only [Memory.readN, h0]
    rw [Memory.writeN, ih (wf_write h _ _)]
    rw [BitVec.toNat_ofNat, Nat.pow_succ' (n := n), Nat.mod_mul]

end Sys2Proof.Laws
end

