-- ==== Sys2Proof/Laws/Table.lean ====
section
/-!
SUPPORT. What a sparse table holds after it is written: the entry written, and every other entry as before.
-/
namespace Sys2Proof.Laws
open Sys2Proof

variable {α : Type}

@[simp] theorem find_set_same (t : Table α) (k : Nat) (v : α) : Table.find (Table.set t k v) k = some v := by
  induction t with
  | nil => simp [Table.set, Table.find]
  | cons e t ih =>
    obtain ⟨j, w⟩ := e
    simp only [Table.set]
    split
    · simp [Table.find]
    · split
      · simp [Table.find]
      · simp [Table.find, *]

theorem find_set_ne (t : Table α) {k j : Nat} (v : α) (h : j ≠ k) : Table.find (Table.set t k v) j = Table.find t j := by
  induction t with
  | nil => simp [Table.set, Table.find, h.symm]
  | cons e t ih =>
    obtain ⟨i, w⟩ := e
    simp only [Table.set]
    split
    · simp [Table.find, h.symm]
    · split
      · rename_i hik; subst hik; simp [Table.find, h.symm]
      · simp [Table.find, ih]

theorem find_set (t : Table α) (k j : Nat) (v : α) :
    Table.find (Table.set t k v) j = if j = k then some v else Table.find t j := by
  split
  · rename_i h; subst h; exact find_set_same t j v
  · rename_i h; exact find_set_ne t v h

@[simp] theorem get_set_same (d : α) (t : Table α) (k : Nat) (v : α) : Table.get d (Table.set t k v) k = v := by
  simp [Table.get]

theorem get_set_ne (d : α) (t : Table α) {k j : Nat} (v : α) (h : j ≠ k) : Table.get d (Table.set t k v) j = Table.get d t j := by
  simp [Table.get, find_set_ne t v h]

theorem get_set (d : α) (t : Table α) (k j : Nat) (v : α) :
    Table.get d (Table.set t k v) j = if j = k then v else Table.get d t j := by
  split
  · rename_i h; subst h; exact get_set_same d t j v
  · rename_i h; exact get_set_ne d t v h

@[simp] theorem get_modify_same (d : α) (t : Table α) (k : Nat) (f : α → α) :
    Table.get d (Table.modify d t k f) k = f (Table.get d t k) := by simp [Table.modify]

theorem get_modify_ne (d : α) (t : Table α) {k j : Nat} (f : α → α) (h : j ≠ k) :
    Table.get d (Table.modify d t k f) j = Table.get d t j := by simp [Table.modify, get_set_ne d t _ h]

/-- Writing a key twice leaves the second value. -/
@[simp] theorem set_set (t : Table α) (k : Nat) (v w : α) : Table.set (Table.set t k v) k w = Table.set t k w := by
  induction t with
  | nil => simp [Table.set]
  | cons e t ih =>
    obtain ⟨j, x⟩ := e
    simp only [Table.set]
    split
    · simp [Table.set]
    · split
      · simp [Table.set]
      · rename_i h1 h2; simp [Table.set, h1, h2, ih]

@[simp] theorem get_nil (d : α) (k : Nat) : Table.get d [] k = d := rfl
@[simp] theorem find_nil (k : Nat) : Table.find ([] : Table α) k = none := rfl

end Sys2Proof.Laws
end

