-- ==== Sys2Proof/Laws/State.lean ====
section
/-!
SUPPORT. What each named update of the state leaves alone, one lemma for each field, and what the accessors read after an update.
-/
namespace Sys2Proof.Laws
open Sys2Proof Sys2Proof.Machine

/-! ### setCtx -/

@[simp] theorem setCtx_now (s : State) (k : Nat) (c : Context) : (s.setCtx k c).now = s.now := rfl
@[simp] theorem setCtx_mem (s : State) (k : Nat) (c : Context) : (s.setCtx k c).mem = s.mem := rfl
@[simp] theorem setCtx_fe (s : State) (k : Nat) (c : Context) : (s.setCtx k c).fe = s.fe := rfl
@[simp] theorem setCtx_poison (s : State) (k : Nat) (c : Context) : (s.setCtx k c).poison = s.poison := rfl
@[simp] theorem setCtx_spindles (s : State) (k : Nat) (c : Context) : (s.setCtx k c).spindles = s.spindles := rfl
@[simp] theorem setCtx_clusters (s : State) (k : Nat) (c : Context) : (s.setCtx k c).clusters = s.clusters := rfl
@[simp] theorem setCtx_engines (s : State) (k : Nat) (c : Context) : (s.setCtx k c).engines = s.engines := rfl
@[simp] theorem setCtx_links (s : State) (k : Nat) (c : Context) : (s.setCtx k c).links = s.links := rfl
@[simp] theorem setCtx_peers (s : State) (k : Nat) (c : Context) : (s.setCtx k c).peers = s.peers := rfl
@[simp] theorem setCtx_jobs (s : State) (k : Nat) (c : Context) : (s.setCtx k c).jobs = s.jobs := rfl
@[simp] theorem setCtx_disp (s : State) (k : Nat) (c : Context) : (s.setCtx k c).disp = s.disp := rfl
@[simp] theorem setCtx_unrav (s : State) (k : Nat) (c : Context) : (s.setCtx k c).unrav = s.unrav := rfl
@[simp] theorem setCtx_trebex (s : State) (k : Nat) (c : Context) : (s.setCtx k c).trebex = s.trebex := rfl
@[simp] theorem setCtx_msgs (s : State) (k : Nat) (c : Context) : (s.setCtx k c).msgs = s.msgs := rfl
@[simp] theorem setCtx_nextMsg (s : State) (k : Nat) (c : Context) : (s.setCtx k c).nextMsg = s.nextMsg := rfl
@[simp] theorem setCtx_nextTok (s : State) (k : Nat) (c : Context) : (s.setCtx k c).nextTok = s.nextTok := rfl
@[simp] theorem setCtx_cur (s : State) (k : Nat) (c : Context) : (s.setCtx k c).cur = s.cur := rfl
@[simp] theorem setCtx_midUnit (s : State) (k : Nat) (c : Context) : (s.setCtx k c).midUnit = s.midUnit := rfl
@[simp] theorem setCtx_agenda (s : State) (k : Nat) (c : Context) : (s.setCtx k c).agenda = s.agenda := rfl
@[simp] theorem setCtx_upsets (s : State) (k : Nat) (c : Context) : (s.setCtx k c).upsets = s.upsets := rfl
@[simp] theorem setCtx_free (s : State) (k : Nat) (c : Context) : (s.setCtx k c).free = s.free := rfl

/-! ### modCtx -/

@[simp] theorem modCtx_now (s : State) (k : Nat) (f : Context → Context) : (s.modCtx k f).now = s.now := rfl
@[simp] theorem modCtx_mem (s : State) (k : Nat) (f : Context → Context) : (s.modCtx k f).mem = s.mem := rfl
@[simp] theorem modCtx_fe (s : State) (k : Nat) (f : Context → Context) : (s.modCtx k f).fe = s.fe := rfl
@[simp] theorem modCtx_poison (s : State) (k : Nat) (f : Context → Context) : (s.modCtx k f).poison = s.poison := rfl
@[simp] theorem modCtx_spindles (s : State) (k : Nat) (f : Context → Context) : (s.modCtx k f).spindles = s.spindles := rfl
@[simp] theorem modCtx_clusters (s : State) (k : Nat) (f : Context → Context) : (s.modCtx k f).clusters = s.clusters := rfl
@[simp] theorem modCtx_engines (s : State) (k : Nat) (f : Context → Context) : (s.modCtx k f).engines = s.engines := rfl
@[simp] theorem modCtx_links (s : State) (k : Nat) (f : Context → Context) : (s.modCtx k f).links = s.links := rfl
@[simp] theorem modCtx_peers (s : State) (k : Nat) (f : Context → Context) : (s.modCtx k f).peers = s.peers := rfl
@[simp] theorem modCtx_jobs (s : State) (k : Nat) (f : Context → Context) : (s.modCtx k f).jobs = s.jobs := rfl
@[simp] theorem modCtx_disp (s : State) (k : Nat) (f : Context → Context) : (s.modCtx k f).disp = s.disp := rfl
@[simp] theorem modCtx_unrav (s : State) (k : Nat) (f : Context → Context) : (s.modCtx k f).unrav = s.unrav := rfl
@[simp] theorem modCtx_trebex (s : State) (k : Nat) (f : Context → Context) : (s.modCtx k f).trebex = s.trebex := rfl
@[simp] theorem modCtx_msgs (s : State) (k : Nat) (f : Context → Context) : (s.modCtx k f).msgs = s.msgs := rfl
@[simp] theorem modCtx_nextMsg (s : State) (k : Nat) (f : Context → Context) : (s.modCtx k f).nextMsg = s.nextMsg := rfl
@[simp] theorem modCtx_nextTok (s : State) (k : Nat) (f : Context → Context) : (s.modCtx k f).nextTok = s.nextTok := rfl
@[simp] theorem modCtx_cur (s : State) (k : Nat) (f : Context → Context) : (s.modCtx k f).cur = s.cur := rfl
@[simp] theorem modCtx_midUnit (s : State) (k : Nat) (f : Context → Context) : (s.modCtx k f).midUnit = s.midUnit := rfl
@[simp] theorem modCtx_agenda (s : State) (k : Nat) (f : Context → Context) : (s.modCtx k f).agenda = s.agenda := rfl
@[simp] theorem modCtx_upsets (s : State) (k : Nat) (f : Context → Context) : (s.modCtx k f).upsets = s.upsets := rfl
@[simp] theorem modCtx_free (s : State) (k : Nat) (f : Context → Context) : (s.modCtx k f).free = s.free := rfl

/-! ### modMe -/

@[simp] theorem modMe_now (s : State) (f : Context → Context) : (s.modMe f).now = s.now := rfl
@[simp] theorem modMe_mem (s : State) (f : Context → Context) : (s.modMe f).mem = s.mem := rfl
@[simp] theorem modMe_fe (s : State) (f : Context → Context) : (s.modMe f).fe = s.fe := rfl
@[simp] theorem modMe_poison (s : State) (f : Context → Context) : (s.modMe f).poison = s.poison := rfl
@[simp] theorem modMe_spindles (s : State) (f : Context → Context) : (s.modMe f).spindles = s.spindles := rfl
@[simp] theorem modMe_clusters (s : State) (f : Context → Context) : (s.modMe f).clusters = s.clusters := rfl
@[simp] theorem modMe_engines (s : State) (f : Context → Context) : (s.modMe f).engines = s.engines := rfl
@[simp] theorem modMe_links (s : State) (f : Context → Context) : (s.modMe f).links = s.links := rfl
@[simp] theorem modMe_peers (s : State) (f : Context → Context) : (s.modMe f).peers = s.peers := rfl
@[simp] theorem modMe_jobs (s : State) (f : Context → Context) : (s.modMe f).jobs = s.jobs := rfl
@[simp] theorem modMe_disp (s : State) (f : Context → Context) : (s.modMe f).disp = s.disp := rfl
@[simp] theorem modMe_unrav (s : State) (f : Context → Context) : (s.modMe f).unrav = s.unrav := rfl
@[simp] theorem modMe_trebex (s : State) (f : Context → Context) : (s.modMe f).trebex = s.trebex := rfl
@[simp] theorem modMe_msgs (s : State) (f : Context → Context) : (s.modMe f).msgs = s.msgs := rfl
@[simp] theorem modMe_nextMsg (s : State) (f : Context → Context) : (s.modMe f).nextMsg = s.nextMsg := rfl
@[simp] theorem modMe_nextTok (s : State) (f : Context → Context) : (s.modMe f).nextTok = s.nextTok := rfl
@[simp] theorem modMe_cur (s : State) (f : Context → Context) : (s.modMe f).cur = s.cur := rfl
@[simp] theorem modMe_midUnit (s : State) (f : Context → Context) : (s.modMe f).midUnit = s.midUnit := rfl
@[simp] theorem modMe_agenda (s : State) (f : Context → Context) : (s.modMe f).agenda = s.agenda := rfl
@[simp] theorem modMe_upsets (s : State) (f : Context → Context) : (s.modMe f).upsets = s.upsets := rfl
@[simp] theorem modMe_free (s : State) (f : Context → Context) : (s.modMe f).free = s.free := rfl

/-! ### retire -/

@[simp] theorem retire_now (s : State) (f : Context → Context) : (s.retire f).now = s.now := rfl
@[simp] theorem retire_mem (s : State) (f : Context → Context) : (s.retire f).mem = s.mem := rfl
@[simp] theorem retire_fe (s : State) (f : Context → Context) : (s.retire f).fe = s.fe := rfl
@[simp] theorem retire_poison (s : State) (f : Context → Context) : (s.retire f).poison = s.poison := rfl
@[simp] theorem retire_spindles (s : State) (f : Context → Context) : (s.retire f).spindles = s.spindles := rfl
@[simp] theorem retire_clusters (s : State) (f : Context → Context) : (s.retire f).clusters = s.clusters := rfl
@[simp] theorem retire_engines (s : State) (f : Context → Context) : (s.retire f).engines = s.engines := rfl
@[simp] theorem retire_links (s : State) (f : Context → Context) : (s.retire f).links = s.links := rfl
@[simp] theorem retire_peers (s : State) (f : Context → Context) : (s.retire f).peers = s.peers := rfl
@[simp] theorem retire_jobs (s : State) (f : Context → Context) : (s.retire f).jobs = s.jobs := rfl
@[simp] theorem retire_disp (s : State) (f : Context → Context) : (s.retire f).disp = s.disp := rfl
@[simp] theorem retire_unrav (s : State) (f : Context → Context) : (s.retire f).unrav = s.unrav := rfl
@[simp] theorem retire_trebex (s : State) (f : Context → Context) : (s.retire f).trebex = s.trebex := rfl
@[simp] theorem retire_msgs (s : State) (f : Context → Context) : (s.retire f).msgs = s.msgs := rfl
@[simp] theorem retire_nextMsg (s : State) (f : Context → Context) : (s.retire f).nextMsg = s.nextMsg := rfl
@[simp] theorem retire_nextTok (s : State) (f : Context → Context) : (s.retire f).nextTok = s.nextTok := rfl
@[simp] theorem retire_cur (s : State) (f : Context → Context) : (s.retire f).cur = s.cur := rfl
@[simp] theorem retire_midUnit (s : State) (f : Context → Context) : (s.retire f).midUnit = s.midUnit := rfl
@[simp] theorem retire_agenda (s : State) (f : Context → Context) : (s.retire f).agenda = s.agenda := rfl
@[simp] theorem retire_upsets (s : State) (f : Context → Context) : (s.retire f).upsets = s.upsets := rfl
@[simp] theorem retire_free (s : State) (f : Context → Context) : (s.retire f).free = s.free := rfl

/-! ### setG -/

@[simp] theorem setG_now (s : State) (d : Reg) (v : Word) : (s.setG d v).now = s.now := rfl
@[simp] theorem setG_mem (s : State) (d : Reg) (v : Word) : (s.setG d v).mem = s.mem := rfl
@[simp] theorem setG_fe (s : State) (d : Reg) (v : Word) : (s.setG d v).fe = s.fe := rfl
@[simp] theorem setG_poison (s : State) (d : Reg) (v : Word) : (s.setG d v).poison = s.poison := rfl
@[simp] theorem setG_spindles (s : State) (d : Reg) (v : Word) : (s.setG d v).spindles = s.spindles := rfl
@[simp] theorem setG_clusters (s : State) (d : Reg) (v : Word) : (s.setG d v).clusters = s.clusters := rfl
@[simp] theorem setG_engines (s : State) (d : Reg) (v : Word) : (s.setG d v).engines = s.engines := rfl
@[simp] theorem setG_links (s : State) (d : Reg) (v : Word) : (s.setG d v).links = s.links := rfl
@[simp] theorem setG_peers (s : State) (d : Reg) (v : Word) : (s.setG d v).peers = s.peers := rfl
@[simp] theorem setG_jobs (s : State) (d : Reg) (v : Word) : (s.setG d v).jobs = s.jobs := rfl
@[simp] theorem setG_disp (s : State) (d : Reg) (v : Word) : (s.setG d v).disp = s.disp := rfl
@[simp] theorem setG_unrav (s : State) (d : Reg) (v : Word) : (s.setG d v).unrav = s.unrav := rfl
@[simp] theorem setG_trebex (s : State) (d : Reg) (v : Word) : (s.setG d v).trebex = s.trebex := rfl
@[simp] theorem setG_msgs (s : State) (d : Reg) (v : Word) : (s.setG d v).msgs = s.msgs := rfl
@[simp] theorem setG_nextMsg (s : State) (d : Reg) (v : Word) : (s.setG d v).nextMsg = s.nextMsg := rfl
@[simp] theorem setG_nextTok (s : State) (d : Reg) (v : Word) : (s.setG d v).nextTok = s.nextTok := rfl
@[simp] theorem setG_cur (s : State) (d : Reg) (v : Word) : (s.setG d v).cur = s.cur := rfl
@[simp] theorem setG_midUnit (s : State) (d : Reg) (v : Word) : (s.setG d v).midUnit = s.midUnit := rfl
@[simp] theorem setG_agenda (s : State) (d : Reg) (v : Word) : (s.setG d v).agenda = s.agenda := rfl
@[simp] theorem setG_upsets (s : State) (d : Reg) (v : Word) : (s.setG d v).upsets = s.upsets := rfl
@[simp] theorem setG_free (s : State) (d : Reg) (v : Word) : (s.setG d v).free = s.free := rfl

/-! ### goTo -/

@[simp] theorem goTo_now (s : State) (t : Word) : (s.goTo t).now = s.now := rfl
@[simp] theorem goTo_mem (s : State) (t : Word) : (s.goTo t).mem = s.mem := rfl
@[simp] theorem goTo_fe (s : State) (t : Word) : (s.goTo t).fe = s.fe := rfl
@[simp] theorem goTo_poison (s : State) (t : Word) : (s.goTo t).poison = s.poison := rfl
@[simp] theorem goTo_spindles (s : State) (t : Word) : (s.goTo t).spindles = s.spindles := rfl
@[simp] theorem goTo_clusters (s : State) (t : Word) : (s.goTo t).clusters = s.clusters := rfl
@[simp] theorem goTo_engines (s : State) (t : Word) : (s.goTo t).engines = s.engines := rfl
@[simp] theorem goTo_links (s : State) (t : Word) : (s.goTo t).links = s.links := rfl
@[simp] theorem goTo_peers (s : State) (t : Word) : (s.goTo t).peers = s.peers := rfl
@[simp] theorem goTo_jobs (s : State) (t : Word) : (s.goTo t).jobs = s.jobs := rfl
@[simp] theorem goTo_disp (s : State) (t : Word) : (s.goTo t).disp = s.disp := rfl
@[simp] theorem goTo_unrav (s : State) (t : Word) : (s.goTo t).unrav = s.unrav := rfl
@[simp] theorem goTo_trebex (s : State) (t : Word) : (s.goTo t).trebex = s.trebex := rfl
@[simp] theorem goTo_msgs (s : State) (t : Word) : (s.goTo t).msgs = s.msgs := rfl
@[simp] theorem goTo_nextMsg (s : State) (t : Word) : (s.goTo t).nextMsg = s.nextMsg := rfl
@[simp] theorem goTo_nextTok (s : State) (t : Word) : (s.goTo t).nextTok = s.nextTok := rfl
@[simp] theorem goTo_cur (s : State) (t : Word) : (s.goTo t).cur = s.cur := rfl
@[simp] theorem goTo_midUnit (s : State) (t : Word) : (s.goTo t).midUnit = s.midUnit := rfl
@[simp] theorem goTo_agenda (s : State) (t : Word) : (s.goTo t).agenda = s.agenda := rfl
@[simp] theorem goTo_upsets (s : State) (t : Word) : (s.goTo t).upsets = s.upsets := rfl
@[simp] theorem goTo_free (s : State) (t : Word) : (s.goTo t).free = s.free := rfl

/-! ### parkAgain -/

@[simp] theorem parkAgain_now (s : State) (why : Nat) : (s.parkAgain why).now = s.now := rfl
@[simp] theorem parkAgain_mem (s : State) (why : Nat) : (s.parkAgain why).mem = s.mem := rfl
@[simp] theorem parkAgain_fe (s : State) (why : Nat) : (s.parkAgain why).fe = s.fe := rfl
@[simp] theorem parkAgain_poison (s : State) (why : Nat) : (s.parkAgain why).poison = s.poison := rfl
@[simp] theorem parkAgain_spindles (s : State) (why : Nat) : (s.parkAgain why).spindles = s.spindles := rfl
@[simp] theorem parkAgain_clusters (s : State) (why : Nat) : (s.parkAgain why).clusters = s.clusters := rfl
@[simp] theorem parkAgain_engines (s : State) (why : Nat) : (s.parkAgain why).engines = s.engines := rfl
@[simp] theorem parkAgain_links (s : State) (why : Nat) : (s.parkAgain why).links = s.links := rfl
@[simp] theorem parkAgain_peers (s : State) (why : Nat) : (s.parkAgain why).peers = s.peers := rfl
@[simp] theorem parkAgain_jobs (s : State) (why : Nat) : (s.parkAgain why).jobs = s.jobs := rfl
@[simp] theorem parkAgain_disp (s : State) (why : Nat) : (s.parkAgain why).disp = s.disp := rfl
@[simp] theorem parkAgain_unrav (s : State) (why : Nat) : (s.parkAgain why).unrav = s.unrav := rfl
@[simp] theorem parkAgain_trebex (s : State) (why : Nat) : (s.parkAgain why).trebex = s.trebex := rfl
@[simp] theorem parkAgain_msgs (s : State) (why : Nat) : (s.parkAgain why).msgs = s.msgs := rfl
@[simp] theorem parkAgain_nextMsg (s : State) (why : Nat) : (s.parkAgain why).nextMsg = s.nextMsg := rfl
@[simp] theorem parkAgain_nextTok (s : State) (why : Nat) : (s.parkAgain why).nextTok = s.nextTok := rfl
@[simp] theorem parkAgain_cur (s : State) (why : Nat) : (s.parkAgain why).cur = s.cur := rfl
@[simp] theorem parkAgain_midUnit (s : State) (why : Nat) : (s.parkAgain why).midUnit = s.midUnit := rfl
@[simp] theorem parkAgain_agenda (s : State) (why : Nat) : (s.parkAgain why).agenda = s.agenda := rfl
@[simp] theorem parkAgain_upsets (s : State) (why : Nat) : (s.parkAgain why).upsets = s.upsets := rfl
@[simp] theorem parkAgain_free (s : State) (why : Nat) : (s.parkAgain why).free = s.free := rfl

/-! ### parkOn -/

@[simp] theorem parkOn_now (s : State) (why ch : Nat) : (s.parkOn why ch).now = s.now := rfl
@[simp] theorem parkOn_mem (s : State) (why ch : Nat) : (s.parkOn why ch).mem = s.mem := rfl
@[simp] theorem parkOn_fe (s : State) (why ch : Nat) : (s.parkOn why ch).fe = s.fe := rfl
@[simp] theorem parkOn_poison (s : State) (why ch : Nat) : (s.parkOn why ch).poison = s.poison := rfl
@[simp] theorem parkOn_spindles (s : State) (why ch : Nat) : (s.parkOn why ch).spindles = s.spindles := rfl
@[simp] theorem parkOn_clusters (s : State) (why ch : Nat) : (s.parkOn why ch).clusters = s.clusters := rfl
@[simp] theorem parkOn_engines (s : State) (why ch : Nat) : (s.parkOn why ch).engines = s.engines := rfl
@[simp] theorem parkOn_links (s : State) (why ch : Nat) : (s.parkOn why ch).links = s.links := rfl
@[simp] theorem parkOn_peers (s : State) (why ch : Nat) : (s.parkOn why ch).peers = s.peers := rfl
@[simp] theorem parkOn_jobs (s : State) (why ch : Nat) : (s.parkOn why ch).jobs = s.jobs := rfl
@[simp] theorem parkOn_disp (s : State) (why ch : Nat) : (s.parkOn why ch).disp = s.disp := rfl
@[simp] theorem parkOn_unrav (s : State) (why ch : Nat) : (s.parkOn why ch).unrav = s.unrav := rfl
@[simp] theorem parkOn_trebex (s : State) (why ch : Nat) : (s.parkOn why ch).trebex = s.trebex := rfl
@[simp] theorem parkOn_msgs (s : State) (why ch : Nat) : (s.parkOn why ch).msgs = s.msgs := rfl
@[simp] theorem parkOn_nextMsg (s : State) (why ch : Nat) : (s.parkOn why ch).nextMsg = s.nextMsg := rfl
@[simp] theorem parkOn_nextTok (s : State) (why ch : Nat) : (s.parkOn why ch).nextTok = s.nextTok := rfl
@[simp] theorem parkOn_cur (s : State) (why ch : Nat) : (s.parkOn why ch).cur = s.cur := rfl
@[simp] theorem parkOn_midUnit (s : State) (why ch : Nat) : (s.parkOn why ch).midUnit = s.midUnit := rfl
@[simp] theorem parkOn_agenda (s : State) (why ch : Nat) : (s.parkOn why ch).agenda = s.agenda := rfl
@[simp] theorem parkOn_upsets (s : State) (why ch : Nat) : (s.parkOn why ch).upsets = s.upsets := rfl
@[simp] theorem parkOn_free (s : State) (why ch : Nat) : (s.parkOn why ch).free = s.free := rfl

/-! ### parkFor -/

@[simp] theorem parkFor_now (s : State) (why tok : Nat) (k : Kont) : (s.parkFor why tok k).now = s.now := rfl
@[simp] theorem parkFor_mem (s : State) (why tok : Nat) (k : Kont) : (s.parkFor why tok k).mem = s.mem := rfl
@[simp] theorem parkFor_fe (s : State) (why tok : Nat) (k : Kont) : (s.parkFor why tok k).fe = s.fe := rfl
@[simp] theorem parkFor_poison (s : State) (why tok : Nat) (k : Kont) : (s.parkFor why tok k).poison = s.poison := rfl
@[simp] theorem parkFor_spindles (s : State) (why tok : Nat) (k : Kont) : (s.parkFor why tok k).spindles = s.spindles := rfl
@[simp] theorem parkFor_clusters (s : State) (why tok : Nat) (k : Kont) : (s.parkFor why tok k).clusters = s.clusters := rfl
@[simp] theorem parkFor_engines (s : State) (why tok : Nat) (k : Kont) : (s.parkFor why tok k).engines = s.engines := rfl
@[simp] theorem parkFor_links (s : State) (why tok : Nat) (k : Kont) : (s.parkFor why tok k).links = s.links := rfl
@[simp] theorem parkFor_peers (s : State) (why tok : Nat) (k : Kont) : (s.parkFor why tok k).peers = s.peers := rfl
@[simp] theorem parkFor_jobs (s : State) (why tok : Nat) (k : Kont) : (s.parkFor why tok k).jobs = s.jobs := rfl
@[simp] theorem parkFor_disp (s : State) (why tok : Nat) (k : Kont) : (s.parkFor why tok k).disp = s.disp := rfl
@[simp] theorem parkFor_unrav (s : State) (why tok : Nat) (k : Kont) : (s.parkFor why tok k).unrav = s.unrav := rfl
@[simp] theorem parkFor_trebex (s : State) (why tok : Nat) (k : Kont) : (s.parkFor why tok k).trebex = s.trebex := rfl
@[simp] theorem parkFor_msgs (s : State) (why tok : Nat) (k : Kont) : (s.parkFor why tok k).msgs = s.msgs := rfl
@[simp] theorem parkFor_nextMsg (s : State) (why tok : Nat) (k : Kont) : (s.parkFor why tok k).nextMsg = s.nextMsg := rfl
@[simp] theorem parkFor_nextTok (s : State) (why tok : Nat) (k : Kont) : (s.parkFor why tok k).nextTok = s.nextTok := rfl
@[simp] theorem parkFor_cur (s : State) (why tok : Nat) (k : Kont) : (s.parkFor why tok k).cur = s.cur := rfl
@[simp] theorem parkFor_midUnit (s : State) (why tok : Nat) (k : Kont) : (s.parkFor why tok k).midUnit = s.midUnit := rfl
@[simp] theorem parkFor_agenda (s : State) (why tok : Nat) (k : Kont) : (s.parkFor why tok k).agenda = s.agenda := rfl
@[simp] theorem parkFor_upsets (s : State) (why tok : Nat) (k : Kont) : (s.parkFor why tok k).upsets = s.upsets := rfl
@[simp] theorem parkFor_free (s : State) (why tok : Nat) (k : Kont) : (s.parkFor why tok k).free = s.free := rfl

/-! ### parkRel -/

@[simp] theorem parkRel_now (s : State) (why : Nat) (a : Bool) (q : RelOp → Bool) : (s.parkRel why a q).now = s.now := rfl
@[simp] theorem parkRel_mem (s : State) (why : Nat) (a : Bool) (q : RelOp → Bool) : (s.parkRel why a q).mem = s.mem := rfl
@[simp] theorem parkRel_fe (s : State) (why : Nat) (a : Bool) (q : RelOp → Bool) : (s.parkRel why a q).fe = s.fe := rfl
@[simp] theorem parkRel_poison (s : State) (why : Nat) (a : Bool) (q : RelOp → Bool) : (s.parkRel why a q).poison = s.poison := rfl
@[simp] theorem parkRel_spindles (s : State) (why : Nat) (a : Bool) (q : RelOp → Bool) : (s.parkRel why a q).spindles = s.spindles := rfl
@[simp] theorem parkRel_clusters (s : State) (why : Nat) (a : Bool) (q : RelOp → Bool) : (s.parkRel why a q).clusters = s.clusters := rfl
@[simp] theorem parkRel_engines (s : State) (why : Nat) (a : Bool) (q : RelOp → Bool) : (s.parkRel why a q).engines = s.engines := rfl
@[simp] theorem parkRel_links (s : State) (why : Nat) (a : Bool) (q : RelOp → Bool) : (s.parkRel why a q).links = s.links := rfl
@[simp] theorem parkRel_peers (s : State) (why : Nat) (a : Bool) (q : RelOp → Bool) : (s.parkRel why a q).peers = s.peers := rfl
@[simp] theorem parkRel_jobs (s : State) (why : Nat) (a : Bool) (q : RelOp → Bool) : (s.parkRel why a q).jobs = s.jobs := rfl
@[simp] theorem parkRel_disp (s : State) (why : Nat) (a : Bool) (q : RelOp → Bool) : (s.parkRel why a q).disp = s.disp := rfl
@[simp] theorem parkRel_unrav (s : State) (why : Nat) (a : Bool) (q : RelOp → Bool) : (s.parkRel why a q).unrav = s.unrav := rfl
@[simp] theorem parkRel_trebex (s : State) (why : Nat) (a : Bool) (q : RelOp → Bool) : (s.parkRel why a q).trebex = s.trebex := rfl
@[simp] theorem parkRel_msgs (s : State) (why : Nat) (a : Bool) (q : RelOp → Bool) : (s.parkRel why a q).msgs = s.msgs := rfl
@[simp] theorem parkRel_nextMsg (s : State) (why : Nat) (a : Bool) (q : RelOp → Bool) : (s.parkRel why a q).nextMsg = s.nextMsg := rfl
@[simp] theorem parkRel_nextTok (s : State) (why : Nat) (a : Bool) (q : RelOp → Bool) : (s.parkRel why a q).nextTok = s.nextTok := rfl
@[simp] theorem parkRel_cur (s : State) (why : Nat) (a : Bool) (q : RelOp → Bool) : (s.parkRel why a q).cur = s.cur := rfl
@[simp] theorem parkRel_midUnit (s : State) (why : Nat) (a : Bool) (q : RelOp → Bool) : (s.parkRel why a q).midUnit = s.midUnit := rfl
@[simp] theorem parkRel_agenda (s : State) (why : Nat) (a : Bool) (q : RelOp → Bool) : (s.parkRel why a q).agenda = s.agenda := rfl
@[simp] theorem parkRel_upsets (s : State) (why : Nat) (a : Bool) (q : RelOp → Bool) : (s.parkRel why a q).upsets = s.upsets := rfl
@[simp] theorem parkRel_free (s : State) (why : Nat) (a : Bool) (q : RelOp → Bool) : (s.parkRel why a q).free = s.free := rfl

/-! ### parkAll -/

@[simp] theorem parkAll_now (s : State) : (s.parkAll).now = s.now := rfl
@[simp] theorem parkAll_mem (s : State) : (s.parkAll).mem = s.mem := rfl
@[simp] theorem parkAll_fe (s : State) : (s.parkAll).fe = s.fe := rfl
@[simp] theorem parkAll_poison (s : State) : (s.parkAll).poison = s.poison := rfl
@[simp] theorem parkAll_spindles (s : State) : (s.parkAll).spindles = s.spindles := rfl
@[simp] theorem parkAll_clusters (s : State) : (s.parkAll).clusters = s.clusters := rfl
@[simp] theorem parkAll_engines (s : State) : (s.parkAll).engines = s.engines := rfl
@[simp] theorem parkAll_links (s : State) : (s.parkAll).links = s.links := rfl
@[simp] theorem parkAll_peers (s : State) : (s.parkAll).peers = s.peers := rfl
@[simp] theorem parkAll_jobs (s : State) : (s.parkAll).jobs = s.jobs := rfl
@[simp] theorem parkAll_disp (s : State) : (s.parkAll).disp = s.disp := rfl
@[simp] theorem parkAll_unrav (s : State) : (s.parkAll).unrav = s.unrav := rfl
@[simp] theorem parkAll_trebex (s : State) : (s.parkAll).trebex = s.trebex := rfl
@[simp] theorem parkAll_msgs (s : State) : (s.parkAll).msgs = s.msgs := rfl
@[simp] theorem parkAll_nextMsg (s : State) : (s.parkAll).nextMsg = s.nextMsg := rfl
@[simp] theorem parkAll_nextTok (s : State) : (s.parkAll).nextTok = s.nextTok := rfl
@[simp] theorem parkAll_cur (s : State) : (s.parkAll).cur = s.cur := rfl
@[simp] theorem parkAll_midUnit (s : State) : (s.parkAll).midUnit = s.midUnit := rfl
@[simp] theorem parkAll_agenda (s : State) : (s.parkAll).agenda = s.agenda := rfl
@[simp] theorem parkAll_upsets (s : State) : (s.parkAll).upsets = s.upsets := rfl
@[simp] theorem parkAll_free (s : State) : (s.parkAll).free = s.free := rfl

/-! ### wakeAgain -/

@[simp] theorem wakeAgain_now (s : State) (k : Nat) : (s.wakeAgain k).now = s.now := rfl
@[simp] theorem wakeAgain_mem (s : State) (k : Nat) : (s.wakeAgain k).mem = s.mem := rfl
@[simp] theorem wakeAgain_fe (s : State) (k : Nat) : (s.wakeAgain k).fe = s.fe := rfl
@[simp] theorem wakeAgain_poison (s : State) (k : Nat) : (s.wakeAgain k).poison = s.poison := rfl
@[simp] theorem wakeAgain_spindles (s : State) (k : Nat) : (s.wakeAgain k).spindles = s.spindles := rfl
@[simp] theorem wakeAgain_clusters (s : State) (k : Nat) : (s.wakeAgain k).clusters = s.clusters := rfl
@[simp] theorem wakeAgain_engines (s : State) (k : Nat) : (s.wakeAgain k).engines = s.engines := rfl
@[simp] theorem wakeAgain_links (s : State) (k : Nat) : (s.wakeAgain k).links = s.links := rfl
@[simp] theorem wakeAgain_peers (s : State) (k : Nat) : (s.wakeAgain k).peers = s.peers := rfl
@[simp] theorem wakeAgain_jobs (s : State) (k : Nat) : (s.wakeAgain k).jobs = s.jobs := rfl
@[simp] theorem wakeAgain_disp (s : State) (k : Nat) : (s.wakeAgain k).disp = s.disp := rfl
@[simp] theorem wakeAgain_unrav (s : State) (k : Nat) : (s.wakeAgain k).unrav = s.unrav := rfl
@[simp] theorem wakeAgain_trebex (s : State) (k : Nat) : (s.wakeAgain k).trebex = s.trebex := rfl
@[simp] theorem wakeAgain_msgs (s : State) (k : Nat) : (s.wakeAgain k).msgs = s.msgs := rfl
@[simp] theorem wakeAgain_nextMsg (s : State) (k : Nat) : (s.wakeAgain k).nextMsg = s.nextMsg := rfl
@[simp] theorem wakeAgain_nextTok (s : State) (k : Nat) : (s.wakeAgain k).nextTok = s.nextTok := rfl
@[simp] theorem wakeAgain_cur (s : State) (k : Nat) : (s.wakeAgain k).cur = s.cur := rfl
@[simp] theorem wakeAgain_midUnit (s : State) (k : Nat) : (s.wakeAgain k).midUnit = s.midUnit := rfl
@[simp] theorem wakeAgain_agenda (s : State) (k : Nat) : (s.wakeAgain k).agenda = s.agenda := rfl
@[simp] theorem wakeAgain_upsets (s : State) (k : Nat) : (s.wakeAgain k).upsets = s.upsets := rfl
@[simp] theorem wakeAgain_free (s : State) (k : Nat) : (s.wakeAgain k).free = s.free := rfl

/-! ### modSp -/

@[simp] theorem modSp_now (s : State) (n : Nat) (f : Spindle → Spindle) : (s.modSp n f).now = s.now := rfl
@[simp] theorem modSp_mem (s : State) (n : Nat) (f : Spindle → Spindle) : (s.modSp n f).mem = s.mem := rfl
@[simp] theorem modSp_fe (s : State) (n : Nat) (f : Spindle → Spindle) : (s.modSp n f).fe = s.fe := rfl
@[simp] theorem modSp_poison (s : State) (n : Nat) (f : Spindle → Spindle) : (s.modSp n f).poison = s.poison := rfl
@[simp] theorem modSp_ctxs (s : State) (n : Nat) (f : Spindle → Spindle) : (s.modSp n f).ctxs = s.ctxs := rfl
@[simp] theorem modSp_clusters (s : State) (n : Nat) (f : Spindle → Spindle) : (s.modSp n f).clusters = s.clusters := rfl
@[simp] theorem modSp_engines (s : State) (n : Nat) (f : Spindle → Spindle) : (s.modSp n f).engines = s.engines := rfl
@[simp] theorem modSp_links (s : State) (n : Nat) (f : Spindle → Spindle) : (s.modSp n f).links = s.links := rfl
@[simp] theorem modSp_peers (s : State) (n : Nat) (f : Spindle → Spindle) : (s.modSp n f).peers = s.peers := rfl
@[simp] theorem modSp_jobs (s : State) (n : Nat) (f : Spindle → Spindle) : (s.modSp n f).jobs = s.jobs := rfl
@[simp] theorem modSp_disp (s : State) (n : Nat) (f : Spindle → Spindle) : (s.modSp n f).disp = s.disp := rfl
@[simp] theorem modSp_unrav (s : State) (n : Nat) (f : Spindle → Spindle) : (s.modSp n f).unrav = s.unrav := rfl
@[simp] theorem modSp_trebex (s : State) (n : Nat) (f : Spindle → Spindle) : (s.modSp n f).trebex = s.trebex := rfl
@[simp] theorem modSp_msgs (s : State) (n : Nat) (f : Spindle → Spindle) : (s.modSp n f).msgs = s.msgs := rfl
@[simp] theorem modSp_nextMsg (s : State) (n : Nat) (f : Spindle → Spindle) : (s.modSp n f).nextMsg = s.nextMsg := rfl
@[simp] theorem modSp_nextTok (s : State) (n : Nat) (f : Spindle → Spindle) : (s.modSp n f).nextTok = s.nextTok := rfl
@[simp] theorem modSp_cur (s : State) (n : Nat) (f : Spindle → Spindle) : (s.modSp n f).cur = s.cur := rfl
@[simp] theorem modSp_midUnit (s : State) (n : Nat) (f : Spindle → Spindle) : (s.modSp n f).midUnit = s.midUnit := rfl
@[simp] theorem modSp_agenda (s : State) (n : Nat) (f : Spindle → Spindle) : (s.modSp n f).agenda = s.agenda := rfl
@[simp] theorem modSp_upsets (s : State) (n : Nat) (f : Spindle → Spindle) : (s.modSp n f).upsets = s.upsets := rfl
@[simp] theorem modSp_free (s : State) (n : Nat) (f : Spindle → Spindle) : (s.modSp n f).free = s.free := rfl

/-! ### modCl -/

@[simp] theorem modCl_now (s : State) (n : Nat) (f : Cluster → Cluster) : (s.modCl n f).now = s.now := rfl
@[simp] theorem modCl_mem (s : State) (n : Nat) (f : Cluster → Cluster) : (s.modCl n f).mem = s.mem := rfl
@[simp] theorem modCl_fe (s : State) (n : Nat) (f : Cluster → Cluster) : (s.modCl n f).fe = s.fe := rfl
@[simp] theorem modCl_poison (s : State) (n : Nat) (f : Cluster → Cluster) : (s.modCl n f).poison = s.poison := rfl
@[simp] theorem modCl_ctxs (s : State) (n : Nat) (f : Cluster → Cluster) : (s.modCl n f).ctxs = s.ctxs := rfl
@[simp] theorem modCl_spindles (s : State) (n : Nat) (f : Cluster → Cluster) : (s.modCl n f).spindles = s.spindles := rfl
@[simp] theorem modCl_engines (s : State) (n : Nat) (f : Cluster → Cluster) : (s.modCl n f).engines = s.engines := rfl
@[simp] theorem modCl_links (s : State) (n : Nat) (f : Cluster → Cluster) : (s.modCl n f).links = s.links := rfl
@[simp] theorem modCl_peers (s : State) (n : Nat) (f : Cluster → Cluster) : (s.modCl n f).peers = s.peers := rfl
@[simp] theorem modCl_jobs (s : State) (n : Nat) (f : Cluster → Cluster) : (s.modCl n f).jobs = s.jobs := rfl
@[simp] theorem modCl_disp (s : State) (n : Nat) (f : Cluster → Cluster) : (s.modCl n f).disp = s.disp := rfl
@[simp] theorem modCl_unrav (s : State) (n : Nat) (f : Cluster → Cluster) : (s.modCl n f).unrav = s.unrav := rfl
@[simp] theorem modCl_trebex (s : State) (n : Nat) (f : Cluster → Cluster) : (s.modCl n f).trebex = s.trebex := rfl
@[simp] theorem modCl_msgs (s : State) (n : Nat) (f : Cluster → Cluster) : (s.modCl n f).msgs = s.msgs := rfl
@[simp] theorem modCl_nextMsg (s : State) (n : Nat) (f : Cluster → Cluster) : (s.modCl n f).nextMsg = s.nextMsg := rfl
@[simp] theorem modCl_nextTok (s : State) (n : Nat) (f : Cluster → Cluster) : (s.modCl n f).nextTok = s.nextTok := rfl
@[simp] theorem modCl_cur (s : State) (n : Nat) (f : Cluster → Cluster) : (s.modCl n f).cur = s.cur := rfl
@[simp] theorem modCl_midUnit (s : State) (n : Nat) (f : Cluster → Cluster) : (s.modCl n f).midUnit = s.midUnit := rfl
@[simp] theorem modCl_agenda (s : State) (n : Nat) (f : Cluster → Cluster) : (s.modCl n f).agenda = s.agenda := rfl
@[simp] theorem modCl_upsets (s : State) (n : Nat) (f : Cluster → Cluster) : (s.modCl n f).upsets = s.upsets := rfl
@[simp] theorem modCl_free (s : State) (n : Nat) (f : Cluster → Cluster) : (s.modCl n f).free = s.free := rfl

/-! ### modEng -/

@[simp] theorem modEng_now (s : State) (n : Nat) (f : Engine → Engine) : (s.modEng n f).now = s.now := rfl
@[simp] theorem modEng_mem (s : State) (n : Nat) (f : Engine → Engine) : (s.modEng n f).mem = s.mem := rfl
@[simp] theorem modEng_fe (s : State) (n : Nat) (f : Engine → Engine) : (s.modEng n f).fe = s.fe := rfl
@[simp] theorem modEng_poison (s : State) (n : Nat) (f : Engine → Engine) : (s.modEng n f).poison = s.poison := rfl
@[simp] theorem modEng_ctxs (s : State) (n : Nat) (f : Engine → Engine) : (s.modEng n f).ctxs = s.ctxs := rfl
@[simp] theorem modEng_spindles (s : State) (n : Nat) (f : Engine → Engine) : (s.modEng n f).spindles = s.spindles := rfl
@[simp] theorem modEng_clusters (s : State) (n : Nat) (f : Engine → Engine) : (s.modEng n f).clusters = s.clusters := rfl
@[simp] theorem modEng_links (s : State) (n : Nat) (f : Engine → Engine) : (s.modEng n f).links = s.links := rfl
@[simp] theorem modEng_peers (s : State) (n : Nat) (f : Engine → Engine) : (s.modEng n f).peers = s.peers := rfl
@[simp] theorem modEng_jobs (s : State) (n : Nat) (f : Engine → Engine) : (s.modEng n f).jobs = s.jobs := rfl
@[simp] theorem modEng_disp (s : State) (n : Nat) (f : Engine → Engine) : (s.modEng n f).disp = s.disp := rfl
@[simp] theorem modEng_unrav (s : State) (n : Nat) (f : Engine → Engine) : (s.modEng n f).unrav = s.unrav := rfl
@[simp] theorem modEng_trebex (s : State) (n : Nat) (f : Engine → Engine) : (s.modEng n f).trebex = s.trebex := rfl
@[simp] theorem modEng_msgs (s : State) (n : Nat) (f : Engine → Engine) : (s.modEng n f).msgs = s.msgs := rfl
@[simp] theorem modEng_nextMsg (s : State) (n : Nat) (f : Engine → Engine) : (s.modEng n f).nextMsg = s.nextMsg := rfl
@[simp] theorem modEng_nextTok (s : State) (n : Nat) (f : Engine → Engine) : (s.modEng n f).nextTok = s.nextTok := rfl
@[simp] theorem modEng_cur (s : State) (n : Nat) (f : Engine → Engine) : (s.modEng n f).cur = s.cur := rfl
@[simp] theorem modEng_midUnit (s : State) (n : Nat) (f : Engine → Engine) : (s.modEng n f).midUnit = s.midUnit := rfl
@[simp] theorem modEng_agenda (s : State) (n : Nat) (f : Engine → Engine) : (s.modEng n f).agenda = s.agenda := rfl
@[simp] theorem modEng_upsets (s : State) (n : Nat) (f : Engine → Engine) : (s.modEng n f).upsets = s.upsets := rfl
@[simp] theorem modEng_free (s : State) (n : Nat) (f : Engine → Engine) : (s.modEng n f).free = s.free := rfl

/-! ### modLink -/

@[simp] theorem modLink_now (s : State) (n : Nat) (f : HalfLink → HalfLink) : (s.modLink n f).now = s.now := rfl
@[simp] theorem modLink_mem (s : State) (n : Nat) (f : HalfLink → HalfLink) : (s.modLink n f).mem = s.mem := rfl
@[simp] theorem modLink_fe (s : State) (n : Nat) (f : HalfLink → HalfLink) : (s.modLink n f).fe = s.fe := rfl
@[simp] theorem modLink_poison (s : State) (n : Nat) (f : HalfLink → HalfLink) : (s.modLink n f).poison = s.poison := rfl
@[simp] theorem modLink_ctxs (s : State) (n : Nat) (f : HalfLink → HalfLink) : (s.modLink n f).ctxs = s.ctxs := rfl
@[simp] theorem modLink_spindles (s : State) (n : Nat) (f : HalfLink → HalfLink) : (s.modLink n f).spindles = s.spindles := rfl
@[simp] theorem modLink_clusters (s : State) (n : Nat) (f : HalfLink → HalfLink) : (s.modLink n f).clusters = s.clusters := rfl
@[simp] theorem modLink_engines (s : State) (n : Nat) (f : HalfLink → HalfLink) : (s.modLink n f).engines = s.engines := rfl
@[simp] theorem modLink_peers (s : State) (n : Nat) (f : HalfLink → HalfLink) : (s.modLink n f).peers = s.peers := rfl
@[simp] theorem modLink_jobs (s : State) (n : Nat) (f : HalfLink → HalfLink) : (s.modLink n f).jobs = s.jobs := rfl
@[simp] theorem modLink_disp (s : State) (n : Nat) (f : HalfLink → HalfLink) : (s.modLink n f).disp = s.disp := rfl
@[simp] theorem modLink_unrav (s : State) (n : Nat) (f : HalfLink → HalfLink) : (s.modLink n f).unrav = s.unrav := rfl
@[simp] theorem modLink_trebex (s : State) (n : Nat) (f : HalfLink → HalfLink) : (s.modLink n f).trebex = s.trebex := rfl
@[simp] theorem modLink_msgs (s : State) (n : Nat) (f : HalfLink → HalfLink) : (s.modLink n f).msgs = s.msgs := rfl
@[simp] theorem modLink_nextMsg (s : State) (n : Nat) (f : HalfLink → HalfLink) : (s.modLink n f).nextMsg = s.nextMsg := rfl
@[simp] theorem modLink_nextTok (s : State) (n : Nat) (f : HalfLink → HalfLink) : (s.modLink n f).nextTok = s.nextTok := rfl
@[simp] theorem modLink_cur (s : State) (n : Nat) (f : HalfLink → HalfLink) : (s.modLink n f).cur = s.cur := rfl
@[simp] theorem modLink_midUnit (s : State) (n : Nat) (f : HalfLink → HalfLink) : (s.modLink n f).midUnit = s.midUnit := rfl
@[simp] theorem modLink_agenda (s : State) (n : Nat) (f : HalfLink → HalfLink) : (s.modLink n f).agenda = s.agenda := rfl
@[simp] theorem modLink_upsets (s : State) (n : Nat) (f : HalfLink → HalfLink) : (s.modLink n f).upsets = s.upsets := rfl
@[simp] theorem modLink_free (s : State) (n : Nat) (f : HalfLink → HalfLink) : (s.modLink n f).free = s.free := rfl

/-! ### modQueue -/

@[simp] theorem modQueue_now (s : State) (n : Nat) (f : Queue → Queue) : (s.modQueue n f).now = s.now := rfl
@[simp] theorem modQueue_mem (s : State) (n : Nat) (f : Queue → Queue) : (s.modQueue n f).mem = s.mem := rfl
@[simp] theorem modQueue_fe (s : State) (n : Nat) (f : Queue → Queue) : (s.modQueue n f).fe = s.fe := rfl
@[simp] theorem modQueue_poison (s : State) (n : Nat) (f : Queue → Queue) : (s.modQueue n f).poison = s.poison := rfl
@[simp] theorem modQueue_ctxs (s : State) (n : Nat) (f : Queue → Queue) : (s.modQueue n f).ctxs = s.ctxs := rfl
@[simp] theorem modQueue_spindles (s : State) (n : Nat) (f : Queue → Queue) : (s.modQueue n f).spindles = s.spindles := rfl
@[simp] theorem modQueue_clusters (s : State) (n : Nat) (f : Queue → Queue) : (s.modQueue n f).clusters = s.clusters := rfl
@[simp] theorem modQueue_engines (s : State) (n : Nat) (f : Queue → Queue) : (s.modQueue n f).engines = s.engines := rfl
@[simp] theorem modQueue_links (s : State) (n : Nat) (f : Queue → Queue) : (s.modQueue n f).links = s.links := rfl
@[simp] theorem modQueue_peers (s : State) (n : Nat) (f : Queue → Queue) : (s.modQueue n f).peers = s.peers := rfl
@[simp] theorem modQueue_jobs (s : State) (n : Nat) (f : Queue → Queue) : (s.modQueue n f).jobs = s.jobs := rfl
@[simp] theorem modQueue_unrav (s : State) (n : Nat) (f : Queue → Queue) : (s.modQueue n f).unrav = s.unrav := rfl
@[simp] theorem modQueue_trebex (s : State) (n : Nat) (f : Queue → Queue) : (s.modQueue n f).trebex = s.trebex := rfl
@[simp] theorem modQueue_msgs (s : State) (n : Nat) (f : Queue → Queue) : (s.modQueue n f).msgs = s.msgs := rfl
@[simp] theorem modQueue_nextMsg (s : State) (n : Nat) (f : Queue → Queue) : (s.modQueue n f).nextMsg = s.nextMsg := rfl
@[simp] theorem modQueue_nextTok (s : State) (n : Nat) (f : Queue → Queue) : (s.modQueue n f).nextTok = s.nextTok := rfl
@[simp] theorem modQueue_cur (s : State) (n : Nat) (f : Queue → Queue) : (s.modQueue n f).cur = s.cur := rfl
@[simp] theorem modQueue_midUnit (s : State) (n : Nat) (f : Queue → Queue) : (s.modQueue n f).midUnit = s.midUnit := rfl
@[simp] theorem modQueue_agenda (s : State) (n : Nat) (f : Queue → Queue) : (s.modQueue n f).agenda = s.agenda := rfl
@[simp] theorem modQueue_upsets (s : State) (n : Nat) (f : Queue → Queue) : (s.modQueue n f).upsets = s.upsets := rfl
@[simp] theorem modQueue_free (s : State) (n : Nat) (f : Queue → Queue) : (s.modQueue n f).free = s.free := rfl

/-! ### setFE -/

@[simp] theorem setFE_now (s : State) (fa : Nat) (b : Bool) : (s.setFE fa b).now = s.now := rfl
@[simp] theorem setFE_mem (s : State) (fa : Nat) (b : Bool) : (s.setFE fa b).mem = s.mem := rfl
@[simp] theorem setFE_poison (s : State) (fa : Nat) (b : Bool) : (s.setFE fa b).poison = s.poison := rfl
@[simp] theorem setFE_ctxs (s : State) (fa : Nat) (b : Bool) : (s.setFE fa b).ctxs = s.ctxs := rfl
@[simp] theorem setFE_spindles (s : State) (fa : Nat) (b : Bool) : (s.setFE fa b).spindles = s.spindles := rfl
@[simp] theorem setFE_clusters (s : State) (fa : Nat) (b : Bool) : (s.setFE fa b).clusters = s.clusters := rfl
@[simp] theorem setFE_engines (s : State) (fa : Nat) (b : Bool) : (s.setFE fa b).engines = s.engines := rfl
@[simp] theorem setFE_links (s : State) (fa : Nat) (b : Bool) : (s.setFE fa b).links = s.links := rfl
@[simp] theorem setFE_peers (s : State) (fa : Nat) (b : Bool) : (s.setFE fa b).peers = s.peers := rfl
@[simp] theorem setFE_jobs (s : State) (fa : Nat) (b : Bool) : (s.setFE fa b).jobs = s.jobs := rfl
@[simp] theorem setFE_disp (s : State) (fa : Nat) (b : Bool) : (s.setFE fa b).disp = s.disp := rfl
@[simp] theorem setFE_unrav (s : State) (fa : Nat) (b : Bool) : (s.setFE fa b).unrav = s.unrav := rfl
@[simp] theorem setFE_trebex (s : State) (fa : Nat) (b : Bool) : (s.setFE fa b).trebex = s.trebex := rfl
@[simp] theorem setFE_msgs (s : State) (fa : Nat) (b : Bool) : (s.setFE fa b).msgs = s.msgs := rfl
@[simp] theorem setFE_nextMsg (s : State) (fa : Nat) (b : Bool) : (s.setFE fa b).nextMsg = s.nextMsg := rfl
@[simp] theorem setFE_nextTok (s : State) (fa : Nat) (b : Bool) : (s.setFE fa b).nextTok = s.nextTok := rfl
@[simp] theorem setFE_cur (s : State) (fa : Nat) (b : Bool) : (s.setFE fa b).cur = s.cur := rfl
@[simp] theorem setFE_midUnit (s : State) (fa : Nat) (b : Bool) : (s.setFE fa b).midUnit = s.midUnit := rfl
@[simp] theorem setFE_agenda (s : State) (fa : Nat) (b : Bool) : (s.setFE fa b).agenda = s.agenda := rfl
@[simp] theorem setFE_upsets (s : State) (fa : Nat) (b : Bool) : (s.setFE fa b).upsets = s.upsets := rfl
@[simp] theorem setFE_free (s : State) (fa : Nat) (b : Bool) : (s.setFE fa b).free = s.free := rfl

/-! ### unpoison -/

@[simp] theorem unpoison_now (s : State) (w : Nat) : (s.unpoison w).now = s.now := rfl
@[simp] theorem unpoison_mem (s : State) (w : Nat) : (s.unpoison w).mem = s.mem := rfl
@[simp] theorem unpoison_fe (s : State) (w : Nat) : (s.unpoison w).fe = s.fe := rfl
@[simp] theorem unpoison_ctxs (s : State) (w : Nat) : (s.unpoison w).ctxs = s.ctxs := rfl
@[simp] theorem unpoison_spindles (s : State) (w : Nat) : (s.unpoison w).spindles = s.spindles := rfl
@[simp] theorem unpoison_clusters (s : State) (w : Nat) : (s.unpoison w).clusters = s.clusters := rfl
@[simp] theorem unpoison_engines (s : State) (w : Nat) : (s.unpoison w).engines = s.engines := rfl
@[simp] theorem unpoison_links (s : State) (w : Nat) : (s.unpoison w).links = s.links := rfl
@[simp] theorem unpoison_peers (s : State) (w : Nat) : (s.unpoison w).peers = s.peers := rfl
@[simp] theorem unpoison_jobs (s : State) (w : Nat) : (s.unpoison w).jobs = s.jobs := rfl
@[simp] theorem unpoison_disp (s : State) (w : Nat) : (s.unpoison w).disp = s.disp := rfl
@[simp] theorem unpoison_unrav (s : State) (w : Nat) : (s.unpoison w).unrav = s.unrav := rfl
@[simp] theorem unpoison_trebex (s : State) (w : Nat) : (s.unpoison w).trebex = s.trebex := rfl
@[simp] theorem unpoison_msgs (s : State) (w : Nat) : (s.unpoison w).msgs = s.msgs := rfl
@[simp] theorem unpoison_nextMsg (s : State) (w : Nat) : (s.unpoison w).nextMsg = s.nextMsg := rfl
@[simp] theorem unpoison_nextTok (s : State) (w : Nat) : (s.unpoison w).nextTok = s.nextTok := rfl
@[simp] theorem unpoison_cur (s : State) (w : Nat) : (s.unpoison w).cur = s.cur := rfl
@[simp] theorem unpoison_midUnit (s : State) (w : Nat) : (s.unpoison w).midUnit = s.midUnit := rfl
@[simp] theorem unpoison_agenda (s : State) (w : Nat) : (s.unpoison w).agenda = s.agenda := rfl
@[simp] theorem unpoison_upsets (s : State) (w : Nat) : (s.unpoison w).upsets = s.upsets := rfl
@[simp] theorem unpoison_free (s : State) (w : Nat) : (s.unpoison w).free = s.free := rfl

/-! ### setPoison -/

@[simp] theorem setPoison_now (s : State) (w : Nat) : (s.setPoison w).now = s.now := rfl
@[simp] theorem setPoison_mem (s : State) (w : Nat) : (s.setPoison w).mem = s.mem := rfl
@[simp] theorem setPoison_fe (s : State) (w : Nat) : (s.setPoison w).fe = s.fe := rfl
@[simp] theorem setPoison_ctxs (s : State) (w : Nat) : (s.setPoison w).ctxs = s.ctxs := rfl
@[simp] theorem setPoison_spindles (s : State) (w : Nat) : (s.setPoison w).spindles = s.spindles := rfl
@[simp] theorem setPoison_clusters (s : State) (w : Nat) : (s.setPoison w).clusters = s.clusters := rfl
@[simp] theorem setPoison_engines (s : State) (w : Nat) : (s.setPoison w).engines = s.engines := rfl
@[simp] theorem setPoison_links (s : State) (w : Nat) : (s.setPoison w).links = s.links := rfl
@[simp] theorem setPoison_peers (s : State) (w : Nat) : (s.setPoison w).peers = s.peers := rfl
@[simp] theorem setPoison_jobs (s : State) (w : Nat) : (s.setPoison w).jobs = s.jobs := rfl
@[simp] theorem setPoison_disp (s : State) (w : Nat) : (s.setPoison w).disp = s.disp := rfl
@[simp] theorem setPoison_unrav (s : State) (w : Nat) : (s.setPoison w).unrav = s.unrav := rfl
@[simp] theorem setPoison_trebex (s : State) (w : Nat) : (s.setPoison w).trebex = s.trebex := rfl
@[simp] theorem setPoison_msgs (s : State) (w : Nat) : (s.setPoison w).msgs = s.msgs := rfl
@[simp] theorem setPoison_nextMsg (s : State) (w : Nat) : (s.setPoison w).nextMsg = s.nextMsg := rfl
@[simp] theorem setPoison_nextTok (s : State) (w : Nat) : (s.setPoison w).nextTok = s.nextTok := rfl
@[simp] theorem setPoison_cur (s : State) (w : Nat) : (s.setPoison w).cur = s.cur := rfl
@[simp] theorem setPoison_midUnit (s : State) (w : Nat) : (s.setPoison w).midUnit = s.midUnit := rfl
@[simp] theorem setPoison_agenda (s : State) (w : Nat) : (s.setPoison w).agenda = s.agenda := rfl
@[simp] theorem setPoison_upsets (s : State) (w : Nat) : (s.setPoison w).upsets = s.upsets := rfl
@[simp] theorem setPoison_free (s : State) (w : Nat) : (s.setPoison w).free = s.free := rfl

/-! ### scrub -/

@[simp] theorem scrub_now (s : State) (lo hi : Nat) : (s.scrub lo hi).now = s.now := rfl
@[simp] theorem scrub_ctxs (s : State) (lo hi : Nat) : (s.scrub lo hi).ctxs = s.ctxs := rfl
@[simp] theorem scrub_spindles (s : State) (lo hi : Nat) : (s.scrub lo hi).spindles = s.spindles := rfl
@[simp] theorem scrub_clusters (s : State) (lo hi : Nat) : (s.scrub lo hi).clusters = s.clusters := rfl
@[simp] theorem scrub_engines (s : State) (lo hi : Nat) : (s.scrub lo hi).engines = s.engines := rfl
@[simp] theorem scrub_links (s : State) (lo hi : Nat) : (s.scrub lo hi).links = s.links := rfl
@[simp] theorem scrub_peers (s : State) (lo hi : Nat) : (s.scrub lo hi).peers = s.peers := rfl
@[simp] theorem scrub_jobs (s : State) (lo hi : Nat) : (s.scrub lo hi).jobs = s.jobs := rfl
@[simp] theorem scrub_disp (s : State) (lo hi : Nat) : (s.scrub lo hi).disp = s.disp := rfl
@[simp] theorem scrub_unrav (s : State) (lo hi : Nat) : (s.scrub lo hi).unrav = s.unrav := rfl
@[simp] theorem scrub_trebex (s : State) (lo hi : Nat) : (s.scrub lo hi).trebex = s.trebex := rfl
@[simp] theorem scrub_msgs (s : State) (lo hi : Nat) : (s.scrub lo hi).msgs = s.msgs := rfl
@[simp] theorem scrub_nextMsg (s : State) (lo hi : Nat) : (s.scrub lo hi).nextMsg = s.nextMsg := rfl
@[simp] theorem scrub_nextTok (s : State) (lo hi : Nat) : (s.scrub lo hi).nextTok = s.nextTok := rfl
@[simp] theorem scrub_cur (s : State) (lo hi : Nat) : (s.scrub lo hi).cur = s.cur := rfl
@[simp] theorem scrub_midUnit (s : State) (lo hi : Nat) : (s.scrub lo hi).midUnit = s.midUnit := rfl
@[simp] theorem scrub_agenda (s : State) (lo hi : Nat) : (s.scrub lo hi).agenda = s.agenda := rfl
@[simp] theorem scrub_upsets (s : State) (lo hi : Nat) : (s.scrub lo hi).upsets = s.upsets := rfl
@[simp] theorem scrub_free (s : State) (lo hi : Nat) : (s.scrub lo hi).free = s.free := rfl

/-! ### dropMsg -/

@[simp] theorem dropMsg_now (s : State) (i : Nat) : (s.dropMsg i).now = s.now := rfl
@[simp] theorem dropMsg_mem (s : State) (i : Nat) : (s.dropMsg i).mem = s.mem := rfl
@[simp] theorem dropMsg_fe (s : State) (i : Nat) : (s.dropMsg i).fe = s.fe := rfl
@[simp] theorem dropMsg_poison (s : State) (i : Nat) : (s.dropMsg i).poison = s.poison := rfl
@[simp] theorem dropMsg_ctxs (s : State) (i : Nat) : (s.dropMsg i).ctxs = s.ctxs := rfl
@[simp] theorem dropMsg_spindles (s : State) (i : Nat) : (s.dropMsg i).spindles = s.spindles := rfl
@[simp] theorem dropMsg_clusters (s : State) (i : Nat) : (s.dropMsg i).clusters = s.clusters := rfl
@[simp] theorem dropMsg_engines (s : State) (i : Nat) : (s.dropMsg i).engines = s.engines := rfl
@[simp] theorem dropMsg_links (s : State) (i : Nat) : (s.dropMsg i).links = s.links := rfl
@[simp] theorem dropMsg_peers (s : State) (i : Nat) : (s.dropMsg i).peers = s.peers := rfl
@[simp] theorem dropMsg_jobs (s : State) (i : Nat) : (s.dropMsg i).jobs = s.jobs := rfl
@[simp] theorem dropMsg_disp (s : State) (i : Nat) : (s.dropMsg i).disp = s.disp := rfl
@[simp] theorem dropMsg_unrav (s : State) (i : Nat) : (s.dropMsg i).unrav = s.unrav := rfl
@[simp] theorem dropMsg_trebex (s : State) (i : Nat) : (s.dropMsg i).trebex = s.trebex := rfl
@[simp] theorem dropMsg_nextMsg (s : State) (i : Nat) : (s.dropMsg i).nextMsg = s.nextMsg := rfl
@[simp] theorem dropMsg_nextTok (s : State) (i : Nat) : (s.dropMsg i).nextTok = s.nextTok := rfl
@[simp] theorem dropMsg_cur (s : State) (i : Nat) : (s.dropMsg i).cur = s.cur := rfl
@[simp] theorem dropMsg_midUnit (s : State) (i : Nat) : (s.dropMsg i).midUnit = s.midUnit := rfl
@[simp] theorem dropMsg_agenda (s : State) (i : Nat) : (s.dropMsg i).agenda = s.agenda := rfl
@[simp] theorem dropMsg_upsets (s : State) (i : Nat) : (s.dropMsg i).upsets = s.upsets := rfl
@[simp] theorem dropMsg_free (s : State) (i : Nat) : (s.dropMsg i).free = s.free := rfl

/-! ### takeTok -/

@[simp] theorem takeTok_now (s : State) : (s.takeTok.2).now = s.now := rfl
@[simp] theorem takeTok_mem (s : State) : (s.takeTok.2).mem = s.mem := rfl
@[simp] theorem takeTok_fe (s : State) : (s.takeTok.2).fe = s.fe := rfl
@[simp] theorem takeTok_poison (s : State) : (s.takeTok.2).poison = s.poison := rfl
@[simp] theorem takeTok_ctxs (s : State) : (s.takeTok.2).ctxs = s.ctxs := rfl
@[simp] theorem takeTok_spindles (s : State) : (s.takeTok.2).spindles = s.spindles := rfl
@[simp] theorem takeTok_clusters (s : State) : (s.takeTok.2).clusters = s.clusters := rfl
@[simp] theorem takeTok_engines (s : State) : (s.takeTok.2).engines = s.engines := rfl
@[simp] theorem takeTok_links (s : State) : (s.takeTok.2).links = s.links := rfl
@[simp] theorem takeTok_peers (s : State) : (s.takeTok.2).peers = s.peers := rfl
@[simp] theorem takeTok_jobs (s : State) : (s.takeTok.2).jobs = s.jobs := rfl
@[simp] theorem takeTok_disp (s : State) : (s.takeTok.2).disp = s.disp := rfl
@[simp] theorem takeTok_unrav (s : State) : (s.takeTok.2).unrav = s.unrav := rfl
@[simp] theorem takeTok_trebex (s : State) : (s.takeTok.2).trebex = s.trebex := rfl
@[simp] theorem takeTok_msgs (s : State) : (s.takeTok.2).msgs = s.msgs := rfl
@[simp] theorem takeTok_nextMsg (s : State) : (s.takeTok.2).nextMsg = s.nextMsg := rfl
@[simp] theorem takeTok_cur (s : State) : (s.takeTok.2).cur = s.cur := rfl
@[simp] theorem takeTok_midUnit (s : State) : (s.takeTok.2).midUnit = s.midUnit := rfl
@[simp] theorem takeTok_agenda (s : State) : (s.takeTok.2).agenda = s.agenda := rfl
@[simp] theorem takeTok_upsets (s : State) : (s.takeTok.2).upsets = s.upsets := rfl
@[simp] theorem takeTok_free (s : State) : (s.takeTok.2).free = s.free := rfl

/-! ### modJob -/

@[simp] theorem modJob_now (s : State) (j : Nat) (f : Job → Job) : (s.modJob j f).now = s.now := by
  unfold State.modJob; split <;> rfl
@[simp] theorem modJob_mem (s : State) (j : Nat) (f : Job → Job) : (s.modJob j f).mem = s.mem := by
  unfold State.modJob; split <;> rfl
@[simp] theorem modJob_fe (s : State) (j : Nat) (f : Job → Job) : (s.modJob j f).fe = s.fe := by
  unfold State.modJob; split <;> rfl
@[simp] theorem modJob_poison (s : State) (j : Nat) (f : Job → Job) : (s.modJob j f).poison = s.poison := by
  unfold State.modJob; split <;> rfl
@[simp] theorem modJob_ctxs (s : State) (j : Nat) (f : Job → Job) : (s.modJob j f).ctxs = s.ctxs := by
  unfold State.modJob; split <;> rfl
@[simp] theorem modJob_spindles (s : State) (j : Nat) (f : Job → Job) : (s.modJob j f).spindles = s.spindles := by
  unfold State.modJob; split <;> rfl
@[simp] theorem modJob_clusters (s : State) (j : Nat) (f : Job → Job) : (s.modJob j f).clusters = s.clusters := by
  unfold State.modJob; split <;> rfl
@[simp] theorem modJob_engines (s : State) (j : Nat) (f : Job → Job) : (s.modJob j f).engines = s.engines := by
  unfold State.modJob; split <;> rfl
@[simp] theorem modJob_links (s : State) (j : Nat) (f : Job → Job) : (s.modJob j f).links = s.links := by
  unfold State.modJob; split <;> rfl
@[simp] theorem modJob_peers (s : State) (j : Nat) (f : Job → Job) : (s.modJob j f).peers = s.peers := by
  unfold State.modJob; split <;> rfl
@[simp] theorem modJob_disp (s : State) (j : Nat) (f : Job → Job) : (s.modJob j f).disp = s.disp := by
  unfold State.modJob; split <;> rfl
@[simp] theorem modJob_unrav (s : State) (j : Nat) (f : Job → Job) : (s.modJob j f).unrav = s.unrav := by
  unfold State.modJob; split <;> rfl
@[simp] theorem modJob_trebex (s : State) (j : Nat) (f : Job → Job) : (s.modJob j f).trebex = s.trebex := by
  unfold State.modJob; split <;> rfl
@[simp] theorem modJob_msgs (s : State) (j : Nat) (f : Job → Job) : (s.modJob j f).msgs = s.msgs := by
  unfold State.modJob; split <;> rfl
@[simp] theorem modJob_nextMsg (s : State) (j : Nat) (f : Job → Job) : (s.modJob j f).nextMsg = s.nextMsg := by
  unfold State.modJob; split <;> rfl
@[simp] theorem modJob_nextTok (s : State) (j : Nat) (f : Job → Job) : (s.modJob j f).nextTok = s.nextTok := by
  unfold State.modJob; split <;> rfl
@[simp] theorem modJob_cur (s : State) (j : Nat) (f : Job → Job) : (s.modJob j f).cur = s.cur := by
  unfold State.modJob; split <;> rfl
@[simp] theorem modJob_midUnit (s : State) (j : Nat) (f : Job → Job) : (s.modJob j f).midUnit = s.midUnit := by
  unfold State.modJob; split <;> rfl
@[simp] theorem modJob_agenda (s : State) (j : Nat) (f : Job → Job) : (s.modJob j f).agenda = s.agenda := by
  unfold State.modJob; split <;> rfl
@[simp] theorem modJob_upsets (s : State) (j : Nat) (f : Job → Job) : (s.modJob j f).upsets = s.upsets := by
  unfold State.modJob; split <;> rfl
@[simp] theorem modJob_free (s : State) (j : Nat) (f : Job → Job) : (s.modJob j f).free = s.free := by
  unfold State.modJob; split <;> rfl

/-! ### send, received -/

@[simp] theorem send_now (s : State) (m : Msg) : (s.send m).now = s.now := by
  unfold State.send; dsimp only; split <;> rfl
@[simp] theorem send_mem (s : State) (m : Msg) : (s.send m).mem = s.mem := by
  unfold State.send; dsimp only; split <;> rfl
@[simp] theorem send_fe (s : State) (m : Msg) : (s.send m).fe = s.fe := by
  unfold State.send; dsimp only; split <;> rfl
@[simp] theorem send_poison (s : State) (m : Msg) : (s.send m).poison = s.poison := by
  unfold State.send; dsimp only; split <;> rfl
@[simp] theorem send_ctxs (s : State) (m : Msg) : (s.send m).ctxs = s.ctxs := by
  unfold State.send; dsimp only; split <;> rfl
@[simp] theorem send_clusters (s : State) (m : Msg) : (s.send m).clusters = s.clusters := by
  unfold State.send; dsimp only; split <;> rfl
@[simp] theorem send_engines (s : State) (m : Msg) : (s.send m).engines = s.engines := by
  unfold State.send; dsimp only; split <;> rfl
@[simp] theorem send_links (s : State) (m : Msg) : (s.send m).links = s.links := by
  unfold State.send; dsimp only; split <;> rfl
@[simp] theorem send_peers (s : State) (m : Msg) : (s.send m).peers = s.peers := by
  unfold State.send; dsimp only; split <;> rfl
@[simp] theorem send_jobs (s : State) (m : Msg) : (s.send m).jobs = s.jobs := by
  unfold State.send; dsimp only; split <;> rfl
@[simp] theorem send_disp (s : State) (m : Msg) : (s.send m).disp = s.disp := by
  unfold State.send; dsimp only; split <;> rfl
@[simp] theorem send_unrav (s : State) (m : Msg) : (s.send m).unrav = s.unrav := by
  unfold State.send; dsimp only; split <;> rfl
@[simp] theorem send_trebex (s : State) (m : Msg) : (s.send m).trebex = s.trebex := by
  unfold State.send; dsimp only; split <;> rfl
@[simp] theorem send_nextTok (s : State) (m : Msg) : (s.send m).nextTok = s.nextTok := by
  unfold State.send; dsimp only; split <;> rfl
@[simp] theorem send_cur (s : State) (m : Msg) : (s.send m).cur = s.cur := by
  unfold State.send; dsimp only; split <;> rfl
@[simp] theorem send_midUnit (s : State) (m : Msg) : (s.send m).midUnit = s.midUnit := by
  unfold State.send; dsimp only; split <;> rfl
@[simp] theorem send_agenda (s : State) (m : Msg) : (s.send m).agenda = s.agenda := by
  unfold State.send; dsimp only; split <;> rfl
@[simp] theorem send_upsets (s : State) (m : Msg) : (s.send m).upsets = s.upsets := by
  unfold State.send; dsimp only; split <;> rfl
@[simp] theorem send_free (s : State) (m : Msg) : (s.send m).free = s.free := by
  unfold State.send; dsimp only; split <;> rfl
@[simp] theorem send_msgs (s : State) (m : Msg) : (s.send m).msgs = s.msgs ++ [{ m with id := s.nextMsg }] := by
  unfold State.send; dsimp only; split <;> rfl
@[simp] theorem send_nextMsg (s : State) (m : Msg) : (s.send m).nextMsg = s.nextMsg + 1 := by
  unfold State.send; dsimp only; split <;> rfl
@[simp] theorem received_now (s : State) (m : Msg) : (s.received m).now = s.now := by
  unfold State.received; split <;> rfl
@[simp] theorem received_mem (s : State) (m : Msg) : (s.received m).mem = s.mem := by
  unfold State.received; split <;> rfl
@[simp] theorem received_fe (s : State) (m : Msg) : (s.received m).fe = s.fe := by
  unfold State.received; split <;> rfl
@[simp] theorem received_poison (s : State) (m : Msg) : (s.received m).poison = s.poison := by
  unfold State.received; split <;> rfl
@[simp] theorem received_ctxs (s : State) (m : Msg) : (s.received m).ctxs = s.ctxs := by
  unfold State.received; split <;> rfl
@[simp] theorem received_clusters (s : State) (m : Msg) : (s.received m).clusters = s.clusters := by
  unfold State.received; split <;> rfl
@[simp] theorem received_engines (s : State) (m : Msg) : (s.received m).engines = s.engines := by
  unfold State.received; split <;> rfl
@[simp] theorem received_links (s : State) (m : Msg) : (s.received m).links = s.links := by
  unfold State.received; split <;> rfl
@[simp] theorem received_peers (s : State) (m : Msg) : (s.received m).peers = s.peers := by
  unfold State.received; split <;> rfl
@[simp] theorem received_jobs (s : State) (m : Msg) : (s.received m).jobs = s.jobs := by
  unfold State.received; split <;> rfl
@[simp] theorem received_disp (s : State) (m : Msg) : (s.received m).disp = s.disp := by
  unfold State.received; split <;> rfl
@[simp] theorem received_unrav (s : State) (m : Msg) : (s.received m).unrav = s.unrav := by
  unfold State.received; split <;> rfl
@[simp] theorem received_trebex (s : State) (m : Msg) : (s.received m).trebex = s.trebex := by
  unfold State.received; split <;> rfl
@[simp] theorem received_msgs (s : State) (m : Msg) : (s.received m).msgs = s.msgs := by
  unfold State.received; split <;> rfl
@[simp] theorem received_nextMsg (s : State) (m : Msg) : (s.received m).nextMsg = s.nextMsg := by
  unfold State.received; split <;> rfl
@[simp] theorem received_nextTok (s : State) (m : Msg) : (s.received m).nextTok = s.nextTok := by
  unfold State.received; split <;> rfl
@[simp] theorem received_cur (s : State) (m : Msg) : (s.received m).cur = s.cur := by
  unfold State.received; split <;> rfl
@[simp] theorem received_midUnit (s : State) (m : Msg) : (s.received m).midUnit = s.midUnit := by
  unfold State.received; split <;> rfl
@[simp] theorem received_agenda (s : State) (m : Msg) : (s.received m).agenda = s.agenda := by
  unfold State.received; split <;> rfl
@[simp] theorem received_upsets (s : State) (m : Msg) : (s.received m).upsets = s.upsets := by
  unfold State.received; split <;> rfl
@[simp] theorem received_free (s : State) (m : Msg) : (s.received m).free = s.free := by
  unfold State.received; split <;> rfl

/-! ### Contexts after an update -/

@[simp] theorem ctx_setCtx_same (s : State) (k : Nat) (c : Context) : (s.setCtx k c).ctx k = c := get_set_same _ _ _ _
theorem ctx_setCtx_ne (s : State) {k j : Nat} (c : Context) (h : j ≠ k) : (s.setCtx k c).ctx j = s.ctx j := get_set_ne _ _ _ h
theorem ctx_setCtx (s : State) (k j : Nat) (c : Context) : (s.setCtx k c).ctx j = if j = k then c else s.ctx j := get_set _ _ _ _ _
@[simp] theorem ctx_modCtx_same (s : State) (k : Nat) (f : Context → Context) : (s.modCtx k f).ctx k = f (s.ctx k) :=
  get_set_same _ _ _ _
theorem ctx_modCtx_ne (s : State) {k j : Nat} (f : Context → Context) (h : j ≠ k) : (s.modCtx k f).ctx j = s.ctx j :=
  get_set_ne _ _ _ h
@[simp] theorem me_modMe (s : State) (f : Context → Context) : (s.modMe f).me = f s.me := get_set_same _ _ _ _
theorem ctx_modMe_ne (s : State) {j : Nat} (f : Context → Context) (h : j ≠ s.cur) : (s.modMe f).ctx j = s.ctx j :=
  get_set_ne _ _ _ h
@[simp] theorem me_retire (s : State) (f : Context → Context) : (s.retire f).me = (f s.me).advance := get_set_same _ _ _ _
theorem ctx_retire_ne (s : State) {j : Nat} (f : Context → Context) (h : j ≠ s.cur) : (s.retire f).ctx j = s.ctx j :=
  get_set_ne _ _ _ h
@[simp] theorem me_setG (s : State) (d : Reg) (v : Word) : (s.setG d v).me = (s.me.setReg d v).advance := get_set_same _ _ _ _
theorem ctx_setG_ne (s : State) {j : Nat} (d : Reg) (v : Word) (h : j ≠ s.cur) : (s.setG d v).ctx j = s.ctx j := get_set_ne _ _ _ h
@[simp] theorem me_goTo (s : State) (t : Word) : (s.goTo t).me = { s.me with pc := t, got := [], again := false } :=
  get_set_same _ _ _ _
@[simp] theorem me_parkAgain (s : State) (why : Nat) :
    (s.parkAgain why).me = { s.me with st := .parked, park := why, kont := .reissue, again := false } := get_set_same _ _ _ _

/-! ### Spindles, clusters, engines, links, queues and jobs after an update -/

@[simp] theorem spindle_modSp_same (s : State) (n : Nat) (f : Spindle → Spindle) : (s.modSp n f).spindle n = f (s.spindle n) :=
  get_modify_same _ _ _ _
theorem spindle_modSp_ne (s : State) {n j : Nat} (f : Spindle → Spindle) (h : j ≠ n) : (s.modSp n f).spindle j = s.spindle j :=
  get_modify_ne _ _ _ h
@[simp] theorem cluster_modCl_same (s : State) (n : Nat) (f : Cluster → Cluster) : (s.modCl n f).cluster n = f (s.cluster n) :=
  get_modify_same _ _ _ _
theorem cluster_modCl_ne (s : State) {n j : Nat} (f : Cluster → Cluster) (h : j ≠ n) : (s.modCl n f).cluster j = s.cluster j :=
  get_modify_ne _ _ _ h
@[simp] theorem engine_modEng_same (s : State) (n : Nat) (f : Engine → Engine) : (s.modEng n f).engine n = f (s.engine n) :=
  get_modify_same _ _ _ _
theorem engine_modEng_ne (s : State) {n j : Nat} (f : Engine → Engine) (h : j ≠ n) : (s.modEng n f).engine j = s.engine j :=
  get_modify_ne _ _ _ h
@[simp] theorem link_modLink_same (s : State) (n : Nat) (f : HalfLink → HalfLink) : (s.modLink n f).link n = f (s.link n) :=
  get_modify_same _ _ _ _
theorem link_modLink_ne (s : State) {n j : Nat} (f : HalfLink → HalfLink) (h : j ≠ n) : (s.modLink n f).link j = s.link j :=
  get_modify_ne _ _ _ h
@[simp] theorem queue_modQueue_same (s : State) (n : Nat) (f : Queue → Queue) : (s.modQueue n f).queue n = f (s.queue n) :=
  get_modify_same _ _ _ _
theorem queue_modQueue_ne (s : State) {n j : Nat} (f : Queue → Queue) (h : j ≠ n) : (s.modQueue n f).queue j = s.queue j :=
  get_modify_ne _ _ _ h
theorem job_modJob_ne (s : State) {n j : Nat} (f : Job → Job) (h : j ≠ n) : (s.modJob n f).job j = s.job j := by
  unfold State.modJob State.job; split
  · exact get_set_ne _ _ _ h
  · rfl
theorem job_modJob_same {s : State} {n : Nat} {x : Job} (h : Table.find s.jobs n = some x) (f : Job → Job) :
    (s.modJob n f).job n = f (s.job n) := by
  simp [State.modJob, State.job, Table.get, h]

/-! ### General registers -/

@[simp] theorem reg_setReg_same (c : Context) (d : Reg) (v : Word) : (c.setReg d v).reg d = v := by
  simp [Context.reg, Context.setReg]
theorem reg_setReg_ne (c : Context) {d r : Reg} (v : Word) (h : r ≠ d) : (c.setReg d v).reg r = c.reg r := by
  have : d.toNat ≠ r.toNat := fun e => h (BitVec.eq_of_toNat_eq e.symm)
  simp [Context.reg, Context.setReg, this]
@[simp] theorem reg_advance (c : Context) (r : Reg) : c.advance.reg r = c.reg r := rfl
@[simp] theorem pc_advance (c : Context) : c.advance.pc = c.unit.next := rfl
@[simp] theorem unit_advance (c : Context) : c.advance.unit = c.unit := rfl
@[simp] theorem unit_setReg (c : Context) (d : Reg) (v : Word) : (c.setReg d v).unit = c.unit := rfl

end Sys2Proof.Laws
end

