-- ==== Sys2Proof/Laws/Frames.lean ====
section
/-!
SUPPORT. What the shared operations that end an instruction do, said once: writing a register, going on, jumping, taking a trap; what
settling the rounds of copy engines and setting a store aside leave as it is.
-/
namespace Sys2Proof.Laws
open Sys2Proof Sys2Proof.Machine

theorem onlyMe_modMe (s : State) (f : Context → Context) : OnlyMe s (s.modMe f) :=
  ⟨rfl, fun _ h => ctx_modMe_ne s f h, fun _ => rfl⟩

theorem onlyMe_retire (s : State) (f : Context → Context) : OnlyMe s (s.retire f) := onlyMe_modMe s _

/-- `setG` writes one register and goes on. -/
theorem wroteReg_setG (s : State) (d : Reg) (v : Word) : WroteReg s (s.setG d v) d v where
  others := onlyMe_retire s _
  value := by simp
  regs r h := by simp [reg_setReg_ne _ _ h]
  pc := by simp
  rest := by rw [me_setG]; rfl

theorem wentTo_retire (s : State) : WentTo s (s.retire id) s.me.unit.next where
  others := onlyMe_retire s _
  pc := by simp
  rest := by rw [me_retire]; rfl

theorem wentTo_goTo (s : State) (pc : Word) : WentTo s (s.goTo pc) pc where
  others := onlyMe_modMe s _
  pc := by simp
  rest := by rw [me_goTo]

theorem wroteFlags_retire (s : State) (d : Reg) (v : Word) (fl : Nat) :
    WroteFlags s (s.retire fun c => (c.raise fl).setReg d v) d v fl where
  others := onlyMe_retire s _
  value := by simp
  regs r h := by simp [reg_setReg_ne _ _ h]; rfl
  flags := by rw [me_retire]; rfl
  pc := by rw [me_retire]; rfl
  rest := by rw [me_retire]; rfl

/-- Settling the engines' rounds changes nothing but the engines. -/
theorem passQueues_frame (s : State) : { s.passQueues with engines := s.engines } = s := rfl

/-- A queue with an eligible entry keeps its turn and its deficit (R305). -/
theorem passQueue_stays (s : State) (n : Nat) (g : Engine) (h : (s.queueHead g g.at_).isSome = true) : s.passQueue n g = g := by
  cases n <;> simp [State.passQueue, h]

/-- An engine's commands stand as they were, whichever queues its round passes. -/
theorem passQueue_cmds (s : State) (n : Nat) (g : Engine) : (s.passQueue n g).cmds = g.cmds := by
  induction n generalizing g with
  | zero => rfl
  | succ n ih => unfold State.passQueue; split
                 · rfl
                 · rw [ih]

/-- A store that arrives ahead of its turn changes which messages wait and its own context, no more (R163). -/
theorem tooEarly_frame (s : State) (m : Msg) : { s.tooEarly m with msgs := s.msgs, ctxs := s.ctxs } = s := by
  unfold State.tooEarly; dsimp only; split <;> rfl

end Sys2Proof.Laws
end

