-- ==== Sys2Proof/Laws/Integer.lean ====
section
/-!
SUPPORT. The numeric views of Word.lean and the integer forms of Operands.lean as operations on bit vectors.
-/
namespace Sys2Proof.Laws
open Sys2Proof Sys2Proof.Machine

theorem signExt_eq (x n : Nat) : signExt x n = (BitVec.ofNat n x).toInt := by
  simp only [signExt, BitVec.toInt, BitVec.toNat_ofNat]

theorem truncI_eq (r : Int) (n : Nat) : truncI r n = (BitVec.ofInt n r).toNat := by
  simp only [truncI, BitVec.toNat_ofInt]

@[simp] theorem ofNat_toNat_32 (x : Word) : BitVec.ofNat 32 x.toNat = x.setWidth 32 := by
  apply BitVec.eq_of_toNat_eq; simp

/-- What an IOP form writes is its exact result wrapped to the form's width and sign-extended. -/
theorem iopOut_64 (r : Int) : iopOut false r = BitVec.ofInt 64 r := by
  simp only [iopOut, signExt_eq, truncI_eq, BitVec.ofNat_toNat, BitVec.setWidth_eq, BitVec.ofInt_toInt, Bool.false_eq_true, if_false]

theorem iopOut_32 (r : Int) : iopOut true r = (BitVec.ofInt 32 r).signExtend 64 := by
  simp only [iopOut, signExt_eq, truncI_eq, BitVec.ofNat_toNat, BitVec.setWidth_eq, BitVec.signExtend, if_true]

theorem iopIn_64 (x y : Word) :
    iopIn false x y = { n := 64, sa := x.toInt, sb := y.toInt, ua := x.toNat, ub := y.toNat, k := y.toNat % 64 } := by
  have hx := x.isLt; have hy := y.isLt
  simp [iopIn, signExt_eq, truncN, Nat.mod_eq_of_lt hx, Nat.mod_eq_of_lt hy]

theorem iopIn_32 (x y : Word) :
    iopIn true x y = { n := 32, sa := (x.setWidth 32).toInt, sb := (y.setWidth 32).toInt, ua := (x.setWidth 32).toNat,
                       ub := (y.setWidth 32).toNat, k := (y.setWidth 32).toNat % 32 } := by
  simp [iopIn, signExt_eq, truncN]

end Sys2Proof.Laws
end

