-- ==== Sys2Proof/Laws/PerInstr.lean ====
section
/-!
SUPPORT. Families of statements about every instruction, a lemma for each constructor. RoundTrip: the decoder reads a well-formed
instruction back from the words of its encoding, whose number is what LEN of the first word says.
-/
namespace Sys2Proof.Laws.RoundTrip
set_option linter.unusedSimpArgs false
set_option Elab.async false
open Sys2Proof Sys2Proof.Laws

/-- An instruction that is well formed and has an encoding is decoded from it, and its words are as many as LEN of the first says. -/
def Statement (i : Instr) : Prop :=
  i.wf = true → encode i ≠ [] → decodeWords (encode i) = some i ∧ (encode i).length = lenWords ((encode i).headD 0)

theorem len1 {w : IWord} (h : fLen w = 0) : ([w] : List IWord).length = lenWords (([w] : List IWord).headD 0) := by
  show 1 = lenWords w; unfold lenWords; rw [h]; rfl
theorem len3 {w x y : IWord} (h : fLen w = 1 ∨ fLen w = 2) :
    ([w, x, y] : List IWord).length = lenWords (([w, x, y] : List IWord).headD 0) := by
  show 3 = lenWords w; unfold lenWords; rcases h with h | h <;> rw [h] <;> rfl

theorem add (d : Reg) (a : Reg) (b : Reg) (w : Bool) : Statement (.add d a b w) := fun _ _ => by
  have e : decodeInstr (packR 0x01 d a b 0 (wBit w) 0) 0 0 = some (.add d a b w) := by
    rw [decode_major_01 _ _ _ (fMaj_packR ..)]
    delta lone decIop
    simp only [fLen_packR, fD_packR, fA_packR, fB_packR, fFn_packR, fW_packR, fC_packR, extract_0_2_packR, extract_2_2_packR, extract_0_3_packR, extract_3_1_packR, rfC_lo, rfC_hi, n1_lo, n1_hi]
    cases w <;> rfl
  exact ⟨e, len1 (fLen_packR ..)⟩
theorem sub (d : Reg) (a : Reg) (b : Reg) (w : Bool) : Statement (.sub d a b w) := fun _ _ => by
  have e : decodeInstr (packR 0x01 d a b 1 (wBit w) 0) 0 0 = some (.sub d a b w) := by
    rw [decode_major_01 _ _ _ (fMaj_packR ..)]
    delta lone decIop
    simp only [fLen_packR, fD_packR, fA_packR, fB_packR, fFn_packR, fW_packR, fC_packR, extract_0_2_packR, extract_2_2_packR, extract_0_3_packR, extract_3_1_packR, rfC_lo, rfC_hi, n1_lo, n1_hi]
    cases w <;> rfl
  exact ⟨e, len1 (fLen_packR ..)⟩
theorem and_ (d : Reg) (a : Reg) (b : Reg) (w : Bool) : Statement (.and_ d a b w) := fun _ _ => by
  have e : decodeInstr (packR 0x01 d a b 2 (wBit w) 0) 0 0 = some (.and_ d a b w) := by
    rw [decode_major_01 _ _ _ (fMaj_packR ..)]
    delta lone decIop
    simp only [fLen_packR, fD_packR, fA_packR, fB_packR, fFn_packR, fW_packR, fC_packR, extract_0_2_packR, extract_2_2_packR, extract_0_3_packR, extract_3_1_packR, rfC_lo, rfC_hi, n1_lo, n1_hi]
    cases w <;> rfl
  exact ⟨e, len1 (fLen_packR ..)⟩
theorem or_ (d : Reg) (a : Reg) (b : Reg) (w : Bool) : Statement (.or_ d a b w) := fun _ _ => by
  have e : decodeInstr (packR 0x01 d a b 3 (wBit w) 0) 0 0 = some (.or_ d a b w) := by
    rw [decode_major_01 _ _ _ (fMaj_packR ..)]
    delta lone decIop
    simp only [fLen_packR, fD_packR, fA_packR, fB_packR, fFn_packR, fW_packR, fC_packR, extract_0_2_packR, extract_2_2_packR, extract_0_3_packR, extract_3_1_packR, rfC_lo, rfC_hi, n1_lo, n1_hi]
    cases w <;> rfl
  exact ⟨e, len1 (fLen_packR ..)⟩
theorem xor (d : Reg) (a : Reg) (b : Reg) (w : Bool) : Statement (.xor d a b w) := fun _ _ => by
  have e : decodeInstr (packR 0x01 d a b 4 (wBit w) 0) 0 0 = some (.xor d a b w) := by
    rw [decode_major_01 _ _ _ (fMaj_packR ..)]
    delta lone decIop
    simp only [fLen_packR, fD_packR, fA_packR, fB_packR, fFn_packR, fW_packR, fC_packR, extract_0_2_packR, extract_2_2_packR, extract_0_3_packR, extract_3_1_packR, rfC_lo, rfC_hi, n1_lo, n1_hi]
    cases w <;> rfl
  exact ⟨e, len1 (fLen_packR ..)⟩
theorem andn (d : Reg) (a : Reg) (b : Reg) (w : Bool) : Statement (.andn d a b w) := fun _ _ => by
  have e : decodeInstr (packR 0x01 d a b 5 (wBit w) 0) 0 0 = some (.andn d a b w) := by
    rw [decode_major_01 _ _ _ (fMaj_packR ..)]
    delta lone decIop
    simp only [fLen_packR, fD_packR, fA_packR, fB_packR, fFn_packR, fW_packR, fC_packR, extract_0_2_packR, extract_2_2_packR, extract_0_3_packR, extract_3_1_packR, rfC_lo, rfC_hi, n1_lo, n1_hi]
    cases w <;> rfl
  exact ⟨e, len1 (fLen_packR ..)⟩
theorem shl (d : Reg) (a : Reg) (b : Reg) (w : Bool) : Statement (.shl d a b w) := fun _ _ => by
  have e : decodeInstr (packR 0x01 d a b 6 (wBit w) 0) 0 0 = some (.shl d a b w) := by
    rw [decode_major_01 _ _ _ (fMaj_packR ..)]
    delta lone decIop
    simp only [fLen_packR, fD_packR, fA_packR, fB_packR, fFn_packR, fW_packR, fC_packR, extract_0_2_packR, extract_2_2_packR, extract_0_3_packR, extract_3_1_packR, rfC_lo, rfC_hi, n1_lo, n1_hi]
    cases w <;> rfl
  exact ⟨e, len1 (fLen_packR ..)⟩
theorem shr (d : Reg) (a : Reg) (b : Reg) (w : Bool) : Statement (.shr d a b w) := fun _ _ => by
  have e : decodeInstr (packR 0x01 d a b 7 (wBit w) 0) 0 0 = some (.shr d a b w) := by
    rw [decode_major_01 _ _ _ (fMaj_packR ..)]
    delta lone decIop
    simp only [fLen_packR, fD_packR, fA_packR, fB_packR, fFn_packR, fW_packR, fC_packR, extract_0_2_packR, extract_2_2_packR, extract_0_3_packR, extract_3_1_packR, rfC_lo, rfC_hi, n1_lo, n1_hi]
    cases w <;> rfl
  exact ⟨e, len1 (fLen_packR ..)⟩
theorem sar (d : Reg) (a : Reg) (b : Reg) (w : Bool) : Statement (.sar d a b w) := fun _ _ => by
  have e : decodeInstr (packR 0x01 d a b 8 (wBit w) 0) 0 0 = some (.sar d a b w) := by
    rw [decode_major_01 _ _ _ (fMaj_packR ..)]
    delta lone decIop
    simp only [fLen_packR, fD_packR, fA_packR, fB_packR, fFn_packR, fW_packR, fC_packR, extract_0_2_packR, extract_2_2_packR, extract_0_3_packR, extract_3_1_packR, rfC_lo, rfC_hi, n1_lo, n1_hi]
    cases w <;> rfl
  exact ⟨e, len1 (fLen_packR ..)⟩
theorem rol (d : Reg) (a : Reg) (b : Reg) (w : Bool) : Statement (.rol d a b w) := fun _ _ => by
  have e : decodeInstr (packR 0x01 d a b 9 (wBit w) 0) 0 0 = some (.rol d a b w) := by
    rw [decode_major_01 _ _ _ (fMaj_packR ..)]
    delta lone decIop
    simp only [fLen_packR, fD_packR, fA_packR, fB_packR, fFn_packR, fW_packR, fC_packR, extract_0_2_packR, extract_2_2_packR, extract_0_3_packR, extract_3_1_packR, rfC_lo, rfC_hi, n1_lo, n1_hi]
    cases w <;> rfl
  exact ⟨e, len1 (fLen_packR ..)⟩
theorem mul (d : Reg) (a : Reg) (b : Reg) (w : Bool) : Statement (.mul d a b w) := fun _ _ => by
  have e : decodeInstr (packR 0x01 d a b 10 (wBit w) 0) 0 0 = some (.mul d a b w) := by
    rw [decode_major_01 _ _ _ (fMaj_packR ..)]
    delta lone decIop
    simp only [fLen_packR, fD_packR, fA_packR, fB_packR, fFn_packR, fW_packR, fC_packR, extract_0_2_packR, extract_2_2_packR, extract_0_3_packR, extract_3_1_packR, rfC_lo, rfC_hi, n1_lo, n1_hi]
    cases w <;> rfl
  exact ⟨e, len1 (fLen_packR ..)⟩
theorem mulhs (d : Reg) (a : Reg) (b : Reg) (w : Bool) : Statement (.mulhs d a b w) := fun _ _ => by
  have e : decodeInstr (packR 0x01 d a b 11 (wBit w) 0) 0 0 = some (.mulhs d a b w) := by
    rw [decode_major_01 _ _ _ (fMaj_packR ..)]
    delta lone decIop
    simp only [fLen_packR, fD_packR, fA_packR, fB_packR, fFn_packR, fW_packR, fC_packR, extract_0_2_packR, extract_2_2_packR, extract_0_3_packR, extract_3_1_packR, rfC_lo, rfC_hi, n1_lo, n1_hi]
    cases w <;> rfl
  exact ⟨e, len1 (fLen_packR ..)⟩
theorem mulhn (d : Reg) (a : Reg) (b : Reg) (w : Bool) : Statement (.mulhn d a b w) := fun _ _ => by
  have e : decodeInstr (packR 0x01 d a b 12 (wBit w) 0) 0 0 = some (.mulhn d a b w) := by
    rw [decode_major_01 _ _ _ (fMaj_packR ..)]
    delta lone decIop
    simp only [fLen_packR, fD_packR, fA_packR, fB_packR, fFn_packR, fW_packR, fC_packR, extract_0_2_packR, extract_2_2_packR, extract_0_3_packR, extract_3_1_packR, rfC_lo, rfC_hi, n1_lo, n1_hi]
    cases w <;> rfl
  exact ⟨e, len1 (fLen_packR ..)⟩
theorem divs (d : Reg) (a : Reg) (b : Reg) (w : Bool) : Statement (.divs d a b w) := fun _ _ => by
  have e : decodeInstr (packR 0x01 d a b 13 (wBit w) 0) 0 0 = some (.divs d a b w) := by
    rw [decode_major_01 _ _ _ (fMaj_packR ..)]
    delta lone decIop
    simp only [fLen_packR, fD_packR, fA_packR, fB_packR, fFn_packR, fW_packR, fC_packR, extract_0_2_packR, extract_2_2_packR, extract_0_3_packR, extract_3_1_packR, rfC_lo, rfC_hi, n1_lo, n1_hi]
    cases w <;> rfl
  exact ⟨e, len1 (fLen_packR ..)⟩
theorem divn (d : Reg) (a : Reg) (b : Reg) (w : Bool) : Statement (.divn d a b w) := fun _ _ => by
  have e : decodeInstr (packR 0x01 d a b 14 (wBit w) 0) 0 0 = some (.divn d a b w) := by
    rw [decode_major_01 _ _ _ (fMaj_packR ..)]
    delta lone decIop
    simp only [fLen_packR, fD_packR, fA_packR, fB_packR, fFn_packR, fW_packR, fC_packR, extract_0_2_packR, extract_2_2_packR, extract_0_3_packR, extract_3_1_packR, rfC_lo, rfC_hi, n1_lo, n1_hi]
    cases w <;> rfl
  exact ⟨e, len1 (fLen_packR ..)⟩
theorem rems (d : Reg) (a : Reg) (b : Reg) (w : Bool) : Statement (.rems d a b w) := fun _ _ => by
  have e : decodeInstr (packR 0x01 d a b 15 (wBit w) 0) 0 0 = some (.rems d a b w) := by
    rw [decode_major_01 _ _ _ (fMaj_packR ..)]
    delta lone decIop
    simp only [fLen_packR, fD_packR, fA_packR, fB_packR, fFn_packR, fW_packR, fC_packR, extract_0_2_packR, extract_2_2_packR, extract_0_3_packR, extract_3_1_packR, rfC_lo, rfC_hi, n1_lo, n1_hi]
    cases w <;> rfl
  exact ⟨e, len1 (fLen_packR ..)⟩
theorem remn (d : Reg) (a : Reg) (b : Reg) (w : Bool) : Statement (.remn d a b w) := fun _ _ => by
  have e : decodeInstr (packR 0x01 d a b 16 (wBit w) 0) 0 0 = some (.remn d a b w) := by
    rw [decode_major_01 _ _ _ (fMaj_packR ..)]
    delta lone decIop
    simp only [fLen_packR, fD_packR, fA_packR, fB_packR, fFn_packR, fW_packR, fC_packR, extract_0_2_packR, extract_2_2_packR, extract_0_3_packR, extract_3_1_packR, rfC_lo, rfC_hi, n1_lo, n1_hi]
    cases w <;> rfl
  exact ⟨e, len1 (fLen_packR ..)⟩
theorem mins (d : Reg) (a : Reg) (b : Reg) (w : Bool) : Statement (.mins d a b w) := fun _ _ => by
  have e : decodeInstr (packR 0x01 d a b 17 (wBit w) 0) 0 0 = some (.mins d a b w) := by
    rw [decode_major_01 _ _ _ (fMaj_packR ..)]
    delta lone decIop
    simp only [fLen_packR, fD_packR, fA_packR, fB_packR, fFn_packR, fW_packR, fC_packR, extract_0_2_packR, extract_2_2_packR, extract_0_3_packR, extract_3_1_packR, rfC_lo, rfC_hi, n1_lo, n1_hi]
    cases w <;> rfl
  exact ⟨e, len1 (fLen_packR ..)⟩
theorem maxs (d : Reg) (a : Reg) (b : Reg) (w : Bool) : Statement (.maxs d a b w) := fun _ _ => by
  have e : decodeInstr (packR 0x01 d a b 18 (wBit w) 0) 0 0 = some (.maxs d a b w) := by
    rw [decode_major_01 _ _ _ (fMaj_packR ..)]
    delta lone decIop
    simp only [fLen_packR, fD_packR, fA_packR, fB_packR, fFn_packR, fW_packR, fC_packR, extract_0_2_packR, extract_2_2_packR, extract_0_3_packR, extract_3_1_packR, rfC_lo, rfC_hi, n1_lo, n1_hi]
    cases w <;> rfl
  exact ⟨e, len1 (fLen_packR ..)⟩
theorem minn (d : Reg) (a : Reg) (b : Reg) (w : Bool) : Statement (.minn d a b w) := fun _ _ => by
  have e : decodeInstr (packR 0x01 d a b 19 (wBit w) 0) 0 0 = some (.minn d a b w) := by
    rw [decode_major_01 _ _ _ (fMaj_packR ..)]
    delta lone decIop
    simp only [fLen_packR, fD_packR, fA_packR, fB_packR, fFn_packR, fW_packR, fC_packR, extract_0_2_packR, extract_2_2_packR, extract_0_3_packR, extract_3_1_packR, rfC_lo, rfC_hi, n1_lo, n1_hi]
    cases w <;> rfl
  exact ⟨e, len1 (fLen_packR ..)⟩
theorem maxn (d : Reg) (a : Reg) (b : Reg) (w : Bool) : Statement (.maxn d a b w) := fun _ _ => by
  have e : decodeInstr (packR 0x01 d a b 20 (wBit w) 0) 0 0 = some (.maxn d a b w) := by
    rw [decode_major_01 _ _ _ (fMaj_packR ..)]
    delta lone decIop
    simp only [fLen_packR, fD_packR, fA_packR, fB_packR, fFn_packR, fW_packR, fC_packR, extract_0_2_packR, extract_2_2_packR, extract_0_3_packR, extract_3_1_packR, rfC_lo, rfC_hi, n1_lo, n1_hi]
    cases w <;> rfl
  exact ⟨e, len1 (fLen_packR ..)⟩
theorem slts (d : Reg) (a : Reg) (b : Reg) (w : Bool) : Statement (.slts d a b w) := fun _ _ => by
  have e : decodeInstr (packR 0x01 d a b 21 (wBit w) 0) 0 0 = some (.slts d a b w) := by
    rw [decode_major_01 _ _ _ (fMaj_packR ..)]
    delta lone decIop
    simp only [fLen_packR, fD_packR, fA_packR, fB_packR, fFn_packR, fW_packR, fC_packR, extract_0_2_packR, extract_2_2_packR, extract_0_3_packR, extract_3_1_packR, rfC_lo, rfC_hi, n1_lo, n1_hi]
    cases w <;> rfl
  exact ⟨e, len1 (fLen_packR ..)⟩
theorem sltn (d : Reg) (a : Reg) (b : Reg) (w : Bool) : Statement (.sltn d a b w) := fun _ _ => by
  have e : decodeInstr (packR 0x01 d a b 22 (wBit w) 0) 0 0 = some (.sltn d a b w) := by
    rw [decode_major_01 _ _ _ (fMaj_packR ..)]
    delta lone decIop
    simp only [fLen_packR, fD_packR, fA_packR, fB_packR, fFn_packR, fW_packR, fC_packR, extract_0_2_packR, extract_2_2_packR, extract_0_3_packR, extract_3_1_packR, rfC_lo, rfC_hi, n1_lo, n1_hi]
    cases w <;> rfl
  exact ⟨e, len1 (fLen_packR ..)⟩
theorem seq (d : Reg) (a : Reg) (b : Reg) (w : Bool) : Statement (.seq d a b w) := fun _ _ => by
  have e : decodeInstr (packR 0x01 d a b 23 (wBit w) 0) 0 0 = some (.seq d a b w) := by
    rw [decode_major_01 _ _ _ (fMaj_packR ..)]
    delta lone decIop
    simp only [fLen_packR, fD_packR, fA_packR, fB_packR, fFn_packR, fW_packR, fC_packR, extract_0_2_packR, extract_2_2_packR, extract_0_3_packR, extract_3_1_packR, rfC_lo, rfC_hi, n1_lo, n1_hi]
    cases w <;> rfl
  exact ⟨e, len1 (fLen_packR ..)⟩
theorem sne (d : Reg) (a : Reg) (b : Reg) (w : Bool) : Statement (.sne d a b w) := fun _ _ => by
  have e : decodeInstr (packR 0x01 d a b 24 (wBit w) 0) 0 0 = some (.sne d a b w) := by
    rw [decode_major_01 _ _ _ (fMaj_packR ..)]
    delta lone decIop
    simp only [fLen_packR, fD_packR, fA_packR, fB_packR, fFn_packR, fW_packR, fC_packR, extract_0_2_packR, extract_2_2_packR, extract_0_3_packR, extract_3_1_packR, rfC_lo, rfC_hi, n1_lo, n1_hi]
    cases w <;> rfl
  exact ⟨e, len1 (fLen_packR ..)⟩
theorem addi (d : Reg) (a : Reg) (i : BitVec 16) : Statement (.addi d a i) := fun _ _ => by
  have e : decodeInstr (packI 0 0x02 d a i) 0 0 = some (.addi d a i) := by
    rw [decode_major_02 _ _ _ (fMaj_packI ..)]
    delta decImm
    simp only [fLen_packI, fD_packI, fA_packI, fImm_packI, fSz_packI, extract_0_6_packI, extract_6_8_packI, shi_lo, shi_mid, shi_hi]
    rfl
  exact ⟨e, len1 (fLen_packI ..)⟩
theorem addiLiteral (d : Reg) (a : Reg) (l : Word) : Statement (.addiLiteral d a l) := fun _ _ => by
  have e : decodeInstr (packI 2 0x02 d a 0) (l.extractLsb' 0 32) (l.extractLsb' 32 32) = some (.addiLiteral d a l) := by
    rw [decode_major_02 _ _ _ (fMaj_packI ..)]
    delta decImm
    simp only [fLen_packI, fD_packI, fA_packI, fImm_packI, fSz_packI, extract_0_6_packI, extract_6_8_packI, shi_lo, shi_mid, shi_hi, literal_halves]
    rfl
  exact ⟨e, len3 (.inr (fLen_packI ..))⟩
theorem andi (d : Reg) (a : Reg) (i : BitVec 16) : Statement (.andi d a i) := fun _ _ => by
  have e : decodeInstr (packI 0 0x03 d a i) 0 0 = some (.andi d a i) := by
    rw [decode_major_03 _ _ _ (fMaj_packI ..)]
    delta decImm
    simp only [fLen_packI, fD_packI, fA_packI, fImm_packI, fSz_packI, extract_0_6_packI, extract_6_8_packI, shi_lo, shi_mid, shi_hi]
    rfl
  exact ⟨e, len1 (fLen_packI ..)⟩
theorem andiLiteral (d : Reg) (a : Reg) (l : Word) : Statement (.andiLiteral d a l) := fun _ _ => by
  have e : decodeInstr (packI 2 0x03 d a 0) (l.extractLsb' 0 32) (l.extractLsb' 32 32) = some (.andiLiteral d a l) := by
    rw [decode_major_03 _ _ _ (fMaj_packI ..)]
    delta decImm
    simp only [fLen_packI, fD_packI, fA_packI, fImm_packI, fSz_packI, extract_0_6_packI, extract_6_8_packI, shi_lo, shi_mid, shi_hi, literal_halves]
    rfl
  exact ⟨e, len3 (.inr (fLen_packI ..))⟩
theorem ori (d : Reg) (a : Reg) (i : BitVec 16) : Statement (.ori d a i) := fun _ _ => by
  have e : decodeInstr (packI 0 0x04 d a i) 0 0 = some (.ori d a i) := by
    rw [decode_major_04 _ _ _ (fMaj_packI ..)]
    delta decImm
    simp only [fLen_packI, fD_packI, fA_packI, fImm_packI, fSz_packI, extract_0_6_packI, extract_6_8_packI, shi_lo, shi_mid, shi_hi]
    rfl
  exact ⟨e, len1 (fLen_packI ..)⟩
theorem oriLiteral (d : Reg) (a : Reg) (l : Word) : Statement (.oriLiteral d a l) := fun _ _ => by
  have e : decodeInstr (packI 2 0x04 d a 0) (l.extractLsb' 0 32) (l.extractLsb' 32 32) = some (.oriLiteral d a l) := by
    rw [decode_major_04 _ _ _ (fMaj_packI ..)]
    delta decImm
    simp only [fLen_packI, fD_packI, fA_packI, fImm_packI, fSz_packI, extract_0_6_packI, extract_6_8_packI, shi_lo, shi_mid, shi_hi, literal_halves]
    rfl
  exact ⟨e, len3 (.inr (fLen_packI ..))⟩
theorem xori (d : Reg) (a : Reg) (i : BitVec 16) : Statement (.xori d a i) := fun _ _ => by
  have e : decodeInstr (packI 0 0x05 d a i) 0 0 = some (.xori d a i) := by
    rw [decode_major_05 _ _ _ (fMaj_packI ..)]
    delta decImm
    simp only [fLen_packI, fD_packI, fA_packI, fImm_packI, fSz_packI, extract_0_6_packI, extract_6_8_packI, shi_lo, shi_mid, shi_hi]
    rfl
  exact ⟨e, len1 (fLen_packI ..)⟩
theorem xoriLiteral (d : Reg) (a : Reg) (l : Word) : Statement (.xoriLiteral d a l) := fun _ _ => by
  have e : decodeInstr (packI 2 0x05 d a 0) (l.extractLsb' 0 32) (l.extractLsb' 32 32) = some (.xoriLiteral d a l) := by
    rw [decode_major_05 _ _ _ (fMaj_packI ..)]
    delta decImm
    simp only [fLen_packI, fD_packI, fA_packI, fImm_packI, fSz_packI, extract_0_6_packI, extract_6_8_packI, shi_lo, shi_mid, shi_hi, literal_halves]
    rfl
  exact ⟨e, len3 (.inr (fLen_packI ..))⟩
theorem slti (d : Reg) (a : Reg) (i : BitVec 16) : Statement (.slti d a i) := fun _ _ => by
  have e : decodeInstr (packI 0 0x07 d a i) 0 0 = some (.slti d a i) := by
    rw [decode_major_07 _ _ _ (fMaj_packI ..)]
    delta decImm
    simp only [fLen_packI, fD_packI, fA_packI, fImm_packI, fSz_packI, extract_0_6_packI, extract_6_8_packI, shi_lo, shi_mid, shi_hi]
    rfl
  exact ⟨e, len1 (fLen_packI ..)⟩
theorem sltiLiteral (d : Reg) (a : Reg) (l : Word) : Statement (.sltiLiteral d a l) := fun _ _ => by
  have e : decodeInstr (packI 2 0x07 d a 0) (l.extractLsb' 0 32) (l.extractLsb' 32 32) = some (.sltiLiteral d a l) := by
    rw [decode_major_07 _ _ _ (fMaj_packI ..)]
    delta decImm
    simp only [fLen_packI, fD_packI, fA_packI, fImm_packI, fSz_packI, extract_0_6_packI, extract_6_8_packI, shi_lo, shi_mid, shi_hi, literal_halves]
    rfl
  exact ⟨e, len3 (.inr (fLen_packI ..))⟩
theorem movi (d : Reg) (i : BitVec 16) : Statement (.movi d i) := fun _ _ => by
  have e : decodeInstr (packI 0 0x08 d 0 i) 0 0 = some (.movi d i) := by
    rw [decode_major_08 _ _ _ (fMaj_packI ..)]
    delta decImm
    simp only [fLen_packI, fD_packI, fA_packI, fImm_packI, fSz_packI, extract_0_6_packI, extract_6_8_packI, shi_lo, shi_mid, shi_hi]
    rfl
  exact ⟨e, len1 (fLen_packI ..)⟩
theorem moviLiteral (d : Reg) (l : Word) : Statement (.moviLiteral d l) := fun _ _ => by
  have e : decodeInstr (packI 2 0x08 d 0 0) (l.extractLsb' 0 32) (l.extractLsb' 32 32) = some (.moviLiteral d l) := by
    rw [decode_major_08 _ _ _ (fMaj_packI ..)]
    delta decImm
    simp only [fLen_packI, fD_packI, fA_packI, fImm_packI, fSz_packI, extract_0_6_packI, extract_6_8_packI, shi_lo, shi_mid, shi_hi, literal_halves]
    rfl
  exact ⟨e, len3 (.inr (fLen_packI ..))⟩
theorem shli (d : Reg) (a : Reg) (k : BitVec 6) : Statement (.shli d a k) := fun _ _ => by
  have e : decodeInstr (packI 0 0x06 d a ((0 : BitVec 2) ++ (0 : BitVec 8) ++ k)) 0 0 = some (.shli d a k) := by
    rw [decode_major_06 _ _ _ (fMaj_packI ..)]
    delta lone decShi
    simp only [fLen_packI, fD_packI, fA_packI, fImm_packI, fSz_packI, extract_0_6_packI, extract_6_8_packI, shi_lo, shi_mid, shi_hi]
    rfl
  exact ⟨e, len1 (fLen_packI ..)⟩
theorem shri (d : Reg) (a : Reg) (k : BitVec 6) : Statement (.shri d a k) := fun _ _ => by
  have e : decodeInstr (packI 0 0x06 d a ((1 : BitVec 2) ++ (0 : BitVec 8) ++ k)) 0 0 = some (.shri d a k) := by
    rw [decode_major_06 _ _ _ (fMaj_packI ..)]
    delta lone decShi
    simp only [fLen_packI, fD_packI, fA_packI, fImm_packI, fSz_packI, extract_0_6_packI, extract_6_8_packI, shi_lo, shi_mid, shi_hi]
    rfl
  exact ⟨e, len1 (fLen_packI ..)⟩
theorem sari (d : Reg) (a : Reg) (k : BitVec 6) : Statement (.sari d a k) := fun _ _ => by
  have e : decodeInstr (packI 0 0x06 d a ((2 : BitVec 2) ++ (0 : BitVec 8) ++ k)) 0 0 = some (.sari d a k) := by
    rw [decode_major_06 _ _ _ (fMaj_packI ..)]
    delta lone decShi
    simp only [fLen_packI, fD_packI, fA_packI, fImm_packI, fSz_packI, extract_0_6_packI, extract_6_8_packI, shi_lo, shi_mid, shi_hi]
    rfl
  exact ⟨e, len1 (fLen_packI ..)⟩
theorem roli (d : Reg) (a : Reg) (k : BitVec 6) : Statement (.roli d a k) := fun _ _ => by
  have e : decodeInstr (packI 0 0x06 d a ((3 : BitVec 2) ++ (0 : BitVec 8) ++ k)) 0 0 = some (.roli d a k) := by
    rw [decode_major_06 _ _ _ (fMaj_packI ..)]
    delta lone decShi
    simp only [fLen_packI, fD_packI, fA_packI, fImm_packI, fSz_packI, extract_0_6_packI, extract_6_8_packI, shi_lo, shi_mid, shi_hi]
    rfl
  exact ⟨e, len1 (fLen_packI ..)⟩
theorem popc (d : Reg) (a : Reg) : Statement (.popc d a) := fun _ _ => by
  have e : decodeInstr (packR 0x09 d a 0 0 0 0) 0 0 = some (.popc d a) := by
    rw [decode_major_09 _ _ _ (fMaj_packR ..)]
    delta lone decBit
    simp only [fLen_packR, fD_packR, fA_packR, fB_packR, fFn_packR, fW_packR, fC_packR, extract_0_2_packR, extract_2_2_packR, extract_0_3_packR, extract_3_1_packR, rfC_lo, rfC_hi, n1_lo, n1_hi]
    rfl
  exact ⟨e, len1 (fLen_packR ..)⟩
theorem clz (d : Reg) (a : Reg) : Statement (.clz d a) := fun _ _ => by
  have e : decodeInstr (packR 0x09 d a 0 1 0 0) 0 0 = some (.clz d a) := by
    rw [decode_major_09 _ _ _ (fMaj_packR ..)]
    delta lone decBit
    simp only [fLen_packR, fD_packR, fA_packR, fB_packR, fFn_packR, fW_packR, fC_packR, extract_0_2_packR, extract_2_2_packR, extract_0_3_packR, extract_3_1_packR, rfC_lo, rfC_hi, n1_lo, n1_hi]
    rfl
  exact ⟨e, len1 (fLen_packR ..)⟩
theorem ctz (d : Reg) (a : Reg) : Statement (.ctz d a) := fun _ _ => by
  have e : decodeInstr (packR 0x09 d a 0 2 0 0) 0 0 = some (.ctz d a) := by
    rw [decode_major_09 _ _ _ (fMaj_packR ..)]
    delta lone decBit
    simp only [fLen_packR, fD_packR, fA_packR, fB_packR, fFn_packR, fW_packR, fC_packR, extract_0_2_packR, extract_2_2_packR, extract_0_3_packR, extract_3_1_packR, rfC_lo, rfC_hi, n1_lo, n1_hi]
    rfl
  exact ⟨e, len1 (fLen_packR ..)⟩
theorem brev (d : Reg) (a : Reg) : Statement (.brev d a) := fun _ _ => by
  have e : decodeInstr (packR 0x09 d a 0 3 0 0) 0 0 = some (.brev d a) := by
    rw [decode_major_09 _ _ _ (fMaj_packR ..)]
    delta lone decBit
    simp only [fLen_packR, fD_packR, fA_packR, fB_packR, fFn_packR, fW_packR, fC_packR, extract_0_2_packR, extract_2_2_packR, extract_0_3_packR, extract_3_1_packR, rfC_lo, rfC_hi, n1_lo, n1_hi]
    rfl
  exact ⟨e, len1 (fLen_packR ..)⟩
theorem bswap (d : Reg) (a : Reg) : Statement (.bswap d a) := fun _ _ => by
  have e : decodeInstr (packR 0x09 d a 0 4 0 0) 0 0 = some (.bswap d a) := by
    rw [decode_major_09 _ _ _ (fMaj_packR ..)]
    delta lone decBit
    simp only [fLen_packR, fD_packR, fA_packR, fB_packR, fFn_packR, fW_packR, fC_packR, extract_0_2_packR, extract_2_2_packR, extract_0_3_packR, extract_3_1_packR, rfC_lo, rfC_hi, n1_lo, n1_hi]
    rfl
  exact ⟨e, len1 (fLen_packR ..)⟩
theorem bfxs (d : Reg) (a : Reg) (b : Reg) : Statement (.bfxs d a b) := fun _ _ => by
  have e : decodeInstr (packR 0x09 d a b 5 0 0) 0 0 = some (.bfxs d a b) := by
    rw [decode_major_09 _ _ _ (fMaj_packR ..)]
    delta lone decBit
    simp only [fLen_packR, fD_packR, fA_packR, fB_packR, fFn_packR, fW_packR, fC_packR, extract_0_2_packR, extract_2_2_packR, extract_0_3_packR, extract_3_1_packR, rfC_lo, rfC_hi, n1_lo, n1_hi]
    rfl
  exact ⟨e, len1 (fLen_packR ..)⟩
theorem bfxn (d : Reg) (a : Reg) (b : Reg) : Statement (.bfxn d a b) := fun _ _ => by
  have e : decodeInstr (packR 0x09 d a b 6 0 0) 0 0 = some (.bfxn d a b) := by
    rw [decode_major_09 _ _ _ (fMaj_packR ..)]
    delta lone decBit
    simp only [fLen_packR, fD_packR, fA_packR, fB_packR, fFn_packR, fW_packR, fC_packR, extract_0_2_packR, extract_2_2_packR, extract_0_3_packR, extract_3_1_packR, rfC_lo, rfC_hi, n1_lo, n1_hi]
    rfl
  exact ⟨e, len1 (fLen_packR ..)⟩
theorem bfi (d : Reg) (a : Reg) (b : Reg) : Statement (.bfi d a b) := fun _ _ => by
  have e : decodeInstr (packR 0x09 d a b 7 0 0) 0 0 = some (.bfi d a b) := by
    rw [decode_major_09 _ _ _ (fMaj_packR ..)]
    delta lone decBit
    simp only [fLen_packR, fD_packR, fA_packR, fB_packR, fFn_packR, fW_packR, fC_packR, extract_0_2_packR, extract_2_2_packR, extract_0_3_packR, extract_3_1_packR, rfC_lo, rfC_hi, n1_lo, n1_hi]
    rfl
  exact ⟨e, len1 (fLen_packR ..)⟩
theorem sel (d : Reg) (a : Reg) (b : Reg) (c : Reg) : Statement (.sel d a b c) := fun _ _ => by
  have e : decodeInstr (packR 0x09 d a b 8 0 c) 0 0 = some (.sel d a b c) := by
    rw [decode_major_09 _ _ _ (fMaj_packR ..)]
    delta lone decBit
    simp only [fLen_packR, fD_packR, fA_packR, fB_packR, fFn_packR, fW_packR, fC_packR, extract_0_2_packR, extract_2_2_packR, extract_0_3_packR, extract_3_1_packR, rfC_lo, rfC_hi, n1_lo, n1_hi]
    rfl
  exact ⟨e, len1 (fLen_packR ..)⟩
theorem br (disp : BitVec 16) : Statement (.br disp) := fun _ _ => by
  have e : decodeInstr (packI 0 0x0A 0 0 disp) 0 0 = some (.br disp) := by
    rw [decode_major_0a _ _ _ (fMaj_packI ..)]
    delta lone decBr
    simp only [fLen_packI, fD_packI, fA_packI, fImm_packI, fSz_packI, extract_0_6_packI, extract_6_8_packI, shi_lo, shi_mid, shi_hi]
    rfl
  exact ⟨e, len1 (fLen_packI ..)⟩
theorem beqz (a : Reg) (disp : BitVec 16) : Statement (.beqz a disp) := fun _ _ => by
  have e : decodeInstr (packI 0 0x0A a 1 disp) 0 0 = some (.beqz a disp) := by
    rw [decode_major_0a _ _ _ (fMaj_packI ..)]
    delta lone decBr
    simp only [fLen_packI, fD_packI, fA_packI, fImm_packI, fSz_packI, extract_0_6_packI, extract_6_8_packI, shi_lo, shi_mid, shi_hi]
    rfl
  exact ⟨e, len1 (fLen_packI ..)⟩
theorem bnez (a : Reg) (disp : BitVec 16) : Statement (.bnez a disp) := fun _ _ => by
  have e : decodeInstr (packI 0 0x0A a 2 disp) 0 0 = some (.bnez a disp) := by
    rw [decode_major_0a _ _ _ (fMaj_packI ..)]
    delta lone decBr
    simp only [fLen_packI, fD_packI, fA_packI, fImm_packI, fSz_packI, extract_0_6_packI, extract_6_8_packI, shi_lo, shi_mid, shi_hi]
    rfl
  exact ⟨e, len1 (fLen_packI ..)⟩
theorem bltz (a : Reg) (disp : BitVec 16) : Statement (.bltz a disp) := fun _ _ => by
  have e : decodeInstr (packI 0 0x0A a 3 disp) 0 0 = some (.bltz a disp) := by
    rw [decode_major_0a _ _ _ (fMaj_packI ..)]
    delta lone decBr
    simp only [fLen_packI, fD_packI, fA_packI, fImm_packI, fSz_packI, extract_0_6_packI, extract_6_8_packI, shi_lo, shi_mid, shi_hi]
    rfl
  exact ⟨e, len1 (fLen_packI ..)⟩
theorem bgez (a : Reg) (disp : BitVec 16) : Statement (.bgez a disp) := fun _ _ => by
  have e : decodeInstr (packI 0 0x0A a 4 disp) 0 0 = some (.bgez a disp) := by
    rw [decode_major_0a _ _ _ (fMaj_packI ..)]
    delta lone decBr
    simp only [fLen_packI, fD_packI, fA_packI, fImm_packI, fSz_packI, extract_0_6_packI, extract_6_8_packI, shi_lo, shi_mid, shi_hi]
    rfl
  exact ⟨e, len1 (fLen_packI ..)⟩
theorem bgtz (a : Reg) (disp : BitVec 16) : Statement (.bgtz a disp) := fun _ _ => by
  have e : decodeInstr (packI 0 0x0A a 5 disp) 0 0 = some (.bgtz a disp) := by
    rw [decode_major_0a _ _ _ (fMaj_packI ..)]
    delta lone decBr
    simp only [fLen_packI, fD_packI, fA_packI, fImm_packI, fSz_packI, extract_0_6_packI, extract_6_8_packI, shi_lo, shi_mid, shi_hi]
    rfl
  exact ⟨e, len1 (fLen_packI ..)⟩
theorem blez (a : Reg) (disp : BitVec 16) : Statement (.blez a disp) := fun _ _ => by
  have e : decodeInstr (packI 0 0x0A a 6 disp) 0 0 = some (.blez a disp) := by
    rw [decode_major_0a _ _ _ (fMaj_packI ..)]
    delta lone decBr
    simp only [fLen_packI, fD_packI, fA_packI, fImm_packI, fSz_packI, extract_0_6_packI, extract_6_8_packI, shi_lo, shi_mid, shi_hi]
    rfl
  exact ⟨e, len1 (fLen_packI ..)⟩
theorem call (disp : BitVec 24) : Statement (.call disp) := fun _ _ => by
  have e : decodeInstr ((0 : BitVec 2) ++ (0x0B : BitVec 6) ++ disp : IWord) 0 0 = some (.call disp) := by
    rw [decode_major_0b _ _ _ (fMaj_callWord ..)]
    delta lone
    simp only [fLen_callWord, fDisp24_callWord]
    rfl
  exact ⟨e, len1 (fLen_callWord ..)⟩
theorem jmpr (a : Reg) : Statement (.jmpr a) := fun _ _ => by
  have e : decodeInstr (packR 0x0C 0 a 0 0 0 0) 0 0 = some (.jmpr a) := by
    rw [decode_major_0c _ _ _ (fMaj_packR ..)]
    delta lone decJmp
    simp only [fLen_packR, fD_packR, fA_packR, fB_packR, fFn_packR, fW_packR, fC_packR, extract_0_2_packR, extract_2_2_packR, extract_0_3_packR, extract_3_1_packR, rfC_lo, rfC_hi, n1_lo, n1_hi]
    rfl
  exact ⟨e, len1 (fLen_packR ..)⟩
theorem callr (a : Reg) : Statement (.callr a) := fun _ _ => by
  have e : decodeInstr (packR 0x0C 0 a 0 1 0 0) 0 0 = some (.callr a) := by
    rw [decode_major_0c _ _ _ (fMaj_packR ..)]
    delta lone decJmp
    simp only [fLen_packR, fD_packR, fA_packR, fB_packR, fFn_packR, fW_packR, fC_packR, extract_0_2_packR, extract_2_2_packR, extract_0_3_packR, extract_3_1_packR, rfC_lo, rfC_hi, n1_lo, n1_hi]
    rfl
  exact ⟨e, len1 (fLen_packR ..)⟩
theorem ret : Statement (.ret) := fun _ _ => by
  have e : decodeInstr (packR 0x0C 0 0 0 2 0 0) 0 0 = some (.ret) := by
    rw [decode_major_0c _ _ _ (fMaj_packR ..)]
    delta lone decJmp
    simp only [fLen_packR, fD_packR, fA_packR, fB_packR, fFn_packR, fW_packR, fC_packR, extract_0_2_packR, extract_2_2_packR, extract_0_3_packR, extract_3_1_packR, rfC_lo, rfC_hi, n1_lo, n1_hi]
    rfl
  exact ⟨e, len1 (fLen_packR ..)⟩
theorem ld (d : Reg) (a : Reg) (sz : BitVec 2) (off : BitVec 12) : Statement (.ld d a sz off) := fun _ _ => by
  have e : decodeInstr (packM 0 0x0D d a sz 0 off) 0 0 = some (.ld d a sz off) := by
    rw [decode_major_0d _ _ _ (fMaj_packM ..)]
    delta decLd decMem
    simp only [fLen_packM, fD_packM, fA_packM, fSz_packM, fOp_packM, fOff_packM]
    rfl
  exact ⟨e, len1 (fLen_packM ..)⟩
theorem ldLiteral (d : Reg) (a : Reg) (sz : BitVec 2) (l : Word) : Statement (.ldLiteral d a sz l) := fun _ _ => by
  have e : decodeInstr (packM 2 0x0D d a sz 0 0) (l.extractLsb' 0 32) (l.extractLsb' 32 32) = some (.ldLiteral d a sz l) := by
    rw [decode_major_0d _ _ _ (fMaj_packM ..)]
    delta decLd decMem
    simp only [fLen_packM, fD_packM, fA_packM, fSz_packM, fOp_packM, fOff_packM, literal_halves]
    rfl
  exact ⟨e, len3 (.inr (fLen_packM ..))⟩
theorem ldSigned (d : Reg) (a : Reg) (sz : BitVec 2) (off : BitVec 12) : Statement (.ldSigned d a sz off) := fun hw _ => by
  have e : decodeInstr (packM 0 0x0D d a sz 2 off) 0 0 = some (.ldSigned d a sz off) := by
    rw [decode_major_0d _ _ _ (fMaj_packM ..)]
    delta decLd decMem
    simp only [fLen_packM, fD_packM, fA_packM, fSz_packM, fOp_packM, fOff_packM]
    have hk : (sz != 3) = true := hw
    exact if_neg (by simpa using hk)
  exact ⟨e, len1 (fLen_packM ..)⟩
theorem ldSignedLiteral (d : Reg) (a : Reg) (sz : BitVec 2) (l : Word) : Statement (.ldSignedLiteral d a sz l) := fun hw _ => by
  have e : decodeInstr (packM 2 0x0D d a sz 2 0) (l.extractLsb' 0 32) (l.extractLsb' 32 32) = some (.ldSignedLiteral d a sz l) := by
    rw [decode_major_0d _ _ _ (fMaj_packM ..)]
    delta decLd decMem
    simp only [fLen_packM, fD_packM, fA_packM, fSz_packM, fOp_packM, fOff_packM, literal_halves]
    have hk : (sz != 3) = true := hw
    exact if_neg (by simpa using hk)
  exact ⟨e, len3 (.inr (fLen_packM ..))⟩
theorem st (d : Reg) (a : Reg) (sz : BitVec 2) (off : BitVec 12) : Statement (.st d a sz off) := fun _ _ => by
  have e : decodeInstr (packM 0 0x0E d a sz 0 off) 0 0 = some (.st d a sz off) := by
    rw [decode_major_0e _ _ _ (fMaj_packM ..)]
    delta decSt decMem
    simp only [fLen_packM, fD_packM, fA_packM, fSz_packM, fOp_packM, fOff_packM]
    rfl
  exact ⟨e, len1 (fLen_packM ..)⟩
theorem stLiteral (d : Reg) (a : Reg) (sz : BitVec 2) (l : Word) : Statement (.stLiteral d a sz l) := fun _ _ => by
  have e : decodeInstr (packM 2 0x0E d a sz 0 0) (l.extractLsb' 0 32) (l.extractLsb' 32 32) = some (.stLiteral d a sz l) := by
    rw [decode_major_0e _ _ _ (fMaj_packM ..)]
    delta decSt decMem
    simp only [fLen_packM, fD_packM, fA_packM, fSz_packM, fOp_packM, fOff_packM, literal_halves]
    rfl
  exact ⟨e, len3 (.inr (fLen_packM ..))⟩
theorem ldf (d : Reg) (a : Reg) (sz : BitVec 2) (off : BitVec 12) : Statement (.ldf d a sz off) := fun _ _ => by
  have e : decodeInstr (packM 0 0x0F d a sz 0 off) 0 0 = some (.ldf d a sz off) := by
    rw [decode_major_0f _ _ _ (fMaj_packM ..)]
    delta decSld decMem
    simp only [fLen_packM, fD_packM, fA_packM, fSz_packM, fOp_packM, fOff_packM]
    rfl
  exact ⟨e, len1 (fLen_packM ..)⟩
theorem ldfLiteral (d : Reg) (a : Reg) (sz : BitVec 2) (l : Word) : Statement (.ldfLiteral d a sz l) := fun _ _ => by
  have e : decodeInstr (packM 2 0x0F d a sz 0 0) (l.extractLsb' 0 32) (l.extractLsb' 32 32) = some (.ldfLiteral d a sz l) := by
    rw [decode_major_0f _ _ _ (fMaj_packM ..)]
    delta decSld decMem
    simp only [fLen_packM, fD_packM, fA_packM, fSz_packM, fOp_packM, fOff_packM, literal_halves]
    rfl
  exact ⟨e, len3 (.inr (fLen_packM ..))⟩
theorem lde (d : Reg) (a : Reg) (sz : BitVec 2) (off : BitVec 12) : Statement (.lde d a sz off) := fun _ _ => by
  have e : decodeInstr (packM 0 0x0F d a sz 1 off) 0 0 = some (.lde d a sz off) := by
    rw [decode_major_0f _ _ _ (fMaj_packM ..)]
    delta decSld decMem
    simp only [fLen_packM, fD_packM, fA_packM, fSz_packM, fOp_packM, fOff_packM]
    rfl
  exact ⟨e, len1 (fLen_packM ..)⟩
theorem ldeLiteral (d : Reg) (a : Reg) (sz : BitVec 2) (l : Word) : Statement (.ldeLiteral d a sz l) := fun _ _ => by
  have e : decodeInstr (packM 2 0x0F d a sz 1 0) (l.extractLsb' 0 32) (l.extractLsb' 32 32) = some (.ldeLiteral d a sz l) := by
    rw [decode_major_0f _ _ _ (fMaj_packM ..)]
    delta decSld decMem
    simp only [fLen_packM, fD_packM, fA_packM, fSz_packM, fOp_packM, fOff_packM, literal_halves]
    rfl
  exact ⟨e, len3 (.inr (fLen_packM ..))⟩
theorem feq (d : Reg) (a : Reg) (off : BitVec 12) : Statement (.feq d a off) := fun _ _ => by
  have e : decodeInstr (packM 0 0x0F d a 3 2 off) 0 0 = some (.feq d a off) := by
    rw [decode_major_0f _ _ _ (fMaj_packM ..)]
    delta decSld decMem
    simp only [fLen_packM, fD_packM, fA_packM, fSz_packM, fOp_packM, fOff_packM]
    rfl
  exact ⟨e, len1 (fLen_packM ..)⟩
theorem feqLiteral (d : Reg) (a : Reg) (l : Word) : Statement (.feqLiteral d a l) := fun _ _ => by
  have e : decodeInstr (packM 2 0x0F d a 3 2 0) (l.extractLsb' 0 32) (l.extractLsb' 32 32) = some (.feqLiteral d a l) := by
    rw [decode_major_0f _ _ _ (fMaj_packM ..)]
    delta decSld decMem
    simp only [fLen_packM, fD_packM, fA_packM, fSz_packM, fOp_packM, fOff_packM, literal_halves]
    rfl
  exact ⟨e, len3 (.inr (fLen_packM ..))⟩
theorem stf (d : Reg) (a : Reg) (sz : BitVec 2) (off : BitVec 12) : Statement (.stf d a sz off) := fun _ _ => by
  have e : decodeInstr (packM 0 0x10 d a sz 0 off) 0 0 = some (.stf d a sz off) := by
    rw [decode_major_10 _ _ _ (fMaj_packM ..)]
    delta decSst decMem
    simp only [fLen_packM, fD_packM, fA_packM, fSz_packM, fOp_packM, fOff_packM]
    rfl
  exact ⟨e, len1 (fLen_packM ..)⟩
theorem stfLiteral (d : Reg) (a : Reg) (sz : BitVec 2) (l : Word) : Statement (.stfLiteral d a sz l) := fun _ _ => by
  have e : decodeInstr (packM 2 0x10 d a sz 0 0) (l.extractLsb' 0 32) (l.extractLsb' 32 32) = some (.stfLiteral d a sz l) := by
    rw [decode_major_10 _ _ _ (fMaj_packM ..)]
    delta decSst decMem
    simp only [fLen_packM, fD_packM, fA_packM, fSz_packM, fOp_packM, fOff_packM, literal_halves]
    rfl
  exact ⟨e, len3 (.inr (fLen_packM ..))⟩
theorem stw (d : Reg) (a : Reg) (sz : BitVec 2) (off : BitVec 12) : Statement (.stw d a sz off) := fun _ _ => by
  have e : decodeInstr (packM 0 0x10 d a sz 1 off) 0 0 = some (.stw d a sz off) := by
    rw [decode_major_10 _ _ _ (fMaj_packM ..)]
    delta decSst decMem
    simp only [fLen_packM, fD_packM, fA_packM, fSz_packM, fOp_packM, fOff_packM]
    rfl
  exact ⟨e, len1 (fLen_packM ..)⟩
theorem stwLiteral (d : Reg) (a : Reg) (sz : BitVec 2) (l : Word) : Statement (.stwLiteral d a sz l) := fun _ _ => by
  have e : decodeInstr (packM 2 0x10 d a sz 1 0) (l.extractLsb' 0 32) (l.extractLsb' 32 32) = some (.stwLiteral d a sz l) := by
    rw [decode_major_10 _ _ _ (fMaj_packM ..)]
    delta decSst decMem
    simp only [fLen_packM, fD_packM, fA_packM, fSz_packM, fOp_packM, fOff_packM, literal_halves]
    rfl
  exact ⟨e, len3 (.inr (fLen_packM ..))⟩
theorem fec (a : Reg) (off : BitVec 12) : Statement (.fec a off) := fun _ _ => by
  have e : decodeInstr (packM 0 0x10 0 a 3 2 off) 0 0 = some (.fec a off) := by
    rw [decode_major_10 _ _ _ (fMaj_packM ..)]
    delta decSst decMem
    simp only [fLen_packM, fD_packM, fA_packM, fSz_packM, fOp_packM, fOff_packM]
    rfl
  exact ⟨e, len1 (fLen_packM ..)⟩
theorem fecLiteral (a : Reg) (l : Word) : Statement (.fecLiteral a l) := fun _ _ => by
  have e : decodeInstr (packM 2 0x10 0 a 3 2 0) (l.extractLsb' 0 32) (l.extractLsb' 32 32) = some (.fecLiteral a l) := by
    rw [decode_major_10 _ _ _ (fMaj_packM ..)]
    delta decSst decMem
    simp only [fLen_packM, fD_packM, fA_packM, fSz_packM, fOp_packM, fOff_packM, literal_halves]
    rfl
  exact ⟨e, len3 (.inr (fLen_packM ..))⟩
theorem aadd (d : Reg) (a : Reg) (b : Reg) (w : Bool) : Statement (.aadd d a b w) := fun _ _ => by
  have e : decodeInstr (packR 0x11 d a b 0 (wBit w) 0) 0 0 = some (.aadd d a b w) := by
    rw [decode_major_11 _ _ _ (fMaj_packR ..)]
    delta lone decAmo
    simp only [fLen_packR, fD_packR, fA_packR, fB_packR, fFn_packR, fW_packR, fC_packR, extract_0_2_packR, extract_2_2_packR, extract_0_3_packR, extract_3_1_packR, rfC_lo, rfC_hi, n1_lo, n1_hi]
    cases w <;> rfl
  exact ⟨e, len1 (fLen_packR ..)⟩
theorem aand (d : Reg) (a : Reg) (b : Reg) (w : Bool) : Statement (.aand d a b w) := fun _ _ => by
  have e : decodeInstr (packR 0x11 d a b 1 (wBit w) 0) 0 0 = some (.aand d a b w) := by
    rw [decode_major_11 _ _ _ (fMaj_packR ..)]
    delta lone decAmo
    simp only [fLen_packR, fD_packR, fA_packR, fB_packR, fFn_packR, fW_packR, fC_packR, extract_0_2_packR, extract_2_2_packR, extract_0_3_packR, extract_3_1_packR, rfC_lo, rfC_hi, n1_lo, n1_hi]
    cases w <;> rfl
  exact ⟨e, len1 (fLen_packR ..)⟩
theorem aor (d : Reg) (a : Reg) (b : Reg) (w : Bool) : Statement (.aor d a b w) := fun _ _ => by
  have e : decodeInstr (packR 0x11 d a b 2 (wBit w) 0) 0 0 = some (.aor d a b w) := by
    rw [decode_major_11 _ _ _ (fMaj_packR ..)]
    delta lone decAmo
    simp only [fLen_packR, fD_packR, fA_packR, fB_packR, fFn_packR, fW_packR, fC_packR, extract_0_2_packR, extract_2_2_packR, extract_0_3_packR, extract_3_1_packR, rfC_lo, rfC_hi, n1_lo, n1_hi]
    cases w <;> rfl
  exact ⟨e, len1 (fLen_packR ..)⟩
theorem axor (d : Reg) (a : Reg) (b : Reg) (w : Bool) : Statement (.axor d a b w) := fun _ _ => by
  have e : decodeInstr (packR 0x11 d a b 3 (wBit w) 0) 0 0 = some (.axor d a b w) := by
    rw [decode_major_11 _ _ _ (fMaj_packR ..)]
    delta lone decAmo
    simp only [fLen_packR, fD_packR, fA_packR, fB_packR, fFn_packR, fW_packR, fC_packR, extract_0_2_packR, extract_2_2_packR, extract_0_3_packR, extract_3_1_packR, rfC_lo, rfC_hi, n1_lo, n1_hi]
    cases w <;> rfl
  exact ⟨e, len1 (fLen_packR ..)⟩
theorem amins (d : Reg) (a : Reg) (b : Reg) (w : Bool) : Statement (.amins d a b w) := fun _ _ => by
  have e : decodeInstr (packR 0x11 d a b 4 (wBit w) 0) 0 0 = some (.amins d a b w) := by
    rw [decode_major_11 _ _ _ (fMaj_packR ..)]
    delta lone decAmo
    simp only [fLen_packR, fD_packR, fA_packR, fB_packR, fFn_packR, fW_packR, fC_packR, extract_0_2_packR, extract_2_2_packR, extract_0_3_packR, extract_3_1_packR, rfC_lo, rfC_hi, n1_lo, n1_hi]
    cases w <;> rfl
  exact ⟨e, len1 (fLen_packR ..)⟩
theorem amaxs (d : Reg) (a : Reg) (b : Reg) (w : Bool) : Statement (.amaxs d a b w) := fun _ _ => by
  have e : decodeInstr (packR 0x11 d a b 5 (wBit w) 0) 0 0 = some (.amaxs d a b w) := by
    rw [decode_major_11 _ _ _ (fMaj_packR ..)]
    delta lone decAmo
    simp only [fLen_packR, fD_packR, fA_packR, fB_packR, fFn_packR, fW_packR, fC_packR, extract_0_2_packR, extract_2_2_packR, extract_0_3_packR, extract_3_1_packR, rfC_lo, rfC_hi, n1_lo, n1_hi]
    cases w <;> rfl
  exact ⟨e, len1 (fLen_packR ..)⟩
theorem aminn (d : Reg) (a : Reg) (b : Reg) (w : Bool) : Statement (.aminn d a b w) := fun _ _ => by
  have e : decodeInstr (packR 0x11 d a b 6 (wBit w) 0) 0 0 = some (.aminn d a b w) := by
    rw [decode_major_11 _ _ _ (fMaj_packR ..)]
    delta lone decAmo
    simp only [fLen_packR, fD_packR, fA_packR, fB_packR, fFn_packR, fW_packR, fC_packR, extract_0_2_packR, extract_2_2_packR, extract_0_3_packR, extract_3_1_packR, rfC_lo, rfC_hi, n1_lo, n1_hi]
    cases w <;> rfl
  exact ⟨e, len1 (fLen_packR ..)⟩
theorem amaxn (d : Reg) (a : Reg) (b : Reg) (w : Bool) : Statement (.amaxn d a b w) := fun _ _ => by
  have e : decodeInstr (packR 0x11 d a b 7 (wBit w) 0) 0 0 = some (.amaxn d a b w) := by
    rw [decode_major_11 _ _ _ (fMaj_packR ..)]
    delta lone decAmo
    simp only [fLen_packR, fD_packR, fA_packR, fB_packR, fFn_packR, fW_packR, fC_packR, extract_0_2_packR, extract_2_2_packR, extract_0_3_packR, extract_3_1_packR, rfC_lo, rfC_hi, n1_lo, n1_hi]
    cases w <;> rfl
  exact ⟨e, len1 (fLen_packR ..)⟩
theorem aswap (d : Reg) (a : Reg) (b : Reg) (w : Bool) : Statement (.aswap d a b w) := fun _ _ => by
  have e : decodeInstr (packR 0x11 d a b 8 (wBit w) 0) 0 0 = some (.aswap d a b w) := by
    rw [decode_major_11 _ _ _ (fMaj_packR ..)]
    delta lone decAmo
    simp only [fLen_packR, fD_packR, fA_packR, fB_packR, fFn_packR, fW_packR, fC_packR, extract_0_2_packR, extract_2_2_packR, extract_0_3_packR, extract_3_1_packR, rfC_lo, rfC_hi, n1_lo, n1_hi]
    cases w <;> rfl
  exact ⟨e, len1 (fLen_packR ..)⟩
theorem acas (d : Reg) (a : Reg) (b : Reg) (c : Reg) (w : Bool) : Statement (.acas d a b c w) := fun _ _ => by
  have e : decodeInstr (packR 0x11 d a b 9 (wBit w) c) 0 0 = some (.acas d a b c w) := by
    rw [decode_major_11 _ _ _ (fMaj_packR ..)]
    delta lone decAmo
    simp only [fLen_packR, fD_packR, fA_packR, fB_packR, fFn_packR, fW_packR, fC_packR, extract_0_2_packR, extract_2_2_packR, extract_0_3_packR, extract_3_1_packR, rfC_lo, rfC_hi, n1_lo, n1_hi]
    cases w <;> rfl
  exact ⟨e, len1 (fLen_packR ..)⟩
theorem afadd (d : Reg) (a : Reg) (b : Reg) (w : Bool) : Statement (.afadd d a b w) := fun _ _ => by
  have e : decodeInstr (packR 0x11 d a b 10 (wBit w) 0) 0 0 = some (.afadd d a b w) := by
    rw [decode_major_11 _ _ _ (fMaj_packR ..)]
    delta lone decAmo
    simp only [fLen_packR, fD_packR, fA_packR, fB_packR, fFn_packR, fW_packR, fC_packR, extract_0_2_packR, extract_2_2_packR, extract_0_3_packR, extract_3_1_packR, rfC_lo, rfC_hi, n1_lo, n1_hi]
    cases w <;> rfl
  exact ⟨e, len1 (fLen_packR ..)⟩
theorem afmin (d : Reg) (a : Reg) (b : Reg) (w : Bool) : Statement (.afmin d a b w) := fun _ _ => by
  have e : decodeInstr (packR 0x11 d a b 11 (wBit w) 0) 0 0 = some (.afmin d a b w) := by
    rw [decode_major_11 _ _ _ (fMaj_packR ..)]
    delta lone decAmo
    simp only [fLen_packR, fD_packR, fA_packR, fB_packR, fFn_packR, fW_packR, fC_packR, extract_0_2_packR, extract_2_2_packR, extract_0_3_packR, extract_3_1_packR, rfC_lo, rfC_hi, n1_lo, n1_hi]
    cases w <;> rfl
  exact ⟨e, len1 (fLen_packR ..)⟩
theorem afmax (d : Reg) (a : Reg) (b : Reg) (w : Bool) : Statement (.afmax d a b w) := fun _ _ => by
  have e : decodeInstr (packR 0x11 d a b 12 (wBit w) 0) 0 0 = some (.afmax d a b w) := by
    rw [decode_major_11 _ _ _ (fMaj_packR ..)]
    delta lone decAmo
    simp only [fLen_packR, fD_packR, fA_packR, fB_packR, fFn_packR, fW_packR, fC_packR, extract_0_2_packR, extract_2_2_packR, extract_0_3_packR, extract_3_1_packR, rfC_lo, rfC_hi, n1_lo, n1_hi]
    cases w <;> rfl
  exact ⟨e, len1 (fLen_packR ..)⟩
theorem dadd (a : Reg) (b : Reg) (c : Reg) (w : Bool) : Statement (.dadd a b c w) := fun _ _ => by
  have e : decodeInstr (packR 0x12 0 a b 0 (wBit w) c) 0 0 = some (.dadd a b c w) := by
    rw [decode_major_12 _ _ _ (fMaj_packR ..)]
    delta lone decDup
    simp only [fLen_packR, fD_packR, fA_packR, fB_packR, fFn_packR, fW_packR, fC_packR, extract_0_2_packR, extract_2_2_packR, extract_0_3_packR, extract_3_1_packR, rfC_lo, rfC_hi, n1_lo, n1_hi]
    cases w <;> rfl
  exact ⟨e, len1 (fLen_packR ..)⟩
theorem dfadd (a : Reg) (b : Reg) (c : Reg) : Statement (.dfadd a b c) := fun _ _ => by
  have e : decodeInstr (packR 0x12 0 a b 1 1 c) 0 0 = some (.dfadd a b c) := by
    rw [decode_major_12 _ _ _ (fMaj_packR ..)]
    delta lone decDup
    simp only [fLen_packR, fD_packR, fA_packR, fB_packR, fFn_packR, fW_packR, fC_packR, extract_0_2_packR, extract_2_2_packR, extract_0_3_packR, extract_3_1_packR, rfC_lo, rfC_hi, n1_lo, n1_hi]
    rfl
  exact ⟨e, len1 (fLen_packR ..)⟩
theorem dmins (a : Reg) (b : Reg) (c : Reg) (w : Bool) : Statement (.dmins a b c w) := fun _ _ => by
  have e : decodeInstr (packR 0x12 0 a b 2 (wBit w) c) 0 0 = some (.dmins a b c w) := by
    rw [decode_major_12 _ _ _ (fMaj_packR ..)]
    delta lone decDup
    simp only [fLen_packR, fD_packR, fA_packR, fB_packR, fFn_packR, fW_packR, fC_packR, extract_0_2_packR, extract_2_2_packR, extract_0_3_packR, extract_3_1_packR, rfC_lo, rfC_hi, n1_lo, n1_hi]
    cases w <;> rfl
  exact ⟨e, len1 (fLen_packR ..)⟩
theorem dmaxs (a : Reg) (b : Reg) (c : Reg) (w : Bool) : Statement (.dmaxs a b c w) := fun _ _ => by
  have e : decodeInstr (packR 0x12 0 a b 3 (wBit w) c) 0 0 = some (.dmaxs a b c w) := by
    rw [decode_major_12 _ _ _ (fMaj_packR ..)]
    delta lone decDup
    simp only [fLen_packR, fD_packR, fA_packR, fB_packR, fFn_packR, fW_packR, fC_packR, extract_0_2_packR, extract_2_2_packR, extract_0_3_packR, extract_3_1_packR, rfC_lo, rfC_hi, n1_lo, n1_hi]
    cases w <;> rfl
  exact ⟨e, len1 (fLen_packR ..)⟩
theorem dfmin (a : Reg) (b : Reg) (c : Reg) : Statement (.dfmin a b c) := fun _ _ => by
  have e : decodeInstr (packR 0x12 0 a b 4 1 c) 0 0 = some (.dfmin a b c) := by
    rw [decode_major_12 _ _ _ (fMaj_packR ..)]
    delta lone decDup
    simp only [fLen_packR, fD_packR, fA_packR, fB_packR, fFn_packR, fW_packR, fC_packR, extract_0_2_packR, extract_2_2_packR, extract_0_3_packR, extract_3_1_packR, rfC_lo, rfC_hi, n1_lo, n1_hi]
    rfl
  exact ⟨e, len1 (fLen_packR ..)⟩
theorem dfmax (a : Reg) (b : Reg) (c : Reg) : Statement (.dfmax a b c) := fun _ _ => by
  have e : decodeInstr (packR 0x12 0 a b 5 1 c) 0 0 = some (.dfmax a b c) := by
    rw [decode_major_12 _ _ _ (fMaj_packR ..)]
    delta lone decDup
    simp only [fLen_packR, fD_packR, fA_packR, fB_packR, fFn_packR, fW_packR, fC_packR, extract_0_2_packR, extract_2_2_packR, extract_0_3_packR, extract_3_1_packR, rfC_lo, rfC_hi, n1_lo, n1_hi]
    rfl
  exact ⟨e, len1 (fLen_packR ..)⟩
theorem dor (a : Reg) (b : Reg) (c : Reg) (w : Bool) : Statement (.dor a b c w) := fun _ _ => by
  have e : decodeInstr (packR 0x12 0 a b 6 (wBit w) c) 0 0 = some (.dor a b c w) := by
    rw [decode_major_12 _ _ _ (fMaj_packR ..)]
    delta lone decDup
    simp only [fLen_packR, fD_packR, fA_packR, fB_packR, fFn_packR, fW_packR, fC_packR, extract_0_2_packR, extract_2_2_packR, extract_0_3_packR, extract_3_1_packR, rfC_lo, rfC_hi, n1_lo, n1_hi]
    cases w <;> rfl
  exact ⟨e, len1 (fLen_packR ..)⟩
theorem dstore (a : Reg) (b : Reg) (c : Reg) (sz : BitVec 2) : Statement (.dstore a b c sz) := fun _ _ => by
  have e : decodeInstr (packR 0x12 0 a b 7 sz c) 0 0 = some (.dstore a b c sz) := by
    rw [decode_major_12 _ _ _ (fMaj_packR ..)]
    delta lone decDup
    simp only [fLen_packR, fD_packR, fA_packR, fB_packR, fFn_packR, fW_packR, fC_packR, extract_0_2_packR, extract_2_2_packR, extract_0_3_packR, extract_3_1_packR, rfC_lo, rfC_hi, n1_lo, n1_hi]
    rfl
  exact ⟨e, len1 (fLen_packR ..)⟩
theorem fence : Statement (.fence) := fun _ _ => by
  have e : decodeInstr (packR 0x13 0 0 0 0 0 0) 0 0 = some (.fence) := by
    rw [decode_major_13 _ _ _ (fMaj_packR ..)]
    delta lone decOrd
    simp only [fLen_packR, fD_packR, fA_packR, fB_packR, fFn_packR, fW_packR, fC_packR, extract_0_2_packR, extract_2_2_packR, extract_0_3_packR, extract_3_1_packR, rfC_lo, rfC_hi, n1_lo, n1_hi]
    rfl
  exact ⟨e, len1 (fLen_packR ..)⟩
theorem drain : Statement (.drain) := fun _ _ => by
  have e : decodeInstr (packR 0x13 0 0 0 1 0 0) 0 0 = some (.drain) := by
    rw [decode_major_13 _ _ _ (fMaj_packR ..)]
    delta lone decOrd
    simp only [fLen_packR, fD_packR, fA_packR, fB_packR, fFn_packR, fW_packR, fC_packR, extract_0_2_packR, extract_2_2_packR, extract_0_3_packR, extract_3_1_packR, rfC_lo, rfC_hi, n1_lo, n1_hi]
    rfl
  exact ⟨e, len1 (fLen_packR ..)⟩
theorem waita : Statement (.waita) := fun _ _ => by
  have e : decodeInstr (packR 0x13 0 0 0 2 0 0) 0 0 = some (.waita) := by
    rw [decode_major_13 _ _ _ (fMaj_packR ..)]
    delta lone decOrd
    simp only [fLen_packR, fD_packR, fA_packR, fB_packR, fFn_packR, fW_packR, fC_packR, extract_0_2_packR, extract_2_2_packR, extract_0_3_packR, extract_3_1_packR, rfC_lo, rfC_hi, n1_lo, n1_hi]
    rfl
  exact ⟨e, len1 (fLen_packR ..)⟩
theorem send (a : Reg) (b : Reg) (n1 : BitVec 3) : Statement (.send a b n1) := fun hw _ => by
  have e : decodeInstr (packR 0x14 0 a b 0 0 ((0 : BitVec 1) ++ n1)) 0 0 = some (.send a b n1) := by
    rw [decode_major_14 _ _ _ (fMaj_packR ..)]
    delta lone decChn
    simp only [fLen_packR, fD_packR, fA_packR, fB_packR, fFn_packR, fW_packR, fC_packR, extract_0_2_packR, extract_2_2_packR, extract_0_3_packR, extract_3_1_packR, rfC_lo, rfC_hi, n1_lo, n1_hi]
    have hk : (decide (b.toNat + n1.toNat ≤ 15)) = true := hw
    exact guardI_true (by simp [hk])
  exact ⟨e, len1 (fLen_packR ..)⟩
theorem recv (d : Reg) (a : Reg) : Statement (.recv d a) := fun _ _ => by
  have e : decodeInstr (packR 0x14 d a 0 1 0 0) 0 0 = some (.recv d a) := by
    rw [decode_major_14 _ _ _ (fMaj_packR ..)]
    delta lone decChn
    simp only [fLen_packR, fD_packR, fA_packR, fB_packR, fFn_packR, fW_packR, fC_packR, extract_0_2_packR, extract_2_2_packR, extract_0_3_packR, extract_3_1_packR, rfC_lo, rfC_hi, n1_lo, n1_hi]
    rfl
  exact ⟨e, len1 (fLen_packR ..)⟩
theorem recvt (d : Reg) (a : Reg) (c : Reg) : Statement (.recvt d a c) := fun _ _ => by
  have e : decodeInstr (packR 0x14 d a 0 2 0 c) 0 0 = some (.recvt d a c) := by
    rw [decode_major_14 _ _ _ (fMaj_packR ..)]
    delta lone decChn
    simp only [fLen_packR, fD_packR, fA_packR, fB_packR, fFn_packR, fW_packR, fC_packR, extract_0_2_packR, extract_2_2_packR, extract_0_3_packR, extract_3_1_packR, rfC_lo, rfC_hi, n1_lo, n1_hi]
    rfl
  exact ⟨e, len1 (fLen_packR ..)⟩
theorem chq (d : Reg) (a : Reg) : Statement (.chq d a) := fun _ _ => by
  have e : decodeInstr (packR 0x14 d a 0 3 0 0) 0 0 = some (.chq d a) := by
    rw [decode_major_14 _ _ _ (fMaj_packR ..)]
    delta lone decChn
    simp only [fLen_packR, fD_packR, fA_packR, fB_packR, fFn_packR, fW_packR, fC_packR, extract_0_2_packR, extract_2_2_packR, extract_0_3_packR, extract_3_1_packR, rfC_lo, rfC_hi, n1_lo, n1_hi]
    rfl
  exact ⟨e, len1 (fLen_packR ..)⟩
theorem chbind (d : Reg) (a : Reg) (b : Reg) : Statement (.chbind d a b) := fun _ _ => by
  have e : decodeInstr (packR 0x14 d a b 4 0 0) 0 0 = some (.chbind d a b) := by
    rw [decode_major_14 _ _ _ (fMaj_packR ..)]
    delta lone decChn
    simp only [fLen_packR, fD_packR, fA_packR, fB_packR, fFn_packR, fW_packR, fC_packR, extract_0_2_packR, extract_2_2_packR, extract_0_3_packR, extract_3_1_packR, rfC_lo, rfC_hi, n1_lo, n1_hi]
    rfl
  exact ⟨e, len1 (fLen_packR ..)⟩
theorem spawn (d : Reg) (a : Reg) (b : Reg) (c : Reg) : Statement (.spawn d a b c) := fun _ _ => by
  have e : decodeInstr (packR 0x15 d a b 0 0 c) 0 0 = some (.spawn d a b c) := by
    rw [decode_major_15 _ _ _ (fMaj_packR ..)]
    delta lone decThr
    simp only [fLen_packR, fD_packR, fA_packR, fB_packR, fFn_packR, fW_packR, fC_packR, extract_0_2_packR, extract_2_2_packR, extract_0_3_packR, extract_3_1_packR, rfC_lo, rfC_hi, n1_lo, n1_hi]
    rfl
  exact ⟨e, len1 (fLen_packR ..)⟩
theorem reap (d : Reg) (a : Reg) : Statement (.reap d a) := fun _ _ => by
  have e : decodeInstr (packR 0x15 d a 0 1 0 0) 0 0 = some (.reap d a) := by
    rw [decode_major_15 _ _ _ (fMaj_packR ..)]
    delta lone decThr
    simp only [fLen_packR, fD_packR, fA_packR, fB_packR, fFn_packR, fW_packR, fC_packR, extract_0_2_packR, extract_2_2_packR, extract_0_3_packR, extract_3_1_packR, rfC_lo, rfC_hi, n1_lo, n1_hi]
    rfl
  exact ⟨e, len1 (fLen_packR ..)⟩
theorem exit (a : Reg) : Statement (.exit a) := fun _ _ => by
  have e : decodeInstr (packR 0x15 0 a 0 2 0 0) 0 0 = some (.exit a) := by
    rw [decode_major_15 _ _ _ (fMaj_packR ..)]
    delta lone decThr
    simp only [fLen_packR, fD_packR, fA_packR, fB_packR, fFn_packR, fW_packR, fC_packR, extract_0_2_packR, extract_2_2_packR, extract_0_3_packR, extract_3_1_packR, rfC_lo, rfC_hi, n1_lo, n1_hi]
    rfl
  exact ⟨e, len1 (fLen_packR ..)⟩
theorem yield : Statement (.yield) := fun _ _ => by
  have e : decodeInstr (packR 0x15 0 0 0 3 0 0) 0 0 = some (.yield) := by
    rw [decode_major_15 _ _ _ (fMaj_packR ..)]
    delta lone decThr
    simp only [fLen_packR, fD_packR, fA_packR, fB_packR, fFn_packR, fW_packR, fC_packR, extract_0_2_packR, extract_2_2_packR, extract_0_3_packR, extract_3_1_packR, rfC_lo, rfC_hi, n1_lo, n1_hi]
    rfl
  exact ⟨e, len1 (fLen_packR ..)⟩
theorem sleep (a : Reg) : Statement (.sleep a) := fun _ _ => by
  have e : decodeInstr (packR 0x15 0 a 0 4 0 0) 0 0 = some (.sleep a) := by
    rw [decode_major_15 _ _ _ (fMaj_packR ..)]
    delta lone decThr
    simp only [fLen_packR, fD_packR, fA_packR, fB_packR, fFn_packR, fW_packR, fC_packR, extract_0_2_packR, extract_2_2_packR, extract_0_3_packR, extract_3_1_packR, rfC_lo, rfC_hi, n1_lo, n1_hi]
    rfl
  exact ⟨e, len1 (fLen_packR ..)⟩
theorem migr (d : Reg) (a : Reg) : Statement (.migr d a) := fun _ _ => by
  have e : decodeInstr (packR 0x15 d a 0 5 0 0) 0 0 = some (.migr d a) := by
    rw [decode_major_15 _ _ _ (fMaj_packR ..)]
    delta lone decThr
    simp only [fLen_packR, fD_packR, fA_packR, fB_packR, fFn_packR, fW_packR, fC_packR, extract_0_2_packR, extract_2_2_packR, extract_0_3_packR, extract_3_1_packR, rfC_lo, rfC_hi, n1_lo, n1_hi]
    rfl
  exact ⟨e, len1 (fLen_packR ..)⟩
theorem ckpt (k : BitVec 12) : Statement (.ckpt k) := fun _ _ => by
  have e : decodeInstr ((0 : BitVec 2) ++ (0x15 : BitVec 6) ++ k ++ (6 : BitVec 6) ++ (0 : BitVec 6) : IWord) 0 0 = some (.ckpt k) := by
    rw [decode_major_15 _ _ _ (fMaj_ckptWord ..)]
    delta lone decThr
    simp only [fLen_ckptWord, fFn_ckptWord, fW_ckptWord, fC_ckptWord, extract_12_12_ckptWord]
    rfl
  exact ⟨e, len1 (fLen_ckptWord ..)⟩
theorem gbar (a : Reg) : Statement (.gbar a) := fun _ _ => by
  have e : decodeInstr (packR 0x16 0 a 0 0 0 0) 0 0 = some (.gbar a) := by
    rw [decode_major_16 _ _ _ (fMaj_packR ..)]
    delta lone decGrp
    simp only [fLen_packR, fD_packR, fA_packR, fB_packR, fFn_packR, fW_packR, fC_packR, extract_0_2_packR, extract_2_2_packR, extract_0_3_packR, extract_3_1_packR, rfC_lo, rfC_hi, n1_lo, n1_hi]
    rfl
  exact ⟨e, len1 (fLen_packR ..)⟩
theorem garr (a : Reg) : Statement (.garr a) := fun _ _ => by
  have e : decodeInstr (packR 0x16 0 a 0 1 0 0) 0 0 = some (.garr a) := by
    rw [decode_major_16 _ _ _ (fMaj_packR ..)]
    delta lone decGrp
    simp only [fLen_packR, fD_packR, fA_packR, fB_packR, fFn_packR, fW_packR, fC_packR, extract_0_2_packR, extract_2_2_packR, extract_0_3_packR, extract_3_1_packR, rfC_lo, rfC_hi, n1_lo, n1_hi]
    rfl
  exact ⟨e, len1 (fLen_packR ..)⟩
theorem gwait (a : Reg) : Statement (.gwait a) := fun _ _ => by
  have e : decodeInstr (packR 0x16 0 a 0 2 0 0) 0 0 = some (.gwait a) := by
    rw [decode_major_16 _ _ _ (fMaj_packR ..)]
    delta lone decGrp
    simp only [fLen_packR, fD_packR, fA_packR, fB_packR, fFn_packR, fW_packR, fC_packR, extract_0_2_packR, extract_2_2_packR, extract_0_3_packR, extract_3_1_packR, rfC_lo, rfC_hi, n1_lo, n1_hi]
    rfl
  exact ⟨e, len1 (fLen_packR ..)⟩
theorem gqry (d : Reg) (a : Reg) : Statement (.gqry d a) := fun _ _ => by
  have e : decodeInstr (packR 0x16 d a 0 3 0 0) 0 0 = some (.gqry d a) := by
    rw [decode_major_16 _ _ _ (fMaj_packR ..)]
    delta lone decGrp
    simp only [fLen_packR, fD_packR, fA_packR, fB_packR, fFn_packR, fW_packR, fC_packR, extract_0_2_packR, extract_2_2_packR, extract_0_3_packR, extract_3_1_packR, rfC_lo, rfC_hi, n1_lo, n1_hi]
    rfl
  exact ⟨e, len1 (fLen_packR ..)⟩
theorem ply (a : Reg) : Statement (.ply a) := fun _ _ => by
  have e : decodeInstr (packR 0x16 0 a 0 4 0 0) 0 0 = some (.ply a) := by
    rw [decode_major_16 _ _ _ (fMaj_packR ..)]
    delta lone decGrp
    simp only [fLen_packR, fD_packR, fA_packR, fB_packR, fFn_packR, fW_packR, fC_packR, extract_0_2_packR, extract_2_2_packR, extract_0_3_packR, extract_3_1_packR, rfC_lo, rfC_hi, n1_lo, n1_hi]
    rfl
  exact ⟨e, len1 (fLen_packR ..)⟩
theorem srd (d : Reg) (sr : BitVec 8) : Statement (.srd d sr) := fun _ _ => by
  have e : decodeInstr ((0 : BitVec 2) ++ (0x17 : BitVec 6) ++ d ++ sr ++ (0 : BitVec 6) ++ (0 : BitVec 6) : IWord) 0 0 = some (.srd d sr) := by
    rw [decode_major_17 _ _ _ (fMaj_srdWord ..)]
    delta lone decSys
    simp only [fLen_srdWord, fFn_srdWord, fW_srdWord, fC_srdWord, fD_srdWord, extract_12_8_srdWord]
    rfl
  exact ⟨e, len1 (fLen_srdWord ..)⟩
theorem swr (sr : BitVec 8) (c : Reg) : Statement (.swr sr c) := fun _ _ => by
  have e : decodeInstr ((0 : BitVec 2) ++ (0x17 : BitVec 6) ++ (0 : BitVec 4) ++ sr ++ (1 : BitVec 6) ++ (0 : BitVec 2) ++ c : IWord) 0 0 = some (.swr sr c) := by
    rw [decode_major_17 _ _ _ (fMaj_swrWord ..)]
    delta lone decSys
    simp only [fLen_swrWord, fFn_swrWord, fW_swrWord, fC_swrWord, fD_swrWord, extract_12_8_swrWord]
    rfl
  exact ⟨e, len1 (fLen_swrWord ..)⟩
theorem subon (a : Reg) (b : Reg) (c : Reg) : Statement (.subon a b c) := fun _ _ => by
  have e : decodeInstr (packR 0x18 0 a b 0 0 c) 0 0 = some (.subon a b c) := by
    rw [decode_major_18 _ _ _ (fMaj_packR ..)]
    delta lone decSub
    simp only [fLen_packR, fD_packR, fA_packR, fB_packR, fFn_packR, fW_packR, fC_packR, extract_0_2_packR, extract_2_2_packR, extract_0_3_packR, extract_3_1_packR, rfC_lo, rfC_hi, n1_lo, n1_hi]
    rfl
  exact ⟨e, len1 (fLen_packR ..)⟩
theorem suboff (a : Reg) : Statement (.suboff a) := fun _ _ => by
  have e : decodeInstr (packR 0x18 0 a 0 1 0 0) 0 0 = some (.suboff a) := by
    rw [decode_major_18 _ _ _ (fMaj_packR ..)]
    delta lone decSub
    simp only [fLen_packR, fD_packR, fA_packR, fB_packR, fFn_packR, fW_packR, fC_packR, extract_0_2_packR, extract_2_2_packR, extract_0_3_packR, extract_3_1_packR, rfC_lo, rfC_hi, n1_lo, n1_hi]
    rfl
  exact ⟨e, len1 (fLen_packR ..)⟩
theorem subq (d : Reg) (a : Reg) : Statement (.subq d a) := fun _ _ => by
  have e : decodeInstr (packR 0x18 d a 0 2 0 0) 0 0 = some (.subq d a) := by
    rw [decode_major_18 _ _ _ (fMaj_packR ..)]
    delta lone decSub
    simp only [fLen_packR, fD_packR, fA_packR, fB_packR, fFn_packR, fW_packR, fC_packR, extract_0_2_packR, extract_2_2_packR, extract_0_3_packR, extract_3_1_packR, rfC_lo, rfC_hi, n1_lo, n1_hi]
    rfl
  exact ⟨e, len1 (fLen_packR ..)⟩
theorem subfl : Statement (.subfl) := fun _ _ => by
  have e : decodeInstr (packR 0x18 0 0 0 3 0 0) 0 0 = some (.subfl) := by
    rw [decode_major_18 _ _ _ (fMaj_packR ..)]
    delta lone decSub
    simp only [fLen_packR, fD_packR, fA_packR, fB_packR, fFn_packR, fW_packR, fC_packR, extract_0_2_packR, extract_2_2_packR, extract_0_3_packR, extract_3_1_packR, rfC_lo, rfC_hi, n1_lo, n1_hi]
    rfl
  exact ⟨e, len1 (fLen_packR ..)⟩
theorem launch (d : Reg) (a : Reg) (b : Reg) : Statement (.launch d a b) := fun _ _ => by
  have e : decodeInstr (packR 0x19 d a b 0 0 0) 0 0 = some (.launch d a b) := by
    rw [decode_major_19 _ _ _ (fMaj_packR ..)]
    delta lone decLch
    simp only [fLen_packR, fD_packR, fA_packR, fB_packR, fFn_packR, fW_packR, fC_packR, extract_0_2_packR, extract_2_2_packR, extract_0_3_packR, extract_3_1_packR, rfC_lo, rfC_hi, n1_lo, n1_hi]
    rfl
  exact ⟨e, len1 (fLen_packR ..)⟩
theorem lqry (d : Reg) (a : Reg) : Statement (.lqry d a) := fun _ _ => by
  have e : decodeInstr (packR 0x19 d a 0 1 0 0) 0 0 = some (.lqry d a) := by
    rw [decode_major_19 _ _ _ (fMaj_packR ..)]
    delta lone decLch
    simp only [fLen_packR, fD_packR, fA_packR, fB_packR, fFn_packR, fW_packR, fC_packR, extract_0_2_packR, extract_2_2_packR, extract_0_3_packR, extract_3_1_packR, rfC_lo, rfC_hi, n1_lo, n1_hi]
    rfl
  exact ⟨e, len1 (fLen_packR ..)⟩
theorem trap (n : BitVec 8) (b : Reg) : Statement (.trap n b) := fun _ _ => by
  have e : decodeInstr ((0 : BitVec 2) ++ (0x1A : BitVec 6) ++ n ++ b ++ (0 : BitVec 6) ++ (0 : BitVec 6) : IWord) 0 0 = some (.trap n b) := by
    rw [decode_major_1a _ _ _ (fMaj_trapWord ..)]
    delta lone decTrp
    simp only [fLen_trapWord, fFn_trapWord, fW_trapWord, fC_trapWord, fB_trapWord, extract_16_8_trapWord]
    rfl
  exact ⟨e, len1 (fLen_trapWord ..)⟩
theorem brk (n : BitVec 8) : Statement (.brk n) := fun _ _ => by
  have e : decodeInstr ((0 : BitVec 2) ++ (0x1A : BitVec 6) ++ n ++ (0 : BitVec 4) ++ (1 : BitVec 6) ++ (0 : BitVec 6) : IWord) 0 0 = some (.brk n) := by
    rw [decode_major_1a _ _ _ (fMaj_brkWord ..)]
    delta lone decTrp
    simp only [fLen_brkWord, fFn_brkWord, fW_brkWord, fC_brkWord, fB_brkWord, extract_16_8_brkWord]
    rfl
  exact ⟨e, len1 (fLen_brkWord ..)⟩
theorem resume (d : Reg) (a : Reg) (mode : BitVec 4) : Statement (.resume d a mode) := fun hw _ => by
  have e : decodeInstr (packR 0x1A d a 0 2 0 mode) 0 0 = some (.resume d a mode) := by
    rw [decode_major_1a _ _ _ (fMaj_packR ..)]
    delta lone decTrp
    simp only [fLen_packR, fD_packR, fA_packR, fB_packR, fFn_packR, fW_packR, fC_packR, extract_0_2_packR, extract_2_2_packR, extract_0_3_packR, extract_3_1_packR, rfC_lo, rfC_hi, n1_lo, n1_hi]
    have hk : (decide (mode.toNat ≤ 2)) = true := hw
    exact guardI_true (by simp [hk])
  exact ⟨e, len1 (fLen_packR ..)⟩
theorem idle : Statement (.idle) := fun _ _ => by
  have e : decodeInstr (packR 0x1A 0 0 0 3 0 0) 0 0 = some (.idle) := by
    rw [decode_major_1a _ _ _ (fMaj_packR ..)]
    delta lone decTrp
    simp only [fLen_packR, fD_packR, fA_packR, fB_packR, fFn_packR, fW_packR, fC_packR, extract_0_2_packR, extract_2_2_packR, extract_0_3_packR, extract_3_1_packR, rfC_lo, rfC_hi, n1_lo, n1_hi]
    rfl
  exact ⟨e, len1 (fLen_packR ..)⟩
theorem fadd (d : Reg) (a : Reg) (b : Reg) (dbl : Bool) (rf : BitVec 2) : Statement (.fadd d a b dbl rf) := fun hw _ => by
  have e : decodeInstr (packR 0x1B d a b 0 (wBit dbl) (rfC rf)) 0 0 = some (.fadd d a b dbl rf) := by
    rw [decode_major_1b _ _ _ (fMaj_packR ..)]
    delta lone decFop
    simp only [fLen_packR, fD_packR, fA_packR, fB_packR, fFn_packR, fW_packR, fC_packR, extract_0_2_packR, extract_2_2_packR, extract_0_3_packR, extract_3_1_packR, rfC_lo, rfC_hi, n1_lo, n1_hi]
    have hk : (rmOk rf) = true := hw
    cases dbl <;> exact guardI_true (by simp [hk])
  exact ⟨e, len1 (fLen_packR ..)⟩
theorem fsub (d : Reg) (a : Reg) (b : Reg) (dbl : Bool) (rf : BitVec 2) : Statement (.fsub d a b dbl rf) := fun hw _ => by
  have e : decodeInstr (packR 0x1B d a b 1 (wBit dbl) (rfC rf)) 0 0 = some (.fsub d a b dbl rf) := by
    rw [decode_major_1b _ _ _ (fMaj_packR ..)]
    delta lone decFop
    simp only [fLen_packR, fD_packR, fA_packR, fB_packR, fFn_packR, fW_packR, fC_packR, extract_0_2_packR, extract_2_2_packR, extract_0_3_packR, extract_3_1_packR, rfC_lo, rfC_hi, n1_lo, n1_hi]
    have hk : (rmOk rf) = true := hw
    cases dbl <;> exact guardI_true (by simp [hk])
  exact ⟨e, len1 (fLen_packR ..)⟩
theorem fmul (d : Reg) (a : Reg) (b : Reg) (dbl : Bool) (rf : BitVec 2) : Statement (.fmul d a b dbl rf) := fun hw _ => by
  have e : decodeInstr (packR 0x1B d a b 2 (wBit dbl) (rfC rf)) 0 0 = some (.fmul d a b dbl rf) := by
    rw [decode_major_1b _ _ _ (fMaj_packR ..)]
    delta lone decFop
    simp only [fLen_packR, fD_packR, fA_packR, fB_packR, fFn_packR, fW_packR, fC_packR, extract_0_2_packR, extract_2_2_packR, extract_0_3_packR, extract_3_1_packR, rfC_lo, rfC_hi, n1_lo, n1_hi]
    have hk : (rmOk rf) = true := hw
    cases dbl <;> exact guardI_true (by simp [hk])
  exact ⟨e, len1 (fLen_packR ..)⟩
theorem ffma (d : Reg) (a : Reg) (b : Reg) (dbl : Bool) (rf : BitVec 2) : Statement (.ffma d a b dbl rf) := fun hw _ => by
  have e : decodeInstr (packR 0x1B d a b 3 (wBit dbl) (rfC rf)) 0 0 = some (.ffma d a b dbl rf) := by
    rw [decode_major_1b _ _ _ (fMaj_packR ..)]
    delta lone decFop
    simp only [fLen_packR, fD_packR, fA_packR, fB_packR, fFn_packR, fW_packR, fC_packR, extract_0_2_packR, extract_2_2_packR, extract_0_3_packR, extract_3_1_packR, rfC_lo, rfC_hi, n1_lo, n1_hi]
    have hk : (rmOk rf) = true := hw
    cases dbl <;> exact guardI_true (by simp [hk])
  exact ⟨e, len1 (fLen_packR ..)⟩
theorem fdiv (d : Reg) (a : Reg) (b : Reg) (dbl : Bool) (rf : BitVec 2) : Statement (.fdiv d a b dbl rf) := fun hw _ => by
  have e : decodeInstr (packR 0x1B d a b 4 (wBit dbl) (rfC rf)) 0 0 = some (.fdiv d a b dbl rf) := by
    rw [decode_major_1b _ _ _ (fMaj_packR ..)]
    delta lone decFop
    simp only [fLen_packR, fD_packR, fA_packR, fB_packR, fFn_packR, fW_packR, fC_packR, extract_0_2_packR, extract_2_2_packR, extract_0_3_packR, extract_3_1_packR, rfC_lo, rfC_hi, n1_lo, n1_hi]
    have hk : (rmOk rf) = true := hw
    cases dbl <;> exact guardI_true (by simp [hk])
  exact ⟨e, len1 (fLen_packR ..)⟩
theorem fsqrt (d : Reg) (a : Reg) (dbl : Bool) (rf : BitVec 2) : Statement (.fsqrt d a dbl rf) := fun hw _ => by
  have e : decodeInstr (packR 0x1B d a 0 5 (wBit dbl) (rfC rf)) 0 0 = some (.fsqrt d a dbl rf) := by
    rw [decode_major_1b _ _ _ (fMaj_packR ..)]
    delta lone decFop
    simp only [fLen_packR, fD_packR, fA_packR, fB_packR, fFn_packR, fW_packR, fC_packR, extract_0_2_packR, extract_2_2_packR, extract_0_3_packR, extract_3_1_packR, rfC_lo, rfC_hi, n1_lo, n1_hi]
    have hk : (rmOk rf) = true := hw
    cases dbl <;> exact guardI_true (by simp [hk])
  exact ⟨e, len1 (fLen_packR ..)⟩
theorem fmin (d : Reg) (a : Reg) (b : Reg) (dbl : Bool) : Statement (.fmin d a b dbl) := fun _ _ => by
  have e : decodeInstr (packR 0x1B d a b 6 (wBit dbl) 0) 0 0 = some (.fmin d a b dbl) := by
    rw [decode_major_1b _ _ _ (fMaj_packR ..)]
    delta lone decFop
    simp only [fLen_packR, fD_packR, fA_packR, fB_packR, fFn_packR, fW_packR, fC_packR, extract_0_2_packR, extract_2_2_packR, extract_0_3_packR, extract_3_1_packR, rfC_lo, rfC_hi, n1_lo, n1_hi]
    cases dbl <;> rfl
  exact ⟨e, len1 (fLen_packR ..)⟩
theorem fmax (d : Reg) (a : Reg) (b : Reg) (dbl : Bool) : Statement (.fmax d a b dbl) := fun _ _ => by
  have e : decodeInstr (packR 0x1B d a b 7 (wBit dbl) 0) 0 0 = some (.fmax d a b dbl) := by
    rw [decode_major_1b _ _ _ (fMaj_packR ..)]
    delta lone decFop
    simp only [fLen_packR, fD_packR, fA_packR, fB_packR, fFn_packR, fW_packR, fC_packR, extract_0_2_packR, extract_2_2_packR, extract_0_3_packR, extract_3_1_packR, rfC_lo, rfC_hi, n1_lo, n1_hi]
    cases dbl <;> rfl
  exact ⟨e, len1 (fLen_packR ..)⟩
theorem fminm (d : Reg) (a : Reg) (b : Reg) (dbl : Bool) : Statement (.fminm d a b dbl) := fun _ _ => by
  have e : decodeInstr (packR 0x1B d a b 8 (wBit dbl) 0) 0 0 = some (.fminm d a b dbl) := by
    rw [decode_major_1b _ _ _ (fMaj_packR ..)]
    delta lone decFop
    simp only [fLen_packR, fD_packR, fA_packR, fB_packR, fFn_packR, fW_packR, fC_packR, extract_0_2_packR, extract_2_2_packR, extract_0_3_packR, extract_3_1_packR, rfC_lo, rfC_hi, n1_lo, n1_hi]
    cases dbl <;> rfl
  exact ⟨e, len1 (fLen_packR ..)⟩
theorem fmaxm (d : Reg) (a : Reg) (b : Reg) (dbl : Bool) : Statement (.fmaxm d a b dbl) := fun _ _ => by
  have e : decodeInstr (packR 0x1B d a b 9 (wBit dbl) 0) 0 0 = some (.fmaxm d a b dbl) := by
    rw [decode_major_1b _ _ _ (fMaj_packR ..)]
    delta lone decFop
    simp only [fLen_packR, fD_packR, fA_packR, fB_packR, fFn_packR, fW_packR, fC_packR, extract_0_2_packR, extract_2_2_packR, extract_0_3_packR, extract_3_1_packR, rfC_lo, rfC_hi, n1_lo, n1_hi]
    cases dbl <;> rfl
  exact ⟨e, len1 (fLen_packR ..)⟩
theorem fabs (d : Reg) (a : Reg) (dbl : Bool) : Statement (.fabs d a dbl) := fun _ _ => by
  have e : decodeInstr (packR 0x1B d a 0 10 (wBit dbl) 0) 0 0 = some (.fabs d a dbl) := by
    rw [decode_major_1b _ _ _ (fMaj_packR ..)]
    delta lone decFop
    simp only [fLen_packR, fD_packR, fA_packR, fB_packR, fFn_packR, fW_packR, fC_packR, extract_0_2_packR, extract_2_2_packR, extract_0_3_packR, extract_3_1_packR, rfC_lo, rfC_hi, n1_lo, n1_hi]
    cases dbl <;> rfl
  exact ⟨e, len1 (fLen_packR ..)⟩
theorem fneg (d : Reg) (a : Reg) (dbl : Bool) : Statement (.fneg d a dbl) := fun _ _ => by
  have e : decodeInstr (packR 0x1B d a 0 11 (wBit dbl) 0) 0 0 = some (.fneg d a dbl) := by
    rw [decode_major_1b _ _ _ (fMaj_packR ..)]
    delta lone decFop
    simp only [fLen_packR, fD_packR, fA_packR, fB_packR, fFn_packR, fW_packR, fC_packR, extract_0_2_packR, extract_2_2_packR, extract_0_3_packR, extract_3_1_packR, rfC_lo, rfC_hi, n1_lo, n1_hi]
    cases dbl <;> rfl
  exact ⟨e, len1 (fLen_packR ..)⟩
theorem fceq (d : Reg) (a : Reg) (b : Reg) (dbl : Bool) : Statement (.fceq d a b dbl) := fun _ _ => by
  have e : decodeInstr (packR 0x1B d a b 12 (wBit dbl) 0) 0 0 = some (.fceq d a b dbl) := by
    rw [decode_major_1b _ _ _ (fMaj_packR ..)]
    delta lone decFop
    simp only [fLen_packR, fD_packR, fA_packR, fB_packR, fFn_packR, fW_packR, fC_packR, extract_0_2_packR, extract_2_2_packR, extract_0_3_packR, extract_3_1_packR, rfC_lo, rfC_hi, n1_lo, n1_hi]
    cases dbl <;> rfl
  exact ⟨e, len1 (fLen_packR ..)⟩
theorem fclt (d : Reg) (a : Reg) (b : Reg) (dbl : Bool) : Statement (.fclt d a b dbl) := fun _ _ => by
  have e : decodeInstr (packR 0x1B d a b 13 (wBit dbl) 0) 0 0 = some (.fclt d a b dbl) := by
    rw [decode_major_1b _ _ _ (fMaj_packR ..)]
    delta lone decFop
    simp only [fLen_packR, fD_packR, fA_packR, fB_packR, fFn_packR, fW_packR, fC_packR, extract_0_2_packR, extract_2_2_packR, extract_0_3_packR, extract_3_1_packR, rfC_lo, rfC_hi, n1_lo, n1_hi]
    cases dbl <;> rfl
  exact ⟨e, len1 (fLen_packR ..)⟩
theorem fcle (d : Reg) (a : Reg) (b : Reg) (dbl : Bool) : Statement (.fcle d a b dbl) := fun _ _ => by
  have e : decodeInstr (packR 0x1B d a b 14 (wBit dbl) 0) 0 0 = some (.fcle d a b dbl) := by
    rw [decode_major_1b _ _ _ (fMaj_packR ..)]
    delta lone decFop
    simp only [fLen_packR, fD_packR, fA_packR, fB_packR, fFn_packR, fW_packR, fC_packR, extract_0_2_packR, extract_2_2_packR, extract_0_3_packR, extract_3_1_packR, rfC_lo, rfC_hi, n1_lo, n1_hi]
    cases dbl <;> rfl
  exact ⟨e, len1 (fLen_packR ..)⟩
theorem fcun (d : Reg) (a : Reg) (b : Reg) (dbl : Bool) : Statement (.fcun d a b dbl) := fun _ _ => by
  have e : decodeInstr (packR 0x1B d a b 15 (wBit dbl) 0) 0 0 = some (.fcun d a b dbl) := by
    rw [decode_major_1b _ _ _ (fMaj_packR ..)]
    delta lone decFop
    simp only [fLen_packR, fD_packR, fA_packR, fB_packR, fFn_packR, fW_packR, fC_packR, extract_0_2_packR, extract_2_2_packR, extract_0_3_packR, extract_3_1_packR, rfC_lo, rfC_hi, n1_lo, n1_hi]
    cases dbl <;> rfl
  exact ⟨e, len1 (fLen_packR ..)⟩
theorem fcvt (d : Reg) (a : Reg) (k : BitVec 4) (cf : BitVec 4) : Statement (.fcvt d a k cf) := fun hw _ => by
  have e : decodeInstr (packR 0x1B d a k 16 (wBit false) cf) 0 0 = some (.fcvt d a k cf) := by
    rw [decode_major_1b _ _ _ (fMaj_packR ..)]
    delta lone decFop
    simp only [fLen_packR, fD_packR, fA_packR, fB_packR, fFn_packR, fW_packR, fC_packR, extract_0_2_packR, extract_2_2_packR, extract_0_3_packR, extract_3_1_packR, rfC_lo, rfC_hi, n1_lo, n1_hi]
    have hk : (decide (k.toNat ≤ 13) && convFieldOk cf) = true := hw
    simp only [Bool.and_eq_true, decide_eq_true_eq] at hk
    exact guardI_true (by simp [hk, wBit])
  exact ⟨e, len1 (fLen_packR ..)⟩
theorem frnd (d : Reg) (a : Reg) (dbl : Bool) (cf : BitVec 4) : Statement (.frnd d a dbl cf) := fun hw _ => by
  have e : decodeInstr (packR 0x1B d a 0 17 (wBit dbl) cf) 0 0 = some (.frnd d a dbl cf) := by
    rw [decode_major_1b _ _ _ (fMaj_packR ..)]
    delta lone decFop
    simp only [fLen_packR, fD_packR, fA_packR, fB_packR, fFn_packR, fW_packR, fC_packR, extract_0_2_packR, extract_2_2_packR, extract_0_3_packR, extract_3_1_packR, rfC_lo, rfC_hi, n1_lo, n1_hi]
    have hk : (convFieldOk cf) = true := hw
    cases dbl <;> exact guardI_true (by simp [hk])
  exact ⟨e, len1 (fLen_packR ..)⟩
theorem vadd (vd : VReg) (va : VReg) (vb : VReg) (im : BitVec 2) (mg : Reg) (rm : BitVec 2) : Statement (.vadd vd va vb im mg rm) := fun hw _ => by
  have e : decodeInstr (packV 0x20 vd va vb (imVc im) 0 mg rm) 0 0 = some (.vadd vd va vb im mg rm) := by
    rw [decode_major_20 _ _ _ (fMaj_packV ..)]
    delta lone decVar
    simp only [fLen_packV, vVd_packV, vVa_packV, vVb_packV, vVc_packV, fFn_packV, vMg_packV, vRm_packV, extract_12_2_packV, extract_14_1_packV, extract_12_1_packV, extract_13_1_packV, extract_12_6_packV, extract_12_4_packV, extract_16_1_packV, extract_17_1_packV, extract_16_2_packV, imVc_lo, imVc_hi, uVc_0, uVc_1, uVc_2, satVc_0, satVc_1, satVc_2, hiVb_loVc, ext6, tt_tag, tt_n, tt_5, tag_lo, tag_4, tag_5, tag_45, hf_lo, hf_hi, bit1_eq]
    have hk : (rmOk rm) = true := hw
    exact guardI_true (by simp [hk])
  exact ⟨e, len1 (fLen_packV ..)⟩
theorem vsub (vd : VReg) (va : VReg) (vb : VReg) (im : BitVec 2) (mg : Reg) (rm : BitVec 2) : Statement (.vsub vd va vb im mg rm) := fun hw _ => by
  have e : decodeInstr (packV 0x20 vd va vb (imVc im) 1 mg rm) 0 0 = some (.vsub vd va vb im mg rm) := by
    rw [decode_major_20 _ _ _ (fMaj_packV ..)]
    delta lone decVar
    simp only [fLen_packV, vVd_packV, vVa_packV, vVb_packV, vVc_packV, fFn_packV, vMg_packV, vRm_packV, extract_12_2_packV, extract_14_1_packV, extract_12_1_packV, extract_13_1_packV, extract_12_6_packV, extract_12_4_packV, extract_16_1_packV, extract_17_1_packV, extract_16_2_packV, imVc_lo, imVc_hi, uVc_0, uVc_1, uVc_2, satVc_0, satVc_1, satVc_2, hiVb_loVc, ext6, tt_tag, tt_n, tt_5, tag_lo, tag_4, tag_5, tag_45, hf_lo, hf_hi, bit1_eq]
    have hk : (rmOk rm) = true := hw
    exact guardI_true (by simp [hk])
  exact ⟨e, len1 (fLen_packV ..)⟩
theorem vmul (vd : VReg) (va : VReg) (vb : VReg) (im : BitVec 2) (mg : Reg) (rm : BitVec 2) : Statement (.vmul vd va vb im mg rm) := fun hw _ => by
  have e : decodeInstr (packV 0x20 vd va vb (imVc im) 2 mg rm) 0 0 = some (.vmul vd va vb im mg rm) := by
    rw [decode_major_20 _ _ _ (fMaj_packV ..)]
    delta lone decVar
    simp only [fLen_packV, vVd_packV, vVa_packV, vVb_packV, vVc_packV, fFn_packV, vMg_packV, vRm_packV, extract_12_2_packV, extract_14_1_packV, extract_12_1_packV, extract_13_1_packV, extract_12_6_packV, extract_12_4_packV, extract_16_1_packV, extract_17_1_packV, extract_16_2_packV, imVc_lo, imVc_hi, uVc_0, uVc_1, uVc_2, satVc_0, satVc_1, satVc_2, hiVb_loVc, ext6, tt_tag, tt_n, tt_5, tag_lo, tag_4, tag_5, tag_45, hf_lo, hf_hi, bit1_eq]
    have hk : (rmOk rm) = true := hw
    exact guardI_true (by simp [hk])
  exact ⟨e, len1 (fLen_packV ..)⟩
theorem vfma (vd : VReg) (va : VReg) (vb : VReg) (vc : VReg) (mg : Reg) (rm : BitVec 2) : Statement (.vfma vd va vb vc mg rm) := fun hw _ => by
  have e : decodeInstr (packV 0x20 vd va vb vc 3 mg rm) 0 0 = some (.vfma vd va vb vc mg rm) := by
    rw [decode_major_20 _ _ _ (fMaj_packV ..)]
    delta lone decVar
    simp only [fLen_packV, vVd_packV, vVa_packV, vVb_packV, vVc_packV, fFn_packV, vMg_packV, vRm_packV, extract_12_2_packV, extract_14_1_packV, extract_12_1_packV, extract_13_1_packV, extract_12_6_packV, extract_12_4_packV, extract_16_1_packV, extract_17_1_packV, extract_16_2_packV, imVc_lo, imVc_hi, uVc_0, uVc_1, uVc_2, satVc_0, satVc_1, satVc_2, hiVb_loVc, ext6, tt_tag, tt_n, tt_5, tag_lo, tag_4, tag_5, tag_45, hf_lo, hf_hi, bit1_eq]
    have hk : (rmOk rm) = true := hw
    exact guardI_true (by simp [hk])
  exact ⟨e, len1 (fLen_packV ..)⟩
theorem vmin (vd : VReg) (va : VReg) (vb : VReg) (u : Bool) (mg : Reg) : Statement (.vmin vd va vb u mg) := fun _ _ => by
  have e : decodeInstr (packV 0x20 vd va vb (uVc u) 4 mg 0) 0 0 = some (.vmin vd va vb u mg) := by
    rw [decode_major_20 _ _ _ (fMaj_packV ..)]
    delta lone decVar
    simp only [fLen_packV, vVd_packV, vVa_packV, vVb_packV, vVc_packV, fFn_packV, vMg_packV, vRm_packV, extract_12_2_packV, extract_14_1_packV, extract_12_1_packV, extract_13_1_packV, extract_12_6_packV, extract_12_4_packV, extract_16_1_packV, extract_17_1_packV, extract_16_2_packV, imVc_lo, imVc_hi, uVc_0, uVc_1, uVc_2, satVc_0, satVc_1, satVc_2, hiVb_loVc, ext6, tt_tag, tt_n, tt_5, tag_lo, tag_4, tag_5, tag_45, hf_lo, hf_hi, bit1_eq]
    rfl
  exact ⟨e, len1 (fLen_packV ..)⟩
theorem vmax (vd : VReg) (va : VReg) (vb : VReg) (u : Bool) (mg : Reg) : Statement (.vmax vd va vb u mg) := fun _ _ => by
  have e : decodeInstr (packV 0x20 vd va vb (uVc u) 5 mg 0) 0 0 = some (.vmax vd va vb u mg) := by
    rw [decode_major_20 _ _ _ (fMaj_packV ..)]
    delta lone decVar
    simp only [fLen_packV, vVd_packV, vVa_packV, vVb_packV, vVc_packV, fFn_packV, vMg_packV, vRm_packV, extract_12_2_packV, extract_14_1_packV, extract_12_1_packV, extract_13_1_packV, extract_12_6_packV, extract_12_4_packV, extract_16_1_packV, extract_17_1_packV, extract_16_2_packV, imVc_lo, imVc_hi, uVc_0, uVc_1, uVc_2, satVc_0, satVc_1, satVc_2, hiVb_loVc, ext6, tt_tag, tt_n, tt_5, tag_lo, tag_4, tag_5, tag_45, hf_lo, hf_hi, bit1_eq]
    rfl
  exact ⟨e, len1 (fLen_packV ..)⟩
theorem vminm (vd : VReg) (va : VReg) (vb : VReg) (mg : Reg) : Statement (.vminm vd va vb mg) := fun _ _ => by
  have e : decodeInstr (packV 0x20 vd va vb 0 6 mg 0) 0 0 = some (.vminm vd va vb mg) := by
    rw [decode_major_20 _ _ _ (fMaj_packV ..)]
    delta lone decVar
    simp only [fLen_packV, vVd_packV, vVa_packV, vVb_packV, vVc_packV, fFn_packV, vMg_packV, vRm_packV, extract_12_2_packV, extract_14_1_packV, extract_12_1_packV, extract_13_1_packV, extract_12_6_packV, extract_12_4_packV, extract_16_1_packV, extract_17_1_packV, extract_16_2_packV, imVc_lo, imVc_hi, uVc_0, uVc_1, uVc_2, satVc_0, satVc_1, satVc_2, hiVb_loVc, ext6, tt_tag, tt_n, tt_5, tag_lo, tag_4, tag_5, tag_45, hf_lo, hf_hi, bit1_eq]
    rfl
  exact ⟨e, len1 (fLen_packV ..)⟩
theorem vmaxm (vd : VReg) (va : VReg) (vb : VReg) (mg : Reg) : Statement (.vmaxm vd va vb mg) := fun _ _ => by
  have e : decodeInstr (packV 0x20 vd va vb 0 7 mg 0) 0 0 = some (.vmaxm vd va vb mg) := by
    rw [decode_major_20 _ _ _ (fMaj_packV ..)]
    delta lone decVar
    simp only [fLen_packV, vVd_packV, vVa_packV, vVb_packV, vVc_packV, fFn_packV, vMg_packV, vRm_packV, extract_12_2_packV, extract_14_1_packV, extract_12_1_packV, extract_13_1_packV, extract_12_6_packV, extract_12_4_packV, extract_16_1_packV, extract_17_1_packV, extract_16_2_packV, imVc_lo, imVc_hi, uVc_0, uVc_1, uVc_2, satVc_0, satVc_1, satVc_2, hiVb_loVc, ext6, tt_tag, tt_n, tt_5, tag_lo, tag_4, tag_5, tag_45, hf_lo, hf_hi, bit1_eq]
    rfl
  exact ⟨e, len1 (fLen_packV ..)⟩
theorem vabs (vd : VReg) (va : VReg) (sat : Bool) (mg : Reg) : Statement (.vabs vd va sat mg) := fun _ _ => by
  have e : decodeInstr (packV 0x20 vd va 0 (satVc sat) 8 mg 0) 0 0 = some (.vabs vd va sat mg) := by
    rw [decode_major_20 _ _ _ (fMaj_packV ..)]
    delta lone decVar
    simp only [fLen_packV, vVd_packV, vVa_packV, vVb_packV, vVc_packV, fFn_packV, vMg_packV, vRm_packV, extract_12_2_packV, extract_14_1_packV, extract_12_1_packV, extract_13_1_packV, extract_12_6_packV, extract_12_4_packV, extract_16_1_packV, extract_17_1_packV, extract_16_2_packV, imVc_lo, imVc_hi, uVc_0, uVc_1, uVc_2, satVc_0, satVc_1, satVc_2, hiVb_loVc, ext6, tt_tag, tt_n, tt_5, tag_lo, tag_4, tag_5, tag_45, hf_lo, hf_hi, bit1_eq]
    rfl
  exact ⟨e, len1 (fLen_packV ..)⟩
theorem vneg (vd : VReg) (va : VReg) (sat : Bool) (mg : Reg) : Statement (.vneg vd va sat mg) := fun _ _ => by
  have e : decodeInstr (packV 0x20 vd va 0 (satVc sat) 9 mg 0) 0 0 = some (.vneg vd va sat mg) := by
    rw [decode_major_20 _ _ _ (fMaj_packV ..)]
    delta lone decVar
    simp only [fLen_packV, vVd_packV, vVa_packV, vVb_packV, vVc_packV, fFn_packV, vMg_packV, vRm_packV, extract_12_2_packV, extract_14_1_packV, extract_12_1_packV, extract_13_1_packV, extract_12_6_packV, extract_12_4_packV, extract_16_1_packV, extract_17_1_packV, extract_16_2_packV, imVc_lo, imVc_hi, uVc_0, uVc_1, uVc_2, satVc_0, satVc_1, satVc_2, hiVb_loVc, ext6, tt_tag, tt_n, tt_5, tag_lo, tag_4, tag_5, tag_45, hf_lo, hf_hi, bit1_eq]
    rfl
  exact ⟨e, len1 (fLen_packV ..)⟩
theorem vdiv (vd : VReg) (va : VReg) (vb : VReg) (mg : Reg) (rm : BitVec 2) : Statement (.vdiv vd va vb mg rm) := fun hw _ => by
  have e : decodeInstr (packV 0x20 vd va vb 0 10 mg rm) 0 0 = some (.vdiv vd va vb mg rm) := by
    rw [decode_major_20 _ _ _ (fMaj_packV ..)]
    delta lone decVar
    simp only [fLen_packV, vVd_packV, vVa_packV, vVb_packV, vVc_packV, fFn_packV, vMg_packV, vRm_packV, extract_12_2_packV, extract_14_1_packV, extract_12_1_packV, extract_13_1_packV, extract_12_6_packV, extract_12_4_packV, extract_16_1_packV, extract_17_1_packV, extract_16_2_packV, imVc_lo, imVc_hi, uVc_0, uVc_1, uVc_2, satVc_0, satVc_1, satVc_2, hiVb_loVc, ext6, tt_tag, tt_n, tt_5, tag_lo, tag_4, tag_5, tag_45, hf_lo, hf_hi, bit1_eq]
    have hk : (rmOk rm) = true := hw
    exact guardI_true (by simp [hk])
  exact ⟨e, len1 (fLen_packV ..)⟩
theorem vsqrt (vd : VReg) (va : VReg) (mg : Reg) (rm : BitVec 2) : Statement (.vsqrt vd va mg rm) := fun hw _ => by
  have e : decodeInstr (packV 0x20 vd va 0 0 11 mg rm) 0 0 = some (.vsqrt vd va mg rm) := by
    rw [decode_major_20 _ _ _ (fMaj_packV ..)]
    delta lone decVar
    simp only [fLen_packV, vVd_packV, vVa_packV, vVb_packV, vVc_packV, fFn_packV, vMg_packV, vRm_packV, extract_12_2_packV, extract_14_1_packV, extract_12_1_packV, extract_13_1_packV, extract_12_6_packV, extract_12_4_packV, extract_16_1_packV, extract_17_1_packV, extract_16_2_packV, imVc_lo, imVc_hi, uVc_0, uVc_1, uVc_2, satVc_0, satVc_1, satVc_2, hiVb_loVc, ext6, tt_tag, tt_n, tt_5, tag_lo, tag_4, tag_5, tag_45, hf_lo, hf_hi, bit1_eq]
    have hk : (rmOk rm) = true := hw
    exact guardI_true (by simp [hk])
  exact ⟨e, len1 (fLen_packV ..)⟩
theorem vrcp (vd : VReg) (va : VReg) (mg : Reg) (rm : BitVec 2) : Statement (.vrcp vd va mg rm) := fun hw _ => by
  have e : decodeInstr (packV 0x20 vd va 0 0 12 mg rm) 0 0 = some (.vrcp vd va mg rm) := by
    rw [decode_major_20 _ _ _ (fMaj_packV ..)]
    delta lone decVar
    simp only [fLen_packV, vVd_packV, vVa_packV, vVb_packV, vVc_packV, fFn_packV, vMg_packV, vRm_packV, extract_12_2_packV, extract_14_1_packV, extract_12_1_packV, extract_13_1_packV, extract_12_6_packV, extract_12_4_packV, extract_16_1_packV, extract_17_1_packV, extract_16_2_packV, imVc_lo, imVc_hi, uVc_0, uVc_1, uVc_2, satVc_0, satVc_1, satVc_2, hiVb_loVc, ext6, tt_tag, tt_n, tt_5, tag_lo, tag_4, tag_5, tag_45, hf_lo, hf_hi, bit1_eq]
    have hk : (rmOk rm) = true := hw
    exact guardI_true (by simp [hk])
  exact ⟨e, len1 (fLen_packV ..)⟩
theorem vrsq (vd : VReg) (va : VReg) (mg : Reg) (rm : BitVec 2) : Statement (.vrsq vd va mg rm) := fun hw _ => by
  have e : decodeInstr (packV 0x20 vd va 0 0 13 mg rm) 0 0 = some (.vrsq vd va mg rm) := by
    rw [decode_major_20 _ _ _ (fMaj_packV ..)]
    delta lone decVar
    simp only [fLen_packV, vVd_packV, vVa_packV, vVb_packV, vVc_packV, fFn_packV, vMg_packV, vRm_packV, extract_12_2_packV, extract_14_1_packV, extract_12_1_packV, extract_13_1_packV, extract_12_6_packV, extract_12_4_packV, extract_16_1_packV, extract_17_1_packV, extract_16_2_packV, imVc_lo, imVc_hi, uVc_0, uVc_1, uVc_2, satVc_0, satVc_1, satVc_2, hiVb_loVc, ext6, tt_tag, tt_n, tt_5, tag_lo, tag_4, tag_5, tag_45, hf_lo, hf_hi, bit1_eq]
    have hk : (rmOk rm) = true := hw
    exact guardI_true (by simp [hk])
  exact ⟨e, len1 (fLen_packV ..)⟩
theorem vexp2 (vd : VReg) (va : VReg) (mg : Reg) (rm : BitVec 2) : Statement (.vexp2 vd va mg rm) := fun hw _ => by
  have e : decodeInstr (packV 0x20 vd va 0 0 14 mg rm) 0 0 = some (.vexp2 vd va mg rm) := by
    rw [decode_major_20 _ _ _ (fMaj_packV ..)]
    delta lone decVar
    simp only [fLen_packV, vVd_packV, vVa_packV, vVb_packV, vVc_packV, fFn_packV, vMg_packV, vRm_packV, extract_12_2_packV, extract_14_1_packV, extract_12_1_packV, extract_13_1_packV, extract_12_6_packV, extract_12_4_packV, extract_16_1_packV, extract_17_1_packV, extract_16_2_packV, imVc_lo, imVc_hi, uVc_0, uVc_1, uVc_2, satVc_0, satVc_1, satVc_2, hiVb_loVc, ext6, tt_tag, tt_n, tt_5, tag_lo, tag_4, tag_5, tag_45, hf_lo, hf_hi, bit1_eq]
    have hk : (rmOk rm) = true := hw
    exact guardI_true (by simp [hk])
  exact ⟨e, len1 (fLen_packV ..)⟩
theorem vlog2 (vd : VReg) (va : VReg) (mg : Reg) (rm : BitVec 2) : Statement (.vlog2 vd va mg rm) := fun hw _ => by
  have e : decodeInstr (packV 0x20 vd va 0 0 15 mg rm) 0 0 = some (.vlog2 vd va mg rm) := by
    rw [decode_major_20 _ _ _ (fMaj_packV ..)]
    delta lone decVar
    simp only [fLen_packV, vVd_packV, vVa_packV, vVb_packV, vVc_packV, fFn_packV, vMg_packV, vRm_packV, extract_12_2_packV, extract_14_1_packV, extract_12_1_packV, extract_13_1_packV, extract_12_6_packV, extract_12_4_packV, extract_16_1_packV, extract_17_1_packV, extract_16_2_packV, imVc_lo, imVc_hi, uVc_0, uVc_1, uVc_2, satVc_0, satVc_1, satVc_2, hiVb_loVc, ext6, tt_tag, tt_n, tt_5, tag_lo, tag_4, tag_5, tag_45, hf_lo, hf_hi, bit1_eq]
    have hk : (rmOk rm) = true := hw
    exact guardI_true (by simp [hk])
  exact ⟨e, len1 (fLen_packV ..)⟩
theorem vsin (vd : VReg) (va : VReg) (mg : Reg) (rm : BitVec 2) : Statement (.vsin vd va mg rm) := fun hw _ => by
  have e : decodeInstr (packV 0x20 vd va 0 0 16 mg rm) 0 0 = some (.vsin vd va mg rm) := by
    rw [decode_major_20 _ _ _ (fMaj_packV ..)]
    delta lone decVar
    simp only [fLen_packV, vVd_packV, vVa_packV, vVb_packV, vVc_packV, fFn_packV, vMg_packV, vRm_packV, extract_12_2_packV, extract_14_1_packV, extract_12_1_packV, extract_13_1_packV, extract_12_6_packV, extract_12_4_packV, extract_16_1_packV, extract_17_1_packV, extract_16_2_packV, imVc_lo, imVc_hi, uVc_0, uVc_1, uVc_2, satVc_0, satVc_1, satVc_2, hiVb_loVc, ext6, tt_tag, tt_n, tt_5, tag_lo, tag_4, tag_5, tag_45, hf_lo, hf_hi, bit1_eq]
    have hk : (rmOk rm) = true := hw
    exact guardI_true (by simp [hk])
  exact ⟨e, len1 (fLen_packV ..)⟩
theorem vcos (vd : VReg) (va : VReg) (mg : Reg) (rm : BitVec 2) : Statement (.vcos vd va mg rm) := fun hw _ => by
  have e : decodeInstr (packV 0x20 vd va 0 0 17 mg rm) 0 0 = some (.vcos vd va mg rm) := by
    rw [decode_major_20 _ _ _ (fMaj_packV ..)]
    delta lone decVar
    simp only [fLen_packV, vVd_packV, vVa_packV, vVb_packV, vVc_packV, fFn_packV, vMg_packV, vRm_packV, extract_12_2_packV, extract_14_1_packV, extract_12_1_packV, extract_13_1_packV, extract_12_6_packV, extract_12_4_packV, extract_16_1_packV, extract_17_1_packV, extract_16_2_packV, imVc_lo, imVc_hi, uVc_0, uVc_1, uVc_2, satVc_0, satVc_1, satVc_2, hiVb_loVc, ext6, tt_tag, tt_n, tt_5, tag_lo, tag_4, tag_5, tag_45, hf_lo, hf_hi, bit1_eq]
    have hk : (rmOk rm) = true := hw
    exact guardI_true (by simp [hk])
  exact ⟨e, len1 (fLen_packV ..)⟩
theorem vand (vd : VReg) (va : VReg) (vb : VReg) (mg : Reg) : Statement (.vand vd va vb mg) := fun _ _ => by
  have e : decodeInstr (packV 0x20 vd va vb 0 18 mg 0) 0 0 = some (.vand vd va vb mg) := by
    rw [decode_major_20 _ _ _ (fMaj_packV ..)]
    delta lone decVar
    simp only [fLen_packV, vVd_packV, vVa_packV, vVb_packV, vVc_packV, fFn_packV, vMg_packV, vRm_packV, extract_12_2_packV, extract_14_1_packV, extract_12_1_packV, extract_13_1_packV, extract_12_6_packV, extract_12_4_packV, extract_16_1_packV, extract_17_1_packV, extract_16_2_packV, imVc_lo, imVc_hi, uVc_0, uVc_1, uVc_2, satVc_0, satVc_1, satVc_2, hiVb_loVc, ext6, tt_tag, tt_n, tt_5, tag_lo, tag_4, tag_5, tag_45, hf_lo, hf_hi, bit1_eq]
    rfl
  exact ⟨e, len1 (fLen_packV ..)⟩
theorem vor (vd : VReg) (va : VReg) (vb : VReg) (mg : Reg) : Statement (.vor vd va vb mg) := fun _ _ => by
  have e : decodeInstr (packV 0x20 vd va vb 0 19 mg 0) 0 0 = some (.vor vd va vb mg) := by
    rw [decode_major_20 _ _ _ (fMaj_packV ..)]
    delta lone decVar
    simp only [fLen_packV, vVd_packV, vVa_packV, vVb_packV, vVc_packV, fFn_packV, vMg_packV, vRm_packV, extract_12_2_packV, extract_14_1_packV, extract_12_1_packV, extract_13_1_packV, extract_12_6_packV, extract_12_4_packV, extract_16_1_packV, extract_17_1_packV, extract_16_2_packV, imVc_lo, imVc_hi, uVc_0, uVc_1, uVc_2, satVc_0, satVc_1, satVc_2, hiVb_loVc, ext6, tt_tag, tt_n, tt_5, tag_lo, tag_4, tag_5, tag_45, hf_lo, hf_hi, bit1_eq]
    rfl
  exact ⟨e, len1 (fLen_packV ..)⟩
theorem vxor (vd : VReg) (va : VReg) (vb : VReg) (mg : Reg) : Statement (.vxor vd va vb mg) := fun _ _ => by
  have e : decodeInstr (packV 0x20 vd va vb 0 20 mg 0) 0 0 = some (.vxor vd va vb mg) := by
    rw [decode_major_20 _ _ _ (fMaj_packV ..)]
    delta lone decVar
    simp only [fLen_packV, vVd_packV, vVa_packV, vVb_packV, vVc_packV, fFn_packV, vMg_packV, vRm_packV, extract_12_2_packV, extract_14_1_packV, extract_12_1_packV, extract_13_1_packV, extract_12_6_packV, extract_12_4_packV, extract_16_1_packV, extract_17_1_packV, extract_16_2_packV, imVc_lo, imVc_hi, uVc_0, uVc_1, uVc_2, satVc_0, satVc_1, satVc_2, hiVb_loVc, ext6, tt_tag, tt_n, tt_5, tag_lo, tag_4, tag_5, tag_45, hf_lo, hf_hi, bit1_eq]
    rfl
  exact ⟨e, len1 (fLen_packV ..)⟩
theorem vshl (vd : VReg) (va : VReg) (vb : VReg) (mg : Reg) : Statement (.vshl vd va vb mg) := fun _ _ => by
  have e : decodeInstr (packV 0x20 vd va vb 0 21 mg 0) 0 0 = some (.vshl vd va vb mg) := by
    rw [decode_major_20 _ _ _ (fMaj_packV ..)]
    delta lone decVar
    simp only [fLen_packV, vVd_packV, vVa_packV, vVb_packV, vVc_packV, fFn_packV, vMg_packV, vRm_packV, extract_12_2_packV, extract_14_1_packV, extract_12_1_packV, extract_13_1_packV, extract_12_6_packV, extract_12_4_packV, extract_16_1_packV, extract_17_1_packV, extract_16_2_packV, imVc_lo, imVc_hi, uVc_0, uVc_1, uVc_2, satVc_0, satVc_1, satVc_2, hiVb_loVc, ext6, tt_tag, tt_n, tt_5, tag_lo, tag_4, tag_5, tag_45, hf_lo, hf_hi, bit1_eq]
    rfl
  exact ⟨e, len1 (fLen_packV ..)⟩
theorem vshr (vd : VReg) (va : VReg) (vb : VReg) (mg : Reg) : Statement (.vshr vd va vb mg) := fun _ _ => by
  have e : decodeInstr (packV 0x20 vd va vb 0 22 mg 0) 0 0 = some (.vshr vd va vb mg) := by
    rw [decode_major_20 _ _ _ (fMaj_packV ..)]
    delta lone decVar
    simp only [fLen_packV, vVd_packV, vVa_packV, vVb_packV, vVc_packV, fFn_packV, vMg_packV, vRm_packV, extract_12_2_packV, extract_14_1_packV, extract_12_1_packV, extract_13_1_packV, extract_12_6_packV, extract_12_4_packV, extract_16_1_packV, extract_17_1_packV, extract_16_2_packV, imVc_lo, imVc_hi, uVc_0, uVc_1, uVc_2, satVc_0, satVc_1, satVc_2, hiVb_loVc, ext6, tt_tag, tt_n, tt_5, tag_lo, tag_4, tag_5, tag_45, hf_lo, hf_hi, bit1_eq]
    rfl
  exact ⟨e, len1 (fLen_packV ..)⟩
theorem vsar (vd : VReg) (va : VReg) (vb : VReg) (mg : Reg) : Statement (.vsar vd va vb mg) := fun _ _ => by
  have e : decodeInstr (packV 0x20 vd va vb 0 23 mg 0) 0 0 = some (.vsar vd va vb mg) := by
    rw [decode_major_20 _ _ _ (fMaj_packV ..)]
    delta lone decVar
    simp only [fLen_packV, vVd_packV, vVa_packV, vVb_packV, vVc_packV, fFn_packV, vMg_packV, vRm_packV, extract_12_2_packV, extract_14_1_packV, extract_12_1_packV, extract_13_1_packV, extract_12_6_packV, extract_12_4_packV, extract_16_1_packV, extract_17_1_packV, extract_16_2_packV, imVc_lo, imVc_hi, uVc_0, uVc_1, uVc_2, satVc_0, satVc_1, satVc_2, hiVb_loVc, ext6, tt_tag, tt_n, tt_5, tag_lo, tag_4, tag_5, tag_45, hf_lo, hf_hi, bit1_eq]
    rfl
  exact ⟨e, len1 (fLen_packV ..)⟩
theorem vceq (vd : VReg) (va : VReg) (vb : VReg) (mg : Reg) : Statement (.vceq vd va vb mg) := fun _ _ => by
  have e : decodeInstr (packV 0x20 vd va vb 0 24 mg 0) 0 0 = some (.vceq vd va vb mg) := by
    rw [decode_major_20 _ _ _ (fMaj_packV ..)]
    delta lone decVar
    simp only [fLen_packV, vVd_packV, vVa_packV, vVb_packV, vVc_packV, fFn_packV, vMg_packV, vRm_packV, extract_12_2_packV, extract_14_1_packV, extract_12_1_packV, extract_13_1_packV, extract_12_6_packV, extract_12_4_packV, extract_16_1_packV, extract_17_1_packV, extract_16_2_packV, imVc_lo, imVc_hi, uVc_0, uVc_1, uVc_2, satVc_0, satVc_1, satVc_2, hiVb_loVc, ext6, tt_tag, tt_n, tt_5, tag_lo, tag_4, tag_5, tag_45, hf_lo, hf_hi, bit1_eq]
    rfl
  exact ⟨e, len1 (fLen_packV ..)⟩
theorem vclt (vd : VReg) (va : VReg) (vb : VReg) (u : Bool) (mg : Reg) : Statement (.vclt vd va vb u mg) := fun _ _ => by
  have e : decodeInstr (packV 0x20 vd va vb (uVc u) 25 mg 0) 0 0 = some (.vclt vd va vb u mg) := by
    rw [decode_major_20 _ _ _ (fMaj_packV ..)]
    delta lone decVar
    simp only [fLen_packV, vVd_packV, vVa_packV, vVb_packV, vVc_packV, fFn_packV, vMg_packV, vRm_packV, extract_12_2_packV, extract_14_1_packV, extract_12_1_packV, extract_13_1_packV, extract_12_6_packV, extract_12_4_packV, extract_16_1_packV, extract_17_1_packV, extract_16_2_packV, imVc_lo, imVc_hi, uVc_0, uVc_1, uVc_2, satVc_0, satVc_1, satVc_2, hiVb_loVc, ext6, tt_tag, tt_n, tt_5, tag_lo, tag_4, tag_5, tag_45, hf_lo, hf_hi, bit1_eq]
    rfl
  exact ⟨e, len1 (fLen_packV ..)⟩
theorem vcle (vd : VReg) (va : VReg) (vb : VReg) (u : Bool) (mg : Reg) : Statement (.vcle vd va vb u mg) := fun _ _ => by
  have e : decodeInstr (packV 0x20 vd va vb (uVc u) 26 mg 0) 0 0 = some (.vcle vd va vb u mg) := by
    rw [decode_major_20 _ _ _ (fMaj_packV ..)]
    delta lone decVar
    simp only [fLen_packV, vVd_packV, vVa_packV, vVb_packV, vVc_packV, fFn_packV, vMg_packV, vRm_packV, extract_12_2_packV, extract_14_1_packV, extract_12_1_packV, extract_13_1_packV, extract_12_6_packV, extract_12_4_packV, extract_16_1_packV, extract_17_1_packV, extract_16_2_packV, imVc_lo, imVc_hi, uVc_0, uVc_1, uVc_2, satVc_0, satVc_1, satVc_2, hiVb_loVc, ext6, tt_tag, tt_n, tt_5, tag_lo, tag_4, tag_5, tag_45, hf_lo, hf_hi, bit1_eq]
    rfl
  exact ⟨e, len1 (fLen_packV ..)⟩
theorem vsel (vd : VReg) (va : VReg) (vb : VReg) (vc : VReg) (mg : Reg) : Statement (.vsel vd va vb vc mg) := fun _ _ => by
  have e : decodeInstr (packV 0x20 vd va vb vc 27 mg 0) 0 0 = some (.vsel vd va vb vc mg) := by
    rw [decode_major_20 _ _ _ (fMaj_packV ..)]
    delta lone decVar
    simp only [fLen_packV, vVd_packV, vVa_packV, vVb_packV, vVc_packV, fFn_packV, vMg_packV, vRm_packV, extract_12_2_packV, extract_14_1_packV, extract_12_1_packV, extract_13_1_packV, extract_12_6_packV, extract_12_4_packV, extract_16_1_packV, extract_17_1_packV, extract_16_2_packV, imVc_lo, imVc_hi, uVc_0, uVc_1, uVc_2, satVc_0, satVc_1, satVc_2, hiVb_loVc, ext6, tt_tag, tt_n, tt_5, tag_lo, tag_4, tag_5, tag_45, hf_lo, hf_hi, bit1_eq]
    rfl
  exact ⟨e, len1 (fLen_packV ..)⟩
theorem vld (v : VReg) (a : Reg) (t : BitVec 4) (mg : Reg) (off : BitVec 4) : Statement (.vld v a t mg off) := fun hw _ => by
  have e : decodeInstr (packVM 0x21 v a t 0 mg off) 0 0 = some (.vld v a t mg off) := by
    rw [decode_major_21 _ _ _ (fMaj_packVM ..)]
    delta lone decVls
    simp only [fLen_packVM, mV_packVM, mA_packVM, mB_packVM, mFn_packVM, mMg_packVM, mOff_packVM, extract_0_3_packVM, extract_3_1_packVM, extract_2_2_packVM, extract_0_2_packVM, n1_lo, n1_hi, f2_lo, f2_hi]
    have hk : (tagIn t 1 10) = true := hw
    exact guardI_true (by simp [hk])
  exact ⟨e, len1 (fLen_packVM ..)⟩
theorem vst (v : VReg) (a : Reg) (mg : Reg) (off : BitVec 4) : Statement (.vst v a mg off) := fun _ _ => by
  have e : decodeInstr (packVM 0x21 v a 0 1 mg off) 0 0 = some (.vst v a mg off) := by
    rw [decode_major_21 _ _ _ (fMaj_packVM ..)]
    delta lone decVls
    simp only [fLen_packVM, mV_packVM, mA_packVM, mB_packVM, mFn_packVM, mMg_packVM, mOff_packVM, extract_0_3_packVM, extract_3_1_packVM, extract_2_2_packVM, extract_0_2_packVM, n1_lo, n1_hi, f2_lo, f2_hi]
    rfl
  exact ⟨e, len1 (fLen_packVM ..)⟩
theorem vlds (v : VReg) (a : Reg) (b : Reg) (mg : Reg) (t : BitVec 4) : Statement (.vlds v a b mg t) := fun hw _ => by
  have e : decodeInstr (packVM 0x21 v a b 2 mg t) 0 0 = some (.vlds v a b mg t) := by
    rw [decode_major_21 _ _ _ (fMaj_packVM ..)]
    delta lone decVls
    simp only [fLen_packVM, mV_packVM, mA_packVM, mB_packVM, mFn_packVM, mMg_packVM, mOff_packVM, extract_0_3_packVM, extract_3_1_packVM, extract_2_2_packVM, extract_0_2_packVM, n1_lo, n1_hi, f2_lo, f2_hi]
    have hk : (tagIn t 1 10) = true := hw
    exact guardI_true (by simp [hk])
  exact ⟨e, len1 (fLen_packVM ..)⟩
theorem vsts (v : VReg) (a : Reg) (b : Reg) (mg : Reg) : Statement (.vsts v a b mg) := fun _ _ => by
  have e : decodeInstr (packVM 0x21 v a b 3 mg 0) 0 0 = some (.vsts v a b mg) := by
    rw [decode_major_21 _ _ _ (fMaj_packVM ..)]
    delta lone decVls
    simp only [fLen_packVM, mV_packVM, mA_packVM, mB_packVM, mFn_packVM, mMg_packVM, mOff_packVM, extract_0_3_packVM, extract_3_1_packVM, extract_2_2_packVM, extract_0_2_packVM, n1_lo, n1_hi, f2_lo, f2_hi]
    rfl
  exact ⟨e, len1 (fLen_packVM ..)⟩
theorem vldb (v : VReg) (a : Reg) (b : Reg) (f : BitVec 2) : Statement (.vldb v a b f) := fun _ _ => by
  have e : decodeInstr (packVM 0x21 v a b 4 0 ((0 : BitVec 2) ++ f)) 0 0 = some (.vldb v a b f) := by
    rw [decode_major_21 _ _ _ (fMaj_packVM ..)]
    delta lone decVls
    simp only [fLen_packVM, mV_packVM, mA_packVM, mB_packVM, mFn_packVM, mMg_packVM, mOff_packVM, extract_0_3_packVM, extract_3_1_packVM, extract_2_2_packVM, extract_0_2_packVM, n1_lo, n1_hi, f2_lo, f2_hi]
    rfl
  exact ⟨e, len1 (fLen_packVM ..)⟩
theorem vstb (v : VReg) (a : Reg) (b : Reg) : Statement (.vstb v a b) := fun _ _ => by
  have e : decodeInstr (packVM 0x21 v a b 5 0 0) 0 0 = some (.vstb v a b) := by
    rw [decode_major_21 _ _ _ (fMaj_packVM ..)]
    delta lone decVls
    simp only [fLen_packVM, mV_packVM, mA_packVM, mB_packVM, mFn_packVM, mMg_packVM, mOff_packVM, extract_0_3_packVM, extract_3_1_packVM, extract_2_2_packVM, extract_0_2_packVM, n1_lo, n1_hi, f2_lo, f2_hi]
    rfl
  exact ⟨e, len1 (fLen_packVM ..)⟩
theorem vgath (v : VReg) (a : Reg) (t : BitVec 4) (mg : Reg) (vi : VReg) : Statement (.vgath v a t mg vi) := fun hw _ => by
  have e : decodeInstr (packVM 0x21 v a t 6 mg ((0 : BitVec 1) ++ vi)) 0 0 = some (.vgath v a t mg vi) := by
    rw [decode_major_21 _ _ _ (fMaj_packVM ..)]
    delta lone decVls
    simp only [fLen_packVM, mV_packVM, mA_packVM, mB_packVM, mFn_packVM, mMg_packVM, mOff_packVM, extract_0_3_packVM, extract_3_1_packVM, extract_2_2_packVM, extract_0_2_packVM, n1_lo, n1_hi, f2_lo, f2_hi]
    have hk : (tagIn t 2 8) = true := hw
    exact guardI_true (by simp [hk])
  exact ⟨e, len1 (fLen_packVM ..)⟩
theorem vscat (v : VReg) (a : Reg) (mg : Reg) (vi : VReg) : Statement (.vscat v a mg vi) := fun _ _ => by
  have e : decodeInstr (packVM 0x21 v a 0 7 mg ((0 : BitVec 1) ++ vi)) 0 0 = some (.vscat v a mg vi) := by
    rw [decode_major_21 _ _ _ (fMaj_packVM ..)]
    delta lone decVls
    simp only [fLen_packVM, mV_packVM, mA_packVM, mB_packVM, mFn_packVM, mMg_packVM, mOff_packVM, extract_0_3_packVM, extract_3_1_packVM, extract_2_2_packVM, extract_0_2_packVM, n1_lo, n1_hi, f2_lo, f2_hi]
    rfl
  exact ⟨e, len1 (fLen_packVM ..)⟩
theorem vbcst (v : VReg) (a : Reg) (t : BitVec 4) (mg : Reg) (off : BitVec 4) : Statement (.vbcst v a t mg off) := fun hw _ => by
  have e : decodeInstr (packVM 0x21 v a t 8 mg off) 0 0 = some (.vbcst v a t mg off) := by
    rw [decode_major_21 _ _ _ (fMaj_packVM ..)]
    delta lone decVls
    simp only [fLen_packVM, mV_packVM, mA_packVM, mB_packVM, mFn_packVM, mMg_packVM, mOff_packVM, extract_0_3_packVM, extract_3_1_packVM, extract_2_2_packVM, extract_0_2_packVM, n1_lo, n1_hi, f2_lo, f2_hi]
    have hk : (tagIn t 1 10) = true := hw
    exact guardI_true (by simp [hk])
  exact ⟨e, len1 (fLen_packVM ..)⟩
theorem vcvt (vd : VReg) (va : VReg) (n : Bool) (t : BitVec 4) (mg : Reg) (rm : BitVec 2) : Statement (.vcvt vd va n t mg rm) := fun hw _ => by
  have e : decodeInstr (packV 0x22 vd va (hiVb ((0 : BitVec 1) ++ bit1 n ++ t)) (loVc ((0 : BitVec 1) ++ bit1 n ++ t)) 0 mg rm) 0 0 = some (.vcvt vd va n t mg rm) := by
    rw [decode_major_22 _ _ _ (fMaj_packV ..)]
    delta lone decVcv
    simp only [fLen_packV, vVd_packV, vVa_packV, vVb_packV, vVc_packV, fFn_packV, vMg_packV, vRm_packV, extract_12_2_packV, extract_14_1_packV, extract_12_1_packV, extract_13_1_packV, extract_12_6_packV, extract_12_4_packV, extract_16_1_packV, extract_17_1_packV, extract_16_2_packV, imVc_lo, imVc_hi, uVc_0, uVc_1, uVc_2, satVc_0, satVc_1, satVc_2, hiVb_loVc, ext6, tt_tag, tt_n, tt_5, tag_lo, tag_4, tag_5, tag_45, hf_lo, hf_hi, bit1_eq]
    have hk : (tagIn t 1 10 && rmOk rm) = true := hw
    exact guardI_true (by simp [hk])
  exact ⟨e, len1 (fLen_packV ..)⟩
theorem vqnt (vd : VReg) (va : VReg) (vb : VReg) (f : BitVec 2) (h : Bool) : Statement (.vqnt vd va vb f h) := fun hw _ => by
  have e : decodeInstr (packV 0x22 vd va vb (bit1 h ++ f) 1 0 0) 0 0 = some (.vqnt vd va vb f h) := by
    rw [decode_major_22 _ _ _ (fMaj_packV ..)]
    delta lone decVcv
    simp only [fLen_packV, vVd_packV, vVa_packV, vVb_packV, vVc_packV, fFn_packV, vMg_packV, vRm_packV, extract_12_2_packV, extract_14_1_packV, extract_12_1_packV, extract_13_1_packV, extract_12_6_packV, extract_12_4_packV, extract_16_1_packV, extract_17_1_packV, extract_16_2_packV, imVc_lo, imVc_hi, uVc_0, uVc_1, uVc_2, satVc_0, satVc_1, satVc_2, hiVb_loVc, ext6, tt_tag, tt_n, tt_5, tag_lo, tag_4, tag_5, tag_45, hf_lo, hf_hi, bit1_eq]
    have hk : (!h || f == 1 || f == 3) = true := hw
    cases h
    · rfl
    · exact guardI_true (by simpa using hk)
  exact ⟨e, len1 (fLen_packV ..)⟩
theorem vdq (vd : VReg) (va : VReg) (blk : BitVec 2) (f16 : Bool) (mg : Reg) : Statement (.vdq vd va blk f16 mg) := fun _ _ => by
  have e : decodeInstr (packV 0x22 vd va 0 (bit1 f16 ++ blk) 2 mg 0) 0 0 = some (.vdq vd va blk f16 mg) := by
    rw [decode_major_22 _ _ _ (fMaj_packV ..)]
    delta lone decVcv
    simp only [fLen_packV, vVd_packV, vVa_packV, vVb_packV, vVc_packV, fFn_packV, vMg_packV, vRm_packV, extract_12_2_packV, extract_14_1_packV, extract_12_1_packV, extract_13_1_packV, extract_12_6_packV, extract_12_4_packV, extract_16_1_packV, extract_17_1_packV, extract_16_2_packV, imVc_lo, imVc_hi, uVc_0, uVc_1, uVc_2, satVc_0, satVc_1, satVc_2, hiVb_loVc, ext6, tt_tag, tt_n, tt_5, tag_lo, tag_4, tag_5, tag_45, hf_lo, hf_hi, bit1_eq]
    rfl
  exact ⟨e, len1 (fLen_packV ..)⟩
theorem vtag (vd : VReg) (va : VReg) (t : BitVec 4) : Statement (.vtag vd va t) := fun hw _ => by
  have e : decodeInstr (packV 0x22 vd va (hiVb ((0 : BitVec 2) ++ t)) (loVc ((0 : BitVec 2) ++ t)) 3 0 0) 0 0 = some (.vtag vd va t) := by
    rw [decode_major_22 _ _ _ (fMaj_packV ..)]
    delta lone decVcv
    simp only [fLen_packV, vVd_packV, vVa_packV, vVb_packV, vVc_packV, fFn_packV, vMg_packV, vRm_packV, extract_12_2_packV, extract_14_1_packV, extract_12_1_packV, extract_13_1_packV, extract_12_6_packV, extract_12_4_packV, extract_16_1_packV, extract_17_1_packV, extract_16_2_packV, imVc_lo, imVc_hi, uVc_0, uVc_1, uVc_2, satVc_0, satVc_1, satVc_2, hiVb_loVc, ext6, tt_tag, tt_n, tt_5, tag_lo, tag_4, tag_5, tag_45, hf_lo, hf_hi, bit1_eq]
    have hk : (tagIn t 0 14) = true := hw
    exact guardI_true (by simp [hk])
  exact ⟨e, len1 (fLen_packV ..)⟩
theorem vtagq (vd : VReg) (va : VReg) : Statement (.vtagq vd va) := fun _ _ => by
  have e : decodeInstr (packV 0x22 vd va 0 0 4 0 0) 0 0 = some (.vtagq vd va) := by
    rw [decode_major_22 _ _ _ (fMaj_packV ..)]
    delta lone decVcv
    simp only [fLen_packV, vVd_packV, vVa_packV, vVb_packV, vVc_packV, fFn_packV, vMg_packV, vRm_packV, extract_12_2_packV, extract_14_1_packV, extract_12_1_packV, extract_13_1_packV, extract_12_6_packV, extract_12_4_packV, extract_16_1_packV, extract_17_1_packV, extract_16_2_packV, imVc_lo, imVc_hi, uVc_0, uVc_1, uVc_2, satVc_0, satVc_1, satVc_2, hiVb_loVc, ext6, tt_tag, tt_n, tt_5, tag_lo, tag_4, tag_5, tag_45, hf_lo, hf_hi, bit1_eq]
    rfl
  exact ⟨e, len1 (fLen_packV ..)⟩
theorem vperm (vd : VReg) (va : VReg) (vb : VReg) (mg : Reg) : Statement (.vperm vd va vb mg) := fun _ _ => by
  have e : decodeInstr (packV 0x23 vd va vb 0 0 mg 0) 0 0 = some (.vperm vd va vb mg) := by
    rw [decode_major_23 _ _ _ (fMaj_packV ..)]
    delta lone decVpr
    simp only [fLen_packV, vVd_packV, vVa_packV, vVb_packV, vVc_packV, fFn_packV, vMg_packV, vRm_packV, extract_12_2_packV, extract_14_1_packV, extract_12_1_packV, extract_13_1_packV, extract_12_6_packV, extract_12_4_packV, extract_16_1_packV, extract_17_1_packV, extract_16_2_packV, imVc_lo, imVc_hi, uVc_0, uVc_1, uVc_2, satVc_0, satVc_1, satVc_2, hiVb_loVc, ext6, tt_tag, tt_n, tt_5, tag_lo, tag_4, tag_5, tag_45, hf_lo, hf_hi, bit1_eq]
    rfl
  exact ⟨e, len1 (fLen_packV ..)⟩
theorem vreda (vd : VReg) (va : VReg) (im : BitVec 2) (mg : Reg) (rm : BitVec 2) : Statement (.vreda vd va im mg rm) := fun hw _ => by
  have e : decodeInstr (packV 0x23 vd va 0 (imVc im) 1 mg rm) 0 0 = some (.vreda vd va im mg rm) := by
    rw [decode_major_23 _ _ _ (fMaj_packV ..)]
    delta lone decVpr
    simp only [fLen_packV, vVd_packV, vVa_packV, vVb_packV, vVc_packV, fFn_packV, vMg_packV, vRm_packV, extract_12_2_packV, extract_14_1_packV, extract_12_1_packV, extract_13_1_packV, extract_12_6_packV, extract_12_4_packV, extract_16_1_packV, extract_17_1_packV, extract_16_2_packV, imVc_lo, imVc_hi, uVc_0, uVc_1, uVc_2, satVc_0, satVc_1, satVc_2, hiVb_loVc, ext6, tt_tag, tt_n, tt_5, tag_lo, tag_4, tag_5, tag_45, hf_lo, hf_hi, bit1_eq]
    have hk : (rmOk rm) = true := hw
    exact guardI_true (by simp [hk])
  exact ⟨e, len1 (fLen_packV ..)⟩
theorem vredx (vd : VReg) (va : VReg) (u : Bool) (mg : Reg) : Statement (.vredx vd va u mg) := fun _ _ => by
  have e : decodeInstr (packV 0x23 vd va 0 (uVc u) 2 mg 0) 0 0 = some (.vredx vd va u mg) := by
    rw [decode_major_23 _ _ _ (fMaj_packV ..)]
    delta lone decVpr
    simp only [fLen_packV, vVd_packV, vVa_packV, vVb_packV, vVc_packV, fFn_packV, vMg_packV, vRm_packV, extract_12_2_packV, extract_14_1_packV, extract_12_1_packV, extract_13_1_packV, extract_12_6_packV, extract_12_4_packV, extract_16_1_packV, extract_17_1_packV, extract_16_2_packV, imVc_lo, imVc_hi, uVc_0, uVc_1, uVc_2, satVc_0, satVc_1, satVc_2, hiVb_loVc, ext6, tt_tag, tt_n, tt_5, tag_lo, tag_4, tag_5, tag_45, hf_lo, hf_hi, bit1_eq]
    rfl
  exact ⟨e, len1 (fLen_packV ..)⟩
theorem vredn (vd : VReg) (va : VReg) (u : Bool) (mg : Reg) : Statement (.vredn vd va u mg) := fun _ _ => by
  have e : decodeInstr (packV 0x23 vd va 0 (uVc u) 3 mg 0) 0 0 = some (.vredn vd va u mg) := by
    rw [decode_major_23 _ _ _ (fMaj_packV ..)]
    delta lone decVpr
    simp only [fLen_packV, vVd_packV, vVa_packV, vVb_packV, vVc_packV, fFn_packV, vMg_packV, vRm_packV, extract_12_2_packV, extract_14_1_packV, extract_12_1_packV, extract_13_1_packV, extract_12_6_packV, extract_12_4_packV, extract_16_1_packV, extract_17_1_packV, extract_16_2_packV, imVc_lo, imVc_hi, uVc_0, uVc_1, uVc_2, satVc_0, satVc_1, satVc_2, hiVb_loVc, ext6, tt_tag, tt_n, tt_5, tag_lo, tag_4, tag_5, tag_45, hf_lo, hf_hi, bit1_eq]
    rfl
  exact ⟨e, len1 (fLen_packV ..)⟩
theorem vscan (vd : VReg) (va : VReg) (im : BitVec 2) (mg : Reg) (rm : BitVec 2) : Statement (.vscan vd va im mg rm) := fun hw _ => by
  have e : decodeInstr (packV 0x23 vd va 0 (imVc im) 4 mg rm) 0 0 = some (.vscan vd va im mg rm) := by
    rw [decode_major_23 _ _ _ (fMaj_packV ..)]
    delta lone decVpr
    simp only [fLen_packV, vVd_packV, vVa_packV, vVb_packV, vVc_packV, fFn_packV, vMg_packV, vRm_packV, extract_12_2_packV, extract_14_1_packV, extract_12_1_packV, extract_13_1_packV, extract_12_6_packV, extract_12_4_packV, extract_16_1_packV, extract_17_1_packV, extract_16_2_packV, imVc_lo, imVc_hi, uVc_0, uVc_1, uVc_2, satVc_0, satVc_1, satVc_2, hiVb_loVc, ext6, tt_tag, tt_n, tt_5, tag_lo, tag_4, tag_5, tag_45, hf_lo, hf_hi, bit1_eq]
    have hk : (rmOk rm) = true := hw
    exact guardI_true (by simp [hk])
  exact ⟨e, len1 (fLen_packV ..)⟩
theorem vmsk (g : Reg) (va : VReg) : Statement (.vmsk g va) := fun _ _ => by
  have e : decodeInstr (packV 0x23 0 va 0 0 5 g 0) 0 0 = some (.vmsk g va) := by
    rw [decode_major_23 _ _ _ (fMaj_packV ..)]
    delta lone decVpr
    simp only [fLen_packV, vVd_packV, vVa_packV, vVb_packV, vVc_packV, fFn_packV, vMg_packV, vRm_packV, extract_12_2_packV, extract_14_1_packV, extract_12_1_packV, extract_13_1_packV, extract_12_6_packV, extract_12_4_packV, extract_16_1_packV, extract_17_1_packV, extract_16_2_packV, imVc_lo, imVc_hi, uVc_0, uVc_1, uVc_2, satVc_0, satVc_1, satVc_2, hiVb_loVc, ext6, tt_tag, tt_n, tt_5, tag_lo, tag_4, tag_5, tag_45, hf_lo, hf_hi, bit1_eq]
    rfl
  exact ⟨e, len1 (fLen_packV ..)⟩
theorem vins (vd : VReg) (g : Reg) (k : BitVec 6) : Statement (.vins vd g k) := fun _ _ => by
  have e : decodeInstr (packV 0x23 vd 0 (hiVb k) (loVc k) 6 g 0) 0 0 = some (.vins vd g k) := by
    rw [decode_major_23 _ _ _ (fMaj_packV ..)]
    delta lone decVpr
    simp only [fLen_packV, vVd_packV, vVa_packV, vVb_packV, vVc_packV, fFn_packV, vMg_packV, vRm_packV, extract_12_2_packV, extract_14_1_packV, extract_12_1_packV, extract_13_1_packV, extract_12_6_packV, extract_12_4_packV, extract_16_1_packV, extract_17_1_packV, extract_16_2_packV, imVc_lo, imVc_hi, uVc_0, uVc_1, uVc_2, satVc_0, satVc_1, satVc_2, hiVb_loVc, ext6, tt_tag, tt_n, tt_5, tag_lo, tag_4, tag_5, tag_45, hf_lo, hf_hi, bit1_eq]
    rfl
  exact ⟨e, len1 (fLen_packV ..)⟩
theorem vext (g : Reg) (va : VReg) (k : BitVec 6) (sx : Bool) : Statement (.vext g va k sx) := fun _ _ => by
  have e : decodeInstr (packV 0x23 0 va (hiVb k) (loVc k) 7 g (wBit sx)) 0 0 = some (.vext g va k sx) := by
    rw [decode_major_23 _ _ _ (fMaj_packV ..)]
    delta lone decVpr
    simp only [fLen_packV, vVd_packV, vVa_packV, vVb_packV, vVc_packV, fFn_packV, vMg_packV, vRm_packV, extract_12_2_packV, extract_14_1_packV, extract_12_1_packV, extract_13_1_packV, extract_12_6_packV, extract_12_4_packV, extract_16_1_packV, extract_17_1_packV, extract_16_2_packV, imVc_lo, imVc_hi, uVc_0, uVc_1, uVc_2, satVc_0, satVc_1, satVc_2, hiVb_loVc, ext6, tt_tag, tt_n, tt_5, tag_lo, tag_4, tag_5, tag_45, hf_lo, hf_hi, bit1_eq]
    cases sx <;> rfl
  exact ⟨e, len1 (fLen_packV ..)⟩
theorem vspl (vd : VReg) (g : Reg) (t : BitVec 4) : Statement (.vspl vd g t) := fun hw _ => by
  have e : decodeInstr (packV 0x23 vd 0 (hiVb ((0 : BitVec 2) ++ t)) (loVc ((0 : BitVec 2) ++ t)) 8 g 0) 0 0 = some (.vspl vd g t) := by
    rw [decode_major_23 _ _ _ (fMaj_packV ..)]
    delta lone decVpr
    simp only [fLen_packV, vVd_packV, vVa_packV, vVb_packV, vVc_packV, fFn_packV, vMg_packV, vRm_packV, extract_12_2_packV, extract_14_1_packV, extract_12_1_packV, extract_13_1_packV, extract_12_6_packV, extract_12_4_packV, extract_16_1_packV, extract_17_1_packV, extract_16_2_packV, imVc_lo, imVc_hi, uVc_0, uVc_1, uVc_2, satVc_0, satVc_1, satVc_2, hiVb_loVc, ext6, tt_tag, tt_n, tt_5, tag_lo, tag_4, tag_5, tag_45, hf_lo, hf_hi, bit1_eq]
    have hk : (tagIn t 1 10) = true := hw
    exact guardI_true (by simp [hk])
  exact ⟨e, len1 (fLen_packV ..)⟩
theorem lmm (d : Reg) (a : Reg) (b : Reg) (af : BitVec 4) (bf : BitVec 4) (ng : BitVec 4) (kg : BitVec 11) (clear : Bool) (colg : BitVec 4) (m1 : BitVec 8) : Statement (.lmm d a b af bf ng kg clear colg m1) := fun hw _ => by
  have e : decodeInstr (packX 0x24 0 d a b 0) (af ++ bf ++ (0 : BitVec 4) ++ ng ++ (0 : BitVec 5) ++ kg : IWord) (bit1 clear ++ (0 : BitVec 19) ++ colg ++ m1 : IWord) = some (.lmm d a b af bf ng kg clear colg m1) := by
    rw [decode_major_24 _ _ _ (fMaj_packX ..)]
    delta ext decLom
    simp only [fLen_packX, xFn_packX, xD_packX, xA_packX, xB_packX, xC_packX, bit1_eq, extract_28_4_loomWord1, extract_24_4_loomWord1, extract_16_4_loomWord1, extract_0_11_loomWord1, extract_20_4_loomWord1, extract_11_5_loomWord1, extract_31_1_loomWord2, extract_12_19_loomWord2, extract_8_4_loomWord2, extract_0_8_loomWord2]
    exact guardI_true (by simp [hw])
  exact ⟨e, len3 (.inl (fLen_packX ..))⟩
theorem lmmg (d : Reg) (a : Reg) (b : Reg) (c : Reg) (af : BitVec 4) (bf : BitVec 4) (ng : BitVec 4) (kg : BitVec 11) (clear : Bool) (colg : BitVec 4) : Statement (.lmmg d a b c af bf ng kg clear colg) := fun hw _ => by
  have e : decodeInstr (packX 0x24 1 d a b c) (af ++ bf ++ (0 : BitVec 4) ++ ng ++ (0 : BitVec 5) ++ kg : IWord) (bit1 clear ++ (0 : BitVec 19) ++ colg ++ (0 : BitVec 8) : IWord) = some (.lmmg d a b c af bf ng kg clear colg) := by
    rw [decode_major_24 _ _ _ (fMaj_packX ..)]
    delta ext decLom
    simp only [fLen_packX, xFn_packX, xD_packX, xA_packX, xB_packX, xC_packX, bit1_eq, extract_28_4_loomWord1, extract_24_4_loomWord1, extract_16_4_loomWord1, extract_0_11_loomWord1, extract_20_4_loomWord1, extract_11_5_loomWord1, extract_31_1_loomWord2, extract_12_19_loomWord2, extract_8_4_loomWord2, extract_0_8_loomWord2]
    exact guardI_true (by simp [hw])
  exact ⟨e, len3 (.inl (fLen_packX ..))⟩
theorem lbld (d : Reg) (a : Reg) (b : Reg) (bf : BitVec 4) (ng : BitVec 4) (kg : BitVec 11) : Statement (.lbld d a b bf ng kg) := fun hw _ => by
  have e : decodeInstr (packX 0x24 2 d a b 0) ((0 : BitVec 4) ++ bf ++ (0 : BitVec 4) ++ ng ++ (0 : BitVec 5) ++ kg : IWord) 0 = some (.lbld d a b bf ng kg) := by
    rw [decode_major_24 _ _ _ (fMaj_packX ..)]
    delta ext decLom
    simp only [fLen_packX, xFn_packX, xD_packX, xA_packX, xB_packX, xC_packX, bit1_eq, extract_28_4_loomWord1, extract_24_4_loomWord1, extract_16_4_loomWord1, extract_0_11_loomWord1, extract_20_4_loomWord1, extract_11_5_loomWord1]
    exact guardI_true (by simp [hw])
  exact ⟨e, len3 (.inl (fLen_packX ..))⟩
theorem laclr (a : Reg) (row : BitVec 8) (colg : BitVec 4) (ncg : BitVec 4) : Statement (.laclr a row colg ncg) := fun hw _ => by
  have e : decodeInstr (packX 0x24 3 0 a 0 0) ((0 : BitVec 8) ++ row ++ (0 : BitVec 4) ++ colg ++ (0 : BitVec 4) ++ ncg : IWord) 0 = some (.laclr a row colg ncg) := by
    rw [decode_major_24 _ _ _ (fMaj_packX ..)]
    delta ext decLom
    simp only [fLen_packX, xFn_packX, xD_packX, xA_packX, xB_packX, xC_packX, bit1_eq, extract_24_8_accWord1, extract_12_4_accWord1, extract_4_4_accWord1, extract_16_8_accWord1, extract_8_4_accWord1, extract_0_4_accWord1]
    exact guardI_true (by simp [hw])
  exact ⟨e, len3 (.inl (fLen_packX ..))⟩
theorem lacp (d : Reg) (a : Reg) (row : BitVec 8) (colg : BitVec 4) (ncg : BitVec 4) (fmt : BitVec 4) : Statement (.lacp d a row colg ncg fmt) := fun hw _ => by
  have e : decodeInstr (packX 0x24 4 d a 0 0) ((0 : BitVec 8) ++ row ++ (0 : BitVec 4) ++ colg ++ (0 : BitVec 4) ++ ncg : IWord) ((0 : BitVec 28) ++ fmt : IWord) = some (.lacp d a row colg ncg fmt) := by
    rw [decode_major_24 _ _ _ (fMaj_packX ..)]
    delta ext decLom
    simp only [fLen_packX, xFn_packX, xD_packX, xA_packX, xB_packX, xC_packX, bit1_eq, extract_24_8_accWord1, extract_12_4_accWord1, extract_4_4_accWord1, extract_16_8_accWord1, extract_8_4_accWord1, extract_0_4_accWord1, extract_0_4_fmtWord2, extract_4_28_fmtWord2]
    exact guardI_true (by simp [hw])
  exact ⟨e, len3 (.inl (fLen_packX ..))⟩
theorem lacin (d : Reg) (a : Reg) (row : BitVec 8) (colg : BitVec 4) (ncg : BitVec 4) (fmt : BitVec 4) : Statement (.lacin d a row colg ncg fmt) := fun hw _ => by
  have e : decodeInstr (packX 0x24 5 d a 0 0) ((0 : BitVec 8) ++ row ++ (0 : BitVec 4) ++ colg ++ (0 : BitVec 4) ++ ncg : IWord) ((0 : BitVec 28) ++ fmt : IWord) = some (.lacin d a row colg ncg fmt) := by
    rw [decode_major_24 _ _ _ (fMaj_packX ..)]
    delta ext decLom
    simp only [fLen_packX, xFn_packX, xD_packX, xA_packX, xB_packX, xC_packX, bit1_eq, extract_24_8_accWord1, extract_12_4_accWord1, extract_4_4_accWord1, extract_16_8_accWord1, extract_8_4_accWord1, extract_0_4_accWord1, extract_0_4_fmtWord2, extract_4_28_fmtWord2]
    exact guardI_true (by simp [hw])
  exact ⟨e, len3 (.inl (fLen_packX ..))⟩
theorem lstat (d : Reg) : Statement (.lstat d) := fun _ _ => by
  have e : decodeInstr (packX 0x24 6 d 0 0 0) 0 0 = some (.lstat d) := by
    rw [decode_major_24 _ _ _ (fMaj_packX ..)]
    delta ext decLom
    simp only [fLen_packX, xFn_packX, xD_packX, xA_packX, xB_packX, xC_packX, bit1_eq]
    rfl
  exact ⟨e, len3 (.inl (fLen_packX ..))⟩
theorem pseed (a : Reg) : Statement (.pseed a) := fun _ _ => by
  have e : decodeInstr (packX 0x25 0 0 a 0 0) 0 0 = some (.pseed a) := by
    rw [decode_major_25 _ _ _ (fMaj_packX ..)]
    delta ext decPai
    simp only [fLen_packX, xFn_packX, xD_packX, xA_packX, xB_packX, xC_packX, bit1_eq]
    rfl
  exact ⟨e, len3 (.inl (fLen_packX ..))⟩
theorem ptake (d : Reg) (a : Reg) (b : Reg) : Statement (.ptake d a b) := fun hw _ => by
  have e : decodeInstr (packX 0x25 1 d a b 0) 0 0 = some (.ptake d a b) := by
    rw [decode_major_25 _ _ _ (fMaj_packX ..)]
    delta ext decPai
    simp only [fLen_packX, xFn_packX, xD_packX, xA_packX, xB_packX, xC_packX, bit1_eq]
    exact guardI_true (by simp [hw])
  exact ⟨e, len3 (.inl (fLen_packX ..))⟩
theorem pload (d : Reg) (a : Reg) (sx : Bool) (sz : BitVec 2) (off : BitVec 6) (treeB : Bool) : Statement (.pload d a sx sz off treeB) := fun hw _ => by
  have e : decodeInstr (packX 0x25 2 d a 0 0) ((0 : BitVec 13) ++ bit1 sx ++ sz ++ (0 : BitVec 2) ++ off ++ (0 : BitVec 7) ++ bit1 treeB : IWord) 0 = some (.pload d a sx sz off treeB) := by
    rw [decode_major_25 _ _ _ (fMaj_packX ..)]
    delta ext decPai
    simp only [fLen_packX, xFn_packX, xD_packX, xA_packX, xB_packX, xC_packX, bit1_eq, extract_18_1_loadWord1, extract_16_2_loadWord1, extract_8_6_loadWord1, extract_0_1_loadWord1, extract_19_13_loadWord1, extract_14_2_loadWord1, extract_1_7_loadWord1]
    exact guardI_true (by simp [hw])
  exact ⟨e, len3 (.inl (fLen_packX ..))⟩
theorem ptest (d : Reg) (a : Reg) (b : Reg) (c : Reg) : Statement (.ptest d a b c) := fun hw _ => by
  have e : decodeInstr (packX 0x25 3 d a b c) 0 0 = some (.ptest d a b c) := by
    rw [decode_major_25 _ _ _ (fMaj_packX ..)]
    delta ext decPai
    simp only [fLen_packX, xFn_packX, xD_packX, xA_packX, xB_packX, xC_packX, bit1_eq]
    exact guardI_true (by simp [hw])
  exact ⟨e, len3 (.inl (fLen_packX ..))⟩
theorem pfork (a : Reg) : Statement (.pfork a) := fun _ _ => by
  have e : decodeInstr (packX 0x25 4 0 a 0 0) 0 0 = some (.pfork a) := by
    rw [decode_major_25 _ _ _ (fMaj_packX ..)]
    delta ext decPai
    simp only [fLen_packX, xFn_packX, xD_packX, xA_packX, xB_packX, xC_packX, bit1_eq]
    rfl
  exact ⟨e, len3 (.inl (fLen_packX ..))⟩
theorem pdone : Statement (.pdone) := fun _ _ => by
  have e : decodeInstr (packX 0x25 5 0 0 0 0) 0 0 = some (.pdone) := by
    rw [decode_major_25 _ _ _ (fMaj_packX ..)]
    delta ext decPai
    simp only [fLen_packX, xFn_packX, xD_packX, xA_packX, xB_packX, xC_packX, bit1_eq]
    rfl
  exact ⟨e, len3 (.inl (fLen_packX ..))⟩
theorem pqry (d : Reg) (a : Reg) : Statement (.pqry d a) := fun _ _ => by
  have e : decodeInstr (packX 0x25 6 d a 0 0) 0 0 = some (.pqry d a) := by
    rw [decode_major_25 _ _ _ (fMaj_packX ..)]
    delta ext decPai
    simp only [fLen_packX, xFn_packX, xD_packX, xA_packX, xB_packX, xC_packX, bit1_eq]
    rfl
  exact ⟨e, len3 (.inl (fLen_packX ..))⟩
theorem fins (d : Reg) (a : Reg) (b : Reg) (c : Reg) : Statement (.fins d a b c) := fun _ _ => by
  have e : decodeInstr (packX 0x26 0 d a b c) 0 0 = some (.fins d a b c) := by
    rw [decode_major_26 _ _ _ (fMaj_packX ..)]
    delta ext decLyr
    simp only [fLen_packX, xFn_packX, xD_packX, xA_packX, xB_packX, xC_packX, bit1_eq]
    rfl
  exact ⟨e, len3 (.inl (fLen_packX ..))⟩
theorem lres (d : Reg) (a : Reg) (b : Reg) (c : Reg) : Statement (.lres d a b c) := fun _ _ => by
  have e : decodeInstr (packX 0x26 1 d a b c) 0 0 = some (.lres d a b c) := by
    rw [decode_major_26 _ _ _ (fMaj_packX ..)]
    delta ext decLyr
    simp only [fLen_packX, xFn_packX, xD_packX, xA_packX, xB_packX, xC_packX, bit1_eq]
    rfl
  exact ⟨e, len3 (.inl (fLen_packX ..))⟩
theorem lclr (d : Reg) (a : Reg) (b : Reg) (c : Reg) : Statement (.lclr d a b c) := fun _ _ => by
  have e : decodeInstr (packX 0x26 2 d a b c) 0 0 = some (.lclr d a b c) := by
    rw [decode_major_26 _ _ _ (fMaj_packX ..)]
    delta ext decLyr
    simp only [fLen_packX, xFn_packX, xD_packX, xA_packX, xB_packX, xC_packX, bit1_eq]
    rfl
  exact ⟨e, len3 (.inl (fLen_packX ..))⟩
theorem lcnt (d : Reg) (a : Reg) (b : Reg) : Statement (.lcnt d a b) := fun _ _ => by
  have e : decodeInstr (packX 0x26 3 d a b 0) 0 0 = some (.lcnt d a b) := by
    rw [decode_major_26 _ _ _ (fMaj_packX ..)]
    delta ext decLyr
    simp only [fLen_packX, xFn_packX, xD_packX, xA_packX, xB_packX, xC_packX, bit1_eq]
    rfl
  exact ⟨e, len3 (.inl (fLen_packX ..))⟩
theorem lpool (d : Reg) (a : Reg) : Statement (.lpool d a) := fun _ _ => by
  have e : decodeInstr (packX 0x26 4 d a 0 0) 0 0 = some (.lpool d a) := by
    rw [decode_major_26 _ _ _ (fMaj_packX ..)]
    delta ext decLyr
    simp only [fLen_packX, xFn_packX, xD_packX, xA_packX, xB_packX, xC_packX, bit1_eq]
    rfl
  exact ⟨e, len3 (.inl (fLen_packX ..))⟩
theorem abegin (d : Reg) : Statement (.abegin d) := fun _ _ => by
  have e : decodeInstr (packX 0x27 0 d 0 0 0) 0 0 = some (.abegin d) := by
    rw [decode_major_27 _ _ _ (fMaj_packX ..)]
    delta ext decAct
    simp only [fLen_packX, xFn_packX, xD_packX, xA_packX, xB_packX, xC_packX, bit1_eq]
    rfl
  exact ⟨e, len3 (.inl (fLen_packX ..))⟩
theorem apush (a : Reg) (b : Reg) (c : Reg) : Statement (.apush a b c) := fun _ _ => by
  have e : decodeInstr (packX 0x27 1 0 a b c) 0 0 = some (.apush a b c) := by
    rw [decode_major_27 _ _ _ (fMaj_packX ..)]
    delta ext decAct
    simp only [fLen_packX, xFn_packX, xD_packX, xA_packX, xB_packX, xC_packX, bit1_eq]
    rfl
  exact ⟨e, len3 (.inl (fLen_packX ..))⟩
theorem acommit : Statement (.acommit) := fun _ _ => by
  have e : decodeInstr (packX 0x27 2 0 0 0 0) 0 0 = some (.acommit) := by
    rw [decode_major_27 _ _ _ (fMaj_packX ..)]
    delta ext decAct
    simp only [fLen_packX, xFn_packX, xD_packX, xA_packX, xB_packX, xC_packX, bit1_eq]
    rfl
  exact ⟨e, len3 (.inl (fLen_packX ..))⟩
theorem aabandon : Statement (.aabandon) := fun _ _ => by
  have e : decodeInstr (packX 0x27 3 0 0 0 0) 0 0 = some (.aabandon) := by
    rw [decode_major_27 _ _ _ (fMaj_packX ..)]
    delta ext decAct
    simp only [fLen_packX, xFn_packX, xD_packX, xA_packX, xB_packX, xC_packX, bit1_eq]
    rfl
  exact ⟨e, len3 (.inl (fLen_packX ..))⟩
theorem aret : Statement (.aret) := fun _ _ => by
  have e : decodeInstr (packX 0x27 4 0 0 0 0) 0 0 = some (.aret) := by
    rw [decode_major_27 _ _ _ (fMaj_packX ..)]
    delta ext decAct
    simp only [fLen_packX, xFn_packX, xD_packX, xA_packX, xB_packX, xC_packX, bit1_eq]
    rfl
  exact ⟨e, len3 (.inl (fLen_packX ..))⟩
theorem aqry (d : Reg) (a : Reg) : Statement (.aqry d a) := fun _ _ => by
  have e : decodeInstr (packX 0x27 5 d a 0 0) 0 0 = some (.aqry d a) := by
    rw [decode_major_27 _ _ _ (fMaj_packX ..)]
    delta ext decAct
    simp only [fLen_packX, xFn_packX, xD_packX, xA_packX, xB_packX, xC_packX, bit1_eq]
    rfl
  exact ⟨e, len3 (.inl (fLen_packX ..))⟩
theorem afix (d : Reg) (a : Reg) (mode : BitVec 4) : Statement (.afix d a mode) := fun hw _ => by
  have e : decodeInstr (packX 0x27 6 d a 0 mode) 0 0 = some (.afix d a mode) := by
    rw [decode_major_27 _ _ _ (fMaj_packX ..)]
    delta ext decAct
    simp only [fLen_packX, xFn_packX, xD_packX, xA_packX, xB_packX, xC_packX, bit1_eq]
    have hk : (decide (mode.toNat ≤ 2)) = true := hw
    exact guardI_true (by simp [hk])
  exact ⟨e, len3 (.inl (fLen_packX ..))⟩
theorem cpset (sr : BitVec 4) (c : Reg) : Statement (.cpset sr c) := fun hw _ => by
  have e : decodeInstr (packR 0x28 sr 0 0 0 0 c) 0 0 = some (.cpset sr c) := by
    rw [decode_major_28 _ _ _ (fMaj_packR ..)]
    delta decCpy
    simp only [fLen_packR, fD_packR, fA_packR, fB_packR, fFn_packR, fW_packR, fC_packR, extract_0_2_packR, extract_2_2_packR, extract_0_3_packR, extract_3_1_packR, rfC_lo, rfC_hi, n1_lo, n1_hi]
    have hk : (decide (sr.toNat ≤ 11)) = true := hw
    exact guardI_true (by simp [hk])
  exact ⟨e, len1 (fLen_packR ..)⟩
theorem cpseti (sr : BitVec 4) (l : Word) : Statement (.cpseti sr l) := fun hw _ => by
  have e : decodeInstr (packX 0x28 1 sr 0 0 0) (l.extractLsb' 0 32) (l.extractLsb' 32 32) = some (.cpseti sr l) := by
    rw [decode_major_28 _ _ _ (fMaj_packX ..)]
    delta decCpy
    simp only [fLen_packX, xFn_packX, xD_packX, xA_packX, xB_packX, xC_packX, bit1_eq, literal_halves]
    have hk : (decide (sr.toNat ≤ 11)) = true := hw
    exact guardI_true (by simp [hk])
  exact ⟨e, len3 (.inl (fLen_packX ..))⟩
theorem cpgo (d : Reg) : Statement (.cpgo d) := fun _ _ => by
  have e : decodeInstr (packR 0x28 d 0 0 2 0 0) 0 0 = some (.cpgo d) := by
    rw [decode_major_28 _ _ _ (fMaj_packR ..)]
    delta decCpy
    simp only [fLen_packR, fD_packR, fA_packR, fB_packR, fFn_packR, fW_packR, fC_packR, extract_0_2_packR, extract_2_2_packR, extract_0_3_packR, extract_3_1_packR, rfC_lo, rfC_hi, n1_lo, n1_hi]
    rfl
  exact ⟨e, len1 (fLen_packR ..)⟩
theorem cptry (d : Reg) : Statement (.cptry d) := fun _ _ => by
  have e : decodeInstr (packR 0x28 d 0 0 3 0 0) 0 0 = some (.cptry d) := by
    rw [decode_major_28 _ _ _ (fMaj_packR ..)]
    delta decCpy
    simp only [fLen_packR, fD_packR, fA_packR, fB_packR, fFn_packR, fW_packR, fC_packR, extract_0_2_packR, extract_2_2_packR, extract_0_3_packR, extract_3_1_packR, rfC_lo, rfC_hi, n1_lo, n1_hi]
    rfl
  exact ⟨e, len1 (fLen_packR ..)⟩
theorem cpq (d : Reg) (a : Reg) : Statement (.cpq d a) := fun _ _ => by
  have e : decodeInstr (packR 0x28 d a 0 4 0 0) 0 0 = some (.cpq d a) := by
    rw [decode_major_28 _ _ _ (fMaj_packR ..)]
    delta decCpy
    simp only [fLen_packR, fD_packR, fA_packR, fB_packR, fFn_packR, fW_packR, fC_packR, extract_0_2_packR, extract_2_2_packR, extract_0_3_packR, extract_3_1_packR, rfC_lo, rfC_hi, n1_lo, n1_hi]
    rfl
  exact ⟨e, len1 (fLen_packR ..)⟩
theorem cpcan (d : Reg) (a : Reg) : Statement (.cpcan d a) := fun _ _ => by
  have e : decodeInstr (packR 0x28 d a 0 5 0 0) 0 0 = some (.cpcan d a) := by
    rw [decode_major_28 _ _ _ (fMaj_packR ..)]
    delta decCpy
    simp only [fLen_packR, fD_packR, fA_packR, fB_packR, fFn_packR, fW_packR, fC_packR, extract_0_2_packR, extract_2_2_packR, extract_0_3_packR, extract_3_1_packR, rfC_lo, rfC_hi, n1_lo, n1_hi]
    rfl
  exact ⟨e, len1 (fLen_packR ..)⟩
theorem rel (ord : BitVec 2) : Statement (.rel ord) := fun _ _ => by
  have e : decodeInstr ((0 : BitVec 2) ++ (0x3E : BitVec 6) ++ (1 : BitVec 4) ++ ord ++ (0 : BitVec 18) : IWord) 0 0 = some (.rel ord) := by
    rw [decode_major_3e _ _ _ (fMaj_relWord ..)]
    delta decPfx
    simp only [fLen_relWord, fD_relWord, pOrd_relWord, pZero_relWord]
    rfl
  exact ⟨e, len1 (fLen_relWord ..)⟩
theorem far : Statement .far := fun _ _ =>
  ⟨show decodeInstr 0x3E200000 0 0 = some .far from (decode_major_3e 0x3E200000 0 0 (by decide)).trans (by decide), by decide⟩
theorem reservedEncoding : Statement (.reservedEncoding) := fun _ h => absurd rfl h
theorem instructionFetchFault (va : Word) : Statement (.instructionFetchFault va) := fun _ h => absurd rfl h
theorem migrationMessage (m : Nat) : Statement (.migrationMessage m) := fun _ h => absurd rfl h
theorem migrationAnswer (m : Nat) : Statement (.migrationAnswer m) := fun _ h => absurd rfl h
theorem migrationResend (sp : Nat) (c : Nat) : Statement (.migrationResend sp c) := fun _ h => absurd rfl h
theorem migrantAdmission (sp : Nat) : Statement (.migrantAdmission sp) := fun _ h => absurd rfl h
theorem exitNotice (m : Nat) : Statement (.exitNotice m) := fun _ h => absurd rfl h
theorem sleepExpiry (sp : Nat) (c : Nat) : Statement (.sleepExpiry sp c) := fun _ h => absurd rfl h
theorem recvtTimeout (sp : Nat) (c : Nat) : Statement (.recvtTimeout sp c) := fun _ h => absurd rfl h
theorem remoteReadRequest (m : Nat) : Statement (.remoteReadRequest m) := fun _ h => absurd rfl h
theorem remoteWriteRequest (m : Nat) : Statement (.remoteWriteRequest m) := fun _ h => absurd rfl h
theorem remoteAtomicRequest (m : Nat) : Statement (.remoteAtomicRequest m) := fun _ h => absurd rfl h
theorem syncRequest (m : Nat) : Statement (.syncRequest m) := fun _ h => absurd rfl h
theorem waiterRetry (m : Nat) : Statement (.waiterRetry m) := fun _ h => absurd rfl h
theorem replyArrival (m : Nat) : Statement (.replyArrival m) := fun _ h => absurd rfl h
theorem relAck (m : Nat) : Statement (.relAck m) := fun _ h => absurd rfl h
theorem nackRefusal (m : Nat) : Statement (.nackRefusal m) := fun _ h => absurd rfl h
theorem requestTimeout (sp : Nat) (c : Nat) : Statement (.requestTimeout sp c) := fun _ h => absurd rfl h
theorem pageWalkDone (sp : Nat) (c : Nat) : Statement (.pageWalkDone sp c) := fun _ h => absurd rfl h
theorem subscriptionRequest (m : Nat) : Statement (.subscriptionRequest m) := fun _ h => absurd rfl h
theorem batchCloseTimeout (sp : Nat) (line : Nat) : Statement (.batchCloseTimeout sp line) := fun _ h => absurd rfl h
theorem batchApply (m : Nat) : Statement (.batchApply m) := fun _ h => absurd rfl h
theorem batchAck (m : Nat) : Statement (.batchAck m) := fun _ h => absurd rfl h
theorem batchNack (m : Nat) : Statement (.batchNack m) := fun _ h => absurd rfl h
theorem subscriptionRemoval (m : Nat) : Statement (.subscriptionRemoval m) := fun _ h => absurd rfl h
theorem drainRequest (m : Nat) : Statement (.drainRequest m) := fun _ h => absurd rfl h
theorem channelMessage (m : Nat) : Statement (.channelMessage m) := fun _ h => absurd rfl h
theorem creditReturn (m : Nat) : Statement (.creditReturn m) := fun _ h => absurd rfl h
theorem nackBusyResend (m : Nat) : Statement (.nackBusyResend m) := fun _ h => absurd rfl h
theorem phaseComplete (job : Nat) (grp : Nat) : Statement (.phaseComplete job grp) := fun _ h => absurd rfl h
theorem taskDelivery (cl : Nat) : Statement (.taskDelivery cl) := fun _ h => absurd rfl h
theorem skeinAppend (m : Nat) : Statement (.skeinAppend m) := fun _ h => absurd rfl h
theorem loomQueueEntry (cl : Nat) : Statement (.loomQueueEntry cl) := fun _ h => absurd rfl h
theorem loomStep (cl : Nat) : Statement (.loomStep cl) := fun _ h => absurd rfl h
theorem copyChunk (eng : Nat) : Statement (.copyChunk eng) := fun _ h => absurd rfl h
theorem peerChunkArrival (m : Nat) : Statement (.peerChunkArrival m) := fun _ h => absurd rfl h
theorem chunkAck (m : Nat) : Statement (.chunkAck m) := fun _ h => absurd rfl h
theorem copyComplete (eng : Nat) : Statement (.copyComplete eng) := fun _ h => absurd rfl h
theorem linkDataFlit (port : Nat) (crcOk : Bool) : Statement (.linkDataFlit port crcOk) := fun _ h => absurd rfl h
theorem linkRetryFlit (port : Nat) : Statement (.linkRetryFlit port) := fun _ h => absurd rfl h
theorem linkIdleFlit (port : Nat) : Statement (.linkIdleFlit port) := fun _ h => absurd rfl h
theorem linkAckTimeout (port : Nat) : Statement (.linkAckTimeout port) := fun _ h => absurd rfl h
theorem linkRetrainDone (port : Nat) (ok : Bool) : Statement (.linkRetrainDone port ok) := fun _ h => absurd rfl h
theorem unravelStep : Statement (.unravelStep) := fun _ h => absurd rfl h
theorem trapRecordArrival (m : Nat) : Statement (.trapRecordArrival m) := fun _ h => absurd rfl h
theorem trapRecordRefused (m : Nat) : Statement (.trapRecordRefused m) := fun _ h => absurd rfl h
theorem preemptWindowExpiry (job : Nat) : Statement (.preemptWindowExpiry job) := fun _ h => absurd rfl h
theorem frontToken (m : Nat) : Statement (.frontToken m) := fun _ h => absurd rfl h
theorem jobSwitchOut (job : Nat) : Statement (.jobSwitchOut job) := fun _ h => absurd rfl h
theorem correctedError (sp : Nat) : Statement (.correctedError sp) := fun _ h => absurd rfl h
theorem hostFill (off : Nat) (v : Word) : Statement (.hostFill off v) := fun _ h => absurd rfl h
theorem hostMemWrite (off : Nat) (n : Nat) (v : Word) : Statement (.hostMemWrite off n v) := fun _ h => absurd rfl h
theorem hostMemRead (off : Nat) (n : Nat) : Statement (.hostMemRead off n) := fun _ h => absurd rfl h
theorem recordTake (q : Nat) : Statement (.recordTake q) := fun _ h => absurd rfl h
theorem dependencyPoll (q : Nat) : Statement (.dependencyPoll q) := fun _ h => absurd rfl h
theorem launchSelect : Statement (.launchSelect) := fun _ h => absurd rfl h
theorem goWordReady (q : Nat) : Statement (.goWordReady q) := fun _ h => absurd rfl h
theorem launchStart (q : Nat) : Statement (.launchStart q) := fun _ h => absurd rfl h
theorem launchRequest (m : Nat) : Statement (.launchRequest m) := fun _ h => absurd rfl h
theorem launchRetire (job : Nat) : Statement (.launchRetire job) := fun _ h => absurd rfl h
theorem layerRequest (m : Nat) : Statement (.layerRequest m) := fun _ h => absurd rfl h
theorem invtlb : Statement (.invtlb) := fun _ h => absurd rfl h
theorem teardown : Statement (.teardown) := fun _ h => absurd rfl h
theorem bindq : Statement (.bindq) := fun _ h => absurd rfl h
theorem winset : Statement (.winset) := fun _ h => absurd rfl h
theorem pairset : Statement (.pairset) := fun _ h => absurd rfl h
theorem contset : Statement (.contset) := fun _ h => absurd rfl h
theorem clearfence : Statement (.clearfence) := fun _ h => absurd rfl h
theorem stop : Statement (.stop) := fun _ h => absurd rfl h
theorem go : Statement (.go) := fun _ h => absurd rfl h
theorem stopread : Statement (.stopread) := fun _ h => absurd rfl h
theorem peermap : Statement (.peermap) := fun _ h => absurd rfl h
theorem route : Statement (.route) := fun _ h => absurd rfl h
theorem dwmap : Statement (.dwmap) := fun _ h => absurd rfl h
theorem pstate : Statement (.pstate) := fun _ h => absurd rfl h
theorem attest : Statement (.attest) := fun _ h => absurd rfl h
theorem fwload : Statement (.fwload) := fun _ h => absurd rfl h
theorem fenceread : Statement (.fenceread) := fun _ h => absurd rfl h
theorem chipno : Statement (.chipno) := fun _ h => absurd rfl h
theorem registerWrite (off : Nat) (n : Nat) (v : Word) : Statement (.registerWrite off n v) := fun _ h => absurd rfl h
theorem powerOn : Statement (.powerOn) := fun _ h => absurd rfl h
theorem bringupStageDone (ok : Bool) : Statement (.bringupStageDone ok) := fun _ h => absurd rfl h
theorem powerWindow (die : Nat) (mw : Nat) : Statement (.powerWindow die mw) := fun _ h => absurd rfl h
theorem marginSample (cl : Nat) (slack : Nat) : Statement (.marginSample cl slack) := fun _ h => absurd rfl h
theorem uncorrectableEccError (fa : Nat) : Statement (.uncorrectableEccError fa) := fun _ h => absurd rfl h

end Sys2Proof.Laws.RoundTrip
end

