-- ==== Sys2Proof/Laws/Traps.lean ====
section
/-!
SUPPORT. What sending a message and taking a trap do, said once for every instruction that does either.
-/
namespace Sys2Proof.Laws
open Sys2Proof Sys2Proof.Machine

/-! ### A message leaves its source -/

theorem send_cases (s : State) (m : Msg) : ∃ sps, s.send m = { s with
    msgs := s.msgs ++ [{ m with id := s.nextMsg }], nextMsg := s.nextMsg + 1, spindles := sps } := by
  unfold State.send
  simp only
  split <;> exact ⟨_, rfl⟩

@[simp] theorem send_ctx (s : State) (m : Msg) (k : Nat) : (s.send m).ctx k = s.ctx k := by rw [State.ctx, send_ctxs]; rfl
@[simp] theorem send_me (s : State) (m : Msg) : (s.send m).me = s.me := by rw [State.me, send_ctx, send_cur]; rfl
@[simp] theorem send_byte (s : State) (m : Msg) (a : Nat) : (s.send m).byte a = s.byte a := by rw [State.byte, send_mem]; rfl

/-- A spindle differs after a send in its count of sent messages alone. -/
theorem send_spindle (s : State) (m : Msg) (n : Nat) : { (s.send m).spindle n with sent := (s.spindle n).sent } = s.spindle n := by
  unfold State.send
  simp only
  split
  · rename_i h
    by_cases e : n = m.src
    · subst e; simp [State.spindle, State.modSp]
    · simp [State.spindle, State.modSp, get_modify_ne _ _ _ e]
  · rfl

/-! ### Taking a trap -/

/-- The record of a trap goes to a buddy that takes it. -/
theorem deliverRecord_sends (s : State) (j sp k : Nat) (ws : List Word) (r : TrapInfo)
    (h : s.takesRecord j (s.spindle sp).primary k = true ∨ s.takesRecord j (s.spindle sp).secondary k = true) :
    ∃ b second, (b = (s.spindle sp).primary ∨ b = (s.spindle sp).secondary) ∧
      s.deliverRecord j sp k ws r none false =
        s.send { id := 0, cls := .update, src := keySp k, dst := b, job := j, ctx := keyCtx k, body := .trapRec ws r second 0 } := by
  unfold State.deliverRecord
  by_cases hp : s.takesRecord j (s.spindle sp).primary k = true
  · exact ⟨_, false, .inl rfl, by simp [hp]⟩
  · exact ⟨_, true, .inr rfl, by simp [hp, h.resolve_left hp]⟩

/-- `takesRecord` looks at no context but the buddy's handler. -/
theorem takesRecord_modCtx (s : State) (j b k : Nat) (f : Context → Context) :
    (s.modCtx k f).takesRecord j b k = s.takesRecord j b k := by
  unfold State.takesRecord
  by_cases e : keyOf b 15 = k
  · simp [e]
  · rw [ctx_modCtx_ne s f e]; rfl

/-- A context frozen by a trap. -/
def frozenBy (r : TrapInfo) (c : Context) : Context :=
  { c with st := .frozen, pc := r.pc, park := 0, tok := 0, bounded := false, wakeAt := none, waitToks := [], waitAny := false, frz := some r,
           kont := .advance, got := [], again := false }

theorem takeTrap_eq (s : State) (r : TrapInfo) (h : s.me.thidx ≠ compThidx) (hd : r.defer = false) :
    s.takeTrap s.cur r =
      (({ s with midUnit := false } : State).modCtx s.cur (frozenBy { r with thidx := s.me.thidx })).deliverRecord s.myJobNo s.here s.cur
        (trapWords s.cur { r with thidx := s.me.thidx } r.cause) { r with thidx := s.me.thidx } none false := by
  have hc : ((s.ctx s.cur).thidx == compThidx) = false := by simpa [State.me] using h
  unfold State.takeTrap
  simp only [beq_self_eq_true, ite_true, hc, Bool.false_eq_true, ite_false, hd]
  rfl

/-- TAKING A TRAP of an executing context that has a handler freezes it and sends its record, and does nothing else. -/
theorem trappedAs_takeTrap (s : State) (r : TrapInfo) (h : s.Handled) (hp : r.pc = s.me.unit.pc) (hd : r.defer = false) :
    TrappedAs s (s.takeTrap s.cur r) r := by
  obtain ⟨h1, h2⟩ := h
  rw [takeTrap_eq s r h1 hd]
  generalize hs : ({ s with midUnit := false } : State) = s1
  have hme : (s1.modCtx s.cur (frozenBy { r with thidx := s.me.thidx })).me = frozenBy { r with thidx := s.me.thidx } s.me := by subst hs; exact ctx_modCtx_same _ _ _
  obtain ⟨b, second, hb, e⟩ := deliverRecord_sends (s1.modCtx s.cur (frozenBy { r with thidx := s.me.thidx })) s.myJobNo s.here s.cur
    (trapWords s.cur { r with thidx := s.me.thidx } r.cause) { r with thidx := s.me.thidx }
    (by rw [takesRecord_modCtx, takesRecord_modCtx]; subst hs; exact h2)
  rw [e]
  exact {
    state := by rw [send_me, hme]; rfl
    pc := by rw [send_me, hme, ← hp]; rfl
    record := by rw [send_me, hme]; rfl
    regs := fun r => by rw [send_me, hme]; rfl
    vregs := by rw [send_me, hme]; exact ⟨rfl, rfl, rfl⟩
    fstat := by rw [send_me, hme]; rfl
    sent := ⟨_, by rw [send_msgs]; exact List.mem_append_right _ (List.mem_singleton.2 rfl), rfl, by subst hs; exact hb, second, rfl⟩
    contexts := fun k hk => by rw [send_ctx, ctx_modCtx_ne s1 _ hk]; subst hs; rfl
    bytes := fun a => by rw [send_byte]; subst hs; rfl
    full := by rw [send_fe]; subst hs; rfl }

/-- The same for `trap`, by which most instructions trap. -/
theorem trapped_trap (s : State) (cause : Nat) (addr : Word) (h : s.Handled) : Trapped s (s.trap cause addr) cause addr :=
  trappedAs_takeTrap s _ h rfl rfl

end Sys2Proof.Laws
end

