-- ==== Sys2Proof/Tests/Slice0.lean ====
section
/-!
SUPPORT. The model's own tests: terms that WellFormed refuses, words written out from the spec's encodings, single steps whose results
the spec's worked examples give, and for every statement with hypotheses states and operands that meet them.
-/
namespace Sys2Proof.Tests
open Sys2Proof Sys2Proof.Machine Sys2Proof.Config Sys2Proof.Claims

set_option Elab.async false

/-! ### Ill-formed terms, one for each check of WellFormed -/

theorem test_illFormed_scalar : ([.ldSigned 0 0 3 0, .ldSignedLiteral 0 0 3 0, .send 0 9 7, .resume 0 0 3, .fadd 0 0 0 true 3, .fsub 0 0 0 true 3,
    .fmul 0 0 0 false 3, .ffma 0 0 0 false 3, .fdiv 0 0 0 true 3, .fsqrt 0 0 true 3, .fcvt 0 0 14 0, .fcvt 0 0 0 12, .fcvt 0 0 0 6,
    .frnd 0 0 true 3] : List Instr).all (fun i => !i.wf) = true := by decide

theorem test_illFormed_vector : ([.vadd 0 0 0 0 0 3, .vsub 0 0 0 0 0 3, .vmul 0 0 0 0 0 3, .vfma 0 0 0 0 0 3, .vdiv 0 0 0 0 3, .vsqrt 0 0 0 3,
    .vrcp 0 0 0 3, .vrsq 0 0 0 3, .vexp2 0 0 0 3, .vlog2 0 0 0 3, .vsin 0 0 0 3, .vcos 0 0 0 3, .vld 0 0 0 0 0, .vlds 0 0 0 0 11,
    .vgath 0 0 1 0 0, .vgath 0 0 9 0 0, .vbcst 0 0 11 0 0, .vcvt 0 0 false 0 0 0, .vcvt 0 0 false 1 0 3, .vqnt 0 0 0 0 true, .vqnt 0 0 0 2 true,
    .vtag 0 0 15, .vreda 0 0 0 0 3, .vscan 0 0 0 0 3, .vspl 0 0 0] : List Instr).all (fun i => !i.wf) = true := by decide

theorem test_illFormed_extended : ([.lmm 0 1 0 0 0 0 4 false 0 0, .lmm 0 0 0 4 0 0 4 false 0 0, .lmm 0 0 0 0 0 0 1025 false 0 0,
    .lmm 0 0 0 5 5 0 3 false 0 0, .lmm 0 0 0 0 0 8 4 false 8 0, .lmmg 0 0 1 0 0 0 0 4 false 0, .lbld 0 0 0 9 0 4, .lbld 0 0 0 0 0 0,
    .lbld 0 1 0 0 0 4, .laclr 0 0 8 8, .lacp 0 0 0 0 0 7, .lacp 0 0 0 8 8 0, .lacin 0 0 0 0 0 7, .ptake 1 1 2, .ptake 1 2 2, .ptake 1 2 1,
    .pload 0 0 true 3 0 false, .pload 0 0 false 3 4 false, .ptest 1 0 0 1, .afix 0 0 3, .cpset 12 0, .cpseti 12 0] :
    List Instr).all (fun i => !i.wf) = true := by decide

theorem test_illFormed_events : ([.migrationResend 12288 0, .migrantAdmission 12288, .sleepExpiry 0 16, .recvtTimeout 0 16, .requestTimeout 0 16,
    .pageWalkDone 12288 0, .taskDelivery 768, .loomQueueEntry 768, .loomStep 768, .copyChunk 36, .copyComplete 36, .linkDataFlit 40 false,
    .linkRetryFlit 40, .linkIdleFlit 40, .linkAckTimeout 40, .linkRetrainDone 40 false, .correctedError 12288, .recordTake 16384,
    .dependencyPoll 16384, .goWordReady 16384, .launchStart 16384, .powerWindow 12 0, .marginSample 768 0] :
    List Instr).all (fun i => !i.wf) = true := by decide

/-! ### Words written out from the spec's encodings (chapters 3 to 5, 8, 11, 13, 15) -/

/-- What the decoder reads from words. -/
def dec (w : IWord) (x1 x2 : IWord := 0) : Option Instr := decodeInstr w x1 x2

theorem test_decode_integer : dec 0x01414010 = some (.add 4 1 4 true) ∧ dec 0x01AAD1C0 = some (.shr 10 10 13 false) ∧
    dec 0x0175D540 = some (.slts 7 5 13 false) ∧ dec 0x0244FFFF = some (.addi 4 4 0xFFFF) ∧
    dec 0x83A20000 0x0003FFFF 0 = some (.andiLiteral 10 2 0x3FFFF) ∧ dec 0x84AA0000 0 0x80000000 = some (.oriLiteral 10 10 0x8000000000000000) ∧
    dec 0x06424003 = some (.shri 4 2 3) ∧ dec 0x078C0004 = some (.slti 8 12 4) ∧
    dec 0x88300000 0x23456789 1 = some (.moviLiteral 3 0x123456789) := by decide

theorem test_decode_control : dec 0x0AC10009 = some (.beqz 12 9) ∧ dec 0x0A42FFF9 = some (.bnez 4 0xFFF9) ∧ dec 0x0B000064 = some (.call 100) ∧
    dec 0x0C000080 = some .ret ∧ dec 0x15DB500A = some (.spawn 13 11 5 10) ∧ dec 0x15CD0040 = some (.reap 12 13) ∧ dec 0x150C0080 = some (.exit 12) ∧
    dec 0x15003180 = some (.ckpt 3) ∧ dec 0x160C0000 = some (.gbar 12) ∧ dec 0x160C0100 = some (.ply 12) ∧ dec 0x17301000 = some (.srd 3 1) ∧
    dec 0x17006044 = some (.swr 6 4) ∧ dec 0x1A073000 = some (.trap 7 3) ∧ dec 0x1AB30080 = some (.resume 11 3 0) := by decide

theorem test_decode_float : dec 0x1B8230D2 = some (.ffma 8 2 3 true 2) ∧ dec 0x1B567402 = some (.fcvt 5 6 7 2) ∧
    dec 0x1B998100 = some (.fdiv 9 9 8 false 0) ∧ dec 0x1B88C110 = some (.fdiv 8 8 12 true 0) := by decide

theorem test_decode_memory : dec 0x0D54AFF8 = some (.ldSigned 5 4 2 0xFF8) ∧ dec 0x8D54C000 0x12345 0 = some (.ldLiteral 5 4 3 0x12345) ∧
    dec 0x0D8F0015 = some (.ld 8 15 0 21) ∧ dec 0x0E7187FC = some (.st 7 1 2 0x7FC) ∧ dec 0x0F63D010 = some (.lde 6 3 3 16) ∧
    dec 0x0FAAC000 = some (.ldf 10 10 3 0) ∧ dec 0x0F42E008 = some (.feq 4 2 8) ∧ dec 0x1082C000 = some (.stf 8 2 3 0) ∧
    dec 0x10FAD000 = some (.stw 15 10 3 0) ∧ dec 0x1002E008 = some (.fec 2 8) ∧ dec 0x11567248 = some (.acas 5 6 7 8 false) ∧
    dec 0x11567290 = some (.afadd 5 6 7 true) ∧ dec 0x12056010 = some (.dadd 5 6 0 true) ∧ dec 0x120561D0 = some (.dstore 5 6 0 1) := by decide

theorem test_decode_messaging : dec 0x13000000 = some .fence ∧ dec 0x14038001 = some (.send 3 8 1) ∧ dec 0x14830040 = some (.recv 8 3) ∧
    dec 0x14830089 = some (.recvt 8 3 9) ∧ dec 0x144300C0 = some (.chq 4 3) ∧ dec 0x14456100 = some (.chbind 4 5 6) ∧
    dec 0x18076008 = some (.subon 7 6 8) ∧ dec 0x18070040 = some (.suboff 7) ∧ dec 0x18470080 = some (.subq 4 7) ∧
    dec 0x180000C0 = some .subfl ∧ dec 0x3E140000 = some (.rel 1) ∧ dec 0x3E200000 = some .far := by decide

theorem test_decode_vector : dec 0x20298000 = some (.vadd 1 2 3 0 0 0) ∧ dec 0x20299140 = some (.vmax 1 2 3 true 0) ∧
    dec 0x208530D6 = some (.vfma 4 1 2 3 5 2) ∧ dec 0x20280400 = some (.vsin 1 2 0 0) ∧ dec 0x212AC001 = some (.vld 1 5 6 0 1) ∧
    dec 0x2124E603 = some (.vgath 1 2 7 0 3) ∧ dec 0x21246400 = some (.vldb 1 2 3 0) ∧ dec 0x214CE500 = some (.vstb 2 6 7) ∧
    dec 0x22285000 = some (.vcvt 1 2 false 5 0 0) ∧ dec 0x22293000 = some (.vcvt 1 2 true 3 0 0) ∧ dec 0x22408040 = some (.vqnt 2 0 1 0 false) ∧
    dec 0x22281080 = some (.vdq 1 2 1 false 0) ∧ dec 0x230871D4 = some (.vext 5 2 7 false) ∧ dec 0x23080154 = some (.vmsk 5 2) ∧
    dec 0x23280094 = some (.vredx 1 2 false 5) ∧ dec 0x23207214 = some (.vspl 1 5 7) := by decide

theorem test_decode_extended : dec 0x64002340 0x55000004 0x8000001F = some (.lmm 2 3 4 5 5 0 4 true 0 31) ∧
    dec 0x6402ABC0 0x05000002 0 = some (.lbld 10 11 12 5 0 2) ∧ dec 0x64030F00 0 0 = some (.laclr 15 0 0 0) ∧
    dec 0x6404DF00 0 1 = some (.lacp 13 15 0 0 0 1) ∧ dec 0x6406E000 0 0 = some (.lstat 14) ∧ dec 0x65000C00 0 0 = some (.pseed 12) ∧
    dec 0x65014560 0 0 = some (.ptake 4 5 6) ∧ dec 0x6502A400 0x1401 0 = some (.pload 10 4 false 0 20 true) ∧
    dec 0x65037438 0 0 = some (.ptest 7 4 3 8) ∧ dec 0x65050000 0 0 = some .pdone ∧ dec 0x66008376 0 0 = some (.fins 8 3 7 6) ∧
    dec 0x6604B400 0 0 = some (.lpool 11 4) ∧ dec 0x67010B9C 0 0 = some (.apush 11 9 12) ∧ dec 0x67064501 0 0 = some (.afix 4 5 1) ∧
    dec 0x28B0000F = some (.cpset 11 15) ∧ dec 0x6801B000 4 0 = some (.cpseti 11 4) ∧ dec 0x288000C0 = some (.cptry 8) := by decide

/-- Words that the spec lists as refused (R53 to R60, R77, R104, R239, R249). -/
theorem test_decode_refused : ([0x41414000, 0x01414020, 0x01414640, 0x0A070009, 0x0A300009, 0x0D54D000, 0x0D54E000, 0x0F54A000, 0x8D54C001,
    0x86420003, 0x24000000, 0x68000000, 0xBE100000, 0x3E300000, 0x3E240000, 0x00000000, 0xFFFFFFFF, 0x1B8230D3,
    0x1B56740C, 0x1B567406, 0x1B56F402, 0x09823010, 0x20298003, 0x20298700, 0x2029C000, 0x20299180, 0x2240C040] : List IWord).all
    (fun w => (dec w 2 0).isNone) = true := by decide

/-- The opcode table numbers the first word's bits from 0, and a literal's from 32. -/
theorem test_decodeTableWord : decodeTableWord 32 0x01414010 = some (.add 4 1 4 true) ∧
    decodeTableWord 96 (0x88300000 + 0x23456789 * 2 ^ 32 + 2 ^ 64) = some (.moviLiteral 3 0x123456789) := by decide

/-! ### Small states -/

/-- A page of kind NORMAL at the DRAM of a spindle. -/
def page (sp : Nat) (w : Bool) : PageEntry := { frame := faOf sp 0x1000000, big := false, kind := 0, r := true, w := w, x := true, fgn := false }

/-- A job on spindles 0 and 1. -/
def job2 : Job := { serial := 1, queue := 0, slot := 0, ser := 1, rect := ⟨0, 0, 2, 1⟩ }

/-- Thread k of spindle 0, whose unit is one word at 0x1000. -/
def user (k : Nat) : Context := { st := .ready, thidx := k, pc := 0x1000, unit := { pc := 0x1000, words := [0], next := 0x1004 } }

/-- Spindle 0: VA page 0 is its own memory, page 1 spindle 1's, page 2 its own and read-only; its buddy is spindle 1. -/
def sp0 : Spindle := { job := some 1, primary := 1, secondary := 1,
                       tlb := [⟨1, 0, page 0 true⟩, ⟨1, 1, page 1 true⟩, ⟨1, 2, page 0 false⟩] }

/-- Context `k` of spindle 0 executes as `c`; context 15 of spindle 1 is a handler of the job. -/
def on (k : Nat) (c : Context) : State :=
  { State.reset with
    ctxs := [(k, c), (31, { st := .ready, handler := true, supv := true, thidx := 31 })]
    spindles := [(0, sp0), (1, { job := some 1 })]
    jobs := [(1, job2)]
    cur := k
    now := 100 }

/-- Context 1 of spindle 0 with values in its general registers. -/
def regs (l : List (Reg × Word)) (c : Context := user 1) : Context := l.foldl (fun c p => c.setReg p.1 p.2) c
def run (l : List (Reg × Word)) : State := on 1 (regs l)

/-- The keeper of spindle 0 with registers. -/
def keeper (l : List (Reg × Word)) : State := on 0 (regs l (user 0))
/-- A spindle 0 changed by `f`. -/
def withSp0 (s : State) (f : Spindle → Spindle) : State := { s with spindles := [(0, f sp0), (1, { job := some 1 })] }
/-- Job 1 changed by `f`. -/
def withJob (s : State) (f : Job → Job) : State := { s with jobs := [(1, f job2)] }

/-- The own memory of spindle 0 at VA 8. -/
def own8 : Nat := faOf 0 0x1000000 + 8
/-- The memory of spindle 1 at VA 0x10008. -/
def away8 : Nat := faOf 1 0x1000000 + 8

/-- What a test looks at after one instruction. -/
def after {α : Type} (i : Instr) (s : State) (f : State → α) : Option α :=
  match exec i s with
  | .next t => some (f t)
  | _ => none
def reg (r : Reg) (s : State) : Word := s.me.reg r

theorem handled_run : (run []).Handled := ⟨by decide, .inl (by decide)⟩

/-! ### Integer forms, branches (R72 to R76) -/

theorem witness_IntegerForms : ¬ ((run [(2, 5)]).me.reg 2 = 0) ∧
    ((run []).me.reg 2 = 0 ∧ ((run []).me.cprof.getLsbD 21 = false)) ∧
    (let s := on 1 { user 1 with cprof := 0x200000 }; (s.me.reg 2).setWidth 32 = (0 : BitVec 32) ∧ s.me.cprof.getLsbD 21 = true ∧ s.Handled) :=
  ⟨by decide, by decide, by decide, by decide, by decide, .inl (by decide)⟩

theorem witness_Branches : let s := run [(2, 0x2002), (14, 0x2001), (3, 0x2000)]
    s.me.unit.next = s.me.unit.pc + 4 ∧ (s.me.reg 3).toNat % 4 = 0 ∧ (s.me.reg 2).toNat % 4 ≠ 0 ∧ (s.me.reg 14).toNat % 4 ≠ 0 ∧ s.Handled ∧
    ((run []).me.reg 14).toNat % 4 = 0 := ⟨by decide, by decide, by decide, by decide, ⟨by decide, .inl (by decide)⟩, by decide⟩

/-- R72's worked rows. -/
theorem test_divs : after (.divs 4 1 2 false) (run [(1, 7), (2, -2)]) (reg 4) = some (-3) := by decide
theorem test_rems : after (.rems 4 1 2 false) (run [(1, -7), (2, 2)]) (reg 4) = some (-1) := by decide
theorem test_divn_zero : after (.divn 4 1 2 false) (run [(1, 7)]) (reg 4) = some 0xFFFFFFFFFFFFFFFF := by decide
theorem test_divs_wraps : after (.divs 4 1 2 true) (run [(1, 0x80000000), (2, 0xFFFFFFFF)]) (reg 4) = some 0xFFFFFFFF80000000 := by decide
theorem test_remn_zero : after (.remn 4 1 2 false) (run [(1, 7)]) (reg 4) = some 7 := by decide
theorem test_add_wraps : after (.add 4 1 2 true) (run [(1, 0x7FFFFFFF), (2, 1)]) (reg 4) = some 0xFFFFFFFF80000000 := by decide
theorem test_sar : after (.sar 4 1 2 false) (run [(1, 0xFFFFFFFFFFFFFF00), (2, 68)]) (reg 4) = some 0xFFFFFFFFFFFFFFF0 := by decide
theorem test_mulhn : after (.mulhn 4 1 2 false) (run [(1, 0x8000000000000000), (2, 4)]) (reg 4) = some 2 := by decide
theorem test_mulhs : after (.mulhs 4 1 2 false) (run [(1, -1), (2, 4)]) (reg 4) = some (-1) := by decide
theorem test_sub_order : after (.sub 4 1 2 false) (run [(1, 3), (2, 5)]) (reg 4) = some (-2) := by decide
theorem test_andn_order : after (.andn 4 1 2 false) (run [(1, 0xF), (2, 0x3)]) (reg 4) = some 0xC := by decide
theorem test_shr_narrow : after (.shr 4 1 2 true) (run [(1, 0xF80000000), (2, 33)]) (reg 4) = some 0x40000000 := by decide
theorem test_rol_narrow : after (.rol 4 1 2 true) (run [(1, 0x80000001), (2, 1)]) (reg 4) = some 3 := by decide
theorem test_mins : after (.mins 4 1 2 false) (run [(1, -1), (2, 1)]) (reg 4) = some (-1) := by decide
theorem test_minn : after (.minn 4 1 2 false) (run [(1, -1), (2, 1)]) (reg 4) = some 1 := by decide
theorem test_slts_narrow : after (.slts 4 1 2 true) (run [(1, 0x80000000), (2, 0)]) (reg 4) = some 1 := by decide
theorem test_addi_negative : after (.addi 4 4 0xFFFF) (run []) (reg 4) = some 0xFFFFFFFFFFFFFFFF := by decide
theorem test_andi_zero_extends : after (.andi 4 1 0xFFFF) (run [(1, -1)]) (reg 4) = some 0xFFFF := by decide
theorem test_sari : after (.sari 4 1 63) (run [(1, 0x8000000000000000)]) (reg 4) = some (-1) := by decide
/-- R74's example. -/
theorem test_bfxn : after (.bfxn 4 1 2) (run [(1, 0xF00), (2, 0x308)]) (reg 4) = some 0xF := by decide
theorem test_bfxs : after (.bfxs 4 1 2) (run [(1, 0xF00), (2, 0x308)]) (reg 4) = some 0xFFFFFFFFFFFFFFFF := by decide
theorem test_bfi_top : after (.bfi 4 1 2) (run [(1, 0xFF), (2, 0x73C), (4, 1)]) (reg 4) = some 0xF000000000000001 := by decide
theorem test_clz_zero : after (.clz 4 1) (run []) (reg 4) = some 64 := by decide
theorem test_ctz : after (.ctz 4 1) (run [(1, 8)]) (reg 4) = some 3 := by decide
theorem test_bswap : after (.bswap 4 1) (run [(1, 0x0102030405060708)]) (reg 4) = some 0x0807060504030201 := by decide
theorem test_sel : after (.sel 4 1 2 3) (run [(1, 7), (2, 9)]) (reg 4) = some 9 := by decide
theorem test_bltz_taken : after (.bltz 1 0xFFFF) (run [(1, -1)]) (·.me.pc) = some 0xFFC := by decide
theorem test_bgtz_not_taken : after (.bgtz 1 4) (run []) (·.me.pc) = some 0x1004 := by decide
theorem test_callr_14 : after (.callr 14) (run [(14, 0x2000)]) (fun t => (t.me.pc, reg 14 t)) = some (0x2000, 0x1004) := by decide
theorem test_jmpr_misaligned : after (.jmpr 1) (run [(1, 0x2002)]) (fun t => (t.me.st, t.me.pc, t.me.frz.map (·.cause))) = some (.frozen, 0x1000, some cALIGN) := by
  decide

/-! ### Floating forms (R77 to R82) -/

/-- Every event of TRAPMASK enabled. -/
def strict : Context := { user 1 with cprof := 0x1F0000 }

theorem witness_FloatForms :
    (let s := run [(2, 0x3F800000), (3, 0x3F800000)]; let r := fpArith .add fp32 0 0 0x3F800000 0x3F800000 0
      (0 : BitVec 2) ≠ 3 ∧ r.events = 0 ∧ ∀ b, ¬ Raises s r b) ∧
    (let s := on 1 strict; let r := fpArith .div fp32 0x1F0000 0 0 0 0
      Raises s r 16 ∧ (∀ e, 16 ≤ e → e < 16 → ¬ Raises s r e) ∧ s.Handled) ∧
    (let s := on 1 strict; let r := fpToInt fp64 0x1F0000 0 32 true 0x7FF0000000000000
      Raises s r 19 ∧ (∀ e ∈ [16, 17, 18], ¬ Raises s r e) ∧ (7 : BitVec 4).toNat ≤ 13 ∧ convFieldOk 4 = true) := by
  refine ⟨⟨by decide, by decide, ?_⟩, ⟨⟨by decide, by decide⟩, by omega, by decide, .inl (by decide)⟩, ⟨by decide, by decide⟩, ?_, by decide, by decide⟩
  · intro b h
    have e : (fpArith .add fp32 0 0 0x3F800000 0x3F800000 0).events = 0 := by decide
    simp [Raises, e] at h
  · simp only [List.mem_cons, List.not_mem_nil, or_false]
    rintro e (rfl | rfl | rfl) <;> (rintro ⟨h, _⟩; revert h; decide)

theorem witness_ExactValues : cpDEN 3 = 0 ∧ cpZMUL 3 = false ∧ (fp32.decode 0x3F800000).isFin = true ∧ (fp64.decode 1).isFin = true ∧
    (bf16.decode 0).isFin = true ∧ 0x7F < 2 ^ e4m3.bits ∧ (e4m3.decode 0x7F).isNaN = true ∧ (e5m2.decode 0x7B).isNaN = false := by decide

theorem witness_Tables : (fp32.decode 0x7FC00000).isNaN = true ∧ (fp32.decode 0x40000000).isNaN = false ∧
    (∀ m ∈ [0, 1, 2], cpNANMM (32 * m) = m ∧ cpDEN (32 * m) = 0) ∧ fp32.withSign true 0 = 0x80000000 ∧
    fp64.decode 0xFFF0000000000000 = .inf true ∧ (fp64.decode 0xC004000000000000).isFin = true ∧
    (let i := ((fp64.decode 0xC004000000000000).toInt 0).1; -(2 : Int) ^ 31 ≤ i ∧ i ≤ 2 ^ 31 - 1) ∧
    (let i := ((fp64.decode 0x421BF08EB0000000).toInt 0).1; (2 : Int) ^ 31 - 1 < i) := by decide

/-- R78's example: 1.0 + 2^-24 in each mode. -/
def sum24 (cprof : Word) (rf : BitVec 2) : Option (Word × Word) :=
  after (.fadd 4 5 6 false rf) (on 1 { regs [(5, 0x3F800000), (6, 0x33800000)] with cprof := cprof }) (fun t => (reg 4 t, t.me.fstat))
theorem test_fadd_rounds : (sum24 0 0).map (·.1) = some 0x3F800000 ∧ (sum24 3 0).map (·.1) = some 0x3F800001 ∧
    (sum24 3 2).map (·.1) = some 0x3F800000 ∧ (sum24 2 1).map (·.1) = some 0x3F800000 ∧ sum24 0 0 = some (0x3F800000, BitVec.ofNat 64 flNX) := by decide
/-- R80's table, FP32 NaN and 2.0. -/
theorem test_fmin_nanmm : after (.fmin 4 5 6 false) (on 1 { regs [(5, 0x7FC00000), (6, 0x40000000)] with cprof := 0x20 }) (reg 4) = some 0x40000000 ∧
    after (.fmin 4 5 6 false) (on 1 { regs [(5, 0x40000000), (6, 0x7FC00000)] with cprof := 0x40 }) (reg 4) = some 0x7FC00000 := by decide
/-- R82's examples. -/
theorem test_fcvt_s32 : after (.fcvt 5 6 7 2) (run [(6, 0xC004000000000000)]) (reg 5) = some (-2) ∧
    after (.fcvt 5 6 7 4) (run [(6, 0xC004000000000000)]) (reg 5) = some (-3) := by decide
theorem test_fcvt_wraps : after (.fcvt 5 6 7 0) (on 1 { regs [(6, 0x421BF08EB0000000)] with cprof := 0x100 }) (reg 5) = some 0xFFFFFFFFFC23AC00 := by decide
theorem test_fdiv_zero : after (.fdiv 4 5 6 true 0) (run [(5, 0x3FF0000000000000)]) (fun t => (reg 4 t, t.me.fstat)) =
    some (0x7FF0000000000000, BitVec.ofNat 64 flDZ) := by decide
theorem test_ffma_once : after (.ffma 4 5 6 false 0) (run [(4, 0xBF800000), (5, 0x3F800001), (6, 0x3F7FFFFE)]) (reg 4) = some 0xA8800000 := by decide
theorem test_fsqrt : after (.fsqrt 4 5 false 0) (run [(5, 0x40800000)]) (reg 4) = some 0x40000000 := by decide
theorem test_fcun : after (.fcun 4 5 6 false) (run [(5, 0x7FC00000)]) (reg 4) = some 1 := by decide
theorem test_fneg_nan : after (.fneg 4 5 false) (run [(5, 0xFFFFFFFF7F800001)]) (reg 4) = some 0xFF800001 := by decide
theorem test_frnd_tie : after (.frnd 4 5 false 0) (run [(5, 0x40200000)]) (reg 4) = some 0x40000000 := by decide
theorem test_compat_writes_nothing : after (.fdiv 4 5 6 false 0) (on 1 (regs [(4, 9)] strict)) (fun t => (reg 4 t, t.me.fstat, t.me.frz.map (·.cls))) =
    some (9, 0, some 16) := by decide

/-! ### Vector forms (R220, R232 to R254) -/

/-- A context whose v1, v2, v3 have one tag. -/
def vecs (t : Nat) (x y z : VWord := 0) : Context := (((user 1).setV 1 x t 0).setV 2 y t 0).setV 3 z t 0

theorem witness_VectorLanes :
    (let s := on 1 (vecs 1); 1 ≤ s.me.vtag 1 ∧ s.me.vtag 1 ≤ 4 ∧ s.me.vtag 2 = s.me.vtag 1) ∧ (let s := on 1 (vecs 4); s.me.vtag 1 ≤ 4 ∧ s.me.vtag 2 = 4) ∧
    (let s := on 1 (vecs 5); 5 ≤ s.me.vtag 1 ∧ s.me.vtag 1 ≤ 8 ∧ s.me.vtag 2 = 5 ∧ s.me.vtag 3 = 5) ∧ (let s := on 1 (vecs 7); s.me.vtag 1 = 7) ∧
    (let s := on 1 (vecs 8); s.me.vtag 1 ≤ 8) ∧ (let s := on 1 (vecs 10); s.me.vtag 1 ≤ 10 ∧ s.me.vtag 2 = 10) ∧
    (let s := on 1 ((vecs 7).setV 3 0 3 0); s.me.vtag 3 ≤ 4 ∧ tagWidth (s.me.vtag 3) = tagWidth (s.me.vtag 1)) := by decide

theorem witness_VectorEvents :
    (let s := on 1 { vecs 7 with cprof := 0x1F0000 }; let r := fpArith .div fp32 0x1F0000 0 0 0 0
      Active s 7 0 0 ∧ Raises s r 16 ∧ (∀ e j, 16 ≤ e → e < 16 → Active s 7 0 j → ¬ Raises s r e) ∧ s.Handled ∧ tagLanes 7 ≤ 32) ∧
    (let s := on 1 (vecs 7); ∀ j b, Active s 7 0 j → 16 ≤ b → b ≤ 20 → ¬ Raises s (fpArith .add fp32 0 0 0 0 0) b) := by
  refine ⟨⟨⟨by decide, by decide⟩, ⟨by decide, by decide⟩, by omega, ⟨by decide, .inl (by decide)⟩, by decide⟩, ?_⟩
  intro s j b _ _ _ h
  have e : s.me.cprof = 0 := rfl
  simp [Raises, e] at h

theorem witness_VectorTags : (run []).Handled ∧ FirstBad (run []) tagIntOrFlt 1 [2] 1 ∧ FirstBad (on 1 (vecs 5)) tagIsInt 2 [1] 1 ∧
    FirstBad (on 1 (vecs 1)) tagIsFlt 1 [2, 3] 1 ∧ FirstBad (on 1 (vecs 5)) (fun t => t == 7) 3 [] 3 ∧ FirstBad (on 1 (vecs 11)) tagIsScal 2 [3] 2 ∧
    FirstBad (on 1 (((vecs 5).setV 5 0 7 0).setV 2 0 1 0)) tagIsFlt 5 [1, 2] 1 ∧
    (let s := on 1 (((vecs 7).setV 3 0 5 0)); tagIsScal (s.me.vtag 1) = true ∧ s.me.vtag 2 = s.me.vtag 1 ∧ tagIsInt (s.me.vtag 3) = false) ∧
    (let s := on 1 (vecs 1); tagIsInt (s.me.vtag 1) = true ∧ s.me.vtag 2 = s.me.vtag 1) ∧
    (let s := on 1 (vecs 6); tagIsFlt (s.me.vtag 1) = true ∧ s.me.vtag 2 = s.me.vtag 1) :=
  ⟨⟨by decide, .inl (by decide)⟩, ⟨by decide, by unfold Offends; decide, by unfold Offends; decide⟩, ⟨by decide, by unfold Offends; decide, by unfold Offends; decide⟩,
    ⟨by decide, by unfold Offends; decide, by unfold Offends; decide⟩, ⟨by decide, by unfold Offends; decide, by unfold Offends; decide⟩,
    ⟨by decide, by unfold Offends; decide, by unfold Offends; decide⟩, ⟨by decide, by unfold Offends; decide, by unfold Offends; decide⟩, by decide⟩

theorem witness_VectorConversions : tagIn 3 1 10 = true ∧ tagIsScal ((on 1 (vecs 7)).me.vtag 1) = true ∧ tagIsScal ((on 1 (vecs 11)).me.vtag 1) = false ∧
    (run []).Handled ∧ 255 < 2 ^ tagWidth 1 ∧ tagIn 14 0 14 = true ∧
    ((on 1 (vecs 5)).me.vtag 1 = 5 ∧ (on 1 (vecs 6)).me.vtag 2 = 6) ∧ (on 1 (vecs 7)).me.vtag 1 = 7 ∧
    tagIsBlock ((on 1 (vecs 11)).me.vtag 1) = true ∧ 0 < tagBlocks ((on 1 (vecs 11)).me.vtag 1) ∧ tagBlocks ((on 1 (vecs 11)).me.vtag 1) ≤ 3 ∧
    (run []).me.vtag 1 = 0 ∧
    (let s := on 1 { vecs 1 with cprof := 0x1F0000 }; Raises (on 1 { vecs 7 with cprof := 0x1F0000 }) (cvtLane 7 3 0x1F0000 0 false 0x7FC00000) 19 ∧ s.Handled) :=
  ⟨by decide, by decide, by decide, ⟨by decide, .inl (by decide)⟩, by decide, by decide, by decide, by decide, by decide,
    by decide, by decide, by decide, ⟨by decide, by decide⟩, ⟨by decide, .inl (by decide)⟩⟩

theorem witness_LaneMoves : (let s := on 1 ((vecs 7).setV 2 0 3 0); tagIsScal (s.me.vtag 1) = true ∧ tagIsInt (s.me.vtag 2) = true ∧
      tagWidth (s.me.vtag 2) = tagWidth (s.me.vtag 1)) ∧ (15 : BitVec 6).toNat < tagLanes 7 ∧ tagLanes 7 ≤ (16 : BitVec 6).toNat ∧
    tagIsScal ((on 1 (vecs 11)).me.vtag 1) = false := by decide

theorem witness_Reductions : cpMask (on 1 (vecs 5)).me.cprof.toNat = 0 ∧ 5 ≤ (on 1 (vecs 5)).me.vtag 1 ∧ (run []).Handled ∧
    tagIntOrFlt ((run []).me.vtag 1) = false := ⟨by decide, by decide, ⟨by decide, .inl (by decide)⟩, by decide⟩

def lane (r : VReg) (i : Nat) (s : State) : Nat := s.me.lane r i
theorem test_vadd_wraps : after (.vadd 4 1 2 0 0 0) (on 1 (vecs 1 0xFF01 0x0102)) (fun t => (lane 4 0 t, lane 4 1 t, t.me.vtag 4)) = some (3, 0, 1) := by decide +kernel
theorem test_vadd_saturates : after (.vadd 4 1 2 2 0 0) (on 1 (vecs 1 0x7F 1)) (fun t => (lane 4 0 t, t.me.fstat)) = some (0x7F, BitVec.ofNat 64 flSAT) := by
  decide +kernel
theorem test_vsub_masked : after (.vsub 4 1 2 0 5 0) (on 1 (regs [(5, 2)] ((vecs 3 5 3).setV 4 7 3 0))) (fun t => (lane 4 0 t, lane 4 1 t)) = some (7, 0) := by
  decide +kernel
theorem test_vmax_float : after (.vmax 4 1 2 false 0) (on 1 (vecs 7 0x3F800000 0x40000000)) (lane 4 0) = some 0x40000000 := by decide +kernel
theorem test_vceq : after (.vceq 4 1 2 0) (on 1 (vecs 5 0 0x8000)) (fun t => (lane 4 0 t, t.me.vtag 4)) = some (0xFFFF, 2) := by decide +kernel
theorem test_vsar : after (.vsar 4 1 2 0) (on 1 (vecs 1 0x80 9)) (lane 4 0) = some 0xC0 := by decide +kernel
theorem test_vsel : after (.vsel 4 1 2 3 0) (on 1 (vecs 3 5 9 1)) (fun t => (lane 4 0 t, lane 4 1 t)) = some (5, 0) := by decide +kernel
theorem test_tag_trap : after (.vadd 4 1 2 0 0 0) (run []) (fun t => (t.me.st, t.me.frz.map fun r => (r.cause, r.addr))) =
    some (.frozen, some (cTAG, 1)) := by decide +kernel
theorem test_vredx_empty : after (.vredx 4 1 false 5) (on 1 (vecs 7 1)) (lane 4 0) = some 0x7FC00000 := by decide +kernel
theorem test_vreda : after (.vreda 4 1 0 0 0) (on 1 (vecs 4 (2 ^ 64 + 2))) (lane 4 0) = some 3 := by decide +kernel
theorem test_vext_signed : after (.vext 5 1 1 true) (on 1 (vecs 1 0x8000)) (reg 5) = some 0xFFFFFFFFFFFFFF80 := by decide +kernel
theorem test_vtagq : after (.vtagq 4 1) (on 1 (vecs 7)) (lane 4 0) = some 0x7770 := by decide +kernel
theorem test_vcvt_f16 : after (.vcvt 4 1 false 5 0 0) (on 1 (vecs 7 0x3F800000)) (fun t => (lane 4 0 t, t.me.vtag 4)) = some (0x3C00, 5) := by decide +kernel

/-! ### Memory at the own spindle and elsewhere (R107 to R132, R151, R192 to R196, R240 to R244) -/

/-- The address 8 in g2, an away address in g3, and values in g5. -/
def mregs : List (Reg × Word) := [(2, 8), (3, 0x10008), (4, 3), (6, 0x20008), (7, 0x30008), (5, 0x1122334455667788)]

/-- Own memory at VA 8, in every size and with every permission that plain, full/empty and atomic forms need. -/
theorem witness_Own : Own (run mregs) (eaShort (run mregs) 2 0) needR 1 own8 ∧ Own (run mregs) (eaShort (run mregs) 2 0) needR 8 own8 ∧
    Own (run mregs) (eaLong (run mregs) 2 0) needW 2 own8 ∧ Own (run mregs) (eaLong (run mregs) 2 0) needW 8 own8 ∧
    Own (run mregs) ((run mregs).me.reg 2) needRW 4 own8 ∧ Own (run mregs) ((run mregs).me.reg 2) needRW 8 own8 :=
  ⟨⟨by decide, ⟨page 0 true, by decide, by decide, by decide⟩, by decide, by decide⟩, ⟨by decide, ⟨page 0 true, by decide, by decide, by decide⟩, by decide, by decide⟩,
   ⟨by decide, ⟨page 0 true, by decide, by decide, by decide⟩, by decide, by decide⟩, ⟨by decide, ⟨page 0 true, by decide, by decide, by decide⟩, by decide, by decide⟩,
   ⟨by decide, ⟨page 0 true, by decide, by decide, by decide⟩, by decide, by decide⟩, ⟨by decide, ⟨page 0 true, by decide, by decide, by decide⟩, by decide, by decide⟩⟩

/-- The premises of loads, stores, atomics and full/empty forms, with the word EMPTY and FULL. -/
theorem witness_MemoryForms : let s := run mregs
    s.mem.wf = true ∧ s.inCopyRegion own8 8 = false ∧ s.poisoned own8 8 = false ∧ NoWaiter s own8 ∧ s.full own8 = false ∧
    (3 : BitVec 2) ≠ 0 ∧ ({ s with fe := [own8] } : State).full own8 = true ∧ s.waitersIn own8 < waiterSlots ∧ (2 : BitVec 2) ≠ 3 :=
  ⟨by decide, by decide, by decide, fun x h => by simp [run, on, State.spindle, Table.get, Table.find, faSp, own8, faOf, sp0] at h, by decide, by decide, by decide,
    by decide, by decide⟩

theorem witness_Away : Away (run mregs) (eaShort (run mregs) 3 0) needR 8 away8 ∧ Away (run mregs) (eaShort (run mregs) 3 0) needW 4 away8 ∧
    Away (run mregs) ((run mregs).me.reg 3) needRW 8 away8 ∧ (run mregs).pinned 1 = false ∧ (run mregs).me.unit.far = false ∧
    (on 0 { user 0 with st := .ready }).pinned 0 = true ∧ (on 1 { regs mregs with unit := { pc := 0x1000, far := true } }).me.unit.far = true :=
  ⟨⟨by decide, ⟨page 1 true, by decide, by decide, by decide⟩, by decide, by decide⟩, ⟨by decide, ⟨page 1 true, by decide, by decide, by decide⟩, by decide, by decide⟩,
   ⟨by decide, ⟨page 1 true, by decide, by decide, by decide⟩, by decide, by decide⟩, by decide, by decide, by decide, by decide⟩

theorem witness_RelStore : let s := on 1 { regs mregs with unit := { pc := 0x1000, next := 0x1008, rel := some 1 } }; let e := eaShort s 3 0
    e.toNat % 8 = 0 ∧ s.xlate e needW = .ok (away8, page 1 true) ∧ faSp away8 ≠ s.here ∧ s.me.rels = [] ∧ s.me.unit.rel = some 1 := by decide

theorem witness_Migr : let s := run mregs; Own s (s.me.reg 2 &&& ~~~(7 : Word)) needR 8 own8 ∧ Away s (s.me.reg 3 &&& ~~~(7 : Word)) needR 8 away8 ∧
    (let p := on 0 (regs mregs (user 0)); p.pinned p.cur = true ∧ Own p (p.me.reg 2 &&& ~~~(7 : Word)) needR 8 own8) :=
  ⟨⟨by decide, ⟨page 0 true, by decide, by decide, by decide⟩, by decide, by decide⟩, ⟨by decide, ⟨page 1 true, by decide, by decide, by decide⟩, by decide, by decide⟩,
    by decide, ⟨by decide, ⟨page 0 true, by decide, by decide, by decide⟩, by decide, by decide⟩⟩

theorem witness_AccessChecks : let s := run mregs
    (eaShort s 4 0).toNat % 2 ≠ 0 ∧ (eaLong s 4 0).toNat % 8 ≠ 0 ∧ (s.me.reg 4).toNat % 4 ≠ 0 ∧ s.Handled ∧ s.me.inWindow (eaShort s 6 0) = false ∧
    s.xlate (eaShort s 6 0) (plainNeed needW 8) = .trap cXLATE (eaShort s 6 0) ∧ s.xlate (eaShort s 6 0) needRW = .trap cXLATE (eaShort s 6 0) ∧
    (let o := run [(8, 0x8000000000000000)]; o.xlate (eaShort o 8 0) (plainNeed needR 8) = .trap cXLATE (eaShort o 8 0) ∧ o.xlate (eaShort o 8 0) needR = .trap cXLATE (eaShort o 8 0)) ∧
    s.xlate (eaShort s 7 0) needR = .walk (eaShort s 7 0) ∧ (eaShort s 7 0).toNat % 8 = 0 :=
  ⟨by decide, by decide, by decide, ⟨by decide, .inl (by decide)⟩, by decide, by decide, by decide, by decide, by decide, by decide⟩

/-- A copy region that holds VA 8 (R145, R151). -/
def copied : State := let s := run mregs
  { s with spindles := [(0, { sp0 with copies := [{ base := faOf 0 0x1000000, len := 64, pubSp := 1, pubBase := faOf 1 0 }] }), (1, { job := some 1 })] }
theorem witness_CopyRegion : Own copied (eaShort copied 2 0) needW 8 own8 ∧ copied.inCopyRegion own8 8 = true ∧ (copied.touch 8).Handled :=
  ⟨⟨by decide, ⟨page 0 true, by decide, by decide, by decide⟩, by decide, by decide⟩, by decide, by decide, .inl (by decide)⟩

/-- An LDF waiter at the own bank. -/
def waiting : State :=
  let s := on 1 { user 1 with st := .parked, park := 5, tok := 7, kont := .load 3 8 false }
  { s with spindles := [(0, { sp0 with waiters := [{ sp := 0, ctx := 1, tok := 7, op := opLDF, fa := own8, n := 8, data := 0, local_ := true }] }), (1, { job := some 1 })] }
theorem witness_Fill : ∃ x, (waiting.spindle (faSp own8)).waiters = [x] ∧ x.local_ = true ∧ x.fa = own8 ∧ x.op = opLDF ∧ waiting.full own8 = false ∧
    (waiting.ctx (keyOf x.sp x.ctx)).st = .parked ∧ (waiting.ctx (keyOf x.sp x.ctx)).tok = x.tok ∧ (waiting.ctx (keyOf x.sp x.ctx)).kont = .load 3 x.n false :=
  ⟨_, rfl, by decide, by decide, by decide, by decide, by decide, by decide, by decide⟩

theorem witness_DeferredUpdates : let s := run mregs
    s.me.pairtask = false ∧ (s.spindle s.here).fenced = false ∧ (s.spindle s.here).job = some s.myJobNo ∧ s.myJob.rect.has s.here = true ∧
    (s.spindle s.here).skein.length < s.skeinSize s.here ∧ s.inCopyRegion own8 8 = false := by decide

/-- A context that holds a pair task with `n` buffered updates. -/
def tasked (n : Nat) : State :=
  on 1 { regs mregs with pairtask := true, task := some { desc := ⟨0, 0, 0, false, false⟩, cluster := 0, dups := List.replicate n ⟨0, 0, 0, 0, 0⟩ } }
theorem witness_TaskUpdates : (∃ u, (tasked 0).me.task = some u ∧ u.dups.length + boolN u.fork.isSome < 64) ∧ (tasked 0).me.pairtask = true ∧
    (∃ p, (tasked 0).xlate 8 needW = .ok (own8, p)) ∧ (∃ u, (tasked 64).me.task = some u ∧ 64 ≤ u.dups.length + boolN u.fork.isSome) ∧
    ((tasked 64).touch 8).Handled ∧ (tasked 0).Handled ∧ (5 : Reg) ≠ 0 :=
  ⟨⟨_, rfl, by decide⟩, by decide, ⟨page 0 true, by decide⟩, ⟨_, rfl, by decide⟩, ⟨by decide, .inl (by decide)⟩, ⟨by decide, .inl (by decide)⟩, by decide⟩

/-- One entry in the skein of spindle 0. -/
def skeined (op : Nat) : State := let s := run []
  { s with spindles := [(0, { sp0 with skein := [{ fa := own8, op := op, sz := 3, v := 5, key := 0, seqn := 0, plyg := 0, phase := 0, anyph := true }] }), (1, { job := some 1 })] }
theorem witness_Merge : ∀ op ∈ [0, 2, 3, 6, 7], ∃ e, (skeined op).mem.wf = true ∧ ((skeined op).spindle 0).skein = [e] ∧ faSp e.fa = 0 ∧ e.op = op ∧
    ((skeined op).spindle 0).fenced = false ∧ (skeined op).poisoned e.fa (2 ^ e.sz) = false :=
  fun _ _ => ⟨_, rfl, rfl, (by show faSp own8 = 0; decide), rfl, rfl, by simp [State.poisoned, skeined, run, on, State.reset]⟩

/-- A vector access by lane 0 alone, at the own spindle: a mask of 1 in g9, v1 of I64 lanes, the index register v2 zero. -/
def vmem : State := on 1 (regs ((9, 1) :: (10, 0x10000) :: mregs) ((vecs 4).setV 3 0 11 0))
theorem witness_VectorMemory : let s := vmem; let f := fun j => own8 + 8 * j
    tagIn 4 1 10 = true ∧ tagIn 4 2 8 = true ∧ (s.me.reg 2 + BitVec.ofNat 64 (64 * (0 : BitVec 4).toNat)).toNat % 8 = 0 ∧ activeLanes s 4 9 = [0] ∧
    OwnBytes s needR (s.me.reg 2) (f 0) ∧ OwnBytes s needW (s.me.reg 2) (f 0) ∧ s.poisoned (f 0) 8 = false ∧ s.inCopyRegion (f 0) 8 = false ∧
    tagIsInt (s.me.vtag 2) = true ∧ tagWidth (s.me.vtag 2) = 64 ∧ s.me.lane 2 0 = 0 ∧ tagIsScal (s.me.vtag 1) = true ∧ s.mem.wf = true ∧
    tagIsBlock (s.me.vtag 3) = true ∧ (∀ j ∈ List.range 8, OwnBytes s needRW (s.me.reg 2 + BitVec.ofNat 64 (8 * j)) (f j) ∧ s.poisoned (f j) 8 = false) ∧
    s.poisoned own8 64 = false ∧ s.inCopyRegion own8 64 = false ∧ OwnBytes s needRW 0x88 (own8 + 128) ∧ blkScaleLen 0 ≤ 64 :=
  ⟨by decide, by decide, by decide, by decide, ⟨page 0 true, by decide, by decide, by decide⟩, ⟨page 0 true, by decide, by decide, by decide⟩, by decide, by decide,
    by decide, by decide, by decide +kernel, by decide, by decide, by decide, fun j h => by
      simp only [List.mem_range] at h
      interval_cases j <;> exact ⟨⟨page 0 true, by decide, by decide, by decide⟩, by decide⟩,
    by decide, by decide, ⟨page 0 true, by decide, by decide, by decide⟩, by decide⟩

theorem witness_VectorChecks : let s := vmem
    s.Handled ∧ activeLanes s 4 9 ≠ [] ∧ activeLanes s (s.me.vtag 1) 9 = [0] ∧ (s.me.reg 4).toNat % 8 ≠ 0 ∧
    s.xlate (s.me.reg 3) needW = .ok (away8, page 1 true) ∧ faSp away8 ≠ s.here ∧ s.xlate (s.me.reg 6) needR ≠ .walk 0 ∧
    (let o := on 1 (regs [(2, 0x8000000000000000)] (vecs 4)); o.xlate (o.me.reg 2) needR = .trap cXLATE (o.me.reg 2) ∧ o.me.inWindow (o.me.reg 2) = false) ∧
    tagIsScal ((run []).me.vtag 1) = false ∧ tagIsBlock (s.me.vtag 1) = false ∧ (run []).me.vtag 1 = 0 ∧
    (let c := { copied with ctxs := [(1, regs mregs (vecs 4)), (31, { st := .ready, handler := true, supv := true, thidx := 31 })] }
     c.xlate (c.me.reg 2) needW = .ok (own8, page 0 true) ∧ faSp own8 = c.here ∧ c.inCopyRegion own8 8 = true) :=
  ⟨⟨by decide, .inl (by decide)⟩, by decide, by decide, by decide, by decide, by decide, by decide, by decide, by decide, by decide, by decide, by decide⟩

/-- Three tables that map VA 0 to a page of spindle 0's DRAM, read, write and execute (R108). -/
def tables : WalkRules :=
  let e := fun (hi l : Nat) => (leBytes (hi + l / 2 ^ 15 * 2 ^ 30) 8).map (BitVec.ofNat 8)
  let put := fun (fa : Nat) (b : List Byte) => ((b.zipIdx.map fun x => (fa + x.2, x.1)).filter fun x => x.2 != 0 : Memory)
  { mem := put (faOf 0 0x1000000) (e (2 ^ 63) 0x1008000) ++ put (faOf 0 0x1008000) (e (2 ^ 63) 0x1010000) ++
      put (faOf 0 0x1010000) (e (2 ^ 63 + 2 ^ 62 + 7 * 2 ^ 56) 0x1020000),
    rect := some ⟨0, 0, 2, 1⟩, sysOf := fun _ => 0x4000000 }
theorem witness_Walks : (walkTables tables (faOf 0 0x1000000) 0x123).isSome = true ∧ 2 ^ 52 ≤ (0x10000000000000 : Word).toNat ∧
    (tables.mem.readN (faOf 0 0x2000000) 8).testBit 63 = false := by decide +kernel

theorem test_store_load : (match exec (.st 5 2 2 0) (run mregs) with | .next t => after (.ld 8 2 3 0) t (reg 8) | _ => none) = some 0x55667788 := by decide +kernel
theorem test_ld_signed : (match exec (.st 5 2 0 0) (run mregs) with | .next t => after (.ldSigned 8 2 0 0) t (reg 8) | _ => none) = some 0xFFFFFFFFFFFFFF88 := by
  decide +kernel
theorem test_aadd_narrow : (match exec (.st 5 2 3 0) (run mregs) with | .next t => after (.aadd 8 2 5 true) t (fun t => (reg 8 t, t.read own8 8)) | _ => none) =
    some (0x55667788, 0x11223344AACCEF10) := by decide +kernel
theorem test_lde_empties : after (.lde 8 2 3 0) { run mregs with fe := [own8] } (fun t => (reg 8 t, t.full own8)) = some (0, false) := by decide +kernel
theorem test_stf_waits : after (.stf 5 2 3 0) { run mregs with fe := [own8] } (fun t => (t.me.st, t.me.park, (t.spindle 0).waiters.length)) = some (.parked, 5, 1) := by
  decide +kernel
theorem test_remote_load_departs : after (.ld 8 3 3 0) (run mregs) (fun t => (t.me.st, t.msgs.map (·.dst))) = some (.departing, [1]) := by decide +kernel
theorem test_acas_no_match : after (.acas 8 2 5 5 false) (run mregs) (fun t => (reg 8 t, t.read own8 8)) = some (0, 0) := by decide +kernel
theorem test_dadd_appends : after (.dadd 2 5 0 true) (run mregs) (fun t => ((t.spindle 0).skein.map fun e => (e.fa, e.op, e.sz, e.v))) =
    some [(own8, 0, 2, 0x55667788)] := by decide +kernel

/-! ### Threads, channels, groups, special registers (R24 to R31, R84 to R104, R133 to R154) -/

theorem witness_Spawn :
    (let s := keeper [(2, 0x2000)]; let free := fun k => (s.ctx (keyOf s.here k)).st = .free ∧ (s.spindle s.here).birth.getLsbD k = false
      keyCtx s.cur = 0 ∧ (s.me.reg 2).toNat % 4 = 0 ∧ (s.spindle s.here).migBuf = [] ∧ free 1 ∧ ∀ j, 1 ≤ j → j < 1 → ¬ free j) ∧
    (let s := withSp0 (keeper [(2, 0x2000)]) fun p => { p with birth := 0xFFFE }; ∀ k ∈ List.range 16, 1 ≤ k → (s.spindle s.here).birth.getLsbD k ≠ false) ∧
    keyCtx (run []).cur ≠ 0 ∧ (run []).Handled ∧ ((keeper [(2, 0x2001)]).me.reg 2).toNat % 4 ≠ 0 ∧ (keeper []).Handled := by
  refine ⟨⟨by decide, by decide, by decide, by decide, by omega⟩, by decide, by decide, ⟨by decide, .inl (by decide)⟩, by decide, ⟨by decide, .inl (by decide)⟩⟩

theorem witness_Reap : (let s := withSp0 (keeper [(2, 15)]) fun p => { p with birth := 0x8000, exits := [(15, 7)] }
      keyCtx s.cur = 0 ∧ (s.spindle s.here).birth.getLsbD 15 = true ∧ s.myJob.handlerPc = 0 ∧ Table.find (s.spindle s.here).exits 15 = some 7) ∧
    (let s := withSp0 (keeper [(2, 1)]) fun p => { p with birth := 2 }; (s.spindle s.here).birth.getLsbD 1 = true ∧ Table.find (s.spindle s.here).exits 1 = none) ∧
    (keeper [(2, 1)]).Handled := ⟨by decide, by decide, by decide, .inl (by decide)⟩

theorem witness_Exit : (let s := run []; s.me.pairtask = false ∧ s.me.thidx ≠ compThidx ∧ s.me.rels = [] ∧ s.openAct s.myJobNo s.me.thidx = none ∧
      Table.find s.jobs s.myJobNo = some job2 ∧ job2.rect.spindle (s.me.thidx / 16) = s.here ∧ (s.spindle s.here).fenced = false) ∧
    (let s := on 1 { user 1 with thidx := 17 }; job2.rect.spindle (s.me.thidx / 16) = 1 ∧ (s.spindle 1).fenced = false) ∧
    (on 1 { user 1 with pairtask := true }).Handled := ⟨by decide, by decide, by decide, .inl (by decide)⟩

theorem witness_SleepAndCheckpoint : ((run []).me.reg 2).toNat = 0 ∧ ((run [(2, 5)]).me.reg 2).toNat ≠ 0 ∧ (run []).myJob.phase = .running ∧
    (withJob (run []) fun j => { j with phase := .preempting }).myJob.phase ≠ .running := by decide

/-- Channel 5 of job 1, written and read by the threads named. -/
def chanSt (c : Chan) (l : List (Reg × Word)) (k : Nat := 1) (x : Context := user 1) : State := withJob (on k (regs ((2, 5) :: l) x)) fun j => { j with chans := [(5, c)] }
theorem witness_Send : (let s := chanSt { reader := 17, writer := 1 } []
      (8 : Reg).toNat + (7 : BitVec 3).toNat ≤ 15 ∧ s.myJob.chan 5 = some { reader := 17, writer := 1 } ∧ s.me.thidx = 1 ∧ s.me.rels = [] ∧ s.Handled) ∧
    (chanSt { reader := 17, writer := 1, credit := 0 } []).myJob.chan 5 = some { reader := 17, writer := 1, credit := 0 } ∧
    (run [(2, 5)]).myJob.chan 5 = none ∧ (run [(2, 5)]).Handled :=
  ⟨⟨by decide, by decide, by decide, by decide, by decide, .inl (by decide)⟩, by decide, by decide, by decide, .inl (by decide)⟩

theorem witness_Receive :
    (let s := on 1 { regs [(2, 0xFFF)] with mailbox := [[7]] }; s.me.rels = [] ∧ (s.me.reg 2).toNat = mailboxNo ∧ s.me.mailbox = [7] :: []) ∧
    (let s := chanSt { reader := 1, writer := 17, buf := [[7, 8]] } []; s.myJob.chan (s.me.reg 2).toNat = some { reader := 1, writer := 17, buf := [[7, 8]] }) ∧
    (let s := run [(2, 0xFFF), (3, 200)]; s.inbox (s.me.reg 2).toNat = some [] ∧ s.now < s.me.lastIssue + (s.me.reg 3).toNat ∧
      s.me.lastIssue + (s.me.reg 4).toNat ≤ s.now) ∧
    (let s := run [(2, 5)]; s.Handled ∧ s.inbox (s.me.reg 2).toNat = none) :=
  ⟨by decide, by decide, by decide, ⟨by decide, .inl (by decide)⟩, by decide⟩

theorem witness_ChannelQueries :
    (let c : Chan := { reader := 0, writer := 0 }; let s := chanSt c [(3, 0x100000001)] 0 (user 0)
      s.myJob.chan 5 = some c ∧ s.threadSpindle s.myJobNo c.reader = s.here ∧ keyCtx s.cur = 0 ∧ (s.me.reg 3).toNat < 2 ^ 50 ∧
      (s.me.reg 3).toNat / 2 ^ 18 % 2 ^ 14 = 0 ∧ s.myJob.indexOk 1 = true ∧ s.endpointWaits s.myJobNo 5 c = false ∧
      ∀ th ∈ [0, 0, 1, 1], s.threadSpindle s.myJobNo th = s.here) ∧
    (chanSt { reader := 0, writer := 0, credit := 7 } [] 0 (user 0)).myJob.chan 5 = some { reader := 0, writer := 0, credit := 7 } ∧
    (let c : Chan := { reader := 1, writer := 0 }; let s := chanSt c [] 0 (user 0)
      ({ s with ctxs := [(0, regs [(2, 5)] (user 0)), (1, regs [(3, 5)] { user 1 with st := .parked, park := 3, unit := { words := [0x14830040] } })] } : State).endpointWaits 1 5 c = true) ∧
    (run [(2, 5)]).Handled ∧ keyCtx (run []).cur ≠ 0 ∧ (keeper [(2, 5)]).Handled ∧ (keeper [(2, 5)]).myJob.chan 5 = none :=
  ⟨by decide, by decide, by decide, ⟨by decide, .inl (by decide)⟩, by decide, ⟨by decide, .inl (by decide)⟩, by decide⟩

/-- Group 3 of threads 1 and 17; the context's GSET names it. -/
def grouped (l : List Arrival) : State :=
  withJob (on 1 { regs [(2, 3), (3, 300)] with gset := 0x103 }) fun j => { j with groups := [(3, [1, 17])], arrivals := l }
theorem witness_Groups : (let s := grouped []; ∃ jb, Table.find s.jobs s.myJobNo = some jb ∧ gsetHas s.me.gset 3 = true ∧ jb.arrivedNow 3 s.me.thidx = false ∧
      s.me.pairtask = false) ∧
    (let s := grouped [{ grp := 3, thidx := 1, phase := 0, ply := false, at_ := 0, tok := 0 }]; ∃ jb, Table.find s.jobs s.myJobNo = some jb ∧
      jb.arrivedNow 3 s.me.thidx = true ∧ s.Handled) ∧
    ¬ gsetHas (grouped []).me.gset 4 = true ∧ 255 < ((grouped []).me.reg 3).toNat :=
  ⟨⟨_, rfl, by decide, by decide, by decide⟩, ⟨_, rfl, by decide, by decide, .inl (by decide)⟩, by decide, by decide⟩

theorem witness_SpecialRegisters :
    (let s := on 1 { user 1 with supv := true }; s.me.supv = true) ∧ (run []).Handled ∧ (run []).me.supv = false ∧ 0x11 < (0x12 : BitVec 8).toNat ∧
    (let x := ((run [(2, 0x1F000B)]).me.reg 2).toNat; x < 2 ^ 22 ∧ x / 2 ^ 9 % 2 ^ 7 = 0 ∧ x / 4 % 4 ≠ 3 ∧ x / 32 % 4 ≠ 3) ∧
    (let x := ((run [(2, 0x7F)]).me.reg 2).toNat; x < 2 ^ 7 ∧ x / 2 ^ 48 % 2 ^ 15 = 0 ∧ x / 2 ^ 63 = 0 ∧ x / 2 ^ 18 % 2 ^ 45 = 0) ∧
    (let x := ((run [(2, 0x30000)]).me.reg 2).toNat; x < 2 ^ 52 ∧ x % 2 ^ 16 = 0) ∧
    (let x := ((run [(2, 0x7FFFFFFFFFFFFFFF)]).me.reg 2).toNat; ¬ x < 2 ^ 52 ∧ x / 2 ^ 48 % 2 ^ 15 ≠ 0 ∧ x / 2 ^ 18 % 2 ^ 45 ≠ 0 ∧ ¬ x < 2 ^ 22) ∧
    (run []).myJob.pliesDone = 0 ∧ (run []).myJob.debug = false ∧ (withJob (run []) fun j => { j with pliesDone := 1 }).myJob.pliesDone ≠ 0 ∧
    (withJob (run []) fun j => { j with pliesDone := 1 }).Handled :=
  ⟨by decide, ⟨by decide, .inl (by decide)⟩, by decide, by decide, by decide, by decide, by decide, by decide, by decide, by decide, by decide, by decide, .inl (by decide)⟩

/-- Scratchpad pages of spindles 0 and 1 at VA pages 4 and 5. -/
def scratch (c : Context) (cp : List CopyEntry) : State :=
  let p := fun sp => ({ frame := faOf sp 0, big := false, kind := 0, r := true, w := true, x := false, fgn := false } : PageEntry)
  withSp0 (on 1 c) fun s => { s with tlb := [⟨1, 4, p 0⟩, ⟨1, 5, p 1⟩], copies := cp }
theorem witness_Subscriptions : let s := scratch (regs [(2, 0x40000), (3, 0x50000), (4, 128)]) []
    (∃ g, s.xlate 0x40000 needR = .ok (0, g) ∧ g.kind = 0) ∧ (∃ g, s.xlate 0x50000 needR = .ok (faOf 1 0, g) ∧ g.kind = 0) ∧
    (∃ g, s.xlate (0x40000 + BitVec.ofNat 64 127) needR = .ok (0 + 128 - 1, g) ∧ g.kind = 0) ∧
    (∃ g, s.xlate (0x50000 + BitVec.ofNat 64 127) needR = .ok (faOf 1 0 + 128 - 1, g) ∧ g.kind = 0) ∧ faSp 0 = s.here ∧ faSp (faOf 1 0) ≠ s.here ∧
    s.regionTaken s.here 0 128 = false ∧ (s.spindle s.here).copies.length < 16 ∧ s.copyEntry 0 = none ∧
    (∀ f : Bool, ∃ e, (scratch (regs [(2, 0x40000)]) [⟨0, 128, 1, faOf 1 0, 1, false, f⟩]).copyEntry 0 = some e ∧ e.pfenced = f) ∧
    (run [(2, 8)]).Handled ∧ ((run [(2, 8)]).me.reg 2).toNat % 64 ≠ 0 := by
  refine ⟨⟨_, rfl, by decide⟩, ⟨_, rfl, by decide⟩, ⟨_, rfl, by decide⟩, ⟨_, rfl, by decide⟩, by decide, by decide, by decide, by decide, by decide,
    fun f => ⟨⟨0, 128, 1, faOf 1 0, 1, false, f⟩, by cases f <;> decide, rfl⟩, ⟨by decide, .inl (by decide)⟩, by decide⟩

theorem witness_Ordering : (run []).me.rels = [] ∧ (run []).batchesOf (run []).myWho = false ∧ ((run []).spindle 0).copies = [] ∧
    (let s := withSp0 (run []) fun p => { p with pubs := [{ base := 0, len := 64, subSp := 1, copyBase := 0, open_ := [⟨0, 0, 1, 1, 0, [(run []).myWho]⟩] }] };
      s.batchesOf s.myWho = true) ∧ (on 1 { user 1 with rels := [{ tok := 1, word := 0 }] }).me.rels ≠ [] ∧
    (∀ f : Bool, (scratch (user 1) [⟨0, 128, 1, 0, 1, false, f⟩]).Handled ∧ ((scratch (user 1) [⟨0, 128, 1, 0, 1, false, f⟩]).spindle 0).copies = [⟨0, 128, 1, 0, 1, false, f⟩]) :=
  ⟨by decide, by decide, by decide, by decide, by decide, fun f => ⟨⟨by cases f <;> decide, .inl (by cases f <;> decide)⟩, by cases f <;> decide⟩⟩

theorem witness_DeviceLaunch : let s := run [(2, 64), (3, 16383), (4, 16384), (5, 8)]
    Own s (s.me.reg 2) needR 64 (own8 + 56) ∧ s.poisoned (own8 + 56) 64 = false ∧ (s.me.reg 3).toNat ≤ 16383 ∧ 16383 < (s.me.reg 4).toNat ∧
    (s.me.reg 5).toNat % 64 ≠ 0 ∧ s.Handled :=
  ⟨⟨by decide, ⟨page 0 true, by decide, by decide, by decide⟩, by decide, by decide⟩, by decide, by decide, by decide, by decide, by decide, .inl (by decide)⟩

theorem witness_SoftwareTraps : (run []).Handled ∧ (run []).myJob.debug = false ∧ (run []).me.mailbox = [] ∧ (on 1 { user 1 with mailbox := [[1]] }).me.mailbox ≠ [] ∧
    (on 1 { user 1 with mailbox := [[1]] }).Handled ∧
    (let s := withJob (run []) fun j => { j with debug := true }; s.myJob.debug = true ∧ s.myJob.phase = .running ∧ s.myJob.stopped = false ∧ s.Handled) :=
  ⟨⟨by decide, .inl (by decide)⟩, by decide, by decide, by decide, ⟨by decide, .inl (by decide)⟩, by decide, by decide, by decide, by decide, .inl (by decide)⟩

/-- A handler on spindle 1 that selects context 1 of spindle 0, which is frozen by `r` or is not. -/
def handler (w : Word) (l : List (Reg × Word)) (c : Context) : State :=
  { on 1 c with ctxs := [(1, c), (31, regs l { user 31 with handler := true, supv := true, winsel := w })], cur := 31 }
theorem witness_Resume : let f := fun (x : Bool) => ({ user 1 with st := .frozen, frz := some { cause := 5, fetchFault := x, skipPc := 0x1004 } } : Context)
    let s := handler 0x8000000000000001 [(2, 0x2000), (3, 2)] (f false)
    (s.me.winsel.getLsbD 63 = true ∧ s.myJob.rect.has (keySp (winTarget s.me.winsel)) = true ∧ s.me.handler = true ∧ s.me.st = .ready ∧
      (s.ctx (winTarget s.me.winsel)).st = .frozen ∧ winTarget s.me.winsel ≠ s.cur ∧ (s.me.reg 2).toNat % 4 = 0 ∧ (s.me.reg 3).toNat % 4 ≠ 0 ∧
      (s.ctx (winTarget s.me.winsel)).thidx ≠ compThidx) ∧
    (∀ x : Bool, ((handler 0x8000000000000001 [] (f x)).ctx 1).frz.map (fun r => (r.fetchFault, r.defer)) = some (x, false)) ∧
    (handler 1 [] (f false)).me.winsel.getLsbD 63 = false ∧ ((handler 0x8000000000000001 [] (user 1)).ctx 1).st ≠ .frozen ∧
    (run []).me.handler = false ∧ (run []).Handled :=
  ⟨by decide, by decide, by decide, by decide, by decide, by decide, .inl (by decide)⟩

theorem witness_UntakenTrap : let s := { run [] with ctxs := [(1, user 1)] }
    s.me.thidx ≠ compThidx ∧ s.takesRecord s.myJobNo (s.spindle s.here).primary s.cur = false ∧ s.takesRecord s.myJobNo (s.spindle s.here).secondary s.cur = false ∧
    s.openAct s.myJobNo s.me.thidx = none ∧ Table.find s.jobs s.myJobNo = some job2 ∧ job2.rect.spindle (s.me.thidx / 16) = s.here := by decide

theorem test_spawn : after (.spawn 13 2 3 4) (keeper [(2, 0x2000), (3, 7), (4, 9)]) (fun t => (reg 13 t, (t.ctx 1).pc, (t.ctx 1).reg 1, (t.ctx 1).reg 2)) =
    some (1, 0x2000, 7, 9) := by decide
theorem test_spawn_child : after (.spawn 13 2 3 4) (run [(2, 1)]) (fun t => t.me.frz.map (·.cause)) = some (some cILLEGAL) := by decide
theorem test_exit : after (.exit 2) (run [(2, 0x100000007)]) (fun t => (t.me.st, (t.spindle 0).exits)) = some (.free, [(1, 7)]) := by decide
theorem test_yield : after .yield (run []) (fun t => (t.me.st, t.me.lastIssue)) = some (.ready, 108) := by decide
theorem test_send : after (.send 2 3 1) (chanSt { reader := 17, writer := 1 } [(3, 7), (4, 9)]) (fun t => (t.me.st, t.msgs.map (·.body))) =
    some (.ready, [.chan 5 [7, 9]]) := by decide
theorem test_recv : after (.recv 14 2) (chanSt { reader := 1, writer := 17, buf := [[7, 8, 9]] } []) (fun t => (reg 14 t, reg 15 t, reg 0 t)) = some (7, 8, 0) := by
  decide
theorem test_chq_mailbox : after (.chq 3 2) (run [(2, 0xFFF)]) (reg 3) = some 0xB000000000000000 := by decide
theorem test_garr_twice : after (.garr 2) (grouped [{ grp := 3, thidx := 1, phase := 0, ply := false, at_ := 0, tok := 0 }]) (fun t => t.me.frz.map (·.cause)) =
    some (some cILLEGAL) := by decide
theorem test_srd_number : after (.srd 3 0x21) (run []) (fun t => t.me.frz.map (·.cause)) = some (some cILLEGAL) := by decide
theorem test_swr_thidx : after (.swr 1 4) (run []) (fun t => t.me.frz.map (·.cause)) = some (some cILLEGAL) := by decide
theorem test_swr_trapv_user : after (.swr 0x0F 4) (run []) (fun t => t.me.frz.map (·.cause)) = some (some cPRIV) := by decide
theorem test_resume_user : after (.resume 11 3 2) (run []) (fun t => t.me.frz.map (·.cause)) = some (some cPRIV) := by decide
theorem test_trap_record : after (.trap 7 3) (run [(3, 9)]) (fun t => (t.me.frz.map (·.addr), t.msgs.map (·.dst))) = some (some 9, [1]) := by decide

/-! ### Looms, pair tasks, layers, activities, copies (R174 to R184, R255 to R269, R282 to R292, R296 to R326) -/

/-- Job 1 on the whole first cluster, changed by `f`; spindle 0 has its scratchpad at VA page 4 and its DRAM at page 0. -/
def clustered (c : Context) (f : Job → Job := id) : State :=
  let p : PageEntry := { frame := faOf 0 0, big := false, kind := 0, r := true, w := true, x := false, fgn := false }
  { on 1 c with jobs := [(1, f { job2 with rect := ⟨0, 0, 4, 4⟩ })], spindles := [(0, { sp0 with tlb := [⟨1, 4, p⟩, ⟨1, 0, page 0 true⟩] }), (1, { job := some 1 })] }
theorem handled_clustered : (clustered (user 1)).Handled := ⟨by decide, .inl (by decide)⟩

theorem noCopies (s : State) (h : s.spindles = [(0, { sp0 with tlb := ((clustered (user 1)).spindle 0).tlb }), (1, { job := some 1 })]) (n l : Nat) :
    s.inCopyRegion n l = false := by
  have : (s.spindle (faSp n)).copies = [] := by
    unfold State.spindle; rw [h]; simp only [Table.get, Table.find]
    split
    · rfl
    · split <;> rfl
  simp [State.inCopyRegion, this]

theorem witness_LoomForms : let s := clustered (regs [(2, 0x40000), (3, 0x40100), (4, 1)])
    s.me.rels = [] ∧ WholeCluster s ∧ InCluster s (aRanges 4 16 0x40000 0 { m := 1, first := 0, slot := 0, accRow := 0 } 0) needR ∧ s.slotsBad 4 16 16 0 = false ∧
    (let rs : List LoomRange := [{ va := 0x40000, len := 16 * loomEB 4 16 }, { va := 0x40100, len := 16 * loomSB 4 16 }];
      s.loomXlate rs needR = none ∧ s.loomRefused rs (s.loomPages rs) = none) ∧
    (let rs : List LoomRange := [{ va := 0x40000, len := 1 * (16 * ((0 : BitVec 4).toNat + 1)) * accFmtBytes 0 }];
      (0x40000 : Nat) % accFmtBytes 0 = 0 ∧ InCluster s rs needR ∧ InCluster s rs needW ∧ ∀ n l, s.inCopyRegion n l = false) ∧
    (255 : BitVec 8).toNat + 1 ≤ 256 ∧ s.Handled :=
  ⟨by decide, by unfold WholeCluster; decide, ⟨by decide +kernel, by decide +kernel⟩, by decide +kernel, ⟨by decide +kernel, by decide +kernel⟩,
    ⟨by decide, ⟨by decide +kernel, by decide +kernel⟩, ⟨by decide +kernel, by decide +kernel⟩, fun n l => noCopies _ rfl n l⟩, by decide, ⟨by decide, .inl (by decide)⟩⟩

theorem witness_Lmmg :
    let s : State := { clustered (regs [(2, 0x40000), (3, 0x40100), (5, 1)]) with mem := [(2, 1)] }
    let tr : LoomRange := { va := 0x40000, len := 8 }; let w : Word := 0x10000; let g := tableEntry w; let all := tr :: aRanges 4 16 0x40100 0 g 0
    (s.me.reg 5).toNat = 1 ∧ s.loomXlate [tr] needR = none ∧ s.poisoned (pageFa (s.loomPages [tr]) tr.va) 8 = false ∧
    w = BitVec.ofNat 64 (s.read (pageFa (s.loomPages [tr]) tr.va) 8) ∧ s.loomXlate all needR = none ∧ s.loomRefused [tr] (s.loomPages all) = none ∧
    s.loomOutside (aRanges 4 16 0x40100 0 g 0) (s.loomPages all) = none ∧ g.accRow + g.m ≤ 256 ∧ g.m = 1 ∧ s.slotsBad 4 16 16 g.slot = false := by decide +kernel

theorem witness_LoomRefusals : (let s := run []; ¬ WholeCluster s ∧ s.me.rels = [] ∧ s.Handled) ∧
    (let s := clustered (regs [(3, 2)]); WholeCluster s ∧ 256 < (255 : BitVec 8).toNat + (s.me.reg 3).toNat ∧ s.Handled) ∧
    (Fl.fin false 1 0).isFin = true :=
  ⟨⟨by unfold WholeCluster; decide, by decide, by decide, .inl (by decide)⟩, ⟨by unfold WholeCluster; decide, by decide, by decide, .inl (by decide)⟩, rfl⟩

/-- Two trees at VA 0 and 0x400, four records each; node 0 of the first has two children from 1. -/
def treeA : Tree := { nodes := 0, count := 4, root := 0 }
def treeB : Tree := { nodes := 0x400, count := 4, root := 0 }
def paired (c : Context) (n : Nat) : State :=
  { clustered c (fun j => { j with trees := [(0, treeA, treeB)], frontCount := n, blocks := 1 }) with
    mem := [(faOf 0 0x1000000 + 16, 1), (faOf 0 0x1000000 + 20, 2)] }
theorem witness_PairQueue : let s := paired (user 1) 0
    ∃ jb, Table.find s.jobs s.myJobNo = some jb ∧ jb.noTrees = false ∧ jb.slotTrees 0 = some (treeA, treeB) ∧ 0 ∉ jb.seeded ∧
      jb.frontCount + jb.frontRes + 1 ≤ jb.limit ∧ jb.rect.clusterAt (jb.rect.clusterIndex s.here) = clusterOf s.here ∧ s.bobbinAlive (clusterOf s.here) = true ∧
      (s.cluster (clusterOf s.here)).occ < bobbinCap ∧ s.me.pairtask = false ∧ jb.frontCount = 0 ∧ (s.me.reg 2).toNat = 0 :=
  ⟨_, rfl, by decide, by decide, by decide, by decide, by decide, by decide, by decide, by decide, by decide, by decide⟩
theorem witness_PairWaits : (∃ jb, Table.find (paired (user 1) 2).jobs 1 = some jb ∧ jb.frontCount ≠ 0) ∧ (paired (regs [(2, 2)]) 2).Handled ∧
    1 < ((paired (regs [(2, 2)]) 2).me.reg 2).toNat ∧ ((paired (regs [(2, 1)]) 2).me.reg 2).toNat = 1 ∧ (paired { user 1 with pairtask := true } 2).Handled :=
  ⟨⟨_, rfl, by decide⟩, ⟨by decide, .inl (by decide)⟩, by decide, by decide, ⟨by decide, .inl (by decide)⟩⟩
theorem witness_NodeRecords : let s := paired (regs [(2, 0), (3, 0x200000000)]) 1
    s.myJob.noTrees = false ∧ s.myJob.slotTrees ((s.me.reg 2).toNat / 2 ^ 62) = some (treeA, treeB) ∧ OwnRecord s treeA 0 (faOf 0 0x1000000) ∧
    OwnRecord s treeB 0 (faOf 0 0x1000400) ∧ faOf 0 0x1000400 % 64 = 0 ∧ treeA.count ≤ (s.me.reg 3).toNat / 2 ^ 31 % 2 ^ 31 ∧ s.Handled :=
  ⟨by decide, by decide, ⟨by decide, ⟨by decide, ⟨page 0 true, by decide, by decide, by decide⟩, by decide, by decide⟩, by decide⟩,
    ⟨by decide, ⟨by decide, ⟨page 0 true, by decide, by decide, by decide⟩, by decide, by decide⟩, by decide⟩, by decide, by decide, by decide, .inl (by decide)⟩
/-- The context holds the root pair with `l` buffered. -/
def holding (l : List DupEffect) : State := paired { user 1 with pairtask := true, task := some { desc := ⟨0, 0, 0, false, true⟩, cluster := 0, dups := l } } 2
theorem witness_ForkAndCommit : let s := holding []
    (∃ jb u, Table.find s.jobs s.myJobNo = some jb ∧ jb.noTrees = false ∧ s.me.task = some u ∧ u.fork = none ∧ (s.me.reg 2).toNat = u.desc.key ∧ u.dups.length < 64 ∧
      jb.frontCount + jb.frontRes + 2 ≤ jb.limit ∧ (s.cluster u.cluster).own = [] ∧ jb.frontCount = 2) ∧
    OwnRecord s treeA 0 (faOf 0 0x1000000) ∧ OwnRecord s treeB 0 (faOf 0 0x1000400) ∧ s.read (faOf 0 0x1000400 + 12) 9 / 2 ^ 64 % 256 = 0 ∧
    s.read (faOf 0 0x1000000 + 12) 9 / 2 ^ 64 % 256 = 2 ∧ s.read (faOf 0 0x1000000 + 12) 9 / 2 ^ 32 % 2 ^ 32 + 2 ≤ treeA.count ∧
    (let e : DupEffect := ⟨8, own8, 0, 3, 5⟩; (holding [e]).appendRefusal (holding [e]).here e.fa (2 ^ e.sz) 0 = none) :=
  ⟨⟨_, _, rfl, by decide, rfl, by decide, by decide, by decide, by decide, by decide, by decide⟩,
    ⟨by decide, ⟨by decide, ⟨page 0 true, by decide, by decide, by decide⟩, by decide, by decide⟩, by decide⟩,
    ⟨by decide, ⟨by decide, ⟨page 0 true, by decide, by decide, by decide⟩, by decide, by decide⟩, by decide⟩, by decide, by decide, by decide, by decide⟩

theorem witness_Layers : let s := run [(2, 64), (3, 0x10), (4, 8)]
    (s.me.reg 2).toNat % 64 = 0 ∧ s.xlate (s.me.reg 2) needRW = .ok (own8 + 56, page 0 true) ∧ Own s (s.me.reg 3) needR 16 (own8 + 8) ∧
    s.poisoned (own8 + 8) 12 = false ∧ (s.me.reg 4).toNat % 64 ≠ 0 ∧ (s.me.reg 4).toNat % 16 ≠ 0 ∧ s.Handled :=
  ⟨by decide, by decide, ⟨by decide, ⟨page 0 true, by decide, by decide, by decide⟩, by decide, by decide⟩, by decide, by decide, by decide, by decide, .inl (by decide)⟩

/-- An activity of thread 1. -/
def act1 (st : ActState) (l : List RavelEntry) : Activity := { ix := 0, gen := 1, job := 1, owner := 1, ownerSp := 0, st := st, entries := l }
def acting (c : Context) (l : List Activity) : State := { withJob (on 1 c) (fun j => { j with actcls := true }) with unrav := { acts := l } }
def entry1 : RavelEntry := { seqn := 1, arg1 := 0, arg0 := 0, sp := 0, pcw := 0x800, inArea := false }
theorem witness_Abegin : let s := acting (user 1) []
    s.myJob.actcls = true ∧ s.openAct s.myJobNo s.me.thidx = none ∧ s.me.thidx ≠ compThidx ∧ (s.unrav.acts.filter fun y => y.job == s.myJobNo).length < 4096 ∧
    ∀ n, (s.unrav.pick n).isSome := by
  refine ⟨by decide, by decide, by decide, by decide, fun n => ?_⟩
  have h : n % 65536 < 65536 := Nat.mod_lt _ (by omega)
  obtain ⟨k, hk⟩ : ∃ k, 65536 - n % 65536 = k + 1 := ⟨65535 - n % 65536, by omega⟩
  simp [Unraveller.pick, natsFrom, hk, Unraveller.freeIx, acting, List.range_succ_eq_map]
theorem witness_Activities :
    (let s := acting { regs [(2, 0x2000)] with actid := 0x10000 } [act1 .opened [entry1]]; s.owned = some (act1 .opened [entry1]) ∧ (s.me.reg 2).toNat % 4 = 0 ∧
      s.unrav.counter < ravelLast ∧ s.storeUsed (dieOf s.here) < 8192 ∧ s.unrav.counter = 0) ∧
    (let s := acting (user 1) []; s.owned = none ∧ s.Handled ∧ s.act 0x10000 = none ∧ s.me.handler = false) ∧
    (let s := acting { regs [(2, 0x10000)] with handler := true } [act1 .halted []]; s.act (s.me.reg 2).toNat = some (act1 .halted []) ∧ s.me.handler = true) ∧
    (let x := act1 .unravelling [entry1, { entry1 with seqn := 0 }];
      let s := { acting { user 1 with thidx := compThidx } [x] with unrav := { acts := [x], running := some (0, 1) } };
      s.me.thidx = compThidx ∧ s.me.pairtask = false ∧ s.me.rels = [] ∧ s.unrav.running = some (x.ix, 1) ∧ (s.unrav.acts.find? fun y => y.ix == x.ix) = some x ∧ (x.drop 1).entries ≠ []) :=
  ⟨by decide, ⟨by decide, ⟨by decide, .inl (by decide)⟩, by decide, by decide⟩, by decide, by decide⟩

/-- A context whose staging set copies 8 bytes; `n` commands in every engine of die 0. -/
def copying (n : Nat) (c : Context := user 1) : State :=
  let x : CopyCmd := { id := 1, job := 1, key := 1, thidx := 1, stg := { clen := 8 }, cls := 0 }
  { on 1 { c with staging := { clen := 8 } } with engines := (List.range 36).map fun e => (e, { cmds := List.replicate n x }) }
theorem witness_Copies : (let s := copying 0; s.copyCheck = none ∧ s.me.staging.chain = false ∧ s.me.staging.eoi = false ∧ s.me.cpinj.getLsbD 63 = false ∧
      ∃ e ∈ dieEngines s.here, (s.engine e).inClass s.me.staging.cls < 32 ∧ ∀ k ∈ dieEngines s.here, (s.engine e).load ≤ (s.engine k).load ∧ e ≤ k) ∧
    (let s := copying 32; s.copyCheck = none ∧ ∀ k ∈ dieEngines s.here, ¬ (s.engine k).inClass s.me.staging.cls < 32) ∧
    (run []).copyCheck = some 3 ∧ (run []).Handled ∧ stageBad 11 0xF00 = true ∧ stageBad 3 8 = false ∧
    (let s := copying 1 (regs [(2, 1)]); (s.me.reg 2).toNat / 2 ^ 26 ∈ dieEngines s.here ∧
      ∃ x, (s.engine 0).cmd s.myJobNo (s.me.reg 2).toNat = some x ∧ x.more = true) ∧
    numEngines ≤ ((run [(2, 0x90000000)]).me.reg 2).toNat / 2 ^ 26 :=
  ⟨⟨by decide, by decide, by decide, by decide, 0, by decide, by decide, by decide⟩, ⟨by decide, by decide⟩, by decide, ⟨by decide, .inl (by decide)⟩, by decide, by decide,
    ⟨by decide, _, rfl, by decide⟩, by decide⟩

theorem test_lstat : after (.lstat 4) (on 1 { user 1 with loomStat := 9 }) (reg 4) = some 9 := by decide
theorem test_laclr_parks : after (.laclr 3 0 0 0) (clustered (regs [(3, 1)])) (fun t => (t.me.st, t.me.park, (t.cluster 0).enter.length)) = some (.parked, 7, 1) := by decide
theorem test_ptake_none_left : after (.ptake 4 5 6) (paired (user 1) 0) (fun t => (reg 4 t, reg 6 t)) = some (-1, -1) := by decide
theorem test_pload : after (.pload 10 2 false 0 20 false) (paired (user 1) 1) (reg 10) = some 2 := by decide
theorem test_pfork : after (.pfork 2) (holding []) (fun t => t.me.task.bind fun u => u.fork.map fun l => l.map (·.na)) = some (some [1, 2]) := by decide
theorem test_fins_misaligned : after (.fins 4 2 3 5) (run [(2, 64), (5, 8)]) (fun t => t.me.frz.map (·.cause)) = some (some cALIGN) := by decide
theorem test_apush : after (.apush 2 3 4) (acting { regs [(2, 0x2000), (3, 7)] with actid := 0x10000 } [act1 .opened []]) (fun t => (t.unrav.counter, t.unrav.acts.map fun a =>
    a.entries.map fun e => (e.pcw, e.arg0))) = some (1, [[(0x800, 7)]]) := by decide
theorem test_cptry_full : after (.cptry 4) (copying 32) (reg 4) = some 0 := by decide
theorem test_cpset_reserved : after (.cpset 11 2) (run [(2, 0x8000)]) (fun t => t.me.frz.map (·.cause)) = some (some cILLEGAL) := by decide

/-! ### Messages at their ends (R30, R34 to R38, R113 to R156, R177, R283, R329, R349) -/

/-- A message from context 1 of a spindle to spindle 0. -/
def msg (b : Body) (src : Nat := 1) : Msg := { id := 5, cls := .request, src := src, dst := 0, job := 1, ctx := 1, tok := 9, va := 8, body := b }
/-- It is in flight, while context 1 of spindle 0 is `x` and spindle 0 is what `f` makes of it. -/
def flying (b : Body) (x : Context := user 1) (src : Nat := 1) (f : Spindle → Spindle := id) : State :=
  { withSp0 (on 1 x) f with msgs := [msg b src], mem := [(own8, 3)] }

/-- A message alone in flight may arrive. -/
theorem mayArrive (b : Body) (x : Context) (src : Nat) (f : Spindle → Spindle) (h : (flying b x src f).replayHeld (msg b src) = false) :
    MayArrive (flying b x src f) (msg b src) where
  first := rfl
  due := ⟨rfl, rfl, rfl, rfl⟩
  turn := ⟨.inr (by simp [State.headOfFlow, flying, msg]), h, by simp [flying, withSp0, on, State.job, Table.get, Table.find, msg, job2]⟩

/-- It arrives where its destination is not fenced and no front has begun. -/
theorem arriving (b : Body) (x : Context) (src : Nat) (f : Spindle → Spindle) (h : (flying b x src f).replayHeld (msg b src) = false)
    (hf : (f sp0).fenced = false) (hn : (f sp0).frontOn = false) : Arriving (flying b x src f) (msg b src) where
  may := mayArrive b x src f h
  opened := by rintro ⟨_, g⟩; revert g; simp [flying, withSp0, on, State.spindle, Table.get, Table.find, msg, hf]
  front := by simp [State.frontHolds, flying, withSp0, on, State.spindle, Table.get, Table.find, msg, hn]

/-- Every body of the statements, from spindle 1. -/
theorem arrives (b : Body) (x : Context) (f : Spindle → Spindle) (h : (flying b x 1 f).replayHeld (msg b) = false) (hf : (f sp0).fenced = false)
    (hn : (f sp0).frontOn = false) : Arriving (flying b x 1 f) (msg b) := arriving b x 1 f h hf hn

theorem witness_PlainRequests : let e : SkeinEntry := { fa := own8, op := 7, sz := 3, v := 1, key := 0, seqn := 0, plyg := 0, phase := 0, anyph := true }
    Arriving (flying (.read own8 8 0)) (msg (.read own8 8 0)) ∧ Arriving (flying (.write own8 8 5 0)) (msg (.write own8 8 5 0)) ∧
    Arriving (flying (.atomic own8 8 9 5 4)) (msg (.atomic own8 8 9 5 4)) ∧ Arriving (flying (.append e)) (msg (.append e)) ∧
    (let s := flying (.atomic own8 8 9 5 4); s.refuses 0 1 own8 8 0 = none ∧ s.refuses 0 1 own8 8 1 = none ∧ s.refuses 0 1 own8 8 2 = none ∧ s.mem.wf = true ∧
      s.poisoned own8 8 = false ∧ s.inCopyRegion own8 8 = false ∧ s.appendRefusal 1 own8 8 0 = none ∧
      atomicNew 9 8 (s.read own8 8) 5 3 = some 5 ∧ atomicNew 9 8 (s.read own8 8) 5 4 = none) :=
  ⟨arrives _ _ _ rfl rfl rfl, arrives _ _ _ (by decide) rfl rfl, arrives _ _ _ rfl rfl rfl, arrives _ _ _ rfl rfl rfl, by decide⟩

theorem witness_Refusals : let e : SkeinEntry := { fa := own8, op := 7, sz := 3, v := 1, key := 0, seqn := 0, plyg := 0, phase := 0, anyph := true }
    (∀ b ∈ [Body.read own8 8 0, .write own8 8 5 0, .atomic own8 8 9 5 4, .sync own8 8 1 0, .append e],
      Arriving (flying b (user 1) 2) (msg b 2) ∧ MayArrive (flying b (user 1) 1 fun p => { p with fenced := true }) (msg b)) ∧
    (let s := flying (.append e) (user 1) 2; (∀ k ∈ [0, 1, 2], s.refuses 0 2 own8 8 k = some cWINDOW) ∧ s.appendRefusal 2 own8 8 0 = some cWINDOW) ∧
    ((flying (.append e) (user 1) 1 fun p => { p with fenced := true }).spindle 0).fenced = true := by
  refine ⟨fun b h => ?_, by decide, by decide⟩
  simp only [List.mem_cons, List.not_mem_nil, or_false] at h
  rcases h with rfl | rfl | rfl | rfl | rfl <;>
    exact ⟨arriving _ _ _ _ rfl rfl rfl, mayArrive _ _ _ _ rfl⟩

theorem witness_FullEmptyRequests : (∀ op, Arriving (flying (.sync own8 8 op 5)) (msg (.sync own8 8 op 5))) ∧
    (let s := flying (.sync own8 8 0 5); s.full own8 = false ∧ ({ s with fe := [own8] } : State).full own8 = true ∧ s.waitersIn own8 < waiterSlots ∧
      s.refuses 0 1 own8 8 (syncKind 1) = none ∧ (s.spindle (faSp own8)).waiters = []) ∧
    waiterSlots ≤ (flying (.sync own8 8 0 5) (user 1) 1 fun p => { p with waiters := List.replicate 64 ⟨1, 0, 1, 0, own8, 8, 0, false, 0⟩ }).waitersIn own8 ∧
    (let b := Body.nackBusy own8 8 0 0; let s := flying b { user 1 with st := .parked, tok := 9 }; (s.msgs.find? fun x => x.id == 5) = some (msg b) ∧
      (msg b).notBefore ≤ s.now ∧ s.awaits (msg b) = true) :=
  ⟨fun op => arrives _ _ _ rfl rfl rfl, by decide, by decide, by decide⟩

/-- The tables of the walks, and a layer descriptor of one pixel, one page and one layer at VA 0x100, its head EMPTY. -/
def layered (b : Body) : State :=
  { flying b with jobs := [(1, { job2 with root := faOf 0 0x1000000 })],
                  mem := tables.mem ++ ([(0x101, 0x10), (0x118, 1), (0x11A, 1), (0x11C, 1), (0x11E, 1), (0x1000, 0xFF), (0x1001, 0xFF), (0x1002, 0xFF)] : Memory).map
                    fun x => (faOf 0 0x1020000 + x.1, x.2) }

/-- Context 1 waits for the answer of its request. -/
def waits (park : Nat) (k : Kont) : Context := { user 1 with st := .parked, park := park, tok := 9, kont := k, bounded := true, reqVa := 8 }
/-- It has a REL operation outstanding. -/
def relOut (d : Option (Reg × Nat × Bool × Bool)) : Context := { user 1 with rels := [{ tok := 9, word := own8, dest := d }] }
theorem handledAt1 (b : Body) (x : Context) (h : x.thidx = 1) : HandledAt (flying b x) 1 :=
  ⟨by show x.thidx ≠ _; rw [h]; decide, .inl (by simp [State.takesRecord, flying, withSp0, on, State.jobNoAt, State.spindle, State.ctx, Table.get, Table.find, keySp, sp0, keyOf])⟩

theorem witness_Answers : (∀ k ∈ [Kont.load 3 4 true, .atomic 3 8 false, .value 3], let s := flying (.reply 7) (waits 1 k)
      Arriving s (msg (.reply 7)) ∧ s.relOf (msg (.reply 7)) = none ∧ s.awaits (msg (.reply 7)) = true ∧ (s.ctx (msg (.reply 7)).key).kont = k) ∧
    (let s := flying .ack (waits 2 .advance); Arriving s (msg .ack) ∧ s.awaits (msg .ack) = true ∧ s.relOf (msg .ack) = none) ∧
    (let s := flying (.reply 7) (relOut (some (3, 4, true, false))); Arriving s (msg (.reply 7)) ∧ ∃ o, s.relOf (msg (.reply 7)) = some o ∧ o.dest = some (3, 4, true, false)) ∧
    (let s := flying .ack (relOut none); Arriving s (msg .ack) ∧ ∃ o, s.relOf (msg .ack) = some o ∧ o.dest = none) :=
  ⟨fun k _ => ⟨arrives _ _ _ rfl rfl rfl, rfl, rfl, rfl⟩, ⟨arrives _ _ _ rfl rfl rfl, by decide, by decide⟩, ⟨arrives _ _ _ rfl rfl rfl, _, rfl, rfl⟩,
    ⟨arrives _ _ _ rfl rfl rfl, _, rfl, rfl⟩⟩

theorem witness_Nacks : (let b := Body.nack cWINDOW 8; let s := flying b (waits 1 (.load 3 4 true)); Arriving s (msg b) ∧ s.relOf (msg b) = none ∧ s.awaits (msg b) = true ∧
      HandledAt s 1) ∧
    (let b := Body.nack cFENCED 8; let s := flying b (relOut none); Arriving s (msg b) ∧ ∃ o, s.relOf (msg b) = some o) ∧
    (let m := { msg (.read own8 8 0) with notBefore := 50 }; let s := { run [] with msgs := [m] }; m ∈ s.msgs ∧ m.notBefore ≠ 0 ∧ m.notBefore ≤ s.now) ∧
    (let x := waits 1 (.load 3 4 true); x.st = .parked ∧ x.bounded = true ∧ x.park = 1 ∧ (on 1 x).now < x.sentAt + 2 ^ 30 ∧
      x.sentAt + 2 ^ 30 ≤ ({ on 1 x with now := 2 ^ 30 } : State).now ∧ HandledAt (flying .ack x) 1) :=
  ⟨⟨arrives _ _ _ rfl rfl rfl, by decide, by decide, handledAt1 _ _ rfl⟩, ⟨arrives _ _ _ rfl rfl rfl, _, rfl⟩, by simp [msg, run, on], by decide, by decide, by decide,
    by decide, by decide, handledAt1 _ _ rfl⟩

theorem witness_PageWalks : (let w : WalkReq := { key := 1, va := 0x123, fetch := false }
      let s := { layered .ack with ctxs := [(1, { user 1 with st := .parked }), (31, { st := .ready, handler := true, supv := true })], clusters := [(0, { walks := [w] })] }
      ((s.cluster 0).walks.take walkSlots).find? (fun x => x.key == 1) = some w ∧ (s.walkJob 1 w.va).isSome = true ∧ (s.ctx 1).st = .parked ∧
      s.walkJob 1 0x20000 = none) ∧ HandledAt (flying .ack (user 1)) 1 := ⟨by decide +kernel, handledAt1 _ _ rfl⟩

theorem witness_TimedWaits : (let x := { waits 12 .advance with wakeAt := some 101 }; x.park = 12 ∧ x.kont = .advance ∧ x.wakeAt = some 101 ∧ 101 ≤ (on 1 x).now + 1) ∧
    (on 1 { waits 12 .advance with wakeAt := some 102 }).now + 1 < 102 ∧
    (let x := { waits 3 .reissue with wakeAt := some 100, unit := { words := [0x14830089] } }; decodeWords x.unit.words = some (.recvt 8 3 9) ∧ 100 ≤ (on 1 x).now ∧
      (on 1 x).now < 101) := by decide

/-- A thread that carries a load of own8. -/
def migrant : Migrant := { image := { user 33 with pc := 0x2000 }, fa := own8, n := 8, sx := false, d := 3, carries := true, kind := 0, job := 1 }
theorem witness_Migrants : Arriving (flying (.migrate migrant)) (msg (.migrate migrant)) ∧
    (let s := flying (.migrate migrant); s.windowOk 0 1 own8 8 3 = true ∧ s.poisoned own8 8 = false ∧ (s.spindle 0).migBuf = [] ∧ (s.spindle 0).migRes = [] ∧
      (s.ctx (keyOf 0 2)).st = .free ∧ (s.ctx (keyOf 0 1)).st ≠ .free ∧ migrant.n ∈ [1, 2, 4, 8]) ∧
    (let s := flying (.migrate migrant) (user 1) 1 fun p => { p with migBuf := [migrant] }; (s.spindle 0).migBuf ≠ [] ∧ (s.spindle 0).migBuf.length < 16) ∧
    (let s := flying (.migrate migrant) (user 1) 1 fun p => { p with migBuf := List.replicate 16 migrant, migRes := List.replicate 256 migrant }
     (s.spindle 0).migRes ≠ [] ∧ s.reserveSize 0 ≤ (s.spindle 0).migRes.length) :=
  ⟨arrives _ _ _ rfl rfl rfl, by decide +kernel, by decide +kernel, by decide +kernel⟩

/-- Context 1 departs; context 2 runs another thread of the job. -/
def departing (code : Nat) : State :=
  let s := flying (.migAnswer code) { user 1 with st := .departing, tok := 9, park := 13 }
  { s with ctxs := [(1, { user 1 with st := .departing, tok := 9, park := 13 }), (2, user 2), (31, { st := .ready, handler := true, supv := true, thidx := 31 })] }
theorem witness_Departing : (∀ code, Arriving (flying (.migAnswer code) { user 1 with st := .departing, tok := 9, park := 13 }) (msg (.migAnswer code))) ∧
    (∀ code, Arriving (departing code) (msg (.migAnswer code)) ∧ ((departing code).ctx 1).st = .departing ∧ ((departing code).ctx 1).tok = 9) ∧
    (departing 0).ctxs.any (fun e => e.1 != 1 && e.2.st != .free && !e.2.handler && ((departing 0).spindle (keySp e.1)).job == some ((departing 0).jobNoAt 0)) = true ∧
    HandledAt (departing 2) 1 ∧
    (let m := { msg (.migrate migrant) with notBefore := 50 }; let s := { run [] with msgs := [m] }; m ∈ s.msgs ∧ m.src = 1 ∧ m.ctx = 1 ∧ m.notBefore ≠ 0 ∧
      m.notBefore ≤ s.now ∧ ∀ x ∈ s.msgs, x = m) ∧
    (let s := { run [] with msgs := [{ msg (.migrate migrant) with notBefore := 500 }] }; ∀ x ∈ s.msgs, s.now < x.notBefore) := by
  refine ⟨fun code => arrives _ _ _ rfl rfl rfl, fun code => ⟨⟨⟨rfl, ⟨rfl, rfl, rfl, rfl⟩, .inr rfl, rfl, fun h => (show JobPhase.running ≠ .resuming by decide) h⟩, ?_, rfl⟩, rfl, rfl⟩, by decide +kernel, ⟨by decide +kernel, .inl (by decide +kernel)⟩,
    by simp [run, on, msg], by simp [run, on, msg]⟩
  rintro ⟨_, g⟩; exact absurd (show (false : Bool) = true from g) (by decide)

theorem witness_Admission : let s := withSp0 (run []) fun p => { p with migBuf := [migrant] }
    (s.spindle 0).migBuf = migrant :: [] ∧ (s.spindle 0).migRes = [] ∧ s.poisoned own8 8 = false ∧ (s.ctx (keyOf 0 2)).st = .free ∧ (s.ctx (keyOf 0 1)).st ≠ .free := by decide +kernel
theorem witness_ExitNotices : Arriving (flying (.exitNotice 17 7)) (msg (.exitNotice 17 7)) := arrives _ _ _ rfl rfl rfl

/-- An entry of spindle 0's subscription table, with a batch open. -/
def pub : PubEntry := { base := 0, len := 128, subSp := 1, copyBase := faOf 1 0, open_ := [⟨0, 90, 1, 0xFF, 1, []⟩] }
theorem witness_Publishers : Arriving (flying (.subReq 0 128 (faOf 1 0))) (msg (.subReq 0 128 (faOf 1 0))) ∧
    Arriving (flying (.subReq 0 128 (faOf 1 0)) (user 1) 2) (msg (.subReq 0 128 (faOf 1 0)) 2) ∧
    (let s := flying (.subReq 0 128 (faOf 1 0)); s.windowOk 0 1 0 128 0 = true ∧ s.windowOk 0 2 0 128 0 = false ∧ (s.spindle 0).pubs.length < 16) ∧
    ((flying .ack (user 1) 1 fun p => { p with copies := [⟨64, 64, 1, 0, 1, false, false⟩] }).spindle 0).copies.any (fun e => rangesMeet 0 128 e.base e.len) = true ∧
    16 ≤ ((flying .ack (user 1) 1 fun p => { p with pubs := List.replicate 16 pub }).spindle 0).pubs.length :=
  ⟨arrives _ _ _ rfl rfl rfl, arriving _ _ _ _ rfl rfl rfl, by decide, by decide, by decide⟩
theorem witness_Batches : (let s := withSp0 (run []) fun p => { p with pubs := [pub] }; ∀ e ∈ (s.spindle 0).pubs, ∀ b ∈ e.open_, b.line = 0 ∧ s.now < b.opened + 32) ∧
    (let s := { withSp0 (run []) fun p => { p with pubs := [pub] } with now := 122 }; ∀ e ∈ (s.spindle 0).pubs, ∀ b ∈ e.open_, b.opened + 32 ≤ s.now) ∧
    Arriving (flying (.batch 0 1 1 1 [7] 0 [] false)) (msg (.batch 0 1 1 1 [7] 0 [] false)) ∧ (∀ i, NoWaiter (flying (.batch 0 1 1 1 [7] 0 [] false)) (0 + 8 * i) ∨ 8 ≤ i) ∧
    Arriving (flying (.batchAck 0 7)) (msg (.batchAck 0 7)) ∧ Arriving (flying (.batchNack 0)) (msg (.batchNack 0)) ∧
    ((flying (.batchNack 0) (user 1) 1 fun p => { p with pubs := [pub] }).spindle 0).pubs.any (fun e => e.base == 0 && e.subSp == 1) = true ∧
    Arriving (flying (.subRemove 0 (faOf 1 0)) (user 1) 1 fun p => { p with pubs := [pub] }) (msg (.subRemove 0 (faOf 1 0))) ∧
    Arriving (flying (.drainReq 0 (faOf 1 0)) (user 1) 1 fun p => { p with pubs := [pub] }) (msg (.drainReq 0 (faOf 1 0))) := by
  refine ⟨by decide, by decide, arrives _ _ _ rfl rfl rfl, fun i => ?_, arrives _ _ _ rfl rfl rfl, arrives _ _ _ rfl rfl rfl, by decide, arrives _ _ _ rfl rfl rfl,
    arrives _ _ _ rfl rfl rfl⟩
  by_cases h : 8 ≤ i
  · exact .inr h
  · left
    have e : faSp (0 + 8 * i) = 0 := by unfold faSp; omega
    intro x hx
    rw [e] at hx
    exact absurd hx (by simp [flying, withSp0, on, State.spindle, Table.get, Table.find, sp0])

theorem witness_ChannelMessages : let c : Chan := { reader := 1, writer := 17 }
    Arriving (flying (.chan 5 [7])) (msg (.chan 5 [7])) ∧ Arriving (flying (.credit 5)) (msg (.credit 5)) ∧
    (∃ jb, Table.find ({ flying (.chan 5 [7]) with jobs := [(1, { job2 with chans := [(5, c)] })] } : State).jobs 1 = some jb ∧ Table.find jb.chans 5 = some c) :=
  ⟨arrives _ _ _ rfl rfl rfl, arrives _ _ _ rfl rfl rfl, _, rfl, rfl⟩

/-- Group 3 of thread 1 alone, which waits in GBAR or has not arrived. -/
def barrier (l : List Arrival) (r : List RelOp := []) : State :=
  withJob (on 1 { user 1 with st := .parked, park := 10, got := [(3, 0)], rels := r }) fun j => { j with groups := [(3, [1])], arrivals := l }
theorem witness_Phases : let a : Arrival := { grp := 3, thidx := 1, phase := 0, ply := false, at_ := 0, tok := 2 }
    (∃ jb, Table.find (barrier []).jobs 1 = some jb ∧ jb.phaseFull 3 = false) ∧ (barrier [a] [{ tok := 1, word := 0 }]).relLeft 1 3 = true ∧
    (∃ jb, Table.find (barrier [a]).jobs 1 = some jb ∧ jb.phaseFull 3 = true ∧ (jb.arrivalsNow 3).any (·.ply) = false) ∧ (barrier [a]).relLeft 1 3 = false ∧
    ((barrier [a]).closeJob 1).updateLeft 1 3 = false :=
  ⟨⟨_, rfl, by decide⟩, by decide, ⟨_, rfl, by decide, by decide⟩, by decide, by decide⟩
theorem witness_Tasks : let p : PairDesc := ⟨0, 0, 0, false, true⟩
    let s := { on 1 { user 1 with st := .parked, park := 9, got := [(4, 0), (5, 0), (6, 0)] } with clusters := [(0, { pend := [p], takers := [1] })] }
    (s.cluster 0).pend = p :: [] ∧ (s.cluster 0).takers = 1 :: [] ∧ (s.ctx 1).got = [((4 : Reg).toNat, 0), ((5 : Reg).toNat, 0), ((6 : Reg).toNat, 0)] := by decide


/-! ### Units as they move (R255, R260, R305 to R315, R324 to R349) -/

theorem noWaiter (s : State) (fa : Nat) (h : s.spindles = [(0, sp0), (1, { job := some 1 })]) : NoWaiter s fa := by
  have : (s.spindle (faSp fa)).waiters = [] := by
    unfold State.spindle; rw [h]; simp only [Table.get, Table.find]
    split
    · rfl
    · split <;> rfl
  simp [NoWaiter, this]

/-- A command of context 1 whose ranges lie in VA page 4. -/
def lcmd (i : Instr) (ops : List Nat) (table : List Word := []) : LoomCmd :=
  { key := 1, job := 1, instr := i, ops := ops, pages := [(4, faOf 0 0)], table := table, zmul := false, begun := true }
/-- LACLR of group 0 from row 0 on, `n` rows. -/
def clearing (n : Nat) : LoomCmd := lcmd (.laclr 3 0 0 0) [3, n]
def multiplying (af : BitVec 4) : LoomCmd := lcmd (.lmm 2 3 4 af af 0 1 false 0 0) [0x40000, 0x40100, 1]
/-- LMMG of two groups of one row. -/
def multiplying2 : LoomCmd := lcmd (.lmmg 2 3 4 5 2 2 0 1 false 0) [0x40000, 0x40100, 0x40200] [0x10000, 0x10000]
def columns : LoomCmd := lcmd (.lbld 2 3 4 0 0 1) [0x40000, 0x40100, 1]
def rowsOut (fmt : BitVec 4) : LoomCmd := lcmd (.lacp 2 3 0 0 0 fmt) [0x40000, 1]
def rowsIn (fmt : BitVec 4) : LoomCmd := lcmd (.lacin 2 3 0 0 0 fmt) [0x40000, 1]
/-- The command at the head of the loom of cluster 0; its context waits. -/
def looming (c : LoomCmd) (f : Spindle → Spindle := id) : State :=
  { clustered { user 1 with st := .parked, park := 7, kont := .advance } with
    spindles := [(0, f sp0), (1, { job := some 1 })], clusters := [(0, { queue := [c] })] }
theorem witness_LoomQueues : let s := fun (l : List LoomCmd) => ({ run [] with clusters := [(0, { enter := [clearing 1], queue := l })] } : State)
    ((s []).cluster 0).enter = [clearing 1] ∧ ((s []).cluster 0).queue.length < 8 ∧ 8 ≤ ((s (List.replicate 8 (clearing 1))).cluster 0).queue.length := by decide
theorem stepsNext (c : LoomCmd) (f : Spindle → Spindle) (k : c.key = 1 ∧ c.job = 1) (h : c.begun = true) (l : c.entry < c.entries ∧ c.step < c.steps c.entry) :
    StepNext (looming c f) 0 c [] :=
  ⟨rfl, h, l, .inl (by rw [k.2]; exact ⟨rfl, .inl rfl⟩), by show vec12 (Vector.replicate 12 0) 0 ≤ 100 % 16; decide, by rw [k.1]; rfl⟩
theorem stepsGo (c : LoomCmd) (k : c.key = 1 ∧ c.job = 1) (h : c.begun = true) (l : c.entry < c.entries ∧ c.step < c.steps c.entry)
    (hh : (looming c).stepRefused c c.entry c.step = none) (hp : (looming c).stepPoison c c.entry c.step = none) : StepGoes (looming c) 0 c [] :=
  ⟨stepsNext c id k h l, hh, hp, fun _ => rfl⟩
/-- A command whose step has all but one of its words behind it. -/
def almost (c : LoomCmd) : LoomCmd := { c with seen := ((looming c).stepLeft c c.entry c.step).drop 1 }
theorem stepsReady (c : LoomCmd) (k : c.key = 1 ∧ c.job = 1) (h : c.begun = true) (l : c.entry < c.entries ∧ c.step < c.steps c.entry)
    (hh : (looming c).stepRefused c c.entry c.step = none) (hp : (looming c).stepPoison c c.entry c.step = none)
    (hl : ((looming c).stepLeft c c.entry c.step).length ≤ 1) : StepReady (looming c) 0 c [] :=
  ⟨stepsGo c k h l hh hp, fun _ _ => by simp [reached, tearTake, hl]⟩
theorem witness_LoomSteps : StepReady (looming (clearing 2)) 0 (clearing 2) [] ∧ (clearing 2).step + 1 < (clearing 2).steps (clearing 2).entry ∧
    (let c := almost multiplying2; StepReady (looming c) 0 c [] ∧ c.step + 1 = c.steps c.entry ∧ c.entry + 1 < c.entries) ∧
    (let c := almost { multiplying2 with entry := 1 }; StepReady (looming c) 0 c [] ∧ c.step + 1 = c.steps c.entry ∧ c.entry + 1 = c.entries ∧
      ((looming c).ctx c.key).park = 7) ∧
    (let c := { clearing 2 with step := 1 }; StepReady (looming c) 0 c [] ∧ c.step + 1 = c.steps c.entry ∧ c.entry + 1 = c.entries ∧
      ((looming c).ctx c.key).park = 7) :=
  ⟨stepsReady _ ⟨rfl, rfl⟩ rfl (by decide) (by decide) (by decide) (by decide), by decide,
    ⟨stepsReady _ ⟨rfl, rfl⟩ rfl (by decide) (by decide +kernel) (by decide +kernel) (by decide +kernel), by decide, by decide⟩,
    ⟨stepsReady _ ⟨rfl, rfl⟩ rfl (by decide) (by decide +kernel) (by decide +kernel) (by decide +kernel), by decide, by decide, by decide⟩,
    stepsReady _ ⟨rfl, rfl⟩ rfl (by decide) (by decide) (by decide) (by decide), by decide, by decide, by decide⟩
theorem witness_Multiplies : clusterOf (keySp 1) = 0 ∧
    (∀ af ∈ [(2 : BitVec 4), 4], let c := almost (multiplying af); let j : LoomJob := { m := 1, first := 0, slot := 1, accRow := 0 }
      StepReady (looming c) 0 c [] ∧ Multiplies c j 0x40000 0x40100 af af 0 1 0 ∧ j.accRow + j.m ≤ 256) ∧
    (let c := multiplying2; let j : LoomJob := { m := 1, first := 0, slot := 0, accRow := 0 }
      Multiplies c j 0x40100 0x40200 2 2 0 1 0 ∧ j.accRow + j.m ≤ 256) ∧ (0 : BitVec 4).toNat + (0 : BitVec 4).toNat < 16 := by
  refine ⟨by decide, fun af h => ?_, ⟨.inr ⟨2, 3, 4, 5, false, 0x10000, rfl, rfl, rfl, rfl, rfl⟩, by decide⟩, by decide⟩
  simp only [List.mem_cons, List.not_mem_nil, or_false] at h
  rcases h with rfl | rfl
  · exact ⟨stepsReady _ ⟨rfl, rfl⟩ rfl (by decide +kernel) (by decide +kernel) (by decide +kernel) (by decide +kernel), .inl ⟨2, 3, 4, false, 0, rfl, rfl, rfl, rfl, rfl⟩, by decide⟩
  · exact ⟨stepsReady _ ⟨rfl, rfl⟩ rfl (by decide +kernel) (by decide +kernel) (by decide +kernel) (by decide +kernel), .inl ⟨2, 3, 4, false, 0, rfl, rfl, rfl, rfl, rfl⟩, by decide⟩
theorem witness_StepsReach : (let c := columns; StepGoes (looming c) 0 c [] ∧ ((looming c).stepLeft c c.entry c.step).length = 4) ∧
    (almost columns).seen.find? (fun e => e.1 == wordOf (pageFa (almost columns).pages 0x40008)) = some (8, 0) ∧
    ∀ x ∈ (almost columns).seen, x.1 ≠ wordOf (pageFa (almost columns).pages 0x40000) :=
  ⟨⟨stepsGo _ ⟨rfl, rfl⟩ rfl (by decide) (by decide +kernel) (by decide +kernel), by decide +kernel⟩, by decide +kernel, by decide +kernel⟩
theorem witness_Columns : (let c := almost columns; StepReady (looming c) 0 c [] ∧ c.instr = .lbld 2 3 4 0 0 1 ∧
    ∃ jb, Table.find (looming c).jobs c.job = some jb) ∧ 512 * 1 + loomEB 0 16 + loomSB 0 16 ≤ 2 ^ 21 :=
  ⟨⟨stepsReady _ ⟨rfl, rfl⟩ rfl (by decide) (by decide +kernel) (by decide +kernel) (by decide +kernel), rfl, ⟨_, rfl⟩⟩, by decide⟩
theorem witness_Rows : (∀ fmt ∈ [(0 : BitVec 4), 3, 6], StepReady (looming (almost (rowsOut fmt))) 0 (almost (rowsOut fmt)) [] ∧ StepReady (looming (almost (rowsIn fmt))) 0 (almost (rowsIn fmt)) [] ∧
      fmt.toNat ≤ 6) ∧ (looming (clearing 1)).mem.wf = true ∧ (0x40000 : Word).toNat % 2 ^ 16 + 16 * 4 ≤ 2 ^ 16 ∧ (0 : BitVec 8).toNat + 0 < 256 := by
  refine ⟨fun fmt h => ?_, by decide, by decide, by decide⟩
  simp only [List.mem_cons, List.not_mem_nil, or_false] at h
  rcases h with rfl | rfl | rfl <;>
    exact ⟨stepsReady _ ⟨rfl, rfl⟩ rfl (by decide) (by decide +kernel) (by decide +kernel) (by decide +kernel), stepsReady _ ⟨rfl, rfl⟩ rfl (by decide) (by decide +kernel) (by decide +kernel) (by decide +kernel), by decide⟩
theorem witness_LoomStepsFail : (∀ b : Bool, let c := { multiplying 2 with bad := b }; let s : State := { looming c with upsets := [.residue 0] }
      StepNext (looming c) 0 c [] ∧ s.stepRefused c c.entry c.step = none ∧ s.stepPoison c c.entry c.step = none ∧ c.sums = true ∧
      s.upsets.contains (.residue 0) = true ∧ ((s.spindle (keySp c.key)).gust.filter fun x => decide (s.now < x + gustWindow)).length < 2 ∧ HandledAt s c.key) ∧
    (∀ c ∈ [multiplying 2, rowsOut 0], let s := looming c (fun p => { p with fenced := true })
      StepNext s 0 c [] ∧ s.stepRefused c c.entry c.step = some (cFENCED, 0x40000) ∧ HandledAt s c.key) ∧
    (let c := { multiplying 2 with pages := [] }; (looming c).stepRefused c c.entry c.step = some (cXLATE, 0x40000)) ∧
    (let s : State := { looming (clearing 1) with jobs := [(1, { job2 with stopped := true })] }; (s.job 1).stopped = true) ∧
    (let s : State := { looming (clearing 1) with trebex := { dthr := #v[5, 0, 0, 0, 0, 0, 0, 0, 0, 0, 0, 0] } }; s.now % 16 < vec12 s.trebex.dthr (0 / 64)) := by
  refine ⟨fun b => ?_, fun c h => ?_, by decide +kernel, by decide, by decide⟩
  · exact ⟨stepsNext _ _ ⟨rfl, rfl⟩ rfl (by cases b <;> decide), by cases b <;> decide +kernel, by cases b <;> decide +kernel, rfl, rfl,
      by cases b <;> decide,
      ⟨by cases b <;> decide, .inl (by cases b <;> decide)⟩⟩
  · simp only [List.mem_cons, List.not_mem_nil, or_false] at h
    rcases h with rfl | rfl <;>
      exact ⟨stepsNext _ _ ⟨rfl, rfl⟩ rfl (by decide), by decide +kernel, by decide +kernel, .inl (by decide +kernel)⟩
/-- R161, R267, R268: a column loads what its step reached, byte 31 as it was read earlier; a row of an accumulator goes to memory. -/
theorem test_lbld_column : (let c := { columns with seen := [(8, 0), (16, 0), (24, 0x22 * 2 ^ 56)] }
    match exec (.loomStep 0) { looming c with mem := [(0, 0x11), (31, 0x33)] } with
    | .next t => some ((List.range 32).map fun o => (t.job 1).slotByte 0 0 (512 + o), ((t.cluster 0).queue.map (·.step)))
    | _ => none) = some (0x11 :: List.replicate 30 0 ++ [0x22], [1]) := by decide +kernel
theorem test_lacp_row : (let c := { rowsOut 0 with seen := (List.range 7).map fun i => (8 * i + 8, 0) }
    match exec (.loomStep 0) { looming c with clusters := [(0, { queue := [c], acc := [(1, 7)] })] } with
    | .next t => some (t.read 0 8, t.me.st) | _ => none) = some (7 * 2 ^ 32, .ready) := by decide +kernel

/-- A copy of 16 bytes within page 0 (or to a peer), at an engine of die 0; ports are up. -/
def cmd (f : CopyCmd → CopyCmd := id) : CopyCmd := f { id := 1, job := 1, key := 1, thidx := 1, cls := 0, stg := { csrc := 0x20, cdst := 0x4040, clen := 16, crows := 1 } }
def moving (c : CopyCmd) : State :=
  { run [] with engines := [(0, { cmds := [c] })], links := [(2, { up := true })], trebex := { routes := [(5, 1)] }, mem := tables.mem,
                jobs := [(1, { job2 with peers := [(2, 5, 0)], root := faOf 0 0x1000000 })] }
def source : Nat := faOf 0 0x1020020
theorem two (f : Nat → Prop) (a : f 0) (b : f 1) (i : Nat) (h : i < 2) : f i := by
  match i, h with
  | 0, _ => exact a
  | 1, _ => exact b
/-- A command alone in its engine goes on with its chunk, or begins one. -/
theorem chooses (c : CopyCmd) (h : c.part ≠ none) : Chooses (moving c) 0 c :=
  .inl (by show List.find? (fun x => x.part.isSome) [c] = some c; simp [Option.isSome_iff_ne_none.2 h])
theorem begins (c : CopyCmd) (h : c.part = none) (hf : c.flying = false) (hd : ∃ g, (moving c).drr 9 ((moving c).engine 0) = some (c, g)) : Chooses (moving c) 0 c :=
  .inr ⟨fun x hx => by rw [List.mem_singleton.1 (show x ∈ [c] from hx)]; exact h, hf, hd⟩
def remote : CopyCmd := cmd fun c => { c with stg := { c.stg with cpeer := 2 } }
/-- Word 1 of its chunk was read as 5; the other one is left. -/
def midway (c : CopyCmd) : CopyCmd := { c with part := some { vals := [(1, some 5, false)] } }
theorem witness_Chunks :
    (∀ c ∈ [cmd, midway cmd], ChunkFrom (moving c) 0 c (c.part.getD {}) 2 source ∧ c.stg.cpeer = 0xFF ∧ (moving c).upsets.contains (.chunkCrc 0) = false ∧
      (moving c).mem.wf = true ∧ ∀ i, i < 2 → (moving c).copyTo c (c.dstVa + BitVec.ofNat 64 (8 * i)) = some (faOf 0 0x1024040 + 8 * i, 0)) ∧
    ((∀ x ∈ ((run []).engine 0).cmds, x.part = none) ∧ (run []).drr 9 ((run []).engine 0) = none) ∧
    (let p : ChunkPart := { vals := [(1, none, false), (0, some 7, false)] }; let c := { cmd with part := some p }
      Chooses (moving c) 0 c ∧ c.stg.cpeer = 0xFF ∧ c.chunkLen = 8 * 2 ∧ AllRead p 2 ∧ partWord p 1 = some (none, false) ∧ partWord p 0 = some (some 7, false)) ∧
    (∀ c ∈ [remote, midway remote], ChunkFrom (moving c) 0 c (c.part.getD {}) 2 source ∧ c.stg.cpeer ≠ 0xFF ∧
      (moving c).peerOf c = some (5, 0) ∧ Table.find (moving c).trebex.routes 5 = some 1 ∧ ((moving c).link (2 * 1)).up = true ∧
      (moving c).upsets.contains (.chunkCrc 0) = false) := by
  refine ⟨fun c h => ?_, by decide, ⟨chooses _ (by simp), by decide, by decide, two _ (by decide) (by decide), by decide, by decide⟩, fun c h => ?_⟩
  · simp only [List.mem_cons, List.not_mem_nil, or_false] at h
    rcases h with rfl | rfl
    · exact ⟨⟨begins _ rfl rfl ⟨_, rfl⟩, rfl, by decide, by decide, two _ (by decide +kernel) (by decide +kernel), by decide +kernel, fun _ hv => nomatch hv⟩,
        by decide, by decide, by decide +kernel, two _ (by decide +kernel) (by decide +kernel)⟩
    · exact ⟨⟨chooses _ (by simp [midway]), rfl, by decide, by decide, two _ (by decide +kernel) (by decide +kernel), by decide +kernel,
        fun v hv => by rw [List.mem_singleton.1 hv]; exact ⟨by decide, _, rfl⟩⟩, by decide, by decide, by decide +kernel, two _ (by decide +kernel) (by decide +kernel)⟩
  · simp only [List.mem_cons, List.not_mem_nil, or_false] at h
    rcases h with rfl | rfl
    · exact ⟨⟨begins _ rfl rfl ⟨_, rfl⟩, rfl, by decide, by decide, two _ (by decide +kernel) (by decide +kernel), by decide +kernel, fun _ hv => nomatch hv⟩,
        by decide, by decide, by decide, by decide, by decide⟩
    · exact ⟨⟨chooses _ (by simp [midway]), rfl, by decide, by decide, two _ (by decide +kernel) (by decide +kernel), by decide +kernel,
        fun v hv => by rw [List.mem_singleton.1 hv]; exact ⟨by decide, _, rfl⟩⟩, by decide, by decide, by decide, by decide, by decide⟩
/-- R305: a chunk that has one word left to write ends with it, both words as they were read. -/
theorem test_chunk_ends : (match exec (.copyChunk 0) (moving { cmd with part := some { vals := [(1, some 5, false), (0, some 7, false)], wrote := [1] } }) with
    | .next t => some (t.read (faOf 0 0x1024040) 8, t.read (faOf 0 0x1024048) 8, ((t.engine 0).cmds.map fun c => (c.part, c.row))) | _ => none) =
    some (7, 0, [(none, 1)]) := by decide +kernel

/-- A peer package with the tables of the walks. -/
def atPeer (b : Body) : State := { flying b with peers := [(5, { mem := tables.mem })], engines := [(0, { cmds := [cmd] })] }
/-- The level-1 table of the peer's job, as PEERMAP names it. -/
def peerRoot : Nat := 5 * 2 ^ 41 + faOf 0 0x1000000
theorem witness_PeerChunks : (let b := soundChunk 0 1 0 5 peerRoot 0x40 [7, 8]; let s := atPeer b
      Arriving (flying b) (msg b) ∧ s.trebex.pstate ≠ 1 ∧ 5 ≠ s.trebex.chip ∧ (s.peer 5).mem.wf = true ∧
      ∀ i, i < 2 → (s.peer 5).word 5 peerRoot (0x40 + BitVec.ofNat 64 (8 * i)) false = some (faOf 0 0x1020040 + 8 * i, 0)) ∧
    (let b := Body.chunkAck 0 1 0x10040 none; Arriving (flying b) (msg b) ∧ cmd ∈ ((atPeer b).engine 0).cmds ∧ cmd.id = 1 ∧
      ∀ x ∈ ((atPeer b).engine 0).cmds, x.id = 1 → x.emptying = false) :=
  ⟨⟨arrives _ _ _ rfl rfl rfl, by decide, by decide, by decide +kernel, two _ (by decide +kernel) (by decide +kernel)⟩,
    ⟨arrives _ _ _ rfl rfl rfl, .head _, rfl, by decide⟩⟩

/-- A copy at its end. -/
def done (f : CopyCmd → CopyCmd := id) : CopyCmd := f { cmd with row := 1, stg := { cmd.stg with cmode := 4 } }
/-- Context 2 of spindle 0 waits for an entry of a class on its die, or on engine `n` for a chained command. -/
def queueing (cls : Nat) (chain : Bool := false) (n : Nat := 0) : Context :=
  { user 2 with st := .parked, park := 8, staging := { cmode := BitVec.ofNat 64 (cls + if chain then 0x40 else 0) }, chain := { eng := n } }
theorem witness_CopyEnds : ((run []).engine 0).finished = none ∧
    (∀ c ∈ [done, done fun c => { c with cancel := true }, done fun c => { c with fault := some 8 }, done fun c => { c with sums := 1, stg := { c.stg with cmode := 0x14 } }],
      ((moving c).engine 0).finished = some c ∧ c.stg.toFlag = false) ∧ (done.stg.toMailbox = true ∧ done.mute = false ∧ ((moving done).ctx done.key).st ≠ .free ∧
      ((moving done).ctx done.key).thidx = done.thidx ∧ ((moving done).spindle (keySp done.key)).job = some done.job ∧ ((moving done).ctx done.key).mailbox = [] ∧
      ((moving done).ctx done.key).born = done.born ∧ ((moving done).job done.job).phase = .running ∧ ((moving done).ctx done.key).mailHeld = [] ∧
      (moving done).findThread 1 1 = some 1 ∧ ((moving done).ctx done.key).st ≠ .departing) ∧
    (let c := done fun c => { c with sums := 1, stg := { c.stg with cmode := 0x14 } }; c.stg.check ≠ 0 ∧ c.dsums ≠ c.sums) ∧
    ∀ x ∈ [queueing 0, queueing 1, queueing 1 true 0, queueing 0 true 1], x.st = .parked ∧ x.park = 8 ∧ (2 : Nat) ≠ done.key ∧ (moving done).findThread 1 1 ≠ some 2 ∧
      (x.staging.cls = done.cls ∧ (if x.staging.chain then x.chain.eng = 0 else 0 ∈ dieEngines (keySp 2)) ↔ x = queueing 0) := by
  refine ⟨by decide, fun c h => ?_, by decide +kernel, by decide, by decide +kernel⟩
  simp only [List.mem_cons, List.not_mem_nil, or_false] at h
  rcases h with rfl | rfl | rfl | rfl <;> decide

/-- R22: only the contexts that wait for an entry of the command's class go on. -/
theorem test_copy_frees_an_entry : (match exec (.copyComplete 0) { moving done with ctxs := [(1, user 1), (2, queueing 0), (3, queueing 1), (4, queueing 0 true 0)] } with
    | .next t => [2, 3, 4].map fun k => ((t.ctx k).st, (t.ctx k).park)
    | _ => []) = [(.ready, 0), (.parked, 8), (.ready, 0)] := by decide

/-- R309: a copy that ends with a flag at a mapped page or an unmapped one. -/
def flagged (a : Word) : CopyCmd := done fun c => { c with stg := { c.stg with cmode := 8, cflag := a, cfval := 9 } }
theorem finishes (a : Word) : ((moving (flagged a)).engine 0).finished = some (flagged a) ∧ (flagged a).stg.toFlag = true ∧ (flagged a).cancel = false ∧
    (flagged a).fault = none ∧ (flagged a).stg.check = 0 :=
  ⟨rfl, by show Staging.toFlag { cmode := 8 } = true; decide, rfl, rfl, by show Staging.check { cmode := 8 } = 0; decide⟩
theorem witness_CopyFlags : (moving (flagged 0x100)).flagHome (flagged 0x100) = some (faOf 0 0x1020100) ∧ ((moving (flagged 0x100)).job 1).phase ≠ .out ∧
    (moving (flagged 0x100)).mem.wf = true ∧ faOf 0 0x1020100 % 8 = 0 ∧ NoWaiter (moving (flagged 0x100)) (faOf 0 0x1020100) ∧
    (moving (flagged 0x200000)).flagHome (flagged 0x200000) = none :=
  ⟨by decide +kernel, by decide, by decide +kernel, by decide, noWaiter (moving (flagged 0x100)) _ rfl, by decide +kernel⟩

/-- Port 0 leads out; its receiver expects flit 3. -/
def linked (f : HalfLink → HalfLink) : State := { run [] with links := [(0, f { up := true, expect := 3 })] }
theorem witness_Links : let f : Flit := { seqn := 3, cargo := [msg .ack] }; let g : Flit := { seqn := 2, cargo := [] }
    (linked id).trebex.pstate ≠ 1 ∧ ({ linked id with trebex := { pstate := 1 } } : State).trebex.pstate = 1 ∧
    ((linked fun x => { x with wire := [f] }).link 0).wire = [f] ∧ f.seqn = ((linked fun x => { x with wire := [f] }).link 0).expect ∧
    ((linked fun x => { x with wire := [g] }).link 0).wire = [g] ∧ g.seqn ≠ ((linked fun x => { x with wire := [g] }).link 0).expect ∧
    (let x := (linked fun x => { x with retry := [g, f], retryFlits := 1, resends := 15 }).link 0; x.retry = [g] ++ [f] ∧ (∀ y ∈ [g], y.seqn ≠ x.expect) ∧
      (∀ y, [f].head? = some y → y.seqn = x.expect) ∧ x.retryFlits ≠ 0 ∧ x.retry ≠ [] ∧ x.retrain = false) ∧
    (let s : State := { linked fun x => { x with retry := [f], resends := 16 } with now := 4096 }; let x := s.link 0; x.retry = [] ++ [f] ∧ x.resends + 1 = 17 ∧
      x.advanced + 4096 ≤ s.now ∧ x.retryFlits = 0 ∧ x.queue = []) := by
  refine ⟨by decide, by decide, rfl, rfl, rfl, by decide, ⟨rfl, by decide, ?_, by decide, by decide, by decide⟩, ⟨rfl, rfl, by decide, by decide, by decide⟩⟩
  rintro y ⟨⟩; rfl
/-- Retraining of port 0, with a chunk of command 1 of engine 0 waiting behind the retry buffer. -/
def retraining : State :=
  { linked fun x => { x with retrain := true, queue := [msg (soundChunk 0 1 0 5 0 0x40 [7])] } with engines := [(0, { cmds := [cmd] })] }
theorem witness_Retraining : ((linked id).link 0).retrain = false ∧ (retraining.link 0).retrain = true ∧ retraining.trebex.pstate ≠ 1 ∧
    (∀ k d i, (retraining.ctx k).kont ≠ .emptied d i) ∧ (∃ d, d / 2 = 0 ∧ msg (soundChunk 0 1 0 5 0 0x40 [7]) ∈ (retraining.link d).queue) ∧
    (∀ d y, d / 2 = 0 → (y ∈ (retraining.link d).queue ∨ ∃ f ∈ (retraining.link d).retry, y ∈ f.cargo) → y = msg (soundChunk 0 1 0 5 0 0x40 [7])) ∧
    cmd ∈ (retraining.engine 0).cmds ∧ ∀ y ∈ (retraining.engine 0).cmds, y.id = 1 → y.emptying = false := by
  refine ⟨rfl, rfl, by decide, fun k d i => ?_, ⟨0, rfl, .head _⟩, fun d y hd h => ?_, .head _, by decide⟩
  · have : ∀ c : Context, c = user 1 ∨ c = { st := .ready, handler := true, supv := true, thidx := 31 } ∨ c = {} → c.kont ≠ .emptied d i := by
      rintro c (rfl | rfl | rfl) <;> simp [user]
    apply this
    simp only [State.ctx, retraining, linked, run, on, Table.get, Table.find]
    split
    · exact .inl rfl
    · split
      · exact .inr (.inl rfl)
      · exact .inr (.inr rfl)
  · obtain rfl | rfl : d = 0 ∨ d = 1 := by omega
    · simpa [retraining, linked, State.link, Table.get, Table.find] using h
    · simp [retraining, linked, State.link, Table.get, Table.find] at h

theorem witness_Compensations : (let s := acting (user 1) [act1 .unravelling [entry1, { entry1 with seqn := 2 }]]
      s.unrav.running = none ∧ (∃ a e, (a, e) ∈ s.ravelReady ∧ (∀ x ∈ s.ravelReady, x = (a, e) ∨ x.2.seqn < e.seqn) ∧ (s.job a.job).phase = .running ∧ (s.spindle e.sp).fenced = false ∧
        (s.spindle e.sp).migBuf = [] ∧ (s.spindle e.sp).migRes = [] ∧ (s.ctx (keyOf e.sp 2)).st = .free ∧ (s.ctx (keyOf e.sp 1)).st ≠ .free)) ∧
    (acting (user 1) []).ravelReady = [] ∧ ({ acting (user 1) [] with unrav := { running := some (0, 1) } } : State).unrav.running.isSome = true := by
  refine ⟨⟨rfl, act1 .unravelling [entry1, { entry1 with seqn := 2 }], ?_⟩, by decide, by decide⟩
  exact (show ∃ e, _ from ⟨_, .head _, by decide, by decide, by decide, by decide, by decide, by decide, by decide⟩)

/-- Context 15 of spindle 0 is a handler. -/
def handled0 (b : Body) (c : Context := { st := .ready, handler := true }) : State := { flying b with ctxs := [(1, user 1), (15, c), (31, { st := .ready, handler := true })] }
theorem witness_TrapRecords : let r : TrapInfo := { cause := cSWTRAP }; let b := Body.trapRec [7] r false 0
    (Arriving (flying b) (msg b) ∧ (handled0 b).takesRecord 1 0 (msg b).asker = true ∧ ((handled0 b).ctx 15).mailbox.length < 16 ∧ ((handled0 b).ctx 15).mailHeld = []) ∧
    (let s := handled0 b { st := .parked, park := 3, handler := true, got := [(0xFFF, 0)] }; (s.ctx 15).waitsOn 0xFFF = true) ∧
    (flying b).takesRecord 1 0 (msg b).asker = false ∧
    (let b := Body.trapNack [7] r false 0; Arriving (flying b) (msg b) ∧ (flying b).takesRecord 1 ((flying b).spindle 0).secondary (msg b).key = true) ∧
    (let b := Body.trapNack [7] r true 0; Arriving (flying b) (msg b) ∧ (msg b).ctx < 16) :=
  ⟨⟨arrives _ _ _ rfl rfl rfl, by decide, by decide, by decide⟩, by decide, by decide, ⟨arrives _ _ _ rfl rfl rfl, by decide⟩, arrives _ _ _ rfl rfl rfl, by decide⟩

theorem witness_Fronts : (Arriving (flying .token) (msg .token) ∧ ((flying .token).spindle 0).job = some 1 ∧ ((flying .token).spindle 0).frontOn = false) ∧
    (let f := fun p : Spindle => { p with job := none }; Arriving (flying .token (user 1) 1 f) (msg .token) ∧
      ((flying .token (user 1) 1 f).spindle 0).job ≠ some 1) ∧
    (let s := fun n => ({ withJob (run []) fun j => { j with phase := .preempting, preemptAt := 50, pwin := n } with now := 100 } : State);
      (∃ jb, Table.find (s 50).jobs 1 = some jb ∧ jb.phase = .preempting ∧ jb.preemptAt + jb.pwin ≤ (s 50).now) ∧
      (∃ jb, Table.find (s 51).jobs 1 = some jb ∧ (s 51).now < jb.preemptAt + jb.pwin)) ∧
    (run []).canSwitchOut 1 = false ∧
    (let l := [0, 1].flatMap fun a => [0, 1, 2, 3].map fun c => (a, c); let s := { withJob (run []) fun j => { j with phase := .frontPhase } with
        spindles := [(0, { sp0 with frontOn := true, frontIn := l }), (1, { job := some 1, frontOn := true, frontIn := l })] };
     s.canSwitchOut 1 = true) :=
  ⟨⟨arrives _ _ _ rfl rfl rfl, by decide, by decide⟩, ⟨arrives _ _ _ rfl rfl rfl, by decide⟩, ⟨⟨_, rfl, by decide, by decide⟩, _, rfl, by decide⟩, by decide, by decide⟩

theorem witness_Errors : (let s := run []; ((s.spindle 0).gust.filter (fun x => decide (s.now < x + 2 ^ 20))).length ≠ 2 ∧ 0 ∈ (s.containRect 0).spindles) ∧
    (let s := withSp0 (run []) fun p => { p with gust := [99, 98] }; ((s.spindle 0).gust.filter (fun x => decide (s.now < x + 2 ^ 20))).length = 2 ∧ (s.spindle 0).fenced = false) ∧
    faMapped own8 = true ∧ faMapped 0x20000 = false ∧ keySp 1 ∈ ((run []).containRect 0).spindles ∧ ((run []).containRect 0).has (keySp 1) = true := by decide +kernel

/-! ### The host, the dispatcher and the controller (R353 to R387) -/

/-- A package that is READY; queue 0 is what `x` says, and its space is mapped by the tables of the walks. -/
def ready (x : Queue) (b : Trebex → Trebex := id) : State :=
  { flying .ack with trebex := b { stage := 6 }, disp := { queues := [(0, { x with root := faOf 0 0x1000000 })] }, mem := tables.mem, msgs := [] }
theorem witness_HostFills : (∀ m ∈ [modeHOST, modeDEAD], (ready { mode := m }).hostServed = true ∧ ((ready { mode := m }).queue 0).mode = m) ∧
    (let s := ready { mode := modeHOST }; s.full (ringFa 0 0) = false ∧ NoWaiter s (ringFa 0 0) ∧ s.mem.wf = true ∧
      ({ s with fe := [ringFa 0 0] } : State).full (ringFa 0 0) = true) ∧ ¬ ((ready { mode := modeDEVICE }).queue 0).mode = modeHOST ∧ modeDEVICE ≠ modeDEAD :=
  ⟨by decide, ⟨by decide, noWaiter _ _ rfl, by decide +kernel, by decide⟩, by decide, by decide⟩
theorem witness_HostAccesses : let s := ready {} fun b => { b with apertures := [(0, faOf 0 0x1000000), (1, faOf 0 0x100000)] }
    s.hostServed = true ∧ s.hostBytes 0x8200000 8 = none ∧ s.hostBytes 0x8000000 9 = none ∧ (s.hostBytes 0x8100000 8 = some (faOf 0 0x100000) ∧
      faMapped (faOf 0 0x100000) = false) ∧ (s.hostBytes 0x8000008 4 = some own8 ∧ faMapped own8 = true ∧ s.upsets.contains .hostCrc = false ∧ s.mem.wf = true ∧
      s.poisoned own8 4 = false) ∧ ({ s with poison := [own8] } : State).poisoned own8 4 = true ∧ (0x4000040 - 0x4000000) % 64 = 0 ∧
      (s.hostBytes 0x40 8).isSome = true := by decide +kernel

/-- A record: a rectangle of 1 by 1 for a job of priority 1, no dependency. -/
def held (f : Vector Word 8 → Vector Word 8 := id) : Held := { ws := f ((Vector.replicate 8 0).set 0 0x2000000000000000), ext := Vector.replicate 16 0, slot := 0, ser := 1, qroot := faOf 0 0x1000000 }
theorem witness_RecordTakes : (ready {}).canTake 0 = false ∧
    (∀ m ∈ [modeHOST, modeDEAD], let s : State := { ready { mode := m } with fe := [ringFa 0 0] }; s.canTake 0 = true) ∧
    (let s : State := { ready { mode := modeHOST } with fe := [ringFa 0 0] }; NoWaiter s (ringFa 0 (s.queue 0).head) ∧
      let x := s.queue 0; let fa := ringFa 0 x.head
      let ws : Vector Word 8 := Vector.ofFn fun i => BitVec.ofNat 64 (s.read (fa + 8 * i.val) 8)
      let ext := s.readExt x.root ws[7]
      let h : Held := { ws := ws, ext := ext.getD (Vector.replicate 16 0), slot := x.head, ser := x.ser, qroot := x.root }
      s.takeReason h ext.isNone = 0 ∧ h.dep 0 = 0 ∧ h.dep 1 = 0 ∧ h.compl = 0) ∧
    (ready {}).takeReason (held fun w => w.set 0 0x180000000000000) false ≠ 0 ∧
    ((held fun w => w.set 6 0x100).compl ≠ 0 ∧ (held fun w => w.set 6 0x100).compl.toNat % 8 = 0 ∧
      (ready {}).rootPage (held).qroot 0x100 needW = some (faOf 0 0x1020100, 0)) :=
  ⟨by decide, by decide, ⟨noWaiter _ _ rfl, by decide +kernel⟩, by decide +kernel, by decide +kernel⟩
theorem witness_Dependencies : let h := held fun w => w.set 5 0x100; let s := ready { held := some h }
    (∃ x, (s.queue 0).held = some x ∧ x.ws = h.ws) ∧ s.running = true ∧ h.met = false ∧ h.dep 0 = 0 ∧ h.dep 1 ≠ 0 ∧
    s.rootPage h.qroot (h.dep 1) needR = some (faOf 0 0x1020100, 0) ∧ s.full (faOf 0 0x1020100) = false ∧ s.read (faOf 0 0x1020100) 8 / 2 ^ 56 % 2 ^ 8 ≠ 0xC5 ∧
    (let t : State := { s with mem := s.mem ++ [(faOf 0 0x1020106, 1), (faOf 0 0x1020107, 0xC5)], fe := [faOf 0 0x1020100] }
     t.full (faOf 0 0x1020100) = true ∧ t.read (faOf 0 0x1020100) 8 / 2 ^ 56 % 2 ^ 8 = 0xC5 ∧ t.read (faOf 0 0x1020100) 8 / 2 ^ 48 % 2 ^ 8 ≠ 0 ∧ h.runReg = false ∧
      t.mem.wf = true) := by decide +kernel
theorem witness_Corners : lowestCorner (fun sp => sp != 0) 1 1 = some ⟨1, 0, 1, 1⟩ := by decide +kernel
/-- A record that may start on spindle 2, with or without a handler. -/
def starting (e : Word) : Held :=
  { held with ext := (Vector.replicate 16 (0 : Word)).set 3 e, rect := some ⟨2, 0, 1, 1⟩, serial := 2, goRead := true, met := true }
/-- Queue 0 holds a record of level 1, which jobs in the way or a rectangle make wait. -/
def choosing (h : Held) (js : List (Nat × Job)) (sps : Table Spindle) : State :=
  { ready { held := some h, weight := 1 } with jobs := js, spindles := sps }
/-- It is the one record that may be chosen. -/
theorem chosen (h : Held) (js : List (Nat × Job)) (sps : Table Spindle) (hm : h.met = true) (hp : h.prio = 1) (hw : h.waits = true) : Chosen (choosing h js sps) 0 h where
  may := ⟨rfl, show (_ : Nat) ≠ _ by simp [choosing, ready, flying, withSp0, on]⟩
  held := ⟨rfl, hm, by omega, show 0 < (1 : Nat) by decide⟩
  jobs := by intro j hj; simp [choosing, ready] at hj
  only := ⟨by intro p hp' _; simp [State.candQueues, choosing, ready, hp]; intro _ e; omega, by simp [State.candQueues, choosing, ready, hw]⟩
theorem witness_Choice : let h := { held with met := true }; let s := choosing h [(1, job2)] [(0, sp0), (1, { job := some 1 })]
    Chosen s 0 h ∧ h.rect = none ∧ h.placed (s.spFree s.reserved none) = some ⟨2, 0, 1, 1⟩ ∧ s.victims ⟨2, 0, 1, 1⟩ = [] ∧
    h.regionsFit (s.queue 0) ⟨2, 0, 1, 1⟩ = true ∧ h.placew = 0 :=
  ⟨chosen _ _ _ rfl (by decide) (by decide), by decide, by decide +kernel, by decide +kernel, by decide +kernel, by decide⟩
/-- A record for spindle 0 alone, on which a job of level 0 or 2 runs. -/
theorem witness_Preempts : let h := { held (fun w => w.set 0 0x2080000000000000) with met := true }
    let s := fun p => choosing h [(1, { job2 with prio := p })] [(0, sp0), (1, { job := some 1 })]
    (∀ p, Chosen (s p) 0 h) ∧ h.rect = none ∧ (∀ p ∈ [0, 2], h.placed ((s p).spFree (s p).reserved none) = none) ∧
    h.placed ((s 2).spFree (s 2).reserved (some h.prio)) = none ∧ h.placed ((s 0).spFree (s 0).reserved (some h.prio)) = some ⟨0, 0, 1, 1⟩ ∧
    h.regionsFit ((s 0).queue 0) ⟨0, 0, 1, 1⟩ = true ∧ h.placew = 0 ∧ (s 0).victims ⟨0, 0, 1, 1⟩ = [1] :=
  ⟨fun _ => chosen _ _ _ rfl (by decide) (by decide), by decide +kernel⟩
theorem witness_Placed : let r : Rect := ⟨2, 0, 1, 1⟩; let h := { held with met := true, rect := some r, victims := [2] }
    let s := fun p => choosing h [(2, { job2 with rect := r, phase := p })] []
    (∀ p, Chosen (s p) 0 h) ∧ (∀ sp ∈ r.spindles, ((s .running).spindle sp).fenced = false) ∧ (s .running).gone 2 = false ∧
    (s .out).gone 2 = true ∧ ∀ sp ∈ r.spindles, ((s .out).spindle sp).job = none :=
  ⟨fun _ => chosen _ _ _ rfl (by decide) (by decide), by decide +kernel⟩
theorem witness_HigherLevel : let k := { held (fun w => w.set 0 0x4000000000000000) with met := true }; let x := starting 0
    let s : State := { ready { held := some x } with disp := { queues := [(0, { held := some x }), (1, { held := some k })] } }
    (s.queue 0).held = some x ∧ ∃ e ∈ s.disp.queues, ∃ y, e.2.held = some y ∧ y.met = true ∧ y.rect = none ∧ x.prio < y.prio :=
  ⟨rfl, _, .tail _ (.head _), _, rfl, rfl, rfl, by decide⟩
theorem witness_GoWords : let h := { held with ext := (Vector.replicate 16 (0 : Word)).set 7 0x100, rect := some ⟨2, 0, 1, 1⟩ }; let s := ready { held := some h }
    s.running = true ∧ (s.queue 0).held = some h ∧ h.rect = some ⟨2, 0, 1, 1⟩ ∧ h.goRead = false ∧
    s.rootPage h.qroot h.gow needR = some (faOf 0 0x1020100, 0) ∧ s.full (faOf 0 0x1020100) = false ∧
    (let t : State := { s with fe := [faOf 0 0x1020100] }; t.full (faOf 0 0x1020100) = true ∧ t.read (faOf 0 0x1020100) 8 = 0) ∧
    (let t : State := { s with fe := [faOf 0 0x1020100], mem := s.mem ++ [(faOf 0 0x1020100, 1)] }; t.read (faOf 0 0x1020100) 8 % 2 ^ 15 ≠ 0) := by decide +kernel
theorem canStart (e : Word) : (ready { held := some (starting e) }).canStart 0 = some (starting e, ⟨2, 0, 1, 1⟩) := by rfl
theorem witness_Starts : (ready {}).canStart 0 = none := by decide +kernel
theorem witness_Starts1 : (⟨2, 0, 1, 1⟩ : Rect).shapeOk = true ∧ (∀ sp ∈ (⟨2, 0, 1, 1⟩ : Rect).spindles, ((ready {}).spindle sp).fenced = false) := by decide +kernel
theorem witness_Starts2 (e : Word) : let h := starting e; h.grtab = 0 ∧ h.chtab = 0 ∧ h.treeTab = 0 ∧ h.live = 0 ∧ h.trace = 0 ∧ h.handler = e := by
  exact ⟨rfl, rfl, rfl, rfl, rfl, rfl⟩
theorem witness_DeviceLaunches : let b := Body.launch (List.replicate 8 0) 0 0
    let s := fun m => { flying b with disp := { queues := [(0, { mode := m })] } }
    Arriving (flying b) (msg b) ∧ ((s modeDEAD).queue 0).mode = modeDEAD ∧ ((s modeHOST).queue 0).mode ≠ modeDEVICE ∧ ((s modeHOST).queue 0).mode ≠ modeDEAD ∧
    ((s modeDEVICE).queue 0).mode = modeDEVICE ∧ (s modeDEVICE).full (ringFa 0 0) = false ∧ NoWaiter (s modeDEVICE) (ringFa 0 0) ∧ (s modeDEVICE).mem.wf = true ∧
    ({ s modeDEVICE with fe := [ringFa 0 0] } : State).full (ringFa 0 0) = true :=
  ⟨arrives _ _ _ rfl rfl rfl, by decide, by decide, by decide, by decide, by decide, noWaiter _ _ rfl, by decide +kernel, by decide⟩
theorem witness_Retires : (∃ jb, Table.find (run []).jobs 1 = some jb ∧ (run []).canRetire 1 = false) ∧
    (let s : State := { withJob (run []) fun j => { j with compl := 0x100, queueRoot := faOf 0 0x1000000 } with ctxs := [], mem := tables.mem }
     (∃ jb, Table.find s.jobs 1 = some jb ∧ jb.repeat_ = false ∧ jb.compl ≠ 0 ∧ jb.compl.toNat % 8 = 0 ∧ s.rootPage jb.queueRoot jb.compl needW =
      some (faOf 0 0x1020100, 0)) ∧ s.canRetire 1 = true ∧ s.mem.wf = true ∧ (∀ sp, (s.spindle sp).sysbase ≤ 0x4000000)) := by
  refine ⟨⟨_, rfl, by decide⟩, ⟨_, rfl, by decide +kernel⟩, by decide, by decide +kernel, fun sp => ?_⟩
  have : ∀ p : Spindle, p = sp0 ∨ p = { job := some 1 } ∨ p = {} → p.sysbase ≤ 0x4000000 := by rintro p (rfl | rfl | rfl) <;> decide
  apply this
  simp only [State.spindle, withJob, run, on, Table.get, Table.find]
  split
  · exact .inl rfl
  · split
    · exact .inr (.inl rfl)
    · exact .inr (.inr rfl)

/-- The controller runs a command; job 1 runs on spindles 0 and 1. -/
def command (code a0 a1 a2 a3 : Nat) (f : State → State := id) : State :=
  f { ready {} with trebex := { stage := 6, busy := true, cmd := code, latched := #v[BitVec.ofNat 64 a0, BitVec.ofNat 64 a1, BitVec.ofNat 64 a2, BitVec.ofNat 64 a3],
                                apertures := [(0, faOf 0 0x1000000)] } }
theorem commanded (code a0 a1 a2 a3 : Nat) (h : a0 < 2 ^ 64 ∧ a1 < 2 ^ 64 ∧ a2 < 2 ^ 64 ∧ a3 < 2 ^ 64) : Commanded (command code a0 a1 a2 a3) code a0 a1 a2 a3 :=
  ⟨rfl, rfl, by show [_, _, _, _] = _; simp only [BitVec.toNat_ofNat, Nat.mod_eq_of_lt h.1, Nat.mod_eq_of_lt h.2.1, Nat.mod_eq_of_lt h.2.2.1, Nat.mod_eq_of_lt h.2.2.2]⟩
theorem witness_MgmtWrites : ((ready {}).trebex.busy = false ∧ 1 ≤ (0x12 : Word).toNat ∧ (0x12 : Word).toNat ≤ 0x12) ∧ (0x12 : Nat) < (0x13 : Word).toNat ∧
    (command 1 0 0 0 0).trebex.busy = true ∧ (command 1 0 0 0 0).trebex.cmd ≠ 2 := by decide
theorem witness_TableCommands : Commanded (command 4 0x30001 0x8000000000000000 0 0) 4 0x30001 0x8000000000000000 0 0 ∧ 0x30001 = 0x30001 % 2 ^ 14 + 2 ^ 16 * (3 : Fin 4).val ∧
    Commanded (command 5 1 2 3 0) 5 1 2 3 0 ∧ Commanded (command 3 7 (0x8000000000000000 + 2 ^ 41) 0 0) 3 7 (0x8000000000000000 + 2 ^ 41) 0 0 ∧
    (0x8000000000000000 + 2 ^ 41) / 2 ^ 49 % 2 ^ 13 = 0 ∧ (0x8000000000000000 + 2 ^ 41) / 2 ^ 41 % 2 ^ 8 ≠ 0 ∧
    Commanded (command 0xC 255 19 0 0) 0xC 255 19 0 0 ∧ Commanded (command 0xD 4095 0x8000000000000000 0 0) 0xD 4095 0x8000000000000000 0 0 ∧
    Commanded (command 0xB 1 15 255 0) 0xB 1 15 255 0 ∧ (command 0xB 1 15 255 0).jobOf 1 = some 1 ∧ (command 0xB 2 15 255 0).jobOf 2 = none ∧
    (command 0xB 2 15 255 0).heldOf 2 = none ∧ Commanded (command 0x12 9 0 0 0) 0x12 9 0 0 0 ∧
    (let s := command 0x12 9 0 0 0 fun s => { s with jobs := [] }; s.trebex.stage = 6 ∧ s.jobs = [] ∧ ∀ e ∈ s.disp.queues, e.2.held = none) ∧
    (command 0x12 9 0 0 0).jobs ≠ [] :=
  ⟨commanded _ _ _ _ _ (by decide), by decide, commanded _ _ _ _ _ (by decide), commanded _ _ _ _ _ (by decide), by decide, by decide, commanded _ _ _ _ _ (by decide),
    commanded _ _ _ _ _ (by decide), commanded _ _ _ _ _ (by decide), by decide, by decide, by decide, commanded _ _ _ _ _ (by decide), by decide, by decide⟩
/-- Spindles 0 and 1 by their corners, and spindle 2. -/
def corners01 : Nat := 2 ^ 14
def corner2 : Nat := 2 + 2 * 2 ^ 14
theorem witness_Fences : Commanded (command 6 1 0 corners01 0) 6 1 0 corners01 0 ∧ cornerRect corners01 = some ⟨0, 0, 2, 1⟩ ∧
    (let s := command 6 1 0 corners01 0 fun s => withJob s fun j => { j with phase := .out }; s.jobOf 1 = some 1 ∧ (s.job 1).phase = .out ∧
      contOk (s.job 1).rect (!(s.job 1).trees.isEmpty) (s.job 1).conts 0 ⟨0, 0, 2, 1⟩ = true) ∧ ((command 6 1 0 corners01 0).job 1).phase ≠ .out ∧
    Commanded (command 7 corners01 0 0 0) 7 corners01 0 0 0 ∧ (∃ e ∈ (command 7 corners01 0 0 0).jobs, e.2.rect.meets ⟨0, 0, 2, 1⟩ = true) ∧
    Commanded (command 7 corner2 0 0 0) 7 corner2 0 0 0 ∧ cornerRect corner2 = some ⟨2, 0, 1, 1⟩ ∧
    (∀ e ∈ (command 7 corner2 0 0 0).jobs, e.2.rect.meets ⟨2, 0, 1, 1⟩ = false) ∧ (∀ sp ∈ (⟨2, 0, 1, 1⟩ : Rect).spindles, ((command 7 corner2 0 0 0).spindle sp).fenced = false) ∧
    (let s := command 7 corner2 0 0 0 fun s => { s with spindles := s.spindles ++ [(2, { fenced := true })] }; 2 ∈ (⟨2, 0, 1, 1⟩ : Rect).spindles ∧
      (s.spindle 2).fenced = true ∧ (s.spindle 2).retired = false ∧ s.mem.wf = true) :=
  ⟨commanded _ _ _ _ _ (by decide), by decide, by decide, by decide, commanded _ _ _ _ _ (by decide), ⟨_, .head _, by decide⟩, commanded _ _ _ _ _ (by decide), by decide,
    by decide, by decide, by decide +kernel⟩
theorem witness_Launches : Commanded (command 1 1 0 0xFFFF 0) 1 1 0 0xFFFF 0 ∧ (command 1 1 0 0xFFFF 0).jobOf 1 = some 1 ∧ (command 1 2 0 0 0).jobOf 2 = none ∧
    Commanded (command 8 1 0 0 0) 8 1 0 0 0 ∧ ((command 8 1 0 0 0).job 1).phase = .running ∧ ((command 8 1 0 0 0).job 1).stopped = false ∧
    Commanded (command 9 1 0 0 0) 9 1 0 0 0 ∧ Commanded (command 2 0 0 0 0) 2 0 0 0 0 ∧ (command 2 0 0 0 0).fe = [] ∧ ((command 2 0 0 0 0).queue 0).held = none ∧
    ((command 2 0 0 0 0).queue 0).head < 64 :=
  ⟨commanded _ _ _ _ _ (by decide), by decide, by decide, commanded _ _ _ _ _ (by decide), by decide, by decide, commanded _ _ _ _ _ (by decide),
    commanded _ _ _ _ _ (by decide), by decide, by decide, by decide⟩
theorem hdm (code a0 a1 a2 a3 n : Nat) (h : n < 2 ^ 20) : (command code a0 a1 a2 a3).hdmFa (0x8000000 + n) = some (faOf 0 0x1000000 + n) := by
  have e : (0x8000000 + n - 0x8000000) / 2 ^ 20 = 0 := by omega
  have f : (0x8000000 + n) % 2 ^ 20 = n := by omega
  rw [State.hdmFa, if_neg (by omega), if_neg (by omega), e, f]
  rfl
theorem mapped (n : Nat) (h : n < 2 ^ 20) : faMapped (faOf 0 0x1000000 + n) = true := by
  have e : faSp (faOf 0 0x1000000 + n) = 0 := by simp only [faSp, faOf]; omega
  have f : faLocal (faOf 0 0x1000000 + n) = 0x1000000 + n := by simp only [faLocal, faOf]; omega
  unfold faMapped; rw [e, f]; simp [localMapped, numSpindles]; omega
theorem witness_Records : let s := command 0x0A 1 0x8000000 0 0; Commanded s 0x0A 1 0x8000000 0 0 ∧ s.mem.wf = true ∧ ((s.spindle 1).stopRecord 1 0).length = 512 ∧
    (∀ i, i < 512 → s.hdmFa (0x8000000 + 8 * i) = some (faOf 0 0x1000000 + 8 * i) ∧ faMapped (faOf 0 0x1000000 + 8 * i) = true) ∧
    (let s := command 0x11 0 0x8000000 0 0 fun s => { s with trebex := { s.trebex with fcount := 1, reports := [⟨0, ⟨0, 0, 1, 1⟩, false, 1, 0, 0, false, 0⟩] } }
     0 < s.trebex.fcount ∧ s.trebex.reports[0 - (s.trebex.fcount - s.trebex.reports.length)]?.isSome = true) ∧ (command 0x11 0 0x8000000 0 0).trebex.fcount ≤ 0 :=
  ⟨commanded _ _ _ _ _ (by decide), by decide +kernel, by decide +kernel, fun i h => ⟨hdm _ _ _ _ _ _ (by omega), mapped _ (by omega)⟩, by decide, by decide⟩
theorem witness_Firmware : Commanded (command 0x10 0x8000000 1 0 0) 0x10 0x8000000 1 0 0 ∧ (command 0x10 0x8000000 1 0 0).devBytes 0x8000000 1 = some [0] ∧
    (command 0x10 0x8000000 1 0 0).imageValid [0] = false ∧ (command 0x10 0x7000000 1 0 0).devBytes 0x7000000 1 = none ∧
    Commanded (command 0x0F 1 2 3 4) 0x0F 1 2 3 4 := by
  refine ⟨commanded _ _ _ _ _ (by decide), by decide, ?_, by decide, commanded _ _ _ _ _ (by decide)⟩
  simp [State.imageValid]
theorem witness_Power : (∀ n ∈ [0, 1, 2, 3], Commanded (command 0xE n 0 0 0) 0xE n 0 0 0) ∧ (∀ p ∈ [0, 1, 2], let s := command 0xE 0 0 0 0 fun s => { s with trebex := { s.trebex with pstate := p }, jobs := [] }
      s.trebex.pstate = p ∧ s.jobs = [] ∧ s.queuesBusy = false) ∧ (command 0xE 1 0 0 0).jobs ≠ [] :=
  ⟨fun n h => commanded _ _ _ _ _ (by simp only [List.mem_cons, List.not_mem_nil, or_false] at h; omega), by decide, by decide⟩
theorem witness_BringUp : (∀ n ∈ [1, 2, 3, 4, 5], ({ stage := n } : Trebex).bootFault = false) ∧ 6 ≤ (ready {}).trebex.stage := by decide
theorem witness_Margins : (let c : Cluster := { calm := 2, voff := 14 }; c.voff ≠ 15 ∧ c.calm = 2) ∧ 0 < numClusters := by decide

/-! ### The step (R19, R50, R60 to R64) -/

/-- Context 1 of spindle 0 runs code on page 0 of its own memory, at 0x1000, that its instruction cache holds; it is the next to issue. -/
def codeLine : Nat := faOf 0 0x1001000
def codeMem (l : List (Nat × Byte)) : Memory := l.map fun x => (codeLine + x.1, x.2)
def coded (l : List (Nat × Byte)) (c : Context := user 1) (t : Turn := .issue 0) : State :=
  { withSp0 (on 1 { c with unit := {} }) fun p => { p with icache := [(codeLine, (List.range 16).map fun n => BitVec.ofNat 32 ((codeMem l).readN (codeLine + 4 * n) 4))] }
    with agenda := [t], trebex := { stage := 6 }, mem := codeMem l }
/-- ADD.4 r4, r1, r4 in little-endian order (R51). -/
def addCode : List (Nat × Byte) := [(0, 0x10), (1, 0x40), (2, 0x41), (3, 0x01)]
theorem atUnit (l : List (Nat × Byte)) (c : Context) (w : IWord) (ws : List IWord) (hp : (coded l c).pick 0 = some 1)
    (hc : c.deferred = [] ∧ c.rels = [] ∧ c.recheck = false ∧ c.pc = 0x1000 ∧ c.handler = false) (hl : (w :: ws).length = lenWords w)
    (hw : ∀ i, i < (w :: ws).length → (w :: ws)[i]? = some (BitVec.ofNat 32 ((coded l c).read (codeLine + 4 * i) 4))) (hs : (w :: ws).length ≤ 3) :
    AtUnit (coded l c) [] 0 1 (page 0 true) (w :: ws) where
  quiet := by simp [coded, withSp0, on, job2]
  turn := ⟨rfl, rfl, hp⟩
  clear := ⟨hc.1, hc.2.1, hc.2.2.1, rfl, fun _ h => nomatch h⟩
  page := ⟨by show State.tlbFind _ _ _ c.pc = _; rw [hc.2.2.2.1]; rfl, by decide, by decide⟩
  place := ⟨by show c.pc.toNat % 4 = 0; rw [hc.2.2.2.1]; decide, by show c.pc.toNat < 2 ^ 52; rw [hc.2.2.2.1]; decide,
    by show c.pc.toNat % 2 ^ 16 + 4 * (w :: ws).length ≤ 2 ^ 16; rw [hc.2.2.2.1]; have : (0x1000 : Word).toNat % 2 ^ 16 = 4096 := by decide
       rw [this]; omega⟩
  length := ⟨w, rfl, hl⟩
  words := fun i h => by
    have e : (page 0 true).fa ((coded l c).ctx 1).pc = codeLine := by show (page 0 true).fa c.pc = _; rw [hc.2.2.2.1]; decide
    have n : (codeLine + 4 * i) / 64 * 64 = codeLine := by
      have e : codeLine = 16781312 := by decide
      have := Nat.lt_of_lt_of_le h hs
      omega
    rw [e]; intro fa line; rw [show line = codeLine from n]
    exact ⟨hw i h, by show Context.inWindow { c with unit := {} } _ = false; simp [Context.inWindow, hc.2.2.2.2], rfl⟩
theorem witness_Steps : AtUnit (coded addCode) [] 0 1 (page 0 true) [0x01414010] ∧ decodeWords [0x01414010] = some (.add 4 1 4 true) ∧
    (Instr.add 4 1 4 true).accepts false false = true ∧ (Instr.add 4 1 4 true).supvOnly = false ∧
    AtUnit (coded [(0, 0x20), (1, 0x40), (2, 0x41), (3, 0x01)]) [] 0 1 (page 0 true) [0x01414020] ∧ decodeWords [0x01414020] = none ∧
    Instr.isEvent .powerOn = true ∧ HandledAt (coded []) 1 ∧ ((user 1).supv = false) :=
  ⟨atUnit _ _ _ [] (by decide) ⟨rfl, rfl, rfl, rfl, rfl⟩ (by decide) (by decide) (by decide), by decide, by decide, by decide,
    atUnit _ _ _ [] (by decide) ⟨rfl, rfl, rfl, rfl, rfl⟩ (by decide) (by decide) (by decide), by decide, by decide, ⟨by decide, .inl (by decide)⟩, by decide⟩
theorem witness_Supervisor : (Instr.lpool 8 3).supvOnly = true ∧ decodeWords [0x66048300, 0, 0] = some (.lpool 8 3) ∧
    AtUnit (coded [(1, 0x83), (2, 4), (3, 0x66)]) [] 0 1 (page 0 true) [0x66048300, 0, 0] :=
  ⟨by decide, by decide, atUnit _ _ _ _ (by decide) ⟨rfl, rfl, rfl, rfl, rfl⟩ (by decide) (by decide) (by decide)⟩
/-- A page that may not be executed from, a line that is not cached, and a handler whose PC lies in its window. -/
theorem witness_FetchFaults : let no := fun (x : Bool) => withSp0 (coded []) fun _ => { sp0 with tlb := [⟨1, 0, { page 0 true with x := x }⟩] }
    (∀ x : Bool, let s := no x; s.pick 0 = some 1 ∧ (s.ctx 1).deferred = [] ∧ (s.ctx 1).pc.toNat < 2 ^ 52 ∧ (s.ctx 1).inWindow (s.ctx 1).pc = false ∧
      ∃ p, s.tlbFind 0 (s.jobNoAt 0) (s.ctx 1).pc = some p ∧ needX.ok p = x ∧ ((s.spindle 0).icache.find? fun e => e.1 == p.fa (s.ctx 1).pc / 64 * 64) = none) ∧
    (let s := coded [] { user 1 with handler := true, trapv := 1 }; s.pick 0 = some 1 ∧ (s.ctx 1).inWindow (s.ctx 1).pc = true ∧ HandledAt s 1) :=
  ⟨fun x => ⟨by cases x <;> decide, rfl, by cases x <;> decide, by cases x <;> decide, { page 0 true with x := x }, by cases x <;> decide, by cases x <;> decide, by cases x <;> decide⟩, by decide, by decide, by decide, .inl (by decide)⟩
theorem witness_Encodings : (Instr.ffma 8 2 3 true 2).wf = true ∧ encode (.ffma 8 2 3 true 2) = [0x1B8230D2] ∧
    (∃ x1 x2, decodeInstr 0x88300000 x1 x2 = some (.moviLiteral 3 0x123456789)) := ⟨by decide, by decide, 0x23456789, 1, by decide⟩
theorem ends (o : Out) (h : (match o with | .next _ => true | _ => false) = true) : ∃ t, o = .next t := by
  cases o with
  | next t => exact ⟨t, rfl⟩
  | fault _ => exact nomatch h
  | refused _ => exact nomatch h
theorem witness_Canonical : MemoryCanonical (coded addCode) ∧ ∃ t, step (coded addCode) = .next t :=
  ⟨⟨by decide +kernel, by decide⟩, ends _ (by decide +kernel)⟩

/-- One step fetches, decodes and executes: 3 + 4. -/
theorem test_step_add : (match step (coded addCode (regs [(1, 3), (4, 4)])) with | .next t => some (t.me.reg 4, t.me.pc) | _ => none) = some (7, 0x1004) := by decide +kernel
/-- The row's word is fetched and run by the next step. -/
theorem test_withFetchWord : (match step (State.reset.withFetchWord 32 0x01414010) with | .next t => some (t.me.unit.words, t.me.pc) | _ => none) =
    some ([0x01414010], 4) := by decide +kernel
theorem test_winset : after .winset (command 4 3 5 6 0) (fun t => (((t.spindle 3).winA[0], (t.spindle 3).winB[0]), t.trebex.mresp)) = some ((5, 6), 0) := by decide +kernel
theorem test_bindq_weight_zero : after .bindq (command 3 0 0x4000000000000000 0 0) (·.trebex.mresp) = some 0x100000000000000 := by decide +kernel
theorem test_bringup_fails : after (.bringupStageDone false) State.reset (fun t => (t.trebex.stage, t.trebex.bootFault)) = some (1, true) := by decide
theorem test_power_throttles : after (.powerWindow 3 820001) (ready {}) (fun t => t.trebex.dthr.toList) = some [0, 0, 0, 1, 0, 0, 0, 0, 0, 0, 0, 0] := by decide

/-! ### Hypotheses of single clauses (R11, R80 to R82, R126 to R128, R196, R216 to R219, R331) -/

theorem witness_FloatTables : (∀ f, f = fp32 ∨ f = fp64 → 0x40000000 < 2 ^ f.bits) ∧ Below (fp32.decode 0xFF800000) (fp32.decode 0x3F800000) ∧
    operand fp32 0 1 = fp32.decode 1 ∧ (fp32.decode 1).isFin = true ∧ cpDEN 4 = 1 ∧ -2 ^ 63 ≤ (2 ^ 63 : Int) ∧ (2 ^ 63 : Int) < 2 ^ 64 ∧ (3 : Rnd) < 4 ∧
    (∃ v : Fl, v.isFin = true) :=
  ⟨by rintro f (rfl | rfl) <;> decide, rfl, by simp [operand, cpDEN, bitsOf], by decide, by decide, by decide, by decide, by decide, .fin false 1 0, rfl⟩

/-- VA pages 6 and 7 are alias pages of kinds MXA8 and MXA4 at the DRAM of spindle 0. -/
def aliasPage (k : Nat) : PageEntry := { frame := faOf 0 0x1000000, big := false, kind := k, r := true, w := true, x := false, fgn := false }
def aliased (l : List (Reg × Word)) : State := withSp0 (run l) fun p => { p with tlb := [⟨1, 6, aliasPage 1⟩, ⟨1, 7, aliasPage 2⟩] }
theorem witness_AliasPages : (∀ k ∈ [1, 2], let s := aliased [(2, 0x60040), (3, 0x70040)]; let r : Reg := if k = 1 then 2 else 3
      (∀ need ∈ [needR, needW, needRW], ∀ n ∈ [1, 2, 4, 8], OwnAlias s (eaShort s r 0) need n (aliasPage k)) ∧ CleanBlock s (aliasPage k) (eaShort s r 0)) ∧
    (aliased [(2, 0x60040), (3, 0x70040)]).mem.wf = true ∧ (aliased [(2, 0x60040), (3, 0x70040)]).Handled := by
  refine ⟨fun k h => ?_, by decide, by decide, .inl (by decide)⟩
  simp only [List.mem_cons, List.not_mem_nil, or_false] at h
  rcases h with rfl | rfl
  · refine ⟨fun need hn n hm => ?_, by decide, by decide, by decide, by decide⟩
    simp only [List.mem_cons, List.not_mem_nil, or_false] at hn hm
    rcases hn with rfl | rfl | rfl <;> rcases hm with rfl | rfl | rfl | rfl <;> exact ⟨by decide, by decide, by decide, by decide, by decide, by decide⟩
  · refine ⟨fun need hn n hm => ?_, by decide, by decide, by decide, by decide⟩
    simp only [List.mem_cons, List.not_mem_nil, or_false] at hn hm
    rcases hn with rfl | rfl | rfl <;> rcases hm with rfl | rfl | rfl | rfl <;> exact ⟨by decide, by decide, by decide, by decide, by decide, by decide⟩
theorem witness_Quantised : (∃ v ∈ [Fl.inf false], v.isFin = false) ∧ (∀ v ∈ [Fl.fin true 3 0, .fin false 1 0], v.isFin = true) ∧
    |valueOf (.fin true 3 0)| = 3 ∧ (∀ v ∈ [Fl.fin true 3 0, .fin false 1 0], |valueOf v| ≤ 3) ∧ (2 : ℚ) ^ (1 : Int) ≤ 3 ∧ (3 : ℚ) < 2 ^ ((1 : Int) + 1) :=
  ⟨⟨_, .head _, rfl⟩, by decide, by norm_num [valueOf], by norm_num [valueOf], by norm_num, by norm_num⟩
/-- R216, R217: a 2-byte BF16 store of 1.5 through an MXA8 page gives its block that one element, and the load reads it back. -/
theorem test_alias_roundtrip : (match exec (.st 5 2 1 0) (aliased [(2, 0x60040), (5, 0x3FC0)]) with | .next t => after (.ld 8 2 1 0) t (reg 8) | _ => none) =
    some 0x3FC0 := by decide +kernel

/-- Context 2 waits at the word of VA 8 as `op`, on this spindle or from spindle 1; context 1 executes. -/
def waitedFor (op : Nat) (l : Bool) (full : Bool) : State :=
  let s := withSp0 (run mregs) fun p => { p with waiters := [{ sp := if l then 0 else 1, ctx := 2, tok := 7, op := op, fa := own8, n := 8, data := 5, local_ := l }] }
  { s with fe := if full then [own8] else []
           ctxs := s.ctxs ++ [(2, { user 2 with st := .parked, park := 5, tok := 7, kont := if op = opSTF then .advance else .load 3 8 false })] }
theorem witness_AnsweredWaiters : (∀ op ∈ [opLDF, opLDE], ∀ l : Bool, let s := waitedFor op l false
      s.mem.wf = true ∧ s.inCopyRegion own8 8 = false ∧ s.poisoned (wordOf own8) 8 = false ∧ s.full own8 = false ∧
      ∃ x, (s.spindle s.here).waiters = [x] ∧ wordOf x.fa = wordOf own8 ∧ x.fa % 8 + x.n ≤ 8 ∧ keyOf x.sp x.ctx ≠ s.cur ∧ x.op = op ∧ x.local_ = l ∧
        (l = true → (s.ctx (keyOf x.sp x.ctx)).st = .parked ∧ (s.ctx (keyOf x.sp x.ctx)).tok = x.tok ∧ (s.ctx (keyOf x.sp x.ctx)).kont = .load 3 x.n false)) ∧
    (∀ l : Bool, let s := waitedFor opSTF l true; s.full own8 = true ∧ ∃ x, (s.spindle s.here).waiters = [x] ∧ x.op = opSTF ∧
      (l = true → (s.ctx (keyOf x.sp x.ctx)).kont = .advance)) ∧
    Own (waitedFor 0 true false) (eaShort (waitedFor 0 true false) 2 0) needW 8 own8 ∧ Own (waitedFor 0 true false) (eaShort (waitedFor 0 true false) 2 0) needRW 8 own8 := by
  refine ⟨fun op h l => ?_, fun l => by cases l <;> exact ⟨by decide, _, rfl, rfl, by decide⟩,
    ⟨by decide, ⟨page 0 true, by decide, by decide, by decide⟩, by decide, by decide⟩, ⟨by decide, ⟨page 0 true, by decide, by decide, by decide⟩, by decide, by decide⟩⟩
  simp only [List.mem_cons, List.not_mem_nil, or_false] at h
  rcases h with rfl | rfl <;> cases l <;>
    exact ⟨by decide, by decide, by decide, by decide, _, rfl, by decide, by decide, by decide, rfl, rfl, by decide⟩
theorem test_stw_answers : after (.stw 5 2 3 0) (waitedFor opLDF true false) (fun t => ((t.ctx 2).st, (t.ctx 2).reg 3, t.full own8)) =
    some (.ready, 0x1122334455667788, true) := by decide +kernel
theorem test_fec_lets_a_store_in : after (.fec 2 0) (waitedFor opSTF true true) (fun t => ((t.ctx 2).st, t.read own8 8, t.full own8)) =
    some (.ready, 5, true) := by decide +kernel

/-- Two entries for one word, a sum after a store. -/
def skeined2 : State := withSp0 (run []) fun p => { p with
  skein := [{ fa := own8, op := 0, sz := 3, v := 5, key := 1, seqn := 1, plyg := 0, phase := 0, anyph := true }, { fa := own8, op := 7, sz := 3, v := 9, key := 1, seqn := 0, plyg := 0, phase := 0, anyph := true }] }
theorem witness_Merge2 : ∃ e f, (skeined2.spindle 0).skein = [f, e] ∧ e.fa % 8 + 2 ^ e.sz ≤ 8 ∧ f.fa = e.fa ∧ f.sz = e.sz ∧ f.plyg = e.plyg ∧ f.phase ≤ e.phase ∧
    e.v < 256 ^ (2 ^ e.sz) ∧ f.v < 256 ^ (2 ^ f.sz) ∧ (e.key < f.key ∨ (e.key = f.key ∧ e.seqn < f.seqn)) ∧ e.op = 7 ∧ f.op = 0 :=
  ⟨_, _, rfl, by decide, rfl, rfl, rfl, by decide, by decide, by decide, .inr (by decide), rfl, rfl⟩
/-- R162, R196: a merge applies a word's entries one by one, the store before the sum. -/
theorem test_merge_order : let s := withSp0 skeined2 fun p => { p with skein := (skeined2.spindle 0).skein.map fun e => { e with due := true } }
    (s.mergeStep 1 0).read own8 8 = 9 ∧ ((s.mergeStep 1 0).mergeStep 1 0).read own8 8 = 14 := by decide +kernel

/-- A handler on spindle 1 or 0 whose window is VA page 9 and selects context 1 of spindle 0. -/
def watching (sp : Nat) (w : Word) (l : List (Reg × Word)) (c : Context := { user 1 with st := .frozen, frz := some { cause := 5 } }) : State :=
  let k := keyOf sp 15
  { run [] with ctxs := [(1, c), (k, regs l { user 31 with handler := true, supv := true, winsel := w, trapv := 0x90000 }), (30, { st := .ready, handler := true, supv := true })], cur := k }
theorem witness_Windows : (∀ sp ∈ [0, 1], let s := watching sp 0x8000000000000001 [(2, 0x90010), (3, 0x90008)]
      s.me.handler = true ∧ (eaShort s 2 0).toNat / 2 ^ 16 = s.me.trapv.toNat / 2 ^ 16 ∧ s.me.rels = [] ∧ s.me.unit.rel = none ∧ winTarget s.me.winsel ≠ s.cur ∧
      s.me.winsel.getLsbD 63 = true ∧ s.myJob.rect.has (keySp (winTarget s.me.winsel)) = true ∧ (eaShort s 2 0).toNat % 8 = 0) ∧
    (let s := watching 0 0x8000000000000001 [(2, 0x90010), (3, 0x90008)]; keySp (winTarget s.me.winsel) = s.here ∧ (s.ctx 1).st = .frozen ∧
      WindowTakes (s.ctx 1) ((eaShort s 2 0).toNat % 2 ^ 16) 7) ∧
    keySp (winTarget (watching 1 0x8000000000000001 []).me.winsel) ≠ (watching 1 0x8000000000000001 []).here ∧
    ¬ WindowTakes (user 1) 8 7 ∧ ((watching 0 0x8000000000000001 [] (user 1)).ctx 1).st ≠ .frozen ∧ (watching 0 1 []).me.winsel.getLsbD 63 = false := by
  exact ⟨by decide, ⟨by decide, by decide, .inr (.inl (by decide))⟩, by decide, by unfold WindowTakes; decide, by decide, by decide⟩
theorem test_window_reads_g0 : after (.ld 8 2 3 0) (watching 0 0x8000000000000001 [(2, 0x90010)] { regs [(0, 77)] { user 1 with st := .frozen } with frz := some { cause := 5 } })
    (reg 8) = some 77 := by decide +kernel

/-! ### Hypotheses of single clauses of events (R22, R90, R129, R149, R180, R182, R334 to R337, R345 to R387) -/

/-- The pair of records 0 and 0: which of them is a branch is what `na` and `nb` say. -/
def branching (na nb : Byte) : State :=
  { holding [] with mem := (([(16, 1), (20, na), (0x410, 1), (0x414, nb)] : List (Nat × Byte)).filter fun x => x.2 != 0).map fun x => (faOf 0 0x1000000 + x.1, x.2) }
theorem witness_ForkChoices : let w := fun (s : State) a => s.read (faOf 0 0x1000000 + a + 12) 9
    (w (branching 2 0) 0 / 2 ^ 64 % 256 ≠ 0 ∧ w (branching 2 0) 0x400 / 2 ^ 64 % 256 = 0) ∧
    (w (branching 0 2) 0 / 2 ^ 64 % 256 = 0 ∧ w (branching 0 2) 0x400 / 2 ^ 64 % 256 = 2 ∧ w (branching 0 2) 0x400 / 2 ^ 32 % 2 ^ 32 + 2 ≤ treeB.count) ∧
    (w (branching 2 2) 0 / 2 ^ 64 % 256 = 2 ∧ w (branching 2 2) 0x400 / 2 ^ 64 % 256 = 2 ∧
      ¬ Below (fp32.decode (w (branching 2 2) 0 % 2 ^ 32)) (fp32.decode (w (branching 2 2) 0x400 % 2 ^ 32))) ∧
    (w (branching 0 0) 0 / 2 ^ 64 % 256 = 0 ∧ w (branching 0 0) 0x400 / 2 ^ 64 % 256 = 0) ∧ ¬ 3 ∈ [2, 4, 8] ∧
    (let e : DupEffect := ⟨0x10008, away8, 0, 3, 5⟩; (holding [e]).appendRefusal (holding [e]).here e.fa (2 ^ e.sz) 0 = none ∧ faSp e.fa ≠ (holding [e]).here) := by
  refine ⟨by decide +kernel, by decide +kernel, ⟨by decide +kernel, by decide +kernel, ?_⟩, by decide +kernel, by decide, by decide⟩
  have h : ∀ a, (a = 0 ∨ a = 0x400) → (branching 2 2).read (faOf 0 0x1000000 + a + 12) 9 % 2 ^ 32 = 0 := by rintro a (rfl | rfl) <;> decide +kernel
  rw [h 0 (.inl rfl), h 0x400 (.inr rfl)]
  exact fun g => absurd g (by simp [Below, show fp32.decode 0 = .fin false 0 (-149) from by decide])

theorem witness_BusyRequests : let b := Body.nackBusy own8 8 0 0; let s := flying b { user 1 with st := .parked, tok := 9 }
    (msg b).logged = false ∧ s.logFirst (msg b) = true ∧ s.frontHolds (msg b) = false := by decide
theorem witness_Reapers : let s := { flying (.exitNotice 17 7) with ctxs := [(1, user 1), (16, { user 16 with st := .parked, park := 11, unit := { words := [0x15CD0040] }, got := [(1, 0)] })] }
    ((s.ctx 16).waitsOn 1 = true ∧ (s.ctx 16).st = .parked ∧ (s.ctx 16).park = 11) ∧ (s.ctx 16).waitsOn 2 = false ∧ (s.job 1).rect.spindle (17 / 16) = 1 := by decide
theorem witness_BatchAnswers : let x : Context := { user 1 with st := .parked, park := 2, kont := .reissue }
    let s := flying (.batchAck 0 7) x 1 fun p => { p with pubs := [{ pub with open_ := [], unacked := [(7, 0, [whoOf 1 1])] }] }
    Table.find s.ctxs 1 = some x ∧ x.st = .parked ∧ x.park = 2 ∧ x.kont = .reissue ∧ x.tok = 0 ∧ x.waitToks = [] ∧
    ∀ i, i < 8 → s.poison.contains (0 + 8 * i) = false := by
  refine ⟨rfl, rfl, rfl, rfl, rfl, rfl, fun i _ => rfl⟩

/-- A ply of group 3 with one entry. -/
def plying : State :=
  let e : SkeinEntry := { fa := own8, op := 0, sz := 3, v := 5, key := 0, seqn := 0, plyg := 3, phase := 0, anyph := false }
  withSp0 (barrier [{ grp := 3, thidx := 1, phase := 0, ply := true, at_ := 0, tok := 2 }]) fun p => { p with skein := [e] }
theorem witness_Plies : (∃ jb, Table.find plying.jobs 1 = some jb ∧ jb.phaseFull 3 = true ∧ (jb.arrivalsNow 3).any (·.ply) = true ∧ jb.ph 3 = 0 ∧
      jb.rect.spindles = [0, 1]) ∧ plying.relLeft 1 3 = false ∧ (plying.closeJob 1).updateLeft 1 3 = false ∧ plying.poison = [] ∧ plying.mem.wf = true ∧
    (plying.spindle 1).skein = [] ∧ (∃ e, (plying.spindle 0).skein = [e] ∧ e.plyg = 3 ∧ e.phase ≤ 0 ∧ faSp e.fa = 0 ∧ e.v < 256 ^ (2 ^ e.sz)) ∧
    (plying.spindle 0).fenced = false :=
  ⟨⟨_, rfl, by decide, by decide, by decide, by decide⟩, by decide, by decide, by decide, by decide, by decide, ⟨_, rfl, rfl, by decide, by decide, by decide⟩, by decide⟩
/-- Its merge has begun. -/
def merging : State :=
  let s := plying
  { s with jobs := s.jobs.map fun x => (x.1, { x.2 with merging := [3] })
           spindles := s.spindles.map fun x => (x.1, { x.2 with skein := x.2.skein.map fun e => { e with due := true } }) }
theorem witness_Merging : (∃ jb, Table.find merging.jobs 1 = some jb ∧ 3 ∈ jb.merging ∧ jb.rect.spindles = [0, 1] ∧ jb.rect.spindles.count 0 = 1) ∧
    (merging.spindle 1).skein = [] ∧ (∃ e, (merging.spindle 0).skein = [e] ∧ e.due = true ∧ e.plyg = 3 ∧ faSp e.fa = 0 ∧ e.v < 256 ^ (2 ^ e.sz)) ∧
    (merging.spindle 0).fenced = false ∧ merging.poison = [] ∧ merging.mem.wf = true :=
  ⟨⟨_, rfl, by decide, by decide, by decide⟩, by decide, ⟨_, rfl, rfl, rfl, by decide, by decide⟩, by decide, by decide, by decide⟩
theorem test_ply_merges : after (.phaseComplete 1 3) plying (fun t => (t.read own8 8, (t.job 1).merging)) = some (0, [3]) ∧
    after (.phaseComplete 1 3) merging (fun t => (t.read own8 8, (t.spindle 0).skein.length, (t.job 1).pliesDone)) = some (5, 0, 1) := by decide +kernel

/-- The front of spindle 0 has begun, with the tokens `l`, and finds a message. -/
def fronted (b : Body) (src : Nat) (l : List (Nat × Nat)) (more : List Msg := []) : State :=
  let s := flying b (user 1) src fun p => { p with frontOn := true, frontIn := l }
  { s with msgs := s.msgs ++ more, jobs := [(1, { job2 with phase := .frontPhase })] }
theorem witness_LaterMessages : let b := Body.read own8 8 0; let all := [0, 1].flatMap fun a => [0, 1, 2, 3].map fun c => (a, c)
    let logged := List.replicate 2048 { msg b with id := 6, logged := true }
    (∀ p ∈ [(fronted b 1 [(1, MeshClass.request.num)], 1), (fronted b 1 [(1, MeshClass.request.num)] logged, 1), (fronted b 200 all, 200)], let s := p.1; let m := msg b p.2
      (s.msgs.find? fun x => x.id == m.id) = some m ∧ m.logged = false ∧ m.postFront = false ∧ (s.job m.job).phase ≠ .resuming ∧ m.notBefore = 0 ∧ m.port = none ∧
      s.headOfFlow m = true ∧ s.replayHeld m = false ∧ (s.spindle 0).fenced = false ∧ (s.spindle 0).frontOn = true ∧ (s.spindle 0).job = some m.job) ∧
    (∀ m : Msg, m.body = b → ArrivesBy m (.remoteReadRequest m.id)) ∧ ((job2.rect.has 1 = true) ∧ job2.rect.has 200 = false) ∧
    (fronted b 200 all).frontAt 1 0 = true ∧ (fronted b 1 []).logBytes 0 + (msg b).bytes ≤ 2 ^ 16 ∧
    2 ^ 16 < (fronted b 1 [] logged).logBytes 0 + (msg b).bytes ∧
    (let n := Body.nackBusy own8 8 0 0; ∃ fa k op d, (msg n).body = .nackBusy fa k op d ∧ (msg n).notBefore ≤ (fronted n 1 []).now) :=
  ⟨by decide +kernel, fun m h => by simp [ArrivesBy, h], by decide, by decide, by decide, by decide +kernel, _, _, _, _, rfl, by decide⟩

/-- The host port finds an end-to-end check value that disagrees. -/
theorem witness_HostChecks : let s : State := { ready { mode := modeHOST } with upsets := [.hostCrc] }
    s.hostServed = true ∧ (s.queue 0).mode = modeHOST ∧ s.full (ringFa 0 0) = false ∧ ¬ s.upsets.contains .hostCrc = false := by decide
theorem witness_HostSpoils : let s : State := { ready {} fun b => { b with apertures := [(0, faOf 0 0x1000000)] } with poison := [own8] }
    (∃ w, w % 8 = 0 ∧ s.poison.contains w = true ∧ w < own8 + 4 ∧ own8 < w + 8 ∧ ¬ (own8 ≤ w ∧ w + 8 ≤ own8 + 4)) ∧
    (¬ ∃ w, w % 8 = 0 ∧ s.poison.contains w = true ∧ w < own8 + 8 ∧ own8 < w + 8 ∧ ¬ (own8 ≤ w ∧ w + 8 ≤ own8 + 8)) ∧
    (∀ i, i < 8 → ({ s with spindles := [] } : State).spindle (faSp (own8 + i)) = {}) := by
  refine ⟨⟨own8, by decide, by decide, by decide, by decide, by decide⟩, ?_, fun i _ => rfl⟩
  rintro ⟨w, _, h, _, _, g⟩
  have : w = own8 := by simpa [ready] using h
  omega
/-- Spindle 0's system region holds an entry of each kind, and an aperture shows it. -/
def regioned (a : Nat) : State :=
  let d : PairDesc := ⟨3, 4, 1, false, true⟩
  { ready {} fun b => { b with apertures := [(0, faOf 0 a)] } with
    jobs := [(1, { job2 with blocks := 2, ravelMax := 64 })], clusters := [(0, { own := [(0, [d])] })],
    spindles := [(0, { sp0 with sysbase := 0x3D00000, skein := [{ fa := own8, op := 1, sz := 2, v := 5, key := 6, seqn := 7, plyg := 8, phase := 9, anyph := true }] }),
      (1, { job := some 1 })],
    unrav := { acts := [act1 .opened [{ entry1 with inArea := true }]] } }
theorem witness_Regions : let s := regioned 0x3D00000
    s.regionAt (s.job 1) 0 = [0x3F70000, 0x3D70000, 0x3D64000, 0x3D64000, 0x3D63800, 0x3D63000] ∧ s.hostServed = true ∧
    s.hostBytes 0x8070000 8 = some (faOf 0 0x3D70000) ∧ s.hostBytes 0x8063800 8 = some (faOf 0 0x3D63800) ∧ s.hostBytes 0x8063000 8 = some (faOf 0 0x3D63000) ∧
    faMapped (faOf 0 0x3D70000) = true ∧ faLocal (faOf 0 0x3D70000) = 0x3D70000 ∧ s.upsets.contains .hostCrc = false ∧ (s.spindle 0).job = some 1 ∧ (s.spindle 0).sysbase ≤ 0x3D63000 ∧
    s.trebex.chip < 2 ^ 8 ∧ ((s.spindle 0).skein[0]?).isSome = true ∧ (s.blockDescs (s.job 1) 0)[0]?.isSome = true ∧ (s.ravelPlace 1 (64 * 0 + 0)).isSome = true ∧
    0 % (s.job 1).rect.size = (s.job 1).rect.index 0 := by decide +kernel
/-- R194, R172, R318: the first words of a skein entry, a descriptor and a ravel entry. -/
theorem test_region_words : [0x8070000, 0x8063800, 0x8063000].map (fun o => (match exec (.hostMemRead o 8) (regioned 0x3D00000) with
    | .next t => t.trebex.hostData | _ => 0)) = [8 * 2 ^ 56 + 2 ^ 55 + 2 * 2 ^ 53 + 2 ^ 49 + BitVec.ofNat 64 own8, 4 * 2 ^ 32 + 3, 0x800] := by decide +kernel

theorem witness_TakenSlots : let s : State := { ready { mode := modeHOST } with fe := [ringFa 0 0] }
    s.takeSlot 0 = some 0 ∧ (s.queue 0).mode ≠ modeDEAD ∧ (let d : State := { ready { mode := modeDEAD } with fe := [ringFa 0 5] }
      d.takeSlot 0 = some 5 ∧ d.canTake 0 = true) := by
  decide +kernel
theorem witness_TearDowns : (let s := command 2 0 0 0 0 (fun s => { s with disp := { queues := [(0, { launchedAt := 101 })] } });
      s.running = true ∧ (s.queue 0).launchedAt = s.now + 1) ∧
    (let s := command 2 0 0 0 0 (fun s => { s with disp := { queues := [(0, { held := some held })] } });
      (s.queue 0).held = some held ∧ held.compl = 0 ∧ (s.queue 0).head < 64 ∧ (s.queue 0).launchedAt ≠ s.now + 1) ∧
    (let s := command 2 0 0 0 0 (fun s => { s with fe := [ringFa 0 7] });
      s.full (ringFa 0 7) = true ∧ s.read (ringFa 0 7 + 48) 8 = 0 ∧ NoWaiter s (ringFa 0 7) ∧
      (s.queue 0).held = none) := by
  refine ⟨by decide, by decide, by decide, by decide +kernel, noWaiter _ _ rfl, by decide⟩
theorem witness_Unmapped : let s := command 0x0A 1 0x8100000 0 0
    Commanded s 0x0A 1 0x8100000 0 0 ∧ (∃ i, i < ((s.spindle 1).stopRecord 1 0).length ∧ s.hdmFa (0x8100000 + 8 * i) = none) ∧
    (let t := command 0x11 0 0x8100000 0 0 (fun s => { s with trebex := { s.trebex with fcount := 257, reports := List.replicate 256 ⟨0, ⟨0, 0, 1, 1⟩, false, 1, 0, 0, false, 0⟩ } });
      0 < t.trebex.fcount - t.trebex.reports.length ∧ t.trebex.reports[1 - (t.trebex.fcount - t.trebex.reports.length)]?.isSome = true ∧ t.hdmFa 0x8100000 = none) :=
  ⟨commanded _ _ _ _ _ (by decide), ⟨0, by decide +kernel, by decide⟩, by decide +kernel⟩
theorem witness_BadImages : let s : State := { State.reset with trebex := { flash := [(0, [0]), (1, [0])] } }
    s.trebex.stage = 1 ∧ s.trebex.bootFault = false ∧ s.trebex.pstate ≠ 2 ∧ s.imageValid (s.flashImage 0) = false := by
  refine ⟨rfl, rfl, by decide, ?_⟩
  have : (({ State.reset with trebex := { flash := [(0, [0]), (1, [0])] } } : State).flashImage 0) = [0] := rfl
  rw [this]; simp [State.imageValid]
/-- A loom command that holds a translation in the range of INVTLB and one outside it. -/
theorem witness_Rewalks : let s := command 1 1 0 0xFFFF 0 (fun s => { s with jobs := [(1, { job2 with root := faOf 0 0x1000000 })] });
    s.jobOf 1 = some 1 ∧ (0 : Nat) / 2 ^ 22 ≤ 4 / 64 ∧ 4 / 64 ≤ 0xFFFF / 2 ^ 22 ∧ 0xFFFF / 2 ^ 22 < 64 / 64 ∧ (s.walkJob 1 0).isSome = true ∧ s.walkJob 1 0x40000 = none := by
  decide +kernel

/-! ### Hypotheses of the layer operations at the home (R275 to R292) -/

/-- The tables of the walks with a second page, at VA 0x10000. -/
def tables2 : Memory :=
  [(0x1000003, 64), (0x1000004, 128), (0x1000007, 128), (0x1008003, 128), (0x1008004, 128), (0x1008007, 128), (0x1010004, 129), (0x1010007, 199),
    (0x101000B, 128), (0x101000C, 129), (0x101000F, 199)]
/-- Where the two pages stand, and the pages. -/
def base0 : Nat := 0x1020000
def at0 (va : Word) : Nat := base0 + va.toNat
def page0 (i : Nat) : PageEntry := { frame := base0 + 65536 * i, big := false, kind := 0, r := true, w := true, x := true, fgn := false }

/-- Values put at virtual addresses: address, bytes, value. -/
def put (ws : List (Nat × Nat × Nat)) (m : Memory) : Memory := ws.foldl (fun m x => m.writeN (base0 + x.1) x.2.1 x.2.2) m
theorem put_ok (ws : List (Nat × Nat × Nat)) {m : Memory} (h : m.wf = true) :
    (put ws m).wf = true ∧ ∀ b, b < base0 → (put ws m).read b = m.read b := by
  induction ws generalizing m with
  | nil => exact ⟨h, fun _ _ => rfl⟩
  | cons x t ih =>
    obtain ⟨g, k⟩ := ih (Laws.wf_writeN h (base0 + x.1) x.2.1 x.2.2)
    exact ⟨g, fun b hb => (k b hb).trans (Laws.read_writeN_out h _ _ _ (.inl (by omega)))⟩

/-- Memories that agree on a range read alike in it. -/
theorem readN_agree {m m' : Memory} {lo hi : Nat} (h : ∀ b, lo ≤ b → b < hi → m'.read b = m.read b) (n a : Nat) (ha : lo ≤ a) (hn : a + n ≤ hi) :
    m'.readN a n = m.readN a n := by
  induction n generalizing a with
  | zero => rfl
  | succ n ih => simp only [Memory.readN]; rw [h a ha (by omega), ih (a + 1) (by omega) (by omega)]

theorem readN_zero {m : Memory} {a n : Nat} (h : ∀ k, a ≤ k → k < a + n → m.read k = 0) : m.readN a n = 0 := by
  induction n generalizing a with
  | zero => rfl
  | succ n ih => simp only [Memory.readN]; rw [h a le_rfl (by omega), ih fun k h1 h2 => h k (by omega) (by omega)]; rfl

/-- The three tables name one another alone. -/
theorem tables2_zero (t i : Nat) (h : t = 0x1000000 ∨ t = 0x1008000) (h0 : i ≠ 0) (hi : i < 4096) : tables2.readN (t + 8 * i) 8 = 0 := by
  have z : ∀ k, t + 8 * i ≤ k → k < t + 8 * i + 8 → tables2.read k = 0 := fun k h1 h2 => by
    simp only [tables2, Memory.read]
    rcases h with rfl | rfl <;> repeat (first | rw [if_neg (by omega)] | rw [if_pos (by omega)] | rfl)
  exact readN_zero z
theorem tables2_lead (i : Nat) (hi : i < 4096) : (nextTable tables (tables2.readN (0x1000000 + 8 * i) 8) = none ∨
    nextTable tables (tables2.readN (0x1000000 + 8 * i) 8) = some 0x1008000) ∧ (nextTable tables (tables2.readN (0x1008000 + 8 * i) 8) = none ∨
    nextTable tables (tables2.readN (0x1008000 + 8 * i) 8) = some 0x1010000) := by
  by_cases h : i = 0
  · subst h; decide +kernel
  · rw [tables2_zero _ _ (.inl rfl) h hi, tables2_zero _ _ (.inr rfl) h hi]; decide

/-- A walk sees the tables alone. -/
theorem walk_tables2 (r : WalkRules) (hr : r.rect = tables.rect) {m : Memory} (h : ∀ b, b < base0 → 0x1000000 ≤ b → m.read b = tables2.read b) (va : Word) :
    walkTables { r with mem := m } (0x1000000) va = walkTables { r with mem := tables2 } (0x1000000) va := by
  have nx : ∀ m' e, nextTable { r with mem := m' } e = nextTable tables e := fun m' e => by simp only [nextTable, hr]
  have eb : base0 = 0x1020000 := rfl
  have rd : ∀ t i, 0x1000000 ≤ t → t ≤ 0x1010000 → i < 4096 → m.readN (t + 8 * i) 8 = tables2.readN (t + 8 * i) 8 := fun t i h1 h2 hi =>
    readN_agree (lo := 0x1000000) (hi := 0x1020000) (fun b g1 g2 => h b (by omega) (by omega)) _ _ (by omega) (by omega)
  have ix : ∀ x hi lo, hi = lo + 11 → bitsOf x hi lo < 4096 := fun x hi lo e => by subst e; simp only [bitsOf]; exact (Nat.mod_lt _ (by positivity)).trans_eq (by rw [show lo + 11 + 1 - lo = 12 from by omega]; rfl)
  unfold walkTables
  simp only [nx]
  split
  · rfl
  have i1 := ix va.toNat 51 40 rfl; have i2 := ix va.toNat 39 28 rfl; have i3 := ix va.toNat 27 16 rfl
  rw [rd _ _ (by omega) (by omega) i1]
  have l1 := (tables2_lead _ i1).1
  rcases l1 with l1 | l1 <;> rw [l1]
  have l2 := (tables2_lead _ i2).2
  simp only []
  rw [rd _ _ (by omega) (by omega) i2]
  rcases l2 with l2 | l2 <;> rw [l2]
  simp only []
  rw [rd _ _ (by omega) (by omega) i3]
  rfl

/-- A layer operation that has come to its target's home, memory holding what was put into it. -/
def pooled (b : Body) (ws : List (Nat × Nat × Nat)) : State :=
  { flying b with jobs := [(1, { job2 with root := 0x1000000 })], mem := put ws tables2 }
theorem tables2_wf : tables2.wf = true := by decide +kernel
theorem pooled_wf (b : Body) (ws : List (Nat × Nat × Nat)) : (pooled b ws).mem.wf = true := (put_ok ws tables2_wf).1

/-- Its walks are those of the tables, whatever else memory holds. -/
theorem pooled_walk (b : Body) (ws : List (Nat × Nat × Nat)) (m : Memory) (h : ∀ a, a < base0 → m.read a = tables2.read a) (va : Word) :
    State.walkJob { pooled b ws with mem := m } 1 va = State.walkJob (pooled .ack []) 1 va := by
  have e : ∀ m : Memory, State.walkJob { pooled b ws with mem := m } 1 va = walkTables { (pooled b []).jobRules 1 with mem := m } (0x1000000) va := fun m => by
    unfold State.walkJob
    rw [if_pos (by simp [pooled, flying, withSp0, on, State.job, Table.get, Table.find, State.ownChip, State.reset])]
    congr 1
  show _ = State.walkJob { pooled b ws with mem := tables2 } 1 va
  rw [e, e]
  exact walk_tables2 ((pooled b []).jobRules 1) rfl (fun a h1 _ => h a h1) va

/-- What is asked of each piece, as one check. -/
def pieceOk (s : State) (l : List (Word × Nat)) : Bool :=
  l.all fun x => decide (s.walkJob 1 x.1 = some (page0 (x.1.toNat / 65536)) ∧ (page0 (x.1.toNat / 65536)).fa x.1 = at0 x.1 ∧ faSp (at0 x.1) = 0) &&
    let a := x.1.toNat; let n := x.2; l.all fun y => let b := y.1.toNat; (b == a && y.2 == n) || Nat.ble (a + n) b || Nat.ble (b + y.2) a
theorem pieces {b : Body} {ws : List (Nat × Nat × Nat)} {m : Msg} {l : List (Word × Nat)} (hj : m.job = 1) (hd : m.dst = 0) (h : pieceOk (pooled .ack []) l = true) :
    Pieces (pooled b ws) m at0 l := by
  simp only [pieceOk, List.all_eq_true, Bool.and_eq_true, Bool.or_eq_true, decide_eq_true_eq, beq_iff_eq, Nat.ble_eq] at h
  refine ⟨fun x hx => ?_, fun mem hm va => ?_, fun x hx y hy => ?_⟩
  · obtain ⟨⟨h1, h2, h3⟩, _⟩ := h x hx
    refine ⟨_, ?_, rfl, rfl, rfl, h2, ?_, by rw [hd]; exact h3, ?_, by simp [State.poisoned, pooled, flying, withSp0, on, State.reset]⟩
    · rw [hj]; exact (pooled_walk b ws _ (fun a ha => (put_ok ws tables2_wf).2 a ha) x.1).trans h1
    · simp [page0, base0]
    · simp [State.inCopyRegion, pooled, flying, withSp0, on, State.spindle, Table.get, h3, Table.find, sp0]
  · have below : ∀ a, a < base0 → (∀ x ∈ l, a < at0 x.1 ∨ at0 x.1 + x.2 ≤ a) := fun a ha x _ => .inl (by simp only [at0]; omega)
    have g := fun a ha => (hm a (below a ha)).trans ((put_ok ws tables2_wf).2 a ha)
    rw [hj]
    exact (pooled_walk b ws mem g va).trans (pooled_walk b ws _ (fun a ha => (put_ok ws tables2_wf).2 a ha) va).symm
  · rcases (h x hx).2 y hy with (g | g) | g
    · exact .inl (Prod.ext (BitVec.eq_of_toNat_eq g.1.symm) g.2.symm)
    · exact .inr (.inl (by simp only [at0]; omega))
    · exact .inr (.inr (by simp only [at0]; omega))

/-- A descriptor at VA 0xF000: two pixels, heads at 0xF100, the output at 0xF200. -/
def desc0 (pool pages layers : Nat) (moe : Bool) : LyrDesc :=
  { va := 0xF000, heads := 0xF100, pool := BitVec.ofNat 64 pool, out := 0xF200, w := 2, h := 1, pages := pages, layers := layers, rule := 0, ofmt := 0, moe := moe }
def descWord (d : LyrDesc) : Nat × Nat × Nat :=
  (0xF000, 64, 0xF100 + d.pool.toNat * 2 ^ 64 + 0xF200 * 2 ^ 128 + 2 * 2 ^ 192 + 2 ^ 208 + d.pages * 2 ^ 224 + d.layers * 2 ^ 240 + (if d.moe then 2 ^ 264 else 0))
def lyrBody (op a b : Nat) (frag : List Nat := []) : Body := .layer op 0xF000 (base0 + 0xF000) a b frag
/-- The heads of both pixels, two nodes that pixel 0's list may hold, and the first bitmap word. -/
def cells (h0 h1 map : Nat) : List (Nat × Nat × Nat) :=
  [(0xF100, 4, h0), (0xF104, 4, h1), (16 * 33, 16, 0x3F800000 + 34 * 2 ^ 96), (16 * 34, 16, 0x40000000 + 0xFFFFFF * 2 ^ 96), (0, 8, map)]
def noHead : Nat := 0xFFFFFF
def n33 : LyrNode := { ix := 33, depth := 0x3F800000, col := 0, next := 34, flags := 0 }
def n34 : LyrNode := { ix := 34, depth := 0x40000000, col := 0, next := 0xFFFFFF, flags := 0 }

theorem lyrArrives (op desc ft a b : Nat) (frag : List Nat) (ws : List (Nat × Nat × Nat)) :
    Arriving (pooled (.layer op desc ft a b frag) ws) (msg (.layer op desc ft a b frag)) :=
  ⟨⟨rfl, ⟨rfl, rfl, rfl, rfl⟩, ⟨.inr rfl, rfl, by show JobPhase.running ≠ _; decide⟩⟩, by rintro ⟨_, g⟩; exact absurd (show false = true from g) (by decide), rfl⟩
theorem layerCall (d : LyrDesc) (op a b : Nat) (frag : List Nat) (ws : List (Nat × Nat × Nat)) (hv : d.va = 0xF000)
    (h : (match lyrDesc 0xF000 ((pooled .ack ws).read (base0 + 0xF000) 64) with | .ok x => decide (x = d) | _ => false) = true) :
    LayerCall (pooled (lyrBody op a b frag) ws) (msg (lyrBody op a b frag)) at0 d op a b frag where
  arrives := lyrArrives _ _ _ _ _ _ _
  body := ⟨0xF000, _, rfl, hv, by show State.refuses (pooled .ack []) 0 1 (base0 + 0xF000) 64 2 = none; decide +kernel⟩
  desc := by
    rw [hv]; refine ⟨rfl, ?_⟩
    change (match lyrDesc 0xF000 ((pooled .ack ws).read (base0 + 0xF000) 64) with | .ok x => decide (x = d) | _ => false) = true at h
    show lyrDesc 0xF000 ((pooled .ack ws).read (base0 + 0xF000) 64) = .ok d
    generalize lyrDesc 0xF000 ((pooled .ack ws).read (base0 + 0xF000) 64) = e at h
    rcases e with e | e
    · cases h
    · rw [of_decide_eq_true h]
  form := pooled_wf _ _

/-- No bit of the first `n` bitmap words is set, so no node is free. -/
theorem noneFree {b : Body} {ws : List (Nat × Nat × Nat)} {d : LyrDesc} (h : ((List.range (64 * d.pages)).all fun w => (pooled .ack ws).read (at0 (d.mapVa w)) 8 == 0) = true)
    (y : Nat) : ¬ FreeNode (pooled b ws) d at0 y := by
  rintro ⟨h1, _, _, h4⟩
  rw [List.all_eq_true] at h
  have := beq_iff_eq.1 (h (y / 64) (List.mem_range.2 (by omega)))
  rw [bitSet, show (pooled b ws).read = (pooled .ack ws).read from rfl, this] at h4
  simp at h4
theorem listOf {b : Body} {ws : List (Nat × Nat × Nat)} {d : LyrDesc} {p : Nat} {l : List LyrNode} (h : ListIs (pooled .ack ws) d at0 p l) :
    ListIs (pooled b ws) d at0 p l := by
  obtain ⟨h1, h2, h3⟩ := h
  refine ⟨h1, h2, ?_⟩
  clear h1 h2
  induction l with
  | nil => trivial
  | cons x t ih => exact ⟨h3.1, ih h3.2⟩

theorem twoNodes {s : State} {d : LyrDesc} {p : Nat} (h : (2 ≤ d.layers ∧ s.read (at0 (d.headVa p)) 4 = 2 * 2 ^ 24 + 33 ∧ 1 ≤ d.pages) ∧
      s.read (at0 (d.nodeVa 33)) 16 = 0x3F800000 + 34 * 2 ^ 96 ∧ s.read (at0 (d.nodeVa 34)) 16 = 0x40000000 + 0xFFFFFF * 2 ^ 96) :
    ListIs s d at0 p [n33, n34] := by
  obtain ⟨⟨h1, h2, h3⟩, h4, h5⟩ := h
  exact ⟨h1, h2, ⟨by simpa [n33, n34, firstOf] using h4, by decide, by decide, by decide, by simp only [n33]; omega, by decide, by decide⟩,
    ⟨by simpa [n34, firstOf] using h5, by decide, by decide, by decide, by simp only [n34]; omega, by decide, by decide⟩, trivial⟩

theorem witness_Fins : let body := lyrBody 0 0 0 [0x3F800000 + 7 * 2 ^ 32]; let m := msg body
    (let d := desc0 0 1 2 false; let s := pooled body (descWord d :: cells noHead noHead (2 ^ 32)); let node : LyrNode := { ix := 32, depth := 0x3F800000, col := 7, next := 0, flags := 0 }
      LayerCall s m at0 d 0 0 0 [0x3F800000 + 7 * 2 ^ 32] ∧ ListIs s d at0 0 [] ∧ FreeNode s d at0 32 ∧ (∀ y, y < 32 → ¬ FreeNode s d at0 y) ∧
      Pieces s m at0 (lyrPieces d 0 1 [node] 0)) ∧
    (let d := desc0 0 1 2 false; let s := pooled body (descWord d :: cells (2 * 2 ^ 24 + 33) noHead (2 ^ 32)); let node : LyrNode := { ix := 32, depth := 0x3F800000, col := 7, next := 0, flags := 0 }
      LayerCall s m at0 d 0 0 0 [0x3F800000 + 7 * 2 ^ 32] ∧ ListIs s d at0 0 [n33, n34] ∧ [n33, n34].length = d.layers ∧ FreeNode s d at0 32 ∧
      Pieces s m at0 (lyrPieces d 0 1 [node, n33, n34] 0)) ∧
    (∀ moe, let d := desc0 0 1 2 moe; let ws := descWord d :: cells (2 * 2 ^ 24 + 33) noHead 0; let s := pooled body ws
      (LayerCall s m at0 d 0 0 0 [0x3F800000 + 7 * 2 ^ 32] ∧ ListIs s d at0 0 [n33, n34] ∧ (∀ y, ¬ FreeNode s d at0 y) ∧ Pieces s m at0 (lyrPieces d 0 1 [n33, n34] (64 * d.pages))) ∧
      (∀ f ∈ [0x3F800000, 0x7FC00000], let c := lyrBody 0 1 0 [f]
        LayerCall (pooled c ws) (msg c) at0 d 0 1 0 [f] ∧ ListIs (pooled c ws) d at0 1 [] ∧ Pieces (pooled c ws) (msg c) at0 (lyrPieces d 1 1 [] (64 * d.pages)))) ∧
    (fp32.decode 0x3F800000).isNaN = false ∧ (fp32.decode 0x7FC00000).isNaN = true := by
  refine ⟨⟨layerCall _ _ _ _ _ _ rfl (by decide +kernel), listOf ⟨by decide, by decide +kernel, trivial⟩, ⟨by decide, by decide, by decide, ?_⟩, fun y hy h => ?_, pieces rfl rfl (by decide +kernel)⟩,
    ⟨layerCall _ _ _ _ _ _ rfl (by decide +kernel), listOf (twoNodes (by decide +kernel)), rfl, ⟨by decide, by decide, by decide, ?_⟩, pieces rfl rfl (by decide +kernel)⟩,
    fun moe => ?_, by decide +kernel, by decide +kernel⟩
  · show bitSet (pooled .ack _) _ _ _ = true; decide +kernel
  · have := h.2.1; omega
  · show bitSet (pooled .ack _) _ _ _ = true; decide +kernel
  · have hd := fun a b f => layerCall (desc0 0 1 2 moe) 0 a b f (descWord (desc0 0 1 2 moe) :: cells (2 * 2 ^ 24 + 33) noHead 0) rfl (by cases moe <;> decide +kernel)
    exact ⟨⟨hd _ _ _, listOf (twoNodes (by cases moe <;> decide +kernel)), noneFree (by cases moe <;> decide +kernel),
        pieces rfl rfl (show pieceOk _ (lyrPieces (desc0 0 1 2 false) 0 1 [n33, n34] 64) = true by decide +kernel)⟩,
      fun f _ => ⟨hd _ _ _, listOf ⟨by simp, by cases moe <;> decide +kernel, trivial⟩,
        pieces rfl rfl (show pieceOk _ (lyrPieces (desc0 0 1 2 false) 1 1 [] 64) = true by decide +kernel)⟩⟩

theorem witness_Spans : ∀ res : Bool, let body := lyrBody (if res then 1 else 2) 0 2; let m := msg body; let d := desc0 0 1 2 false
    let s := pooled body (descWord d :: cells (2 * 2 ^ 24 + 33) noHead 0); let l := fun p => if p = 0 then [n33, n34] else []
    let ps := [0, 1]; let ls := lyrPieces d 0 2 (ps.flatMap l) 0 ++ if res then ps.map fun p => (addN d.out (d.outSize * p), d.outSize) else []
    LayerCall s m at0 d (if res then 1 else 2) 0 2 [] ∧ (∀ p ∈ ps, ListIs s d at0 p (l p)) ∧ Pieces s m at0 ls ∧
    (∀ n ∈ [0, 3], let b := lyrBody (if res then 1 else 2) 0 n
      LayerCall (pooled b (descWord d :: cells noHead noHead 0)) (msg b) at0 d (if res then 1 else 2) 0 n [] ∧
      Pieces (pooled b (descWord d :: cells noHead noHead 0)) (msg b) at0 [(d.va, 64)]) := by
  intro res
  refine ⟨layerCall _ _ _ _ _ _ rfl (by decide +kernel), fun p hp => ?_, pieces rfl rfl (by cases res <;> decide +kernel), fun n _ => ⟨layerCall _ _ _ _ _ _ rfl (by decide +kernel), pieces rfl rfl (by decide +kernel)⟩⟩
  simp only [List.mem_cons, List.not_mem_nil, or_false] at hp
  rcases hp with rfl | rfl
  · exact listOf (twoNodes (by decide +kernel))
  · exact listOf ⟨by decide, by decide +kernel, trivial⟩

theorem witness_Pools : let body := lyrBody 4 0 0; let m := msg body
    (let d := desc0 0 1 2 false; let s := pooled body (descWord d :: cells noHead noHead (2 ^ 32))
      LayerCall s m at0 d 4 0 0 [] ∧ FreeNode s d at0 32 ∧ Pieces s m at0 (lyrPieces d 0 0 [] 1)) ∧
    (let d := desc0 0x10000 1 2 false; let s := pooled body (descWord d :: cells noHead noHead 0)
      LayerCall s m at0 d 4 0 0 [] ∧ (∀ y, ¬ FreeNode s d at0 y) ∧ Pieces s m at0 (lyrPieces d 0 0 [] (64 * d.pages)) ∧ s.walkJob m.job (addN d.pool (65536 * d.pages)) = none) ∧
    (let d := desc0 0 1 2 false; let s := pooled body (descWord d :: cells noHead noHead 0)
      LayerCall s m at0 d 4 0 0 [] ∧ (∀ y, ¬ FreeNode s d at0 y) ∧ d.pages < 4096 ∧ Pieces s m at0 ((addN d.pool (65536 * d.pages), 512) :: lyrPieces d 0 0 [] (64 * d.pages))) := by
  refine ⟨⟨layerCall _ _ _ _ _ _ rfl (by decide +kernel), ⟨by decide, by decide, by decide, ?_⟩, pieces rfl rfl (by decide +kernel)⟩,
    ⟨layerCall _ _ _ _ _ _ rfl (by decide +kernel), noneFree (by decide +kernel), pieces rfl rfl (by decide +kernel), ?_⟩,
    ⟨layerCall _ _ _ _ _ _ rfl (by decide +kernel), noneFree (by decide +kernel), by decide, pieces rfl rfl (by decide +kernel)⟩⟩
  · show bitSet (pooled .ack _) _ _ _ = true; decide +kernel
  · show State.walkJob (pooled .ack _) 1 _ = none; decide +kernel

theorem witness_LayerChecks : (let b := lyrBody 3 0 0; let d := desc0 0 1 2 false; let s := pooled b (descWord d :: cells (2 * 2 ^ 24 + 33) noHead 0)
      LayerCall s (msg b) at0 d 3 0 0 [] ∧ ListIs s d at0 0 [n33, n34] ∧ Pieces s (msg b) at0 (lyrPieces d 0 1 [n33, n34] 0)) ∧
    (∀ op ∈ [0, 3], let b := lyrBody op 2 0; let c := lyrBody op 0 0; let d := desc0 0 1 2 false; let ws := descWord d :: cells (3 * 2 ^ 24 + 33) noHead 0
      LayerCall (pooled b ws) (msg b) at0 d op 2 0 [] ∧ Pieces (pooled b ws) (msg b) at0 [(d.va, 64)] ∧ d.w * d.h ≤ 2 ∧
      LayerCall (pooled c ws) (msg c) at0 d op 0 0 [] ∧ Pieces (pooled c ws) (msg c) at0 (lyrPieces d 0 1 [] 0) ∧ d.layers < (pooled c ws).read (at0 (d.headVa 0)) 4 / 2 ^ 24) ∧
    (let b := Body.layer 3 0x20000 (base0 + 0xF000) 0 0 []; Arriving (pooled b []) (msg b) ∧ (pooled b []).refuses 0 1 (base0 + 0xF000) 64 2 = none ∧ (pooled b []).walkJob 1 0x20000 = none) ∧
    (let b := lyrBody 3 0 0; let s := pooled b [descWord (desc0 0 1 9 false)]
      Arriving s (msg b) ∧ Pieces s (msg b) at0 [(0xF000, 64)] ∧ (match lyrDesc 0xF000 (s.read (at0 0xF000) 64) with | .error (.trap c a) => c == cILLEGAL && a == 0xF000 | _ => false) = true ∧
      (match ({ job := 1, home := 0, who := 1 } : LyrEnv).perform s 3 0xF000 0 0 [] with | .error (.trap c a) => c == cILLEGAL && a == 0xF000 | _ => false) = true) := by
  refine ⟨⟨layerCall _ _ _ _ _ _ rfl (by decide +kernel), listOf (twoNodes (by decide +kernel)), pieces rfl rfl (by decide +kernel)⟩,
    fun op _ => ⟨layerCall _ _ _ _ _ _ rfl (by decide +kernel), pieces rfl rfl (by decide +kernel), by decide, layerCall _ _ _ _ _ _ rfl (by decide +kernel),
      pieces rfl rfl (by decide +kernel), ?_⟩,
    ⟨lyrArrives _ _ _ _ _ _ _, by decide +kernel, by decide +kernel⟩, ⟨lyrArrives _ _ _ _ _ _ _, pieces rfl rfl (by decide +kernel), ?_, ?_⟩⟩
  · show _ < (pooled .ack _).read _ 4 / 2 ^ 24; decide +kernel
  · decide +kernel
  · decide +kernel

/-! ### Further hypotheses of single clauses -/

theorem one32 : fp32.decode 0x3F800000 = .fin false 8388608 (-23) := by decide
theorem minusOne32 : fp32.decode 0xBF800000 = .fin true 8388608 (-23) := by decide
/-- FP32 operands for the clauses on quotients, roots, zero sums, the six functions and the float atomics (R78, R132, R238). -/
theorem witness_FloatCases : cpDEN 0 = 0 ∧ cpZMUL 0 = false ∧ cpRCPX 0 = false ∧ (2 : Rnd) < 4 ∧ operand fp32 0 0x3F800000 = fp32.decode 0x3F800000 ∧
    valueOf (fp32.decode 0x3F800000) = 1 ∧ valueOf (fp32.decode 0xBF800000) = -1 ∧ valueOf (fp32.decode 0) = 0 ∧ (∀ x ∈ [0x3F800000, 0xBF800000, 0], (fp32.decode x).isFin = true) ∧
    fp32.decode 0x7F800000 = .inf false ∧ fp32.decode 0xFF800000 = .inf true ∧ (fp32.decode 0x7FC00000).isNaN = true ∧ (1 : ℚ) = (2 : ℚ) ^ (0 : Int) ∧
    4 * (1 : ℚ) = (4 : Int) ∧ fp32.withSign true 0 < 2 ^ fp32.bits ∧ Below (fp32.decode 0xFF800000) (fp32.decode 0) :=
  ⟨by decide, by decide, by decide, by decide, by simp [operand, cpDEN, bitsOf], by rw [one32]; norm_num [valueOf], by rw [minusOne32]; norm_num [valueOf],
    by norm_num [valueOf, Fmt.decode, fp32], by decide, by decide, by decide, by decide, by norm_num, by norm_num, by decide, rfl⟩
/-- R246: tags of VCVT, with a subnormal result that DEN = 01 flushes, and operands that are infinities and NaNs. -/
theorem witness_Conversions : (∀ t ∈ [1, 4, 5, 7, 9, 10], 1 ≤ t ∧ t ≤ 10 ∧ 1 < 2 ^ tagWidth t) ∧ fp16.isSub (fp16.round 0 (.fin false 1 (-20))).1 = true ∧ cpDEN 4 = 1 ∧
    cpDEN 0 = 0 ∧ (tagFmt 7).decode 0xFF800000 = .inf true ∧ ((tagFmt 5).decode 0x7E00).isNaN = true ∧ ((tagFmt 9).decode 0x38).isFin = true ∧ (255 : Nat) < 2 ^ tagWidth 1 := by decide
/-- R214: a block with a number, a smaller one, an infinity and a NaN. -/
theorem witness_TxbBlocks : let x := [Fl.fin true 3 0, .fin false 1 (-6), .inf true, .nan false]; (∃ v ∈ x, v.isFin = false) ∧ |valueOf (.fin true 3 0)| = 3 ∧
    |valueOf (.fin false 1 (-6))| = 1 / 64 ∧ (∀ v ∈ x, v.isFin = true → |valueOf v| ≤ 3) ∧ x[3]? = some (.nan false) ∧ ¬ ∃ v ∈ x.take 2, v.isFin = false := by
  refine ⟨by decide, by norm_num [valueOf], by norm_num [valueOf], ?_, rfl, by decide⟩
  simp only [List.mem_cons, List.not_mem_nil, or_false]
  rintro v (rfl | rfl | rfl | rfl) <;> norm_num [valueOf, Fl.isFin]

/-- The merge of group 3 has begun with these entries in the skein of spindle 0. -/
def mergingOf (l : List SkeinEntry) : State := withJob (withSp0 (run []) fun p => { p with skein := l }) fun j => { j with merging := [3] }
def dueEntry (op n : Nat) : SkeinEntry := { fa := own8, op := op, sz := 3, v := 5, key := 1, seqn := n, plyg := 3, phase := 0, anyph := false, due := true }
theorem witness_DueEntries : ∀ op ∈ [0, 2, 3, 6, 7], ∀ l ∈ [[dueEntry op 0], [dueEntry op 0, dueEntry 1 1], [dueEntry 1 1, dueEntry op 0]], let s := mergingOf l
    (∃ jb, Table.find s.jobs 1 = some jb ∧ 3 ∈ jb.merging ∧ jb.rect.spindles = [0, 1] ∧ jb.rect.spindles.count 0 = 1) ∧ (s.spindle 1).skein = [] ∧
    (s.spindle 0).skein = l ∧ (s.spindle 0).fenced = false ∧ s.poisoned own8 8 = false ∧ s.mem.wf = true ∧ (dueEntry op 0).seqn < (dueEntry 1 1).seqn := by
  intro op _ l _
  refine ⟨⟨_, rfl, by decide, by decide, by decide⟩, rfl, rfl, rfl, by simp [State.poisoned, mergingOf, withJob, withSp0, run, on, State.reset], rfl, show 0 < 1 by decide⟩
theorem witness_NotMerging : (∃ jb, Table.find (barrier []).jobs 1 = some jb ∧ 3 ∉ jb.merging) ∧ ∃ jb, Table.find plying.jobs 1 = some jb ∧ 3 ∉ jb.merging :=
  ⟨⟨_, rfl, by decide⟩, _, rfl, by decide⟩

/-- Two lanes of a vector access: one is done, the other one is left; nine cycles after the unit began. -/
def half (u : Torn) : State := on 1 { regs [(2, 8), (9, 3)] (vecs 4) with torn := some u, lastIssue := 90 }
theorem witness_TornAccesses : AtOnce vmem ∧
    (let u : Torn := { loads := [(1, own8 + 8, 8)], got := [(0, 7)] }; (half u).me.torn = some u ∧ (half u).me.lastIssue + 7 ≤ (half u).now ∧
      (u.got.map (·.1) ++ u.loads.map (·.1)).Perm (activeLanes (half u) 4 9) ∧ ∀ x ∈ u.loads, (half u).poisoned x.2.1 x.2.2 = false) ∧
    (let u : Torn := { stores := [(own8, [(0, 5, 0), (1, 0, 0xF0)]), (own8 + 8, [(7, 1, 0)])] }; (half u).me.torn = some u ∧ u.stores.Pairwise (fun e f => e.1 ≠ f.1) ∧
      ∀ e ∈ u.stores, e.1 % 8 = 0 ∧ (half u).poison.contains e.1 = false ∧ e.2.Pairwise (fun x y => x.1 ≠ y.1) ∧ ∀ x ∈ e.2, x.1 < 8) :=
  ⟨⟨by decide, by decide⟩, ⟨by decide, by decide, by decide, by decide⟩, by decide, by decide, by decide⟩
/-- R165: the words that an access has left are performed on the cycle on which its results are due, beside what it did before. -/
theorem test_torn_load : after (.vld 6 2 4 9 0) (half { loads := [(1, own8 + 8, 8)], got := [(0, 7)] }) (fun t => (lane 6 0 t, lane 6 1 t, t.me.torn, t.me.pc)) =
    some (7, 0, none, 0x1004) := by decide +kernel
theorem test_torn_store : after (.vst 1 2 9 0) (half { stores := [(own8, [(0, 5, 0)])] }) (fun t => (t.read own8 8, t.read (own8 + 8) 8, t.me.torn)) =
    some (5, 0, none) := by decide +kernel

theorem witness_ChannelCases : (let s := chanSt { reader := 17, writer := 1 } [] 1 { user 1 with rels := [{ tok := 1, word := 0 }] }
      s.myJob.chan 5 = some { reader := 17, writer := 1 } ∧ s.me.thidx = 1 ∧ s.me.rels ≠ []) ∧
    (let s := chanSt { reader := 17, writer := 1 } []; s.threadSpindle s.myJobNo 17 ≠ s.here ∧ s.me.unit.rel = none) ∧
    (let c : Chan := { reader := 0, writer := 17 }; let s := chanSt c [(3, 0x100000001)] 0 (user 0)
      keyCtx s.cur = 0 ∧ s.myJob.chan 5 = some c ∧ c.credit = 8 ∧ s.endpointWaits s.myJobNo 5 c = false ∧ 1 ≠ s.here ∧ (s.spindle 1).fenced = false ∧
      s.threadSpindle s.myJobNo 17 = 1 ∧ s.myJob.indexOk 1 = true ∧ (s.me.reg 3).toNat < 2 ^ 50) := by decide
/-- R140: RECVT's words, and then their number over one of them. -/
theorem test_recvt : after (.recvt 8 2 9) (chanSt { reader := 1, writer := 17, buf := [[7, 8, 9]] } []) (fun t => ((reg 8 t, reg 9 t, reg 10 t), t.msgs.map (·.body))) =
    some ((7, 3, 9), [.credit 5]) := by decide

/-- R136: three copies, of which the publisher of one is fenced. -/
def threeCopies : List CopyEntry := [⟨0, 128, 1, faOf 1 0, 1, false, false⟩, ⟨128, 64, 1, faOf 1 256, 1, false, true⟩, ⟨192, 64, 1, faOf 1 512, 1, false, false⟩]
theorem witness_Drains : (let l := ((scratch (user 1) threeCopies).spindle (scratch (user 1) threeCopies).here).copies; l = threeCopies ∧ (l.filter fun e => !e.pfenced) ≠ []) ∧
    (let s := scratch (user 1) [⟨128, 64, 1, faOf 1 256, 1, false, true⟩]; (s.spindle s.here).copies ≠ [] ∧ ((s.spindle s.here).copies.filter fun e => !e.pfenced) = [] ∧ s.Handled) :=
  ⟨by decide, by decide, by decide, ⟨by decide, .inl (by decide)⟩⟩
theorem test_drain_asks_all : after .drain (scratch (user 1) threeCopies) (fun t => (t.me.park, t.msgs.map (·.body))) =
    some (2, [.drainReq (faOf 1 0) 0, .drainReq (faOf 1 512) 192]) := by decide

/-- A request of the own bank that was answered busy. -/
def retried (x : Context) (op : Nat) (f : Spindle → Spindle := id) : State := flying (.nackBusy own8 8 op 5) x 0 f
theorem witness_LocalRetries : (let b := Body.nackBusy own8 8 0 0; let s := flying b { user 1 with st := .parked, tok := 9 }; (msg b).tok ≠ 0 ∧ (msg b).src ≠ (msg b).dst ∧ s.awaits (msg b) = true) ∧
    (∀ op ∈ [0, 1], let s := retried (waits 1 (.load 3 8 false)) op; let m := msg (.nackBusy own8 8 op 5) 0
      (s.msgs.find? fun x => x.id == m.id) = some m ∧ m.notBefore ≤ s.now ∧ m.logged = false ∧ s.logFirst m = true ∧ s.frontHolds m = false ∧ m.tok ≠ 0 ∧ m.src = m.dst ∧
      s.awaits m = true ∧ s.refuses 0 0 own8 8 (syncKind op) = none ∧ s.inCopyRegion own8 8 = false ∧ s.poisoned own8 8 = false ∧ s.full own8 = false ∧
      s.waitersIn own8 < waiterSlots ∧ ({ s with fe := [own8] } : State).full own8 = true) ∧
    (let s := retried (waits 1 (.load 3 8 false)) 0 (fun p => { p with fenced := true });
      s.refuses 0 0 own8 8 (syncKind 0) = some cFENCED ∧ (s.ctx 1).thidx ≠ compThidx ∧ s.takesRecord (s.jobNoAt 0) (s.spindle 0).primary 1 = true) := by decide
theorem test_local_retry_waits : after (.waiterRetry 5) (retried (waits 1 (.load 3 8 false)) 0) (fun t => (t.me.st, (t.spindle 0).waiters.map fun w => (w.local_, w.tok))) =
    some (.parked, [(true, 9)]) := by decide

/-- A command of engine 0 whose last word for this package is to be acknowledged; its context waits in CPGO. -/
def emptying : State :=
  { flying .ack { user 1 with st := .parked, park := 2, kont := .emptied 3 1, tok := 9 } with engines := [(0, { cmds := [cmd fun c => { c with emptying := true, acksLeft := 1, tok := 9 }] })] }
theorem witness_AnswerCases : (∀ q, ∀ f : Bool, let s := flying .ack (waits 2 (.drain q f)); Arriving s (msg .ack) ∧ s.relOf (msg .ack) = none ∧ s.awaits (msg .ack) = true ∧
      s.emptier (msg .ack).tok = none ∧ (s.ctx 1).kont = .drain q f ∧ HandledAt s 1) ∧
    (∃ x, Arriving emptying (msg .ack) ∧ emptying.emptier (msg .ack).tok = some x ∧ (emptying.engine x.engine).cmds.find? (fun y => y.id == x.id) = some x ∧ x.acksLeft = 1 ∧
      (emptying.job x.job).phase ≠ .out ∧ (emptying.ctx x.key).st = .parked ∧ (emptying.ctx x.key).kont = .emptied 3 x.id) ∧
    (let b := Body.nack cFENCED 8; let s := flying b (waits 2 (.commit 1)); Arriving s (msg b) ∧ s.relOf (msg b) = none ∧ s.awaits (msg b) = true ∧ s.emptier (msg b).tok = none ∧
      (s.ctx 1).kont = .commit 1) :=
  ⟨fun q f => ⟨arrives _ _ _ rfl rfl rfl, rfl, rfl, rfl, rfl, handledAt1 _ _ rfl⟩,
    ⟨cmd fun c => { c with emptying := true, acksLeft := 1, tok := 9 }, ⟨⟨rfl, ⟨rfl, rfl, rfl, rfl⟩, .inr rfl, rfl, fun h => (show JobPhase.running ≠ .resuming by decide) h⟩,
      by rintro ⟨_, g⟩; exact absurd (show (false : Bool) = true from g) (by decide), rfl⟩, rfl, rfl, rfl, by decide, rfl, rfl⟩,
    arrives _ _ _ rfl rfl rfl, rfl, rfl, rfl, rfl⟩
theorem test_drain_counts : after (.replyArrival 5) (flying .ack (waits 2 (.drain 2 true))) (fun t => (t.me.st, t.me.kont)) = some (.parked, .drain 1 true) ∧
    after (.replyArrival 5) (flying .ack (waits 2 (.drain 1 true))) (fun t => t.me.frz.map (·.cause)) = some (some cFENCED) := by decide

/-- A context that waits for a REL operation, at a cycle. -/
def relWaits (n : Nat) (l : List Msg := []) : State :=
  { on 1 { relOut none with st := .parked, park := 1, kont := .reissue, waitToks := [9] } with now := n, msgs := l }
theorem witness_LostRequests : (let x := waits 1 (.load 3 4 true); x.waitToks = [] ∧ (∀ o ∈ x.rels, o.tok ≠ x.tok) ∧ (on 1 x).onWay x.tok = false ∧
      (flying .ack x).onWay x.tok = true) ∧
    (let s := relWaits (2 ^ 30); let x := s.ctx 1; ∃ o, x.bounded = false ∧ x.rels = [o] ∧ x.waitToks = [o.tok] ∧ o.sentAt + 2 ^ 30 ≤ s.now ∧ s.onWay o.tok = false ∧
      (relWaits (2 ^ 30) [msg .ack]).onWay o.tok = true ∧ (relWaits 5).now < o.sentAt + 2 ^ 30 ∧ x.st = .parked ∧ x.park = 1 ∧ HandledAt s 1) :=
  ⟨by decide, ⟨_, rfl, rfl, rfl, by decide, by decide, by decide, by decide, rfl, rfl, by decide, .inl (by decide)⟩⟩
theorem test_rel_times_out : after (.requestTimeout 0 1) (relWaits (2 ^ 30)) (fun t => (t.me.frz.map (·.cause), t.me.rels)) = some (some cTIMEOUT, []) ∧
    after (.requestTimeout 0 1) (relWaits (2 ^ 30) [msg .ack]) (fun t => t.me.st) = some .parked := by decide
theorem witness_Counts : (on 1 (user 1)).counts 1 = true ∧ (withJob (run []) fun j => { j with phase := .resuming }).counts 1 = false := by decide

/-- R152: the publisher's job is switched out, its table saved. -/
theorem witness_SavedPublishers : let s := { flying (.subRemove 0 (faOf 1 0)) with jobs := [(1, { job2 with saved := [{ sp := 0, ctxs := [], state := { pubs := [pub] }, scratch := [], scratchFe := [], scratchPoison := [] }] })] }
    Arriving s (msg (.subRemove 0 (faOf 1 0))) ∧ ∃ j jb, Table.find s.jobs j = some jb ∧ ∃ x ∈ jb.saved, x.sp = (msg (.subRemove 0 (faOf 1 0))).dst ∧
      ∃ e ∈ x.state.pubs, e.base = 0 ∧ e.copyBase = faOf 1 0 :=
  ⟨⟨⟨rfl, ⟨rfl, rfl, rfl, rfl⟩, .inr rfl, rfl, fun h => (show JobPhase.running ≠ .resuming by decide) h⟩,
      by rintro ⟨_, g⟩; exact absurd (show (false : Bool) = true from g) (by decide), rfl⟩, 1, _, rfl, _, .head _, rfl, _, .head _, rfl, rfl⟩

/-- R384: corners within the mesh and beyond its last row; a launch that is switched out while another one holds its spindles. -/
theorem witness_CornersAndSaved : Corners corners01 ⟨0, 0, 2, 1⟩ ∧ Corners corner2 ⟨2, 0, 1, 1⟩ ∧ Corners (2 ^ 7 * 95 + 2 ^ 21 * 100) ⟨0, 95, 1, 6⟩ ∧
    (let s := withJob (ready {}) fun j => { j with phase := .out }; contOk (s.job 1).rect (!(s.job 1).trees.isEmpty) (s.job 1).conts 0 ⟨0, 95, 1, 6⟩ = false) ∧
    (⟨2, 0, 1, 1⟩ : Rect).y0 + 1 ≤ 96 ∧
    (let v : SavedSpindle := { sp := 0, ctxs := [], state := { halted := true }, scratch := [], scratchFe := [], scratchPoison := [] }
     let s := command 9 1 0 0 0 fun s => { withJob s fun j => { j with phase := .out, stopped := true, saved := [v] } with spindles := [(0, { job := some 2, halted := true })] };
     s.jobOf 1 = some 1 ∧ (s.spindle 0).job ≠ some 1 ∧ v ∈ (s.job 1).saved) :=
  ⟨⟨0, 0, 1, 0, by decide⟩, ⟨2, 0, 2, 0, by decide⟩, ⟨0, 95, 0, 100, by decide⟩, by decide, by decide, by decide, by decide, .head _⟩
/-- R333: GO lets the saved spindles of a launch go on, and none that another launch holds. -/
theorem test_go_saved : (let v : SavedSpindle := { sp := 0, ctxs := [], state := { halted := true }, scratch := [], scratchFe := [], scratchPoison := [] }
    after .go (command 9 1 0 0 0 fun s => { withJob s fun j => { j with phase := .out, stopped := true, saved := [v] } with spindles := [(0, { job := some 2, halted := true })] })
      fun t => ((t.spindle 0).halted, (t.job 1).saved.map fun x => x.state.halted)) = some (true, [false]) := by decide +kernel
theorem test_contset_outside : after .contset (command 6 1 0 (2 ^ 7 * 95 + 2 ^ 21 * 100) 0 fun s => withJob s fun j => { j with phase := .out })
    (fun t => t.trebex.mresp.toNat / 2 ^ 56) = some 2 := by decide +kernel

/-! ### What the statements tell besides: RCPX, DEN and ZMUL, replay, block registers, forks, the end of an unravelling, copies at issue -/

theorem three32 : fp32.decode 0x40400000 = .fin false 12582912 (-22) := by decide
theorem small16 : fp16.decode 1 = .fin false 1 (-24) := by decide
/-- R78: a subnormal operand and a subnormal result under DEN = 01, a zero factor under ZMUL. -/
theorem witness_Flushing : cpDEN 0x14 = 1 ∧ cpZMUL 0x14 = true ∧ cpDEN 0 = 0 ∧ cpZMUL 0 = false ∧ cpRCPX 0 = false ∧ cpNANMM 0 = cpNANMM 0x14 ∧
    (operand fp16 0x14 0).isFin = true ∧ valueOf (operand fp16 0x14 0) = 0 ∧ operand fp16 0x14 1 = .zero false ∧ operand fp16 0x14 1 ≠ fp16.decode 1 ∧
    (let d := fp16.decode (fpArith .mul fp16 0 0 0x0400 0x1400 0).bits; d = .fin false 1 (-24) ∧ valueOf d ≠ 0 ∧ |valueOf d| < (2 : ℚ) ^ fp16.emin) := by
  have h : |valueOf (.fin false 1 (-24))| < (2 : ℚ) ^ fp16.emin ∧ valueOf (.fin false 1 (-24)) ≠ 0 := by
    rw [show fp16.emin = -14 by decide]; norm_num [valueOf]
  have z : operand fp16 0x14 1 = .zero false := by unfold operand; rw [small16]; exact if_pos ⟨by decide, rfl, h.2, h.1⟩
  have k : fp16.decode (fpArith .mul fp16 0 0 0x0400 0x1400 0).bits = .fin false 1 (-24) := by decide +kernel
  have o : operand fp16 0x14 0 = .fin false 0 (-24) := by unfold operand; rw [show fp16.decode 0 = .fin false 0 (-24) by decide]; simp [valueOf]
  refine ⟨by decide, by decide, by decide, by decide, by decide, by decide, by rw [o]; rfl, by rw [o]; simp [valueOf], z, ?_, k, ?_, ?_⟩
  · rw [z, small16]; decide
  · rw [k]; exact h.2
  · rw [k]; exact h.1
/-- R227, R228: three has the significand 1 + 2^22/2^23 and the exponent 1. -/
theorem witness_Legacy : cpRCPX 0x80 = true ∧ operand fp32 0x80 0x40400000 = .fin false 12582912 (-22) ∧ (4194304 : Nat) < 2 ^ 23 ∧
    |valueOf (.fin false 12582912 (-22))| = (1 + ((4194304 : Nat) : ℚ) / 2 ^ 23) * 2 ^ (1 : Int) ∧ (2 : ℚ) ^ (-126 : Int) ≤ |valueOf (.fin false 12582912 (-22))| ∧
    operand fp32 0x80 0x7FC00000 = .nan false ∧ operand fp32 0x80 0xFF800000 = .inf true ∧ operand fp32 0x80 0x7F800000 = .inf false ∧
    operand fp32 0x80 0xBF800000 = .fin true 8388608 (-23) ∧ valueOf (.fin true 8388608 (-23)) ≤ -(2 : ℚ) ^ (-126 : Int) := by
  have e : ∀ x, operand fp32 0x80 x = fp32.decode x := fun x => by simp [operand, cpDEN, bitsOf]
  refine ⟨by decide, by rw [e]; decide, by decide, ?_, ?_, by rw [e]; decide, by rw [e]; decide, by rw [e]; decide, by rw [e]; decide, ?_⟩ <;> norm_num [valueOf]
/-- R228's worked example; R227 and R228 on zeros and on a negative number. -/
theorem test_rcp_legacy : (fpFun .rcp 0x80 0 0x40400000).bits = 0x3EAAAAAB ∧ (fpFun .rsq 0x80 0 0x80000000) = { bits := 0xFF800000, flags := flDZ, events := evInf } ∧
    (fpFun .rsq 0x80 0 0xBF800000).flags = flNV := by decide +kernel
/-- R234, R252: sixty-four lanes of 200 saturate at 255 in the first node, and set SAT. -/
theorem test_vreda_saturates : after (.vreda 4 1 3 0 0) (on 1 (vecs 1 (BitVec.ofNat 512 (200 * ((2 ^ 512 - 1) / 255))))) (fun t => ((t.me.vreg 4).toNat, t.me.fstat.toNat)) =
    some (255, flSAT) := by decide +kernel

/-- R163: the store of spindle 1's context 1 to a word is the second one recorded there, or the first. -/
def replaying (second : Bool) : State :=
  let e := fun i => ({ src := i, ctx := 1, home := 0, lcl := faLocal own8, phase := 0 } : TraceEntry)
  { withJob (flying (.write own8 8 5 0)) (fun j => { j with replay := true, repeat_ := true }) with
    spindles := [(0, { sp0 with replay := if second then [e 0, e 1] else [e 1, e 0] }), (1, { job := some 1 })]
    ctxs := [(1, user 1), (17, { user 17 with rels := [{ tok := 9, word := own8 }] }), (31, { st := .ready, handler := true, supv := true, thidx := 31 })] }
theorem witness_Replays : let m := msg (.write own8 8 5 0)
    (let s := replaying true; (s.msgs.find? fun x => x.id == m.id) = some m ∧ s.replayHeld m = true ∧ m.early = false ∧ s.headOfFlow m = true ∧ s.frontHolds m = false ∧
      m.notBefore = 0 ∧ m.logged = false ∧ m.port = none ∧ m.postFront = false ∧ (s.job m.job).phase ≠ .resuming ∧ (s.spindle 0).fenced = false ∧
      (s.ctx m.asker).st = .ready ∧ (s.ctx m.asker).again = false ∧ (s.ctx m.asker).rels.any (fun o => o.tok == m.tok) = true) ∧
    (replaying false).replayHeld m = false := by decide +kernel
/-- Ahead of its turn it waits and its context parks; in its turn it is performed. -/
theorem test_replay_waits : after (.remoteWriteRequest 5) (replaying true) (fun t => ((t.ctx 17).st, (t.ctx 17).park, t.read own8 8, t.msgs.map (·.early))) =
      some (.parked, 2, 3, [true]) ∧
    after (.remoteWriteRequest 5) (replaying false) (fun t => ((t.ctx 17).st, t.read own8 8)) = some (.ready, 5) := by decide +kernel

/-- Of two stores of one context to the word that wait, the later one waits for the earlier. -/
theorem test_replay_order : let m := fun (i v : Nat) => { msg (.write own8 8 v 0) with early := true, id := i }
    let s := { replaying false with msgs := [m 5 5, m 6 9] }
    after (.remoteWriteRequest 6) s (fun t => t.read own8 8) = some 3 ∧ after (.remoteWriteRequest 5) s (fun t => t.read own8 8) = some 5 := by decide +kernel

/-- R232, R242: v1 is a block register of 4-bit elements, of which the first four are active. -/
theorem witness_BlockStores : let s := on 1 (regs ((9, 1) :: mregs) ((vecs 12).setV 2 0 11 0)); s.me.vtag 1 = 12 ∧ s.me.vtag 2 = 11 ∧ s.me.torn = none ∧ s.mem.wf = true ∧
    activeLanes s 12 9 = [0, 1, 2, 3] ∧ (∀ j ∈ [0, 1, 2, 3], OwnBytes s needW (s.me.reg 2 + BitVec.ofNat 64 (64 * (0 : BitVec 4).toNat) + BitVec.ofNat 64 (j / 2)) (own8 + j / 2) ∧
      s.poisoned (own8 + j / 2) 1 = false ∧ s.inCopyRegion (own8 + j / 2) 1 = false) ∧ activeLanes s 11 9 = [0, 1] := by
  refine ⟨by decide, by decide, by decide, by decide, by decide +kernel, fun j h => ?_, by decide +kernel⟩
  simp only [List.mem_cons, List.not_mem_nil, or_false] at h
  rcases h with rfl | rfl | rfl | rfl <;> exact ⟨⟨page 0 true, by decide, by decide, by decide⟩, by decide, by decide⟩
theorem witness_BlockLoads : let u : Torn := { loads := [(8, own8 + 128, 4)], got := (List.range 8).map fun j => (j, j) }
    (half u).me.torn = some u ∧ (half u).me.lastIssue + 7 ≤ (half u).now ∧ (u.got.map (·.1) ++ u.loads.map (·.1)).Perm (List.range 9) ∧
    (∀ x ∈ u.loads, (half u).poisoned x.2.1 x.2.2 = false) ∧ vmem.me.torn = none := by decide
/-- The scale bytes that a VLDB has left come last; two 4-bit elements share a byte, and inactive ones leave theirs. -/
theorem test_block_forms : after (.vldb 6 2 3 0) (half { loads := [(8, own8 + 128, 4)], got := (List.range 8).map fun j => (j, j) })
      (fun t => (laneOf (t.me.vreg 6).toNat 64 7, t.me.vtag 6, t.me.pc)) = some (7, 11, 0x1004) ∧
    after (.vst 1 2 9 0) { on 1 { regs ((9, 1) :: mregs) (vecs 12 0x5B) with lastIssue := 90 } with mem := [(own8, 0xCC), (own8 + 1, 1), (own8 + 2, 7)] } (fun t => t.read own8 8) =
    some 0x7005B := by decide +kernel

theorem witness_MigrPinned : let p := on 0 (regs mregs (user 0)); p.pinned p.cur = true ∧ Away p (p.me.reg 3 &&& ~~~(7 : Word)) needR 8 away8 :=
  ⟨by decide, by decide, ⟨page 1 true, by decide, by decide, by decide⟩, by decide, by decide⟩

/-- Context 1 holds the root pair, which it has forked; the bobbins of the two clusters of its rectangle hold `p` and `q`. -/
def kid (a b : Nat) : PairDesc := { na := a, nb := b, slot := 0 }
def forking (rep : Bool) (hwm blk : Nat) (kids p q : List PairDesc) : State :=
  { paired { user 1 with pairtask := true, task := some { desc := kid 9 9, cluster := 0, fork := some kids } } 2 with
    jobs := [(1, { job2 with rect := ⟨0, 0, 8, 4⟩, trees := [(0, treeA, treeB)], frontCount := 2, frontRes := kids.length, blocks := 1, freeBlk := blk,
                             repeat_ := rep, hwm := hwm })]
    clusters := [(0, { pend := p, held := [kid 9 9] }), (1, { pend := q })] }
def kids2 : List PairDesc := [kid 0 0, kid 0 1]
theorem adjacent_two (y : Nat) (h : Adjacent ⟨0, 0, 8, 4⟩ y 0) : y = 1 := by
  have h2 : y < 2 := h.1
  match y, h2 with
  | 0, _ => exact absurd h (by unfold Adjacent; decide)
  | 1, _ => rfl
theorem witness_FreeChoice : (let s := forking false 5 1 kids2 [] []; FreeChoice s (s.job 1) 0 0) ∧ (let s := forking false 1 1 kids2 [] []; FreeChoice s (s.job 1) 0 1) := by
  refine ⟨⟨fun _ => rfl, fun h => absurd h (by decide)⟩, fun h => absurd h (by decide), fun _ => ⟨.inr ⟨by unfold Adjacent; decide, by decide⟩, fun y hy => ?_⟩⟩
  rcases hy with rfl | ⟨h, -⟩
  · exact ⟨by decide, fun h => absurd h (by decide)⟩
  · rw [adjacent_two y h]; exact ⟨le_refl _, fun _ => .inr ⟨by decide, le_refl _⟩⟩
def full4095 : List PairDesc := List.replicate 4095 (kid 3 3)
theorem witness_Forks : (let s := forking false 5 1 kids2 [] []; ∃ jb u, Table.find s.jobs s.myJobNo = some jb ∧ jb.noTrees = false ∧ s.me.pairtask = true ∧
      s.me.task = some u ∧ u.fork = some kids2 ∧ u.dups = [] ∧ kids2.length ∈ [2, 4, 8] ∧ 1 ≤ jb.frontCount ∧ jb.rect.clusterIndex s.here < jb.rect.clusterCount ∧
      jb.repeat_ = false ∧ (∀ c ∈ [0, 1], s.bobbinAlive (jb.rect.clusterAt c) = true) ∧ (s.cluster u.cluster).own = []) ∧
    (∀ k ∈ kids2, placeCluster k.key 0 2 = 0) ∧ (∀ k ∈ [kid 0 2, kid 1 0], placeCluster k.key 0 2 = 1) ∧
    (let s := forking true 5 1 kids2 full4095 []; let c := s.cluster 0; 4096 < c.pend.length + c.held.length + 2 ∧ 128 ≤ c.pend.length ∧ 1 ≤ (s.job 1).freeBlk ∧
      ∃ y, y < (s.job 1).blocks ∧ ∀ x ∈ (s.job 1).rect.clusters, ∀ e ∈ (s.cluster x).own, e.1 ≠ y) := by
  refine ⟨⟨_, { desc := kid 9 9, cluster := 0, fork := some kids2 }, rfl, ?_⟩, by decide +kernel, by decide +kernel, by decide +kernel, by decide +kernel, by decide +kernel, 0, by decide +kernel, by decide +kernel⟩
  decide +kernel
/-- The two queues as numbers na + 10 nb; the context, COUNT and RES. -/
def queues (t : State) : List (List Nat) :=
  let ks := fun (c : Nat) => (t.cluster c).pend.map fun k => k.na + 10 * k.nb
  [ks 0, ks 1, [if t.me.pairtask then 1 else 0, (t.job 1).frontCount, (t.job 1).frontRes]]
/-- R186, R189: the children of a fork by their keys, or as one group to the emptier neighbour from the watermark on; below it at the tail, else at the head. -/
theorem test_forks :
    after .pdone (forking true 5 1 [kid 0 2, kid 0 0] [kid 7 7] [kid 8 8]) queues = some [[77, 0], [88, 20], [1, 3, 0]] ∧
    after .pdone (forking false 2 1 kids2 [kid 7 7] [kid 8 8, kid 8 8]) queues = some [[0, 10, 77], [88, 88], [0, 3, 0]] ∧
    after .pdone (forking false 2 1 kids2 [kid 7 7] [kid 8 8]) queues = some [[77], [88, 0, 10], [1, 3, 0]] := by decide +kernel
def lengths (t : State) : List Nat :=
  [(t.cluster 0).pend.length, ((t.cluster 0).own.map fun b => b.2.length).sum, (t.cluster 1).pend.length, ((t.cluster 0).pend.headD (kid 5 5)).na]
/-- R186: without room the last 128 go to the free block, or what does not fit goes on to the next cluster. -/
theorem test_fork_spills :
    after .pdone (forking true 5 1 kids2 full4095 []) lengths = some [3969, 128, 0, 0] ∧
    after .pdone (forking true 5 0 kids2 full4095.tail []) lengths = some [4095, 0, 1, 0] := by decide +kernel

/-- A halted activity, and one whose compensation runs, with one entry. -/
def halted (l : List RavelEntry) : State := acting { regs [(2, 0x10000)] with handler := true } [act1 .halted l]
def lastOf : State :=
  let x := act1 .unravelling [entry1]
  { acting { user 1 with thidx := compThidx } [x] with
    unrav := { acts := [x], running := some (0, 1) }, ctxs := [(1, { user 1 with thidx := compThidx }), (2, user 1), (31, { st := .ready, handler := true, supv := true, thidx := 31 })] }
theorem witness_ActivitiesEnd :
    (∀ l ∈ [[entry1], [entry1, { entry1 with seqn := 0 }]], let s := halted l; s.act (s.me.reg 2).toNat = some (act1 .halted l) ∧ (s.me.reg 2).toNat < 2 ^ 32 ∧
      s.me.handler = true ∧ s.myJobNo = 1 ∧ (∀ y ∈ l, y.seqn ≤ entry1.seqn) ∧ entry1 ∈ l) ∧
    (let s := acting { user 1 with actid := 0x10000 } [act1 .opened []]; s.owned = some (act1 .opened []) ∧ s.findThread 1 1 = some 1 ∧ (s.job 1).phase = .running ∧
      (s.ctx 1).st ≠ .departing ∧ (s.ctx 1).handler = false ∧ (s.ctx 1).mailbox.length < 16 ∧ (s.ctx 1).mailHeld = []) ∧
    (let s := lastOf; let x := act1 .unravelling [entry1]; s.me.thidx = compThidx ∧ s.me.pairtask = false ∧ s.me.rels = [] ∧ s.unrav.running = some (x.ix, 1) ∧
      (s.unrav.acts.find? fun y => y.ix == x.ix) = some x ∧ (x.entries.filter fun e => e.seqn != 1) = [] ∧ x.owner ≠ compThidx ∧ s.findThread 1 1 = some 2) := by
  decide +kernel
/-- R316, R323, R325: the states and the entries left, and the notice's word 0 in the owner's mailbox. -/
def actsAnd (k : Nat) (t : State) : List (List Nat) :=
  [t.unrav.acts.map fun y => y.st.num, t.unrav.acts.map fun y => y.entries.length, (t.ctx k).mailbox.map fun m => (m.getD 0 0).toNat]
theorem test_activities_end :
    after (.afix 3 2 0) (halted [entry1, { entry1 with seqn := 0 }]) (actsAnd 1) = some [[ActState.unravelling.num], [1], []] ∧
    after (.afix 3 2 2) (halted [entry1]) (actsAnd 1) = some [[ActState.wedged.num], [1], [0x200000600010000]] ∧
    after .aabandon (acting { user 1 with actid := 0x10000 } [act1 .opened []]) (actsAnd 1) = some [[ActState.unravelled.num], [0], [0x200000500010000]] ∧
    after .aret lastOf (actsAnd 2) = some [[ActState.unravelled.num], [0], [0x200000500010000]] := by decide +kernel

def atPage (va : Word) : Nat := faOf 0 (0x1020000 + va.toNat)
/-- A staging set of two words at 0x4040, the tables of `moving`; context 1 is spindle 0's, context 17 spindle 1's. -/
def staged (g : Staging) (k : Nat := 1) (f : Context → Context := id) (cs : List CopyCmd := []) : State :=
  { moving cmd with fe := [0x4040, 0x4048, 0x4050].map atPage, engines := [(0, { cmds := cs, serial := 3 })], cur := k, ctxs := [(k, f { user 1 with staging := g }), (31, { st := .ready, handler := true, supv := true, thidx := 31 })] }
def onIssue : Staging := { clen := 16, cdst := 0x4040, cmode := 0x104 }
def chained : Staging := { clen := 16, cdst := 0x4040, cmode := 0x54 }
def pred1 : CopyCmd := cmd fun c => { c with id := 1, job := 1 }
def stagings : List State :=
  [staged onIssue, staged onIssue 17, staged { onIssue with cdst := 0x20000 }, staged { onIssue with cpeer := 2 },
    staged chained 1 (fun c => { c with chain := ⟨1, 0, 1, none, false⟩ }) [pred1], staged chained 1 (fun c => { c with chain := ⟨1, 0, 1, some 7, false⟩ })]
theorem witness_LaunchedForms : ∀ s ∈ stagings, s.copyCheck = none ∧ (s.engine 0).inClass s.me.staging.cls < 32 ∧ 0 ∈ dieEngines s.here ∧
    (s.me.staging.chain = true → s.me.chain.eng = 0) ∧ (s.me.staging.chain = false → ∀ k ∈ dieEngines s.here, (s.engine 0).load ≤ (s.engine k).load) := by decide +kernel
theorem witness_MayEmpty : ∀ s ∈ [staged onIssue, staged onIssue 17], ∀ i ∈ [0, 8], let va : Word := 0x4040 + BitVec.ofNat 64 i; MayEmpty s va (atPage va) ∧
    (faSp (atPage va) = s.here ↔ s.cur = 1) := by
  have w : ∀ s ∈ [staged onIssue, staged onIssue 17], ∀ i ∈ [0, 8], let va : Word := 0x4040 + BitVec.ofNat 64 i
      (s.walkJob s.myJobNo va).map (fun p => (p.fa va, needW.ok p)) = some (atPage va, true) ∧ s.inCopyRegion (atPage va) 8 = false ∧
      (s.spindle (faSp (atPage va))).waiters = [] ∧ (faSp (atPage va) = s.here ↔ s.cur = 1) := by decide +kernel
  intro s hs i hi
  obtain ⟨m, c, e, b⟩ := w s hs i hi
  obtain ⟨p, hp, hq⟩ := Option.map_eq_some_iff.1 m
  exact ⟨⟨⟨p, hp, (Prod.mk.inj hq).1, (Prod.mk.inj hq).2⟩, c, fun x hx => by rw [e] at hx; exact nomatch hx⟩, b⟩
theorem witness_MayNotEmpty : MayNotEmpty (staged { onIssue with cdst := 0x20000 }) 0x20000 ∧
    (let s := staged { onIssue with cpeer := 2 }; Table.find s.myJob.peers 2 = some (5, 0) ∧ Table.find s.trebex.routes 5 = some 1 ∧ (s.link 2).up = true) :=
  ⟨.inl (Option.isNone_iff_eq_none.1 (by decide +kernel)), by decide +kernel⟩
/-- The command that entered engine 0 and what its issue left: its kind of wait, the words EMPTY, the messages. -/
def issued (t : State) : List (List Nat) :=
  match (t.engine 0).cmds.getLast? with
  | some y => [[y.id, y.pred, y.sums, if y.emptying then 1 else 0, y.acksLeft, (y.fault.getD 0).toNat, y.flip.getD 99],
      [if t.me.st = .ready then 0 else 1, (t.me.reg 4).toNat, t.me.cpinj.toNat], t.fe.map fun w => w % 2 ^ 24, t.msgs.map (·.dst)]
  | none => []
theorem test_copies_at_issue :
    after (.cpgo 4) (staged onIssue) issued = some [[3, 0, 0, 0, 0, 0, 99], [0, 3, 0], [0x24050], []] ∧
    after (.cpgo 4) (staged onIssue 17) issued = some [[3, 0, 0, 1, 2, 0, 99], [1, 0, 0], [0x24040, 0x24048, 0x24050], [0, 0]] ∧
    after (.cptry 4) (staged { onIssue with cdst := 0x20000 }) issued = some [[3, 0, 0, 0, 0, 0x20000, 99], [0, 3, 0], [0x24040, 0x24048, 0x24050], []] := by decide +kernel
theorem test_copies_linked_and_armed : let head := fun (t : State) => (issued t).take 2
    after (.cpgo 4) (staged chained 1 (fun c => { c with chain := ⟨1, 0, 1, none, false⟩ }) [pred1]) head = some [[3, 1, 0, 0, 0, 0, 99], [0, 3, 0]] ∧
    after (.cpgo 4) (staged chained 1 (fun c => { c with chain := ⟨1, 0, 1, some 7, false⟩ })) head = some [[3, 0, 7, 0, 0, 0, 99], [0, 3, 0]] ∧
    after (.cpgo 4) (staged { clen := 8 } 1 (fun c => { c with cpinj := 0x8000000100000022 })) head = some [[3, 0, 0, 0, 0, 0, 0x22], [0, 3, 0x22]] := by decide +kernel

end Sys2Proof.Tests
end

section
/-!
PROOFS. Every step keeps every memory in canonical form (R7, R8, R115). Memory and the peers are the only fields that the canonical form speaks of,
so an operation either leaves both alone (`…_memories`, an equation that `simp` uses) or writes bytes as Laws/Memory.lean tells, which keeps the
form (`…_canonical`). The rows of the opcode table, the fetch, the scheduler's lists and the step are put together from these.
-/
namespace Sys2Proof.Laws
open Sys2Proof Sys2Proof.Machine Sys2Proof.Claims

/-! ### The memories of a state -/

/-- The memory of the package and its peers, whose memories are theirs. -/
def memories (s : State) : Memory × Table Peer := (s.mem, s.peers)

/-- `MemoryCanonical`, of the two fields alone. -/
def Canonical (m : Memory × Table Peer) : Prop := m.1.wf = true ∧ ∀ e ∈ m.2, e.2.mem.wf = true

theorem memoryCanonical_iff (s : State) : MemoryCanonical s ↔ Canonical (memories s) := Iff.rfl

/-- The proof is `(rfl)`, as that of `memories_eta`, to keep the lemma from `dsimp`: a proof by `dsimp` does not discharge the hypothesis of
`memories_foldl`. -/
@[simp] theorem memories_mk (now mem fe poison ctxs spindles clusters engines links peers jobs disp unrav trebex msgs nextMsg nextTok cur midUnit
    agenda upsets free) :
    memories ⟨now, mem, fe, poison, ctxs, spindles, clusters, engines, links, peers, jobs, disp, unrav, trebex, msgs, nextMsg, nextTok, cur, midUnit,
      agenda, upsets, free⟩ = (mem, peers) := (rfl)

@[simp] theorem memories_eta (s : State) : (s.mem, s.peers) = memories s := (rfl)

@[simp] theorem memories_ite (c : Prop) [Decidable c] (s t : State) : memories (if c then s else t) = if c then memories s else memories t := by
  split <;> rfl

@[simp] theorem canonical_ite (c : Prop) [Decidable c] (m n : Memory × Table Peer) :
    Canonical (if c then m else n) ↔ if c then Canonical m else Canonical n := by
  split <;> rfl

@[simp] theorem memories_foldl {α : Type} {f : State → α → State} (hf : ∀ s x, memories (f s x) = memories s) (l : List α) (s : State) :
    memories (l.foldl f s) = memories s := by
  induction l generalizing s with
  | nil => rfl
  | cons x l ih => rw [List.foldl_cons, ih, hf]

theorem canonical_foldl {α : Type} {f : State → α → State} (hf : ∀ s x, Canonical (memories s) → Canonical (memories (f s x))) (l : List α)
    {s : State} (h : Canonical (memories s)) : Canonical (memories (l.foldl f s)) := by
  induction l generalizing s with
  | nil => exact h
  | cons x l ih => exact ih (hf s x h)

/-- The fold that gives lost pieces to surviving clusters carries the state beside a table. -/
@[simp] theorem memories_foldl_fst {α β : Type} {f : State × β → α → State × β} (hf : ∀ e x, memories (f e x).1 = memories e.1) (l : List α)
    (e : State × β) : memories (l.foldl f e).1 = memories e.1 := by
  induction l generalizing e with
  | nil => rfl
  | cons x l ih => rw [List.foldl_cons, ih, hf]

@[simp] theorem takeTok_memories (s : State) : memories s.takeTok.2 = memories s := (rfl)

/-! ### Named operations (Machine/Ops.lean) -/

section
variable (s : State)

@[simp] theorem setCtx_memories (k c) : memories (s.setCtx k c) = memories s := by simp [State.setCtx]
@[simp] theorem modCtx_memories (k f) : memories (s.modCtx k f) = memories s := by simp [State.modCtx]
@[simp] theorem modMe_memories (f) : memories (s.modMe f) = memories s := by simp [State.modMe]
@[simp] theorem modSp_memories (n f) : memories (s.modSp n f) = memories s := by simp [State.modSp]
@[simp] theorem modCl_memories (n f) : memories (s.modCl n f) = memories s := by simp [State.modCl]
@[simp] theorem modEng_memories (n f) : memories (s.modEng n f) = memories s := by simp [State.modEng]
@[simp] theorem modLink_memories (n f) : memories (s.modLink n f) = memories s := by simp [State.modLink]
@[simp] theorem modQueue_memories (n f) : memories (s.modQueue n f) = memories s := by simp [State.modQueue]
@[simp] theorem modJob_memories (j f) : memories (s.modJob j f) = memories s := by unfold State.modJob; split <;> simp
@[simp] theorem retire_memories (f) : memories (s.retire f) = memories s := by simp [State.retire]
@[simp] theorem setG_memories (d v) : memories (s.setG d v) = memories s := by simp [State.setG]
@[simp] theorem setFE_memories (fa f) : memories (s.setFE fa f) = memories s := by simp [State.setFE]
@[simp] theorem unpoison_memories (w) : memories (s.unpoison w) = memories s := by simp [State.unpoison]
@[simp] theorem setPoison_memories (w) : memories (s.setPoison w) = memories s := by simp [State.setPoison]
@[simp] theorem send_memories (m) : memories (s.send m) = memories s := by simp [State.send]
@[simp] theorem dropMsg_memories (id) : memories (s.dropMsg id) = memories s := by simp [State.dropMsg]
@[simp] theorem received_memories (m) : memories (s.received m) = memories s := by simp [State.received]
@[simp] theorem passed_memories (m) : memories (s.passed m) = memories s := by simp [State.passed]
@[simp] theorem parkAgain_memories (why) : memories (s.parkAgain why) = memories s := by simp [State.parkAgain]
@[simp] theorem parkRel_memories (why any_ q) : memories (s.parkRel why any_ q) = memories s := by simp [State.parkRel]
@[simp] theorem parkAll_memories : memories s.parkAll = memories s := by simp [State.parkAll]
@[simp] theorem parkOn_memories (why ch) : memories (s.parkOn why ch) = memories s := by simp [State.parkOn]
@[simp] theorem parkFor_memories (why tok k) : memories (s.parkFor why tok k) = memories s := by simp [State.parkFor]
@[simp] theorem wakeAgain_memories (k) : memories (s.wakeAgain k) = memories s := by simp [State.wakeAgain]

@[simp] theorem sendBatch_memories (home e line bytes fes opened ws last) :
    memories (s.sendBatch home e line bytes fes opened ws last) = memories s := by simp [State.sendBatch]

@[simp] theorem closeBatch_memories (home e b) : memories (s.closeBatch home e b) = memories s := by simp [State.closeBatch]
@[simp] theorem closeBatches_memories (home q) : memories (s.closeBatches home q) = memories s := by simp [State.closeBatches]
@[simp] theorem forwardMask_memories (fa mask feWord who) : memories (s.forwardMask fa mask feWord who) = memories s := by simp [State.forwardMask]
@[simp] theorem forward_memories (fa n feWord who) : memories (s.forward fa n feWord who) = memories s := by simp [State.forward]
@[simp] theorem changeFE_memories (fa f who) : memories (s.changeFE fa f who) = memories s := by simp [State.changeFE]
@[simp] theorem logMsg_memories (m) : memories (s.logMsg m) = memories s := by simp [State.logMsg]
@[simp] theorem mailTo_memories (k m) : memories (s.mailTo k m) = memories s := by simp [State.mailTo]
@[simp] theorem mailMoving_memories (j thidx ws) : memories (s.mailMoving j thidx ws) = memories s := by simp [State.mailMoving]
@[simp] theorem mailIn_memories (k ws) : memories (s.mailIn k ws) = memories s := by simp [State.mailIn]
@[simp] theorem ringPut_memories (j k thidx ws) : memories (s.ringPut j k thidx ws) = memories s := by simp [State.ringPut]
@[simp] theorem logMail_memories (j sp thidx ws) : memories (s.logMail j sp thidx ws) = memories s := by simp [State.logMail]

@[simp] theorem mailThread_memories (j thidx ws) : memories (s.mailThread j thidx ws) = memories s := by
  unfold State.mailThread; dsimp only; (repeat' split) <;> simp

@[simp] theorem ringAgain_memories : memories s.ringAgain = memories s := by simp [State.ringAgain]
@[simp] theorem modAct_memories (ix f) : memories (s.modAct ix f) = memories s := by simp [State.modAct]
@[simp] theorem actNotice_memories (a code) : memories (s.actNotice a code) = memories s := by simp [State.actNotice]
@[simp] theorem abandon_memories (a ownerSp) : memories (s.abandon a ownerSp) = memories s := by simp [State.abandon]
@[simp] theorem abandonOwned_memories (j thidx sp) : memories (s.abandonOwned j thidx sp) = memories s := by unfold State.abandonOwned; split <;> simp
@[simp] theorem freeHandlers_memories (j) : memories (s.freeHandlers j) = memories s := by simp [State.freeHandlers]
@[simp] theorem holdStatus_memories (j thidx status) : memories (s.holdStatus j thidx status) = memories s := by simp [State.holdStatus]
@[simp] theorem sendStatus_memories (j thidx sp status) : memories (s.sendStatus j thidx sp status) = memories s := by simp [State.sendStatus]

@[simp] theorem passRecords_memories (k c) : memories (s.passRecords k c) = memories s :=
  memories_foldl (fun s h => by split <;> simp) _ _

@[simp] theorem endThread_memories (k status) : memories (s.endThread k status) = memories s := by simp [State.endThread]
@[simp] theorem reissueTask_memories (j t) : memories (s.reissueTask j t) = memories s := by simp [State.reissueTask]
@[simp] theorem kill_memories (k status) : memories (s.kill k status) = memories s := by unfold State.kill; dsimp only; split <;> simp

@[simp] theorem recordLost_memories (j k t actId) : memories (s.recordLost j k t actId) = memories s := by
  unfold State.recordLost; (repeat' split) <;> simp

@[simp] theorem deliverRecord_memories (j sp k ws t actId second) : memories (s.deliverRecord j sp k ws t actId second) = memories s := by
  simp [State.deliverRecord]

@[simp] theorem nextBuddy_memories (j k ws t second act) : memories (s.nextBuddy j k ws t second act) = memories s := by simp [State.nextBuddy]
@[simp] theorem compFailed_memories (k t) : memories (s.compFailed k t) = memories s := by unfold State.compFailed; split <;> simp
@[simp] theorem takeTrap_memories (k t) : memories (s.takeTrap k t) = memories s := by unfold State.takeTrap; dsimp only; (repeat' split) <;> simp
@[simp] theorem trap_memories (cause addr) : memories (s.trap cause addr) = memories s := by simp [State.trap]
@[simp] theorem trapN_memories (cause addr) : memories (s.trapN cause addr) = memories s := by simp [State.trapN]
@[simp] theorem complete_memories (k v) : memories (s.complete k v) = memories s := by unfold State.complete; dsimp only; split <;> simp
@[simp] theorem dropWaiter_memories (x) : memories (s.dropWaiter x) = memories s := by simp [State.dropWaiter]
@[simp] theorem thaw_memories (k pc) : memories (s.thaw k pc) = memories s := by simp [State.thaw]
@[simp] theorem letGo_memories (k pc) : memories (s.letGo k pc) = memories s := by simp [State.letGo]
end

section
variable {s : State} (h : Canonical (memories s))
include h

@[simp] theorem putBytes_canonical (fa n v) : Canonical (memories (s.putBytes fa n v)) := by
  have written : Canonical (memories { s with mem := s.mem.writeN fa n v }) := ⟨wf_writeN h.1 _ _ _, h.2⟩
  simp only [State.putBytes, memories_ite]
  split
  · exact written
  · rw [memories_foldl (by simp)]; exact written

@[simp] theorem storeMasked_canonical (fa bytes who) : Canonical (memories (s.storeMasked fa bytes who)) := by
  have written : Canonical (memories { s with
      mem := bytes.foldl (fun (m : Memory) (b : Nat × Nat) => m.write (fa + b.1) (BitVec.ofNat 8 b.2)) s.mem }) := ⟨wf_writes _ _ _ h.1, h.2⟩
  simp only [State.storeMasked, forwardMask_memories, memories_ite, unpoison_memories, ite_self]
  exact written

@[simp] theorem scrub_canonical (lo hi) : Canonical (memories (s.scrub lo hi)) := ⟨wf_filter h.1 _, h.2⟩
@[simp] theorem store_canonical (fa n v who) : Canonical (memories (s.store fa n v who)) := by simp [State.store, h]
@[simp] theorem storeFE_canonical (fa n v f who) : Canonical (memories (s.storeFE fa n v f who)) := by simp [State.storeFE, h]
end

/-! ### Bobbins (Machine/Bobbin.lean) -/

section
variable (s : State)

@[simp] theorem resume_memories (winsel a mode skip) : memories (s.resume winsel a mode skip).2 = memories s := by
  simp only [State.resume]; (repeat' split) <;> simp

@[simp] theorem spill_memories (j cl) : memories (s.spill j cl) = memories s := by simp [State.spill]
@[simp] theorem enterGroup_memories (j cl ds tail) : memories (s.enterGroup j cl ds tail) = memories s := by simp [State.enterGroup]
@[simp] theorem losePairs_memories (j n) : memories (s.losePairs j n) = memories s := by simp [State.losePairs]
@[simp] theorem readBack_memories (j cl) : memories (s.readBack j cl) = memories s := by unfold State.readBack; split <;> simp
@[simp] theorem exhaust_memories (j) : memories (s.exhaust j) = memories s := by simp [State.exhaust]

@[simp] theorem placeGroup_memories (j tail dead fuel ix ds) : memories (State.placeGroup j tail dead fuel s ix ds) = memories s := by
  induction fuel generalizing s ix ds with
  | zero => simp [State.placeGroup]
  | succ n ih => simp [State.placeGroup, ih]

@[simp] theorem rescue_memories (j fenced) : memories (s.rescue j fenced) = memories s := by
  simp only [State.rescue, exhaust_memories, placeGroup_memories, modCl_memories, modJob_memories, memories_foldl, memories_foldl_fst,
    implies_true]
end

/-! ### Translation (Machine/Translate.lean) -/

section
variable (s : State)

@[simp] theorem tlbTouch_memories (sp j va) : memories (s.tlbTouch sp j va) = memories s := by unfold State.tlbTouch; split <;> simp
@[simp] theorem tlbInsert_memories (sp j va pg) : memories (s.tlbInsert sp j va pg) = memories s := by simp [State.tlbInsert]
@[simp] theorem parkWalk_memories (va fetch) : memories (s.parkWalk va fetch) = memories s := by simp [State.parkWalk]
end

section
variable {s : State} (h : Canonical (memories s))
include h

@[simp] theorem aliasPut_canonical (akind fa y who) : Canonical (memories (s.aliasPut akind fa y who)) := by simp [State.aliasPut, h]
@[simp] theorem aliasWrite_canonical (akind fa n v who) : Canonical (memories (s.aliasWrite akind fa n v who)) := by simp [State.aliasWrite, h]
@[simp] theorem pageWrite_canonical (akind fa n v who) : Canonical (memories (s.pageWrite akind fa n v who)) := by simp [State.pageWrite, h]
end

/-! ### Refusals, fencing and wakes (Machine/Fence.lean) -/

section
variable (s : State)

/-- What `onChk` can do: the page walk and the trap leave memory alone; else it goes on. -/
theorem onChk_cases {α : Type} (c : Chk α) (f : α → State) : memories (s.onChk c f) = memories s ∨ ∃ a, s.onChk c f = f a := by
  cases c with
  | ok a => exact .inr ⟨a, rfl⟩
  | trap cause addr => exact .inl (by simp [State.onChk])
  | walk va => exact .inl (by simp [State.onChk])

@[simp] theorem onChk_memories {α : Type} {f : α → State} (hf : ∀ a, memories (f a) = memories s) (c : Chk α) :
    memories (s.onChk c f) = memories s := by
  rcases onChk_cases s c f with h | ⟨a, h⟩
  · exact h
  · rw [h, hf]

@[simp] theorem reroute_memories (m) : memories (s.reroute m) = memories s := by unfold State.reroute; split <;> simp
@[simp] theorem refuseMsg_memories (m cause) : memories (s.refuseMsg m cause) = memories s := by unfold State.refuseMsg; split <;> simp
@[simp] theorem wakeFences_memories : memories s.wakeFences = memories s := by simp [State.wakeFences]
@[simp] theorem loseThread_memories (r k c) : memories (s.loseThread r k c) = memories s := by simp [State.loseThread]
@[simp] theorem loseMigrant_memories (r sp m) : memories (s.loseMigrant r sp m) = memories s := by simp [State.loseMigrant]
@[simp] theorem fenceSubs_memories (r) : memories (s.fenceSubs r) = memories s := by simp [State.fenceSubs]
@[simp] theorem fenceWaiters_memories (r) : memories (s.fenceWaiters r) = memories s := by simp [State.fenceWaiters]
@[simp] theorem fenceMsgs_memories (r cut) : memories (s.fenceMsgs r cut) = memories s := by simp [State.fenceMsgs]

@[simp] theorem fenceLost_memories (r) : memories (s.fenceLost r) = memories s :=
  memories_foldl (fun s u => by (repeat' split) <;> simp) _ _

@[simp] theorem fenceChans_memories (r j) : memories (s.fenceChans r j) = memories s := by simp [State.fenceChans]

@[simp] theorem fenceSnapshots_memories (r) : memories (s.fenceSnapshots r) = memories s :=
  memories_foldl (fun s e => memories_foldl (fun s x => by (repeat' split) <;> simp) _ _) _ _

@[simp] theorem fence_memories (r cause sp fa retire) : memories (s.fence r cause sp fa retire) = memories s := by simp [State.fence]
@[simp] theorem gustEvent_memories (sp) : memories (s.gustEvent sp) = memories s := by simp [State.gustEvent]
@[simp] theorem consume_memories (sp fa n) : memories (s.consume sp fa n) = memories s := by simp [State.consume]
@[simp] theorem consumePage_memories (sp akind fa n) : memories (s.consumePage sp akind fa n) = memories s := by simp [State.consumePage]
@[simp] theorem serve_memories (x v) : memories (s.serve x v) = memories s := by simp [State.serve]
@[simp] theorem refuseWaiter_memories (x cause) : memories (s.refuseWaiter x cause) = memories s := by simp [State.refuseWaiter]
end

section
variable {s : State} (h : Canonical (memories s))
include h

theorem onChk_canonical {α : Type} {f : α → State} (hf : ∀ a, Canonical (memories (f a))) (c : Chk α) :
    Canonical (memories (s.onChk c f)) := by
  rcases onChk_cases s c f with e | ⟨a, e⟩
  · rwa [e]
  · rw [e]; exact hf a

theorem settleAux_canonical (fuel w) : Canonical (memories (State.settleAux fuel s w)) := by
  induction fuel generalizing s with
  | zero => exact h
  | succ fuel ih =>
    unfold State.settleAux; dsimp only
    split
    · exact h
    · (repeat' split) <;> exact ih (by simp [h])

@[simp] theorem settle_canonical (w) : Canonical (memories (s.settle w)) := settleAux_canonical h _ w
@[simp] theorem fill_canonical (fa who) : Canonical (memories (s.fill fa who)) := by simp [State.fill, h]
@[simp] theorem storeFill_canonical (fa n v who) : Canonical (memories (s.storeFill fa n v who)) := by simp [State.storeFill, h]
@[simp] theorem empty_canonical (fa who) : Canonical (memories (s.empty fa who)) := by simp [State.empty, h]
end

/-! ### Operands and results (Machine/Operands.lean) -/

section
variable (s : State)

@[simp] theorem iop_memories (d a b w f) : memories (s.iop d a b w f) = memories s := by simp [State.iop]
@[simp] theorem iopDiv_memories (d a b w z f) : memories (s.iopDiv d a b w z f) = memories s := by simp [State.iopDiv]
@[simp] theorem goTo_memories (t) : memories (s.goTo t) = memories s := by simp [State.goTo]
@[simp] theorem branch_memories (taken disp) : memories (s.branch taken disp) = memories s := by simp [State.branch]
@[simp] theorem jump_memories (t f) : memories (s.jump t f) = memories s := by simp [State.jump]
@[simp] theorem fopWrite_memories (d r v) : memories (s.fopWrite d r v) = memories s := by unfold State.fopWrite; split <;> simp
@[simp] theorem fop_memories (d a b f) : memories (s.fop d a b f) = memories s := by simp [State.fop]
@[simp] theorem fopArith_memories (op d a b dbl rf) : memories (s.fopArith op d a b dbl rf) = memories s := by simp [State.fopArith]
end

/-! ### Scalar memory accesses (Machine/Access.lean) -/

section
variable (s : State)

@[simp] theorem parkWait_memories (fa reads) : memories (s.parkWait fa reads) = memories s := by simp [State.parkWait]
@[simp] theorem parkReplay_memories (k tok) : memories (s.parkReplay k tok) = memories s := by simp [State.parkReplay]

@[simp] theorem requestVia_memories (cls why va fa body k dest) :
    memories (s.requestVia cls why va fa body k dest) = memories s := by
  simp only [State.requestVia]; split <;> simp

@[simp] theorem request_memories (why va fa body k dest) : memories (s.request why va fa body k dest) = memories s := by simp [State.request]

@[simp] theorem noteStore_memories (fa src ctx who born remote) : memories (s.noteStore fa src ctx who born remote) = memories s := by
  simp [State.noteStore]

@[simp] theorem replayDone_memories (fa src ctx) : memories (s.replayDone fa src ctx) = memories s := by
  unfold State.replayDone; dsimp only; (repeat' split) <;> simp

@[simp] theorem migrate_memories (va fa akind n sx d) : memories (s.migrate va fa akind n sx d) = memories s := by simp [State.migrate]

@[simp] theorem loadHere_memories (d fa akind n sx) : memories (s.loadHere d fa akind n sx) = memories s := by simp [State.loadHere]
@[simp] theorem loadAt_memories (d va fa akind n sx) : memories (s.loadAt d va fa akind n sx) = memories s := by simp [State.loadAt]
@[simp] theorem windowLd_memories (d va) : memories (s.windowLd d va) = memories s := by unfold State.windowLd; dsimp only; (repeat' split) <;> simp

theorem windowStore_memories {t : State} {k off v} (h : s.windowStore k off v = some t) : memories t = memories s := by
  unfold State.windowStore at h
  split at h
  · obtain ⟨c, -, rfl⟩ := Option.map_eq_some_iff.1 h; simp
  · cases h

@[simp] theorem windowSt_memories (d va) : memories (s.windowSt d va) = memories s := by
  unfold State.windowSt; dsimp only
  repeat' split
  case h_1 t h => rw [retire_memories, windowStore_memories _ h]
  all_goals simp

@[simp] theorem touch_memories (va) : memories (s.touch va) = memories s := by simp [State.touch]
@[simp] theorem ld_memories (d ea n sx) : memories (s.ld d ea n sx) = memories s := by simp [State.ld]
@[simp] theorem enqueue_memories (x) : memories (s.enqueue x).2 = memories s := by unfold State.enqueue; split <;> simp
end

section
variable {s : State} (h : Canonical (memories s))
include h

@[simp] theorem storeHere_canonical (va fa akind n v) : Canonical (memories (s.storeHere va fa akind n v)) := by simp [State.storeHere, h]
@[simp] theorem storeAt_canonical (va fa akind n v) : Canonical (memories (s.storeAt va fa akind n v)) := by simp [State.storeAt, h]

@[simp] theorem st_canonical (d ea n) : Canonical (memories (s.st d ea n)) := by
  unfold State.st
  split; · simp [h]
  split; · simp [h]
  exact onChk_canonical h (fun p => by simp [h]) _

theorem bankSync_canonical (x who) : Canonical (memories (s.bankSync x who).2) := by
  unfold State.bankSync
  split <;> simp [h, apply_ite Prod.snd]

theorem bankSync_eq_canonical {x who r} {t : State} (e : s.bankSync x who = (r, t)) : Canonical (memories t) := by
  have ht := bankSync_canonical h x who
  rwa [e] at ht

@[simp] theorem syncAt_canonical (op d va fa n data) : Canonical (memories (s.syncAt op d va fa n data)) := by
  have h' : Canonical (memories s.takeTok.2) := by simp [h]
  unfold State.syncAt; dsimp only
  split; · simp [h]
  split
  · split; · simp [h]
    split; · simp [h]
    split <;> simp [bankSync_eq_canonical h' ‹_›]
  · simp [h]

@[simp] theorem sync_canonical (op d ea n data) : Canonical (memories (s.sync op d ea n data)) := by
  unfold State.sync
  split
  · simp [h]
  · exact onChk_canonical h (fun p => by simp [h]) _

@[simp] theorem bankAtomic_canonical (fa n op b c who) : Canonical (memories (s.bankAtomic fa n op b c who).2) := by
  unfold State.bankAtomic; dsimp only; split <;> simp [h]

@[simp] theorem amo_canonical (op d a b c w) : Canonical (memories (s.amo op d a b c w)) := by
  unfold State.amo; dsimp only
  split
  · simp [h]
  · exact onChk_canonical h (fun p => by simp [h]) _
end

/-! ### Admission and the stop tree (Machine/Admit.lean) -/

section
variable (s : State)

@[simp] theorem seat_memories (sp c m) : memories (s.seat sp c m) = memories s := by simp [State.seat]

theorem arriveThread_memories {t : State} {sp m} (h : s.arriveThread sp m = some t) : memories t = memories s := by
  unfold State.arriveThread at h; dsimp only at h
  repeat' split at h
  all_goals simp only [Option.some.injEq, reduceCtorEq] at h
  all_goals subst h; simp

@[simp] theorem admitHead_memories (sp) : memories (s.admitHead sp) = memories s := by unfold State.admitHead; split <;> simp

@[simp] theorem admitAllAux_memories (n sp) : memories (State.admitAllAux n s sp) = memories s := by
  induction n generalizing s with
  | zero => rfl
  | succ n ih => rw [State.admitAllAux, ih, admitHead_memories]

@[simp] theorem admitAll_memories (sp) : memories (s.admitAll sp) = memories s := admitAllAux_memories s _ sp
@[simp] theorem haltJob_memories (j) : memories (s.haltJob j) = memories s := by simp [State.haltJob]
@[simp] theorem goJob_memories (j) : memories (s.goJob j) = memories s := by simp [State.goJob]
end

/-! ### Activities (Machine/Activity.lean) -/

section
variable (s : State)

@[simp] theorem actOpen_memories (d ix) : memories (s.actOpen d ix) = memories s := by simp [State.actOpen]
@[simp] theorem abegin_memories (d) : memories (s.abegin d) = memories s := by unfold State.abegin; split <;> simp
@[simp] theorem apush_memories (a b c) : memories (s.apush a b c) = memories s := by unfold State.apush; split <;> simp
@[simp] theorem acommit_memories : memories s.acommit = memories s := by unfold State.acommit; split <;> simp
@[simp] theorem aabandon_memories : memories s.aabandon = memories s := by unfold State.aabandon; split <;> simp
@[simp] theorem aqry_memories (d a) : memories (s.aqry d a) = memories s := by unfold State.aqry; split <;> simp
@[simp] theorem popEntry_memories (a n) : memories (s.popEntry a n) = memories s := by simp [State.popEntry]
@[simp] theorem aret_memories : memories s.aret = memories s := by unfold State.aret; dsimp only; (repeat' split) <;> simp
@[simp] theorem afix_memories (d a mode) : memories (s.afix d a mode) = memories s := by unfold State.afix; (repeat' split) <;> simp

@[simp] theorem unravel_memories : memories s.unravel = memories s := by
  unfold State.unravel; dsimp only [State.takeTok]
  split
  · rfl
  · repeat' split
    case h_1 t h => rw [arriveThread_memories _ h]; simp
    all_goals simp
end

/-! ### Channels (Machine/Channel.lean) -/

section
variable (s : State)

@[simp] theorem modChan_memories (j ch f) : memories (s.modChan j ch f) = memories s := by simp [State.modChan]
@[simp] theorem sendOp_memories (a b n) : memories (s.sendOp a b n) = memories s := by unfold State.sendOp; dsimp only; split <;> simp
@[simp] theorem returnCredit_memories (ch c) : memories (s.returnCredit ch c) = memories s := by simp [State.returnCredit]
@[simp] theorem takeMsg_memories (ch d ws cnt) : memories (s.takeMsg ch d ws cnt) = memories s := by unfold State.takeMsg; (repeat' split) <;> simp
@[simp] theorem recv_memories (d a) : memories (s.recv d a) = memories s := by unfold State.recv; dsimp only; split <;> simp
@[simp] theorem recvt_memories (d a c) : memories (s.recvt d a c) = memories s := by unfold State.recvt; dsimp only; split <;> simp
@[simp] theorem chq_memories (d a) : memories (s.chq d a) = memories s := by unfold State.chq; dsimp only; (repeat' split) <;> simp

@[simp] theorem chbind_memories (d a b) : memories (s.chbind d a b) = memories s := by
  unfold State.chbind; dsimp only
  (repeat' split) <;> simp
end

/-! ### Links (Machine/Links.lean) -/

section
variable (s : State)

@[simp] theorem linkSend_memories (h0 m) : memories (s.linkSend h0 m) = memories s := by simp [State.linkSend]
end

/-! ### Copy commands (Machine/Copy.lean) -/

section
variable (s : State)

@[simp] theorem modCmd_memories (e id f) : memories (s.modCmd e id f) = memories s := by simp [State.modCmd]

@[simp] theorem emptyAck_memories (eng id fault) : memories (s.emptyAck eng id fault) = memories s := by
  unfold State.emptyAck; (repeat' split) <;> simp

@[simp] theorem stageSet_memories (code v) : memories (s.stageSet code v) = memories s := by simp [State.stageSet]

@[simp] theorem copyAsk_memories {f : Nat → State} (hf : ∀ e, memories (f e) = memories s) (d id kind unknown) :
    memories (s.copyAsk d id kind unknown f) = memories s := by simp [State.copyAsk, hf]

@[simp] theorem cpq_memories (d a) : memories (s.cpq d a) = memories s := by simp [State.cpq]

@[simp] theorem copyCancel_memories (e j id) : memories (s.copyCancel e j id).2 = memories s := by
  unfold State.copyCancel; (repeat' split) <;> simp

@[simp] theorem cpcan_memories (d a) : memories (s.cpcan d a) = memories s := by simp [State.cpcan]

@[simp] theorem emptyAway_memories (c tok chip root) : memories (s.emptyAway c tok chip root).1 = memories s := by
  unfold State.emptyAway; dsimp only; (repeat' split) <;> simp
end

section
variable {s : State} (h : Canonical (memories s))
include h

theorem putCopyAux_canonical (who eoi fuel l) : Canonical (memories (State.putCopyAux who eoi fuel s l)) := by
  induction fuel generalizing s l with
  | zero => exact h
  | succ fuel ih =>
    unfold State.putCopyAux
    match l with
    | [] => exact h
    | ((fa, k), v) :: t => dsimp only; (repeat' split) <;> exact ih (by simp [h]) _

@[simp] theorem putCopy_canonical (who eoi l) : Canonical (memories (s.putCopy who eoi l)) := putCopyAux_canonical h _ _ _ l

theorem emptyHere_canonical (c tok l n) : Canonical (memories (s.emptyHere c tok l n).1) := by
  induction l generalizing s n with
  | nil => exact h
  | cons va l ih =>
    unfold State.emptyHere
    split
    · exact h
    · dsimp only
      split; · exact h
      split
      · split
        · exact h
        · exact ih (by simp [h]) _
      · exact ih (by simp [h]) _

@[simp] theorem emptyWords_canonical (c d) : Canonical (memories (s.emptyWords c d)) := by
  unfold State.emptyWords; dsimp only [State.takeTok]
  split
  · simp [emptyAway_memories, h]
  · simp [emptyHere_canonical, h]

@[simp] theorem copyLaunch_canonical (d e) : Canonical (memories (s.copyLaunch d e)) := by simp [State.copyLaunch, h]
@[simp] theorem copyGo_canonical (d try_) : Canonical (memories (s.copyGo d try_)) := by unfold State.copyGo; dsimp only; (repeat' split) <;> simp [h]
end

/-! ### Groups (Machine/Group.lean) -/

section
variable (s : State)

@[simp] theorem arrive_memories (g ply) : memories (s.arrive g ply) = memories s := by simp [State.arrive]
@[simp] theorem gwaitAt_memories (g) : memories (s.gwaitAt g) = memories s := by simp [State.gwaitAt]
@[simp] theorem gbar_memories (a ply) : memories (s.gbar a ply) = memories s := by simp [State.gbar]
@[simp] theorem garr_memories (a) : memories (s.garr a) = memories s := by simp [State.garr]
@[simp] theorem gwait_memories (a) : memories (s.gwait a) = memories s := by simp [State.gwait]
@[simp] theorem gqry_memories (d a) : memories (s.gqry d a) = memories s := by simp [State.gqry]
end

/-! ### Deferred updates (Machine/Deferred.lean) -/

section
variable (s : State)

@[simp] theorem append_memories (e) : memories (s.append e) = memories s := by simp [State.append]
@[simp] theorem beginMerge_memories (j g p) : memories (s.beginMerge j g p) = memories s := by simp [State.beginMerge]

@[simp] theorem dupAt_memories (op sz ea fa v keyReg) : memories (s.dupAt op sz ea fa v keyReg) = memories s := by
  unfold State.dupAt; dsimp only; (repeat' split) <;> simp

@[simp] theorem dup_memories (op sz a b c) : memories (s.dup op sz a b c) = memories s := by simp [State.dup]
end

section
variable {s : State} (h : Canonical (memories s))
include h

@[simp] theorem applyEntry_canonical (e) : Canonical (memories (s.applyEntry e)) := by simp [State.applyEntry, h]
@[simp] theorem mergeEntry_canonical (e) : Canonical (memories (s.mergeEntry e)) := by simp [State.mergeEntry, h]

@[simp] theorem mergeStep_canonical (j g) : Canonical (memories (s.mergeStep j g)) := by
  simp [State.mergeStep, canonical_foldl (fun s e h => mergeEntry_canonical h e) _ h]
end

/-! ### Bit forms (Machine/Integer.lean) -/

section
variable (s : State)

@[simp] theorem bitOp_memories (d a f) : memories (s.bitOp d a f) = memories s := by simp [State.bitOp]
end

/-! ### Launches from the device (Machine/Launch.lean) -/

section
variable (s : State)

@[simp] theorem launchSend_memories (d a q bytes) : memories (s.launchSend d a q bytes) = memories s := by simp [State.launchSend]

@[simp] theorem launch_memories (d a b) : memories (s.launch d a b) = memories s := by
  simp only [State.launch, memories_ite]
  rw [onChk_memories _ fun p => ?_]
  · simp
  · (repeat' split) <;> simp

@[simp] theorem lqry_memories (d a) : memories (s.lqry d a) = memories s := by simp [State.lqry]

@[simp] theorem prefixWord_memories (f) : memories (s.prefixWord f) = memories s := by simp [State.prefixWord]
end

/-! ### Layered operations (Machine/Layer.lean) -/

section
variable (s : State)

@[simp] theorem lyrSend_memories (op d t ft a b frag) : memories (s.lyrSend op d t ft a b frag) = memories s := by simp [State.lyrSend]

@[simp] theorem lyr_memories (op d a p q) : memories (s.lyr op d a p q) = memories s := by simp [State.lyr]
@[simp] theorem finsAt_memories (d t r ft fr p) : memories (s.finsAt d t r ft fr p) = memories s := by unfold State.finsAt; (repeat' split) <;> simp
@[simp] theorem fins_memories (d a b c) : memories (s.fins d a b c) = memories s := by simp [State.fins]
end

/-- Every value that the operation can give satisfies `P`. -/
def Yields {α : Type} (P : α → Prop) (x : Except LyrErr α) : Prop := ∀ a, x = .ok a → P a

section
variable {α β : Type} {P : α → Prop} {Q : β → Prop}

theorem yields_ok {a : α} (h : P a) : Yields P (.ok a) := fun _ e => Except.ok.inj e ▸ h
theorem yields_error (x : LyrErr) : Yields P (.error x) := fun _ e => nomatch e

theorem yields_bind {x : Except LyrErr α} {f : α → Except LyrErr β} (hx : Yields P x) (hf : ∀ a, P a → Yields Q (f a)) :
    Yields Q (x >>= f) := by
  cases x with
  | ok a => exact hf a (hx a rfl)
  | error e => exact yields_error e

theorem yields_then {x : Except LyrErr α} {f : α → Except LyrErr β} (hf : ∀ a, Yields Q (f a)) : Yields Q (x >>= f) :=
  yields_bind (P := fun _ => True) (fun _ _ => trivial) fun a _ => hf a
end

/-- The memories of a layered operation as it goes are in canonical form. -/
def RunCanonical (r : LyrRun) : Prop := Canonical (memories r.s)

section
variable (e : LyrEnv)

theorem lyrWrite_canonical {r : LyrRun} (h : RunCanonical r) (va n v rd) : Yields RunCanonical (e.write r va n v rd) := by
  unfold LyrEnv.write
  split
  · exact yields_ok (store_canonical h _ _ _ _)
  · split
    · exact yields_error _
    · exact yields_ok h

theorem lyrMark_canonical {r : LyrRun} (h : RunCanonical r) (d ix f) : Yields RunCanonical (e.mark r d ix f) :=
  yields_then fun _ => lyrWrite_canonical e h _ _ _ _

theorem lyrMergeClosest_canonical {r : LyrRun} (h : RunCanonical r) (d l) : Yields (fun x => RunCanonical x.2) (e.mergeClosest r d l) := by
  unfold LyrEnv.mergeClosest; dsimp only
  split
  · exact yields_bind (lyrWrite_canonical e h _ _ _ _) fun r h => yields_bind (lyrMark_canonical e h _ _ _) fun r h => yields_ok h
  · exact yields_ok h

theorem lyrLink_canonical {r : LyrRun} (h : RunCanonical r) (d l x z col) : Yields (fun x => RunCanonical x.2) (e.link r d l x z col) := by
  refine yields_bind (lyrMark_canonical e h _ _ _) fun r h => yields_bind (lyrWrite_canonical e h _ _ _ _) fun r h => ?_
  split
  · exact yields_bind (lyrWrite_canonical e h _ _ _ _) fun r h => yields_ok h
  · exact yields_ok h

/-- The end of FINS: the node is linked, a list too long is merged, and the head is written. -/
theorem lyrLinkAndMerge_canonical {r : LyrRun} (h : RunCanonical r) (d : LyrDesc) (p : Nat) (l : List LyrNode) (x z col code : Nat) :
    Yields (fun x => RunCanonical x.2) (do
      let (l, r) ← e.link r d l x z col
      let (l, r, code) ← if d.layers < l.length then do
          let (l, r) ← e.mergeClosest r d l
          pure (l, r, 1)
        else pure (l, r, code)
      let r ← e.write r (d.headVa p) 4 (headOf l)
      return (l.length * 256 + code, r)) := by
  refine yields_bind (lyrLink_canonical e h _ _ _ _ _) fun x h => ?_
  dsimp only
  split
  · exact yields_bind (lyrMergeClosest_canonical e h _ _) fun x h => yields_bind (P := fun x => RunCanonical x.2.1) (yields_ok h) fun x h =>
      yields_bind (lyrWrite_canonical e h _ _ _ _) fun r h => yields_ok h
  · exact yields_bind (P := fun x => RunCanonical x.2.1) (yields_ok h) fun x h =>
      yields_bind (lyrWrite_canonical e h _ _ _ _) fun r h => yields_ok h

theorem lyrFins_canonical {r : LyrRun} (h : RunCanonical r) (d p rec) : Yields (fun x => RunCanonical x.2) (e.fins r d p rec) := by
  unfold LyrEnv.fins; dsimp only
  split; · exact yields_error _
  refine yields_then fun head => yields_then fun l => ?_
  split; · exact yields_ok h
  refine yields_then fun free => ?_
  split
  · exact lyrLinkAndMerge_canonical e h _ _ _ _ _ _ _
  · split; · exact yields_error _
    split; · exact yields_ok h
    refine yields_bind (lyrMergeClosest_canonical e h _ _) fun x h => yields_then fun free => ?_
    split
    · exact lyrLinkAndMerge_canonical e h _ _ _ _ _ _ _
    · exact yields_error _

theorem lyrFreeAll_canonical (d l) {r : LyrRun} (h : RunCanonical r) : Yields RunCanonical (e.freeAll d l r) := by
  induction l generalizing r with
  | nil => exact yields_ok h
  | cons x l ih => exact yields_bind (lyrMark_canonical e h _ _ _) fun r h => ih h

theorem lyrFinish_canonical (d out ls) {r : LyrRun} (h : RunCanonical r) : Yields (fun x => RunCanonical x.2) (e.finish d out ls r) := by
  induction ls generalizing r with
  | nil => exact yields_ok h
  | cons x ls ih =>
    have cleared {r : LyrRun} (h : RunCanonical r) (l : List LyrNode) : Yields (fun y => RunCanonical y.2) (do
        let r ← e.freeAll d l r
        let r ← e.write r (d.headVa x.1) 4 0xFFFFFF
        let (n, r) ← e.finish d out ls r
        return (l.length + n, r)) :=
      yields_bind (lyrFreeAll_canonical e d _ h) fun r h => yields_bind (lyrWrite_canonical e h _ _ _ _) fun r h =>
        yields_bind (ih h) fun y h => yields_ok h
    unfold LyrEnv.finish; dsimp only
    split
    · exact yields_bind (lyrWrite_canonical e h _ _ _ _) fun r h => cleared h _
    · exact yields_bind (yields_ok h) fun r h => cleared h _

theorem lyrResolve_canonical {r : LyrRun} (h : RunCanonical r) (d f c out) : Yields (fun x => RunCanonical x.2) (e.resolve r d f c out) := by
  unfold LyrEnv.resolve
  split
  · exact yields_ok h
  · split
    · exact yields_error _
    · exact yields_then fun _ => yields_then fun _ => yields_then fun _ => lyrFinish_canonical e d out _ h

theorem lyrCount_canonical {r : LyrRun} (h : RunCanonical r) (d p) : Yields (fun x => RunCanonical x.2) (e.count r d p) := by
  unfold LyrEnv.count
  split
  · exact yields_error _
  · exact yields_then fun _ => yields_then fun _ => yields_ok h

theorem lyrGrow_canonical {r : LyrRun} (h : RunCanonical r) (d) : Yields (fun x => RunCanonical x.2) (e.grow r d) := by
  unfold LyrEnv.grow
  refine yields_then fun free => ?_
  split; · exact yields_ok h
  dsimp only
  split; · exact yields_ok h
  split; · exact yields_ok h
  split; · exact yields_error _
  exact yields_bind (lyrWrite_canonical e (r := { s := _, log := _ }) (canonical_foldl (fun s i h => store_canonical h _ _ _ _) _ h) _ _ _ _)
    fun r h => yields_ok h

theorem lyrForm_canonical {s : State} (h : Canonical (memories s)) (op desc a b frag) :
    Yields (fun x => RunCanonical x.2) (e.form s op desc a b frag) := by
  have h : RunCanonical { s := s } := h
  refine yields_then fun v => yields_then fun d => ?_
  split
  · exact lyrFins_canonical e h _ _ _
  · exact lyrResolve_canonical e h _ _ _ _
  · exact lyrResolve_canonical e h _ _ _ _
  · exact lyrCount_canonical e h _ _
  · exact lyrGrow_canonical e h _

theorem lyrPerform_canonical {s : State} (h : Canonical (memories s)) (op desc a b frag) :
    Yields (fun x => Canonical (memories x.2)) (e.perform s op desc a b frag) :=
  yields_bind (lyrForm_canonical _ h _ _ _ _ _) fun _ h => yields_ok h
end

/-! ### Lanes (Machine/Lanes.lean) -/

section
variable (s : State)

@[simp] theorem tagTrap_memories (r) : memories (s.tagTrap r) = memories s := by simp [State.tagTrap]

@[simp] theorem laneEvents_memories {f : State → State} (hf : ∀ t, memories (f t) = memories t) (evs) :
    memories (s.laneEvents evs f) = memories s := by
  unfold State.laneEvents; dsimp only; split <;> simp [hf]

@[simp] theorem writeLanes_memories (vd rt mask f) : memories (s.writeLanes vd rt mask f) = memories s := by simp [State.writeLanes]
@[simp] theorem reduce_memories (vd va mask op empty) : memories (s.reduce vd va mask op empty) = memories s := by unfold State.reduce; split <;> simp
end

/-! ### Vector loads and stores (Machine/VectorMem.lean) -/

section
variable (s : State)

@[simp] theorem touchAll_memories (accs) : memories (s.touchAll accs) = memories s := by simp [State.touchAll]
@[simp] theorem tearUsed_memories (keys) : memories (s.tearUsed keys) = memories s := by simp [State.tearUsed]
@[simp] theorem tearDone_memories : memories s.tearDone = memories s := by simp [State.tearDone]
@[simp] theorem tearOn_memories (t) : memories (s.tearOn t) = memories s := by simp [State.tearOn]

@[simp] theorem loadGo_memories {f : State → List (Nat × Nat) → State} (hf : ∀ t l, memories (f t l) = memories t) (left got) :
    memories (s.loadGo left got f) = memories s := by
  unfold State.loadGo; dsimp only; split <;> simp [hf]

@[simp] theorem vload_memories {f : State → List (Nat × Nat) → State} (hf : ∀ t l, memories (f t l) = memories t) (accs) :
    memories (s.vload accs f) = memories s := by
  unfold State.vload; split <;> simp [hf]

@[simp] theorem loadLanes_memories (v t got) : memories (s.loadLanes v t got) = memories s := by simp [State.loadLanes]
end

section
variable {s : State} (h : Canonical (memories s))
include h

@[simp] theorem putWords_canonical (l who) : Canonical (memories (s.putWords l who)) :=
  canonical_foldl (fun s e h => by simp [h]) _ h

@[simp] theorem storeGo_canonical (left) : Canonical (memories (s.storeGo left)) := by unfold State.storeGo; dsimp only; split <;> simp [h]
@[simp] theorem storeWords_canonical (l keep) : Canonical (memories (s.storeWords l keep)) := by simp [State.storeWords, h]

@[simp] theorem vstoreKeep_canonical (accs val keep) : Canonical (memories (s.vstoreKeep accs val keep)) := by
  unfold State.vstoreKeep
  split
  · simp [h]
  · exact onChk_canonical h (fun l => by simp [h]) _

@[simp] theorem vstore_canonical (accs val) : Canonical (memories (s.vstore accs val)) := by simp [State.vstore, h]
@[simp] theorem vst_canonical (v a mg off) : Canonical (memories (s.vst v a mg off)) := by simp [State.vst, h]
end

/-! ### Loom forms and their steps (Machine/Loom.lean) -/

section
variable (s : State)

@[simp] theorem loomTrap_memories (f) : memories (s.loomTrap f) = memories s := by simp [State.loomTrap]
@[simp] theorem loomPop_memories (cl) : memories (s.loomPop cl) = memories s := by simp [State.loomPop]
@[simp] theorem loomDone_memories (cl c) : memories (s.loomDone cl c) = memories s := by simp [State.loomDone]
@[simp] theorem loomAbort_memories (cl c t) : memories (s.loomAbort cl c t) = memories s := by simp [State.loomAbort]
@[simp] theorem loomPut_memories (cl c) : memories (s.loomPut cl c) = memories s := by simp [State.loomPut]

@[simp] theorem loomEnter_memories (i ops pages table) : memories (s.loomEnter i ops pages table) = memories s := by
  unfold State.loomEnter; split <;> simp

@[simp] theorem loomIssue_memories (i ops ranges need align copy remote inside rest table) :
    memories (s.loomIssue i ops ranges need align copy remote inside rest table) = memories s := by
  unfold State.loomIssue; dsimp only; (repeat' split) <;> simp

@[simp] theorem lmm_memories (i d a b) : memories (s.lmm i d a b) = memories s := by simp [State.lmm]

@[simp] theorem tableGo_memories {f : State → List Word → State} (hf : ∀ t l, memories (f t l) = memories t) (left got) :
    memories (s.tableGo left got f) = memories s := by
  unfold State.tableGo; dsimp only; split <;> simp [hf]

@[simp] theorem lmmgJudge_memories (i tr el sc cnt table) : memories (s.lmmgJudge i tr el sc cnt table) = memories s := by simp [State.lmmgJudge]
@[simp] theorem lmmg_memories (i d a b c) : memories (s.lmmg i d a b c) = memories s := by unfold State.lmmg; dsimp only; (repeat' split) <;> simp
@[simp] theorem lbld_memories (i d a b bf ng kg) : memories (s.lbld i d a b bf ng kg) = memories s := by simp [State.lbld]
@[simp] theorem lacc_memories (i a row ncg mem need) : memories (s.lacc i a row ncg mem need) = memories s := by simp [State.lacc]
end

section
variable {s : State} (h : Canonical (memories s))
include h

@[simp] theorem loomEffect_canonical (c e st) : Canonical (memories (s.loomEffect c e st)) := by unfold State.loomEffect; split <;> simp [h]

theorem stepSome_canonical (c e st pick) : Canonical (memories (s.stepSome c e st pick).1) := by
  unfold State.stepSome; dsimp only; split <;> simp [h]

@[simp] theorem loomStep_canonical (cl) : Canonical (memories (s.loomStep cl)) := by
  unfold State.loomStep
  split
  · exact h
  · rename_i c _ _
    have h1 : Canonical (memories (if c.begun = true then s else s.modCl cl (c.clear c.entry))) := by simp [h]
    dsimp only
    generalize (if c.begun = true then s else s.modCl cl (c.clear c.entry)) = t at h1 ⊢
    (repeat' split) <;> simp [h1, stepSome_canonical]
end

/-! ### FENCE and DRAIN (Machine/Order.lean) -/

section
variable (s : State)

@[simp] theorem closeFor_memories (who) : memories (s.closeFor who) = memories s := by simp [State.closeFor]
@[simp] theorem fenceOp_memories : memories s.fenceOp = memories s := by simp [State.fenceOp]

@[simp] theorem drainOp_memories : memories s.drainOp = memories s := by simp [State.drainOp]
end

/-! ### Pair tasks (Machine/Pair.lean) -/

section
variable (s : State)

@[simp] theorem withNodes_memories {f : State → State} (hf : ∀ t, memories (f t) = memories t) (rs) :
    memories (s.withNodes rs f) = memories s := by
  simp only [State.withNodes, memories_ite]
  (repeat' split) <;> simp [hf]

@[simp] theorem placeChildren_memories (j sp ds) : memories (s.placeChildren j sp ds) = memories s := by simp [State.placeChildren]

@[simp] theorem pseed_memories (a) : memories (s.pseed a) = memories s := by
  unfold State.pseed; dsimp only; (repeat' split) <;> simp

@[simp] theorem ptake_memories (d a b) : memories (s.ptake d a b) = memories s := by simp [State.ptake]
@[simp] theorem deliverTask_memories (cl) : memories (s.deliverTask cl) = memories s := by unfold State.deliverTask; split <;> simp
@[simp] theorem pload_memories (d a sx sz off treeB) : memories (s.pload d a sx sz off treeB) = memories s := by simp [State.pload]
@[simp] theorem ptest_memories (d a b c) : memories (s.ptest d a b c) = memories s := by simp [State.ptest]
@[simp] theorem pforkAt_memories (t trees va vb) : memories (s.pforkAt t trees va vb) = memories s := by simp [State.pforkAt]

@[simp] theorem pfork_memories (a) : memories (s.pfork a) = memories s := by
  unfold State.pfork; dsimp only; (repeat' split) <;> simp

@[simp] theorem commitEffects_memories (t) : memories (s.commitEffects t) = memories s := by simp [State.commitEffects]

@[simp] theorem commitTask_memories (t) : memories (s.commitTask t) = memories s := by simp [State.commitTask]

@[simp] theorem pdone_memories : memories s.pdone = memories s := by unfold State.pdone; (repeat' split) <;> simp

@[simp] theorem pqry_memories (d a) : memories (s.pqry d a) = memories s := by simp [State.pqry]
end

/-! ### How a message arrives (Machine/Arrive.lean) -/

section
variable (s : State)

@[simp] theorem tooEarly_memories (m) : memories (s.tooEarly m) = memories s := by simp [State.tooEarly]

/-- What the arrival of a message can do: its body where it arrives, with the memories that it found; else nothing to memory. -/
theorem onArrive_cases (id q) (f : Msg → State → State) :
    memories (s.onArrive id q f) = memories s ∨ ∃ m t, memories t = memories s ∧ s.onArrive id q f = f m t := by
  unfold State.onArrive
  split
  · exact .inl rfl
  · split; · exact .inl (by simp)
    split; · exact .inl (by simp)
    split; · exact .inl (by simp)
    exact .inr ⟨_, _, by simp, rfl⟩

@[simp] theorem onArrive_memories {f : Msg → State → State} (hf : ∀ m t, memories (f m t) = memories t) (id q) :
    memories (s.onArrive id q f) = memories s := by
  rcases onArrive_cases s id q f with h | ⟨m, t, ht, h⟩
  · exact h
  · rw [h, hf, ht]

@[simp] theorem wakeRel_memories (k) : memories (s.wakeRel k) = memories s := by simp [State.wakeRel]
@[simp] theorem relDone_memories (k o v) : memories (s.relDone k o v) = memories s := by simp [State.relDone]
@[simp] theorem relRefused_memories (k o cause) : memories (s.relRefused k o cause) = memories s := by simp [State.relRefused]
end

section
variable {s : State} (h : Canonical (memories s))
include h

theorem onArrive_canonical {f : Msg → State → State} (hf : ∀ m t, Canonical (memories t) → Canonical (memories (f m t))) (id q) :
    Canonical (memories (s.onArrive id q f)) := by
  rcases onArrive_cases s id q f with e | ⟨m, t, ht, e⟩
  · rwa [e]
  · rw [e]; exact hf m t (ht ▸ h)
end

/-! ### Subscriptions (Machine/Subscription.lean) -/

section
variable (s : State)

@[simp] theorem subonAt_memories (l p n fl fp) : memories (s.subonAt l p n fl fp) = memories s := by simp [State.subonAt]

@[simp] theorem subon_memories (a b c) : memories (s.subon a b c) = memories s := by simp [State.subon]

@[simp] theorem suboff_memories (a) : memories (s.suboff a) = memories s :=
  onChk_memories s (fun p => by dsimp only; (repeat' split) <;> simp) _

@[simp] theorem subq_memories (d a) : memories (s.subq d a) = memories s :=
  onChk_memories s (fun p => by dsimp only; (repeat' split) <;> simp) _
end

/-! ### What a bank does for subscribers (Machine/BankEvents.lean) -/

section
variable (s : State)

@[simp] theorem snapshot_memories (sp e) : memories (s.snapshot sp e) = memories s := by simp [State.snapshot]
@[simp] theorem subIn_memories (m) : memories (s.subIn m) = memories s := by unfold State.subIn; split <;> simp
@[simp] theorem batchAcked_memories (m) : memories (s.batchAcked m) = memories s := by unfold State.batchAcked; split <;> simp
@[simp] theorem batchRefused_memories (m) : memories (s.batchRefused m) = memories s := by unfold State.batchRefused; split <;> simp
@[simp] theorem closeEntry_memories (sp base copy) : memories (s.closeEntry sp base copy) = memories s := by simp [State.closeEntry]
@[simp] theorem freePub_memories (sp base copy subSp subJob) : memories (s.freePub sp base copy subSp subJob) = memories s := by simp [State.freePub]
@[simp] theorem flushSaved_memories (sp base copy) : memories (s.flushSaved sp base copy) = memories s := by simp [State.flushSaved]
@[simp] theorem subOut_memories (m) : memories (s.subOut m) = memories s := by unfold State.subOut; split <;> simp
@[simp] theorem drainIn_memories (m) : memories (s.drainIn m) = memories s := by unfold State.drainIn; split <;> simp
end

section
variable {s : State} (h : Canonical (memories s))
include h

@[simp] theorem batchWord_canonical (w bytes fe v who) : Canonical (memories (s.batchWord w bytes fe v who)) := by
  unfold State.batchWord; split <;> simp [h]

@[simp] theorem batchIn_canonical (m) : Canonical (memories (s.batchIn m)) := by
  unfold State.batchIn
  split
  · split
    · simp [h]
    · dsimp only
      rw [wakeFences_memories, memories_ite, complete_memories, send_memories, ite_self]
      exact canonical_foldl (fun s i h => by simp [h]) _ h
  · exact h
end

/-! ### Events of the links (Machine/LinkEvents.lean) -/

section
variable (s : State)

@[simp] theorem dataFlit_memories (h0 crcOk) : memories (s.dataFlit h0 crcOk) = memories s := by unfold State.dataFlit; (repeat' split) <;> simp
@[simp] theorem retryFlit_memories (h0) : memories (s.retryFlit h0) = memories s := by simp [State.retryFlit]
@[simp] theorem chunkAnswer_memories (eng id fault) : memories (s.chunkAnswer eng id fault) = memories s := by simp [State.chunkAnswer]
@[simp] theorem chunkLost_memories (m) : memories (s.chunkLost m) = memories s := by unfold State.chunkLost; split <;> simp
@[simp] theorem retrainEnd_memories (h0 ok) : memories (s.retrainEnd h0 ok) = memories s := by simp [State.retrainEnd]
end

/-! ### Chunks and the ends of copies (Machine/CopyEvents.lean) -/

section
variable (s : State)

@[simp] theorem passQueues_memories : memories s.passQueues = memories s := by simp [State.passQueues]
@[simp] theorem poisonAt_memories (w) : memories (s.poisonAt w) = memories s := by simp [State.poisonAt]

@[simp] theorem chunkAway_memories (e c p chip root) : memories (s.chunkAway e c p chip root) = memories s := by
  unfold State.chunkAway; dsimp only; split <;> simp

@[simp] theorem arrivedPoison_memories (c l) : memories (s.arrivedPoison c l) = memories s :=
  memories_foldl (fun s w => by split <;> simp) _ _

@[simp] theorem peerAnswer_memories (m own chip b) : memories (s.peerAnswer m own chip b) = memories s := by unfold State.peerAnswer; split <;> simp
@[simp] theorem mailCopy_memories (c ws) : memories (s.mailCopy c ws) = memories s := by simp [State.mailCopy]
end

theorem mem_of_mem_set {α : Type} {t : Table α} {k : Nat} {v : α} {e : Nat × α} (h : e ∈ Table.set t k v) : e = (k, v) ∨ e ∈ t := by
  induction t with
  | nil => exact .inl (List.mem_singleton.1 h)
  | cons x t ih =>
    unfold Table.set at h
    grind

theorem mem_of_find {α : Type} {t : Table α} {k : Nat} {v : α} (h : Table.find t k = some v) : (k, v) ∈ t := by
  induction t with
  | nil => simp at h
  | cons x t ih =>
    unfold Table.find at h
    grind

theorem peer_wf {s : State} (h : Canonical (memories s)) (chip) : (s.peer chip).mem.wf = true := by
  unfold State.peer Table.get
  cases e : Table.find s.peers chip with
  | none => rfl
  | some p => exact h.2 _ (mem_of_find e)

section
variable {s : State} (h : Canonical (memories s))
include h

@[simp] theorem chunkHere_canonical (e c p) : Canonical (memories (s.chunkHere e c p)) := by
  unfold State.chunkHere; dsimp only
  split
  · simp only [memories_mk, memories_eta, modCmd_memories]
    rw [memories_foldl fun t w => by split <;> simp]; simp [h]
  · split
    · simp only [memories_mk, memories_eta, modCmd_memories]
      rw [memories_foldl fun t w => by split <;> simp]; simp [h]
    · simp [h]

@[simp] theorem chunkGo_canonical (e c) : Canonical (memories (s.chunkGo e c)) := by unfold State.chunkGo; dsimp only; (repeat' split) <;> simp [h]
@[simp] theorem copyChunk_canonical (e) : Canonical (memories (s.copyChunk e)) := by unfold State.copyChunk; (repeat' split) <;> simp [h]

/-- Of a peer, what is done to its memory as to a package of its own keeps the canonical form. -/
theorem atPeer_canonical (chip) {f : State → State}
    (hf : ∀ t, Canonical (memories t) → Canonical (memories (f t))) : Canonical (memories (s.atPeer chip f)) := by
  refine ⟨h.1, fun e he => ?_⟩
  rcases mem_of_mem_set he with rfl | he
  · exact (hf { State.reset with mem := _, fe := _, poison := _ } ⟨peer_wf h chip, fun e he => nomatch he⟩).1
  · exact h.2 e he

@[simp] theorem peerIn_canonical (m) : Canonical (memories (s.peerIn m)) := by
  unfold State.peerIn; dsimp only
  split
  · split
    · simp [h]
    · split
      · simp [h]
      · simp only [peerAnswer_memories, memories_mk, memories_eta]
        exact atPeer_canonical h _ fun t h => by simp [h]
  · simp only [peerAnswer_memories]
    split
    · exact canonical_foldl (fun s e h => by simp [h]) _ h
    · exact atPeer_canonical h _ fun t h => canonical_foldl (fun s e h => by simp [h]) _ h
  · exact h

@[simp] theorem fillFlag_canonical (c fa) : Canonical (memories (s.fillFlag c fa)) := by simp [State.fillFlag, h]

theorem copyFlag_canonical (c st) : Canonical (memories (s.copyFlag c st).2) := by
  unfold State.copyFlag; (repeat' split) <;> simp [h]

@[simp] theorem copyEnd_canonical (e c) : Canonical (memories (s.copyEnd e c)) := by
  simp [State.copyEnd, copyFlag_canonical h]
end

/-! ### Pre-emption and the front (Machine/Front.lean) -/

section
variable (s : State)

@[simp] theorem mapJobCtx_memories (j f) : memories (s.mapJobCtx j f) = memories s := by simp [State.mapJobCtx]
@[simp] theorem preempt_memories (j) : memories (s.preempt j) = memories s := by simp [State.preempt]
@[simp] theorem holdParked_memories (j) : memories (s.holdParked j) = memories s := by simp [State.holdParked]
@[simp] theorem windowEnd_memories (j) : memories (s.windowEnd j) = memories s := by simp [State.windowEnd]
@[simp] theorem withdrawLoom_memories (cl running c) : memories (s.withdrawLoom cl running c) = memories s := by simp [State.withdrawLoom]

@[simp] theorem stopLooms_memories (j) : memories (s.stopLooms j) = memories s :=
  memories_foldl (fun s e => by (repeat' split) <;> simp) _ _

@[simp] theorem stopWaits_memories (j) : memories (s.stopWaits j) = memories s := by simp [State.stopWaits]

@[simp] theorem withdrawWaiters_memories (j) : memories (s.withdrawWaiters j) = memories s := by
  unfold State.withdrawWaiters
  rw [memories_foldl fun s w => ?_]
  · simp
  · dsimp only
    split
    · simp
    · split <;> simp

@[simp] theorem startNode_memories (j sp) : memories (s.startNode j sp) = memories s := by simp [State.startNode]

@[simp] theorem suspendSubs_memories (j) : memories (s.suspendSubs j) = memories s := by simp [State.suspendSubs]
@[simp] theorem startFront_memories (j) : memories (s.startFront j) = memories s := by simp [State.startFront]
@[simp] theorem tokenIn_memories (m) : memories (s.tokenIn m) = memories s := by simp [State.tokenIn]
@[simp] theorem clearCtxs_memories (sp) : memories (s.clearCtxs sp) = memories s := by simp [State.clearCtxs]
@[simp] theorem slotState_memories (j st) : memories (s.slotState j st) = memories s := by simp [State.slotState]
@[simp] theorem switchOut_memories (j) : memories (s.switchOut j) = memories s := by simp [State.switchOut]
@[simp] theorem unsuspend_memories (sp e) : memories (s.unsuspend sp e) = memories s := by simp [State.unsuspend]
@[simp] theorem resumeSubs_memories (j) : memories (s.resumeSubs j) = memories s := by simp [State.resumeSubs]

@[simp] theorem killJob_memories (j) : memories (s.killJob j) = memories s := by simp [State.killJob]

@[simp] theorem emptyRings_memories (j) : memories (s.emptyRings j) = memories s := by simp [State.emptyRings]
@[simp] theorem release_memories (j) : memories (s.release j) = memories s := by simp [State.release]
@[simp] theorem watchJob_memories (j) : memories (s.watchJob j) = memories s := by unfold State.watchJob; (repeat' split) <;> simp
@[simp] theorem loseMsgs_memories : memories s.loseMsgs = memories s := by simp [State.loseMsgs]
@[simp] theorem watch_memories : memories s.watch = memories s := by simp [State.watch]
end

section
variable {s : State} (h : Canonical (memories s))
include h

theorem canonical_writes (l : List Host.Cell) : Canonical (l.foldl (fun m c => Memory.write m c.1 c.2) s.mem, s.peers) :=
  ⟨wf_writes l _ _ h.1, h.2⟩

@[simp] theorem restoreSpindle_canonical (sv) : Canonical (memories (s.restoreSpindle sv)) :=
  canonical_writes (by simp [h]) sv.scratch

@[simp] theorem restoreJob_canonical (j) : Canonical (memories (s.restoreJob j)) := by
  have := canonical_foldl (fun s sv h => restoreSpindle_canonical h sv) (s.job j).saved h
  simp [State.restoreJob, this]
end

/-! ### Queues and records (Machine/Queues.lean) -/

section
variable (s : State)

@[simp] theorem setSlot_memories (q slot r) : memories (s.setSlot q slot r) = memories s := by simp [State.setSlot]
@[simp] theorem dropPending_memories (j) : memories (s.dropPending j) = memories s := by simp [State.dropPending]
end

section
variable {s : State} (h : Canonical (memories s))
include h

@[simp] theorem rootFill_canonical (root va v) : Canonical (memories (s.rootFill root va v)) := by unfold State.rootFill; split <;> simp [h]

@[simp] theorem complete2_canonical (q slot ser root compl msix status detail flags job) :
    Canonical (memories (s.complete2 q slot ser root compl msix status detail flags job)) := by simp [State.complete2, h]

@[simp] theorem completeHeld_canonical (q h0 status detail) : Canonical (memories (s.completeHeld q h0 status detail)) := by
  simp [State.completeHeld, h]

@[simp] theorem pollQueue_canonical (q) : Canonical (memories (s.pollQueue q)) := by unfold State.pollQueue; (repeat' split) <;> simp [h]

@[simp] theorem takeRecord_canonical (q slot) : Canonical (memories (s.takeRecord q slot)) := by
  unfold State.takeRecord; dsimp only; (repeat' split) <;> simp [h]
end

/-! ### The dispatcher (Machine/LaunchUnit.lean) -/

section
variable (s : State)

@[simp] theorem turnTaken_memories (p q cr) : memories (s.turnTaken p q cr) = memories s := by simp [State.turnTaken]
@[simp] theorem unplace_memories (q h0) : memories (s.unplace q h0) = memories s := by simp [State.unplace]

@[simp] theorem startSpindle_memories (jb base tr i) : memories (s.startSpindle jb base tr i) = memories s := by simp [State.startSpindle]

@[simp] theorem startClusters_memories (r) : memories (s.startClusters r) = memories s := by simp [State.startClusters]
@[simp] theorem dropJob_memories (j) : memories (s.dropJob j) = memories s := by simp [State.dropJob]
@[simp] theorem refuseLaunch_memories (m) : memories (s.refuseLaunch m) = memories s := by simp [State.refuseLaunch]
end

section
variable {s : State} (h : Canonical (memories s))
include h

@[simp] theorem reserve_canonical (q h0 r) : Canonical (memories (s.reserve q h0 r)) := by simp [State.reserve, h]

@[simp] theorem placeRecord_canonical (p q cr) : Canonical (memories (s.placeRecord p q cr)) := by
  unfold State.placeRecord; dsimp only; (repeat' split) <;> simp [h]

@[simp] theorem startJob_canonical (j) : Canonical (memories (s.startJob j)) := by simp [State.startJob, h]
@[simp] theorem placeJob_canonical (p j) : Canonical (memories (s.placeJob p j)) := by unfold State.placeJob; split <;> simp [h]
@[simp] theorem launchSelect_canonical : Canonical (memories s.launchSelect) := by unfold State.launchSelect; dsimp only; (repeat' split) <;> simp [h]
@[simp] theorem readGo_canonical (q) : Canonical (memories (s.readGo q)) := by unfold State.readGo; (repeat' split) <;> simp [h]

@[simp] theorem writeTrace_canonical (j) : Canonical (memories (s.writeTrace j)) := by
  unfold State.writeTrace; dsimp only
  split
  · exact h
  · refine canonical_foldl (fun s e h => ?_) _ (canonical_foldl (fun s e h => ?_) _ h)
    · (repeat' split) <;> simp [h]
    · (repeat' split) <;> simp [h]

@[simp] theorem startRecord_canonical (q h0 r) : Canonical (memories (s.startRecord q h0 r)) := by
  unfold State.startRecord; dsimp only; split <;> simp [h]

@[simp] theorem launchStart_canonical (q) : Canonical (memories (s.launchStart q)) := by unfold State.launchStart; split <;> simp [h]
@[simp] theorem retireJob_canonical (j) : Canonical (memories (s.retireJob j)) := by simp [State.retireJob, h]

@[simp] theorem launchIn_canonical (m) : Canonical (memories (s.launchIn m)) := by
  unfold State.launchIn
  split
  · have filled (t : State) (ht : Canonical (memories t)) (l : List (Word × Nat)) (fa) :
        Canonical (memories (l.foldl (fun (s : State) (e : Word × Nat) => s.store (fa + 8 + 8 * e.2) 8 e.1.toNat unitWho) t)) :=
      canonical_foldl (fun s e h => by simp [h]) l ht
    simp [h, filled]
  · exact h
end

/-! ### The host port (Machine/HostPort.lean) -/

section
variable (s : State)

@[simp] theorem hostMismatch_memories (fa n) : memories (s.hostMismatch fa n) = memories s := by simp [State.hostMismatch]
@[simp] theorem hostAnswer_memories (v bad) : memories (s.hostAnswer v bad) = memories s := by simp [State.hostAnswer]
end

section
variable {s : State} (h : Canonical (memories s))
include h

@[simp] theorem hostFill_canonical (off v) : Canonical (memories (s.hostFill off v)) := by simp [State.hostFill, h]
@[simp] theorem hostWrite_canonical (fa n v) : Canonical (memories (s.hostWrite fa n v)) := by simp [State.hostWrite, h]
end

/-! ### Management (Machine/Management.lean) -/

section
variable (s : State)

@[simp] theorem modTx_memories (f) : memories (s.modTx f) = memories s := by simp [State.modTx]
@[simp] theorem respond_memories (mst res) : memories (s.respond mst res) = memories s := by simp [State.respond]
@[simp] theorem command_memories (v) : memories (s.command v) = memories s := by simp [State.command]
@[simp] theorem regWrite_memories (off n v) : memories (s.regWrite off n v) = memories s := by simp [State.regWrite]

/-- A management command does to memory what its work does, if it runs. -/
theorem runCmd_cases (code f) :
    s.runCmd code f = s ∨ ∃ a b c d, memories (s.runCmd code f) = memories (f a b c d s).2.2 := by
  unfold State.runCmd
  split
  · exact .inr ⟨_, _, _, _, respond_memories _ _ _⟩
  · exact .inl rfl

@[simp] theorem powerWindow_memories (die mw) : memories (s.powerWindow die mw) = memories s := by simp [State.powerWindow]

@[simp] theorem retireCluster_memories (cl) : memories (s.retireCluster cl) = memories s := by simp [State.retireCluster]

@[simp] theorem marginSample_memories (cl slack) : memories (s.marginSample cl slack) = memories s := by simp [State.marginSample]

@[simp] theorem raiseMin_memories : memories s.raiseMin = memories s := by simp [State.raiseMin]

@[simp] theorem cmdDone_memories : memories (cmdDone s).2.2 = memories s := rfl
@[simp] theorem cmdBad_memories : memories (cmdBad s).2.2 = memories s := rfl
end

section
variable {s : State} (h : Canonical (memories s))
include h

@[simp] theorem cancelRing_canonical (q n) : Canonical (memories (s.cancelRing q n)) := by
  induction n generalizing s with
  | zero => exact h
  | succ n ih =>
    unfold State.cancelRing
    split
    · exact ih (by simp [h])
    · exact h

@[simp] theorem unfence_canonical (sp) : Canonical (memories (s.unfence sp)) := by simp [State.unfence, h]
@[simp] theorem powerOff_canonical : Canonical (memories s.powerOff) := ⟨rfl, h.2⟩
@[simp] theorem powerUp_canonical : Canonical (memories s.powerUp) := ⟨rfl, h.2⟩
@[simp] theorem zeroAll_canonical : Canonical (memories s.zeroAll) := ⟨rfl, h.2⟩
@[simp] theorem stageWork_canonical (stage) : Canonical (memories (s.stageWork stage)) := by unfold State.stageWork; split <;> simp [h]
@[simp] theorem stageDone_canonical (ok) : Canonical (memories (s.stageDone ok)) := by simp [State.stageDone, h]
end

/-! ### Operations of the fetch (Machine/Fetch.lean) -/

section
variable (s : State)

@[simp] theorem cacheLine_memories (sp line ws) : memories (s.cacheLine sp line ws) = memories s := by simp [State.cacheLine]
@[simp] theorem dropUnit_memories : memories s.dropUnit = memories s := by simp [State.dropUnit]

@[simp] theorem missLine_memories (va fa) : memories (s.missLine va fa) = memories s := by simp [State.missLine]

@[simp] theorem checkerFault_memories : memories s.checkerFault = memories s := by simp [State.checkerFault]
@[simp] theorem prefixTwice_memories : memories s.prefixTwice = memories s := by simp [State.prefixTwice]
@[simp] theorem takeDeferred_memories (t) : memories (s.takeDeferred t) = memories s := by simp [State.takeDeferred]
end

/-! ### Messages at their homes (Machine/NetEvents.lean) -/

section
variable (s : State)

@[simp] theorem migrateIn_memories (m) : memories (s.migrateIn m) = memories s := by
  unfold State.migrateIn
  repeat' split
  case h_1 t h => rw [send_memories, arriveThread_memories _ h]
  all_goals simp

@[simp] theorem migrateAnswer_memories (m code) : memories (s.migrateAnswer m code) = memories s := by simp [State.migrateAnswer]
@[simp] theorem migrateAgain_memories (sp c) : memories (s.migrateAgain sp c) = memories s := by unfold State.migrateAgain; split <;> simp
@[simp] theorem sleepEnd_memories (sp c) : memories (s.sleepEnd sp c) = memories s := by unfold State.sleepEnd; dsimp only; split <;> simp
@[simp] theorem recvtEnd_memories (sp c) : memories (s.recvtEnd sp c) = memories s := by unfold State.recvtEnd; dsimp only; split <;> simp
@[simp] theorem giveUp_memories (k tok) : memories (s.giveUp k tok) = memories s := by unfold State.giveUp; dsimp only; split <;> simp

@[simp] theorem requestEnd_memories (sp c) : memories (s.requestEnd sp c) = memories s := by
  unfold State.requestEnd; dsimp only; (repeat' split) <;> simp

@[simp] theorem walkEnd_memories (sp c) : memories (s.walkEnd sp c) = memories s := by unfold State.walkEnd; dsimp only; (repeat' split) <;> simp

@[simp] theorem readIn_memories (m) : memories (s.readIn m) = memories s := by
  unfold State.readIn; dsimp only; (repeat' split) <;> simp

@[simp] theorem unbound_memories (k tok) : memories (s.unbound k tok) = memories s := by simp [State.unbound]
@[simp] theorem syncAnswer_memories (m b) : memories (s.syncAnswer m b) = memories s := by simp [State.syncAnswer]
@[simp] theorem syncRefusal_memories (m cause) : memories (s.syncRefusal m cause) = memories s := by simp [State.syncRefusal]
@[simp] theorem restartTime_memories (k tok) : memories (s.restartTime k tok) = memories s := by simp [State.restartTime]
@[simp] theorem appendIn_memories (m) : memories (s.appendIn m) = memories s := by unfold State.appendIn; (repeat' split) <;> simp
@[simp] theorem fastClock_memories (sp tok) : memories (s.fastClock sp tok) = memories s := by simp [State.fastClock]
@[simp] theorem replyIn_memories (m) : memories (s.replyIn m) = memories s := by unfold State.replyIn; (repeat' split) <;> simp

@[simp] theorem refusedWait_memories (k cause addr) : memories (s.refusedWait k cause addr) = memories s := by
  unfold State.refusedWait; dsimp only; split <;> simp

@[simp] theorem nackIn_memories (m) : memories (s.nackIn m) = memories s := by unfold State.nackIn; (repeat' split) <;> simp
@[simp] theorem chanIn_memories (m) : memories (s.chanIn m) = memories s := by unfold State.chanIn; dsimp only; (repeat' split) <;> simp
@[simp] theorem creditIn_memories (m) : memories (s.creditIn m) = memories s := by unfold State.creditIn; dsimp only; (repeat' split) <;> simp
@[simp] theorem sendAgain_memories (id) : memories (s.sendAgain id) = memories s := by unfold State.sendAgain; split <;> simp
@[simp] theorem closeJob_memories (j) : memories (s.closeJob j) = memories s := by simp [State.closeJob]
@[simp] theorem phaseDone_memories (j g) : memories (s.phaseDone j g) = memories s := by simp [State.phaseDone]
@[simp] theorem recordIn_memories (m) : memories (s.recordIn m) = memories s := by unfold State.recordIn; split <;> simp
@[simp] theorem recordBack_memories (m) : memories (s.recordBack m) = memories s := by unfold State.recordBack; split <;> simp
end

section
variable {s : State} (h : Canonical (memories s))
include h

@[simp] theorem writeIn_canonical (m) : Canonical (memories (s.writeIn m)) := by
  unfold State.writeIn
  split
  · split
    · split
      case h_1 t e => rw [send_memories, windowStore_memories _ e]; exact h
      · simp [h]
    · split <;> simp [h]
  · exact h

@[simp] theorem atomicIn_canonical (m) : Canonical (memories (s.atomicIn m)) := by
  unfold State.atomicIn
  split
  · split <;> simp [h]
  · exact h

@[simp] theorem syncIn_canonical (m) : Canonical (memories (s.syncIn m)) := by
  unfold State.syncIn; dsimp only
  split
  · split; · simp [h]
    split; · simp [h]
    split; · simp [h]
    split <;> simp [bankSync_eq_canonical h ‹_›]
  · exact h

@[simp] theorem waiterAgain_canonical (id) : Canonical (memories (s.waiterAgain id)) := by unfold State.waiterAgain; (repeat' split) <;> simp [h]

@[simp] theorem layerIn_canonical (m) : Canonical (memories (s.layerIn m)) := by
  unfold State.layerIn
  split
  · split
    · simp [h]
    · split
      case h_1 v t e => rw [send_memories]; exact lyrPerform_canonical _ h _ _ _ _ _ _ e
      all_goals simp [h]
  · exact h

@[simp] theorem mergeOn_canonical (j g) : Canonical (memories (s.mergeOn j g)) := by simp [State.mergeOn, h]
@[simp] theorem phaseComplete_canonical (j g) : Canonical (memories (s.phaseComplete j g)) := by simp [State.phaseComplete, h]
end

/-! ### The next cycle (Machine/Schedule.lean) -/

section
variable (s : State)

@[simp] theorem tick_memories : memories s.tick = memories s := by simp [State.tick]
end

/-! ### Special registers (Machine/Special.lean) -/

section
variable (s : State)

@[simp] theorem srd_memories (d sr) : memories (s.srd d sr) = memories s := by unfold State.srd; split <;> simp
@[simp] theorem swr_memories (sr v) : memories (s.swr sr v) = memories s := by simp [State.swr]
end

/-! ### Threads (Machine/Thread.lean) -/

section
variable (s : State)

@[simp] theorem spawnHere_memories (d pc g1 g2) : memories (s.spawnHere d pc g1 g2) = memories s := by
  simp only [State.spawnHere]; split <;> simp

@[simp] theorem spawn_memories (d a b c) : memories (s.spawn d a b c) = memories s := by simp [State.spawn]
@[simp] theorem reap_memories (d a) : memories (s.reap d a) = memories s := by unfold State.reap; dsimp only; (repeat' split) <;> simp
@[simp] theorem exit_memories (a) : memories (s.exit a) = memories s := by simp [State.exit]
@[simp] theorem sleep_memories (a) : memories (s.sleep a) = memories s := by simp [State.sleep]
@[simp] theorem migr_memories (d a) : memories (s.migr d a) = memories s := by simp [State.migr]
end

/-! ### BRK and RESUME (Machine/TrapOps.lean) -/

section
variable (s : State)

@[simp] theorem brk_memories : memories s.brk = memories s := by simp [State.brk]

@[simp] theorem resumeOp_memories (d a mode) : memories (s.resumeOp d a mode) = memories s := by simp [State.resumeOp]
end

/-! ### Vector arithmetic (Machine/Vector.lean) -/

section
variable (s : State)

@[simp] theorem vform_memories (vd va others mg ok clash rt f) : memories (s.vform vd va others mg ok clash rt f) = memories s := by
  unfold State.vform; dsimp only; split <;> simp

@[simp] theorem varith_memories (op vd va vb im mg rm) : memories (s.varith op vd va vb im mg rm) = memories s := by simp [State.varith]
@[simp] theorem vminmax_memories (mx vd va vb u mg) : memories (s.vminmax mx vd va vb u mg) = memories s := by simp [State.vminmax]
@[simp] theorem vfun_memories (g vd va mg rm) : memories (s.vfun g vd va mg rm) = memories s := by simp [State.vfun]
@[simp] theorem vbits_memories (vd va vb mg ok f) : memories (s.vbits vd va vb mg ok f) = memories s := by simp [State.vbits]
@[simp] theorem vcmp_memories (r vd va vb u mg) : memories (s.vcmp r vd va vb u mg) = memories s := by simp [State.vcmp]
end

/-! ### Vector conversions (Machine/VectorConv.lean) -/

section
variable (s : State)

@[simp] theorem vcvt_memories (vd va n tt mg rm) : memories (s.vcvt vd va n tt mg rm) = memories s := by simp [State.vcvt]
@[simp] theorem vqnt_memories (vd va vb f h0) : memories (s.vqnt vd va vb f h0) = memories s := by unfold State.vqnt; dsimp only; split <;> simp
@[simp] theorem vdq_memories (vd va blk f16 mg) : memories (s.vdq vd va blk f16 mg) = memories s := by simp [State.vdq]

@[simp] theorem vtagSet_memories (vd va t) : memories (s.vtagSet vd va t) = memories s := by
  simp only [State.vtagSet, memories_ite, tagTrap_memories, retire_memories, ite_self]
end

/-! ### Lane moves (Machine/VectorPerm.lean) -/

section
variable (s : State)

@[simp] theorem vperm_memories (vd va vb mg) : memories (s.vperm vd va vb mg) = memories s := by unfold State.vperm; dsimp only; split <;> simp

@[simp] theorem redCheck_memories {f : Nat → State} (hf : ∀ t, memories (f t) = memories s) (va clash) :
    memories (s.redCheck va clash f) = memories s := by simp [State.redCheck, hf]

@[simp] theorem vredMinMax_memories (mx vd va u mg) : memories (s.vredMinMax mx vd va u mg) = memories s := by simp [State.vredMinMax]
@[simp] theorem vmsk_memories (g va) : memories (s.vmsk g va) = memories s := by simp [State.vmsk]
@[simp] theorem vins_memories (vd g k) : memories (s.vins vd g k) = memories s := by simp [State.vins]
@[simp] theorem vext_memories (g va k sx) : memories (s.vext g va k sx) = memories s := by simp [State.vext]
end

/-! ### What the management commands do (R385) -/

section
variable {s : State} (h : Canonical (memories s))
include h

theorem runCmd_canonical {f : Nat → Nat → Nat → Nat → State → CmdOut}
    (hf : ∀ a b c d, Canonical (memories (f a b c d s).2.2)) (code) : Canonical (memories (s.runCmd code f)) := by
  rcases runCmd_cases s code f with e | ⟨a, b, c, d, e⟩
  · rwa [e]
  · rw [e]; exact hf a b c d
end

section
variable {s : State} (h : Canonical (memories s)) (a b c d : Nat)
include h

theorem invtlb_canonical : Canonical (memories (s.invtlb a b c d).2.2) := by unfold State.invtlb; (repeat' split) <;> simp [h]

theorem teardown_canonical : Canonical (memories (s.teardown a b c d).2.2) := by
  unfold State.teardown; dsimp only
  split
  · simp [h]
  · rw [apply_ite (f := fun x : CmdOut => memories x.2.2), cmdDone_memories, cmdDone_memories, memories_foldl fun s j => by split <;> simp, ite_self]
    refine cancelRing_canonical ?_ _ _
    split <;> simp [h]

theorem bindq_canonical : Canonical (memories (s.bindq a b c d).2.2) := by unfold State.bindq; (repeat' split) <;> simp [h]
theorem winset_canonical : Canonical (memories (s.winset a b c d).2.2) := by unfold State.winset; dsimp only; (repeat' split) <;> simp [h]
theorem pairset_canonical : Canonical (memories (s.pairset a b c d).2.2) := by unfold State.pairset; (repeat' split) <;> simp [h]
theorem contset_canonical : Canonical (memories (s.contset a b c d).2.2) := by unfold State.contset; dsimp only; (repeat' split) <;> simp [h]

theorem clearfence_canonical : Canonical (memories (s.clearfence a b c d).2.2) := by
  have cleared (l : List Nat) : Canonical (memories (l.foldl State.unfence s)) := canonical_foldl (fun s e h => by simp [h]) l h
  unfold State.clearfence; dsimp only; (repeat' split) <;> simp [h, cleared]

theorem stopGo_canonical (halt) : Canonical (memories (s.stopGo halt a b c d).2.2) := by unfold State.stopGo; (repeat' split) <;> simp [h]

theorem devWords_canonical {addr ws t} (e : s.devWords addr ws = some t) : Canonical (memories t) := by
  unfold State.devWords at e; dsimp only at e
  split at e
  · cases e
    exact canonical_foldl (fun s e h => by split <;> simp [h]) _ h
  · cases e

theorem stopread_canonical : Canonical (memories (s.stopread a b c d).2.2) := by
  unfold State.stopread; dsimp only
  split; · simp [h]
  split
  case h_1 e => exact devWords_canonical h e
  · simp [h]

theorem peermap_canonical : Canonical (memories (s.peermap a b c d).2.2) := by unfold State.peermap; (repeat' split) <;> simp [h]
theorem route_canonical : Canonical (memories (s.route a b c d).2.2) := by unfold State.route; (repeat' split) <;> simp [h]
theorem dwmap_canonical : Canonical (memories (s.dwmap a b c d).2.2) := by unfold State.dwmap; (repeat' split) <;> simp [h]
theorem setPower_canonical : Canonical (memories (s.setPower a b c d).2.2) := by unfold State.setPower; (repeat' split) <;> simp [h]
theorem attest_canonical : Canonical (memories (s.attest a b c d).2.2) := by simp [State.attest, h]
theorem fwload_canonical : Canonical (memories (s.fwload a b c d).2.2) := by unfold State.fwload; (repeat' split) <;> simp [h]

theorem fenceread_canonical : Canonical (memories (s.fenceread a b c d).2.2) := by
  unfold State.fenceread; dsimp only
  split; · simp [h]
  split; · simp [h]
  split; · simp [h]
  split
  case h_1 e => exact devWords_canonical h e
  · simp [h]

theorem chipno_canonical : Canonical (memories (s.chipno a b c d).2.2) := by unfold State.chipno; (repeat' split) <;> simp [h]
end

/-! ### What a row of the opcode table does -/

/-- The state that an outcome goes on with has its memories in canonical form. -/
def OutCanonical (o : Out) : Prop := ∀ t, o = .next t → Canonical (memories t)

@[simp] theorem outCanonical_next {t : State} : OutCanonical (.next t) ↔ Canonical (memories t) :=
  ⟨fun h => h t rfl, fun h _ e => Host.Outcome.next.inj e ▸ h⟩

@[simp] theorem outCanonical_fault (r) : OutCanonical (.fault r) := fun _ e => nomatch e

/-! An event or a form whose row has several outcomes. -/

section
variable {s : State} (h : Canonical (memories s))
include h

theorem execHostMemWrite_canonical (off n v) : OutCanonical (execHostMemWrite off n v s) := by
  unfold execHostMemWrite; (repeat' split) <;> simp [h]

theorem execHostMemRead_canonical (off n) : OutCanonical (execHostMemRead off n s) := by
  unfold execHostMemRead; dsimp only; (repeat' split) <;> simp [h]

theorem execUncorrectableEccError_canonical (fa) : OutCanonical (execUncorrectableEccError fa s) := by
  unfold execUncorrectableEccError; split <;> simp [h]

theorem execVscat_canonical (v a mg vi) : OutCanonical (execVscat v a mg vi s) := by
  unfold execVscat; dsimp only; split <;> simp [h]

theorem execCopyComplete_canonical (eng) : OutCanonical (execCopyComplete eng s) := by
  unfold execCopyComplete; split <;> simp [h]

theorem execRecordTake_canonical (q) : OutCanonical (execRecordTake q s) := by
  unfold execRecordTake; split <;> simp [h]

theorem execLoomQueueEntry_canonical (cl) : OutCanonical (execLoomQueueEntry cl s) := by
  unfold execLoomQueueEntry; (repeat' split) <;> simp [h]

theorem execVfma_canonical (vd va vb vc mg rm) : OutCanonical (execVfma vd va vb vc mg rm s) := by
  unfold execVfma; dsimp only; (repeat' split) <;> simp [h]

theorem execVsel_canonical (vd va vb vc mg) : OutCanonical (execVsel vd va vb vc mg s) := by
  unfold execVsel; dsimp only; (repeat' split) <;> simp [h]
end

/-- Every row of the opcode table keeps the canonical form. -/
theorem exec_canonical (i : Instr) {s : State} (h : Canonical (memories s)) : OutCanonical (exec i s) := by
  have next {t : State} (h : Canonical (memories t)) : OutCanonical (.next t) := outCanonical_next.2 h
  have cmd (code : Nat) {f : Nat → Nat → Nat → Nat → State → CmdOut} (hf : ∀ a b c d, Canonical (memories (f a b c d s).2.2)) :
      OutCanonical (.next (s.runCmd code f)) := next (runCmd_canonical h hf code)
  have arrives (id : Nat) (q : Body → Bool) {f : Msg → State → State}
      (hf : ∀ m t, Canonical (memories t) → Canonical (memories (f m t))) : OutCanonical (.next (s.onArrive id q f)) :=
    next (onArrive_canonical h hf id q)
  cases i with
  -- stores, synchronising forms and atomics
  | st | stLiteral => exact next (st_canonical h _ _ _)
  | ldf | ldfLiteral | lde | ldeLiteral | feq | feqLiteral | stf | stfLiteral | stw | stwLiteral | fec | fecLiteral =>
    exact next (sync_canonical h _ _ _ _ _)
  | aadd | aand | aor | axor | amins | amaxs | aminn | amaxn | aswap | acas | afadd | afmin | afmax =>
    exact next (amo_canonical h _ _ _ _ _ _)
  | vst => exact next (vst_canonical h _ _ _ _)
  | vsts | vstb => exact next (by simp [h])
  | vscat => exact execVscat_canonical h _ _ _ _
  -- copies
  | cpgo | cptry => exact next (copyGo_canonical h _ _)
  | copyChunk => exact next (copyChunk_canonical h _)
  | copyComplete => exact execCopyComplete_canonical h _
  | peerChunkArrival =>
    refine next ?_
    split
    · exact h
    · exact onArrive_canonical h (fun m t h => peerIn_canonical h m) _ _
  -- requests at their home
  | remoteWriteRequest => exact arrives _ _ fun m t h => writeIn_canonical h m
  | remoteAtomicRequest => exact arrives _ _ fun m t h => atomicIn_canonical h m
  | syncRequest => exact arrives _ _ fun m t h => syncIn_canonical h m
  | waiterRetry => exact next (waiterAgain_canonical h _)
  | batchApply => exact arrives _ _ fun m t h => batchIn_canonical h m
  | layerRequest => exact arrives _ _ fun m t h => layerIn_canonical h m
  | phaseComplete => exact next (phaseComplete_canonical h _ _)
  | loomStep => exact next (by simp [h])
  -- the host and the dispatcher
  | hostFill => exact next (hostFill_canonical h _ _)
  | hostMemWrite => exact execHostMemWrite_canonical h _ _ _
  | hostMemRead => exact execHostMemRead_canonical h _ _
  | uncorrectableEccError => exact execUncorrectableEccError_canonical h _
  | recordTake => exact execRecordTake_canonical h _
  | dependencyPoll => exact next (pollQueue_canonical h _)
  | launchSelect => exact next (launchSelect_canonical h)
  | goWordReady => exact next (by simp [h])
  | launchStart => exact next (launchStart_canonical h _)
  | launchRequest => exact arrives _ _ fun m t h => launchIn_canonical h m
  | launchRetire => exact next (by simp [h])
  -- management
  | invtlb => exact cmd _ (invtlb_canonical h)
  | teardown =>
    refine next ?_
    split
    · exact h
    · exact runCmd_canonical h (teardown_canonical h) _
  | bindq => exact cmd _ (bindq_canonical h)
  | winset => exact cmd _ (winset_canonical h)
  | pairset => exact cmd _ (pairset_canonical h)
  | contset => exact cmd _ (contset_canonical h)
  | clearfence => exact cmd _ (clearfence_canonical h)
  | stop | go => exact cmd _ (stopGo_canonical h · · · · _)
  | stopread => exact cmd _ (stopread_canonical h)
  | peermap => exact cmd _ (peermap_canonical h)
  | route => exact cmd _ (route_canonical h)
  | dwmap => exact cmd _ (dwmap_canonical h)
  | pstate => exact cmd _ (setPower_canonical h)
  | attest => exact cmd _ (attest_canonical h)
  | fwload => exact cmd _ (fwload_canonical h)
  | fenceread => exact cmd _ (fenceread_canonical h)
  | chipno => exact cmd _ (chipno_canonical h)
  | powerOn => exact next (powerUp_canonical h)
  | bringupStageDone => exact next (stageDone_canonical h _)
  -- rows with several outcomes, and arrivals, that leave memory alone
  | loomQueueEntry => exact execLoomQueueEntry_canonical h _
  | vfma => exact execVfma_canonical h _ _ _ _ _ _
  | vsel => exact execVsel_canonical h _ _ _ _ _
  | migrationAnswer | exitNotice | replyArrival | relAck | chunkAck => exact arrives _ _ fun m t h => by split <;> simp [h]
  -- every other row leaves memory alone
  | _ => exact next (by simp [h])

/-! ### The fetch -/

/-- The state that a fetch leaves, whatever it gives. -/
def fetchState {α : Type} : Fetch α → State
  | .ok _ s | .fault _ s | .refused _ s | .wait s => s

/-- The state in which a fetched unit runs, or a context stays. -/
def fetchedState : Fetched → State
  | .run _ s | .stay s => s

section
variable {α : Type} (a : α) (s : State) (va : Word) (i : Instr)

@[simp] theorem fetchState_ok : fetchState (.ok a s) = s := rfl
@[simp] theorem fetchState_fault : fetchState (.fault va s : Fetch α) = s := rfl
@[simp] theorem fetchState_refused : fetchState (.refused va s : Fetch α) = s := rfl
@[simp] theorem fetchState_wait : fetchState (.wait s : Fetch α) = s := rfl
@[simp] theorem fetchedState_run : fetchedState (.run i s) = s := rfl
@[simp] theorem fetchedState_stay : fetchedState (.stay s) = s := rfl
end

theorem bind_memories {α β : Type} {s : State} {x : Fetch α} {f : α → State → Fetch β} (hx : memories (fetchState x) = memories s)
    (hf : ∀ a t, memories (fetchState (f a t)) = memories t) : memories (fetchState (x.bind f)) = memories s := by
  cases x with
  | ok a t => exact (hf a t).trans hx
  | _ => exact hx

theorem fetchWord_memories (s : State) (va) : memories (fetchState (s.fetchWord va)) = memories s := by
  unfold State.fetchWord; dsimp only; (repeat' split) <;> simp

theorem fetchWords_memories (n) (s : State) (va) : memories (fetchState (State.fetchWords n s va)) = memories s := by
  induction n generalizing s va with
  | zero => rfl
  | succ n ih => exact bind_memories (fetchWord_memories s va) fun _ t => bind_memories (ih t _) fun _ _ => rfl

theorem fetchInstr_memories (s : State) (va) : memories (fetchState (s.fetchInstr va)) = memories s :=
  bind_memories (fetchWord_memories s va) fun _ t => bind_memories (fetchWords_memories _ t _) fun _ _ => rfl

theorem admitInstr_memories (s : State) (i) : memories (fetchedState (s.admitInstr i)) = memories s := by
  unfold State.admitInstr; dsimp only; (repeat' split) <;> simp

theorem judge_memories (s : State) (d) : memories (fetchedState (s.judge d)) = memories s := by
  unfold State.judge; dsimp only; (repeat' split) <;> simp [admitInstr_memories]

theorem unitWord_memories (s : State) : memories (fetchedState s.unitWord) = memories s := by
  have h := fetchInstr_memories s (s.me.unit.pc + BitVec.ofNat 64 (4 * s.me.unit.words.length))
  unfold State.unitWord; dsimp only
  generalize s.fetchInstr (s.me.unit.pc + BitVec.ofNat 64 (4 * s.me.unit.words.length)) = x at h ⊢
  cases x with
  | ok ws t => simpa [judge_memories] using h
  | fault | refused | wait => simpa using h

theorem turnOf_memories (s : State) (k) : memories (fetchedState (s.turnOf k)) = memories s := by
  unfold State.turnOf State.beginUnit; dsimp only
  (repeat' split) <;> simp [admitInstr_memories, unitWord_memories]

theorem go_canonical {x : Fetched} (h : Canonical (memories (fetchedState x))) : OutCanonical x.go := by
  cases x with
  | run i s => exact exec_canonical i h
  | stay s => exact outCanonical_next.2 h

/-! ### What may happen next -/

/-- An action of the scheduler keeps the canonical form, from whatever state it is taken. -/
def KeepsCanonical (f : Act) : Prop := ∀ s, Canonical (memories s) → OutCanonical (f s)

/-- Every action of a list does. -/
def AllKeepCanonical (l : List Act) : Prop := ∀ f ∈ l, KeepsCanonical f

theorem keeps_exec (i : Instr) : KeepsCanonical (exec i) := fun _ h => exec_canonical i h

theorem allKeep_nil : AllKeepCanonical [] := List.forall_mem_nil _
theorem allKeep_one (i : Instr) : AllKeepCanonical [exec i] := List.forall_mem_singleton.2 (keeps_exec i)

theorem AllKeepCanonical.append {l m : List Act} (hl : AllKeepCanonical l) (hm : AllKeepCanonical m) : AllKeepCanonical (l ++ m) :=
  List.forall_mem_append.2 ⟨hl, hm⟩

theorem AllKeepCanonical.iteNil {l : List Act} (hl : AllKeepCanonical l) (c : Prop) [Decidable c] : AllKeepCanonical (if c then l else []) := by
  split
  · exact hl
  · exact allKeep_nil

theorem AllKeepCanonical.nilIte {l : List Act} (hl : AllKeepCanonical l) (c : Prop) [Decidable c] : AllKeepCanonical (if c then [] else l) := by
  split
  · exact allKeep_nil
  · exact hl

theorem allKeep_map {α : Type} (l : List α) (f : α → Instr) : AllKeepCanonical (l.map fun x => exec (f x)) :=
  List.forall_mem_map.2 fun x _ => keeps_exec (f x)

theorem allKeep_flatMap {α : Type} (l : List α) {f : α → List Act} (h : ∀ x, AllKeepCanonical (f x)) : AllKeepCanonical (l.flatMap f) := by
  intro g hg
  obtain ⟨x, -, hx⟩ := List.mem_flatMap.1 hg
  exact h x g hx

section
variable (s : State)

theorem ctxDue_keep (k c) : AllKeepCanonical (s.ctxDue k c) := by
  unfold State.ctxDue
  split
  · refine .nilIte ?_ _
    split
    · exact allKeep_one (.sleepExpiry _ _)
    · exact .iteNil (allKeep_one (.recvtTimeout _ _)) _
  · exact .iteNil (allKeep_one (.requestTimeout _ _)) _

theorem msgDue_keep (m) : AllKeepCanonical (s.msgDue m) := by
  unfold State.msgDue
  refine .nilIte ?_ _
  split
  · exact .iteNil (allKeep_one (.waiterRetry _)) _
  · exact allKeep_one (.migrationResend _ _)
  · exact allKeep_one (.nackBusyResend _)

theorem spDue_keep (sp p) : AllKeepCanonical (s.spDue sp p) :=
  .append (allKeep_map _ fun _ => .batchCloseTimeout _ _) (.iteNil (allKeep_one (.migrantAdmission _)) _)

theorem fastDue_keep (q x) : AllKeepCanonical (s.fastDue q x) := by
  unfold State.fastDue
  split
  · refine .nilIte ?_ _
    split
    · exact .iteNil (allKeep_one (.launchStart _)) _
    · exact .iteNil (allKeep_one (.recordTake _)) _
  · exact allKeep_nil

theorem queueDue_keep (q x) : AllKeepCanonical (s.queueDue q x) := by
  refine .append ?_ (fastDue_keep s q x)
  split
  · exact .iteNil (allKeep_one (.dependencyPoll _)) _
  · exact allKeep_nil

theorem keeps_ringAgain : KeepsCanonical fun t => .next t.ringAgain := fun _ h => outCanonical_next.2 (by simp [h])

theorem jobDue_keep (j jb) : AllKeepCanonical (s.jobDue j jb) :=
  .append (.append (.iteNil (allKeep_one (.preemptWindowExpiry _)) _) (.iteNil (allKeep_one (.jobSwitchOut _)) _))
    (.iteNil (List.forall_mem_singleton.2 keeps_ringAgain) _)

theorem arrival_keeps (m) : KeepsCanonical (s.arrival m) := by
  unfold State.arrival
  cases m.body with
  | migrate => exact keeps_exec (.migrationMessage _)
  | migAnswer => exact keeps_exec (.migrationAnswer _)
  | read | fetchLine | chq | query | bindNote => exact keeps_exec (.remoteReadRequest _)
  | write => exact keeps_exec (.remoteWriteRequest _)
  | atomic => exact keeps_exec (.remoteAtomicRequest _)
  | sync => exact keeps_exec (.syncRequest _)
  | append => exact keeps_exec (.skeinAppend _)
  | reply | ack | line =>
    dsimp only
    split
    · exact keeps_exec (.relAck _)
    · exact keeps_exec (.replyArrival _)
  | nack | subAnswer | chanNack => exact keeps_exec (.nackRefusal _)
  | nackBusy => exact keeps_exec (.waiterRetry _)
  | subReq => exact keeps_exec (.subscriptionRequest _)
  | batch => exact keeps_exec (.batchApply _)
  | batchAck => exact keeps_exec (.batchAck _)
  | batchNack => exact keeps_exec (.batchNack _)
  | subRemove => exact keeps_exec (.subscriptionRemoval _)
  | drainReq => exact keeps_exec (.drainRequest _)
  | chan | mail => exact keeps_exec (.channelMessage _)
  | credit => exact keeps_exec (.creditReturn _)
  | exitNotice => exact keeps_exec (.exitNotice _)
  | trapRec => exact keeps_exec (.trapRecordArrival _)
  | trapNack => exact keeps_exec (.trapRecordRefused _)
  | layer => exact keeps_exec (.layerRequest _)
  | launch => exact keeps_exec (.launchRequest _)
  | peerChunk | peerEmpty => exact keeps_exec (.peerChunkArrival _)
  | chunkAck => exact keeps_exec (.chunkAck _)
  | token => exact keeps_exec (.frontToken _)

theorem arrivals_keep : AllKeepCanonical s.arrivals := List.forall_mem_map.2 fun m _ => arrival_keeps s m

theorem hurried_keep : AllKeepCanonical s.hurried := by
  unfold State.hurried
  split
  · exact allKeep_nil
  · exact List.forall_mem_map.2 fun m _ => arrival_keeps s m

theorem trebexDue_keep : AllKeepCanonical s.trebexDue := by
  unfold State.trebexDue
  refine .append ?_ (.iteNil ?_ _)
  · split
    · exact .iteNil (allKeep_one (.bringupStageDone _)) _
    · exact allKeep_nil
  · split
    · exact .iteNil (allKeep_one .clearfence) _
    · exact allKeep_nil

theorem due_keep : AllKeepCanonical s.due := by
  unfold State.due
  refine .append (.append (.append (.append (.append (.append (.append (.append ?_ ?_) ?_) ?_) ?_) ?_) ?_) ?_) ?_
  · exact allKeep_flatMap _ fun e => ctxDue_keep s _ _
  · exact hurried_keep s
  · exact allKeep_flatMap _ fun m => msgDue_keep s m
  · exact allKeep_flatMap _ fun e => spDue_keep s _ _
  · exact allKeep_flatMap _ fun e => .iteNil (allKeep_one (.linkAckTimeout _)) _
  · exact allKeep_flatMap _ fun e => queueDue_keep s _ _
  · exact allKeep_flatMap _ fun e => jobDue_keep s _ _
  · exact trebexDue_keep s
  · exact .iteNil (allKeep_one .launchSelect) _

theorem clusterActs_keep (cl x) : AllKeepCanonical (s.clusterActs cl x) :=
  .append (.append (.append (allKeep_map _ fun _ => .pageWalkDone _ _) (.iteNil (allKeep_one (.loomQueueEntry _)) _))
    (.iteNil (allKeep_one (.loomStep _)) _)) (.iteNil (allKeep_one (.taskDelivery _)) _)

theorem engineActs_keep (e g) : AllKeepCanonical (s.engineActs e g) :=
  .append (.iteNil (allKeep_one (.copyChunk _)) _) (.iteNil (allKeep_one (.copyComplete _)) _)

theorem linkActs_keep (n l) : AllKeepCanonical (s.linkActs n l) :=
  .nilIte (.append (.append (.append (.nilIte (allKeep_one (.linkDataFlit _ _)) _) (.nilIte (allKeep_one (.linkRetryFlit _)) _))
    (.iteNil (allKeep_one (.linkIdleFlit _)) _)) (.iteNil (allKeep_one (.linkRetrainDone _ _)) _)) _

theorem jobActs_keep (j jb) : AllKeepCanonical (s.jobActs j jb) :=
  .append (.iteNil (allKeep_map _ fun _ => .phaseComplete _ _) _) (.iteNil (allKeep_one (.launchRetire _)) _)

theorem queueActs_keep (q x) : AllKeepCanonical (s.queueActs q x) := by
  refine .append (.append (.iteNil (allKeep_one (.recordTake _)) _) ?_) (.iteNil (allKeep_one (.launchStart _)) _)
  split
  · exact .iteNil (allKeep_one (.goWordReady _)) _
  · exact allKeep_nil

theorem mgmtActs_keep : AllKeepCanonical s.mgmtActs := by
  unfold State.mgmtActs
  refine .nilIte ?_ _
  split
  · exact allKeep_one .invtlb
  · exact .nilIte (allKeep_one .teardown) _
  · exact allKeep_one .bindq
  · exact allKeep_one .winset
  · exact allKeep_one .pairset
  · exact allKeep_one .contset
  · exact allKeep_one .clearfence
  · exact allKeep_one .stop
  · exact allKeep_one .go
  · exact allKeep_one .stopread
  · exact allKeep_one .peermap
  · exact allKeep_one .route
  · exact allKeep_one .dwmap
  · exact allKeep_one .pstate
  · exact allKeep_one .attest
  · exact allKeep_one .fwload
  · exact allKeep_one .fenceread
  · exact allKeep_one .chipno
  · exact allKeep_nil

theorem mayHappen_keep : AllKeepCanonical s.mayHappen := by
  unfold State.mayHappen
  refine .append (.append (.append (.append (.append (.append (.append (.append ?_ ?_) ?_) ?_) ?_) ?_) ?_) ?_) ?_
  · exact arrivals_keep s
  · exact allKeep_flatMap _ fun e => clusterActs_keep s _ _
  · exact allKeep_flatMap _ fun e => engineActs_keep s _ _
  · exact allKeep_flatMap _ fun e => linkActs_keep s _ _
  · exact allKeep_flatMap _ fun e => jobActs_keep s _ _
  · exact allKeep_flatMap _ fun e => queueActs_keep s _ _
  · exact .iteNil (allKeep_one .unravelStep) _
  · exact mgmtActs_keep s
  · exact .iteNil (allKeep_one (.bringupStageDone _)) _
end

/-! ### The step -/

/-- An action among the moves is due or may happen. -/
theorem act_mem_moves {s : State} {f : Act} (h : .act f ∈ s.moves) : f ∈ s.due ∨ f ∈ s.mayHappen := by
  unfold State.moves at h
  split at h
  · exact .inr (by simpa using h)
  · exact .inl (by simpa using h)

theorem act_keeps {s : State} {f : Act} (h : .act f ∈ s.moves) : KeepsCanonical f := by
  rcases act_mem_moves h with h | h
  · exact due_keep s f h
  · exact mayHappen_keep s f h

theorem move_canonical {s : State} {m : Move} (hm : m ∈ s.moves ∨ m = .cycle) {t : State} (h : Canonical (memories t)) :
    OutCanonical (m.go t) := by
  cases m with
  | act f => exact act_keeps (hm.resolve_right (nomatch ·)) t h
  | turn k => exact go_canonical (by simp [turnOf_memories, h])
  | cycle => exact outCanonical_next.2 (by simp [h])

theorem getD_mem_or_eq {α : Type} (l : List α) (i : Nat) (d : α) : l.getD i d ∈ l ∨ l.getD i d = d := by
  rcases Nat.lt_or_ge i l.length with h | h
  · exact .inl (by rw [List.getD_eq_getElem _ _ h]; exact List.getElem_mem h)
  · exact .inr (List.getD_eq_default _ _ h)

theorem chooseMove_mem (s : State) : s.chooseMove.1 ∈ s.moves ∨ s.chooseMove.1 = .cycle := by
  unfold State.chooseMove
  split
  · exact .inr rfl
  · exact .inl (by simp [*])
  · exact getD_mem_or_eq _ _ _

theorem chooseMove_memories (s : State) : memories s.chooseMove.2 = memories s := by
  unfold State.chooseMove; split <;> simp

theorem take_canonical {s : State} (h : Canonical (memories s)) (t) : OutCanonical (s.take t) := by
  cases t with
  | event e =>
    unfold State.take; dsimp only; split
    · exact exec_canonical e h
    · exact outCanonical_next.2 h
  | issue sp =>
    unfold State.take; dsimp only; split
    · exact go_canonical (by simp [turnOf_memories, h])
    · exact outCanonical_next.2 h
  | tick => unfold State.take; dsimp only; split <;> simp [h]
  | msix w => exact outCanonical_next.2 (by simp [h])

theorem stepped_canonical {s : State} (h : Canonical (memories s)) : OutCanonical s.stepped := by
  unfold State.stepped
  split
  · exact go_canonical (by simp [unitWord_memories, h])
  · split
    · exact take_canonical (by simp [h]) _
    · have hc : Canonical (memories s.chooseMove.2) := chooseMove_memories s ▸ h
      exact move_canonical (chooseMove_mem s) hc

/-- Settles O59: the watch leaves every memory alone, and what the step does next, a unit's word, a turn or an event, keeps the canonical form. -/
theorem everyStepKeepsMemoryCanonical : Obligations.EveryStepKeepsMemoryCanonical := by
  intro s t h e
  rw [memoryCanonical_iff] at h ⊢
  have hw : Canonical (memories s.watch) := by simp [h]
  exact stepped_canonical hw t e

end Sys2Proof.Laws
end

section
/-!
PROOFS. What a page walk reads and what a level-3 entry may map (R107, R108): the checks of `leafPage` are why a page that a walk gives lies at a
mapped frame, on a boundary of its size.
-/
namespace Sys2Proof.Laws
open Sys2Proof Sys2Proof.Machine Sys2Proof.Config

/-- A field of an entry or an address. -/
theorem bitsOf_eq (x h l : Nat) : bitsOf x h l = x / 2 ^ l % 2 ^ (h + 1 - l) := by rw [bitsOf, Nat.shiftRight_eq_div_pow]

/-- An address with a bit above 51 has no page (R108). -/
theorem walkTables_of_high (r : WalkRules) (root : Nat) {va : Word} (h : 2 ^ 52 ≤ va.toNat) : walkTables r root va = none := by
  have : (va.toNat / 2 ^ 52 != 0) = true := by simp only [bne_iff_ne]; omega
  unfold walkTables
  exact if_pos this

/-- An entry below level 3 that gives a next table is valid. -/
theorem nextTable_valid {r : WalkRules} {e t : Nat} (h : nextTable r e = some t) : e.testBit 63 = true := by
  simp only [nextTable, Option.ite_none_right_eq_some, Bool.and_eq_true, decide_eq_true_eq] at h
  obtain ⟨⟨⟨⟨⟨valid, -⟩, -⟩, -⟩, -⟩, -⟩ := h
  rw [Nat.testBit_eq_decide_div_mod_eq, decide_eq_true_eq]
  exact (bitsOf_eq e 63 63).symm.trans valid

/-- A walk that gives a page has read three entries (R107, R108). -/
theorem walkTables_some {r : WalkRules} {root : Nat} {va : Word} {p : PageEntry} (h : walkTables r root va = some p) :
    va.toNat < 2 ^ 52 ∧ ∃ t2 t3, nextTable r (r.mem.readN (root + 8 * bitsOf va.toNat 51 40) 8) = some t2 ∧
      nextTable r (r.mem.readN (t2 + 8 * bitsOf va.toNat 39 28) 8) = some t3 ∧
      leafPage r (r.mem.readN (t3 + 8 * bitsOf va.toNat 27 16) 8) = some p := by
  refine ⟨Nat.lt_of_not_le fun hv => by simp [walkTables_of_high r root hv] at h, ?_⟩
  unfold walkTables at h; dsimp only at h
  split at h
  · cases h
  · split at h
    · cases h
    · split at h
      · cases h
      · exact ⟨_, _, ‹_›, ‹_›, h⟩

/-- What a level-3 entry can map (R107): a page of a mapped kind, at a mapped LOCAL value of a spindle of the part that is aligned to the page's
size and, for a page of 4 MiB, lies in the DRAM slice. -/
theorem leafPage_some {r : WalkRules} {e : Nat} {p : PageEntry} (h : leafPage r e = some p) :
    p.kind < 3 ∧ ∃ sp l, p.frame = faOf sp l ∧ sp < numSpindles ∧ localMapped l = true ∧ l % Claims.pageSize p = 0 ∧
      (p.big = true → 0x1000000 ≤ l) := by
  simp only [leafPage, Option.ite_none_right_eq_some, Bool.and_eq_true, decide_eq_true_eq, bne_iff_ne, Bool.not_eq_true', Option.some.injEq] at h
  obtain ⟨⟨⟨⟨⟨⟨⟨⟨⟨-, -⟩, hkind⟩, hframe⟩, -⟩, hsp⟩, hl⟩, hdram⟩, -⟩, rfl⟩ := h
  have hk : bitsOf e 61 60 < 2 ^ 2 := Nat.mod_lt _ (by decide)
  refine ⟨?_, _, _, rfl, hsp, hl, ?_, fun hbig => ?_⟩
  · dsimp only; omega
  · unfold Claims.pageSize
    generalize (bitsOf e 59 59 == 1) = big at hframe ⊢
    cases big <;> simp only [if_true, Bool.false_eq_true, if_false, bitsOf_eq, beq_iff_eq] at hframe ⊢ <;> omega
  · dsimp only at hbig
    simpa [hbig] using hdram

/-- Every access to a page that a level-3 entry maps lies in mapped memory, and the page on a boundary of its size. -/
theorem leafPage_mapped {r : WalkRules} {e : Nat} {p : PageEntry} (h : leafPage r e = some p) (va : Word) :
    p.frame % Claims.pageSize p = 0 ∧ faMapped (p.fa va) = true := by
  obtain ⟨-, sp, l, hf, hsp, hl, halign, hbig⟩ := leafPage_some h
  simp only [localMapped, Bool.or_eq_true, Bool.and_eq_true, decide_eq_true_eq, numSpindles] at hl hsp
  simp only [faMapped, localMapped, faSp, faLocal, faOf, PageEntry.fa, hf, Claims.pageSize, Bool.and_eq_true, Bool.or_eq_true, decide_eq_true_eq,
    numSpindles] at halign ⊢
  cases hb : p.big <;> simp only [hb, if_true, Bool.false_eq_true, if_false, true_implies, false_implies] at halign hbig ⊢ <;> omega

/-- Settles O15: the walk reads three entries, and what the third may map is checked. -/
theorem walksGiveMappedAlignedPages : Obligations.WalksGiveMappedAlignedPages := by
  intro r root va p
  have ix (h l : Nat) : bitsOf va.toNat h l = va.toNat / 2 ^ l % 2 ^ (h + 1 - l) := bitsOf_eq _ h l
  refine ⟨fun h => ?_, walkTables_of_high r root, fun h => ?_⟩
  · obtain ⟨hva, t2, t3, h2, h3, hp⟩ := walkTables_some h
    simp only [ix] at h2 h3 hp
    exact ⟨hva, nextTable_valid h2, (leafPage_mapped hp va).1, (leafPage_mapped hp va).2, (leafPage_some hp).1, t2, t3, h2, h3, hp⟩
  · refine Option.eq_none_iff_forall_ne_some.2 fun p hp => ?_
    obtain ⟨-, t2, t3, h2, -⟩ := walkTables_some hp
    rw [ix] at h2
    exact Bool.false_ne_true (h.symm.trans (nextTable_valid h2))

end Sys2Proof.Laws
end

section
/-!
PROOFS. A plain load at the own spindle (R8, R11, R124): the bytes read are a little-endian number, the load writes its extension, and apart from
that only the order of the own TLB changes.
-/
namespace Sys2Proof.Laws
open Sys2Proof Sys2Proof.Machine Sys2Proof.Claims Sys2Proof.Config

/-! ### Little-endian reads (R8, R11) -/

theorem readN_eq_sum (m : Memory) (fa n : Nat) : m.readN fa n = ∑ i ∈ Finset.range n, (m.read (fa + i)).toNat * 256 ^ i := by
  induction n generalizing fa with
  | zero => rfl
  | succ n ih =>
    have shift (i : Nat) : (m.read (fa + (i + 1))).toNat * 256 ^ (i + 1) = 256 * ((m.read (fa + 1 + i)).toNat * 256 ^ i) := by
      rw [Nat.add_right_comm fa 1 i, Nat.add_assoc, pow_succ']; ring
    rw [Memory.readN, ih, Finset.sum_range_succ', Finset.mul_sum]
    simp only [shift, Nat.add_zero, pow_zero, Nat.mul_one, Nat.add_comm]

/-! ### The TLB's order (R110) -/

section
variable (s : State) (va : Word)

/-- A hit becomes the most recently used entry of the own TLB. -/
theorem touch_cases : s.touch va = s ∨ ∃ t, s.touch va = s.modSp s.here fun p => { p with tlb := t :: p.tlb.erase t } := by
  unfold State.touch State.tlbTouch
  split
  · exact .inr ⟨_, rfl⟩
  · exact .inl rfl

/-- Nothing but spindles differs. -/
theorem touch_eq : ∃ l, s.touch va = { s with spindles := l } := by
  rcases touch_cases s va with h | ⟨t, h⟩
  · exact ⟨s.spindles, h⟩
  · exact ⟨_, h⟩

@[simp] theorem touch_mem : (s.touch va).mem = s.mem := by obtain ⟨l, e⟩ := touch_eq s va; rw [e]
@[simp] theorem touch_fe : (s.touch va).fe = s.fe := by obtain ⟨l, e⟩ := touch_eq s va; rw [e]
@[simp] theorem touch_poison : (s.touch va).poison = s.poison := by obtain ⟨l, e⟩ := touch_eq s va; rw [e]
@[simp] theorem touch_ctxs : (s.touch va).ctxs = s.ctxs := by obtain ⟨l, e⟩ := touch_eq s va; rw [e]
@[simp] theorem touch_cur : (s.touch va).cur = s.cur := by obtain ⟨l, e⟩ := touch_eq s va; rw [e]
@[simp] theorem touch_here : (s.touch va).here = s.here := congrArg keySp (touch_cur s va)
@[simp] theorem touch_ctx (k : Nat) : (s.touch va).ctx k = s.ctx k := by rw [State.ctx, touch_ctxs]; rfl
@[simp] theorem touch_me : (s.touch va).me = s.me := by rw [State.me, touch_cur, touch_ctx]; rfl

theorem touch_spindle_ne {n : Nat} (h : n ≠ s.here) : (s.touch va).spindle n = s.spindle n := by
  rcases touch_cases s va with e | ⟨t, e⟩
  · rw [e]
  · rw [e, spindle_modSp_ne s _ h]

theorem touch_spindle_here : { (s.touch va).spindle s.here with tlb := (s.spindle s.here).tlb } = s.spindle s.here := by
  rcases touch_cases s va with e | ⟨t, e⟩
  · rw [e]
  · rw [e, spindle_modSp_same]
end

/-! ### A plain access to the own spindle -/

section
variable {s : State} {ea : Word} {need : Need} {n fa : Nat}

/-- What a translation that gives a page has found (R11, R109, R331). -/
theorem xlate_eq_ok_iff {p : PageEntry} : s.xlate ea need = .ok (fa, p) ↔
    (need.x = true ∨ s.me.inWindow ea = false) ∧ ea.toNat / 2 ^ 52 = 0 ∧ s.tlbFind s.here s.myJobNo ea = some p ∧
      need.ok p = true ∧ p.fa ea = fa := by
  unfold State.xlate
  split
  case isTrue hw => simp_all
  case isFalse hw =>
    split
    case isTrue hv => simp_all
    case isFalse hv =>
      split
      case h_1 hf => simp [hf]
      case h_2 q hf => grind

/-- A page of kind NORMAL takes a plain access of any size where it takes the access at all (R109). -/
theorem xlate_plainNeed {p : PageEntry} (hk : p.kind = 0) (h : s.xlate ea need = .ok (fa, p)) : s.xlate ea (plainNeed need n) = .ok (fa, p) := by
  have ok (m : Need) : m.ok p = ((!m.r || p.r) && (!m.w || p.w) && (!m.x || p.x)) := by simp [Need.ok, hk]
  rw [xlate_eq_ok_iff, ok] at h ⊢
  exact h

/-- Nothing holds an access back where the context has no REL operation outstanding and its unit is not under REL. -/
theorem mustWait_of_noRels (h : s.me.rels = [] ∧ s.me.unit.rel = none) (fa : Nat) (reads : Bool) : s.mustWait fa reads = false := by
  simp [State.mustWait, Context.relOn, h]
end

/-- The numeric view of a loaded value is the extension of the bits (R124). -/
theorem extend_eq_widen (v n : Nat) (sx : Bool) : extend v n sx = widen sx n v := by
  unfold extend widen
  split
  · rw [signExt_eq]; rfl
  · rw [← BitVec.toNat_ofNat, BitVec.ofNat_toNat]

theorem loaded_touch_setG (s : State) (va : Word) (d : Reg) (v : Word) : Loaded s ((s.touch va).setG d v) d v where
  others := {
    rest := by obtain ⟨l, e⟩ := touch_eq s va; rw [e]; rfl
    contexts k hk := by rw [ctx_setG_ne _ _ _ (by rwa [touch_cur]), touch_ctx]
    spindles n hn := touch_spindle_ne s va hn
    here := touch_spindle_here s va
    bytes a := congrArg (Memory.read · a) (touch_mem s va) }
  got := {
    contexts k hk := by rw [ctx_setG_ne _ _ _ (by rwa [touch_cur]), touch_ctx]
    value := by simp
    regs r hr := by simp [reg_setReg_ne _ _ hr]
    pc := by simp
    rest := by rw [me_setG, touch_me]; rfl }

/-- LD at the own spindle (R124): no check fails, nothing waits, and what is left is the touch of the TLB and the register. -/
theorem ld_own {s : State} {ea : Word} {n fa : Nat} (h : Own s ea needR n fa) (hp : s.poisoned fa n = false) (d : Reg) (sx : Bool) :
    Loaded s (s.ld d ea n sx) d (widen sx n (s.read fa n)) := by
  obtain ⟨p, hx, hk, -⟩ := h.page
  have step : s.ld d ea n sx = (s.touch ea).setG d (widen sx n (s.read fa n)) := by
    have hwin : s.me.inWindow ea = false := (xlate_eq_ok_iff.mp hx).1.resolve_left nofun
    have hw : (s.touch ea).mustWait fa true = false := mustWait_of_noRels (by simpa using h.rels) fa true
    have hp' : (s.touch ea).poisoned fa n = false := by simpa [State.poisoned] using hp
    have hr : (s.touch ea).read fa n = s.read fa n := by simp [State.read]
    simp [State.ld, h.aligned, hwin, xlate_plainNeed hk hx, State.onChk, State.loadAt, hw, h.home, State.loadHere,
      PageEntry.akind, hk, State.pagePoison, hp', State.pageRead, hr, extend_eq_widen]
  rw [step]
  exact loaded_touch_setG s ea d _

theorem plainLoadsReadTheirBytes : PlainLoadsReadTheirBytes := by
  intro s d a sz off l fa
  exact ⟨fun h hp => ⟨_, rfl, ld_own h hp d false⟩, fun h hp => ⟨_, rfl, ld_own h hp d false⟩,
    fun _ => ⟨fun h hp => ⟨_, rfl, ld_own h hp d true⟩, fun h hp => ⟨_, rfl, ld_own h hp d true⟩⟩⟩

/-- Settles O16: at the own spindle a load is the read of its bytes, and the TLB entry that it hit becomes the most recently used. -/
theorem loadsReadOwnMemory : Obligations.LoadsReadOwnMemory :=
  ⟨fun s fa n => readN_eq_sum s.mem fa n, plainLoadsReadTheirBytes⟩

end Sys2Proof.Laws
end

section
/-!
PROOFS. YIELD, SLEEP and CKPT (R24, R86, R88): each changes its own context alone.
-/
namespace Sys2Proof.Laws
open Sys2Proof Sys2Proof.Machine Sys2Proof.Claims

/-! ### Memory as it was -/

/-- States with the same bytes, full/empty bits and poison hold the same memory. -/
theorem sameMemory_of_eq {s t : State} (hm : t.mem = s.mem) (hf : t.fe = s.fe) (hp : t.poison = s.poison) : SameMemory s t where
  bytes a := by rw [State.byte, hm]; rfl
  full a := by rw [State.full, hf]; rfl
  poison := hp

theorem sameMemory_refl (s : State) : SameMemory s s := sameMemory_of_eq rfl rfl rfl

theorem sameMemory_modMe (s : State) (f : Context → Context) : SameMemory s (s.modMe f) := sameMemory_of_eq rfl rfl rfl

/-! ### Forms that change their own context alone -/

/-- A form that only retires its unit changes the executing context by what it retires with. -/
theorem becomes_retire {i : Instr} {s : State} {f : Context → Context} (h : exec i s = .next (s.retire f)) (hu : (f s.me).unit = s.me.unit) :
    Becomes i s f :=
  ⟨_, h, onlyMe_retire s f, by rw [me_retire, ← hu]; rfl⟩

/-- A context that parks with its registers and its PC as they were waits. -/
theorem waits_modMe (s : State) (why : Nat) (f : Context → Context) (hst : (f s.me).st = .parked) (hpark : (f s.me).park = why)
    (hpc : (f s.me).pc = s.me.pc)
    (hregs : (f s.me).g = s.me.g ∧ (f s.me).v = s.me.v ∧ (f s.me).tag = s.me.tag ∧ (f s.me).side = s.me.side ∧ (f s.me).fstat = s.me.fstat) :
    Waits s (s.modMe f) why where
  state := by rw [me_modMe, hst]
  reason := by rw [me_modMe, hpark]
  regs := by rw [me_modMe]; exact hregs
  pc := by rw [me_modMe, hpc]
  contexts _ h := ctx_modMe_ne s f h
  memory := sameMemory_modMe s f

theorem sleep_zero {s : State} {a : Reg} (h : (s.me.reg a).toNat = 0) : s.sleep a = s.retire id := if_pos h

/-- SLEEP of a number of cycles parks until they have passed. -/
theorem sleep_pos {s : State} {a : Reg} (h : (s.me.reg a).toNat ≠ 0) :
    s.sleep a = s.modMe fun c =>
      { c with st := .parked, park := 12, kont := .advance, wakeAt := some (s.now + (s.me.reg a).toNat), again := false } := if_neg h

/-- Settles O24: each form retires its unit with one change to its context, but for a SLEEP that parks. -/
theorem yieldSleepAndCheckpoint : Obligations.YieldSleepAndCheckpoint := by
  intro s a k n
  refine ⟨becomes_retire rfl rfl, fun hn => becomes_retire (congrArg _ (sleep_zero hn)) rfl, fun hn => ⟨_, rfl, ?_⟩, fun hp => ?_, fun hp => ?_⟩
  · rw [sleep_pos hn]
    exact ⟨waits_modMe s 12 _ rfl rfl rfl ⟨rfl, rfl, rfl, rfl, rfl⟩, by rw [me_modMe]⟩
  · have hold : s.myJob.holding = false := by simp [Job.holding, hp]
    exact becomes_retire (by simp only [exec, execCkpt, hold, Bool.false_eq_true, if_false, BitVec.truncate_eq_setWidth]) rfl
  · have hold : s.myJob.holding = true := by simp [Job.holding, hp]
    exact becomes_retire (by simp only [exec, execCkpt, hold, if_true, BitVec.truncate_eq_setWidth]) rfl

end Sys2Proof.Laws
end

section
/-!
PROOFS. What sending, receiving and dropping messages leaves as it was, and how a thread ends (R30, R85).
-/
namespace Sys2Proof.Laws
open Sys2Proof Sys2Proof.Machine Sys2Proof.Claims

/-! ### Nothing but messages and their counters differs (R334) -/

end Sys2Proof.Laws

namespace Sys2Proof.Claims.OnlyMessages
open Sys2Proof Sys2Proof.Machine Sys2Proof.Laws

variable {s t u : State}

theorem refl (s : State) : OnlyMessages s s := ⟨rfl, fun _ => rfl⟩

theorem trans (h : OnlyMessages s t) (k : OnlyMessages t u) : OnlyMessages s u where
  rest := by
    have e := congrArg (fun x : State => { x with msgs := s.msgs, nextMsg := s.nextMsg, spindles := s.spindles }) k.rest
    exact e.trans h.rest
  spindles n := by
    have e := congrArg (fun x : Spindle => { x with sent := (s.spindle n).sent, rcvd := (s.spindle n).rcvd }) (k.spindles n)
    exact e.trans (h.spindles n)

theorem ctxs (h : OnlyMessages s t) : t.ctxs = s.ctxs := by simpa using congrArg State.ctxs h.rest
theorem cur (h : OnlyMessages s t) : t.cur = s.cur := by simpa using congrArg State.cur h.rest
theorem now (h : OnlyMessages s t) : t.now = s.now := by simpa using congrArg State.now h.rest
theorem jobs (h : OnlyMessages s t) : t.jobs = s.jobs := by simpa using congrArg State.jobs h.rest
theorem unrav (h : OnlyMessages s t) : t.unrav = s.unrav := by simpa using congrArg State.unrav h.rest
theorem mem (h : OnlyMessages s t) : t.mem = s.mem := by simpa using congrArg State.mem h.rest
theorem fe (h : OnlyMessages s t) : t.fe = s.fe := by simpa using congrArg State.fe h.rest
theorem poison (h : OnlyMessages s t) : t.poison = s.poison := by simpa using congrArg State.poison h.rest
theorem disp (h : OnlyMessages s t) : t.disp = s.disp := by simpa using congrArg State.disp h.rest
theorem clusters (h : OnlyMessages s t) : t.clusters = s.clusters := by simpa using congrArg State.clusters h.rest
theorem engines (h : OnlyMessages s t) : t.engines = s.engines := by simpa using congrArg State.engines h.rest
theorem ctx (h : OnlyMessages s t) (k : Nat) : t.ctx k = s.ctx k := by rw [State.ctx, h.ctxs]; rfl
theorem job (h : OnlyMessages s t) (j : Nat) : t.job j = s.job j := by rw [State.job, h.jobs]; rfl
theorem sameMemory (h : OnlyMessages s t) : SameMemory s t := sameMemory_of_eq h.mem h.fe h.poison

/-- What of a spindle does not depend on its counters of messages is as it was. -/
theorem ofSpindle (h : OnlyMessages s t) {α : Type} (f : Spindle → α) (hf : ∀ p a b, f { p with sent := a, rcvd := b } = f p) (n : Nat) :
    f (t.spindle n) = f (s.spindle n) :=
  (hf _ _ _).symm.trans (congrArg f (h.spindles n))

theorem jobNoAt (h : OnlyMessages s t) (n : Nat) : t.jobNoAt n = s.jobNoAt n := h.ofSpindle (fun p => p.job.getD 0) (fun _ _ _ => rfl) n
theorem fenced (h : OnlyMessages s t) (n : Nat) : (t.spindle n).fenced = (s.spindle n).fenced := h.ofSpindle Spindle.fenced (fun _ _ _ => rfl) n

end Sys2Proof.Claims.OnlyMessages

namespace Sys2Proof.Laws
open Sys2Proof Sys2Proof.Machine Sys2Proof.Claims

theorem sameMemory_trans {s t u : State} (h : SameMemory s t) (k : SameMemory t u) : SameMemory s u where
  bytes a := (k.bytes a).trans (h.bytes a)
  full a := (k.full a).trans (h.full a)
  poison := k.poison.trans h.poison

/-- A spindle whose message counters alone change. -/
theorem onlyMessages_modSp (s : State) (n : Nat) (f : Spindle → Spindle)
    (h : ∀ p a b, { f p with sent := a, rcvd := b } = { p with sent := a, rcvd := b }) : OnlyMessages s (s.modSp n f) where
  rest := rfl
  spindles k := by
    by_cases e : k = n
    · subst e; rw [spindle_modSp_same, h]
    · rw [spindle_modSp_ne s f e]

theorem onlyMessages_send (s : State) (m : Msg) : OnlyMessages s (s.send m) where
  rest := by obtain ⟨sps, e⟩ := send_cases s m; rw [e]
  spindles n := by
    have e := congrArg (fun p : Spindle => { p with rcvd := (s.spindle n).rcvd }) (send_spindle s m n)
    exact e

theorem onlyMessages_dropMsg (s : State) (id : Nat) : OnlyMessages s (s.dropMsg id) := ⟨rfl, fun _ => rfl⟩

theorem onlyMessages_received (s : State) (m : Msg) : OnlyMessages s (s.received m) := by
  unfold State.received
  split
  · exact onlyMessages_modSp s _ _ fun _ _ _ => rfl
  · exact OnlyMessages.refl s

theorem onlyMessages_foldl {α : Type} (f : State → α → State) (h : ∀ s a, OnlyMessages s (f s a)) (l : List α) (s : State) :
    OnlyMessages s (l.foldl f s) := by
  induction l generalizing s with
  | nil => exact OnlyMessages.refl s
  | cons a l ih => exact (h s a).trans (ih _)

/-! ### The end of a thread (R30, R85) -/

theorem onlyMessages_passRecords (s : State) (k : Nat) (c : Context) : OnlyMessages s (s.passRecords k c) := by
  refine onlyMessages_foldl _ (fun s h => ?_) _ s
  split
  · exact onlyMessages_send s _
  · exact OnlyMessages.refl s

/-- A table whose values change and whose keys stay. -/
theorem find_mapValues {α : Type} (t : Table α) (g : Nat → α → α) (k : Nat) :
    Table.find (t.map fun e => (e.1, g e.1 e.2)) k = (Table.find t k).map (g k) := by
  induction t with
  | nil => rfl
  | cons e t ih =>
    obtain ⟨j, v⟩ := e
    simp only [List.map_cons, Table.find]
    split
    · rename_i h; subst h; rfl
    · exact ih

/-- What becomes of a context at the end of its job's threads. -/
def handlerEnds (s : State) (j k : Nat) (c : Context) : Context :=
  if c.handler && (s.spindle (keySp k)).job == some j && (c.st == .ready || c.st == .parked) then freeCtx c else c

theorem freeHandlers_cases (s : State) (j : Nat) :
    s.freeHandlers j = s ∨ s.freeHandlers j = { s with ctxs := s.ctxs.map fun e => (e.1, handlerEnds s j e.1 e.2) } := by
  unfold State.freeHandlers
  split
  · exact .inl rfl
  · refine .inr ?_
    congr 2
    funext e
    unfold handlerEnds
    split <;> rfl

/-- Nothing but contexts differs. -/
theorem freeHandlers_eq (s : State) (j : Nat) : ∃ l, s.freeHandlers j = { s with ctxs := l } := by
  rcases freeHandlers_cases s j with e | e
  · exact ⟨s.ctxs, e⟩
  · exact ⟨_, e⟩

theorem freeHandlers_msgs (s : State) (j : Nat) : (s.freeHandlers j).msgs = s.msgs := by obtain ⟨l, e⟩ := freeHandlers_eq s j; rw [e]
theorem freeHandlers_job (s : State) (j i : Nat) : (s.freeHandlers j).job i = s.job i := by obtain ⟨l, e⟩ := freeHandlers_eq s j; rw [e]; rfl
theorem freeHandlers_cur (s : State) (j : Nat) : (s.freeHandlers j).cur = s.cur := by obtain ⟨l, e⟩ := freeHandlers_eq s j; rw [e]
theorem freeHandlers_spindle (s : State) (j n : Nat) : (s.freeHandlers j).spindle n = s.spindle n := by
  obtain ⟨l, e⟩ := freeHandlers_eq s j; rw [e]; rfl
theorem sameMemory_freeHandlers (s : State) (j : Nat) : SameMemory s (s.freeHandlers j) := by
  obtain ⟨l, e⟩ := freeHandlers_eq s j; rw [e]; exact sameMemory_of_eq rfl rfl rfl

/-- The end of the handlers leaves every context that is no handler. -/
theorem freeHandlers_ctx_of_not_handler (s : State) (j : Nat) {k : Nat} (h : (s.ctx k).handler = false) : (s.freeHandlers j).ctx k = s.ctx k := by
  rcases freeHandlers_cases s j with e | e
  · rw [e]
  · rw [e]
    simp only [State.ctx, Table.get, find_mapValues] at h ⊢
    cases hf : Table.find s.ctxs k with
    | none => rfl
    | some c =>
      rw [hf] at h
      have hc : c.handler = false := h
      simp [handlerEnds, hc]

/-- A status held at its birth spindle changes that spindle's table and may wake the keeper. -/
theorem holdStatus_facts (s : State) (j th st : Nat) : let b := (s.job j).rect.spindle (th / 16); let t := s.holdStatus j th st
    Table.find (t.spindle b).exits (th % 16) = some st ∧ (∀ k, (s.ctx k).park ≠ 11 → t.ctx k = s.ctx k) ∧ SameMemory s t ∧ t.cur = s.cur ∧
      t.jobs = s.jobs := by
  intro b t
  have hx : ∀ u : State, u.spindles = (s.modSp b fun p => { p with exits := Table.set p.exits (th % 16) st }).spindles →
      Table.find (u.spindle b).exits (th % 16) = some st := by
    intro u hu
    rw [State.spindle, hu]
    exact (congrArg (fun p : Spindle => Table.find p.exits (th % 16)) (spindle_modSp_same s b _)).trans (find_set_same _ _ _)
  simp only [t, State.holdStatus]
  split
  · rename_i hp
    simp only [Bool.and_eq_true, beq_iff_eq] at hp
    refine ⟨hx _ rfl, fun k hk => ctx_modCtx_ne _ _ fun e => hk (e ▸ hp.1), sameMemory_of_eq rfl rfl rfl, rfl, rfl⟩
  · exact ⟨hx _ rfl, fun _ _ => rfl, sameMemory_of_eq rfl rfl rfl, rfl, rfl⟩

/-- A status on its way home leaves the memory and every context that is no waiting keeper; it is held on the birth spindle, or goes there as an exit
notice, where that spindle is not fenced (R30). -/
theorem sendStatus_facts (s : State) (j th sp st : Nat) (h : th ≠ compThidx) : let b := (s.job j).rect.spindle (th / 16); let t := s.sendStatus j th sp st
    SameMemory s t ∧ (∀ k, (s.ctx k).park ≠ 11 → t.ctx k = s.ctx k) ∧ t.cur = s.cur ∧ t.jobs = s.jobs ∧
    ((s.spindle b).fenced = false → b = sp → Table.find (t.spindle b).exits (th % 16) = some st) ∧
    ((s.spindle b).fenced = false → b ≠ sp → ∃ m ∈ t.msgs, m.dst = b ∧ m.body = .exitNotice th st) := by
  intro b t
  have ht : t = if (s.spindle b).fenced then s else if b == sp then s.holdStatus j th st
      else s.send { id := 0, cls := .update, src := sp, dst := b, job := j, body := .exitNotice th st } := by
    simp only [t, State.sendStatus, beq_eq_false_iff_ne.mpr h, Bool.false_eq_true, if_false]
    rfl
  rw [ht]
  split
  · rename_i hf
    exact ⟨sameMemory_refl s, fun _ _ => rfl, rfl, rfl, fun h => absurd hf (by simp [h]), fun h => absurd hf (by simp [h])⟩
  · split
    · rename_i hb
      obtain ⟨hx, hc, hm, hcur, hj⟩ := holdStatus_facts s j th st
      exact ⟨hm, hc, hcur, hj, fun _ _ => hx, fun _ hne => absurd (beq_iff_eq.mp hb) hne⟩
    · rename_i hb
      exact ⟨(onlyMessages_send s _).sameMemory, fun k _ => send_ctx s _ k, send_cur s _, send_jobs s _, fun _ e => absurd (beq_iff_eq.mpr e) hb,
        fun _ _ => ⟨_, by rw [send_msgs]; exact List.mem_append_right _ (List.mem_singleton.2 rfl), rfl, rfl⟩⟩

theorem mem_insertSorted (l : List Nat) (a : Nat) : a ∈ insertSorted l a := by
  induction l with
  | nil => simp [insertSorted]
  | cons x l ih =>
    simp only [insertSorted]
    split
    · simp
    · split
      · rename_i h; simp [h]
      · simp [ih]

/-- A thread with no open activity ends: its context is FREE, it counts as exited, and its status is held or sent home (R30, R85). -/
theorem endThread_facts (s : State) {k : Nat} (st : Nat) {jb : Job} (hc : (s.ctx k).thidx ≠ compThidx)
    (ha : s.openAct (s.jobNoAt (keySp k)) (s.ctx k).thidx = none) (hj : Table.find s.jobs (s.jobNoAt (keySp k)) = some jb) :
    let t := s.endThread k st; let th := (s.ctx k).thidx; let b := jb.rect.spindle (th / 16)
    t.ctx k = freeCtx (s.ctx k) ∧ t.cur = s.cur ∧ th ∈ (t.job (s.jobNoAt (keySp k))).exited ∧ SameMemory s t ∧
    ((s.spindle b).fenced = false → b = keySp k → Table.find (t.spindle b).exits (th % 16) = some st) ∧
    ((s.spindle b).fenced = false → b ≠ keySp k → ∃ m ∈ t.msgs, m.dst = b ∧ m.body = .exitNotice th st) := by
  intro t th b
  generalize hjn : s.jobNoAt (keySp k) = j at ha hj ⊢
  have hp := onlyMessages_passRecords s k (s.ctx k)
  generalize hs1 : s.passRecords k (s.ctx k) = s1 at hp
  have hj1 : Table.find s1.jobs j = some jb := by rw [hp.jobs]; exact hj
  have hown : s1.abandonOwned j th (keySp k) = s1 := by
    have : s1.openAct j th = none := by rw [State.openAct, hp.unrav]; exact ha
    rw [State.abandonOwned, this]
  let s2 := s1.modJob j fun jb => { jb with exited := insertSorted jb.exited th }
  let s3 := s2.setCtx k (freeCtx (s.ctx k))
  have ht : t = (s3.sendStatus j th (keySp k) st).freeHandlers j := by
    simp only [t, State.endThread, hjn, hs1, show s1.abandonOwned j (s.ctx k).thidx (keySp k) = s1 from hown, beq_eq_false_iff_ne.mpr hc,
      Bool.false_eq_true, if_false]
    rfl
  have hj3 : s3.job j = { jb with exited := insertSorted jb.exited th } := by
    have e : s2.job j = _ := job_modJob_same hj1 _
    have e1 : s1.job j = jb := by rw [State.job, Table.get, hj1]; rfl
    rw [e1] at e
    exact e
  have hsp3 : ∀ n, s3.spindle n = s1.spindle n := fun n => by
    change Table.get {} s2.spindles n = _
    rw [show s2.spindles = s1.spindles from modJob_spindles s1 j _]; rfl
  have hmem : SameMemory s s3 := sameMemory_of_eq ((modJob_mem s1 j _).trans hp.mem) ((modJob_fe s1 j _).trans hp.fe) ((modJob_poison s1 j _).trans hp.poison)
  have hb : (s3.job j).rect.spindle (th / 16) = b := by rw [hj3]
  have hf : (s3.spindle b).fenced = (s.spindle b).fenced := by rw [hsp3, hp.fenced]
  obtain ⟨hm, hctx, hcur, hjobs, hheld, hsent⟩ := sendStatus_facts s3 j th (keySp k) st hc
  rw [hb, hf] at hheld hsent
  have hk : (s3.sendStatus j th (keySp k) st).ctx k = freeCtx (s.ctx k) := by
    have e : s3.ctx k = freeCtx (s.ctx k) := ctx_setCtx_same s2 k _
    rw [hctx k (by rw [e]; exact Nat.zero_ne_add_one 10), e]
  rw [ht]
  refine ⟨?_, ?_, ?_, sameMemory_trans hmem (sameMemory_trans hm (sameMemory_freeHandlers _ j)), ?_, ?_⟩
  · rw [freeHandlers_ctx_of_not_handler _ _ (by rw [hk]; rfl), hk]
  · rw [freeHandlers_cur, hcur]; exact (modJob_cur s1 j _).trans hp.cur
  · rw [freeHandlers_job, State.job, hjobs]
    change th ∈ (s3.job j).exited
    rw [hj3]
    exact mem_insertSorted _ _
  · intro h1 h2; rw [freeHandlers_spindle]; exact hheld h1 h2
  · intro h1 h2; rw [freeHandlers_msgs]; exact hsent h1 h2

end Sys2Proof.Laws
end

section
/-!
PROOFS. SPAWN, REAP and EXIT (R29 to R31, R84, R85): which context a child takes, what REAP takes, what is left of a thread that exits.
-/
namespace Sys2Proof.Laws
open Sys2Proof Sys2Proof.Machine Sys2Proof.Claims

/-! ### The lowest FREE context -/

theorem mem_natsFrom {lo n k : Nat} : k ∈ natsFrom lo n ↔ lo ≤ k ∧ k < lo + n := by
  simp only [natsFrom, List.mem_map, List.mem_range]
  exact ⟨fun ⟨a, ha, e⟩ => by omega, fun h => ⟨k - lo, by omega, by omega⟩⟩

/-- Of the numbers from `lo` on the first that satisfies a test is the lowest one. -/
theorem find_natsFrom {p : Nat → Bool} {lo n k : Nat} (hlo : lo ≤ k) (hn : k < lo + n) (hk : p k = true)
    (low : ∀ i, lo ≤ i → i < k → p i = false) : (natsFrom lo n).find? p = some k := by
  rw [natsFrom, List.find?_map, Option.map_eq_some_iff]
  refine ⟨k - lo, List.find?_range_eq_some.mpr ⟨?_, List.mem_range.mpr (by omega), fun j hj => ?_⟩, by omega⟩
  · rw [Function.comp_apply, Nat.add_sub_cancel' hlo, hk]
  · rw [Function.comp_apply, low (lo + j) (by omega) (by omega)]; rfl

theorem freeSlot_eq_some {s : State} {sp n : Nat} {q : Nat → Bool} (h1 : 1 ≤ n) (h2 : n ≤ 15) (hn : (s.ctx (keyOf sp n)).st = .free) (hq : q n = true)
    (low : ∀ i, 1 ≤ i → i < n → ¬ ((s.ctx (keyOf sp i)).st = .free ∧ q i = true)) : s.freeSlot sp q = some n := by
  refine find_natsFrom h1 (by omega) (by simp [hn, hq]) fun i hi hin => ?_
  have := low i hi hin
  simpa using this

theorem freeSlot_eq_none {s : State} {sp : Nat} {q : Nat → Bool}
    (h : ∀ i, 1 ≤ i → i ≤ 15 → ¬ ((s.ctx (keyOf sp i)).st = .free ∧ q i = true)) : s.freeSlot sp q = none := by
  refine List.find?_eq_none.mpr fun i hi => ?_
  obtain ⟨h1, h2⟩ := mem_natsFrom.mp hi
  have := h i h1 (by omega)
  simpa using this

/-! ### SPAWN -/

/-- No thread is admitted where none waits. -/
theorem admitAll_of_none {s : State} {sp : Nat} (h : (s.spindle sp).migBuf = []) : s.admitAll sp = s := by
  have step : s.admitHead sp = s := by simp only [State.admitHead, h]
  have all (f : Nat) : State.admitAllAux f s sp = s := by
    induction f with
    | zero => rfl
    | succ f ih => rw [State.admitAllAux, step, ih]
  exact all 15

theorem keyOf_zero {k : Nat} (h : keyCtx k = 0) : k = keyOf (keySp k) 0 := by simp only [keyCtx, keyOf, keySp] at *; omega

theorem keyOf_inj {sp a b : Nat} (h : keyOf sp a = keyOf sp b) : a = b := Nat.add_left_cancel h

/-- The birth map with one bit more (R28). -/
theorem birth_or (b : BitVec 16) {k j : Nat} (hj : j < 16) : (b ||| BitVec.ofNat 16 (2 ^ k)).getLsbD j = (b.getLsbD j || j == k) := by
  rw [BitVec.getLsbD_or, BitVec.getLsbD_ofNat, Nat.testBit_two_pow, decide_eq_true hj, Bool.true_and]
  congr 1
  rw [Bool.beq_eq_decide_eq]
  exact decide_eq_decide.mpr eq_comm

theorem spawn_idle {s : State} {d a b c : Reg} (h0 : keyCtx s.cur = 0) (hpc : (s.me.reg a).toNat % 4 = 0) (hm : (s.spindle s.here).migBuf = []) :
    s.spawn d a b c = s.spawnHere d (s.me.reg a) (s.me.reg b) (s.me.reg c) := by
  simp only [State.spawn, h0, hpc, bne_self_eq_false, Bool.false_eq_true, if_false, admitAll_of_none hm]

/-- The child as it stands in its context (R29). -/
def childIn (s : State) (k : Nat) (pc g1 g2 : Word) : Context :=
  { childImage s.myJob s.me (16 * s.myJob.rect.index s.here + k) pc g1 g2 with
    lastIssue := (s.ctx (keyOf s.here k)).lastIssue, readyAt := s.now + 1, held := s.myJob.holding, born := s.nextTok }

theorem childIn_reg (s : State) (k : Nat) (pc g1 g2 : Word) (r : Reg) :
    (childIn s k pc g1 g2).reg r = if r = 2 then g2 else if r = 1 then g1 else 0 := by
  have hr : ∀ n : Fin 16, n = r.toFin ↔ (BitVec.ofFin n : Reg) = r := fun n => by
    constructor <;> rintro rfl <;> rfl
  change (((Vector.replicate 16 (0 : Word)).set 1 g1).set 2 g2)[r.toNat] = _
  rw [Vector.getElem_set, Vector.getElem_set, Vector.getElem_replicate]
  have h2 : 2 = r.toNat ↔ r = 2 := ⟨fun h => BitVec.eq_of_toNat_eq h.symm, fun h => h ▸ rfl⟩
  have h1 : 1 = r.toNat ↔ r = 1 := ⟨fun h => BitVec.eq_of_toNat_eq h.symm, fun h => h ▸ rfl⟩
  simp only [h1, h2]

/-- The last part of SPAWN: of a state `u` in which the birth of `s` is noted, the child's context is written, and the keeper's g(D). -/
def seatChild (s u : State) (d : Reg) (k : Nat) (pc g1 g2 : Word) : State :=
  (u.takeTok.2.modCtx (keyOf s.here k) fun old =>
    { childIn s k pc g1 g2 with lastIssue := old.lastIssue, readyAt := u.now + 1, born := u.nextTok }).setG d (BitVec.ofNat 64 k)

/-- What SPAWN does with a context that it has found (R84). -/
theorem spawnHere_eq {s : State} {d : Reg} {pc g1 g2 : Word} {k : Nat}
    (hk : s.freeSlot s.here (fun c => !(s.spindle s.here).birth.getLsbD c) = some k) :
    ∃ j f, s.spawnHere d pc g1 g2 = seatChild s ((s.modSp s.here fun p =>
      { p with birth := p.birth ||| BitVec.ofNat 16 (2 ^ k), exits := Table.erase p.exits k }).modJob j f) d k pc g1 g2 := by
  unfold State.spawnHere
  simp only [hk]
  exact ⟨_, _, rfl⟩

theorem spawnHere_none {s : State} {d : Reg} {pc g1 g2 : Word}
    (hk : s.freeSlot s.here (fun c => !(s.spindle s.here).birth.getLsbD c) = none) : s.spawnHere d pc g1 g2 = s.setG d 0 := by
  unfold State.spawnHere
  simp only [hk]

/-- The child starts in the lowest context that is FREE and unborn (R84). -/
theorem spawnHere_some {s : State} {d : Reg} {pc g1 g2 : Word} {k : Nat} (h0 : keyCtx s.cur = 0) (h1 : 1 ≤ k)
    (hk : s.freeSlot s.here (fun c => !(s.spindle s.here).birth.getLsbD c) = some k) :
    let t := s.spawnHere d pc g1 g2
    t.me = (s.me.setReg d (BitVec.ofNat 64 k)).advance ∧ t.ctx (keyOf s.here k) = childIn s k pc g1 g2 ∧
    (∀ n, n ≠ s.cur → n ≠ keyOf s.here k → t.ctx n = s.ctx n) ∧
    (t.spindle s.here).birth = (s.spindle s.here).birth ||| BitVec.ofNat 16 (2 ^ k) ∧ SameMemory s t := by
  intro t
  obtain ⟨j, f, e⟩ := spawnHere_eq (d := d) (pc := pc) (g1 := g1) (g2 := g2) hk
  generalize hv : s.modSp s.here (fun p => { p with birth := p.birth ||| BitVec.ofNat 16 (2 ^ k), exits := Table.erase p.exits k }) = v at e
  have hne : keyOf s.here k ≠ s.cur := by
    rw [keyOf_zero h0]; intro h; have := keyOf_inj h; omega
  have hctx (n : Nat) : (v.modJob j f).ctx n = s.ctx n := by rw [State.ctx, modJob_ctxs, ← hv]; rfl
  have hcur : (v.modJob j f).cur = s.cur := by rw [modJob_cur, ← hv]; rfl
  have hsp : (v.modJob j f).spindle s.here = v.spindle s.here := by rw [State.spindle, modJob_spindles]; rfl
  have hnow : (v.modJob j f).now = s.now := by rw [modJob_now, ← hv]; rfl
  have htok : (v.modJob j f).nextTok = s.nextTok := by rw [modJob_nextTok, ← hv]; rfl
  have hmem : SameMemory s (v.modJob j f) := sameMemory_of_eq (by rw [modJob_mem, ← hv]; rfl) (by rw [modJob_fe, ← hv]; rfl) (by rw [modJob_poison, ← hv]; rfl)
  generalize v.modJob j f = u at e hctx hcur hsp hnow htok hmem
  have hme : u.me = s.me := by rw [State.me, hcur, hctx]; rfl
  rw [show t = seatChild s u d k pc g1 g2 from e]
  have hne' : u.cur ≠ keyOf s.here k := hcur ▸ hne.symm
  refine ⟨?_, ?_, fun n hn hnk => ?_, ?_, sameMemory_trans hmem (sameMemory_of_eq rfl rfl rfl)⟩
  · rw [seatChild, me_setG, ← hme]
    exact congrArg (fun c : Context => (c.setReg d _).advance) (ctx_modCtx_ne _ _ hne')
  · refine (ctx_setG_ne (u.takeTok.2.modCtx _ _) d _ hne'.symm).trans ((ctx_modCtx_same _ _ _).trans ?_)
    rw [hnow, htok]
    exact congrArg (fun c : Context => { childIn s k pc g1 g2 with lastIssue := c.lastIssue }) (hctx _)
  · exact (ctx_setG_ne (u.takeTok.2.modCtx _ _) d _ (hcur ▸ hn)).trans ((ctx_modCtx_ne _ _ hnk).trans (hctx n))
  · refine (congrArg Spindle.birth hsp).trans ?_
    rw [← hv, spindle_modSp_same]

theorem spawnStartsAChild : SpawnStartsAChild := by
  intro s d a b c sp pc idle free
  have slot (k : Nat) : free k ↔ (s.ctx (keyOf sp k)).st = .free ∧ (!(s.spindle sp).birth.getLsbD k) = true := by simp [free]
  refine ⟨fun k hidle h1 h2 hk low => ⟨_, rfl, ?_⟩, fun hidle hnone => ⟨_, rfl, ?_⟩, fun h0 hh => ⟨_, rfl, ?_⟩, fun h0 hpc hh => ⟨_, rfl, ?_⟩⟩
  · obtain ⟨h0, hpc, hm⟩ := hidle
    obtain ⟨hst, hbirth⟩ := (slot k).mp hk
    have hslot := freeSlot_eq_some (q := fun c => !(s.spindle sp).birth.getLsbD c) h1 h2 hst hbirth fun i hi hik h => low i hi hik ((slot i).mpr h)
    obtain ⟨hme, hchild, hothers, hmap, hmem⟩ := spawnHere_some (d := d) (pc := pc) (g1 := s.me.reg b) (g2 := s.me.reg c) h0 h1 hslot
    rw [spawn_idle h0 hpc hm]
    refine ⟨hme, ?_, fun j hj => ?_, hothers, hmem⟩
    · intro x
      have hreg (r : Reg) := childIn_reg s k pc (s.me.reg b) (s.me.reg c) r
      rw [show x = childIn s k pc (s.me.reg b) (s.me.reg c) from hchild]
      exact ⟨rfl, rfl, (hreg 1).trans rfl, (hreg 2).trans rfl, fun r r1 r2 => by rw [hreg, if_neg r2, if_neg r1],
        rfl, rfl, rfl, rfl, rfl, rfl, rfl, rfl, rfl, rfl⟩
    · rw [hmap, birth_or _ hj]
  · obtain ⟨h0, hpc, hm⟩ := hidle
    have hslot := freeSlot_eq_none (q := fun c => !(s.spindle sp).birth.getLsbD c) fun i hi hi' h => hnone i hi hi' ((slot i).mpr h)
    rw [spawn_idle h0 hpc hm, spawnHere_none hslot]
    exact wroteReg_setG s d 0
  · rw [State.spawn, if_pos (bne_iff_ne.mpr h0)]
    exact trapped_trap s _ _ hh
  · rw [State.spawn, if_neg (by simp [h0]), if_pos (bne_iff_ne.mpr hpc)]
    exact trapped_trap s _ _ hh

/-! ### REAP -/

/-- The birth map without one bit (R84). -/
theorem birth_and (b : BitVec 16) {k j : Nat} (hk : k < 16) (hj : j < 16) :
    (b &&& BitVec.ofNat 16 (2 ^ 16 - 1 - 2 ^ k)).getLsbD j = (b.getLsbD j && j != k) := by
  have mask : ∀ k < 16, ∀ j < 16, (BitVec.ofNat 16 (2 ^ 16 - 1 - 2 ^ k)).getLsbD j = (j != k) := by decide
  rw [BitVec.getLsbD_and, mask k hk j hj]

/-- Which REAP traps (R84, R272). -/
def noReap (s : State) (c : Nat) : Bool :=
  keyCtx s.cur != 0 || c == 0 || decide (15 < c) || !(s.spindle s.here).birth.getLsbD c || (c == 15 && s.myJob.handlerPc != 0)

theorem noReap_eq_false_iff {s : State} {c : Nat} : noReap s c = false ↔
    keyCtx s.cur = 0 ∧ 1 ≤ c ∧ c ≤ 15 ∧ (s.spindle s.here).birth.getLsbD c = true ∧ ¬ (c = 15 ∧ s.myJob.handlerPc ≠ 0) := by
  simp only [noReap, Bool.or_eq_false_iff, bne_eq_false_iff_eq, beq_eq_false_iff_ne, decide_eq_false_iff_not, Bool.not_eq_false', Bool.and_eq_false_imp,
    beq_iff_eq, not_and, not_not, Nat.not_lt, Nat.one_le_iff_ne_zero, and_assoc]

/-- A spindle whose keeper has taken the status of context `c`. -/
def reaped (c : Nat) (p : Spindle) : Spindle :=
  { p with exits := Table.erase p.exits c, birth := p.birth &&& BitVec.ofNat 16 (2 ^ 16 - 1 - 2 ^ c) }

theorem reap_eq (s : State) (d a : Reg) : s.reap d a =
    if noReap s (s.me.reg a).toNat then s.trap cILLEGAL 0
    else match Table.find (s.spindle s.here).exits (s.me.reg a).toNat with
      | some st => (s.modSp s.here (reaped (s.me.reg a).toNat)).setG d (BitVec.ofNat 64 (st % 2 ^ 32))
      | none => s.parkOn 11 (s.me.reg a).toNat := rfl

/-- A form that changes its spindle and writes one register. -/
theorem gotReg_modSp_setG (s : State) (n : Nat) (f : Spindle → Spindle) (d : Reg) (v : Word) : GotReg s ((s.modSp n f).setG d v) d v where
  contexts k hk := ctx_setG_ne _ _ _ hk
  value := by rw [me_setG]; simp
  regs r hr := by rw [me_setG, reg_advance, reg_setReg_ne _ _ hr]; rfl
  pc := by rw [me_setG]; rfl
  rest := by rw [me_setG]; rfl

theorem waits_parkOn (s : State) (why ch : Nat) : Waits s (s.parkOn why ch) why :=
  waits_modMe s why _ rfl rfl rfl ⟨rfl, rfl, rfl, rfl, rfl⟩

theorem reapTakesAStatus : ReapTakesAStatus := by
  intro s d a st c p ok
  have hok : noReap s c = false ↔ ok := noReap_eq_false_iff
  refine ⟨fun h hx => ⟨_, rfl, ?_⟩, fun h hx => ⟨_, rfl, ?_⟩, fun h hh => ⟨_, rfl, ?_⟩⟩
  · have ⟨_, _, hle, _⟩ := h
    have hc : c < 16 := Nat.lt_succ_of_le hle
    rw [reap_eq, if_neg (by simp [c, hok.mpr h]), show Table.find (s.spindle s.here).exits (s.me.reg a).toNat = some st from hx]
    refine ⟨gotReg_modSp_setG _ _ _ _ _, sameMemory_of_eq rfl rfl rfl, fun j hj => ?_, ?_⟩
    · exact (congrArg (fun q : Spindle => q.birth.getLsbD j) (spindle_modSp_same s _ _)).trans (birth_and _ hc hj)
    · exact congrArg Spindle.exits (spindle_modSp_same s _ _)
  · rw [reap_eq, if_neg (by simp [c, hok.mpr h]), show Table.find (s.spindle s.here).exits (s.me.reg a).toNat = none from hx]
    exact waits_parkOn s 11 _
  · rw [reap_eq, if_pos (by simpa [c] using mt hok.mp h)]
    exact trapped_trap s _ _ hh

/-! ### EXIT -/

theorem exitFreesItsContext : ExitFreesItsContext := by
  intro s a jb st j b
  refine ⟨fun hp hth hr ho hj => ⟨_, rfl, ?_⟩, fun hp hh => ⟨_, rfl, ?_⟩⟩
  · have e : s.exit a = s.endThread s.cur st := by simp [State.exit, hp, hth, hr, st]
    obtain ⟨hctx, hcur, hex, hmem, hheld, hsent⟩ := endThread_facts s (k := s.cur) st hth ho hj
    rw [e]
    exact ⟨by rw [State.me, hcur, hctx]; rfl, hex, hmem, hheld, hsent⟩
  · rw [State.exit, if_pos (by simp [hp])]
    exact trapped_trap s _ _ hh

/-- Settles O23: SPAWN and REAP case by case, EXIT by what the end of a thread does. -/
theorem threadsAreBornReapedAndEnd : Obligations.ThreadsAreBornReapedAndEnd := ⟨spawnStartsAChild, reapTakesAStatus, exitFreesItsContext⟩

end Sys2Proof.Laws
end

section
/-!
PROOFS. Taking a trap at any context (R18, R330), whether it executes or waits.
-/
namespace Sys2Proof.Laws
open Sys2Proof Sys2Proof.Machine Sys2Proof.Claims

/-- TAKING A TRAP of a context that has a handler freezes it and sends one message, and may end the unit in decoding. -/
theorem takeTrap_at {s : State} {k : Nat} {r : TrapInfo} (h : HandledAt s k) (hd : r.defer = false) :
    ∃ mu m, s.takeTrap k r = (({ s with midUnit := mu } : State).modCtx k (frozenBy { r with thidx := (s.ctx k).thidx })).send m := by
  obtain ⟨hth, hb⟩ := h
  obtain ⟨cause, addr, pc, words, lanes, cls, defer, th, ff, skip⟩ := r
  obtain rfl : defer = false := hd
  generalize hr : TrapInfo.mk cause addr pc words lanes cls false th ff skip = r
  have hc : ((s.ctx k).thidx == compThidx) = false := beq_eq_false_iff_ne.mpr hth
  let mu := if k == s.cur then false else s.midUnit
  let s1 := ({ s with midUnit := mu } : State).modCtx k (frozenBy { r with thidx := (s.ctx k).thidx })
  have e : s.takeTrap k r = s1.deliverRecord (s.jobNoAt (keySp k)) (keySp k) k (trapWords k { r with thidx := (s.ctx k).thidx } r.cause)
      { r with thidx := (s.ctx k).thidx } none false := by
    have hs : (if k == s.cur then { s with midUnit := false } else s) = ({ s with midUnit := mu } : State) := by
      simp only [mu]; split <;> rfl
    unfold State.takeTrap
    simp only [hs, hc, Bool.false_eq_true, if_false]
    subst hr
    rfl
  obtain ⟨b, second, -, e2⟩ := deliverRecord_sends s1 (s.jobNoAt (keySp k)) (keySp k) k (trapWords k { r with thidx := (s.ctx k).thidx } r.cause)
    { r with thidx := (s.ctx k).thidx } (by rw [takesRecord_modCtx, takesRecord_modCtx]; exact hb)
  exact ⟨mu, _, e.trans e2⟩

/-- A trap at a context's unit freezes it there and leaves all memory and every other context. -/
theorem freezes_takeTrap {s : State} {k : Nat} {r : TrapInfo} (h : HandledAt s k) (hd : r.defer = false) (hp : r.pc = (s.ctx k).unit.pc) :
    Freezes s (s.takeTrap k r) k r.cause r.addr := by
  obtain ⟨mu, m, e⟩ := takeTrap_at h hd
  rw [e]
  have hk (u : State) : (u.modCtx k (frozenBy { r with thidx := (s.ctx k).thidx })).ctx k = _ := ctx_modCtx_same u k _
  exact {
    state := by rw [send_ctx, hk]; rfl
    record := ⟨{ r with thidx := (s.ctx k).thidx }, by rw [send_ctx, hk]; rfl, rfl, rfl, hp⟩
    pc := by rw [send_ctx, hk]; exact hp
    regs := by rw [send_ctx, hk]; exact ⟨rfl, rfl, rfl, rfl⟩
    others := fun x hx => by rw [send_ctx, ctx_modCtx_ne _ _ hx]; rfl
    memory := sameMemory_of_eq (send_mem _ _) (send_fe _ _) (send_poison _ _) }

/-- Whether a trap has a handler depends on the context's thread, on handler contexts and on the spindles. -/
theorem handledAt_congr {s t : State} {k : Nat} (h : HandledAt s k) (hk : (t.ctx k).thidx = (s.ctx k).thidx)
    (hc : ∀ x, x ≠ k → t.ctx x = s.ctx x)
    (hs : ∀ n, (t.spindle n).job = (s.spindle n).job ∧ (t.spindle n).fenced = (s.spindle n).fenced ∧
      (t.spindle n).primary = (s.spindle n).primary ∧ (t.spindle n).secondary = (s.spindle n).secondary) : HandledAt t k := by
  have hj : t.jobNoAt (keySp k) = s.jobNoAt (keySp k) := congrArg (Option.getD · 0) (hs _).1
  have hr (b : Nat) : t.takesRecord (s.jobNoAt (keySp k)) b k = s.takesRecord (s.jobNoAt (keySp k)) b k := by
    obtain ⟨h1, h2, -, -⟩ := hs b
    unfold State.takesRecord
    by_cases e : keyOf b 15 = k
    · simp [e]
    · rw [h1, h2, hc _ e]
  obtain ⟨hth, hb⟩ := h
  obtain ⟨-, -, h3, h4⟩ := hs (keySp k)
  exact ⟨hk ▸ hth, by rw [hj, h3, h4, hr, hr]; exact hb⟩

end Sys2Proof.Laws
end

section
/-!
PROOFS. One step (R19, R23, R50, R60 to R64, R332): how the turn that the agenda names begins, what a unit's fetch gives, and what its words run.
-/
namespace Sys2Proof.Laws
open Sys2Proof Sys2Proof.Machine Sys2Proof.Claims Sys2Proof.Config

/-! ### The watch of a package in which no job is being pre-empted -/

theorem loseMsgs_of_none {s : State} (h : ∀ id, Upset.lost id ∉ s.upsets) : s.loseMsgs = s := by
  have hl (m : Msg) : s.upsets.contains (.lost m.id) = false := by simpa using h m.id
  have hu : s.upsets.filter (fun u => match u with | .lost id => !(s.msgs.any fun m => m.id == id) | _ => true) = s.upsets :=
    List.filter_eq_self.mpr fun u hu => by
      cases u with
      | lost id => exact absurd hu (h id)
      | _ => rfl
  unfold State.loseMsgs
  split
  · rfl
  · simp only [hl, Bool.not_false, List.filter_true, List.filter_false, List.map_nil, List.append_nil]
    exact congrArg (fun l => { s with upsets := l }) hu

theorem watch_of_running {s : State} (hq : ∀ e ∈ s.jobs, e.2.phase = .running) (h : ∀ id, Upset.lost id ∉ s.upsets) : s.watch = s.passQueues := by
  have hn : s.passQueues.jobs.filter (fun (e : Nat × Job) => e.2.phase != .running) = [] :=
    List.filter_eq_nil_iff.mpr fun e he => by simp [hq e he]
  rw [State.watch, loseMsgs_of_none h]
  simp only [hn, List.foldl_nil]

/-- A step takes the turn that the agenda names. -/
theorem step_of_agenda {s : State} {t : Turn} {rest : List Turn} (hq : ∀ e ∈ s.jobs, e.2.phase = .running) (h : ∀ id, Upset.lost id ∉ s.upsets)
    (hm : s.midUnit = false) (ha : s.agenda = t :: rest) : step s = State.take { s.passQueues with agenda := rest } t := by
  have hm' : s.passQueues.midUnit = false := hm
  have ha' : s.passQueues.agenda = t :: rest := ha
  rw [step, watch_of_running hq h, State.stepped, if_neg (by simp [hm'])]
  simp only [ha']

/-! ### The beginning of a unit -/

/-- Context `k` begins a unit on its turn. -/
def beginning (s : State) (rest : List Turn) (k : Nat) : State :=
  (({ s with agenda := rest, cur := k, midUnit := false } : State).modSp (keySp k) fun p => { p with last := keyCtx k, issuedAt := s.now + 1 }).modMe fun c =>
    { c with lastIssue := s.now, unit := { pc := c.pc }, got := [], again := false, kont := .advance, torn := none }

theorem modMe_modMe (s : State) (f g : Context → Context) : (s.modMe f).modMe g = s.modMe fun c => g (f c) := by
  simp only [State.modMe, State.modCtx, State.setCtx, State.ctx, get_set_same, set_set]

/-- A turn with no deferred trap, no unit that goes on and no store ahead of its turn begins a unit. -/
theorem turnOf_begins {s : State} {rest : List Turn} {k : Nat} (hd : (s.ctx k).deferred = []) (ha : (s.ctx k).again = false) (hh : s.aheadOf k = none) :
    State.turnOf { s with agenda := rest } k = (beginning s rest k).unitWord := by
  generalize hu : ({ s with agenda := rest, cur := k, midUnit := false } : State) = u
  have hc : u.me = s.ctx k := by subst hu; rfl
  have hah : u.aheadOf k = none := by subst hu; exact hh
  have hb : beginning s rest k = ((u.modSp (keySp k) fun p => { p with last := keyCtx k, issuedAt := u.now + 1 }).modMe fun c =>
      { c with lastIssue := u.now }).modMe fun c => { c with unit := { pc := c.pc }, got := [], again := false, kont := .advance, torn := none } := by
    subst hu
    rw [modMe_modMe]
    rfl
  rw [State.turnOf, hb]
  simp only [hu, hc, hd, ha, hah, ite_self, Bool.false_eq_true, if_false]
  subst hu
  rfl

theorem keySp_keyOf {sp i : Nat} (h : i < 16) : keySp (keyOf sp i) = sp := by simp only [keySp, keyOf]; omega

/-- The context that a spindle issues from is READY and at the beginning of a unit, one of its sixteen (R19). -/
theorem pick_some {s : State} {sp k : Nat} (h : s.pick sp = some k) : keySp k = sp ∧ (s.ctx k).again = false := by
  unfold State.pick at h
  split at h
  · have hm := List.mem_of_find?_eq_some h
    have hc := List.find?_some h
    obtain ⟨i, -, rfl⟩ := List.mem_map.mp hm
    simp only [Context.cand, Bool.and_eq_true, Bool.not_eq_true'] at hc
    obtain ⟨⟨-, hag⟩, -⟩ := hc
    exact ⟨keySp_keyOf (Nat.mod_lt _ (by decide)), hag⟩
  · cases h

theorem step_begins {s : State} {rest : List Turn} {sp k : Nat} (hq : ∀ e ∈ s.jobs, e.2.phase = .running) (h : ∀ id, Upset.lost id ∉ s.upsets)
    (hm : s.midUnit = false) (ha : s.agenda = .issue sp :: rest) (hp : s.pick sp = some k) (hd : (s.ctx k).deferred = []) (hh : s.aheadOf k = none) :
    step s = (beginning s.passQueues rest k).unitWord.go := by
  obtain ⟨-, hag⟩ := pick_some hp
  rw [step_of_agenda hq h hm ha, State.take, show State.pick { s.passQueues with agenda := rest } sp = some k from hp]
  exact congrArg Fetched.go (turnOf_begins (s := s.passQueues) hd hag hh)

theorem executes_beginning (s : State) (rest : List Turn) {sp k : Nat} (h : keySp k = sp) : Executes s (beginning s.passQueues rest k) rest sp k [] := by
  subst h
  let v : State := { s.passQueues with agenda := rest, cur := k, midUnit := false }
  have hs (n : Nat) : (beginning s.passQueues rest k).spindle n =
    (v.modSp (keySp k) fun p => { p with last := keyCtx k, issuedAt := s.now + 1 }).spindle n := rfl
  exact {
    who := ⟨rfl, rfl, rfl⟩
    me := (me_modMe _ _).trans rfl
    others := fun x hx => ctx_modMe_ne _ _ hx
    memory := ⟨rfl, rfl, rfl⟩
    package := ⟨rfl, rfl, rfl, rfl, rfl, rfl⟩
    spindle := by
      refine ⟨?_, ?_, ?_, fun x hx => ?_⟩
      · rw [hs, spindle_modSp_same]
      · rw [hs, spindle_modSp_same]
      · rw [hs, spindle_modSp_same]; rfl
      · rw [hs, spindle_modSp_ne _ _ hx]; rfl }

/-! ### Fetching words of one page (R23, R64) -/

/-- Addresses of one 64 KiB page hit the same entries of a TLB (R110). -/
theorem hits_congr (t : TlbEntry) (j : Nat) {va vb : Word} (h : va.toNat / 2 ^ 16 = vb.toNat / 2 ^ 16) : t.hits j va = t.hits j vb := by
  have h' : va.toNat / 2 ^ 22 = vb.toNat / 2 ^ 22 := by omega
  simp only [TlbEntry.hits, h, h']

theorem tlbFind_congr (s : State) (sp j : Nat) {va vb : Word} (h : va.toNat / 2 ^ 16 = vb.toNat / 2 ^ 16) : s.tlbFind sp j va = s.tlbFind sp j vb := by
  simp only [State.tlbFind, hits_congr _ j h]

theorem touch_myJobNo (s : State) (va : Word) : (s.touch va).myJobNo = s.myJobNo := by
  have e := congrArg (fun p : Spindle => p.job.getD 0) (touch_spindle_here s va)
  rw [State.myJobNo, touch_here]
  exact e

/-- A hit that becomes the most recently used entry is found as before. -/
theorem tlbFind_touch (s : State) {va vb : Word} (h : va.toNat / 2 ^ 16 = vb.toNat / 2 ^ 16) :
    (s.touch va).tlbFind s.here s.myJobNo vb = s.tlbFind s.here s.myJobNo vb := by
  unfold State.touch State.tlbTouch
  split
  · rename_i t ht
    have hit : t.hits s.myJobNo vb = true := by rw [← hits_congr t _ h]; exact List.find?_some (p := fun t => TlbEntry.hits t s.myJobNo va) ht
    have found : ((s.spindle s.here).tlb.find? fun t => t.hits s.myJobNo vb) = some t := by
      simp only [← hits_congr _ s.myJobNo h]; exact ht
    simp only [State.tlbFind, spindle_modSp_same, List.find?_cons, hit, found]
  · rfl

/-- Nothing but the order of the own TLB differs. -/
structure OnlyTlbs (s t : State) : Prop where
  rest : ∃ l, t = { s with spindles := l }
  away : ∀ n, n ≠ s.here → t.spindle n = s.spindle n
  spindles : ∀ n, { t.spindle n with tlb := (s.spindle n).tlb } = s.spindle n

namespace OnlyTlbs
variable {s t u : State}

theorem refl (s : State) : OnlyTlbs s s := ⟨⟨s.spindles, rfl⟩, fun _ _ => rfl, fun _ => rfl⟩

theorem me (h : OnlyTlbs s t) : t.me = s.me := by obtain ⟨⟨l, e⟩, -, -⟩ := h; rw [e]; rfl
theorem here (h : OnlyTlbs s t) : t.here = s.here := by obtain ⟨⟨l, e⟩, -, -⟩ := h; rw [e]; rfl

theorem trans (h : OnlyTlbs s t) (k : OnlyTlbs t u) : OnlyTlbs s u where
  rest := by
    obtain ⟨l, hl⟩ := h.rest; obtain ⟨r, hr⟩ := k.rest
    exact ⟨r, by rw [hr, hl]⟩
  away n hn := (k.away n (h.here ▸ hn)).trans (h.away n hn)
  spindles n := by
    have e := congrArg (fun x : Spindle => { x with tlb := (s.spindle n).tlb }) (k.spindles n)
    exact e.trans (h.spindles n)

theorem touch (s : State) (va : Word) : OnlyTlbs s (s.touch va) where
  rest := touch_eq s va
  away n hn := touch_spindle_ne s va hn
  spindles n := by
    by_cases e : n = s.here
    · rw [e]; exact touch_spindle_here s va
    · rw [touch_spindle_ne s va e]

theorem ofSpindle (h : OnlyTlbs s t) {α : Type} (f : Spindle → α) (hf : ∀ p a, f { p with tlb := a } = f p) (n : Nat) : f (t.spindle n) = f (s.spindle n) :=
  (hf _ _).symm.trans (congrArg f (h.spindles n))
end OnlyTlbs

/-- A word of code stands at an address of page `p`, in memory and in the instruction cache. -/
structure WordAt (s : State) (p : PageEntry) (va : Word) (w : IWord) : Prop where
  window : s.me.inWindow va = false
  low : va.toNat < 2 ^ 52
  page : s.tlbFind s.here s.myJobNo va = some p
  code : needX.ok p = true
  aligned : p.fa va % 4 = 0
  cached : s.cachedLine (p.fa va) = some (s.lineWords (p.fa va / 64 * 64))
  word : w = BitVec.ofNat 32 (s.read (p.fa va) 4)

theorem WordAt.touch {s : State} {p : PageEntry} {va vb : Word} {w : IWord} (h : WordAt s p va w) (hv : vb.toNat / 2 ^ 16 = va.toNat / 2 ^ 16) :
    WordAt (s.touch vb) p va w where
  window := by rw [touch_me]; exact h.window
  low := h.low
  page := by rw [touch_here, touch_myJobNo, tlbFind_touch s hv]; exact h.page
  code := h.code
  aligned := h.aligned
  cached := by
    have hc : ((s.touch vb).spindle (s.touch vb).here).icache = (s.spindle s.here).icache := by
      rw [touch_here]; exact (OnlyTlbs.touch s vb).ofSpindle Spindle.icache (fun _ _ => rfl) _
    simp only [State.cachedLine, hc, State.lineWords, State.read, touch_mem]
    exact h.cached
  word := by rw [State.read, touch_mem]; exact h.word

theorem lineWords_getD (s : State) {fa : Nat} (h : fa % 4 = 0) : (s.lineWords (fa / 64 * 64)).getD (fa % 64 / 4) 0 = BitVec.ofNat 32 (s.read fa 4) := by
  have hi : fa % 64 / 4 < 16 := by omega
  have ha : fa / 64 * 64 + 4 * (fa % 64 / 4) = fa := by omega
  simp only [State.lineWords, List.getD_eq_getElem?_getD, List.getElem?_map, List.getElem?_range hi, Option.map_some, Option.getD_some, ha]

theorem fetchWord_ok {s : State} {p : PageEntry} {va : Word} {w : IWord} (h : WordAt s p va w) : s.fetchWord va = .ok w (s.touch va) := by
  have ht := h.touch (vb := va) rfl
  have hdiv : (va.toNat / 2 ^ 52 != 0) = false := by rw [bne_eq_false_iff_eq]; have := h.low; omega
  simp only [State.fetchWord, h.window, hdiv, h.page, h.code, ht.cached, Bool.not_true, Bool.false_eq_true, if_false, if_true,
    lineWords_getD _ h.aligned, ht.word]

theorem fetchWords_ok {p : PageEntry} {q : Nat} {ws : List IWord} {s : State} {va : Word}
    (h : ∀ i w, ws[i]? = some w → WordAt s p (va + BitVec.ofNat 64 (4 * i)) w ∧ (va + BitVec.ofNat 64 (4 * i)).toNat / 2 ^ 16 = q) :
    ∃ t, OnlyTlbs s t ∧ s.fetchWords ws.length va = .ok ws t := by
  induction ws generalizing s va with
  | nil => exact ⟨s, .refl s, rfl⟩
  | cons w ws ih =>
    obtain ⟨h0, hq0⟩ : WordAt s p va w ∧ va.toNat / 2 ^ 16 = q := by simpa using h 0 w rfl
    have next (i : Nat) : va + 4 + BitVec.ofNat 64 (4 * i) = va + BitVec.ofNat 64 (4 * (i + 1)) := by
      rw [BitVec.add_assoc]; congr 1; apply BitVec.eq_of_toNat_eq; simp; omega
    obtain ⟨t, ht, e⟩ := ih (s := s.touch va) (va := va + 4) fun i v hv => by
      obtain ⟨hw, hq⟩ := h (i + 1) v hv
      rw [next]
      exact ⟨hw.touch (hq0.trans hq.symm), hq⟩
    exact ⟨t, (OnlyTlbs.touch s va).trans ht, by rw [List.length_cons, State.fetchWords, fetchWord_ok h0]; simp only [Fetch.bind, e]⟩

/-- A unit whose words stand in the cache and in memory is fetched whole (R50, R64). -/
theorem fetchInstr_ok {p : PageEntry} {q : Nat} {ws : List IWord} {s : State} {va : Word} (hlen : ∃ w, ws.head? = some w ∧ ws.length = lenWords w)
    (h : ∀ i w, ws[i]? = some w → WordAt s p (va + BitVec.ofNat 64 (4 * i)) w ∧ (va + BitVec.ofNat 64 (4 * i)).toNat / 2 ^ 16 = q) :
    ∃ t, OnlyTlbs s t ∧ s.fetchInstr va = .ok ws t := by
  obtain ⟨t, ht, e⟩ := fetchWords_ok h
  obtain ⟨w, hw, hl⟩ := hlen
  cases ws with
  | nil => cases hw
  | cons x ws =>
    obtain rfl : x = w := by simpa using hw
    have hn : lenWords x - 1 = ws.length := by rw [← hl]; rfl
    have h0 : WordAt s p va x := by simpa using (h 0 x rfl).1
    rw [List.length_cons, State.fetchWords, fetchWord_ok h0] at e
    refine ⟨t, ht, ?_⟩
    rw [State.fetchInstr, fetchWord_ok h0]
    simp only [Fetch.bind, hn] at e ⊢
    exact e

/-! ### What a fetched unit runs (R60 to R64) -/

/-- The unit of the executing context once its words are fetched. -/
def withUnit (s : State) (ws : List IWord) : State :=
  s.modMe fun c => { c with unit := { c.unit with words := ws, next := s.me.unit.pc + BitVec.ofNat 64 (4 * ws.length) } }

theorem unitWord_ok {s t : State} {ws : List IWord} (hu : s.me.unit.words = []) (h : s.fetchInstr s.me.unit.pc = .ok ws t) (ht : OnlyTlbs s t) :
    s.unitWord = (withUnit t ws).judge (decodeWords ws) := by
  unfold State.unitWord
  simp only [hu, List.length_nil, Nat.mul_zero, BitVec.add_zero, h, List.nil_append]
  rw [← ht.me]
  rfl

theorem judge_none {s : State} (h : s.me.unit.far = false) : s.judge none = .run .reservedEncoding { s with midUnit := false } := by
  simp only [State.judge, UnitRec.farAgain, h, Bool.false_and, Bool.false_eq_true, if_false]

theorem judge_some {s : State} {i : Instr} (hr : ∀ o, i ≠ .rel o) (hf : i ≠ .far) (hp : s.me.unit.rel = none ∧ s.me.unit.far = false)
    (ha : i.accepts false false = true) : s.judge (some i) = if i.supvOnly && !s.me.supv then .stay (s.trap cPRIV 0) else s.admitInstr i := by
  obtain ⟨h1, h2⟩ := hp
  have hacc : i.accepts s.me.unit.rel.isSome s.me.unit.far = true := by rw [h1, h2]; exact ha
  unfold State.judge
  split
  · rename_i e; cases e
  · rename_i o e; exact absurd (Option.some.inj e) (hr o)
  · rename_i e; exact absurd (Option.some.inj e) hf
  · rename_i j _ _ e
    obtain rfl := Option.some.inj e
    simp only [hacc, Bool.not_true, Bool.false_eq_true, if_false]

theorem admitInstr_run {s : State} (i : Instr) (hr : s.me.rels = []) (hc : s.me.recheck = false) (hu : s.upsets.contains (.checker s.here) = false) :
    s.admitInstr i = .run i { s with midUnit := false } := by
  simp only [State.admitInstr, hr, List.any_nil, Bool.and_false, Bool.false_eq_true, if_false, hu, hc]

/-! ### From the turn to the unit -/

/-- The unit fetched, the context executes it (R19, R50). -/
theorem executes_withUnit {s u t : State} {rest : List Turn} {sp k : Nat} {ws : List IWord} (h : Executes s u rest sp k []) (ht : OnlyTlbs u t)
    (hk : keySp k = sp) (hw : ws ≠ []) : Executes s (withUnit t ws) rest sp k ws := by
  obtain ⟨⟨hcur, hag, hmid⟩, hme, hoth, hmem, hpkg, hlast, hissued, hjob, hrest⟩ := h
  have htm := ht.me
  have hhere : u.here = sp := by rw [State.here, hcur, hk]
  have field {α : Type} (f : Spindle → α) (hf : ∀ p a, f { p with tlb := a } = f p) (n : Nat) : f ((withUnit t ws).spindle n) = f (u.spindle n) :=
    ht.ofSpindle f hf n
  have haway (n : Nat) (hn : n ≠ sp) : (withUnit t ws).spindle n = u.spindle n := ht.away n (hhere ▸ hn)
  obtain ⟨l, e⟩ := ht.rest
  exact {
    who := by rw [e]; exact ⟨hcur, hag, hmid⟩
    me := by
      have hne : ws.isEmpty = false := by rw [List.isEmpty_eq_false_iff]; exact hw
      rw [withUnit, me_modMe, htm, hme, hne]
      rfl
    others := fun x hx => by
      have hx' : x ≠ t.cur := by rw [e]; exact hcur ▸ hx
      rw [withUnit, ctx_modMe_ne _ _ hx', e]
      exact hoth x hx
    memory := by rw [e]; exact hmem
    package := by rw [e]; exact hpkg
    spindle := ⟨(field Spindle.last (fun _ _ => rfl) sp).trans hlast, (field Spindle.issuedAt (fun _ _ => rfl) sp).trans hissued,
      (field Spindle.job (fun _ _ => rfl) sp).trans hjob, fun x hx => (haway x hx).trans (hrest x hx)⟩ }

/-- The spindles differ at the beginning of a unit in their last issue alone (R19). -/
theorem beginning_spindle (s : State) (rest : List Turn) (k n : Nat) :
    { (beginning s rest k).spindle n with last := (s.spindle n).last, issuedAt := (s.spindle n).issuedAt } = s.spindle n := by
  let v : State := { s with agenda := rest, cur := k, midUnit := false }
  change { (v.modSp (keySp k) fun p => { p with last := keyCtx k, issuedAt := s.now + 1 }).spindle n with
    last := (s.spindle n).last, issuedAt := (s.spindle n).issuedAt } = s.spindle n
  by_cases e : n = keySp k
  · subst e; rw [spindle_modSp_same]; rfl
  · rw [spindle_modSp_ne _ _ e]; rfl

theorem ofSpindle_beginning (s : State) (rest : List Turn) (k n : Nat) {α : Type} (f : Spindle → α)
    (hf : ∀ p a b, f { p with last := a, issuedAt := b } = f p) : f ((beginning s rest k).spindle n) = f (s.spindle n) :=
  (hf _ _ _).symm.trans (congrArg f (beginning_spindle s rest k n))

section
variable {s : State} {rest : List Turn} {sp k : Nat} (hk : keySp k = sp)
include hk

theorem beginning_here : (beginning s.passQueues rest k).here = sp := hk

theorem beginning_myJobNo : (beginning s.passQueues rest k).myJobNo = s.jobNoAt sp := by
  rw [State.myJobNo, beginning_here hk]
  exact ofSpindle_beginning s.passQueues rest k sp (fun p => p.job.getD 0) fun _ _ _ => rfl

theorem beginning_tlbFind (va : Word) : (beginning s.passQueues rest k).tlbFind (beginning s.passQueues rest k).here (beginning s.passQueues rest k).myJobNo va =
    s.tlbFind sp (s.jobNoAt sp) va := by
  rw [beginning_here hk, beginning_myJobNo hk]
  exact ofSpindle_beginning s.passQueues rest k sp (fun p => (p.tlb.find? fun t => t.hits (s.jobNoAt sp) va).map (·.page)) fun _ _ _ => rfl

theorem beginning_cachedLine (fa : Nat) : (beginning s.passQueues rest k).cachedLine fa =
    ((s.spindle sp).icache.find? fun e => e.1 == fa / 64 * 64).map (·.2) := by
  rw [State.cachedLine, beginning_here hk]
  exact ofSpindle_beginning s.passQueues rest k sp (fun p => (p.icache.find? fun e => e.1 == fa / 64 * 64).map (·.2)) fun _ _ _ => rfl
end

/-- A place `i` words on in the page of a PC. -/
theorem place_of_word {pc : Word} {i n : Nat} (hi : i < n) (hlow : pc.toNat < 2 ^ 52) (hpage : pc.toNat % 2 ^ 16 + 4 * n ≤ 2 ^ 16) :
    (pc + BitVec.ofNat 64 (4 * i)).toNat = pc.toNat + 4 * i ∧ (pc.toNat + 4 * i) / 2 ^ 16 = pc.toNat / 2 ^ 16 := by
  rw [BitVec.toNat_add, BitVec.toNat_ofNat]
  omega

theorem fa_of_word (p : PageEntry) {pc : Word} {i n : Nat} (hi : i < n) (hlow : pc.toNat < 2 ^ 52) (hpage : pc.toNat % 2 ^ 16 + 4 * n ≤ 2 ^ 16) :
    p.fa (pc + BitVec.ofNat 64 (4 * i)) = p.fa pc + 4 * i := by
  rw [PageEntry.fa, PageEntry.fa, (place_of_word hi hlow hpage).1]
  split <;> omega

/-- At the unit of `AtUnit` every word stands where the fetch looks for it. -/
theorem atUnit_wordAt {s : State} {rest : List Turn} {sp k : Nat} {p : PageEntry} {ws : List IWord} (h : AtUnit s rest sp k p ws) (hk : keySp k = sp)
    {i : Nat} {w : IWord} (hw : ws[i]? = some w) : let u := beginning s.passQueues rest k; let va := (s.ctx k).pc + BitVec.ofNat 64 (4 * i)
    WordAt u p va w ∧ va.toNat / 2 ^ 16 = (s.ctx k).pc.toNat / 2 ^ 16 := by
  intro u va
  have hi : i < ws.length := (List.getElem?_eq_some_iff.mp hw).1
  obtain ⟨hpage, hx, hframe⟩ := h.page
  obtain ⟨hal, hlow, hin⟩ := h.place
  obtain ⟨hva, hq⟩ := place_of_word hi hlow hin
  have hfa : p.fa va = p.fa (s.ctx k).pc + 4 * i := fa_of_word p hi hlow hin
  obtain ⟨hword, hwin, hcache⟩ := h.words i hi
  have hq' : va.toNat / 2 ^ 16 = (s.ctx k).pc.toNat / 2 ^ 16 := by rw [hva, hq]
  have hme := (executes_beginning s rest hk).me
  refine ⟨{ window := ?_, low := by omega, page := ?_, code := hx, aligned := ?_, cached := ?_, word := ?_ }, hq'⟩
  · rw [show u.me = _ from hme]; exact hwin
  · rw [beginning_tlbFind hk, tlbFind_congr _ _ _ hq']; exact hpage
  · rw [hfa, PageEntry.fa]; split <;> omega
  · rw [beginning_cachedLine hk, hfa, hcache]; rfl
  · rw [hfa]; exact Option.some.inj (hw.symm.trans hword)

theorem aheadOf_of_noRels {s : State} {k : Nat} (h : (s.ctx k).rels = []) : s.aheadOf k = none := by
  simp only [State.aheadOf, h, List.any_nil, Bool.and_false, Bool.false_and, List.find?_eq_none.mpr fun _ _ => Bool.false_ne_true, Option.map_none]

/-- The unit of `AtUnit` is fetched, and its words judged. -/
theorem atUnit_step {s : State} {rest : List Turn} {sp k : Nat} {p : PageEntry} {ws : List IWord} (h : AtUnit s rest sp k p ws) :
    ∃ t, OnlyTlbs (beginning s.passQueues rest k) t ∧ keySp k = sp ∧ Executes s (withUnit t ws) rest sp k ws ∧
      step s = ((withUnit t ws).judge (decodeWords ws)).go := by
  obtain ⟨hmid, hag, hpick⟩ := h.turn
  obtain ⟨hdef, hrels, -, -, hlost⟩ := h.clear
  obtain ⟨hk, -⟩ := pick_some hpick
  have hx := executes_beginning s rest hk
  have hu : (beginning s.passQueues rest k).me.unit = { pc := (s.ctx k).pc } := by rw [hx.me]; rfl
  obtain ⟨t, ht, hf⟩ := fetchInstr_ok (s := beginning s.passQueues rest k) h.length fun i w hw => atUnit_wordAt h hk hw
  have hne : ws ≠ [] := by
    obtain ⟨w, hw, -⟩ := h.length
    rintro rfl; cases hw
  refine ⟨t, ht, hk, executes_withUnit hx ht hk hne, ?_⟩
  rw [step_begins h.quiet hlost hmid hag hpick hdef (aheadOf_of_noRels hrels), unitWord_ok (by rw [hu]) (by rw [hu]; exact hf) ht]

/-- A trap that a context has at its unit, in a state whose spindles differ from `s` in nothing that a trap looks at, freezes it. -/
theorem stay_freezes {s u : State} {rest : List Turn} {sp k : Nat} {ws : List IWord} {r : TrapInfo} (hx : Executes s u rest sp k ws)
    (hh : HandledAt s k) (hd : r.defer = false) (hp : r.pc = (s.ctx k).pc)
    (hs : ∀ n, (u.spindle n).job = (s.spindle n).job ∧ (u.spindle n).fenced = (s.spindle n).fenced ∧
      (u.spindle n).primary = (s.spindle n).primary ∧ (u.spindle n).secondary = (s.spindle n).secondary) :
    let t := u.takeTrap u.cur r
    (t.ctx k).st = .frozen ∧ (t.ctx k).frz.map (fun r => (r.cause, r.addr)) = some (r.cause, r.addr) ∧ (t.ctx k).pc = (s.ctx k).pc ∧
      (t.ctx k).g = (s.ctx k).g := by
  obtain ⟨⟨hcur, -, -⟩, hme, hoth, -, -, -⟩ := hx
  have hc : u.ctx k = u.me := by rw [State.me, hcur]
  have hu : HandledAt u k := handledAt_congr hh (by rw [hc, hme]) hoth hs
  have hpc : r.pc = (u.ctx k).unit.pc := by rw [hc, hme, hp]
  obtain ⟨hst, ⟨r', hr, hrc, hra, -⟩, hfpc, ⟨hg, -⟩, -, -⟩ := freezes_takeTrap hu hd hpc
  intro t
  have ht : t = u.takeTrap k r := by simp only [t, hcur]
  rw [ht]
  refine ⟨hst, by rw [hr, Option.map_some, hrc, hra], by rw [hfpc, ← hpc, hp], by rw [hg, hc, hme]⟩

/-- What a trap looks at in the spindles is as it was before the turn. -/
theorem buddies_beginning {s t : State} {rest : List Turn} {k : Nat} (ht : OnlyTlbs (beginning s.passQueues rest k) t) (n : Nat) :
    (t.spindle n).job = (s.spindle n).job ∧ (t.spindle n).fenced = (s.spindle n).fenced ∧
      (t.spindle n).primary = (s.spindle n).primary ∧ (t.spindle n).secondary = (s.spindle n).secondary := by
  have field {α : Type} (f : Spindle → α) (h1 : ∀ p a, f { p with tlb := a } = f p) (h2 : ∀ p a b, f { p with last := a, issuedAt := b } = f p) :
      f (t.spindle n) = f (s.spindle n) := (ht.ofSpindle f h1 n).trans (ofSpindle_beginning s.passQueues rest k n f h2)
  exact ⟨field Spindle.job (fun _ _ => rfl) (fun _ _ _ => rfl), field Spindle.fenced (fun _ _ => rfl) (fun _ _ _ => rfl),
    field Spindle.primary (fun _ _ => rfl) (fun _ _ _ => rfl), field Spindle.secondary (fun _ _ => rfl) (fun _ _ _ => rfl)⟩

/-- A decoded instruction runs, or traps PRIV where it is of supervisor contexts and its context is none (R63). -/
theorem atUnit_runs {s : State} {rest : List Turn} {sp k : Nat} {p : PageEntry} {ws : List IWord} {i : Instr} (h : AtUnit s rest sp k p ws)
    (hi : decodeWords ws = some i) (hr : ∀ o, i ≠ .rel o) (hf : i ≠ .far) (ha : i.accepts false false = true) :
    ((i.supvOnly = false ∨ (s.ctx k).supv = true) → ∃ u, step s = exec i u ∧ Executes s u rest sp k ws) ∧
    (i.supvOnly = true → (s.ctx k).supv = false → HandledAt s k → ∃ t, step s = .next t ∧ (t.ctx k).st = .frozen ∧
      (t.ctx k).frz.map (·.cause) = some cPRIV ∧ (t.ctx k).pc = (s.ctx k).pc ∧ (t.ctx k).g = (s.ctx k).g) := by
  obtain ⟨t, ht, hk, hx, hstep⟩ := atUnit_step h
  obtain ⟨-, hrels, hre, hchk, -⟩ := h.clear
  generalize hv : withUnit t ws = v at hx hstep
  have hups : v.upsets = s.upsets := by obtain ⟨l, e⟩ := ht.rest; rw [← hv, e]; rfl
  obtain ⟨hcur, hag, hmid⟩ := hx.who
  have hhere : v.here = sp := by rw [State.here, hcur, hk]
  have hsup : v.me.supv = (s.ctx k).supv := by rw [hx.me]
  rw [hi, judge_some hr hf (by rw [hx.me]; exact ⟨rfl, rfl⟩) ha, hsup] at hstep
  refine ⟨fun hs => ?_, fun hs hn hh => ?_⟩
  · rw [if_neg (by rcases hs with e | e <;> simp [e]), admitInstr_run i (by rw [hx.me]; exact hrels) (by rw [hx.me]; exact hre)
      (by rw [hups, hhere]; exact hchk)] at hstep
    exact ⟨_, hstep, by rw [← hmid]; exact hx⟩
  · rw [if_pos (by simp [hs, hn])] at hstep
    obtain ⟨hst, hfrz, hpc, hg⟩ := stay_freezes (r := v.me.unit.info cPRIV 0) hx hh rfl (by rw [hx.me]; rfl) fun n => by
      rw [← hv]; exact buddies_beginning ht n
    have hcause := congrArg (Option.map Prod.fst) hfrz
    rw [Option.map_map] at hcause
    exact ⟨_, hstep, hst, hcause, hpc, hg⟩

theorem atUnit_reserved {s : State} {rest : List Turn} {sp k : Nat} {p : PageEntry} {ws : List IWord} (h : AtUnit s rest sp k p ws)
    (hi : decodeWords ws = none) : ∃ u, step s = exec .reservedEncoding u ∧ Executes s u rest sp k ws := by
  obtain ⟨t, -, -, hx, hstep⟩ := atUnit_step h
  obtain ⟨-, -, hmid⟩ := hx.who
  rw [hi, judge_none (by rw [hx.me])] at hstep
  exact ⟨_, hstep, by rw [← hmid]; exact hx⟩

/-! ### Units that are not fetched -/

theorem fetchInstr_refused {s : State} {va : Word} (h : s.me.inWindow va = true) : s.fetchInstr va = .refused va s := by
  simp only [State.fetchInstr, State.fetchWord, h, if_true, Fetch.bind]

theorem fetchInstr_fault {s : State} {va : Word} {p : PageEntry} (hw : s.me.inWindow va = false) (hl : va.toNat < 2 ^ 52)
    (hp : s.tlbFind s.here s.myJobNo va = some p) (hx : needX.ok p = false) : s.fetchInstr va = .fault va s := by
  have hdiv : (va.toNat / 2 ^ 52 != 0) = false := by rw [bne_eq_false_iff_eq]; omega
  simp only [State.fetchInstr, State.fetchWord, hw, hdiv, hp, hx, Bool.not_false, Bool.false_eq_true, if_false, if_true, Fetch.bind]

theorem fetchInstr_miss {s : State} {va : Word} {p : PageEntry} (hw : s.me.inWindow va = false) (hl : va.toNat < 2 ^ 52)
    (hp : s.tlbFind s.here s.myJobNo va = some p) (hx : needX.ok p = true) (hc : s.cachedLine (p.fa va) = none) :
    s.fetchInstr va = .wait ((s.touch va).missLine va (p.fa va)) := by
  have hdiv : (va.toNat / 2 ^ 52 != 0) = false := by rw [bne_eq_false_iff_eq]; omega
  have hc' : (s.touch va).cachedLine (p.fa va) = none := by
    have hi : ((s.touch va).spindle (s.touch va).here).icache = (s.spindle s.here).icache := by
      rw [touch_here]; exact (OnlyTlbs.touch s va).ofSpindle Spindle.icache (fun _ _ => rfl) _
    rw [State.cachedLine, hi]; exact hc
  simp only [State.fetchInstr, State.fetchWord, hw, hdiv, hp, hx, hc', Bool.not_true, Bool.false_eq_true, if_false, Fetch.bind]

/-- A context that waits for the answer to a request waits with the request's token. -/
theorem me_parkFor (s : State) (why tok : Nat) (k : Kont) : let c := (s.parkFor why tok k).me
    c.st = .parked ∧ c.park = why ∧ c.tok = tok ∧ c.pc = s.me.pc ∧ c.g = s.me.g := by
  simp only [State.parkFor, me_modMe, and_self]

/-- A line that is asked of its home (R23): the context waits with PARK 1 at the unit's PC. -/
theorem missLine_facts (s : State) (va : Word) (fa : Nat) : let t := s.missLine va fa; let c := t.ctx s.cur
    c.st = .parked ∧ c.park = 1 ∧ c.pc = s.me.pc ∧ c.g = s.me.g ∧ ∃ m ∈ t.msgs, m.src = s.here ∧ m.dst = faSp fa ∧
      m.body = .fetchLine (fa / 64 * 64) ∧ m.ctx = keyCtx s.cur ∧ m.tok = c.tok := by
  intro t c
  let m : Msg := { id := 0, cls := .request, src := s.here, dst := faSp fa, job := s.myJobNo, ctx := keyCtx s.cur, tok := s.dropUnit.nextTok,
                   va := va, who := s.myWho, body := .fetchLine (fa / 64 * 64) }
  let v : State := s.dropUnit.takeTok.2.send m
  have hcur : v.cur = s.cur := send_cur _ _
  have hv : v.me = { s.me with unit := { pc := s.me.pc } } := (send_me _ _).trans (me_modMe s fun c => { c with unit := { pc := c.pc } })
  have ht : t = v.parkFor 1 s.dropUnit.nextTok .reissue := rfl
  have hc : c = (v.parkFor 1 s.dropUnit.nextTok .reissue).me := by rw [State.me, ← ht]; exact congrArg t.ctx hcur.symm
  obtain ⟨hst, hpark, htok, hpc, hg⟩ := me_parkFor v 1 s.dropUnit.nextTok .reissue
  rw [hc, ht]
  refine ⟨hst, hpark, by rw [hpc, hv], by rw [hg, hv], { m with id := s.nextMsg }, ?_, rfl, rfl, rfl, rfl, htok.symm⟩
  exact (send_msgs s.dropUnit.takeTok.2 m).symm ▸ List.mem_append_right _ (List.mem_singleton.2 rfl)

section
variable {s : State} {rest : List Turn} {sp k : Nat} (hq : ∀ e ∈ s.jobs, e.2.phase = .running) (hl : ∀ id, Upset.lost id ∉ s.upsets)
  (hm : s.midUnit = false) (ha : s.agenda = .issue sp :: rest) (hp : s.pick sp = some k) (hd : (s.ctx k).deferred = []) (hh : s.aheadOf k = none)
  (hlow : (s.ctx k).pc.toNat < 2 ^ 52)
include hq hl hm ha hp hd hh

/-- How a unit whose first word is not there goes on. -/
theorem step_of_fetch {x : Fetch (List IWord)} (hf : (beginning s.passQueues rest k).fetchInstr (s.ctx k).pc = x) (hx : ∀ ws t, x ≠ .ok ws t) :
    step s = (match x with
      | .wait t => Fetched.stay t
      | .fault a t => .run (.instructionFetchFault a) { t with midUnit := false }
      | .refused a t => .stay (t.takeTrap t.cur { (UnitRec.info { pc := (s.ctx k).pc } cILLEGAL a) with fetchFault := true })
      | .ok _ t => .stay t).go := by
  obtain ⟨hk, -⟩ := pick_some hp
  have hu : (beginning s.passQueues rest k).me.unit = { pc := (s.ctx k).pc } := by rw [(executes_beginning s rest hk).me]; rfl
  rw [step_begins hq hl hm ha hp hd hh]
  unfold State.unitWord
  simp only [hu, List.length_nil, Nat.mul_zero, BitVec.add_zero, hf]
  cases x with
  | ok ws t => exact absurd rfl (hx ws t)
  | _ => rfl

theorem step_window (hw : (s.ctx k).inWindow (s.ctx k).pc = true) (hb : HandledAt s k) : ∃ t, step s = .next t ∧ (t.ctx k).st = .frozen ∧
    (t.ctx k).frz.map (fun r => (r.cause, r.addr)) = some (cILLEGAL, (s.ctx k).pc) ∧ (t.ctx k).pc = (s.ctx k).pc ∧ (t.ctx k).g = (s.ctx k).g := by
  obtain ⟨hk, -⟩ := pick_some hp
  have hx := executes_beginning s rest hk
  have hf := fetchInstr_refused (s := beginning s.passQueues rest k) (va := (s.ctx k).pc) (by rw [hx.me]; exact hw)
  exact ⟨_, step_of_fetch hq hl hm ha hp hd hh hf nofun, stay_freezes hx hb rfl rfl (buddies_beginning (.refl _))⟩

include hlow

theorem step_fetchFault {p : PageEntry} (hw : (s.ctx k).inWindow (s.ctx k).pc = false) (ht : s.tlbFind sp (s.jobNoAt sp) (s.ctx k).pc = some p)
    (hn : needX.ok p = false) : ∃ u, step s = exec (.instructionFetchFault (s.ctx k).pc) u ∧ Executes s u rest sp k [] := by
  obtain ⟨hk, -⟩ := pick_some hp
  have hx := executes_beginning s rest hk
  have hf := fetchInstr_fault (s := beginning s.passQueues rest k) (by rw [hx.me]; exact hw) hlow (by rw [beginning_tlbFind hk]; exact ht) hn
  exact ⟨_, step_of_fetch hq hl hm ha hp hd hh hf nofun, hx⟩

theorem step_missLine {p : PageEntry} (hw : (s.ctx k).inWindow (s.ctx k).pc = false) (ht : s.tlbFind sp (s.jobNoAt sp) (s.ctx k).pc = some p)
    (hn : needX.ok p = true) (hc : ((s.spindle sp).icache.find? fun e => e.1 == p.fa (s.ctx k).pc / 64 * 64) = none) :
    ∃ t, step s = .next t ∧ (t.ctx k).st = .parked ∧ (t.ctx k).park = 1 ∧ (t.ctx k).pc = (s.ctx k).pc ∧ (t.ctx k).g = (s.ctx k).g ∧
      ∃ m ∈ t.msgs, m.src = sp ∧ m.dst = faSp (p.fa (s.ctx k).pc) ∧ m.body = .fetchLine (p.fa (s.ctx k).pc / 64 * 64) ∧ m.ctx = keyCtx k ∧
        m.tok = (t.ctx k).tok := by
  obtain ⟨hk, -⟩ := pick_some hp
  have hx := executes_beginning s rest hk
  have hf := fetchInstr_miss (s := beginning s.passQueues rest k) (by rw [hx.me]; exact hw) hlow (by rw [beginning_tlbFind hk]; exact ht) hn
    (by rw [beginning_cachedLine hk, hc]; rfl)
  have hme : ((beginning s.passQueues rest k).touch (s.ctx k).pc).me = _ := (touch_me _ _).trans hx.me
  have hcur : ((beginning s.passQueues rest k).touch (s.ctx k).pc).cur = k := touch_cur _ _
  have hsp : ((beginning s.passQueues rest k).touch (s.ctx k).pc).here = sp := (touch_here _ _).trans hk
  have hmiss := missLine_facts ((beginning s.passQueues rest k).touch (s.ctx k).pc) (s.ctx k).pc (p.fa (s.ctx k).pc)
  rw [hme, hcur, hsp] at hmiss
  exact ⟨_, step_of_fetch hq hl hm ha hp hd hh hf nofun, hmiss⟩
end

/-- Settles O55: the turn begins a unit, and the unit's fetch and its words say what runs. -/
theorem stepRunsTheDecodedInstruction : Obligations.StepRunsTheDecodedInstruction := by
  refine ⟨fun s rest sp k p ws h => ⟨fun i hi hr hf ha => atUnit_runs h hi hr hf ha, atUnit_reserved h⟩,
    fun s rest sp k hq hl hm ha hp hd hh hlow => ⟨fun hw hb => step_window hq hl hm ha hp hd hh hw hb, fun p hw ht =>
      ⟨step_fetchFault hq hl hm ha hp hd hh hlow hw ht, step_missLine hq hl hm ha hp hd hh hlow hw ht⟩⟩,
    fun s e rest hq hl hm ha he => ?_⟩
  rw [step_of_agenda hq hl hm ha, State.take, he, if_pos rfl]

end Sys2Proof.Laws
end

section
/-!
PROOFS. How a message that may arrive arrives (R118): the package that its meaning starts from, and what a thread that takes a context becomes (R37).
-/
namespace Sys2Proof.Laws
open Sys2Proof Sys2Proof.Machine Sys2Proof.Claims Sys2Proof.Config

/-! ### A message arrives -/

/-- The package once a message has arrived: its destination counts it, and it is on its way no more. -/
def arrived (s : State) (m : Msg) : State := (s.received m).dropMsg m.id

theorem onlyMessages_arrived (s : State) (m : Msg) : OnlyMessages s (arrived s m) := (onlyMessages_received s m).trans (onlyMessages_dropMsg _ _)

theorem arrived_msgs (s : State) (m : Msg) : (arrived s m).msgs = without s m := by
  change ((s.received m).msgs.filter fun x => x.id != m.id) = _
  rw [received_msgs]; rfl

theorem arrived_nextMsg (s : State) (m : Msg) : (arrived s m).nextMsg = s.nextMsg := received_nextMsg s m

theorem arriving_some {s : State} {m : Msg} {q : Body → Bool} (h : MayArrive s m) (hq : q m.body = true) : s.arriving m.id q = some m := by
  obtain ⟨hnb, hlog, hport, -⟩ := h.due
  obtain ⟨hturn, hheld, hphase⟩ := h.turn
  have hlf : s.logFirst m = true := by simp [State.logFirst, hphase]
  have hlast : (if m.early then !s.replayHeld m || s.frontHolds m else s.headOfFlow m) = true := by
    rcases hturn with e | e
    · simp [e, hheld]
    · split
      · simp [hheld]
      · exact e
  unfold State.arriving
  rw [h.first]
  simp only [hq, hnb, hlog, hport, hlf, hlast, beq_self_eq_true, Bool.not_false, Option.isNone_none, Bool.and_self, if_true]

/-- What a message of a kind does that arrives where nothing refuses, holds or delays it. -/
theorem onArrive_eq {s : State} {m : Msg} {q : Body → Bool} (f : Msg → State → State) (h : Arriving s m) (hq : q m.body = true) :
    s.onArrive m.id q f = f m (arrived s m) := by
  obtain ⟨-, -, -, hpost⟩ := h.may.due
  obtain ⟨-, hheld, -⟩ := h.may.turn
  have hopen : (decide (m.dst < numSpindles) && (s.spindle m.dst).fenced) = false := by
    have := h.opened
    rw [Bool.eq_false_iff]
    simpa using this
  unfold State.onArrive
  rw [arriving_some h.may hq]
  simp only [hopen, h.front, hheld, hpost, Bool.false_eq_true, if_false]
  rfl

/-- The one answer that is sent is the last message. -/
theorem answered_send {s t : State} {m : Msg} {b : Body} (hm : t.msgs = without s m) (hn : t.nextMsg = s.nextMsg) : Answered s (t.send (m.answer b)) m b := by
  rw [Answered, send_msgs, hm, hn]

theorem replied_send (s : State) (m : Msg) (b : Body) : Replied (s.send (m.answer b)) m b :=
  ⟨{ m.answer b with id := s.nextMsg }, by rw [send_msgs]; exact List.mem_append_right _ (List.mem_singleton.2 rfl), rfl, rfl, rfl, rfl, rfl, rfl⟩

theorem sameMemory_send {s t : State} (h : SameMemory s t) (m : Msg) : SameMemory s (t.send m) :=
  sameMemory_trans h (onlyMessages_send t m).sameMemory

/-! ### What a home looks at -/

section
variable {s t : State} (h : OnlyMessages s t)
include h

theorem windowOk_congr (dst src fa n kind : Nat) : t.windowOk dst src fa n kind = s.windowOk dst src fa n kind := by
  have hj : (t.spindle dst).job = (s.spindle dst).job := h.ofSpindle Spindle.job (fun _ _ _ => rfl) dst
  have hb : (t.spindle dst).sysbase = (s.spindle dst).sysbase := h.ofSpindle Spindle.sysbase (fun _ _ _ => rfl) dst
  have hA : (t.spindle dst).winA = (s.spindle dst).winA := h.ofSpindle Spindle.winA (fun _ _ _ => rfl) dst
  have hB : (t.spindle dst).winB = (s.spindle dst).winB := h.ofSpindle Spindle.winB (fun _ _ _ => rfl) dst
  have hr (j : Nat) : t.job j = s.job j := h.job j
  simp only [State.windowOk, hj, hb, hA, hB, hr]

theorem freeSlot_congr (sp : Nat) (q : Nat → Bool) : t.freeSlot sp q = s.freeSlot sp q := by
  simp only [State.freeSlot, h.ctx]

theorem reserveSize_congr (sp : Nat) : t.reserveSize sp = s.reserveSize sp := by
  have e : (t.queue (t.jobAt sp).queue).mres = (s.queue (s.jobAt sp).queue).mres := by simp only [State.jobAt, State.queue, h.jobNoAt, h.job, h.disp]
  unfold State.reserveSize
  rw [e]

theorem handledAt_of_onlyMessages {k : Nat} (hh : HandledAt s k) : HandledAt t k :=
  handledAt_congr hh (by rw [h.ctx]) (fun x _ => h.ctx x) fun n =>
    ⟨h.ofSpindle Spindle.job (fun _ _ _ => rfl) n, h.fenced n, h.ofSpindle Spindle.primary (fun _ _ _ => rfl) n,
      h.ofSpindle Spindle.secondary (fun _ _ _ => rfl) n⟩

/-- A trap of a waiting context after a message has arrived. -/
theorem freezes_of_onlyMessages {k cause : Nat} {addr : Word} (hh : HandledAt s k) {r : TrapInfo} (hd : r.defer = false) (hp : r.pc = (s.ctx k).unit.pc)
    (hc : r.cause = cause) (ha : r.addr = addr) : Freezes s (t.takeTrap k r) k cause addr := by
  obtain ⟨hst, hrec, hpc, hregs, hoth, hmem⟩ := freezes_takeTrap (handledAt_of_onlyMessages h hh) hd (by rw [h.ctx]; exact hp)
  rw [h.ctx] at hrec hpc hregs
  exact ⟨hst, by rw [← hc, ← ha]; exact hrec, hpc, hregs, fun x hx => (hoth x hx).trans (h.ctx x), sameMemory_trans h.sameMemory hmem⟩
end

/-! ### A thread takes a context (R37) -/

/-- A thread with a plain load of unpoisoned bytes goes on in its context with the value loaded. -/
theorem seat_facts {s : State} {sp n : Nat} {g : Migrant} (hc : g.carries = true) (hk : g.kind = 0) (hp : s.poisoned g.fa g.n = false) :
    let t := s.seat sp n g; let k := keyOf sp n
    (t.ctx k).st = .ready ∧ (t.ctx k).pc = g.image.pc ∧ (t.ctx k).g = (g.image.setReg g.d (widen g.sx g.n (s.read g.fa g.n))).g ∧
    (t.ctx k).thidx = g.image.thidx ∧ (t.ctx k).pretag = g.image.pretag ∧ (∀ x, x ≠ k → t.ctx x = s.ctx x) ∧ SameMemory s t ∧
    t.msgs = s.msgs ∧ t.nextMsg = s.nextMsg ∧ t.spindles = s.spindles := by
  intro t k
  let f : Context → Context := fun old => { g.image with st := .ready, lastIssue := old.lastIssue, readyAt := s.now + 1, held := (s.jobAt sp).holding }
  have ht : t = (s.modCtx k f).modCtx k fun x => x.setReg g.d (widen g.sx g.n (s.read g.fa g.n)) := by
    have hpp : (s.modCtx k f).pagePoison g.kind g.fa g.n false = false := by
      rw [State.pagePoison, hk, if_pos rfl, Bool.false_and, Bool.not_false, Bool.true_and]; exact hp
    have hr : (s.modCtx k f).pageRead g.kind g.fa g.n = s.read g.fa g.n := by rw [State.pageRead, hk, if_pos rfl]; rfl
    simp only [t, State.seat, hc, Bool.not_true, Bool.false_eq_true, if_false]
    rw [if_neg (by simpa using hpp), ← extend_eq_widen, ← hr]
  have hck : t.ctx k = (f (s.ctx k)).setReg g.d (widen g.sx g.n (s.read g.fa g.n)) := by rw [ht, ctx_modCtx_same, ctx_modCtx_same]
  rw [hck]
  refine ⟨rfl, rfl, rfl, rfl, rfl, fun x hx => ?_, ?_, ?_, ?_, ?_⟩
  · rw [ht, ctx_modCtx_ne _ _ hx, ctx_modCtx_ne _ _ hx]
  all_goals rw [ht]
  · exact sameMemory_of_eq rfl rfl rfl
  all_goals rfl

end Sys2Proof.Laws
end

section
/-!
PROOFS. Migration at both ends, admission and exit notices (R30, R34 to R38).
-/
namespace Sys2Proof.Laws
open Sys2Proof Sys2Proof.Machine Sys2Proof.Claims Sys2Proof.Config

/-! ### The home of a migrant -/

theorem sameMemory_modSp (s : State) (sp : Nat) (f : Spindle → Spindle) : SameMemory s (s.modSp sp f) := sameMemory_of_eq rfl rfl rfl

theorem sameMemory_withMsgs (s : State) (l : List Msg) : SameMemory s { s with msgs := l } := sameMemory_of_eq rfl rfl rfl

section
variable {s : State} {sp : Nat} {g : Migrant}

theorem arriveThread_free {n : Nat} (hb : (s.spindle sp).migBuf = []) (hr : (s.spindle sp).migRes = []) (hn : s.freeSlot sp (fun _ => true) = some n) :
    s.arriveThread sp g = some (s.seat sp n g) := by
  simp only [State.arriveThread, hb, hr, hn, List.isEmpty_nil, Option.isSome_some, Bool.and_self, if_true]

theorem arriveThread_queued (hr : (s.spindle sp).migRes = []) (hlen : (s.spindle sp).migBuf.length < 16)
    (h : (s.spindle sp).migBuf ≠ [] ∨ s.freeSlot sp (fun _ => true) = none) :
    s.arriveThread sp g = some (s.modSp sp fun p => { p with migBuf := p.migBuf ++ [g] }) := by
  have hno : ((s.spindle sp).migBuf.isEmpty && (s.freeSlot sp fun _ => true).isSome) = false := by
    rcases h with e | e
    · rw [List.isEmpty_eq_false_iff.mpr e]; rfl
    · rw [e]; exact Bool.and_false _
  simp only [State.arriveThread, hr, List.isEmpty_nil, Bool.and_true, hno, hlen, decide_true, Bool.and_self, Bool.false_eq_true, if_false, if_true]

theorem arriveThread_busy (hr : (s.spindle sp).migRes ≠ []) (hlen : s.reserveSize sp ≤ (s.spindle sp).migRes.length) : s.arriveThread sp g = none := by
  have hno : (s.spindle sp).migRes.isEmpty = false := List.isEmpty_eq_false_iff.mpr hr
  simp only [State.arriveThread, hno, Bool.and_false, Bool.false_and, Bool.false_eq_true, if_false, Nat.not_lt.mpr hlen]
end

section
variable {s : State} {m : Msg} {g : Migrant} (hb : m.body = .migrate g) (hw : s.windowOk m.dst m.src g.fa g.n 3 = true)
include hb hw

theorem migrateIn_of_some {t : State} (h : s.arriveThread m.dst { g with job := s.jobNoAt m.dst } = some t) :
    s.migrateIn m = t.send (m.answer (.migAnswer migAccept)) := by
  simp only [State.migrateIn, hb, hw, h, Bool.not_true, Bool.false_eq_true, if_false]

theorem migrateIn_of_none (h : s.arriveThread m.dst { g with job := s.jobNoAt m.dst } = none) : s.migrateIn m =
    { s with msgs := s.msgs ++ [{ m with notBefore := s.now + 2 ^ 40, postFront := false }] }.send (m.answer (.migAnswer migBusy)) := by
  simp only [State.migrateIn, hb, hw, h, Bool.not_true, Bool.false_eq_true, if_false]
end

/-- A migration message that its home's windows let in is judged in the package in which it has arrived. -/
theorem execMigration_eq {s : State} {m : Msg} {g : Migrant} (h : Arriving s m) (hb : m.body = .migrate g) :
    exec (.migrationMessage m.id) s = .next ((arrived s m).migrateIn m) :=
  congrArg Host.Outcome.next (onArrive_eq _ h (by rw [hb]))

theorem migrantsArrive : MigrantsArrive := by
  intro s m g n h hb hc hk hw hp hn p k free
  let u := arrived s m
  have hu : OnlyMessages s u := onlyMessages_arrived s m
  have hwu : u.windowOk m.dst m.src g.fa g.n 3 = true := (windowOk_congr hu _ _ _ _ _).trans hw
  have hpu : u.poisoned g.fa g.n = false := by rw [State.poisoned, hu.poison]; exact hp
  have hjob : u.jobNoAt m.dst = s.jobNoAt m.dst := hu.jobNoAt _
  have hbuf : (u.spindle m.dst).migBuf = p.migBuf := hu.ofSpindle Spindle.migBuf (fun _ _ _ => rfl) _
  have hres : (u.spindle m.dst).migRes = p.migRes := hu.ofSpindle Spindle.migRes (fun _ _ _ => rfl) _
  rw [execMigration_eq h hb]
  refine ⟨fun hb0 hr0 h1 h2 hfree low => ⟨_, rfl, ?_⟩, fun hr0 hlen hfull => ⟨_, rfl, ?_⟩, fun hr0 hlen => ⟨_, rfl, ?_⟩⟩
  · have hslot : u.freeSlot m.dst (fun _ => true) = some n :=
      (freeSlot_congr hu _ _).trans (freeSlot_eq_some h1 h2 hfree rfl fun i hi hin h => low i hi hin h.1)
    rw [migrateIn_of_some hb hwu (arriveThread_free (hbuf.trans hb0) (hres.trans hr0) hslot)]
    obtain ⟨hst, hpc, hg, hth, hpre, hoth, hmem, hmsgs, hnext, -⟩ :=
      seat_facts (s := u) (sp := m.dst) (n := n) (g := { g with job := u.jobNoAt m.dst }) hc hk hpu
    have hread : u.read g.fa g.n = s.read g.fa g.n := by rw [State.read, hu.mem]; rfl
    rw [hread] at hg
    refine ⟨by rw [send_ctx]; exact hst, by rw [send_ctx]; exact hpc, by rw [send_ctx]; exact hg, by rw [send_ctx]; exact hth,
      by rw [send_ctx]; exact hpre, fun x hx => by rw [send_ctx]; exact (hoth x hx).trans (hu.ctx x), ?_, ?_⟩
    · exact sameMemory_send (sameMemory_trans hu.sameMemory hmem) _
    · exact answered_send (hmsgs.trans (arrived_msgs s m)) (hnext.trans (arrived_nextMsg s m))
  · have hslot : (u.spindle m.dst).migBuf ≠ [] ∨ u.freeSlot m.dst (fun _ => true) = none := by
      rw [hbuf]
      exact hfull.imp id fun hnone => (freeSlot_congr hu _ _).trans (freeSlot_eq_none fun i h1 h2 h => hnone i h1 h2 h.1)
    rw [migrateIn_of_some hb hwu (arriveThread_queued (hres.trans hr0) (by rw [hbuf]; exact hlen) hslot)]
    refine ⟨?_, ?_, (send_ctxs _ _).trans hu.ctxs, answered_send (arrived_msgs s m) (arrived_nextMsg s m)⟩
    · refine ((onlyMessages_send _ _).ofSpindle Spindle.migBuf (fun _ _ _ => rfl) _).trans ?_
      rw [spindle_modSp_same, hjob]
      exact congrArg (· ++ _) hbuf
    · exact sameMemory_send (sameMemory_trans hu.sameMemory (sameMemory_modSp _ _ _)) _
  · rw [migrateIn_of_none hb hwu (arriveThread_busy (by rw [hres]; exact hr0) (by rw [hres, reserveSize_congr hu]; exact hlen))]
    refine ⟨sameMemory_send (sameMemory_trans hu.sameMemory (sameMemory_withMsgs u _)) _,
      (send_ctxs _ _).trans hu.ctxs, replied_send _ _ _, { m with notBefore := u.now + 2 ^ 40, postFront := false }, ?_, hb, ?_⟩
    · rw [send_msgs]
      exact List.mem_append_left _ (List.mem_append_right _ (List.mem_singleton.2 rfl))
    · change s.now < u.now + 2 ^ 40
      rw [hu.now]; omega

/-! ### The answer at the thread's source -/

theorem mem_set_of_ne {α : Type} {t : Table α} {k : Nat} {v : α} {e : Nat × α} (h : e ∈ t) (hk : e.1 ≠ k) : e ∈ Table.set t k v := by
  induction t with
  | nil => cases h
  | cons x t ih =>
    obtain ⟨j, w⟩ := x
    simp only [Table.set]
    rcases List.mem_cons.mp h with rfl | h
    · split
      · exact List.mem_cons_of_mem _ List.mem_cons_self
      · exact List.mem_cons_self
    · split
      · exact List.mem_cons_of_mem _ (List.mem_cons_of_mem _ h)
      · split
        · exact List.mem_cons_of_mem _ h
        · exact List.mem_cons_of_mem _ (ih h)

/-- The handlers stay while a thread of their job is left. -/
theorem freeHandlers_of_left {s : State} {j : Nat} (h : s.threadsLeft j = true) : s.freeHandlers j = s := by
  rw [State.freeHandlers, h, Bool.true_or, if_pos rfl]

section
variable {s : State} {m : Msg} {code : Nat} (hst : (s.ctx m.key).st = .departing) (htok : (s.ctx m.key).tok = m.tok)
include hst htok

theorem migrateAnswer_eq : s.migrateAnswer m code =
    if code = migAccept then (s.setCtx m.key (freeCtx (s.ctx m.key))).freeHandlers (s.jobNoAt m.dst)
    else if code = migBusy then
      { s with msgs := s.msgs.map fun (x : Msg) => if x.tok == m.tok && x.src == m.dst && x.notBefore != 0 then { x with notBefore := s.now + nackRetry } else x }
    else s.takeTrap m.key ((s.ctx m.key).unit.info (if code = migFence then cFENCED else cWINDOW) m.va) := by
  have hno : ((s.ctx m.key).st != .departing || (s.ctx m.key).tok != m.tok) = false := by simp [hst, htok]
  rw [State.migrateAnswer]
  exact if_neg (by simp [hno])
end

theorem departingThreadsLearn : DepartingThreadsLearn := by
  intro s m code h hb k c hst htok
  let u := arrived s m
  have hu : OnlyMessages s u := onlyMessages_arrived s m
  have hex : exec (.migrationAnswer m.id) s = .next (u.migrateAnswer m code) :=
    congrArg Host.Outcome.next ((onArrive_eq _ h (by rw [hb])).trans (by simp only [hb]; rfl))
  have hcu : u.ctx m.key = c := hu.ctx _
  rw [hex, migrateAnswer_eq (by rw [hcu]; exact hst) (by rw [hcu]; exact htok)]
  refine ⟨fun hcode hleft => ⟨_, rfl, ?_⟩, fun hh => ⟨fun hcode => ⟨_, rfl, ?_⟩, fun hcode => ⟨_, rfl, ?_⟩⟩, fun hcode => ⟨_, rfl, ?_⟩⟩
  · have hthreads : (u.setCtx k (freeCtx c)).threadsLeft (u.jobNoAt m.dst) = true := by
      obtain ⟨e, he, hcond⟩ := List.any_eq_true.mp hleft
      simp only [Bool.and_eq_true, bne_iff_ne, beq_iff_eq] at hcond
      obtain ⟨⟨⟨hne, hnf⟩, hhd⟩, hjob⟩ := hcond
      have hmem : e ∈ Table.set u.ctxs k (freeCtx c) := mem_set_of_ne (by rw [hu.ctxs]; exact he) hne
      have hsp : (u.spindle (keySp e.1)).job = some (u.jobNoAt m.dst) := by
        rw [hu.jobNoAt]; exact (hu.ofSpindle Spindle.job (fun _ _ _ => rfl) _).trans hjob
      have hany : (Table.set u.ctxs k (freeCtx c)).any
          (fun e => e.2.st != .free && !e.2.handler && (u.spindle (keySp e.1)).job == some (u.jobNoAt m.dst)) = true :=
        List.any_eq_true.mpr ⟨e, hmem, by simp [hnf, hsp, hhd]⟩
      exact Bool.or_eq_true_iff.mpr (.inl (Bool.or_eq_true_iff.mpr (.inl hany)))
    rw [if_pos hcode, hcu, freeHandlers_of_left hthreads]
    exact ⟨ctx_setCtx_same _ _ _, fun x hx => (ctx_setCtx_ne _ _ hx).trans (hu.ctx x), sameMemory_trans hu.sameMemory (sameMemory_of_eq rfl rfl rfl)⟩
  · subst hcode
    exact freezes_of_onlyMessages hu hh rfl (by rw [hcu]; rfl) rfl rfl
  · subst hcode
    exact freezes_of_onlyMessages hu hh rfl (by rw [hcu]; rfl) rfl rfl
  · subst hcode
    refine ⟨hu.ctxs, sameMemory_trans hu.sameMemory (sameMemory_of_eq rfl rfl rfl), fun x hx hid ht hs hn => ?_⟩
    have hxu : x ∈ u.msgs := by rw [show u.msgs = _ from arrived_msgs s m]; exact List.mem_filter.mpr ⟨hx, bne_iff_ne.mpr hid⟩
    refine List.mem_map.mpr ⟨x, hxu, ?_⟩
    rw [if_pos (by simp [ht, hs, hn]), hu.now]
    rfl

/-! ### Messages that were refused -/

/-- A migration message that its source holds. -/
theorem heldMigrant_iff (s : State) (sp n : Nat) (x : Msg) : ((match x.body with | .migrate _ => true | _ => false) && x.src == sp && x.ctx == n &&
      x.notBefore != 0 && decide (x.notBefore ≤ s.now)) = true ↔
    ((∃ g, x.body = .migrate g) ∧ x.src = sp ∧ x.ctx = n ∧ x.notBefore ≠ 0) ∧ x.notBefore ≤ s.now := by
  have hb : (match x.body with | .migrate _ => true | _ => false) = true ↔ ∃ g, x.body = .migrate g := by
    cases x.body <;> simp
  simp only [Bool.and_eq_true, hb, beq_iff_eq, bne_iff_ne, decide_eq_true_eq, and_assoc]

theorem find_of_unique {α : Type} {l : List α} {p : α → Bool} {a : α} (ha : a ∈ l) (hp : p a = true) (u : ∀ x ∈ l, p x = true → x = a) : l.find? p = some a := by
  cases h : l.find? p with
  | none => exact absurd hp (by simpa using List.find?_eq_none.mp h a ha)
  | some x => rw [u x (List.mem_of_find?_eq_some h) (List.find?_some h)]

theorem migrantsAreSentAgain : MigrantsAreSentAgain := by
  intro s sp n m kept
  refine ⟨fun hm hk hd hu => ⟨_, rfl, ?_⟩, fun hno => congrArg Host.Outcome.next ?_⟩
  · have hf : s.heldMigrant sp n = some m := find_of_unique hm ((heldMigrant_iff s sp n m).mpr ⟨hk, hd⟩) fun x hx hx' =>
      hu x hx ((heldMigrant_iff s sp n x).mp hx').1 ((heldMigrant_iff s sp n x).mp hx').2
    simp only [State.migrateAgain, hf]
    exact ⟨(onlyMessages_dropMsg s m.id).trans (onlyMessages_send _ _), send_msgs _ _⟩
  · have hf : s.heldMigrant sp n = none := List.find?_eq_none.mpr fun x hx hx' => by
      obtain ⟨hkx, hle⟩ := (heldMigrant_iff s sp n x).mp hx'
      exact absurd hle (Nat.not_le.mpr (hno x hx hkx))
    simp only [State.migrateAgain, hf]

/-! ### Threads that wait -/

theorem admitHead_eq {s : State} {sp n : Nat} {g : Migrant} {l : List Migrant} (hb : (s.spindle sp).migBuf = g :: l)
    (hn : s.freeSlot sp (fun _ => true) = some n) : s.admitHead sp = (s.modSp sp fun p => { p with migBuf := l }.refill).seat sp n g := by
  simp only [State.admitHead, hb, hn]

theorem waitingThreadsAreAdmitted : WaitingThreadsAreAdmitted := by
  intro s sp n g l hb hr hc hk hp _ h1 h2 free k hfree low
  have hslot : s.freeSlot sp (fun _ => true) = some n := freeSlot_eq_some h1 h2 hfree rfl fun i hi hin h => low i hi hin h.1
  obtain ⟨hst, hpc, hg, -, -, hoth, hmem, -, -, hsps⟩ :=
    seat_facts (s := s.modSp sp fun p => { p with migBuf := l }.refill) (sp := sp) (n := n) (g := g) hc hk hp
  refine ⟨_, congrArg Host.Outcome.next (admitHead_eq hb hslot), ?_, hst, hpc, hg, hoth, sameMemory_trans (sameMemory_modSp _ _ _) hmem⟩
  have hq : (({ s.spindle sp with migBuf := l } : Spindle).refill).migBuf = l := by simp [Spindle.refill, hr]
  rw [State.spindle, hsps]
  exact (congrArg Spindle.migBuf (spindle_modSp_same s sp _)).trans hq

/-! ### Exit notices -/

/-- The keeper of a birth spindle that waits for a thread goes on when its status is held (R30). -/
theorem holdStatus_keeper (s : State) (j th st : Nat) : let b := (s.job j).rect.spindle (th / 16); let t := s.holdStatus j th st; let c := s.ctx (keyOf b 0)
    t.msgs = s.msgs ∧ (∀ x, x ≠ keyOf b 0 → t.ctx x = s.ctx x) ∧ (c.park = 11 → c.st = .parked → c.waitsOn (th % 16) = true → (t.ctx (keyOf b 0)).st = .ready) ∧
      (c.waitsOn (th % 16) = false → t.ctx (keyOf b 0) = c) := by
  intro b t c
  let v := s.modSp b fun p => { p with exits := Table.set p.exits (th % 16) st }
  have ht : t = if c.park == 11 && c.waitsOn (th % 16) then v.wakeAgain (keyOf b 0) else v := rfl
  rw [ht]
  split
  · rename_i hw
    have hck : (v.wakeAgain (keyOf b 0)).ctx (keyOf b 0) = if c.st == .parked then { c.woken v.now with again := !c.unit.words.isEmpty } else c :=
      ctx_modCtx_same v (keyOf b 0) _
    refine ⟨rfl, fun x hx => ctx_modCtx_ne _ _ hx, fun _ hp _ => ?_, fun hno => ?_⟩
    · rw [hck, if_pos (by simp [hp])]; rfl
    · simp [hno] at hw
  · rename_i hw
    exact ⟨rfl, fun _ _ => rfl, fun h1 _ h3 => absurd (by simp [h1, h3]) hw, fun _ => rfl⟩

theorem exitNoticesAreKept : ExitNoticesAreKept := by
  intro s m th st h hb b
  let u := arrived s m
  have hu : OnlyMessages s u := onlyMessages_arrived s m
  have hex : exec (.exitNotice m.id) s = .next (u.holdStatus m.job th st) :=
    congrArg Host.Outcome.next ((onArrive_eq _ h (by rw [hb])).trans (by simp only [hb]; rfl))
  have hbu : (u.job m.job).rect.spindle (th / 16) = b := by rw [hu.job]
  obtain ⟨hheld, -, hmem, -, -⟩ := holdStatus_facts u m.job th st
  obtain ⟨hmsgs, hoth, hwake, hstay⟩ := holdStatus_keeper u m.job th st
  rw [hbu] at hheld hoth hwake hstay
  rw [hu.ctx] at hwake hstay
  exact ⟨_, hex, hheld, sameMemory_trans hu.sameMemory hmem, hmsgs.trans (arrived_msgs s m), fun x hx => (hoth x hx).trans (hu.ctx x), hwake, hstay⟩

/-- Settles O41: each message arrives, and what its meaning does then is told by cases. -/
theorem threadsArriveAndLeave : Obligations.ThreadsArriveAndLeave :=
  ⟨migrantsArrive, departingThreadsLearn, migrantsAreSentAgain, waitingThreadsAreAdmitted, exitNoticesAreKept⟩

end Sys2Proof.Laws
end

section
/-!
PROOFS. The wait of a context for the words of a copy command (R303), where a REL operation has the command's token.
-/
namespace Sys2Proof.Laws
open Sys2Proof Sys2Proof.Machine Sys2Proof.Claims

/-- Context 1 waits in CPGO for the last acknowledgement of command 1 of engine 0, which answers token 9. -/
def emptyingCmd : CopyCmd := { id := 1, job := 0, key := 1, thidx := 1, cls := 0, stg := {}, emptying := true, acksLeft := 1, tok := 9 }
/-- The acknowledgement is on its way to context 2, which has a REL operation of the same token outstanding. -/
def sharedAck : Msg := { id := 5, cls := .request, src := 1, dst := 0, job := 0, ctx := 2, tok := 9, body := .ack }
def sharedToken : State :=
  { State.reset with
    ctxs := [(1, { st := .parked, park := 2, kont := .emptied 3 1, tok := 9 }), (2, { st := .ready, rels := [{ tok := 9, word := 0 }] })]
    engines := [(0, { cmds := [emptyingCmd] })]
    msgs := [sharedAck] }

theorem arriving_sharedAck : Arriving sharedToken sharedAck where
  may := { first := by decide, due := by decide, turn := by decide }
  opened := by decide
  front := by decide

/-- The acknowledgement is taken for the REL operation of context 2, and context 1 waits on. -/
theorem sharedAck_leaves_context1 {t : State} (h : exec (.replyArrival sharedAck.id) sharedToken = .next t) : (t.ctx 1).st = .parked := by
  obtain rfl := Host.Outcome.next.inj h
  decide

/-- Refutes O40: `AnswersEndWaits` lets a copy command's last acknowledgement end the wait of CPGO with no hypothesis that the message answers no
REL operation. The model asks for a REL operation of the message's context and token first (R120), and in `sharedToken` there is one. -/
theorem not_waitsEndAsTheirAnswersSay : ¬ Obligations.WaitsEndAsTheirAnswersSay := by
  rintro ⟨hanswers, -⟩
  obtain ⟨-, hemptied, -⟩ := hanswers sharedToken sharedAck 0 0 3 false arriving_sharedAck
  obtain ⟨t, hexec, hends, -⟩ := hemptied emptyingCmd rfl (by decide) (by decide) rfl (by decide) (by decide) (by decide)
  have hready : (t.ctx 1).st = .ready := hends.ready.1
  rw [sharedAck_leaves_context1 hexec] at hready
  cases hready

end Sys2Proof.Laws
end

section
/-!
PROOFS. The end of a chunk within the package (R305, R306), where its command is marked as having a chunk in flight.
-/
namespace Sys2Proof.Laws
open Sys2Proof Sys2Proof.Machine Sys2Proof.Claims

/-- A command of engine 0 in the midst of its only chunk, of one word, which has been read as 7; it is marked in flight. -/
def flyingPart : ChunkPart := { vals := [(0, some 7, false)] }
def flyingCmd : CopyCmd :=
  { id := 1, job := 1, key := 1, thidx := 1, cls := 0, stg := { csrc := 0x20, cdst := 0x28, clen := 8, crows := 1 }, flying := true, part := some flyingPart }
/-- Its job's tables, at 0, 0x8000 and 0x10000, map page 0 to the scratchpad of spindle 0, to be read and written. -/
def flyingHome : State :=
  { State.reset with
    mem := [(3, 0x40), (7, 0x80), (0x8003, 0x80), (0x8007, 0x80), (0x10007, 0xC6)]
    spindles := [(0, { job := some 1 })]
    jobs := [(1, { Job.blank with serial := 1, rect := ⟨0, 0, 1, 1⟩ })]
    engines := [(0, { cmds := [flyingCmd] })] }

theorem flyingHome_chunk : ChunkFrom flyingHome 0 flyingCmd flyingPart 1 0x20 where
  next := .inl (by decide)
  part := rfl
  ready := ⟨by decide, rfl⟩
  size := by decide
  source i hi := by
    obtain rfl : i = 0 := by omega
    decide +kernel
  clean := by decide
  good v hv := by
    obtain rfl := List.mem_singleton.mp hv
    exact ⟨by decide, 7, rfl⟩

theorem flyingHome_target : ∀ i, i < 1 → flyingHome.copyTo flyingCmd (flyingCmd.dstVa + BitVec.ofNat 64 (8 * i)) = some (0x28 + 8 * i, 0) := by
  intro i hi
  obtain rfl : i = 0 := by omega
  decide +kernel

/-- The chunk ends, and its command stays marked as in flight. -/
theorem flyingHome_stays_flying {t : State} (h : exec (.copyChunk 0) flyingHome = .next t) : ∀ x ∈ (t.engine 0).cmds, x.flying = true := by
  obtain rfl := Host.Outcome.next.inj h
  decide +kernel

/-- Refutes O45: `ChunksAreCopied` says of a chunk within the package that its command is not in flight after its last word, and `Chooses` lets a
command in the midst of a chunk be in flight before. The model leaves the mark as it was. -/
theorem not_copiesMoveAndEnd : ¬ Obligations.CopiesMoveAndEnd := by
  rintro ⟨hcopied, -⟩
  obtain ⟨-, hchunk, -⟩ := hcopied flyingHome 0 flyingCmd flyingPart 1 0x20 0x28
  obtain ⟨t, q, put, hexec, -, -, -, -, -, -, -, -, hleft | ⟨-, -, hover⟩⟩ :=
    hchunk flyingHome_chunk rfl (by decide) (by decide) flyingHome_target
  · obtain ⟨-, -, hmore⟩ := hleft
    exact absurd hmore (by decide)
  · have hflying : false = true := flyingHome_stays_flying hexec _ hover
    cases hflying

end Sys2Proof.Laws
end

section
/-!
PROOFS. The end of a launch (R364), where the fill of its completion word fences another job's rectangle (R348), whose pair tasks run out (R176).
-/
namespace Sys2Proof.Laws
open Sys2Proof Sys2Proof.Machine Sys2Proof.Claims

/-- Job 1, on spindle 0, has nothing left to do; its completion word is at 0x40, and its tables, at 0, 0x8000 and 0x10000, map page 0 to the
scratchpad of spindle 0. Job 0, on spindle 1, has pair trees and no pair left. -/
def endingJob : Job := { Job.blank with serial := 1, rect := ⟨0, 0, 1, 1⟩, compl := 0x40 }
def pairsJob : Job := { Job.blank with rect := ⟨1, 0, 1, 1⟩, trees := [(0, ⟨0, 0, 0⟩, ⟨0, 0, 0⟩)] }
/-- A read of job 0 waits at the completion word and goes on into a poisoned one. -/
def poisonReader : Waiter := { sp := 1, ctx := 0, tok := 9, op := 0, fa := 0x40, n := 16, data := 0, local_ := false }
/-- The list of takers of spindle 0's cluster names context 0 of spindle 0, which is FREE. -/
def staleTaker : State :=
  { State.reset with
    mem := [(3, 0x40), (7, 0x80), (0x8003, 0x80), (0x8007, 0x80), (0x10007, 0xC6)]
    poison := [0x48]
    spindles := [(0, { job := some 1, waiters := [poisonReader] }), (1, { job := some 0 })]
    clusters := [(0, { takers := [keyOf 0 0] })]
    jobs := [(0, pairsJob), (1, endingJob)] }

theorem staleTaker_canRetire : staleTaker.canRetire 1 = true := by decide

/-- The launch retires, and the fence makes context 0 of its spindle take PTAKE's exhausted result. -/
theorem staleTaker_goes_on {t : State} (h : exec (.launchRetire 1) staleTaker = .next t) : (t.ctx (keyOf 0 0)).st = .ready := by
  obtain rfl := Host.Outcome.next.inj h
  decide +kernel

/-- Refutes O52: `LaunchesRetire` says of every state that the contexts of a retired launch are FREE at the end of the event. Its completion word is
filled after they were freed, and in `staleTaker` that fill serves a waiter that consumes poison: the fence empties job 0's bobbins, whose list of
takers names a context of the retired launch, and that context becomes READY. -/
theorem not_launchesAreChosenStartedAndRetired : ¬ Obligations.LaunchesAreChosenStartedAndRetired := by
  rintro ⟨-, -, -, -, hretire⟩
  obtain ⟨-, hretires⟩ := hretire staleTaker 1 endingJob rfl
  obtain ⟨t, hexec, -, -, hfree, -⟩ := hretires staleTaker_canRetire rfl
  obtain ⟨-, hctxs⟩ := hfree 0 (by decide)
  have hst : (t.ctx (keyOf 0 0)).st = .free := hctxs 0 (by decide)
  rw [staleTaker_goes_on hexec] at hst
  cases hst

end Sys2Proof.Laws
end

section
/-!
SUPPORT. A word is its fields, packed in the format of its major (R51), and a field whose reserved bits are zero (R54) is packed from the smaller fields
that its form names.
-/
namespace Sys2Proof.Laws
open Sys2Proof

theorem extract_toNat {n : Nat} (x : BitVec n) (i m : Nat) : (x.extractLsb' i m).toNat = x.toNat / 2 ^ i % 2 ^ m := by
  rw [BitVec.extractLsb'_toNat, Nat.shiftRight_eq_div_pow]

theorem toNat_of_extract_eq_zero {n i m : Nat} {x : BitVec n} (h : x.extractLsb' i m = 0) : x.toNat / 2 ^ i % 2 ^ m = 0 := by
  rw [← extract_toNat, h]; simp

theorem eq_ofNat_of_toNat {n k : Nat} {x : BitVec n} (h : x.toNat = k) : x = BitVec.ofNat n k := by simp [← h]

/-! ### Every word is its fields, packed -/

theorem fLen_toNat (w : IWord) : (fLen w).toNat = w.toNat / 2 ^ 30 := by
  have := w.isLt
  rw [fLen, extract_toNat]
  omega

section
variable {w : IWord} {maj : BitVec 6}

theorem exists_packR (hl : fLen w = 0) (hm : fMaj w = maj) : ∃ d a b fn wd c, w = packR maj d a b fn wd c := by
  refine ⟨fD w, fA w, fB w, fFn w, fW w, fC w, BitVec.eq_of_toNat_eq ?_⟩
  have hlen : w.toNat / 2 ^ 30 = 0 := by rw [← fLen_toNat, hl]; rfl
  simp only [← hm, packR_toNat, fMaj, fD, fA, fB, fFn, fW, fC, extract_toNat]
  omega

theorem eq_packI (hm : fMaj w = maj) : w = packI (fLen w) maj (fD w) (fA w) (fImm w) := by
  apply BitVec.eq_of_toNat_eq
  simp only [← hm, packI_toNat, fLen_toNat, fMaj, fD, fA, fImm, extract_toNat]
  omega

theorem exists_packI (hl : fLen w = 0) (hm : fMaj w = maj) : ∃ d a imm, w = packI 0 maj d a imm :=
  ⟨_, _, _, hl ▸ eq_packI hm⟩

theorem eq_packM (hm : fMaj w = maj) : w = packM (fLen w) maj (fD w) (fA w) (fSz w) (fOp w) (fOff w) := by
  apply BitVec.eq_of_toNat_eq
  simp only [← hm, packM_toNat, fLen_toNat, fMaj, fD, fA, fSz, fOp, fOff, extract_toNat]
  omega

theorem exists_packV (hl : fLen w = 0) (hm : fMaj w = maj) : ∃ vd va vb vc fn mg rm, w = packV maj vd va vb vc fn mg rm := by
  refine ⟨vVd w, vVa w, vVb w, vVc w, fFn w, vMg w, vRm w, BitVec.eq_of_toNat_eq ?_⟩
  have hlen : w.toNat / 2 ^ 30 = 0 := by rw [← fLen_toNat, hl]; rfl
  simp only [← hm, packV_toNat, fMaj, vVd, vVa, vVb, vVc, fFn, vMg, vRm, extract_toNat]
  omega

theorem exists_packVM (hl : fLen w = 0) (hm : fMaj w = maj) : ∃ v a b fn mg off, w = packVM maj v a b fn mg off := by
  refine ⟨mV w, mA w, mB w, mFn w, mMg w, mOff w, BitVec.eq_of_toNat_eq ?_⟩
  have hlen : w.toNat / 2 ^ 30 = 0 := by rw [← fLen_toNat, hl]; rfl
  simp only [← hm, packVM_toNat, fMaj, mV, mA, mB, mFn, mMg, mOff, extract_toNat]
  omega

theorem exists_packX (hl : fLen w = 1) (hm : fMaj w = maj) : ∃ xfn d a b c, w = packX maj xfn d a b c := by
  refine ⟨xFn w, xD w, xA w, xB w, xC w, BitVec.eq_of_toNat_eq ?_⟩
  have hlen : w.toNat / 2 ^ 30 = 1 := by rw [← fLen_toNat, hl]; rfl
  simp only [← hm, packX_toNat, fMaj, xFn, xD, xA, xB, xC, extract_toNat]
  omega

theorem eq_callWord (hl : fLen w = 0) (hm : fMaj w = 0x0B) : w = (0 : BitVec 2) ++ (0x0B : BitVec 6) ++ fDisp24 w := by
  apply BitVec.eq_of_toNat_eq
  have hlen : w.toNat / 2 ^ 30 = 0 := by rw [← fLen_toNat, hl]; rfl
  have hmaj : w.toNat / 2 ^ 24 % 2 ^ 6 = 0x0B := by rw [← extract_toNat, ← fMaj, hm]; rfl
  erw [callWord_toNat]
  simp only [fDisp24, extract_toNat]
  omega

theorem eq_prefixWord (hl : fLen w = 0) (hm : fMaj w = 0x3E) (hz : pZero w = 0) :
    w = (0 : BitVec 2) ++ (0x3E : BitVec 6) ++ fD w ++ pOrd w ++ (0 : BitVec 18) := by
  apply BitVec.eq_of_toNat_eq
  have hlen : w.toNat / 2 ^ 30 = 0 := by rw [← fLen_toNat, hl]; rfl
  have hmaj : w.toNat / 2 ^ 24 % 2 ^ 6 = 0x3E := by rw [← extract_toNat, ← fMaj, hm]; rfl
  have hzero := toNat_of_extract_eq_zero hz
  repeat erw [app_toNat]
  simp only [fD, pOrd, extract_toNat, BitVec.ofNat_eq_ofNat, BitVec.toNat_ofNat]
  omega

end

/-! ### Words of format R with a field across D, A or B -/

section
variable (d a b c : Reg) (fn : BitVec 6) (wd : BitVec 2)

theorem ckptWord_packR : (0 : BitVec 2) ++ (0x15 : BitVec 6) ++ (packR 0x15 d a b fn wd c).extractLsb' 12 12 ++ (6 : BitVec 6) ++ (0 : BitVec 6) =
    packR 0x15 d a b 6 0 0 := by
  apply BitVec.eq_of_toNat_eq
  erw [ckptWord_toNat]
  simp only [packR_toNat, extract_toNat, BitVec.ofNat_eq_ofNat, BitVec.toNat_ofNat]
  omega

theorem srdWord_packR : (0 : BitVec 2) ++ (0x17 : BitVec 6) ++ d ++ (packR 0x17 d a b fn wd c).extractLsb' 12 8 ++ (0 : BitVec 6) ++ (0 : BitVec 6) =
    packR 0x17 d a b 0 0 0 := by
  apply BitVec.eq_of_toNat_eq
  erw [srdWord_toNat]
  simp only [packR_toNat, extract_toNat, BitVec.ofNat_eq_ofNat, BitVec.toNat_ofNat]
  omega

theorem swrWord_packR :
    (0 : BitVec 2) ++ (0x17 : BitVec 6) ++ (0 : BitVec 4) ++ (packR 0x17 d a b fn wd c).extractLsb' 12 8 ++ (1 : BitVec 6) ++ (0 : BitVec 2) ++ c =
      packR 0x17 0 a b 1 0 c := by
  apply BitVec.eq_of_toNat_eq
  erw [swrWord_toNat]
  simp only [packR_toNat, extract_toNat, BitVec.ofNat_eq_ofNat, BitVec.toNat_ofNat]
  omega

theorem trapWord_packR : (0 : BitVec 2) ++ (0x1A : BitVec 6) ++ (packR 0x1A d a b fn wd c).extractLsb' 16 8 ++ b ++ (0 : BitVec 6) ++ (0 : BitVec 6) =
    packR 0x1A d a b 0 0 0 := by
  apply BitVec.eq_of_toNat_eq
  erw [trapWord_toNat]
  simp only [packR_toNat, extract_toNat, BitVec.ofNat_eq_ofNat, BitVec.toNat_ofNat]
  omega

theorem brkWord_packR :
    (0 : BitVec 2) ++ (0x1A : BitVec 6) ++ (packR 0x1A d a b fn wd c).extractLsb' 16 8 ++ (0 : BitVec 4) ++ (1 : BitVec 6) ++ (0 : BitVec 6) =
      packR 0x1A d a 0 1 0 0 := by
  apply BitVec.eq_of_toNat_eq
  erw [brkWord_toNat]
  simp only [packR_toNat, extract_toNat, BitVec.ofNat_eq_ofNat, BitVec.toNat_ofNat]
  omega

variable {d a b c fn wd} in
theorem eq_zero_of_trapCode_eq_zero (h : (packR 0x1A d a b fn wd c).extractLsb' 16 8 = 0) : d = 0 ∧ a = 0 := by
  have hn := toNat_of_extract_eq_zero h
  rw [packR_toNat] at hn
  have hd : d.toNat = 0 := by omega
  have ha : a.toNat = 0 := by omega
  exact ⟨eq_ofNat_of_toNat hd, eq_ofNat_of_toNat ha⟩

end

/-! ### Fields packed within a field (R53, R54, R77, R234, R245) -/

theorem exists_wBit {w : BitVec 2} (h : w = 0 ∨ w = 1) : ∃ n, w = wBit n := by
  rcases h with rfl | rfl
  · exact ⟨false, rfl⟩
  · exact ⟨true, rfl⟩

theorem exists_bit1 : ∀ x : BitVec 1, ∃ b, x = bit1 b := by decide
theorem eq_three_of_ne : ∀ {k : BitVec 2}, k.toNat ≠ 0 → k.toNat ≠ 1 → k.toNat ≠ 2 → k = 3 := by decide
theorem exists_rfC : ∀ {c : Reg}, c.extractLsb' 2 2 = 0 → ∃ rf, c = rfC rf := by decide
theorem exists_low3 : ∀ {c : Reg}, c.extractLsb' 3 1 = 0 → ∃ x : BitVec 3, c = (0 : BitVec 1) ++ x := by decide
theorem exists_low2 : ∀ {c : Reg}, c.extractLsb' 2 2 = 0 → ∃ x : BitVec 2, c = (0 : BitVec 2) ++ x := by decide
theorem exists_imVc : ∀ {v : VReg}, v.extractLsb' 2 1 = 0 → ∃ im, v = imVc im := by decide
theorem exists_uVc : ∀ {v : VReg}, v.extractLsb' 2 1 = 0 → v.extractLsb' 1 1 = 0 → ∃ u, v = uVc u := by decide
theorem exists_satVc : ∀ {v : VReg}, v.extractLsb' 2 1 = 0 → v.extractLsb' 0 1 = 0 → ∃ sat, v = satVc sat := by decide
theorem exists_bit1_append : ∀ v : VReg, ∃ (h : Bool) (f : BitVec 2), v = bit1 h ++ f := by decide
theorem exists_hiVb_loVc : ∀ vb vc : VReg, ∃ k, vb = hiVb k ∧ vc = loVc k := by decide
theorem exists_tt : ∀ {k : BitVec 6}, k.extractLsb' 5 1 = 0 → ∃ (n : Bool) (t : BitVec 4), k = (0 : BitVec 1) ++ bit1 n ++ t := by decide
theorem exists_tag : ∀ {k : BitVec 6}, k.extractLsb' 4 2 = 0 → ∃ t : BitVec 4, k = (0 : BitVec 2) ++ t := by decide
theorem exists_tag_of_bits : ∀ {k : BitVec 6},
    k.extractLsb' 5 1 = 0 → (!k.extractLsb' 4 1 == 1) = true → ∃ t : BitVec 4, k = (0 : BitVec 2) ++ t := by decide

theorem exists_shiftImm {imm : BitVec 16} (h : imm.extractLsb' 6 8 = 0) : ∃ (k2 : BitVec 2) (k : BitVec 6), imm = k2 ++ (0 : BitVec 8) ++ k := by
  refine ⟨imm.extractLsb' 14 2, imm.extractLsb' 0 6, BitVec.eq_of_toNat_eq ?_⟩
  have hmid := toNat_of_extract_eq_zero h
  have := imm.isLt
  simp only [app_toNat, extract_toNat, BitVec.ofNat_eq_ofNat, BitVec.toNat_ofNat]
  omega

/-! ### Literals and extended words (R49, R264) -/

theorem litWords_literal (x1 x2 : IWord) : litWords (literal x1 x2) = [x1, x2] := by
  have h1 := x1.isLt
  have h2 := x2.isLt
  have hlow : (literal x1 x2).extractLsb' 0 32 = x1 := by
    apply BitVec.eq_of_toNat_eq
    erw [extract_toNat, app_toNat]
    omega
  have hhigh : (literal x1 x2).extractLsb' 32 32 = x2 := by
    apply BitVec.eq_of_toNat_eq
    erw [extract_toNat, app_toNat]
    omega
  rw [litWords, hlow, hhigh]

section
variable {x : IWord}

theorem exists_loomW1 (h20 : x.extractLsb' 20 4 = 0) (h11 : x.extractLsb' 11 5 = 0) : ∃ af bf ng kg, x = loomW1 af bf ng kg := by
  refine ⟨x.extractLsb' 28 4, x.extractLsb' 24 4, x.extractLsb' 16 4, x.extractLsb' 0 11, BitVec.eq_of_toNat_eq ?_⟩
  have h20 := toNat_of_extract_eq_zero h20
  have h11 := toNat_of_extract_eq_zero h11
  have := x.isLt
  rw [loomW1, loomWord1_toNat]
  simp only [extract_toNat]
  omega

theorem exists_loomW2 (h12 : x.extractLsb' 12 19 = 0) : ∃ clear colg m1, x = loomW2 clear colg m1 := by
  obtain ⟨clear, hclear⟩ := exists_bit1 (x.extractLsb' 31 1)
  refine ⟨clear, x.extractLsb' 8 4, x.extractLsb' 0 8, BitVec.eq_of_toNat_eq ?_⟩
  have h12 := toNat_of_extract_eq_zero h12
  have := x.isLt
  rw [loomW2, ← hclear, loomWord2_toNat]
  simp only [extract_toNat]
  omega

theorem exists_accW1 (h24 : x.extractLsb' 24 8 = 0) (h12 : x.extractLsb' 12 4 = 0) (h4 : x.extractLsb' 4 4 = 0) :
    ∃ row colg ncg, x = accW1 row colg ncg := by
  refine ⟨x.extractLsb' 16 8, x.extractLsb' 8 4, x.extractLsb' 0 4, BitVec.eq_of_toNat_eq ?_⟩
  have h24 := toNat_of_extract_eq_zero h24
  have h12 := toNat_of_extract_eq_zero h12
  have h4 := toNat_of_extract_eq_zero h4
  have := x.isLt
  rw [accW1, accWord1_toNat]
  simp only [extract_toNat]
  omega

theorem exists_fmtWord2 (h4 : x.extractLsb' 4 28 = 0) : ∃ fmt : BitVec 4, x = (0 : BitVec 28) ++ fmt := by
  refine ⟨x.extractLsb' 0 4, BitVec.eq_of_toNat_eq ?_⟩
  have h4 := toNat_of_extract_eq_zero h4
  have := x.isLt
  erw [fmtWord2_toNat]
  rw [extract_toNat]
  omega

theorem exists_loadWord1 (h19 : x.extractLsb' 19 13 = 0) (h14 : x.extractLsb' 14 2 = 0) (h1 : x.extractLsb' 1 7 = 0) :
    ∃ sx sz off treeB, x = (0 : BitVec 13) ++ bit1 sx ++ (sz : BitVec 2) ++ (0 : BitVec 2) ++ (off : BitVec 6) ++ (0 : BitVec 7) ++ bit1 treeB := by
  obtain ⟨sx, hsx⟩ := exists_bit1 (x.extractLsb' 18 1)
  obtain ⟨treeB, htree⟩ := exists_bit1 (x.extractLsb' 0 1)
  refine ⟨sx, x.extractLsb' 16 2, x.extractLsb' 8 6, treeB, BitVec.eq_of_toNat_eq ?_⟩
  have h19 := toNat_of_extract_eq_zero h19
  have h14 := toNat_of_extract_eq_zero h14
  have h1 := toNat_of_extract_eq_zero h1
  have := x.isLt
  rw [← hsx, ← htree]
  erw [loadWord1_toNat]
  simp only [extract_toNat]
  omega

end

end Sys2Proof.Laws
end

section
/-!
PROOFS. What each major decodes is encoded as the words it was decoded from (R51, R53, R55 to R57, R60, R64): the word is taken as its packed fields,
the form's code and its guard say what its fields are, and then the encoding is the word.
-/
namespace Sys2Proof.Laws
open Sys2Proof

/-- The instruction read, if there is one, is encoded as `ws`. -/
def WritesBack (ws : List IWord) (r : Option Instr) : Prop := ∀ i, r = some i → encode i = ws

section
variable {ws : List IWord} {b : Bool} {i : Instr} {r : Option Instr}

theorem writesBack_none : WritesBack ws none := fun _ h => nomatch h
theorem writesBack_some : WritesBack ws (some i) ↔ encode i = ws := by simp [WritesBack]
theorem writesBack_guardI : WritesBack ws (guardI b i) ↔ (b = true → encode i = ws) := by cases b <;> simp [guardI, WritesBack]
theorem writesBack_ite {p : Prop} [Decidable p] (h : p → WritesBack ws r) : WritesBack ws (if p then r else none) := by
  split
  · exact h ‹p›
  · exact writesBack_none

end

/-! ### The words that LEN spans (R48, R55) -/

section
variable {w x1 x2 : IWord} {r : Option Instr} {maj : BitVec 6}

theorem take_lenWords_one (h : fLen w = 0) : [w, x1, x2].take (lenWords w) = [w] := by rw [lenWords, h]; rfl
theorem take_lenWords_three (h : fLen w = 1 ∨ fLen w = 2) : [w, x1, x2].take (lenWords w) = [w, x1, x2] := by
  rcases h with h | h <;> rw [lenWords, h] <;> rfl

theorem lone_writesBack (h : fLen w = 0 → WritesBack [w] r) : WritesBack ([w, x1, x2].take (lenWords w)) (lone w r) :=
  writesBack_ite fun hl => by rw [take_lenWords_one hl]; exact h hl

theorem ext_writesBack (h : fLen w = 1 → WritesBack [w, x1, x2] r) : WritesBack ([w, x1, x2].take (lenWords w)) (ext w r) :=
  writesBack_ite fun hl => by rw [take_lenWords_three (.inl hl)]; exact h hl

theorem decImm_writesBack {short : BitVec 16 → Instr} {long : Word → Instr} (hm : fMaj w = maj)
    (hshort : ∀ imm, encode (short imm) = encI maj (fD w) (fA w) imm) (hlong : ∀ l, encode (long l) = encIL maj (fD w) (fA w) l) :
    WritesBack ([w, x1, x2].take (lenWords w)) (decImm short long w x1 x2) := by
  have hw := eq_packI hm
  unfold decImm
  split
  case h_1 hlen =>
    have hlen : fLen w = 0 := eq_ofNat_of_toNat hlen
    rw [writesBack_some, take_lenWords_one hlen, hshort, encI, ← hlen, ← hw]
  case h_2 hlen =>
    have hlen : fLen w = 2 := eq_ofNat_of_toNat hlen
    rw [writesBack_guardI, beq_iff_eq]
    intro himm
    rw [take_lenWords_three (.inr hlen), hlong, encIL, litWords_literal, ← hlen, ← himm, ← hw]
  case h_3 => exact writesBack_none

theorem decMem_writesBack {short : BitVec 12 → Instr} {long : Word → Instr} (hm : fMaj w = maj)
    (hshort : ∀ off, encode (short off) = encM maj (fOp w) (fD w) (fA w) (fSz w) off)
    (hlong : ∀ l, encode (long l) = encML maj (fOp w) (fD w) (fA w) (fSz w) l) :
    WritesBack ([w, x1, x2].take (lenWords w)) (decMem short long w x1 x2) := by
  have hw := eq_packM hm
  unfold decMem
  split
  case h_1 hlen =>
    have hlen : fLen w = 0 := eq_ofNat_of_toNat hlen
    rw [writesBack_some, take_lenWords_one hlen, hshort, encM, ← hlen, ← hw]
  case h_2 hlen =>
    have hlen : fLen w = 2 := eq_ofNat_of_toNat hlen
    rw [writesBack_guardI, beq_iff_eq]
    intro hoff
    rw [take_lenWords_three (.inr hlen), hlong, encML, litWords_literal, ← hlen, ← hoff, ← hw]
  case h_3 => exact writesBack_none

end

/-! ### Format R (R51, R53) -/

section
variable {w : IWord} (hl : fLen w = 0)
include hl

theorem decIop_writesBack (hm : fMaj w = 0x01) : WritesBack [w] (decIop w) := by
  obtain ⟨d, a, b, fn, wd, c, rfl⟩ := exists_packR hl hm
  unfold decIop
  simp only [fD_packR, fA_packR, fB_packR, fFn_packR, fW_packR, fC_packR, Bool.and_eq_true, Bool.or_eq_true, decide_eq_true_eq]
  refine writesBack_ite fun ⟨hc, hw⟩ => ?_
  obtain ⟨n, rfl⟩ := exists_wBit hw
  split <;> simp only [writesBack_some, writesBack_none, wBit_eq]
  all_goals rename_i hfn; obtain rfl := eq_ofNat_of_toNat hfn; subst hc; rfl

theorem decBit_writesBack (hm : fMaj w = 0x09) : WritesBack [w] (decBit w) := by
  obtain ⟨d, a, b, fn, wd, c, rfl⟩ := exists_packR hl hm
  unfold decBit
  simp only [fD_packR, fA_packR, fB_packR, fFn_packR, fW_packR, fC_packR]
  refine writesBack_ite fun hw => ?_
  split <;> simp only [writesBack_guardI, writesBack_some, writesBack_none, Bool.and_eq_true, beq_iff_eq, and_imp]
  all_goals rename_i hfn; obtain rfl := eq_ofNat_of_toNat hfn; intros; subst_vars; rfl

theorem decJmp_writesBack (hm : fMaj w = 0x0C) : WritesBack [w] (decJmp w) := by
  obtain ⟨d, a, b, fn, wd, c, rfl⟩ := exists_packR hl hm
  unfold decJmp
  simp only [fD_packR, fA_packR, fB_packR, fFn_packR, fW_packR, fC_packR, Bool.and_eq_true, decide_eq_true_eq]
  refine writesBack_ite fun ⟨⟨⟨hd, hb⟩, hw⟩, hc⟩ => ?_
  split <;> simp only [writesBack_guardI, writesBack_some, writesBack_none, beq_iff_eq]
  all_goals rename_i hfn; obtain rfl := eq_ofNat_of_toNat hfn; intros; subst_vars; rfl

theorem decAmo_writesBack (hm : fMaj w = 0x11) : WritesBack [w] (decAmo w) := by
  obtain ⟨d, a, b, fn, wd, c, rfl⟩ := exists_packR hl hm
  unfold decAmo
  simp only [fD_packR, fA_packR, fB_packR, fFn_packR, fW_packR, fC_packR, Bool.or_eq_true, decide_eq_true_eq]
  refine writesBack_ite fun hw => ?_
  obtain ⟨n, rfl⟩ := exists_wBit hw
  split <;> simp only [writesBack_guardI, writesBack_some, writesBack_none, beq_iff_eq, wBit_eq]
  all_goals rename_i hfn; obtain rfl := eq_ofNat_of_toNat hfn; intros; subst_vars; rfl

theorem decDup_writesBack (hm : fMaj w = 0x12) : WritesBack [w] (decDup w) := by
  obtain ⟨d, a, b, fn, wd, c, rfl⟩ := exists_packR hl hm
  unfold decDup
  simp only [fD_packR, fA_packR, fB_packR, fFn_packR, fW_packR, fC_packR]
  refine writesBack_ite fun hd => ?_
  subst hd
  split <;> simp only [writesBack_guardI, writesBack_some, writesBack_none, Bool.or_eq_true, beq_iff_eq]
  all_goals rename_i hfn; obtain rfl := eq_ofNat_of_toNat hfn
  -- DADD, DMINS, DMAXS, DOR: W is a width
  case h_1 | h_3 | h_4 | h_7 =>
    intro hint
    obtain ⟨n, rfl⟩ := exists_wBit hint
    rw [wBit_eq]
    rfl
  -- DFADD, DFMIN, DFMAX: W is 01
  case h_2 | h_5 | h_6 => rintro rfl; rfl
  -- DSTORE: W is a size
  case h_8 => rfl

theorem decOrd_writesBack (hm : fMaj w = 0x13) : WritesBack [w] (decOrd w) := by
  obtain ⟨d, a, b, fn, wd, c, rfl⟩ := exists_packR hl hm
  unfold decOrd
  simp only [fD_packR, fA_packR, fB_packR, fFn_packR, fW_packR, fC_packR, Bool.and_eq_true, decide_eq_true_eq]
  refine writesBack_ite fun ⟨⟨⟨⟨hd, ha⟩, hb⟩, hw⟩, hc⟩ => ?_
  split <;> simp only [writesBack_some, writesBack_none]
  all_goals rename_i hfn; obtain rfl := eq_ofNat_of_toNat hfn; subst_vars; rfl

theorem decChn_writesBack (hm : fMaj w = 0x14) : WritesBack [w] (decChn w) := by
  obtain ⟨d, a, b, fn, wd, c, rfl⟩ := exists_packR hl hm
  unfold decChn
  simp only [fD_packR, fA_packR, fB_packR, fFn_packR, fW_packR, fC_packR, extract_0_3_packR, extract_3_1_packR]
  refine writesBack_ite fun hw => ?_
  split <;> simp only [writesBack_guardI, writesBack_none, Bool.and_eq_true, beq_iff_eq, and_imp]
  all_goals rename_i hfn; obtain rfl := eq_ofNat_of_toNat hfn
  -- SEND: C 2:0 is the length
  case h_1 =>
    intro hd hc _
    obtain ⟨n1, rfl⟩ := exists_low3 hc
    subst hw hd
    rw [n1_lo]
    rfl
  all_goals intros; subst_vars; rfl

theorem decThr_writesBack (hm : fMaj w = 0x15) : WritesBack [w] (decThr w) := by
  obtain ⟨d, a, b, fn, wd, c, rfl⟩ := exists_packR hl hm
  unfold decThr
  simp only [fD_packR, fA_packR, fB_packR, fFn_packR, fW_packR, fC_packR]
  refine writesBack_ite fun hw => ?_
  split <;> simp only [writesBack_guardI, writesBack_some, writesBack_none, Bool.and_eq_true, beq_iff_eq, and_imp]
  all_goals rename_i hfn; obtain rfl := eq_ofNat_of_toNat hfn
  -- CKPT: its number is D, A and B
  case h_7 =>
    intro hc
    subst hw hc
    exact congrArg (fun x => [x]) (ckptWord_packR ..)
  all_goals intros; subst_vars; rfl

theorem decGrp_writesBack (hm : fMaj w = 0x16) : WritesBack [w] (decGrp w) := by
  obtain ⟨d, a, b, fn, wd, c, rfl⟩ := exists_packR hl hm
  unfold decGrp
  simp only [fD_packR, fA_packR, fB_packR, fFn_packR, fW_packR, fC_packR, Bool.and_eq_true, decide_eq_true_eq]
  refine writesBack_ite fun ⟨⟨hb, hw⟩, hc⟩ => ?_
  split <;> simp only [writesBack_guardI, writesBack_some, writesBack_none, beq_iff_eq]
  all_goals rename_i hfn; obtain rfl := eq_ofNat_of_toNat hfn; intros; subst_vars; rfl

theorem decSys_writesBack (hm : fMaj w = 0x17) : WritesBack [w] (decSys w) := by
  obtain ⟨d, a, b, fn, wd, c, rfl⟩ := exists_packR hl hm
  unfold decSys
  simp only [fD_packR, fFn_packR, fW_packR, fC_packR]
  refine writesBack_ite fun hw => ?_
  subst hw
  split <;> simp only [writesBack_guardI, writesBack_none, beq_iff_eq]
  all_goals rename_i hfn; obtain rfl := eq_ofNat_of_toNat hfn; rintro rfl
  -- SRD
  case h_1 => exact congrArg (fun x => [x]) (srdWord_packR ..)
  -- SWR
  case h_2 => exact congrArg (fun x => [x]) (swrWord_packR ..)

theorem decSub_writesBack (hm : fMaj w = 0x18) : WritesBack [w] (decSub w) := by
  obtain ⟨d, a, b, fn, wd, c, rfl⟩ := exists_packR hl hm
  unfold decSub
  simp only [fD_packR, fA_packR, fB_packR, fFn_packR, fW_packR, fC_packR]
  refine writesBack_ite fun hw => ?_
  split <;> simp only [writesBack_guardI, writesBack_none, Bool.and_eq_true, beq_iff_eq, and_imp]
  all_goals rename_i hfn; obtain rfl := eq_ofNat_of_toNat hfn; intros; subst_vars; rfl

theorem decLch_writesBack (hm : fMaj w = 0x19) : WritesBack [w] (decLch w) := by
  obtain ⟨d, a, b, fn, wd, c, rfl⟩ := exists_packR hl hm
  unfold decLch
  simp only [fD_packR, fA_packR, fB_packR, fFn_packR, fW_packR, fC_packR, Bool.and_eq_true, decide_eq_true_eq]
  refine writesBack_ite fun ⟨hw, hc⟩ => ?_
  split <;> simp only [writesBack_guardI, writesBack_some, writesBack_none, beq_iff_eq]
  all_goals rename_i hfn; obtain rfl := eq_ofNat_of_toNat hfn; intros; subst_vars; rfl

theorem decTrp_writesBack (hm : fMaj w = 0x1A) : WritesBack [w] (decTrp w) := by
  obtain ⟨d, a, b, fn, wd, c, rfl⟩ := exists_packR hl hm
  unfold decTrp
  simp only [fD_packR, fA_packR, fB_packR, fFn_packR, fW_packR, fC_packR]
  refine writesBack_ite fun hw => ?_
  subst hw
  split <;> simp only [writesBack_guardI, writesBack_none, Bool.and_eq_true, beq_iff_eq, and_imp]
  all_goals rename_i hfn; obtain rfl := eq_ofNat_of_toNat hfn
  -- TRAP
  case h_1 => rintro rfl; exact congrArg (fun x => [x]) (trapWord_packR ..)
  -- BRK
  case h_2 => rintro rfl rfl; exact congrArg (fun x => [x]) (brkWord_packR ..)
  -- RESUME
  case h_3 => rintro rfl _; rfl
  -- IDLE
  case h_4 =>
    rintro hn rfl rfl
    obtain ⟨rfl, rfl⟩ := eq_zero_of_trapCode_eq_zero hn
    rfl

theorem decFop_writesBack (hm : fMaj w = 0x1B) : WritesBack [w] (decFop w) := by
  obtain ⟨d, a, b, fn, wd, c, rfl⟩ := exists_packR hl hm
  unfold decFop
  simp only [fD_packR, fA_packR, fB_packR, fFn_packR, fW_packR, fC_packR, extract_0_2_packR, extract_2_2_packR, Bool.or_eq_true, decide_eq_true_eq]
  refine writesBack_ite fun hw => ?_
  obtain ⟨n, rfl⟩ := exists_wBit hw
  split <;> simp only [writesBack_guardI, writesBack_none, wBit_eq, Bool.and_eq_true, Bool.not_eq_true', beq_iff_eq, and_imp]
  all_goals rename_i hfn; obtain rfl := eq_ofNat_of_toNat hfn
  -- FADD, FSUB, FMUL, FFMA, FDIV, FSQRT: C 1:0 is the rounding field
  case h_1 | h_2 | h_3 | h_4 | h_5 | h_6 =>
    intro hc
    obtain ⟨rf, rfl⟩ := exists_rfC hc
    rw [rfC_lo]
    intros; subst_vars; rfl
  all_goals intros; subst_vars; rfl

end

/-! ### Formats I and J (R51) -/

section
variable {w : IWord} (hl : fLen w = 0)
include hl

theorem decShi_writesBack (hm : fMaj w = 0x06) : WritesBack [w] (decShi w) := by
  obtain ⟨d, a, imm, rfl⟩ := exists_packI hl hm
  unfold decShi
  simp only [fD_packI, fA_packI, fSz_packI, extract_0_6_packI, extract_6_8_packI]
  refine writesBack_ite fun hmid => ?_
  obtain ⟨k2, k, rfl⟩ := exists_shiftImm hmid
  simp only [shi_lo, shi_hi]
  split <;> rw [writesBack_some]
  case h_1 hk | h_2 hk | h_3 hk => obtain rfl := eq_ofNat_of_toNat hk; rfl
  -- ROLI is the form left
  case h_4 h0 h1 h2 =>
    obtain rfl := eq_three_of_ne h0 h1 h2
    rfl

theorem decBr_writesBack (hm : fMaj w = 0x0A) : WritesBack [w] (decBr w) := by
  obtain ⟨d, a, imm, rfl⟩ := exists_packI hl hm
  unfold decBr
  simp only [fD_packI, fA_packI, fImm_packI]
  split <;> simp only [writesBack_guardI, writesBack_some, writesBack_none, beq_iff_eq]
  all_goals rename_i hcond; obtain rfl := eq_ofNat_of_toNat hcond; intros; subst_vars; rfl

theorem call_writesBack (hm : fMaj w = 0x0B) : WritesBack [w] (some (.call (fDisp24 w))) :=
  writesBack_some.mpr (congrArg (fun x => [x]) (eq_callWord hl hm).symm)

/-! ### Vector formats (R51) -/

theorem decVar_writesBack (hm : fMaj w = 0x20) : WritesBack [w] (decVar w) := by
  obtain ⟨vd, va, vb, vc, fn, mg, rm, rfl⟩ := exists_packV hl hm
  unfold decVar
  simp only [vVd_packV, vVa_packV, vVb_packV, vVc_packV, fFn_packV, vMg_packV, vRm_packV, extract_12_2_packV, extract_14_1_packV,
    extract_12_1_packV, extract_13_1_packV]
  split <;> simp only [writesBack_guardI, writesBack_none, Bool.and_eq_true, beq_iff_eq, and_imp]
  all_goals rename_i hfn; obtain rfl := eq_ofNat_of_toNat hfn
  -- VADD, VSUB, VMUL: VC is IMODE
  case h_1 | h_2 | h_3 =>
    intro him _
    obtain ⟨im, rfl⟩ := exists_imVc him
    rw [imVc_lo]
    rfl
  -- VMIN, VMAX, VCLT, VCLE: VC is U
  case h_5 | h_6 | h_26 | h_27 =>
    rintro him hsat rfl
    obtain ⟨u, rfl⟩ := exists_uVc him hsat
    rw [uVc_0, bit1_eq]
    rfl
  -- VABS, VNEG: VC is SAT
  case h_9 | h_10 =>
    rintro rfl him hu rfl
    obtain ⟨sat, rfl⟩ := exists_satVc him hu
    rw [satVc_1, bit1_eq]
    rfl
  all_goals intros; subst_vars; rfl

theorem decVls_writesBack (hm : fMaj w = 0x21) : WritesBack [w] (decVls w) := by
  obtain ⟨v, a, b, fn, mg, off, rfl⟩ := exists_packVM hl hm
  unfold decVls
  simp only [mV_packVM, mA_packVM, mB_packVM, mFn_packVM, mMg_packVM, mOff_packVM, extract_0_3_packVM, extract_3_1_packVM, extract_2_2_packVM,
    extract_0_2_packVM]
  split <;> simp only [writesBack_guardI, writesBack_none, Bool.and_eq_true, beq_iff_eq, and_imp]
  all_goals rename_i hfn; obtain rfl := eq_ofNat_of_toNat hfn
  -- VLDB: the block format
  case h_5 =>
    rintro hf rfl
    obtain ⟨f, rfl⟩ := exists_low2 hf
    rw [f2_lo]
    rfl
  -- VGATH, VSCAT: the index vector
  case h_7 | h_8 =>
    intro hvi
    obtain ⟨vi, rfl⟩ := exists_low3 hvi
    rw [n1_lo]
    intros; subst_vars; rfl
  all_goals intros; subst_vars; rfl

theorem decVcv_writesBack (hm : fMaj w = 0x22) : WritesBack [w] (decVcv w) := by
  obtain ⟨vd, va, vb, vc, fn, mg, rm, rfl⟩ := exists_packV hl hm
  unfold decVcv
  simp only [vVd_packV, vVa_packV, vVb_packV, fFn_packV, vMg_packV, vRm_packV, extract_12_2_packV, extract_14_1_packV,
    extract_12_4_packV, extract_16_1_packV, extract_17_1_packV]
  split <;> simp only [writesBack_guardI, writesBack_none, Bool.and_eq_true, beq_iff_eq, and_imp]
  all_goals rename_i hfn; obtain rfl := eq_ofNat_of_toNat hfn
  -- VCVT: VB and VC are TT
  case h_1 =>
    obtain ⟨k, rfl, rfl⟩ := exists_hiVb_loVc vb vc
    rw [hiVb_loVc]
    intro htt _ _
    obtain ⟨n, t, rfl⟩ := exists_tt htt
    rw [tt_tag, tt_n, bit1_eq]
    rfl
  -- VQNT, VDQ: VC is a bit and the block format
  case h_2 | h_3 =>
    obtain ⟨h, f, rfl⟩ := exists_bit1_append vc
    rw [hf_lo, hf_hi, bit1_eq]
    intros; subst_vars; rfl
  -- VTAG
  case h_4 =>
    obtain ⟨k, rfl, rfl⟩ := exists_hiVb_loVc vb vc
    rw [hiVb_loVc]
    rintro htt hn _ rfl rfl
    obtain ⟨t, rfl⟩ := exists_tag_of_bits htt hn
    rw [tag_lo]
    rfl
  -- VTAGQ
  case h_5 =>
    obtain ⟨k, rfl, rfl⟩ := exists_hiVb_loVc vb vc
    rw [hiVb_loVc]
    rintro htt hn ht rfl rfl
    obtain ⟨t, rfl⟩ := exists_tag_of_bits htt hn
    obtain rfl : t = 0 := by rwa [tag_lo] at ht
    rfl

theorem decVpr_writesBack (hm : fMaj w = 0x23) : WritesBack [w] (decVpr w) := by
  obtain ⟨vd, va, vb, vc, fn, mg, rm, rfl⟩ := exists_packV hl hm
  unfold decVpr
  simp only [vVd_packV, vVa_packV, vVb_packV, vVc_packV, fFn_packV, vMg_packV, vRm_packV, extract_12_2_packV, extract_14_1_packV,
    extract_12_1_packV, extract_13_1_packV, extract_12_6_packV, extract_12_4_packV, extract_16_2_packV]
  split <;> simp only [writesBack_guardI, writesBack_none, Bool.and_eq_true, Bool.or_eq_true, beq_iff_eq, and_imp]
  all_goals rename_i hfn; obtain rfl := eq_ofNat_of_toNat hfn
  -- VREDA, VSCAN: VC is IMODE
  case h_2 | h_5 =>
    rintro rfl him _
    obtain ⟨im, rfl⟩ := exists_imVc him
    rw [imVc_lo]
    rfl
  -- VREDX, VREDN: VC is U
  case h_3 | h_4 =>
    rintro rfl him hsat rfl
    obtain ⟨u, rfl⟩ := exists_uVc him hsat
    rw [uVc_0, bit1_eq]
    rfl
  -- VINS: VB and VC are the lane
  case h_7 =>
    obtain ⟨k, rfl, rfl⟩ := exists_hiVb_loVc vb vc
    rw [hiVb_loVc, ext6]
    rintro rfl rfl
    rfl
  -- VEXT: VB and VC are the lane, RM the extension
  case h_8 =>
    obtain ⟨k, rfl, rfl⟩ := exists_hiVb_loVc vb vc
    rw [hiVb_loVc, ext6]
    rintro rfl hrm
    obtain ⟨sx, rfl⟩ := exists_wBit hrm
    rw [wBit_eq]
    rfl
  -- VSPL: VB and VC are a tag
  case h_9 =>
    obtain ⟨k, rfl, rfl⟩ := exists_hiVb_loVc vb vc
    rw [hiVb_loVc]
    rintro rfl htt _ rfl
    obtain ⟨t, rfl⟩ := exists_tag htt
    rw [tag_lo]
    rfl
  all_goals intros; subst_vars; rfl

end

/-! ### Format X (R51) -/

section
variable {w x1 x2 : IWord} (hl : fLen w = 1)
include hl

theorem decLom_writesBack (hm : fMaj w = 0x24) : WritesBack [w, x1, x2] (decLom w x1 x2) := by
  obtain ⟨xfn, d, a, b, c, rfl⟩ := exists_packX hl hm
  unfold decLom
  simp only [xFn_packX, xD_packX, xA_packX, xB_packX, xC_packX]
  split <;> simp only [writesBack_guardI, writesBack_none, Bool.and_eq_true, beq_iff_eq, and_imp]
  all_goals rename_i hfn; obtain rfl := eq_ofNat_of_toNat hfn
  -- LMM
  case h_1 =>
    rintro rfl hhi hlo hdep _
    obtain ⟨af, bf, ng, kg, rfl⟩ := exists_loomW1 hhi hlo
    obtain ⟨clear, colg, m1, rfl⟩ := exists_loomW2 hdep
    simp only [loomW1, extract_28_4_loomWord1, extract_24_4_loomWord1, extract_16_4_loomWord1, extract_0_11_loomWord1, loomW2,
      extract_31_1_loomWord2, extract_8_4_loomWord2, extract_0_8_loomWord2, bit1_eq]
    rfl
  -- LMMG
  case h_2 =>
    rintro hhi hlo hdep hm1 _
    obtain ⟨af, bf, ng, kg, rfl⟩ := exists_loomW1 hhi hlo
    obtain ⟨clear, colg, m1, rfl⟩ := exists_loomW2 hdep
    obtain rfl : m1 = 0 := by rwa [loomW2, extract_0_8_loomWord2] at hm1
    simp only [loomW1, extract_28_4_loomWord1, extract_24_4_loomWord1, extract_16_4_loomWord1, extract_0_11_loomWord1, loomW2,
      extract_31_1_loomWord2, extract_8_4_loomWord2, bit1_eq]
    rfl
  -- LBLD
  case h_3 =>
    rintro rfl haf hhi hlo rfl _
    obtain ⟨af, bf, ng, kg, rfl⟩ := exists_loomW1 hhi hlo
    obtain rfl : af = 0 := by rwa [loomW1, extract_28_4_loomWord1] at haf
    simp only [loomW1, extract_24_4_loomWord1, extract_16_4_loomWord1, extract_0_11_loomWord1]
    rfl
  -- LACLR
  case h_4 =>
    rintro rfl rfl rfl hhi hmid hlo rfl _
    obtain ⟨row, colg, ncg, rfl⟩ := exists_accW1 hhi hmid hlo
    simp only [accW1, extract_16_8_accWord1, extract_8_4_accWord1, extract_0_4_accWord1]
    rfl
  -- LACP, LACIN
  case h_5 | h_6 =>
    rintro rfl rfl hhi hmid hlo hfmt _
    obtain ⟨row, colg, ncg, rfl⟩ := exists_accW1 hhi hmid hlo
    obtain ⟨fmt, rfl⟩ := exists_fmtWord2 hfmt
    simp only [accW1, extract_16_8_accWord1, extract_8_4_accWord1, extract_0_4_accWord1, extract_0_4_fmtWord2]
    rfl
  -- LSTAT
  case h_7 => intros; subst_vars; rfl

theorem decPai_writesBack (hm : fMaj w = 0x25) : WritesBack [w, x1, x2] (decPai w x1 x2) := by
  obtain ⟨xfn, d, a, b, c, rfl⟩ := exists_packX hl hm
  unfold decPai
  simp only [xFn_packX, xD_packX, xA_packX, xB_packX, xC_packX]
  refine writesBack_ite fun h2 => ?_
  split <;> simp only [writesBack_guardI, writesBack_none, Bool.and_eq_true, beq_iff_eq, and_imp]
  all_goals rename_i hfn; obtain rfl := eq_ofNat_of_toNat hfn
  -- PLOAD
  case h_3 =>
    rintro rfl rfl hhi hmid hlo _
    obtain ⟨sx, sz, off, treeB, rfl⟩ := exists_loadWord1 hhi hmid hlo
    subst h2
    simp only [extract_18_1_loadWord1, extract_16_2_loadWord1, extract_8_6_loadWord1, extract_0_1_loadWord1, bit1_eq]
    rfl
  all_goals intros; subst_vars; rfl

theorem decLyr_writesBack (hm : fMaj w = 0x26) : WritesBack [w, x1, x2] (decLyr w x1 x2) := by
  obtain ⟨xfn, d, a, b, c, rfl⟩ := exists_packX hl hm
  unfold decLyr
  simp only [xFn_packX, xD_packX, xA_packX, xB_packX, xC_packX, Bool.and_eq_true, decide_eq_true_eq]
  refine writesBack_ite fun ⟨h1, h2⟩ => ?_
  split <;> simp only [writesBack_guardI, writesBack_some, writesBack_none, Bool.and_eq_true, beq_iff_eq, and_imp]
  all_goals rename_i hfn; obtain rfl := eq_ofNat_of_toNat hfn; intros; subst_vars; rfl

theorem decAct_writesBack (hm : fMaj w = 0x27) : WritesBack [w, x1, x2] (decAct w x1 x2) := by
  obtain ⟨xfn, d, a, b, c, rfl⟩ := exists_packX hl hm
  unfold decAct
  simp only [xFn_packX, xD_packX, xA_packX, xB_packX, xC_packX, Bool.and_eq_true, decide_eq_true_eq]
  refine writesBack_ite fun ⟨h1, h2⟩ => ?_
  split <;> simp only [writesBack_guardI, writesBack_none, Bool.and_eq_true, beq_iff_eq, and_imp]
  all_goals rename_i hfn; obtain rfl := eq_ofNat_of_toNat hfn; intros; subst_vars; rfl

end

section
variable {w x1 x2 : IWord}

/-! ### Loads and stores (R124, R126) -/

theorem decLd_writesBack (hm : fMaj w = 0x0D) : WritesBack ([w, x1, x2].take (lenWords w)) (decLd w x1 x2) := by
  unfold decLd
  split
  case h_1 hop => exact decMem_writesBack hm (fun _ => by rw [eq_ofNat_of_toNat hop]; rfl) (fun _ => by rw [eq_ofNat_of_toNat hop]; rfl)
  case h_2 hop =>
    split
    · exact writesBack_none
    · exact decMem_writesBack hm (fun _ => by rw [eq_ofNat_of_toNat hop]; rfl) (fun _ => by rw [eq_ofNat_of_toNat hop]; rfl)
  case h_3 => exact writesBack_none

theorem decSt_writesBack (hm : fMaj w = 0x0E) : WritesBack ([w, x1, x2].take (lenWords w)) (decSt w x1 x2) :=
  writesBack_ite fun hop => decMem_writesBack hm (fun _ => by rw [hop]; rfl) (fun _ => by rw [hop]; rfl)

theorem decSld_writesBack (hm : fMaj w = 0x0F) : WritesBack ([w, x1, x2].take (lenWords w)) (decSld w x1 x2) := by
  unfold decSld
  split
  case h_1 hop | h_2 hop =>
    exact decMem_writesBack hm (fun _ => by rw [eq_ofNat_of_toNat hop]; rfl) (fun _ => by rw [eq_ofNat_of_toNat hop]; rfl)
  case h_3 hop =>
    exact writesBack_ite fun hsz => decMem_writesBack hm (fun _ => by rw [eq_ofNat_of_toNat hop, hsz]; rfl)
      (fun _ => by rw [eq_ofNat_of_toNat hop, hsz]; rfl)
  case h_4 => exact writesBack_none

theorem decSst_writesBack (hm : fMaj w = 0x10) : WritesBack ([w, x1, x2].take (lenWords w)) (decSst w x1 x2) := by
  unfold decSst
  split
  case h_1 hop | h_2 hop =>
    exact decMem_writesBack hm (fun _ => by rw [eq_ofNat_of_toNat hop]; rfl) (fun _ => by rw [eq_ofNat_of_toNat hop]; rfl)
  case h_3 hop =>
    simp only [Bool.and_eq_true, decide_eq_true_eq]
    exact writesBack_ite fun ⟨hsz, hd⟩ => decMem_writesBack hm (fun _ => by rw [eq_ofNat_of_toNat hop, hsz, hd]; rfl)
      (fun _ => by rw [eq_ofNat_of_toNat hop, hsz, hd]; rfl)
  case h_4 => exact writesBack_none

/-! ### Copies (R57) -/

theorem decCpy_writesBack (hm : fMaj w = 0x28) : WritesBack ([w, x1, x2].take (lenWords w)) (decCpy w x1 x2) := by
  unfold decCpy
  split
  case h_1 hlen =>
    have hl : fLen w = 0 := eq_ofNat_of_toNat hlen
    rw [take_lenWords_one hl]
    obtain ⟨d, a, b, fn, wd, c, rfl⟩ := exists_packR hl hm
    simp only [fD_packR, fA_packR, fB_packR, fFn_packR, fW_packR, fC_packR, Bool.and_eq_true, decide_eq_true_eq]
    refine writesBack_ite fun ⟨hw, hb⟩ => ?_
    split <;> simp only [writesBack_guardI, writesBack_none, Bool.and_eq_true, beq_iff_eq, and_imp]
    all_goals rename_i hfn; obtain rfl := eq_ofNat_of_toNat hfn; intros; subst_vars; rfl
  case h_2 hlen =>
    have hl : fLen w = 1 := eq_ofNat_of_toNat hlen
    rw [take_lenWords_three (.inl hl)]
    obtain ⟨xfn, d, a, b, c, rfl⟩ := exists_packX hl hm
    simp only [xFn_packX, xD_packX, xA_packX, xB_packX, xC_packX, writesBack_guardI, Bool.and_eq_true, beq_iff_eq, and_imp]
    rintro rfl rfl rfl rfl _
    exact congrArg (packX 0x28 1 d 0 0 0 :: ·) (litWords_literal x1 x2)
  case h_3 => exact writesBack_none

/-! ### Prefix words (R60) -/

theorem decPfx_writesBack (hm : fMaj w = 0x3E) : WritesBack ([w, x1, x2].take (lenWords w)) (decPfx w) := by
  unfold decPfx
  simp only [Bool.and_eq_true, decide_eq_true_eq]
  refine writesBack_ite fun ⟨hl, hz⟩ => ?_
  have hw := eq_prefixWord hl hm hz
  rw [take_lenWords_one hl]
  split
  case h_1 hd =>
    rw [eq_ofNat_of_toNat hd] at hw
    exact writesBack_some.mpr (congrArg (fun x => [x]) hw.symm)
  case h_2 hd =>
    rw [writesBack_guardI, beq_iff_eq]
    intro hord
    rw [eq_ofNat_of_toNat hd, hord] at hw
    exact congrArg (fun x => [x]) hw.symm
  case h_3 => exact writesBack_none

end

/-! ### Any word (R56) -/

theorem decodeInstr_writesBack (w x1 x2 : IWord) : WritesBack ([w, x1, x2].take (lenWords w)) (decodeInstr w x1 x2) := by
  unfold decodeInstr
  split
  case h_38 => exact writesBack_none
  all_goals rename_i hmaj; have hm := eq_ofNat_of_toNat hmaj
  case h_1 => exact lone_writesBack (decIop_writesBack · hm)
  case h_2 | h_3 | h_4 | h_5 | h_7 => exact decImm_writesBack hm (fun _ => rfl) (fun _ => rfl)
  case h_6 => exact lone_writesBack (decShi_writesBack · hm)
  case h_8 => exact writesBack_ite fun ha => decImm_writesBack hm (fun _ => by rw [ha]; rfl) (fun _ => by rw [ha]; rfl)
  case h_9 => exact lone_writesBack (decBit_writesBack · hm)
  case h_10 => exact lone_writesBack (decBr_writesBack · hm)
  case h_11 => exact lone_writesBack (call_writesBack · hm)
  case h_12 => exact lone_writesBack (decJmp_writesBack · hm)
  case h_13 => exact decLd_writesBack hm
  case h_14 => exact decSt_writesBack hm
  case h_15 => exact decSld_writesBack hm
  case h_16 => exact decSst_writesBack hm
  case h_17 => exact lone_writesBack (decAmo_writesBack · hm)
  case h_18 => exact lone_writesBack (decDup_writesBack · hm)
  case h_19 => exact lone_writesBack (decOrd_writesBack · hm)
  case h_20 => exact lone_writesBack (decChn_writesBack · hm)
  case h_21 => exact lone_writesBack (decThr_writesBack · hm)
  case h_22 => exact lone_writesBack (decGrp_writesBack · hm)
  case h_23 => exact lone_writesBack (decSys_writesBack · hm)
  case h_24 => exact lone_writesBack (decSub_writesBack · hm)
  case h_25 => exact lone_writesBack (decLch_writesBack · hm)
  case h_26 => exact lone_writesBack (decTrp_writesBack · hm)
  case h_27 => exact lone_writesBack (decFop_writesBack · hm)
  case h_28 => exact lone_writesBack (decVar_writesBack · hm)
  case h_29 => exact lone_writesBack (decVls_writesBack · hm)
  case h_30 => exact lone_writesBack (decVcv_writesBack · hm)
  case h_31 => exact lone_writesBack (decVpr_writesBack · hm)
  case h_32 => exact ext_writesBack (decLom_writesBack · hm)
  case h_33 => exact ext_writesBack (decPai_writesBack · hm)
  case h_34 => exact ext_writesBack (decLyr_writesBack · hm)
  case h_35 => exact ext_writesBack (decAct_writesBack · hm)
  case h_36 => exact decCpy_writesBack hm
  case h_37 => exact decPfx_writesBack hm

/-- Settles O58, major by major. -/
theorem wordsAreWrittenBack : Obligations.WordsAreWrittenBack := decodeInstr_writesBack

end Sys2Proof.Laws
end

section
/-!
PROOFS. The decoder reads every well-formed instruction back from its encoding (R60 to R66), and words written out from the encodings.
-/
namespace Sys2Proof.Laws
open Sys2Proof

/-- Each form by its own lemma; an event has no encoding. -/
theorem RoundTrip.decodeWords_encode (i : Instr) : Statement i := by
  cases i with
  | add => exact add _ _ _ _ | sub => exact sub _ _ _ _ | and_ => exact and_ _ _ _ _ | or_ => exact or_ _ _ _ _ | xor => exact xor _ _ _ _
  | andn => exact andn _ _ _ _ | shl => exact shl _ _ _ _ | shr => exact shr _ _ _ _ | sar => exact sar _ _ _ _ | rol => exact rol _ _ _ _
  | mul => exact mul _ _ _ _ | mulhs => exact mulhs _ _ _ _ | mulhn => exact mulhn _ _ _ _ | divs => exact divs _ _ _ _ | divn => exact divn _ _ _ _
  | rems => exact rems _ _ _ _ | remn => exact remn _ _ _ _ | mins => exact mins _ _ _ _ | maxs => exact maxs _ _ _ _ | minn => exact minn _ _ _ _
  | maxn => exact maxn _ _ _ _ | slts => exact slts _ _ _ _ | sltn => exact sltn _ _ _ _ | seq => exact seq _ _ _ _ | sne => exact sne _ _ _ _
  | addi => exact addi _ _ _ | addiLiteral => exact addiLiteral _ _ _ | andi => exact andi _ _ _ | andiLiteral => exact andiLiteral _ _ _
  | ori => exact ori _ _ _ | oriLiteral => exact oriLiteral _ _ _ | xori => exact xori _ _ _ | xoriLiteral => exact xoriLiteral _ _ _
  | slti => exact slti _ _ _ | sltiLiteral => exact sltiLiteral _ _ _ | movi => exact movi _ _ | moviLiteral => exact moviLiteral _ _
  | shli => exact shli _ _ _ | shri => exact shri _ _ _ | sari => exact sari _ _ _ | roli => exact roli _ _ _ | popc => exact popc _ _
  | clz => exact clz _ _ | ctz => exact ctz _ _ | brev => exact brev _ _ | bswap => exact bswap _ _ | bfxs => exact bfxs _ _ _
  | bfxn => exact bfxn _ _ _ | bfi => exact bfi _ _ _ | sel => exact sel _ _ _ _ | br => exact br _ | beqz => exact beqz _ _
  | bnez => exact bnez _ _ | bltz => exact bltz _ _ | bgez => exact bgez _ _ | bgtz => exact bgtz _ _ | blez => exact blez _ _
  | call => exact call _ | jmpr => exact jmpr _ | callr => exact callr _ | ret => exact ret | ld => exact ld _ _ _ _
  | ldLiteral => exact ldLiteral _ _ _ _ | ldSigned => exact ldSigned _ _ _ _ | ldSignedLiteral => exact ldSignedLiteral _ _ _ _
  | st => exact st _ _ _ _ | stLiteral => exact stLiteral _ _ _ _ | ldf => exact ldf _ _ _ _ | ldfLiteral => exact ldfLiteral _ _ _ _
  | lde => exact lde _ _ _ _ | ldeLiteral => exact ldeLiteral _ _ _ _ | feq => exact feq _ _ _ | feqLiteral => exact feqLiteral _ _ _
  | stf => exact stf _ _ _ _ | stfLiteral => exact stfLiteral _ _ _ _ | stw => exact stw _ _ _ _ | stwLiteral => exact stwLiteral _ _ _ _
  | fec => exact fec _ _ | fecLiteral => exact fecLiteral _ _ | aadd => exact aadd _ _ _ _ | aand => exact aand _ _ _ _ | aor => exact aor _ _ _ _
  | axor => exact axor _ _ _ _ | amins => exact amins _ _ _ _ | amaxs => exact amaxs _ _ _ _ | aminn => exact aminn _ _ _ _
  | amaxn => exact amaxn _ _ _ _ | aswap => exact aswap _ _ _ _ | acas => exact acas _ _ _ _ _ | afadd => exact afadd _ _ _ _
  | afmin => exact afmin _ _ _ _ | afmax => exact afmax _ _ _ _ | dadd => exact dadd _ _ _ _ | dfadd => exact dfadd _ _ _
  | dmins => exact dmins _ _ _ _ | dmaxs => exact dmaxs _ _ _ _ | dfmin => exact dfmin _ _ _ | dfmax => exact dfmax _ _ _ | dor => exact dor _ _ _ _
  | dstore => exact dstore _ _ _ _ | fence => exact fence | drain => exact drain | waita => exact waita | send => exact send _ _ _
  | recv => exact recv _ _ | recvt => exact recvt _ _ _ | chq => exact chq _ _ | chbind => exact chbind _ _ _ | spawn => exact spawn _ _ _ _
  | reap => exact reap _ _ | exit => exact exit _ | yield => exact yield | sleep => exact sleep _ | migr => exact migr _ _ | ckpt => exact ckpt _
  | gbar => exact gbar _ | garr => exact garr _ | gwait => exact gwait _ | gqry => exact gqry _ _ | ply => exact ply _ | srd => exact srd _ _
  | swr => exact swr _ _ | subon => exact subon _ _ _ | suboff => exact suboff _ | subq => exact subq _ _ | subfl => exact subfl
  | launch => exact launch _ _ _ | lqry => exact lqry _ _ | trap => exact trap _ _ | brk => exact brk _ | resume => exact resume _ _ _
  | idle => exact idle | fadd => exact fadd _ _ _ _ _ | fsub => exact fsub _ _ _ _ _ | fmul => exact fmul _ _ _ _ _ | ffma => exact ffma _ _ _ _ _
  | fdiv => exact fdiv _ _ _ _ _ | fsqrt => exact fsqrt _ _ _ _ | fmin => exact fmin _ _ _ _ | fmax => exact fmax _ _ _ _
  | fminm => exact fminm _ _ _ _ | fmaxm => exact fmaxm _ _ _ _ | fabs => exact fabs _ _ _ | fneg => exact fneg _ _ _ | fceq => exact fceq _ _ _ _
  | fclt => exact fclt _ _ _ _ | fcle => exact fcle _ _ _ _ | fcun => exact fcun _ _ _ _ | fcvt => exact fcvt _ _ _ _ | frnd => exact frnd _ _ _ _
  | vadd => exact vadd _ _ _ _ _ _ | vsub => exact vsub _ _ _ _ _ _ | vmul => exact vmul _ _ _ _ _ _ | vfma => exact vfma _ _ _ _ _ _
  | vmin => exact vmin _ _ _ _ _ | vmax => exact vmax _ _ _ _ _ | vminm => exact vminm _ _ _ _ | vmaxm => exact vmaxm _ _ _ _
  | vabs => exact vabs _ _ _ _ | vneg => exact vneg _ _ _ _ | vdiv => exact vdiv _ _ _ _ _ | vsqrt => exact vsqrt _ _ _ _
  | vrcp => exact vrcp _ _ _ _ | vrsq => exact vrsq _ _ _ _ | vexp2 => exact vexp2 _ _ _ _ | vlog2 => exact vlog2 _ _ _ _
  | vsin => exact vsin _ _ _ _ | vcos => exact vcos _ _ _ _ | vand => exact vand _ _ _ _ | vor => exact vor _ _ _ _ | vxor => exact vxor _ _ _ _
  | vshl => exact vshl _ _ _ _ | vshr => exact vshr _ _ _ _ | vsar => exact vsar _ _ _ _ | vceq => exact vceq _ _ _ _ | vclt => exact vclt _ _ _ _ _
  | vcle => exact vcle _ _ _ _ _ | vsel => exact vsel _ _ _ _ _ | vld => exact vld _ _ _ _ _ | vst => exact vst _ _ _ _
  | vlds => exact vlds _ _ _ _ _ | vsts => exact vsts _ _ _ _ | vldb => exact vldb _ _ _ _ | vstb => exact vstb _ _ _
  | vgath => exact vgath _ _ _ _ _ | vscat => exact vscat _ _ _ _ | vbcst => exact vbcst _ _ _ _ _ | vcvt => exact vcvt _ _ _ _ _ _
  | vqnt => exact vqnt _ _ _ _ _ | vdq => exact vdq _ _ _ _ _ | vtag => exact vtag _ _ _ | vtagq => exact vtagq _ _ | vperm => exact vperm _ _ _ _
  | vreda => exact vreda _ _ _ _ _ | vredx => exact vredx _ _ _ _ | vredn => exact vredn _ _ _ _ | vscan => exact vscan _ _ _ _ _
  | vmsk => exact vmsk _ _ | vins => exact vins _ _ _ | vext => exact vext _ _ _ _ | vspl => exact vspl _ _ _ | lmm => exact lmm _ _ _ _ _ _ _ _ _ _
  | lmmg => exact lmmg _ _ _ _ _ _ _ _ _ _ | lbld => exact lbld _ _ _ _ _ _ | laclr => exact laclr _ _ _ _ | lacp => exact lacp _ _ _ _ _ _
  | lacin => exact lacin _ _ _ _ _ _ | lstat => exact lstat _ | pseed => exact pseed _ | ptake => exact ptake _ _ _
  | pload => exact pload _ _ _ _ _ _ | ptest => exact ptest _ _ _ _ | pfork => exact pfork _ | pdone => exact pdone | pqry => exact pqry _ _
  | fins => exact fins _ _ _ _ | lres => exact lres _ _ _ _ | lclr => exact lclr _ _ _ _ | lcnt => exact lcnt _ _ _ | lpool => exact lpool _ _
  | abegin => exact abegin _ | apush => exact apush _ _ _ | acommit => exact acommit | aabandon => exact aabandon | aret => exact aret
  | aqry => exact aqry _ _ | afix => exact afix _ _ _ | cpset => exact cpset _ _ | cpseti => exact cpseti _ _ | cpgo => exact cpgo _
  | cptry => exact cptry _ | cpq => exact cpq _ _ | cpcan => exact cpcan _ _ | rel => exact rel _ | far => exact far
  | _ => exact fun _ h => absurd rfl h

/-- Settles O57: the round trip holds of every form. -/
theorem encodingsAreReadBack : Obligations.EncodingsAreReadBack := fun i hwf henc => (RoundTrip.decodeWords_encode i hwf henc).1

/-- Settles O56: the decoder runs on each word. -/
theorem writtenWordsDecode : Obligations.WrittenWordsDecode := by
  unfold Obligations.WrittenWordsDecode
  decide

end Sys2Proof.Laws
end

section
/-!
SUPPORT. How a scalar form ends: it writes a register and goes on, or it traps; what a word of a lone major is.
-/
namespace Sys2Proof.Laws
open Sys2Proof Sys2Proof.Machine Sys2Proof.Claims

/-- A form whose meaning is the write of one register gives that value. -/
theorem gives_setG {i : Instr} {s : State} {d : Reg} {v : Word} (h : exec i s = .next (s.setG d v)) : Gives i s d v := ⟨_, h, wroteReg_setG s d v⟩

theorem goesTo_goTo {i : Instr} {s : State} {pc : Word} (h : exec i s = .next (s.goTo pc)) : GoesTo i s pc := ⟨_, h, wentTo_goTo s pc⟩

theorem goesTo_retire {i : Instr} {s : State} (h : exec i s = .next (s.retire id)) : GoesTo i s s.me.unit.next := ⟨_, h, wentTo_retire s⟩

theorem traps_trap {i : Instr} {s : State} {cause : Nat} {addr : Word} (hh : s.Handled) (h : exec i s = .next (s.trap cause addr)) :
    Traps i s cause addr := ⟨_, h, trapped_trap s cause addr hh⟩

/-- What decodes under `lone` has LEN 00. -/
theorem fLen_of_lone {w : IWord} {o : Option Instr} {i : Instr} (h : lone w o = some i) : fLen w = 0 := by
  unfold lone at h
  split at h
  · assumption
  · cases h

/-- Words of majors that take no literal are whole, with LEN 00 (R53, R55). -/
theorem wordsAreWhole_lone {majs : List (BitVec 6)} (h : ∀ w x1 x2, fMaj w ∈ majs → ∃ o, decodeInstr w x1 x2 = lone w o) : WordsAreWhole majs true :=
  fun w x1 x2 _ hm hi => ⟨wordsAreWrittenBack w x1 x2 _ hi, fun _ => by
    obtain ⟨o, e⟩ := h w x1 x2 hm
    exact fLen_of_lone (e ▸ hi)⟩

theorem wordsAreWhole_any (majs : List (BitVec 6)) : WordsAreWhole majs false :=
  fun w x1 x2 _ _ hi => ⟨wordsAreWrittenBack w x1 x2 _ hi, nofun⟩

end Sys2Proof.Laws
end

section
/-!
PROOFS. The IOP forms (R72): each is an operation on bit vectors of its width.
-/
namespace Sys2Proof.Laws
open Sys2Proof Sys2Proof.Machine Sys2Proof.Claims

/-! ### The operands of a form, for any width -/

/-- The numeric views of two operands of `n` bits. -/
def iopOf {n : Nat} (x y : BitVec n) : IopIn := { n := n, sa := x.toInt, sb := y.toInt, ua := x.toNat, ub := y.toNat, k := shiftBy y }

theorem iopIn_false_eq (x y : Word) : iopIn false x y = iopOf x y := iopIn_64 x y
theorem iopIn_true_eq (x y : Word) : iopIn true x y = iopOf (x.setWidth 32) (y.setWidth 32) := iopIn_32 x y

/-- The numeric function of an IOP form is an operation on bit vectors. -/
def Computes (f : IopIn → Int) (F : (n : Nat) → BitVec n → BitVec n → BitVec n) : Prop :=
  ∀ {n : Nat} (x y : BitVec n), 1 < n → BitVec.ofInt n (f (iopOf x y)) = F n x y

theorem iopOut_eq_inWidth {f : IopIn → Int} {F : (n : Nat) → BitVec n → BitVec n → BitVec n} (h : Computes f F) (w : Bool) (x y : Word) :
    iopOut w (f (iopIn w x y)) = inWidth w F x y := by
  cases w
  · rw [iopIn_false_eq, iopOut_64, h x y (by decide)]; rfl
  · rw [iopIn_true_eq, iopOut_32, h _ _ (by decide)]; rfl

theorem gives_iop {i : Instr} {s : State} {d a b : Reg} {w : Bool} {f : IopIn → Int} {F : (n : Nat) → BitVec n → BitVec n → BitVec n}
    (h : Computes f F) (e : exec i s = .next (s.iop d a b w f)) : Gives i s d (inWidth w F (s.me.reg a) (s.me.reg b)) :=
  iopOut_eq_inWidth h w _ _ ▸ gives_setG e

/-- A comparison writes 1 or 0 in both widths. -/
theorem iopOut_boolN (w p : Bool) : iopOut w (boolN p : Nat) = if p then 1 else 0 := by
  cases w <;> cases p <;> decide

theorem gives_cmp {i : Instr} {s : State} {d a b : Reg} {w : Bool} {f : IopIn → Bool} {F : (n : Nat) → BitVec n → BitVec n → Bool}
    (h : ∀ {n : Nat} (x y : BitVec n), f (iopOf x y) = F n x y) (e : exec i s = .next (s.iop d a b w fun x => (boolN (f x) : Nat))) :
    Gives i s d (cmpWidth w F (s.me.reg a) (s.me.reg b)) := by
  have hv : iopOut w (boolN (f (iopIn w (s.me.reg a) (s.me.reg b))) : Nat) = cmpWidth w F (s.me.reg a) (s.me.reg b) := by
    rw [iopOut_boolN]
    cases w
    · rw [iopIn_false_eq, h]; rfl
    · rw [iopIn_true_eq, h]; rfl
  exact hv ▸ gives_setG e

/-! ### The operations on numbers and on bit vectors -/

section
variable {n : Nat} (x y : BitVec n)

theorem ofInt_sub_toInt : BitVec.ofInt n (x.toInt - y.toInt) = x - y := by
  apply BitVec.eq_of_toInt_eq; rw [BitVec.toInt_ofInt, BitVec.toInt_sub]

/-- The bits of `x` that are not bits of `y`. -/
theorem ofNat_andn : BitVec.ofNat n (x.toNat &&& (2 ^ n - 1 - y.toNat)) = x &&& ~~~y := by
  apply BitVec.eq_of_toNat_eq
  rw [BitVec.toNat_ofNat, BitVec.toNat_and, BitVec.toNat_not, Nat.mod_eq_of_lt (Nat.and_lt_two_pow _ (by have := Nat.two_pow_pos n; omega))]

theorem ofNat_shiftLeft (k : Nat) : BitVec.ofNat n (x.toNat <<< k) = x <<< k := by
  apply BitVec.eq_of_toNat_eq; rw [BitVec.toNat_ofNat, BitVec.toNat_shiftLeft]

theorem ofNat_shiftRight (k : Nat) : BitVec.ofNat n (x.toNat >>> k) = x >>> k := by
  rw [← BitVec.toNat_ushiftRight, BitVec.ofNat_toNat, BitVec.setWidth_eq]

theorem ofInt_div_two_pow (k : Nat) : BitVec.ofInt n (x.toInt / ((2 ^ k : Nat) : Int)) = x.sshiftRight k := by
  rw [← Int.shiftRight_eq_div_pow, ← BitVec.toInt_sshiftRight, BitVec.ofInt_toInt]

theorem ofNat_rolNat {k : Nat} (hk : k < n) : BitVec.ofNat n (rolNat n x.toNat k) = x.rotateLeft k := by
  apply BitVec.eq_of_toNat_eq
  rw [BitVec.toNat_ofNat, BitVec.toNat_rotateLeft, Nat.mod_eq_of_lt hk, rolNat, Nat.or_mod_two_pow]
  congr 1
  exact Nat.mod_eq_of_lt (Nat.lt_of_le_of_lt (Nat.shiftRight_le ..) x.isLt)

/-- The one of two values that a test picks (the extrema of R72). -/
theorem ofInt_pick (p : Prop) [Decidable p] : BitVec.ofInt n (if p then y.toInt else x.toInt) = if p then y else x := by
  split <;> rw [BitVec.ofInt_toInt]

theorem ofNat_min : BitVec.ofNat n (min x.toNat y.toNat) = if y.ult x then y else x := by
  simp only [BitVec.ult_eq_decide, decide_eq_true_eq]
  split
  · rw [Nat.min_eq_right (by omega), BitVec.ofNat_toNat, BitVec.setWidth_eq]
  · rw [Nat.min_eq_left (by omega), BitVec.ofNat_toNat, BitVec.setWidth_eq]

theorem ofNat_max : BitVec.ofNat n (max x.toNat y.toNat) = if x.ult y then y else x := by
  simp only [BitVec.ult_eq_decide, decide_eq_true_eq]
  split
  · rw [Nat.max_eq_right (by omega), BitVec.ofNat_toNat, BitVec.setWidth_eq]
  · rw [Nat.max_eq_left (by omega), BitVec.ofNat_toNat, BitVec.setWidth_eq]

theorem divTrunc_eq_tdiv (a b : Int) : divTrunc a b = a.tdiv b := by
  unfold divTrunc
  rcases a with m | m <;> rcases b with k | k <;> simp [Int.tdiv, Int.negSucc_lt_zero, Int.not_lt.mpr (Int.natCast_nonneg _)]

end

theorem shiftBy_lt {n : Nat} (hn : 1 < n) (y : BitVec n) : shiftBy y < n := Nat.mod_lt _ (by omega)

/-! ### The forms -/

theorem integerFormsCompute : IntegerFormsCompute := by
  intro s d a b w x y
  refine ⟨gives_iop (fun x y _ => ?add) rfl, gives_iop (fun x y _ => ?sub) rfl, gives_iop (fun x y _ => ?and) rfl, gives_iop (fun x y _ => ?or) rfl,
    gives_iop (fun x y _ => ?xor) rfl, gives_iop (fun x y _ => ?andn) rfl, gives_iop (fun x y _ => ?shl) rfl, gives_iop (fun x y _ => ?shr) rfl,
    gives_iop (fun x y _ => ?sar) rfl, gives_iop (fun x y h => ?rol) rfl, gives_iop (fun x y _ => ?mul) rfl, gives_iop (fun x y _ => ?mulhs) rfl,
    gives_iop (fun x y _ => ?mulhn) rfl, gives_iop (fun x y _ => ?mins) rfl, gives_iop (fun x y _ => ?maxs) rfl, gives_iop (fun x y _ => ?minn) rfl,
    gives_iop (fun x y _ => ?maxn) rfl, gives_cmp (fun _ _ => rfl) rfl, gives_cmp (fun _ _ => rfl) rfl, gives_cmp (fun x y => ?seq) rfl,
    gives_cmp (fun x y => ?sne) rfl⟩
  case add => exact (BitVec.ofInt_add _ _).trans (by simp [iopOf])
  case sub => exact ofInt_sub_toInt x y
  case and => exact (BitVec.ofInt_natCast ..).trans (by simp [iopOf])
  case or => exact (BitVec.ofInt_natCast ..).trans (by simp [iopOf])
  case xor => exact (BitVec.ofInt_natCast ..).trans (by simp [iopOf])
  case andn => exact (BitVec.ofInt_natCast ..).trans (ofNat_andn x y)
  case shl => exact (BitVec.ofInt_natCast ..).trans (ofNat_shiftLeft x _)
  case shr => exact (BitVec.ofInt_natCast ..).trans (ofNat_shiftRight x _)
  case sar => exact ofInt_div_two_pow x _
  case rol => exact (BitVec.ofInt_natCast ..).trans (ofNat_rolNat x (shiftBy_lt h y))
  case mul => exact (BitVec.ofInt_mul _ _).trans (by simp [iopOf])
  case mulhs => rw [Nat.cast_pow]; rfl
  case mulhn => exact BitVec.ofInt_natCast ..
  case mins => exact (ofInt_pick x y _).trans (if_congr (by simp [iopOf, BitVec.slt_eq_decide]) rfl rfl)
  case maxs => exact (ofInt_pick x y _).trans (if_congr (by simp [iopOf, BitVec.slt_eq_decide]) rfl rfl)
  case minn => exact (BitVec.ofInt_natCast ..).trans (ofNat_min x y)
  case maxn => exact (BitVec.ofInt_natCast ..).trans (ofNat_max x y)
  case seq => exact (decide_eq_decide.mpr BitVec.toNat_inj).trans (beq_eq_decide x y).symm
  case sne => simp [iopOf, bne, BitVec.toNat_inj, beq_eq_decide]

/-! ### The division forms -/

section
variable {n : Nat} (x y : BitVec n)

theorem ofInt_minusOne : BitVec.ofInt n (-1) = -1 := BitVec.ofInt_neg (n := 1)

theorem ofNat_ones : BitVec.ofInt n ((2 ^ n - 1 : Nat) : Int) = -1 := by
  have e : (-1 : BitVec n) = BitVec.allOnes n := BitVec.neg_one_eq_allOnes
  rw [BitVec.ofInt_natCast, e]
  apply BitVec.eq_of_toNat_eq
  rw [BitVec.toNat_ofNat, BitVec.toNat_allOnes, Nat.mod_eq_of_lt (Nat.sub_lt (Nat.two_pow_pos n) Nat.one_pos)]

theorem ofNat_self : BitVec.ofInt n (x.toNat : Int) = x := by rw [BitVec.ofInt_natCast, BitVec.ofNat_toNat, BitVec.setWidth_eq]

theorem ofInt_divTrunc : BitVec.ofInt n (divTrunc x.toInt y.toInt) = x.sdiv y := by
  apply BitVec.eq_of_toInt_eq; rw [divTrunc_eq_tdiv, BitVec.toInt_ofInt, BitVec.toInt_sdiv]

theorem ofInt_remTrunc : BitVec.ofInt n (x.toInt - y.toInt * divTrunc x.toInt y.toInt) = x.srem y := by
  rw [divTrunc_eq_tdiv, ← Int.tmod_def, ← BitVec.toInt_srem, BitVec.ofInt_toInt]

theorem ofNat_div : BitVec.ofInt n ((x.toNat / y.toNat : Nat) : Int) = x.udiv y := by
  rw [← ofNat_self (x.udiv y)]; rfl

theorem ofNat_mod : BitVec.ofInt n ((x.toNat % y.toNat : Nat) : Int) = x.umod y := by
  rw [← ofNat_self (x.umod y)]; rfl
end

/-- CPROF bit 21 (R96). -/
theorem cpDIVZ_eq (c : Word) : cpDIVZ c.toNat = c.getLsbD 21 := by
  rw [cpDIVZ, bitsOf_eq, BitVec.getLsbD, Nat.testBit_eq_decide_div_mod_eq, beq_eq_decide]
  rfl

/-- The result of a division form that does not trap. -/
def orZero (z f : IopIn → Int) (x : IopIn) : Int := if x.ub = 0 then z x else f x

section
variable {s : State} {d a b : Reg} {w : Bool} {z f : IopIn → Int}

/-- A zero divisor, by the number that the form divides by. -/
theorem iopIn_ub_eq_zero : (iopIn w (s.me.reg a) (s.me.reg b)).ub = 0 ↔ if w then (s.me.reg b).setWidth 32 = 0 else s.me.reg b = 0 := by
  cases w
  · rw [iopIn_false_eq]; exact BitVec.toNat_inj (y := 0)
  · rw [iopIn_true_eq]; exact BitVec.toNat_inj (y := 0)

theorem iopDiv_goes (h : ¬ (iopIn w (s.me.reg a) (s.me.reg b)).ub = 0 ∨ s.me.cprof.getLsbD 21 = false) :
    s.iopDiv d a b w z f = s.iop d a b w (orZero z f) := by
  unfold State.iopDiv State.iop orZero
  by_cases h0 : (iopIn w (s.me.reg a) (s.me.reg b)).ub = 0
  · simp only [h0, cpDIVZ_eq, h.resolve_left (not_not_intro h0), if_true, Bool.false_eq_true, if_false]
  · simp only [h0, if_false]

theorem iopDiv_traps (h0 : (iopIn w (s.me.reg a) (s.me.reg b)).ub = 0) (hc : s.me.cprof.getLsbD 21 = true) : s.iopDiv d a b w z f = s.trap cDIVZ 0 := by
  rw [State.iopDiv, if_pos h0, cpDIVZ_eq, if_pos hc]

theorem gives_iopDiv {i : Instr} {F : (n : Nat) → BitVec n → BitVec n → BitVec n}
    (h : ¬ (iopIn w (s.me.reg a) (s.me.reg b)).ub = 0 ∨ s.me.cprof.getLsbD 21 = false) (hF : Computes (orZero z f) F)
    (e : exec i s = .next (s.iopDiv d a b w z f)) : Gives i s d (inWidth w F (s.me.reg a) (s.me.reg b)) :=
  gives_iop hF (iopDiv_goes h ▸ e)
end

/-- A division form, told by its zero divisor and by the others. -/
theorem computes_orZero {z f : IopIn → Int} {Z F : (n : Nat) → BitVec n → BitVec n → BitVec n}
    (hz : ∀ {n : Nat} (x y : BitVec n), BitVec.ofInt n (z (iopOf x y)) = Z n x y) (hf : ∀ {n : Nat} (x y : BitVec n), BitVec.ofInt n (f (iopOf x y)) = F n x y) :
    Computes (orZero z f) fun n x y => if y = 0 then Z n x y else F n x y := by
  intro n x y _
  have h0 : (iopOf x y).ub = 0 ↔ y = 0 := BitVec.toNat_inj (y := 0)
  unfold orZero
  simp only [h0]
  split
  · exact hz x y
  · exact hf x y

theorem divisionFormsDivideOrTrap : DivisionFormsDivideOrTrap := by
  intro s d a b w x y zero
  have hzero : (iopIn w x y).ub = 0 ↔ zero := iopIn_ub_eq_zero
  refine ⟨fun h => ?_, fun h0 hc hh => ?_⟩
  · rw [← hzero] at h
    exact ⟨gives_iopDiv h (computes_orZero (Z := fun _ _ _ => -1) (F := fun _ x y => x.sdiv y) (fun _ _ => ofInt_minusOne) ofInt_divTrunc) rfl,
      gives_iopDiv h (computes_orZero (Z := fun _ _ _ => -1) (F := fun _ x y => x.udiv y) (fun _ _ => ofNat_ones) ofNat_div) rfl,
      gives_iopDiv h (computes_orZero (Z := fun _ x _ => x) (F := fun _ x y => x.srem y) (fun _ _ => BitVec.ofInt_toInt) ofInt_remTrunc) rfl,
      gives_iopDiv h (computes_orZero (Z := fun _ x _ => x) (F := fun _ x y => x.umod y) (fun x _ => ofNat_self x) ofNat_mod) rfl⟩
  · rw [← hzero] at h0
    exact ⟨traps_trap hh (congrArg _ (iopDiv_traps h0 hc)), traps_trap hh (congrArg _ (iopDiv_traps h0 hc)), traps_trap hh (congrArg _ (iopDiv_traps h0 hc)),
      traps_trap hh (congrArg _ (iopDiv_traps h0 hc))⟩

/-- Settles O1: every form computes on the bit vectors of its width, and a word of the major is its instruction's encoding. -/
theorem integerFormsComputeInTheirWidth : Obligations.IntegerFormsComputeInTheirWidth :=
  ⟨integerFormsCompute, divisionFormsDivideOrTrap, wordsAreWhole_lone fun w x1 x2 hm => ⟨_, decode_major_01 w x1 x2 (List.mem_singleton.mp hm)⟩⟩

end Sys2Proof.Laws
end

section
/-!
PROOFS. The immediate forms (R73).
-/
namespace Sys2Proof.Laws
open Sys2Proof Sys2Proof.Machine Sys2Proof.Claims

theorem ofNat_boolN (p : Bool) : BitVec.ofNat 64 (boolN p) = if p then 1 else 0 := by cases p <;> rfl

/-- A signed comparison with an extended operand, as a number (R73). -/
theorem ofNat_boolN_slt (x y : Word) : BitVec.ofNat 64 (boolN (x.slt y)) = if x.toInt < y.toInt then 1 else 0 := by
  rw [ofNat_boolN]; exact if_congr (by rw [BitVec.slt_eq_decide, decide_eq_true_eq]) rfl rfl

theorem toInt_signExtend_imm (i : BitVec 16) : (i.signExtend 64).toInt = i.toInt := BitVec.toInt_signExtend_of_le (by decide)

theorem immediatesAreExtended : ImmediatesAreExtended := by
  intro s d a i l k x sx zx
  have hz : i.zeroExtend 64 = zx := (BitVec.ofNat_toNat _ _).symm
  have slti : BitVec.ofNat 64 (boolN (x.slt (i.signExtend 64))) = if x.toInt < i.toInt then 1 else 0 := toInt_signExtend_imm i ▸ ofNat_boolN_slt x _
  refine ⟨gives_setG rfl, gives_setG rfl, gives_setG (by rw [← hz]; rfl), gives_setG rfl, gives_setG (by rw [← hz]; rfl), gives_setG rfl,
    gives_setG (by rw [← hz]; rfl), gives_setG rfl,
    slti ▸ gives_setG rfl, ofNat_boolN_slt x l ▸ gives_setG rfl, gives_setG rfl, gives_setG rfl, gives_setG rfl, gives_setG rfl, gives_setG rfl,
    ofNat_rolNat x k.isLt ▸ gives_setG rfl⟩

/-- Settles O2: each form writes its operation on the extended operand. -/
theorem immediateFormsUseTheirExtension : Obligations.ImmediateFormsUseTheirExtension :=
  ⟨immediatesAreExtended, wordsAreWhole_any _, wordsAreWhole_lone fun w x1 x2 hm => ⟨_, decode_major_06 w x1 x2 (List.mem_singleton.mp hm)⟩⟩

end Sys2Proof.Laws
end

section
/-!
PROOFS. The bit forms (R74), told bit by bit.
-/
namespace Sys2Proof.Laws
open Sys2Proof Sys2Proof.Machine Sys2Proof.Claims

/-! ### Counting and finding bits -/

theorem shiftRight_mod_two (x i : Nat) : (x >>> i) % 2 = (x.testBit i).toNat := by rw [Nat.toNat_testBit, Nat.shiftRight_eq_div_pow]

theorem sum_bits (x : Nat) (l : List Nat) : (l.map fun i => (x >>> i) % 2).sum = l.countP fun i => x.testBit i := by
  induction l with
  | nil => rfl
  | cons i l ih =>
    rw [List.map_cons, List.sum_cons, ih, List.countP_cons, shiftRight_mod_two, Nat.add_comm]
    cases x.testBit i <;> rfl

/-- The highest one of a number is its logarithm. -/
theorem log2_eq_of_testBit {x i : Nat} (hi : x.testBit i = true) (top : ∀ j, i < j → x.testBit j = false) : x.log2 = i := by
  have lo : 2 ^ i ≤ x := Nat.ge_two_pow_of_testBit hi
  have hi' : x < 2 ^ (i + 1) := Nat.lt_pow_two_of_testBit x fun j hj => top j hj
  exact (Nat.log2_eq_iff (by have := Nat.two_pow_pos i; omega)).mpr ⟨lo, hi'⟩

theorem clz64_eq {x i : Nat} (hi : x.testBit i = true) (top : ∀ j, i < j → x.testBit j = false) : clz64 x = 63 - i := by
  rw [clz64, if_neg (by rintro rfl; simp at hi), log2_eq_of_testBit hi top]

theorem ctz64_eq {x i : Nat} (h : i < 64) (hi : x.testBit i = true) (low : ∀ j, j < i → x.testBit j = false) : ctz64 x = i := by
  have hf : (List.range 64).find? (fun i => (x >>> i) % 2 == 1) = some i := by
    refine List.find?_range_eq_some.mpr ⟨?_, List.mem_range.mpr h, fun j hj => ?_⟩
    · simp [shiftRight_mod_two, hi]
    · simp [shiftRight_mod_two, low j hj]
  rw [ctz64, hf]; rfl

/-! ### Reversing bits and bytes -/

/-- The number whose bits, the highest first, are `g 0`, `g 1`, … , `g (n - 1)`. -/
def ofBitsDown (n : Nat) (g : Nat → Bool) : Nat := ((List.range n).map fun i => (g i).toNat <<< (n - 1 - i)).sum

theorem ofBitsDown_succ (n : Nat) (g : Nat → Bool) : ofBitsDown (n + 1) g = 2 ^ n * (g 0).toNat + ofBitsDown n fun i => g (i + 1) := by
  simp only [ofBitsDown, List.range_succ_eq_map, List.map_cons, List.map_map, List.sum_cons, Nat.shiftLeft_eq, Nat.add_sub_cancel, Nat.sub_zero,
    Nat.mul_comm (2 ^ n), Function.comp_def, Nat.succ_eq_add_one, Nat.sub_sub, Nat.add_comm 1]

theorem ofBitsDown_lt (n : Nat) (g : Nat → Bool) : ofBitsDown n g < 2 ^ n := by
  induction n generalizing g with
  | zero => exact Nat.one_pos
  | succ n ih =>
    have h := ih fun i => g (i + 1)
    rw [ofBitsDown_succ, Nat.pow_succ]
    cases g 0 <;> simp only [Bool.toNat_true, Bool.toNat_false] <;> omega

theorem testBit_ofBitsDown {n : Nat} (g : Nat → Bool) {i : Nat} (h : i < n) : (ofBitsDown n g).testBit i = g (n - 1 - i) := by
  induction n generalizing g with
  | zero => omega
  | succ n ih =>
    rw [ofBitsDown_succ, Nat.testBit_two_pow_mul_add _ (ofBitsDown_lt n _)]
    split
    case isTrue hin => rw [ih _ hin, show n + 1 - 1 - i = n - 1 - i + 1 by omega]
    case isFalse hin =>
      obtain rfl : i = n := by omega
      rw [Nat.sub_self, Nat.add_sub_cancel, Nat.sub_self]
      cases g 0 <;> rfl

theorem brev64_eq (x : Nat) : brev64 x = ofBitsDown 64 x.testBit := by
  simp only [brev64, ofBitsDown, shiftRight_mod_two]

theorem leBytes_length (x n : Nat) : (leBytes x n).length = n := by
  induction n generalizing x with
  | zero => rfl
  | succ n ih => rw [leBytes, List.length_cons, ih]

theorem leBytes_getElem (x n i : Nat) (h : i < (leBytes x n).length) : (leBytes x n)[i] = x / 256 ^ i % 256 := by
  induction n generalizing x i with
  | zero => cases h
  | succ n ih =>
    cases i with
    | zero => simp [leBytes]
    | succ i => simp only [leBytes, List.getElem_cons_succ, ih, Nat.div_div_eq_div_mul, Nat.pow_succ']

/-- A byte of the number that bytes make. -/
theorem ofLeBytes_byte {l : List Nat} (hl : ∀ b ∈ l, b < 256) {i : Nat} (h : i < l.length) : ofLeBytes l / 256 ^ i % 256 = l[i] := by
  induction l generalizing i with
  | nil => cases h
  | cons b l ih =>
    have hb := hl b (List.mem_cons_self ..)
    cases i with
    | zero => simp only [ofLeBytes, Nat.pow_zero, List.getElem_cons_zero]; omega
    | succ i =>
      rw [List.getElem_cons_succ, ← ih (fun c hc => hl c (List.mem_cons_of_mem _ hc)) (Nat.lt_of_succ_lt_succ h), ofLeBytes, Nat.pow_succ', ← Nat.div_div_eq_div_mul,
        Nat.add_mul_div_left _ _ (by decide), Nat.div_eq_of_lt hb, Nat.zero_add]

theorem ofLeBytes_lt {l : List Nat} (hl : ∀ b ∈ l, b < 256) : ofLeBytes l < 256 ^ l.length := by
  induction l with
  | nil => exact Nat.one_pos
  | cons b l ih =>
    have hb := hl b (List.mem_cons_self ..)
    have h := ih fun c hc => hl c (List.mem_cons_of_mem _ hc)
    rw [ofLeBytes, List.length_cons, Nat.pow_succ']
    omega

theorem leBytes_lt (x n : Nat) : ∀ b ∈ leBytes x n, b < 256 := fun b hb => by
  obtain ⟨j, hj, rfl⟩ := List.mem_iff_getElem.mp hb
  rw [leBytes_getElem]; exact Nat.mod_lt _ (by decide)

theorem bswap64_lt (x : Nat) : bswap64 x < 2 ^ 64 := by
  have h := ofLeBytes_lt (l := (leBytes x 8).reverse) fun b hb => leBytes_lt x 8 b (List.mem_reverse.mp hb)
  rwa [List.length_reverse, leBytes_length] at h

theorem bswap64_byte (x : Nat) {i : Nat} (h : i < 8) : bswap64 x / 256 ^ i % 256 = x / 256 ^ (7 - i) % 256 := by
  have hl : ∀ b ∈ (leBytes x 8).reverse, b < 256 := fun b hb => leBytes_lt x 8 b (List.mem_reverse.mp hb)
  rw [bswap64, ofLeBytes_byte hl (by rw [List.length_reverse, leBytes_length]; exact h), List.getElem_reverse, leBytes_getElem, leBytes_length]

/-! ### Fields -/

theorem fieldPos_eq (b : Nat) : fieldPos b = (b % 64, b / 256 % 64 + 1) := by
  simp only [fieldPos, bitsOf_eq]; norm_num

/-- The field of `w` bits at `l`. -/
theorem getLsbD_ofNat_shiftRight (x : Word) (l w i : Nat) : (BitVec.ofNat w (x.toNat >>> l)).getLsbD i = (decide (i < w) && x.getLsbD (l + i)) := by
  rw [BitVec.getLsbD_ofNat, Nat.testBit_shiftRight]; rfl

theorem bfxs_bit (x : Word) (l : Nat) {w i : Nat} (hw : 0 < w) (hi : i < 64) :
    (BitVec.ofInt 64 (signExt (x.toNat >>> l) w)).getLsbD i = x.getLsbD (l + min i (w - 1)) := by
  have e : BitVec.ofInt 64 (signExt (x.toNat >>> l) w) = (BitVec.ofNat w (x.toNat >>> l)).signExtend 64 := by rw [signExt_eq]; rfl
  rw [e, BitVec.getLsbD_signExtend, decide_eq_true hi, Bool.true_and]
  split
  case isTrue h => rw [getLsbD_ofNat_shiftRight, decide_eq_true h, Bool.true_and, Nat.min_eq_left (by omega)]
  case isFalse h =>
    rw [BitVec.msb_eq_getLsbD_last, getLsbD_ofNat_shiftRight, decide_eq_true (by omega), Bool.true_and, Nat.min_eq_right (by omega)]

theorem bfxn_bit (x : Word) (l w : Nat) {i : Nat} (hi : i < 64) :
    (BitVec.ofNat 64 (truncN (x.toNat >>> l) w)).getLsbD i = (decide (i < w) && x.getLsbD (l + i)) := by
  rw [BitVec.getLsbD_ofNat, decide_eq_true hi, Bool.true_and, truncN, Nat.testBit_mod_two_pow, Nat.testBit_shiftRight]; rfl

theorem bfi64_bit (d a b : Nat) {i : Nat} (hi : i < 64) :
    let l := b % 64; let w := b / 256 % 64 + 1
    (bfi64 d a b).testBit i = if l ≤ i ∧ i < l + w then a.testBit (i - l) else d.testBit i := by
  intro l w
  let m := truncN ((2 ^ w - 1) <<< l) 64
  have hlt : m < 2 ^ 64 := Nat.mod_lt _ (by decide)
  have hm : m.testBit i = decide (l ≤ i ∧ i < l + w) := by
    simp only [m, truncN, Nat.testBit_mod_two_pow, Nat.testBit_shiftLeft, Nat.testBit_two_pow_sub_one, hi, decide_true, Bool.true_and, ge_iff_le,
      Bool.decide_and]
    by_cases h : l ≤ i
    · simp only [h, decide_true, Bool.true_and]; exact decide_eq_decide.mpr (by omega)
    · simp only [h, decide_false, Bool.false_and]
  have e : bfi64 d a b = (d &&& (2 ^ 64 - 1 - m)) ||| (truncN (a <<< l) 64 &&& m) := by rw [bfi64, fieldPos_eq]
  rw [e, Nat.testBit_or, Nat.testBit_and, Nat.testBit_and, Nat.sub_sub, Nat.add_comm 1 m, Nat.testBit_two_pow_sub_succ hlt, hm, decide_eq_true hi]
  split
  case isTrue h => simp only [h, truncN, Nat.testBit_mod_two_pow, Nat.testBit_shiftLeft, hi, decide_true, and_self, Bool.not_true, Bool.and_false,
      Bool.false_or, Bool.true_and, Bool.and_true]
  case isFalse h => simp [h]

theorem exec_bfxs (s : State) (d a b : Reg) : exec (.bfxs d a b) s = .next (s.setG d
    (BitVec.ofInt 64 (signExt ((s.me.reg a).toNat >>> ((s.me.reg b).toNat % 64)) ((s.me.reg b).toNat / 256 % 64 + 1)))) := by
  rw [exec, execBfxs, fieldPos_eq]

theorem exec_bfxn (s : State) (d a b : Reg) : exec (.bfxn d a b) s = .next (s.setG d
    (BitVec.ofNat 64 (truncN ((s.me.reg a).toNat >>> ((s.me.reg b).toNat % 64)) ((s.me.reg b).toNat / 256 % 64 + 1)))) := by
  rw [exec, execBfxn, fieldPos_eq]

theorem bitFormsCompute : BitFormsCompute := by
  intro s d a b c x y l w
  refine ⟨?popc, ?clz, ?ctz, ?brev, ?bswap, ?bfxs, ?bfxn, ?bfi, gives_setG rfl⟩
  case popc => exact congrArg (BitVec.ofNat 64) (sum_bits x.toNat (List.range 64)) ▸ gives_setG rfl
  case clz =>
    refine ⟨_, gives_setG rfl, fun h => ?_, fun i _ hx top => congrArg _ (clz64_eq hx top)⟩
    rw [show s.me.reg a = 0 from h]; rfl
  case ctz => 
    refine ⟨_, gives_setG rfl, fun h => ?_, fun i hi hx low => congrArg _ (ctz64_eq hi hx low)⟩
    rw [show s.me.reg a = 0 from h]; rfl
  case brev =>
    refine ⟨_, gives_setG rfl, fun i hi => ?_⟩
    rw [brev64_eq, BitVec.getLsbD_ofNat, testBit_ofBitsDown _ hi, decide_eq_true hi]; rfl
  case bswap =>
    refine ⟨_, gives_setG rfl, fun i hi => BitVec.eq_of_toNat_eq ?_⟩
    have hb := bswap64_byte x.toNat hi
    rw [extract_toNat, extract_toNat, Nat.pow_mul, Nat.pow_mul, BitVec.toNat_ofNat, Nat.mod_eq_of_lt (bswap64_lt _)]
    exact hb
  case bfxs => exact ⟨_, gives_setG (exec_bfxs s d a b), fun i hi => bfxs_bit x l (Nat.succ_pos _) hi⟩
  case bfxn => exact ⟨_, gives_setG (exec_bfxn s d a b), fun i hi => bfxn_bit x l w hi⟩
  case bfi =>
    refine ⟨_, gives_setG rfl, fun i hi => ?_⟩
    rw [BitVec.getLsbD_ofNat, decide_eq_true hi, Bool.true_and]
    exact bfi64_bit _ _ _ hi

/-- Settles O3: each form by the bits of its result. -/
theorem bitFormsTellEveryBit : Obligations.BitFormsTellEveryBit :=
  ⟨bitFormsCompute, wordsAreWhole_lone fun w x1 x2 hm => ⟨_, decode_major_09 w x1 x2 (List.mem_singleton.mp hm)⟩⟩

end Sys2Proof.Laws
end

section
/-!
PROOFS. Branches, calls and jumps (R75, R76).
-/
namespace Sys2Proof.Laws
open Sys2Proof Sys2Proof.Machine Sys2Proof.Claims

/-! ### Branches -/

/-- A branch goes to its target or to the end of its unit. -/
theorem goesTo_branch {i : Instr} {s : State} {taken : Bool} {disp : BitVec 16} (e : exec i s = .next (s.branch taken disp)) :
    GoesTo i s (if taken then branchTarget s.me.unit.pc disp.toInt else s.me.unit.next) := by
  unfold State.branch at e
  cases taken
  · exact goesTo_retire e
  · exact goesTo_goTo e

/-- The same, told by the condition. -/
theorem branch_dest {i : Instr} {s : State} {taken : Bool} {disp : BitVec 16} {p : Prop} (hn : s.me.unit.next = s.me.unit.pc + 4) (hp : taken = true ↔ p)
    (e : exec i s = .next (s.branch taken disp)) :
    ∃ pc, GoesTo i s pc ∧ (p → pc = s.me.unit.pc + BitVec.ofInt 64 (4 * disp.toInt)) ∧ (¬ p → pc = s.me.unit.pc + 4) :=
  ⟨_, goesTo_branch e, fun h => if_pos (hp.mpr h), fun h => (if_neg (mt hp.mp h)).trans hn⟩

theorem branchesGoWhereTheirConditionSays : BranchesGoWhereTheirConditionSays := by
  intro s a disp v u dest hn
  have zero : v = 0 ↔ s.me.reg a = 0 := BitVec.toInt_inj (y := 0)
  exact ⟨branch_dest hn (by simp) rfl, branch_dest hn (by rw [zero, beq_iff_eq]) rfl, branch_dest hn (by rw [ne_eq, zero, bne_iff_ne]) rfl,
    branch_dest hn decide_eq_true_iff rfl, branch_dest hn decide_eq_true_iff rfl, branch_dest hn decide_eq_true_iff rfl, branch_dest hn decide_eq_true_iff rfl⟩

/-! ### Calls and jumps -/

/-- g14 takes the address after the unit, and the context goes on at `pc`. -/
theorem calls_goTo {i : Instr} {s : State} {pc : Word} (e : exec i s = .next ((s.modMe fun c => c.setReg linkReg (s.me.unit.pc + 4)).goTo pc)) :
    Calls i s pc := by
  rw [State.goTo, modMe_modMe] at e
  refine ⟨_, e, onlyMe_modMe s _, by rw [me_modMe], ?_, fun r hr => ?_, by rw [me_modMe]; rfl⟩
  · rw [me_modMe]; exact reg_setReg_same _ _ _
  · rw [me_modMe]; exact reg_setReg_ne _ _ hr

theorem jump_aligned {s : State} {t : Word} {f : Context → Context} (h : t.toNat % 4 = 0) : s.jump t f = (s.modMe f).goTo t :=
  if_neg (by simp [h])

theorem traps_jump {i : Instr} {s : State} {t : Word} {f : Context → Context} (h : t.toNat % 4 ≠ 0) (hh : s.Handled) (e : exec i s = .next (s.jump t f)) :
    Traps i s cALIGN t :=
  traps_trap hh (e.trans (congrArg _ (if_pos (bne_iff_ne.mpr h))))

theorem goesTo_jump {i : Instr} {s : State} {t : Word} (h : t.toNat % 4 = 0) (e : exec i s = .next (s.jump t id)) : GoesTo i s t :=
  goesTo_goTo (e.trans (congrArg _ (by rw [jump_aligned h, State.goTo, modMe_modMe]; rfl)))

theorem callsAndJumpsGoToAlignedTargets : CallsAndJumpsGoToAlignedTargets := by
  intro s a disp t r
  refine ⟨calls_goTo rfl, fun h => ⟨goesTo_jump h rfl, calls_goTo ?_⟩, fun h => goesTo_jump h rfl, fun h hh => ⟨traps_jump h hh rfl, traps_jump h hh rfl⟩,
    fun h hh => traps_jump h hh rfl⟩
  exact congrArg _ (jump_aligned h)

/-- The majors of branches, calls and jumps take no literal. -/
theorem branch_lone (w x1 x2 : IWord) (hm : fMaj w ∈ [0x0A, 0x0B, 0x0C]) : ∃ o, decodeInstr w x1 x2 = lone w o := by
  simp only [List.mem_cons, List.not_mem_nil, or_false] at hm
  obtain hm | hm | hm := hm
  · exact ⟨_, decode_major_0a w x1 x2 hm⟩
  · exact ⟨_, decode_major_0b w x1 x2 hm⟩
  · exact ⟨_, decode_major_0c w x1 x2 hm⟩

/-- A form that no other word may precede (R61). -/
def NoPrefix (i : Instr) : Prop := i.isFarLoad = false ∧ i.isRelOp = false

theorem accepts_of_noPrefix {i : Instr} (h : NoPrefix i) {r f : Bool} (hrf : (r || f) = true) : i.accepts r f = false := by
  simp only [Instr.accepts, h.1, h.2, Bool.false_eq_true, if_false]
  cases r
  · rw [show f = true from hrf]; rfl
  · rfl

theorem eq_some_of_lone {w : IWord} {o : Option Instr} {i : Instr} (h : lone w o = some i) : o = some i := by
  unfold lone at h
  split at h
  · exact h
  · cases h

/-- What the decoder may answer with: no word, or a form that no other word may precede. -/
def AllNoPrefix (o : Option Instr) : Prop := ∀ i, o = some i → NoPrefix i

theorem allNoPrefix_none : AllNoPrefix none := nofun
theorem allNoPrefix_some {i : Instr} (h : NoPrefix i) : AllNoPrefix (some i) := fun _ e => Option.some.inj e ▸ h
theorem allNoPrefix_guardI (b : Bool) {i : Instr} (h : NoPrefix i) : AllNoPrefix (guardI b i) := by
  unfold guardI
  split
  · exact allNoPrefix_some h
  · exact allNoPrefix_none

theorem decBr_noPrefix (w : IWord) : AllNoPrefix (decBr w) := by
  unfold decBr
  split
  case h_1 => exact allNoPrefix_guardI _ ⟨rfl, rfl⟩
  case h_8 => exact allNoPrefix_none
  all_goals exact allNoPrefix_some ⟨rfl, rfl⟩

theorem decJmp_noPrefix (w : IWord) : AllNoPrefix (decJmp w) := by
  unfold decJmp
  split
  case isFalse => exact allNoPrefix_none
  case isTrue =>
    split
    case h_3 => exact allNoPrefix_guardI _ ⟨rfl, rfl⟩
    case h_4 => exact allNoPrefix_none
    all_goals exact allNoPrefix_some ⟨rfl, rfl⟩

theorem noPrefix_of_branch {w x1 x2 : IWord} {i : Instr} (hm : fMaj w ∈ [0x0A, 0x0B, 0x0C]) (h : decodeInstr w x1 x2 = some i) : NoPrefix i := by
  simp only [List.mem_cons, List.not_mem_nil, or_false] at hm
  obtain hm | hm | hm := hm
  · exact decBr_noPrefix w i (eq_some_of_lone (decode_major_0a w x1 x2 hm ▸ h))
  · cases eq_some_of_lone (decode_major_0b w x1 x2 hm ▸ h); exact ⟨rfl, rfl⟩
  · exact decJmp_noPrefix w i (eq_some_of_lone (decode_major_0c w x1 x2 hm ▸ h))

theorem branchWordsAreWhole : BranchWordsAreWhole :=
  ⟨wordsAreWhole_lone branch_lone, fun _ _ _ _ _ _ hm hi hrf => accepts_of_noPrefix (noPrefix_of_branch hm hi) hrf⟩

/-- Settles O4: a branch by its condition, a jump by its alignment. -/
theorem branchesCallsAndJumps : Obligations.BranchesCallsAndJumps :=
  ⟨branchesGoWhereTheirConditionSays, callsAndJumpsGoToAlignedTargets, branchWordsAreWhole⟩

end Sys2Proof.Laws
end

section
/-!
PROOFS. The group forms (R89 to R91).
-/
namespace Sys2Proof.Laws
open Sys2Proof Sys2Proof.Machine Sys2Proof.Claims

section
variable {s : State} {jb : Job}

/-- A job that is listed is what its number reads as. -/
theorem job_of_find {j : Nat} (h : Table.find s.jobs j = some jb) : s.job j = jb := by rw [State.job, Table.get, h]; rfl

theorem myJob_eq (h : Table.find s.jobs s.myJobNo = some jb) : s.myJob = jb := job_of_find h

/-- A group is refused exactly where it is not one of the context's (R89). -/
theorem groupBad_eq_false_iff {g : Nat} : s.groupBad g = false ↔ g ≤ 255 ∧ gsetHas s.me.gset g = true := by
  simp [State.groupBad]

/-- The arrival that a form records. -/
def newArrival (s : State) (jb : Job) (g : Nat) (ply : Bool) : Arrival :=
  { grp := g, thidx := s.me.thidx, phase := jb.ph g, ply := ply, at_ := s.now, tok := s.nextTok }

/-- After an arrival the job's latest arrival of the thread is the new one (R90). -/
theorem arrival_arrive (h : Table.find s.jobs s.myJobNo = some jb) (g : Nat) (ply : Bool) :
    ((s.arrive g ply).job s.myJobNo).arrival g s.me.thidx = some (newArrival s jb g ply) := by
  rw [State.arrive, job_modJob_same h, job_of_find h, Job.arrival, List.find?_append]
  have hold : (jb.arrivals.filter fun a => !(a.grp == g && a.thidx == s.me.thidx)).find? (fun a => a.grp == g && a.thidx == s.me.thidx) = none := by
    rw [List.find?_eq_none]
    intro a ha
    simpa [Classical.or_iff_not_imp_left] using (List.mem_filter.mp ha).2
  rw [hold]
  simp [newArrival]

theorem arrivedNow_arrive (h : Table.find s.jobs s.myJobNo = some jb) (g : Nat) (ply : Bool) :
    (s.arrive g ply).myJob.arrivedNow g s.me.thidx = true := by
  have hph : ((s.arrive g ply).job s.myJobNo).ph g = jb.ph g := by rw [State.arrive, job_modJob_same h, job_of_find h]; rfl
  have hj : (s.arrive g ply).myJob = (s.arrive g ply).job s.myJobNo := by
    rw [State.myJob, State.jobAt, State.jobNoAt, State.here, State.spindle, State.arrive, modJob_spindles, modJob_cur]; rfl
  rw [hj, Job.arrivedNow, arrival_arrive h, hph]
  exact beq_self_eq_true _

theorem gwaitAt_arrived {t : State} {g : Nat} (h : t.myJob.arrivedNow g t.me.thidx = true) : t.gwaitAt g = t.modMe fun c =>
    { c with st := .parked, park := 10, kont := .advance, got := [(g, t.myJob.ph g)], again := false } := if_pos h

theorem gwaitAt_notArrived {t : State} {g : Nat} (h : t.myJob.arrivedNow g t.me.thidx = false) : t.gwaitAt g = t.retire id :=
  if_neg (by simp [h])

theorem waits_gwaitAt {t : State} {g : Nat} (h : t.myJob.arrivedNow g t.me.thidx = true) : Waits t (t.gwaitAt g) 10 :=
  gwaitAt_arrived h ▸ waits_modMe t 10 _ rfl rfl rfl ⟨rfl, rfl, rfl, rfl, rfl⟩

/-! ### An arrival changes the job alone -/

theorem arrive_ctx (g : Nat) (ply : Bool) (k : Nat) : (s.arrive g ply).ctx k = s.ctx k := by rw [State.ctx, State.arrive, modJob_ctxs]; rfl
theorem arrive_cur (g : Nat) (ply : Bool) : (s.arrive g ply).cur = s.cur := modJob_cur ..
theorem arrive_me (g : Nat) (ply : Bool) : (s.arrive g ply).me = s.me := by rw [State.me, arrive_cur, arrive_ctx]; rfl
theorem sameMemory_arrive (g : Nat) (ply : Bool) : SameMemory s (s.arrive g ply) := sameMemory_of_eq (modJob_mem ..) (modJob_fe ..) (modJob_poison ..)

/-- A wait after a change that leaves contexts and memory alone. -/
theorem waits_of_same {t u : State} {why : Nat} (h : Waits t u why) (hc : ∀ k, t.ctx k = s.ctx k) (hcur : t.cur = s.cur) (hm : SameMemory s t) :
    Waits s u why := by
  have hme : t.me = s.me := by rw [State.me, hcur, hc]; rfl
  exact ⟨h.state, h.reason, hme ▸ h.regs, hme ▸ h.pc, fun k hk => (h.contexts k (hcur ▸ hk)).trans (hc k), sameMemory_trans hm h.memory⟩

/-! ### The forms -/

/-- GBAR and PLY (R90): the arrival, then the wait for the phase. -/
theorem gbar_waits {a : Reg} {ply : Bool} (h : Table.find s.jobs s.myJobNo = some jb) (hb : s.groupBad (s.me.reg a).toNat = false)
    (ha : jb.arrivedNow (s.me.reg a).toNat s.me.thidx = false) :
    Waits s (s.gbar a ply) 10 ∧ ((s.gbar a ply).job s.myJobNo).arrival (s.me.reg a).toNat s.me.thidx = some (newArrival s jb (s.me.reg a).toNat ply) := by
  have hnow : (s.arrive (s.me.reg a).toNat ply).myJob.arrivedNow (s.me.reg a).toNat (s.arrive (s.me.reg a).toNat ply).me.thidx = true := by
    rw [arrive_me]; exact arrivedNow_arrive h _ ply
  have e : s.gbar a ply = (s.arrive (s.me.reg a).toNat ply).gwaitAt (s.me.reg a).toNat := if_neg (by simp [hb, myJob_eq h, ha])
  rw [e]
  refine ⟨waits_of_same (waits_gwaitAt hnow) (arrive_ctx _ _) (arrive_cur _ _) (sameMemory_arrive _ _), ?_⟩
  rw [gwaitAt_arrived hnow]
  exact arrival_arrive h _ ply

theorem garr_goesOn {a : Reg} (h : Table.find s.jobs s.myJobNo = some jb) (hb : s.groupBad (s.me.reg a).toNat = false)
    (ha : jb.arrivedNow (s.me.reg a).toNat s.me.thidx = false) :
    WentOn s (s.garr a) ∧ SameMemory s (s.garr a) ∧
      ((s.garr a).job s.myJobNo).arrival (s.me.reg a).toNat s.me.thidx = some (newArrival s jb (s.me.reg a).toNat false) := by
  have e : s.garr a = (s.arrive (s.me.reg a).toNat false).retire id := if_neg (by simp [hb, myJob_eq h, ha])
  rw [e]
  refine ⟨⟨fun k hk => ?_, ?_, ?_⟩, sameMemory_trans (sameMemory_arrive _ _) (sameMemory_modMe _ _), arrival_arrive h _ false⟩
  · rw [ctx_retire_ne _ _ (by rwa [arrive_cur]), arrive_ctx]
  · rw [me_retire, arrive_me]; rfl
  · rw [me_retire, arrive_me]; rfl

theorem arrivedCount_eq (jb : Job) (g : Nat) :
    jb.arrivedCount g = ((jb.members g).filter fun x => x ∈ jb.exited ∨ jb.arrivedNow g x = true).length := by
  simp [Job.arrivedCount]

/-- A second arrival, or one at a group that is not the context's, is refused (R89). -/
theorem refuses_of {g : Nat} (h : Table.find s.jobs s.myJobNo = some jb) (hn : ¬ (g ≤ 255 ∧ gsetHas s.me.gset g = true) ∨ jb.arrivedNow g s.me.thidx = true) :
    (s.groupBad g || s.myJob.arrivedNow g s.me.thidx) = true := by
  rw [← groupBad_eq_false_iff] at hn
  rw [myJob_eq h]
  simpa using hn
end

/-- Settles O27: what a group form does follows from whether the group is the context's and whether its thread has arrived. -/
theorem groupFormsArriveAndWait : Obligations.GroupFormsArriveAndWait := by
  intro s d a jb g th hj mine here arrived
  have bad : s.groupBad g = false ↔ mine := groupBad_eq_false_iff
  have notHere (h : ¬ here) : jb.arrivedNow g th = false := Bool.eq_false_iff.mpr h
  refine ⟨fun hm hh => ⟨⟨_, rfl, gbar_waits hj (bad.mpr hm) (notHere hh)⟩, fun hp => ⟨_, ?ply, gbar_waits hj (bad.mpr hm) (notHere hh)⟩,
    ⟨_, rfl, garr_goesOn hj (bad.mpr hm) (notHere hh)⟩, ?gwait⟩, fun hm hh => ?parks, fun hg => ?gqry, fun hs hn => ⟨?gbar, ?garr, ?plyTraps⟩,
    fun hs hn => ?gwaitTraps, fun hs hg => ?gqryTraps⟩
  case ply => simp only [exec, execPly, hp, Bool.false_eq_true, if_false]
  case gwait =>
    have e : s.gwait a = s.retire id := (if_neg (by simp [g, bad.mpr hm])).trans (gwaitAt_notArrived (by rw [myJob_eq hj]; exact notHere hh))
    exact goesTo_retire (congrArg _ e)
  case parks =>
    have e : s.gwait a = s.gwaitAt g := if_neg (by simp [g, bad.mpr hm])
    exact ⟨_, rfl, by rw [e]; exact waits_gwaitAt (by rw [myJob_eq hj]; exact hh)⟩
  case gqry =>
    have e : s.gqry d a = s.setG d (BitVec.ofNat 64 (boolN (jb.arrivedNow g th) * 2 ^ 63 + jb.arrivedCount g * 2 ^ 32 + jb.ph g % 2 ^ 32)) :=
      (if_neg (Nat.not_lt.mpr hg)).trans (by rw [myJob_eq hj])
    rw [← arrivedCount_eq]
    exact gives_setG (congrArg _ e)
  case gbar => exact traps_trap hs (congrArg _ (if_pos (refuses_of hj hn)))
  case garr => exact traps_trap hs (congrArg _ (if_pos (refuses_of hj hn)))
  case plyTraps =>
    have e : (if s.me.pairtask then s.trap cILLEGAL 0 else s.gbar a true) = s.trap cILLEGAL 0 := by
      split
      · rfl
      · exact if_pos (refuses_of hj hn)
    exact traps_trap hs (congrArg _ e)
  case gwaitTraps => exact traps_trap hs (congrArg _ (if_pos (by simpa [g] using mt bad.mp hn)))
  case gqryTraps => exact traps_trap hs (congrArg _ (if_pos hg))

end Sys2Proof.Laws
end

section
/-!
PROOFS. SRD and SWR (R92 to R102): the registers by their numbers, what needs supervisor level, and the values that set no reserved bit.
-/
namespace Sys2Proof.Laws
open Sys2Proof Sys2Proof.Machine Sys2Proof.Claims

/-! ### SRD -/

section
variable {s : State} {d : Reg} {sr : BitVec 8} {v : Word}

/-- A register that a thread of any level reads. -/
theorem gives_srd (n : Nat) (hv : s.readSr n = some v) (hn : srReadSup n = false ∨ s.me.supv = true) (h : sr.toNat = n) : Gives (.srd d sr) s d v := by
  have e : s.srd d n = s.setG d v := by
    unfold State.srd
    rw [hv]
    exact if_neg (by rcases hn with hn | hn <;> simp [hn])
  exact gives_setG (congrArg _ ((congrArg (s.srd d) h).trans e))

theorem srd_needsSupervisor (h : srReadSup sr.toNat = true) (hv : s.readSr sr.toNat = some v) (hs : s.me.supv = false) : s.srd d sr.toNat = s.trap cPRIV 0 := by
  unfold State.srd
  rw [hv]
  exact if_pos (by simp [h, hs])

/-- No register stands above 0x11. -/
theorem readSr_eq_none {n : Nat} (h : 0x11 < n) : s.readSr n = none := by
  unfold State.readSr
  split
  case h_19 => rfl
  all_goals exact absurd h (by decide)

theorem specialRegistersRead : SpecialRegistersRead := by
  intro s d sr c jb sp go
  have user (n : Nat) (v : Word) (hv : s.readSr n = some v) (hn : srReadSup n = false) : go n v := gives_srd n hv (.inl hn)
  refine ⟨user _ _ rfl rfl, user _ _ rfl rfl, user _ _ rfl rfl, user _ _ rfl rfl, user _ _ rfl rfl, user _ _ rfl rfl, user _ _ rfl rfl, user _ _ rfl rfl,
    user _ _ rfl rfl, user _ _ rfl rfl, user _ _ rfl rfl, user _ _ rfl rfl, user _ _ rfl rfl, user _ _ rfl rfl, user _ _ rfl rfl, user _ _ rfl rfl,
    fun h => ⟨gives_srd _ rfl (.inr h), gives_srd _ rfl (.inr h)⟩, fun hh hn hs => ?_, fun hh hn => ?_⟩
  · rcases hn with hn | hn
    · exact traps_trap hh (congrArg _ (srd_needsSupervisor (by rw [hn]; rfl) (by rw [hn]; rfl) hs))
    · exact traps_trap hh (congrArg _ (srd_needsSupervisor (by rw [hn]; rfl) (by rw [hn]; rfl) hs))
  · have e : s.srd d sr.toNat = s.trap cILLEGAL 0 := by rw [State.srd, readSr_eq_none hn]
    exact traps_trap hh (congrArg _ e)
end

/-! ### The values that set no reserved bit (R96, R97, R101, R102, R266, R332) -/

section
variable {x : Nat}

theorem div_two_pow_eq_zero_iff {n : Nat} : x / 2 ^ n = 0 ↔ x < 2 ^ n := by
  rw [Nat.div_eq_zero_iff]
  exact or_iff_right (Nat.two_pow_pos n).ne'

theorem cprofBad_eq_false_iff : cprofBad x = false ↔ x < 2 ^ 22 ∧ x / 2 ^ 9 % 2 ^ 7 = 0 ∧ x / 4 % 4 ≠ 3 ∧ x / 32 % 4 ≠ 3 := by
  simp only [cprofBad, cpDEN, cpNANMM, bitsOf_eq, Bool.or_eq_false_iff, bne_eq_false_iff_eq, beq_eq_false_iff_ne, div_two_pow_eq_zero_iff, and_assoc]
  exact Iff.rfl

theorem srBad_fstat : srBad 0x07 x = false ↔ x < 2 ^ 7 := bne_eq_false_iff_eq.trans div_two_pow_eq_zero_iff
theorem srBad_actid : srBad 0x0C x = false ↔ x < 2 ^ 32 := bne_eq_false_iff_eq.trans div_two_pow_eq_zero_iff
theorem srBad_plyg : srBad 0x0E x = false ↔ x < 2 ^ 8 := bne_eq_false_iff_eq.trans div_two_pow_eq_zero_iff
theorem srBad_lprog : srBad 0x0B x = false ↔ x / 2 ^ 48 % 2 ^ 15 = 0 := by rw [← bitsOf_eq x 62 48]; exact bne_eq_false_iff_eq
theorem srBad_winsel : srBad 0x11 x = false ↔ x / 2 ^ 18 % 2 ^ 45 = 0 := by rw [← bitsOf_eq x 62 18]; exact bne_eq_false_iff_eq

theorem srBad_trapv (hx : x < 2 ^ 64) : srBad 0x0F x = false ↔ x < 2 ^ 52 ∧ x % 2 ^ 16 = 0 := by
  have e : srBad 0x0F x = (bitsOf x 63 52 != 0 || bitsOf x 15 0 != 0) := rfl
  rw [e, Bool.or_eq_false_iff, bne_eq_false_iff_eq, bne_eq_false_iff_eq, bitsOf_eq, bitsOf_eq]
  omega

theorem srBad_cpinj (hx : x < 2 ^ 64) : srBad 0x10 x = false ↔ x / 2 ^ 48 % 2 ^ 15 = 0 ∧ (x / 2 ^ 63 = 0 ∨ x / 2 ^ 32 % 2 ^ 16 ≠ 0) := by
  have e : srBad 0x10 x = (bitsOf x 62 48 != 0 || (bitsOf x 63 63 == 1 && bitsOf x 47 32 == 0)) := rfl
  rw [e, Bool.or_eq_false_iff, bne_eq_false_iff_eq, Bool.and_eq_false_iff, beq_eq_false_iff_ne, beq_eq_false_iff_ne, bitsOf_eq, bitsOf_eq, bitsOf_eq]
  omega
end

/-! ### SWR -/

section
variable {s : State} {c : Reg} {sr : BitVec 8}

/-- A writable register: the level comes before the value (R92). -/
theorem swr_cases (n : Nat) (hw : n ≤ 0x11 ∧ srReadOnly n = false) {may ok : Prop} {f : Context → Context} (hmay : may ↔ (s.myJob.srWriteSup n && !s.me.supv) = false)
    (hok : ok ↔ srBad n (s.me.reg c).toNat = false) (hf : ∀ x : Context, x.writeSr n (s.me.reg c) = f x) (hu : (f s.me).unit = s.me.unit) (h : sr.toNat = n) :
    (may → ok → Becomes (.swr sr c) s f) ∧ (s.Handled → ¬ may → Traps (.swr sr c) s cPRIV 0) ∧
      (s.Handled → may → ¬ ok → Traps (.swr sr c) s cILLEGAL 0) := by
  have hne : ¬ ((decide (0x11 < n) || srReadOnly n) = true) := by simp [hw]
  have e : s.swr n (s.me.reg c) = if s.myJob.srWriteSup n && !s.me.supv then s.trap cPRIV 0 else
      if srBad n (s.me.reg c).toNat then s.trap cILLEGAL 0 else s.retire f := by
    rw [State.swr, if_neg hne, show (fun x : Context => x.writeSr n (s.me.reg c)) = f from funext hf]
  have ex : exec (.swr sr c) s = .next (s.swr n (s.me.reg c)) := by rw [← h]; rfl
  rw [e] at ex
  refine ⟨fun hm ho => becomes_retire ?_ hu, fun hh hm => traps_trap hh ?_, fun hh hm ho => traps_trap hh ?_⟩
  · rw [ex, hmay.mp hm, hok.mp ho]; rfl
  · rw [ex, if_pos (by simpa using mt hmay.mpr hm)]
  · rw [ex, hmay.mp hm, if_neg (by decide), if_pos (by simpa using mt hok.mpr ho)]

theorem swr_readOnly (h : sr.toNat ∈ [0x00, 0x01, 0x02, 0x03, 0x04, 0x05, 0x08, 0x09, 0x0A, 0x0D] ∨ 0x11 < sr.toNat) (v : Word) :
    s.swr sr.toNat v = s.trap cILLEGAL 0 := by
  refine if_pos ?_
  rcases h with h | h
  · simp [srReadOnly, h]
  · simp [h]

theorem specialRegistersWrite : SpecialRegistersWrite := by
  intro s c sr v x i sup go
  have hx : x < 2 ^ 64 := v.isLt
  have all : True ↔ (false && !s.me.supv) = false := by simp
  have sups : sup ↔ (true && !s.me.supv) = false := by simp [sup]
  refine ⟨swr_cases 0x06 ⟨by decide, rfl⟩ all ?cprof (fun _ => rfl) rfl, swr_cases 0x07 ⟨by decide, rfl⟩ all ?fstat (fun _ => rfl) rfl,
    swr_cases 0x0B ⟨by decide, rfl⟩ sups ?lprog (fun _ => rfl) rfl, swr_cases 0x0C ⟨by decide, rfl⟩ all ?actid (fun _ => rfl) rfl,
    swr_cases 0x0E ⟨by decide, rfl⟩ ?plies ?plyg (fun _ => rfl) rfl, swr_cases 0x0F ⟨by decide, rfl⟩ sups ?trapv (fun _ => rfl) rfl,
    swr_cases 0x10 ⟨by decide, rfl⟩ ?debug ?cpinj (fun _ => rfl) rfl, swr_cases 0x11 ⟨by decide, rfl⟩ sups ?winsel (fun _ => rfl) rfl,
    fun hh hn => traps_trap hh (congrArg _ (swr_readOnly hn _))⟩
  case cprof => exact cprofBad_eq_false_iff.symm
  case fstat => exact srBad_fstat.symm
  case lprog => exact srBad_lprog.symm
  case actid => exact srBad_actid.symm
  case plyg => exact srBad_plyg.symm
  case trapv => exact (srBad_trapv hx).symm
  case cpinj => exact (srBad_cpinj hx).symm
  case winsel => exact srBad_winsel.symm
  case plies =>
    have e : s.myJob.srWriteSup 0x0E = decide (0 < s.myJob.pliesDone) := Bool.or_false _
    rw [e]
    simp [sup, Nat.pos_iff_ne_zero, or_iff_not_imp_left]
  case debug =>
    have e : s.myJob.srWriteSup 0x10 = !s.myJob.debug := rfl
    rw [e]
    simp [sup, or_iff_not_imp_left]
end

/-- Settles O28: each number by its own row. -/
theorem specialRegistersReadAndWrite : Obligations.SpecialRegistersReadAndWrite := ⟨specialRegistersRead, specialRegistersWrite⟩

end Sys2Proof.Laws
end

section
/-!
PROOFS. TRAP, BRK, IDLE, reserved encodings, fetch faults and the words before an instruction (R60 to R64, R103).
-/
namespace Sys2Proof.Laws
open Sys2Proof Sys2Proof.Machine Sys2Proof.Claims

/-! ### The stop tree (BRK in a debug launch) -/

/-- A spindle as the stop tree halts it: its counters are recorded. -/
def haltedAs (t : State) (j sp : Nat) (p : Spindle) : Spindle :=
  { p with halted := true, haltCycle := t.now, stopSent := p.sent, stopRcvd := p.rcvd, stopJob := (t.job j).serial % 2 ^ 32, stopChans := t.stopEntries j sp }

/-- The halting of some spindles, the fenced ones left alone. -/
def haltAll (t : State) (j : Nat) (l : List Nat) (u : State) : State :=
  l.foldl (fun u sp => if (t.spindle sp).fenced then u else u.modSp sp (haltedAs t j sp)) u

theorem haltAll_cons (t : State) (j sp : Nat) (l : List Nat) (u : State) :
    haltAll t j (sp :: l) u = haltAll t j l (if (t.spindle sp).fenced then u else u.modSp sp (haltedAs t j sp)) := rfl

/-- Nothing but spindles differs. -/
theorem haltAll_eq (t : State) (j : Nat) (l : List Nat) (u : State) : ∃ x, haltAll t j l u = { u with spindles := x } := by
  induction l generalizing u with
  | nil => exact ⟨u.spindles, rfl⟩
  | cons sp l ih =>
    rw [haltAll_cons]
    split
    · exact ih u
    · obtain ⟨x, e⟩ := ih (u.modSp sp (haltedAs t j sp))
      exact ⟨x, e⟩

/-- A halted spindle stays halted. -/
theorem haltAll_keeps (t : State) (j : Nat) (l : List Nat) {u : State} {sp : Nat} (h : (u.spindle sp).halted = true) : ((haltAll t j l u).spindle sp).halted = true := by
  induction l generalizing u with
  | nil => exact h
  | cons n l ih =>
    rw [haltAll_cons]
    refine ih ?_
    split
    · exact h
    · by_cases e : sp = n
      · subst e; rw [spindle_modSp_same]; rfl
      · rwa [spindle_modSp_ne u _ e]

theorem haltAll_halts (t : State) (j : Nat) {l : List Nat} (u : State) {sp : Nat} (hm : sp ∈ l) (hf : (t.spindle sp).fenced = false) :
    ((haltAll t j l u).spindle sp).halted = true := by
  induction l generalizing u with
  | nil => cases hm
  | cons n l ih =>
    rw [haltAll_cons]
    rcases List.mem_cons.mp hm with rfl | hm
    · refine haltAll_keeps t j l ?_
      rw [hf, if_neg (by decide), spindle_modSp_same]; rfl
    · exact ih _ hm

theorem haltJob_running {t : State} {j : Nat} (hp : (t.job j).phase = .running) (hs : (t.job j).stopped = false) :
    t.haltJob j = haltAll t j (t.job j).rect.spindles (t.modJob j fun jb => { jb with stopped := true }) := by
  rw [State.haltJob, hp, if_neg (by decide), hs]
  rfl

/-- A trap record is as it was where no context, message or memory differs. -/
theorem trappedAs_of_same {s t u : State} {r : TrapInfo} (h : TrappedAs s t r) (hc : u.ctxs = t.ctxs) (hcur : u.cur = t.cur) (hm : u.msgs = t.msgs)
    (hb : u.mem = t.mem) (hf : u.fe = t.fe) : TrappedAs s u r := by
  have hctx (k : Nat) : u.ctx k = t.ctx k := by rw [State.ctx, hc]; rfl
  have hme : u.me = t.me := by rw [State.me, hcur, hctx]; rfl
  exact {
    state := hme ▸ h.state
    pc := hme ▸ h.pc
    record := hme ▸ h.record
    regs := hme ▸ h.regs
    vregs := hme ▸ h.vregs
    fstat := hme ▸ h.fstat
    sent := hm ▸ h.sent
    contexts k hk := (hctx k).trans (h.contexts k hk)
    bytes a := by rw [State.byte, hb]; exact h.bytes a
    full := hf.trans h.full }

/-- A trap that has a handler changes the executing context, and sends a record: jobs and fences stand as they were. -/
theorem takeTrap_frame {s : State} {r : TrapInfo} (h : s.Handled) (hd : r.defer = false) :
    (∀ j, (s.takeTrap s.cur r).job j = s.job j) ∧ ∀ n, ((s.takeTrap s.cur r).spindle n).fenced = (s.spindle n).fenced := by
  obtain ⟨hc, hb⟩ := h
  rw [takeTrap_eq s r hc hd]
  generalize frozenBy { r with thidx := s.me.thidx } = f
  obtain ⟨b, second, -, e⟩ := deliverRecord_sends (({ s with midUnit := false } : State).modCtx s.cur f) s.myJobNo s.here s.cur
    (trapWords s.cur { r with thidx := s.me.thidx } r.cause) { r with thidx := s.me.thidx } (by rw [takesRecord_modCtx, takesRecord_modCtx]; exact hb)
  rw [e]
  exact ⟨(onlyMessages_send _ _).job, (onlyMessages_send _ _).fenced⟩

theorem brk_debug {s : State} {n : BitVec 8} (hh : s.Handled) (hdbg : s.myJob.debug = true) (hp : s.myJob.phase = .running) (hst : s.myJob.stopped = false) :
    ∃ t, exec (.brk n) s = .next t ∧ Trapped s t cBREAK 0 ∧
      ∀ sp ∈ s.myJob.rect.spindles, (s.spindle sp).fenced = false → (t.spindle sp).halted = true := by
  have e : s.brk = (s.trap cBREAK 0).haltJob s.myJobNo := if_pos hdbg
  obtain ⟨hjob, hfence⟩ := takeTrap_frame (r := s.me.unit.info cBREAK 0) hh rfl
  have hj : (s.trap cBREAK 0).job s.myJobNo = s.myJob := hjob _
  rw [haltJob_running (by rw [hj, hp]) (by rw [hj, hst]), hj] at e
  refine ⟨_, congrArg Host.Outcome.next e, ?_, fun sp hsp hf => haltAll_halts _ _ _ hsp ((hfence sp).trans hf)⟩
  obtain ⟨x, ex⟩ := haltAll_eq (s.trap cBREAK 0) s.myJobNo s.myJob.rect.spindles ((s.trap cBREAK 0).modJob s.myJobNo fun jb => { jb with stopped := true })
  rw [ex]
  exact trappedAs_of_same (trapped_trap s cBREAK 0 hh) (modJob_ctxs ..) (modJob_cur ..) (modJob_msgs ..) (modJob_mem ..) (modJob_fe ..)

theorem softwareTrapsFreezeTheirThread : SoftwareTrapsFreezeTheirThread := by
  intro s n b va hh
  refine ⟨traps_trap hh rfl, fun h => traps_trap hh (congrArg _ (if_neg (by simp [h]))), brk_debug hh, fun h => goesTo_retire (congrArg _ (if_neg (by simpa using h))),
    fun h => ⟨_, rfl, ?_⟩, traps_trap hh rfl, _, rfl, trappedAs_takeTrap s _ hh rfl rfl⟩
  rw [h]
  exact waits_parkOn s 3 _

theorem prefixWordsMarkTheUnit : PrefixWordsMarkTheUnit := by
  intro s o goes
  have marks (f : UnitRec → UnitRec) : (s.prefixWord f).midUnit = true ∧ (s.prefixWord f).me = { s.me with unit := f s.me.unit } ∧
      (∀ k, k ≠ s.cur → (s.prefixWord f).ctx k = s.ctx k) ∧ SameMemory s (s.prefixWord f) :=
    ⟨rfl, me_modMe s fun c => { c with unit := f c.unit }, fun _ hk => ctx_modMe_ne s (fun c => { c with unit := f c.unit }) hk, sameMemory_of_eq rfl rfl rfl⟩
  exact ⟨⟨_, rfl, marks _⟩, ⟨_, rfl, marks _⟩⟩

/-- Settles O33: each form traps, waits or marks its unit. -/
theorem softwareTrapsAndReservedUnits : Obligations.SoftwareTrapsAndReservedUnits := ⟨softwareTrapsFreezeTheirThread, prefixWordsMarkTheUnit⟩

end Sys2Proof.Laws
end

section
/-!
SUPPORT. Floating formats: their parameters, the low bits that a code is read from, and codes put together from a sign and a magnitude (R205).
-/
namespace Sys2Proof.Laws
open Sys2Proof Sys2Proof.Machine Sys2Proof.Claims

/-- A format of IEEE 754 with a sign and a mantissa field. -/
def IsIeee (f : Fmt) : Prop := f = fp16 ∨ f = bf16 ∨ f = fp32 ∨ f = fp64

section
variable {f : Fmt}

/-! ### Codes are read from their low bits -/

theorem decode_mod (x : Nat) : f.decode (x % 2 ^ f.bits) = f.decode x := by
  simp only [Fmt.decode, Nat.mod_mod]

theorem isSub_mod (x : Nat) : f.isSub (x % 2 ^ f.bits) = f.isSub x := by
  have h : x % 2 ^ f.bits % 2 ^ (f.eb + f.mb) = x % 2 ^ (f.eb + f.mb) := Nat.mod_mod_of_dvd _ (Nat.pow_dvd_pow 2 (Nat.le_succ _))
  simp only [Fmt.isSub, h]

theorem flushIn_mod (cp x : Nat) : flushIn cp f (x % 2 ^ f.bits) = flushIn cp f x := by
  simp only [flushIn, isSub_mod, decode_mod, Nat.mod_mod]

theorem fpArith_mod (op : FpOp) (cp : Nat) (rm : Rnd) (x y z : Nat) :
    fpArith op f cp rm (x % 2 ^ f.bits) (y % 2 ^ f.bits) (z % 2 ^ f.bits) = fpArith op f cp rm x y z := by
  cases op <;> simp only [fpArith, flushIn_mod, decode_mod, denEvent, List.any_cons, List.any_nil, isSub_mod, List.map_cons, List.map_nil] <;> rfl

theorem fpMinMax_mod (cp : Nat) (mx mag : Bool) (x y : Nat) : fpMinMax f cp mx mag (x % 2 ^ f.bits) (y % 2 ^ f.bits) = fpMinMax f cp mx mag x y := by
  simp only [fpMinMax, flushIn_mod, denEvent, List.any_cons, List.any_nil, isSub_mod]
  rfl

theorem fpCmp_mod (r : FpRel) (cp x y : Nat) : fpCmp r f cp (x % 2 ^ f.bits) (y % 2 ^ f.bits) = fpCmp r f cp x y := by
  simp only [fpCmp, flushIn_mod, denEvent, List.any_cons, List.any_nil, isSub_mod]
  rfl

/-! ### Results fit their format -/

theorem withSign_lt (n : Bool) {mag : Nat} (h : mag < 2 ^ (f.eb + f.mb)) : f.withSign n mag < 2 ^ f.bits := by
  rw [Fmt.withSign, Fmt.bits, Nat.pow_succ]
  split <;> omega

/-- Of a format the magnitude codes that matter (R205). -/
theorem ieee_codes (hf : IsIeee f) : f.special = 0 ∧ 1 < f.mb ∧ 1 < f.eb ∧ f.maxFin + 1 = f.infCode ∧
    f.infCode + 2 ^ (f.mb - 1) = f.nan ∧ f.infCode + 2 ^ f.mb = 2 ^ (f.eb + f.mb) := by
  rcases hf with rfl | rfl | rfl | rfl <;> decide

theorem infCode_lt (hf : IsIeee f) : f.infCode < 2 ^ (f.eb + f.mb) := by
  have := Nat.two_pow_pos f.mb
  obtain ⟨-, -, -, -, -, h⟩ := ieee_codes hf
  omega

theorem nan_lt (hf : IsIeee f) : f.nan < 2 ^ (f.eb + f.mb) := by
  obtain ⟨-, hm, -, -, hn, h⟩ := ieee_codes hf
  have : 2 ^ (f.mb - 1) < 2 ^ f.mb := Nat.pow_lt_pow_right (by decide) (by omega)
  omega

theorem round_lt (hf : IsIeee f) (rm : Rnd) (v : Fl) : (f.round rm v).1 < 2 ^ f.bits := by
  have hi := infCode_lt hf
  obtain ⟨hs, -, -, hmax, -, -⟩ := ieee_codes hf
  have h0 : (0 : Nat) < 2 ^ (f.eb + f.mb) := Nat.two_pow_pos _
  unfold Fmt.round
  split
  case h_1 => exact lt_trans (nan_lt hf) (Nat.pow_lt_pow_right (by decide) (Nat.lt_succ_self _))
  case h_2 => rw [hs]; exact withSign_lt _ hi
  case h_3 =>
    split
    · exact withSign_lt _ h0
    · dsimp only
      generalize (if _ < 2 ^ f.mb then _ else _ : Nat) = mag
      split
      · exact withSign_lt _ (by split_ifs <;> omega)
      · exact withSign_lt _ (by omega)

theorem flushOut_lt (cp : Nat) {r : Nat × Nat} (h : r.1 < 2 ^ f.bits) : (flushOut cp f r).1 < 2 ^ f.bits := by
  unfold flushOut
  split
  · exact withSign_lt _ (Nat.two_pow_pos _)
  · exact h

theorem fpArith_lt (hf : IsIeee f) (op : FpOp) (cp : Nat) (rm : Rnd) (x y z : Nat) : (fpArith op f cp rm x y z).bits < 2 ^ f.bits :=
  flushOut_lt cp (round_lt hf rm _)

theorem fopFmt_ieee (dbl : Bool) : IsIeee (fopFmt dbl) := by
  cases dbl
  · exact .inr (.inr (.inl rfl))
  · exact .inr (.inr (.inr rfl))
end

end Sys2Proof.Laws
end

section
/-!
PROOFS. The scalar floating forms (R77 to R82) write their result and join their flags, or trap COMPAT for the lowest enabled event (R79).
-/
namespace Sys2Proof.Laws
open Sys2Proof Sys2Proof.Machine Sys2Proof.Claims

/-! ### Enabled events -/

section
variable {s : State} {r : FpRes}

/-- The events of a result that CPROF.TRAPMASK enables. -/
theorem testBit_enabled {b : Nat} (h : 16 ≤ b ∧ b ≤ 20) :
    ((r.events &&& cpMask s.me.cprof.toNat) / 2 ^ b % 2 == 1) = true ↔ Raises s r b := by
  have hmask : Nat.testBit 0x1F0000 b = true := by
    obtain ⟨h1, h2⟩ := h
    interval_cases b <;> rfl
  rw [beq_eq_decide, ← Nat.testBit_eq_decide_div_mod_eq, cpMask, Nat.testBit_and, Nat.testBit_and, hmask, Bool.and_true, Bool.and_eq_true]
  exact Iff.rfl

theorem mem_eventBits {b : Nat} : b ∈ [16, 17, 18, 19, 20] ↔ 16 ≤ b ∧ b ≤ 20 := by
  simp only [List.mem_cons, List.not_mem_nil, or_false]; omega

theorem lowestEvent_eq_none (h : ∀ b, 16 ≤ b → b ≤ 20 → ¬ Raises s r b) : lowestEvent (r.events &&& cpMask s.me.cprof.toNat) = none := by
  refine List.find?_eq_none.mpr fun b hb => ?_
  have hb' := mem_eventBits.mp hb
  rw [testBit_enabled hb']
  exact h b hb'.1 hb'.2

theorem lowestEvent_eq_some {b : Nat} (h1 : 16 ≤ b) (h2 : b ≤ 20) (hb : Raises s r b) (low : ∀ e, 16 ≤ e → e < b → ¬ Raises s r e) :
    lowestEvent (r.events &&& cpMask s.me.cprof.toNat) = some b := by
  refine find_natsFrom (lo := 16) (n := 5) h1 (by omega) ((testBit_enabled ⟨h1, h2⟩).mpr hb) fun e he hlt => ?_
  rw [← Bool.not_eq_true, testBit_enabled ⟨he, by omega⟩]
  exact low e he hlt

/-- What a floating form does with its result (R79). -/
theorem floatGives_fopWrite {i : Instr} {d : Reg} {v : Word} (e : exec i s = .next (s.fopWrite d r v)) : FloatGives i s d r v := by
  unfold State.fopWrite at e
  refine ⟨fun h => ?_, fun b h1 h2 hb low hh => ?_⟩
  · rw [lowestEvent_eq_none h] at e
    exact ⟨_, e, wroteFlags_retire s d v r.flags⟩
  · rw [lowestEvent_eq_some h1 h2 hb low] at e
    exact ⟨_, e, trappedAs_takeTrap s _ hh rfl rfl⟩
end

theorem floatArithmeticWritesOrTrapsCompat : FloatArithmeticWritesOrTrapsCompat := by
  intro s d a b dbl rf _ f cp rm x y z go
  have hf : IsIeee f := fopFmt_ieee dbl
  have arith (i : Instr) (op : FpOp) (e : exec i s = .next (s.fopArith op d a b dbl rf)) : go i (fpArith op f cp rm x y z) := by
    refine ⟨floatGives_fopWrite ?_, fpArith_lt hf ..⟩
    rw [e, fpArith_mod]; rfl
  refine ⟨arith _ _ rfl, arith _ _ rfl, arith _ _ rfl, arith _ _ rfl, arith _ _ rfl, floatGives_fopWrite ?_, fpArith_lt hf ..⟩
  rw [fpArith_mod]; rfl

theorem xor_two_pow {k x : Nat} (h : x < 2 ^ (k + 1)) : x ^^^ 2 ^ k = if x < 2 ^ k then x + 2 ^ k else x - 2 ^ k := by
  have hp := Nat.two_pow_pos k
  have hd : (x ^^^ 2 ^ k) / 2 ^ k = (x / 2 ^ k) ^^^ 1 := by rw [Nat.xor_div_two_pow, Nat.div_self hp]
  have hm : (x ^^^ 2 ^ k) % 2 ^ k = x % 2 ^ k := by rw [Nat.xor_mod_two_pow, Nat.mod_self, Nat.xor_zero]
  rw [← Nat.div_add_mod (x ^^^ 2 ^ k) (2 ^ k), hd, hm]
  split
  case isTrue hx => rw [Nat.div_eq_of_lt hx, Nat.mod_eq_of_lt hx]; simp [Nat.add_comm]
  case isFalse hx =>
    have h1 : x / 2 ^ k = 1 := Nat.div_eq_of_lt_le (by omega) (by rw [Nat.pow_succ] at h; omega)
    rw [h1, Nat.mod_eq_sub_mul_div, h1]; simp

theorem xor_signBit (dbl : Bool) (n : Nat) : let f := fopFmt dbl; let x := n % 2 ^ f.bits
    n % (2 * signBit dbl) ^^^ signBit dbl = if x < 2 ^ (f.bits - 1) then x + 2 ^ (f.bits - 1) else x - 2 ^ (f.bits - 1) := by
  cases dbl
  · exact xor_two_pow (k := 31) (x := n % 2 ^ 32) (Nat.mod_lt _ (by decide))
  · exact xor_two_pow (k := 63) (x := n % 2 ^ 64) (Nat.mod_lt _ (by decide))

theorem floatSelectionAndComparison : FloatSelectionAndComparison := by
  intro s d a b dbl f cp x y go
  have sel (i : Instr) (mx mag : Bool) (e : exec i s = .next (s.fop d a b fun cp x y => fpMinMax (fopFmt dbl) cp mx mag x y)) :
      go i (fpMinMax f cp mx mag x y) := floatGives_fopWrite (by rw [e, fpMinMax_mod]; rfl)
  have cmp (i : Instr) (r : FpRel) (e : exec i s = .next (s.fop d a b fun cp x y => fpCmp r (fopFmt dbl) cp x y)) :
      go i (fpCmp r f cp x y) := floatGives_fopWrite (by rw [e, fpCmp_mod]; rfl)
  refine ⟨sel _ _ _ rfl, sel _ _ _ rfl, sel _ _ _ rfl, sel _ _ _ rfl, cmp _ _ rfl, cmp _ _ rfl, cmp _ _ rfl, cmp _ _ rfl, gives_setG ?_, gives_setG ?_⟩
  · show exec (.fabs d a dbl) s = .next (s.setG d (BitVec.ofNat 64 (x % 2 ^ (f.bits - 1))))
    rw [Nat.mod_mod_of_dvd _ (Nat.pow_dvd_pow 2 (Nat.sub_le _ _))]
    cases dbl <;> rfl
  · show (.next (s.setG d (BitVec.ofNat 64 ((s.me.reg a).toNat % (2 * signBit dbl) ^^^ signBit dbl))) : Out) = _
    rw [xor_signBit]

/-- R77, R82: the rounding mode that a conversion's field tells. -/
theorem convRM_eq (cp : Nat) {cf : BitVec 4} (h : convFieldOk cf = true) :
    convRM cp cf = if cf.toNat = 4 then 2 else if cf.toNat = 8 then 3 else effRM cp cf.toNat := by
  have hs : ∀ cf : BitVec 4, convFieldOk cf = true → cf = 0 ∨ cf = 1 ∨ cf = 2 ∨ cf = 4 ∨ cf = 8 := by decide
  rcases hs cf h with rfl | rfl | rfl | rfl | rfl <;> rfl

/-- The 32-bit pattern in its register, sign-extended. -/
theorem ofInt_signExt (n : Nat) : BitVec.ofInt 64 (signExt n 32) = (BitVec.ofNat 32 n).signExtend 64 := by
  rw [signExt_eq]; rfl

theorem signExt_toNat (w : Word) : signExt w.toNat 64 = w.toInt := by
  rw [signExt_eq, BitVec.ofNat_toNat, BitVec.setWidth_eq]

theorem conversionsWriteOrTrapCompat : ConversionsWriteOrTrapCompat := by
  intro s d a k cf dbl _ hcf cp x rm frm raw
  have cvt {r : FpRes} {v : Word} (h : fcvt k.toNat cp rm x = (r, v)) : FloatGives (.fcvt d a k cf) s d r v := by
    refine floatGives_fopWrite ?_
    show (.next (s.fopWrite d (fcvt k.toNat cp (convRM cp cf) x).1 (fcvt k.toNat cp (convRM cp cf) x).2) : Out) = _
    rw [convRM_eq cp hcf, h]
  refine ⟨?_, ?_, ?_, ?_, ?_, ?_, ?_, ?_, floatGives_fopWrite ?_⟩
  · rintro rfl; exact cvt rfl
  · rintro rfl; exact cvt rfl
  · rintro (rfl | rfl) <;> exact cvt rfl
  · rintro (rfl | rfl) <;> exact cvt rfl
  · rintro (rfl | rfl) <;> exact cvt (by rw [← ofInt_signExt]; rfl)
  · rintro (rfl | rfl) <;> exact cvt rfl
  · rintro (rfl | rfl) <;> exact cvt (by rw [← signExt_toNat]; rfl)
  · rintro (rfl | rfl) <;> exact cvt rfl
  · show (.next (s.fopWrite d (fpRnd (fopFmt dbl) cp (convRM cp cf) x) (BitVec.ofNat 64 (fpRnd (fopFmt dbl) cp (convRM cp cf) x).bits)) : Out) = _
    rw [convRM_eq cp hcf]

/-- Settles O5: each form through its write. -/
theorem floatFormsWriteOrTrapCompat : Obligations.FloatFormsWriteOrTrapCompat :=
  ⟨floatArithmeticWritesOrTrapsCompat, floatSelectionAndComparison, conversionsWriteOrTrapCompat⟩

end Sys2Proof.Laws
end

section
/-!
PROOFS. CPGO under EMPTY-ON-ISSUE: the engine marks its new command by the id, and a queued command with that id is marked as well (R303).
-/
namespace Sys2Proof.Laws
open Sys2Proof Sys2Proof.Machine Sys2Proof.Config Sys2Proof.Claims

/-- A command whose id is the serial number that engine 0 gives next, as after a whole round of its 26 bits. -/
def oldCmd : CopyCmd := { id := 1, job := 0, key := 0, thidx := 0, stg := { clen := 8 }, cls := 0 }

/-- It is queued in each engine of die 0, and context 1 issues a copy of one word under EMPTY-ON-ISSUE to an address that nothing maps. -/
def reissuing : State :=
  { State.reset with
    ctxs := [(1, { st := .ready, staging := { clen := 8, cmode := 0x104 } })]
    cur := 1
    engines := [(0, { cmds := [oldCmd] }), (1, { cmds := [oldCmd] }), (2, { cmds := [oldCmd] })] }

/-- Its launch leaves the fault of the new command on the old one too. -/
theorem reissuing_marks_oldCmd {t : State} (h : exec (.cpgo 0) reissuing = .next t) :
    (t.engine 0).cmds.head?.map (·.fault) = some (some 0) := by
  cases h
  decide

theorem reissuing_least (k : Nat) (hk : k ∈ dieEngines reissuing.here) :
    (reissuing.engine 0).load ≤ (reissuing.engine k).load ∧ ((reissuing.engine k).load = (reissuing.engine 0).load → 0 ≤ k) := by
  refine ⟨?_, fun _ => Nat.zero_le k⟩
  have h : ∀ k ∈ dieEngines reissuing.here, (reissuing.engine 0).load ≤ (reissuing.engine k).load := by decide
  exact h k hk

/-- Refutes O37: the serial numbers of an engine come round after 2^26 - 1 launches, and a command that is still queued can have the id that a new one
gets. Under EMPTY-ON-ISSUE the launch writes the fault of the new command into every command of that id, so the queue is not the old one with the new
command at its end, as `Launched` says. -/
theorem not_copyForms : ¬ Obligations.CopyForms := by
  intro h
  obtain ⟨-, -, -, go, -⟩ := h reissuing 0 0 0 0 0 oldCmd 0 (by decide)
  obtain ⟨-, here, -⟩ := go (by decide) (by decide) (by decide) fun k hk _ => reissuing_least k hk
  obtain ⟨stops, -⟩ := here (by decide) (by decide) fun _ => 0
  obtain ⟨t, y, ht, launched, -⟩ := stops [] _ rfl (fun va hva => absurd hva (List.not_mem_nil)) (fun va hva => .inl (by
    obtain rfl : (0 : Word) = va := Option.some.inj hva
    decide)) _ (List.mem_cons_self ..)
  have marked := reissuing_marks_oldCmd ht
  rw [launched.queue] at marked
  exact absurd (show some (none : Option Word) = some (some 0) from marked) (by decide)

end Sys2Proof.Laws
end

section
/-!
PROOFS. RESUME by a handler (R104): its refusals, the thaw of its target, the end of the last handlers (R272, R330).
-/
namespace Sys2Proof.Laws
open Sys2Proof Sys2Proof.Machine Sys2Proof.Claims

/-! ### Tables -/

/-- An entry stays where another key is written; of the key itself the entry that a lookup finds is replaced. -/
theorem mem_set_or_found {α : Type} {t : Table α} {k : Nat} {v : α} {e : Nat × α} (h : e ∈ t) : e ∈ Table.set t k v ∨ Table.find t k = some e.2 := by
  induction t with
  | nil => cases h
  | cons x t ih =>
    obtain ⟨j, w⟩ := x
    rcases List.mem_cons.mp h with rfl | h
    · by_cases hj : j = k
      · exact .inr (by rw [Table.find, if_pos hj])
      · exact .inl (mem_set_of_ne List.mem_cons_self hj)
    · simp only [Table.set, Table.find]
      split
      · exact .inl (List.mem_cons_of_mem _ (List.mem_cons_of_mem _ h))
      · split
        · exact .inl (List.mem_cons_of_mem _ h)
        · exact (ih h).imp_left (List.mem_cons_of_mem _)

/-- In a sorted table every other key is larger than the first. -/
theorem lt_of_sorted {α : Type} {j : Nat} {w : α} {t : Table α} (h : Table.sorted ((j, w) :: t) = true) : Table.sorted t = true ∧ ∀ e ∈ t, j < e.1 := by
  induction t generalizing j w with
  | nil => exact ⟨rfl, fun e he => by cases he⟩
  | cons x t ih =>
    obtain ⟨i, y⟩ := x
    simp only [Table.sorted, Bool.and_eq_true, decide_eq_true_eq] at h
    obtain ⟨hji, ht⟩ := h
    refine ⟨ht, fun e he => ?_⟩
    rcases List.mem_cons.mp he with rfl | he
    · exact hji
    · exact lt_trans hji ((ih ht).2 e he)

/-- A sorted table lists a key once, so after a write its entry is the one written. -/
theorem eq_of_mem_set {α : Type} {t : Table α} (ht : Table.sorted t = true) {k : Nat} {v : α} {e : Nat × α} (h : e ∈ Table.set t k v) (hk : e.1 = k) :
    e = (k, v) := by
  induction t with
  | nil => exact List.mem_singleton.mp h
  | cons x t ih =>
    obtain ⟨j, w⟩ := x
    obtain ⟨hs, hlt⟩ := lt_of_sorted ht
    simp only [Table.set] at h
    split at h
    case isTrue hkj =>
      rcases List.mem_cons.mp h with h | h
      · exact h
      · rcases List.mem_cons.mp h with rfl | h
        · exact absurd hk (by simpa using hkj.ne')
        · have := hlt e h; omega
    case isFalse hkj =>
      split at h
      case isTrue hjk =>
        rcases List.mem_cons.mp h with h | h
        · exact h
        · have := hlt e h; omega
      case isFalse hjk =>
        rcases List.mem_cons.mp h with rfl | h
        · exact absurd hk hjk
        · exact ih hs h

theorem find_ctxs_of_state {s : State} {k : Nat} (h : (s.ctx k).st ≠ .free) : Table.find s.ctxs k = some (s.ctx k) := by
  simp only [State.ctx, Table.get] at h ⊢
  cases hf : Table.find s.ctxs k with
  | none => rw [hf] at h; exact absurd rfl h
  | some c => rfl

/-! ### The end of the handlers -/

section
variable {s : State} {j k : Nat}

theorem threadsLeft_setCtx {c : Context} (hc : c.handler = true) (hk : (s.ctx k).handler = true) : (s.setCtx k c).threadsLeft j = s.threadsLeft j := by
  have h : (s.setCtx k c).ctxs.any (fun e => e.2.st != .free && !e.2.handler && (s.spindle (keySp e.1)).job == some j) =
      s.ctxs.any (fun e => e.2.st != .free && !e.2.handler && (s.spindle (keySp e.1)).job == some j) := by
    rw [Bool.eq_iff_iff, List.any_eq_true, List.any_eq_true]
    constructor
    · rintro ⟨e, he, hp⟩
      rcases mem_of_mem_set he with rfl | he
      · simp [hc] at hp
      · exact ⟨e, he, hp⟩
    · rintro ⟨e, he, hp⟩
      rcases mem_set_or_found (k := k) (v := c) he with he' | hf
      · exact ⟨e, he', hp⟩
      · have : e.2.handler = true := by
          rw [← hk, State.ctx, Table.get, hf]; rfl
        simp [this] at hp
  exact congrArg (fun x => x || _ || _) h

/-- Where no thread of the job is left and no handler is frozen, a handler that runs or waits is freed. -/
theorem freeHandlers_frees (hl : s.threadsLeft j = false) (hf : s.handlerFrozen j = false) (hh : (s.ctx k).handler = true)
    (hj : (s.spindle (keySp k)).job = some j) (hst : (s.ctx k).st = .ready ∨ (s.ctx k).st = .parked) : ((s.freeHandlers j).ctx k).st = .free := by
  have e : s.freeHandlers j = { s with ctxs := s.ctxs.map fun e => (e.1, handlerEnds s j e.1 e.2) } := by
    rw [State.freeHandlers, hl, hf]
    refine congrArg (fun l => { s with ctxs := l }) (List.map_congr_left fun e _ => ?_)
    simp only [handlerEnds]
    split <;> rfl
  have hfind : Table.find s.ctxs k = some (s.ctx k) := find_ctxs_of_state (by rcases hst with h | h <;> rw [h] <;> nofun)
  have : (s.freeHandlers j).ctx k = handlerEnds s j k (s.ctx k) := by
    rw [e]
    refine (congrArg (fun o => o.getD {}) (find_mapValues s.ctxs _ k)).trans ?_
    rw [hfind]; rfl
  rw [this, handlerEnds, hh, hj]
  rcases hst with h | h <;> rw [h] <;> simp [freeCtx]
end

/-! ### RESUME -/

section
variable {s : State} {d a : Reg} {m : BitVec 4} {r : TrapInfo}

theorem bitsOf_top (w : Word) : bitsOf w.toNat 63 63 = 1 ↔ w.getLsbD 63 = true := by
  rw [bitsOf_eq, BitVec.getLsbD, Nat.testBit_eq_decide_div_mod_eq, decide_eq_true_iff]; rfl

theorem keySp_winTarget (w : Word) : keySp (winTarget w) = bitsOf w.toNat 17 4 := by
  have : bitsOf w.toNat 3 0 < 16 := Nat.mod_lt _ (by decide)
  rw [winTarget, keySp_keyOf this]

theorem winValid_iff : s.winValid = true ↔ s.me.winsel.getLsbD 63 = true ∧ s.myJob.rect.has (keySp (winTarget s.me.winsel)) = true := by
  rw [State.winValid, Bool.and_eq_true, beq_iff_eq, bitsOf_top]

theorem resume_of_not_winValid (h : s.winValid = false) (x : Word) (mode : Nat) (skip : Word) : s.resume s.me.winsel x mode skip = (1, s) := by
  rw [State.winValid, keySp_winTarget, Bool.and_eq_false_iff] at h
  refine if_pos ?_
  rw [Bool.or_eq_true, decide_eq_true_iff, Bool.not_eq_true']
  refine h.imp_left fun h => ?_
  have h1 : bitsOf s.me.winsel.toNat 63 63 < 2 := Nat.mod_lt _ (by decide)
  have h2 := beq_eq_false_iff_ne.mp h
  omega

section
variable (h : s.winValid = true)
include h

theorem resume_of_not_frozen (hst : (s.ctx (winTarget s.me.winsel)).st ≠ .frozen) (x : Word) (mode : Nat) (skip : Word) :
    s.resume s.me.winsel x mode skip = (2, s) := by
  rw [State.winValid, keySp_winTarget, Bool.and_eq_true, beq_iff_eq] at h
  refine (if_neg ?_).trans (if_pos (bne_iff_ne.mpr hst))
  simp [h]

/-- A frozen context that WINSEL selects. -/
theorem resume_of_frozen (hst : (s.ctx (winTarget s.me.winsel)).st = .frozen) (hf : (s.ctx (winTarget s.me.winsel)).frz = some r) (x : Word) (mode : Nat)
    (skip : Word) : s.resume s.me.winsel x mode skip =
      if mode = 0 && x.toNat % 4 != 0 then (3, s)
      else if mode = 1 && r.fetchFault then (4, s)
      else if mode = 0 then (0, s.letGo (winTarget s.me.winsel) x)
      else if mode = 1 then (0, s.letGo (winTarget s.me.winsel) (if r.defer then skip else r.skipPc))
      else (0, s.kill (winTarget s.me.winsel) (x.toNat % 2 ^ 32)) := by
  have hw := h
  rw [State.winValid, keySp_winTarget, Bool.and_eq_true, beq_iff_eq] at hw
  refine (if_neg (by simp [hw])).trans ((if_neg (by rw [bne_iff_ne, ne_eq, not_not]; exact hst)).trans ?_)
  show (match (s.ctx (winTarget s.me.winsel)).frz with | none => _ | some t => _) = _
  rw [hf]
  rfl
end

/-- Its state where the executing context goes on. -/
theorem exec_resume {x : Nat} {u : State} (hh : s.me.handler = true) (hu : u.me.st ≠ .free)
    (h : ∀ skip, s.resume s.me.winsel (s.me.reg a) m.toNat skip = (x, u)) : exec (.resume d a m) s = .next (u.setG d (BitVec.ofNat 64 x)) := by
  show (.next (s.resumeOp d a m.toNat) : Out) = _
  have hf : (u.me.st == .free) = false := beq_eq_false_iff_ne.mpr hu
  simp only [State.resumeOp, hh, h, hf]; rfl

/-- A RESUME that answers and leaves the state. -/
theorem gives_resume {x : Nat} (hh : s.me.handler = true) (hs : s.me.st ≠ .free)
    (h : ∀ skip, s.resume s.me.winsel (s.me.reg a) m.toNat skip = (x, s)) : Gives (.resume d a m) s d (BitVec.ofNat 64 x) :=
  gives_setG (exec_resume hh hs h)

theorem exec_resume_freed {x : Nat} {u : State} (hh : s.me.handler = true) (hu : u.me.st = .free)
    (h : ∀ skip, s.resume s.me.winsel (s.me.reg a) m.toNat skip = (x, u)) : exec (.resume d a m) s = .next u := by
  show (.next (s.resumeOp d a m.toNat) : Out) = _
  have hf : (u.me.st == .free) = true := beq_iff_eq.mpr hu
  simp only [State.resumeOp, hh, h, hf]; rfl

/-- A context whose thread has ended is FREE after the RESUME, whether the executing one goes on or was freed too. -/
theorem exec_resume_target {x k : Nat} {u : State} (hh : s.me.handler = true) (hk : (u.ctx k).st = .free)
    (h : ∀ skip, s.resume s.me.winsel (s.me.reg a) m.toNat skip = (x, u)) : ∃ t, exec (.resume d a m) s = .next t ∧ (t.ctx k).st = .free := by
  by_cases hu : u.me.st = .free
  · exact ⟨u, exec_resume_freed hh hu h, hk⟩
  · refine ⟨_, exec_resume hh hu h, ?_⟩
    have hne : k ≠ u.cur := fun e => hu (by rw [State.me, ← e]; exact hk)
    rw [ctx_setG_ne _ _ _ hne]; exact hk

theorem ctx_thaw_ne {k j : Nat} (pc : Word) (h : j ≠ k) : (s.thaw k pc).ctx j = s.ctx j := ctx_modCtx_ne s _ h

theorem ctx_thaw_same (k : Nat) (pc : Word) :
    (s.thaw k pc).ctx k = { s.ctx k with st := .ready, pc := pc, frz := none, readyAt := s.now + 1, again := false, kont := .advance } :=
  ctx_modCtx_same s k _

theorem threadsLeft_thaw {j k : Nat} (h : (s.ctx k).handler = true) (pc : Word) : (s.thaw k pc).threadsLeft j = s.threadsLeft j := by
  refine threadsLeft_setCtx ?_ h
  exact h

theorem letGo_eq_thaw {k : Nat} (hh : (s.ctx k).handler = true → s.threadsLeft (s.jobNoAt (keySp k)) = true) (pc : Word) : s.letGo k pc = s.thaw k pc := by
  unfold State.letGo
  split
  case isTrue h => exact freeHandlers_of_left ((threadsLeft_thaw h pc).trans (hh h))
  case isFalse => rfl

theorem kill_frees {k : Nat} (st : Nat) (hc : (s.ctx k).thidx ≠ compThidx) : ((s.kill k st).ctx k).st = .free := by
  have ends (u : State) (hu : (u.ctx k).thidx ≠ compThidx) : ((u.endThread k st).ctx k).st = .free := by
    simp only [State.endThread]
    generalize State.modJob _ _ _ = v
    obtain ⟨-, hctx, -⟩ := sendStatus_facts (v.setCtx k (freeCtx (u.ctx k))) (u.jobNoAt (keySp k)) (u.ctx k).thidx (keySp k) st hu
    have hk := (hctx k (by rw [ctx_setCtx_same]; exact Nat.zero_ne_add_one 10)).trans (ctx_setCtx_same v k _)
    rw [freeHandlers_ctx_of_not_handler _ _ (by rw [hk]; rfl), hk]; rfl
  simp only [State.kill]
  split
  · split
    · exact ends _ (by simpa only [State.reissueTask, State.ctx, State.modCl, modJob_ctxs] using hc)
    · exact ends _ hc
  · exact ends _ hc
end

theorem resumeActsOnItsTarget : ResumeActsOnItsTarget := by
  intro s d a r k c i sel hh hst
  have hsel : sel ↔ s.winValid = true := winValid_iff.symm
  refine ⟨fun hs hfz hr hk hch hme hsorted hff hdf hjk hjm hleft hothers => ?_, fun hs hfz hr hk hleft => ?_, fun hs m _ => ?_, fun hs hfz m _ => ?_⟩
  · -- no thread is left and the target was the last frozen handler, so its thaw ends all of them
    have hw := hsel.mp hs
    have hjn : s.jobNoAt (keySp k) = s.myJobNo := by rw [State.jobNoAt, hjk]; rfl
    let u := s.thaw k r.skipPc
    have hgo : s.letGo k r.skipPc = u.freeHandlers s.myJobNo := by rw [State.letGo, if_pos hch, hjn]
    have hl : u.threadsLeft s.myJobNo = false := (threadsLeft_thaw hch _).trans hleft
    have hf : u.handlerFrozen s.myJobNo = false := by
      refine List.any_eq_false.mpr fun e he => ?_
      by_cases hek : e.1 = k
      · rw [eq_of_mem_set hsorted he hek]; simp
      · rcases mem_of_mem_set he with rfl | he'
        · exact absurd rfl hek
        · intro hp
          simp only [Bool.and_eq_true, beq_iff_eq] at hp
          exact hothers e he' hek hp.1.1 hp.1.2 hp.2
    have hmeu : u.me = s.me := ctx_thaw_ne _ (Ne.symm hk)
    have huk : u.ctx k = _ := ctx_thaw_same k r.skipPc
    have freed : (u.freeHandlers s.myJobNo).me.st = .free := by
      rw [State.me, freeHandlers_cur]
      exact freeHandlers_frees hl hf ((congrArg Context.handler hmeu).trans hh) hjm (.inl ((congrArg Context.st hmeu).trans hme))
    refine ⟨_, exec_resume_freed (x := 0) hh freed fun skip => ?_, sameMemory_trans (t := u) (sameMemory_of_eq rfl rfl rfl) (sameMemory_freeHandlers u _),
      freeHandlers_frees hl hf ((congrArg Context.handler huk).trans hch) hjk (.inl (congrArg Context.st huk)), freed⟩
    rw [resume_of_frozen hw hfz hr, hff, hdf, hgo.symm]; rfl
  · have hw := hsel.mp hs
    have go : ∀ pc, s.letGo k pc = s.thaw k pc := letGo_eq_thaw hleft
    have thaws (m : BitVec 4) (pc : Word) (h : ∀ skip, s.resume s.me.winsel (s.me.reg a) m.toNat skip = (0, s.thaw k pc)) :
        ∃ t, exec (i m) s = .next t ∧ t.ctx k = { c with st := .ready, pc := pc, frz := none, readyAt := s.now + 1, again := false, kont := .advance } ∧
          t.me = { (s.me.setReg d 0) with pc := s.me.unit.next, got := [], again := false } ∧ SameMemory s t ∧ ∀ j, j ≠ s.cur → j ≠ k → t.ctx j = s.ctx j := by
      have hme : (s.thaw k pc).me = s.me := ctx_thaw_ne pc (Ne.symm hk)
      refine ⟨_, exec_resume hh (by rw [hme]; exact hst) h, ?_, ?_, sameMemory_of_eq rfl rfl rfl, fun j hj hjk => ?_⟩
      · exact (ctx_setG_ne (s.thaw k pc) d 0 hk).trans (ctx_thaw_same k pc)
      · rw [me_setG, hme]; rfl
      · exact (ctx_setG_ne (s.thaw k pc) d 0 hj).trans (ctx_thaw_ne pc hjk)
    refine ⟨fun ha => thaws 0 _ fun skip => ?_, fun ha => gives_resume hh hst fun skip => ?_, fun hff hdf => thaws 1 _ fun skip => ?_,
      fun hff => gives_resume hh hst fun skip => ?_, fun hme hth => exec_resume_target (x := 0) (u := s.kill k ((s.me.reg a).toNat % 2 ^ 32)) hh (kill_frees _ hth) fun skip => ?_⟩
    · rw [resume_of_frozen hw hfz hr, ha, go]; rfl
    · rw [resume_of_frozen hw hfz hr]; exact if_pos (by simpa using ha)
    · rw [resume_of_frozen hw hfz hr, hff, hdf, ← go]; rfl
    · rw [resume_of_frozen hw hfz hr, hff]; rfl
    · rw [resume_of_frozen hw hfz hr]; rfl
  · exact gives_resume hh hst fun skip => resume_of_not_winValid (by rw [← Bool.not_eq_true, ← hsel]; exact hs) _ _ _
  · exact gives_resume hh hst fun skip => resume_of_not_frozen (hsel.mp hs) hfz _ _ _

theorem resumeIsPrivileged : ResumeIsPrivileged := by
  intro s d a m hh hb
  refine traps_trap hb ?_
  show (.next (s.resumeOp d a m.toNat) : Out) = _
  rw [State.resumeOp, hh]; rfl

end Sys2Proof.Laws
end

section
/-!
SUPPORT. The window image of a context (R331, R332): what its offsets show, what a store of a word takes and leaves.
-/
namespace Sys2Proof.Laws
open Sys2Proof Sys2Proof.Machine Sys2Proof.Claims

/-! ### Lanes -/

theorem packLanes_lt (w : Nat) (l : List Nat) : packLanes w l < 2 ^ (w * l.length) := by
  induction l with
  | nil => simp [packLanes]
  | cons x l ih =>
    have hx := Nat.mod_lt x (Nat.two_pow_pos w)
    rw [packLanes, Nat.shiftLeft_eq, List.length_cons, Nat.mul_succ, Nat.pow_add]
    calc x % 2 ^ w + packLanes w l * 2 ^ w < (packLanes w l + 1) * 2 ^ w := by rw [Nat.succ_mul]; omega
      _ ≤ 2 ^ (w * l.length) * 2 ^ w := Nat.mul_le_mul_right _ ih

theorem toNat_packLanes {w n : Nat} {l : List Nat} (h : w * l.length = n) : (BitVec.ofNat n (packLanes w l)).toNat = packLanes w l := by
  rw [BitVec.toNat_ofNat, Nat.mod_eq_of_lt (h ▸ packLanes_lt w l)]

theorem laneOf_packLanes (w : Nat) (l : List Nat) (i : Nat) : laneOf (packLanes w l) w i = l.getD i 0 % 2 ^ w := by
  induction l generalizing i with
  | nil => simp [packLanes, laneOf]
  | cons x l ih =>
    have hx := Nat.mod_lt x (Nat.two_pow_pos w)
    cases i with
    | zero => simp [laneOf, packLanes, Nat.shiftLeft_eq]
    | succ i =>
      rw [List.getD_cons_succ, ← ih i, laneOf, laneOf, packLanes, Nat.shiftLeft_eq, Nat.mul_succ, Nat.add_comm (w * i), Nat.shiftRight_add,
        Nat.shiftRight_eq_div_pow _ w, Nat.add_mul_div_right _ _ (Nat.two_pow_pos w), Nat.div_eq_of_lt hx, Nat.zero_add]

theorem extract_eq_laneOf {n : Nat} (x : BitVec n) (w i : Nat) : x.extractLsb' (w * i) w = BitVec.ofNat w (laneOf x.toNat w i) := by
  apply BitVec.eq_of_toNat_eq
  simp [laneOf, BitVec.extractLsb'_toNat]

/-! ### What the window shows -/

section
variable {s : State} {k : Nat}

theorem windowRead_reg (r : Reg) : s.windowRead k (0x10 + 8 * r.toNat) = (s.ctx k).reg r := by
  have hr := r.isLt
  have h : (0x10 + 8 * r.toNat - 0x10) / 8 = r.toNat := by omega
  unfold State.windowRead
  rw [if_neg (by omega), if_neg (by omega), if_pos (by simp; omega), h, Context.regN, dif_pos hr]
  rfl

theorem windowRead_side (i : Fin 8) : s.windowRead k (0xA0 + 8 * i) = (s.ctx k).side[i] := by
  have h : (0xA0 + 8 * (i : Nat) - 0xA0) / 8 = i := by omega
  unfold State.windowRead
  rw [if_neg (by omega), if_neg (by omega), if_neg (by simp; omega), if_neg (by omega), if_pos (by simp; omega), h]
  simp [List.getD]

theorem windowRead_lane (i : Fin 8) {j : Nat} (hj : j < 8) : s.windowRead k (0x100 + 64 * i + 8 * j) = ((s.ctx k).v[i]).extractLsb' (64 * j) 64 := by
  have hi : (0x100 + 64 * (i : Nat) + 8 * j - 0x100) / 64 = i := by omega
  have hj' : (0x100 + 64 * (i : Nat) + 8 * j - 0x100) % 64 / 8 = j := by omega
  unfold State.windowRead
  rw [if_neg (by omega), if_neg (by omega), if_neg (by simp; omega), if_neg (by omega), if_neg (by simp; omega),
    if_pos (by simp; omega), hi, hj', extract_eq_laneOf]
  simp [List.getD]

theorem windowRead_staging {i : Nat} (hi : i < 12) : s.windowRead k (0x380 + 8 * i) = (s.ctx k).staging.get i := by
  have h : (0x380 + 8 * i - 0x380) / 8 = i := by omega
  unfold State.windowRead
  rw [if_neg (by omega), if_neg (by omega), if_neg (by simp; omega), if_neg (by omega), if_neg (by simp; omega),
    if_neg (by simp; omega), if_pos (by simp; omega), h]

theorem windowRead_tags : (s.windowRead k 0x90).toNat < 2 ^ 32 ∧ ∀ i : Fin 8, (s.windowRead k 0x90).extractLsb' (4 * i) 4 = ((s.ctx k).tag)[i] := by
  have e : s.windowRead k 0x90 = BitVec.ofNat 64 (packLanes 4 ((s.ctx k).tag.toList.map (·.toNat))) := rfl
  have hlt : packLanes 4 ((s.ctx k).tag.toList.map (·.toNat)) < 2 ^ 32 := by
    simpa using packLanes_lt 4 ((s.ctx k).tag.toList.map (·.toNat))
  have hn : (s.windowRead k 0x90).toNat = packLanes 4 ((s.ctx k).tag.toList.map (·.toNat)) := by
    rw [e, BitVec.toNat_ofNat, Nat.mod_eq_of_lt (lt_trans hlt (by decide))]
  refine ⟨hn ▸ hlt, fun i => ?_⟩
  rw [extract_eq_laneOf, hn, laneOf_packLanes]
  simp [List.getD]
  exact BitVec.eq_of_toNat_eq (by simpa using ((s.ctx k).tag[(i : Nat)]).isLt)

theorem windowRead_status (hp : (s.ctx k).park = 0) (hr : (s.ctx k).rels.length ≤ 8) (hst : (s.ctx k).st = .frozen) :
    (s.windowRead k 8).toNat = 4 + boolN (s.ctx k).supv * 2 ^ 8 + boolN (s.ctx k).handler * 2 ^ 9 + boolN (s.ctx k).pairtask * 2 ^ 10 +
      boolN (s.pinned k) * 2 ^ 11 + (s.ctx k).rels.length * 2 ^ 12 + (s.ctx k).pretag.toNat * 2 ^ 32 := by
  have e : s.windowRead k 8 = s.status k := by unfold State.windowRead; rw [if_neg (by decide), if_pos rfl]
  have hb (b : Bool) : boolN b ≤ 1 := by cases b <;> decide
  have hpt := (s.ctx k).pretag.isLt
  have h1 := hb (s.ctx k).supv
  have h2 := hb (s.ctx k).handler
  have h3 := hb (s.ctx k).pairtask
  have h4 := hb (s.pinned k)
  have hlt : (s.ctx k).pretag.toNat * 2 ^ 32 + (s.ctx k).rels.length * 2 ^ 12 + boolN (s.pinned k) * 2 ^ 11 + boolN (s.ctx k).pairtask * 2 ^ 10 +
     boolN (s.ctx k).handler * 2 ^ 9 + boolN (s.ctx k).supv * 2 ^ 8 + 0 * 2 ^ 4 + 4 < 2 ^ 64 := by omega
  have hf : ¬ ((CtxState.frozen == .free) = true) := by decide
  rw [e, State.status, hst, hp]
  simp only [hf, Bool.false_eq_true, if_false, BitVec.toNat_ofNat, CtxState.num]
  rw [Nat.mod_eq_of_lt hlt]
  omega

theorem staging_getD (g : Staging) {i : Nat} (hi : i < 12) :
    [g.csrc, g.cdst, g.cpeer, g.clen, g.csstr, g.cdstr, g.crows, g.cflag, g.cfval, g.cseed, g.cexp, g.cmode].getD i 0 = g.get i := by
  interval_cases i <;> rfl

theorem windowRead_unlisted {o : Nat} (h8 : o % 8 = 0) (h : o = 0x98 ∨ (0xE0 ≤ o ∧ o < 0x100) ∨ (0x350 ≤ o ∧ o < 0x380) ∨ 0x3F0 ≤ o) :
    s.windowRead k o = 0 := by
  unfold State.windowRead
  rw [if_neg (by omega), if_neg (by omega), if_neg (by simp; omega), if_neg (by omega), if_neg (by simp; omega),
    if_neg (by simp; omega), if_neg (by simp; omega)]
  split
  case h_13 => rfl
  all_goals exfalso; omega

/-- A frozen context's window shows what it reads. -/
theorem windowShows_windowRead (hst : (s.ctx k).st = .frozen) (o : Nat) : WindowShows s k o (s.windowRead k o) := by
  refine ⟨?_, ?_, fun r => ?_, ?_, fun i => ?_, fun i j hj => ?_, ?_, ?_, ?_, ?_, ?_, ?_, ?_, ?_, ?_, ?_, fun i hi => ?_, ?_, fun f hf => ?_, windowRead_unlisted⟩
  · rintro rfl; rfl
  · rintro rfl hp hr; exact windowRead_status hp hr hst
  · rintro rfl; exact windowRead_reg r
  · rintro rfl; exact windowRead_tags
  · rintro rfl; exact windowRead_side i
  · rintro rfl; exact windowRead_lane i hj
  · rintro rfl; rfl
  · rintro rfl; rfl
  · rintro rfl; rfl
  · rintro rfl; rfl
  · rintro rfl; rfl
  · rintro rfl; rfl
  · rintro rfl; rfl
  · rintro rfl; rfl
  · rintro rfl; rfl
  · rintro rfl; rfl
  · rintro rfl; rw [staging_getD _ hi, windowRead_staging hi]
  · rintro rfl; rfl
  · rintro rfl
    show BitVec.ofNat 64 ((s.ctx k).chain.final.getD 0) = _
    rw [hf]; rfl
end

/-! ### What a store of the window leaves -/

/-- The words of the window image of `c'` are those of `c` but for the one at offset `o`, and the sidecars where `o` is that of the tags; nothing
beside the image differs. -/
structure KeepsImage (o : Nat) (c c' : Context) : Prop where
  pc : o ≠ 0 → c'.pc = c.pc := by intros; rfl
  regs : ∀ r : Reg, o ≠ 0x10 + 8 * r.toNat → c'.reg r = c.reg r := by intros; rfl
  tag : o ≠ 0x90 → c'.tag = c.tag := by intros; rfl
  side : ∀ i : Fin 8, o ≠ 0x90 → o ≠ 0xA0 + 8 * i → c'.side[i] = c.side[i] := by intros; rfl
  lanes : ∀ (i : Fin 8) (j : Nat), j < 8 → o ≠ 0x100 + 64 * i + 8 * j →
    (c'.v[i]).extractLsb' (64 * j) 64 = (c.v[i]).extractLsb' (64 * j) 64 := by intros; rfl
  cprof : o ≠ 0x300 → c'.cprof = c.cprof := by intros; rfl
  fstat : o ≠ 0x308 → c'.fstat = c.fstat := by intros; rfl
  actid : o ≠ 0x320 → c'.actid = c.actid := by intros; rfl
  plyg : o ≠ 0x328 → c'.plyg = c.plyg := by intros; rfl
  lprog : o ≠ 0x330 → c'.lprog = c.lprog := by intros; rfl
  loomStat : o ≠ 0x340 → c'.loomStat = c.loomStat := by intros; rfl
  cpinj : o ≠ 0x348 → c'.cpinj = c.cpinj := by intros; rfl
  staging : ∀ i, i < 12 → o ≠ 0x380 + 8 * i → c'.staging.get i = c.staging.get i := by intros; rfl
  beside : c' = { c with pc := c'.pc, g := c'.g, tag := c'.tag, side := c'.side, v := c'.v, cprof := c'.cprof, fstat := c'.fstat, actid := c'.actid,
                         plyg := c'.plyg, lprog := c'.lprog, loomStat := c'.loomStat, cpinj := c'.cpinj, staging := c'.staging } := by rfl

section
variable {c : Context} {v : Word}

theorem windowWrite_pc (h : v.toNat % 4 = 0) : c.windowWrite 0 v = some { c with pc := v } := if_pos h

theorem keepsImage_pc : KeepsImage 0 c { c with pc := v } := { pc := fun h => absurd rfl h }

theorem windowWrite_reg (r : Reg) : c.windowWrite (0x10 + 8 * r.toNat) v = some (c.setReg r v) := by
  have hr := r.isLt
  have h : (0x10 + 8 * r.toNat - 0x10) / 8 = r.toNat := by omega
  unfold Context.windowWrite
  rw [if_neg (by omega), if_pos (by simp; omega), h, Context.setRegN, dif_pos hr]
  rfl

theorem keepsImage_reg (r : Reg) : KeepsImage (0x10 + 8 * r.toNat) c (c.setReg r v) where
  regs q h := reg_setReg_ne c v fun e => h (by rw [e])

/-- The tags that a store writes, 15 as 0. -/
def storedTag (v : Word) (i : Nat) : Nat := let x := bitsOf v.toNat (4 * i + 3) (4 * i); if x = 15 then 0 else x

/-- The context with new tags, which keep the sidecar bits they use. -/
def setTags (c : Context) (v : Word) : Context :=
  { c with tag := Vector.ofFn fun i => BitVec.ofNat 4 (storedTag v i.val),
           side := Vector.ofFn fun i => BitVec.ofNat 64 ((c.side[i]).toNat % 2 ^ tagSide (storedTag v i.val)) }

theorem windowWrite_tags (h : v.toNat < 2 ^ 32) : c.windowWrite 0x90 v = some (setTags c v) := by
  unfold Context.windowWrite
  rw [if_neg (by decide), if_neg (by decide), if_pos rfl]
  have hn : ¬ ((v.toNat / 2 ^ 32 != 0) = true) := by rw [bne_iff_ne, ne_eq, not_not, Nat.div_eq_of_lt h]
  exact if_neg hn

theorem keepsImage_tags : KeepsImage 0x90 c (setTags c v) where
  tag h := absurd rfl h
  side _ h := absurd rfl h

theorem tag_setTags (i : Fin 8) : (setTags c v).tag[i] = if v.extractLsb' (4 * i) 4 = 15 then 0 else v.extractLsb' (4 * i) 4 := by
  have e : bitsOf v.toNat (4 * i + 3) (4 * i) = (v.extractLsb' (4 * i) 4).toNat := by
    rw [bitsOf, BitVec.extractLsb'_toNat, show 4 * (i : Nat) + 3 + 1 - 4 * i = 4 by omega]
  have ht : (setTags c v).tag[i] = BitVec.ofNat 4 (storedTag v i) := by simp [setTags]
  rw [ht, storedTag]
  simp only [e]
  generalize v.extractLsb' (4 * i) 4 = x
  revert x
  decide

theorem windowWrite_side (i : Fin 8) (h : v.toNat < 2 ^ tagSide (c.tag[i]).toNat) :
    c.windowWrite (0xA0 + 8 * i) v = some { c with side := c.side.set i v i.isLt } := by
  have hi : (0xA0 + 8 * (i : Nat) - 0xA0) / 8 = i := by omega
  unfold Context.windowWrite
  rw [if_neg (by omega), if_neg (by simp; omega), if_neg (by omega), if_pos (by simp; omega)]
  simp only [hi]
  rw [dif_pos i.isLt]
  exact if_neg (by rw [bne_iff_ne, ne_eq, not_not]; exact Nat.div_eq_of_lt h)

theorem keepsImage_side (i : Fin 8) : KeepsImage (0xA0 + 8 * i) c { c with side := c.side.set i v i.isLt } where
  side q _ h := by
    have : (i : Nat) ≠ q := fun e => h (by rw [e])
    simp [this]

/-- The vector register with one lane of 64 bits written. -/
def setLane (x : VWord) (j n : Nat) : VWord := BitVec.ofNat 512 (packLanes 64 ((lanesOf x.toNat 64 8).set j n))

theorem extract_setLane (x : VWord) {j : Nat} (n : Nat) {q : Nat} (hq : q < 8) :
    (setLane x j n).extractLsb' (64 * q) 64 = if q = j then BitVec.ofNat 64 n else x.extractLsb' (64 * q) 64 := by
  have hg : ((lanesOf x.toNat 64 8).set j n).getD q 0 = if q = j then n else laneOf x.toNat 64 q := by
    have hl : (lanesOf x.toNat 64 8)[q]? = some (laneOf x.toNat 64 q) := by simp [lanesOf, hq]
    rw [List.getD, List.getElem?_set]
    split
    case isTrue h => subst h; simp [lanesOf, hq]
    case isFalse h => rw [if_neg (Ne.symm h), hl]; rfl
  rw [extract_eq_laneOf, setLane, toNat_packLanes (by simp [lanesOf]), laneOf_packLanes, hg]
  split
  · exact BitVec.eq_of_toNat_eq (by simp)
  · rw [extract_eq_laneOf]; exact BitVec.eq_of_toNat_eq (by simp)

theorem windowWrite_lane (i : Fin 8) {j : Nat} (hj : j < 8) :
    c.windowWrite (0x100 + 64 * i + 8 * j) v = some { c with v := c.v.set i (setLane c.v[i] j v.toNat) i.isLt } := by
  have hi : (0x100 + 64 * (i : Nat) + 8 * j - 0x100) / 64 = i := by omega
  have hj' : (0x100 + 64 * (i : Nat) + 8 * j - 0x100) % 64 / 8 = j := by omega
  unfold Context.windowWrite
  rw [if_neg (by omega), if_neg (by simp; omega), if_neg (by omega), if_neg (by simp; omega), if_pos (by simp; omega)]
  simp only [hi, hj']
  rw [dif_pos i.isLt]
  rfl

theorem keepsImage_lane (i : Fin 8) (j : Nat) : KeepsImage (0x100 + 64 * i + 8 * j) c { c with v := c.v.set i (setLane c.v[i] j v.toNat) i.isLt } where
  lanes p q hq h := by
    by_cases hp : (i : Nat) = p
    · have hqj : q ≠ j := fun e => h (by rw [hp, e])
      obtain rfl : i = p := Fin.ext hp
      simp [extract_setLane _ _ hq, hqj]
    · simp [hp]

theorem windowWrite_staging {i : Nat} (hi : i < 12) (h : stageBad i v.toNat = false) :
    c.windowWrite (0x380 + 8 * i) v = some { c with staging := c.staging.put i v } := by
  have e : (0x380 + 8 * i - 0x380) / 8 = i := by omega
  unfold Context.windowWrite
  rw [if_neg (by omega), if_neg (by simp; omega), if_neg (by omega), if_neg (by simp; omega), if_neg (by simp; omega), if_pos (by simp; omega)]
  simp only [e, h]
  rfl

theorem get_put_same (g : Staging) {i : Nat} (hi : i < 12) : (g.put i v).get i = v := by interval_cases i <;> rfl

theorem get_put_ne (g : Staging) {i q : Nat} (hi : i < 12) (hq : q < 12) (h : q ≠ i) : (g.put i v).get q = g.get q := by
  interval_cases i <;> interval_cases q <;> trivial

theorem keepsImage_staging {i : Nat} (hi : i < 12) : KeepsImage (0x380 + 8 * i) c { c with staging := c.staging.put i v } where
  staging q hq h := get_put_ne _ hi hq fun e => h (by rw [e])

/-- What a store of a word of the window makes of its context: the word reads back, and tags of 15 are stored as 0. -/
structure Written (o : Nat) (v : Word) (c c' : Context) : Prop where
  keeps : KeepsImage o c c'
  reads : o ≠ 0x90 → ∀ (s : State) (k : Nat), s.ctx k = c' → s.windowRead k o = v
  tags : o = 0x90 → ∀ i : Fin 8, c'.tag[i] = if v.extractLsb' (4 * i) 4 = 15 then 0 else v.extractLsb' (4 * i) 4

theorem tagSide_eq (x : BitVec 4) : [0, 0, 0, 0, 0, 0, 0, 0, 0, 0, 0, 32, 64, 16, 32, 0].getD x.toNat 0 = tagSide x.toNat := by
  revert x; decide

/-- R296: the values that a staging register takes. -/
theorem stageBad_iff {i n : Nat} (hi : i < 12) : stageBad i n = false ↔ (i = 2 → n < 2 ^ 8) ∧ (i = 3 ∨ i = 9 ∨ i = 10 → n < 2 ^ 32) ∧ (i = 6 → n < 2 ^ 16) ∧
    (i = 11 → n < 2 ^ 9 ∧ n / 16 % 4 ≠ 3 ∧ n / 4 % 4 ≠ 0) := by
  interval_cases i <;> simp [stageBad, bitsOf_eq, and_assoc]

theorem windowWrite_sr {o sr : Nat} (h : c.windowWrite o v = if srBad sr v.toNat then none else some (c.writeSr sr v)) (hb : srBad sr v.toNat = false) :
    c.windowWrite o v = some (c.writeSr sr v) := by rw [h, hb]; rfl

/-- R332: a store that the window takes. -/
theorem windowWrite_of_takes {o : Nat} (ho : o % 8 = 0) (h : WindowTakes c o v) : ∃ c', c.windowWrite o v = some c' ∧ Written o v c c' := by
  rcases h with ⟨rfl, h⟩ | ⟨h1, h2⟩ | ⟨rfl, h⟩ | ⟨i, rfl, h⟩ | ⟨h1, h2⟩ | ⟨rfl, h⟩ | ⟨rfl, h⟩ | ⟨rfl, h⟩ | ⟨rfl, h⟩ |
    ⟨rfl, h⟩ | ⟨rfl, h⟩ | ⟨rfl, h⟩ | ⟨i, hi, rfl, h⟩
  · exact ⟨_, windowWrite_pc h, keepsImage_pc, fun _ s k e => congrArg Context.pc e, nofun⟩
  · obtain ⟨r, rfl⟩ : ∃ r : Reg, o = 0x10 + 8 * r.toNat := ⟨BitVec.ofNat 4 ((o - 0x10) / 8), by rw [BitVec.toNat_ofNat]; omega⟩
    exact ⟨_, windowWrite_reg r, keepsImage_reg r, fun _ s k e => by rw [windowRead_reg, e, reg_setReg_same], fun h => by omega⟩
  · exact ⟨_, windowWrite_tags h, keepsImage_tags, fun h => absurd rfl h, fun _ => tag_setTags⟩
  · rw [tagSide_eq] at h
    exact ⟨_, windowWrite_side i h, keepsImage_side i, fun _ s k e => by rw [windowRead_side, e]; simp, fun h => by omega⟩
  · obtain ⟨i, j, hj, rfl⟩ : ∃ (i : Fin 8) (j : Nat), j < 8 ∧ o = 0x100 + 64 * i + 8 * j :=
      ⟨⟨(o - 0x100) / 64, by omega⟩, (o - 0x100) % 64 / 8, by omega, by simp only; omega⟩
    exact ⟨_, windowWrite_lane i hj, keepsImage_lane i j, fun _ s k e => by rw [windowRead_lane i hj, e]; simp [extract_setLane _ _ hj], fun h => by omega⟩
  · exact ⟨_, windowWrite_sr (sr := 0x06) rfl (cprofBad_eq_false_iff.mpr h), { cprof := fun h => absurd rfl h }, fun _ s k e => congrArg Context.cprof e, nofun⟩
  · exact ⟨_, windowWrite_sr (sr := 0x07) rfl (srBad_fstat.mpr h), { fstat := fun h => absurd rfl h }, fun _ s k e => congrArg Context.fstat e, nofun⟩
  · exact ⟨_, windowWrite_sr (sr := 0x0C) rfl (srBad_actid.mpr h), { actid := fun h => absurd rfl h }, fun _ s k e => congrArg Context.actid e, nofun⟩
  · exact ⟨_, windowWrite_sr (sr := 0x0E) rfl (srBad_plyg.mpr h), { plyg := fun h => absurd rfl h }, fun _ s k e => congrArg Context.plyg e, nofun⟩
  · exact ⟨_, windowWrite_sr (sr := 0x0B) rfl (srBad_lprog.mpr h), { lprog := fun h => absurd rfl h }, fun _ s k e => congrArg Context.lprog e, nofun⟩
  · refine ⟨{ c with loomStat := v }, ?_, { loomStat := fun h => absurd rfl h }, fun _ s k e => congrArg Context.loomStat e, nofun⟩
    exact if_neg (by rw [bne_iff_ne, ne_eq, not_not, bitsOf_eq]; exact h)
  · exact ⟨_, windowWrite_sr (sr := 0x10) rfl ((srBad_cpinj v.isLt).mpr h), { cpinj := fun h => absurd rfl h }, fun _ s k e => congrArg Context.cpinj e, nofun⟩
  · exact ⟨_, windowWrite_staging hi ((stageBad_iff hi).mpr h), keepsImage_staging hi, fun _ s k e => by rw [windowRead_staging hi, e, get_put_same _ hi], fun h => by omega⟩

theorem eq_false_of_ite_none {α : Type} {b : Bool} {x y : α} (h : (if b = true then none else some x) = some y) : b = false := by
  cases b
  · rfl
  · cases h

/-- R332: every other store is refused. -/
theorem takes_of_windowWrite {o : Nat} {c' : Context} (ho : o % 8 = 0) (h : c.windowWrite o v = some c') : WindowTakes c o v := by
  unfold WindowTakes
  unfold Context.windowWrite at h
  split at h
  case isTrue e => exact .inl ⟨e, by_contra fun hn => by rw [if_neg hn] at h; cases h⟩
  split at h
  case isTrue e => simp only [Bool.and_eq_true, decide_eq_true_iff] at e; exact .inr (.inl e)
  split at h
  case isTrue e =>
    refine .inr (.inr (.inl ⟨e, div_two_pow_eq_zero_iff.mp ?_⟩))
    exact bne_eq_false_iff_eq.mp (eq_false_of_ite_none h)
  split at h
  case isTrue e =>
    simp only [Bool.and_eq_true, decide_eq_true_iff] at e
    have hi : (o - 0xA0) / 8 < 8 := by omega
    dsimp only at h
    rw [dif_pos hi] at h
    refine .inr (.inr (.inr (.inl ⟨⟨(o - 0xA0) / 8, hi⟩, by simp only; omega, ?_⟩)))
    rw [tagSide_eq]
    exact div_two_pow_eq_zero_iff.mp (bne_eq_false_iff_eq.mp (eq_false_of_ite_none h))
  split at h
  case isTrue e => simp only [Bool.and_eq_true, decide_eq_true_iff] at e; exact .inr (.inr (.inr (.inr (.inl ⟨e.1, by omega⟩))))
  iterate 5 refine .inr ?_
  split at h
  case isTrue e =>
    simp only [Bool.and_eq_true, decide_eq_true_iff] at e
    have hi : (o - 0x380) / 8 < 12 := by omega
    iterate 7 refine .inr ?_
    exact ⟨(o - 0x380) / 8, hi, by omega, (stageBad_iff hi).mp (eq_false_of_ite_none h)⟩
  dsimp only at h
  split at h
  · exact .inl ⟨rfl, cprofBad_eq_false_iff.mp (eq_false_of_ite_none h)⟩
  · exact .inr (.inl ⟨rfl, srBad_fstat.mp (eq_false_of_ite_none h)⟩)
  · exact .inr (.inr (.inl ⟨rfl, srBad_actid.mp (eq_false_of_ite_none h)⟩))
  · exact .inr (.inr (.inr (.inl ⟨rfl, srBad_plyg.mp (eq_false_of_ite_none h)⟩)))
  · exact .inr (.inr (.inr (.inr (.inl ⟨rfl, srBad_lprog.mp (eq_false_of_ite_none h)⟩))))
  · refine .inr (.inr (.inr (.inr (.inr (.inl ⟨rfl, ?_⟩)))))
    rw [← bitsOf_eq v.toNat 55 48]
    exact bne_eq_false_iff_eq.mp (eq_false_of_ite_none h)
  · exact .inr (.inr (.inr (.inr (.inr (.inr (.inl ⟨rfl, (srBad_cpinj v.isLt).mp (eq_false_of_ite_none h)⟩))))))
  · cases h
end

end Sys2Proof.Laws
end

section
/-!
PROOFS. LD and ST of 64 bits at TRAPV.BASE reach the window of the context that WINSEL selects; every other access there traps ILLEGAL (R331, R332).
-/
namespace Sys2Proof.Laws
open Sys2Proof Sys2Proof.Machine Sys2Proof.Config Sys2Proof.Claims

namespace KeepsImage
variable {o : Nat} {c c' : Context}

/-- What the image's read-only words and pinning show. -/
theorem same (h : KeepsImage o c c') : c'.st = c.st ∧ c'.park = c.park ∧ c'.rels = c.rels ∧ c'.pretag = c.pretag ∧ c'.supv = c.supv ∧ c'.gset = c.gset ∧
    c'.cktab = c.cktab ∧ c'.chain = c.chain ∧ c'.thidx = c.thidx ∧ c'.handler = c.handler ∧ c'.pairtask = c.pairtask := by
  rw [h.beside]
  exact ⟨rfl, rfl, rfl, rfl, rfl, rfl, rfl, rfl, rfl, rfl, rfl⟩

theorem pinned (h : KeepsImage o c c') {s t : State} {k : Nat} (hs : s.ctx k = c) (ht : t.ctx k = c') (hj : t.jobs = s.jobs) (he : t.engines = s.engines)
    (hsp : t.spindles = s.spindles) : t.pinned k = s.pinned k := by
  have hb : c'.mailbox = c.mailbox ∧ c'.mailHeld = c.mailHeld ∧ c'.born = c.born := by rw [h.beside]; exact ⟨rfl, rfl, rfl⟩
  obtain ⟨-, -, -, -, -, -, -, -, hth, hh, hp⟩ := h.same
  obtain ⟨hm, hmh, hbn⟩ := hb
  simp only [State.pinned, State.copyPending, State.jobAt, State.jobNoAt, State.job, State.spindle, hs, ht, hj, he, hsp, hth, hh, hp, hm, hmh, hbn]

/-- Every other word of the image shows what it did. -/
theorem shows (h : KeepsImage o c c') {s t : State} {k x : Nat} {w : Word} (hs : s.ctx k = c) (ht : t.ctx k = c') (hp : t.pinned k = s.pinned k)
    (hx : x ≠ o) (hside : o = 0x90 → x < 0xA0 ∨ 0xD8 < x) (hw : WindowShows s k x w) : WindowShows t k x w := by
  obtain ⟨hst, hpark, hrels, hpre, hsupv, hgset, hck, hchain, hth, hhan, hpair⟩ := h.same
  have off {a : Nat} (e : x = a) : o ≠ a := fun e' => hx (e.trans e'.symm)
  have hside' (i : Fin 8) (e : x = 0xA0 + 8 * i) : o ≠ 0x90 := fun e' => by rcases hside e' with h | h <;> omega
  unfold WindowShows at hw ⊢
  dsimp only at hw ⊢
  rw [hs] at hw
  rw [ht, hp, hpark, hrels, hpre, hsupv, hhan, hpair, hgset, hck, hchain, hth]
  obtain ⟨pc, status, regs, tags, side, lanes, cprof, fstat, gset, thidx, actid, plyg, lprog, cktab, loomStat, cpinj, stg, chain, final, zero⟩ := hw
  refine ⟨fun e => ?_, status, fun r e => ?_, fun e => ?_, fun i e => ?_, fun i j hj e => ?_, fun e => ?_, fun e => ?_, gset, thidx, fun e => ?_, fun e => ?_, fun e => ?_,
    cktab, fun e => ?_, fun e => ?_, fun i hi e => ?_, chain, final, zero⟩
  · rw [h.pc (off e)]; exact pc e
  · rw [h.regs r (off e)]; exact regs r e
  · rw [h.tag (off e)]; exact tags e
  · rw [h.side i (hside' i e) (off e)]; exact side i e
  · rw [h.lanes i j hj (off e)]; exact lanes i j hj e
  · rw [h.cprof (off e)]; exact cprof e
  · rw [h.fstat (off e)]; exact fstat e
  · rw [h.actid (off e)]; exact actid e
  · rw [h.plyg (off e)]; exact plyg e
  · rw [h.lprog (off e)]; exact lprog e
  · rw [h.loomStat (off e)]; exact loomStat e
  · rw [h.cpinj (off e)]; exact cpinj e
  · rw [staging_getD _ hi, h.staging i hi (off e), ← staging_getD _ hi]; exact stg i hi e
end KeepsImage

section
variable {s : State} {k : Nat}

/-- R331: a store of the window of a frozen context that is not the executing one. -/
theorem windowStored {o : Nat} {v : Word} {c' : Context} (hk : k ≠ s.cur) (hst : (s.ctx k).st = .frozen) (h : Written o v (s.ctx k) c') :
    WindowStored s ((s.setCtx k c').retire id) k o v := by
  have ht : ((s.setCtx k c').retire id).ctx k = c' := (ctx_retire_ne (s.setCtx k c') id hk).trans (ctx_setCtx_same s k c')
  have hfz : (((s.setCtx k c').retire id).ctx k).st = .frozen := by rw [ht, h.keeps.same.1]; exact hst
  have hp := h.keeps.pinned (t := (s.setCtx k c').retire id) rfl ht rfl rfl rfl
  refine ⟨fun ho => ?_, fun ho i => ?_, fun x w hx hside => h.keeps.shows rfl ht hp hx hside, ⟨_, _, _, _, _, _, _, _, _, _, _, _, _, ht.trans h.keeps.beside⟩⟩
  · rw [← h.reads ho _ k ht]; exact windowShows_windowRead hfz o
  · rw [ht]; exact h.tags ho i

/-- A request that a unit without REL makes: its context waits for the answer (R116). -/
theorem request_waits (hr : s.me.unit.rel = none) (why : Nat) (va : Word) (fa : Nat) (b : Body) (ko : Kont) (dest : Option (Reg × Nat × Bool × Bool)) :
    Waits s (s.request why va fa b ko dest) why ∧ Asks s (s.request why va fa b ko dest) .request (faSp fa) b := by
  let m : Msg := { id := 0, cls := .request, src := s.here, dst := faSp fa, job := s.myJobNo, ctx := keyCtx s.cur, tok := s.nextTok, va := va,
                   who := s.myWho, born := s.me.born, rel := false, body := b }
  let u := s.takeTok.2.send m
  have e : s.request why va fa b ko dest = u.parkFor why s.nextTok ko := by
    simp only [State.request, State.requestVia, hr]; rfl
  have hc (j : Nat) : u.ctx j = s.ctx j := send_ctx _ m j
  have hcur : u.cur = s.cur := send_cur _ m
  have hmem : SameMemory s u := sameMemory_trans (t := s.takeTok.2) (sameMemory_of_eq rfl rfl rfl) (onlyMessages_send _ m).sameMemory
  rw [e]
  refine ⟨waits_of_same (waits_modMe u why _ rfl rfl rfl ⟨rfl, rfl, rfl, rfl, rfl⟩) hc hcur hmem, { m with id := s.nextMsg }, ?_, rfl, rfl, rfl, rfl, rfl, rfl, rfl⟩
  exact send_msgs s.takeTok.2 m

theorem xlate_inWindow {ea : Word} {n : Need} (hw : s.me.inWindow ea = true) (hn : n.x = false) : s.xlate ea n = .trap cILLEGAL ea :=
  if_pos (by rw [hn, hw]; rfl)

/-- A full/empty form in the window traps. -/
theorem sync_inWindow {op : Nat} {d : Reg} {ea : Word} {n data : Nat} (ha : ea.toNat % n = 0) (hw : s.me.inWindow ea = true) :
    s.sync op d ea n data = s.trap cILLEGAL ea := by
  have hx : (syncNeed op).x = false := by unfold syncNeed; split_ifs <;> rfl
  rw [State.sync, ha, xlate_inWindow hw hx]; rfl

/-- So does a load or store of another size. -/
theorem ld_inWindow {d : Reg} {ea : Word} {n : Nat} {sx : Bool} (ha : ea.toNat % n = 0) (hw : s.me.inWindow ea = true) (hn : n ≠ 8) :
    s.ld d ea n sx = s.trap cILLEGAL ea := by
  rw [State.ld, ha, xlate_inWindow hw rfl, hw, beq_eq_false_iff_ne.mpr hn]; rfl

theorem st_inWindow {d : Reg} {ea : Word} {n : Nat} (ha : ea.toNat % n = 0) (hw : s.me.inWindow ea = true) (hn : n ≠ 8) :
    s.st d ea n = s.trap cILLEGAL ea := by
  rw [State.st, ha, xlate_inWindow hw rfl, hw, beq_eq_false_iff_ne.mpr hn]; rfl

theorem ld_window {d : Reg} {ea : Word} {sx : Bool} (ha : ea.toNat % 8 = 0) (hw : s.me.inWindow ea = true) : s.ld d ea 8 sx = s.windowLd d ea := by
  rw [State.ld, ha, hw]; rfl

theorem st_window {d : Reg} {ea : Word} (ha : ea.toNat % 8 = 0) (hw : s.me.inWindow ea = true) : s.st d ea 8 = s.windowSt d ea := by
  rw [State.st, ha, hw]; rfl

theorem home_window (w : Word) : faSp (faOf (keySp (winTarget w)) 0) = keySp (winTarget w) := by
  have : keySp (winTarget w) < 2 ^ 14 := by rw [keySp_winTarget, bitsOf_eq]; exact Nat.mod_lt _ (by decide)
  simp only [faSp, faOf]; omega

/-! ### LD and ST of 64 bits in the window -/

section
variable {d : Reg} {ea : Word} (hrels : s.me.rels = [] ∧ s.me.unit.rel = none)
include hrels

theorem windowLd_eq : s.windowLd d ea =
    if s.winValid = false then s.trap cILLEGAL ea
    else if keySp (winTarget s.me.winsel) = s.here then
      if (s.ctx (winTarget s.me.winsel)).st = .frozen then s.setG d (s.windowRead (winTarget s.me.winsel) (ea.toNat % 2 ^ 16)) else s.trap cILLEGAL ea
    else s.request 1 ea (faOf (keySp (winTarget s.me.winsel)) 0) (.read (keyCtx (winTarget s.me.winsel) * 2 ^ 16 + ea.toNat % 2 ^ 16) 8 3)
      (.load d 8 false) (some (d, 8, false, false)) := by
  rw [State.windowLd, mustWait_of_noRels hrels, State.windowLoad]
  cases s.winValid
  · rfl
  · by_cases hf : (s.ctx (winTarget s.me.winsel)).st = .frozen <;> simp [hf]

theorem windowSt_eq : s.windowSt d ea =
    if s.winValid = false then s.trap cILLEGAL ea
    else if keySp (winTarget s.me.winsel) = s.here then
      (s.windowStore (winTarget s.me.winsel) (ea.toNat % 2 ^ 16) (s.me.reg d)).elim (s.trap cILLEGAL ea) fun t => t.retire id
    else s.request 2 ea (faOf (keySp (winTarget s.me.winsel)) 0) (.write (keyCtx (winTarget s.me.winsel) * 2 ^ 16 + ea.toNat % 2 ^ 16) 8 (s.me.reg d).toNat 3)
      .advance none := by
  rw [State.windowSt, mustWait_of_noRels hrels]
  cases s.winValid
  · rfl
  · cases s.windowStore (winTarget s.me.winsel) (ea.toNat % 2 ^ 16) (s.me.reg d) <;> rfl
end
end

theorem handlersReachTheWindow : HandlersReachTheWindow := by
  intro s d a off ea k c o sel ld st hh hea hrels hrel hk no
  have hw : s.me.inWindow ea = true := by rw [Context.inWindow, hh, hea]; simp
  have hsel : sel ↔ s.winValid = true := winValid_iff.symm
  refine ⟨fun sz hsz ha => ?_, fun ha => ?_⟩
  · have small : ∀ sz : BitVec 2, sz ≠ 3 → szBytes sz ≠ 8 := by decide
    have hn := small sz hsz
    exact ⟨fun hb => traps_trap hb (congrArg _ (ld_inWindow ha hw hn)), fun hb => traps_trap hb (congrArg _ (st_inWindow ha hw hn))⟩
  have hld : exec ld s = .next (s.windowLd d ea) := congrArg _ (ld_window (d := d) (sx := false) ha hw)
  have hst : exec st s = .next (s.windowSt d ea) := congrArg _ (st_window (d := d) ha hw)
  have hsync (op : Nat) (d : Reg) (data : Nat) : s.sync op d ea 8 data = s.trap cILLEGAL ea := sync_inWindow ha hw
  have ho : o % 8 = 0 := by show ea.toNat % 2 ^ 16 % 8 = 0; omega
  rw [windowLd_eq ⟨hrels, hrel⟩] at hld
  rw [windowSt_eq ⟨hrels, hrel⟩] at hst
  refine ⟨fun hb => traps_trap hb (congrArg _ (hsync ..)), fun hb => traps_trap hb (congrArg _ (hsync ..)), fun hb => traps_trap hb (congrArg _ (hsync ..)),
    fun hb => traps_trap hb (congrArg _ (hsync ..)), fun hb => traps_trap hb (congrArg _ (hsync ..)), fun hb => traps_trap hb (congrArg _ (hsync ..)),
    fun hs => ?_, fun hs hhere hfz => ?_, fun hs hhere hfz => ⟨?_, fun htakes => ?_, fun htakes hb => ?_⟩, fun hs hhere => ?_⟩
  · have hv : s.winValid = false := by rw [← Bool.not_eq_true, ← hsel]; exact hs
    rw [if_pos hv] at hld hst
    exact ⟨fun hb => traps_trap hb hld, fun hb => traps_trap hb hst⟩
  · have hv : ¬ s.winValid = false := by rw [hsel.mp hs]; nofun
    have hno : s.windowStore k o (s.me.reg d) = none := if_neg (by rw [beq_iff_eq]; exact hfz)
    rw [if_neg hv, if_pos hhere] at hld hst
    rw [if_neg hfz] at hld
    rw [hno] at hst
    exact ⟨fun hb => traps_trap hb hld, fun hb => traps_trap hb hst⟩
  · have hv : ¬ s.winValid = false := by rw [hsel.mp hs]; nofun
    rw [if_neg hv, if_pos hhere, if_pos hfz] at hld
    exact ⟨_, gives_setG hld, windowShows_windowRead hfz o⟩
  · have hv : ¬ s.winValid = false := by rw [hsel.mp hs]; nofun
    obtain ⟨c', hc', hwritten⟩ := windowWrite_of_takes ho htakes
    have hstore : s.windowStore k o (s.me.reg d) = some (s.setCtx k c') := by rw [State.windowStore, if_pos (by rw [beq_iff_eq]; exact hfz), hc']; rfl
    rw [if_neg hv, if_pos hhere, hstore, Option.elim_some] at hst
    have hme : (s.setCtx k c').me = s.me := ctx_setCtx_ne s c' (Ne.symm hk)
    refine ⟨_, hst, windowStored hk hfz hwritten, sameMemory_of_eq rfl rfl rfl, rfl, ?_, ?_, fun q hq hqc => ?_⟩
    · rw [me_retire, hme]; rfl
    · rw [me_retire, hme]; rfl
    · exact (ctx_retire_ne (s.setCtx k c') id hqc).trans (ctx_setCtx_ne s c' hq)
  · have hv : ¬ s.winValid = false := by rw [hsel.mp hs]; nofun
    have hno : s.windowStore k o (s.me.reg d) = none := by
      have : (s.ctx k).windowWrite o (s.me.reg d) = none := Option.eq_none_iff_forall_ne_some.mpr fun c' hc' => htakes (takes_of_windowWrite ho hc')
      rw [State.windowStore, this]; exact ite_self _
    rw [if_neg hv, if_pos hhere, hno] at hst
    exact traps_trap hb hst
  · have hv : ¬ s.winValid = false := by rw [hsel.mp hs]; nofun
    rw [if_neg hv, if_neg hhere] at hld hst
    obtain ⟨w1, a1⟩ := request_waits hrel 1 ea (faOf (keySp k) 0) (.read (keyCtx k * 2 ^ 16 + o) 8 3) (.load d 8 false) (some (d, 8, false, false))
    obtain ⟨w2, a2⟩ := request_waits hrel 2 ea (faOf (keySp k) 0) (.write (keyCtx k * 2 ^ 16 + o) 8 (s.me.reg d).toNat 3) .advance none
    rw [home_window] at a1 a2
    exact ⟨⟨_, hld, w1, a1⟩, _, hst, w2, a2⟩

/-- Settles O32: RESUME by its target's state, the window by the offset that a word has in the image. -/
theorem resumeThawsAFrozenContext : Obligations.ResumeThawsAFrozenContext :=
  ⟨resumeActsOnItsTarget, handlersReachTheWindow, resumeIsPrivileged⟩

end Sys2Proof.Laws
end

section
/-!
SUPPORT. Rounding as R11 tells it, over the real numbers: the codes of magnitudes and their values, the two codes that a number lies between, and the
one that a mode takes.
-/
namespace Sys2Proof.Laws
open Sys2Proof Sys2Proof.Machine Sys2Proof.Claims

/-! ### Between two neighbours -/

/-- A mode takes the upper of two neighbours for a magnitude strictly between them: `n` is the number of the lower one. -/
def GoesUp (rm : Rnd) (neg : Bool) (x lo hi : ℝ) (n : ℕ) : Prop :=
  match rm with
  | 0 => (lo + hi) / 2 < x ∨ ((lo + hi) / 2 = x ∧ n % 2 = 1)
  | 1 => False
  | 2 => neg = true
  | _ => neg = false

/-- The magnitude `x` lies from `lo` on below `hi`, whose numbers are `n` and `n + 1`, and `r` is the one that it rounds to. -/
structure RoundsBetween (rm : Rnd) (neg : Bool) (x lo hi : ℝ) (n r : ℕ) : Prop where
  le : lo ≤ x
  lt : x < hi
  exact : x = lo → r = n
  up : x ≠ lo → GoesUp rm neg x lo hi n → r = n + 1
  down : x ≠ lo → ¬ GoesUp rm neg x lo hi n → r = n

namespace RoundsBetween
variable {rm : Rnd} {neg : Bool} {x y lo hi : ℝ} {n r d : ℕ}

theorem eq_or (h : RoundsBetween rm neg x lo hi n r) : r = n ∨ (r = n + 1 ∧ x ≠ lo) := by
  by_cases hx : x = lo
  · exact .inl (h.exact hx)
  · by_cases hu : GoesUp rm neg x lo hi n
    · exact .inr ⟨h.up hx hu, hx⟩
    · exact .inl (h.down hx hu)

/-- The numbers of the neighbours may be counted from an even number. -/
theorem add (h : RoundsBetween rm neg x lo hi n r) (hd : d % 2 = 0) : RoundsBetween rm neg x lo hi (n + d) (r + d) := by
  have hg : GoesUp rm neg x lo hi (n + d) ↔ GoesUp rm neg x lo hi n := by
    unfold GoesUp
    split
    · rw [show (n + d) % 2 = n % 2 by omega]
    all_goals exact Iff.rfl
  refine ⟨h.le, h.lt, fun e => by rw [h.exact e], fun e hu => ?_, fun e hu => by rw [h.down e (hg.not.mp hu)]⟩
  rw [h.up e (hg.mp hu)]; omega

/-- Two numbers that no end and no midpoint separates round alike. -/
theorem congr (h : RoundsBetween rm neg x lo hi n r) (hlo : lo ≤ y) (hhi : y < hi) (hx : x ≠ lo) (hy : y ≠ lo)
    (hlt : (lo + hi) / 2 < x ↔ (lo + hi) / 2 < y) (heq : (lo + hi) / 2 = x ↔ (lo + hi) / 2 = y) : RoundsBetween rm neg y lo hi n r := by
  have hg : GoesUp rm neg y lo hi n ↔ GoesUp rm neg x lo hi n := by
    unfold GoesUp
    split
    · rw [hlt, heq]
    all_goals exact Iff.rfl
  exact ⟨hlo, hhi, fun e => absurd e hy, fun _ hu => h.up hx (hg.mp hu), fun _ hu => h.down hx (hg.not.mp hu)⟩
end RoundsBetween

/-! ### Multiples of a power of two -/

/-- `quantize` takes the upper multiple: `r` is the rest past the `n`-th, and `half` of the quantum is a tie. -/
def upBit (rm : Rnd) (neg : Bool) (half r n : ℕ) : Bool :=
  match rm with
  | 0 => decide (half < r) || (r == half && n % 2 == 1)
  | 1 => false
  | 2 => neg
  | _ => !neg

theorem quantize_of_lt (rm : Rnd) (neg : Bool) (m : ℕ) {e q : ℤ} {k : ℕ} (h : ¬ q ≤ e) (hk : (q - e).toNat = k + 1) : quantize rm neg m e q =
    if m % 2 ^ (k + 1) = 0 then (m / 2 ^ (k + 1), false)
    else (if upBit rm neg (2 ^ k) (m % 2 ^ (k + 1)) (m / 2 ^ (k + 1)) = true then m / 2 ^ (k + 1) + 1 else m / 2 ^ (k + 1), true) := by
  have hr : m - m / 2 ^ (k + 1) * 2 ^ (k + 1) = m % 2 ^ (k + 1) := by have := Nat.div_add_mod' m (2 ^ (k + 1)); omega
  rw [quantize, if_neg h]
  simp only [hk, Nat.shiftRight_eq_div_pow, Nat.shiftLeft_eq, hr, Nat.add_sub_cancel, one_mul]
  rfl

/-- `quantize` rounds to a multiple of its quantum. -/
theorem quantize_spec (rm : Rnd) (neg : Bool) (m : ℕ) (e q : ℤ) : ∃ n : ℕ,
    RoundsBetween rm neg (m * (2 : ℝ) ^ e) (n * (2 : ℝ) ^ q) ((n + 1 : ℕ) * (2 : ℝ) ^ q) n (quantize rm neg m e q).1 ∧
    ((quantize rm neg m e q).2 = true ↔ m * (2 : ℝ) ^ e ≠ n * (2 : ℝ) ^ q) := by
  have hq : (0 : ℝ) < 2 ^ q := by positivity
  by_cases h : q ≤ e
  · have hx : (m : ℝ) * 2 ^ e = (m <<< (e - q).toNat : ℕ) * 2 ^ q := by
      rw [Nat.shiftLeft_eq]
      push_cast
      rw [mul_assoc, ← zpow_natCast, ← zpow_add₀ (by norm_num)]
      congr 2; omega
    refine ⟨m <<< (e - q).toNat, ?_⟩
    rw [quantize, if_pos h, ← hx]
    exact ⟨⟨le_rfl, by rw [hx]; exact mul_lt_mul_of_pos_right (by push_cast; linarith) hq, fun _ => rfl, fun e => absurd rfl e, fun e => absurd rfl e⟩, by simp⟩
  · -- in units of the smaller power all ends are whole, and `r` says where between them the number lies
    obtain ⟨k, hk⟩ : ∃ k : ℕ, (q - e).toNat = k + 1 := ⟨(q - e).toNat - 1, by omega⟩
    let n := m / 2 ^ (k + 1)
    let r := m % 2 ^ (k + 1)
    have hu : (2 : ℝ) ^ q = (2 ^ (k + 1) : ℕ) * 2 ^ e := by
      push_cast
      rw [← zpow_natCast, ← zpow_add₀ (by norm_num)]; congr 1; omega
    have hm : m = n * 2 ^ (k + 1) + r := (Nat.div_add_mod' m _).symm
    have hr : r < 2 ^ (k + 1) := Nat.mod_lt _ (Nat.two_pow_pos _)
    have hW : (0 : ℝ) < 2 ^ e := by positivity
    have lo_eq (i : ℕ) : (i : ℝ) * 2 ^ q = (i * 2 ^ (k + 1) : ℕ) * 2 ^ e := by rw [hu]; push_cast; ring
    have mid_eq : ((n * 2 ^ (k + 1) : ℕ) * (2 : ℝ) ^ e + ((n + 1) * 2 ^ (k + 1) : ℕ) * (2 : ℝ) ^ e) / 2 = (n * 2 ^ (k + 1) + 2 ^ k : ℕ) * 2 ^ e := by
      push_cast; ring
    have lt_iff (i j : ℕ) : (i : ℝ) * 2 ^ e < j * 2 ^ e ↔ i < j := by rw [mul_lt_mul_iff_left₀ hW, Nat.cast_lt]
    have eq_iff (i j : ℕ) : (i : ℝ) * 2 ^ e = j * 2 ^ e ↔ i = j := by rw [mul_left_inj' hW.ne', Nat.cast_inj]
    have hgo : GoesUp rm neg (m * (2 : ℝ) ^ e) ((n * 2 ^ (k + 1) : ℕ) * (2 : ℝ) ^ e) (((n + 1) * 2 ^ (k + 1) : ℕ) * (2 : ℝ) ^ e) n ↔
        upBit rm neg (2 ^ k) r n = true := by
      unfold GoesUp upBit
      rw [mid_eq, lt_iff, eq_iff]
      split
      · rw [Bool.or_eq_true, Bool.and_eq_true, decide_eq_true_iff, beq_iff_eq, beq_iff_eq]
        exact or_congr (by omega) (and_congr (by omega) Iff.rfl)
      all_goals simp
    have hval := quantize_of_lt rm neg m h hk
    have hne : (m : ℝ) * 2 ^ e = (n * 2 ^ (k + 1) : ℕ) * 2 ^ e ↔ r = 0 := by rw [eq_iff]; omega
    refine ⟨n, ?_⟩
    rw [lo_eq, lo_eq, hval]
    refine ⟨⟨?_, ?_, fun e => ?_, fun e hu => ?_, fun e hu => ?_⟩, ?_⟩
    · exact mul_le_mul_of_nonneg_right (Nat.cast_le.mpr (by omega)) hW.le
    · rw [lt_iff, Nat.add_mul]; omega
    · rw [if_pos (hne.mp e)]
    · rw [if_neg (hne.not.mp e), if_pos (hgo.mp hu)]
    · rw [if_neg (hne.not.mp e), if_neg (hgo.not.mp hu)]
    · rw [ne_eq, hne]
      split
      case isTrue h0 => exact iff_of_false (by simp) (not_not.mpr h0)
      case isFalse h0 => exact iff_of_true rfl h0

/-! ### Codes of magnitudes (R205) -/

/-- The steps of its binade above the smallest one that a code of a magnitude has. -/
def binade (f : Fmt) (c : ℕ) : ℕ := c / 2 ^ f.mb - 1

/-- The multiple of its step that a code of a magnitude stands for. -/
def mantissa (f : Fmt) (c : ℕ) : ℕ := c - binade f c * 2 ^ f.mb

/-- The exponent of the step. -/
def stepExp (f : Fmt) (c : ℕ) : ℤ := binade f c + (f.emin - f.mb)

/-- The value of a code of a magnitude, as if exponents had no end. -/
noncomputable def magVal (f : Fmt) (c : ℕ) : ℝ := mantissa f c * (2 : ℝ) ^ stepExp f c

section
variable {f : Fmt} {h k c d : ℕ}

theorem mantissa_lt (f : Fmt) (c : ℕ) : mantissa f c < 2 ^ (f.mb + 1) := by
  have h1 := Nat.div_add_mod' c (2 ^ f.mb)
  have h2 := Nat.mod_lt c (Nat.two_pow_pos f.mb)
  have h3 : c / 2 ^ f.mb ≤ binade f c + 1 := by unfold binade; omega
  have h4 : c / 2 ^ f.mb * 2 ^ f.mb ≤ (binade f c + 1) * 2 ^ f.mb := Nat.mul_le_mul_right _ h3
  rw [Nat.add_mul] at h4
  rw [mantissa, Nat.pow_succ]; omega

theorem code_eq (f : Fmt) (c : ℕ) : c = mantissa f c + binade f c * 2 ^ f.mb := by
  have h1 : binade f c * 2 ^ f.mb ≤ c := (Nat.mul_le_mul_right _ (Nat.sub_le _ _)).trans (Nat.div_mul_le_self c _)
  rw [mantissa]; omega

theorem binade_eq_zero_or (f : Fmt) (c : ℕ) : binade f c = 0 ∨ 2 ^ f.mb ≤ mantissa f c := by
  by_cases hb : binade f c = 0
  · exact .inl hb
  · refine .inr ?_
    have h1 : binade f c + 1 = c / 2 ^ f.mb := by unfold binade at *; omega
    have h2 := Nat.div_mul_le_self c (2 ^ f.mb)
    rw [← h1, Nat.add_mul] at h2
    rw [mantissa]; omega

/-- A multiple of a step that fits the mantissa, or is the next power of two. -/
theorem magVal_add (hk : k ≤ 2 ^ (f.mb + 1)) (hh : h = 0 ∨ 2 ^ f.mb ≤ k) : magVal f (k + h * 2 ^ f.mb) = k * (2 : ℝ) ^ (h + (f.emin - f.mb)) := by
  have hp := Nat.two_pow_pos f.mb
  have hdiv : (k + h * 2 ^ f.mb) / 2 ^ f.mb = k / 2 ^ f.mb + h := Nat.add_mul_div_right k h hp
  rcases Nat.lt_or_ge k (2 ^ (f.mb + 1)) with hlt | hge
  · have hb : binade f (k + h * 2 ^ f.mb) = h := by
      rw [binade, hdiv]
      rw [Nat.pow_succ] at hlt
      have h2 : k / 2 ^ f.mb < 2 := Nat.div_lt_of_lt_mul (by omega)
      rcases hh with rfl | hh
      · omega
      · have : 1 ≤ k / 2 ^ f.mb := (Nat.one_le_div_iff hp).mpr hh
        omega
    rw [magVal, stepExp, mantissa, hb, Nat.add_sub_cancel]
  · obtain rfl : k = 2 ^ (f.mb + 1) := le_antisymm hk hge
    have hb : binade f (2 ^ (f.mb + 1) + h * 2 ^ f.mb) = h + 1 := by
      rw [binade, hdiv, Nat.pow_succ, Nat.mul_div_cancel_left _ hp]; omega
    have hm : 2 ^ (f.mb + 1) + h * 2 ^ f.mb - (h + 1) * 2 ^ f.mb = 2 ^ f.mb := by rw [Nat.pow_succ, Nat.add_mul]; omega
    rw [magVal, stepExp, mantissa, hb, hm]
    push_cast
    rw [show ((h : ℤ) + 1 + (f.emin - f.mb)) = (h + (f.emin - f.mb)) + 1 by ring, zpow_add_one₀ (by norm_num), pow_succ]
    ring

theorem magVal_succ (f : Fmt) (c : ℕ) : magVal f (c + 1) = (mantissa f c + 1 : ℕ) * (2 : ℝ) ^ stepExp f c := by
  have h := magVal_add (f := f) (k := mantissa f c + 1) (h := binade f c) (mantissa_lt f c) ((binade_eq_zero_or f c).imp_right fun h => h.trans (Nat.le_succ _))
  rw [← stepExp] at h
  rw [← h]
  congr 1
  have := code_eq f c
  omega

theorem magVal_strictMono (f : Fmt) : StrictMono (magVal f) := by
  refine strictMono_nat_of_lt_succ fun c => ?_
  rw [magVal_succ, magVal]
  exact mul_lt_mul_of_pos_right (by push_cast; linarith) (by positivity)

theorem magVal_zero (f : Fmt) : magVal f 0 = 0 := by simp [magVal, mantissa]

theorem magVal_nonneg (f : Fmt) (c : ℕ) : 0 ≤ magVal f c := by unfold magVal; positivity

theorem magVal_le_iff : magVal f c ≤ magVal f d ↔ c ≤ d := (magVal_strictMono f).le_iff_le
theorem magVal_lt_iff : magVal f c < magVal f d ↔ c < d := (magVal_strictMono f).lt_iff_lt
end

end Sys2Proof.Laws
end

section
/-!
SUPPORT. `Round` of a finite number (R11): the two codes next to it, the one of them that the mode takes, and its flags.
-/
namespace Sys2Proof.Laws
open Sys2Proof Sys2Proof.Machine Sys2Proof.Claims

/-! ### `Round` of a finite number -/

/-- Past the largest finite number a mode takes the infinity. -/
def towardInf (rm : Rnd) (neg : Bool) : Bool := match rm with | 0 => true | 1 => false | 2 => neg | _ => !neg

/-- The code and the flags of a magnitude's rounded code. -/
def packed (f : Fmt) (rm : Rnd) (neg : Bool) (mag : ℕ) (inx tiny : Bool) : ℕ × ℕ :=
  if f.maxFin < mag then (f.withSign neg (if towardInf rm neg && f.special != 1 then f.infCode else f.maxFin), flOF + flNX)
  else (f.withSign neg mag, if inx then (if tiny then flUF + flNX else flNX) else 0)

/-- A result is the rounding of the magnitude `x` with a sign. -/
def RoundedAs (f : Fmt) (rm : Rnd) (neg : Bool) (x : ℝ) (r : ℕ × ℕ) : Prop :=
  ∃ (c mag : ℕ) (inx tiny : Bool), RoundsBetween rm neg x (magVal f c) (magVal f (c + 1)) c mag ∧ (inx = true ↔ x ≠ magVal f c) ∧
    (tiny = true → x < (2 : ℝ) ^ f.emin) ∧ r = packed f rm neg mag inx tiny

section
variable {f : Fmt} {rm : Rnd} {n : Bool} {m : ℕ} {e : ℤ}

theorem log2_bounds (hm : m ≠ 0) (e : ℤ) : (2 : ℝ) ^ ((Nat.log2 m : ℤ) + e) ≤ m * 2 ^ e ∧ m * (2 : ℝ) ^ e < 2 ^ ((Nat.log2 m : ℤ) + e + 1) := by
  have h1 : (2 : ℝ) ^ Nat.log2 m ≤ m := by exact_mod_cast Nat.log2_self_le hm
  have h2 : (m : ℝ) < 2 ^ (Nat.log2 m + 1) := by exact_mod_cast Nat.lt_log2_self
  have hp : (0 : ℝ) < 2 ^ e := by positivity
  constructor
  · rw [zpow_add₀ (by norm_num), zpow_natCast]; exact mul_le_mul_of_nonneg_right h1 hp.le
  · rw [add_right_comm, zpow_add₀ (by norm_num), show (Nat.log2 m : ℤ) + 1 = (Nat.log2 m + 1 : ℕ) by push_cast; rfl, zpow_natCast]
    exact mul_lt_mul_of_pos_right h2 hp

/-- The code of a rounded magnitude, in the model's terms. -/
theorem round_eq (hm : m ≠ 0) {k : ℕ} {inx : Bool} (hk : quantize rm n m e (max (Nat.log2 m + e) f.emin - f.mb) = (k, inx)) : ∃ tiny : Bool,
    (tiny = true → (Nat.log2 m : ℤ) + e < f.emin) ∧ f.round rm (.fin n m e) = packed f rm n
      (if k < 2 ^ f.mb then k else k - 2 ^ f.mb + (max (Nat.log2 m + e) f.emin - f.mb + f.mb + f.bias).toNat * 2 ^ f.mb) inx tiny := by
  unfold Fmt.round
  simp only [if_neg hm, hk]
  refine ⟨_, ?_, rfl⟩
  intro h
  exact of_decide_eq_true (Bool.and_eq_true_iff.mp h).1

theorem roundedAs_fin (hmb : 0 < f.mb) (hm : m ≠ 0) : RoundedAs f rm n (m * (2 : ℝ) ^ e) (f.round rm (.fin n m e)) := by
  obtain ⟨hlo, hhi⟩ := log2_bounds hm e
  set ex : ℤ := Nat.log2 m + e with hex
  set x : ℝ := m * (2 : ℝ) ^ e with hx
  obtain ⟨k0, hb, hinx⟩ := quantize_spec rm n m e (max ex f.emin - f.mb)
  obtain ⟨⟨k, inx⟩, hk⟩ : ∃ p, quantize rm n m e (max ex f.emin - f.mb) = p := ⟨_, rfl⟩
  obtain ⟨tiny, htiny, hround⟩ := round_eq (f := f) hm hk
  rw [hk] at hb hinx
  obtain ⟨h, hh⟩ : ∃ h : ℕ, max ex f.emin - f.mb = h + (f.emin - f.mb) := ⟨(max ex f.emin - f.emin).toNat, by omega⟩
  rw [hh] at hb hinx hround
  have hstep : (0 : ℝ) < 2 ^ (h + (f.emin - f.mb) : ℤ) := by positivity
  have step_mul (i : ℕ) : ((2 ^ i : ℕ) : ℝ) * 2 ^ (h + (f.emin - f.mb) : ℤ) = 2 ^ (i + (h + (f.emin - f.mb)) : ℤ) := by
    push_cast; rw [← zpow_natCast, ← zpow_add₀ (by norm_num)]
  -- the lower neighbour fits the mantissa, and fills it above the smallest binade
  have hk0 : k0 < 2 ^ (f.mb + 1) := by
    have h1 : (k0 : ℝ) * 2 ^ (h + (f.emin - f.mb) : ℤ) < (2 ^ (f.mb + 1) : ℕ) * 2 ^ (h + (f.emin - f.mb) : ℤ) := by
      rw [step_mul]
      refine hb.le.trans_lt (hhi.trans_le (zpow_le_zpow_right₀ (by norm_num) ?_))
      push_cast; omega
    exact_mod_cast lt_of_mul_lt_mul_right h1 hstep.le
  have hfill : h = 0 ∨ 2 ^ f.mb ≤ k0 := by
    rcases Nat.eq_zero_or_pos h with h0 | hpos
    · exact .inl h0
    · refine .inr (Nat.lt_succ_iff.mp ?_)
      have h1 : ((2 ^ f.mb : ℕ) : ℝ) * 2 ^ (h + (f.emin - f.mb) : ℤ) < (k0 + 1 : ℕ) * 2 ^ (h + (f.emin - f.mb) : ℤ) := by
        rw [step_mul]
        refine lt_of_le_of_lt ((zpow_le_zpow_right₀ (by norm_num) ?_).trans hlo) hb.lt
        omega
      exact_mod_cast lt_of_mul_lt_mul_right h1 hstep.le
  have hval : magVal f (k0 + h * 2 ^ f.mb) = k0 * 2 ^ (h + (f.emin - f.mb) : ℤ) := magVal_add hk0.le hfill
  have hval1 : magVal f (k0 + h * 2 ^ f.mb + 1) = (k0 + 1 : ℕ) * 2 ^ (h + (f.emin - f.mb) : ℤ) := by
    rw [add_right_comm]; exact magVal_add hk0 (hfill.imp_right fun h => h.trans (Nat.le_succ _))
  have heven : h * 2 ^ f.mb % 2 = 0 := by
    obtain ⟨j, hj⟩ : ∃ j, f.mb = j + 1 := ⟨f.mb - 1, by omega⟩
    rw [hj, Nat.pow_succ, ← mul_assoc]; exact Nat.mul_mod_left _ _
  have hmag : (if k < 2 ^ f.mb then k else k - 2 ^ f.mb + (h + (f.emin - f.mb) + f.mb + f.bias : ℤ).toNat * 2 ^ f.mb) = k + h * 2 ^ f.mb := by
    have hbias : (h + (f.emin - f.mb) + f.mb + f.bias : ℤ).toNat = h + 1 := by rw [Fmt.emin]; omega
    have hkk : k0 ≤ k := by rcases hb.eq_or with e | ⟨e, -⟩ <;> simp only at e <;> omega
    split
    case isTrue hlt =>
      rcases hfill with rfl | hf
      · rw [Nat.zero_mul, Nat.add_zero]
      · omega
    case isFalse hge => rw [hbias, Nat.add_mul]; omega
  rw [hmag] at hround
  refine ⟨k0 + h * 2 ^ f.mb, k + h * 2 ^ f.mb, inx, tiny, ?_, ?_, fun ht => hhi.trans_le (zpow_le_zpow_right₀ (by norm_num) (htiny ht)), hround⟩
  · rw [hval, hval1]; exact hb.add heven
  · rw [hval]; exact hinx
end
end Sys2Proof.Laws
end

section
/-!
SUPPORT. The codes of a format and the numbers they stand for.
-/
namespace Sys2Proof.Laws
open Sys2Proof Sys2Proof.Machine Sys2Proof.Claims

/-! ### Codes and their values -/

/-- What the codes of a format need for its finite ones to be those up to `maxFin`. -/
structure GoodFmt (f : Fmt) : Prop where
  mb : 0 < f.mb
  eb : 0 < f.eb
  max : f.maxFin < 2 ^ (f.eb + f.mb)

theorem goodFmt_float {f : Fmt} (h : f = fp16 ∨ f = bf16 ∨ f = fp32 ∨ f = fp64 ∨ f = e4m3 ∨ f = e5m2) : GoodFmt f := by
  rcases h with rfl | rfl | rfl | rfl | rfl | rfl <;> exact ⟨by decide, by decide, by decide⟩

theorem goodFmt_ieee {f : Fmt} (h : IsIeee f) : GoodFmt f := goodFmt_float (by unfold IsIeee at h; tauto)

section
variable {f : Fmt} {n : Bool} {c : ℕ}

/-- A code is its sign and the code of its magnitude. -/
theorem withSign_parts (n : Bool) (hc : c < 2 ^ (f.eb + f.mb)) :
    f.withSign n c % 2 ^ f.bits = f.withSign n c ∧ (f.withSign n c / 2 ^ (f.eb + f.mb) == 1) = n ∧ f.withSign n c % 2 ^ (f.eb + f.mb) = c := by
  have hp := Nat.two_pow_pos (f.eb + f.mb)
  refine ⟨Nat.mod_eq_of_lt (withSign_lt n hc), ?_, ?_⟩
  · cases n
    · simp [Fmt.withSign, Nat.div_eq_of_lt hc]
    · simp [Fmt.withSign, Nat.add_div_left _ hp, Nat.div_eq_of_lt hc]
  · cases n
    · simp [Fmt.withSign, Nat.mod_eq_of_lt hc]
    · simp [Fmt.withSign, Nat.mod_eq_of_lt hc]

theorem exists_withSign {y : ℕ} (hy : y < 2 ^ f.bits) : ∃ n c, c < 2 ^ (f.eb + f.mb) ∧ y = f.withSign n c := by
  have hp := Nat.two_pow_pos (f.eb + f.mb)
  rw [Fmt.bits, Nat.pow_succ] at hy
  refine ⟨decide (2 ^ (f.eb + f.mb) ≤ y), y % 2 ^ (f.eb + f.mb), Nat.mod_lt _ hp, ?_⟩
  unfold Fmt.withSign
  by_cases h : 2 ^ (f.eb + f.mb) ≤ y
  · rw [decide_eq_true h, if_pos rfl, Nat.mod_eq_sub_mod h, Nat.mod_eq_of_lt (by omega)]; omega
  · rw [decide_eq_false h, if_neg (by simp), Nat.mod_eq_of_lt (by omega)]; omega

theorem withSign_mod_two (hf : GoodFmt f) (n : Bool) : f.withSign n c % 2 = c % 2 := by
  have : 2 ^ (f.eb + f.mb) % 2 = 0 := by
    obtain ⟨j, hj⟩ : ∃ j, f.eb + f.mb = j + 1 := ⟨f.eb + f.mb - 1, by have := hf.mb; omega⟩
    rw [hj, Nat.pow_succ]; exact Nat.mul_mod_left _ _
  unfold Fmt.withSign
  split <;> omega

theorem decode_withSign (n : Bool) (hc : c < 2 ^ (f.eb + f.mb)) : f.decode (f.withSign n c) =
    if f.special = 1 && c == 0x7F then .nan false
    else if f.special != 1 && c / 2 ^ f.mb == 2 ^ f.eb - 1 then
      if c % 2 ^ f.mb == 0 then .inf n else .nan (f.special == 0 && c % 2 ^ f.mb < 2 ^ (f.mb - 1))
    else if c / 2 ^ f.mb == 0 then .fin n (c % 2 ^ f.mb) (f.emin - (f.mb : ℤ))
    else .fin n (2 ^ f.mb + c % 2 ^ f.mb) ((c / 2 ^ f.mb : ℕ) - (f.bias : ℤ) - (f.mb : ℤ)) := by
  obtain ⟨h1, h2, h3⟩ := withSign_parts (f := f) n hc
  simp only [Fmt.decode, h1, h2, h3]

theorem maxFin_add_one (hs : f.special ≠ 1) (hf : GoodFmt f) : f.maxFin + 1 = f.infCode := by
  have h1 : 0 < (2 ^ f.eb - 1) * 2 ^ f.mb := Nat.mul_pos (by have := Nat.one_lt_two_pow hf.eb.ne'; omega) (Nat.two_pow_pos _)
  rw [Fmt.maxFin, if_neg hs, Fmt.infCode]; omega

/-- A code up to the largest finite one is that multiple of its step. -/
theorem decode_finite (hf : GoodFmt f) (n : Bool) (hc : c ≤ f.maxFin) : f.decode (f.withSign n c) = .fin n (mantissa f c) (stepExp f c) := by
  have hp := Nat.two_pow_pos f.mb
  rw [decode_withSign n (hc.trans_lt hf.max)]
  have h1 : ¬ ((f.special = 1 && c == 0x7F) = true) := by
    simp only [Bool.and_eq_true, decide_eq_true_iff, beq_iff_eq]
    rintro ⟨hs, rfl⟩
    rw [Fmt.maxFin, if_pos hs] at hc
    omega
  have h2 : ¬ ((f.special != 1 && c / 2 ^ f.mb == 2 ^ f.eb - 1) = true) := by
    simp only [Bool.and_eq_true, bne_iff_ne, beq_iff_eq]
    rintro ⟨hs, he⟩
    have h3 := Nat.div_mul_le_self c (2 ^ f.mb)
    have h4 := maxFin_add_one hs hf
    rw [he, ← Fmt.infCode] at h3
    omega
  rw [if_neg h1, if_neg h2]
  have hmod := Nat.div_add_mod' c (2 ^ f.mb)
  split
  case isTrue he =>
    have he := beq_iff_eq.mp he
    have hb : binade f c = 0 := by rw [binade, he]
    rw [stepExp, mantissa, hb, Nat.mod_eq_of_lt ((Nat.div_eq_zero_iff_lt hp).mp he)]
    simp
  case isFalse he =>
    have he : c / 2 ^ f.mb ≠ 0 := fun e => he (beq_iff_eq.mpr e)
    have hb : binade f c + 1 = c / 2 ^ f.mb := Nat.sub_add_cancel (Nat.pos_of_ne_zero he)
    rw [← hb, Nat.add_mul] at hmod
    rw [stepExp, mantissa, show 2 ^ f.mb + c % 2 ^ f.mb = c - binade f c * 2 ^ f.mb by omega, ← hb]
    congr 1
    rw [Fmt.emin]; push_cast; ring

theorem decode_infCode (hs : f.special ≠ 1) (n : Bool) : f.decode (f.withSign n f.infCode) = .inf n := by
  have hp := Nat.two_pow_pos f.mb
  have hlt : f.infCode < 2 ^ (f.eb + f.mb) := by
    rw [Fmt.infCode, Nat.pow_add]
    exact Nat.mul_lt_mul_of_pos_right (Nat.sub_lt (Nat.two_pow_pos _) Nat.one_pos) hp
  rw [decode_withSign n hlt, if_neg (by simp [hs]), if_pos, if_pos]
  · rw [Fmt.infCode]; simp
  · rw [Fmt.infCode, Nat.mul_div_cancel _ hp]; simp [hs]

/-- Past the largest finite number there are no numbers. -/
theorem decode_not_finite (hs : f.special ≠ 1) (hf : GoodFmt f) (n : Bool) (hc : c < 2 ^ (f.eb + f.mb)) (hm : f.maxFin < c) :
    (f.decode (f.withSign n c)).isFin = false := by
  have hp := Nat.two_pow_pos f.mb
  have h1 := maxFin_add_one hs hf
  have h2 : c / 2 ^ f.mb = 2 ^ f.eb - 1 := by
    rw [Nat.pow_add] at hc
    have h3 : c / 2 ^ f.mb < 2 ^ f.eb := Nat.div_lt_of_lt_mul (by rwa [Nat.mul_comm])
    have h4 : 2 ^ f.eb - 1 ≤ c / 2 ^ f.mb := (Nat.le_div_iff_mul_le hp).mpr (by rw [← Fmt.infCode]; omega)
    omega
  rw [decode_withSign n hc, if_neg (by simp [hs]), if_pos (by simp [hs, h2])]
  split <;> rfl

/-- The finite codes of a format of IEEE 754. -/
theorem finiteCode_iff (hs : f.special ≠ 1) (hf : GoodFmt f) {y : ℕ} : FiniteCode f y ↔ ∃ n c, c ≤ f.maxFin ∧ y = f.withSign n c := by
  constructor
  · rintro ⟨hy, hfin⟩
    obtain ⟨n, c, hc, rfl⟩ := exists_withSign hy
    refine ⟨n, c, Nat.le_of_not_lt fun hm => ?_, rfl⟩
    rw [decode_not_finite hs hf n hc hm] at hfin
    cases hfin
  · rintro ⟨n, c, hc, rfl⟩
    exact ⟨withSign_lt n (hc.trans_lt hf.max), by rw [decode_finite hf n hc]; rfl⟩

/-- The number with a sign. -/
noncomputable def signed (n : Bool) (x : ℝ) : ℝ := if n then -x else x

theorem cast_valueOf_fin (n : Bool) (m : ℕ) (e : ℤ) : ((valueOf (.fin n m e) : ℚ) : ℝ) = signed n (m * 2 ^ e) := by
  cases n <;> simp [valueOf, signed]

theorem valueOf_withSign (hf : GoodFmt f) (n : Bool) (hc : c ≤ f.maxFin) : ((valueOf (f.decode (f.withSign n c)) : ℚ) : ℝ) = signed n (magVal f c) := by
  rw [decode_finite hf n hc, cast_valueOf_fin, magVal]
end
end Sys2Proof.Laws
end

section
/-!
SUPPORT. The neighbour that a mode takes, as R11 names it: the nearest, or the one towards zero, below or above.
-/
namespace Sys2Proof.Laws
open Sys2Proof Sys2Proof.Machine Sys2Proof.Claims

/-! ### The neighbour that a mode takes -/

namespace RoundsBetween
variable {f : Fmt} {rm : Rnd} {n : Bool} {x : ℝ} {c mag : ℕ}

theorem nonneg (h : RoundsBetween rm n x (magVal f c) (magVal f (c + 1)) c mag) : 0 ≤ x := (magVal_nonneg f c).trans h.le

/-- To nearest: no code is nearer, and of two equally near ones it is the even one. -/
theorem nearest (h : RoundsBetween 0 n x (magVal f c) (magVal f (c + 1)) c mag) (d : ℕ) :
    |x - magVal f mag| ≤ |x - magVal f d| ∧ (|x - magVal f mag| = |x - magVal f d| → d ≠ mag → mag % 2 = 0) := by
  have hlo := h.le
  have hhi := h.lt
  have below (hd : d ≤ c) : x - magVal f c ≤ |x - magVal f d| ∧ (x - magVal f c = |x - magVal f d| → d = c) := by
    have hv : magVal f d ≤ magVal f c := magVal_le_iff.mpr hd
    rw [abs_of_nonneg (by linarith)]
    exact ⟨by linarith, fun e => (magVal_strictMono f).injective (by linarith)⟩
  have above (hd : c + 1 ≤ d) : magVal f (c + 1) - x ≤ |x - magVal f d| ∧ (magVal f (c + 1) - x = |x - magVal f d| → d = c + 1) := by
    have hv : magVal f (c + 1) ≤ magVal f d := magVal_le_iff.mpr hd
    rw [abs_of_nonpos (by linarith)]
    exact ⟨by linarith, fun e => (magVal_strictMono f).injective (by linarith)⟩
  by_cases hx : x = magVal f c
  · obtain rfl := h.exact hx
    rw [hx, sub_self, abs_zero]
    refine ⟨abs_nonneg _, fun e hd => absurd ((magVal_strictMono f).injective ?_).symm hd⟩
    exact sub_eq_zero.mp (abs_eq_zero.mp e.symm)
  · by_cases hu : GoesUp 0 n x (magVal f c) (magVal f (c + 1)) c
    · obtain rfl := h.up hx hu
      have hmid : magVal f (c + 1) - x ≤ x - magVal f c := by rcases hu with hu | ⟨hu, -⟩ <;> linarith
      rw [abs_of_nonpos (sub_nonpos.mpr hhi.le), neg_sub]
      rcases Nat.lt_or_ge c d with hd | hd
      · exact ⟨(above hd).1, fun e hne => absurd ((above hd).2 e) hne⟩
      · refine ⟨hmid.trans (below hd).1, fun e _ => ?_⟩
        rcases hu with hu | ⟨-, hodd⟩
        · have := (below hd).1; linarith
        · omega
    · obtain rfl := h.down hx hu
      have hu1 : x ≤ (magVal f mag + magVal f (mag + 1)) / 2 := not_lt.mp fun e => hu (.inl e)
      have hmid : x - magVal f mag ≤ magVal f (mag + 1) - x := by linarith
      rw [abs_of_nonneg (sub_nonneg.mpr hlo)]
      rcases Nat.lt_or_ge mag d with hd | hd
      · refine ⟨hmid.trans (above hd).1, fun e _ => Nat.mod_two_ne_one.mp fun hodd => hu (.inr ⟨?_, hodd⟩)⟩
        have := (above hd).1; linarith
      · exact ⟨(below hd).1, fun e hne => absurd ((below hd).2 e) hne⟩

/-- Towards zero: the largest code that is not larger. -/
theorem toward (h : RoundsBetween rm n x (magVal f c) (magVal f (c + 1)) c mag) (hu : ¬ GoesUp rm n x (magVal f c) (magVal f (c + 1)) c) :
    magVal f mag ≤ x ∧ ∀ d, magVal f d ≤ x → d ≤ mag := by
  have hm : mag = c := by
    by_cases hx : x = magVal f c
    · exact h.exact hx
    · exact h.down hx hu
  rw [hm]
  exact ⟨h.le, fun d hd => Nat.lt_succ_iff.mp (magVal_lt_iff.mp (hd.trans_lt h.lt))⟩

/-- Away from zero: the smallest code that is not smaller. -/
theorem away (h : RoundsBetween rm n x (magVal f c) (magVal f (c + 1)) c mag) (hu : GoesUp rm n x (magVal f c) (magVal f (c + 1)) c) :
    x ≤ magVal f mag ∧ ∀ d, x ≤ magVal f d → mag ≤ d := by
  by_cases hx : x = magVal f c
  · rw [h.exact hx, hx]
    exact ⟨le_rfl, fun d hd => magVal_le_iff.mp hd⟩
  · rw [h.up hx hu]
    exact ⟨h.lt.le, fun d hd => magVal_lt_iff.mp ((lt_of_le_of_ne h.le (Ne.symm hx)).trans_le hd)⟩

/-- To nearest, past an odd code: from half a step on. -/
theorem lt_iff_nearest (h : RoundsBetween 0 n x (magVal f c) (magVal f (c + 1)) c mag) {t : ℕ} (ht : t % 2 = 1) :
    t < mag ↔ (magVal f t + magVal f (t + 1)) / 2 ≤ x := by
  have hstep : magVal f t < magVal f (t + 1) := magVal_strictMono f (Nat.lt_succ_self t)
  constructor
  · intro hm
    rcases Nat.lt_or_ge t c with hc | hc
    · have : magVal f (t + 1) ≤ magVal f c := magVal_le_iff.mpr hc
      have := h.le
      linarith
    · rcases h.eq_or with e | ⟨e, hx⟩
      · omega
      · obtain rfl : t = c := by omega
        by_contra hlt
        have hu : ¬ GoesUp 0 n x (magVal f t) (magVal f (t + 1)) t := by
          rintro (hu | ⟨hu, -⟩) <;> exact hlt (by linarith)
        have := h.down hx hu
        omega
  · intro hmid
    by_contra hm
    rcases Nat.lt_or_ge c t with hc | hc
    · have : magVal f (c + 1) ≤ magVal f t := magVal_le_iff.mpr hc
      have := h.lt
      linarith
    · obtain rfl : c = t := by rcases h.eq_or with e | ⟨e, -⟩ <;> omega
      have hx : x ≠ magVal f c := by intro e; linarith
      have hu : GoesUp 0 n x (magVal f c) (magVal f (c + 1)) c := by
        rcases hmid.lt_or_eq with hlt | heq
        · exact .inl hlt
        · exact .inr ⟨heq, ht⟩
      have := h.up hx hu
      omega
end RoundsBetween

/-! ### The result of a rounding -/

/-- Of a format of IEEE 754 the largest finite code, which is odd, and its step. -/
theorem ieee_max {f : Fmt} (h : IsIeee f) : f.special ≠ 1 ∧ f.maxFin % 2 = 1 ∧ stepExp f f.maxFin = (f.bias : ℤ) - f.mb := by
  rcases h with rfl | rfl | rfl | rfl <;> decide

section
variable {f : Fmt} {rm : Rnd} {n inx tiny : Bool} {x : ℝ} {c mag : ℕ}

theorem half_eq (h : IsIeee f) : magVal f f.maxFin + (2 : ℝ) ^ ((f.bias : ℤ) - f.mb - 1) = (magVal f f.maxFin + magVal f (f.maxFin + 1)) / 2 := by
  rw [magVal_succ, magVal, (ieee_max h).2.2, zpow_sub_one₀ (by norm_num)]
  push_cast; ring

/-- A rounding that overflows to the infinity, and every other one. -/
theorem packed_cases (h : IsIeee f) (rm : Rnd) (n : Bool) (mag : ℕ) (inx tiny : Bool) :
    (f.maxFin < mag ∧ towardInf rm n = true ∧ (packed f rm n mag inx tiny).1 = f.withSign n f.infCode) ∨
    ((mag ≤ f.maxFin ∨ towardInf rm n = false) ∧ (packed f rm n mag inx tiny).1 = f.withSign n (min mag f.maxFin)) := by
  unfold packed
  split
  case isTrue hm =>
    cases ht : towardInf rm n
    · exact .inr ⟨.inr rfl, by rw [min_eq_right hm.le]; rfl⟩
    · exact .inl ⟨hm, rfl, by simp [(ieee_max h).1]⟩
  case isFalse hm => exact .inr ⟨.inl (not_lt.mp hm), by rw [min_eq_left (not_lt.mp hm)]⟩

theorem abs_signed (n : Bool) (x : ℝ) : |signed n x| = |x| := by cases n <;> simp [signed]

theorem abs_signed_sub (n : Bool) (x y : ℝ) : |signed n x - signed n y| = |x - y| := by
  cases n
  · rfl
  · simp only [signed, if_true]; rw [← abs_neg]; congr 1; ring

theorem signed_not (n : Bool) (x : ℝ) : signed (!n) x = signed n (-x) := by cases n <;> simp [signed]

end
end Sys2Proof.Laws
end

section
/-!
SUPPORT. `RoundsReal`, mode by mode.
-/
namespace Sys2Proof.Laws
open Sys2Proof Sys2Proof.Machine Sys2Proof.Claims

section
variable {f : Fmt} {rm : Rnd} {n inx tiny : Bool} {x : ℝ} {c mag : ℕ}

/-! ### `RoundsReal`, mode by mode -/

section
variable (h : RoundsBetween rm n x (magVal f c) (magVal f (c + 1)) c mag)
include h

theorem finite_nearest (hf : IsIeee f) (hrm : rm = 0) (hm : mag ≤ f.maxFin) {y : ℕ} (hy : FiniteCode f y) :
    |signed n x - ((valueOf (f.decode (f.withSign n mag)) : ℚ) : ℝ)| ≤ |signed n x - ((valueOf (f.decode y) : ℚ) : ℝ)| ∧
    (|signed n x - ((valueOf (f.decode (f.withSign n mag)) : ℚ) : ℝ)| = |signed n x - ((valueOf (f.decode y) : ℚ) : ℝ)| →
      ((valueOf (f.decode y) : ℚ) : ℝ) ≠ ((valueOf (f.decode (f.withSign n mag)) : ℚ) : ℝ) → f.withSign n mag % 2 = 0) := by
  subst hrm
  have hg := goodFmt_ieee hf
  obtain ⟨s, d, hd, rfl⟩ := (finiteCode_iff (ieee_max hf).1 hg).mp hy
  obtain ⟨hle, htie⟩ := h.nearest d
  have hx := h.nonneg
  have hv := magVal_nonneg f d
  rw [valueOf_withSign hg n hm, valueOf_withSign hg s hd, abs_signed_sub, withSign_mod_two hg]
  by_cases hs : s = n
  · subst hs
    rw [abs_signed_sub]
    exact ⟨hle, fun e hne => htie e fun e' => hne (by rw [e'])⟩
  · -- a number of the other sign is no nearer than its opposite
    obtain rfl : s = !n := by cases s <;> cases n <;> simp_all
    rw [signed_not, abs_signed_sub, sub_neg_eq_add, abs_of_nonneg (add_nonneg hx hv)]
    have hfar : |x - magVal f d| ≤ x + magVal f d := abs_le.mpr ⟨by linarith, by linarith⟩
    refine ⟨hle.trans hfar, fun e hne => ?_⟩
    have hsame : |x - magVal f d| = x + magVal f d := le_antisymm hfar (e ▸ hle)
    by_cases hdm : d = mag
    · rcases le_total (magVal f d) x with hc | hc
      · rw [abs_of_nonneg (by linarith)] at hsame
        obtain h0 : magVal f d = 0 := by linarith
        refine absurd ?_ hne
        rw [← hdm, h0]; simp [signed]
      · rw [abs_of_nonpos (by linarith)] at hsame
        have hx0 : x = 0 := by linarith
        have hc0 : c = 0 := by
          have := h.le
          rw [hx0, ← magVal_zero f, magVal_le_iff] at this
          omega
        have := h.exact (by rw [hx0, hc0, magVal_zero])
        omega
    · exact htie (e.trans hsame.symm) hdm

/-- A mode that goes towards zero takes the largest finite magnitude that is not larger. -/
theorem finite_toward (hu : ¬ GoesUp rm n x (magVal f c) (magVal f (c + 1)) c) : let e := min mag f.maxFin
    magVal f e ≤ x ∧ ∀ d, d ≤ f.maxFin → magVal f d ≤ x → magVal f d ≤ magVal f e := by
  obtain ⟨hle, hmax⟩ := h.toward hu
  exact ⟨(magVal_le_iff.mpr (min_le_left _ _)).trans hle, fun d hd hdx => magVal_le_iff.mpr (le_min (hmax d hdx) hd)⟩

/-- A mode that goes away from zero overflows past the largest finite magnitude, and else takes the smallest one that is not smaller. -/
theorem finite_away (hu : GoesUp rm n x (magVal f c) (magVal f (c + 1)) c) : (f.maxFin < mag ↔ magVal f f.maxFin < x) ∧
    (x ≤ magVal f mag ∧ ∀ d, x ≤ magVal f d → magVal f mag ≤ magVal f d) := by
  obtain ⟨hle, hmin⟩ := h.away hu
  refine ⟨⟨fun hm => ?_, fun hx => ?_⟩, hle, fun d hd => magVal_le_iff.mpr (hmin d hd)⟩
  · by_contra hx
    have := hmin _ (not_lt.mp hx)
    omega
  · exact magVal_lt_iff.mp (hx.trans_le hle)

/-- Towards minus infinity a positive number, towards plus infinity a negative one: no overflow, and a finite result. -/
theorem directed_toward (hf : IsIeee f) (hu : ¬ GoesUp rm n x (magVal f c) (magVal f (c + 1)) c) {y : ℕ} (hy : FiniteCode f y) :
    let at_ := fun y => ((valueOf (f.decode y) : ℚ) : ℝ); let r := f.withSign n (min mag f.maxFin)
    (n = false → at_ r ≤ x ∧ (at_ y ≤ x → at_ y ≤ at_ r)) ∧ (n = true → -x ≤ at_ r ∧ (-x ≤ at_ y → at_ r ≤ at_ y)) := by
  have hg := goodFmt_ieee hf
  obtain ⟨hle, hmax⟩ := finite_toward h hu
  obtain ⟨s, d, hd, rfl⟩ := (finiteCode_iff (ieee_max hf).1 hg).mp hy
  have hv := magVal_nonneg f d
  have hr := magVal_nonneg f (min mag f.maxFin)
  have hmaxd := hmax d hd
  intro at_ r
  have h1 : at_ r = signed n (magVal f (min mag f.maxFin)) := valueOf_withSign hg n (min_le_right _ _)
  have h2 : at_ (f.withSign s d) = signed s (magVal f d) := valueOf_withSign hg s hd
  rw [h1, h2]
  constructor <;> rintro rfl
  · refine ⟨hle, fun hy => ?_⟩
    cases s
    · exact hmaxd hy
    · simp only [signed, if_true, Bool.false_eq_true, if_false]; linarith
  · refine ⟨neg_le_neg hle, fun hy => ?_⟩
    cases s
    · simp only [signed, if_true, Bool.false_eq_true, if_false]; linarith
    · exact neg_le_neg (hmaxd (neg_le_neg_iff.mp hy))

/-- Away from zero, where the number does not overflow. -/
theorem directed_away (hf : IsIeee f) (hu : GoesUp rm n x (magVal f c) (magVal f (c + 1)) c) (hm : mag ≤ f.maxFin) {y : ℕ} (hy : FiniteCode f y) :
    let at_ := fun y => ((valueOf (f.decode y) : ℚ) : ℝ); let r := f.withSign n mag
    (n = true → at_ r ≤ -x ∧ (at_ y ≤ -x → at_ y ≤ at_ r)) ∧ (n = false → x ≤ at_ r ∧ (x ≤ at_ y → at_ r ≤ at_ y)) := by
  have hg := goodFmt_ieee hf
  obtain ⟨-, hle, hmin⟩ := finite_away h hu
  obtain ⟨s, d, hd, rfl⟩ := (finiteCode_iff (ieee_max hf).1 hg).mp hy
  have hv := magVal_nonneg f d
  have hx := h.nonneg
  intro at_ r
  have h1 : at_ r = signed n (magVal f mag) := valueOf_withSign hg n hm
  have h2 : at_ (f.withSign s d) = signed s (magVal f d) := valueOf_withSign hg s hd
  have hzero (h0 : x ≤ 0) : magVal f mag ≤ 0 := by
    have := hmin 0 (by rw [magVal_zero]; exact h0)
    rwa [magVal_zero] at this
  rw [h1, h2]
  constructor <;> rintro rfl
  · refine ⟨neg_le_neg hle, fun hy => ?_⟩
    cases s
    · simp only [signed, if_true, Bool.false_eq_true, if_false] at hy ⊢
      have := hzero (by linarith)
      linarith
    · exact neg_le_neg (hmin d (neg_le_neg_iff.mp hy))
  · refine ⟨hle, fun hy => ?_⟩
    cases s
    · exact hmin d hy
    · simp only [signed, if_true, Bool.false_eq_true, if_false] at hy ⊢
      have := hzero (by linarith)
      linarith
end

theorem withSign_false (f : Fmt) (c : ℕ) : f.withSign false c = c := Nat.zero_add c

theorem valueOf_maxFin (hf : IsIeee f) : ((valueOf (f.decode f.maxFin) : ℚ) : ℝ) = magVal f f.maxFin := by
  have := valueOf_withSign (goodFmt_ieee hf) false (le_refl f.maxFin)
  rwa [withSign_false] at this

/-- An overflow to the infinity. -/
theorem roundsReal_inf (hf : IsIeee f) (h : RoundsBetween rm n x (magVal f c) (magVal f (c + 1)) c mag) (hm : f.maxFin < mag) (ht : towardInf rm n = true) :
    RoundsReal f rm (signed n x) (f.withSign n f.infCode) := by
  obtain ⟨hs, hodd, -⟩ := ieee_max hf
  have hd : f.decode (f.withSign n f.infCode) = .inf n := decode_infCode hs n
  unfold RoundsReal
  simp only [hd, valueOf_maxFin hf, half_eq hf, abs_signed, abs_of_nonneg h.nonneg]
  refine ⟨rfl, nofun, ?_, ?_, ?_, ?_⟩
  · rintro rfl
    have hx := (h.lt_iff_nearest hodd).mp hm
    exact ⟨iff_of_true rfl hx, fun hlt => absurd hx (not_le.mpr hlt)⟩
  · rintro rfl; cases ht
  · rintro rfl
    obtain rfl : n = true := ht
    have hx := (finite_away h rfl).1.mp hm
    exact ⟨iff_of_true rfl (neg_lt_neg hx), fun hle => absurd (neg_le_neg_iff.mp hle) (not_le.mpr hx)⟩
  · rintro rfl
    obtain rfl : n = false := by simpa [towardInf] using ht
    have hx := (finite_away h rfl).1.mp hm
    exact ⟨iff_of_true rfl hx, fun hle => absurd hle (not_le.mpr hx)⟩

/-- Every other result. -/
theorem roundsReal_fin (hf : IsIeee f) (h : RoundsBetween rm n x (magVal f c) (magVal f (c + 1)) c mag) (hm : mag ≤ f.maxFin ∨ towardInf rm n = false) :
    RoundsReal f rm (signed n x) (f.withSign n (min mag f.maxFin)) := by
  obtain ⟨hs, hodd, -⟩ := ieee_max hf
  have hg := goodFmt_ieee hf
  have hx := h.nonneg
  have htop := magVal_nonneg f f.maxFin
  have hd : f.decode (f.withSign n (min mag f.maxFin)) = .fin n _ _ := decode_finite hg n (min_le_right _ _)
  have hinf : (f.decode (f.withSign n (min mag f.maxFin))).isInf = false := by rw [hd]; rfl
  have hfin : (f.decode (f.withSign n (min mag f.maxFin))).isFin = true := by rw [hd]; rfl
  have hself : FiniteCode f (f.withSign n (min mag f.maxFin)) := (finiteCode_iff hs hg).mpr ⟨n, _, min_le_right _ _, rfl⟩
  unfold RoundsReal
  simp only [hinf, hfin, valueOf_maxFin hf, half_eq hf]
  refine ⟨by rw [hd]; rfl, fun _ => hself, ?_, ?_, ?_, ?_⟩
  · rintro rfl
    have hmag : mag ≤ f.maxFin := hm.resolve_right nofun
    rw [abs_signed, abs_of_nonneg hx, min_eq_left hmag]
    exact ⟨iff_of_false nofun fun hh => absurd ((h.lt_iff_nearest hodd).mpr hh) (not_lt.mpr hmag), fun _ y hy => finite_nearest h hf rfl hmag hy⟩
  · rintro rfl
    obtain ⟨hle, hmax⟩ := finite_toward h nofun
    rw [valueOf_withSign hg n (min_le_right _ _), abs_signed, abs_signed, abs_of_nonneg hx, abs_of_nonneg (magVal_nonneg f _)]
    refine ⟨trivial, hle, fun y hy hyx => ?_⟩
    obtain ⟨s, d, hd, rfl⟩ := (finiteCode_iff hs hg).mp hy
    rw [valueOf_withSign hg s hd, abs_signed, abs_of_nonneg (magVal_nonneg f d)] at hyx ⊢
    exact hmax d hd hyx
  · rintro rfl
    cases n
    · have dir {y : ℕ} (hy : FiniteCode f y) := (directed_toward h hf nofun hy).1 rfl
      exact ⟨iff_of_false nofun (by simp only [signed, Bool.false_eq_true, if_false]; linarith),
        fun _ => ⟨(dir hself).1, fun y hy => (dir hy).2⟩⟩
    · have hmag : mag ≤ f.maxFin := hm.resolve_right nofun
      have dir {y : ℕ} (hy : FiniteCode f y) := (directed_away h hf rfl hmag hy).1 rfl
      rw [min_eq_left hmag] at hself ⊢
      refine ⟨iff_of_false nofun fun hlt => ?_, fun _ => ⟨(dir hself).1, fun y hy => (dir hy).2⟩⟩
      exact absurd ((finite_away h rfl).1.mpr (neg_lt_neg_iff.mp hlt)) (not_lt.mpr hmag)
  · rintro rfl
    cases n
    · have hmag : mag ≤ f.maxFin := hm.resolve_right nofun
      have dir {y : ℕ} (hy : FiniteCode f y) := (directed_away h hf rfl hmag hy).2 rfl
      rw [min_eq_left hmag] at hself ⊢
      refine ⟨iff_of_false nofun fun hlt => ?_, fun _ => ⟨(dir hself).1, fun y hy => (dir hy).2⟩⟩
      exact absurd ((finite_away h rfl).1.mpr hlt) (not_lt.mpr hmag)
    · have dir {y : ℕ} (hy : FiniteCode f y) := (directed_toward h hf nofun hy).2 rfl
      exact ⟨iff_of_false nofun (by simp only [signed, if_true]; linarith),
        fun _ => ⟨(dir hself).1, fun y hy => (dir hy).2⟩⟩

namespace RoundedAs
variable {r : ℕ × ℕ}

/-- R11: the rounding is that of the real number. -/
theorem roundsReal (hf : IsIeee f) (h : RoundedAs f rm n x r) : RoundsReal f rm (signed n x) r.1 := by
  obtain ⟨c, mag, inx, tiny, hb, -, -, rfl⟩ := h
  rcases packed_cases hf rm n mag inx tiny with ⟨hm, ht, hr⟩ | ⟨hm, hr⟩
  · rw [hr]; exact roundsReal_inf hf hb hm ht
  · rw [hr]; exact roundsReal_fin hf hb hm

/-- It keeps the sign. -/
theorem neg_decode (hf : IsIeee f) (h : RoundedAs f rm n x r) : (f.decode r.1).neg = n := by
  obtain ⟨c, mag, inx, tiny, -, -, -, rfl⟩ := h
  rcases packed_cases hf rm n mag inx tiny with ⟨-, -, hr⟩ | ⟨-, hr⟩
  · rw [hr, decode_infCode (ieee_max hf).1]; rfl
  · rw [hr, decode_finite (goodFmt_ieee hf) n (min_le_right _ _)]; rfl

/-- NX tells that the value changes. -/
theorem inexact_iff (hf : IsIeee f) (h : RoundedAs f rm n x r) :
    r.2.testBit 0 = true ↔ (f.decode r.1).isInf = true ∨ ((valueOf (f.decode r.1) : ℚ) : ℝ) ≠ signed n x := by
  have hg := goodFmt_ieee hf
  obtain ⟨c, mag, inx, tiny, hb, hinx, -, rfl⟩ := h
  have hsig (a b : ℝ) : signed n a ≠ signed n b ↔ a ≠ b := by cases n <;> simp [signed]
  rcases Nat.lt_or_ge f.maxFin mag with hm | hm
  · -- an overflow changes the value and sets OF and NX
    have hflag : (packed f rm n mag inx tiny).2 = flOF + flNX := by rw [packed, if_pos hm]
    have hgt : magVal f f.maxFin < x := by
      rcases hb.eq_or with e | ⟨e, hx⟩
      · exact (magVal_lt_iff.mpr (e ▸ hm)).trans_le hb.le
      · exact (magVal_le_iff.mpr (by omega)).trans_lt (lt_of_le_of_ne hb.le (Ne.symm hx))
    refine iff_of_true (by rw [hflag]; rfl) ?_
    rcases packed_cases hf rm n mag inx tiny with ⟨-, -, hr⟩ | ⟨-, hr⟩
    · rw [hr, decode_infCode (ieee_max hf).1]; exact .inl rfl
    · rw [hr, min_eq_right hm.le, valueOf_withSign hg n le_rfl, hsig]; exact .inr hgt.ne
  · have hp : packed f rm n mag inx tiny = (f.withSign n mag, if inx then (if tiny then flUF + flNX else flNX) else 0) := if_neg (not_lt.mpr hm)
    have hflag : (packed f rm n mag inx tiny).2.testBit 0 = inx := by
      rw [hp]
      show (if inx then (if tiny then flUF + flNX else flNX) else 0).testBit 0 = inx
      cases inx <;> cases tiny <;> decide
    have hne : x ≠ magVal f c ↔ magVal f mag ≠ x := by
      rcases hb.eq_or with e | ⟨e, hx⟩
      · rw [e]; exact ne_comm
      · exact iff_of_true hx (by rw [e]; exact hb.lt.ne')
    rw [hflag, hinx, hne, hp, decode_finite hg n hm]
    have := valueOf_withSign hg n hm
    rw [decode_finite hg n hm] at this
    rw [this, hsig]
    exact ⟨.inr, fun e => e.resolve_left nofun⟩
end RoundedAs
end
end Sys2Proof.Laws
end

section
/-!
PROOFS. Rounding a number of a format keeps it (R10, R205); rounding finds the neighbour that R11 names.
-/
namespace Sys2Proof.Laws
open Sys2Proof Sys2Proof.Machine Sys2Proof.Claims

section
variable {f : Fmt} {rm : Rnd} {n : Bool} {x y : ℝ} {c : ℕ} {r : ℕ × ℕ}

/-! ### Numbers of the format -/

theorem roundedAs_round (hmb : 0 < f.mb) (rm : Rnd) (n : Bool) (m : ℕ) (e : ℤ) : RoundedAs f rm n (m * (2 : ℝ) ^ e) (f.round rm (.fin n m e)) := by
  by_cases hm : m = 0
  · subst hm
    have h0 : magVal f 0 < magVal f (0 + 1) := magVal_strictMono f Nat.one_pos
    refine ⟨0, 0, false, false, ⟨?_, ?_, fun _ => rfl, ?_, ?_⟩, ?_, nofun, rfl⟩ <;> simp_all [magVal_zero]
  · exact roundedAs_fin hmb hm

namespace RoundedAs

/-- A code's own value rounds to it without a flag. -/
theorem eq_of_magVal (h : RoundedAs f rm n (magVal f c) r) (hc : c ≤ f.maxFin) : r = (f.withSign n c, 0) := by
  obtain ⟨d, mag, inx, tiny, hb, hinx, -, rfl⟩ := h
  obtain rfl : d = c := by
    have h1 := magVal_le_iff.mp hb.le
    have h2 := magVal_lt_iff.mp hb.lt
    omega
  obtain rfl := hb.exact rfl
  have hfalse : inx = false := by rw [← Bool.not_eq_true, hinx]; exact not_not.mpr rfl
  rw [packed, if_neg (not_lt.mpr hc), hfalse]; rfl
end RoundedAs

theorem round_finite (hf : GoodFmt f) (rm : Rnd) (n : Bool) (hc : c ≤ f.maxFin) : f.round rm (f.decode (f.withSign n c)) = (f.withSign n c, 0) := by
  rw [decode_finite hf n hc]
  exact (roundedAs_round hf.mb rm n _ _).eq_of_magVal hc

/-- Past the finite codes of a format without E4M3's specials there are the infinity and NaNs. -/
theorem decode_past (hs : f.special ≠ 1) (hf : GoodFmt f) (n : Bool) (hc : c < 2 ^ (f.eb + f.mb)) (hm : f.maxFin < c) :
    c = f.infCode ∨ (f.decode (f.withSign n c)).isNaN = true := by
  have hfin := decode_not_finite hs hf n hc hm
  rw [decode_withSign n hc, if_neg (by simp [hs])] at hfin ⊢
  split at hfin
  case isTrue he =>
    rw [if_pos he]
    simp only [Bool.and_eq_true, beq_iff_eq] at he
    split
    case isTrue h0 =>
      refine .inl ?_
      have := Nat.div_add_mod' c (2 ^ f.mb)
      rw [he.2, beq_iff_eq.mp h0] at this
      exact this.symm
    case isFalse h0 => exact .inr rfl
  case isFalse he => split at hfin <;> cases hfin

theorem roundingKeepsRepresentableValues : RoundingKeepsRepresentableValues := by
  intro f rm y hformat hy
  have hf := goodFmt_float hformat
  have he4m3 : f.special = 1 → 2 ^ (f.eb + f.mb) = f.maxFin + 2 ∧ f.maxFin = 0x7E := by
    rcases hformat with rfl | rfl | rfl | rfl | rfl | rfl <;> decide
  obtain ⟨n, c, hc, rfl⟩ := exists_withSign hy
  have nan (h : (f.decode (f.withSign n c)).isNaN = true) : f.round rm (f.decode (f.withSign n c)) = (f.nan, 0) := by
    cases hd : f.decode (f.withSign n c) with
    | nan s => rfl
    | inf k => rw [hd] at h; cases h
    | fin k m e => rw [hd] at h; cases h
  split
  case isTrue h => exact nan h
  case isFalse h =>
    rcases Nat.lt_or_ge f.maxFin c with hm | hm
    · by_cases hs : f.special = 1
      · obtain ⟨h1, h2⟩ := he4m3 hs
        refine absurd ?_ h
        rw [decode_withSign n hc, if_pos (by rw [hs, show c = 0x7F by omega]; rfl)]; rfl
      · obtain rfl := (decode_past hs hf n hc hm).resolve_right h
        rw [decode_infCode hs]
        exact congrArg (fun m => (f.withSign n m, 0)) (if_neg hs)
    · exact round_finite hf rm n hm

/-! ### The nearest numbers, told in rational numbers -/

theorem exists_fin {v : Fl} (h : v.isFin = true) : ∃ n m e, v = .fin n m e := by
  cases v with
  | nan s => cases h
  | inf k => cases h
  | fin n m e => exact ⟨n, m, e, rfl⟩

theorem roundingFindsTheNeighbour : RoundingFindsTheNeighbour := by
  intro f v rm hformat hv hrm
  obtain ⟨n, m, e, rfl⟩ := exists_fin hv
  have hR := roundedAs_round (goodFmt_ieee hformat).mb rm n m e
  have hreal := hR.roundsReal hformat
  have hflag := hR.inexact_iff hformat
  rw [← cast_valueOf_fin] at hreal hflag
  unfold RoundsReal at hreal
  dsimp only at hreal ⊢
  rw [show (2 : ℝ) ^ ((f.bias : ℤ) - f.mb - 1) = ((2 ^ ((f.bias : ℤ) - f.mb - 1) : ℚ) : ℝ) by push_cast; rfl] at hreal
  generalize (2 : ℚ) ^ ((f.bias : ℤ) - f.mb - 1) = halfStep at hreal ⊢
  obtain ⟨hnan, -, h0, h1, h2, h3⟩ := hreal
  exact ⟨hR.neg_decode hformat, hnan, by exact_mod_cast h0, by exact_mod_cast h1, by exact_mod_cast h2, by exact_mod_cast h3, by exact_mod_cast hflag⟩
end
end Sys2Proof.Laws
end

section
/-!
PROOFS. Float arithmetic (R78): sums, differences, products and fused products are exact before they are rounded; an exact zero takes its sign.
-/
namespace Sys2Proof.Laws
open Sys2Proof Sys2Proof.Machine Sys2Proof.Claims

/-! ### Exact values -/

theorem valueOf_fin (n : Bool) (m : ℕ) (e : ℤ) : valueOf (.fin n m e) = (if n then -1 else 1) * m * (2 : ℚ) ^ e := rfl

theorem valueOf_zero (n : Bool) : valueOf (.zero n) = 0 := by simp [Fl.zero, valueOf_fin]

theorem valueOf_eq_zero {n : Bool} {m : ℕ} {e : ℤ} : valueOf (.fin n m e) = 0 ↔ m = 0 := by
  have : (2 : ℚ) ^ e ≠ 0 := by positivity
  cases n <;> simp [valueOf_fin, this]

theorem valueOf_negate (v : Fl) : valueOf v.negate = -valueOf v := by
  cases v with
  | nan s => simp [Fl.negate, valueOf]
  | inf n => simp [Fl.negate, valueOf]
  | fin n m e => cases n <;> simp [Fl.negate, valueOf_fin]

theorem valueOf_mul (n k : Bool) (m l : ℕ) (e d : ℤ) : valueOf (.fin (n != k) (m * l) (e + d)) = valueOf (.fin n m e) * valueOf (.fin k l d) := by
  rw [valueOf_fin, valueOf_fin, valueOf_fin, zpow_add₀ (by norm_num)]
  cases n <;> cases k <;> push_cast <;> simp <;> ring

/-- A finite number as a whole number of the units that `addFin` counts in. -/
def inUnits (n : Bool) (m : ℕ) (e q : ℤ) : ℤ := if m = 0 then 0 else (if n then -1 else 1) * ((m <<< (e - q).toNat : ℕ) : ℤ)

theorem inUnits_mul {n : Bool} {m : ℕ} {e q : ℤ} (h : m ≠ 0 → q ≤ e) : (inUnits n m e q : ℚ) * 2 ^ q = valueOf (.fin n m e) := by
  by_cases hm : m = 0
  · simp [inUnits, hm, valueOf_fin]
  · have hz : (2 : ℚ) ^ e = (2 ^ (e - q).toNat : ℕ) * 2 ^ q := by
      push_cast
      rw [← zpow_natCast, ← zpow_add₀ (by norm_num)]
      congr 1; have := h hm; omega
    rw [inUnits, if_neg hm, Nat.shiftLeft_eq, valueOf_fin, hz]
    cases n <;> push_cast <;> simp <;> ring

theorem valueOf_ofUnits (t q : ℤ) : valueOf (.fin (decide (t < 0)) t.natAbs q) = t * 2 ^ q := by
  rw [valueOf_fin, Nat.cast_natAbs]
  rcases lt_or_ge t 0 with h | h
  · simp [h, abs_of_neg h]
  · simp [not_lt.mpr h, abs_of_nonneg h]

/-- The sum in its units. -/
theorem addFin_eq (rm : Rnd) (an : Bool) (am : ℕ) (ae : ℤ) (bn : Bool) (bm : ℕ) (be : ℤ) : ∃ q : ℤ, (am ≠ 0 → q ≤ ae) ∧ (bm ≠ 0 → q ≤ be) ∧
    addFin rm an am ae bn bm be = if am = 0 ∧ bm = 0 then .zero (if an = bn then an else decide (rm = 2))
      else if inUnits an am ae q + inUnits bn bm be q = 0 then .zero (decide (rm = 2))
      else .fin (decide (inUnits an am ae q + inUnits bn bm be q < 0)) (inUnits an am ae q + inUnits bn bm be q).natAbs q := by
  refine ⟨if am = 0 then be else if bm = 0 then ae else min ae be, fun h => ?_, fun h => ?_, ?_⟩
  · rw [if_neg h]; split <;> omega
  · rw [if_neg h]; split <;> omega
  · unfold addFin inUnits
    simp only [Bool.and_eq_true, decide_eq_true_eq, beq_iff_eq]
    rfl

theorem valueOf_addFin (rm : Rnd) (an : Bool) (am : ℕ) (ae : ℤ) (bn : Bool) (bm : ℕ) (be : ℤ) : (addFin rm an am ae bn bm be).isFin = true ∧
    valueOf (addFin rm an am ae bn bm be) = valueOf (.fin an am ae) + valueOf (.fin bn bm be) := by
  obtain ⟨q, ha, hb, e⟩ := addFin_eq rm an am ae bn bm be
  rw [e, ← inUnits_mul ha, ← inUnits_mul hb, ← add_mul]
  split
  case isTrue h => exact ⟨rfl, by rw [valueOf_zero, h.1, h.2]; simp [inUnits]⟩
  case isFalse h =>
    split
    case isTrue ht => exact ⟨rfl, by rw [valueOf_zero, ← Int.cast_add, ht]; simp⟩
    case isFalse ht => exact ⟨rfl, by rw [valueOf_ofUnits]; push_cast; rfl⟩

/-- A sum that is zero takes the sign of both zeros, or else the mode's. -/
theorem addFin_of_sum_zero {rm : Rnd} {an : Bool} {am : ℕ} {ae : ℤ} {bn : Bool} {bm : ℕ} {be : ℤ}
    (h : valueOf (.fin an am ae) + valueOf (.fin bn bm be) = 0) : addFin rm an am ae bn bm be = .zero (if an = bn then an else decide (rm = 2)) := by
  obtain ⟨q, ha, hb, e⟩ := addFin_eq rm an am ae bn bm be
  rw [e]
  split
  case isTrue => rfl
  case isFalse hz =>
    have hq : (2 : ℚ) ^ q ≠ 0 := by positivity
    have ht : inUnits an am ae q + inUnits bn bm be q = 0 := by
      rw [← inUnits_mul ha, ← inUnits_mul hb, ← add_mul] at h
      exact_mod_cast (mul_eq_zero.mp h).resolve_right hq
    have hne : an ≠ bn := by
      rintro rfl
      -- two numbers of one sign have no zero sum
      have hp (m : ℕ) (d : ℤ) : 0 ≤ (m : ℚ) * 2 ^ d := by positivity
      have h1 := hp am ae
      have h2 := hp bm be
      have h3 : (am : ℚ) * 2 ^ ae + bm * 2 ^ be = 0 := by
        rw [valueOf_fin, valueOf_fin] at h
        cases an <;> simp at h <;> linarith
      have h4 : (am : ℚ) * 2 ^ ae = 0 := by linarith
      have h5 : (bm : ℚ) * 2 ^ be = 0 := by linarith
      have hz1 : (2 : ℚ) ^ ae ≠ 0 := by positivity
      have hz2 : (2 : ℚ) ^ be ≠ 0 := by positivity
      exact hz ⟨by exact_mod_cast (mul_eq_zero.mp h4).resolve_right hz1, by exact_mod_cast (mul_eq_zero.mp h5).resolve_right hz2⟩
    rw [if_pos ht, if_neg hne]

/-! ### The operations with DEN = 00 -/

section
variable {f : Fmt} {cp x y z : ℕ} {rm : Rnd}

theorem decode_flushIn (h : cpDEN cp = 0) (x : ℕ) : f.decode (flushIn cp f x) = f.decode x := by
  rw [flushIn, h, if_neg (by simp), decode_mod]

theorem flushOut_den0 (h : cpDEN cp = 0) (r : ℕ × ℕ) : flushOut cp f r = r := by rw [flushOut, h]; rfl

theorem fpArith_den0 (h : cpDEN cp = 0) (op : FpOp) (rm : Rnd) (x y z : ℕ) : let v := fpExact op cp rm (f.decode x) (f.decode y) (f.decode z)
    (fpArith op f cp rm x y z).bits = (f.round rm v.1).1 ∧ (fpArith op f cp rm x y z).flags = v.2.1 ||| (f.round rm v.1).2 := by
  intro v
  have e : fpArith op f cp rm x y z = { bits := (f.round rm v.1).1, flags := v.2.1 ||| (f.round rm v.1).2, events := (fpArith op f cp rm x y z).events } := by
    simp only [fpArith, decode_flushIn h, flushOut_den0 h]; rfl
  exact ⟨congrArg FpRes.bits e, congrArg FpRes.flags e⟩

/-- An operation that is exact and sets no flag of its own. -/
theorem fpArith_exact (h : cpDEN cp = 0) {op : FpOp} {v : Fl} {ev : ℕ} (hv : fpExact op cp rm (f.decode x) (f.decode y) (f.decode z) = (v, 0, ev)) :
    (fpArith op f cp rm x y z).bits = (f.round rm v).1 ∧ (fpArith op f cp rm x y z).flags = (f.round rm v).2 := by
  obtain ⟨h1, h2⟩ := fpArith_den0 h op rm x y z (f := f)
  rw [hv] at h1 h2
  exact ⟨h1, h2.trans (Nat.zero_or _)⟩

theorem zmulProd_fin (hz : cpZMUL cp = false) (n k : Bool) (m l : ℕ) (e d : ℤ) :
    zmulProd cp (.fin n m e) (.fin k l d) = (.fin (n != k) (m * l) (e + d), 0, 0) := by rw [zmulProd, hz]; rfl

/-- The fused product of finite numbers is one sum. -/
theorem fpExact_fma (hz : cpZMUL cp = false) (rm : Rnd) (n k l : Bool) (m p o : ℕ) (e d g : ℤ) :
    fpExact .fma cp rm (.fin n m e) (.fin k p d) (.fin l o g) = (addFin rm (n != k) (m * p) (e + d) l o g, 0, 0) := by
  rw [fpExact, zmulProd_fin hz]
  show (addFin rm (n != k) (m * p) (e + d) l o g, 0 ||| 0, 0) = _
  rw [Nat.zero_or]
end

theorem exactValuesAreRoundedOnce : ExactValuesAreRoundedOnce := by
  intro f cp x y z rm _ hden hzmul hx hy hz exact a b c
  obtain ⟨an, am, ae, ha⟩ := exists_fin hx
  obtain ⟨bn, bm, be, hb⟩ := exists_fin hy
  obtain ⟨cn, cm, ce, hc⟩ := exists_fin hz
  have rounds {op : FpOp} {v : Fl} {q : ℚ} (hv : v.isFin = true ∧ valueOf v = q)
      (e : fpExact op cp rm (f.decode x) (f.decode y) (f.decode z) = (v, 0, 0)) : exact op q := ⟨v, hv.1, hv.2, fpArith_exact hden e⟩
  have hprod := zmulProd_fin hzmul an bn am bm ae be
  simp only [a, b, c]
  rw [ha, hb, hc, sub_eq_add_neg, ← valueOf_negate, ← valueOf_mul]
  refine ⟨rounds (valueOf_addFin rm an am ae bn bm be) ?_, rounds (valueOf_addFin rm an am ae (!bn) bm be) ?_,
    rounds (v := .fin (an != bn) (am * bm) (ae + be)) ⟨rfl, rfl⟩ ?_, rounds (valueOf_addFin rm (an != bn) (am * bm) (ae + be) cn cm ce) ?_⟩
  · rw [ha, hb]; rfl
  · rw [ha, hb]; rfl
  · rw [ha, hb]; exact hprod
  · rw [ha, hb, hc]; exact fpExact_fma hzmul ..

theorem exactZerosTakeTheirSign : ExactZerosTakeTheirSign := by
  intro f cp x y z rm _ hden hzmul hx hy hz a b c zero sum
  obtain ⟨an, am, ae, ha⟩ := exists_fin hx
  obtain ⟨bn, bm, be, hb⟩ := exists_fin hy
  obtain ⟨cn, cm, ce, hc⟩ := exists_fin hz
  have gives {op : FpOp} {n : Bool} {e : ℤ} (h : fpExact op cp rm (f.decode x) (f.decode y) (f.decode z) = (.fin n 0 e, 0, 0)) : zero op n :=
    fpArith_exact hden h
  have hprod := zmulProd_fin hzmul an bn am bm ae be
  simp only [a, b, c]
  rw [ha, hb, hc]
  refine ⟨fun h => gives (e := 0) ?_, fun h => gives (e := 0) ?_, fun h => gives (e := ae + be) ?_, fun h => gives (e := 0) ?_⟩
  · rw [ha, hb]; exact congrArg (fun v => (v, 0, 0)) (addFin_of_sum_zero h)
  · rw [sub_eq_add_neg, ← valueOf_negate] at h
    rw [ha, hb]; exact congrArg (fun v => (v, 0, 0)) (addFin_of_sum_zero h)
  · rw [← valueOf_mul, valueOf_eq_zero] at h
    rw [ha, hb]; exact hprod.trans (by rw [h]; rfl)
  · rw [← valueOf_mul] at h
    rw [ha, hb, hc, fpExact_fma hzmul, addFin_of_sum_zero h]; rfl

end Sys2Proof.Laws
end

section
/-!
PROOFS. Quotients and roots (R78): a result with an odd last bit far below the format's steps rounds as the exact number does.
-/
namespace Sys2Proof.Laws
open Sys2Proof Sys2Proof.Machine Sys2Proof.Claims

/-! ### An odd last bit -/

/-- No even multiple of a unit separates a number from the odd multiple next to it. -/
theorem separates {j b : ℕ} {w y : ℝ} (hw : 0 < w) (hlo : (2 * j : ℕ) * w < y) (hhi : y < (2 * j + 2 : ℕ) * w) :
    ((2 * b : ℕ) * w < (2 * j + 1 : ℕ) * w ∧ (2 * b : ℕ) * w < y) ∨ ((2 * j + 1 : ℕ) * w < (2 * b : ℕ) * w ∧ y < (2 * b : ℕ) * w) := by
  have mono {a c : ℕ} (h : a < c) : (a : ℝ) * w < c * w := mul_lt_mul_of_pos_right (Nat.cast_lt.mpr h) hw
  have mono' {a c : ℕ} (h : a ≤ c) : (a : ℝ) * w ≤ c * w := mul_le_mul_of_nonneg_right (Nat.cast_le.mpr h) hw.le
  rcases Nat.lt_or_ge j b with h | h
  · exact .inr ⟨mono (by omega), hhi.trans_le (mono' (by omega))⟩
  · exact .inl ⟨mono (by omega), (mono' (by omega)).trans_lt hlo⟩

section
variable {f : Fmt} {rm : Rnd} {n : Bool}

/-- Two bits below the mantissa an odd last bit stands for all that lies between its neighbours. -/
theorem RoundedAs.of_odd {r : ℕ × ℕ} {j : ℕ} {e : ℤ} {y : ℝ} (h : RoundedAs f rm n ((2 * j + 1 : ℕ) * (2 : ℝ) ^ e) r) (hlo : (2 * j : ℕ) * (2 : ℝ) ^ e < y)
    (hhi : y < (2 * j + 2 : ℕ) * (2 : ℝ) ^ e) (hj : 2 ^ (f.mb + 2) ≤ 2 * j + 1) : RoundedAs f rm n y r := by
  obtain ⟨c, mag, inx, tiny, hb, hinx, htiny, rfl⟩ := h
  have hw : (0 : ℝ) < 2 ^ e := by positivity
  -- the number is at least this power of two
  have hbig : (2 : ℝ) ^ (f.mb + 2 + e : ℤ) ≤ (2 * j + 1 : ℕ) * 2 ^ e := by
    rw [zpow_add₀ (by norm_num)]
    refine mul_le_mul_of_nonneg_right ?_ hw.le
    exact_mod_cast hj
  -- so a power of two past it is an even multiple of the unit
  have even_of_lt {g : ℤ} (hg : e < g) : ∃ p : ℕ, (2 : ℝ) ^ g = (2 * p : ℕ) * 2 ^ e := by
    refine ⟨2 ^ (g - e - 1).toNat, ?_⟩
    push_cast
    rw [← zpow_natCast, ← zpow_one_add₀ (by norm_num), ← zpow_add₀ (by norm_num)]
    congr 1; omega
  have hstep : e + 1 < stepExp f c := by
    have h1 : (2 * j + 1 : ℕ) * (2 : ℝ) ^ e < 2 ^ (f.mb + 1 + stepExp f c : ℤ) := by
      refine hb.lt.trans_le ?_
      rw [magVal_succ, zpow_add₀ (by norm_num)]
      exact mul_le_mul_of_nonneg_right (by exact_mod_cast mantissa_lt f c) (by positivity)
    have := (zpow_lt_zpow_iff_right₀ (by norm_num)).mp (hbig.trans_lt h1)
    omega
  obtain ⟨p, hp⟩ := even_of_lt (g := stepExp f c - 1) (by omega)
  have hend (i : ℕ) : (i : ℝ) * 2 ^ (stepExp f c - 1) = (2 * (i * p) : ℕ) * 2 ^ e := by rw [hp]; push_cast; ring
  have hz : (2 : ℝ) ^ stepExp f c = 2 * 2 ^ (stepExp f c - 1) := by rw [zpow_sub_one₀ (by norm_num)]; ring
  have elo : magVal f c = (2 * (2 * mantissa f c * p) : ℕ) * 2 ^ e := by rw [← hend, magVal, hz]; push_cast; ring
  have ehi : magVal f (c + 1) = (2 * ((2 * mantissa f c + 2) * p) : ℕ) * 2 ^ e := by rw [← hend, magVal_succ, hz]; push_cast; ring
  have emid : (magVal f c + magVal f (c + 1)) / 2 = (2 * ((2 * mantissa f c + 1) * p) : ℕ) * 2 ^ e := by rw [elo, ehi]; push_cast; ring
  have slo := separates (b := 2 * mantissa f c * p) hw hlo hhi
  have shi := separates (b := (2 * mantissa f c + 2) * p) hw hlo hhi
  have smid := separates (b := (2 * mantissa f c + 1) * p) hw hlo hhi
  rw [← elo] at slo
  rw [← ehi] at shi
  rw [← emid] at smid
  obtain ⟨hx1, hy1⟩ := slo.resolve_right fun h => absurd hb.le (not_le.mpr h.1)
  obtain ⟨-, hy2⟩ := shi.resolve_left fun h => absurd hb.lt (not_lt.mpr h.1.le)
  refine ⟨c, mag, inx, tiny, hb.congr hy1.le hy2 hx1.ne' hy1.ne' ?_ ?_, hinx.trans (iff_of_true hx1.ne' hy1.ne'), fun ht => ?_, rfl⟩
  · rcases smid with ⟨h1, h2⟩ | ⟨h1, h2⟩
    · exact iff_of_true h1 h2
    · exact iff_of_false (not_lt.mpr h1.le) (not_lt.mpr h2.le)
  · rcases smid with ⟨h1, h2⟩ | ⟨h1, h2⟩
    · exact iff_of_false h1.ne h2.ne
    · exact iff_of_false h1.ne' h2.ne'
  · have hlt := htiny ht
    have := (zpow_lt_zpow_iff_right₀ (by norm_num)).mp (hbig.trans_lt hlt)
    obtain ⟨b, hb'⟩ := even_of_lt (g := f.emin) (by omega)
    rw [hb'] at hlt ⊢
    exact ((separates (b := b) hw hlo hhi).resolve_left fun h => absurd hlt (not_lt.mpr h.1.le)).2

/-- A result that is exact, or has its last bit odd where it is not: `q` tells the number to one unit, and twice as many follow. -/
theorem roundedAs_sticky (hmb : 0 < f.mb) {q : ℕ} {e : ℤ} {y : ℝ} {exact : Prop} [Decidable exact] (hex : exact → y = q * 2 ^ (e + 1))
    (hlo : ¬ exact → q * (2 : ℝ) ^ (e + 1) < y) (hhi : ¬ exact → y < (q + 1 : ℕ) * (2 : ℝ) ^ (e + 1)) (hq : 2 ^ (f.mb + 1) ≤ q) :
    RoundedAs f rm n y (f.round rm (.fin n (if exact then q <<< 1 else (q <<< 1) + 1) e)) := by
  have hz : (2 : ℝ) ^ (e + 1) = 2 * 2 ^ e := by rw [zpow_add_one₀ (by norm_num)]; ring
  have hs : q <<< 1 = 2 * q := by rw [Nat.shiftLeft_eq]; omega
  rw [hz] at hex hlo hhi
  rw [hs]
  by_cases he : exact
  · rw [if_pos he, hex he]
    have := roundedAs_round (f := f) hmb rm n (2 * q) e
    push_cast at this
    rwa [mul_assoc, mul_left_comm] at this
  · rw [if_neg he]
    refine (roundedAs_round hmb rm n (2 * q + 1) e).of_odd ?_ ?_ (by rw [Nat.pow_succ]; omega)
    · have := hlo he; push_cast at this ⊢; linarith
    · have := hhi he; push_cast at this ⊢; linarith

/-! ### Quotients -/

theorem divOdd_eq (a b k : ℕ) : divOdd a b k = if (a * 2 ^ k) % b = 0 then ((a * 2 ^ k) / b) <<< 1 else ((a * 2 ^ k) / b) <<< 1 + 1 := by
  rw [divOdd, Nat.shiftLeft_eq]

/-- The quotient that `Fl.div` gives rounds as the exact one. -/
theorem roundedAs_div (hmb : 0 < f.mb) (hf : f.mb ≤ 128) {m l : ℕ} (e d : ℤ) (hm : m ≠ 0) (hl : l ≠ 0) : RoundedAs f rm n ((m * 2 ^ e) / (l * 2 ^ d))
    (f.round rm (.fin n (divOdd m l (Nat.log2 l + 130)) (e - d - (Nat.log2 l + 130 : ℕ) - 1))) := by
  obtain ⟨k, hk⟩ : ∃ k, Nat.log2 l + 130 = k := ⟨_, rfl⟩
  rw [hk]
  have hl' : (0 : ℝ) < l := by exact_mod_cast Nat.pos_of_ne_zero hl
  have hw : (0 : ℝ) < 2 ^ (e - d - k) := by positivity
  -- the quotient in units of the last bit but one
  have hy : (m * 2 ^ e) / (l * 2 ^ d) = ((m * 2 ^ k : ℕ) : ℝ) / l * 2 ^ (e - d - k) := by
    rw [zpow_sub₀ (by norm_num), zpow_sub₀ (by norm_num), zpow_natCast]
    push_cast
    field_simp
  have hdm : m * 2 ^ k / l * l + m * 2 ^ k % l = m * 2 ^ k := Nat.div_add_mod' _ _
  have hmod : m * 2 ^ k % l < l := Nat.mod_lt _ (Nat.pos_of_ne_zero hl)
  rw [divOdd_eq, hy]
  refine roundedAs_sticky hmb (fun h => ?_) (fun h => ?_) (fun _ => ?_) ?_
  · rw [sub_add_cancel]
    congr 1
    rw [div_eq_iff hl'.ne']
    exact_mod_cast (by omega : m * 2 ^ k = m * 2 ^ k / l * l)
  · rw [sub_add_cancel]
    refine mul_lt_mul_of_pos_right ?_ hw
    rw [lt_div_iff₀ hl']
    exact_mod_cast (by omega : m * 2 ^ k / l * l < m * 2 ^ k)
  · rw [sub_add_cancel]
    refine mul_lt_mul_of_pos_right ?_ hw
    rw [div_lt_iff₀ hl']
    exact_mod_cast (by rw [Nat.add_mul]; omega : m * 2 ^ k < (m * 2 ^ k / l + 1) * l)
  · rw [Nat.le_div_iff_mul_le (Nat.pos_of_ne_zero hl)]
    calc 2 ^ (f.mb + 1) * l ≤ 2 ^ 129 * 2 ^ (Nat.log2 l + 1) := Nat.mul_le_mul (Nat.pow_le_pow_right (by decide) (by omega)) Nat.lt_log2_self.le
      _ = 1 * 2 ^ k := by rw [one_mul, ← Nat.pow_add]; exact congrArg (2 ^ ·) (by omega)
      _ ≤ m * 2 ^ k := Nat.mul_le_mul_right _ (Nat.pos_of_ne_zero hm)

/-! ### Roots -/

/-- Newton's step does not pass the root. -/
theorem le_newton {n r x : ℕ} (hr : r * r ≤ n) (hx : 0 < x) : r ≤ (x + n / x) / 2 := by
  rw [Nat.le_div_iff_mul_le (by decide)]
  by_cases h : 2 * r ≤ x
  · exact (by omega : r * 2 ≤ x).trans (Nat.le_add_right _ _)
  · have : 2 * r - x ≤ n / x := by
      rw [Nat.le_div_iff_mul_le hx]
      obtain ⟨t, ht⟩ : ∃ t, 2 * r = x + t := ⟨2 * r - x, by omega⟩
      rw [ht, Nat.add_sub_cancel_left]
      nlinarith [sq_nonneg ((x : ℤ) - t)]
    generalize n / x = w at *
    omega

/-- Above the root it halves the distance. -/
theorem newton_sub_le {n r x : ℕ} (hr : n < (r + 1) * (r + 1)) (hx : r < x) : (x + n / x) / 2 - r ≤ (x - r) / 2 ∧ (x + n / x) / 2 < x := by
  have : n / x ≤ r := Nat.lt_succ_iff.mp (Nat.div_lt_of_lt_mul (hr.trans_le (Nat.mul_le_mul_right _ hx)))
  generalize n / x = w at *
  omega

theorem isqrtAux_eq {n r : ℕ} (h0 : 0 < r) (h1 : r * r ≤ n) (h2 : n < (r + 1) * (r + 1)) (fuel : ℕ) : ∀ x, r ≤ x → x - r < 2 ^ fuel → isqrtAux n fuel x = r := by
  induction fuel with
  | zero => intro x hx hd; rw [isqrtAux]; simp at hd; omega
  | succ fuel ih =>
    intro x hx hd
    have hle := le_newton h1 (h0.trans_le hx)
    rw [isqrtAux]
    rcases hx.lt_or_eq with hlt | rfl
    · obtain ⟨hhalf, hdown⟩ := newton_sub_le h2 hlt
      rw [Nat.pow_succ] at hd
      simp only [if_pos hdown]
      exact ih _ hle (by omega)
    · simp only [if_neg (not_lt.mpr hle)]

theorem isqrt_eq (n : ℕ) : isqrt n = Nat.sqrt n := by
  by_cases hn : n = 0
  · subst hn; rfl
  · rw [isqrt, if_neg hn]
    have hr : Nat.sqrt n < 2 ^ (Nat.log2 n / 2 + 1) := by
      rw [Nat.sqrt_lt, ← Nat.pow_add]
      exact Nat.lt_log2_self.trans_le (Nat.pow_le_pow_right (by decide) (by omega))
    refine isqrtAux_eq (Nat.sqrt_pos.mpr (Nat.pos_of_ne_zero hn)) (Nat.sqrt_le n) (Nat.lt_succ_sqrt n) _ _ hr.le ((Nat.sub_le _ _).trans_lt ?_)
    exact Nat.pow_lt_pow_right (by decide) (by omega)

/-- The root that `Fl.sqrt` gives rounds as the exact one. -/
theorem roundedAs_sqrt (hmb : 0 < f.mb) (hf : f.mb ≤ 69) {m : ℕ} (e : ℤ) (hm : m ≠ 0) :
    let k := 140 + (if (e - 140) % 2 = 0 then 0 else 1); let r := isqrt (m <<< k)
    RoundedAs f rm n (Real.sqrt (m * 2 ^ e)) (f.round rm (.fin n (if r * r = m <<< k then r <<< 1 else (r <<< 1) + 1) ((e - (k : ℕ)) / 2 - 1))) := by
  intro k r
  obtain ⟨t, ht⟩ : ∃ t : ℤ, e - (k : ℕ) = t * 2 := ⟨(e - (k : ℕ)) / 2, by simp only [k]; split <;> omega⟩
  have hdiv : (e - (k : ℕ)) / 2 = t := by rw [ht]; omega
  have hr : r = Nat.sqrt (m * 2 ^ k) := by rw [← Nat.shiftLeft_eq]; exact isqrt_eq _
  have hk : 140 ≤ k := Nat.le_add_right _ _
  have hw : (0 : ℝ) < 2 ^ t := by positivity
  have hy : Real.sqrt (m * 2 ^ e) = Real.sqrt ((m * 2 ^ k : ℕ) : ℝ) * 2 ^ t := by
    have : (m : ℝ) * 2 ^ e = ((m * 2 ^ k : ℕ) : ℝ) * (2 ^ t) ^ 2 := by
      push_cast
      rw [← zpow_natCast, ← zpow_natCast, ← zpow_mul, mul_assoc, ← zpow_add₀ (by norm_num)]
      congr 2; push_cast; omega
    rw [this, Real.sqrt_mul (by positivity), Real.sqrt_sq hw.le]
  rw [hdiv, hy, Nat.shiftLeft_eq, hr]
  refine roundedAs_sticky hmb (fun h => ?_) (fun h => ?_) (fun _ => ?_) ?_
  · rw [sub_add_cancel]
    congr 1
    conv_lhs => rw [← h]
    push_cast
    exact Real.sqrt_mul_self (Nat.cast_nonneg _)
  · rw [sub_add_cancel]
    refine mul_lt_mul_of_pos_right (Real.lt_sqrt_of_sq_lt ?_) hw
    rw [sq]
    exact_mod_cast lt_of_le_of_ne (Nat.sqrt_le _) h
  · rw [sub_add_cancel]
    refine mul_lt_mul_of_pos_right ((Real.sqrt_lt' (by positivity)).mpr ?_) hw
    rw [sq]
    exact_mod_cast Nat.lt_succ_sqrt (m * 2 ^ k)
  · rw [Nat.le_sqrt, ← Nat.pow_add]
    calc 2 ^ (f.mb + 1 + (f.mb + 1)) ≤ 1 * 2 ^ k := by rw [one_mul]; exact Nat.pow_le_pow_right (by decide) (by omega)
      _ ≤ m * 2 ^ k := Nat.mul_le_mul_right _ (Nat.pos_of_ne_zero hm)

end
end Sys2Proof.Laws
end

section
/-!
PROOFS. FDIV and FSQRT (R78), and O7.
-/
namespace Sys2Proof.Laws
open Sys2Proof Sys2Proof.Machine Sys2Proof.Claims

section
variable {f : Fmt} {rm : Rnd}

/-! ### FDIV and FSQRT (R78) -/

theorem ieee_mb {f : Fmt} (h : IsIeee f) : f.mb ≤ 52 := by rcases h with rfl | rfl | rfl | rfl <;> decide

theorem round_inf (hf : IsIeee f) (n : Bool) : f.round rm (.inf n) = (f.withSign n f.infCode, 0) :=
  congrArg (fun c => (f.withSign n c, 0)) (if_neg (ieee_max hf).1)

theorem decode_zero (hf : IsIeee f) (n : Bool) : ∃ e, f.decode (f.withSign n 0) = .fin n 0 e :=
  ⟨stepExp f 0, by rw [decode_finite (goodFmt_ieee hf) n (Nat.zero_le _), mantissa, Nat.zero_sub]⟩

/-- The exact quotient of finite numbers, rounded. -/
theorem div_rounded (hf : IsIeee f) (n k : Bool) (m : ℕ) {l : ℕ} (e d : ℤ) (hl : l ≠ 0) : ∃ v, Fl.div (.fin n m e) (.fin k l d) = (v, 0) ∧
    RoundedAs f rm (n != k) ((m * 2 ^ e) / (l * 2 ^ d)) (f.round rm v) := by
  have hmb := (goodFmt_ieee hf).mb
  by_cases hm : m = 0
  · refine ⟨.zero (n != k), by simp [Fl.div, hl, hm], ?_⟩
    have := roundedAs_round (f := f) hmb rm (n != k) 0 0
    rw [hm]
    simpa [Fl.zero] using this
  · exact ⟨_, by rw [Fl.div]; simp only [if_neg hl, if_neg hm], roundedAs_div hmb (by have := ieee_mb hf; omega) e d hm hl⟩

theorem cast_quotient (n k : Bool) (m l : ℕ) (e d : ℤ) : ((valueOf (.fin n m e) / valueOf (.fin k l d) : ℚ) : ℝ) = signed (n != k) ((m * 2 ^ e) / (l * 2 ^ d)) := by
  rw [Rat.cast_div, cast_valueOf_fin, cast_valueOf_fin]
  cases n <;> cases k <;> simp [signed, neg_div, div_neg]

/-- The exact root of a finite number that is not negative, rounded. -/
theorem sqrt_rounded (hf : IsIeee f) (n : Bool) (m : ℕ) (e : ℤ) (h : m = 0 ∨ n = false) : ∃ v, Fl.sqrt (.fin n m e) = (v, 0) ∧
    RoundedAs f rm n (Real.sqrt (m * 2 ^ e)) (f.round rm v) := by
  have hmb := (goodFmt_ieee hf).mb
  by_cases hm : m = 0
  · refine ⟨.zero n, by simp [Fl.sqrt, hm], ?_⟩
    have := roundedAs_round (f := f) hmb rm n 0 0
    rw [hm]
    simpa [Fl.zero] using this
  · obtain rfl : n = false := h.resolve_left hm
    exact ⟨_, by rw [Fl.sqrt]; simp only [if_neg hm, Bool.false_eq_true, if_false], roundedAs_sqrt hmb (by have := ieee_mb hf; omega) e hm⟩

theorem exists_inf {v : Fl} (h : v.isInf = true) : ∃ n, v = .inf n := by
  cases v with
  | nan s => cases h
  | inf n => exact ⟨n, rfl⟩
  | fin n m e => cases h

theorem exists_nan {v : Fl} (h : v.isNaN = true) : ∃ s, v = .nan s := by
  cases v with
  | nan s => exact ⟨s, rfl⟩
  | inf n => cases h
  | fin n m e => cases h

theorem div_nan {a b : Fl} (h : a.isNaN = true ∨ b.isNaN = true) : ∃ fl, a.div b = (.nan false, fl) := by
  rcases h with h | h
  · obtain ⟨s, rfl⟩ := exists_nan h
    cases b <;> exact ⟨_, rfl⟩
  · obtain ⟨s, rfl⟩ := exists_nan h
    cases a <;> exact ⟨_, rfl⟩

theorem valueOf_nonneg {v : Fl} (h : v.neg = false) : 0 ≤ valueOf v := by
  cases v with
  | nan s => exact le_rfl
  | inf n => exact le_rfl
  | fin n m e =>
    obtain rfl : n = false := h
    rw [valueOf_fin]
    simp only [Bool.false_eq_true, if_false, one_mul]
    positivity

/-- A root is exact where its square is the number. -/
theorem eq_sqrt_iff {v w : ℚ} (hv : 0 ≤ v) (hw : 0 ≤ w) : (v : ℝ) = Real.sqrt w ↔ v ^ 2 = w := by
  have hv' : (0 : ℝ) ≤ v := by exact_mod_cast hv
  have hw' : (0 : ℝ) ≤ w := by exact_mod_cast hw
  rw [eq_comm, Real.sqrt_eq_iff_eq_sq hw' hv']
  constructor
  · intro h; exact_mod_cast h.symm
  · intro h; exact_mod_cast h.symm

/-- A number not below zero is a zero or has a clear sign. -/
theorem valueOf_fin_nonneg {n : Bool} {m : ℕ} {e : ℤ} : 0 ≤ valueOf (.fin n m e) ↔ m = 0 ∨ n = false := by
  constructor
  · intro h
    by_contra hno
    rw [not_or, Bool.not_eq_false] at hno
    rw [hno.2, valueOf_fin] at h
    have : (0 : ℚ) < m * 2 ^ e := by have := Nat.pos_of_ne_zero hno.1; positivity
    simp at h
    linarith
  · rintro (rfl | rfl)
    · exact (valueOf_eq_zero.mpr rfl).ge
    · exact valueOf_nonneg rfl

theorem valueOf_inf {v : Fl} (h : v.isInf = true) : valueOf v = 0 := by
  obtain ⟨n, rfl⟩ := exists_inf h
  rfl

/-- R78 tells that a root is inexact by its square. -/
theorem inexact_root_iff {v : Fl} {w : ℚ} (hv : 0 ≤ valueOf v) (hw : 0 ≤ w) (hinf : v.isInf = true → w ≠ 0) :
    (v.isInf = true ∨ ((valueOf v : ℚ) : ℝ) ≠ Real.sqrt w) ↔ valueOf v ^ 2 ≠ w := by
  rw [ne_eq, eq_sqrt_iff hv hw]
  exact or_iff_right_of_imp fun h => by rw [valueOf_inf h]; simpa using (hinf h).symm

/-- A number below zero has no root. -/
theorem sqrt_of_neg {v : Fl} (h : valueOf v < 0 ∨ v = .inf true) : v.sqrt = (.nan false, flNV) := by
  rcases h with h | rfl
  · cases v with
    | nan s => exact absurd h (lt_irrefl 0)
    | inf n => exact absurd h (lt_irrefl 0)
    | fin n m e =>
      rw [← not_le, valueOf_fin_nonneg, not_or, Bool.not_eq_false] at h
      rw [Fl.sqrt]
      simp only [if_neg h.1, if_pos h.2]
  · rfl

theorem quotientsAndRootsAreRounded : QuotientsAndRootsAreRounded := by
  intro f cp x y rm hf hden hrm a b sign q d r e
  have div {v : Fl} {fl : ℕ} (h : a.div b = (v, fl)) : q.bits = (f.round rm v).1 ∧ q.flags = fl ||| (f.round rm v).2 := by
    obtain ⟨h1, h2⟩ := fpArith_den0 hden .div rm x y x (f := f)
    rw [show fpExact .div cp rm (f.decode x) (f.decode y) (f.decode x) = (v, fl, 0) from congrArg (fun r => (r.1, r.2, 0)) h] at h1 h2
    exact ⟨h1, h2⟩
  have root {v : Fl} {fl : ℕ} (h : a.sqrt = (v, fl)) : r.bits = (f.round rm v).1 ∧ r.flags = fl ||| (f.round rm v).2 := by
    obtain ⟨h1, h2⟩ := fpArith_den0 hden .sqrt rm x x x (f := f)
    rw [show fpExact .sqrt cp rm (f.decode x) (f.decode x) (f.decode x) = (v, fl, 0) from congrArg (fun r => (r.1, r.2, 0)) h] at h1 h2
    exact ⟨h1, h2⟩
  have nanDiv {s : Bool} {fl : ℕ} (h : a.div b = (.nan s, fl)) : q.bits = f.nan ∧ q.flags = fl := by
    obtain ⟨h1, h2⟩ := div h
    exact ⟨h1, h2.trans (Nat.or_zero fl)⟩
  have nanRoot {s : Bool} {fl : ℕ} (h : a.sqrt = (.nan s, fl)) : r.bits = f.nan ∧ r.flags = fl := by
    obtain ⟨h1, h2⟩ := root h
    exact ⟨h1, h2.trans (Nat.or_zero fl)⟩
  have infDiv {s : Bool} {fl : ℕ} (h : a.div b = (.inf s, fl)) : d = .inf s ∧ q.flags = fl := by
    obtain ⟨h1, h2⟩ := div h
    rw [round_inf hf] at h1 h2
    exact ⟨by simp only [d]; rw [h1, decode_infCode (ieee_max hf).1], h2.trans (Nat.or_zero fl)⟩
  refine ⟨fun ha hb hv => ?_, fun ha hv hb hw => ?_, fun ha hv hb hw => ?_, fun ha hb => ?_, fun hn => ?_, fun ha hb => ?_, fun ha hb => ?_,
    fun ha hv => ?_, fun hneg => ?_, fun hn => ?_, fun hinf => ?_⟩
  · obtain ⟨n, m, g, ha'⟩ := exists_fin ha
    obtain ⟨k, l, h, hb'⟩ := exists_fin hb
    rw [hb', ne_eq, valueOf_eq_zero] at hv
    obtain ⟨v, hdiv, hR⟩ := div_rounded (rm := rm) hf n k m g h hv
    obtain ⟨h1, h2⟩ := div (v := v) (fl := 0) (by rw [ha', hb']; exact hdiv)
    have hflag := hR.inexact_iff hf
    simp only [d, sign]
    rw [ha', hb', cast_quotient, h1, h2, Nat.zero_or]
    refine ⟨hR.roundsReal hf, hR.neg_decode hf, hflag.trans ?_⟩
    rw [← cast_quotient]
    exact_mod_cast Iff.rfl
  · obtain ⟨n, m, g, ha'⟩ := exists_fin ha
    obtain ⟨k, l, h, hb'⟩ := exists_fin hb
    rw [ha', ne_eq, valueOf_eq_zero] at hv
    rw [hb', valueOf_eq_zero] at hw
    exact infDiv (s := sign) (fl := flDZ) (by simp only [sign]; rw [ha', hb', Fl.div]; simp only [if_pos hw, if_neg hv]; rfl)
  · obtain ⟨n, m, g, ha'⟩ := exists_fin ha
    obtain ⟨k, l, h, hb'⟩ := exists_fin hb
    rw [ha', valueOf_eq_zero] at hv
    rw [hb', valueOf_eq_zero] at hw
    exact nanDiv (s := false) (fl := flNV) (by rw [ha', hb', Fl.div]; simp only [if_pos hw, if_pos hv])
  · obtain ⟨n, ha'⟩ := exists_inf ha
    obtain ⟨k, hb'⟩ := exists_inf hb
    exact nanDiv (s := false) (fl := flNV) (by rw [ha', hb']; rfl)
  · obtain ⟨fl, h⟩ := div_nan hn
    exact (nanDiv h).1
  · obtain ⟨n, ha'⟩ := exists_inf ha
    obtain ⟨k, l, h, hb'⟩ := exists_fin hb
    exact infDiv (s := sign) (fl := 0) (by simp only [sign]; rw [ha', hb']; rfl)
  · obtain ⟨n, m, g, ha'⟩ := exists_fin ha
    obtain ⟨k, hb'⟩ := exists_inf hb
    obtain ⟨h1, h2⟩ := div (v := .zero sign) (fl := 0) (by simp only [sign]; rw [ha', hb']; rfl)
    obtain ⟨g0, hd⟩ := decode_zero hf sign
    have hd' : d = .fin sign 0 g0 := by simp only [d]; rw [h1]; exact hd
    rw [hd', h2]
    exact ⟨rfl, valueOf_eq_zero.mpr rfl, rfl, Nat.zero_or _⟩
  · obtain ⟨n, m, g, ha'⟩ := exists_fin ha
    have hn : m = 0 ∨ n = false := valueOf_fin_nonneg.mp (ha' ▸ hv)
    have hval : ((valueOf a : ℚ) : ℝ) = m * 2 ^ g := by
      rw [ha', cast_valueOf_fin]
      rcases hn with h | h <;> simp [signed, h]
    have hsig : signed n (Real.sqrt (m * 2 ^ g)) = Real.sqrt (m * 2 ^ g) := by rcases hn with h | h <;> simp [signed, h]
    obtain ⟨v, hsqrt, hR⟩ := sqrt_rounded (rm := rm) hf n m g hn
    obtain ⟨h1, h2⟩ := root (v := v) (fl := 0) (by rw [ha']; exact hsqrt)
    have hreal := hR.roundsReal hf
    have hneg := hR.neg_decode hf
    have hflag := hR.inexact_iff hf
    rw [hsig, ← hval] at hreal hflag
    rw [← h1] at hreal hneg hflag
    refine ⟨hreal, by rw [ha']; exact hneg, ?_⟩
    rw [h2, Nat.zero_or, hflag]
    obtain ⟨he, hinf⟩ : 0 ≤ valueOf e ∧ (e.isInf = true → valueOf a ≠ 0) := by
      by_cases hm : m = 0
      · obtain ⟨h3, -⟩ := root (v := .zero n) (fl := 0) (by rw [ha', hm]; rfl)
        obtain ⟨g0, hd⟩ := decode_zero hf n
        have he : e = .fin n 0 g0 := by simp only [e]; rw [h3]; exact hd
        rw [he]
        exact ⟨valueOf_fin_nonneg.mpr (.inl rfl), fun h => absurd h Bool.false_ne_true⟩
      · exact ⟨valueOf_nonneg (hneg.trans (hn.resolve_left hm)), fun _ => by rw [ha', ne_eq, valueOf_eq_zero]; exact hm⟩
    exact inexact_root_iff he hv hinf
  · exact nanRoot (s := false) (fl := flNV) (sqrt_of_neg hneg)
  · obtain ⟨s, ha'⟩ := exists_nan hn
    exact (nanRoot (s := false) (fl := if s then flNV else 0) (by rw [ha']; rfl)).1
  · obtain ⟨h1, h2⟩ := root (v := .inf false) (fl := 0) (by rw [hinf]; rfl)
    rw [round_inf hf] at h1 h2
    exact ⟨by simp only [e]; rw [h1, decode_infCode (ieee_max hf).1], h2.trans (Nat.zero_or 0)⟩
end

/-- Settles O7: rounding finds the place of a number between two neighbouring codes, exactly as R11 says; sums and products are exact before it, quotients
and roots end with a bit that is odd where they are not exact. -/
theorem floatArithmeticRoundsTheExactValue : Obligations.FloatArithmeticRoundsTheExactValue :=
  ⟨exactValuesAreRoundedOnce, quotientsAndRootsAreRounded, exactZerosTakeTheirSign, roundingKeepsRepresentableValues, roundingFindsTheNeighbour⟩
end Sys2Proof.Laws
end

section
/-!
PROOFS. Operands as R78 and R81 take them, and the order of two numbers (R80, R81): the comparisons, the minimum and the maximum.
-/
namespace Sys2Proof.Laws
open Sys2Proof Sys2Proof.Machine Sys2Proof.Claims

/-! ### Subnormal codes -/

section
variable {f : Fmt} {cp x : ℕ}

/-- The codes of the powers of two. -/
theorem magVal_two_pow (f : Fmt) (g : ℕ) : magVal f ((g + 1) * 2 ^ f.mb) = 2 ^ (g + f.emin) := by
  have h := magVal_add (f := f) (k := 2 ^ f.mb) (h := g) (Nat.pow_le_pow_right (by decide) (Nat.le_succ _)) (.inr le_rfl)
  rw [Nat.add_mul, Nat.one_mul, Nat.add_comm, h]
  push_cast
  rw [← zpow_natCast, ← zpow_add₀ (by norm_num)]
  congr 1; ring

theorem magVal_two_pow_mb (f : Fmt) : magVal f (2 ^ f.mb) = 2 ^ f.emin := by simpa using magVal_two_pow f 0

theorem isSub_withSign (n : Bool) {c : ℕ} (hc : c < 2 ^ (f.eb + f.mb)) : f.isSub (f.withSign n c) = true ↔ c ≠ 0 ∧ c < 2 ^ f.mb := by
  obtain ⟨-, -, h⟩ := withSign_parts (f := f) n hc
  simp only [Fmt.isSub, h, Bool.and_eq_true, bne_iff_ne, decide_eq_true_eq]

theorem two_pow_mb_le_maxFin (hf : IsIeee f) : 2 ^ f.mb ≤ f.maxFin := by rcases hf with rfl | rfl | rfl | rfl <;> decide

theorem abs_valueOf_withSign (hf : IsIeee f) (n : Bool) {c : ℕ} (hc : c ≤ f.maxFin) :
    ((|valueOf (f.decode (f.withSign n c))| : ℚ) : ℝ) = magVal f c := by
  rw [Rat.cast_abs, valueOf_withSign (goodFmt_ieee hf) n hc, abs_signed, abs_of_nonneg (magVal_nonneg f c)]

/-- The subnormal codes are those of the numbers that R78 flushes. -/
theorem isSub_iff (hf : IsIeee f) (x : ℕ) : f.isSub x = true ↔
    (f.decode x).isFin = true ∧ valueOf (f.decode x) ≠ 0 ∧ |valueOf (f.decode x)| < (2 : ℚ) ^ f.emin := by
  have hg := goodFmt_ieee hf
  obtain ⟨n, c, hc, hx⟩ := exists_withSign (f := f) (Nat.mod_lt x (Nat.two_pow_pos f.bits))
  rw [← isSub_mod, ← decode_mod, hx, isSub_withSign n hc]
  by_cases hm : c ≤ f.maxFin
  · have hfin : (f.decode (f.withSign n c)).isFin = true := by rw [decode_finite hg n hm]; rfl
    have hval := abs_valueOf_withSign hf n hm
    have h0 : valueOf (f.decode (f.withSign n c)) ≠ 0 ↔ c ≠ 0 := by
      rw [← abs_ne_zero, ← Rat.cast_ne_zero (α := ℝ), hval, ← magVal_zero f, (magVal_strictMono f).injective.ne_iff]
    have hlt : |valueOf (f.decode (f.withSign n c))| < (2 : ℚ) ^ f.emin ↔ c < 2 ^ f.mb := by
      rw [← Rat.cast_lt (K := ℝ), hval]
      push_cast
      rw [← magVal_two_pow_mb, magVal_lt_iff]
    rw [h0, hlt]
    exact (and_iff_right hfin).symm
  · have hfin := decode_not_finite (ieee_max hf).1 hg n hc (by omega)
    have := two_pow_mb_le_maxFin hf
    exact iff_of_false (fun h => hm (by omega)) fun h => absurd (hfin.symm.trans h.1) Bool.false_ne_true

/-- An operand is the number of its code, or a subnormal's zero, which the model reads from the zero's code. -/
theorem operand_cases (hf : IsIeee f) (cp x : ℕ) :
    (operand f cp x = f.decode x ∧ f.decode (flushIn cp f x) = f.decode x) ∨
    (operand f cp x ≠ f.decode x ∧ ∃ n e, operand f cp x = .zero n ∧ f.decode (flushIn cp f x) = .fin n 0 e) := by
  by_cases h : cpDEN cp = 1 ∧ f.isSub x = true
  · obtain ⟨hden, hsub⟩ := h
    have hfl : flushIn cp f x = f.withSign (f.decode x).neg 0 := by simp [flushIn, hden, hsub]
    have hval := (isSub_iff hf x).mp hsub
    have hop : operand f cp x = .zero (f.decode x).neg := if_pos ⟨hden, hval⟩
    obtain ⟨e, he⟩ := decode_zero hf (f.decode x).neg
    refine .inr ⟨fun h => hval.2.1 ?_, _, e, hop, by rw [hfl, he]⟩
    rw [← h, hop, valueOf_zero]
  · refine .inl ⟨if_neg ?_, ?_⟩
    · rwa [← isSub_iff hf]
    · rw [flushIn, if_neg (by simpa using h), decode_mod]

theorem isNaN_flushIn (hf : IsIeee f) (cp x : ℕ) : (f.decode (flushIn cp f x)).isNaN = (operand f cp x).isNaN := by
  rcases operand_cases hf cp x with ⟨h1, h2⟩ | ⟨-, n, e, h1, h2⟩ <;> rw [h1, h2]
  rfl

theorem isSNaN_flushIn (hf : IsIeee f) (cp x : ℕ) : (f.decode (flushIn cp f x)).isSNaN = (operand f cp x).isSNaN := by
  rcases operand_cases hf cp x with ⟨h1, h2⟩ | ⟨-, n, e, h1, h2⟩ <;> rw [h1, h2]
  rfl
theorem decode_flushIn_of_not_fin (hf : IsIeee f) (h : (operand f cp x).isFin = false) : f.decode (flushIn cp f x) = operand f cp x := by
  rcases operand_cases hf cp x with ⟨h1, h2⟩ | ⟨-, n, e, h1, -⟩
  · rw [h1, h2]
  · rw [h1] at h; cases h

theorem decode_flushIn_of_fin (hf : IsIeee f) (h : (operand f cp x).isFin = true) : ∃ n m e, f.decode (flushIn cp f x) = .fin n m e ∧
    valueOf (operand f cp x) = valueOf (.fin n m e) ∧ (operand f cp x).neg = n := by
  rcases operand_cases hf cp x with ⟨h1, h2⟩ | ⟨-, n, e, h1, h2⟩
  · obtain ⟨n, m, e, hv⟩ := exists_fin h
    exact ⟨n, m, e, by rw [h2, ← h1, hv], by rw [hv], by rw [hv]; rfl⟩
  · exact ⟨n, 0, e, h2, by rw [h1, valueOf_zero, valueOf_eq_zero.mpr rfl], by rw [h1]; rfl⟩
end

/-! ### The order of two numbers -/

theorem below_fin {n k : Bool} {m l : ℕ} {e d : ℤ} : Below (.fin n m e) (.fin k l d) ↔ valueOf (.fin n m e) < valueOf (.fin k l d) := Iff.rfl

/-- A zero's exponent is nothing to the order. -/
theorem below_zero_left {v : Fl} {n : Bool} (e d : ℤ) : Below (.fin n 0 e) v ↔ Below (.fin n 0 d) v := by
  cases v with
  | fin k m g => simp [below_fin, valueOf_fin]
  | inf k => exact Iff.rfl
  | nan s => exact Iff.rfl

theorem below_zero_right {v : Fl} {n : Bool} (e d : ℤ) : Below v (.fin n 0 e) ↔ Below v (.fin n 0 d) := by
  cases v with
  | fin k m g => simp [below_fin, valueOf_fin]
  | inf k => exact Iff.rfl
  | nan s => exact Iff.rfl

theorem cmp_fin (n k : Bool) (m l : ℕ) (e d : ℤ) : Fl.cmp (.fin n m e) (.fin k l d) =
    if valueOf (.fin n m e) < valueOf (.fin k l d) then -1 else if valueOf (.fin n m e) = valueOf (.fin k l d) then 0 else 1 := by
  have units (n : Bool) (m : ℕ) (e q : ℤ) : (if n then -1 else 1) * ((m <<< (e - q).toNat : ℕ) : ℤ) = inUnits n m e q := by
    by_cases h : m = 0
    · rw [inUnits, if_pos h, h, Nat.zero_shiftLeft, Nat.cast_zero, mul_zero]
    · rw [inUnits, if_neg h]
  have hq : (0 : ℚ) < 2 ^ min e d := by positivity
  rw [← inUnits_mul (q := min e d) fun _ => min_le_left e d, ← inUnits_mul (q := min e d) fun _ => min_le_right e d]
  simp only [mul_lt_mul_iff_left₀ hq, mul_left_inj' hq.ne', Int.cast_lt, Int.cast_inj, Fl.cmp, units]

theorem cmp_zeros (n k : Bool) (e d : ℤ) : Fl.cmp (.fin n 0 e) (.fin k 0 d) = 0 := by
  rw [cmp_fin, valueOf_eq_zero.mpr rfl, valueOf_eq_zero.mpr rfl]; rfl

/-- `Fl.cmp` tells the order. -/
theorem cmp_neg_iff {a b : Fl} : a.cmp b < 0 ↔ Below a b := by
  cases a with
  | nan s => exact iff_of_false (lt_irrefl 0) nofun
  | inf n =>
    cases b with
    | nan s => exact iff_of_false (lt_irrefl 0) (by cases n <;> exact nofun)
    | inf k => cases n <;> cases k <;> simp [Fl.cmp, Below]
    | fin k l d => cases n <;> simp [Fl.cmp, Below]
  | fin n m e =>
    cases b with
    | nan s => exact iff_of_false (lt_irrefl 0) nofun
    | inf k => cases k <;> simp [Fl.cmp, Below]
    | fin k l d =>
      rw [cmp_fin, below_fin]
      split_ifs <;> simp_all

theorem cmp_swap (a b : Fl) : b.cmp a = -a.cmp b := by
  cases a with
  | nan s => cases b <;> rfl
  | inf n =>
    cases b with
    | nan s => rfl
    | inf k => cases n <;> cases k <;> rfl
    | fin k l d => cases n <;> rfl
  | fin n m e =>
    cases b with
    | nan s => rfl
    | inf k => cases k <;> rfl
    | fin k l d =>
      rw [cmp_fin, cmp_fin]
      rcases lt_trichotomy (valueOf (.fin n m e)) (valueOf (.fin k l d)) with h | h | h
      · rw [if_pos h, if_neg h.not_gt, if_neg h.ne']; rfl
      · rw [if_neg h.not_lt, if_pos h, if_neg h.not_gt, if_pos h.symm]; rfl
      · rw [if_neg h.not_gt, if_neg h.ne', if_pos h]

theorem cmp_pos_iff {a b : Fl} : 0 < a.cmp b ↔ Below b a := by
  rw [← cmp_neg_iff, cmp_swap a b]; omega

theorem cmp_eq_zero_iff {a b : Fl} : a.cmp b = 0 ↔ ¬ Below a b ∧ ¬ Below b a := by
  rw [← cmp_neg_iff, ← cmp_pos_iff]; omega

/-! ### The comparisons (R81) -/

theorem boolN_eq (b : Bool) : (boolN b = 1 ↔ b = true) ∧ (boolN b = 0 ↔ ¬ b = true) := by cases b <;> decide

theorem flag_iff (b : Bool) : ((if b = true then flNV else 0) = flNV ↔ b = true) ∧ ((if b = true then flNV else 0) = 0 ↔ ¬ b = true) := by cases b <;> decide

section
variable {f : Fmt} {cp x y : ℕ}

theorem below_flushIn (hf : IsIeee f) (cp x y : ℕ) : Below (f.decode (flushIn cp f x)) (f.decode (flushIn cp f y)) ↔ Below (operand f cp x) (operand f cp y) := by
  have left (v : Fl) : Below (f.decode (flushIn cp f x)) v ↔ Below (operand f cp x) v := by
    rcases operand_cases hf cp x with ⟨h1, h2⟩ | ⟨-, n, e, h1, h2⟩
    · rw [h1, h2]
    · rw [h1, h2]; exact below_zero_left ..
  have right (v : Fl) : Below v (f.decode (flushIn cp f y)) ↔ Below v (operand f cp y) := by
    rcases operand_cases hf cp y with ⟨h1, h2⟩ | ⟨-, n, e, h1, h2⟩
    · rw [h1, h2]
    · rw [h1, h2]; exact below_zero_right ..
  rw [left, right]

theorem comparisonsFollowTheirTable : ComparisonsFollowTheirTable := by
  intro f cp x y hf _ _ a b un tells flags sig
  have hun : ((f.decode (flushIn cp f x)).isNaN || (f.decode (flushIn cp f y)).isNaN) = true ↔ un := by
    rw [isNaN_flushIn hf, isNaN_flushIn hf, Bool.or_eq_true]
  have hsig : ((f.decode (flushIn cp f x)).isSNaN || (f.decode (flushIn cp f y)).isSNaN) = true ↔ sig := by
    rw [isSNaN_flushIn hf, isSNaN_flushIn hf, Bool.or_eq_true]
  have tell {rel : FpRel} {v : Bool} {p : Prop} (e : (fpCmp rel f cp x y).bits = boolN v) (h : v = true ↔ p) : tells rel p := by
    simp only [tells]
    rw [e, ← h]; exact boolN_eq v
  have flag {rel : FpRel} {v : Bool} {p : Prop} (e : (fpCmp rel f cp x y).flags = if v = true then flNV else 0) (h : v = true ↔ p) : flags rel p := by
    simp only [flags]
    rw [e, ← h]; exact flag_iff v
  refine ⟨tell rfl ?_, tell rfl ?_, tell rfl ?_, tell rfl hun, flag rfl hsig, flag rfl hsig, flag rfl hun, flag rfl hun⟩
  · rw [Bool.and_eq_true, Bool.not_eq_true', ← Bool.not_eq_true, hun, beq_iff_eq, cmp_eq_zero_iff, below_flushIn hf, below_flushIn hf]
  · rw [Bool.and_eq_true, Bool.not_eq_true', ← Bool.not_eq_true, hun, decide_eq_true_eq, cmp_neg_iff, below_flushIn hf]
  · rw [Bool.and_eq_true, Bool.not_eq_true', ← Bool.not_eq_true, hun, decide_eq_true_eq, ← not_lt, cmp_pos_iff, below_flushIn hf]

/-! ### The minimum and the maximum (R80) -/

/-- R80's choice of the first of two numbers, by their values. -/
def picksFirst (mode : ℕ) (mx : Bool) (a b : Fl) : Bool :=
  if mode == 2 then (if mx then decide (b.cmp a < 0) else decide (a.cmp b < 0)) else if mx then !ltZero a b else !ltZero b a

/-- The choice by magnitude, where the magnitudes differ. -/
def picksFirstMag (mode : ℕ) (mx mag : Bool) (a b : Fl) : Bool :=
  if mag then (if a.abs.cmp b.abs == 0 then picksFirst mode mx a b else if mx then decide (0 < a.abs.cmp b.abs) else decide (a.abs.cmp b.abs < 0))
  else picksFirst mode mx a b

theorem ltZero_of_below {a b : Fl} (h : Below a b) : ltZero a b = true ∧ ltZero b a = false := by
  have h1 := cmp_neg_iff.mpr h
  have h2 := cmp_pos_iff.mpr h
  simp [ltZero, h1, h2.not_gt, h2.ne']

/-- Of two numbers that differ the value decides. -/
theorem picksFirst_of_below {a b : Fl} (mode : ℕ) (mx : Bool) (h : Below a b) : picksFirst mode mx a b = !mx ∧ picksFirst mode mx b a = mx := by
  have h1 := cmp_neg_iff.mpr h
  have h2 := cmp_pos_iff.mpr h
  obtain ⟨h3, h4⟩ := ltZero_of_below h
  cases mx <;> simp [picksFirst, h1, h2.not_gt, h3, h4]

theorem picksFirstMag_of_below {a b : Fl} (mode : ℕ) (mx : Bool) (h : Below a.abs b.abs) :
    picksFirstMag mode mx true a b = !mx ∧ picksFirstMag mode mx true b a = mx := by
  have h1 := cmp_neg_iff.mpr h
  have h2 := cmp_pos_iff.mpr h
  cases mx <;> simp [picksFirstMag, h1, h1.ne, h2, h2.ne', h1.not_gt, h2.not_gt]

theorem picksFirstMag_of_eq {a b : Fl} (mode : ℕ) (mx mag : Bool) (h : mag = true → a.abs.cmp b.abs = 0) :
    picksFirstMag mode mx mag a b = picksFirst mode mx a b := by
  cases mag with
  | false => rfl
  | true => simp [picksFirstMag, h rfl]

/-- −0 lies below +0, except in the legacy mode. -/
theorem picksFirst_zeros {mode : ℕ} (mx : Bool) (e d : ℤ) : (mode ≠ 2 → picksFirst mode mx (.fin true 0 e) (.fin false 0 d) = !mx ∧
      picksFirst mode mx (.fin false 0 e) (.fin true 0 d) = mx) ∧
    (mode = 2 → picksFirst mode mx (.fin true 0 e) (.fin false 0 d) = false ∧ picksFirst mode mx (.fin false 0 e) (.fin true 0 d) = false) := by
  constructor
  · intro hm
    cases mx <;> simp [picksFirst, hm, ltZero, cmp_zeros, Fl.isZero, Fl.neg]
  · intro hm
    cases mx <;> simp [picksFirst, hm, cmp_zeros]

theorem flushIn_den0 (h : cpDEN cp = 0) (hx : x < 2 ^ f.bits) : flushIn cp f x = x := by
  rw [flushIn, h, if_neg (by simp), Nat.mod_eq_of_lt hx]

section
variable {mx mag : Bool} (hden : cpDEN cp = 0) (hx : x < 2 ^ f.bits) (hy : y < 2 ^ f.bits)
include hden hx hy

theorem fpMinMax_nan (h : (f.decode x).isNaN = true ∨ (f.decode y).isNaN = true) : (cpNANMM cp = 0 → (fpMinMax f cp mx mag x y).bits = f.nan) ∧
    (cpNANMM cp = 1 → (fpMinMax f cp mx mag x y).bits = if (f.decode x).isNaN then (if (f.decode y).isNaN then f.nan else y) else x) ∧
    (cpNANMM cp = 2 → (fpMinMax f cp mx mag x y).bits = y) := by
  simp only [fpMinMax, flushIn_den0 hden hx, flushIn_den0 hden hy, Bool.or_eq_true_iff.mpr h, if_true]
  refine ⟨fun e => ?_, fun e => ?_, fun e => ?_⟩ <;> rw [e] <;> rfl

theorem fpMinMax_numbers (hnx : ¬ (f.decode x).isNaN = true) (hny : ¬ (f.decode y).isNaN = true) :
    (fpMinMax f cp mx mag x y).bits = if picksFirstMag (cpNANMM cp) mx mag (f.decode x) (f.decode y) then x else y := by
  simp only [fpMinMax, flushIn_den0 hden hx, flushIn_den0 hden hy]
  rw [if_neg (by rw [Bool.or_eq_true]; exact not_or.mpr ⟨hnx, hny⟩)]
  rfl

theorem fpMinMax_flags : (fpMinMax f cp mx mag x y).flags =
    if cpNANMM cp ≠ 2 ∧ ((f.decode x).isSNaN = true ∨ (f.decode y).isSNaN = true) then flNV else 0 := by
  simp only [fpMinMax, flushIn_den0 hden hx, flushIn_den0 hden hy, Bool.and_eq_true, bne_iff_ne, Bool.or_eq_true]
end

theorem ite_not_bool {α : Type} (b : Bool) (x y : α) : (if (!b) = true then x else y) = if b = true then y else x := by cases b <;> rfl

/-- Numbers in order are no NaNs. -/
theorem not_nan_of_below {a b : Fl} (h : Below a b) : ¬ a.isNaN = true ∧ ¬ b.isNaN = true := by
  cases a with
  | nan s => exact h.elim
  | inf n =>
    cases b with
    | nan s => cases n <;> exact h.elim
    | inf k => exact ⟨Bool.false_ne_true, Bool.false_ne_true⟩
    | fin k l d => exact ⟨Bool.false_ne_true, Bool.false_ne_true⟩
  | fin n m e =>
    cases b with
    | nan s => exact h.elim
    | inf k => exact ⟨Bool.false_ne_true, Bool.false_ne_true⟩
    | fin k l d => exact ⟨Bool.false_ne_true, Bool.false_ne_true⟩

theorem not_nan_of_below_abs {a b : Fl} (h : Below a.abs b.abs) : ¬ a.isNaN = true ∧ ¬ b.isNaN = true := by
  have isNaN_abs (v : Fl) : v.abs.isNaN = v.isNaN := by cases v <;> rfl
  rw [← isNaN_abs a, ← isNaN_abs b]
  exact not_nan_of_below h

theorem minimumAndMaximumFollowNanmm : MinimumAndMaximumFollowNanmm := by
  intro f cp x y mx mag hf hden hx hy r a b nx ny minus
  have nans := @fpMinMax_nan f cp x y mx mag hden hx hy
  have hflags : r.flags = _ := fpMinMax_flags hden hx hy
  have first (hn : ¬ nx = true ∧ ¬ ny = true) (h : picksFirstMag (cpNANMM cp) mx mag a b = !mx) : r.bits = if mx then y else x := by
    rw [← ite_not_bool, ← h]; exact fpMinMax_numbers hden hx hy hn.1 hn.2
  have second (hn : ¬ ny = true ∧ ¬ nx = true) (h : picksFirstMag (cpNANMM cp) mx mag a b = mx) : r.bits = if mx then x else y := by
    conv_rhs => rw [← h]
    exact fpMinMax_numbers hden hx hy hn.2 hn.1
  have legacy (hn : ¬ nx = true ∧ ¬ ny = true) (h : picksFirstMag (cpNANMM cp) mx mag a b = false) : r.bits = y := by
    rw [show r.bits = _ from fpMinMax_numbers hden hx hy hn.1 hn.2, h]; rfl
  have plus : (0 : ℕ) = f.withSign false 0 := (withSign_false f 0).symm
  have zeros {n k : Bool} (ex : x = f.withSign n 0) (ey : y = f.withSign k 0) : (¬ nx = true ∧ ¬ ny = true) ∧
      ∃ e d, picksFirstMag (cpNANMM cp) mx mag a b = picksFirst (cpNANMM cp) mx (.fin n 0 e) (.fin k 0 d) := by
    obtain ⟨e, he⟩ := decode_zero hf n
    obtain ⟨d, hd⟩ := decode_zero hf k
    simp only [nx, ny, a, b]
    rw [ex, ey, he, hd]
    exact ⟨⟨Bool.false_ne_true, Bool.false_ne_true⟩, e, d, picksFirstMag_of_eq _ _ _ fun _ => cmp_zeros ..⟩
  refine ⟨fun e h => (nans h).1 e, fun e hnx hny => ?_, fun e hnx hny => ?_, fun e hnx hny => ?_, fun e => ⟨fun h => (nans h).2.2 e, ?_⟩, fun hnx hny => ?_,
    fun hm => ⟨fun h => ?_, fun h => ?_⟩, fun hm => ⟨fun h => ?_, fun h => ?_, fun hnx hny h1 h2 => ?_⟩,
    fun hmode => ⟨fun ex ey => ?_, fun ex ey => ?_⟩, fun hmode h => ?_, fun hmode => ?_⟩
  · exact ((nans (.inl hnx)).2.1 e).trans (by rw [if_pos hnx, if_pos hny])
  · exact ((nans (.inl hnx)).2.1 e).trans (by rw [if_pos hnx, if_neg hny])
  · exact ((nans (.inr hny)).2.1 e).trans (if_neg hnx)
  · rw [hflags, if_neg fun h => h.1 e]
  · rw [show r.bits = _ from fpMinMax_numbers hden hx hy hnx hny]
    split
    · exact .inl rfl
    · exact .inr rfl
  · subst hm; exact first (not_nan_of_below h) (picksFirst_of_below _ mx h).1
  · subst hm; exact second (not_nan_of_below h) (picksFirst_of_below _ mx h).2
  · subst hm; exact first (not_nan_of_below_abs h) (picksFirstMag_of_below _ mx h).1
  · subst hm; exact second (not_nan_of_below_abs h) (picksFirstMag_of_below _ mx h).2
  · rw [show r.bits = _ from fpMinMax_numbers hden hx hy hnx hny, fpMinMax_numbers hden hx hy hnx hny,
      picksFirstMag_of_eq _ _ _ fun _ => cmp_eq_zero_iff.mpr ⟨h1, h2⟩]
    rfl
  · obtain ⟨hn, e, d, hp⟩ := zeros ex (ey.trans plus)
    exact first hn (hp.trans ((picksFirst_zeros mx e d).1 hmode).1)
  · obtain ⟨hn, e, d, hp⟩ := zeros (ex.trans plus) ey
    exact second hn.symm (hp.trans ((picksFirst_zeros mx e d).1 hmode).2)
  · rcases h with ⟨ex, ey⟩ | ⟨ex, ey⟩
    · obtain ⟨hn, e, d, hp⟩ := zeros ex (ey.trans plus)
      exact legacy hn (hp.trans ((picksFirst_zeros mx e d).2 hmode).1)
    · obtain ⟨hn, e, d, hp⟩ := zeros (ex.trans plus) ey
      exact legacy hn (hp.trans ((picksFirst_zeros mx e d).2 hmode).2)
  · rw [hflags]
    by_cases h : a.isSNaN = true ∨ b.isSNaN = true
    · rw [if_pos ⟨hmode, h⟩]; exact ⟨iff_of_true rfl h, .inr rfl⟩
    · rw [if_neg fun e => h e.2]; exact ⟨iff_of_false (by decide) h, .inl rfl⟩
end

end Sys2Proof.Laws
end

section
/-!
PROOFS. The conversions (R82): to an integer the number rounded to a multiple of one, from an integer and between the formats its rounding, and O6.
-/
namespace Sys2Proof.Laws
open Sys2Proof Sys2Proof.Machine Sys2Proof.Claims

/-! ### Rounding to an integer -/

section
variable {f : Fmt} {rm : Rnd} {n : Bool} {x : ℝ} {q : ℚ} {c k : ℕ}

/-- Of two neighbouring integers a mode takes the one that `RoundsTo` names. -/
theorem RoundsBetween.roundsTo (h : RoundsBetween rm n x c (c + 1) c k) (hq : (q : ℝ) = signed n x) : RoundsTo rm q (if n then -(k : ℤ) else k) := by
  have hlo := h.le
  have hhi := h.lt
  obtain ⟨i, hi⟩ : ∃ i : ℤ, (if n then -(k : ℤ) else k) = i := ⟨_, rfl⟩
  have hik : (i : ℝ) = signed n k := by rw [← hi]; cases n <;> simp [signed]
  have heven : i % 2 = 0 ↔ k % 2 = 0 := by rw [← hi]; cases n <;> simp <;> omega
  have hdist : ((|q - i| : ℚ) : ℝ) = |x - k| := by push_cast; rw [hq, hik, abs_signed_sub]
  -- what the claim says of the two magnitudes
  have tell (h0 : |x - k| < 1) (h1 : rm = 0 → 2 * |x - k| ≤ 1 ∧ (2 * |x - k| = 1 → k % 2 = 0)) (h2 : rm = 1 → (k : ℝ) ≤ x)
      (h3 : rm = 2 → signed n k ≤ signed n x) (h4 : rm = 3 → signed n x ≤ signed n k) : RoundsTo rm q i := by
    rw [← hdist] at h0 h1
    rw [← hik, ← hq] at h3 h4
    refine ⟨by exact_mod_cast h0, fun e => ⟨by exact_mod_cast (h1 e).1, fun he => heven.mpr ((h1 e).2 (by exact_mod_cast he))⟩, fun e => ?_,
      by exact_mod_cast h3, by exact_mod_cast h4⟩
    have h5 : |(i : ℝ)| ≤ |(q : ℝ)| := by
      rw [hik, hq, abs_signed, abs_signed, abs_of_nonneg (Nat.cast_nonneg k)]
      exact (h2 e).trans (le_abs_self x)
    exact_mod_cast h5
  rw [hi]
  by_cases hx : x = c
  · obtain rfl := h.exact hx
    rw [hx] at tell
    simp only [sub_self, abs_zero, mul_zero] at tell
    exact tell one_pos (fun _ => ⟨zero_le_one, fun e => absurd e zero_ne_one⟩) (fun _ => le_rfl) (fun _ => le_rfl) fun _ => le_rfl
  · by_cases hu : GoesUp rm n x c (c + 1) c
    · obtain rfl := h.up hx hu
      have habs : |x - (c + 1 : ℕ)| = c + 1 - x := by push_cast; rw [abs_of_nonpos (by linarith)]; ring
      rw [habs] at tell
      have hlt : (c : ℝ) < x := lt_of_le_of_ne hlo (Ne.symm hx)
      refine tell (by linarith) ?_ (fun e => ?_) (fun e => ?_) fun e => ?_
      · rintro rfl
        rcases hu with hu | ⟨hu, hodd⟩
        · exact ⟨by linarith, fun e => by linarith⟩
        · exact ⟨by linarith, fun _ => by omega⟩
      · subst e; exact hu.elim
      · subst e
        obtain rfl : n = true := hu
        simp only [signed, if_true]; push_cast; linarith
      · subst e
        obtain rfl : n = false := hu
        simp only [signed, Bool.false_eq_true, if_false]; push_cast; linarith
    · obtain rfl := h.down hx hu
      rw [abs_of_nonneg (sub_nonneg.mpr hlo)] at tell
      refine tell (by linarith) ?_ (fun _ => hlo) (fun e => ?_) fun e => ?_
      · rintro rfl
        have hmid : x ≤ (k + (k + 1)) / 2 := not_lt.mp fun e => hu (.inl e)
        refine ⟨by linarith, fun e => ?_⟩
        have hne : k % 2 ≠ 1 := fun hodd => hu (.inr ⟨by linarith, hodd⟩)
        omega
      · subst e
        obtain rfl : n = false := Bool.not_eq_true _ ▸ hu
        exact hlo
      · subst e
        obtain rfl : n = true := Bool.not_eq_false _ ▸ hu
        simp only [signed, if_true]; linarith

theorem signed_inj {a b : ℝ} : signed n a = signed n b ↔ a = b := by cases n <;> simp [signed]

theorem quantize_zero (rm : Rnd) (n : Bool) (e q : ℤ) : quantize rm n 0 e q = (0, false) := by
  unfold quantize
  split
  · rw [Nat.zero_shiftLeft]
  · simp

theorem cast_toInt (rm : Rnd) (n : Bool) (m : ℕ) (e : ℤ) : (((Fl.fin n m e).toInt rm).1 : ℝ) = signed n (quantize rm n m e 0).1 := by
  show ((if n then -((quantize rm n m e 0).1 : ℤ) else (quantize rm n m e 0).1 : ℤ) : ℝ) = _
  cases n <;> simp [signed]

/-- The integer of a finite number (R82). -/
theorem toInt_spec (rm : Rnd) {v : Fl} (hv : v.isFin = true) : RoundsTo rm (valueOf v) (v.toInt rm).1 ∧
    ((v.toInt rm).2 = true ↔ valueOf v ≠ (v.toInt rm).1) := by
  obtain ⟨n, m, e, rfl⟩ := exists_fin hv
  obtain ⟨p, hp⟩ : ∃ p, (Fl.fin n m e).toInt rm = p := ⟨_, rfl⟩
  rw [hp]
  obtain ⟨c, hb, hinx⟩ := quantize_spec rm n m e 0
  rw [zpow_zero, mul_one] at hb hinx
  push_cast at hb
  rw [mul_one] at hb
  have hp1 : (if n then -((quantize rm n m e 0).1 : ℤ) else (quantize rm n m e 0).1) = p.1 := congrArg Prod.fst hp
  have hp2 : (quantize rm n m e 0).2 = p.2 := congrArg Prod.snd hp
  have hi : (p.1 : ℝ) = signed n (quantize rm n m e 0).1 := hp ▸ cast_toInt rm n m e
  rw [← hp1, ← hp2]
  refine ⟨hb.roundsTo (cast_valueOf_fin n m e), hinx.trans ?_⟩
  rw [hp1]
  have hne : (valueOf (.fin n m e) : ℝ) ≠ p.1 ↔ (m : ℝ) * 2 ^ e ≠ c := by
    rw [hi, cast_valueOf_fin, ne_eq, signed_inj]
    refine not_congr ⟨fun h => ?_, fun h => ?_⟩
    · rcases hb.eq_or with hk | ⟨hk, -⟩
      · rw [h, hk]
      · rw [hk] at h; push_cast at h; exact absurd h hb.lt.ne
    · rw [h, hb.exact h]
  rw [← hne]
  exact_mod_cast Iff.rfl

/-! ### To an integer -/

/-- The ends of an integer's range. -/
def intLow (sgn : Bool) (w : ℕ) : ℤ := if sgn then -2 ^ (w - 1) else 0
def intHigh (sgn : Bool) (w : ℕ) : ℤ := if sgn then 2 ^ (w - 1) - 1 else 2 ^ w - 1

theorem intLow_eq (sgn : Bool) (w : ℕ) : (if sgn = true then -((2 ^ (w - 1) : ℕ) : ℤ) else 0) = intLow sgn w := by rw [intLow]; push_cast; rfl

theorem intHigh_eq (sgn : Bool) (w : ℕ) :
    (if sgn = true then ((2 ^ (w - 1) : ℕ) : ℤ) - 1 else ((2 ^ w : ℕ) : ℤ) - 1) = intHigh sgn w := by rw [intHigh]; push_cast; rfl

section
variable {cp y w : ℕ} {sgn : Bool}

theorem truncI_pow (v : ℤ) (w : ℕ) : truncI v w = (v % 2 ^ w).toNat := by rw [truncI, Nat.cast_pow, Nat.cast_ofNat]

theorem fpToInt_nan {s : Bool} (h : f.decode (flushIn cp f y) = .nan s) :
    (fpToInt f cp rm w sgn y).bits = (if cpCVTW cp then 2 ^ (w - 1) else 0) ∧ (fpToInt f cp rm w sgn y).flags = flNV := by
  simp only [fpToInt, h, and_self]

theorem fpToInt_inf (h : f.decode (flushIn cp f y) = .inf n) : (fpToInt f cp rm w sgn y).bits =
      (if cpCVTW cp then 2 ^ (w - 1) else ((if n then intLow sgn w else intHigh sgn w) % 2 ^ w).toNat) ∧ (fpToInt f cp rm w sgn y).flags = flNV := by
  simp only [fpToInt, h, truncI_pow, intLow_eq, intHigh_eq, and_self]

theorem fpToInt_fin {v : Fl} (h : f.decode (flushIn cp f y) = v) (hv : v.isFin = true) : let r := fpToInt f cp rm w sgn y; let i := (v.toInt rm).1
    (intLow sgn w ≤ i ∧ i ≤ intHigh sgn w → r.bits = (i % 2 ^ w).toNat ∧ r.flags = if (v.toInt rm).2 then flNX else 0) ∧
    (i < intLow sgn w ∨ intHigh sgn w < i →
      r.bits = ((if cpCVTW cp then i else if i < 0 then intLow sgn w else intHigh sgn w) % 2 ^ w).toNat ∧ r.flags = flNV) := by
  obtain ⟨n, m, e, rfl⟩ := exists_fin hv
  intro r i
  obtain ⟨inx, hinx⟩ : ∃ inx, (Fl.fin n m e).toInt rm = (i, inx) := ⟨_, rfl⟩
  rw [hinx]
  simp only [r, fpToInt, h, hinx, intLow_eq, intHigh_eq, Bool.and_eq_true, decide_eq_true_eq, truncI_pow]
  refine ⟨fun hin => ?_, fun hout => ?_⟩
  · rw [if_pos hin]; exact ⟨rfl, rfl⟩
  · rw [if_neg (by omega)]
    exact ⟨by split <;> rfl, rfl⟩

theorem zero_in_range (sgn : Bool) (w : ℕ) : intLow sgn w ≤ 0 ∧ 0 ≤ intHigh sgn w := by
  have h1 : (1 : ℤ) ≤ 2 ^ (w - 1) := one_le_pow₀ (by decide)
  have h2 : (1 : ℤ) ≤ 2 ^ w := one_le_pow₀ (by decide)
  cases sgn <;> simp only [intLow, intHigh, if_true, Bool.false_eq_true, if_false] <;> omega
end

theorem floatToIntegerFollowsTheTable : FloatToIntegerFollowsTheTable := by
  intro f cp x w rm sgn hformat _ r i lo hi pat
  have hf : IsIeee f := .inr (.inr hformat)
  refine ⟨fun h => ?_, fun h => ?_⟩
  · obtain ⟨-, n, e, -, hd⟩ := (operand_cases hf cp x).resolve_left fun h' => h h'.1
    have hz : (Fl.fin n 0 e).toInt rm = (0, false) := by simp [Fl.toInt, quantize_zero]
    have hr := (fpToInt_fin hd rfl (rm := rm) (sgn := sgn) (w := w)).1
    rw [hz] at hr
    obtain ⟨h1, h2⟩ := hr (zero_in_range sgn w)
    exact ⟨h1.trans (by rw [Int.zero_emod]; rfl), h2⟩
  · obtain ⟨-, hd⟩ := (operand_cases hf cp x).resolve_right fun h' => h'.1 h
    refine ⟨fun hn => ?_, fun n hn => ?_, fun hfin hlo hhi => ?_, fun hfin hout => ?_, fun hfin _ => ?_⟩
    · obtain ⟨s, hv⟩ := exists_nan hn
      exact fpToInt_nan (hd.trans hv)
    · exact fpToInt_inf (hd.trans hn)
    · obtain ⟨h1, h2⟩ := (fpToInt_fin hd hfin).1 ⟨hlo, hhi⟩
      have hinx := (toInt_spec rm hfin).2
      refine ⟨h1, ?_⟩
      rw [show r.flags = _ from h2]
      cases hx : ((f.decode x).toInt rm).2
      · rw [hx] at hinx
        exact ⟨iff_of_true rfl (not_not.mp fun h => Bool.false_ne_true (hinx.mpr h)), .inl rfl⟩
      · exact ⟨iff_of_false (by decide) (hinx.mp hx), .inr rfl⟩
    · exact (fpToInt_fin hd hfin).2 hout
    · exact (toInt_spec rm hfin).1

end
end Sys2Proof.Laws
end

section
/-!
PROOFS. From an integer to a float, between the formats, and FRND (R82); O6.
-/
namespace Sys2Proof.Laws
open Sys2Proof Sys2Proof.Machine Sys2Proof.Claims

/-! ### Numbers that a format has -/

section
variable {f : Fmt} {rm : Rnd} {n : Bool} {m c k : ℕ} {e : ℤ}

/-- The finite numbers lie below the power of two past them. -/
theorem magVal_infCode (hf : IsIeee f) : magVal f f.infCode = 2 ^ (f.bias + 1) := by
  have h : (2 ^ f.eb - 2 + 1 = 2 ^ f.eb - 1) ∧ ((2 ^ f.eb - 2 : ℕ) : ℤ) + f.emin = (f.bias + 1 : ℕ) := by
    rcases hf with rfl | rfl | rfl | rfl <;> decide
  have hp := magVal_two_pow f (2 ^ f.eb - 2)
  rw [h.1, h.2, zpow_natCast] at hp
  exact hp

theorem le_maxFin_iff (hf : IsIeee f) : c ≤ f.maxFin ↔ magVal f c < 2 ^ (f.bias + 1) := by
  obtain ⟨-, -, -, h, -⟩ := ieee_codes hf
  rw [← magVal_infCode hf, magVal_lt_iff]; omega

/-- A mantissa at a step that is not below the format's, within its range, is a number of the format. -/
theorem exists_code (hf : IsIeee f) (hm : m < 2 ^ (f.mb + 1)) (he : f.emin - f.mb ≤ e) (hlt : (m : ℝ) * 2 ^ e < 2 ^ (f.bias + 1)) :
    ∃ c, c ≤ f.maxFin ∧ magVal f c = m * 2 ^ e := by
  have code (h : ℕ) : ∀ m : ℕ, m < 2 ^ (f.mb + 1) → ∃ c, magVal f c = m * (2 : ℝ) ^ (h + (f.emin - f.mb)) := by
    induction h with
    | zero => exact fun m hm => ⟨_, magVal_add hm.le (.inl rfl)⟩
    | succ h ih =>
      intro m hm
      rcases Nat.lt_or_ge m (2 ^ f.mb) with hlow | hfull
      · obtain ⟨c, hc⟩ := ih (2 * m) (by rw [Nat.pow_succ]; omega)
        refine ⟨c, hc.trans ?_⟩
        rw [Nat.cast_succ, add_right_comm, zpow_add_one₀ (by norm_num)]
        push_cast; ring
      · exact ⟨_, magVal_add hm.le (.inr hfull)⟩
  obtain ⟨c, hc⟩ := code (e - (f.emin - f.mb)).toNat m hm
  rw [Int.toNat_of_nonneg (by omega), sub_add_cancel] at hc
  exact ⟨c, (le_maxFin_iff hf).mpr (hc ▸ hlt), hc⟩

/-- A number that the format has is its own rounding. -/
theorem round_exact (hf : IsIeee f) (rm : Rnd) (n : Bool) (hc : c ≤ f.maxFin) (h : magVal f c = m * 2 ^ e) : f.round rm (.fin n m e) = (f.withSign n c, 0) := by
  have := roundedAs_round (f := f) (goodFmt_ieee hf).mb rm n m e
  rw [← h] at this
  exact this.eq_of_magVal hc

/-- What a code's finite number is made of. -/
theorem decode_bounds (hf : IsIeee f) {x : ℕ} (h : f.decode x = .fin n m e) : m < 2 ^ (f.mb + 1) ∧ f.emin - f.mb ≤ e ∧ (m : ℝ) * 2 ^ e < 2 ^ (f.bias + 1) := by
  have hg := goodFmt_ieee hf
  have hfin : FiniteCode f (x % 2 ^ f.bits) := ⟨Nat.mod_lt _ (Nat.two_pow_pos _), by rw [decode_mod, h]; rfl⟩
  obtain ⟨k, c, hc, hx⟩ := (finiteCode_iff (ieee_max hf).1 hg).mp hfin
  rw [← decode_mod, hx, decode_finite hg k hc] at h
  obtain ⟨-, rfl, rfl⟩ := Fl.fin.injEq .. ▸ h
  exact ⟨mantissa_lt f c, by rw [stepExp]; omega, (le_maxFin_iff hf).mp hc⟩

theorem flushOut_normal (cp : ℕ) {r : ℕ × ℕ} (h : f.isSub r.1 = false) : flushOut cp f r = r := by rw [flushOut, h, Bool.and_false]; rfl

theorem isSub_nan (hf : IsIeee f) : f.isSub f.nan = false := by rcases hf with rfl | rfl | rfl | rfl <;> decide

theorem isSub_inf (hf : IsIeee f) (n : Bool) : f.isSub (f.withSign n f.infCode) = false := by
  rw [← Bool.not_eq_true, isSub_withSign n (infCode_lt hf)]
  have := two_pow_mb_le_maxFin hf
  obtain ⟨-, -, -, h, -⟩ := ieee_codes hf
  omega

/-! ### From an integer -/

/-- An integer of 64 bits is in the range of the normal numbers. -/
theorem round_integer (hf : f = fp32 ∨ f = fp64) (rm : Rnd) (n : Bool) (hk : k ≤ 2 ^ 64) : let r := f.round rm (.fin n k 0)
    (∃ mag, mag ≤ f.maxFin ∧ r.1 = f.withSign n mag) ∧ f.isSub r.1 = false ∧ (r.2 = 0 ∨ r.2 = flNX) := by
  intro r
  have hi : IsIeee f := .inr (.inr hf)
  have hg := goodFmt_ieee hi
  by_cases h0 : k = 0
  · have hr : r = (f.withSign n 0, 0) := by simp only [r]; rw [h0]; rfl
    rw [hr]
    exact ⟨⟨0, Nat.zero_le _, rfl⟩, by rw [← Bool.not_eq_true, isSub_withSign n (Nat.two_pow_pos _)]; simp, .inl rfl⟩
  · have hround : RoundedAs f rm n (k * (2 : ℝ) ^ (0 : ℤ)) r := roundedAs_round hg.mb rm n k 0
    obtain ⟨c, mag, inx, tiny, hb, -, htiny, hr⟩ := hround
    rw [zpow_zero, mul_one] at hb htiny
    have hk' : (k : ℝ) ≤ 2 ^ 64 := by exact_mod_cast hk
    have h1k : (1 : ℝ) ≤ k := by exact_mod_cast Nat.pos_of_ne_zero h0
    obtain ⟨h64, h1, hemin, hlow, hhigh⟩ : ((63 + f.bias : ℕ) : ℤ) + f.emin = (64 : ℕ) ∧ ((f.bias - 1 : ℕ) : ℤ) + f.emin = 0 ∧ f.emin ≤ 0 ∧
        2 ^ f.mb ≤ (f.bias - 1 + 1) * 2 ^ f.mb ∧ (63 + f.bias + 1) * 2 ^ f.mb + 1 ≤ f.maxFin := by rcases hf with rfl | rfl <;> decide
    have hc1 : (f.bias - 1 + 1) * 2 ^ f.mb < c + 1 := by
      rw [← magVal_lt_iff (f := f), magVal_two_pow, h1, zpow_zero]
      exact h1k.trans_lt hb.lt
    have hc2 : c ≤ (63 + f.bias + 1) * 2 ^ f.mb := by
      rw [← magVal_le_iff (f := f), magVal_two_pow, h64, zpow_natCast]
      exact hb.le.trans hk'
    have hmag : c ≤ mag ∧ mag ≤ f.maxFin := by rcases hb.eq_or with e | ⟨e, -⟩ <;> omega
    have htiny' : tiny = false := by
      rw [← Bool.not_eq_true]
      intro h
      have : (2 : ℝ) ^ f.emin ≤ 1 := zpow_le_one_of_nonpos₀ (by norm_num) hemin
      linarith [htiny h]
    rw [packed, if_neg (not_lt.mpr hmag.2), htiny'] at hr
    rw [hr]
    refine ⟨⟨mag, hmag.2, rfl⟩, ?_, ?_⟩
    · rw [← Bool.not_eq_true, isSub_withSign n (hmag.2.trans_lt hg.max)]; omega
    · cases inx
      · exact .inl rfl
      · exact .inr rfl

theorem valueOf_ofInt (i : ℤ) : valueOf (Fl.ofInt i) = i := by
  have := valueOf_ofUnits i 0
  rwa [zpow_zero, mul_one] at this

theorem integerToFloatRoundsTheValue : IntegerToFloatRoundsTheValue := by
  intro f cp rm i hformat hlo hhi r
  have hf : IsIeee f := .inr (.inr hformat)
  have hg := goodFmt_ieee hf
  obtain ⟨⟨mag, hmag, hbits⟩, hsub, hflags⟩ := round_integer hformat rm (decide (i < 0)) (k := i.natAbs) (by omega)
  have hr : flushOut cp f (f.round rm (Fl.ofInt i)) = f.round rm (Fl.ofInt i) := flushOut_normal cp hsub
  have h1 : r.bits = (f.round rm (Fl.ofInt i)).1 := congrArg Prod.fst hr
  have h2 : r.flags = (f.round rm (Fl.ofInt i)).2 := congrArg Prod.snd hr
  have hinx := (roundedAs_round hg.mb rm (decide (i < 0)) i.natAbs 0).inexact_iff hf
  rw [← cast_valueOf_fin] at hinx
  rw [h1, h2]
  refine ⟨⟨Fl.ofInt i, rfl, valueOf_ofInt i, rfl⟩, (finiteCode_iff (ieee_max hf).1 hg).mpr ⟨_, mag, hmag, hbits⟩, ?_⟩
  have hfin : (f.decode (f.round rm (Fl.ofInt i)).1).isInf = false := by
    rw [show (f.round rm (Fl.ofInt i)).1 = _ from hbits, decode_finite hg _ hmag]; rfl
  have hval : ((f.round rm (Fl.ofInt i)).2.testBit 0 = true) ↔ valueOf (f.decode (f.round rm (Fl.ofInt i)).1) ≠ i := by
    rw [← valueOf_ofInt i]
    refine hinx.trans ?_
    rw [show f.round rm (.fin (decide (i < 0)) i.natAbs 0) = f.round rm (Fl.ofInt i) from rfl, hfin]
    simp only [Bool.false_eq_true, false_or]
    exact_mod_cast Iff.rfl
  rcases hflags with h | h
  · rw [show (f.round rm (Fl.ofInt i)).2 = 0 from h] at hval ⊢
    rw [if_pos (not_not.mp fun hne => absurd (hval.mpr hne) (by decide))]
  · rw [show (f.round rm (Fl.ofInt i)).2 = flNX from h] at hval ⊢
    rw [if_neg (hval.mp (by decide))]

/-! ### Between the formats -/

theorem fpToFp_eq (f t : Fmt) (cp : ℕ) (rm : Rnd) (x : ℕ) : let v := f.decode (if f.mb < t.mb then x else flushIn cp f x); let r := fpToFp f t cp rm x
    r.bits = (flushOut cp t (t.round rm v)).1 ∧ r.flags = (flushOut cp t (t.round rm v)).2 ||| if v.isSNaN then flNV else 0 := ⟨rfl, rfl⟩

/-- A conversion to the other format keeps a NaN and an infinity. -/
theorem flushOut_round_nan (hf : IsIeee f) (cp : ℕ) {v : Fl} (h : v.isNaN = true) : (flushOut cp f (f.round rm v)).1 = f.nan := by
  obtain ⟨s, rfl⟩ := exists_nan h
  exact congrArg Prod.fst (flushOut_normal cp (isSub_nan hf))

theorem flushOut_round_inf (hf : IsIeee f) (cp : ℕ) (n : Bool) : f.decode (flushOut cp f (f.round rm (.inf n))).1 = .inf n := by
  rw [round_inf hf, flushOut_normal cp (isSub_inf hf n)]
  exact decode_infCode (ieee_max hf).1 n

/-- A number of fp32 is a normal number or a zero of fp64. -/
theorem exists_code_widen {x : ℕ} (h : fp32.decode x = .fin n m e) : ∃ c, c ≤ fp64.maxFin ∧ magVal fp64 c = m * 2 ^ e ∧ fp64.isSub (fp64.withSign n c) = false := by
  have hf : IsIeee fp64 := .inr (.inr (.inr rfl))
  obtain ⟨hm, he, hlt⟩ := decode_bounds (.inr (.inr (.inl rfl))) h
  have he' : (-149 : ℤ) ≤ e := he
  obtain ⟨c, hc, hval⟩ := exists_code hf (hm.trans (by decide)) ((by decide : fp64.emin - fp64.mb ≤ -149).trans he')
    (hlt.trans (pow_lt_pow_right₀ (by norm_num) (by decide)))
  refine ⟨c, hc, hval, ?_⟩
  rw [← Bool.not_eq_true, isSub_withSign n (hc.trans_lt (goodFmt_ieee hf).max)]
  rintro ⟨h0, hsub⟩
  rw [← magVal_lt_iff (f := fp64), magVal_two_pow_mb, hval] at hsub
  have hm0 : m ≠ 0 := by
    rintro rfl
    rw [Nat.cast_zero, zero_mul, ← magVal_zero fp64] at hval
    exact h0 ((magVal_strictMono fp64).injective hval)
  have h1 : (1 : ℝ) ≤ m := by exact_mod_cast Nat.pos_of_ne_zero hm0
  have h2 : (2 : ℝ) ^ fp64.emin ≤ 2 ^ e := zpow_le_zpow_right₀ (by norm_num) ((by decide : fp64.emin ≤ -149).trans he')
  have h3 : (2 : ℝ) ^ e ≤ m * 2 ^ e := le_mul_of_one_le_left (by positivity) h1
  linarith

theorem round_flushIn (hf : IsIeee f) (t : Fmt) (cp x : ℕ) : t.round rm (f.decode (flushIn cp f x)) = t.round rm (operand f cp x) := by
  rcases operand_cases hf cp x with ⟨h1, h2⟩ | ⟨-, n, e, h1, h2⟩ <;> rw [h1, h2]
  rfl

section
variable {t : Fmt} {cp x : ℕ}

theorem fpToFp_widen_special (ht : IsIeee t) (h : f.mb < t.mb) : let r := fpToFp f t cp rm x; let v := f.decode x
    (v.isNaN = true → r.bits = t.nan) ∧ ∀ n, v = .inf n → t.decode r.bits = .inf n := by
  intro r v
  obtain ⟨hbits, -⟩ := fpToFp_eq f t cp rm x
  rw [if_pos h] at hbits
  refine ⟨fun hn => hbits.trans (flushOut_round_nan ht cp hn), fun n hn => ?_⟩
  rw [show r.bits = _ from hbits, show f.decode x = .inf n from hn]
  exact flushOut_round_inf ht cp n

/-- A number that the wider format has as a normal number or a zero keeps its value. -/
theorem fpToFp_widen_fin (ht : IsIeee t) (h : f.mb < t.mb) (hv : f.decode x = .fin n m e) (hc : c ≤ t.maxFin) (hval : magVal t c = m * 2 ^ e)
    (hsub : t.isSub (t.withSign n c) = false) : let r := fpToFp f t cp rm x
    (t.decode r.bits).isFin = true ∧ valueOf (t.decode r.bits) = valueOf (.fin n m e) ∧ (t.decode r.bits).neg = n ∧ r.flags = 0 := by
  intro r
  obtain ⟨hbits, hflags⟩ := fpToFp_eq f t cp rm x
  rw [if_pos h, hv, round_exact ht rm n hc hval, flushOut_normal cp hsub] at hbits hflags
  rw [show r.bits = _ from hbits, show r.flags = _ from hflags, decode_finite (goodFmt_ieee ht) n hc]
  refine ⟨rfl, ?_, rfl, Nat.zero_or 0⟩
  have : ((valueOf (.fin n (mantissa t c) (stepExp t c)) : ℚ) : ℝ) = (valueOf (.fin n m e) : ℚ) := by
    rw [cast_valueOf_fin, cast_valueOf_fin, ← hval, magVal]
  exact_mod_cast this

theorem fpToFp_narrow (hf : IsIeee f) (ht : IsIeee t) (h : ¬ f.mb < t.mb) : let r := fpToFp f t cp rm x; let v := operand f cp x; let y := (t.round rm v).1
    (v.isNaN = true → r.bits = t.nan) ∧ (∀ n, v = .inf n → t.decode r.bits = .inf n) ∧
    (v.isFin = true → (cpDEN cp = 0 ∨ t.isSub y = false → r.bits = y ∧ r.flags = (t.round rm v).2) ∧
      (cpDEN cp = 1 ∨ cpDEN cp = 2 → t.isSub y = true → r.bits = t.withSign v.neg 0)) := by
  intro r v y
  obtain ⟨hbits, hflags⟩ := fpToFp_eq f t cp rm x
  rw [if_neg h, round_flushIn hf] at hbits hflags
  rw [isSNaN_flushIn hf] at hflags
  refine ⟨fun hn => hbits.trans (flushOut_round_nan ht cp hn), fun n hn => ?_, fun hfin => ?_⟩
  · rw [show r.bits = _ from hbits, show operand f cp x = .inf n from hn]
    exact flushOut_round_inf ht cp n
  obtain ⟨n, m, e, hv⟩ := exists_fin hfin
  refine ⟨fun hkeep => ?_, fun hden hsub => ?_⟩
  · have hout : flushOut cp t (t.round rm v) = t.round rm v := hkeep.elim (fun h => flushOut_den0 h _) fun h => flushOut_normal cp h
    have hsig : v.isSNaN = false := by rw [hv]; rfl
    rw [show operand f cp x = v from rfl, hout] at hbits hflags
    exact ⟨hbits, hflags.trans (by rw [hsig]; exact Nat.or_zero _)⟩
  · have hneg := (roundedAs_round (goodFmt_ieee ht).mb rm n m e).neg_decode ht
    rw [show r.bits = _ from hbits, flushOut, if_pos (by rw [show t.isSub (t.round rm (operand f cp x)).1 = true from hsub]; simpa using hden)]
    show t.withSign (t.decode (t.round rm v).1).neg 0 = t.withSign v.neg 0
    rw [hv, hneg]; rfl
end

theorem floatToFloatKeepsOrRounds : FloatToFloatKeepsOrRounds := by
  have h32 : IsIeee fp32 := .inr (.inr (.inl rfl))
  have h64 : IsIeee fp64 := .inr (.inr (.inr rfl))
  have hmb : fp32.mb < fp64.mb := by decide
  intro cp x rm
  refine ⟨fun _ => ?_, fun _ => fpToFp_narrow h64 h32 hmb.not_gt⟩
  obtain ⟨hnan, hinf⟩ := fpToFp_widen_special h64 hmb
  refine ⟨hnan, hinf, fun hfin => ?_⟩
  obtain ⟨n, m, e, hv⟩ := exists_fin hfin
  obtain ⟨c, hc, hval, hsub⟩ := exists_code_widen hv
  rw [hv]
  exact fpToFp_widen_fin h64 hmb hv hc hval hsub

/-! ### FRND -/

theorem fpRnd_nan {cp x : ℕ} {s : Bool} (h : f.decode (flushIn cp f x) = .nan s) : (fpRnd f cp rm x).bits = f.nan ∧ (fpRnd f cp rm x).flags = if s then flNV else 0 := by
  simp only [fpRnd, h, and_self]

theorem fpRnd_inf {cp x : ℕ} (h : f.decode (flushIn cp f x) = .inf n) : (fpRnd f cp rm x).bits = flushIn cp f x ∧ (fpRnd f cp rm x).flags = 0 := by
  simp only [fpRnd, h, and_self]

theorem fpRnd_fin {cp x : ℕ} (h : f.decode (flushIn cp f x) = .fin n m e) :
    (fpRnd f cp rm x).bits = (f.round rm (.fin n ((Fl.fin n m e).toInt rm).1.natAbs 0)).1 ∧ (fpRnd f cp rm x).flags = 0 := by
  simp only [fpRnd, h, and_self]

theorem natAbs_toInt (rm : Rnd) (n : Bool) (m : ℕ) (e : ℤ) : ((Fl.fin n m e).toInt rm).1.natAbs = (quantize rm n m e 0).1 := by
  show (if n then -((quantize rm n m e 0).1 : ℤ) else (quantize rm n m e 0).1).natAbs = _
  cases n <;> simp

/-- The integer that a number of a format rounds to is one of its numbers. -/
theorem exists_code_integer (hf : IsIeee f) (rm : Rnd) {x : ℕ} (h : f.decode x = .fin n m e) :
    ∃ c, c ≤ f.maxFin ∧ magVal f c = ((quantize rm n m e 0).1 : ℕ) * 2 ^ (0 : ℤ) := by
  obtain ⟨hm, he, hlt⟩ := decode_bounds hf h
  rcases lt_or_ge e 0 with hneg | hpos
  · -- fewer than half as many units as the mantissa has
    have hfmt : f.emin - f.mb ≤ 0 ∧ f.mb < f.bias + 1 := by rcases hf with rfl | rfl | rfl | rfl <;> decide
    obtain ⟨c, hb, -⟩ := quantize_spec rm n m e 0
    rw [zpow_zero, mul_one] at hb
    have hc : c < 2 ^ f.mb := by
      have h1 : (2 : ℝ) ^ e ≤ 2 ^ (-1 : ℤ) := zpow_le_zpow_right₀ (by norm_num) (by omega)
      have h2 : (m : ℝ) < 2 ^ (f.mb + 1) := by exact_mod_cast hm
      have h3 : (m : ℝ) * 2 ^ e ≤ m * 2 ^ (-1 : ℤ) := mul_le_mul_of_nonneg_left h1 (Nat.cast_nonneg m)
      have h4 : (c : ℝ) < 2 ^ f.mb := by
        rw [pow_succ] at h2
        rw [zpow_neg_one] at h3
        linarith [hb.le]
      exact_mod_cast h4
    have hk : (quantize rm n m e 0).1 ≤ 2 ^ f.mb := by rcases hb.eq_or with h | ⟨h, -⟩ <;> omega
    refine exists_code hf (hk.trans_lt (Nat.pow_lt_pow_right (by decide) (Nat.lt_succ_self _))) hfmt.1 ?_
    rw [zpow_zero, mul_one]
    exact_mod_cast hk.trans_lt (Nat.pow_lt_pow_right (by decide) hfmt.2)
  · obtain ⟨c, hc, hval⟩ := exists_code hf hm he hlt
    refine ⟨c, hc, hval.trans ?_⟩
    rw [quantize, if_pos hpos, Nat.shiftLeft_eq, zpow_zero, mul_one, sub_zero]
    push_cast
    rw [← zpow_natCast, Int.toNat_of_nonneg hpos]

theorem frndGivesTheIntegralValue : FrndGivesTheIntegralValue := by
  intro f cp x rm hformat _ _ r v
  have hf : IsIeee f := .inr (.inr hformat)
  have hg := goodFmt_ieee hf
  have inf {n : Bool} (hv : v = .inf n) : f.decode r.bits = .inf n ∧ r.flags = 0 := by
    have hd : f.decode (flushIn cp f x) = .inf n := (decode_flushIn_of_not_fin hf (by rw [show operand f cp x = _ from hv]; rfl)).trans hv
    obtain ⟨h1, h2⟩ := fpRnd_inf hd (rm := rm)
    exact ⟨by rw [h1, hd], h2⟩
  have fin (hfin : v.isFin = true) : FiniteCode f r.bits ∧ r.flags = 0 ∧ (f.decode r.bits).neg = v.neg ∧
      ∃ i : ℤ, valueOf (f.decode r.bits) = i ∧ RoundsTo rm (valueOf v) i := by
    obtain ⟨n, m, e, hd, hval, hneg⟩ := decode_flushIn_of_fin hf hfin
    obtain ⟨h1, h2⟩ := fpRnd_fin hd (rm := rm)
    obtain ⟨c, hc, hk⟩ := exists_code_integer hf rm hd
    rw [natAbs_toInt, round_exact hf rm n hc hk] at h1
    rw [h1, h2, show v.neg = n from hneg, show valueOf v = _ from hval, decode_finite hg n hc]
    refine ⟨(finiteCode_iff (ieee_max hf).1 hg).mpr ⟨n, c, hc, rfl⟩, rfl, rfl, _, ?_, (toInt_spec rm rfl).1⟩
    have hi : (((Fl.fin n m e).toInt rm).1 : ℝ) = signed n (quantize rm n m e 0).1 := cast_toInt ..
    rw [zpow_zero, mul_one] at hk
    rw [← hk, magVal, ← cast_valueOf_fin] at hi
    exact_mod_cast hi.symm
  refine ⟨fun hn => ?_, fun hn => ?_, fun n hv => (inf hv).1, fun hfin => ⟨(fin hfin).1, (fin hfin).2.2.2⟩⟩
  · obtain ⟨s, hv⟩ := exists_nan hn
    obtain ⟨h1, h2⟩ := fpRnd_nan ((decode_flushIn_of_not_fin hf (by rw [show operand f cp x = _ from hv]; rfl)).trans hv) (rm := rm)
    exact ⟨h1, h2.trans (by rw [hv]; rfl)⟩
  · cases hv : v with
    | nan s => rw [hv] at hn; exact absurd rfl hn
    | inf n => exact ⟨(inf hv).2, by rw [(inf hv).1]⟩
    | fin n m e =>
      obtain ⟨-, h1, h2, -⟩ := fin (by rw [hv]; rfl)
      exact ⟨h1, hv ▸ h2⟩

/-- Settles O6: the order of two numbers is that of their values; a conversion rounds once, to a multiple of one or to a code. -/
theorem minimaAndConversionsFollowTheirTables : Obligations.MinimaAndConversionsFollowTheirTables :=
  ⟨minimumAndMaximumFollowNanmm, comparisonsFollowTheirTable, floatToIntegerFollowsTheTable, integerToFloatRoundsTheValue, floatToFloatKeepsOrRounds,
    frndGivesTheIntegralValue⟩

end
end Sys2Proof.Laws
end

section
/-!
PROOFS. The values right after power is applied (R378): every table is empty, so what it does not list reads as its default.
-/
namespace Sys2Proof.Laws
open Sys2Proof Sys2Proof.Machine Sys2Proof.Claims

/-- Settles O60: the reset state lists nothing, and each value is that of an unlisted entry. -/
theorem resetLeavesTheStatedValues : Obligations.ResetLeavesTheStatedValues := by
  have hmemory : MemoryCanonical State.reset := ⟨rfl, fun _ hpeer => nomatch hpeer⟩
  have hbytes : ∀ a, State.reset.byte a = 0 ∧ State.reset.full a = false := fun _ => ⟨rfl, rfl⟩
  have hspindles : ∀ sp, (State.reset.spindle sp).winA = Vector.replicate 4 0 ∧ (State.reset.spindle sp).fenced = false ∧
      (State.reset.spindle sp).job = none := fun _ => ⟨rfl, rfl, rfl⟩
  have hqueues : ∀ q, (State.reset.queue q).mode = 0 ∧ (State.reset.queue q).ser = 1 ∧ (State.reset.queue q).head = 0 ∧
      (State.reset.queue q).tail = 0 := fun _ => ⟨rfl, rfl, rfl, rfl⟩
  exact ⟨hmemory, rfl, rfl, rfl, rfl, rfl, hbytes, rfl, rfl, rfl, hspindles, fun _ => rfl, hqueues, rfl, rfl⟩

end Sys2Proof.Laws
end

section
/-!
PROOFS. A merge that has begun for a group at whose phase nobody arrived by PLY (R90, R196).
-/
namespace Sys2Proof.Laws
open Sys2Proof Sys2Proof.Machine Sys2Proof.Claims Sys2Proof.Config

/-- The last entry due of group 0's merge: a DSTORE of 5 at 0x40. -/
def lastDue : SkeinEntry := { fa := 0x40, op := 7, sz := 3, v := 5, key := 0, seqn := 0, plyg := 0, phase := 0, anyph := false, due := true }
/-- Job 1, on spindle 0, merges for group 0, at which no member has arrived. -/
def mergingJob : Job := { Job.blank with serial := 1, rect := ⟨0, 0, 1, 1⟩, merging := [0] }
def nobodyPlied : State :=
  { State.reset with spindles := [(0, { job := some 1, skein := [lastDue] })], jobs := [(1, mergingJob)] }

/-- The last entry is applied and the phase ends, but no ply is counted. -/
theorem nobodyPlied_counts_no_ply {t : State} (h : exec (.phaseComplete 1 0) nobodyPlied = .next t) : (t.job 1).pliesDone = 0 := by
  obtain rfl := Host.Outcome.next.inj h
  decide +kernel

/-- Refutes O43: `PlyPhasesMerge` says that the event which applies the last entry due of a merge counts a ply, with no hypothesis that a member
arrived by PLY. The model counts one only where a member did, and in `nobodyPlied` none has arrived at all. -/
theorem not_channelsPhasesAndTasksWakeTheirWaiters : ¬ Obligations.ChannelsPhasesAndTasksWakeTheirWaiters := by
  rintro ⟨-, -, hmerge, -⟩
  obtain ⟨-, hlast⟩ := hmerge nobodyPlied 1 0 mergingJob rfl (.inl rfl) rfl rfl
  obtain ⟨t, hexec, -, -, hdone⟩ := hlast 0 lastDue (by decide) (by decide) (by decide) rfl (by decide) (by decide) rfl (by decide)
  obtain ⟨-, hplies, -⟩ := hdone
  rw [nobodyPlied_counts_no_ply hexec] at hplies
  cases hplies

end Sys2Proof.Laws
end

section
/-!
PROOFS. The wake procedure of a word (R128) answers a waiter whose context waits for something else: the end of that context's wait is then no load.
-/
namespace Sys2Proof.Laws
open Sys2Proof Sys2Proof.Machine Sys2Proof.Claims Sys2Proof.Config

/-- An LDF of context 1 of spindle 0 waits at the word 0x40. -/
def staleReader : Waiter := { sp := 0, ctx := 1, tok := 9, op := opLDF, fa := 0x40, n := 8, data := 0, local_ := true }
/-- Page 0 of job 0's space is the scratchpad of spindle 0. -/
def scratchEntry : TlbEntry := { job := 0, vpn := 0, page := { frame := 0, big := false, kind := 0, r := true, w := true, x := false, fgn := false } }
/-- Context 1 is a compensation thread that waits for the last answer of a DRAIN which found a fenced publisher, under the waiter's token; context
15, a handler, executes, its g1 not 0. -/
def drainingReader : State :=
  { State.reset with
    ctxs := [(1, { st := .parked, tok := 9, kont := .drain 1 true, thidx := compThidx }),
             (15, { st := .ready, handler := true, trapv := 0x10000, g := (Vector.replicate 16 0).set 1 5 })]
    spindles := [(0, { job := some 0, waiters := [staleReader], tlb := [scratchEntry] })]
    cur := 15 }

theorem drainingReader_own : Own drainingReader (eaShort drainingReader 0 0x40) needW 8 0x40 where
  aligned := by decide
  page := ⟨scratchEntry.page, by decide, rfl, rfl⟩
  home := by decide
  rels := ⟨rfl, rfl⟩

/-- The STW that fills the word ends the compensation thread, the last thread of its job, and with it the handler that executes. -/
theorem drainingReader_loses_registers {t : State} (h : exec (.stw 1 0 3 0x40) drainingReader = .next t) : t.me.reg 1 = 0 := by
  obtain rfl := Host.Outcome.next.inj h
  decide +kernel

/-- Refutes O18: `ChangedWordsAnswerTheirWaiter` says of every waiter's context that no context but it and the executing one changes, with no
hypothesis that it waits for this answer. In `drainingReader` its wait is DRAIN's, which ends in a trap; the trap ends the job's last thread, which
frees the handler contexts, the executing one among them. -/
theorem not_fullEmptyFormsAtTheOwnBank : ¬ Obligations.FullEmptyFormsAtTheOwnBank := by
  rintro ⟨-, -, hchanged⟩
  obtain ⟨hstw, -⟩ := hchanged drainingReader 1 0 0 3 0x40 0 0x40 staleReader rfl rfl rfl rfl rfl (by decide) (by decide)
  obtain ⟨t, hexec, ⟨-, hg, -⟩, -⟩ := hstw drainingReader_own rfl (.inl rfl) (by decide)
  have hreg : t.me.reg 1 = drainingReader.me.reg 1 := congrArg (fun g : Vector Word 16 => g[(1 : Reg).toFin]) hg
  rw [drainingReader_loses_registers hexec] at hreg
  exact absurd hreg (by decide)

end Sys2Proof.Laws
end

section
/-!
PROOFS. A tear-down (R377) fills the completion word of the queue's held record (R364), and the fill serves a waiter that consumes poison (R348).
-/
namespace Sys2Proof.Laws
open Sys2Proof Sys2Proof.Machine Sys2Proof.Claims Sys2Proof.Config

/-- The record that queue 0 holds: its completion word is at 0x40 of the queue's space, whose level-1 table is at 0. -/
def tornRecord : Held := { ws := (Vector.replicate 8 0).set 6 0x40, ext := Vector.replicate 16 0, slot := 0, ser := 1 }
/-- A read of spindle 1, of two words, waits at the completion word, and the second word is poisoned. -/
def wideReader : Waiter := { sp := 1, ctx := 0, tok := 9, op := opLDF, fa := 0x40, n := 16, data := 0, local_ := false }
/-- The reader's launch, job 1, has spindle 1. -/
def readersJob : Job := { Job.blank with serial := 1, rect := ⟨1, 0, 1, 1⟩ }
/-- TEARDOWN of queue 0 runs; the tables at 0, 0x8000 and 0x10000 map page 0 to the scratchpad of spindle 0. -/
def tornQueue : State :=
  { State.reset with
    mem := [(3, 0x40), (7, 0x80), (0x8003, 0x80), (0x8007, 0x80), (0x10007, 0xC6)]
    poison := [0x48]
    spindles := [(0, { waiters := [wideReader] }), (1, { job := some 1 })]
    jobs := [(1, readersJob)]
    disp := { queues := [(0, { held := some tornRecord })] }
    trebex := { busy := true, cmd := 0x02 } }

theorem tornQueue_rootPage : tornQueue.rootPage 0 0x40 needW = some (0x40, 0) := by decide +kernel

/-- The tear-down fences the rectangle of the reader's launch, which has lost its threads there. -/
theorem tornQueue_fences {t : State} (h : exec .teardown tornQueue = .next t) : (t.job 1).lostFence = true := by
  obtain rfl := Host.Outcome.next.inj h
  decide +kernel

/-- Refutes O53: `LaunchesAreManaged` says of a tear-down that ends a held record that it leaves every launch as it was. The record's end fills its
completion word, and in `tornQueue` that fill serves a waiter that consumes poison: the fence of R348 marks the reader's launch. -/
theorem not_commandsDoWhatTheyName : ¬ Obligations.CommandsDoWhatTheyName := by
  rintro ⟨-, -, -, hmanaged, -⟩
  obtain ⟨-, -, -, hteardown⟩ := hmanaged tornQueue 0 0 0 0 1
  obtain ⟨-, hheld, -⟩ := hteardown ⟨rfl, rfl, by decide⟩ (by decide) rfl rfl rfl
  obtain ⟨-, hends⟩ := hheld (by decide) (fun n _ hfull => by cases hfull) (by decide)
  have hplace : ∀ fb c, tornQueue.rootPage tornRecord.qroot tornRecord.compl needW = some (fb, c) → ∀ n, n < 64 → fb ≠ ringFa 0 n := by
    intro fb c hpage n _
    obtain ⟨rfl, -⟩ := Prod.mk.inj (Option.some.inj (tornQueue_rootPage.symm.trans hpage))
    unfold ringFa faOf
    omega
  obtain ⟨t, hexec, -, -, -, -, hjobs⟩ := hends tornRecord rfl (.inr (by decide)) hplace
  have hmarked := tornQueue_fences hexec
  rw [State.job, hjobs] at hmarked
  cases hmarked

end Sys2Proof.Laws
end

section
/-!
PROOFS. What closing the open batches of a publisher does (R148, R149): messages leave, and nothing but publishers' entries changes besides.
-/
namespace Sys2Proof.Laws
open Sys2Proof Sys2Proof.Machine Sys2Proof.Claims Sys2Proof.Config

/-- Nothing but messages, their counters and publishers' entries differs, and no message on its way goes. -/
structure OnlyForwards (s t : State) : Prop where
  rest : { t with msgs := s.msgs, nextMsg := s.nextMsg, spindles := s.spindles } = s
  spindles : ∀ n, { t.spindle n with sent := (s.spindle n).sent, pubs := (s.spindle n).pubs } = s.spindle n
  kept : ∀ m ∈ s.msgs, m ∈ t.msgs

namespace OnlyForwards
variable {s t u : State}

theorem refl (s : State) : OnlyForwards s s := ⟨rfl, fun _ => rfl, fun _ h => h⟩

theorem trans (h : OnlyForwards s t) (k : OnlyForwards t u) : OnlyForwards s u where
  rest := by
    have e := congrArg (fun x : State => { x with msgs := s.msgs, nextMsg := s.nextMsg, spindles := s.spindles }) k.rest
    exact e.trans h.rest
  spindles n := by
    have e := congrArg (fun x : Spindle => { x with sent := (s.spindle n).sent, pubs := (s.spindle n).pubs }) (k.spindles n)
    exact e.trans (h.spindles n)
  kept m hm := k.kept m (h.kept m hm)

theorem ctxs (h : OnlyForwards s t) : t.ctxs = s.ctxs := by simpa using congrArg State.ctxs h.rest
theorem cur (h : OnlyForwards s t) : t.cur = s.cur := by simpa using congrArg State.cur h.rest
theorem now (h : OnlyForwards s t) : t.now = s.now := by simpa using congrArg State.now h.rest
theorem jobs (h : OnlyForwards s t) : t.jobs = s.jobs := by simpa using congrArg State.jobs h.rest
theorem mem (h : OnlyForwards s t) : t.mem = s.mem := by simpa using congrArg State.mem h.rest
theorem fe (h : OnlyForwards s t) : t.fe = s.fe := by simpa using congrArg State.fe h.rest
theorem poison (h : OnlyForwards s t) : t.poison = s.poison := by simpa using congrArg State.poison h.rest
theorem ctx (h : OnlyForwards s t) (k : Nat) : t.ctx k = s.ctx k := by rw [State.ctx, h.ctxs]; rfl
theorem me (h : OnlyForwards s t) : t.me = s.me := by rw [State.me, h.cur, h.ctx]; rfl
theorem here (h : OnlyForwards s t) : t.here = s.here := by rw [State.here, h.cur]; rfl
theorem read (h : OnlyForwards s t) (fa n : Nat) : t.read fa n = s.read fa n := by rw [State.read, h.mem]; rfl
theorem full (h : OnlyForwards s t) (fa : Nat) : t.full fa = s.full fa := by rw [State.full, h.fe]; rfl
theorem sameMemory (h : OnlyForwards s t) : SameMemory s t := sameMemory_of_eq h.mem h.fe h.poison

/-- What of a spindle does not depend on its publisher's entries and its counter of messages is as it was. -/
theorem ofSpindle (h : OnlyForwards s t) {α : Type} (f : Spindle → α) (hf : ∀ p a b, f { p with sent := a, pubs := b } = f p) (n : Nat) :
    f (t.spindle n) = f (s.spindle n) :=
  (hf _ _ _).symm.trans (congrArg f (h.spindles n))

theorem waiters (h : OnlyForwards s t) (n : Nat) : (t.spindle n).waiters = (s.spindle n).waiters := h.ofSpindle Spindle.waiters (fun _ _ _ => rfl) n
theorem copies (h : OnlyForwards s t) (n : Nat) : (t.spindle n).copies = (s.spindle n).copies := h.ofSpindle Spindle.copies (fun _ _ _ => rfl) n
theorem jobNoAt (h : OnlyForwards s t) (n : Nat) : t.jobNoAt n = s.jobNoAt n := h.ofSpindle (fun p => p.job.getD 0) (fun _ _ _ => rfl) n
end OnlyForwards

theorem onlyForwards_foldl {α : Type} (f : State → α → State) (h : ∀ s a, OnlyForwards s (f s a)) (l : List α) (s : State) :
    OnlyForwards s (l.foldl f s) := by
  induction l generalizing s with
  | nil => exact OnlyForwards.refl s
  | cons a l ih => exact (h s a).trans (ih _)

/-- A change of a publisher's entries. -/
theorem onlyForwards_modSp (s : State) (n : Nat) (f : Spindle → Spindle) (h : ∀ p, { f p with pubs := p.pubs } = p) : OnlyForwards s (s.modSp n f) where
  rest := rfl
  spindles k := by
    by_cases e : k = n
    · subst e; rw [spindle_modSp_same]
      exact congrArg (fun p : Spindle => { p with sent := (s.spindle k).sent }) (h (s.spindle k))
    · rw [spindle_modSp_ne s f e]
  kept _ hm := hm

theorem mem_msgs_send {s : State} (m : Msg) {x : Msg} (h : x ∈ s.msgs) : x ∈ (s.send m).msgs := by
  rw [send_msgs]; exact List.mem_append_left _ h

theorem sent_mem_msgs (s : State) (m : Msg) : { m with id := s.nextMsg } ∈ (s.send m).msgs := by
  rw [send_msgs]; exact List.mem_append_right _ (List.mem_singleton.2 rfl)

theorem onlyForwards_send (s : State) (m : Msg) : OnlyForwards s (s.send m) where
  rest := (onlyMessages_send s m).rest
  spindles n := congrArg (fun p : Spindle => { p with pubs := (s.spindle n).pubs }) (send_spindle s m n)
  kept _ hx := mem_msgs_send m hx

/-! ### One batch -/

section
variable (s : State) (home : Nat) (e : PubEntry)

theorem onlyForwards_sendBatch (line bytes fes opened : Nat) (ws : List Nat) (last : Bool) :
    OnlyForwards s (s.sendBatch home e line bytes fes opened ws last) :=
  (onlyForwards_send s _).trans (onlyForwards_modSp _ _ _ fun _ => rfl)

theorem onlyForwards_closeBatch (b : Batch) : OnlyForwards s (s.closeBatch home e b) := by
  refine OnlyForwards.trans ?_ (onlyForwards_sendBatch _ home e _ _ _ _ _ _)
  exact onlyForwards_modSp s home _ fun _ => rfl

theorem onlyForwards_closeBatches (q : PubEntry → Batch → Bool) : OnlyForwards s (s.closeBatches home q) :=
  onlyForwards_foldl _ (fun t x => onlyForwards_foldl _ (fun u b => onlyForwards_closeBatch u home x b) _ t) _ s
end

/-- The bits of a number that is summed bit by bit. -/
theorem bitsSum_spec (f : Nat → Bool) (n : Nat) : let v := (List.range n).foldl (fun a i => if f i then a + 2 ^ i else a) 0
    v < 2 ^ n ∧ ∀ i, i < n → v.testBit i = f i := by
  induction n with
  | zero => exact ⟨Nat.one_pos, fun i hi => absurd hi (Nat.not_lt_zero i)⟩
  | succ n ih =>
    intro v
    obtain ⟨hlt, hbits⟩ := ih
    have hv : v = if f n then (List.range n).foldl (fun a i => if f i then a + 2 ^ i else a) 0 + 2 ^ n
        else (List.range n).foldl (fun a i => if f i then a + 2 ^ i else a) 0 := by
      simp only [v, List.range_succ, List.foldl_append, List.foldl_cons, List.foldl_nil]
    generalize (List.range n).foldl (fun a i => if f i then a + 2 ^ i else a) 0 = w at hlt hbits hv
    have htop : w.testBit n = false := Nat.testBit_lt_two_pow hlt
    rw [hv, Nat.pow_succ]
    cases hf : f n with
    | false =>
      refine ⟨by simp only [Bool.false_eq_true, if_false]; omega, fun i hi => ?_⟩
      rcases Nat.lt_succ_iff_lt_or_eq.mp hi with h | rfl
      · exact hbits i h
      · rw [hf]; exact htop
    | true =>
      refine ⟨by simp only [if_true]; omega, fun i hi => ?_⟩
      rw [if_pos rfl, Nat.add_comm]
      rcases Nat.lt_succ_iff_lt_or_eq.mp hi with h | rfl
      · rw [Nat.testBit_two_pow_add_gt h]; exact hbits i h
      · rw [Nat.testBit_two_pow_add_eq, htop, hf]; rfl

/-- The message of a batch. -/
theorem batchSent_sendBatch (s : State) (home : Nat) (e : PubEntry) (line bytes fes opened : Nat) (ws : List Nat) (last : Bool) :
    BatchSent s (s.sendBatch home e line bytes fes opened ws last) home e line bytes fes last := by
  refine ⟨_, sent_mem_msgs s _, _, _, ws, rfl, rfl, rfl, rfl, fun i hi => ⟨?_, ?_⟩⟩
  · rw [List.getD_eq_getElem?_getD, List.getElem?_map, List.getElem?_range hi]; rfl
  · exact (bitsSum_spec (fun i => s.full (line + 8 * i)) 8).2 i hi

section
variable {s u t : State} {home : Nat} {e : PubEntry} {line bytes fes : Nat} {last : Bool}

/-- A batch tells the line as it stood before other batches left. -/
theorem OnlyForwards.batchSent (h : OnlyForwards s u) (hb : BatchSent u t home e line bytes fes last) : BatchSent s t home e line bytes fes last := by
  obtain ⟨x, hx, fev, data, ws, hcls, hsrc, hdst, hbody, hdata⟩ := hb
  exact ⟨x, hx, fev, data, ws, hcls, hsrc, hdst, hbody, fun i hi => by rw [← h.read, ← h.full]; exact hdata i hi⟩

/-- A batch that is on its way stays there. -/
theorem batchSent_kept (hb : BatchSent s u home e line bytes fes last) (h : ∀ m ∈ u.msgs, m ∈ t.msgs) : BatchSent s t home e line bytes fes last := by
  obtain ⟨x, hx, hrest⟩ := hb
  exact ⟨x, h x hx, hrest⟩
end

theorem batchSent_closeBatch (s : State) (home : Nat) (e : PubEntry) (b : Batch) : BatchSent s (s.closeBatch home e b) home e b.line b.bytes b.fes false := by
  refine OnlyForwards.batchSent ?_ (batchSent_sendBatch _ home e _ _ _ _ _ _)
  exact onlyForwards_modSp s home _ fun _ => rfl

/-! ### All open batches of a kind -/

/-- The open batches of a spindle that satisfy `q`, each with its entry. -/
def openBatches (s : State) (home : Nat) (q : PubEntry → Batch → Bool) : List (PubEntry × Batch) :=
  (s.spindle home).pubs.flatMap fun e => (e.open_.filter (q e)).map fun b => (e, b)

theorem mem_openBatches {s : State} {home : Nat} {q : PubEntry → Batch → Bool} {p : PubEntry × Batch} :
    p ∈ openBatches s home q ↔ p.1 ∈ (s.spindle home).pubs ∧ p.2 ∈ p.1.open_ ∧ q p.1 p.2 = true := by
  obtain ⟨e, b⟩ := p
  simp only [openBatches, List.mem_flatMap, List.mem_map, List.mem_filter, Prod.mk.injEq]
  constructor
  · rintro ⟨e', he, b', ⟨hb, hq⟩, rfl, rfl⟩; exact ⟨he, hb, hq⟩
  · rintro ⟨he, hb, hq⟩; exact ⟨e, he, b, ⟨hb, hq⟩, rfl, rfl⟩

theorem closeBatches_eq (s : State) (home : Nat) (q : PubEntry → Batch → Bool) :
    s.closeBatches home q = (openBatches s home q).foldl (fun t p => t.closeBatch home p.1 p.2) s := by
  simp only [State.closeBatches, openBatches, List.foldl_flatMap, List.foldl_map]

/-- Where no open batch satisfies `q` nothing closes. -/
theorem closeBatches_of_none {s : State} {home : Nat} {q : PubEntry → Batch → Bool} (h : ∀ e ∈ (s.spindle home).pubs, ∀ b ∈ e.open_, q e b = false) :
    s.closeBatches home q = s := by
  have hnil : openBatches s home q = [] := List.eq_nil_iff_forall_not_mem.mpr fun p hp => by
    obtain ⟨he, hb, hq⟩ := mem_openBatches.mp hp
    rw [h _ he _ hb] at hq; cases hq
  rw [closeBatches_eq, hnil, List.foldl_nil]

/-- Every batch that closes is sent. -/
theorem batchSent_closeBatches {s : State} {home : Nat} {q : PubEntry → Batch → Bool} {e : PubEntry} {b : Batch} (he : e ∈ (s.spindle home).pubs)
    (hb : b ∈ e.open_) (hq : q e b = true) : BatchSent s (s.closeBatches home q) home e b.line b.bytes b.fes false := by
  have hmem : (e, b) ∈ openBatches s home q := mem_openBatches.mpr ⟨he, hb, hq⟩
  obtain ⟨l, r, hlr⟩ := List.append_of_mem hmem
  let step : State → PubEntry × Batch → State := fun t p => t.closeBatch home p.1 p.2
  have hstep (t : State) (p : PubEntry × Batch) : OnlyForwards t (step t p) := onlyForwards_closeBatch t home p.1 p.2
  rw [closeBatches_eq, hlr, List.foldl_append, List.foldl_cons]
  have hsent := (onlyForwards_foldl step hstep l s).batchSent (batchSent_closeBatch (l.foldl step s) home e b)
  exact batchSent_kept hsent (onlyForwards_foldl step hstep r _).kept

/-- An entry of `l` with the batches of the list closed: it is one of the entries, with no open batch whose line was closed for its base and copy. -/
def ClosedEntry (l : List PubEntry) (closed : List (PubEntry × Batch)) (y : PubEntry) : Prop :=
  ∃ x ∈ l, y.base = x.base ∧ y.copyBase = x.copyBase ∧
    ∀ z ∈ y.open_, z ∈ x.open_ ∧ ∀ p ∈ closed, p.1.base = x.base → p.1.copyBase = x.copyBase → z.line ≠ p.2.line

/-- Closing one batch takes its line from every entry of its base and copy. -/
theorem mem_pubs_closeBatch {s : State} {home : Nat} {e : PubEntry} {b : Batch} {y : PubEntry} (hy : y ∈ ((s.closeBatch home e b).spindle home).pubs) :
    ∃ x ∈ (s.spindle home).pubs, y.base = x.base ∧ y.copyBase = x.copyBase ∧
      ∀ z ∈ y.open_, z ∈ x.open_ ∧ (e.base = x.base → e.copyBase = x.copyBase → z.line ≠ b.line) := by
  have hsend (t : State) (m : Msg) : ((t.send m).spindle home).pubs = (t.spindle home).pubs :=
    (onlyMessages_send t m).ofSpindle Spindle.pubs (fun _ _ _ => rfl) home
  rw [State.closeBatch, State.sendBatch, spindle_modSp_same] at hy
  simp only [hsend, spindle_modSp_same, List.map_map, List.mem_map, Function.comp] at hy
  obtain ⟨x, hx, rfl⟩ := hy
  refine ⟨x, hx, ?_⟩
  by_cases hsame : x.base = e.base ∧ x.copyBase = e.copyBase
  · simp [hsame]
  · have hne : (x.base == e.base && x.copyBase == e.copyBase) = false := by simpa using hsame
    simp only [hne, Bool.false_eq_true, if_false, true_and]
    exact fun z hz => ⟨hz, fun h1 h2 => absurd ⟨h1.symm, h2.symm⟩ hsame⟩

/-- Closing batches leaves of every entry only open batches whose lines were not closed. -/
theorem closedEntry_foldl {home : Nat} {l0 : List PubEntry} (l done : List (PubEntry × Batch)) (s : State)
    (h : ∀ y ∈ (s.spindle home).pubs, ClosedEntry l0 done y) :
    ∀ y ∈ ((l.foldl (fun t p => t.closeBatch home p.1 p.2) s).spindle home).pubs, ClosedEntry l0 (l ++ done) y := by
  induction l generalizing s done with
  | nil => exact h
  | cons p l ih =>
    have hstep : ∀ y ∈ ((s.closeBatch home p.1 p.2).spindle home).pubs, ClosedEntry l0 (p :: done) y := by
      intro y hy
      obtain ⟨x, hx, hb, hc, hopen⟩ := mem_pubs_closeBatch hy
      obtain ⟨w, hw, hb', hc', hopen'⟩ := h x hx
      refine ⟨w, hw, hb.trans hb', hc.trans hc', fun z hz => ?_⟩
      obtain ⟨hzx, hzb⟩ := hopen z hz
      obtain ⟨hzw, hzd⟩ := hopen' z hzx
      refine ⟨hzw, fun r hr hrb hrc => ?_⟩
      rcases List.mem_cons.mp hr with rfl | hr
      · exact hzb (hrb.trans hb'.symm) (hrc.trans hc'.symm)
      · exact hzd r hr hrb hrc
    intro y hy
    obtain ⟨w, hw, hb, hc, hopen⟩ := ih (p :: done) _ hstep y hy
    exact ⟨w, hw, hb, hc, fun z hz => ⟨(hopen z hz).1, fun r hr => (hopen z hz).2 r (by simpa using or_left_comm.mp (by simpa using hr))⟩⟩

/-- No batch of an entry that satisfied `q` is open after all of that kind have closed. -/
theorem closedEntry_closeBatches {s : State} {home : Nat} {q : PubEntry → Batch → Bool} {y : PubEntry} (hy : y ∈ ((s.closeBatches home q).spindle home).pubs) :
    ∃ x ∈ (s.spindle home).pubs, y.base = x.base ∧ y.copyBase = x.copyBase ∧ ∀ z ∈ y.open_, z ∈ x.open_ ∧ q x z = false := by
  rw [closeBatches_eq] at hy
  have h0 : ∀ y ∈ (s.spindle home).pubs, ClosedEntry (s.spindle home).pubs [] y :=
    fun y hy => ⟨y, hy, rfl, rfl, fun z hz => ⟨hz, fun p hp => absurd hp (List.not_mem_nil)⟩⟩
  obtain ⟨x, hx, hb, hc, hopen⟩ := closedEntry_foldl (openBatches s home q) [] s h0 y hy
  refine ⟨x, hx, hb, hc, fun z hz => ?_⟩
  obtain ⟨hzx, hclosed⟩ := hopen z hz
  refine ⟨hzx, Bool.eq_false_iff.mpr fun hq => ?_⟩
  exact hclosed (x, z) (List.mem_append_left _ (mem_openBatches.mpr ⟨hx, hzx, hq⟩)) rfl rfl rfl

end Sys2Proof.Laws
end

section
/-!
PROOFS. FENCE, WAITA and DRAIN (R133 to R136).
-/
namespace Sys2Proof.Laws
open Sys2Proof Sys2Proof.Machine Sys2Proof.Claims Sys2Proof.Config

/-! ### FENCE (R135) -/

/-- A batch that carries a change of a thread is on its way. -/
def BatchOnWay (s : State) (who : Nat) : Prop :=
  ∃ m ∈ s.msgs, ∃ line bytes fes fev data entry ws last, m.body = .batch line bytes fes fev data entry ws last ∧ ws.contains who = true

theorem batchesOf_of_onWay {s : State} {who : Nat} (h : BatchOnWay s who) : s.batchesOf who = true := by
  obtain ⟨m, hm, line, bytes, fes, fev, data, entry, ws, last, hbody, hws⟩ := h
  refine Bool.or_eq_true_iff.mpr (.inr (List.any_eq_true.mpr ⟨m, hm, ?_⟩))
  rw [hbody]; exact hws

theorem onWay_closeBatch (s : State) (home : Nat) (e : PubEntry) {b : Batch} {who : Nat} (h : b.writers.contains who = true) :
    BatchOnWay (s.closeBatch home e b) who :=
  ⟨_, sent_mem_msgs _ _, _, _, _, _, _, _, b.writers, _, rfl, h⟩

/-- Closing the batches of a thread closes none, or sends one of its. -/
theorem closeFor_cases (s : State) (who : Nat) : s.closeFor who = s ∨ BatchOnWay (s.closeFor who) who := by
  let q : PubEntry → Batch → Bool := fun _ b => b.writers.contains who
  have hbatches (home : Nat) (l : List (PubEntry × Batch)) (hl : ∀ p ∈ l, q p.1 p.2 = true) (t : State) (ht : t = s ∨ BatchOnWay t who) :
      (l.foldl (fun t p => t.closeBatch home p.1 p.2) t) = s ∨ BatchOnWay (l.foldl (fun t p => t.closeBatch home p.1 p.2) t) who := by
    induction l generalizing t with
    | nil => exact ht
    | cons p l ih =>
      exact ih (fun r hr => hl r (List.mem_cons_of_mem _ hr)) _ (.inr (onWay_closeBatch t home p.1 (hl p (List.mem_cons_self ..))))
  have hspindles (l : Table Spindle) (t : State) (ht : t = s ∨ BatchOnWay t who) :
      l.foldl (fun t e => t.closeBatches e.1 q) t = s ∨ BatchOnWay (l.foldl (fun t e => t.closeBatches e.1 q) t) who := by
    induction l generalizing t with
    | nil => exact ht
    | cons e l ih =>
      refine ih (t.closeBatches e.1 q) ?_
      rw [closeBatches_eq]
      exact hbatches e.1 _ (fun p hp => (mem_openBatches.mp hp).2.2) t ht
  exact hspindles s.spindles s (.inl rfl)

/-- A spindle that a table lists is among the table's. -/
theorem open_writers_of_batchesOf {s : State} {who : Nat} (h : s.batchesOf who = false) (n : Nat) :
    ∀ e ∈ (s.spindle n).pubs, ∀ b ∈ e.open_, b.writers.contains who = false := by
  intro e he b hb
  cases hf : Table.find s.spindles n with
  | none => rw [State.spindle, Table.get, hf] at he; cases he
  | some p =>
    have hp : s.spindle n = p := by rw [State.spindle, Table.get, hf]; rfl
    rw [hp] at he
    refine Bool.eq_false_iff.mpr fun hw => ?_
    have hopen : (e.open_.any fun b => b.writers.contains who) = true := List.any_eq_true.mpr ⟨b, hb, hw⟩
    have htrue : s.batchesOf who = true := by
      refine Bool.or_eq_true_iff.mpr (.inl (List.any_eq_true.mpr ⟨(n, p), mem_of_find hf, List.any_eq_true.mpr ⟨e, he, ?_⟩⟩))
      rw [hopen]; rfl
    rw [h] at htrue; cases htrue

/-- Where no batch carries a change of a thread none of its closes. -/
theorem closeFor_of_none {s : State} {who : Nat} (h : s.batchesOf who = false) : s.closeFor who = s := by
  have hspindles (l : Table Spindle) : l.foldl (fun t e => t.closeBatches e.1 fun _ b => b.writers.contains who) s = s := by
    induction l with
    | nil => rfl
    | cons e l ih => rw [List.foldl_cons, closeBatches_of_none (open_writers_of_batchesOf h e.1), ih]
  exact hspindles s.spindles

/-- A batch of a thread that is open or not acknowledged is so, or on its way, once its batches have closed. -/
theorem batchesOf_closeFor {s : State} {who : Nat} (h : s.batchesOf who = true) : (s.closeFor who).batchesOf who = true := by
  rcases closeFor_cases s who with e | e
  · rw [e]; exact h
  · exact batchesOf_of_onWay e

theorem onlyForwards_closeFor (s : State) (who : Nat) : OnlyForwards s (s.closeFor who) :=
  onlyForwards_foldl (fun (t : State) (e : Nat × Spindle) => t.closeBatches e.1 fun _ b => b.writers.contains who)
    (fun t e => onlyForwards_closeBatches t e.1 _) s.spindles s

theorem fenceOp_of_rels {s : State} (h : s.me.rels ≠ []) : s.fenceOp = s.parkAll := if_pos (by simpa using h)

theorem fenceOp_of_noRels {s : State} (h : s.me.rels = []) :
    s.fenceOp = if (s.closeFor s.myWho).batchesOf s.myWho then (s.closeFor s.myWho).parkAgain 2 else (s.closeFor s.myWho).retire id :=
  if_neg (by simp [h])

theorem waits_parkRel (s : State) (why : Nat) (a : Bool) (q : RelOp → Bool) : Waits s (s.parkRel why a q) why :=
  waits_modMe s why _ rfl rfl rfl ⟨rfl, rfl, rfl, rfl, rfl⟩

theorem waits_parkAgain (s : State) (why : Nat) : Waits s (s.parkAgain why) why := waits_modMe s why _ rfl rfl rfl ⟨rfl, rfl, rfl, rfl, rfl⟩

/-! ### DRAIN (R136) -/

/-- The request that DRAIN sends for a copy entry. -/
def drainAsk (s : State) (e : CopyEntry) : Msg :=
  { id := 0, cls := .request, src := s.here, dst := e.pubSp, job := s.myJobNo, ctx := keyCtx s.cur, tok := s.nextTok, who := s.myWho,
    body := .drainReq e.pubBase e.base }

/-- What DRAIN tells of its request for an entry. -/
def DrainAsked (s : State) (e : CopyEntry) (m : Msg) : Prop :=
  m.body = .drainReq e.pubBase e.base ∧ m.cls = .request ∧ m.src = s.here ∧ m.dst = e.pubSp ∧ m.job = s.myJobNo ∧ m.ctx = keyCtx s.cur ∧ m.tok = s.nextTok

theorem drainAsks_sent (s : State) (l : List CopyEntry) (t : State) : ∃ ms, (l.foldl (fun t e => t.send (drainAsk s e)) t).msgs = t.msgs ++ ms ∧
    List.Forall₂ (DrainAsked s) l ms := by
  induction l generalizing t with
  | nil => exact ⟨[], (List.append_nil _).symm, .nil⟩
  | cons e l ih =>
    obtain ⟨ms, hms, hall⟩ := ih (t.send (drainAsk s e))
    refine ⟨{ drainAsk s e with id := t.nextMsg } :: ms, ?_, .cons ⟨rfl, rfl, rfl, rfl, rfl, rfl, rfl⟩ hall⟩
    rw [List.foldl_cons, hms, send_msgs, List.append_assoc]; rfl

section
variable {s : State}

/-- The copy entries of the executing spindle whose publishers are not fenced. -/
def drained (s : State) : List CopyEntry := (s.spindle s.here).copies.filter fun e => !e.pfenced

theorem drainOp_of_none (h : drained s = []) :
    s.drainOp = if (s.spindle s.here).copies = [] then s.retire id else s.trap cFENCED 0 := by
  have hlive : ((s.spindle s.here).copies.filter fun e => !e.pfenced) = [] := h
  simp only [State.drainOp, hlive, List.isEmpty_nil, if_true, List.length_nil]
  cases (s.spindle s.here).copies <;> rfl

/-- An entry's publisher is fenced exactly where DRAIN asks fewer publishers than there are entries. -/
theorem lost_eq (s : State) : decide ((drained s).length < (s.spindle s.here).copies.length) = (s.spindle s.here).copies.any fun e => e.pfenced := by
  rw [Bool.eq_iff_iff, decide_eq_true_iff, drained, List.length_filter_lt_length_iff_exists, List.any_eq_true]
  simp

theorem drainOp_of_some (h : drained s ≠ []) : s.drainOp =
    ((drained s).foldl (fun t e => t.send (drainAsk s e)) s.takeTok.2).parkFor 2 s.nextTok
      (.drain (drained s).length ((s.spindle s.here).copies.any fun e => e.pfenced)) := by
  have hlive : (drained s).isEmpty = false := List.isEmpty_eq_false_iff.mpr h
  rw [← lost_eq]
  unfold State.drainOp
  exact if_neg (by rw [Bool.not_eq_true]; exact hlive)

theorem drain_waits (h : drained s ≠ []) : ∃ t ms, exec .drain s = .next t ∧ Waits s t 2 ∧ t.msgs = s.msgs ++ ms ∧
    List.Forall₂ (DrainAsked s) (drained s) ms ∧ t.me.tok = s.nextTok ∧
    t.me.kont = .drain (drained s).length ((s.spindle s.here).copies.any fun e => e.pfenced) := by
  let u := (drained s).foldl (fun t e => t.send (drainAsk s e)) s.takeTok.2
  have hu : OnlyMessages s.takeTok.2 u := onlyMessages_foldl _ (fun t e => onlyMessages_send t _) _ _
  obtain ⟨ms, hms, hall⟩ := drainAsks_sent s (drained s) s.takeTok.2
  refine ⟨_, ms, congrArg Host.Outcome.next (drainOp_of_some h), ?_, hms, hall, ?_, ?_⟩
  · have hmem : SameMemory s u := sameMemory_trans (t := s.takeTok.2) (sameMemory_of_eq rfl rfl rfl) hu.sameMemory
    exact waits_of_same (waits_modMe u 2 _ rfl rfl rfl ⟨rfl, rfl, rfl, rfl, rfl⟩) hu.ctx hu.cur hmem
  · rw [State.parkFor, me_modMe]
  · rw [State.parkFor, me_modMe]
end

/-- Settles O30: FENCE by the batches that are left, WAITA by the operations outstanding, DRAIN by the copy entries that it asks for. -/
theorem orderingForms : Obligations.OrderingForms := by
  intro s done copies asked
  refine ⟨fun hd hb => ?_, fun hd hb => ⟨_, rfl, ?_⟩, fun hd => ⟨_, rfl, ?_⟩, fun hd => ?_, fun hd => ⟨_, rfl, ?_⟩, fun hc => ?_, drain_waits,
    fun hc ha hh => ?_⟩
  · refine goesTo_retire (congrArg Host.Outcome.next ?_)
    rw [fenceOp_of_noRels hd, closeFor_of_none hb, hb]; rfl
  · rw [fenceOp_of_noRels hd, batchesOf_closeFor hb, if_pos rfl]
    have hf := onlyForwards_closeFor s s.myWho
    exact waits_of_same (waits_parkAgain _ 2) hf.ctx hf.cur hf.sameMemory
  · rw [fenceOp_of_rels hd]; exact waits_parkRel s 6 false _
  · refine goesTo_retire (congrArg Host.Outcome.next (if_pos ?_))
    exact List.isEmpty_iff.mpr hd
  · rw [if_neg (by simpa using hd)]; exact waits_parkRel s 6 false _
  · refine goesTo_retire (congrArg Host.Outcome.next ?_)
    have hnone : drained s = [] := by rw [drained, show (s.spindle s.here).copies = [] from hc]; rfl
    rw [drainOp_of_none hnone, if_pos hc]
  · exact traps_trap hh (congrArg Host.Outcome.next ((drainOp_of_none ha).trans (if_neg hc)))

end Sys2Proof.Laws
end

section
/-!
PROOFS. What the order of the own TLB does not touch, and a context that asks another spindle and waits (R116, R118).
-/
namespace Sys2Proof.Laws
open Sys2Proof Sys2Proof.Machine Sys2Proof.Claims Sys2Proof.Config

namespace OnlyTlbs
variable {s t : State} (h : OnlyTlbs s t)
include h

theorem ctx (k : Nat) : t.ctx k = s.ctx k := by obtain ⟨⟨l, e⟩, -, -⟩ := h; rw [e]; rfl
theorem cur : t.cur = s.cur := by obtain ⟨⟨l, e⟩, -, -⟩ := h; rw [e]
theorem msgs : t.msgs = s.msgs := by obtain ⟨⟨l, e⟩, -, -⟩ := h; rw [e]
theorem nextMsg : t.nextMsg = s.nextMsg := by obtain ⟨⟨l, e⟩, -, -⟩ := h; rw [e]
theorem nextTok : t.nextTok = s.nextTok := by obtain ⟨⟨l, e⟩, -, -⟩ := h; rw [e]
theorem now : t.now = s.now := by obtain ⟨⟨l, e⟩, -, -⟩ := h; rw [e]
theorem sameMemory : SameMemory s t := by obtain ⟨⟨l, e⟩, -, -⟩ := h; rw [e]; exact sameMemory_of_eq rfl rfl rfl
theorem job (j : Nat) : t.job j = s.job j := by obtain ⟨⟨l, e⟩, -, -⟩ := h; rw [e]; rfl
theorem copies (n : Nat) : (t.spindle n).copies = (s.spindle n).copies := h.ofSpindle Spindle.copies (fun _ _ => rfl) n
theorem pubs (n : Nat) : (t.spindle n).pubs = (s.spindle n).pubs := h.ofSpindle Spindle.pubs (fun _ _ => rfl) n
theorem waiters (n : Nat) : (t.spindle n).waiters = (s.spindle n).waiters := h.ofSpindle Spindle.waiters (fun _ _ => rfl) n
theorem jobNoAt (n : Nat) : t.jobNoAt n = s.jobNoAt n := h.ofSpindle (fun p => p.job.getD 0) (fun _ _ => rfl) n
theorem myJobNo : t.myJobNo = s.myJobNo := by rw [State.myJobNo, h.here, h.jobNoAt]; rfl
theorem inCopyRegion (fa n : Nat) : t.inCopyRegion fa n = s.inCopyRegion fa n := by rw [State.inCopyRegion, h.copies]; rfl
theorem regionTaken (sp fa n : Nat) : t.regionTaken sp fa n = s.regionTaken sp fa n := by rw [State.regionTaken, h.copies, h.pubs]; rfl
theorem copyEntry (fa : Nat) : t.copyEntry fa = s.copyEntry fa := by rw [State.copyEntry, h.here, h.copies]; rfl
end OnlyTlbs

/-- A unit that ends after changes which leave contexts alone. -/
theorem wentOn_retire {s u : State} (hc : ∀ k, u.ctx k = s.ctx k) (hcur : u.cur = s.cur) : WentOn s (u.retire id) := by
  have hme : u.me = s.me := by rw [State.me, hcur, hc]; rfl
  exact ⟨fun k hk => (ctx_retire_ne u id (hcur ▸ hk)).trans (hc k), by rw [me_retire, hme]; rfl, by rw [me_retire, hme]; rfl⟩

/-- A context that sends one message under a fresh token waits for the answer to it. -/
theorem send_waits {s u : State} (hc : ∀ k, u.ctx k = s.ctx k) (hcur : u.cur = s.cur) (hm : SameMemory s u) (m : Msg) (why : Nat) (ko : Kont) :
    Waits s ((u.takeTok.2.send m).parkFor why u.nextTok ko) why := by
  have hv := onlyMessages_send u.takeTok.2 m
  have hmem : SameMemory u (u.takeTok.2.send m) := sameMemory_trans (t := u.takeTok.2) (sameMemory_of_eq rfl rfl rfl) hv.sameMemory
  exact waits_of_same (waits_modMe (u.takeTok.2.send m) why _ rfl rfl rfl ⟨rfl, rfl, rfl, rfl, rfl⟩) (fun k => (hv.ctx k).trans (hc k))
    (hv.cur.trans hcur) (sameMemory_trans hm hmem)

theorem send_parkFor_msgs (u : State) (m : Msg) (why : Nat) (ko : Kont) :
    ((u.takeTok.2.send m).parkFor why u.nextTok ko).msgs = u.msgs ++ [{ m with id := u.nextMsg }] := send_msgs u.takeTok.2 m

end Sys2Proof.Laws
end

section
/-!
PROOFS. SUBON, SUBOFF, SUBQ and SUBFL (R147, R152 to R154).
-/
namespace Sys2Proof.Laws
open Sys2Proof Sys2Proof.Machine Sys2Proof.Claims Sys2Proof.Config

section
variable {s u : State} {l p : Word} {n fl fp : Nat}

/-- SUBON with its addresses found asks the publisher's spindle. -/
theorem subonAt_asks (hu : OnlyTlbs s u) (hl : faSp fl = s.here) (hp : faSp fp ≠ s.here) (hfl : faLocal fl + n ≤ 0x10000) (hfp : faLocal fp + n ≤ 0x10000)
    (hfree : s.regionTaken s.here fl n = false) (hroom : (s.spindle s.here).copies.length < 16) :
    Waits s (u.subonAt l p n fl fp) 2 ∧ Asks s (u.subonAt l p n fl fp) .request (faSp fp) (.subReq fp n fl) ∧
      (u.subonAt l p n fl fp).me.kont = .subon { base := fl, len := n, pubSp := faSp fp, pubBase := fp, pubJob := s.jobNoAt (faSp fp) } := by
  let m : Msg := { id := 0, cls := .request, src := u.here, dst := faSp fp, job := u.myJobNo, ctx := keyCtx u.cur, tok := u.nextTok, va := p,
                   who := u.myWho, body := .subReq fp n fl }
  let ko : Kont := .subon { base := fl, len := n, pubSp := faSp fp, pubBase := fp, pubJob := u.jobNoAt (faSp fp) }
  have hat : u.subonAt l p n fl fp = (u.takeTok.2.send m).parkFor 2 u.nextTok ko := by
    have h1 : (faSp fl != u.here || decide (0x10000 < faLocal fl + n)) = false := by simp [hu.here, hl, Nat.not_lt.mpr hfl]
    have h2 : (faSp fp == u.here || decide (0x10000 < faLocal fp + n)) = false := by simp [hu.here, hp, Nat.not_lt.mpr hfp]
    have h3 : u.regionTaken u.here fl n = false := by rw [hu.here, hu.regionTaken, hfree]
    have h4 : ¬ 16 ≤ (u.spindle u.here).copies.length := by rw [hu.here, hu.copies]; omega
    simp only [State.subonAt, h1, h2, h3, h4, Bool.false_eq_true, if_false]
    rfl
  rw [hat]
  refine ⟨send_waits hu.ctx hu.cur hu.sameMemory m 2 ko, ⟨{ m with id := u.nextMsg }, ?_, rfl, hu.here, rfl, hu.myJobNo, ?_, hu.nextTok, rfl⟩, ?_⟩
  · rw [send_parkFor_msgs, hu.msgs]
  · exact congrArg keyCtx hu.cur
  · rw [State.parkFor, me_modMe]
    simp only [ko, hu.jobNoAt]

/-- SUBON whose four addresses are found and whose length is allowed checks and asks. -/
theorem subon_eq {a b c : Reg} {gl gp gm gq : PageEntry} {x y : Nat} (hl : s.xlate (s.me.reg a) needR = .ok (fl, gl))
    (hp : s.xlate (s.me.reg b) needR = .ok (fp, gp)) (hm : s.xlate (s.me.reg a + BitVec.ofNat 64 ((s.me.reg c).toNat - 1)) needR = .ok (x, gm))
    (hq : s.xlate (s.me.reg b + BitVec.ofNat 64 ((s.me.reg c).toNat - 1)) needR = .ok (y, gq)) (hla : (s.me.reg a).toNat % 64 = 0)
    (hpa : (s.me.reg b).toNat % 64 = 0) (hn : (s.me.reg c).toNat % 64 = 0) (hpos : 0 < (s.me.reg c).toNat) (hmax : (s.me.reg c).toNat ≤ 16384) :
    s.subon a b c = ((s.touch (s.me.reg a)).touch (s.me.reg b)).subonAt (s.me.reg a) (s.me.reg b) (s.me.reg c).toNat fl fp := by
  have hsize : ((s.me.reg c).toNat == 0 || (s.me.reg c).toNat % 64 != 0 || decide (16384 < (s.me.reg c).toNat)) = false := by
    simp [hn, Nat.not_lt.mpr hmax]; omega
  simp only [State.subon, hla, hpa, hsize, hl, hm, hp, hq, Chk.bind, State.onChk, bne_self_eq_false, Bool.false_eq_true, if_false]

/-- The request of SUBOFF for a copy entry. -/
def suboffAsk (u : State) (va : Word) (e : CopyEntry) : Msg :=
  { id := 0, cls := .request, src := u.here, dst := e.pubSp, job := u.myJobNo, ctx := keyCtx u.cur, tok := u.nextTok, va := va, who := u.myWho,
    body := .subRemove e.pubBase e.base }

theorem suboff_eq {a : Reg} {fb : Nat} {g : PageEntry} {e : CopyEntry} (h : s.xlate (s.me.reg a) needR = .ok (fb, g)) (he : s.copyEntry fb = some e) :
    let u := s.touch (s.me.reg a)
    s.suboff a = if e.pfenced then (u.modSp u.here fun p => { p with copies := p.copies.filter fun x => x.base != e.base }).retire id
      else (u.takeTok.2.send (suboffAsk u (s.me.reg a) e)).parkFor 2 u.nextTok (.suboff e.base) := by
  intro u
  have hu := OnlyTlbs.touch s (s.me.reg a)
  simp only [State.suboff, h, State.onChk, hu.copyEntry, he]
  rfl

theorem suboff_fenced {a : Reg} {fb : Nat} {g : PageEntry} {e : CopyEntry} (h : s.xlate (s.me.reg a) needR = .ok (fb, g)) (he : s.copyEntry fb = some e)
    (hf : e.pfenced = true) : WentOn s (s.suboff a) ∧ SameMemory s (s.suboff a) ∧
      ((s.suboff a).spindle s.here).copies = (s.spindle s.here).copies.filter fun x => x.base != e.base := by
  have hu := OnlyTlbs.touch s (s.me.reg a)
  rw [suboff_eq h he, if_pos hf, hu.here]
  refine ⟨wentOn_retire (fun k => hu.ctx k) hu.cur, sameMemory_trans hu.sameMemory (sameMemory_of_eq rfl rfl rfl), ?_⟩
  refine (congrArg Spindle.copies (spindle_modSp_same (s.touch (s.me.reg a)) s.here fun p =>
    { p with copies := p.copies.filter fun x => x.base != e.base })).trans ?_
  dsimp only
  rw [hu.copies]

theorem suboff_asks {a : Reg} {fb : Nat} {g : PageEntry} {e : CopyEntry} (h : s.xlate (s.me.reg a) needR = .ok (fb, g)) (he : s.copyEntry fb = some e)
    (hf : e.pfenced = false) : Waits s (s.suboff a) 2 ∧ Asks s (s.suboff a) .request e.pubSp (.subRemove e.pubBase e.base) := by
  have hu := OnlyTlbs.touch s (s.me.reg a)
  rw [suboff_eq h he, hf, if_neg Bool.false_ne_true]
  refine ⟨send_waits hu.ctx hu.cur hu.sameMemory _ 2 _, { suboffAsk _ (s.me.reg a) e with id := (s.touch (s.me.reg a)).nextMsg }, ?_, rfl, hu.here, rfl, hu.myJobNo, congrArg keyCtx hu.cur, hu.nextTok, rfl⟩
  exact (send_parkFor_msgs _ _ _ _).trans (by rw [hu.msgs])

theorem subq_loads {d a : Reg} {fb : Nat} {g : PageEntry} {v : Word} (h : s.xlate (s.me.reg a) needR = .ok (fb, g))
    (hv : v = match s.copyEntry fb with
      | none => 0
      | some e => BitVec.ofNat 64 (2 ^ 63 + boolN e.susp * 2 ^ 62 + boolN e.pfenced * 2 ^ 61 + e.pubSp * 2 ^ 30 + e.len)) :
    Loaded s (s.subq d a) d v := by
  have hat : s.subq d a = (s.touch (s.me.reg a)).setG d v := by
    simp only [State.subq, h, State.onChk, (OnlyTlbs.touch s (s.me.reg a)).copyEntry, hv]
    cases s.copyEntry fb <;> rfl
  rw [hat]
  exact loaded_touch_setG s _ d v
end

/-- SUBFL closes every open batch of the spindle. -/
theorem subfl_closes (s : State) : let t := (s.closeBatches s.here fun _ _ => true).retire id
    WentOn s t ∧ SameMemory s t ∧ (∀ x ∈ (t.spindle s.here).pubs, x.open_ = []) ∧
      ∀ x ∈ (s.spindle s.here).pubs, ∀ b ∈ x.open_, BatchSent s t s.here x b.line b.bytes b.fes false := by
  intro t
  have hf := onlyForwards_closeBatches s s.here fun _ _ => true
  refine ⟨wentOn_retire hf.ctx hf.cur, sameMemory_trans hf.sameMemory (sameMemory_modMe _ _), fun y hy => ?_, fun x hx b hb => batchSent_closeBatches hx hb rfl⟩
  obtain ⟨x, -, -, -, hopen⟩ := closedEntry_closeBatches hy
  exact List.eq_nil_iff_forall_not_mem.mpr fun z hz => Bool.noConfusion (hopen z hz).2

/-- Settles O29: each form by the entry that its address names. -/
theorem subscriptionForms : Obligations.SubscriptionForms := by
  intro s d a b c fl fp fb e l p n last readable
  refine ⟨?_, ?_, ?_, ⟨_, rfl, subfl_closes s⟩, fun hh hl => traps_trap hh (congrArg Host.Outcome.next (if_pos (by simpa using hl)))⟩
  · rintro ⟨gl, hl, -⟩ ⟨gp, hp, -⟩ ⟨gm, hm, -⟩ ⟨gq, hq, -⟩ hla hpa hn hpos hmax hown haway hfl hfp hfree hroom
    refine ⟨_, congrArg Host.Outcome.next (subon_eq hl hp hm hq hla hpa hn hpos hmax), ?_⟩
    exact subonAt_asks ((OnlyTlbs.touch s l).trans (OnlyTlbs.touch _ p)) hown haway hfl hfp hfree hroom
  · rintro ⟨g, hx, -⟩ he
    exact ⟨fun hf => ⟨_, rfl, suboff_fenced hx he hf⟩, fun hf => ⟨_, rfl, suboff_asks hx he hf⟩, _, rfl, subq_loads hx (by rw [he])⟩
  · rintro ⟨g, hx, -⟩ he
    exact ⟨_, rfl, subq_loads hx (by rw [he])⟩

end Sys2Proof.Laws
end

section
/-!
PROOFS. What the end of a wait and a trap leave, whatever becomes of the threads (R18, R22, R30, R330): memory, and every message that carries no thread.
-/
namespace Sys2Proof.Laws
open Sys2Proof Sys2Proof.Machine Sys2Proof.Claims Sys2Proof.Config

/-- A message is on its way still: what its receiver learns of it is the same. -/
structure SameMail (x y : Msg) : Prop where
  body : y.body = x.body
  ends : y.src = x.src ∧ y.dst = x.dst ∧ y.job = x.job
  answers : y.ctx = x.ctx ∧ y.tok = x.tok

/-- No memory differs, and every message on its way that carries no thread stays on its way. -/
structure ThreadsMove (s t : State) : Prop where
  mem : t.mem = s.mem
  fe : t.fe = s.fe
  poison : t.poison = s.poison
  kept : ∀ x ∈ s.msgs, (∀ g, x.body ≠ .migrate g) → ∃ y ∈ t.msgs, SameMail x y

namespace ThreadsMove
variable {s t u : State}

theorem of_eq (hm : t.mem = s.mem) (hf : t.fe = s.fe) (hp : t.poison = s.poison) (hk : t.msgs = s.msgs) : ThreadsMove s t :=
  ⟨hm, hf, hp, fun x hx _ => ⟨x, hk ▸ hx, rfl, ⟨rfl, rfl, rfl⟩, rfl, rfl⟩⟩

theorem refl (s : State) : ThreadsMove s s := of_eq rfl rfl rfl rfl

theorem trans (h : ThreadsMove s t) (k : ThreadsMove t u) : ThreadsMove s u where
  mem := k.mem.trans h.mem
  fe := k.fe.trans h.fe
  poison := k.poison.trans h.poison
  kept x hx hno := by
    obtain ⟨y, hy, hb, ⟨h1, h2, h3⟩, h4, h5⟩ := h.kept x hx hno
    obtain ⟨z, hz, hb', ⟨k1, k2, k3⟩, k4, k5⟩ := k.kept y hy fun g => hb ▸ hno g
    exact ⟨z, hz, hb'.trans hb, ⟨k1.trans h1, k2.trans h2, k3.trans h3⟩, k4.trans h4, k5.trans h5⟩

theorem sameMemory (h : ThreadsMove s t) : SameMemory s t := sameMemory_of_eq h.mem h.fe h.poison

/-- An answer that carries no thread is on its way still. -/
theorem replied (h : ThreadsMove s t) {m : Msg} {b : Body} (hb : ∀ g, b ≠ .migrate g) (hr : Replied s m b) : Replied t m b := by
  obtain ⟨x, hx, rfl, h1, h2, h3, h4, h5⟩ := hr
  obtain ⟨y, hy, hbody, ⟨k1, k2, k3⟩, k4, k5⟩ := h.kept x hx hb
  exact ⟨y, hy, hbody, k1.trans h1, k2.trans h2, k4.trans h3, k5.trans h4, k3.trans h5⟩

theorem foldl {α : Type} (f : State → α → State) (h : ∀ s a, ThreadsMove s (f s a)) (l : List α) (s : State) : ThreadsMove s (l.foldl f s) := by
  induction l generalizing s with
  | nil => exact refl s
  | cons a l ih => exact (h s a).trans (ih _)

/-- Messages whose flags alone change. -/
theorem mapMsgs (s : State) (f : Msg → Msg) (h : ∀ x, (∀ g, x.body ≠ .migrate g) → SameMail x (f x)) : ThreadsMove s { s with msgs := s.msgs.map f } :=
  ⟨rfl, rfl, rfl, fun x hx hno => ⟨f x, List.mem_map_of_mem hx, h x hno⟩⟩

theorem send (s : State) (m : Msg) : ThreadsMove s (s.send m) :=
  ⟨send_mem s m, send_fe s m, send_poison s m, fun x hx _ => ⟨x, mem_msgs_send m hx, rfl, ⟨rfl, rfl, rfl⟩, rfl, rfl⟩⟩

theorem modCtx (s : State) (k : Nat) (f : Context → Context) : ThreadsMove s (s.modCtx k f) := of_eq rfl rfl rfl rfl
theorem modSp (s : State) (n : Nat) (f : Spindle → Spindle) : ThreadsMove s (s.modSp n f) := of_eq rfl rfl rfl rfl
theorem modJob (s : State) (j : Nat) (f : Job → Job) : ThreadsMove s (s.modJob j f) :=
  of_eq (modJob_mem ..) (modJob_fe ..) (modJob_poison ..) (modJob_msgs ..)
theorem modAct (s : State) (ix : Nat) (f : Activity → Activity) : ThreadsMove s (s.modAct ix f) := of_eq rfl rfl rfl rfl
theorem wakeAgain (s : State) (k : Nat) : ThreadsMove s (s.wakeAgain k) := modCtx s k _
theorem freeHandlers (s : State) (j : Nat) : ThreadsMove s (s.freeHandlers j) := by
  obtain ⟨l, e⟩ := freeHandlers_eq s j
  rw [e]; exact of_eq rfl rfl rfl rfl

/-- The same, where a condition holds. -/
theorem ite {c : Prop} [Decidable c] (h : ThreadsMove s t) (k : ThreadsMove s u) : ThreadsMove s (if c then t else u) := by
  split
  · exact h
  · exact k

/-! ### Mailboxes (R45, R143) -/

theorem mailTo (s : State) (k : Nat) (m : HeldMail) : ThreadsMove s (s.mailTo k m) := by
  unfold State.mailTo
  exact (modCtx s k _).trans (ite (wakeAgain _ k) (refl _))

theorem mailIn (s : State) (k : Nat) (ws : List Word) : ThreadsMove s (s.mailIn k ws) := (modSp s _ _).trans (mailTo _ k _)

theorem mailMoving (s : State) (j th : Nat) (ws : List Word) : ThreadsMove s (s.mailMoving j th ws) := by
  refine (modJob s j _).trans ((mapMsgs _ (fun x => match x.body with
    | .migrate m => if x.job == j then { x with body := .migrate (m.mailed th ws) } else x
    | _ => x) fun x hno => ?_).trans (of_eq rfl rfl rfl rfl))
  split
  · exact absurd ‹_› (hno _)
  · exact ⟨rfl, ⟨rfl, rfl, rfl⟩, rfl, rfl⟩

theorem ringPut (s : State) (j k th : Nat) (ws : List Word) : ThreadsMove s (s.ringPut j k th ws) := modJob s j _

theorem received (s : State) (m : Msg) : ThreadsMove s (s.received m) := of_eq (received_mem ..) (received_fe ..) (received_poison ..) (received_msgs ..)

theorem logMsg (s : State) (m : Msg) : ThreadsMove s (s.logMsg m) := by
  unfold State.logMsg
  refine ite (mapMsgs s _ fun x _ => ?_) ?_
  · split <;> exact ⟨rfl, ⟨rfl, rfl, rfl⟩, rfl, rfl⟩
  · have hr : ThreadsMove s (if m.postFront then s else s.received m) := ite (refl s) (received s m)
    refine hr.trans (mapMsgs _ _ fun x _ => ?_)
    split <;> exact ⟨rfl, ⟨rfl, rfl, rfl⟩, rfl, rfl⟩

theorem logMail (s : State) (j sp th : Nat) (ws : List Word) : ThreadsMove s (s.logMail j sp th ws) := by
  refine trans (t := { s with msgs := s.msgs ++ [_], nextMsg := s.nextMsg + 1 }) ?_ (logMsg _ _)
  exact ⟨rfl, rfl, rfl, fun x hx _ => ⟨x, List.mem_append_left _ hx, rfl, ⟨rfl, rfl, rfl⟩, rfl, rfl⟩⟩

theorem mailThread (s : State) (j th : Nat) (ws : List Word) : ThreadsMove s (s.mailThread j th ws) := by
  unfold State.mailThread
  dsimp only
  split
  · exact ite (ringPut s ..) (ite (logMail s ..) (ite ((mailIn s ..).trans (mailMoving ..)) (mailIn s ..)))
  · split
    · exact ringPut s ..
    · exact mailMoving s ..

/-! ### Activities and the end of a thread (R30, R316, R322) -/

theorem actNotice (s : State) (a : Activity) (code : Nat) : ThreadsMove s (s.actNotice a code) := mailThread s ..

theorem abandonOwned (s : State) (j th sp : Nat) : ThreadsMove s (s.abandonOwned j th sp) := by
  unfold State.abandonOwned
  split
  · unfold State.abandon
    exact ite ((modAct s _ _).trans (actNotice ..)) (modAct s _ _)
  · exact refl s

theorem sendStatus (s : State) (j th sp st : Nat) : ThreadsMove s (s.sendStatus j th sp st) := by
  unfold State.sendStatus
  refine ite (refl s) (ite (refl s) (ite ?_ (send s _)))
  unfold State.holdStatus
  exact (modSp s _ _).trans (ite (wakeAgain _ _) (refl _))

theorem passRecords (s : State) (k : Nat) (c : Context) : ThreadsMove s (s.passRecords k c) := by
  refine foldl _ (fun s h => ?_) _ s
  split
  · exact send s _
  · exact refl s

theorem endThread (s : State) (k st : Nat) : ThreadsMove s (s.endThread k st) := by
  let c := s.ctx k
  let j := s.jobNoAt (keySp k)
  let ends (u : State) : State := u.modJob j fun jb => { jb with exited := if c.thidx == compThidx then jb.exited else insertSorted jb.exited c.thidx }
  have hends : ThreadsMove s (ends ((s.passRecords k c).abandonOwned j c.thidx (keySp k))) :=
    ((passRecords s k c).trans (abandonOwned _ j c.thidx (keySp k))).trans (modJob _ j _)
  have hfree (u : State) : ThreadsMove u (((u.setCtx k (freeCtx c)).sendStatus j c.thidx (keySp k) st).freeHandlers j) :=
    ((of_eq rfl rfl rfl rfl : ThreadsMove u (u.setCtx k (freeCtx c))).trans (sendStatus _ j c.thidx (keySp k) st)).trans (freeHandlers _ j)
  exact hends.trans (hfree _)

theorem reissueTask (s : State) (j : Nat) (b : TaskBuf) : ThreadsMove s (s.reissueTask j b) := (modJob s j _).trans (of_eq rfl rfl rfl rfl)

/-- The task that a thread holds is given back where it holds one. -/
theorem giveBack (s : State) (j : Nat) (o : Option TaskBuf) (held : Bool) :
    ThreadsMove s (match o with | some b => if held then s.reissueTask j b else s | none => s) := by
  cases o with
  | none => exact refl s
  | some b => exact ite (reissueTask s j b) (refl s)

theorem kill (s : State) (k st : Nat) : ThreadsMove s (s.kill k st) := (giveBack s _ _ _).trans (endThread ..)

/-! ### Taking a trap and the end of a wait (R18, R22, R330) -/

theorem recordLost (s : State) (j k : Nat) (r : TrapInfo) (id : Option Nat) : ThreadsMove s (s.recordLost j k r id) := by
  unfold State.recordLost
  split
  · split
    · exact (modAct s _ _).trans (actNotice ..)
    · exact refl s
  · exact (modJob s j _).trans (kill ..)

theorem deliverRecord (s : State) (j sp k : Nat) (ws : List Word) (r : TrapInfo) (id : Option Nat) (second : Bool) :
    ThreadsMove s (s.deliverRecord j sp k ws r id second) := by
  unfold State.deliverRecord
  exact ite (send s _) (ite (send s _) (recordLost s ..))

theorem compFailed (s : State) (k : Nat) (r : TrapInfo) : ThreadsMove s (s.compFailed k r) := by
  unfold State.compFailed
  split
  · exact refl s
  · exact (of_eq rfl rfl rfl rfl : ThreadsMove s { s with unrav := { s.unrav with running := none } }).trans ((modAct _ _ _).trans (deliverRecord ..))

theorem takeTrap (s : State) (k : Nat) (r : TrapInfo) : ThreadsMove s (s.takeTrap k r) := by
  have hmid : ThreadsMove s (if k == s.cur then { s with midUnit := false } else s) := ite (of_eq rfl rfl rfl rfl) (refl s)
  have hfree (u : State) (j : Nat) : ThreadsMove u (((u.setCtx k (freeCtx (s.ctx k))).compFailed k r).freeHandlers j) :=
    ((of_eq rfl rfl rfl rfl : ThreadsMove u (u.setCtx k (freeCtx (s.ctx k)))).trans (compFailed _ k r)).trans (freeHandlers _ j)
  unfold State.takeTrap
  refine hmid.trans (ite ((giveBack _ _ _ _).trans (hfree _ _)) ?_)
  exact (modCtx _ k _).trans (deliverRecord _ _ _ k _ _ _ _)

theorem complete (s : State) (k v : Nat) : ThreadsMove s (s.complete k v) := by
  unfold State.complete
  dsimp only
  split
  case h_1 => exact wakeAgain s k
  case h_7 => exact (modSp s _ _).trans (modCtx ..)
  case h_8 => exact (modSp s _ _).trans (modCtx ..)
  case h_9 => exact ite (modCtx s k _) (ite (takeTrap s k _) (modCtx s k _))
  case h_10 => exact ite (modCtx s k _) (modCtx s k _)
  case h_12 => exact ite (modCtx s k _) (modCtx s k _)
  all_goals exact modCtx s k _
end ThreadsMove

/-! ### FENCE tests again (R135) -/

theorem foldl_wakeAgain (l : List Nat) (s : State) : let t := l.foldl (fun t k => t.wakeAgain k) s
    (∃ c, t = { s with ctxs := c }) ∧ (∀ k, (t.ctx k).fstat = (s.ctx k).fstat) ∧ (∀ k, (s.ctx k).st = .ready → (t.ctx k).st = .ready) ∧
      ∀ k ∈ l, (s.ctx k).st = .parked → (t.ctx k).st = .ready := by
  induction l generalizing s with
  | nil => exact ⟨⟨s.ctxs, rfl⟩, fun _ => rfl, fun _ h => h, fun k hk => absurd hk (List.not_mem_nil)⟩
  | cons a l ih =>
    intro t
    obtain ⟨⟨c, hrest⟩, hfstat, hready, hwoken⟩ := ih (s.wakeAgain a)
    have hctx (k : Nat) : ((s.wakeAgain a).ctx k).fstat = (s.ctx k).fstat ∧ ((s.ctx k).st = .ready → ((s.wakeAgain a).ctx k).st = .ready) := by
      by_cases e : k = a
      · subst e
        rw [State.wakeAgain, ctx_modCtx_same]
        split
        · exact ⟨rfl, fun _ => rfl⟩
        · exact ⟨rfl, fun h => h⟩
      · rw [State.wakeAgain, ctx_modCtx_ne _ _ e]; exact ⟨rfl, fun h => h⟩
    refine ⟨⟨c, hrest⟩, fun k => (hfstat k).trans (hctx k).1, fun k h => hready k ((hctx k).2 h), fun k hk hp => ?_⟩
    by_cases e : k = a
    · subst e
      refine hready k ?_
      rw [State.wakeAgain, ctx_modCtx_same, if_pos (beq_iff_eq.mpr hp)]
      rfl
    · have hp' : ((s.wakeAgain a).ctx k).st = .parked := by rw [State.wakeAgain, ctx_modCtx_ne _ _ e]; exact hp
      exact hwoken k ((List.mem_cons.mp hk).resolve_left e) hp'

/-- The contexts that wait in FENCE and have no batch left (R135). -/
def fenceDone (s : State) : List Nat :=
  (s.ctxs.filter fun e => e.2.st == .parked && e.2.park == 2 && e.2.kont == .reissue && e.2.tok == 0 && e.2.waitToks.isEmpty &&
    !s.batchesOf (whoOf (s.jobNoAt (keySp e.1)) e.2.thidx)).map (·.1)

theorem wakeFences_eq (s : State) : s.wakeFences = (fenceDone s).foldl (fun t k => t.wakeAgain k) s := by
  rw [fenceDone, List.foldl_map]; rfl

theorem wakeFences_rest (s : State) : ∃ c, s.wakeFences = { s with ctxs := c } := by rw [wakeFences_eq]; exact (foldl_wakeAgain _ s).1
theorem wakeFences_msgs (s : State) : s.wakeFences.msgs = s.msgs := by obtain ⟨c, e⟩ := wakeFences_rest s; rw [e]
theorem wakeFences_spindle (s : State) (n : Nat) : s.wakeFences.spindle n = s.spindle n := by obtain ⟨c, e⟩ := wakeFences_rest s; rw [e]; rfl
theorem wakeFences_batchesOf (s : State) (who : Nat) : s.wakeFences.batchesOf who = s.batchesOf who := by
  obtain ⟨c, e⟩ := wakeFences_rest s; rw [e]; rfl
theorem ThreadsMove.wakeFences (s : State) : ThreadsMove s s.wakeFences := by obtain ⟨c, e⟩ := wakeFences_rest s; rw [e]; exact .of_eq rfl rfl rfl rfl
theorem wakeFences_fstat (s : State) (k : Nat) : (s.wakeFences.ctx k).fstat = (s.ctx k).fstat := by
  rw [wakeFences_eq]; exact (foldl_wakeAgain _ s).2.1 k

/-- A context that waits in FENCE with no batch left goes on. -/
theorem wakeFences_ready {s : State} {k : Nat} {c : Context} (hf : Table.find s.ctxs k = some c) (hst : c.st = .parked) (hpark : c.park = 2)
    (hk : c.kont = .reissue) (ht : c.tok = 0) (hw : c.waitToks = []) (hb : s.batchesOf (whoOf (s.jobNoAt (keySp k)) c.thidx) = false) :
    (s.wakeFences.ctx k).st = .ready := by
  have hc : s.ctx k = c := by rw [State.ctx, Table.get, hf]; rfl
  have hmem : k ∈ fenceDone s := List.mem_map.mpr ⟨(k, c), List.mem_filter.mpr ⟨mem_of_find hf, by simp [hst, hpark, hk, ht, hw, hb]⟩, rfl⟩
  rw [wakeFences_eq]
  exact (foldl_wakeAgain _ s).2.2.2 k hmem (by rw [hc]; exact hst)

end Sys2Proof.Laws
end

section
/-!
PROOFS. What a bank write does (R115, R127, R149): bytes, full/empty bits and poison of its words, batches of their lines, and nothing else.
-/
namespace Sys2Proof.Laws
open Sys2Proof Sys2Proof.Machine Sys2Proof.Claims Sys2Proof.Config

/-- Nothing but memory, messages, their counters and publishers' entries differs, and no message on its way goes. -/
structure OnlyBanks (s t : State) : Prop where
  rest : { t with mem := s.mem, fe := s.fe, poison := s.poison, msgs := s.msgs, nextMsg := s.nextMsg, spindles := s.spindles } = s
  spindles : ∀ n, { t.spindle n with sent := (s.spindle n).sent, pubs := (s.spindle n).pubs } = s.spindle n
  kept : ∀ m ∈ s.msgs, m ∈ t.msgs

theorem OnlyForwards.onlyBanks {s t : State} (h : OnlyForwards s t) : OnlyBanks s t where
  rest := congrArg (fun x : State => { x with mem := s.mem, fe := s.fe, poison := s.poison }) h.rest
  spindles := h.spindles
  kept := h.kept

namespace OnlyBanks
variable {s t u : State}

theorem refl (s : State) : OnlyBanks s s := (OnlyForwards.refl s).onlyBanks

theorem trans (h : OnlyBanks s t) (k : OnlyBanks t u) : OnlyBanks s u where
  rest := by
    have e := congrArg (fun x : State => { x with mem := s.mem, fe := s.fe, poison := s.poison, msgs := s.msgs, nextMsg := s.nextMsg,
                                                  spindles := s.spindles }) k.rest
    exact e.trans h.rest
  spindles n := by
    have e := congrArg (fun x : Spindle => { x with sent := (s.spindle n).sent, pubs := (s.spindle n).pubs }) (k.spindles n)
    exact e.trans (h.spindles n)
  kept m hm := k.kept m (h.kept m hm)

/-- Memory alone differs. -/
theorem of_memory (h : { t with mem := s.mem, fe := s.fe, poison := s.poison } = s) : OnlyBanks s t where
  rest := congrArg (fun x : State => { x with msgs := s.msgs, nextMsg := s.nextMsg, spindles := s.spindles }) h
  spindles n := by
    have hs : t.spindles = s.spindles := by simpa using congrArg State.spindles h
    rw [State.spindle, hs]; rfl
  kept m hm := by
    have hs : t.msgs = s.msgs := by simpa using congrArg State.msgs h
    rw [hs]; exact hm

theorem ctxs (h : OnlyBanks s t) : t.ctxs = s.ctxs := by simpa using congrArg State.ctxs h.rest
theorem cur (h : OnlyBanks s t) : t.cur = s.cur := by simpa using congrArg State.cur h.rest
theorem now (h : OnlyBanks s t) : t.now = s.now := by simpa using congrArg State.now h.rest
theorem jobs (h : OnlyBanks s t) : t.jobs = s.jobs := by simpa using congrArg State.jobs h.rest
theorem ctx (h : OnlyBanks s t) (k : Nat) : t.ctx k = s.ctx k := by rw [State.ctx, h.ctxs]; rfl
theorem me (h : OnlyBanks s t) : t.me = s.me := by rw [State.me, h.cur, h.ctx]; rfl
theorem here (h : OnlyBanks s t) : t.here = s.here := by rw [State.here, h.cur]; rfl

theorem ofSpindle (h : OnlyBanks s t) {α : Type} (f : Spindle → α) (hf : ∀ p a b, f { p with sent := a, pubs := b } = f p) (n : Nat) :
    f (t.spindle n) = f (s.spindle n) :=
  (hf _ _ _).symm.trans (congrArg f (h.spindles n))

theorem waiters (h : OnlyBanks s t) (n : Nat) : (t.spindle n).waiters = (s.spindle n).waiters := h.ofSpindle Spindle.waiters (fun _ _ _ => rfl) n
theorem noWaiter (h : OnlyBanks s t) {fa : Nat} (hn : NoWaiter s fa) : NoWaiter t fa := by
  intro x hx
  rw [h.waiters] at hx
  exact hn x hx
end OnlyBanks

/-! ### Full/empty bits (R127) -/

theorem mem_insertSorted_iff {l : List Nat} {a x : Nat} : x ∈ insertSorted l a ↔ x ∈ l ∨ x = a := by
  induction l with
  | nil => simp [insertSorted]
  | cons b l ih => unfold insertSorted; split_ifs <;> grind

theorem full_setFE (s : State) (fa : Nat) (f : Bool) (a : Nat) : (s.setFE fa f).full a = if wordOf a = wordOf fa then f else s.full a := by
  cases f
  · by_cases e : wordOf a = wordOf fa <;> simp [State.full, State.setFE, e]
  · by_cases e : wordOf a = wordOf fa <;> simp [State.full, State.setFE, e, mem_insertSorted_iff]

theorem wordOf_wordOf (fa : Nat) : wordOf (wordOf fa) = wordOf fa := by unfold wordOf; omega
theorem faSp_wordOf (fa : Nat) : faSp (wordOf fa) = faSp fa := by unfold faSp wordOf; omega

/-- The bit of a word after it has been set. -/
theorem feAt_of_eq {s t : State} {fa : Nat} {f : Bool} (h : ∀ a, t.full a = if wordOf a = wordOf fa then f else s.full a) : FeAt s t fa f where
  word := by rw [h, if_pos rfl]
  others a ha := by rw [h, if_neg ha]

/-! ### Forwarding (R149) -/

theorem onlyForwards_ite {c : Prop} [Decidable c] {s t u : State} (h : OnlyForwards s t) (k : OnlyForwards s u) :
    OnlyForwards s (if c then t else u) := by
  split
  · exact h
  · exact k

theorem onlyForwards_forwardMask (s : State) (fa mask : Nat) (w : Bool) (who : Nat) : OnlyForwards s (s.forwardMask fa mask w who) := by
  refine onlyForwards_foldl _ (fun u e => ?_) _ s
  refine onlyForwards_ite (onlyForwards_ite (onlyForwards_modSp u _ _ fun _ => rfl) (onlyForwards_ite ?_ ?_)) (OnlyForwards.refl u)
  · refine OnlyForwards.trans ?_ (onlyForwards_closeBatch _ _ e _)
    exact onlyForwards_modSp u _ _ fun _ => rfl
  · exact onlyForwards_modSp u _ _ fun _ => rfl

theorem onlyForwards_forward (s : State) (fa n : Nat) (w : Bool) (who : Nat) : OnlyForwards s (s.forward fa n w who) := onlyForwards_forwardMask s ..

/-! ### Stores (R115, R124) -/

/-- Taking poison from words changes the poison alone. -/
theorem foldl_unpoison (l : List Nat) (s : State) :
    l.foldl State.unpoison s = { s with poison := s.poison.filter fun w => !l.contains w } := by
  induction l generalizing s with
  | nil => simp
  | cons a l ih =>
    rw [List.foldl_cons, ih, State.unpoison]
    simp only [List.filter_filter, List.contains_cons, Bool.not_or, bne]
    simp only [Bool.and_comm]

/-- The poison that a bank write of bytes leaves. -/
def poisonAfter (s : State) (fa n : Nat) : List Nat := if n < 8 then s.poison else s.poison.filter fun w => !(wholeWords fa n).contains w

theorem putBytes_eq (s : State) (fa n v : Nat) : s.putBytes fa n v = { s with mem := s.mem.writeN fa n v, poison := poisonAfter s fa n } := by
  unfold State.putBytes poisonAfter
  dsimp only
  split
  · rfl
  · rw [foldl_unpoison]

section
variable (s : State) (fa n v who : Nat) (f : Bool)

theorem onlyBanks_putBytes : OnlyBanks s (s.putBytes fa n v) := .of_memory (by rw [putBytes_eq])

theorem onlyBanks_store : OnlyBanks s (s.store fa n v who) := (onlyBanks_putBytes s fa n v).trans (onlyForwards_forward _ ..).onlyBanks

theorem onlyBanks_storeFE : OnlyBanks s (s.storeFE fa n v f who) := by
  have hset : OnlyBanks (s.putBytes fa n v) ((s.putBytes fa n v).setFE fa f) := .of_memory rfl
  exact ((onlyBanks_putBytes s fa n v).trans hset).trans (onlyForwards_forward _ ..).onlyBanks

theorem onlyBanks_changeFE : OnlyBanks s (s.changeFE fa f who) :=
  (OnlyBanks.of_memory (t := s.setFE fa f) rfl).trans (onlyForwards_forward _ ..).onlyBanks

@[simp] theorem store_mem : (s.store fa n v who).mem = s.mem.writeN fa n v := by rw [State.store, (onlyForwards_forward _ ..).mem, putBytes_eq]
@[simp] theorem store_fe : (s.store fa n v who).fe = s.fe := by rw [State.store, (onlyForwards_forward _ ..).fe, putBytes_eq]
@[simp] theorem store_poison : (s.store fa n v who).poison = poisonAfter s fa n := by rw [State.store, (onlyForwards_forward _ ..).poison, putBytes_eq]
@[simp] theorem storeFE_mem : (s.storeFE fa n v f who).mem = s.mem.writeN fa n v := by
  rw [State.storeFE, (onlyForwards_forward _ ..).mem, setFE_mem, putBytes_eq]
@[simp] theorem storeFE_poison : (s.storeFE fa n v f who).poison = poisonAfter s fa n := by
  rw [State.storeFE, (onlyForwards_forward _ ..).poison, setFE_poison, putBytes_eq]
@[simp] theorem changeFE_mem : (s.changeFE fa f who).mem = s.mem := by rw [State.changeFE, (onlyForwards_forward _ ..).mem, setFE_mem]
@[simp] theorem changeFE_poison : (s.changeFE fa f who).poison = s.poison := by rw [State.changeFE, (onlyForwards_forward _ ..).poison, setFE_poison]

theorem full_changeFE (a : Nat) : (s.changeFE fa f who).full a = if wordOf a = wordOf fa then f else s.full a := by
  rw [State.changeFE, (onlyForwards_forward _ ..).full, full_setFE]

theorem full_storeFE (a : Nat) : (s.storeFE fa n v f who).full a = if wordOf a = wordOf fa then f else s.full a := by
  rw [State.storeFE, (onlyForwards_forward _ ..).full, full_setFE, putBytes_eq]; rfl

theorem full_store (a : Nat) : (s.store fa n v who).full a = s.full a := by rw [State.full, store_fe]; rfl
end

/-- Memory after a write of bytes is the write's. -/
theorem bytes_of_mem {s t : State} {fa n v : Nat} (hwf : s.mem.wf = true) (h : t.mem = s.mem.writeN fa n v) : Bytes s t fa n v where
  inside i hi := by rw [State.byte, h, read_writeN_in hwf _ _ _ _ hi]
  outside a ha := by rw [State.byte, h, read_writeN_out hwf _ _ _ ha]; rfl

/-! ### A word at which nobody waits (R128) -/

/-- Where no waiter waits at a word its wake procedure does nothing. -/
theorem settle_of_noWaiter {s : State} {fa : Nat} (h : NoWaiter s fa) : s.settle (wordOf fa) = s := by
  have hof (op : Nat) : s.waitersOf (wordOf fa) op = [] := by
    rw [State.waitersOf, faSp_wordOf, List.filter_eq_nil_iff]
    intro x hx
    simp [h x hx]
  simp [State.settle, State.settleAux, hof]

section
variable {s : State} {fa : Nat} (h : NoWaiter s fa) (n v who : Nat)
include h

theorem fill_of_noWaiter : s.fill fa who = s.changeFE fa true who := by
  unfold State.fill
  split
  · rfl
  · exact settle_of_noWaiter ((onlyBanks_changeFE ..).noWaiter h)

theorem storeFill_of_noWaiter : s.storeFill fa n v who = s.storeFE fa n v true who := by
  unfold State.storeFill
  split
  · rfl
  · exact settle_of_noWaiter ((onlyBanks_storeFE ..).noWaiter h)

theorem empty_of_noWaiter : s.empty fa who = if s.full fa then s.changeFE fa false who else s := by
  unfold State.empty
  split
  · exact settle_of_noWaiter ((onlyBanks_changeFE ..).noWaiter h)
  · rfl

/-- A word that becomes EMPTY at which nobody waits. -/
theorem empty_facts : OnlyBanks s (s.empty fa who) ∧ (s.empty fa who).mem = s.mem ∧ (s.empty fa who).poison = s.poison ∧
    ∀ a, (s.empty fa who).full a = if wordOf a = wordOf fa then false else s.full a := by
  rw [empty_of_noWaiter h]
  by_cases hf : s.full fa = true
  · rw [if_pos hf]
    exact ⟨onlyBanks_changeFE .., changeFE_mem .., changeFE_poison .., full_changeFE s fa who false⟩
  · rw [if_neg hf]
    refine ⟨OnlyBanks.refl s, rfl, rfl, fun a => ?_⟩
    split
    · rename_i e
      rw [State.full, e]; exact Bool.eq_false_iff.mpr hf
    · rfl
end

end Sys2Proof.Laws
end

section
/-!
PROOFS. Subscriptions at the publisher (R147 to R149, R152, R156): the snapshot, batches whose time has come, answers, and the end of an entry.
-/
namespace Sys2Proof.Laws
open Sys2Proof Sys2Proof.Machine Sys2Proof.Claims Sys2Proof.Config

/-! ### A subscription is taken (R147, R148) -/

/-- A batch that is sent leaves every entry of its spindle as it was but for the batches that wait for acknowledgement. -/
theorem mem_pubs_sendBatch {s : State} {home : Nat} {x : PubEntry} (hx : x ∈ (s.spindle home).pubs) (e : PubEntry) (line bytes fes opened : Nat)
    (ws : List Nat) (last : Bool) :
    ∃ y ∈ ((s.sendBatch home e line bytes fes opened ws last).spindle home).pubs, { y with unacked := x.unacked } = x := by
  have hsend (m : Msg) : ((s.send m).spindle home).pubs = (s.spindle home).pubs :=
    (onlyMessages_send s m).ofSpindle Spindle.pubs (fun _ _ _ => rfl) home
  rw [State.sendBatch, spindle_modSp_same, hsend]
  refine ⟨_, List.mem_map_of_mem hx, ?_⟩
  split <;> rfl

/-- One line of a snapshot is sent. -/
def snapshotLine (sp : Nat) (e : PubEntry) (u : State) (i : Nat) : State :=
  u.sendBatch sp e (e.base + 64 * i) (2 ^ 64 - 1) 0xFF u.now [] (i + 1 == e.len / 64)

theorem snapshot_eq (s : State) (sp : Nat) (e : PubEntry) : s.snapshot sp e = (List.range (e.len / 64)).foldl (snapshotLine sp e) s := rfl

section
variable (sp : Nat) (e : PubEntry)

theorem onlyForwards_snapshot (l : List Nat) (s : State) : OnlyForwards s (l.foldl (snapshotLine sp e) s) :=
  onlyForwards_foldl _ (fun u i => onlyForwards_sendBatch u sp e _ _ _ _ _ _) l s

theorem mem_pubs_snapshot {x : PubEntry} (l : List Nat) (s : State) (hx : x ∈ (s.spindle sp).pubs) :
    ∃ y ∈ ((l.foldl (snapshotLine sp e) s).spindle sp).pubs, { y with unacked := x.unacked } = x := by
  induction l generalizing s x with
  | nil => exact ⟨x, hx, rfl⟩
  | cons i l ih =>
    obtain ⟨y, hy, hxy⟩ := mem_pubs_sendBatch hx e (e.base + 64 * i) (2 ^ 64 - 1) 0xFF s.now [] (i + 1 == e.len / 64)
    obtain ⟨z, hz, hyz⟩ := ih _ hy
    exact ⟨z, hz, by rw [← hxy, ← hyz]⟩
end

/-- Every line of the region is sent. -/
theorem batchSent_snapshot (s : State) (sp : Nat) (e : PubEntry) {l : Nat} (hl : l < e.len / 64) :
    BatchSent s (s.snapshot sp e) sp e (e.base + 64 * l) (2 ^ 64 - 1) 0xFF (l + 1 == e.len / 64) := by
  obtain ⟨a, b, hab⟩ := List.append_of_mem (List.mem_range.mpr hl)
  rw [snapshot_eq, hab, List.foldl_append, List.foldl_cons]
  exact batchSent_kept ((onlyForwards_snapshot sp e a s).batchSent (batchSent_sendBatch ..)) (onlyForwards_snapshot sp e b _).kept

theorem publishersSubscribe : PublishersSubscribe := by
  intro s m base len copy ha hb i p ok clash
  have hu := onlyMessages_arrived s m
  have hwin : (arrived s m).windowOk m.dst m.src base len 0 = ok := windowOk_congr hu ..
  have hcopies : ((arrived s m).spindle m.dst).copies = p.copies := hu.ofSpindle Spindle.copies (fun _ _ _ => rfl) _
  have hpubs : ((arrived s m).spindle m.dst).pubs = p.pubs := hu.ofSpindle Spindle.pubs (fun _ _ _ => rfl) _
  have hexec : exec i s = .next ((arrived s m).subIn m) := congrArg Host.Outcome.next (onArrive_eq _ ha (by rw [hb]))
  let e : PubEntry := { base := base, len := len, subSp := m.src, subJob := m.job, copyBase := copy, snapTok := some (m.ctx, m.tok) }
  have hsub : (arrived s m).subIn m = if !ok then (arrived s m).send (m.answer (.subAnswer 2)) else
      if clash then (arrived s m).send (m.answer (.subAnswer 4)) else
      if 16 ≤ p.pubs.length then (arrived s m).send (m.answer (.subAnswer 3)) else
      ((arrived s m).modSp m.dst fun p => { p with pubs := p.pubs ++ [e] }).snapshot m.dst e := by
    simp only [State.subIn, hb, hwin, hcopies, hpubs]; rfl
  have answers (b : Body) (h : (arrived s m).subIn m = (arrived s m).send (m.answer b)) : JustAnswers i s m b :=
    ⟨_, hexec.trans (congrArg Host.Outcome.next h), hu.trans (onlyMessages_send _ _), answered_send (arrived_msgs s m) (arrived_nextMsg s m)⟩
  refine ⟨fun ho => answers _ ?_, fun ho hc => answers _ ?_, fun ho hc hfull => answers _ ?_, fun ho hc hroom => ⟨_, hexec, ?_⟩⟩
  · rw [hsub, ho]; rfl
  · rw [hsub, ho, hc]; rfl
  · rw [hsub, ho, hc, if_pos hfull]; rfl
  · let v := (arrived s m).modSp m.dst fun p => { p with pubs := p.pubs ++ [e] }
    have htaken : (arrived s m).subIn m = v.snapshot m.dst e := by rw [hsub, ho, hc, if_neg (Nat.not_le.mpr hroom)]; rfl
    rw [htaken]
    have hv : SameMemory s v := sameMemory_trans hu.sameMemory (sameMemory_modSp ..)
    have hf : OnlyForwards v (v.snapshot m.dst e) := onlyForwards_snapshot m.dst e (List.range (e.len / 64)) v
    refine ⟨sameMemory_trans hv hf.sameMemory, hf.ctxs.trans hu.ctxs, ?_, fun l hl => ?_⟩
    · have hmem : e ∈ (v.spindle m.dst).pubs := by
        rw [show (v.spindle m.dst).pubs = _ from congrArg Spindle.pubs (spindle_modSp_same ..)]
        exact List.mem_append_right _ (List.mem_singleton.2 rfl)
      obtain ⟨y, hy, hye⟩ := mem_pubs_snapshot m.dst e (List.range (e.len / 64)) v hmem
      exact ⟨y, hy, congrArg PubEntry.base hye, congrArg PubEntry.len hye, congrArg PubEntry.subSp hye, congrArg PubEntry.copyBase hye,
        congrArg PubEntry.susp hye⟩
    · obtain ⟨x, hx, fev, data, ws, hcls, hsrc, hdst, hbody, hdata⟩ := batchSent_snapshot v m.dst e hl
      refine ⟨x, hx, fev, data, ws, hcls, hsrc, hdst, hbody, fun k hk => ?_⟩
      obtain ⟨hread, hfull⟩ := hdata k hk
      exact ⟨hread.trans (congrArg (Memory.readN · _ _) hu.mem), hfull.trans (hv.full _)⟩

/-! ### A batch whose time has come (R149) -/

theorem batchesCloseInTime : BatchesCloseInTime := by
  intro s sp line i
  refine ⟨fun h => congrArg Host.Outcome.next (closeBatches_of_none fun e he b hb => ?_), fun e he b hb hl ht => ⟨_, rfl, ?_⟩⟩
  · have hsoon := h e he b hb
    by_cases hl : b.line = line
    · have hlate : ¬ b.opened + batchCycles ≤ s.now := Nat.not_le.mpr (hsoon hl)
      simp [hl, hlate]
    · simp [hl]
  · have hq : (b.line == line && decide (b.opened + batchCycles ≤ s.now)) = true := by
      rw [Bool.and_eq_true, beq_iff_eq, decide_eq_true_iff]; exact ⟨hl, ht⟩
    have hf := onlyForwards_closeBatches s sp fun _ b => b.line == line && decide (b.opened + batchCycles ≤ s.now)
    have hsent := batchSent_closeBatches (q := fun _ b => b.line == line && decide (b.opened + batchCycles ≤ s.now)) he hb hq
    rw [hl] at hsent
    refine ⟨hf.sameMemory, hf.ctxs, hsent, fun x hx y hy hyl => ?_⟩
    obtain ⟨w, -, -, -, hopen⟩ := closedEntry_closeBatches hx
    have hleft := (hopen y hy).2
    rw [Bool.and_eq_false_iff, beq_eq_false_iff_ne, decide_eq_false_iff_not, Nat.not_le] at hleft
    exact hleft.resolve_left fun hne => hne hyl

/-! ### Answers to batches (R135, R150, R156) -/

theorem batchAnswersAreTaken : BatchAnswersAreTaken := by
  intro s m entry id ha p
  have hu := onlyMessages_arrived s m
  have hpubs : ((arrived s m).spindle m.dst).pubs = p.pubs := hu.ofSpindle Spindle.pubs (fun _ _ _ => rfl) _
  refine ⟨fun hb => ?_, fun hb => ?_⟩
  · let v := (arrived s m).modSp m.dst fun p =>
      { p with pubs := p.pubs.map fun e => { e with unacked := e.unacked.filter fun u => u.1 != id } }
    have hexec : exec (.batchAck m.id) s = .next v.wakeFences := by
      refine congrArg Host.Outcome.next ((onArrive_eq _ ha (by rw [hb])).trans ?_)
      simp only [State.batchAcked, hb]; rfl
    have hvm : SameMemory s v := sameMemory_trans hu.sameMemory (sameMemory_modSp ..)
    refine ⟨_, hexec, sameMemory_trans hvm (ThreadsMove.wakeFences v).sameMemory, (wakeFences_msgs v).trans (arrived_msgs s m), ?_,
      fun k c hf hst hpark hk ht hw hbatches => ?_⟩
    · rw [wakeFences_spindle, show (v.spindle m.dst).pubs = _ from congrArg Spindle.pubs (spindle_modSp_same ..), hpubs]
    · rw [wakeFences_batchesOf] at hbatches
      have hj : v.jobNoAt (keySp k) = s.jobNoAt (keySp k) := by
        have hv : OnlyForwards (arrived s m) v := onlyForwards_modSp _ _ _ fun _ => rfl
        exact (hv.jobNoAt _).trans (hu.jobNoAt _)
      have hfv : Table.find v.ctxs k = some c := by rw [show v.ctxs = s.ctxs from hu.ctxs]; exact hf
      exact wakeFences_ready hfv hst hpark hk ht hw (by rw [hj]; exact hbatches)
  · let v := (arrived s m).modSp m.dst fun p => { p with pubs := p.pubs.filter fun e => !(e.base == entry && e.subSp == m.src) }
    let hit := p.pubs.any fun e => e.base == entry && e.subSp == m.src
    let w := if hit then v.modCtx (keyOf m.dst 0) fun c => c.raise flSUBERR else v
    have hexec : exec (.batchNack m.id) s = .next w.wakeFences := by
      refine congrArg Host.Outcome.next ((onArrive_eq _ ha (by rw [hb])).trans ?_)
      simp only [State.batchRefused, hb, hpubs]; rfl
    have hvm : SameMemory s v := sameMemory_trans hu.sameMemory (sameMemory_modSp ..)
    have hw : ThreadsMove v w := .ite (.modCtx v ..) (.refl v)
    have hws : w.spindle m.dst = v.spindle m.dst := by simp only [w]; split <;> rfl
    refine ⟨_, hexec, sameMemory_trans hvm (hw.trans (.wakeFences w)).sameMemory, ?_, fun ⟨e, he, hbase, hsub⟩ => ?_⟩
    · rw [wakeFences_spindle, hws, show (v.spindle m.dst).pubs = _ from congrArg Spindle.pubs (spindle_modSp_same ..), hpubs]
    · have hhit : hit = true := List.any_eq_true.mpr ⟨e, he, by simp [hbase, hsub]⟩
      rw [wakeFences_fstat]
      simp only [w, hhit, if_true, ctx_modCtx_same]
      exact congrArg (fun c : Context => c.fstat ||| BitVec.ofNat 64 flSUBERR) (hu.ctx _)

/-! ### An entry ends, and a drain (R136, R152) -/

/-- What is pending for saved entries is sent: messages leave, and only the saved entries change. -/
theorem flushSaved_facts (s : State) (sp base copy : Nat) : let t := s.flushSaved sp base copy
    SameMemory s t ∧ t.ctxs = s.ctxs ∧ (∀ n, (t.spindle n).pubs = (s.spindle n).pubs) ∧ ∀ m ∈ s.msgs, m ∈ t.msgs := by
  intro t
  obtain ⟨out, jobs, ht⟩ : ∃ out jobs, t = List.foldl State.send { s with jobs := jobs } out := ⟨_, _, rfl⟩
  have hmsgs : OnlyMessages { s with jobs := jobs } t := ht ▸ onlyMessages_foldl _ onlyMessages_send out _
  have hkept : OnlyForwards { s with jobs := jobs } t := ht ▸ onlyForwards_foldl _ onlyForwards_send out _
  exact ⟨sameMemory_of_eq hmsgs.mem hmsgs.fe hmsgs.poison, hmsgs.ctxs, fun n => hmsgs.ofSpindle Spindle.pubs (fun _ _ _ => rfl) n, hkept.kept⟩

/-- The answer goes after what is pending. -/
theorem replied_update (s : State) (m : Msg) (b : Body) : Replied (s.send { m.answer b with cls := .update }) m b :=
  ⟨_, sent_mem_msgs s _, rfl, rfl, rfl, rfl, rfl, rfl⟩

section
variable {s : State} {m : Msg} {base copy : Nat}

/-- The open batches of the entry, and what is pending for it where it is saved, are on their way. -/
def flushed (s : State) (m : Msg) (base copy : Nat) : State := ((arrived s m).closeEntry m.dst base copy).flushSaved m.dst base copy

theorem flushed_facts (s : State) (m : Msg) (base copy : Nat) : let v := flushed s m base copy
    SameMemory s v ∧ v.ctxs = s.ctxs ∧
      (∀ e ∈ (s.spindle m.dst).pubs, e.base = base ∧ e.copyBase = copy → ∀ b ∈ e.open_, BatchSent s v m.dst e b.line b.bytes b.fes false) ∧
      ∀ e ∈ (v.spindle m.dst).pubs, e.base = base ∧ e.copyBase = copy → e.open_ = [] := by
  intro v
  have hu := onlyMessages_arrived s m
  have hc : OnlyForwards (arrived s m) ((arrived s m).closeEntry m.dst base copy) := onlyForwards_closeBatches ..
  obtain ⟨hmem, hctxs, hpubs, hkept⟩ := flushSaved_facts ((arrived s m).closeEntry m.dst base copy) m.dst base copy
  have hupubs : ((arrived s m).spindle m.dst).pubs = (s.spindle m.dst).pubs := hu.ofSpindle Spindle.pubs (fun _ _ _ => rfl) _
  refine ⟨sameMemory_trans hu.sameMemory (sameMemory_trans hc.sameMemory hmem), hctxs.trans (hc.ctxs.trans hu.ctxs), fun e he hmine b hb => ?_,
    fun e he hmine => ?_⟩
  · have hq : (e.base == base && e.copyBase == copy) = true := by simp [hmine]
    obtain ⟨x, hx, fev, data, ws, hcls, hsrc, hdst, hbody, hdata⟩ := batchSent_kept (batchSent_closeBatches (hupubs ▸ he) hb hq) hkept
    refine ⟨x, hx, fev, data, ws, hcls, hsrc, hdst, hbody, fun k hk => ?_⟩
    obtain ⟨hread, hfull⟩ := hdata k hk
    exact ⟨hread.trans (congrArg (Memory.readN · _ _) hu.mem), hfull.trans (hu.sameMemory.full _)⟩
  · rw [show (v.spindle m.dst).pubs = _ from hpubs m.dst] at he
    obtain ⟨x, -, hb, hcb, hopen⟩ := closedEntry_closeBatches he
    refine List.eq_nil_iff_forall_not_mem.mpr fun z hz => ?_
    have hne := (hopen z hz).2
    rw [← hb, ← hcb] at hne
    simp [hmine] at hne
end

/-- SUBOFF at the publisher keeps an entry of another region, subscriber or job. -/
def keptPub (base copy subSp subJob : Nat) (e : PubEntry) : Bool := !(e.base == base && e.copyBase == copy && e.subSp == subSp && e.subJob == subJob)

theorem subJob_ne_of_keptPub {base copy subSp subJob : Nat} {e : PubEntry} (h : keptPub base copy subSp subJob e = true)
    (hm : e.base = base ∧ e.copyBase = copy) (hs : e.subSp = subSp) : e.subJob ≠ subJob := by
  intro hj
  simp [keptPub, hm, hs, hj] at h

section
variable (s : State) (sp base copy subSp subJob : Nat)

theorem freePub_pubs : ((s.freePub sp base copy subSp subJob).spindle sp).pubs = (s.spindle sp).pubs.filter (keptPub base copy subSp subJob) :=
  congrArg Spindle.pubs (spindle_modSp_same s sp fun p => { p with pubs := p.pubs.filter (keptPub base copy subSp subJob) })

theorem sameMemory_freePub : SameMemory s (s.freePub sp base copy subSp subJob) := sameMemory_of_eq rfl rfl rfl
theorem freePub_ctxs : (s.freePub sp base copy subSp subJob).ctxs = s.ctxs := rfl
theorem freePub_msgs : (s.freePub sp base copy subSp subJob).msgs = s.msgs := rfl

/-- The table saved with a publisher of a job that is switched out loses the entry too. -/
theorem freePub_saved {j : Nat} {jb : Job} (hf : Table.find (s.freePub sp base copy subSp subJob).jobs j = some jb) {x : SavedSpindle} (hx : x ∈ jb.saved)
    (hsp : x.sp = sp) : ∀ e ∈ x.state.pubs, keptPub base copy subSp subJob e = true := by
  let cut (n : Nat) (p : Spindle) : Spindle := if n == sp then { p with pubs := p.pubs.filter (keptPub base copy subSp subJob) } else p
  have hjobs : (s.freePub sp base copy subSp subJob).jobs = s.jobs.map fun e => (e.1, e.2.mapSaved cut) := rfl
  rw [hjobs, find_mapValues s.jobs (fun _ jb => jb.mapSaved cut)] at hf
  obtain ⟨jb0, -, rfl⟩ := Option.map_eq_some_iff.mp hf
  obtain ⟨v, -, rfl⟩ := List.mem_map.mp hx
  intro e he
  have hcut : cut v.sp v.state = { v.state with pubs := v.state.pubs.filter (keptPub base copy subSp subJob) } := if_pos (beq_iff_eq.mpr hsp)
  have he' : e ∈ (cut v.sp v.state).pubs := he
  rw [hcut] at he'
  exact (List.mem_filter.mp he').2
end

theorem publishersDrain : PublishersDrain := by
  intro s m base copy ha mine sent
  obtain ⟨hmem, hctxs, hsent, hopen⟩ := flushed_facts s m base copy
  refine ⟨fun hb => ?_, fun hb => ?_⟩
  · let w := (flushed s m base copy).freePub m.dst base copy m.src m.job
    have hexec : exec (.subscriptionRemoval m.id) s = .next (w.send { m.answer .ack with cls := .update }) := by
      refine congrArg Host.Outcome.next ((onArrive_eq _ ha (by rw [hb])).trans ?_)
      simp only [State.subOut, hb]; rfl
    have hsend := onlyMessages_send w { m.answer .ack with cls := .update }
    refine ⟨_, hexec, sameMemory_send (sameMemory_trans hmem (sameMemory_freePub ..)) _, hsend.ctxs.trans ((freePub_ctxs ..).trans hctxs), replied_update w m .ack, fun e he hm b hbo => ?_,
      fun e he hm hs => ?_, fun j jb hf x hx hsp e he hm hs => ?_⟩
    · exact batchSent_kept (hsent e he hm b hbo) fun y hy => mem_msgs_send _ (by rw [freePub_msgs]; exact hy)
    · rw [hsend.ofSpindle Spindle.pubs (fun _ _ _ => rfl), freePub_pubs] at he
      exact subJob_ne_of_keptPub (List.mem_filter.mp he).2 hm hs
    · rw [hsend.jobs] at hf
      exact subJob_ne_of_keptPub (freePub_saved _ _ _ _ _ _ hf hx hsp e he) hm hs
  · have hexec : exec (.drainRequest m.id) s = .next ((flushed s m base copy).send { m.answer .ack with cls := .update }) := by
      refine congrArg Host.Outcome.next ((onArrive_eq _ ha (by rw [hb])).trans ?_)
      simp only [State.drainIn, hb]; rfl
    have hsend := onlyMessages_send (flushed s m base copy) { m.answer .ack with cls := .update }
    refine ⟨_, hexec, sameMemory_send hmem _, hsend.ctxs.trans hctxs, replied_update _ m .ack, fun e he hm b hbo => ?_, fun e he hm => ?_⟩
    · exact batchSent_kept (hsent e he hm b hbo) fun y hy => mem_msgs_send _ hy
    · rw [hsend.ofSpindle Spindle.pubs (fun _ _ _ => rfl)] at he
      exact hopen e he hm

end Sys2Proof.Laws
end

section
/-!
PROOFS. A batch applied at the subscriber's bank (R150): word by word, each of the bytes and the full/empty bit that its masks name.
-/
namespace Sys2Proof.Laws
open Sys2Proof Sys2Proof.Machine Sys2Proof.Claims Sys2Proof.Config

/-! ### Some bytes of one word (R127, R150) -/

/-- Bytes written one by one at offsets of an address. -/
theorem read_writes {m : Memory} (h : m.wf = true) (w : Nat) (g : Nat → Byte) (l : List Nat) (a : Nat) :
    (l.foldl (fun (m : Memory) i => m.write (w + i) (g i)) m).read a = if w ≤ a ∧ a - w ∈ l then g (a - w) else m.read a := by
  induction l generalizing m with
  | nil => simp
  | cons i l ih =>
    rw [List.foldl_cons, ih (wf_write h _ _), read_write h]
    by_cases hl : w ≤ a ∧ a - w ∈ l
    · have hi : w ≤ a ∧ a - w ∈ i :: l := ⟨hl.1, List.mem_cons_of_mem _ hl.2⟩
      rw [if_pos hl, if_pos hi]
    · rw [if_neg hl]
      by_cases e : a = w + i
      · have hi : w ≤ a ∧ a - w ∈ i :: l := ⟨by omega, by rw [show a - w = i by omega]; exact List.mem_cons_self ..⟩
        rw [if_pos e, if_pos hi, show a - w = i by omega]
      · have hi : ¬ (w ≤ a ∧ a - w ∈ i :: l) := by
          rintro ⟨h1, h2⟩
          rcases List.mem_cons.mp h2 with h3 | h3
          · omega
          · exact hl ⟨h1, h3⟩
        rw [if_neg e, if_neg hi]

/-- The offsets that a mask of eight bits names. -/
def maskOffsets (bytes : Nat) : List Nat := (List.range 8).filter fun i => bytes / 2 ^ i % 2 == 1

theorem mem_maskOffsets {bytes i : Nat} : i ∈ maskOffsets bytes ↔ i < 8 ∧ bytes.testBit i = true := by
  rw [maskOffsets, List.mem_filter, List.mem_range, Nat.testBit_eq_decide_div_mod_eq, beq_iff_eq, decide_eq_true_iff]

section
variable (s : State) (w : Nat) (l : List (Nat × Nat)) (who : Nat)

theorem onlyBanks_storeMasked : OnlyBanks s (s.storeMasked w l who) := by
  refine OnlyBanks.trans ?_ (onlyForwards_forwardMask _ ..).onlyBanks
  split <;> exact .of_memory rfl

theorem storeMasked_mem : (s.storeMasked w l who).mem = l.foldl (fun (m : Memory) b => m.write (w + b.1) (BitVec.ofNat 8 b.2)) s.mem := by
  rw [State.storeMasked, (onlyForwards_forwardMask ..).mem]
  split <;> rfl

theorem full_storeMasked (a : Nat) : (s.storeMasked w l who).full a = s.full a := by
  rw [State.storeMasked, (onlyForwards_forwardMask ..).full]
  split <;> rfl
end

/-- What one word of a batch becomes: `bytes` masks its bytes, `fe` is its new bit where it is named. -/
structure WordApplied (s t : State) (w bytes : Nat) (fe : Option Bool) (v : Nat) : Prop where
  others : OnlyBanks s t
  canonical : t.mem.wf = true
  bytes : ∀ a, t.byte a = if w ≤ a ∧ a < w + 8 ∧ bytes.testBit (a - w) = true then BitVec.ofNat 8 (v / 256 ^ (a - w)) else s.byte a
  full : ∀ a, t.full a = if wordOf a = w then fe.getD (s.full a) else s.full a

/-- The bytes of a batch's word, before its bit. -/
def batchStore (s : State) (w bytes v who : Nat) : State :=
  if (maskOffsets bytes).isEmpty then s else s.storeMasked w ((maskOffsets bytes).map fun i => (i, v / 256 ^ i % 256)) who

theorem batchWord_eq (s : State) (w bytes : Nat) (fe : Option Bool) (v who : Nat) : s.batchWord w bytes fe v who =
    match fe with
    | some true => (batchStore s w bytes v who).fill w who
    | some false => (batchStore s w bytes v who).empty w who
    | none => batchStore s w bytes v who := by
  unfold State.batchWord batchStore maskOffsets
  simp only [List.isEmpty_map] <;> rfl

theorem wordApplied_store {s : State} (hwf : s.mem.wf = true) (w bytes v who : Nat) : WordApplied s (batchStore s w bytes v who) w bytes none v := by
  have hmask (a : Nat) : (w ≤ a ∧ a - w ∈ maskOffsets bytes) ↔ (w ≤ a ∧ a < w + 8 ∧ bytes.testBit (a - w) = true) := by
    rw [mem_maskOffsets]
    exact ⟨fun ⟨h1, h2, h3⟩ => ⟨h1, by omega, h3⟩, fun ⟨h1, h2, h3⟩ => ⟨h1, by omega, h3⟩⟩
  unfold batchStore
  split
  case isTrue hnone =>
    refine ⟨OnlyBanks.refl s, hwf, fun a => ?_, fun a => by split <;> rfl⟩
    rw [if_neg]
    rw [← hmask, List.isEmpty_iff.mp hnone]
    exact fun h => absurd h.2 (List.not_mem_nil)
  case isFalse =>
    have hmem : (s.storeMasked w ((maskOffsets bytes).map fun i => (i, v / 256 ^ i % 256)) who).mem =
        (maskOffsets bytes).foldl (fun (m : Memory) i => m.write (w + i) (BitVec.ofNat 8 (v / 256 ^ i % 256))) s.mem := by
      rw [storeMasked_mem, List.foldl_map]
    refine ⟨onlyBanks_storeMasked .., ?_, fun a => ?_, fun a => by rw [full_storeMasked]; split <;> rfl⟩
    · rw [hmem]
      exact wf_writes _ (fun i => w + i) (fun i => BitVec.ofNat 8 (v / 256 ^ i % 256)) hwf
    · have hcut (x : Nat) : BitVec.ofNat 8 (x % 256) = BitVec.ofNat 8 x := BitVec.eq_of_toNat_eq (by simp)
      rw [State.byte, hmem, read_writes hwf]
      simp only [hmask, hcut]
      rfl

/-- A word at which nobody waits is applied. -/
theorem wordApplied_batchWord {s : State} (hwf : s.mem.wf = true) {w : Nat} (hw : w % 8 = 0) (hn : NoWaiter s w) (bytes : Nat) (fe : Option Bool)
    (v who : Nat) : WordApplied s (s.batchWord w bytes fe v who) w bytes fe v := by
  have hst := wordApplied_store hwf w bytes v who
  have hword : wordOf w = w := by unfold wordOf; omega
  have hn' := hst.others.noWaiter hn
  rw [batchWord_eq]
  match fe with
  | none => exact hst
  | some true =>
    dsimp only
    rw [fill_of_noWaiter hn']
    refine ⟨hst.others.trans (onlyBanks_changeFE ..), by rw [changeFE_mem]; exact hst.canonical, fun a => ?_, fun a => ?_⟩
    · rw [State.byte, changeFE_mem]; exact hst.bytes a
    · rw [full_changeFE, hword, hst.full]; split <;> rfl
  | some false =>
    dsimp only
    obtain ⟨hbanks, hmem, -, hfull⟩ := empty_facts hn' who
    refine ⟨hst.others.trans hbanks, by rw [hmem]; exact hst.canonical, fun a => ?_, fun a => ?_⟩
    · rw [State.byte, hmem]; exact hst.bytes a
    · rw [hfull, hword, hst.full]; split <;> rfl

/-! ### The words of the line (R150) -/

/-- What a batch carries. -/
structure Cargo where
  line : Nat
  bytes : Nat
  fes : Nat
  fev : Nat
  data : List Nat

/-- The first `n` words of a batch are applied. -/
structure WordsApplied (s t : State) (c : Cargo) (n : Nat) : Prop where
  others : OnlyBanks s t
  canonical : t.mem.wf = true
  bytes : ∀ a, t.byte a = if c.line ≤ a ∧ a < c.line + 8 * n ∧ c.bytes.testBit (a - c.line) = true
    then BitVec.ofNat 8 (c.data.getD ((a - c.line) / 8) 0 / 256 ^ ((a - c.line) % 8)) else s.byte a
  full : ∀ a, t.full a = if c.line ≤ a ∧ a < c.line + 8 * n ∧ c.fes.testBit ((a - c.line) / 8) = true
    then c.fev.testBit ((a - c.line) / 8) else s.full a

/-- One word of a batch as its event applies it. -/
def Cargo.apply (c : Cargo) (who : Nat) (s : State) (i : Nat) : State :=
  s.batchWord (c.line + 8 * i) (c.bytes / 2 ^ (8 * i) % 256) (if c.fes / 2 ^ i % 2 = 1 then some (c.fev / 2 ^ i % 2 == 1) else none) (c.data.getD i 0) who

theorem wordsApplied {s : State} {c : Cargo} (hwf : s.mem.wf = true) (hline : c.line % 64 = 0) (who : Nat) (n : Nat)
    (hn : ∀ i, i < n → NoWaiter s (c.line + 8 * i)) : WordsApplied s ((List.range n).foldl (c.apply who) s) c n := by
  induction n with
  | zero => exact ⟨OnlyBanks.refl s, hwf, fun a => (if_neg (by omega)).symm, fun a => (if_neg (by omega)).symm⟩
  | succ n ih =>
    have ht := ih fun i hi => hn i (Nat.lt_succ_of_lt hi)
    rw [List.range_succ, List.foldl_append, List.foldl_cons, List.foldl_nil]
    generalize (List.range n).foldl (c.apply who) s = t at ht
    have hw := wordApplied_batchWord ht.canonical (w := c.line + 8 * n) (by omega) (ht.others.noWaiter (hn n (Nat.lt_succ_self n)))
      (c.bytes / 2 ^ (8 * n) % 256) (if c.fes / 2 ^ n % 2 = 1 then some (c.fev / 2 ^ n % 2 == 1) else none) (c.data.getD n 0) who
    refine ⟨ht.others.trans hw.others, hw.canonical, fun a => ?_, fun a => ?_⟩
    · have hbit (h1 : c.line + 8 * n ≤ a) (h2 : a < c.line + 8 * n + 8) :
          (c.bytes / 2 ^ (8 * n) % 256).testBit (a - (c.line + 8 * n)) = c.bytes.testBit (a - c.line) := by
        rw [show (256 : Nat) = 2 ^ 8 from rfl, Nat.testBit_mod_two_pow, Nat.testBit_div_two_pow, decide_eq_true (by omega), Bool.true_and]
        congr 1; omega
      rw [Cargo.apply, hw.bytes, ht.bytes]
      by_cases hin : c.line + 8 * n ≤ a ∧ a < c.line + 8 * n + 8
      · obtain ⟨h1, h2⟩ := hin
        have hdiv : (a - c.line) / 8 = n := by omega
        have hmod : (a - c.line) % 8 = a - (c.line + 8 * n) := by omega
        rw [hbit h1 h2, hdiv, hmod, if_neg (c := c.line ≤ a ∧ a < c.line + 8 * n ∧ _) (fun h => absurd h.2.1 (by omega))]
        have hiff : (c.line + 8 * n ≤ a ∧ a < c.line + 8 * n + 8 ∧ c.bytes.testBit (a - c.line) = true) ↔
            (c.line ≤ a ∧ a < c.line + 8 * (n + 1) ∧ c.bytes.testBit (a - c.line) = true) :=
          ⟨fun ⟨_, _, h⟩ => ⟨by omega, by omega, h⟩, fun ⟨_, _, h⟩ => ⟨by omega, by omega, h⟩⟩
        simp only [hiff]
      · rw [if_neg (c := c.line + 8 * n ≤ a ∧ a < c.line + 8 * n + 8 ∧ _) (fun h => hin ⟨h.1, h.2.1⟩)]
        have hiff : (c.line ≤ a ∧ a < c.line + 8 * n ∧ c.bytes.testBit (a - c.line) = true) ↔
            (c.line ≤ a ∧ a < c.line + 8 * (n + 1) ∧ c.bytes.testBit (a - c.line) = true) :=
          ⟨fun ⟨_, _, h⟩ => ⟨by omega, by omega, h⟩, fun ⟨_, _, h⟩ => ⟨by omega, by omega, h⟩⟩
        simp only [hiff]
    · rw [Cargo.apply, hw.full, ht.full]
      by_cases hin : wordOf a = c.line + 8 * n
      · have hdiv : (a - c.line) / 8 = n := by unfold wordOf at hin; omega
        have hold : ¬ (c.line ≤ a ∧ a < c.line + 8 * n ∧ c.fes.testBit n = true) := fun h => by unfold wordOf at hin; have := h.2.1; omega
        have hiff : (c.line ≤ a ∧ a < c.line + 8 * (n + 1) ∧ c.fes.testBit n = true) ↔ c.fes / 2 ^ n % 2 = 1 := by
          rw [Nat.testBit_eq_decide_div_mod_eq, decide_eq_true_iff]
          unfold wordOf at hin
          exact ⟨fun h => h.2.2, fun h => ⟨by omega, by omega, h⟩⟩
        have hval : (c.fev / 2 ^ n % 2 == 1) = c.fev.testBit n := by rw [Nat.testBit_eq_decide_div_mod_eq]; rfl
        rw [if_pos hin, hdiv, if_neg hold, hval]
        simp only [hiff]
        split <;> rfl
      · have hiff : (c.line ≤ a ∧ a < c.line + 8 * n ∧ c.fes.testBit ((a - c.line) / 8) = true) ↔
            (c.line ≤ a ∧ a < c.line + 8 * (n + 1) ∧ c.fes.testBit ((a - c.line) / 8) = true) := by
          unfold wordOf at hin
          exact ⟨fun ⟨_, _, h⟩ => ⟨by omega, by omega, h⟩, fun ⟨_, _, h⟩ => ⟨by omega, by omega, h⟩⟩
        rw [if_neg hin]
        simp only [hiff]

/-! ### The event (R150) -/

/-- The word that an aligned address of eight bytes touches. -/
theorem poisoned_word {s : State} {w : Nat} (hw : w % 8 = 0) : s.poisoned w 8 = s.poison.contains w := by
  have hwords : wordsOf w 8 = [w] := by
    have hroom : (w % 8 + 8 + 7) / 8 = 1 := by omega
    have hfirst : wordOf w = w := by unfold wordOf; omega
    unfold wordsOf
    rw [hroom, hfirst]
    rfl
  rw [State.poisoned, hwords]
  simp

theorem batchPoison_none {s : State} {line : Nat} (hline : line % 64 = 0) (h : ∀ i, i < 8 → s.poison.contains (line + 8 * i) = false) (bytes : Nat) :
    s.batchPoison line bytes = none := by
  rw [State.batchPoison, Option.map_eq_none_iff, List.find?_eq_none]
  intro i hi
  have hclean : s.poisoned (line + 8 * i) 8 = false := by rw [poisoned_word (by omega)]; exact h i (List.mem_range.mp hi)
  simp [hclean]

/-- A batch at its bank, where no word of its line is poisoned. -/
theorem batchIn_eq {s : State} {m : Msg} {line bytes fes fev : Nat} {data : List Nat} {entry : Nat} {ws : List Nat} {last : Bool}
    (hb : m.body = .batch line bytes fes fev data entry ws last) (hclean : s.batchPoison line bytes = none) :
    ∃ w : State, w = ((List.range 8).foldl (Cargo.apply ⟨line, bytes, fes, fev, data⟩ (ws.headD (2 ^ 60))) s).send
        { m.answer (.batchAck entry m.id) with cls := .update } ∧
      s.batchIn m = (if last && w.awaits m then w.complete m.key 0 else w).wakeFences := by
  refine ⟨_, rfl, ?_⟩
  unfold State.batchIn
  rw [hb]
  dsimp only
  rw [hclean]
  rfl

theorem batchesAreApplied : BatchesAreApplied := by
  intro s m line bytes fes fev data entry ws last ha hb hwf hline hwait hpoison
  have hu := onlyMessages_arrived s m
  have hnw (i : Nat) (hi : i < 8) : NoWaiter (arrived s m) (line + 8 * i) := by
    intro x hx
    rw [hu.ofSpindle Spindle.waiters (fun _ _ _ => rfl)] at hx
    exact hwait i hi x hx
  have happ := wordsApplied (s := arrived s m) (c := ⟨line, bytes, fes, fev, data⟩) (by rw [hu.mem]; exact hwf) hline (ws.headD (2 ^ 60)) 8 hnw
  have hclean : (arrived s m).batchPoison line bytes = none := batchPoison_none hline (by rw [hu.poison]; exact hpoison) bytes
  obtain ⟨w, hw, hbatch⟩ := batchIn_eq hb hclean
  generalize (List.range 8).foldl (Cargo.apply ⟨line, bytes, fes, fev, data⟩ (ws.headD (2 ^ 60))) (arrived s m) = v at happ hw
  obtain ⟨z, hz⟩ : ∃ z : State, z = if last && w.awaits m then w.complete m.key 0 else w := ⟨_, rfl⟩
  rw [← hz] at hbatch
  have hexec : exec (.batchApply m.id) s = .next z.wakeFences :=
    congrArg Host.Outcome.next ((onArrive_eq _ ha (by rw [hb])).trans hbatch)
  have hmove : ThreadsMove w z.wakeFences := .trans (by rw [hz]; exact .ite (.complete w m.key 0) (.refl w)) (.wakeFences z)
  have hanswer : Replied w m (.batchAck entry m.id) := by rw [hw]; exact replied_update v m _
  have hbyte (a : Nat) : z.wakeFences.byte a = v.byte a :=
    (hmove.sameMemory.bytes a).trans (by rw [hw]; exact (onlyMessages_send v _).sameMemory.bytes a)
  have hfull (a : Nat) : z.wakeFences.full a = v.full a :=
    (hmove.sameMemory.full a).trans (by rw [hw]; exact (onlyMessages_send v _).sameMemory.full a)
  have hbyte0 (a : Nat) : (arrived s m).byte a = s.byte a := hu.sameMemory.bytes a
  have hfull0 (a : Nat) : (arrived s m).full a = s.full a := hu.sameMemory.full a
  have hreplied : Replied z.wakeFences m (.batchAck entry m.id) := hmove.replied (fun _ h => by cases h) hanswer
  refine ⟨_, hexec, hreplied, fun i j hi hj => ?_, fun a hout => ⟨?_, ?_⟩, fun i hi => ?_⟩
  · have hin : line ≤ line + 8 * i + j ∧ line + 8 * i + j < line + 8 * 8 := by omega
    have hoff : line + 8 * i + j - line = 8 * i + j := by omega
    have hdiv : (8 * i + j) / 8 = i := by omega
    have hmod : (8 * i + j) % 8 = j := by omega
    rw [hbyte, happ.bytes, hbyte0]
    simp only [hin, hoff, hdiv, hmod, true_and]
  · rw [hbyte, happ.bytes, hbyte0, if_neg]
    exact fun h => hout.elim (absurd h.1 <| Nat.not_le.mpr ·) (absurd h.2.1 <| Nat.not_lt.mpr ·)
  · rw [hfull, happ.full, hfull0, if_neg]
    exact fun h => hout.elim (absurd h.1 <| Nat.not_le.mpr ·) (absurd h.2.1 <| Nat.not_lt.mpr ·)
  · have hin : line ≤ line + 8 * i ∧ line + 8 * i < line + 8 * 8 := by omega
    have hoff : (line + 8 * i - line) / 8 = i := by omega
    rw [hfull, happ.full, hfull0]
    simp only [hin, hoff, true_and]

/-- Settles O42: each event of a subscription by what it sends and what it changes of its entries. -/
theorem subscriptionsForwardTheirLines : Obligations.SubscriptionsForwardTheirLines :=
  ⟨publishersSubscribe, batchesCloseInTime, batchesAreApplied, batchAnswersAreTaken, publishersDrain⟩

end Sys2Proof.Laws
end

section
/-!
PROOFS. Accesses at another spindle: the request to the home, the operation under REL, and the thread's own departure (R33, R34, R87, R116 to R120).
-/
namespace Sys2Proof.Laws
open Sys2Proof Sys2Proof.Machine Sys2Proof.Claims Sys2Proof.Config

namespace OnlyTlbs
variable {s t : State} (h : OnlyTlbs s t)
include h

theorem pinned (k : Nat) : t.pinned k = s.pinned k := by
  have hj (n : Nat) : (t.spindle n).job = (s.spindle n).job := h.ofSpindle Spindle.job (fun _ _ => rfl) n
  have he : t.engines = s.engines := by obtain ⟨⟨l, e⟩, -, -⟩ := h; rw [e]
  simp only [State.pinned, State.copyPending, State.jobAt, h.ctx, h.job, h.jobNoAt, he, hj]

theorem noRels (hr : s.me.rels = [] ∧ s.me.unit.rel = none) (fa : Nat) (reads : Bool) : t.mustWait fa reads = false :=
  mustWait_of_noRels (by rw [h.me]; exact hr) fa reads

/-- What a context asks after the touch of its page is what it asks. -/
theorem asks {u : State} {cls : MeshClass} {dst : Nat} {b : Body} (ha : Asks t u cls dst b) : Asks s u cls dst b := by
  obtain ⟨m, hm, hcls, hsrc, hdst, hjob, hctx, htok, hb⟩ := ha
  exact ⟨m, h.msgs ▸ hm, hcls, h.here ▸ hsrc, hdst, h.myJobNo ▸ hjob, h.cur ▸ hctx, h.nextTok ▸ htok, hb⟩
end OnlyTlbs

/-! ### Requests (R116, R118) -/

/-- The wait for a request of an instruction is for the token that the request carries. -/
theorem request_tok {u : State} (hr : u.me.unit.rel = none) (why : Nat) (va : Word) (fa : Nat) (b : Body) (ko : Kont) (dest : Option (Reg × Nat × Bool × Bool)) :
    (u.request why va fa b ko dest).me.tok = u.nextTok := by
  simp only [State.request, State.requestVia, hr]
  rw [State.parkFor, me_modMe]
  rfl

section
variable {s u : State}

/-- A request made after the touch of the page. -/
theorem request_of_touched (h : OnlyTlbs s u) (hr : s.me.unit.rel = none) (why : Nat) (va : Word) (fa : Nat) (b : Body) (ko : Kont)
    (dest : Option (Reg × Nat × Bool × Bool)) :
    Waits s (u.request why va fa b ko dest) why ∧ Asks s (u.request why va fa b ko dest) .request (faSp fa) b ∧
      (u.request why va fa b ko dest).me.tok = s.nextTok := by
  have hr' : u.me.unit.rel = none := by rw [h.me]; exact hr
  obtain ⟨hw, ha⟩ := request_waits hr' why va fa b ko dest
  exact ⟨waits_of_same hw h.ctx h.cur h.sameMemory, h.asks ha, (request_tok hr' ..).trans h.nextTok⟩
end

section
variable {s : State} {ea : Word} {n fa : Nat}

/-- LD at another spindle, its page found, comes to its request or to the migration of its thread. -/
theorem ld_away (h : Away s ea needR n fa) (d : Reg) (sx : Bool) : s.ld d ea n sx =
    if s.me.unit.far || s.pinned s.cur then (s.touch ea).request 1 ea fa (.read fa n 0) (.load d n sx) (some (d, n, sx, false))
    else (s.touch ea).migrate ea fa 0 n sx d := by
  obtain ⟨p, hx, hk, -⟩ := h.page
  have hu := OnlyTlbs.touch s ea
  have hwin : s.me.inWindow ea = false := (xlate_eq_ok_iff.mp hx).1.resolve_left nofun
  have hhome : ¬ faSp fa = (s.touch ea).here := by rw [hu.here]; exact h.home
  simp only [State.ld, h.aligned, hwin, xlate_plainNeed hk hx, State.onChk, State.loadAt, hu.noRels h.rels, hhome, PageEntry.akind, hk, hu.me, hu.cur, hu.pinned,
    bne_self_eq_false, Bool.false_and, Bool.false_eq_true, if_false, if_true]

/-- ST whose page is found at another spindle comes to its request, unless it must wait. -/
theorem st_away (ha : ea.toNat % n = 0) {p : PageEntry} (hx : s.xlate ea needW = .ok (fa, p)) (hk : p.kind = 0) (hh : faSp fa ≠ s.here)
    (hw : (s.touch ea).mustWait fa false = false) (d : Reg) :
    s.st d ea n = (s.touch ea).request 2 ea fa (.write fa n (lowBytes s d n) 0) .advance none := by
  have hwin : s.me.inWindow ea = false := (xlate_eq_ok_iff.mp hx).1.resolve_left nofun
  have hhome : ¬ faSp fa = (s.touch ea).here := by rw [touch_here]; exact hh
  have hlow : (s.me.reg d).toNat % 2 ^ (8 * n) = lowBytes s d n := by rw [lowBytes, Nat.pow_mul]
  simp only [State.st, ha, hwin, xlate_plainNeed hk hx, State.onChk, State.storeAt, hw, hhome, PageEntry.akind, hk, hlow,
    bne_self_eq_false, Bool.false_and, Bool.false_eq_true, if_false, if_true]

/-- A full/empty form at another spindle comes to its request. -/
theorem sync_away {op : Nat} (h : Away s ea (syncNeed op) n fa) (d : Reg) (data : Nat) : s.sync op d ea n data =
    (s.touch ea).request (if op ≤ opFEQ then 1 else 2) ea fa (.sync fa n op (data % 2 ^ (8 * n))) (if op ≤ opFEQ then .load d n false else .advance)
      (if op ≤ opFEQ then some (d, n, false, false) else none) := by
  obtain ⟨p, hx, -, -⟩ := h.page
  have hu := OnlyTlbs.touch s ea
  have hhome : ¬ faSp fa = (s.touch ea).here := by rw [hu.here]; exact h.home
  simp only [State.sync, h.aligned, hx, State.onChk, State.syncAt, hu.noRels h.rels, hhome, decide_eq_true_eq,
    bne_self_eq_false, Bool.false_eq_true, if_false]

/-- An atomic at another spindle comes to its request. -/
theorem amo_away {a : Reg} {w : Bool} (h : Away s (s.me.reg a) needRW (wBytes w) fa) (op : Nat) (d b c : Reg) : s.amo op d a b c w =
    (s.touch (s.me.reg a)).request 2 (s.me.reg a) fa
      (.atomic fa (wBytes w) op ((s.me.reg b).toNat % 2 ^ (8 * wBytes w)) ((s.me.reg c).toNat % 2 ^ (8 * wBytes w)))
      (.atomic d (wBytes w) (decide (10 ≤ op))) (some (d, wBytes w, !decide (10 ≤ op), true)) := by
  obtain ⟨p, hx, -, -⟩ := h.page
  have hu := OnlyTlbs.touch s (s.me.reg a)
  have hhome : ¬ faSp fa = (s.touch (s.me.reg a)).here := by rw [hu.here]; exact h.home
  simp only [State.amo, h.aligned, hx, State.onChk, hu.noRels h.rels, hhome, bne_self_eq_false, Bool.false_eq_true, if_false]
end

theorem wBytes_eq (w : Bool) : wBytes w = if w then 4 else 8 := by cases w <;> rfl

/-! ### Under REL (R120) -/

/-- The operation that a store under REL leaves outstanding. -/
def storeRel (s : State) (fa : Nat) (va : Word) : RelOp :=
  { tok := s.nextTok, word := wordOf fa, pc := s.me.unit.pc, va := va, acq := s.me.relAcquire, sentAt := s.now }

/-- A store under REL asks its home and goes on. -/
theorem request_rel {u : State} {o : BitVec 2} (hr : u.me.unit.rel = some o) (va : Word) (fa : Nat) (b : Body) (ko : Kont) :
    let t := u.request 2 va fa b ko none
    Asks u t .request (faSp fa) b ∧ t.me.st = u.me.st ∧ t.me.pc = u.me.unit.next ∧ t.me.g = u.me.g ∧ t.me.rels = u.me.rels ++ [storeRel u fa va] ∧
      SameMemory u t := by
  intro t
  let m : Msg := { id := 0, cls := .request, src := u.here, dst := faSp fa, job := u.myJobNo, ctx := keyCtx u.cur, tok := u.nextTok, va := va,
                   who := u.myWho, born := u.me.born, rel := true, body := b }
  let v := u.takeTok.2.send m
  have hv := onlyMessages_send u.takeTok.2 m
  have ht : t = v.retire fun c => { c with rels := c.rels ++
      [{ tok := u.nextTok, word := wordOf fa, pc := c.unit.pc, va := va, acq := c.relAcquire, sentAt := u.now }] } := by
    simp only [t, State.request, State.requestVia, hr]
    rfl
  have hme : v.me = u.me := send_me u.takeTok.2 m
  have hmem : SameMemory u v := sameMemory_trans (t := u.takeTok.2) (sameMemory_of_eq rfl rfl rfl) hv.sameMemory
  rw [ht]
  refine ⟨⟨{ m with id := u.nextMsg }, send_msgs u.takeTok.2 m, rfl, rfl, rfl, rfl, rfl, rfl, rfl⟩, ?_⟩
  simp only [me_retire, hme]
  exact ⟨rfl, rfl, rfl, rfl, sameMemory_trans hmem (sameMemory_modMe v _)⟩

/-! ### The obligation's first part -/

theorem requestsLeaveForTheirHome : RequestsLeaveForTheirHome := by
  intro s d a b c sz off w fa n m e asks
  have hu := OnlyTlbs.touch s e
  have hlow (r : Reg) (k : Nat) : (s.me.reg r).toNat % 2 ^ (8 * k) = lowBytes s r k := by rw [lowBytes, Nat.pow_mul]
  refine ⟨fun h hstay => ?_, fun h => ⟨?_, ?_⟩, fun h => ?_, fun h => ?_, fun o ha ⟨p, hx, hk⟩ hh hrels hrel => ?_⟩
  · have hpin : (s.me.unit.far || s.pinned s.cur) = true := by rcases hstay with h | h <;> simp [h]
    exact ⟨_, congrArg Host.Outcome.next ((ld_away h d false).trans (if_pos hpin)), request_of_touched hu h.rels.2 ..⟩
  · obtain ⟨p, hx, hk, -⟩ := h.page
    exact ⟨_, congrArg Host.Outcome.next (st_away h.aligned hx hk h.home (hu.noRels h.rels ..) d), request_of_touched hu h.rels.2 ..⟩
  · refine ⟨_, congrArg Host.Outcome.next (sync_away (op := opSTF) h d (s.me.reg d).toNat), ?_⟩
    rw [hlow d n]
    exact request_of_touched hu h.rels.2 ..
  · exact ⟨_, congrArg Host.Outcome.next (sync_away (op := opLDF) h d 0), by rw [Nat.zero_mod]; exact request_of_touched hu h.rels.2 ..⟩
  · have hm : wBytes w = m := wBytes_eq w
    refine ⟨_, congrArg Host.Outcome.next (amo_away (hm ▸ h) 9 d b c), ?_⟩
    rw [hm, hlow b m, hlow c m]
    exact request_of_touched (OnlyTlbs.touch s (s.me.reg a)) h.rels.2 ..
  · have hw : (s.touch e).mustWait fa false = false := by simp [State.mustWait, hu.me, hrels]
    have hrel' : (s.touch e).me.unit.rel = some o := by rw [hu.me]; exact hrel
    obtain ⟨hask, hst, hpc, hg, hr, hmem⟩ := request_rel hrel' e fa (.write fa n (lowBytes s d n) 0) .advance
    have hacq : s.me.relAcquire = o.getLsbD 0 := by
      rw [Context.relAcquire, hrel]
      simp only [BitVec.getLsbD, Nat.testBit_zero]
      rfl
    refine ⟨_, congrArg Host.Outcome.next (st_away ha hx hk hh hw d), hu.asks hask, by rw [hst, hu.me], by rw [hpc, hu.me], by rw [hg, hu.me], ?_,
      sameMemory_trans hu.sameMemory hmem⟩
    rw [hr, storeRel, hu.me, hu.nextTok, hu.now, hrels, hacq]
    rfl

/-! ### Departures (R33, R34, R87) -/

/-- The message of a thread that departs with its load. -/
def departure (s : State) (fa n : Nat) (sx : Bool) (d : Reg) : Migrant :=
  { image := migrantImage s.me, fa := fa, n := n, sx := sx, d := d, carries := true, kind := 0, job := s.myJobNo }

/-- A thread without REL operations departs: its message, and its context DEPARTING. -/
theorem migrate_departs {u : State} (hr : u.me.rels = []) (va : Word) (fa n : Nat) (sx : Bool) (d : Reg) :
    let t := u.migrate va fa 0 n sx d
    t.me.st = .departing ∧ t.me.park = 13 ∧ t.me.g = u.me.g ∧ SameMemory u t ∧ (∀ k, k ≠ u.cur → t.ctx k = u.ctx k) ∧
      Asks u t .migrate (faSp fa) (.migrate (departure u fa n sx d)) := by
  intro t
  let m : Msg := { id := 0, cls := .migrate, src := u.here, dst := faSp fa, job := u.myJobNo, ctx := keyCtx u.cur, tok := u.nextTok, va := va, who := u.myWho,
                   body := .migrate (departure u fa n sx d) }
  let v := u.takeTok.2.send m
  have hv := onlyMessages_send u.takeTok.2 m
  have ht : t = v.modMe fun c => { c with st := .departing, park := 13, tok := u.nextTok, again := false } := by
    simp only [t, State.migrate, hr, List.isEmpty_nil, Bool.not_true, Bool.false_eq_true, if_false]
    rfl
  have hme : v.me = u.me := send_me u.takeTok.2 m
  have hmem : SameMemory u v := sameMemory_trans (t := u.takeTok.2) (sameMemory_of_eq rfl rfl rfl) hv.sameMemory
  rw [ht]
  refine ⟨by rw [me_modMe], by rw [me_modMe], by rw [me_modMe, hme], sameMemory_trans hmem (sameMemory_modMe v _), fun k hk => ?_,
    { m with id := u.nextMsg }, send_msgs u.takeTok.2 m, rfl, rfl, rfl, rfl, rfl, rfl, rfl⟩
  exact (ctx_modMe_ne v _ (by rw [hv.cur]; exact hk)).trans (hv.ctx k)

/-- The tags of a departing thread's vector registers. -/
theorem laneOf_pretag (c : Context) (r : VReg) : laneOf (migrantImage c).pretag.toNat 4 r.toNat = c.vtag r := by
  have hlen : 4 * (c.tag.toList.map (·.toNat)).length = 32 := by simp
  have hr := r.isLt
  rw [migrantImage, toNat_packLanes hlen, laneOf_packLanes, Context.vtag, List.getD_eq_getElem _ _ (by simpa using hr), List.getElem_map, Vector.getElem_toList]
  exact Nat.mod_eq_of_lt (BitVec.isLt _)

theorem remoteLoadsMigrate : RemoteLoadsMigrate := by
  intro s d a sz off fa n e h hfar hpin
  have hu := OnlyTlbs.touch s e
  have hgo : s.ld d e n false = (s.touch e).migrate e fa 0 n false d := (ld_away h d false).trans (if_neg (by simp [hfar, hpin]))
  obtain ⟨hst, hpark, hg, hmem, hctx, hask⟩ := migrate_departs (u := s.touch e) (by rw [hu.me]; exact h.rels.1) e fa n false d
  have hme : (s.touch e).me = s.me := hu.me
  refine ⟨_, _, congrArg Host.Outcome.next hgo, hst, hpark, by rw [hg, hme], sameMemory_trans hu.sameMemory hmem,
    fun k hk => (hctx k (by rw [hu.cur]; exact hk)).trans (hu.ctx k), hu.asks hask, rfl, rfl, rfl, rfl, rfl, hu.myJobNo, ?_⟩
  rw [departure, hme]
  exact ⟨rfl, rfl, rfl, rfl, rfl, rfl, rfl, rfl, laneOf_pretag s.me⟩

/-! ### MIGR (R87) -/

/-- A unit that ends after the touch of its page. -/
theorem onlyTlb_touch_retire (s : State) (va : Word) : OnlyTlb s ((s.touch va).retire id) where
  rest := by obtain ⟨l, e⟩ := touch_eq s va; rw [e]; rfl
  contexts k hk := by rw [ctx_retire_ne _ _ (by rwa [touch_cur]), touch_ctx]
  spindles n hn := touch_spindle_ne s va hn
  here := touch_spindle_here s va
  bytes a := congrArg (Memory.read · a) (touch_mem s va)

section
variable {s : State} {a : Reg} {fa : Nat} {p : PageEntry}

/-- MIGR whose page is found. -/
theorem migr_eq (hx : s.xlate (s.me.reg a &&& ~~~(7 : Word)) needR = .ok (fa, p)) (d : Reg) : s.migr d a =
    let u := s.touch (s.me.reg a &&& ~~~(7 : Word))
    if u.pinned u.cur then u.retire id else if u.mustWait fa true then u.parkWait fa true else if faSp fa = u.here then u.loadHere d fa 0 8 false
    else u.migrate (s.me.reg a &&& ~~~(7 : Word)) fa 0 8 false d := by
  simp only [State.migr, hx, State.onChk]
end

theorem migrMovesItsThread : MigrMovesItsThread := by
  intro s d a fa va
  have hu := OnlyTlbs.touch s va
  refine ⟨fun hpin h hp => ?_, fun hpin h => ?_, fun hpin h => ?_⟩
  · obtain ⟨p, hx, -, -⟩ := h.page
    have hp' : (s.touch va).poisoned fa 8 = false := by simpa [State.poisoned] using hp
    have hread : (s.touch va).read fa 8 = s.read fa 8 := by simp [State.read]
    have hval : extend (s.read fa 8) 8 false = BitVec.ofNat 64 (s.read fa 8) := by rw [extend_eq_widen, widen]; simp
    have hgo : s.migr d a = (s.touch va).setG d (BitVec.ofNat 64 (s.read fa 8)) := by
      rw [migr_eq hx]
      simp only [va, hu.pinned, hu.cur, hpin, hu.noRels h.rels, hu.here, h.home, State.loadHere, State.pagePoison, State.pageRead, hp', hread, hval,
        Bool.false_eq_true, if_false, if_true, Bool.and_false]
    exact ⟨_, congrArg Host.Outcome.next hgo, loaded_touch_setG s va d _⟩
  · obtain ⟨p, hx⟩ : ∃ p, s.xlate va needR = .ok (fa, p) := by
      rcases h with h | h <;> exact h.page.imp fun _ hq => hq.1
    have hgo : s.migr d a = (s.touch va).retire id := (migr_eq hx d).trans (if_pos (by rw [hu.pinned, hu.cur]; exact hpin))
    exact ⟨_, congrArg Host.Outcome.next hgo, onlyTlb_touch_retire s va, wentOn_retire hu.ctx hu.cur⟩
  · obtain ⟨p, hx, -, -⟩ := h.page
    have hgo : s.migr d a = (s.touch va).migrate va fa 0 8 false d := by
      rw [migr_eq hx]
      simp only [va, hu.pinned, hu.cur, hpin, hu.noRels h.rels, hu.here, h.home, Bool.false_eq_true, if_false]
    obtain ⟨hst, -, -, -, -, hask⟩ := migrate_departs (u := s.touch va) (by rw [hu.me]; exact h.rels.1) va fa 8 false d
    refine ⟨_, _, congrArg Host.Outcome.next hgo, hst, hu.asks hask, ?_⟩
    rw [departure, hu.me]
    exact ⟨rfl, rfl, rfl, rfl, rfl⟩

/-- Settles O25: past the touch of its page an access comes to one request, or to one departure. -/
theorem remoteAccessesAskTheirHome : Obligations.RemoteAccessesAskTheirHome :=
  ⟨requestsLeaveForTheirHome, remoteLoadsMigrate, migrMovesItsThread⟩

end Sys2Proof.Laws
end

section
/-!
PROOFS. The checks before a memory access (R123, R124, R151, R241): each form that fails one traps, and nothing of it is performed.
-/
namespace Sys2Proof.Laws
open Sys2Proof Sys2Proof.Machine Sys2Proof.Claims Sys2Proof.Config

/-! ### Scalar forms: alignment (R123) -/

section
variable {s : State} {ea : Word} {n : Nat}

theorem ld_misaligned (h : ea.toNat % n ≠ 0) (d : Reg) (sx : Bool) : s.ld d ea n sx = s.trap cALIGN ea := if_pos (bne_iff_ne.mpr h)
theorem st_misaligned (h : ea.toNat % n ≠ 0) (d : Reg) : s.st d ea n = s.trap cALIGN ea := if_pos (bne_iff_ne.mpr h)
theorem sync_misaligned (h : ea.toNat % n ≠ 0) (op : Nat) (d : Reg) (data : Nat) : s.sync op d ea n data = s.trap cALIGN ea := if_pos (bne_iff_ne.mpr h)
theorem amo_misaligned {a : Reg} {w : Bool} (h : (s.me.reg a).toNat % (if w then 4 else 8) ≠ 0) (op : Nat) (d b c : Reg) :
    s.amo op d a b c w = s.trap cALIGN (s.me.reg a) := if_pos (bne_iff_ne.mpr (by rw [wBytes_eq]; exact h))
theorem dup_misaligned {a : Reg} {sz : Nat} (h : (s.me.reg a).toNat % 2 ^ sz ≠ 0) (op : Nat) (b : Reg) :
    s.dup op sz a b 0 = s.trap cALIGN (s.me.reg a) := by
  simp [State.dup, h]

/-! ### Scalar forms: the page and the copy region (R123, R124, R151) -/

/-- The address that a failed translation reports is its own. -/
theorem xlate_trap_addr {need : Need} {cause : Nat} {addr : Word} (h : s.xlate ea need = .trap cause addr) : addr = ea := by
  unfold State.xlate at h
  split at h
  · cases h; rfl
  · split at h
    · cases h; rfl
    · split at h
      · cases h
      · split at h <;> cases h
        rfl

/-- A page that the TLB does not hold is walked for, whatever the access needs. -/
theorem xlate_walk {need : Need} {addr : Word} (hx : need.x = false) (h : s.xlate ea need = .walk addr) (m : Need) (hm : m.x = false) :
    addr = ea ∧ s.xlate ea m = .walk ea := by
  unfold State.xlate at h ⊢
  rw [hx] at h
  rw [hm]
  split at h
  · cases h
  case isFalse hwin =>
    rw [if_neg hwin]
    split at h
    · cases h
    case isFalse hva =>
      rw [if_neg hva]
      split at h
      case h_1 => cases h; exact ⟨rfl, rfl⟩
      case h_2 => split at h <;> cases h

/-- A context that waits for a walk, which its cluster's walker is asked for. -/
theorem parkWalk_waits (s : State) (va : Word) (fetch : Bool) : Waits s (s.parkWalk va fetch) 1 ∧
    ({ key := s.cur, va := va, fetch := fetch } : WalkReq) ∈ ((s.parkWalk va fetch).cluster (clusterOf s.here)).walks := by
  let u := s.modCl (clusterOf s.here) fun c => { c with walks := c.walks ++ [{ key := s.cur, va := va, fetch := fetch }] }
  have hwalks : ({ key := s.cur, va := va, fetch := fetch } : WalkReq) ∈ (u.cluster (clusterOf s.here)).walks := by
    rw [cluster_modCl_same]
    exact List.mem_append_right _ (List.mem_singleton_self _)
  exact ⟨waits_of_same (waits_parkAgain u 1) (fun _ => rfl) rfl (sameMemory_of_eq rfl rfl rfl), hwalks⟩

theorem ld_xlate (ha : ea.toNat % n = 0) (hw : s.me.inWindow ea = false) (d : Reg) (sx : Bool) : s.ld d ea n sx =
    s.onChk (s.xlate ea (plainNeed needR n)) fun p => (s.touch ea).loadAt d ea p.1 p.2.akind n sx := by
  simp [State.ld, ha, hw]

theorem st_xlate (ha : ea.toNat % n = 0) (hw : s.me.inWindow ea = false) (d : Reg) : s.st d ea n =
    s.onChk (s.xlate ea (plainNeed needW n)) fun p => (s.touch ea).storeAt ea p.1 p.2.akind n ((s.me.reg d).toNat % 2 ^ (8 * n)) := by
  simp [State.st, ha, hw]

theorem sync_xlate (ha : ea.toNat % n = 0) (op : Nat) (d : Reg) (data : Nat) : s.sync op d ea n data =
    s.onChk (s.xlate ea (syncNeed op)) fun p => (s.touch ea).syncAt op d ea p.1 n (data % 2 ^ (8 * n)) := by
  simp [State.sync, ha]

/-- ST at the own spindle comes to its bank. -/
theorem st_own {fa : Nat} (h : Own s ea needW n fa) (d : Reg) : s.st d ea n = (s.touch ea).storeHere ea fa 0 n (lowBytes s d n) := by
  obtain ⟨p, hx, hk, -⟩ := h.page
  have hu := OnlyTlbs.touch s ea
  have hwin : s.me.inWindow ea = false := (xlate_eq_ok_iff.mp hx).1.resolve_left nofun
  have hlow : (s.me.reg d).toNat % 2 ^ (8 * n) = lowBytes s d n := by rw [lowBytes, Nat.pow_mul]
  have hhome : faSp fa = (s.touch ea).here := by rw [hu.here]; exact h.home
  rw [st_xlate h.aligned hwin]
  simp only [xlate_plainNeed hk hx, State.onChk, State.storeAt, hu.noRels h.rels, hhome, PageEntry.akind, hk, hlow, Bool.false_eq_true, if_false, if_true]
end

theorem scalarAccessChecksComeFirst : ScalarAccessChecksComeFirst := by
  intro s d a b c sz off l w addr fa n m e el bad
  have trap {i : Instr} {t : State} {cause : Nat} {ea : Word} (hh : s.Handled) (hexec : exec i s = .next t) (ht : t = s.trap cause ea) :
      Traps i s cause ea := traps_trap hh (ht ▸ hexec)
  refine ⟨⟨?_, ?_, ?_, ?_, ?_, ?_, ?_, ?_, ?_, ?_, ?_, ?_, ?_, ?_⟩, fun ha hw hh => ⟨fun hx => ?_, fun hx => ?_, fun hx => ?_, fun hx => ?_⟩,
    fun ha hw hx => ?_, fun h hcopy hh => ?_⟩
  · exact fun hn hh => trap hh rfl (ld_misaligned hn ..)
  · exact fun hn hh => trap hh rfl (ld_misaligned hn ..)
  · exact fun hn hh => trap hh rfl (ld_misaligned hn ..)
  · exact fun hn hh => trap hh rfl (st_misaligned hn ..)
  · exact fun hn hh => trap hh rfl (st_misaligned hn ..)
  · exact fun hn hh => trap hh rfl (sync_misaligned hn ..)
  · exact fun hn hh => trap hh rfl (sync_misaligned hn ..)
  · exact fun hn hh => trap hh rfl (sync_misaligned hn ..)
  · exact fun hn hh => trap hh rfl (sync_misaligned hn ..)
  · exact fun hn hh => trap hh rfl (sync_misaligned hn ..)
  · exact fun hn hh => trap hh rfl (sync_misaligned hn ..)
  · exact fun hn hh => trap hh rfl (amo_misaligned hn ..)
  · exact fun hn hh => trap hh rfl (amo_misaligned hn ..)
  · exact fun hn hh => trap hh rfl (dup_misaligned hn ..)
  · obtain rfl := xlate_trap_addr hx
    exact ⟨rfl, trap hh rfl ((ld_xlate ha hw ..).trans (by rw [hx]; rfl))⟩
  · obtain rfl := xlate_trap_addr hx
    exact ⟨rfl, trap hh rfl ((st_xlate ha hw ..).trans (by rw [hx]; rfl))⟩
  · obtain rfl := xlate_trap_addr hx
    exact ⟨rfl, trap hh rfl ((sync_xlate ha opLDF ..).trans (by rw [show syncNeed opLDF = needR from rfl, hx]; rfl))⟩
  · obtain rfl := xlate_trap_addr hx
    exact ⟨rfl, trap hh rfl ((sync_xlate ha opLDE ..).trans (by rw [show syncNeed opLDE = needRW from rfl, hx]; rfl))⟩
  · obtain ⟨rfl, hwalk⟩ := xlate_walk rfl hx (plainNeed needR n) rfl
    have hgo : s.ld d e n false = s.parkWalk e false := (ld_xlate ha hw ..).trans (by rw [hwalk]; rfl)
    obtain ⟨hwaits, hmem⟩ := parkWalk_waits s e false
    exact ⟨_, congrArg Host.Outcome.next hgo, hwaits, rfl, hmem⟩
  · have hcopy' : (s.touch e).hitsCopy 0 fa n = true := by
      simp only [State.hitsCopy, if_true, (OnlyTlbs.touch s e).inCopyRegion, hcopy]
    exact ⟨_, congrArg Host.Outcome.next ((st_own h d).trans (if_pos hcopy')), trapped_trap (s.touch e) cSUBWR e hh⟩

/-! ### Vector forms (R241) -/

section
variable {s : State} {x : LaneAcc} {need : Need}

/-- The checks of a form of one access. -/
theorem vlsCheck_single : s.vlsCheck [x] need =
    if !x.aligned then .trap cALIGN x.va else
    (s.xlate x.va need).bind fun p => if faSp p.1 != s.here then .trap cVLOCAL x.va else
      if need.w && s.inCopyRegion p.1 x.n then .trap cSUBWR x.va else .ok [(x, p.1)] := by
  unfold State.vlsCheck
  rw [List.find?_cons, List.find?_nil]
  cases hal : x.aligned
  case false => rfl
  case true =>
    cases hx : s.xlate x.va need
    case trap => simp [Chk.all, Chk.bind, hx]
    case walk => simp [Chk.all, Chk.bind, hx]
    case ok p =>
      cases hh : faSp p.1 != s.here <;> cases hw : need.w <;> cases hc : s.inCopyRegion p.1 x.n <;>
        simp [Chk.all, Chk.bind, hx, hh, hc]

theorem vlsCheck_align (h : x.aligned = false) : s.vlsCheck [x] need = .trap cALIGN x.va := by
  simp [vlsCheck_single, h]

theorem vlsCheck_xlate (h : x.aligned = true) {cause : Nat} {addr : Word} (hx : s.xlate x.va need = .trap cause addr) :
    s.vlsCheck [x] need = .trap cause addr := by
  simp [vlsCheck_single, h, hx, Chk.bind]

theorem vlsCheck_vlocal (h : x.aligned = true) {fa : Nat} {p : PageEntry} (hx : s.xlate x.va need = .ok (fa, p)) (hh : faSp fa ≠ s.here) :
    s.vlsCheck [x] need = .trap cVLOCAL x.va := by
  simp [vlsCheck_single, h, hx, Chk.bind, hh]

theorem vlsCheck_subwr (h : x.aligned = true) {fa : Nat} {p : PageEntry} (hx : s.xlate x.va need = .ok (fa, p)) (hh : faSp fa = s.here)
    (hw : need.w = true) (hc : s.inCopyRegion fa x.n = true) : s.vlsCheck [x] need = .trap cSUBWR x.va := by
  simp [vlsCheck_single, h, hx, Chk.bind, hh, hw, hc]

/-- A load form whose check fails, before its first word, traps. -/
theorem vload_trap {accs : List LaneAcc} {cause : Nat} {addr : Word} (ht : s.me.torn = none) (h : s.vlsCheck accs needR = .trap cause addr)
    (f : State → List (Nat × Nat) → State) : s.vload accs f = s.trap cause addr := by
  unfold State.vload
  rw [ht]
  dsimp only
  rw [h]
  rfl

theorem vstore_trap {accs : List LaneAcc} {cause : Nat} {addr : Word} (ht : s.me.torn = none) (h : s.vlsCheck accs needW = .trap cause addr)
    (val : Nat → Nat) : s.vstore accs val = s.trap cause addr := by
  unfold State.vstore State.vstoreKeep
  rw [ht]
  dsimp only
  rw [h]
  rfl
end

section
variable {s : State} {v : VReg} {a b mg : Reg} {cause : Nat} {addr : Word}

/-- The access of VBCST, made by its first active lane. -/
def vbcstAcc (s : State) (a : Reg) (tt off : BitVec 4) (lane : Nat) : LaneAcc :=
  let e := s.me.reg a + BitVec.ofNat 64 (64 * off.toNat)
  { lane := lane, va := e, n := tagWidth tt.toNat / 8, aligned := e.toNat % (tagWidth tt.toNat / 8) == 0 }

theorem vbcst_traps {tt off : BitVec 4} (hh : s.Handled) (ht : s.me.torn = none) (hact : activeLanes s tt.toNat mg ≠ [])
    (h : ∀ lane, s.vlsCheck [vbcstAcc s a tt off lane] needR = .trap cause addr) : Traps (.vbcst v a tt mg off) s cause addr := by
  obtain ⟨lane, l, hl⟩ := List.exists_cons_of_ne_nil hact
  refine traps_trap hh (congrArg Host.Outcome.next (vload_trap ht ?_ _))
  rw [show s.me.active tt.toNat mg = lane :: l from hl]
  exact h lane

/-- The access of VSTS by lane 0. -/
def vstsAcc (s : State) (v : VReg) (a : Reg) : LaneAcc :=
  { lane := 0, va := s.me.reg a, n := tagWidth (s.me.vtag v) / 8, aligned := (s.me.reg a).toNat % (tagWidth (s.me.vtag v) / 8) == 0 }

theorem strided_zero (base stride : Word) (t : Nat) : strided base stride t [0] =
    [{ lane := 0, va := base, n := tagWidth t / 8, aligned := base.toNat % (tagWidth t / 8) == 0 }] := by
  have hva : base + BitVec.ofInt 64 (((0 : Nat) : Int) * stride.toInt) = base := by simp
  unfold strided
  rw [List.map_cons, List.map_nil, hva]

theorem vsts_traps (hh : s.Handled) (ht : s.me.torn = none) (hs : tagIsScal (s.me.vtag v) = true) (hact : activeLanes s (s.me.vtag v) mg = [0])
    (h : s.vlsCheck [vstsAcc s v a] needW = .trap cause addr) : Traps (.vsts v a b mg) s cause addr := by
  refine traps_trap hh (congrArg Host.Outcome.next ((if_pos hs).trans (vstore_trap ht ?_ _)))
  rw [show s.me.active (s.me.vtag v) mg = [0] from hact, strided_zero]
  exact h
end

theorem vectorAccessChecksComeFirst : VectorAccessChecksComeFirst := by
  intro s v a b mg tt off fa p hh htorn htag t n e i x j m
  refine ⟨fun hact => ⟨fun hn => ?_, fun hn hw hx => ?_, fun hn hx hfar => ?_⟩, fun hs hact => ⟨fun hn => ?_, fun hn hx hfar => ?_, fun hn hx hhome hc => ?_⟩,
    fun hs => ?_, fun h0 => ?_, fun hb => ?_⟩
  · exact vbcst_traps hh htorn hact fun lane => vlsCheck_align (beq_eq_false_iff_ne.mpr hn)
  · exact vbcst_traps hh htorn hact fun lane => vlsCheck_xlate (beq_iff_eq.mpr hn) hx
  · exact vbcst_traps hh htorn hact fun lane => vlsCheck_vlocal (beq_iff_eq.mpr hn) hx hfar
  · exact vsts_traps hh htorn hs hact (vlsCheck_align (beq_eq_false_iff_ne.mpr hn))
  · exact vsts_traps hh htorn hs hact (vlsCheck_vlocal (beq_iff_eq.mpr hn) hx hfar)
  · exact vsts_traps hh htorn hs hact (vlsCheck_subwr (beq_iff_eq.mpr hn) hx hhome rfl hc)
  · exact traps_trap hh (congrArg Host.Outcome.next (if_neg (by simp [hs])))
  · exact traps_trap hh (congrArg Host.Outcome.next (if_pos h0))
  · exact traps_trap hh (congrArg Host.Outcome.next (if_neg (by simp [hb])))

/-- Settles O22: a check that fails decides the form before anything else of it. -/
theorem accessChecksComeFirst : Obligations.AccessChecksComeFirst := ⟨scalarAccessChecksComeFirst, vectorAccessChecksComeFirst⟩

end Sys2Proof.Laws
end

section
/-!
PROOFS. The channel forms (R138 to R142): what a change of a channel and a message on its way leave alone, and each form.
-/
namespace Sys2Proof.Laws
open Sys2Proof Sys2Proof.Machine Sys2Proof.Claims Sys2Proof.Config

/-! ### What channel traffic leaves alone -/

/-- Contexts, memory and the jobs of spindles are as before: channels and messages alone differ. -/
structure OnlyTraffic (s t : State) : Prop where
  ctxs : t.ctxs = s.ctxs
  cur : t.cur = s.cur
  memory : SameMemory s t
  jobNoAt : ∀ n, t.jobNoAt n = s.jobNoAt n

namespace OnlyTraffic
variable {s t u : State}

theorem refl (s : State) : OnlyTraffic s s := ⟨rfl, rfl, sameMemory_refl s, fun _ => rfl⟩

theorem trans (h : OnlyTraffic s t) (k : OnlyTraffic t u) : OnlyTraffic s u :=
  ⟨k.ctxs.trans h.ctxs, k.cur.trans h.cur, sameMemory_trans h.memory k.memory, fun n => (k.jobNoAt n).trans (h.jobNoAt n)⟩

theorem of_onlyMessages (h : OnlyMessages s t) : OnlyTraffic s t := ⟨h.ctxs, h.cur, h.sameMemory, h.jobNoAt⟩

theorem takeTok (s : State) : OnlyTraffic s s.takeTok.2 := ⟨rfl, rfl, sameMemory_of_eq rfl rfl rfl, fun _ => rfl⟩

section
variable (h : OnlyTraffic s t)
include h
theorem ctx (k : Nat) : t.ctx k = s.ctx k := by rw [State.ctx, h.ctxs]; rfl
theorem me : t.me = s.me := by rw [State.me, h.cur, h.ctx]; rfl
theorem myJob : t.myJob = t.job s.myJobNo := by rw [State.myJob, State.jobAt, h.jobNoAt, State.here, h.cur]; rfl
end
end OnlyTraffic

theorem modChan_eq (s : State) (j ch : Nat) (f : Chan → Chan) : ∃ js, s.modChan j ch f = { s with jobs := js } := by
  unfold State.modChan State.modJob
  split
  · exact ⟨_, rfl⟩
  · exact ⟨s.jobs, rfl⟩

theorem onlyTraffic_modChan (s : State) (j ch : Nat) (f : Chan → Chan) : OnlyTraffic s (s.modChan j ch f) := by
  obtain ⟨js, e⟩ := modChan_eq s j ch f
  rw [e]
  exact ⟨rfl, rfl, sameMemory_of_eq rfl rfl rfl, fun _ => rfl⟩

theorem onlyTraffic_send (s : State) (m : Msg) : OnlyTraffic s (s.send m) := .of_onlyMessages (onlyMessages_send s m)

/-- A declared channel is below the mailbox's number, and its job is listed. -/
theorem chan_eq_some {jb : Job} {ch : Nat} {c : Chan} (h : jb.chan ch = some c) : ch < mailboxNo ∧ Table.find jb.chans ch = some c := by
  unfold Job.chan at h
  split at h
  case isTrue hlt => exact ⟨hlt, h⟩
  case isFalse => cases h

theorem chan_modChan {s : State} {j ch : Nat} {c : Chan} (h : (s.job j).chan ch = some c) (f : Chan → Chan) :
    ((s.modChan j ch f).job j).chan ch = some (f c) := by
  obtain ⟨hlt, hc⟩ := chan_eq_some h
  cases hj : Table.find s.jobs j with
  | none =>
    rw [State.job, Table.get, hj] at hc
    cases hc
  | some jb =>
    rw [State.modChan, job_modJob_same hj, hc, Job.chan, if_pos hlt]
    exact find_set_same ..

/-- A change of a channel leaves everything else of every job. -/
theorem job_modChan (s : State) (j ch : Nat) (f : Chan → Chan) (i : Nat) : ∃ cs, (s.modChan j ch f).job i = { s.job i with chans := cs } := by
  by_cases hi : i = j
  · subst hi
    cases hj : Table.find s.jobs i with
    | none => exact ⟨(s.job i).chans, by rw [State.modChan, State.modJob, hj]⟩
    | some jb =>
      rw [State.modChan, job_modJob_same hj]
      split
      · exact ⟨_, rfl⟩
      · exact ⟨_, rfl⟩
  · exact ⟨(s.job i).chans, job_modJob_ne s _ hi⟩

theorem threadSpindle_modChan (s : State) (j ch : Nat) (f : Chan → Chan) (i th : Nat) : (s.modChan j ch f).threadSpindle i th = s.threadSpindle i th := by
  obtain ⟨cs, hcs⟩ := job_modChan s j ch f i
  obtain ⟨js, e⟩ := modChan_eq s j ch f
  unfold State.threadSpindle
  rw [hcs, e]
  rfl

/-- Messages sent one by one are all on their way. -/
theorem sent_foldl {α : Type} (f : α → Msg) {l : List α} {a : α} (h : a ∈ l) (u : State) :
    ∃ n, { f a with id := n } ∈ (l.foldl (fun t a => t.send (f a)) u).msgs := by
  have hkeep (l : List α) (u : State) {x : Msg} (hx : x ∈ u.msgs) : x ∈ (l.foldl (fun t a => t.send (f a)) u).msgs := by
    induction l generalizing u with
    | nil => exact hx
    | cons a l ih => exact ih _ (by rw [send_msgs]; exact List.mem_append_left _ hx)
  obtain ⟨l1, l2, rfl⟩ := List.append_of_mem h
  rw [List.foldl_append, List.foldl_cons]
  exact ⟨_, hkeep l2 _ (sent_mem_msgs _ (f a))⟩

/-! ### Ends of units after traffic -/

section
variable {s u : State} (h : OnlyTraffic s u)
include h

theorem wentOn_of_traffic : WentOn s (u.retire id) := wentOn_retire h.ctx h.cur

theorem retire_ctx_of_traffic (f : Context → Context) (k : Nat) (hk : k ≠ s.cur) : (u.retire f).ctx k = s.ctx k :=
  (ctx_retire_ne u f (h.cur ▸ hk)).trans (h.ctx k)

theorem retire_me_of_traffic (f : Context → Context) : (u.retire f).me = (f s.me).advance := by rw [me_retire, h.me]

theorem retire_memory_of_traffic (f : Context → Context) : SameMemory s (u.retire f) := sameMemory_trans h.memory (sameMemory_modMe u _)

theorem retire_myJob_of_traffic (f : Context → Context) : (u.retire f).myJob = u.job s.myJobNo := h.myJob
end

/-! ### SEND (R138, R139) -/

section
variable {s : State} {a b : Reg} {n : Nat} {c : Chan}

theorem regN_of_lt {x : Context} {i : Nat} (r : Reg) (h : r.toNat = i) : x.regN i = x.reg r := by
  subst h
  exact dif_pos r.isLt

/-- The words of a message: g(B) and the registers after it. -/
def sendWords (s : State) (b : Reg) (n : Nat) : List Word := (List.range n).map fun i => s.me.regN (b.toNat + i)

/-- The message of SEND. -/
def chanMsg (s : State) (a b : Reg) (n : Nat) (c : Chan) : Msg :=
  { id := 0, cls := .request, src := s.here, dst := s.threadSpindle s.myJobNo c.reader, job := s.myJobNo, ctx := keyCtx s.cur, va := s.me.unit.pc,
    who := s.myWho, body := .chan (s.me.reg a).toNat (sendWords s b n) }

theorem sendOp_eq (h : s.myJob.chan (s.me.reg a).toNat = some c) (hw : c.writer = s.me.thidx) : s.sendOp a b n =
    if !s.me.rels.isEmpty then s.parkAll else if c.credit = 0 then s.parkOn 4 (s.me.reg a).toNat else
    ((s.modChan s.myJobNo (s.me.reg a).toNat fun c => { c with credit := c.credit - 1, nsent := c.nsent + 1 }).send (chanMsg s a b n c)).retire id := by
  unfold State.sendOp
  simp only [h, hw, bne_self_eq_false, Bool.false_eq_true, if_false]
  rfl
end

theorem sendSpendsACredit : SendSpendsACredit := by
  intro s a b n1 c hb ch i
  refine ⟨fun h hw hr hc => ?_, fun h hw hr hc => ⟨_, rfl, ?_⟩, fun h hw hr => ⟨_, rfl, ?_⟩, fun hh hbad => ?_⟩
  · let u := s.modChan s.myJobNo ch fun c => { c with credit := c.credit - 1, nsent := c.nsent + 1 }
    let m := chanMsg s a b (n1.toNat + 1) c
    have hgo : s.sendOp a b (n1.toNat + 1) = (u.send m).retire id := by
      rw [sendOp_eq h hw, hr, if_neg (by simp), if_neg (by omega)]
    have ht : OnlyTraffic s (u.send m) := (onlyTraffic_modChan ..).trans (onlyTraffic_send u m)
    refine ⟨_, sendWords s b (n1.toNat + 1), congrArg Host.Outcome.next hgo, wentOn_of_traffic ht, retire_memory_of_traffic ht id, ?_, ?_, fun k hk => ?_,
      _, sent_mem_msgs u m, rfl, rfl, rfl, rfl⟩
    · rw [retire_myJob_of_traffic ht, (onlyMessages_send u m).job, chan_modChan (j := s.myJobNo) h]
    · rw [sendWords, List.length_map, List.length_range]
    · have hreg : (b + k).toNat = b.toNat + k.toNat := by rw [BitVec.toNat_add, Nat.mod_eq_of_lt (by omega)]
      rw [sendWords, List.getElem?_map, List.getElem?_range (by omega), Option.map_some, regN_of_lt (b + k) hreg]
  · rw [sendOp_eq h hw, hr, if_neg (by simp), if_pos hc]
    exact waits_parkOn ..
  · rw [sendOp_eq h hw, if_pos (by simpa using hr)]
    exact waits_parkRel s 6 false _
  · refine traps_trap hh (congrArg Host.Outcome.next ?_)
    unfold State.sendOp
    rcases hbad with h | ⟨h, hw⟩
    · simp only [show s.myJob.chan (s.me.reg a).toNat = none from h]
    · simp only [show s.myJob.chan (s.me.reg a).toNat = some c from h]
      exact if_pos (bne_iff_ne.mpr hw)

/-! ### RECV and RECVT (R140) -/

/-- The words of a message in the registers from `n` on. -/
theorem takeWords_foldl (ws : List Word) (d n : Nat) (c : Context) : ∃ g, (ws.zipIdx n).foldl (fun c e => c.setRegN (d + e.2) e.1) c = { c with g := g } ∧
    ∀ r : Reg, ({ c with g := g } : Context).reg r = if d + n ≤ r.toNat then (ws[r.toNat - (d + n)]?).getD (c.reg r) else c.reg r := by
  induction ws generalizing n c with
  | nil => exact ⟨c.g, rfl, fun r => by simp⟩
  | cons w ws ih =>
    obtain ⟨g0, hg0, hr0⟩ : ∃ g, c.setRegN (d + n) w = { c with g := g } ∧ ∀ r : Reg, ({ c with g := g } : Context).reg r = if d + n = r.toNat then w else c.reg r := by
      unfold Context.setRegN
      split
      case isTrue hlt => exact ⟨_, rfl, fun r => Vector.getElem_set hlt r.isLt⟩
      case isFalse hge => exact ⟨c.g, rfl, fun r => (if_neg (fun (e : d + n = r.toNat) => hge (by rw [e]; exact r.isLt))).symm⟩
    obtain ⟨g, hg, hr⟩ := ih (n + 1) { c with g := g0 }
    refine ⟨g, by rw [List.zipIdx_cons, List.foldl_cons, hg0, hg], fun r => ?_⟩
    have hreg : ({ c with g := g } : Context).reg r = ({ { c with g := g0 } with g := g } : Context).reg r := rfl
    rw [hreg, hr r, hr0 r]
    rcases Nat.lt_trichotomy r.toNat (d + n) with hlt | heq | hgt
    · rw [if_neg (by omega), if_neg (by omega), if_neg (by omega)]
    · rw [if_neg (by omega), if_pos heq.symm, if_pos (by omega), heq, Nat.sub_self]; rfl
    · rw [if_pos (by omega), if_neg (by omega), if_pos (by omega), show r.toNat - (d + n) = (r.toNat - (d + (n + 1))) + 1 by omega, List.getElem?_cons_succ]

theorem takeWords_spec (c : Context) (d : Reg) (ws : List Word) : ∃ g, c.takeWords d ws = { c with g := g } ∧
    ∀ r : Reg, ({ c with g := g } : Context).reg r = if d.toNat ≤ r.toNat then (ws[r.toNat - d.toNat]?).getD (c.reg r) else c.reg r := takeWords_foldl ws d.toNat 0 c

/-- What a receiving context becomes, before its unit ends. -/
def received (d : Reg) (ws : List Word) (cnt : Option Reg) (c : Context) : Context :=
  match cnt with | some r => (c.takeWords d ws).setReg r (BitVec.ofNat 64 ws.length) | none => c.takeWords d ws

/-- A receiving context keeps everything but its registers. -/
theorem received_spec (d : Reg) (ws : List Word) (cnt : Option Reg) (c : Context) : ∃ g, received d ws cnt c = { c with g := g } ∧
    ∀ r : Reg, ({ c with g := g } : Context).reg r = if cnt = some r then BitVec.ofNat 64 ws.length else
      if d.toNat ≤ r.toNat then (ws[r.toNat - d.toNat]?).getD (c.reg r) else c.reg r := by
  obtain ⟨g, hg, hr⟩ := takeWords_spec c d ws
  cases cnt with
  | none => exact ⟨g, hg, fun r => by rw [hr r]; simp⟩
  | some x =>
    refine ⟨_, by rw [received, hg]; rfl, fun r => ?_⟩
    by_cases hx : r = x
    · subst hx
      exact (reg_setReg_same { c with g := g } r _).trans (if_pos rfl).symm
    · exact (reg_setReg_ne { c with g := g } _ hx).trans ((hr r).trans (if_neg (fun e => hx (Option.some.inj e).symm)).symm)

section
variable {s : State} {ch : Nat} {ws : List Word} {rest : List (List Word)}

/-- What a message leaves behind where it is taken. -/
def takenFrom (s : State) (ch : Nat) : State :=
  if ch = mailboxNo then s.modMe Context.takeMail
  else match s.myJob.chan ch with
    | some c => (s.modChan s.myJobNo ch fun c => { c with buf := c.buf.drop 1 }).returnCredit ch c
    | none => s.modChan s.myJobNo ch fun c => { c with buf := c.buf.drop 1 }

theorem takeMsg_eq (h : s.me.rels = []) (d : Reg) (cnt : Option Reg) : s.takeMsg ch d ws cnt = (takenFrom s ch).retire (received d ws cnt) := by
  have hfree : ((List.range ws.length).any fun i => s.me.pendingReg (d.toNat + i)) = false := by simp [Context.pendingReg, h]
  unfold State.takeMsg
  rw [hfree, if_neg Bool.false_ne_true]
  by_cases hm : ch = mailboxNo
  · have e : takenFrom s ch = s.modMe Context.takeMail := if_pos hm
    rw [e, if_pos hm]
    cases cnt <;> rfl
  · unfold takenFrom
    simp only [if_neg hm]
    cases s.myJob.chan ch <;> cases cnt <;> rfl

theorem takeMail_spec {c : Context} (h : c.mailbox = ws :: rest) :
    c.takeMail = { c with mailbox := rest ++ (c.mailHeld.take 1).map (·.ws), mailHeld := c.mailHeld.drop 1 } := by
  unfold Context.takeMail
  rw [h]
  cases hh : c.mailHeld with
  | nil => simp
  | cons x l => rfl

/-- RECV and RECVT of a message of the mailbox. -/
theorem takes_mail (hr : s.me.rels = []) (h : s.me.mailbox = ws :: rest) (d : Reg) (cnt : Option Reg) : let t := s.takeMsg mailboxNo d ws cnt
    (∀ k, k ≠ s.cur → t.ctx k = s.ctx k) ∧ SameMemory s t ∧ t.me.pc = s.me.unit.next ∧
    (∀ r : Reg, t.me.reg r = if cnt = some r then BitVec.ofNat 64 ws.length else
      if d.toNat ≤ r.toNat then (ws[r.toNat - d.toNat]?).getD (s.me.reg r) else s.me.reg r) ∧
    t.me.mailbox = rest ++ (s.me.mailHeld.take 1).map (·.ws) ∧ t.me.mailHeld = s.me.mailHeld.drop 1 := by
  intro t
  have ht : t = (s.modMe Context.takeMail).retire (received d ws cnt) := (takeMsg_eq hr d cnt).trans (by rw [takenFrom, if_pos rfl])
  obtain ⟨g, hg, hreg⟩ := received_spec d ws cnt s.me.takeMail
  have hmail := takeMail_spec h
  have hme : t.me = { s.me.takeMail with g := g }.advance := by rw [ht, me_retire, me_modMe, hg]
  refine ⟨fun k hk => ?_, ?_, by rw [hme, hmail]; rfl, fun r => ?_, by rw [hme, hmail]; rfl, by rw [hme, hmail]; rfl⟩
  · rw [ht, ctx_retire_ne (s.modMe Context.takeMail) _ hk, ctx_modMe_ne s _ hk]
  · rw [ht]
    exact sameMemory_trans (sameMemory_modMe s _) (sameMemory_modMe (s.modMe Context.takeMail) _)
  · have hr' : t.me.reg r = ({ s.me.takeMail with g := g } : Context).reg r := by rw [hme]; rfl
    have hold : s.me.takeMail.reg r = s.me.reg r := by rw [hmail]; rfl
    rw [hr', hreg, hold]

/-- RECV and RECVT of a message of a channel. -/
theorem takes_chan {x : Chan} (hr : s.me.rels = []) (h : s.myJob.chan ch = some x) (hb : x.buf = ws :: rest) (d : Reg) (cnt : Option Reg) :
    let t := s.takeMsg ch d ws cnt
    (∀ k, k ≠ s.cur → t.ctx k = s.ctx k) ∧ SameMemory s t ∧ t.me.pc = s.me.unit.next ∧
    (∀ r : Reg, t.me.reg r = if cnt = some r then BitVec.ofNat 64 ws.length else
      if d.toNat ≤ r.toNat then (ws[r.toNat - d.toNat]?).getD (s.me.reg r) else s.me.reg r) ∧
    t.myJob.chan ch = some { x with buf := rest } ∧
    ∃ m ∈ t.msgs, m.body = .credit ch ∧ m.cls = .reply ∧ m.src = s.here ∧ m.dst = s.threadSpindle s.myJobNo x.writer := by
  intro t
  let u := s.modChan s.myJobNo ch fun c => { c with buf := c.buf.drop 1 }
  have hu : OnlyTraffic s u := onlyTraffic_modChan ..
  have hv : OnlyTraffic s (u.returnCredit ch x) := hu.trans (onlyTraffic_send u _)
  have ht : t = (u.returnCredit ch x).retire (received d ws cnt) :=
    (takeMsg_eq hr d cnt).trans (by rw [takenFrom, if_neg (Nat.ne_of_lt (chan_eq_some h).1), h])
  obtain ⟨g, hg, hreg⟩ := received_spec d ws cnt s.me
  have hme : t.me = { s.me with g := g }.advance := by rw [ht, retire_me_of_traffic hv, hg]
  refine ⟨fun k hk => ?_, ?_, by rw [hme]; rfl, fun r => ?_, ?_, ?_⟩
  · rw [ht, retire_ctx_of_traffic hv _ k hk]
  · rw [ht]; exact retire_memory_of_traffic hv _
  · rw [hme, reg_advance, hreg]
  · rw [ht, retire_myJob_of_traffic hv, State.returnCredit, (onlyMessages_send u _).job, chan_modChan (j := s.myJobNo) h, hb]; rfl
  · rw [ht]
    refine ⟨_, sent_mem_msgs u _, rfl, rfl, ?_, ?_⟩
    · exact congrArg keySp hu.cur
    · exact (congrArg (fun j => u.threadSpindle j x.writer) ((hu.jobNoAt _).trans (congrArg s.jobNoAt (congrArg keySp hu.cur)))).trans
        (threadSpindle_modChan ..)

theorem inbox_mail (h : s.me.mailbox = ws :: rest) : s.inbox mailboxNo = some (ws :: rest) := by rw [State.inbox, if_pos rfl, h]

theorem inbox_chan {x : Chan} (h : s.myJob.chan ch = some x) (hx : x.reader = s.me.thidx) (hb : x.buf = ws :: rest) : s.inbox ch = some (ws :: rest) := by
  rw [State.inbox, if_neg (Nat.ne_of_lt (chan_eq_some h).1), h]
  simp [hx, hb]

theorem recv_some {a : Reg} (h : s.inbox (s.me.reg a).toNat = some (ws :: rest)) (d : Reg) : s.recv d a = s.takeMsg (s.me.reg a).toNat d ws none := by
  unfold State.recv; simp only [h]
theorem recvt_some {a : Reg} (h : s.inbox (s.me.reg a).toNat = some (ws :: rest)) (d c : Reg) :
    s.recvt d a c = s.takeMsg (s.me.reg a).toNat d ws (some c) := by
  unfold State.recvt; simp only [h]
theorem recv_empty {a : Reg} (h : s.inbox (s.me.reg a).toNat = some []) (d : Reg) : s.recv d a = s.parkOn 3 (s.me.reg a).toNat := by
  unfold State.recv; simp only [h]
theorem recvt_empty {a : Reg} (h : s.inbox (s.me.reg a).toNat = some []) (d c : Reg) : s.recvt d a c =
    if s.me.lastIssue + (s.me.reg c).toNat ≤ s.now then s.setG c 0
    else (s.parkOn 3 (s.me.reg a).toNat).modMe fun x => { x with wakeAt := some (s.me.lastIssue + (s.me.reg c).toNat) } := by
  unfold State.recvt; simp only [h]
theorem recv_none {a : Reg} (h : s.inbox (s.me.reg a).toNat = none) (d : Reg) : s.recv d a = s.trap cCHANNEL (s.me.reg a) := by
  unfold State.recv; simp only [h]
theorem recvt_none {a : Reg} (h : s.inbox (s.me.reg a).toNat = none) (d c : Reg) : s.recvt d a c = s.trap cCHANNEL (s.me.reg a) := by
  unfold State.recvt; simp only [h]
end

theorem receivesTakeTheOldestMessage : ReceivesTakeTheOldestMessage := by
  intro s d a c ws rest x ch word plain counts other hr
  have hplain (t : State) (h : ∀ r : Reg, t.me.reg r = if none = some r then BitVec.ofNat 64 ws.length else word r) : plain t :=
    fun r => (h r).trans (if_neg nofun)
  have hcounts (t : State) (h : ∀ r : Reg, t.me.reg r = if some c = some r then BitVec.ofNat 64 ws.length else word r) : counts t := fun r => by
    rw [h r]
    by_cases hc : r = c
    · rw [if_pos hc, if_pos (congrArg some hc.symm)]
    · rw [if_neg hc, if_neg (fun e => hc (Option.some.inj e).symm)]
  refine ⟨fun hch hm => ?_, fun h hx hb => ?_, fun h => ⟨⟨_, rfl, ?_⟩, fun ht => ⟨_, rfl, ?_⟩, fun ht => ?_⟩, fun hh h => ⟨?_, ?_⟩⟩
  · have hin : s.inbox (s.me.reg a).toNat = some (ws :: rest) := by rw [show (s.me.reg a).toNat = mailboxNo from hch]; exact inbox_mail hm
    obtain ⟨h1, h2, h3, h4, h5⟩ := takes_mail hr hm d none
    obtain ⟨k1, k2, k3, k4, k5⟩ := takes_mail hr hm d (some c)
    rw [← hch] at h1 h2 h3 h4 h5 k1 k2 k3 k4 k5
    exact ⟨⟨_, congrArg Host.Outcome.next (recv_some hin d), ⟨h1, h2, h3⟩, hplain _ h4, h5⟩,
      ⟨_, congrArg Host.Outcome.next (recvt_some hin d c), ⟨k1, k2, k3⟩, hcounts _ k4, k5⟩⟩
  · have hin : s.inbox (s.me.reg a).toNat = some (ws :: rest) := inbox_chan h hx hb
    obtain ⟨h1, h2, h3, h4, h5⟩ := takes_chan hr h hb d none
    obtain ⟨k1, k2, k3, k4, k5⟩ := takes_chan hr h hb d (some c)
    exact ⟨⟨_, congrArg Host.Outcome.next (recv_some hin d), ⟨h1, h2, h3⟩, hplain _ h4, h5⟩,
      ⟨_, congrArg Host.Outcome.next (recvt_some hin d c), ⟨k1, k2, k3⟩, hcounts _ k4, k5⟩⟩
  · rw [recv_empty h]; exact waits_parkOn ..
  · rw [recvt_empty h, if_neg (by omega), State.parkOn, modMe_modMe]
    exact ⟨waits_modMe s 3 _ rfl rfl rfl ⟨rfl, rfl, rfl, rfl, rfl⟩, by rw [me_modMe]⟩
  · exact gives_setG (congrArg Host.Outcome.next ((recvt_empty h d c).trans (if_pos ht)))
  · exact traps_trap hh (congrArg Host.Outcome.next (recv_none h d))
  · exact traps_trap hh (congrArg Host.Outcome.next (recvt_none h d c))

/-! ### CHQ and CHBIND (R141, R142) -/

/-- What a wait has counted does not matter to it. -/
theorem waits_got {s t : State} {why : Nat} (h : Waits s t why) (hcur : t.cur = s.cur) (l : List (Nat × Nat)) :
    Waits s (t.modMe fun c => { c with got := l }) why where
  state := by rw [me_modMe]; exact h.state
  reason := by rw [me_modMe]; exact h.reason
  regs := by rw [me_modMe]; exact h.regs
  pc := by rw [me_modMe]; exact h.pc
  contexts k hk := (ctx_modMe_ne t _ (hcur ▸ hk)).trans (h.contexts k hk)
  memory := sameMemory_trans h.memory (sameMemory_modMe t _)

theorem request_cur {u : State} (hr : u.me.unit.rel = none) (why : Nat) (va : Word) (fa : Nat) (b : Body) (ko : Kont) (dest : Option (Reg × Nat × Bool × Bool)) :
    (u.request why va fa b ko dest).cur = u.cur := by
  simp only [State.request, State.requestVia, hr]
  exact send_cur u.takeTok.2 _

section
variable {s : State} {d a b : Reg} {c : Chan}

theorem chq_chan (h : s.myJob.chan (s.me.reg a).toNat = some c) : s.chq d a =
    if s.threadSpindle s.myJobNo c.reader = s.here then s.setG d (BitVec.ofNat 64 (s.chqWord s.myJobNo (s.me.reg a).toNat s.me.thidx))
    else (s.request 1 0 (faOf (s.threadSpindle s.myJobNo c.reader) 0) (.chq (s.me.reg a).toNat) (.value d) none).modMe fun c =>
      { c with got := [((s.me.reg a).toNat, 0)] } := by
  unfold State.chq
  rw [if_neg (Nat.ne_of_lt (chan_eq_some h).1), h]

theorem chqWord_eq {ch : Nat} (h : s.myJob.chan ch = some c) (th : Nat) : s.chqWord s.myJobNo ch th =
    2 ^ 63 + boolN (c.writer == th) * 2 ^ 62 + boolN (c.reader == th) * 2 ^ 61 +
      (if c.writer = th then c.credit * 2 ^ 20 else 0) + (c.buf.headD []).length * 2 ^ 12 + c.buf.length := by
  unfold State.chqWord
  rw [show (s.job s.myJobNo).chan ch = some c from h]
  simp only [beq_iff_eq]

/-- The other spindles that an entry's ends are told at. -/
def bindEnds (s : State) (c : Chan) (w r : Nat) : List Nat :=
  (([c.writer, c.reader, w, r].map (s.threadSpindle s.myJobNo)).eraseDups).filter fun sp => sp != s.here && !(s.spindle sp).fenced

theorem mem_bindEnds {w r sp : Nat} : sp ∈ bindEnds s c w r ↔
    sp ≠ s.here ∧ (s.spindle sp).fenced = false ∧ ∃ th ∈ [c.writer, c.reader, w, r], s.threadSpindle s.myJobNo th = sp := by
  rw [bindEnds, List.mem_filter, List.mem_eraseDups, List.mem_map, Bool.and_eq_true, bne_iff_ne, Bool.not_eq_true', and_comm, and_assoc]

/-- The state with the channel's new ends and g(D) = 0. -/
def rebound (s : State) (ch : Nat) (d : Reg) (w r : Nat) : State :=
  (s.modChan s.myJobNo ch fun c => { c with writer := w, reader := r }).modMe fun x => x.setReg d 0

theorem nextTok_rebound (s : State) (ch : Nat) (d : Reg) (w r : Nat) : (rebound s ch d w r).nextTok = s.nextTok := by
  obtain ⟨js, e⟩ := modChan_eq s s.myJobNo ch fun c => { c with writer := w, reader := r }
  rw [rebound, e]
  rfl

/-- What CHBIND tells an end. -/
def bindMsg (s : State) (ch tok sp : Nat) : Msg :=
  { id := 0, cls := .request, src := s.here, dst := sp, job := s.myJobNo, ctx := keyCtx s.cur, tok := tok, who := s.myWho, body := .bindNote ch }

/-- CHBIND of a declared channel by the keeper, its operands in order. -/
theorem chbind_eq {w r : Nat} (hk : keyCtx s.cur = 0) (h : s.myJob.chan (s.me.reg a).toNat = some c) (hv : (s.me.reg b).toNat < 2 ^ 50)
    (hz : (s.me.reg b).toNat / 2 ^ 18 % 2 ^ 14 = 0) (hw : (s.me.reg b).toNat % 2 ^ 18 = w) (hr : (s.me.reg b).toNat / 2 ^ 32 % 2 ^ 18 = r)
    (hwok : s.myJob.indexOk w = true) (hrok : s.myJob.indexOk r = true) : s.chbind d a b =
    if c.credit != 8 then s.setG d 1 else if s.endpointWaits s.myJobNo (s.me.reg a).toNat c then s.setG d 2
    else if (bindEnds s c w r).isEmpty then (rebound s (s.me.reg a).toNat d w r).retire id
    else ((bindEnds s c w r).foldl (fun t sp => t.send (bindMsg s (s.me.reg a).toNat (rebound s (s.me.reg a).toNat d w r).nextTok sp)) (rebound s (s.me.reg a).toNat d w r).takeTok.2).parkFor 2
      (rebound s (s.me.reg a).toNat d w r).nextTok (.acks (bindEnds s c w r).length) := by
  have hwv : bitsOf (s.me.reg b).toNat 17 0 = w := by rw [bitsOf_eq, Nat.pow_zero, Nat.div_one, ← hw]
  have hrv : bitsOf (s.me.reg b).toNat 49 32 = r := by rw [bitsOf_eq, ← hr]
  have hzv : bitsOf (s.me.reg b).toNat 31 18 = 0 := by rw [bitsOf_eq]; exact hz
  have hlt : (s.me.reg b).toNat / 2 ^ 50 = 0 := Nat.div_eq_of_lt hv
  have hkeeper : (keyCtx s.cur != 0) = false := by simp [hk]
  unfold State.chbind
  simp only [hkeeper, h, hwv, hrv, hzv, hlt, hwok, hrok, bne_self_eq_false, Bool.not_true, Bool.or_self, Bool.false_eq_true, if_false]
  rfl

/-- The entry's new ends are written, and g(D) is 0. -/
theorem rebound_spec (w r : Nat) {ch : Nat} (h : s.myJob.chan ch = some c) : let u := rebound s ch d w r
    SameMemory s u ∧ u.cur = s.cur ∧ (∀ n, u.jobNoAt n = s.jobNoAt n) ∧ (∀ k, k ≠ s.cur → u.ctx k = s.ctx k) ∧ u.me = s.me.setReg d 0 ∧
      (u.job s.myJobNo).chan ch = some { c with writer := w, reader := r } := by
  intro u
  have ht := onlyTraffic_modChan s s.myJobNo ch fun c => { c with writer := w, reader := r }
  refine ⟨sameMemory_trans ht.memory (sameMemory_modMe ..), ht.cur, ht.jobNoAt, fun k hk => ?_, by rw [← ht.me]; exact me_modMe .., ?_⟩
  · exact (ctx_modMe_ne _ _ (by rw [ht.cur]; exact hk)).trans (ht.ctx k)
  · exact chan_modChan (j := s.myJobNo) h fun c => { c with writer := w, reader := r }
end

theorem channelQueriesAndBinding : ChannelQueriesAndBinding := by
  intro s d a b c ch v w r bind
  refine ⟨fun hne h => ?_, fun hch => ?_, fun h hh => ?_, fun h hh hrel => ?_, fun hk h hv hz hwok hrok => ⟨fun hc => ?_, fun hc he => ?_,
    fun hc he hall => ?_, fun sp hc he hsp => ?_⟩, fun hh hk => ?_, fun hh hk h => ?_⟩
  · refine gives_setG (congrArg Host.Outcome.next ?_)
    unfold State.chq
    simp only [show ¬ (s.me.reg a).toNat = mailboxNo from hne, show s.myJob.chan (s.me.reg a).toNat = none from h, if_false]
  · exact gives_setG (congrArg Host.Outcome.next (if_pos hch))
  · exact gives_setG (congrArg Host.Outcome.next ((chq_chan h).trans ((if_pos hh).trans (by rw [chqWord_eq h]))))
  · obtain ⟨hw, m, hm, hcls, hsrc, hdst, hjob, hctx, htok, hb⟩ := request_waits hrel 1 0 (faOf (s.threadSpindle s.myJobNo c.reader) 0) (.chq ch) (.value d) none
    exact ⟨_, congrArg Host.Outcome.next ((chq_chan h).trans (if_neg hh)), waits_got hw (request_cur hrel ..) _, m, hm, hb, hcls, hsrc, hctx, htok⟩
  · exact gives_setG (congrArg Host.Outcome.next ((chbind_eq hk h hv hz rfl rfl hwok hrok).trans (if_pos (bne_iff_ne.mpr hc))))
  · exact gives_setG (congrArg Host.Outcome.next ((chbind_eq hk h hv hz rfl rfl hwok hrok).trans ((if_neg (by simp [hc])).trans (if_pos he))))
  · have hempty : (bindEnds s c w r).isEmpty = true := by
      rw [List.isEmpty_iff, List.eq_nil_iff_forall_not_mem]
      intro sp hsp
      obtain ⟨hne, -, th, hth, rfl⟩ := mem_bindEnds.mp hsp
      exact hne (hall th hth)
    obtain ⟨hmem, hcur, hno, hctx, hme, hchan⟩ := rebound_spec (d := d) w r h
    have hgo : s.chbind d a b = (rebound s ch d w r).retire id :=
      (chbind_eq hk h hv hz rfl rfl hwok hrok).trans ((if_neg (by simp [hc])).trans ((if_neg (Bool.eq_false_iff.mp he)).trans (if_pos hempty)))
    have hend : ((rebound s ch d w r).retire id).me = (s.me.setReg d 0).advance := by rw [me_retire, hme]; rfl
    refine ⟨_, congrArg Host.Outcome.next hgo, ⟨fun k hk => ?_, ?_, fun x hx => ?_, ?_, ?_⟩, sameMemory_trans hmem (sameMemory_modMe ..), ?_⟩
    · exact (ctx_retire_ne _ _ (by rw [hcur]; exact hk)).trans (hctx k hk)
    · rw [hend, reg_advance, reg_setReg_same]
    · rw [hend, reg_advance, reg_setReg_ne _ _ hx]
    · rw [hend]; rfl
    · rw [hend]; rfl
    · have hjob : ((rebound s ch d w r).retire id).myJob = (rebound s ch d w r).job s.myJobNo := by
        exact congrArg (rebound s ch d w r).job ((hno _).trans (congrArg s.jobNoAt (congrArg keySp hcur)))
      rw [hjob, hchan]
  · have hmem : sp ∈ bindEnds s c w r := mem_bindEnds.mpr hsp
    have hempty : (bindEnds s c w r).isEmpty = false := List.isEmpty_eq_false_iff.mpr (List.ne_nil_of_mem hmem)
    obtain ⟨hmemory, hcur, hno, hctx, hme, hchan⟩ := rebound_spec (d := d) w r h
    let u := (rebound s ch d w r).takeTok.2
    let z := (bindEnds s c w r).foldl (fun t sp => t.send (bindMsg s ch (rebound s ch d w r).nextTok sp)) u
    have hz' : OnlyMessages u z := onlyMessages_foldl _ (fun t sp => onlyMessages_send t _) _ _
    have hgo : s.chbind d a b = z.parkFor 2 (rebound s ch d w r).nextTok (.acks (bindEnds s c w r).length) :=
      (chbind_eq hk h hv hz rfl rfl hwok hrok).trans ((if_neg (by simp [hc])).trans ((if_neg (Bool.eq_false_iff.mp he)).trans (if_neg (Bool.eq_false_iff.mp hempty))))
    have hzcur : z.cur = s.cur := hz'.cur.trans hcur
    have hzme : z.me = s.me.setReg d 0 := by rw [State.me, hzcur, hz'.ctx, ← hme, State.me, hcur]; rfl
    obtain ⟨n, hsent⟩ := sent_foldl (bindMsg s ch (rebound s ch d w r).nextTok) hmem u
    have hzmem : SameMemory s z := sameMemory_trans hmemory (sameMemory_trans (t := u) (sameMemory_of_eq rfl rfl rfl) hz'.sameMemory)
    refine ⟨_, congrArg Host.Outcome.next hgo, sameMemory_trans hzmem (sameMemory_modMe ..), ?_, ?_, ?_, ?_, _, hsent, rfl, rfl, rfl, rfl, nextTok_rebound s ch d w r⟩
    · rw [State.parkFor, me_modMe]
    · rw [State.parkFor, me_modMe]
    · rw [State.parkFor, me_modMe, hzme]; rfl
    · have hjob : z.myJob = z.job s.myJobNo := by rw [State.myJob, State.jobAt, hz'.jobNoAt, State.here, hzcur]; exact congrArg z.job (hno s.here)
      exact (congrArg (Job.chan · ch) hjob).trans (by rw [hz'.job]; exact hchan)
  · exact traps_trap hh (congrArg Host.Outcome.next (if_pos (bne_iff_ne.mpr hk)))
  · refine traps_trap hh (congrArg Host.Outcome.next ?_)
    unfold State.chbind
    simp only [hk, show s.myJob.chan (s.me.reg a).toNat = none from h, bne_self_eq_false, Bool.false_eq_true, if_false]

/-- Settles O26: each form by what it takes of its channel and what it sends. -/
theorem channelFormsAtTheirSpindle : Obligations.ChannelFormsAtTheirSpindle := ⟨sendSpendsACredit, receivesTakeTheOldestMessage, channelQueriesAndBinding⟩

end Sys2Proof.Laws
end

section
/-!
PROOFS. What a home looks at before it serves a request, and how it refuses one (R113, R114, R193).
-/
namespace Sys2Proof.Laws
open Sys2Proof Sys2Proof.Machine Sys2Proof.Claims Sys2Proof.Config

/-! ### What an arrival does not change -/

section
variable {s t : State} (h : OnlyMessages s t)
include h

theorem OnlyMessages.copies (n : Nat) : (t.spindle n).copies = (s.spindle n).copies := h.ofSpindle Spindle.copies (fun _ _ _ => rfl) n
theorem OnlyMessages.skein (n : Nat) : (t.spindle n).skein = (s.spindle n).skein := h.ofSpindle Spindle.skein (fun _ _ _ => rfl) n
theorem OnlyMessages.waiters (n : Nat) : (t.spindle n).waiters = (s.spindle n).waiters := h.ofSpindle Spindle.waiters (fun _ _ _ => rfl) n
theorem OnlyMessages.read (fa n : Nat) : t.read fa n = s.read fa n := by rw [State.read, h.mem]; rfl
theorem OnlyMessages.full (fa : Nat) : t.full fa = s.full fa := by rw [State.full, h.fe]; rfl
theorem OnlyMessages.poisoned (fa n : Nat) : t.poisoned fa n = s.poisoned fa n := by rw [State.poisoned, h.poison]; rfl
theorem OnlyMessages.inCopyRegion (fa n : Nat) : t.inCopyRegion fa n = s.inCopyRegion fa n := by rw [State.inCopyRegion, OnlyMessages.copies h]; rfl
theorem OnlyMessages.waitersIn (fa : Nat) : t.waitersIn fa = s.waitersIn fa := by rw [State.waitersIn, OnlyMessages.waiters h]; rfl

theorem refuses_congr (dst src fa n kind : Nat) : t.refuses dst src fa n kind = s.refuses dst src fa n kind := by
  simp only [State.refuses, h.fenced, windowOk_congr h]

theorem appendRefusal_congr (src fa n extra : Nat) : t.appendRefusal src fa n extra = s.appendRefusal src fa n extra := by
  have hsize (sp : Nat) : t.skeinSize sp = s.skeinSize sp := by simp only [State.skeinSize, State.queue, State.jobAt, h.jobNoAt, h.job, h.disp] <;> rfl
  simp only [State.appendRefusal, refuses_congr h, OnlyMessages.inCopyRegion h, hsize, OnlyMessages.skein h]

theorem onlyMessages_reply (m : Msg) : OnlyMessages s (t.send m) := h.trans (onlyMessages_send t m)
end

/-- A message whose refusal is NACK with its cause and its address. -/
theorem refuseMsg_eq {m : Msg} {cause : Nat} (h : m.refusal cause = some (m.answer (.nack cause m.va))) (s : State) :
    s.refuseMsg m cause = s.send (m.answer (.nack cause m.va)) := by
  rw [State.refuseMsg, h]

section
variable {s : State} {m : Msg} {fa n v op b c cause : Nat} {e : SkeinEntry}

theorem refusal_read (h : m.body = .read fa n v) : m.refusal cause = some (m.answer (.nack cause m.va)) := by rw [Msg.refusal, h]
theorem refusal_write (h : m.body = .write fa n v op) : m.refusal cause = some (m.answer (.nack cause m.va)) := by rw [Msg.refusal, h]
theorem refusal_atomic (h : m.body = .atomic fa n op b c) : m.refusal cause = some (m.answer (.nack cause m.va)) := by rw [Msg.refusal, h]
theorem refusal_sync (h : m.body = .sync fa n op v) : m.refusal cause = some (m.answer (.nack cause m.va)) := by rw [Msg.refusal, h]
theorem refusal_append (h : m.body = .append e) : m.refusal cause = some (m.answer (.nack cause m.va)) := by rw [Msg.refusal, h]

/-- A request that comes only to an answer. -/
theorem justAnswers_of {i : Instr} {u : State} {r : Body} (hexec : exec i s = .next (u.send (m.answer r))) (hu : OnlyMessages s u)
    (hm : u.msgs = without s m) (hn : u.nextMsg = s.nextMsg) : JustAnswers i s m r :=
  ⟨_, hexec, onlyMessages_reply hu _, answered_send hm hn⟩

theorem justAnswers_arrived {i : Instr} {r : Body} (hexec : exec i s = .next ((arrived s m).send (m.answer r))) : JustAnswers i s m r :=
  justAnswers_of hexec (onlyMessages_arrived s m) (arrived_msgs s m) (arrived_nextMsg s m)

/-! ### What each request does at its home, once it has arrived -/

theorem readIn_served (h : m.body = .read fa n 0) (hr : s.refuses m.dst m.src fa n 0 = none) (hp : s.poisoned fa n = false) :
    s.readIn m = s.send (m.answer (.reply (s.read fa n))) := by
  have hpp : s.pagePoison 0 fa n false = false := by rw [State.pagePoison, if_pos rfl, hp, Bool.and_false]
  unfold State.readIn
  rw [h]
  dsimp only
  rw [if_neg (by decide), hr]
  dsimp only
  rw [hpp]
  rfl

theorem writeIn_served (h : m.body = .write fa n v 0) (hr : s.refuses m.dst m.src fa n 1 = none) (hc : s.inCopyRegion fa n = false)
    (hp : s.poisoned fa n = false) : s.writeIn m =
    (((s.noteStore fa m.src m.ctx m.who m.born true).store fa n v m.who).replayDone fa m.src m.ctx).send (m.answer .ack) := by
  have hpp : s.pagePoison 0 fa n true = false := by rw [State.pagePoison, if_pos rfl, hp, Bool.and_false]
  have hcc : s.hitsCopy 0 fa n = false := by rw [State.hitsCopy, if_pos rfl, hc]
  unfold State.writeIn
  rw [h]
  dsimp only
  rw [if_neg (by decide), hr]
  dsimp only
  rw [hpp, hcc]
  rfl

theorem atomicIn_served (h : m.body = .atomic fa n op b c) (hr : s.refuses m.dst m.src fa n 2 = none) (hc : s.inCopyRegion fa n = false)
    (hp : s.poisoned fa n = false) : s.atomicIn m = (s.bankAtomic fa n op b c m.who).2.send (m.answer (.reply (s.read fa n))) := by
  unfold State.atomicIn
  rw [h]
  dsimp only
  rw [hr]
  dsimp only
  rw [hp, hc]
  rfl

theorem appendIn_served (h : m.body = .append e) (hr : s.appendRefusal m.src e.fa (2 ^ e.sz) 0 = none) :
    s.appendIn m = (s.append e).send (m.answer .ack) := by
  unfold State.appendIn
  rw [h]
  dsimp only
  rw [hr]

theorem readIn_refused (h : m.body = .read fa n 0) (hr : s.refuses m.dst m.src fa n 0 = some cause) :
    s.readIn m = s.send (m.answer (.nack cause m.va)) := by
  unfold State.readIn
  rw [h]
  dsimp only
  rw [if_neg (by decide), hr]
  exact refuseMsg_eq (refusal_read h) _

theorem writeIn_refused (h : m.body = .write fa n v 0) (hr : s.refuses m.dst m.src fa n 1 = some cause) :
    s.writeIn m = s.send (m.answer (.nack cause m.va)) := by
  unfold State.writeIn
  rw [h]
  dsimp only
  rw [if_neg (by decide), hr]
  exact refuseMsg_eq (refusal_write h) _

theorem atomicIn_refused (h : m.body = .atomic fa n op b c) (hr : s.refuses m.dst m.src fa n 2 = some cause) :
    s.atomicIn m = s.send (m.answer (.nack cause m.va)) := by
  unfold State.atomicIn
  rw [h]
  dsimp only
  rw [hr]
  exact refuseMsg_eq (refusal_atomic h) _

theorem appendIn_refused (h : m.body = .append e) (hr : s.appendRefusal m.src e.fa (2 ^ e.sz) 0 = some cause) :
    s.appendIn m = s.send (m.answer (.nack cause m.va)) := by
  unfold State.appendIn
  rw [h]
  dsimp only
  rw [hr]
  exact refuseMsg_eq (refusal_append h) _

theorem syncIn_refused (h : m.body = .sync fa n op v) (hr : s.refuses m.dst m.src fa n (syncKind op) = some cause) :
    s.syncIn m = s.syncRefusal m cause := by
  unfold State.syncIn
  rw [h]
  dsimp only
  rw [hr]
end

/-- What is noted of a store for races and for replay lies at its home's spindle. -/
theorem noteStore_eq (s : State) (fa src ctx who born : Nat) (remote : Bool) : ∃ l, s.noteStore fa src ctx who born remote = { s with spindles := l } := by
  unfold State.noteStore
  dsimp only
  split
  · exact ⟨_, rfl⟩
  · exact ⟨s.spindles, rfl⟩

theorem replayDone_eq (s : State) (fa src ctx : Nat) : ∃ l, s.replayDone fa src ctx = { s with spindles := l } := by
  unfold State.replayDone
  dsimp only
  split
  · split
    · exact ⟨_, rfl⟩
    · exact ⟨s.spindles, rfl⟩
  · exact ⟨s.spindles, rfl⟩

end Sys2Proof.Laws
end

section
/-!
PROOFS. Requests at their home: served, refused, set aside until their turn (R113 to R116, R124, R132, R163, R193).
-/
namespace Sys2Proof.Laws
open Sys2Proof Sys2Proof.Machine Sys2Proof.Claims Sys2Proof.Config

/-- The store of a remote write: its bytes, and no full/empty bit or context. -/
theorem writeIn_facts {s : State} {m : Msg} (hwf : s.mem.wf = true) (fa n v : Nat) :
    let t := ((s.noteStore fa m.src m.ctx m.who m.born true).store fa n v m.who).replayDone fa m.src m.ctx
    Bytes s t fa n v ∧ (∀ a, t.full a = s.full a) ∧ t.ctxs = s.ctxs := by
  obtain ⟨l, hl⟩ := noteStore_eq s fa m.src m.ctx m.who m.born true
  obtain ⟨k, hk⟩ := replayDone_eq ((s.noteStore fa m.src m.ctx m.who m.born true).store fa n v m.who) fa m.src m.ctx
  intro t
  have ht : t = { (({ s with spindles := l } : State).store fa n v m.who) with spindles := k } := by rw [← hl]; exact hk
  rw [ht]
  exact ⟨bytes_of_mem hwf (store_mem ({ s with spindles := l } : State) fa n v m.who), full_store ({ s with spindles := l } : State) fa n v m.who,
    (onlyBanks_store ({ s with spindles := l } : State) fa n v m.who).ctxs⟩

/-- An atomic at its bank (R132). -/
theorem bankAtomic_facts {s : State} (hwf : s.mem.wf = true) (fa n op b c who : Nat) : let t := (s.bankAtomic fa n op b c who).2
    OnlyBanks s t ∧ (∀ a, t.full a = s.full a) ∧ (∀ x, atomicNew op n (s.read fa n) b c = some x → Bytes s t fa n x ∧ t = s.store fa n x who) ∧
      (atomicNew op n (s.read fa n) b c = none → t = s) := by
  intro t
  cases hnew : atomicNew op n (s.read fa n) b c with
  | none =>
    have ht : t = s := by simp only [t, State.bankAtomic, hnew]
    exact ⟨by rw [ht]; exact OnlyBanks.refl s, fun a => by rw [ht], nofun, fun _ => ht⟩
  | some x =>
    have ht : t = s.store fa n x who := by simp only [t, State.bankAtomic, hnew]
    refine ⟨by rw [ht]; exact onlyBanks_store .., fun a => by rw [ht, full_store], fun y hy => ?_, nofun⟩
    obtain rfl := Option.some.inj hy
    exact ⟨by rw [ht]; exact bytes_of_mem hwf (store_mem ..), ht⟩

theorem plainRequestsAreServed : PlainRequestsAreServed := by
  intro s m fa n v op b c e ha hwf
  have hu := onlyMessages_arrived s m
  have hwf' : (arrived s m).mem.wf = true := by rw [hu.mem]; exact hwf
  have hbyte (a : Nat) : (arrived s m).byte a = s.byte a := hu.sameMemory.bytes a
  have hfull (a : Nat) : (arrived s m).full a = s.full a := hu.sameMemory.full a
  have hbytes {t : State} {x : Nat} (h : Bytes (arrived s m) t fa n x) : Bytes s t fa n x :=
    ⟨h.inside, fun a ho => (h.outside a ho).trans (hbyte a)⟩
  refine ⟨fun hb hr hp => ?_, fun hb hr hc hp => ?_, fun hb hr hc hp => ?_, fun hb hr => ?_⟩
  · refine justAnswers_arrived (congrArg Host.Outcome.next ((onArrive_eq _ ha (by rw [hb])).trans ?_))
    rw [readIn_served hb (by rw [refuses_congr hu, hr]) (by rw [OnlyMessages.poisoned hu, hp]), OnlyMessages.read hu]
  · obtain ⟨hby, hfu, hcx⟩ := writeIn_facts (s := arrived s m) (m := m) hwf' fa n v
    generalize ht : (((arrived s m).noteStore fa m.src m.ctx m.who m.born true).store fa n v m.who).replayDone fa m.src m.ctx = t at hby hfu hcx
    have hv := onlyMessages_send t (m.answer .ack)
    have hgo : (arrived s m).writeIn m = t.send (m.answer .ack) := by
      rw [writeIn_served hb (by rw [refuses_congr hu, hr]) (by rw [OnlyMessages.inCopyRegion hu, hc]) (by rw [OnlyMessages.poisoned hu, hp]), ht]
    refine ⟨_, congrArg Host.Outcome.next ((onArrive_eq _ ha (by rw [hb])).trans hgo), ?_, fun a => ?_, (hv.ctxs.trans hcx).trans hu.ctxs, replied_send ..⟩
    · exact hbytes ⟨fun i hi => (hv.sameMemory.bytes _).trans (hby.inside i hi), fun a ho => (hv.sameMemory.bytes a).trans (hby.outside a ho)⟩
    · exact (hv.sameMemory.full a).trans ((hfu a).trans (hfull a))
  · obtain ⟨hbanks, hfu, hsome, hnone⟩ := bankAtomic_facts (s := arrived s m) hwf' fa n op b c m.who
    rw [OnlyMessages.read hu] at hsome hnone
    generalize ht : ((arrived s m).bankAtomic fa n op b c m.who).2 = t at hbanks hfu hsome hnone
    have hv := onlyMessages_send t (m.answer (.reply (s.read fa n)))
    have hgo : (arrived s m).atomicIn m = t.send (m.answer (.reply (s.read fa n))) := by
      rw [atomicIn_served hb (by rw [refuses_congr hu, hr]) (by rw [OnlyMessages.inCopyRegion hu, hc]) (by rw [OnlyMessages.poisoned hu, hp]), ht,
        OnlyMessages.read hu]
    refine ⟨_, congrArg Host.Outcome.next ((onArrive_eq _ ha (by rw [hb])).trans hgo), fun a => ?_, (hv.ctxs.trans hbanks.ctxs).trans hu.ctxs,
      replied_send .., fun x hx => ?_, fun hx a => ?_⟩
    · exact (hv.sameMemory.full a).trans ((hfu a).trans (hfull a))
    · obtain ⟨hby, -⟩ := hsome x hx
      exact hbytes ⟨fun i hi => (hv.sameMemory.bytes _).trans (hby.inside i hi), fun a ho => (hv.sameMemory.bytes a).trans (hby.outside a ho)⟩
    · exact (hv.sameMemory.bytes a).trans (by rw [hnone hx]; exact hbyte a)
  · let t := (arrived s m).append e
    have hv := onlyMessages_send t (m.answer .ack)
    have hgo : (arrived s m).appendIn m = t.send (m.answer .ack) := appendIn_served hb (by rw [appendRefusal_congr hu, hr])
    have hmem : SameMemory (arrived s m) t := sameMemory_of_eq rfl rfl rfl
    refine ⟨_, congrArg Host.Outcome.next ((onArrive_eq _ ha (by rw [hb])).trans hgo), ?_, hv.ctxs.trans hu.ctxs, replied_send .., ?_⟩
    · exact sameMemory_trans hu.sameMemory (sameMemory_trans hmem hv.sameMemory)
    · rw [OnlyMessages.skein hv, ← OnlyMessages.skein hu]
      exact congrArg Spindle.skein (spindle_modSp_same (arrived s m) (faSp e.fa) fun p => { p with skein := p.skein ++ [e] })

/-! ### A recorded store before its turn (R163) -/

theorem recordedStoresWaitForTheirTurn : RecordedStoresWaitForTheirTurn := by
  intro s m fa n v hm hb hnb hlog hport hpost hph hfront hopen hheld i k c ready
  have hlf : s.logFirst m = true := by simp [State.logFirst, hph]
  have hopen' : (decide (m.dst < numSpindles) && (s.spindle m.dst).fenced) = false := by rw [Bool.eq_false_iff]; simpa using hopen
  have harr {q : Body → Bool} (hq : q m.body = true) : s.arriving m.id q =
      if (if m.early then !s.replayHeld m || s.frontHolds m else s.headOfFlow m) then some m else none := by
    unfold State.arriving
    rw [hm]
    simp only [hq, hnb, hlog, hport, hlf, beq_self_eq_true, Bool.not_false, Option.isNone_none, Bool.and_self, Bool.true_and]
  refine ⟨fun he => congrArg Host.Outcome.next ?_, fun he hhead => ?_⟩
  · unfold State.onArrive
    rw [harr (by rw [hb])]
    simp [he, hheld, hfront]
  · have hgo : exec i s = .next (s.tooEarly m) := by
      refine congrArg Host.Outcome.next ?_
      unfold State.onArrive
      rw [harr (by rw [hb])]
      simp only [he, hhead, hopen', hfront, hheld, Bool.false_eq_true, if_false, if_true]
    let u : State := { s with msgs := s.msgs.map fun x => if x.id == m.id then { x with early := true } else x }
    have hmsgs : u.msgs = s.msgs.map fun x => if x.id = m.id then { x with early := true } else x := by simp [u]
    have hready : (c.st == .ready && !c.again && c.rels.any (fun o => o.tok == m.tok)) = true ↔ ready := by
      simp [ready, and_assoc]
    by_cases hr : ready
    · have ht : s.tooEarly m = u.parkReplay k m.tok := if_pos (hready.mpr hr)
      rw [ht] at hgo
      have hk : (u.parkReplay k m.tok).ctx k = _ := ctx_modCtx_same u k _
      refine ⟨_, hgo, sameMemory_of_eq rfl rfl rfl, hmsgs, fun q hq => ctx_modCtx_ne u _ hq, fun _ => ?_, fun hn => absurd hr hn⟩
      rw [hk]
      exact ⟨rfl, rfl, rfl, rfl, rfl, rfl⟩
    · have ht : s.tooEarly m = u := if_neg (fun e => hr (hready.mp e))
      rw [ht] at hgo
      exact ⟨_, hgo, sameMemory_of_eq rfl rfl rfl, hmsgs, fun q _ => rfl, fun h => absurd h hr, fun _ => rfl⟩

/-! ### Refusals (R113, R114, R349) -/

/-- A message that may arrive at a fenced spindle is refused there. -/
theorem onArrive_fenced {s : State} {m : Msg} {q : Body → Bool} (f : Msg → State → State) (h : MayArrive s m) (hq : q m.body = true)
    (hd : m.dst < numSpindles) (hf : (s.spindle m.dst).fenced = true) : s.onArrive m.id q f = (s.dropMsg m.id).refuseMsg m cFENCED := by
  unfold State.onArrive
  rw [arriving_some h hq]
  simp only [hd, hf, decide_true, Bool.and_self, if_true]

theorem refusedRequestsDoNothing : RefusedRequestsDoNothing := by
  intro s m fa n v op b c cause e
  have hu := onlyMessages_arrived s m
  have hdrop := onlyMessages_dropMsg s m.id
  refine ⟨fun ha => ⟨fun hb hr => ?_, fun hb hr => ?_, fun hb hr => ?_, fun hne hb hr => ?_, fun hb hr => ?_⟩, fun ha hd hf => ⟨fun hb => ?_, fun hb => ?_⟩⟩
  · exact justAnswers_arrived (congrArg Host.Outcome.next ((onArrive_eq _ ha (by rw [hb])).trans (readIn_refused hb (by rw [refuses_congr hu, hr]))))
  · exact justAnswers_arrived (congrArg Host.Outcome.next ((onArrive_eq _ ha (by rw [hb])).trans (writeIn_refused hb (by rw [refuses_congr hu, hr]))))
  · exact justAnswers_arrived (congrArg Host.Outcome.next ((onArrive_eq _ ha (by rw [hb])).trans (atomicIn_refused hb (by rw [refuses_congr hu, hr]))))
  · refine justAnswers_arrived (congrArg Host.Outcome.next ((onArrive_eq _ ha (by rw [hb])).trans ?_))
    rw [syncIn_refused hb (by rw [refuses_congr hu, hr]), State.syncRefusal, if_neg (by simpa using hne)]
    exact refuseMsg_eq (refusal_sync hb) _
  · exact justAnswers_arrived (congrArg Host.Outcome.next ((onArrive_eq _ ha (by rw [hb])).trans (appendIn_refused hb (by rw [appendRefusal_congr hu, hr]))))
  · refine justAnswers_of (congrArg Host.Outcome.next ((onArrive_fenced _ ha (by rw [hb]) hd hf).trans ?_)) hdrop rfl rfl
    exact refuseMsg_eq (refusal_read hb) _
  · refine justAnswers_of (congrArg Host.Outcome.next ((onArrive_fenced _ ha (by rw [hb]) hd hf).trans ?_)) hdrop rfl rfl
    exact refuseMsg_eq (refusal_write hb) _

end Sys2Proof.Laws
end

section
/-!
PROOFS. The full/empty forms at their home: served, waiting, sent again (R22, R127 to R129, R329).
-/
namespace Sys2Proof.Laws
open Sys2Proof Sys2Proof.Machine Sys2Proof.Claims Sys2Proof.Config

/-! ### A form at its bank (R127, R129) -/

/-- The waiter that a request would be. -/
def syncWaiter (m : Msg) (fa n op data : Nat) : Waiter :=
  { sp := m.src, ctx := m.ctx, tok := m.tok, op := op, fa := fa, n := n, data := data, local_ := m.src == m.dst, who := m.who }

/-- Nothing refuses the form, no copy region holds its word and no poison lies in its bytes. -/
structure SyncOpen (s : State) (m : Msg) (fa n op data : Nat) : Prop where
  body : m.body = .sync fa n op data
  admitted : s.refuses m.dst m.src fa n (syncKind op) = none
  copies : s.inCopyRegion fa n = false
  clean : s.poisoned fa n = false

/-- What a request's sender is told of its bank's answer. -/
def bankReply (s : State) (m : Msg) (fa n op data : Nat) : SyncAns × State → State
  | (.value v, t) => t.syncAnswer m (.reply v)
  | (.done, t) => t.syncAnswer m .ack
  | (.wait, t) => t.unbound m.asker m.tok
  | (.busy, t) => t.send { m.answer (.nackBusy fa n op data) with notBefore := s.now + waiterRetryCycles }

section
variable {s t : State} {m : Msg} {fa n op data v : Nat} (h : SyncOpen s m fa n op data)
include h

theorem syncIn_eq : s.syncIn m = bankReply s m fa n op data (s.bankSync (syncWaiter m fa n op data) m.who) := by
  have hclean : s.syncPoison (syncWaiter m fa n op data) = false := by rw [State.syncPoison, syncWaiter, h.clean, Bool.false_and]
  unfold syncWaiter at hclean ⊢
  unfold State.syncIn
  rw [h.body]
  dsimp only
  rw [h.admitted]
  dsimp only
  rw [h.copies, hclean, Bool.and_false]
  rfl

theorem syncIn_value (hs : s.bankSync (syncWaiter m fa n op data) m.who = (.value v, t)) : s.syncIn m = t.syncAnswer m (.reply v) := by
  rw [syncIn_eq h, hs]; rfl
theorem syncIn_done (hs : s.bankSync (syncWaiter m fa n op data) m.who = (.done, t)) : s.syncIn m = t.syncAnswer m .ack := by rw [syncIn_eq h, hs]; rfl
theorem syncIn_wait (hs : s.bankSync (syncWaiter m fa n op data) m.who = (.wait, t)) : s.syncIn m = t.unbound m.asker m.tok := by
  rw [syncIn_eq h, hs]; rfl
theorem syncIn_busy (hs : s.bankSync (syncWaiter m fa n op data) m.who = (.busy, t)) :
    s.syncIn m = t.send { m.answer (.nackBusy fa n op data) with notBefore := s.now + waiterRetryCycles } := by rw [syncIn_eq h, hs]; rfl
end

section
variable {s : State} {x : Waiter} {who : Nat}

theorem bankSync_ldf (ho : x.op = 0) (hf : s.full x.fa = true) : s.bankSync x who = (.value (s.read x.fa x.n), s) := by
  unfold State.bankSync; rw [ho, hf]; rfl
theorem bankSync_lde (ho : x.op = 1) (hf : s.full x.fa = true) : s.bankSync x who = (.value (s.read x.fa x.n), s.empty x.fa who) := by
  unfold State.bankSync; rw [ho, hf]; rfl
theorem bankSync_feq (ho : x.op = 2) : s.bankSync x who = (.value (boolN (s.full x.fa)), s) := by unfold State.bankSync; rw [ho]; rfl
theorem bankSync_store (ho : (x.op = 3 ∧ s.full x.fa = false) ∨ x.op = 4) : s.bankSync x who = (.done, s.storeFill x.fa x.n x.data who) := by
  unfold State.bankSync
  rcases ho with ⟨ho, hf⟩ | ho
  · rw [ho, hf]; rfl
  · rw [ho]; rfl
theorem bankSync_fec (ho : x.op = 5) : s.bankSync x who = (.done, s.empty x.fa who) := by unfold State.bankSync; rw [ho]; rfl

/-- A form that must wait asks for a place among the waiters. -/
theorem bankSync_waits (hw : (x.op ≤ 1 ∧ s.full x.fa = false) ∨ (x.op = 3 ∧ s.full x.fa = true)) : s.bankSync x who = s.enqueue x := by
  unfold State.bankSync
  rcases hw with ⟨ho, hf⟩ | ⟨ho, hf⟩
  · rcases Nat.le_one_iff_eq_zero_or_eq_one.mp ho with ho | ho <;> rw [ho, hf] <;> rfl
  · rw [ho, hf]; rfl

/-- The waiter joins those of its bank. -/
def waiting (s : State) (x : Waiter) : State := s.modSp (faSp x.fa) fun p => { p with waiters := p.waiters ++ [x] }

theorem enqueue_room (h : s.waitersIn x.fa < waiterSlots) : s.enqueue x = (.wait, waiting s x) := if_neg (by omega)
theorem enqueue_full (h : waiterSlots ≤ s.waitersIn x.fa) : s.enqueue x = (.busy, s) := if_pos h
end

/-- The answer of a bank to another spindle is a message. -/
theorem syncAnswer_away {m : Msg} (h : m.src ≠ m.dst) (s : State) (b : Body) : s.syncAnswer m b = s.send (m.answer b) := if_neg (by simpa using h)

theorem fullEmptyRequestsAreServed : FullEmptyRequestsAreServed := by
  intro s m fa n op data ha hne hwf hb hr hc hp i f done waits
  have hu := onlyMessages_arrived s m
  have hopen : SyncOpen (arrived s m) m fa n op data :=
    ⟨hb, by rw [refuses_congr hu, hr], by rw [OnlyMessages.inCopyRegion hu, hc], by rw [OnlyMessages.poisoned hu, hp]⟩
  have hfull (a : Nat) : (arrived s m).full a = s.full a := hu.sameMemory.full a
  have hbyte (a : Nat) : (arrived s m).byte a = s.byte a := hu.sameMemory.bytes a
  have hwf' : (arrived s m).mem.wf = true := by rw [hu.mem]; exact hwf
  have hexec {t : State} (h : (arrived s m).syncIn m = t) : exec i s = .next t := congrArg Host.Outcome.next ((onArrive_eq _ ha (by rw [hb])).trans h)
  have hwait (hw : waits) : (arrived s m).bankSync (syncWaiter m fa n op data) m.who = (arrived s m).enqueue (syncWaiter m fa n op data) :=
    bankSync_waits (hw.imp (fun h => ⟨h.1, (hfull fa).trans h.2⟩) fun h => ⟨h.1, (hfull fa).trans h.2⟩)
  have hanswered {t : State} {b : Body} (hin : (arrived s m).syncIn m = t.syncAnswer m b) (ht : OnlyBanks (arrived s m) t) {e : State → Prop}
      (he : ∀ z, SameMemory t z → e z) : done b e := by
    rw [syncAnswer_away hne] at hin
    have hv := onlyMessages_send t (m.answer b)
    exact ⟨_, hexec hin, (hv.ctxs.trans ht.ctxs).trans hu.ctxs, replied_send .., he _ hv.sameMemory⟩
  have hnw (h : NoWaiter s fa) : NoWaiter (arrived s m) fa := fun x hx => h x (by rwa [OnlyMessages.waiters hu] at hx)
  have hemptied {z : State} (h : NoWaiter s fa) (hz : SameMemory ((arrived s m).empty fa m.who) z) :
      (∀ a, z.byte a = s.byte a) ∧ FeAt s z fa false := by
    obtain ⟨-, hmem, -, hfu⟩ := empty_facts (hnw h) m.who
    refine ⟨fun a => (hz.bytes a).trans (by rw [State.byte, hmem]; exact hbyte a), feAt_of_eq fun a => ?_⟩
    rw [hz.full, hfu, hfull]
  refine ⟨fun ho hf => ?_, fun ho => ?_, fun hn => ⟨fun ho hf => ?_, fun ho => ?_, fun ho => ?_⟩, fun hw hroom => ?_, fun hw hroom => ?_⟩
  · refine justAnswers_arrived (hexec ?_)
    rw [syncIn_value hopen (bankSync_ldf ho ((hfull fa).trans hf)), syncAnswer_away hne, syncWaiter, OnlyMessages.read hu]
  · refine justAnswers_arrived (hexec ?_)
    rw [syncIn_value hopen (bankSync_feq ho), syncAnswer_away hne, syncWaiter, hfull]
    rfl
  · have hin := syncIn_value hopen (bankSync_lde ho ((hfull fa).trans hf))
    rw [syncWaiter, OnlyMessages.read hu] at hin
    exact hanswered hin (empty_facts (hnw hn) m.who).1 fun z hz => hemptied hn hz
  · have hin := syncIn_done hopen (bankSync_store (ho.imp_left fun h => ⟨h.1, (hfull fa).trans h.2⟩))
    rw [syncWaiter, storeFill_of_noWaiter (hnw hn)] at hin
    refine hanswered hin (onlyBanks_storeFE ..) fun z hz => ⟨?_, feAt_of_eq fun a => ?_⟩
    · have hby := bytes_of_mem (n := n) (v := data) hwf' (storeFE_mem (arrived s m) fa n data m.who true)
      exact ⟨fun i hi => (hz.bytes _).trans (hby.inside i hi), fun a h => (hz.bytes a).trans ((hby.outside a h).trans (hbyte a))⟩
    · rw [hz.full, full_storeFE, hfull]
  · have hin := syncIn_done hopen (bankSync_fec ho)
    exact hanswered hin (empty_facts (hnw hn) m.who).1 fun z hz => hemptied hn hz
  · let t := waiting (arrived s m) (syncWaiter m fa n op data)
    have hin : (arrived s m).syncIn m = t.unbound m.asker m.tok :=
      syncIn_wait hopen ((hwait hw).trans (enqueue_room (show (arrived s m).waitersIn fa < waiterSlots by rw [OnlyMessages.waitersIn hu]; exact hroom)))
    have hmem : SameMemory (arrived s m) (t.unbound m.asker m.tok) := sameMemory_of_eq rfl rfl rfl
    refine ⟨_, hexec hin, sameMemory_trans hu.sameMemory hmem, arrived_msgs s m, ?_, fun htok => ?_⟩
    · have hsp := congrArg Spindle.waiters (spindle_modSp_same (arrived s m) (faSp fa) fun p => { p with waiters := p.waiters ++ [syncWaiter m fa n op data] })
      have hlocal : (m.src == m.dst) = false := beq_eq_false_iff_ne.mpr hne
      refine hsp.trans ?_
      dsimp only
      rw [OnlyMessages.waiters hu, syncWaiter, hlocal]
    · have htok' : ((arrived s m).ctx m.asker).tok = m.tok := by rw [hu.ctx]; exact htok
      rw [State.unbound, ctx_modCtx_same, show t.ctx m.asker = (arrived s m).ctx m.asker from rfl, htok']
      simp
  · have hin := syncIn_busy hopen ((hwait hw).trans (enqueue_full (show waiterSlots ≤ (arrived s m).waitersIn fa by rw [OnlyMessages.waitersIn hu]; exact hroom)))
    refine ⟨_, hexec hin, onlyMessages_reply hu _, ?_⟩
    rw [send_msgs, arrived_msgs, arrived_nextMsg, hu.now]
    rfl

/-! ### Requests that found the table full (R22, R129, R329) -/

/-- The package once the answer that says busy is taken. -/
def busyTaken (s : State) (m : Msg) : State := (if m.postFront then s else s.received m).dropMsg m.id

theorem onlyMessages_busyTaken (s : State) (m : Msg) : OnlyMessages s (busyTaken s m) := by
  unfold busyTaken
  split
  · exact onlyMessages_dropMsg ..
  · exact onlyMessages_arrived s m

theorem busyTaken_msgs (s : State) (m : Msg) : (busyTaken s m).msgs = without s m := by
  unfold busyTaken
  split
  · rfl
  · exact arrived_msgs s m

theorem busyTaken_nextMsg (s : State) (m : Msg) : (busyTaken s m).nextMsg = s.nextMsg := by
  unfold busyTaken
  split
  · rfl
  · exact arrived_nextMsg s m

/-- The request that is sent again. -/
def againMsg (m : Msg) (fa n op data : Nat) : Msg :=
  { id := 0, cls := .request, src := m.dst, dst := m.src, job := m.job, ctx := m.ctx, tok := m.tok, va := m.va, who := m.who, rel := m.rel,
    body := .sync fa n op data }

/-- A context whose time counts anew. -/
def stamped (now tok : Nat) (c : Context) : Context :=
  { c with sentAt := if c.tok == tok then now else c.sentAt, bounded := if c.tok == tok then true else c.bounded,
           rels := c.rels.map fun o => if o.tok == tok then { o with sentAt := now } else o }

/-- The package with that context. -/
def restarted (s : State) (m : Msg) : State := s.modCtx m.key (stamped s.now m.tok)

theorem modCtx_modCtx (s : State) (k : Nat) (f g : Context → Context) : (s.modCtx k f).modCtx k g = s.modCtx k fun c => g (f c) := by
  simp only [State.modCtx, State.setCtx, State.ctx, get_set_same, set_set]

theorem restarted_eq {s : State} {m : Msg} (h : m.tok ≠ 0) :
    ((s.restartTime m.key m.tok).modCtx m.key fun c => if c.tok == m.tok then { c with bounded := true } else c) = restarted s m := by
  rw [State.restartTime, if_neg h, restarted, modCtx_modCtx]
  refine congrArg (s.modCtx m.key) (funext fun c => ?_)
  dsimp only [stamped]
  cases c.tok == m.tok <;> rfl

section
variable {s : State} {m : Msg} {fa n op data : Nat}

/-- What the retry does once its time has come. -/
theorem waiterAgain_eq (hm : s.msgs.find? (fun x => x.id == m.id) = some m) (hb : m.body = .nackBusy fa n op data) (hnb : m.notBefore ≤ s.now)
    (hlog : m.logged = false) (hlf : s.logFirst m = true) (hfront : s.frontHolds m = false) (htok : m.tok ≠ 0) : s.waiterAgain m.id =
    let u := busyTaken s m
    if s.awaits m || (s.relOf m).isSome || m.rel then
      if m.src == m.dst then (restarted u m).syncIn (againMsg m fa n op data) else (restarted u m).send (againMsg m fa n op data)
    else u := by
  have hu := onlyMessages_busyTaken s m
  have ha : (busyTaken s m).awaits m = s.awaits m := by simp only [State.awaits, hu.ctx]
  have hr : (busyTaken s m).relOf m = s.relOf m := by simp only [State.relOf, hu.ctx]
  have hopen : (decide (s.now < m.notBefore) || m.logged || !s.logFirst m) = false := by simp [hlog, hlf]; omega
  unfold State.waiterAgain
  rw [hm]
  dsimp only
  rw [hb]
  dsimp only
  rw [hopen, hfront, ← ha, ← hr, restarted_eq htok]
  rfl

/-- The package in which the form tries again. -/
theorem restarted_frame (s : State) (m : Msg) : ∃ l, restarted (busyTaken s m) m = { busyTaken s m with ctxs := l } := ⟨_, rfl⟩

theorem restarted_ctx (s : State) (m : Msg) : (restarted (busyTaken s m) m).ctx m.key = stamped s.now m.tok (s.ctx m.key) := by
  have hu := onlyMessages_busyTaken s m
  rw [restarted, ctx_modCtx_same, hu.ctx, hu.now]

theorem restarted_ctx_ne (s : State) {m : Msg} {q : Nat} (h : q ≠ m.key) : (restarted (busyTaken s m) m).ctx q = s.ctx q :=
  (ctx_modCtx_ne _ _ h).trans ((onlyMessages_busyTaken s m).ctx q)

theorem restarted_memory (s : State) (m : Msg) : SameMemory s (restarted (busyTaken s m) m) :=
  sameMemory_trans (onlyMessages_busyTaken s m).sameMemory (sameMemory_of_eq rfl rfl rfl)

/-- The trap of a retry that is refused. -/
theorem restarted_freezes {k cause : Nat} {addr : Word} (hk : k = m.key) (hh : HandledAt s k) :
    Freezes s ((restarted (busyTaken s m) m).takeTrap k (((restarted (busyTaken s m) m).ctx k).unit.info cause addr)) k cause addr := by
  subst hk
  have hu := onlyMessages_busyTaken s m
  have hctx := restarted_ctx s m
  have hh' : HandledAt (restarted (busyTaken s m) m) m.key :=
    handledAt_congr (handledAt_of_onlyMessages hu hh) (by rw [hctx, hu.ctx]; rfl) (fun x hx => (restarted_ctx_ne s hx).trans (hu.ctx x).symm)
      fun n => ⟨rfl, rfl, rfl, rfl⟩
  obtain ⟨hst, ⟨r, hr, hcause, haddr, hpc'⟩, hpc, hregs, hoth, hmem⟩ :=
    freezes_takeTrap (r := ((restarted (busyTaken s m) m).ctx m.key).unit.info cause addr) hh' rfl rfl
  rw [hctx] at hpc' hpc hregs
  rw [hctx]
  rw [hctx] at hst hr hoth hmem
  exact ⟨hst, ⟨r, hr, hcause, haddr, hpc'⟩, hpc, hregs, fun x hx => (hoth x hx).trans (restarted_ctx_ne s hx), sameMemory_trans (restarted_memory s m) hmem⟩

/-- The load of a retry that is answered. -/
theorem restarted_completes {d : Reg} {k v w : Nat} {sx : Bool} (hk : k = m.key) (hko : (s.ctx k).kont = .load d w sx) :
    WaitEnds s ((restarted (busyTaken s m) m).complete k v) k fun c => c.setReg d (widen sx w v) := by
  subst hk
  have hctx := restarted_ctx s m
  have hko' : ((restarted (busyTaken s m) m).ctx m.key).kont = .load d w sx := by rw [hctx]; exact hko
  have hgo : (restarted (busyTaken s m) m).complete m.key v = (restarted (busyTaken s m) m).modCtx m.key fun c =>
      ((c.setReg d (widen sx w v)).advance).woken s.now := by
    unfold State.complete
    dsimp only
    rw [hko', ← extend_eq_widen]
    exact congrArg (fun t => (restarted (busyTaken s m) m).modCtx m.key fun c => ((c.setReg d (extend v w sx)).advance).woken t) (onlyMessages_busyTaken s m).now
  have hend : ((restarted (busyTaken s m) m).complete m.key v).ctx m.key =
      (((stamped s.now m.tok (s.ctx m.key)).setReg d (widen sx w v)).advance).woken s.now := by rw [hgo, ctx_modCtx_same, hctx]
  refine ⟨by rw [hend]; exact ⟨rfl, rfl, rfl, rfl⟩, by rw [hend]; rfl, by rw [hend]; rfl, by rw [hend]; exact ⟨rfl, rfl, rfl, rfl, rfl⟩, fun x hx => ?_, ?_⟩
  · rw [hgo, ctx_modCtx_ne _ _ hx, restarted_ctx_ne s hx]
  · rw [hgo]
    exact sameMemory_trans (restarted_memory s m) (sameMemory_of_eq rfl rfl rfl)
end

section
variable {s : State} {m : Msg} {fa n op data : Nat}

/-- The form's answer at the own bank is awaited. -/
theorem awaits_again (haw : s.awaits m = true) (b : Body) : (restarted (busyTaken s m) m).awaits ((againMsg m fa n op data).answer b) = true := by
  have hctx := restarted_ctx s m
  have e : (restarted (busyTaken s m) m).awaits ((againMsg m fa n op data).answer b) =
      (((restarted (busyTaken s m) m).ctx m.key).st == .parked && ((restarted (busyTaken s m) m).ctx m.key).tok == m.tok && m.tok != 0) := rfl
  rw [e, hctx]
  exact haw

/-- A form at the own bank that tries again there is refused, answered or waits. -/
theorem retried_at_bank (heq : m.src = m.dst) (haw : s.awaits m = true) (hgo : s.waiterAgain m.id =
      if s.awaits m || (s.relOf m).isSome || m.rel then
        if m.src == m.dst then (restarted (busyTaken s m) m).syncIn (againMsg m fa n op data)
        else (restarted (busyTaken s m) m).send (againMsg m fa n op data)
      else busyTaken s m) : let i := Instr.waiterRetry m.id; let k := m.key
    (∀ cause, s.refuses m.src m.dst fa n (syncKind op) = some cause → HandledAt s k → ∃ t, exec i s = .next t ∧ Freezes s t k cause m.va) ∧
    (s.refuses m.src m.dst fa n (syncKind op) = none → s.inCopyRegion fa n = false → s.poisoned fa n = false →
      (∀ d sx, op = 0 → s.full fa = true → n ∈ [1, 2, 4, 8] → (s.ctx k).kont = .load d n sx → ∃ t, exec i s = .next t ∧
        WaitEnds s t k fun c => c.setReg d (widen sx n (s.read fa n))) ∧
      (s.full fa = false → op ≤ 1 → s.waitersIn fa < waiterSlots → ∃ t, exec i s = .next t ∧ SameMemory s t ∧ (t.ctx k).st = .parked ∧
        (t.ctx k).bounded = false ∧ (t.spindle (faSp fa)).waiters = (s.spindle (faSp fa)).waiters ++
          [{ sp := m.dst, ctx := m.ctx, tok := m.tok, op := op, fa := fa, n := n, data := data, local_ := true, who := m.who }])) := by
  intro i k
  have hu := onlyMessages_busyTaken s m
  let u := restarted (busyTaken s m) m
  let y := againMsg m fa n op data
  have hlocal : (y.src == y.dst) = true := beq_iff_eq.mpr heq.symm
  have hexec {t : State} (h : u.syncIn y = t) : exec i s = .next t :=
    congrArg Host.Outcome.next (hgo.trans ((if_pos (by rw [haw]; rfl)).trans ((if_pos (beq_iff_eq.mpr heq)).trans h)))
  have hrefuses : u.refuses y.dst y.src fa n (syncKind op) = s.refuses m.src m.dst fa n (syncKind op) := refuses_congr hu ..
  have hfull : u.full fa = s.full fa := OnlyMessages.full hu fa
  have hread : u.read fa n = s.read fa n := OnlyMessages.read hu fa n
  refine ⟨fun cause href hh => ?_, fun href hc hp => ?_⟩
  · have hin : u.syncIn y = u.takeTrap k ((u.ctx k).unit.info cause m.va) := by
      rw [syncIn_refused (s := u) (m := y) rfl (hrefuses.trans href), State.syncRefusal, if_pos hlocal, if_pos (awaits_again haw .ack)]
      rfl
    exact ⟨_, hexec hin, restarted_freezes rfl hh⟩
  · have hopen : SyncOpen u y fa n op data :=
      ⟨rfl, hrefuses.trans href, (OnlyMessages.inCopyRegion hu ..).trans hc, (OnlyMessages.poisoned hu ..).trans hp⟩
    refine ⟨fun d sx ho hf hn hko => ?_, fun hf ho hroom => ?_⟩
    · have hin : u.syncIn y = u.complete k (s.read fa n) := by
        rw [syncIn_value hopen (bankSync_ldf ho (hfull.trans hf)), State.syncAnswer, if_pos hlocal, if_pos (awaits_again haw _), ← hread]
        rfl
      exact ⟨_, hexec hin, restarted_completes rfl hko⟩
    · let t := waiting u (syncWaiter y fa n op data)
      have hin : u.syncIn y = t.unbound k m.tok :=
        syncIn_wait hopen ((bankSync_waits (.inl ⟨ho, hfull.trans hf⟩)).trans (enqueue_room (by
          change (busyTaken s m).waitersIn fa < waiterSlots
          rw [OnlyMessages.waitersIn hu]; exact hroom)))
      have hparked : (s.ctx k).st = .parked ∧ (s.ctx k).tok = m.tok := by
        simp only [State.awaits, Bool.and_eq_true, beq_iff_eq] at haw
        exact haw.1
      have hk : (t.unbound k m.tok).ctx k = { stamped s.now m.tok (s.ctx k) with bounded := false } := by
        have hctx : t.ctx k = stamped s.now m.tok (s.ctx k) := restarted_ctx s m
        have htok : (stamped s.now m.tok (s.ctx k)).tok = m.tok := hparked.2
        rw [State.unbound, ctx_modCtx_same, hctx]
        exact if_pos (beq_iff_eq.mpr htok)
      refine ⟨_, hexec hin, sameMemory_trans (restarted_memory s m) (sameMemory_of_eq rfl rfl rfl), by rw [hk]; exact hparked.1, by rw [hk], ?_⟩
      have hsp := congrArg Spindle.waiters (spindle_modSp_same u (faSp fa) fun p => { p with waiters := p.waiters ++ [syncWaiter y fa n op data] })
      refine hsp.trans ?_
      have hold : (u.spindle (faSp fa)).waiters = (s.spindle (faSp fa)).waiters := OnlyMessages.waiters hu _
      dsimp only
      rw [hold, syncWaiter, hlocal]
      rfl
end

theorem busyRequestsAreSentAgain : BusyRequestsAreSentAgain := by
  intro s m fa n op data hm hb hnb hlog hlf hfront htok i k c
  have hu := onlyMessages_busyTaken s m
  have hgo := waiterAgain_eq hm hb hnb hlog hlf hfront htok
  have hctx := restarted_ctx s m
  refine ⟨fun haw hrel hr => ?_, fun hne hw => ?_, fun heq haw => ?_⟩
  · exact ⟨_, congrArg Host.Outcome.next (hgo.trans (if_neg (by simp [haw, hrel, hr]))), hu, busyTaken_msgs s m⟩
  · have hwait : (s.awaits m || (s.relOf m).isSome || m.rel) = true := by simpa [or_assoc] using hw
    let u := restarted (busyTaken s m) m
    have hv := onlyMessages_send u (againMsg m fa n op data)
    have hk : (u.send (againMsg m fa n op data)).ctx k = stamped s.now m.tok c := (hv.ctx k).trans hctx
    refine ⟨_, congrArg Host.Outcome.next (hgo.trans ((if_pos hwait).trans (if_neg (by simpa using hne)))), sameMemory_trans (restarted_memory s m) hv.sameMemory,
      ?_, by rw [hk]; rfl, fun ht => ?_, ?_, fun q hq => (hv.ctx q).trans (restarted_ctx_ne s hq)⟩
    · rw [send_msgs]
      exact congrArg₂ (fun l i => l ++ [{ againMsg m fa n op data with id := i }]) (busyTaken_msgs s m) (busyTaken_nextMsg s m)
    · rw [hk]; simp [stamped, ht]
    · rw [hk]; simp only [stamped, beq_iff_eq]
  · exact retried_at_bank heq haw hgo

/-- Settles O38: a request by what its home looks at, and by what it does once it is let in. -/
theorem homesServeRequests : Obligations.HomesServeRequests :=
  ⟨plainRequestsAreServed, recordedStoresWaitForTheirTurn, refusedRequestsDoNothing, fullEmptyRequestsAreServed, busyRequestsAreSentAgain⟩

end Sys2Proof.Laws
end

section
/-!
PROOFS. The bank atomics (R131, R132): what each writes, what its register takes, and the float atomics (R195).
-/
namespace Sys2Proof.Laws
open Sys2Proof Sys2Proof.Machine Sys2Proof.Claims Sys2Proof.Config

/-! ### Bytes of a number -/

theorem readN_lt (m : Memory) (fa n : Nat) : m.readN fa n < 256 ^ n := by
  induction n generalizing fa with
  | zero => exact Nat.one_pos
  | succ n ih =>
    have h0 : (m.read fa).toNat < 256 := (m.read fa).isLt
    have h1 := ih (fa + 1)
    rw [Memory.readN, Nat.pow_succ']
    omega

/-- The bytes that a read shows. -/
theorem read_of_readN (m : Memory) (fa n : Nat) {i : Nat} (hi : i < n) : m.read (fa + i) = BitVec.ofNat 8 (m.readN fa n / 256 ^ i) := by
  induction n generalizing fa i with
  | zero => omega
  | succ n ih =>
    have h0 : (m.read fa).toNat < 256 := (m.read fa).isLt
    cases i with
    | zero =>
      refine BitVec.eq_of_toNat_eq ?_
      rw [BitVec.toNat_ofNat, Memory.readN, Nat.pow_zero, Nat.div_one, Nat.add_mul_mod_self_left, Nat.add_zero, Nat.mod_eq_of_lt h0]
    | succ i =>
      have hdiv : ((m.read fa).toNat + 256 * m.readN (fa + 1) n) / 256 = m.readN (fa + 1) n := by omega
      rw [show fa + (i + 1) = fa + 1 + i by omega, ih (fa + 1) (by omega), Memory.readN, Nat.pow_succ', ← Nat.div_div_eq_div_mul, hdiv]

theorem bytes_of_same {s t : State} (h : ∀ a, t.byte a = s.byte a) (fa n : Nat) : Bytes s t fa n (s.read fa n) where
  inside i hi := (h _).trans (read_of_readN s.mem fa n hi)
  outside a _ := h a

/-! ### An atomic at the own bank (R131, R132) -/

/-- A register is written after changes which leave contexts alone. -/
theorem gotReg_setG {s u : State} (hc : ∀ k, u.ctx k = s.ctx k) (hcur : u.cur = s.cur) (d : Reg) (v : Word) : GotReg s (u.setG d v) d v := by
  have hme : u.me = s.me := by rw [State.me, hcur, hc]; rfl
  refine ⟨fun k hk => (ctx_setG_ne _ _ _ (hcur ▸ hk)).trans (hc k), ?_, fun r hr => ?_, ?_, ?_⟩
  · rw [me_setG]; simp
  · rw [me_setG, reg_advance, reg_setReg_ne _ _ hr, hme]
  · rw [me_setG, hme]; rfl
  · rw [me_setG, hme]; rfl

section
variable {s : State} {a : Reg} {w : Bool} {fa : Nat}

/-- An atomic whose page is found at the own spindle, with nothing in its way, comes to its bank. -/
theorem amo_own (h : Own s (s.me.reg a) needRW (wBytes w) fa) (hc : s.inCopyRegion fa (wBytes w) = false) (hp : s.poisoned fa (wBytes w) = false)
    (op : Nat) (d b c : Reg) : let u := s.touch (s.me.reg a)
    s.amo op d a b c w = (u.bankAtomic fa (wBytes w) op (lowBytes s b (wBytes w)) (lowBytes s c (wBytes w)) u.myWho).2.setG d
      (widen (!decide (10 ≤ op)) (wBytes w) (s.read fa (wBytes w))) := by
  obtain ⟨p, hx, -, -⟩ := h.page
  have hu := OnlyTlbs.touch s (s.me.reg a)
  have hhome : faSp fa = (s.touch (s.me.reg a)).here := by rw [hu.here]; exact h.home
  have hlow (r : Reg) (k : Nat) : (s.me.reg r).toNat % 2 ^ (8 * k) = lowBytes s r k := by rw [lowBytes, Nat.pow_mul]
  have hp' : (s.touch (s.me.reg a)).poisoned fa (wBytes w) = false := by simpa [State.poisoned] using hp
  have hread : (s.touch (s.me.reg a)).read fa (wBytes w) = s.read fa (wBytes w) := by simp [State.read]
  simp only [State.amo, h.aligned, hx, State.onChk, hu.noRels h.rels, hhome, hu.inCopyRegion, hc, hp', hlow, bne_self_eq_false, Bool.false_eq_true, if_false,
    if_true, State.bankAtomic, atomicResult, extend_eq_widen, hread]

/-- Its old value in the register, its new value in memory. -/
theorem amo_gives (hwf : s.mem.wf = true) (h : Own s (s.me.reg a) needRW (wBytes w) fa) (hc : s.inCopyRegion fa (wBytes w) = false)
    (hp : s.poisoned fa (wBytes w) = false) {op new : Nat} {d b c : Reg}
    (hnew : (atomicNew op (wBytes w) (s.read fa (wBytes w)) (lowBytes s b (wBytes w)) (lowBytes s c (wBytes w))).getD (s.read fa (wBytes w)) = new) :
    let t := s.amo op d a b c w
    GotReg s t d (widen (!decide (10 ≤ op)) (wBytes w) (s.read fa (wBytes w))) ∧ Bytes s t fa (wBytes w) new ∧ ∀ x, t.full x = s.full x := by
  intro t
  have hu := OnlyTlbs.touch s (s.me.reg a)
  have hread : (s.touch (s.me.reg a)).read fa (wBytes w) = s.read fa (wBytes w) := by simp [State.read]
  obtain ⟨hbanks, hfull, hsome, hnone⟩ := bankAtomic_facts (s := s.touch (s.me.reg a)) (by rw [touch_mem]; exact hwf) fa (wBytes w) op
    (lowBytes s b (wBytes w)) (lowBytes s c (wBytes w)) (s.touch (s.me.reg a)).myWho
  rw [hread] at hsome hnone
  have ht : t = _ := amo_own h hc hp op d b c
  rw [ht]
  generalize ((s.touch (s.me.reg a)).bankAtomic fa (wBytes w) op (lowBytes s b (wBytes w)) (lowBytes s c (wBytes w)) (s.touch (s.me.reg a)).myWho).2 = z
    at hbanks hfull hsome hnone
  refine ⟨gotReg_setG (fun k => (hbanks.ctx k).trans (hu.ctx k)) (hbanks.cur.trans hu.cur) d _, ?_, fun x => (hfull x).trans (hu.sameMemory.full x)⟩
  cases hat : atomicNew op (wBytes w) (s.read fa (wBytes w)) (lowBytes s b (wBytes w)) (lowBytes s c (wBytes w)) with
  | none =>
    rw [hat] at hnew
    obtain rfl : s.read fa (wBytes w) = new := hnew
    rw [hnone hat]
    exact bytes_of_same (t := (s.touch (s.me.reg a)).setG d _) (fun x => hu.sameMemory.bytes x) fa _
  | some x =>
    rw [hat] at hnew
    obtain rfl : x = new := hnew
    obtain ⟨hby, -⟩ := hsome x hat
    exact ⟨hby.inside, fun y hy => (hby.outside y hy).trans (hu.sameMemory.bytes y)⟩
end

/-- The integer atomics on bit vectors (R132). -/
theorem atomicNew_int (n old v c : Nat) (ho : old < 2 ^ (8 * n)) (hv : v < 2 ^ (8 * n)) : let x := BitVec.ofNat (8 * n) old; let y := BitVec.ofNat (8 * n) v
    atomicNew 0 n old v c = some (x + y).toNat ∧ atomicNew 1 n old v c = some (x &&& y).toNat ∧ atomicNew 2 n old v c = some (x ||| y).toNat ∧
    atomicNew 3 n old v c = some (x ^^^ y).toNat ∧ atomicNew 4 n old v c = some (if y.slt x then v else old) ∧
    atomicNew 5 n old v c = some (if x.slt y then v else old) := by
  intro x y
  have hx : x.toNat = old := by rw [BitVec.toNat_ofNat, Nat.mod_eq_of_lt ho]
  have hy : y.toNat = v := by rw [BitVec.toNat_ofNat, Nat.mod_eq_of_lt hv]
  have hslt (p q : BitVec (8 * n)) : p.slt q = decide (p.toInt < q.toInt) := rfl
  refine ⟨?_, ?_, ?_, ?_, ?_, ?_⟩
  · rw [BitVec.toNat_add, hx, hy]; rfl
  · rw [BitVec.toNat_and, hx, hy]; rfl
  · rw [BitVec.toNat_or, hx, hy]; rfl
  · rw [BitVec.toNat_xor, hx, hy]; rfl
  · rw [hslt, ← signExt_eq, ← signExt_eq]; simp [atomicNew]
  · rw [hslt, ← signExt_eq, ← signExt_eq]; simp [atomicNew]

theorem atomicsGiveTheOldValue : AtomicsGiveTheOldValue := by
  intro s d a b c w fa n old v hwf hc hp h f x y go
  have hn : wBytes w = n := wBytes_eq w
  have hpow : 256 ^ n = 2 ^ (8 * n) := by rw [Nat.pow_mul]
  have hold : old < 2 ^ (8 * n) := hpow ▸ readN_lt s.mem fa n
  have hv : v < 2 ^ (8 * n) := hpow ▸ Nat.mod_lt _ (Nat.pow_pos (by decide))
  have hf : (if n = 8 then fp64 else fp32) = f := by cases w <;> rfl
  obtain ⟨h0, h1, h2, h3, h4, h5⟩ := atomicNew_int n old v (lowBytes s 0 n) hold hv
  rw [← hn] at hc hp h
  have gives {i : Instr} {op new : Nat} {e : Reg} (hexec : exec i s = .next (s.amo op d a b e w))
      (hnew : (atomicNew op n old v (lowBytes s e n)).getD old = new) : go i (!decide (10 ≤ op)) new := by
    have hg := amo_gives (d := d) hwf h hc hp (op := op) (new := new) (b := b) (c := e) (by rw [hn]; exact hnew)
    rw [hn] at hg
    exact ⟨_, hexec, hg⟩
  refine ⟨gives (op := 0) rfl (by rw [h0]; rfl), gives (op := 1) rfl (by rw [h1]; rfl), gives (op := 2) rfl (by rw [h2]; rfl), gives (op := 3) rfl (by rw [h3]; rfl),
    gives (op := 4) rfl (by rw [h4]; rfl), gives (op := 5) rfl (by rw [h5]; rfl), gives (op := 6) rfl rfl, gives (op := 7) rfl rfl, gives (op := 8) rfl rfl,
    gives (op := 9) rfl ?_, gives (op := 10) rfl ?_, gives (op := 11) rfl ?_, gives (op := 12) rfl ?_⟩
  · change (if old = lowBytes s c n then some v else none).getD old = _
    split <;> rfl
  · rw [← hf]; rfl
  · rw [← hf]; rfl
  · rw [← hf]; rfl

/-! ### The float atomics (R132, R195) -/

section
variable {f : Fmt} {x y : Nat}

theorem minMaxIeee_nan (hx : x < 2 ^ f.bits) (hy : y < 2 ^ f.bits) (mx : Bool) (h : (f.decode x).isNaN = true ∨ (f.decode y).isNaN = true) :
    minMaxIeee f mx x y = f.nan := (fpMinMax_nan (mag := false) rfl hx hy h).1 rfl

theorem minMaxIeee_numbers (hx : x < 2 ^ f.bits) (hy : y < 2 ^ f.bits) (mx : Bool) (hnx : ¬ (f.decode x).isNaN = true) (hny : ¬ (f.decode y).isNaN = true) :
    minMaxIeee f mx x y = if picksFirst 0 mx (f.decode x) (f.decode y) then x else y := fpMinMax_numbers (mag := false) rfl hx hy hnx hny

/-- An infinity has one code. -/
theorem eq_infCode (hf : IsIeee f) (hx : x < 2 ^ f.bits) {n : Bool} (h : f.decode x = .inf n) : x = f.withSign n f.infCode := by
  have hg := goodFmt_ieee hf
  have hp := Nat.two_pow_pos f.mb
  obtain ⟨hs, -⟩ := ieee_codes hf
  have hs1 : f.special ≠ 1 := by omega
  obtain ⟨k, c, hc, rfl⟩ := exists_withSign hx
  rcases Nat.lt_or_ge f.maxFin c with hm | hm
  · have hfield : c / 2 ^ f.mb = 2 ^ f.eb - 1 := by
      have h3 : c / 2 ^ f.mb < 2 ^ f.eb := Nat.div_lt_of_lt_mul (by rwa [← Nat.pow_add, Nat.add_comm f.mb])
      have h4 : 2 ^ f.eb - 1 ≤ c / 2 ^ f.mb := (Nat.le_div_iff_mul_le hp).mpr (by have := maxFin_add_one hs1 hg; rw [← Fmt.infCode]; omega)
      omega
    rw [decode_withSign k hc, if_neg (by simp [hs]), if_pos (by simp [hs, hfield])] at h
    split at h
    case isTrue hz =>
      have hz := beq_iff_eq.mp hz
      have hmod := Nat.div_add_mod' c (2 ^ f.mb)
      rw [hfield, hz] at hmod
      cases h
      rw [Fmt.infCode, hmod.symm.trans (Nat.add_zero _)]
    case isFalse => cases h
  · rw [decode_finite hg k hm] at h
    cases h

theorem round_of_inf (hf : IsIeee f) (hx : x < 2 ^ f.bits) {n : Bool} (h : f.decode x = .inf n) : (f.round 0 (.inf n)).1 = x := by
  rw [round_inf hf, eq_infCode hf hx h]

section
variable {a b : Fl} (ha : f.decode x = a) (hb : f.decode y = b)
include ha hb

theorem addRne_eq : addRne f x y = (f.round 0 (Fl.add 0 a b).1).1 := by rw [addRne, ha, hb]

/-- What AFADD does with a NaN or an infinity (R195). -/
theorem addRne_special (hf : IsIeee f) (hx : x < 2 ^ f.bits) (hy : y < 2 ^ f.bits) :
    (a.isNaN = true ∨ b.isNaN = true → addRne f x y = f.nan) ∧ (a.isInf = true → b.isInf = true → a ≠ b → addRne f x y = f.nan) ∧
    (a.isInf = true → b.isFin = true ∨ b = a → addRne f x y = x) ∧ (b.isInf = true → a.isFin = true → addRne f x y = y) := by
  rw [addRne_eq ha hb]
  cases a with
  | nan p =>
    have hnan : (f.round 0 (Fl.add 0 (.nan p) b).1).1 = f.nan := by cases b <;> rfl
    exact ⟨fun _ => hnan, nofun, nofun, nofun⟩
  | inf p =>
    cases b with
    | nan q => exact ⟨fun _ => rfl, nofun, fun _ h => by simp [Fl.isFin] at h, nofun⟩
    | inf q =>
      refine ⟨fun h => by simp [Fl.isNaN] at h, fun _ _ hne => ?_, fun _ h => ?_, fun _ h => by simp [Fl.isFin] at h⟩
      · have hpq : (p == q) = false := beq_eq_false_iff_ne.mpr fun e => hne (by rw [e])
        rw [Fl.add, hpq]; rfl
      · obtain rfl : q = p := by simpa [Fl.isFin] using h
        rw [Fl.add, beq_self_eq_true]; exact round_of_inf hf hx ha
    | fin n m e => exact ⟨fun h => by simp [Fl.isNaN] at h, nofun, fun _ _ => round_of_inf hf hx ha, nofun⟩
  | fin k l d =>
    cases b with
    | nan q => exact ⟨fun _ => rfl, nofun, nofun, nofun⟩
    | inf q => exact ⟨fun h => by simp [Fl.isNaN] at h, nofun, nofun, fun _ _ => round_of_inf hf hy hb⟩
    | fin n m e => exact ⟨fun h => by simp [Fl.isNaN] at h, nofun, nofun, nofun⟩

/-- AFADD of numbers rounds their exact sum; a sum that is zero is −0 where both are negative (R195). -/
theorem addRne_numbers (hfa : a.isFin = true) (hfb : b.isFin = true) :
    (∃ v : Fl, v.isFin = true ∧ valueOf v = valueOf a + valueOf b ∧ addRne f x y = (f.round 0 v).1) ∧
    (valueOf a + valueOf b = 0 → addRne f x y = f.withSign (a.neg && b.neg) 0) := by
  rw [addRne_eq ha hb]
  cases a with
  | nan p => cases hfa
  | inf p => cases hfa
  | fin k l d =>
    cases b with
    | nan q => cases hfb
    | inf q => cases hfb
    | fin n m e =>
      obtain ⟨hfin, hval⟩ := valueOf_addFin 0 k l d n m e
      refine ⟨⟨_, hfin, hval, rfl⟩, fun hz => ?_⟩
      rw [show (Fl.add 0 (.fin k l d) (.fin n m e)).1 = addFin 0 k l d n m e from rfl, addFin_of_sum_zero hz]
      cases k <;> cases n <;> rfl
end
end

theorem floatAtomicsFollowIeee : FloatAtomicsFollowIeee := by
  intro f x y hf hx hy a b s lo hi minus
  have hi3 : IsIeee f := by rcases hf with h | h <;> simp [IsIeee, h]
  obtain ⟨hnan, hunlike, hinfx, hinfy⟩ := addRne_special (x := x) (y := y) rfl rfl hi3 hx hy
  have plus : (0 : Nat) = f.withSign false 0 := (withSign_false f 0).symm
  have below {p q : Nat} (hp : p < 2 ^ f.bits) (hq : q < 2 ^ f.bits) (h : Below (f.decode p) (f.decode q)) (mx : Bool) :
      minMaxIeee f mx p q = (if mx then q else p) ∧ minMaxIeee f mx q p = (if mx then q else p) := by
    obtain ⟨hn1, hn2⟩ := not_nan_of_below h
    obtain ⟨h1, h2⟩ := picksFirst_of_below 0 mx h
    rw [minMaxIeee_numbers hp hq mx hn1 hn2, minMaxIeee_numbers hq hp mx hn2 hn1, h1, h2]
    cases mx <;> exact ⟨rfl, rfl⟩
  have zeros (n k : Bool) (ex : x = f.withSign n 0) (ey : y = f.withSign k 0) (mx : Bool) : ∃ e d,
      minMaxIeee f mx x y = if picksFirst 0 mx (.fin n 0 e) (.fin k 0 d) then x else y := by
    obtain ⟨e, he⟩ := decode_zero hi3 n
    obtain ⟨d, hd⟩ := decode_zero hi3 k
    have hdx : f.decode x = .fin n 0 e := by rw [ex, he]
    have hdy : f.decode y = .fin k 0 d := by rw [ey, hd]
    exact ⟨e, d, by rw [minMaxIeee_numbers hx hy mx (by rw [hdx]; exact Bool.false_ne_true) (by rw [hdy]; exact Bool.false_ne_true), hdx, hdy]⟩
  refine ⟨fun h => ⟨hnan h, minMaxIeee_nan hx hy false h, minMaxIeee_nan hx hy true h⟩, hunlike, hinfx, hinfy, fun ha hb => addRne_numbers rfl rfl ha hb,
    fun h => ⟨(below hx hy h false).1, (below hx hy h true).1⟩, fun h => ⟨(below hy hx h false).2, (below hy hx h true).2⟩, fun h hn => ?_,
    fun ex ey => ?_, fun ex ey => ?_⟩
  · subst h
    have hn' : ¬ (f.decode x).isNaN = true := by rw [show (f.decode x).isNaN = false from hn]; exact Bool.false_ne_true
    exact ⟨(minMaxIeee_numbers hx hx false hn' hn').trans (ite_self x), (minMaxIeee_numbers hx hx true hn' hn').trans (ite_self x)⟩
  · obtain ⟨e, d, h⟩ := zeros true false ex (ey.trans plus) false
    obtain ⟨e', d', h'⟩ := zeros true false ex (ey.trans plus) true
    exact ⟨h.trans (by rw [((picksFirst_zeros false e d).1 (by decide)).1]; rfl), h'.trans (by rw [((picksFirst_zeros true e' d').1 (by decide)).1]; rfl)⟩
  · obtain ⟨e, d, h⟩ := zeros false true (ex.trans plus) ey false
    obtain ⟨e', d', h'⟩ := zeros false true (ex.trans plus) ey true
    exact ⟨h.trans (by rw [((picksFirst_zeros (mode := 0) false e d).1 (by decide)).2]; rfl),
      h'.trans (by rw [((picksFirst_zeros (mode := 0) true e' d').1 (by decide)).2]; rfl)⟩

/-- Settles O19: the bank writes what the form's code says, and the float codes follow the rounding of the sum and the order of values. -/
theorem atomicsAtTheOwnBank : Obligations.AtomicsAtTheOwnBank := ⟨atomicsGiveTheOldValue, floatAtomicsFollowIeee⟩

end Sys2Proof.Laws
end

section
/-! PROOFS. The quantisation of an MX block (R215): the largest magnitude, its power of two, and RoundMag on a rising grid. -/

namespace Sys2Proof.Laws
open Sys2Proof Sys2Proof.Machine Sys2Proof.Claims Sys2Proof.Config

/-! ### Magnitudes and scales -/

theorem isFin_abs (v : Fl) : v.abs.isFin = v.isFin := by cases v <;> rfl

theorem valueOf_abs (v : Fl) : valueOf v.abs = |valueOf v| := by
  cases v with
  | nan s => simp [Fl.abs, valueOf]
  | inf n => simp [Fl.abs, valueOf]
  | fin n m e =>
    have h : (0 : ℚ) ≤ m * 2 ^ e := by positivity
    cases n <;> simp [Fl.abs, valueOf_fin, abs_of_nonneg h]

theorem valueOf_scale (v : Fl) (k : ℤ) : valueOf (v.scale k) = valueOf v * 2 ^ k := by
  cases v with
  | nan s => simp [Fl.scale, valueOf]
  | inf n => simp [Fl.scale, valueOf]
  | fin n m e => rw [Fl.scale, valueOf_fin, valueOf_fin, zpow_add₀ (by norm_num)]; ring

theorem isFin_scale (v : Fl) (k : ℤ) : (v.scale k).isFin = v.isFin := by cases v <;> rfl

/-- Comparison of two finite values is that of their numbers. -/
theorem cmp_of_fin {a b : Fl} (ha : a.isFin = true) (hb : b.isFin = true) :
    (a.cmp b < 0 ↔ valueOf a < valueOf b) ∧ (a.cmp b = 0 ↔ valueOf a = valueOf b) := by
  cases a with
  | nan s => cases ha
  | inf n => cases ha
  | fin n m e =>
    cases b with
    | nan s => cases hb
    | inf k => cases hb
    | fin k l d =>
      refine ⟨cmp_neg_iff, ?_⟩
      rw [cmp_eq_zero_iff, below_fin, below_fin, not_lt, not_lt, and_comm, le_antisymm_iff]

theorem isZero_iff {v : Fl} (h : v.isFin = true) : v.isZero = true ↔ valueOf v = 0 := by
  cases v with
  | nan s => cases h
  | inf n => cases h
  | fin n m e =>
    rw [valueOf_eq_zero]
    cases m <;> simp [Fl.isZero]

/-! ### The largest of a list -/

/-- The larger of two values, the first where they are equal. -/
def largerOf (a x : Fl) : Fl := if a.cmp x < 0 then x else a

theorem largerOf_spec {a x : Fl} (ha : a.isFin = true) (hx : x.isFin = true) :
    (largerOf a x).isFin = true ∧ valueOf (largerOf a x) = max (valueOf a) (valueOf x) := by
  unfold largerOf
  split
  case isTrue h => exact ⟨hx, (max_eq_right ((cmp_of_fin ha hx).1.mp h).le).symm⟩
  case isFalse h => exact ⟨ha, (max_eq_left (not_lt.mp fun e => h ((cmp_of_fin ha hx).1.mpr e))).symm⟩

theorem foldl_largerOf (l : List Fl) (a : Fl) (ha : a.isFin = true) (hl : ∀ v ∈ l, v.isFin = true) :
    (l.foldl largerOf a).isFin = true ∧ valueOf (l.foldl largerOf a) = l.foldl (fun m v => max m (valueOf v)) (valueOf a) := by
  induction l generalizing a with
  | nil => exact ⟨ha, rfl⟩
  | cons x xs ih =>
    obtain ⟨hf, hv⟩ := largerOf_spec ha (hl x (by simp))
    rw [List.foldl_cons, List.foldl_cons, ← hv]
    exact ih _ hf fun v h => hl v (by simp [h])

/-- The largest magnitude of finite values: it bounds them, and it is one of them unless all are zero. -/
theorem maxFl_abs {x : List Fl} (h : ∀ v ∈ x, v.isFin = true) : (maxFl (x.map Fl.abs)).isFin = true ∧
    (∀ v ∈ x, |valueOf v| ≤ valueOf (maxFl (x.map Fl.abs))) ∧
    (valueOf (maxFl (x.map Fl.abs)) = 0 ∨ ∃ v ∈ x, |valueOf v| = valueOf (maxFl (x.map Fl.abs))) := by
  obtain ⟨hf, hv⟩ := foldl_largerOf (x.map Fl.abs) (.zero false) rfl (by simpa [isFin_abs] using h)
  have e : (maxFl (x.map Fl.abs)) = (x.map Fl.abs).foldl largerOf (.zero false) := rfl
  have fold (l : List Fl) (a : ℚ) : (∀ v ∈ l, |valueOf v| ≤ (l.map Fl.abs).foldl (fun m v => max m (valueOf v)) a) ∧
      a ≤ (l.map Fl.abs).foldl (fun m v => max m (valueOf v)) a ∧
      ((l.map Fl.abs).foldl (fun m v => max m (valueOf v)) a = a ∨
        ∃ v ∈ l, |valueOf v| = (l.map Fl.abs).foldl (fun m v => max m (valueOf v)) a) := by
    induction l generalizing a with
    | nil => simp
    | cons y ys ih =>
      rw [List.map_cons, List.foldl_cons, valueOf_abs]
      obtain ⟨h1, h2, h3⟩ := ih (max a |valueOf y|)
      refine ⟨?_, (le_max_left ..).trans h2, ?_⟩
      · rintro v (_ | ⟨_, hm⟩)
        · exact (le_max_right ..).trans h2
        · exact h1 v hm
      · rcases h3 with h3 | ⟨v, hm, h3⟩
        · rcases max_choice a |valueOf y| with hc | hc
          · exact .inl (h3.trans hc)
          · exact .inr ⟨y, by simp, (h3.trans hc).symm⟩
        · exact .inr ⟨v, by simp [hm], h3⟩
  rw [e, hv, valueOf_zero]
  obtain ⟨h1, -, h3⟩ := fold x 0
  rw [e] at *
  exact ⟨hf, h1, h3⟩

/-- `floorLog2` gives the power of two below a positive number. -/
theorem floorLog2_eq {v : Fl} {k : ℤ} (hf : v.isFin = true) (hlo : (2 : ℚ) ^ k ≤ valueOf v) (hhi : valueOf v < (2 : ℚ) ^ (k + 1)) : floorLog2 v = k := by
  cases v with
  | nan s => cases hf
  | inf n => cases hf
  | fin n m e =>
    have hpos : 0 < valueOf (.fin n m e) := (show (0 : ℚ) < 2 ^ k by positivity).trans_le hlo
    have hm : m ≠ 0 := by rintro rfl; rw [valueOf_eq_zero.mpr rfl] at hpos; exact lt_irrefl 0 hpos
    have hval : valueOf (.fin n m e) = m * 2 ^ e := by
      rw [valueOf_fin] at hpos ⊢
      have : (0 : ℚ) ≤ m * 2 ^ e := by positivity
      cases n
      · simp
      · simp at hpos; linarith
    have h1 : (2 : ℚ) ^ (Nat.log2 m : ℤ) ≤ m := by rw [zpow_natCast]; exact_mod_cast Nat.log2_self_le hm
    have h2 : (m : ℚ) < 2 ^ (Nat.log2 m + 1 : ℤ) := by exact_mod_cast Nat.lt_log2_self
    have he : (0 : ℚ) < 2 ^ e := by positivity
    have h3 : (2 : ℚ) ^ ((Nat.log2 m : ℤ) + e) ≤ m * 2 ^ e := by rw [zpow_add₀ (by norm_num)]; exact mul_le_mul_of_nonneg_right h1 he.le
    have h4 : (m : ℚ) * 2 ^ e < 2 ^ ((Nat.log2 m : ℤ) + 1 + e) := by rw [zpow_add₀ (by norm_num) _ e]; exact mul_lt_mul_of_pos_right h2 he
    rw [hval] at hlo hhi
    have h5 := (zpow_lt_zpow_iff_right₀ (by norm_num : (1 : ℚ) < 2)).mp (h3.trans_lt hhi)
    have h6 := (zpow_lt_zpow_iff_right₀ (by norm_num : (1 : ℚ) < 2)).mp (hlo.trans_lt h4)
    rw [floorLog2]; omega

/-! ### RoundMag on a rising grid (R207) -/

/-- The code `g` gives the grid's number nearest `q`, ties to the even code. -/
def NearestCode (val : ℕ → ℚ) (size : ℕ) (q : ℚ) (g : ℕ) : Prop :=
  g < size ∧ ∀ y, y < size → |q - val g| ≤ |q - val y| ∧ (|q - val g| = |q - val y| → y ≠ g → g % 2 = 0)

/-- Between the midpoints with its two neighbours, on one of them only with an even code. -/
structure BetweenMidpoints (val : ℕ → ℚ) (size : ℕ) (q : ℚ) (g : ℕ) : Prop where
  inside : g < size
  above : ∀ i, g = i + 1 → val i + val g < 2 * q ∨ val i + val g = 2 * q ∧ g % 2 = 0
  below : g + 1 < size → 2 * q < val g + val (g + 1) ∨ 2 * q = val g + val (g + 1) ∧ g % 2 = 0

theorem nearest_of_betweenMidpoints {val : ℕ → ℚ} {size : ℕ} {q : ℚ} {g : ℕ} (hup : ∀ i j, i < j → j < size → val i < val j)
    (h : BetweenMidpoints val size q g) : NearestCode val size q g := by
  refine ⟨h.inside, fun y hy => ?_⟩
  rcases lt_trichotomy y g with hlt | rfl | hgt
  · obtain ⟨i, rfl⟩ : ∃ i, g = i + 1 := ⟨g - 1, by omega⟩
    have hle : val y ≤ val i := by
      rcases Nat.lt_or_ge y i with hyi | hyi
      · exact (hup y i hyi (by have := h.inside; omega)).le
      · rw [show y = i by omega]
    have hg := hup i (i + 1) (by omega) h.inside
    have hm : val i + val (i + 1) ≤ 2 * q := by rcases h.above i rfl with h | h <;> linarith
    rw [abs_of_nonneg (a := q - val y) (by linarith)]
    refine ⟨abs_le.mpr ⟨by linarith, by linarith⟩, fun e _ => ?_⟩
    rcases h.above i rfl with hs | hs
    · have : |q - val (i + 1)| < q - val y := abs_lt.mpr ⟨by linarith, by linarith⟩
      linarith
    · exact hs.2
  · exact ⟨le_refl _, fun _ h => absurd rfl h⟩
  · have hle : val (g + 1) ≤ val y := by
      rcases Nat.lt_or_ge (g + 1) y with hyi | hyi
      · exact (hup (g + 1) y hyi hy).le
      · rw [show y = g + 1 by omega]
    have hg := hup g (g + 1) (by omega) (by omega)
    have hm : 2 * q ≤ val g + val (g + 1) := by rcases h.below (by omega) with h | h <;> linarith
    rw [abs_of_nonpos (a := q - val y) (by linarith)]
    refine ⟨abs_le.mpr ⟨by linarith, by linarith⟩, fun e _ => ?_⟩
    rcases h.below (by omega) with hs | hs
    · have : |q - val g| < -(q - val y) := abs_lt.mpr ⟨by linarith, by linarith⟩
      linarith
    · exact hs.2

/-- A list of finite values whose numbers are `val`, from the code `i` on. -/
def GridFrom (val : ℕ → ℚ) (i : ℕ) (l : List Fl) : Prop := ∀ j (h : j < l.length), l[j].isFin = true ∧ valueOf l[j] = val (i + j)

theorem GridFrom.tail {val : ℕ → ℚ} {i : ℕ} {g : Fl} {l : List Fl} (h : GridFrom val i (g :: l)) : GridFrom val (i + 1) l := fun j hj => by
  have := h (j + 1) (by simpa using hj)
  rwa [List.getElem_cons_succ, show i + (j + 1) = i + 1 + j by omega] at this

/-- The midpoint that RoundMag compares with. -/
theorem midpoint_spec {a b : Fl} (ha : a.isFin = true) (hb : b.isFin = true) :
    ((Fl.add 0 a b).1.scale (-1)).isFin = true ∧ valueOf ((Fl.add 0 a b).1.scale (-1)) = (valueOf a + valueOf b) / 2 := by
  cases a with
  | nan s => cases ha
  | inf n => cases ha
  | fin n m e =>
    cases b with
    | nan s => cases hb
    | inf k => cases hb
    | fin k l d =>
      obtain ⟨hf, hv⟩ := valueOf_addFin 0 n m e k l d
      rw [isFin_scale, valueOf_scale, show (Fl.add 0 (.fin n m e) (.fin k l d)).1 = addFin 0 n m e k l d from rfl, hv]
      exact ⟨hf, by rw [zpow_neg_one]; ring⟩

theorem betweenMidpoints_go {val : ℕ → ℚ} {size : ℕ} {v : Fl} (hv : v.isFin = true) (hup : ∀ i j, i < j → j < size → val i < val j)
    (l : List Fl) (i : ℕ) (hl : GridFrom val i l) (hlen : i + l.length = size) (hne : l ≠ [])
    (hlow : ∀ j, i = j + 1 → val j + val i < 2 * valueOf v) : BetweenMidpoints val size (valueOf v) (roundGrid.go v l i) := by
  induction l generalizing i with
  | nil => exact absurd rfl hne
  | cons g t ih =>
    cases t with
    | nil => exact ⟨by simp [roundGrid.go] at *; omega, fun j hj => .inl (hlow j hj), fun h => by simp [roundGrid.go] at *; omega⟩
    | cons h t =>
      obtain ⟨hgf, hgv⟩ := hl 0 (by simp)
      obtain ⟨hhf, hhv⟩ := hl 1 (by simp)
      obtain ⟨hmf, hmv⟩ := midpoint_spec hgf hhf
      obtain ⟨hlt, heq⟩ := cmp_of_fin hv hmf
      simp only [List.getElem_cons_zero, List.getElem_cons_succ, Nat.add_zero] at hgv hhv hlt heq hmv
      rw [hmv, hgv, hhv] at hlt heq
      simp only [List.length_cons] at hlen
      rw [roundGrid.go]
      split_ifs with hc hz hev
      · exact ⟨by omega, fun j hj => .inl (hlow j hj), fun _ => .inl (by linarith [hlt.mp hc])⟩
      · exact ⟨by omega, fun j hj => .inl (hlow j hj), fun _ => .inr ⟨by linarith [heq.mp hz], hev⟩⟩
      · refine ⟨by omega, fun j hj => .inr ⟨?_, by omega⟩, fun hs => .inl ?_⟩
        · obtain rfl : i = j := by omega
          linarith [heq.mp hz]
        · have := hup i (i + 1) (by omega) (by omega)
          have := hup (i + 1) (i + 1 + 1) (by omega) hs
          linarith [heq.mp hz]
      · refine ih (i + 1) hl.tail (by simp only [List.length_cons]; omega) (by simp) fun j hj => ?_
        obtain rfl : i = j := by omega
        rcases lt_trichotomy (valueOf v) ((val i + val (i + 1)) / 2) with h | h | h
        · exact absurd (hlt.mpr h) hc
        · exact absurd (heq.mpr h) hz
        · linarith

/-- RoundMag on a rising grid gives the nearest code. -/
theorem nearest_roundGrid {val : ℕ → ℚ} {l : List Fl} {v : Fl} (hv : v.isFin = true) (hup : ∀ i j, i < j → j < l.length → val i < val j)
    (hl : GridFrom val 0 l) (hne : l ≠ []) : NearestCode val l.length (valueOf v) (roundGrid l v) :=
  nearest_of_betweenMidpoints hup (betweenMidpoints_go hv hup l 0 hl (Nat.zero_add _) hne fun j hj => by omega)

/-! ### The grids of MX8 and MX4 (R211) -/

/-- The numbers of the element codes of MX8 and MX4. -/
def mxGrid (mx8 : Bool) (g : ℕ) : ℚ := if mx8 then valueOf (e4m3.decode g) else ([0, 1 / 2, 1, 3 / 2, 2, 3, 4, 6] : List ℚ).getD g 0

theorem goodFmt_e4m3 : GoodFmt e4m3 := goodFmt_float (.inr (.inr (.inr (.inr (.inl rfl)))))

theorem decode_e4m3 {g : ℕ} (h : g < 0x7F) : (e4m3.decode g).isFin = true ∧ ((valueOf (e4m3.decode g) : ℚ) : ℝ) = magVal e4m3 g := by
  have hm : g ≤ e4m3.maxFin := by rw [show e4m3.maxFin = 0x7E from rfl]; omega
  have h1 := decode_finite goodFmt_e4m3 false hm
  have h2 := valueOf_withSign goodFmt_e4m3 false hm
  rw [withSign_false] at h1 h2
  exact ⟨by rw [h1]; rfl, h2⟩

theorem mxGrid_rises {mx8 : Bool} {i j : ℕ} (hij : i < j) (hj : j < if mx8 then 0x7F else 8) : mxGrid mx8 i < mxGrid mx8 j := by
  cases mx8 with
  | true =>
    have hj : j < 0x7F := hj
    have h := magVal_strictMono e4m3 hij
    rw [← (decode_e4m3 hj).2, ← (decode_e4m3 (hij.trans hj)).2] at h
    exact_mod_cast h
  | false =>
    have hj : j < 8 := hj
    interval_cases j <;> interval_cases i <;> norm_num [mxGrid]

theorem gridFrom_blkGrid (mx8 : Bool) : GridFrom (mxGrid mx8) 0 (blkGrid (if mx8 then 2 else 3)) := by
  intro j hj
  cases mx8 with
  | true =>
    have hj : j < 0x7F := by simpa [blkGrid] using hj
    simpa [blkGrid, mxGrid] using (decode_e4m3 hj).1
  | false =>
    have hj : j < 8 := by simpa [blkGrid] using hj
    interval_cases j <;> norm_num [blkGrid, mxGrid, mx4Mag, valueOf_fin, List.range_succ, Fl.isFin]

theorem length_blkGrid (mx8 : Bool) : (blkGrid (if mx8 then 2 else 3)).length = if mx8 then 0x7F else 8 := by cases mx8 <;> rfl

/-! ### The block -/

section
variable {x : List Fl} {mx8 : Bool}

/-- The scale that R215 gives a block of finite values. -/
def mxScale (x : List Fl) (mx8 : Bool) : ℕ :=
  let am := maxFl (x.map Fl.abs)
  if am.isZero then 0 else (satI (floorLog2 am - (if mx8 then 8 else 2) + 127) 0 254).toNat

theorem quantMx_of_not_fin (h : ∃ v ∈ x, v.isFin = false) (f : BlkFmt) : quantMx x f = (0xFF, x.map fun _ => 0) := by
  rw [quantMx, if_pos (by simpa using h)]

theorem quantMx_of_fin (h : ∀ v ∈ x, v.isFin = true) (mx8 : Bool) : quantMx x (if mx8 then 2 else 3) =
    (mxScale x mx8, x.map fun v => (if v.neg then (if mx8 then 128 else 8) else 0) +
      roundGrid (blkGrid (if mx8 then 2 else 3)) (v.abs.scale (127 - (mxScale x mx8 : ℤ)))) := by
  rw [quantMx, if_neg (by simpa using h)]
  cases mx8 <;> rfl

theorem satI_eq (v lo hi : ℤ) (h : lo ≤ hi) : satI v lo hi = max lo (min hi v) := by unfold satI; split_ifs <;> omega

theorem mxScale_of_zero (h : ∀ v ∈ x, v.isFin = true) (hz : ∀ v ∈ x, valueOf v = 0) : mxScale x mx8 = 0 := by
  obtain ⟨hf, -, hm⟩ := maxFl_abs h
  have h0 : valueOf (maxFl (x.map Fl.abs)) = 0 := by
    rcases hm with hm | ⟨v, hv, hm⟩
    · exact hm
    · rw [← hm, hz v hv, abs_zero]
  rw [mxScale, if_pos ((isZero_iff hf).mpr h0)]

theorem mxScale_of_largest (h : ∀ v ∈ x, v.isFin = true) {am : ℚ} {k : ℤ} (hin : ∃ v ∈ x, |valueOf v| = am) (hle : ∀ v ∈ x, |valueOf v| ≤ am)
    (hlo : (2 : ℚ) ^ k ≤ am) (hhi : am < (2 : ℚ) ^ (k + 1)) :
    (mxScale x mx8 : ℤ) = max 0 (min 254 (k - (if mx8 then 8 else 2) + 127)) := by
  obtain ⟨hf, hbound, hm⟩ := maxFl_abs h
  obtain ⟨v, hv, hva⟩ := hin
  have hpos : 0 < am := (show (0 : ℚ) < 2 ^ k by positivity).trans_le hlo
  have hle2 : am ≤ valueOf (maxFl (x.map Fl.abs)) := hva ▸ hbound v hv
  have heq : valueOf (maxFl (x.map Fl.abs)) = am := by
    rcases hm with hm | ⟨w, hw, hm⟩
    · rw [hm] at hle2; linarith
    · exact le_antisymm (hm ▸ hle w hw) hle2
  have hz : ¬ (maxFl (x.map Fl.abs)).isZero = true := fun e => by rw [isZero_iff hf, heq] at e; linarith
  rw [mxScale, if_neg hz, floorLog2_eq hf (heq ▸ hlo) (heq ▸ hhi), satI_eq _ _ _ (by norm_num)]
  exact Int.toNat_of_nonneg (le_max_left ..)

theorem nearestCode_element (mx8 : Bool) {v : Fl} (hv : v.isFin = true) (c : ℕ) :
    NearestCode (mxGrid mx8) (if mx8 then 0x7F else 8) (|valueOf v| / (2 : ℚ) ^ ((c : ℤ) - 127))
      (roundGrid (blkGrid (if mx8 then 2 else 3)) (v.abs.scale (127 - (c : ℤ)))) := by
  have h := nearest_roundGrid (l := blkGrid (if mx8 then 2 else 3)) (v := v.abs.scale (127 - (c : ℤ))) (by rw [isFin_scale, isFin_abs, hv])
    (fun i j hij hj => mxGrid_rises hij (length_blkGrid mx8 ▸ hj)) (gridFrom_blkGrid mx8) (by cases mx8 <;> decide)
  have e : valueOf (v.abs.scale (127 - (c : ℤ))) = |valueOf v| / (2 : ℚ) ^ ((c : ℤ) - 127) := by
    rw [valueOf_scale, valueOf_abs, show (127 - (c : ℤ)) = -((c : ℤ) - 127) by ring, zpow_neg, ← div_eq_mul_inv]
  rwa [length_blkGrid, e] at h
end

theorem blocksAreQuantised : BlocksAreQuantised := by
  intro x mx8 f r em size sign grid
  refine ⟨fun h => quantMx_of_not_fin h f, fun h => ?_⟩
  have hr : r = _ := quantMx_of_fin h mx8
  rw [hr]
  refine ⟨by simp, mxScale_of_zero h, fun am k => mxScale_of_largest h, fun i v hi => ?_⟩
  obtain ⟨hg, hn⟩ := nearestCode_element mx8 (h v (List.mem_of_getElem? hi)) (mxScale x mx8)
  exact ⟨_, hg, by rw [List.getElem?_map, hi, Option.map_some, add_comm], hn⟩

end Sys2Proof.Laws
end

section
/-!
PROOFS. ST at the own spindle (R115, R124), and LD and ST of MX pages, whose blocks are quantised again at a store (R109, R125, R215 to
R217).
-/
namespace Sys2Proof.Laws
open Sys2Proof Sys2Proof.Machine Sys2Proof.Claims Sys2Proof.Config

/-! ### A store at its bank -/

/-- A store in place, with no copy region and no poison in its way: its page's write, after what races and replay note of it. -/
theorem storeHere_clean {u : State} {akind fa n : Nat} (hc : u.hitsCopy akind fa n = false) (hp : u.pagePoison akind fa n true = false) (va : Word)
    (v : Nat) : ∃ l, u.storeHere va fa akind n v = (({ u with spindles := l } : State).pageWrite akind fa n v u.myWho).retire id := by
  obtain ⟨l, e⟩ := noteStore_eq u fa u.here (keyCtx u.cur) u.myWho u.me.born false
  exact ⟨l, by rw [State.storeHere, hc, hp, e]; rfl⟩

/-- The poison that a store of up to eight aligned bytes leaves. -/
theorem contains_poisonAfter (s : State) {fa n : Nat} (hn : n < 8 ∨ n = 8 ∧ fa % 8 = 0) (a : Nat) :
    (poisonAfter s fa n).contains a = (s.poison.contains a && !(n == 8 && a == fa)) := by
  rcases hn with hn | ⟨rfl, hfa⟩
  · rw [poisonAfter, if_pos hn, beq_false_of_ne (by omega), Bool.false_and, Bool.not_false, Bool.and_true]
  · have hwords : wholeWords fa 8 = [fa] := by
      have hroom : (fa % 8 + 8 + 7) / 8 = 1 := by omega
      have hfirst : wordOf fa = fa := by unfold wordOf; omega
      unfold wholeWords wordsOf
      rw [hroom, hfirst]
      simp
    rw [poisonAfter, if_neg (lt_irrefl 8), hwords, Bool.eq_iff_iff]
    simp

/-- The frame of a page keeps the alignment of an address to a word. -/
theorem fa_mod_eight {p : PageEntry} {ea : Word} (hp : p.frame % 8 = 0) : p.fa ea % 8 = ea.toNat % 8 := by
  unfold PageEntry.fa
  split <;> omega

/-- ST at the own spindle (R115, R124). -/
theorem stored_st {s : State} {ea : Word} {n fa : Nat} (hn : n < 8 ∨ n = 8) (hwf : s.mem.wf = true) (hcopy : s.inCopyRegion fa n = false)
    (hpoison : n = 8 ∨ s.poisoned fa n = false) (h : Own s ea needW n fa) (d : Reg) : Stored s (s.st d ea n) fa n (lowBytes s d n) := by
  have hu := OnlyTlbs.touch s ea
  have hfa : n < 8 ∨ n = 8 ∧ fa % 8 = 0 := hn.imp_right fun e => ⟨e, by
    obtain ⟨p, hx, -, hframe⟩ := h.page
    have ha := h.aligned
    rw [← (xlate_eq_ok_iff.mp hx).2.2.2.2, fa_mod_eight hframe, ← e, ha]⟩
  have hc : (s.touch ea).hitsCopy 0 fa n = false := (hu.inCopyRegion fa n).trans hcopy
  have hp : (s.touch ea).pagePoison 0 fa n true = false := by
    rw [State.pagePoison, if_pos rfl, State.poisoned, touch_poison]
    rcases hpoison with rfl | hp
    · rfl
    · rw [State.poisoned] at hp; rw [hp, Bool.and_false]
  obtain ⟨l, e⟩ := storeHere_clean hc hp ea (lowBytes s d n)
  have hb := onlyBanks_store { s.touch ea with spindles := l } fa n (lowBytes s d n) (s.touch ea).myWho
  rw [st_own h, e]
  refine ⟨wentOn_retire (fun k => (hb.ctx k).trans (hu.ctx k)) (hb.cur.trans hu.cur), bytes_of_mem hwf ?_, fun a => ?_, fun a => ?_⟩
  · exact (store_mem ..).trans (by rw [touch_mem])
  · exact (full_store ..).trans (hu.sameMemory.full a)
  · rw [← contains_poisonAfter s hfa]
    exact congrArg (List.contains · a) ((store_poison ..).trans (by rw [poisonAfter, touch_poison]; rfl))

theorem plainStoresWriteTheirBytes : PlainStoresWriteTheirBytes := by
  intro s d a sz off l fa n hwf hcopy hpoison
  have hn : n < 8 ∨ n = 8 := by
    have h : sz.toNat ≤ 3 := by have := sz.isLt; omega
    have := Nat.pow_le_pow_right (n := 2) (by norm_num) h
    omega
  exact ⟨fun h => ⟨_, rfl, stored_st hn hwf hcopy hpoison h d⟩, fun h => ⟨_, rfl, stored_st hn hwf hcopy hpoison h d⟩⟩

/-! ### The block of an MX page (R216) -/

section
variable {s : State} {ea : Word} {need : Need} {n : Nat} {p : PageEntry}

/-- The address of an access in its MX frame. -/
def aliasAddr (p : PageEntry) (ea : Word) : Nat := p.frame + ea.toNat % pageSize p

theorem pageSize_cases (p : PageEntry) : p.big = true ∧ pageSize p = 2 ^ 22 ∨ p.big = false ∧ pageSize p = 2 ^ 16 := by
  unfold pageSize
  cases p.big <;> simp

theorem akind_ne_zero (h : OwnAlias s ea need n p) : p.akind ≠ 0 := by
  rcases h.kind with hk | hk <;> simp [PageEntry.akind, hk]

theorem akind_mod (h : OwnAlias s ea need n p) : p.akind % 4 = p.kind := by
  rcases h.kind with hk | hk <;> cases hb : p.big <;> simp [PageEntry.akind, hk, hb]

theorem aliasBlock_eq (h : OwnAlias s ea need n p) :
    aliasBlock p.akind (aliasAddr p ea) = (1 + p.kind, elemsAt p ea, 4 * elemBits p, scaleAt p ea) := by
  have hframe := h.frame
  have hsize : (if 4 ≤ p.akind then 2 ^ 22 else 2 ^ 16) = pageSize p := by
    rcases h.kind with hk | hk <;> rcases pageSize_cases p with ⟨hb, hs⟩ | ⟨hb, hs⟩ <;> simp [PageEntry.akind, hk, hb, hs]
  have hpos : 0 < pageSize p := by rcases pageSize_cases p with ⟨-, hs⟩ | ⟨-, hs⟩ <;> rw [hs] <;> norm_num
  have hlt := Nat.mod_lt ea.toNat hpos
  have hoff : aliasAddr p ea % pageSize p = ea.toNat % pageSize p := by
    rw [aliasAddr, Nat.add_mod, hframe, Nat.zero_add, Nat.mod_mod, Nat.mod_mod]
  have hbase : aliasAddr p ea - ea.toNat % pageSize p = p.frame := Nat.add_sub_cancel ..
  unfold aliasBlock
  dsimp only
  rw [hsize, hoff, hbase, akind_mod h]
  rcases h.kind with hk | hk <;> simp [elemsAt, scaleAt, elemBits, hk]

theorem blkElemBits_eq (h : OwnAlias s ea need n p) : blkElemBits (1 + p.kind) = elemBits p := by
  rcases h.kind with hk | hk <;> rw [elemBits, hk] <;> rfl

/-- A block's scale lies past its elements. -/
theorem elems_below_scale (h : OwnAlias s ea need n p) : elemsAt p ea + 4 * elemBits p ≤ scaleAt p ea := by
  unfold elemsAt scaleAt elemBits
  rcases h.kind with hk | hk <;> rcases pageSize_cases p with ⟨-, hs⟩ | ⟨-, hs⟩ <;> rw [hs, hk] <;>
    simp only [if_true, if_false, OfNat.ofNat_ne_one] <;> omega

theorem faSp_aliasAddr (h : OwnAlias s ea need n p) : faSp (aliasAddr p ea) = s.here := by
  have hframe := h.frame
  rw [← h.home]
  unfold faSp aliasAddr
  rcases pageSize_cases p with ⟨-, hs⟩ | ⟨-, hs⟩ <;> rw [hs] at hframe ⊢ <;> omega

theorem aliasAddr_lane (h : OwnAlias s ea need n p) : aliasAddr p ea % 64 / 2 = ea.toNat % 64 / 2 := by
  have hframe := h.frame
  unfold aliasAddr
  rcases pageSize_cases p with ⟨-, hs⟩ | ⟨-, hs⟩ <;> rw [hs] at hframe ⊢ <;> omega

theorem elemCode_eq (s : State) (p : PageEntry) (ea : Word) (i : Nat) :
    elemCode s p ea i = laneOf (s.read (elemsAt p ea) (4 * elemBits p)) (elemBits p) i := by
  rw [elemCode, laneOf, Nat.shiftRight_eq_div_pow]

/-- The values of a block in memory (R212). -/
theorem aliasValues_eq (h : OwnAlias s ea need n p) (u : State) :
    u.aliasValues p.akind (aliasAddr p ea) = (List.range 32).map (elemValue u p ea) := by
  unfold State.aliasValues
  rw [aliasBlock_eq h]
  dsimp only
  rw [blkElemBits_eq h]
  exact List.map_congr_left fun i _ => by rw [elemValue, elemCode_eq]

theorem getD_aliasValues {i : Nat} (hi : i < 32) (u : State) : ((List.range 32).map (elemValue u p ea)).getD i (.zero false) = elemValue u p ea i := by
  rw [List.getD_eq_getElem?_getD, List.getElem?_map, List.getElem?_range hi, Option.map_some, Option.getD_some]

/-! ### Loads of MX pages (R217) -/

theorem bf16_roundSat_lt (v : Fl) : bf16.roundSat v < 2 ^ 16 := by
  have hround (v : Fl) : (bf16.round 0 v).1 < 2 ^ 16 := round_lt (by simp [IsIeee]) 0 v
  cases v with
  | nan s => exact hround _
  | inf n => exact hround _
  | fin n m e =>
    unfold Fmt.roundSat
    dsimp only
    split
    · exact hround _
    · exact withSign_lt (f := bf16) n (by decide)

/-- What a load of an MX page gives. -/
def aliasLoad (s : State) (p : PageEntry) (ea : Word) (n : Nat) : Nat :=
  packLanes 16 ((List.range (n / 2)).map fun i => bf16.roundSat (elemValue s p ea (ea.toNat % 64 / 2 + i)))

/-- An even number of bytes, up to eight, aligned to their number, lies within the block of its address. -/
theorem lane_in_block {x n i : Nat} (hn : n = 2 ∨ n = 4 ∨ n = 8) (ha : x % n = 0) (hi : 2 * i < n) : x % 64 / 2 + i < 32 := by
  rcases hn with rfl | rfl | rfl <;> omega

theorem aliasRead_eq (h : OwnAlias s ea need n p) (hn : n = 2 ∨ n = 4 ∨ n = 8) (u : State) :
    u.aliasRead p.akind (aliasAddr p ea) n = aliasLoad u p ea n := by
  unfold State.aliasRead aliasLoad
  rw [aliasValues_eq h, aliasAddr_lane h]
  refine congrArg (packLanes 16) (List.map_congr_left fun i hi => ?_)
  have hi : i < n / 2 := List.mem_range.mp hi
  rw [getD_aliasValues (lane_in_block hn h.aligned (by omega)), blkTo]

theorem aliasLoad_lt (hn : n = 2 ∨ n = 4 ∨ n = 8) : aliasLoad s p ea n < 256 ^ n := by
  have h := packLanes_lt 16 ((List.range (n / 2)).map fun i => bf16.roundSat (elemValue s p ea (ea.toNat % 64 / 2 + i)))
  rw [List.length_map, List.length_range] at h
  rcases hn with rfl | rfl | rfl <;> exact h

theorem aliasLoad_lane {i : Nat} (hi : 2 * i < n) (hn : n % 2 = 0) :
    aliasLoad s p ea n / 2 ^ (16 * i) % 2 ^ 16 = bf16.roundSat (elemValue s p ea (ea.toNat % 64 / 2 + i)) := by
  have e : aliasLoad s p ea n / 2 ^ (16 * i) % 2 ^ 16 = laneOf (aliasLoad s p ea n) 16 i := by rw [laneOf, Nat.shiftRight_eq_div_pow]
  rw [e, aliasLoad, laneOf_packLanes, List.getD_eq_getElem?_getD, List.getElem?_map, List.getElem?_range (by omega), Option.map_some,
    Option.getD_some, Nat.mod_eq_of_lt (bf16_roundSat_lt _)]

theorem aliasPoisoned_eq (h : OwnAlias s ea need n p) (hc : CleanBlock s p ea) : (s.touch ea).aliasPoisoned p.akind (aliasAddr p ea) = false := by
  obtain ⟨h1, h2, -, -⟩ := hc
  unfold State.aliasPoisoned
  rw [aliasBlock_eq h]
  dsimp only
  rw [State.poisoned, State.poisoned, touch_poison]
  exact Bool.or_eq_false_iff.mpr ⟨h1, h2⟩

theorem hitsCopy_eq (h : OwnAlias s ea need n p) (hc : CleanBlock s p ea) : (s.touch ea).hitsCopy p.akind (aliasAddr p ea) n = false := by
  obtain ⟨-, -, h3, h4⟩ := hc
  have hu := OnlyTlbs.touch s ea
  unfold State.hitsCopy
  rw [if_neg (akind_ne_zero h), aliasBlock_eq h]
  dsimp only
  rw [hu.inCopyRegion, hu.inCopyRegion, h3, h4]
  rfl

/-- Two, four or eight bytes may be of an MX page (R109). -/
theorem plainNeed_two (need : Need) (hn : n = 2 ∨ n = 4 ∨ n = 8) : plainNeed need n = { need with alias_ := true } := by
  rcases hn with rfl | rfl | rfl <;> rfl

theorem elemValue_touch (s : State) (va : Word) (p : PageEntry) (ea : Word) : elemValue (s.touch va) p ea = elemValue s p ea := by
  have hr (fa n : Nat) : (s.touch va).read fa n = s.read fa n := by rw [State.read, touch_mem]; rfl
  funext i
  rw [elemValue, elemValue, elemCode, elemCode, hr, hr]

/-- LD of an MX page. -/
theorem ld_alias (hn : n = 2 ∨ n = 4 ∨ n = 8) (h : OwnAlias s ea needR n p) (hc : CleanBlock s p ea) (d : Reg) (sx : Bool) :
    Loaded s (s.ld d ea n sx) d (widen sx n (aliasLoad s p ea n)) := by
  have hu := OnlyTlbs.touch s ea
  have hwin : s.me.inWindow ea = false := (xlate_eq_ok_iff.mp h.page).1.resolve_left nofun
  have hhome : faSp (aliasAddr p ea) = (s.touch ea).here := by rw [hu.here]; exact faSp_aliasAddr h
  have hpage : s.xlate ea (plainNeed needR n) = .ok (aliasAddr p ea, p) := by rw [plainNeed_two needR hn]; exact h.page
  have hval : aliasLoad (s.touch ea) p ea n = aliasLoad s p ea n := by unfold aliasLoad; rw [elemValue_touch]
  have e : s.ld d ea n sx = (s.touch ea).setG d (widen sx n (aliasLoad s p ea n)) := by
    rw [ld_xlate h.aligned hwin, hpage]
    simp only [State.onChk, State.loadAt, hu.noRels h.rels, hhome, State.loadHere, State.pagePoison, State.pageRead, akind_ne_zero h,
      aliasPoisoned_eq h hc, aliasRead_eq h hn, hval, extend_eq_widen, Bool.false_eq_true, if_false, if_true]
  rw [e]
  exact loaded_touch_setG s ea d _

/-! ### Stores of MX pages (R217) -/

/-- The block that a store of `v` quantises again: the elements that it covers as BF16, the others at their values. -/
def storedValues (s : State) (p : PageEntry) (ea : Word) (n v : Nat) : List Fl :=
  (List.range 32).map fun i => if ea.toNat % 64 / 2 ≤ i ∧ i < ea.toNat % 64 / 2 + n / 2 then
    bf16.decode (v / 2 ^ (16 * (i - ea.toNat % 64 / 2)) % 2 ^ 16) else elemValue s p ea i

/-- The elements and the scale of a quantised block, stored (R216). -/
def putBlock (s : State) (p : PageEntry) (ea : Word) (q : Nat × List Nat) (who : Nat) : State :=
  (s.store (elemsAt p ea) (4 * elemBits p) (packLanes (elemBits p) q.2) who).store (scaleAt p ea) 1 q.1 who

theorem aliasPut_eq (h : OwnAlias s ea need n p) (u : State) (y : List Fl) (who : Nat) :
    u.aliasPut p.akind (aliasAddr p ea) y who = putBlock u p ea (quantMx y (1 + p.kind)) who := by
  unfold State.aliasPut putBlock
  rw [aliasBlock_eq h]
  dsimp only
  rw [blkElemBits_eq h]

/-- A lane within the low bytes of a register is the register's. -/
theorem lane_lowBytes (x : Nat) {n k : Nat} (h : 2 * (k + 1) ≤ n) : laneOf (x % 256 ^ n) 16 k = x / 2 ^ (16 * k) % 2 ^ 16 := by
  have e : 256 ^ n = 2 ^ (16 * k) * 2 ^ (8 * n - 16 * k) := by
    rw [← Nat.pow_add, show (256 : Nat) = 2 ^ 8 by norm_num, ← Nat.pow_mul]; congr 1; omega
  rw [laneOf, Nat.shiftRight_eq_div_pow, e, Nat.mod_mul_right_div_self, Nat.mod_mod_of_dvd _ (Nat.pow_dvd_pow 2 (by omega))]

theorem aliasWrite_eq (h : OwnAlias s ea need n p) (u : State) (x who : Nat) :
    u.aliasWrite p.akind (aliasAddr p ea) n (x % 256 ^ n) who = putBlock u p ea (quantMx (storedValues u p ea n x) (1 + p.kind)) who := by
  unfold State.aliasWrite
  dsimp only
  rw [aliasPut_eq h, aliasValues_eq h, aliasAddr_lane h, storedValues]
  refine congrArg (fun y => putBlock u p ea (quantMx y (1 + p.kind)) who) (List.map_congr_left fun i hi => ?_)
  rw [getD_aliasValues (List.mem_range.mp hi)]
  by_cases hc : ea.toNat % 64 / 2 ≤ i ∧ i < ea.toNat % 64 / 2 + n / 2
  · rw [if_pos hc, if_pos (by simpa using hc), lane_lowBytes x (by omega)]
  · rw [if_neg hc, if_neg (by simpa using hc)]

/-- A quantised block's scale is a byte and its codes are element codes. -/
theorem quantMx_fits (x : List Fl) (mx8 : Bool) : (quantMx x (if mx8 then 2 else 3)).1 < 256 ∧
    ∀ c ∈ (quantMx x (if mx8 then 2 else 3)).2, c < 2 ^ (if mx8 then 8 else 4) := by
  by_cases hfin : ∀ v ∈ x, v.isFin = true
  · rw [quantMx_of_fin hfin]
    refine ⟨?_, fun c hc => ?_⟩
    · unfold mxScale
      dsimp only
      split
      · norm_num
      · rw [satI_eq _ _ _ (by norm_num)]; omega
    · obtain ⟨v, hv, rfl⟩ := List.mem_map.mp hc
      have hg := (nearestCode_element mx8 (hfin v hv) (mxScale x mx8)).1
      cases mx8 <;> cases v.neg <;> simp only [Bool.false_eq_true, if_false, if_true] at hg ⊢ <;> omega
  · rw [quantMx_of_not_fin (by simpa using hfin)]
    refine ⟨by norm_num, fun c hc => ?_⟩
    obtain ⟨v, -, rfl⟩ := List.mem_map.mp hc
    exact Nat.two_pow_pos _

theorem quantMx_fits_page (h : OwnAlias s ea need n p) (x : List Fl) : (quantMx x (1 + p.kind)).1 < 256 ∧
    ∀ i, (quantMx x (1 + p.kind)).2.getD i 0 < 2 ^ elemBits p := by
  have hfits : (quantMx x (1 + p.kind)).1 < 256 ∧ ∀ c ∈ (quantMx x (1 + p.kind)).2, c < 2 ^ elemBits p := by
    rcases h.kind with hk | hk <;> rw [elemBits, hk]
    · exact quantMx_fits x true
    · exact quantMx_fits x false
  refine ⟨hfits.1, fun i => ?_⟩
  rw [List.getD_eq_getElem?_getD]
  cases hi : (quantMx x (1 + p.kind)).2[i]? with
  | none => exact Nat.two_pow_pos _
  | some c => exact hfits.2 c (List.mem_of_getElem? hi)

/-- A write leaves what a read below it shows. -/
theorem readN_writeN_out {m : Memory} (hwf : m.wf = true) {x y fa k v : Nat} (h : x + y ≤ fa) : (m.writeN fa k v).readN x y = m.readN x y := by
  rw [readN_eq_sum, readN_eq_sum]
  refine Finset.sum_congr rfl fun i hi => ?_
  rw [read_writeN_out hwf _ _ _ (by have := Finset.mem_range.mp hi; omega)]

/-- What a block put to memory leaves there. -/
theorem putBlock_spec {u : State} (h : OwnAlias s ea need n p) (hwf : u.mem.wf = true) {q : Nat × List Nat} (hq : q.1 < 256)
    (hcodes : ∀ i, q.2.getD i 0 < 2 ^ elemBits p) (hlen : q.2.length = 32) (who : Nat) : let t := putBlock u p ea q who
    OnlyBanks u t ∧ (∀ x, t.full x = u.full x) ∧
    (∀ x, (x < elemsAt p ea ∨ elemsAt p ea + 4 * elemBits p ≤ x) → x ≠ scaleAt p ea → t.byte x = u.byte x) ∧
    t.read (scaleAt p ea) 1 = q.1 ∧ ∀ i, elemCode t p ea i = q.2.getD i 0 := by
  intro t
  have hgap := elems_below_scale h
  have hmem : t.mem = (u.mem.writeN (elemsAt p ea) (4 * elemBits p) (packLanes (elemBits p) q.2)).writeN (scaleAt p ea) 1 q.1 := by
    rw [show t = putBlock u p ea q who from rfl, putBlock, store_mem, store_mem]
  have hwf1 := wf_writeN hwf (elemsAt p ea) (4 * elemBits p) (packLanes (elemBits p) q.2)
  refine ⟨(onlyBanks_store ..).trans (onlyBanks_store ..), fun x => (full_store ..).trans (full_store ..), fun x hx hs => ?_, ?_, fun i => ?_⟩
  · rw [State.byte, hmem, read_writeN_out hwf1 _ _ _ (by omega), read_writeN_out hwf _ _ _ hx]; rfl
  · rw [State.read, hmem, readN_writeN hwf1, Nat.pow_one, Nat.mod_eq_of_lt hq]
  · have hread : t.read (elemsAt p ea) (4 * elemBits p) = packLanes (elemBits p) q.2 := by
      rw [State.read, hmem, readN_writeN_out hwf1 (by omega), readN_writeN hwf]
      have hlt := packLanes_lt (elemBits p) q.2
      rw [hlen, show elemBits p * 32 = 8 * (4 * elemBits p) by ring, Nat.pow_mul] at hlt
      exact Nat.mod_eq_of_lt hlt
    rw [elemCode_eq, hread, laneOf_packLanes, Nat.mod_eq_of_lt (hcodes i)]

theorem length_quantMx (x : List Fl) (f : BlkFmt) : (quantMx x f).2.length = x.length := by
  unfold quantMx
  split <;> exact List.length_map ..

/-- ST of an MX page. -/
theorem st_alias (hn : n = 2 ∨ n = 4 ∨ n = 8) (h : OwnAlias s ea needW n p) (hc : CleanBlock s p ea) (d : Reg) : ∃ l,
    s.st d ea n = (putBlock { s.touch ea with spindles := l } p ea (quantMx (storedValues s p ea n (s.me.reg d).toNat) (1 + p.kind))
      (s.touch ea).myWho).retire id := by
  have hu := OnlyTlbs.touch s ea
  have hwin : s.me.inWindow ea = false := (xlate_eq_ok_iff.mp h.page).1.resolve_left nofun
  have hhome : faSp (aliasAddr p ea) = (s.touch ea).here := by rw [hu.here]; exact faSp_aliasAddr h
  have hpage : s.xlate ea (plainNeed needW n) = .ok (aliasAddr p ea, p) := by rw [plainNeed_two needW hn]; exact h.page
  have hpp : (s.touch ea).pagePoison p.akind (aliasAddr p ea) n true = false := by
    rw [State.pagePoison, if_neg (akind_ne_zero h)]; exact aliasPoisoned_eq h hc
  obtain ⟨l, e⟩ := storeHere_clean (hitsCopy_eq h hc) hpp ea ((s.me.reg d).toNat % 256 ^ n)
  have hval : storedValues { s.touch ea with spindles := l } p ea n (s.me.reg d).toNat = storedValues s p ea n (s.me.reg d).toNat := by
    have hv : elemValue { s.touch ea with spindles := l } p ea = elemValue s p ea := elemValue_touch s ea p ea
    unfold storedValues
    rw [hv]
  have hlow : (s.me.reg d).toNat % 2 ^ (8 * n) = (s.me.reg d).toNat % 256 ^ n := by rw [Nat.pow_mul]
  rw [State.pageWrite, if_neg (akind_ne_zero h), aliasWrite_eq h, hval] at e
  refine ⟨l, ?_⟩
  rw [st_xlate h.aligned hwin, hpage, ← e]
  simp only [State.onChk, State.storeAt, hu.noRels h.rels, hhome, hlow, Bool.false_eq_true, if_false, if_true]

/-! ### What an MX page does not take (R109) -/

/-- An access of another kind finds that the page takes it not. -/
theorem xlate_refused (h : OwnAlias s ea need n p) {m : Need} (hx : need.x = false) (hm : m.alias_ = false) : s.xlate ea m = .trap cXLATE ea := by
  obtain ⟨hwin, -, hfind, -, -⟩ := xlate_eq_ok_iff.mp h.page
  have hwin : s.me.inWindow ea = false := hwin.resolve_left (by rw [hx]; nofun)
  have hok : m.ok p = false := by rcases h.kind with hk | hk <;> simp [Need.ok, hm, hk]
  simp [State.xlate, hwin, hfind, hok]

theorem dup_refused {a : Reg} {sz : Nat} (ha : (s.me.reg a).toNat % 2 ^ sz = 0) (hx : s.xlate (s.me.reg a) needW = .trap cXLATE (s.me.reg a))
    (op : Nat) (b : Reg) : s.dup op sz a b 0 = s.trap cXLATE (s.me.reg a) := by
  simp [State.dup, ha, hx, State.onChk]

theorem amo_refused {a : Reg} (ha : (s.me.reg a).toNat % 8 = 0) (hx : s.xlate (s.me.reg a) needRW = .trap cXLATE (s.me.reg a)) (op : Nat)
    (d b c : Reg) : s.amo op d a b c false = s.trap cXLATE (s.me.reg a) := by
  simp [State.amo, wBytes, ha, hx, State.onChk]
end

theorem aliasPagesHoldBlocks : AliasPagesHoldBlocks := by
  intro s d a b sz off p n ea i0
  have hsz : sz ≠ 0 → n = 2 ∨ n = 4 ∨ n = 8 := by revert n; revert sz; decide
  have hn1 : sz = 0 → n = 1 := by rintro rfl; rfl
  have hn8 : sz = 3 → n = 8 := by rintro rfl; rfl
  have hbase : off = 0 → ea = s.me.reg a := by rintro rfl; exact (congrArg (s.me.reg a + ·) (by decide)).trans (BitVec.add_zero _)
  have trap {i : Instr} {t : State} (hh : s.Handled) (hexec : exec i s = .next t) (ht : t = s.trap cXLATE ea) : Traps i s cXLATE ea :=
    traps_trap hh (ht ▸ hexec)
  refine ⟨fun h0 h hc => ?_, fun h0 h hc hwf => ?_, fun hh => ⟨fun h => ?_, fun h => ?_, fun h => ?_⟩⟩
  · have hn := hsz h0
    exact ⟨aliasLoad s p ea n, aliasLoad_lt hn, fun i hi => aliasLoad_lane hi (by omega), ⟨_, rfl, ld_alias hn h hc d false⟩,
      fun _ => ⟨_, rfl, ld_alias hn h hc d true⟩⟩
  · have hu := OnlyTlbs.touch s ea
    obtain ⟨l, e⟩ := st_alias (hsz h0) h hc d
    obtain ⟨hq, hcodes⟩ := quantMx_fits_page h (storedValues s p ea n (s.me.reg d).toNat)
    obtain ⟨hbanks, hfull, hbytes, hscale, helems⟩ := putBlock_spec (u := { s.touch ea with spindles := l }) h (by rw [touch_mem]; exact hwf) hq hcodes
      ((length_quantMx ..).trans (by simp [storedValues])) (s.touch ea).myWho
    exact ⟨_, congrArg Host.Outcome.next (show s.st d ea n = _ from e), wentOn_retire (fun k => (hbanks.ctx k).trans (hu.ctx k)) (hbanks.cur.trans hu.cur), fun x => (hfull x).trans (hu.sameMemory.full x),
      fun x hx hs => (hbytes x hx hs).trans (hu.sameMemory.bytes x), hscale, fun i _ => helems i⟩
  · have sync (op : Nat) (r : Reg) (data : Nat) (ho : (syncNeed op).alias_ = false) : s.sync op r ea n data = s.trap cXLATE ea := by
      rw [sync_xlate h.aligned, xlate_refused h rfl ho]; rfl
    refine ⟨trap hh rfl (sync opLDF d 0 rfl), fun h0 => trap hh rfl ?_, fun h3 => trap hh rfl ?_⟩
    · have hwin : s.me.inWindow ea = false := (xlate_eq_ok_iff.mp h.page).1.resolve_left nofun
      have hone : (plainNeed needR n).alias_ = false := by rw [hn1 h0]; rfl
      exact (ld_xlate h.aligned hwin d false).trans (by rw [xlate_refused h rfl hone]; rfl)
    · exact hn8 h3 ▸ sync opFEQ d 0 rfl
  · have sync (op : Nat) (r : Reg) (data : Nat) (ho : (syncNeed op).alias_ = false) : s.sync op r ea n data = s.trap cXLATE ea := by
      rw [sync_xlate h.aligned, xlate_refused h rfl ho]; rfl
    refine ⟨trap hh rfl (sync opSTF d _ rfl), trap hh rfl (sync opSTW d _ rfl), fun h0 => trap hh rfl ?_, fun h3 => trap hh rfl ?_, fun hoff => trap hh rfl ?_⟩
    · have hwin : s.me.inWindow ea = false := (xlate_eq_ok_iff.mp h.page).1.resolve_left nofun
      have hone : (plainNeed needW n).alias_ = false := by rw [hn1 h0]; rfl
      exact (st_xlate h.aligned hwin d).trans (by rw [xlate_refused h rfl hone]; rfl)
    · exact hn8 h3 ▸ sync opFEC 0 0 rfl
    · have ha := hbase hoff ▸ h.aligned
      have hx := hbase hoff ▸ xlate_refused h rfl (m := needW) rfl
      rw [hbase hoff]
      exact dup_refused ha hx 7 b
  · refine ⟨trap hh rfl ?_, fun hoff h3 => trap hh rfl ?_⟩
    · exact (sync_xlate h.aligned opLDE d 0).trans (by rw [xlate_refused h rfl rfl]; rfl)
    · have ha := hbase hoff ▸ hn8 h3 ▸ h.aligned
      have hx := hbase hoff ▸ xlate_refused h rfl (m := needRW) rfl
      rw [hbase hoff]
      exact amo_refused ha hx 0 d b 0

/-- Settles O17: a store at its bank is the bytes' write, an MX page's block is read and quantised whole, and RoundMag gives the nearest
code. -/
theorem storesWriteOwnMemory : Obligations.StoresWriteOwnMemory :=
  ⟨plainStoresWriteTheirBytes, aliasPagesHoldBlocks, blocksAreQuantised⟩

end Sys2Proof.Laws
end
